-- ==== Sys2Proof/Word.lean ====
section
/-! DEFINITION. The word types of the K96: bytes, register words, 64-bit words, lane masks. -/

namespace Sys2Proof

/-- One byte of memory. -/
abbrev Byte := BitVec 8

/-- A 16-bit field. -/
abbrev Half := BitVec 16

/-- A per-lane register word (v, k, y). -/
abbrev W32 := BitVec 32

/-- A 64-bit word: s and z registers, PCs, addresses, instruction words. -/
abbrev W64 := BitVec 64

/-- One bit per lane of a group; bit l is lane l. -/
abbrev Mask := BitVec 64

end Sys2Proof
end

