-- ==== Sys2Proof/Config.lean ====
section
/-! DEFINITION. What the spec leaves open. Each constant here is opaque: it has no body, nothing can be proved of its value,
and a statement that mentions one holds for every value. The log entry that names each stands in its docstring. -/

namespace Sys2Proof.Config

/-- The fused minimum security version (R449, R452); the spec gives no number. Log entry 5. -/
opaque fusedSvn : W32
/-- The security version an image in flash carries (R452); the image's layout is not in the spec. Log entry 7. -/
opaque imageSvn : List Byte → W32
/-- Whether the image's ML-DSA-87 signature verifies under the fused key (R452). Log entry 7. -/
opaque imageVerifies : List Byte → Bool
/-- Behind `flashSize`. -/
opaque flashBytes : W32
/-- The bytes of package flash available for an image (R453, MBXSTAT.SIZE): open, but that one piece of 2,048 bytes fits.
Log entry 7. -/
def flashSize : W32 := if flashBytes.toNat < 2048 then 2048 else flashBytes
/-- The configuration an image extends M1 with (R452). Log entry 7. -/
opaque imageConfig : List Byte → List Byte
/-- The image's length in flash, whose digest the boot ROM takes (R452). Log entry 7. -/
opaque imageLength : List Byte → Nat
/-- The ML-DSA-87 signature of an attestation report's body, 4,627 bytes (R454). Log entry 7. -/
opaque attestSignature : List Byte → List Byte
/-- The fc that have passed between two reads of true time, by the model's free counter (R280, R153). Log entry 3. -/
opaque trueTime : Nat → W64
/-- Picks behind the numbers that the cores report for CLU and CORE (R280); fixed from reset to reset. Log entry 8. -/
opaque placement : Nat → W64
/-- Which free record WALLOC gives (R401), by the free counter. Log entry 9. -/
opaque recordPick : Nat → Nat
/-- Which of the ports in PORTS an address takes, by PA[51:7], counted from the lowest (R20). Log entry 91. -/
opaque portPick : Nat → Nat
/-- A 64-bit value the spec leaves open, by the free counter. Log entry 3. -/
opaque freeWord : Nat → W64
/-- A 32-bit value the spec leaves open, by the free counter. Log entry 3. -/
opaque freeHalf : Nat → W32
/-- A byte the spec leaves open, by the free counter. Log entry 3. -/
opaque freeByte : Nat → Byte
/-- A choice between two outcomes the spec both allows, by the free counter. Log entry 3. -/
opaque freeBool : Nat → Bool
/-- The bytes of one private snapshot of the cache or of a saved team, whose layout the spec keeps private. Log entry 10. -/
opaque privateLayout : Nat → Byte

end Sys2Proof.Config
end

