-- ==== Sys2Proof/Machine/Bank.lean ====
section
/-! DEFINITION. Plain containers: register banks (lists read and written by index, a missing entry being the bank's
default), and maps from numbers to data in ascending order of their keys. -/

namespace Sys2Proof

/-- Entry i of a bank whose missing entries hold d. -/
def bankGet {α : Type} (l : List α) (d : α) (i : Nat) : α := l.getD i d

/-- The bank with x at index i, padded with d where it is shorter. -/
def bankPut {α : Type} (d : α) : List α → Nat → α → List α
  | [], 0, x => [x]
  | [], i + 1, x => d :: bankPut d [] i x
  | _ :: t, 0, x => x :: t
  | a :: t, i + 1, x => a :: bankPut d t i x

theorem bankGet_put {α : Type} (d : α) (l : List α) (i j : Nat) (x : α) :
    bankGet (bankPut d l i x) d j = if i = j then x else bankGet l d j := by
  induction l generalizing i j with
  | nil =>
    induction i generalizing j with
    | zero => cases j <;> simp [bankPut, bankGet]
    | succ n ih =>
      cases j with
      | zero => simp [bankPut, bankGet]
      | succ m => simpa [bankPut, bankGet] using ih m
  | cons a t ih =>
    cases i with
    | zero => cases j <;> simp [bankPut, bankGet]
    | succ n =>
      cases j with
      | zero => simp [bankPut, bankGet]
      | succ m => simpa [bankPut, bankGet] using ih n m

/-- A map from numbers, ascending in its keys. -/
abbrev KMap (α : Type) := List (Nat × α)

def KMap.find {α : Type} (m : KMap α) (k : Nat) : Option α :=
  match m with
  | [] => none
  | (a, x) :: t => if a = k then some x else KMap.find t k

/-- The entry of key k, or d. -/
def KMap.get {α : Type} (m : KMap α) (d : α) (k : Nat) : α := (KMap.find m k).getD d

def KMap.set {α : Type} (m : KMap α) (k : Nat) (x : α) : KMap α :=
  match m with
  | [] => [(k, x)]
  | (a, y) :: t => if a = k then (k, x) :: t else if k < a then (k, x) :: (a, y) :: t else (a, y) :: KMap.set t k x

def KMap.keys {α : Type} (m : KMap α) : List Nat := m.map (·.1)

/-- Every entry replaced by f of its key and value. -/
def KMap.update {α : Type} (m : KMap α) (f : Nat → α → α) : KMap α := m.map fun e => (e.1, f e.1 e.2)

theorem KMap.find_set {α : Type} (m : KMap α) (k j : Nat) (x : α) :
    KMap.find (KMap.set m k x) j = if k = j then some x else KMap.find m j := by
  induction m with
  | nil => simp [KMap.set, KMap.find]
  | cons e t ih =>
    obtain ⟨a, y⟩ := e
    by_cases h : a = k
    · subst h
      by_cases hj : a = j <;> simp [KMap.set, KMap.find, hj]
    · by_cases hk : k < a
      · by_cases hj : k = j
        · subst hj
          simp [KMap.set, KMap.find, h, hk]
        · simp [KMap.set, KMap.find, h, hk, hj]
      · by_cases hj : a = j
        · subst hj
          simp [KMap.set, KMap.find, h, hk, Ne.symm h]
        · simp [KMap.set, KMap.find, h, hk, hj, ih]

theorem KMap.get_set {α : Type} (m : KMap α) (d : α) (k j : Nat) (x : α) :
    KMap.get (KMap.set m k x) d j = if k = j then x else KMap.get m d j := by
  unfold KMap.get
  rw [KMap.find_set]
  split <;> simp

/-- A set of numbers, ascending. -/
abbrev NSet := List Nat

def NSet.insert (s : NSet) (n : Nat) : NSet :=
  match s with
  | [] => [n]
  | a :: t => if a = n then a :: t else if n < a then n :: a :: t else a :: NSet.insert t n
def NSet.erase (s : NSet) (n : Nat) : NSet := s.filter (· ≠ n)
def NSet.has (s : NSet) (n : Nat) : Bool := s.contains n

/-- Insertion into a list kept ascending under `le`; equal elements keep their order. -/
def insertBy {α : Type} (le : α → α → Bool) (x : α) : List α → List α
  | [] => [x]
  | a :: t => if le a x then a :: insertBy le x t else x :: a :: t
/-- A stable sort. -/
def sortBy {α : Type} (le : α → α → Bool) (l : List α) : List α := l.foldl (fun acc x => insertBy le x acc) []

end Sys2Proof
end

