-- ==== Sys2Proof/Syntax.lean ====
section
/-! DEFINITION. The syntax of the K96's instructions and of the steps of its other agents: operand specifiers and field
codes of spec/09 (R231 to R238), the block header (R227), and the one inductive Instr with one constructor for each row of
spec/opcode_table.json. An instruction word's constructor carries its predicate and the fields of its format; an event's
constructor carries plain data that names what it acts on. -/

namespace Sys2Proof

/-- Constants of R237: 0 / +0.0, 1 / 1.0, −1 / −1.0, 2 / 2.0, 4 / 0.5 (R204). -/
inductive Const | zero | one | negOne | two | fourHalf
deriving DecidableEq, Repr, Inhabited

/-- Special operands of R184, in the order of their specifiers 0xB0 to 0xB7. -/
inductive Special | lane | grp | tlane | team | gw | pc | role | nteam
deriving DecidableEq, Repr, Inhabited

/-- Operand specifiers (R237). -/
inductive Opnd
  | v (i : Fin 64) | s (i : Fin 64) | k (i : Fin 8) | y (i : Fin 2) | m (i : Fin 8) | a (i : Fin 8) | z (i : Fin 4)
  | const (c : Const) | spec (x : Special)
deriving DecidableEq, Repr, Inhabited

/-- The TYPE codes of R237, in the order 0 to 13. -/
inductive Ty
  | i32 | n32 | b32 | i64 | n64 | b64 | f64 | f32 | f16x2 | bf16x2 | e4m3x4 | e5m2x4 | ai8 | ai4
deriving DecidableEq, Repr, Inhabited

/-- The rounding override RMO (R208): `lane` is code 000, the lane's FPL.RM. -/
inductive Rmo | lane | rne | rz | ru | rd
deriving DecidableEq, Repr, Inhabited

/-- Completion flag selection SF (R130). -/
inductive Sf | none | a | b
deriving DecidableEq, Repr, Inhabited

/-- SCOPE codes (R238). -/
inductive Scope | grp | core | clu | pkg | pod
deriving DecidableEq, Repr, Inhabited

/-- ORD codes (R238). -/
inductive Ord | rlx | acq | rel | ar | sc
deriving DecidableEq, Repr, Inhabited

/-- WIDTH codes (R238). -/
inductive Width | b8 | b16 | b32 | b64 | b128
deriving DecidableEq, Repr, Inhabited

/-- HINT codes (R238). -/
inductive Hint | none | keep | strm | nal
deriving DecidableEq, Repr, Inhabited

/-- The predicate fields PRED and PN of every instruction word (R231). -/
structure Pred where
  m   : Fin 8
  neg : Bool
deriving DecidableEq, Repr, Inhabited

/-- The fields of the V format (R232). -/
structure VF where
  d : Opnd
  a : Opnd
  b : Opnd
  c : Opnd
  ty : Ty
  rmo : Rmo
  sat : Bool
  sf : Sf
  mod : BitVec 6
deriving DecidableEq, Repr, Inhabited

/-- The fields of the VI format (R233). -/
structure IF where
  d : Opnd
  a : Opnd
  imm : W32
deriving DecidableEq, Repr, Inhabited

/-- The fields of the M format (R234). -/
structure MF where
  d : Opnd
  a : Opnd
  b : Opnd
  scope : Scope
  ord : Ord
  sf : Sf
  width : Width
  hint : Hint
  imm : BitVec 11
deriving DecidableEq, Repr, Inhabited

/-- The fields of the B format (R235). -/
structure BF where
  c : Opnd
  n : Byte
  ofs : W32
deriving DecidableEq, Repr, Inhabited

/-- KIND of a block header (R227). -/
inductive HKind | ord | trap | node | grid
deriving DecidableEq, Repr, Inhabited

/-- A valid block header (R227); SETA and SETB are `none` for code 15. -/
structure Header where
  len : BitVec 6
  wait : BitVec 12
  setA : Option (Fin 12)
  setB : Option (Fin 12)
  live : Fin 65
  kind : HKind
  pfx : BitVec 20
deriving DecidableEq, Repr, Inhabited

/-- The trailer of a chunk (R459): STEP, the chunk's index, and the non-finite bit of its inputs and result (R156). -/
structure Trailer where
  step : W32
  index : Nat
  nonFinite : Bool
deriving DecidableEq, Repr, Inhabited

/-- One peer rank's share in a collective (R334, R335, R459): the chip it comes from, whether its COUNT, TYPE and OP agree, the trailers
of its chunks, and the bytes they carry. What the peer sends is an input of the model. -/
structure PeerPart where
  chip : Nat
  agree : Bool
  trailers : List Trailer
  data : List Byte
deriving DecidableEq, Repr, Inhabited

/-- The float environment of a read-modify-write: the FPL of the lane of an atomic (R320), or the RM of a reduction's grid
(R137). -/
inductive RmwMode | lane (fpl : W32) | red (rm : BitVec 2)
deriving DecidableEq, Repr, Inhabited

/-- The compare-and-swap family (R321). -/
inductive CasKind | cas | casgt (signed : Bool) | casv | caspt
deriving DecidableEq, Repr, Inhabited

/-- What a peer's access does at its home (R105): reads and writes, with the poison of the 8-byte words written, atomics and
reductions, and for a peer's tile the lock of a line, asked for and given up (R90). -/
inductive PeerKind
  | read
  | write (data : List Byte) (poi : List Bool)
  | rmw (op ty : BitVec 4) (mode : RmwMode) (data : List Byte)
  | cas (kind : CasKind) (data : List Byte)
  | lock (excl : Bool)
  | unlock
deriving DecidableEq, Repr, Inhabited

/-- A peer's access to local HBM (R105); `who` names the peer's tile that locks lines, 0 for any other access. -/
structure PeerAccess where
  pa : Nat
  n : Nat
  kind : PeerKind
  who : Nat := 0
deriving DecidableEq, Repr, Inhabited

/-- The host's two memory windows (R447). -/
inductive Window | a | b
deriving DecidableEq, Repr, Inhabited

/-- What a soft error strikes (R463, R59, R71, R72). -/
inductive ErrTarget
  | singleBit
  | memWord (pa : Nat)
  | scrWord (team word : Nat)
  | register (grp : Nat)
  | barrier (team off : Nat)
  | l1Line (core line : Nat)
  | firmware
deriving DecidableEq, Repr, Inhabited

/-- The instructions and events of spec/opcode_table.json, one constructor for each row. A `grp`, `team` or `grid`
argument is the model's handle of that group, team or grid; a `ctx`, `core` or `queue` argument its number. -/
inductive Instr
  | nop (p : Pred) (f : VF)
  | bra (p : Pred) (f : BF)
  | bru (p : Pred) (f : BF)
  | brx (p : Pred) (f : BF)
  | call (p : Pred) (f : BF)
  | callx (p : Pred) (f : BF)
  | ret (p : Pred) (f : VF)
  | exit (p : Pred) (f : VF)
  | yield (p : Pred) (f : VF)
  | trap (p : Pred) (f : IF)
  | tret (p : Pred) (f : VF)
  | bkpt (p : Pred) (f : IF)
  | waitf (p : Pred) (f : IF)
  | add (p : Pred) (f : VF)
  | sub (p : Pred) (f : VF)
  | mul (p : Pred) (f : VF)
  | mulh (p : Pred) (f : VF)
  | mad (p : Pred) (f : VF)
  | addc (p : Pred) (f : VF)
  | subb (p : Pred) (f : VF)
  | and (p : Pred) (f : VF)
  | or (p : Pred) (f : VF)
  | xor (p : Pred) (f : VF)
  | andn (p : Pred) (f : VF)
  | shl (p : Pred) (f : VF)
  | shr (p : Pred) (f : VF)
  | sra (p : Pred) (f : VF)
  | rot (p : Pred) (f : VF)
  | min (p : Pred) (f : VF)
  | max (p : Pred) (f : VF)
  | absd (p : Pred) (f : VF)
  | cmp (p : Pred) (f : VF)
  | sel (p : Pred) (f : VF)
  | popc (p : Pred) (f : VF)
  | clz (p : Pred) (f : VF)
  | brev (p : Pred) (f : VF)
  | bfe (p : Pred) (f : VF)
  | bfi (p : Pred) (f : VF)
  | mov (p : Pred) (f : VF)
  | div (p : Pred) (f : VF)
  | movi (p : Pred) (f : IF)
  | addi (p : Pred) (f : IF)
  | andi (p : Pred) (f : IF)
  | ori (p : Pred) (f : IF)
  | xori (p : Pred) (f : IF)
  | cmpi (p : Pred) (f : IF)
  | atr (p : Pred) (f : VF)
  | arel (p : Pred) (f : VF)
  | lea (p : Pred) (f : MF)
  | aget (p : Pred) (f : VF)
  | mand (p : Pred) (f : VF)
  | mor (p : Pred) (f : VF)
  | mxor (p : Pred) (f : VF)
  | mandn (p : Pred) (f : VF)
  | mmov (p : Pred) (f : VF)
  | mpopc (p : Pred) (f : VF)
  | mfirst (p : Pred) (f : VF)
  | mact (p : Pred) (f : VF)
  | gsplit (p : Pred) (f : IF)
  | gfuse (p : Pred) (f : VF)
  | gang (p : Pred) (f : VF)
  | mfsr (p : Pred) (f : IF)
  | mtsr (p : Pred) (f : IF)
  | hexitWrite (p : Pred) (f : IF)
  | ptmaskWrite (p : Pred) (f : IF)
  | clk (p : Pred) (f : VF)
  | zread (p : Pred) (f : IF)
  | rng (p : Pred) (f : VF)
  | ecount (p : Pred) (f : VF)
  | fadd (p : Pred) (f : VF)
  | fsub (p : Pred) (f : VF)
  | fmul (p : Pred) (f : VF)
  | ffma (p : Pred) (f : VF)
  | fmin (p : Pred) (f : VF)
  | fmax (p : Pred) (f : VF)
  | fminm (p : Pred) (f : VF)
  | fmaxm (p : Pred) (f : VF)
  | fcmp (p : Pred) (f : VF)
  | fclass (p : Pred) (f : VF)
  | fdiv (p : Pred) (f : VF)
  | fsqrt (p : Pred) (f : VF)
  | frcp (p : Pred) (f : VF)
  | frsq (p : Pred) (f : VF)
  | fexp2 (p : Pred) (f : VF)
  | flog2 (p : Pred) (f : VF)
  | fsin (p : Pred) (f : VF)
  | fcos (p : Pred) (f : VF)
  | frint (p : Pred) (f : VF)
  | fscale (p : Pred) (f : VF)
  | fgetexp (p : Pred) (f : VF)
  | fdot2 (p : Pred) (f : VF)
  | fcvt (p : Pred) (f : VF)
  | ftoi (p : Pred) (f : VF)
  | itof (p : Pred) (f : VF)
  | pack8 (p : Pred) (f : VF)
  | unpk8 (p : Pred) (f : VF)
  | qnt (p : Pred) (f : VF)
  | deq (p : Pred) (f : VF)
  | bcast (p : Pred) (f : VF)
  | shfl (p : Pred) (f : VF)
  | shup (p : Pred) (f : VF)
  | shdn (p : Pred) (f : VF)
  | ballot (p : Pred) (f : VF)
  | redux (p : Pred) (f : VF)
  | scan (p : Pred) (f : VF)
  | elect (p : Pred) (f : VF)
  | lget (p : Pred) (f : VF)
  | lput (p : Pred) (f : VF)
  | ld (p : Pred) (f : MF)
  | lds (p : Pred) (f : MF)
  | ldk (p : Pred) (f : MF)
  | st (p : Pred) (f : MF)
  | sts (p : Pred) (f : MF)
  | stk (p : Pred) (f : MF)
  | zst (p : Pred) (f : MF)
  | tld (p : Pred) (f : MF)
  | tst (p : Pred) (f : MF)
  | tlds (p : Pred) (f : MF)
  | tsts (p : Pred) (f : MF)
  | tileLockGrant (grp : Nat)
  | atom (p : Pred) (f : MF)
  | cas (p : Pred) (f : MF)
  | casgt (p : Pred) (f : MF)
  | casv (p : Pred) (f : MF)
  | caspt (p : Pred) (f : MF)
  | red (p : Pred) (f : MF)
  | rflush (p : Pred) (f : MF)
  | fence (p : Pred) (f : MF)
  | cinv (p : Pred) (f : MF)
  | cflu (p : Pred) (f : MF)
  | pref (p : Pred) (f : MF)
  | binit (p : Pred) (f : MF)
  | bexpect (p : Pred) (f : MF)
  | barrive (p : Pred) (f : MF)
  | bwait (p : Pred) (f : MF)
  | btest (p : Pred) (f : MF)
  | cpy (p : Pred) (f : MF)
  | cpyt (p : Pred) (f : MF)
  | cpyc (p : Pred) (f : MF)
  | cpys (p : Pred) (f : MF)
  | engineWriteLanding (team cmd n : Nat)
  | flagClear (grp flag : Nat)
  | streamBeatAccept (team push consumer n : Nat)
  | stash (p : Pred) (f : MF)
  | restore (p : Pred) (f : MF)
  | collar (p : Pred) (f : MF)
  | collrs (p : Pred) (f : MF)
  | collag (p : Pred) (f : MF)
  | collupd (p : Pred) (f : MF)
  | collcmt (p : Pred) (f : MF)
  | collectiveCompletion (team coll : Nat) (peers : List PeerPart)
  | walloc (p : Pred) (f : VF)
  | wsend (p : Pred) (f : VF)
  | launch (p : Pred) (f : VF)
  | mma (p : Pred) (f : VF)
  | mmasp (p : Pred) (f : VF)
  | mmaPop (grp : Nat)
  | mmaComplete (grp : Nat)
  | spush (p : Pred) (f : VF)
  | mqstat (p : Pred) (f : VF)
  | mdrop (p : Pred) (f : VF)
  | xdec (p : Pred) (f : VF)
  | xenc (p : Pred) (f : VF)
  | xsparse (p : Pred) (f : VF)
  | xmatch (p : Pred) (f : VF)
  | xsort (p : Pred) (f : VF)
  | xperm (p : Pred) (f : VF)
  | xtrn (p : Pred) (f : VF)
  | topen (p : Pred) (f : VF)
  | trec (p : Pred) (f : VF)
  | tpop (p : Pred) (f : VF)
  | tmark (p : Pred) (f : VF)
  | tend (p : Pred) (f : VF)
  | tstat (p : Pred) (f : VF)
  | tclose (p : Pred) (f : VF)
  | tapeSpill (grp : Nat)
  | tapeFill (grp : Nat)
  | rcov (p : Pred) (f : VF)
  | esmp (p : Pred) (f : VF)
  | tex (p : Pred) (f : VF)
  | texl (p : Pred) (f : VF)
  | texadj (p : Pred) (f : VF)
  | trace (p : Pred) (f : VF)
  | tresume (p : Pred) (f : VF)
  | tabort (p : Pred) (f : VF)
  | hitadj (p : Pred) (f : VF)
  | rcq (p : Pred) (f : VF)
  | rcsync (p : Pred) (f : VF)
  | rcstat (p : Pred) (f : VF)
  | syncPoint (grid : Nat)
  | temperStep (ctx : Nat)
  | versionPublish (ctx : Nat)
  | laneWaitResume (grp : Nat)
  | groupStallWake (grp : Nat)
  | fusion (grp : Nat)
  | yieldRelease (grp : Nat)
  | groupRetirement (grp : Nat)
  | teamRetirement (team : Nat)
  | anvilStage (team : Nat) (full : Bool)
  | epochClose (grid : Nat)
  | uPartialApply (core line : Nat)
  | lqtailWrite (queue : Nat) (tail : W32)
  | launchRecordTake (queue : Nat)
  | gridStart (grid : Nat)
  | teamPlacement (grid : Nat) (cores : List Nat) (keep : Bool)
  | eviction (team : Nat)
  | teamRestore (team core : Nat)
  | gridCompletion (grid : Nat)
  | invalidationRequest (ctx : Nat) (count : W32)
  | invalidationComplete (ctx : Nat)
  | fqheadWrite (ctx : Nat) (head : W32)
  | fqctlRetry (ctx : Nat)
  | cacheLoad (ctx : Nat)
  | cacheSave (ctx : Nat)
  | switch (ctx : Nat)
  | switchComplete (ctx : Nat)
  | contextResume (ctx : Nat)
  | kill (ctx : Nat)
  | snapshot (grp : Nat)
  | arm (ctx : Nat) (launchIdx : Byte) (part : BitVec 2)
  | stopReached (grp : Nat)
  | disarm (ctx : Nat)
  | debugResume (ctx : Nat)
  | debugRead (ctx : Nat) (spec : Byte) (lane : BitVec 6)
  | debugWrite (ctx : Nat) (spec : Byte) (lane : BitVec 6)
  | traceCaptureOn (ctx : Nat)
  | traceCaptureOff (ctx : Nat)
  | samplePacket (grp : Nat) (kind : Byte) (times : List Half)
  | hostWrite (off : Nat) (data : List Byte)
  | hostRead (win : Window) (off n : Nat)
  | remoteAccessArrival (acc : PeerAccess)
  | remoteReply (req : Nat) (data : List Byte × List Bool)
  | remoteRequestLost (req : Nat)
  | featenWrite (value : W64)
  | packageReset
  | mailboxWrite
  | mailboxWriteDone
  | mailboxCommit
  | attcmdGo (ctx : Nat)
  | attestationReportDone (ctx : Nat)
  | registerWrite (off : Nat) (value : W64)
  | writeBufferDrain (core : Nat)
  | leaseRevoke (entry : Fin 8)
  | leaseNotice (entry : Fin 8)
  | leaseAck (entry : Fin 8)
  | leaseDeadline (entry : Fin 8)
  | lenderReclaim (entry : Fin 8)
  | portStateChange (port : Fin 16) (up : Bool)
  | barSizeSelect (log : Nat)
  | arbitrationAgeGrant (point : Nat)
  | starvationGuard (grp : Nat)
  | rotationRule (grp : Nat)
  | handlerOverrun (grp : Nat)
  | llcctlUnpin
  | pinwWrite (pinw : BitVec 4)
  | softError (target : ErrTarget)
  | scrub (bad : List Nat)
  | reservoirTick (static : Nat) (debits : List Nat)
  | debugForceWrite (ctx : Nat) (spec : Byte) (lane : BitVec 6)
  | preEmptionWithdraw (team : Nat)
  | batchTimeout (grid node : Nat)
deriving DecidableEq, Repr

end Sys2Proof
end

