-- ==== Sys2Proof/Machine/State.lean ====
section
/-! DEFINITION. The state of the K96 as plain data: HBM, the package and context registers, cores, grids, teams, groups and
lanes, with every queue the spec gives them, and the state right after reset. -/

namespace Sys2Proof.Machine

/-! ## Fault records and names -/

/-- A fault record (R41); `aux` in the form its kind asks for. -/
structure FRec where
  kind : Nat := 0
  access : Nat := 0
  width : Nat := 7
  seq : W32 := 0
  va : W64 := 0
  mask : Mask := 0
  pc : W64 := 0
  grid : W32 := 0
  team : W32 := 0
  group : Nat := 0
  gw : Nat := 0
  flags : Nat := 0
  intv : W32 := 0
  retired : W64 := 0
  aux : W64 := 0
deriving DecidableEq, Repr, Inhabited

/-- A barrier object: the team that holds it, its offset, and the address it was named by (R109, R413). -/
structure BarName where
  team : Nat := 0
  off : Nat := 0
  kspace : Bool := false
  addr : W32 := 0
deriving DecidableEq, Repr, Inhabited

/-! ## Lanes -/

/-- A per-lane register word with its poison bit (R417). -/
structure Reg where
  val : W32 := 0
  poi : Bool := false
deriving DecidableEq, Repr, Inhabited

/-- An entry of the y file (R53). -/
structure YReg where
  val : W32 := 0
  poi : Bool := false
  valid : Bool := false
deriving DecidableEq, Repr, Inhabited

/-- Lane states (R186). -/
inductive LaneSt | running | waiting | trapped | exited
deriving DecidableEq, Repr, Inhabited

/-- What a Waiting lane waits for (R186): with the word and the retired count of its barrier instruction, and for an arrival
whether it is designated once its phase has completed (R154). -/
inductive Wait
  | none
  | bwait (b : BarName) (phase : W32) (scope : Scope) (word ret : W64)
  | arriveL (b : BarName) (phase : W32) (d : Fin 64) (res : Option Bool) (word ret : W64)
  | gfuse
deriving DecidableEq, Repr, Inhabited

/-- How a lane's PC was reached: inside the block its base names; at a header that must have a KIND (R228); or set by a
handler or debugger, to be judged when the lane next issues (R230). -/
inductive Reach | inside | header (k : HKind) | patched
deriving DecidableEq, Repr, Inhabited

structure Lane where
  pc : W64 := 0
  bb : W64 := 0
  hdr : W64 := 0
  reach : Reach := .inside
  st : LaneSt := .running
  wait : Wait := .none
  /-- the end that a wait at a barrier object has come to: its phase has completed (false) or the object has overrun (true) -/
  woken : Option Bool := none
  /-- the issue that entered the wait has still to count, when a lane of it retires (R152) -/
  owes : Bool := false
  rot : Nat := 0
  v : List Reg := []
  k : List Reg := []
  y0 : YReg := {}
  y1 : YReg := {}
  fpl : W32 := 0
  ctr : W32 := 0
  wsends : Nat := 0
  samples : Nat := 0
deriving DecidableEq, Repr, Inhabited

/-! ## Groups -/

/-- An s register (R47, R417). -/
structure SReg where
  val : W64 := 0
  poi : Bool := false
deriving DecidableEq, Repr, Inhabited

/-- An m register with a poison bit for each lane. -/
structure MReg where
  bits : Mask := 0
  poi : Mask := 0
deriving DecidableEq, Repr, Inhabited

/-- A translation register (R21). -/
structure AReg where
  valid : Bool := false
  baseva : W64 := 0
  pbase : BitVec 52 := 0
  limit : W32 := 0
  attr : Half := 0
  epoch : W32 := 0
deriving DecidableEq, Repr, Inhabited

/-- A frame of the spill stack (R50, R52) with its offset in the group's slice, and which of its pushed words are poisoned. -/
structure Frame where
  off : Nat := 0
  ret : W64 := 0
  spilled : Bool := false
  s : Nat := 0
  n : Nat := 0
  wb : Nat := 0
  poi : List Bool := []
deriving DecidableEq, Repr, Inhabited

/-- The first guard touch and the count of touches (R30). -/
structure Guard where
  off : W32 := 0
  pc : W64 := 0
  access : Nat := 0
  width : Nat := 0
  mask : Mask := 0
  retired : W64 := 0
  count : Nat := 0
deriving DecidableEq, Repr, Inhabited

/-- The trap state and the handler's own PC, block and budget (R411, R412, R416). `patched` are the lanes whose PC or block
base the handler wrote, `y0set` and `y1set` the y entries it wrote after that. -/
structure Handler where
  pc : W64 := 0
  bb : W64 := 0
  hdr : W64 := 0
  reach : Reach := .header .trap
  budget : Nat := 65536
  cause : Nat := 0
  impr : Bool := false
  tmask : Mask := 0
  tpc : W64 := 0
  tword : W64 := 0
  tinfo : W64 := 0
  tretired : W64 := 0
  patched : Mask := 0
  y0set : Mask := 0
  y1set : Mask := 0
deriving DecidableEq, Repr, Inhabited

/-- A tape's state (R176, R359). -/
inductive TapeSt | closed | normal | span | recompute
deriving DecidableEq, Repr, Inhabited

/-- A reply of a peer: the bytes of a physical address, or that the request was lost (R456); `lane` for a lane's atomic. -/
structure Reply where
  pa : Nat := 0
  n : Nat := 0
  lane : Option Nat := none
  data : Option (List Byte) := none
  /-- the poison of the 8-byte words that the bytes touch, ascending (R71) -/
  poi : List Bool := []
deriving DecidableEq, Repr, Inhabited

/-- A group's tape (R169, R365); `held` is the transfer a translation fault holds (R34), a spill or a fill, `heldBack` when the
tape engine ran it in the background; `opMask`, `opPc` and `opRet` are the last push or pop, which records name (R41). -/
structure Tape where
  st : TapeSt := .closed
  top : Nat := 0
  b : Nat := 0
  seq : W32 := 0
  ret : W64 := 0
  held : Option Bool := none
  heldBack : Bool := false
  fetched : List Reply := []
  opMask : Mask := 0
  opPc : W64 := 0
  opRet : W64 := 0
  /-- the logical starts of the records on the tape, oldest first -/
  recs : List Nat := []
  /-- the operation of a TCLOSE that has still to complete (R175) -/
  closing : Option (Nat × Nat) := none
  /-- a fill in the background is due or goes on: a pop left less than a quarter, and half is not reached (R174) -/
  filling : Bool := false
deriving DecidableEq, Repr, Inhabited

/-- Where a group stands held at issue (R114), and the bounded holds the model keeps. -/
inductive Stall
  | none
  | walloc                                              -- an empty pool
  | latch (word : W64)                                  -- the gang's rendezvous latch
  | port (order : Nat) (seen : List Nat)                -- a port that holds less than its entry; the latch opened at `order`, and
                                                        -- the ports in `seen` have broken since (R340)
  | remote (ids : List Nat)                             -- a remote load
  | reply (ids : List Nat)                              -- any other request to a peer, which R456 bounds
  | fill                                                -- a tape record that a peer has still to send, which R456 bounds
  | release                                             -- earlier writes that have still to perform at home (R86)
  | fault                                               -- no fault slot is free (R45)
  | tape                                                -- a held tape transfer
  | flag                                                -- a flag held by a unit without ring room (R132)
  | tile (left got : List Nat) (excl : Bool) (rows : List (Nat × Nat)) (since : Nat) -- tile locks to be granted and held,
                                                        -- ascending, with the address and policy of each row (R90), and the
                                                        -- order in which the next lock was asked for
deriving DecidableEq, Repr, Inhabited

/-- The issue in progress (R187): the word, its VA and block, and the lanes of the issue set; `handler` when the scalar unit
issues for the trap handler. -/
structure Issue where
  pc : W64 := 0
  bb : W64 := 0
  hdr : W64 := 0
  word : W64 := 0
  set : Mask := 0
  handler : Bool := false
deriving DecidableEq, Repr, Inhabited

/-- An MMA whose entries are popped and whose results are still to be delivered (R343). -/
structure MmaPend where
  sparse : Bool := false
  f : VF
  member : Nat := 0
  size : Nat := 1
  a : List Byte := []
  b : List Byte := []
  mta : List Byte := []
  scale : List Byte := []
  fpl : List W32 := []
  /-- the fragment of C in each lane, as the entries were popped -/
  acc : List (List Reg) := []
  /-- the deliveries a debugger cancelled (R441), by register and lane -/
  cancel : List (Nat × Nat) := []
deriving DecidableEq, Repr

/-- An asymmetric group whose last k is still to come (R224): its type, size, the k consumed, which chain it feeds, its
scale words and the exact sums of the elements the member owns. -/
structure OpenI where
  ty : Ty := .ai8
  size : Nat := 0
  done : Nat := 0
  odd : Bool := false
  scale : List Byte := []
  sums : List Int := []
deriving DecidableEq, Repr, Inhabited

inductive GrpPhase | running | split | retired
deriving DecidableEq, Repr, Inhabited

/-- A group or a part of a split group (R179, R193). -/
structure Grp where
  team : Nat := 0
  idx : Nat := 0
  part : Nat := 0
  factor : Nat := 1
  base : Nat := 0
  gw : Nat := 0
  budget : Nat := 16
  parent : Option Nat := none
  parts : List Nat := []
  phase : GrpPhase := .running
  lanes : List Lane := []
  s : List SReg := []
  m : List MReg := []
  a : List AReg := []
  z : List W64 := []
  flags : List Nat := []
  fdone : List Nat := []
  wb : Nat := 0
  frames : List Frame := []
  spTop : Nat := 0
  spillOff : Nat := 0
  spillLen : Nat := 0
  gang : List Nat := []
  retired : W64 := 0
  hbank : List W64 := []
  handler : Option Handler := none
  ptsel : Nat := 0
  guard : Option Guard := none
  /-- pending overrun reports, each with the order of its overrun -/
  overruns : List (Nat × BarName) := []
  tape : Tape := {}
  flushes : Nat := 0
  rcBound : W32 := 0
  /-- the sync point whose version the group is bound to once it is published; 0 for a group already bound (R388) -/
  rcDue : Nat := 0
  rcSyncs : Nat := 0
  rcMine : W32 := 0
  stall : Stall := .none
  stallOrder : Nat := 0
  /-- the record room that did not suffice when it stalled for places (R45) -/
  stallRoom : Nat := 0
  afterStall : Bool := false
  yielded : Bool := false
  stopped : Bool := false
  /-- the BKPT that a resumed group stood at, and the retired count there: it passes that one (R439) -/
  stepOver : Option (W64 × W64) := none
  snapped : Option W64 := none
  /-- its fusion has stepped over the start of an interval (R195, R434) -/
  crossed : Bool := false
  replies : List Reply := []
  mmaPend : Option MmaPend := none
  openI : Option OpenI := none
  mmaK : Nat := 0
  wallocGot : List (Nat × W64) := []
  collNf : List (BarName × W32 × Mask) := []
  iss : Issue := {}
  readyFor : Nat := 0
  /-- issues of the quarter since the group's YIELD (R257) -/
  yieldAge : Nat := 0
  digest : W64 := 0
  /-- the blocks of 128 bytes that the interval's log holds, and the group's image of them (R435) -/
  logSeen : NSet := []
  image : KMap Byte := []
  /-- it retired by being fused (R195) -/
  fused : Bool := false
deriving DecidableEq, Repr

/-! ## Teams -/

/-- An entry of a poison table (R418, R412): its first register by class and index; `mask` counts lanes of the launch group. `slides`
says how far calls have moved the window up since, for the lanes of each part that has called: a register is then named lower by so much,
below 0 for one that the window has moved past (R254). -/
structure PtEntry where
  isV : Bool := true
  reg : Nat := 0
  n : Nat := 1
  mask : Mask := 0
  seq : W32 := 0
  pc : W64 := 0
  bb : W64 := 0
  slides : List (Mask × Int) := []
deriving DecidableEq, Repr, Inhabited

/-- A box of elements (R116). -/
structure Layout where
  base : W64 := 0
  rank : Nat := 1
  fmt : Nat := 0
  space : Nat := 0
  swz : Bool := false
  ext : List Nat := [1, 1, 1, 1]
  sd : List Int := [0, 0, 0]
deriving DecidableEq, Repr, Inhabited

inductive CmdKind
  | cpy | cpyt | cpyc
  | stash (block : Nat) (bytes : List Byte)
  | restore (b : Nat) (bf : Bool) (blocks : Nat)
deriving DecidableEq, Repr, Inhabited

/-- A command of the copy engine that has issued (R115, R133): what it does, what has landed, and what it counts into. -/
structure Cmd where
  id : Nat := 0
  grp : Nat := 0
  kind : CmdKind := .cpy
  src : Layout := {}
  dst : Layout := {}
  landed : Nat := 0
  total : Nat := 0
  bar : Option BarName := none
  flag : Option (Nat × Nat) := none
  mask : Mask := 0
  pc : W64 := 0
  retired : W64 := 0
  fetched : List Reply := []
deriving DecidableEq, Repr, Inhabited

/-- A push of CPYS or SPUSH (R128): its beats from a box or from captured bytes, how many each
consumer has taken, and whether it stopped at a word that could not be read (R129). -/
structure Push where
  id : Nat := 0
  grp : Nat := 0
  port : Nat := 0
  box : Option Layout := none
  bytes : List Byte := []
  beats : Nat := 0
  taken : List (Nat × Nat) := []
  bar : Option BarName := none
  mask : Mask := 0
  pc : W64 := 0
  retired : W64 := 0
  stop : Bool := false
  fetched : List Reply := []
deriving DecidableEq, Repr, Inhabited

inductive CollKind | allReduce | reduceScatter | allGather | update | commit
deriving DecidableEq, Repr, Inhabited

/-- A collective that has issued (R332, R333): its descriptor as captured; its communicator is read as the engine runs it. -/
structure Coll where
  id : Nat := 0
  grp : Nat := 0
  kind : CollKind := .allReduce
  op : Nat := 0
  ty : Ty := .i32
  desc : W64 := 0
  comm : W64 := 0
  send : W64 := 0
  recv : W64 := 0
  count : Nat := 0
  step : W32 := 0
  params : List W32 := []
  bar : BarName := {}
  mask : Mask := 0
  pc : W64 := 0
  retired : W64 := 0
  fetched : List Reply := []
  /-- the records it has formed so far, while one of them waits for ring room (R45) -/
  recs : Nat := 0
  /-- it has run, with its non-finite bit, and counts its bytes once its writes have performed (R335) -/
  ran : Option Bool := none
deriving DecidableEq, Repr, Inhabited

/-- A stream port (R125): the bytes it holds, oldest first, and its broken mark; `cur` is the push now entering (R128). -/
structure Port where
  bytes : List Byte := []
  broken : Bool := false
  cur : Option (Nat × Nat) := none
deriving DecidableEq, Repr, Inhabited

/-- A contribution in the reduction buffer of a core, `core`, or its spill (R139 to R141). -/
structure Contrib where
  core : Nat := 0
  pa : Nat := 0
  op : Nat := 0
  ty : Ty := .i32
  value : W64 := 0
  idx : Nat := 0
  lane : Nat := 0
  k : Nat := 0
  spilled : Bool := false
  /-- the policy of its page (R64) -/
  cp : Nat := 0
deriving DecidableEq, Repr, Inhabited

/-- A partial on its way to, or in, the anvil staging (R140, R142). -/
structure Partial where
  pa : Nat := 0
  op : Nat := 0
  ty : Ty := .i32
  value : W64 := 0
  team : W32 := 0
  k : Nat := 0
  epoch : W32 := 0
  spilled : Bool := false
  /-- the policy of its page (R64) -/
  cp : Nat := 0
deriving DecidableEq, Repr, Inhabited

/-- A work-graph record that a lane holds unsent, or that a batch of a node team holds (R401). -/
structure Held where
  pool : Nat := 0
  index : Nat := 0
  owner : Option (Nat × Nat) := none
deriving DecidableEq, Repr, Inhabited

inductive TeamPhase | pending | resident | saved | retired
deriving DecidableEq, Repr, Inhabited

structure Team where
  grid : Nat := 0
  id : W32 := 0
  core : Nat := 0
  phase : TeamPhase := .pending
  order : Nat := 0
  node : Option (Nat × Nat) := none
  batch : List W64 := []
  base : Nat := 0
  size : Nat := 0
  scr : List Host.Cell := []
  scrPoi : NSet := []
  groups : List Nat := []
  ptabs : KMap (List (Option PtEntry)) := []
  flushed : Nat := 0
  gridFlushed : Nat := 0
  flushNamed : List (Nat × BarName) := []
  flushBars : List (Nat × BarName) := []
  contribs : List Contrib := []
  epochO : Nat := 0
  syncO : Nat := 0
  syncs : Nat := 0
  syncBars : List (Nat × BarName) := []
  rcBinds : List (BarName × W32 × W32) := []
  ports : List Port := []
  pushes : List Push := []
  cmds : List Cmd := []
  colls : List Coll := []
  held : List Held := []
  preReq : Bool := false
  /-- it was pre-empted for a team of its own grid that must reach a close first (R399) -/
  letGo : Bool := false
  latches : Nat := 0
  reserved : Nat := 0
  /-- bytes that have landed at peers, whose count waits for the release of the team's core (R97) -/
  landed : List (BarName × Nat) := []
deriving DecidableEq, Repr

/-! ## Grids -/

/-- A launch record (R392). -/
structure LaunchRec where
  entry : W64 := 0
  trapv : W64 := 0
  argp : W64 := 0
  rngkey : W64 := 0
  rspill : W64 := 0
  tspill : W64 := 0
  graph : W64 := 0
  done : W64 := 0
  dep0 : W64 := 0
  dep1 : W64 := 0
  nteam : W32 := 0
  gid : W32 := 0
  scratch : Nat := 0
  tape : Nat := 0
  rslice : Nat := 0
  tseg : Nat := 0
  energy : Nat := 0
  pbud : Nat := 16
  cbud : Nat := 16
  nbar : Nat := 0
  gw0 : Nat := 8
  p : Nat := 0
  c : Nat := 1
  split : Nat := 1
  tssize : Nat := 1
  flags : Byte := 0
deriving DecidableEq, Repr, Inhabited

/-- A record gathered by a node (R402, R403), with the key a DET grid sorts by. -/
structure Gathered where
  va : W64 := 0
  pool : Nat := 0
  index : Nat := 0
  team : W32 := 0
  idx : Nat := 0
  lane : Nat := 0
  seq : Nat := 0
deriving DecidableEq, Repr, Inhabited

/-- A node of a work graph (R400) and what it has gathered. -/
structure Node where
  entry : W64 := 0
  prod : W64 := 0
  batch : Nat := 1
  pool : Nat := 0
  timeout : W32 := 0
  gathered : List Gathered := []
  batches : Nat := 0
  drained : Bool := false
  epochO : Nat := 0
  syncO : Nat := 0
deriving DecidableEq, Repr, Inhabited

/-- A record pool (R400) and its free records. -/
structure Pool where
  base : W64 := 0
  records : Nat := 0
  recsize : Nat := 16
  free : NSet := []
deriving DecidableEq, Repr, Inhabited

/-- A radiance-cache sample with the key of R388: `words` are the twelve of R477, inputs, targets and a zero. -/
structure Sample where
  grid : Nat := 0
  team : W32 := 0
  idx : Nat := 0
  lane : Nat := 0
  seq : Nat := 0
  sync : Nat := 0
  words : List W32 := []
deriving DecidableEq, Repr, Inhabited

/-- A grid's phase: taken, started, ended before its completion word, and complete. -/
inductive GridPhase | pending | running | ended | done
deriving DecidableEq, Repr, Inhabited

structure Grid where
  lrec : LaunchRec := {}
  queue : Nat := 0
  ctx : Nat := 0
  order : Nat := 0
  phase : GridPhase := .pending
  cause : Half := 0
  info : W64 := 0
  nextTeam : Nat := 0
  epoch : W32 := 0
  flight : List Partial := []
  staged : List Partial := []
  syncs : Nat := 0
  startVersion : W32 := 0
  versions : List W32 := []
  nodes : List Node := []
  pools : List Pool := []
  dep0Bad : Bool := false
  dep1Bad : Bool := false
  samples : List Sample := []
deriving DecidableEq, Repr

/-! ## Contexts -/

/-- A logged group state (R434, R435): the work name, the group as it stood at that retired count, and its poison table; `full` for a
snapshot, and otherwise what the log of its interval lets a replay come to. `key` is the group's handle. -/
structure Snap where
  full : Bool := false
  key : Nat := 0
  gid : W32 := 0
  team : W32 := 0
  retired : W64 := 0
  grp : Grp
  ptab : List (Option PtEntry) := []
deriving DecidableEq, Repr

/-- What an entry of a log holds (R435). -/
inductive LogKind
  | load | tile | atomic | xdec | restore | tpop | texture | traverse | rcq | walloc | arrive | launch | zread | ecount | btest | mqstat
  | fuse
deriving DecidableEq, Repr, Inhabited

/-- An entry of a log: the work name of its interval, and the value that entered the group, with its poison bits (R435). -/
structure LogEnt where
  gid : W32 := 0
  team : W32 := 0
  idx : Nat := 0
  part : Nat := 0
  retired : W64 := 0
  kind : LogKind := .load
  addr : Nat := 0
  data : List Byte := []
  poi : List Bool := []
deriving DecidableEq, Repr, Inhabited

/-- A replay that goes on from where a debugger wrote into it (R437): the group as it stands, the entries that its log has still to serve,
and the snapshot that ends its interval, where one is logged. -/
structure Rerun where
  at' : Snap
  left : List LogEnt := []
  stop : Option Snap := none
deriving DecidableEq, Repr

/-- A sampled memory instruction whose packet is still to be written (R445). -/
structure Sampled where
  grp : Nat := 0
  kind : Nat := 0
  pc : W64 := 0
  gid : W32 := 0
  team : W32 := 0
  idx : Nat := 0
deriving DecidableEq, Repr, Inhabited

/-- The target of an armed stop (R438). -/
structure StopName where
  gid : W32 := 0
  team : W32 := 0
  idx : Nat := 0
  part : Nat := 0
  ret : W64 := 0
deriving DecidableEq, Repr, Inhabited

/-- An invalidation request accepted and not complete (R25). -/
structure InvReq where
  page : BitVec 39 := 0
  count : W32 := 0
deriving DecidableEq, Repr, Inhabited

/-- A version of the cache with its FP16 copy, and its slot of the snapshot region (R389). -/
structure Version where
  num : W32 := 0
  slot : Option Nat := none
  weights : KMap Half := []
deriving DecidableEq, Repr, Inhabited

/-- A parameter of the cache: FP32 master, m and v (R391). -/
structure Param where
  master : W32 := 0
  m : W32 := 0
  v : W32 := 0
deriving DecidableEq, Repr, Inhabited

/-- A unit that forms records without a group to stall (R45): the distributor, the anvil unit of a grid id, a channel of a team's
copy engine, a group's tape engine, the collective engine, and the fabric unit for lost
requests and lease notices. -/
inductive UnitId
  | dist
  | anvil (gid : Nat)
  | engine (team chan : Nat)
  | tape (grp : Nat)
  | coll
  | fabric
deriving DecidableEq, Repr, Inhabited

/-- A context's register block and the state behind it (R44, R147, R391, R428, R433, R455). -/
structure Ctx where
  root : W64 := 0
  fqBase : W64 := 0
  fqLogn : Nat := 6
  fqHead : W32 := 0
  fqTail : W32 := 0
  fqOvf : W32 := 0
  fqIE : Bool := false
  recCount : W32 := 0
  unitRecs : List (UnitId × FRec) := []
  invVA : BitVec 39 := 0
  invSeq : W32 := 0
  invCount : W32 := 0
  invReqs : List InvReq := []
  rspBase : W64 := 0
  rspSize : W32 := 0
  rspPeak : W32 := 0
  redFlags : W64 := 0
  rcLR : W32 := 0
  rcFreeze : Bool := false
  rcImg : W64 := 0
  rcSnap : W64 := 0
  rcSnapN : Nat := 2
  rcParams : KMap Param := []
  rcSteps : Nat := 0
  rcVersion : W32 := 0
  rcCopies : List Version := []
  rcPending : Option W32 := none
  rcQueue : List Sample := []
  rcDropped : W32 := 0
  rcBusy : Bool := false
  ctxSave : W64 := 0
  ctxSaveSz : W32 := 0
  ctxState : Nat := 0
  /-- KILL has ended its grids, and STATE returns to 0 after their completion words (R431) -/
  killing : Bool := false
  ctxShort : Bool := false
  ctxNeed : W32 := 0
  savedSlots : List FRec := []
  dbgSmpl : Nat := 0
  dbgTrace : Bool := false
  dbgBken : Bool := false
  dbgLogOn : Bool := false
  dbgIntv : Nat := 16
  dbgLog : W64 := 0
  dbgLogSz : W32 := 0
  stopGid : W32 := 0
  stopTeam : W32 := 0
  stopRet : W64 := 0
  armed : Option StopName := none
  dbgState : Nat := 0
  dbgCode : W32 := 0
  dbgBk : Bool := false
  dbgDigok : Bool := false
  dbgAccStatus : Nat := 0
  dbgAccPoison : Bool := false
  dbgData : W64 := 0
  stopGrp : Option Nat := none
  heldStops : List (Nat × Option W32) := []
  snaps : List Snap := []
  log : List LogEnt := []
  replay : Option Snap := none
  replayWritten : Bool := false
  rerun : Option Rerun := none
  trBase : W64 := 0
  trNseg : Nat := 1
  trHead : W32 := 0
  trTail : W32 := 0
  trDrop : W32 := 0
  trFault : Bool := false
  trOff : Option Nat := none
  trGap : Bool := false
  pmcSel : List Nat := []
  pmc : List (BitVec 48) := []
  /-- a team of the context has been resident since the counters were last brought up to date (R444) -/
  pmcRun : Bool := false
  smplDue : List Sampled := []
  attNonce : List W64 := []
  attBuf : W64 := 0
  attErr : Bool := false
  attBusy : Bool := false
  attCap : List W64 := []
  stepBits : List (W64 × W32) := []
  distFetched : List Reply := []
deriving DecidableEq, Repr

/-! ## Cores and the package -/

/-- A store in the write buffer (R60): the bytes, the operation and flag of the group that waits for it (R130), and the record of
its loss at a peer (R456). -/
structure WbEntry where
  pa : Nat := 0
  data : List Byte := []
  grp : Nat := 0
  flag : Option (Nat × Nat) := none
  ctx : Nat := 0
  frec : FRec := {}
  /-- the 8-byte words written that are marked poisoned (R71) -/
  poi : List Bool := []
  /-- a transfer of the group's tape -/
  tape : Bool := false
  /-- the policy of its page (R64) -/
  cp : Nat := 0
  /-- a handler's store, and its place in the order of arrival (R407) -/
  hand : Bool := false
  order : Nat := 0
deriving DecidableEq, Repr, Inhabited

/-- A partial of an update-only word (R150): its offset in the line, tag and value, with the grid, the team and the page policy (R64)
of the RED that began it. -/
structure UWord where
  off : Nat := 0
  op : Nat := 0
  ty : Ty := .i32
  value : W64 := 0
  grid : Nat := 0
  team : W32 := 0
  cp : Nat := 0
deriving DecidableEq, Repr, Inhabited

/-- An L1 line by the number of its 128 bytes (R60): Valid with a copy and its poisoned words, or U with its partials; `pri` is 0
for a line to be replaced first, 2 for one to be replaced last, and otherwise 1 (R64, R238). -/
structure L1Line where
  line : Nat := 0
  data : Option (List Byte × List Bool) := none
  words : List UWord := []
  pri : Nat := 1
deriving DecidableEq, Repr, Inhabited

/-- A page's size: 64 KiB, the 1 MiB of an honoured CONT, or 512 MiB (R11, R14). -/
inductive PageSize | small | span | big
deriving DecidableEq, Repr, Inhabited

/-- A translation held by a TLB (R24): the leaf entry of a page of a context, and the page's number in units of its size. -/
structure TlbEntry where
  ctx : Nat := 0
  page : Nat := 0
  size : PageSize := .small
  pte : W64 := 0
deriving DecidableEq, Repr, Inhabited

structure CoreSt where
  wbuf : List WbEntry := []
  l1 : List L1Line := []
  tlb : List TlbEntry := []
  slots : List (Nat × FRec) := []
  /-- what teams left in the scratchpad, at its own addresses, by context (R465) -/
  leftScr : List (Nat × List Host.Cell) := []
  units : List Nat := []
  /-- global memory instructions since the last that was sampled, by context (R445) -/
  smpl : KMap Nat := []
deriving DecidableEq, Repr, Inhabited

/-- A launch queue's registers (R397). -/
structure Queue where
  base : W64 := 0
  en : Bool := false
  ctx : Nat := 0
  ie : Bool := false
  logn : Nat := 4
  head : W32 := 0
  tail : W32 := 0
deriving DecidableEq, Repr, Inhabited

/-- A lease entry (R458). -/
structure Lease where
  v : Bool := false
  lender : Bool := false
  state : Nat := 0
  peer : BitVec 10 := 0
  base : Nat := 0
  len : Nat := 0
deriving DecidableEq, Repr, Inhabited

/-- What a request asks of its home: bytes, bytes for the L1 alone (R325), a write, a read-modify-write, or for a tile the lock of
a line (R90) and its release. -/
inductive ReqKind | load | pref | store | rmw | lock (excl : Bool) | unlock
deriving DecidableEq, Repr, Inhabited

/-- A request sent to a peer and not complete (R456), with what its record would hold. -/
structure PeerReq where
  id : Nat := 0
  kind : ReqKind := .load
  pa : Nat := 0
  n : Nat := 0
  data : List Byte := []
  op : Nat := 0
  grp : Nat := 0
  lane : Option Nat := none
  cmd : Option (Nat × Nat) := none
  dist : Bool := false
  tape : Bool := false
  flag : Option (Nat × Nat) := none
  /-- the object that counts its bytes, and how many (R123) -/
  bar : Option (BarName × Nat) := none
  ctx : Nat := 0
  frec : FRec := {}
  /-- the port it takes (R20) -/
  port : Nat := 0
  /-- the core whose release waits for it (R86) -/
  core : Option Nat := none
  /-- the core whose L1 is to hold the line, and its `pri` there; none once the core has stored to the line or dropped it -/
  fill : Option (Nat × Nat) := none
  /-- its port has gone down since it left (R456) -/
  cut : Bool := false
  /-- the SEQ of the record of its loss, which still waits for ring room (R45, R456) -/
  lost : Option W32 := none
  /-- the poison of the 8-byte words that a write carries (R123) -/
  poi : List Bool := []
  mode : RmwMode := .lane 0
  /-- the queue whose vector follows this completion word (R104, R397) -/
  done : Option Nat := none
deriving DecidableEq, Repr, Inhabited

/-- An access of the host (R103, R447): a read or write of a window, a register write, or a queue's new tail. -/
inductive HostAccess
  | read (win : Window) (off n : Nat)
  | write (off : Nat) (data : List Byte)
  | reg (off : Nat) (value : W64)
  | tail (queue : Nat) (tail : W32)
deriving DecidableEq, Repr, Inhabited

/-- An access that has met a locked line and waits for it (R91), a peer's lock request (R90), or an access of the host behind one that
waits (R103), in the order of arrival. -/
inductive Waiter
  | peer (acc : PeerAccess) (order : Nat)
  | host (acc : HostAccess)
deriving DecidableEq, Repr, Inhabited

/-- The package block, fabric, mailbox and boot state of window A (R449, R453, R457, R458). -/
structure Pkg where
  featLock : Bool := false
  featEn : W64 := 0
  chipId : BitVec 10 := 0
  chipSet : Bool := false
  pinw : Nat := 0
  pinFall : W32 := 0
  pinned : NSet := []
  /-- lines that accesses have brought into the ordinary ways of the LLC, where replacement may since have dropped them (R67) -/
  llc : NSet := []
  /-- lines that peers' tiles hold: the line, whether exclusively, and the tile (R90) -/
  peerLocks : List (Nat × Bool × Nat) := []
  /-- accesses of peers and of the host that wait for a lock (R91) -/
  waiting : List Waiter := []
  bootState : Nat := 0
  /-- the digest that the boot ROM has taken of the image (R452) -/
  bootDigest : List Byte := []
  svn : W32 := 0
  minSvn : W32 := 0
  wbOff : W64 := 0
  barLog : Nat := 30
  pkgCE : W32 := 0
  pkgUE : W32 := 0
  narrow : W32 := 0
  reservoir : Nat := 0
  reserved : List Nat := []
  tickStart : Nat := 0
  /-- true time in fc since package reset, as last read (R280) -/
  time : Nat := 0
  queues : KMap Queue := []
  routing : KMap W64 := []
  leases : KMap Lease := []
  portUp : Half := 0
  portEvt : Half := 0
  lostCnt : W32 := 0
  msix : List Nat := []
  msixTab : KMap W64 := []
  msixPend : NSet := []
  /-- lease messages sent to peers: an entry, and true for a notice, false for a release (R458) -/
  leaseSent : List (Nat × Bool) := []
  /-- what the last access of a peer got back, and the poison of the 8-byte words it read (R105) -/
  peerData : List Byte × List Bool := ([], [])
  m0 : List Byte := []
  m1 : List Byte := []
  mbxOff : W32 := 0
  mbxLen : Nat := 0
  mbxErr : Bool := false
  mbxBusy : Bool := false
  mbxBuf : KMap Byte := []
  flash : List Host.Cell := []
  peerOut : List PeerReq := []
  /-- how long each traffic class has waited at each arbitration point, in grants of that point (R407) -/
  waits : KMap (List Nat) := []
  /-- the TLBs that the cores of a cluster share, by cluster (R24) -/
  ctlb : KMap (List TlbEntry) := []
deriving DecidableEq, Repr

/-- The group, team, grid, context and core that the step in progress acts on. -/
structure Focus where
  grp : Nat := 0
  team : Nat := 0
  grid : Nat := 0
  ctx : Nat := 0
  core : Nat := 0
deriving DecidableEq, Repr, Inhabited

/-- The state of the K96 with the host and peers at its ports. `agenda`, `turn`, `foc`, `free`, `nextId`, `order`, `met` and
`hostOut` are the model's own (log entries 2, 3 and 92); everything else the spec names. `met` counts the accesses of the step in
progress that found their line locked (R91): a step in which it rises is put off whole. -/
structure State where
  agenda : List Instr := []
  turn : Bool := false
  foc : Focus := {}
  free : Nat := 0
  nextId : Nat := 0
  order : Nat := 0
  met : Nat := 0
  hostOut : List Byte × Bool := ([], false)
  /-- the clusters' energy accounts, and what was debited to each since package reset, in units of 10^-14 J (R282, R461) -/
  accounts : List Int := []
  debited : List Nat := []
  mem : List Host.Cell := []
  memPoi : NSet := []
  pkg : Pkg := {}
  ctxs : KMap Ctx := []
  cores : KMap CoreSt := []
  grids : KMap Grid := []
  teams : KMap Team := []
  groups : KMap Grp := []
deriving DecidableEq, Repr

/-- Why the model stops with a fault. -/
inductive Fault
  /-- Raised by step for an entry of the model's own agenda that is an instruction word and no event. The hardware has no
  agenda; safe, since it only stops the model. -/
  | notAnEvent
deriving DecidableEq, Repr

/-- Why an instruction has no meaning. -/
inductive Refusal
  /-- Raised by exec for an instruction without a meaning, by its mnemonic; safe. -/
  | notModelled (mnemonic : String)
deriving DecidableEq, Repr

/-- The K96 right after reset: every register at the value the spec gives, and where it gives none at the value of log
entries 1 to 5. -/
def State.reset : State :=
  { pkg := { svn := Config.fusedSvn, minSvn := Config.fusedSvn } }

end Sys2Proof.Machine
end

