-- ==== Sys2Proof/Machine/Acc.lean ====
section
/-! DEFINITION. Accessors: the group, team, grid, context and core in focus, lanes and flags by index, and the model's free
counter. Every read or write of a map or a bank of the state goes through these. -/

namespace Sys2Proof.Machine

def Grp.blank : Grp := {}
def Team.blank : Team := {}
def Grid.blank : Grid := {}
def Ctx.reset : Ctx := {}
def CoreSt.empty : CoreSt := {}

def State.grpAt (s : State) (k : Nat) : Grp := s.groups.get Grp.blank k
def State.teamAt (s : State) (k : Nat) : Team := s.teams.get Team.blank k
def State.gridAt (s : State) (k : Nat) : Grid := s.grids.get Grid.blank k
def State.ctxAt (s : State) (k : Nat) : Ctx := s.ctxs.get Ctx.reset k
def State.coreAt (s : State) (k : Nat) : CoreSt := s.cores.get CoreSt.empty k

def State.setGrpAt (s : State) (k : Nat) (g : Grp) : State := { s with groups := s.groups.set k g }
def State.setTeamAt (s : State) (k : Nat) (t : Team) : State := { s with teams := s.teams.set k t }
def State.setGridAt (s : State) (k : Nat) (g : Grid) : State := { s with grids := s.grids.set k g }
def State.setCtxAt (s : State) (k : Nat) (c : Ctx) : State := { s with ctxs := s.ctxs.set k c }
def State.setCoreAt (s : State) (k : Nat) (c : CoreSt) : State := { s with cores := s.cores.set k c }

/-- The group, team, grid, context and core in focus. -/
def State.g (s : State) : Grp := s.grpAt s.foc.grp
def State.t (s : State) : Team := s.teamAt s.foc.team
def State.gr (s : State) : Grid := s.gridAt s.foc.grid
def State.c (s : State) : Ctx := s.ctxAt s.foc.ctx
def State.co (s : State) : CoreSt := s.coreAt s.foc.core

def State.setG (s : State) (g : Grp) : State := s.setGrpAt s.foc.grp g
def State.setT (s : State) (t : Team) : State := s.setTeamAt s.foc.team t
def State.setGr (s : State) (g : Grid) : State := s.setGridAt s.foc.grid g
def State.setC (s : State) (c : Ctx) : State := s.setCtxAt s.foc.ctx c
def State.setCo (s : State) (c : CoreSt) : State := s.setCoreAt s.foc.core c

def State.modG (s : State) (f : Grp → Grp) : State := s.setG (f s.g)
def State.modT (s : State) (f : Team → Team) : State := s.setT (f s.t)
def State.modGr (s : State) (f : Grid → Grid) : State := s.setGr (f s.gr)
def State.modC (s : State) (f : Ctx → Ctx) : State := s.setC (f s.c)
def State.modCo (s : State) (f : CoreSt → CoreSt) : State := s.setCo (f s.co)
def State.modPkg (s : State) (f : Pkg → Pkg) : State := { s with pkg := f s.pkg }

/-- The state with its focus on a group, and so on that group's team, grid, context and core. -/
def State.focusGrp (s : State) (k : Nat) : State :=
  let t := s.teamAt (s.grpAt k).team
  { s with foc := { grp := k, team := (s.grpAt k).team, grid := t.grid, ctx := (s.gridAt t.grid).ctx, core := t.core } }
/-- The focus on a team alone; the group in focus is kept. -/
def State.focusTeam (s : State) (k : Nat) : State :=
  let t := s.teamAt k
  { s with foc := { s.foc with team := k, grid := t.grid, ctx := (s.gridAt t.grid).ctx, core := t.core } }
def State.focusGrid (s : State) (k : Nat) : State :=
  { s with foc := { s.foc with grid := k, ctx := (s.gridAt k).ctx } }
def State.focusCtx (s : State) (k : Nat) : State := { s with foc := { s.foc with ctx := k } }
/-- The focus of another state. -/
def State.refocus (s : State) (s0 : State) : State := { s with foc := s0.foc }

/-- A new handle of the model's. -/
def State.freshId (s : State) : State × Nat := ({ s with nextId := s.nextId + 1 }, s.nextId)
/-- The next place in an order of arrival the model keeps. -/
def State.freshOrder (s : State) : State × Nat := ({ s with order := s.order + 1 }, s.order)
/-- The argument of free value i of the step in progress (log entry 3). -/
def State.freeKey (s : State) (i : Nat) : Nat := Nat.pair s.free i
/-- The free counter moved on, so that the next free value is another one (log entry 3). -/
def State.bump (s : State) : State := { s with free := s.free + 1 }

/-- n events of a code counted by the context's counters that select it (R444). -/
def Ctx.count (c : Ctx) (code n : Nat) : Ctx :=
  if c.pmcSel.contains code then
    { c with pmc := (List.range 8).foldl (fun p j => if bankGet c.pmcSel 0 j = code then bankPut 0 p j (bankGet p 0 j + BitVec.ofNat 48 n) else p) c.pmc }
  else c
def State.count (s : State) (ctx code n : Nat) : State :=
  if (s.ctxAt ctx).pmcSel.contains code then s.setCtxAt ctx ((s.ctxAt ctx).count code n) else s

/-- True time as it now stands (R280): it has counted on since it was last read, by how much is a free value (log entry 3). -/
def State.timeNow (s : State) : Nat := min (2 ^ 64 - 1) (s.pkg.time + 1 + (Config.trueTime (s.freeKey 0)).toNat)

/-- One byte folded into a digest (R446). -/
def foldByte (d : W64) (a : Nat) (b : Byte) : W64 :=
  (d ^^^ (BitVec.ofNat 64 a * 0x9E3779B97F4A7C15) ^^^ b.setWidth 64) * 0xE7D319B54C862F0B
def foldBytes (d : W64) (a : Nat) : List Byte → W64
  | [] => d
  | b :: bs => foldBytes (foldByte d a b) (a + 1) bs
/-- Bytes that the focused group writes, or contributes, from address a, folded into the digest of its interval while its context logs
(R434, R446). -/
def State.digest (s : State) (a : Nat) (bs : List Byte) : State :=
  if s.c.dbgLogOn then s.modG fun g => { g with digest := foldBytes g.digest a bs } else s
/-- The group's image of memory with bytes from a on (R435). -/
def Grp.imagePut (g : Grp) (a : Nat) (bs : List Byte) : Grp :=
  { g with image := (List.range bs.length).foldl (fun m i => m.set (a + i) (bs.getD i 0)) g.image }
/-- Bytes that the focused group writes: they go into the digest, and into its image (R435, R446). -/
def State.wrote (s : State) (a : Nat) (bs : List Byte) : State :=
  if s.c.dbgLogOn then (s.digest a bs).modG fun g => g.imagePut a bs else s
/-- Bytes that the focused group writes with no fold into the digest: they go into its image alone (R435, R446). -/
def State.wroteImage (s : State) (a : Nat) (bs : List Byte) : State := if s.c.dbgLogOn then s.modG fun g => g.imagePut a bs else s
/-- The digest's address of a byte of the team's own scratchpad, and of one in K space (R446). -/
def digScr (off : Nat) : Nat := 2 ^ 63 + off
def digK (addr : Nat) : Nat := 2 ^ 62 + addr

/-- The K96 is in recovery: of window A only BOOTSTAT and the mailbox answer (R452, R453). -/
def Pkg.inRecovery (p : Pkg) : Bool := p.bootState == 3

/-! ## Groups -/

def Grp.lane (g : Grp) (l : Nat) : Lane := bankGet g.lanes {} l
def Grp.setLane (g : Grp) (l : Nat) (x : Lane) : Grp := { g with lanes := bankPut {} g.lanes l x }
def Grp.modLane (g : Grp) (l : Nat) (f : Lane → Lane) : Grp := g.setLane l (f (g.lane l))
/-- The lane indices of the group's current width. -/
def Grp.laneIdx (g : Grp) : List Nat := List.range g.gw
/-- The lanes in a mask, ascending. -/
def Grp.lanesOf (g : Grp) (m : Mask) : List Nat := g.laneIdx.filter fun l => m.getLsbD l
def bitMask (l : Nat) : Mask := BitVec.ofNat 64 (2 ^ l)
def maskOf (ls : List Nat) : Mask := ls.foldl (fun m l => m ||| bitMask l) 0
/-- All lanes of a width. -/
def widthMask (gw : Nat) : Mask := BitVec.ofNat 64 (2 ^ gw - 1)
def Grp.modLanes (g : Grp) (ls : List Nat) (f : Nat → Lane → Lane) : Grp := ls.foldl (fun g l => g.modLane l (f l)) g
/-- The lanes that have not exited. -/
def Grp.alive (g : Grp) : Mask := maskOf (g.laneIdx.filter fun l => (g.lane l).st != .exited)
def Grp.inState (g : Grp) (st : LaneSt) : List Nat := g.laneIdx.filter fun l => (g.lane l).st == st
def Grp.flag (g : Grp) (i : Nat) : Nat := bankGet g.flags 0 i
def Grp.setFlag (g : Grp) (i n : Nat) : Grp := { g with flags := bankPut 0 g.flags i n }
/-- Every flag of the group is clear (R130). -/
def Grp.flagsClear (g : Grp) : Bool := g.flags.all (· == 0)
def Grp.areg (g : Grp) (i : Nat) : AReg := bankGet g.a {} i
def Grp.setAreg (g : Grp) (i : Nat) (x : AReg) : Grp := { g with a := bankPut {} g.a i x }
def Grp.zreg (g : Grp) (i : Nat) : W64 := bankGet g.z 0 i
def Grp.setZreg (g : Grp) (i : Nat) (x : W64) : Grp := { g with z := bankPut 0 g.z i x }
def Grp.sreg (g : Grp) (i : Nat) : SReg := bankGet g.s {} i
def Grp.setSreg (g : Grp) (i : Nat) (x : SReg) : Grp := { g with s := bankPut {} g.s i x }
/-- The window's size W (R49). -/
def Grp.win (g : Grp) : Nat := min 64 g.budget
/-- The key that orders a lane within its launch group (R185): %tlane mod GW0. -/
def Grp.key (g : Grp) (l : Nat) : Nat := g.base + l

/-! ## Grids and teams -/

def LaunchRec.flag (r : LaunchRec) (i : Nat) : Bool := r.flags.getLsbD i
def Grid.det (g : Grid) : Bool := g.lrec.flag 0
def Grid.streams (g : Grid) : Bool := g.lrec.flag 1
def Grid.prio (g : Grid) : Nat := g.lrec.flags.toNat / 4 % 4
def Grid.redRm (g : Grid) : Nat := g.lrec.flags.toNat / 16 % 4
def LaunchRec.ngroups (r : LaunchRec) : Nat := r.p + r.c
/-- The rank of a team in its set, and the set's size (R183, R404). -/
def Grid.rank (g : Grid) (t : Team) : Nat := if t.node.isSome then 0 else t.id.toNat % g.lrec.tssize
def Grid.setSize (g : Grid) (t : Team) : Nat :=
  if t.node.isSome then 1 else min g.lrec.tssize (g.lrec.nteam.toNat - t.id.toNat / g.lrec.tssize * g.lrec.tssize)
/-- The start of the barrier part of an allocation, of its tape area, and its size (R28). -/
def LaunchRec.barBase (r : LaunchRec) : Nat := (r.scratch + 15) / 16 * 16
def LaunchRec.tapeBase (r : LaunchRec) : Nat := (r.barBase + 16 * r.nbar + 255) / 256 * 256
def LaunchRec.allocSize (r : LaunchRec) : Nat := (r.tapeBase + r.tape + 255) / 256 * 256
/-- The bytes of one group's tape slice (R167). -/
def LaunchRec.slice (r : LaunchRec) : Nat := if r.ngroups = 0 then 0 else r.tape / r.ngroups
/-- The team of a grid with an id, placed or not. -/
def State.teamOf (s : State) (grid : Nat) (id : Nat) : Option Nat :=
  (s.teams.find? fun e => e.2.grid == grid && e.2.id.toNat == id).map (·.1)
/-- The team of a rank of the focused team's set (R31). -/
def State.teamOfRank (s : State) (rank : Nat) : Option Nat :=
  if s.t.node.isSome then (if rank = 0 then some s.foc.team else none)
  else s.teamOf s.foc.grid (s.t.id.toNat / s.gr.lrec.tssize * s.gr.lrec.tssize + rank)
/-- The groups of a team that are not retired: running groups and parts. -/
def State.liveGroups (s : State) (team : Nat) : List Nat :=
  (s.groups.filter fun e => e.2.team == team && e.2.phase == .running).map (·.1)

/-! ## Bytes -/

/-- n bytes of a number, little-endian. -/
def leBytes : Nat → Nat → List Byte
  | 0, _ => []
  | n + 1, x => BitVec.ofNat 8 x :: leBytes n (x / 256)
/-- The number some bytes hold, little-endian. -/
def ofLe (bs : List Byte) : Nat := bs.foldr (fun b n => b.toNat + 256 * n) 0
/-- n elements of f from index i on. -/
def tab {α : Type} (n : Nat) (f : Nat → α) : List α := (List.range n).map f
/-- w bits of x from bit lo. -/
def bitsAt (x lo w : Nat) : Nat := x / 2 ^ lo % 2 ^ w
/-- The two's-complement reading of the low w bits. -/
def sgn (w x : Nat) : Int := if x % 2 ^ w < 2 ^ (w - 1) then (x % 2 ^ w : Nat) else (x % 2 ^ w : Nat) - (2 ^ w : Nat)
/-- The low w bits of an integer. -/
def wrap (w : Nat) (x : Int) : Nat := (x % (2 ^ w : Nat)).toNat

end Sys2Proof.Machine
end

