-- ==== Sys2Proof/Machine/Fields.lean ====
section
/-! DEFINITION. The field rules of every instruction word: which codes each instruction accepts (step 5 of R240) and which
operand classes each field accepts (step 6). One rule for each row, from the tables of spec/09 to spec/14. -/

namespace Sys2Proof

/-! Operand classes (R237). -/

def Opnd.isV : Opnd → Bool | .v _ => true | _ => false
def Opnd.isS : Opnd → Bool | .s _ => true | _ => false
def Opnd.isM : Opnd → Bool | .m _ => true | _ => false
def Opnd.isA : Opnd → Bool | .a _ => true | _ => false
def Opnd.isZ : Opnd → Bool | .z _ => true | _ => false
/-- A v or k register: the per-lane destinations. -/
def Opnd.vk : Opnd → Bool | .v _ => true | .k _ => true | _ => false
/-- A v, k or y register. -/
def Opnd.vky : Opnd → Bool | .v _ => true | .k _ => true | .y _ => true | _ => false
/-- An s register or a constant. -/
def Opnd.sc : Opnd → Bool | .s _ => true | .const _ => true | _ => false
/-- An s register or the constant 0 (R308). -/
def Opnd.s0 : Opnd → Bool | .s _ => true | .const .zero => true | _ => false
/-- The sources of R283: v, k, y, s or a constant. -/
def Opnd.num : Opnd → Bool | .v _ => true | .k _ => true | .y _ => true | .s _ => true | .const _ => true | _ => false
/-- The sources of R260: v, k, y, s, a constant or a special. -/
def Opnd.src : Opnd → Bool | .spec _ => true | o => o.num
/-- The sources of an operand with a uniform value (R247): s, a constant, or a special that is the same in every lane. -/
def Opnd.uniform : Opnd → Bool
  | .s _ => true
  | .const _ => true
  | .spec .grp => true
  | .spec .team => true
  | .spec .gw => true
  | .spec .role => true
  | .spec .nteam => true
  | _ => false
/-- The sources of the MASK instructions (R273). -/
def Opnd.maskSrc : Opnd → Bool
  | .m _ => true
  | .s _ => true
  | .const .zero => true
  | .const .one => true
  | .const .negOne => true
  | _ => false
/-- Not the first half of a misaligned pair (R204). -/
def Opnd.even : Opnd → Bool
  | .v i => i.val % 2 == 0
  | .k i => i.val % 2 == 0
  | .y i => i.val == 0
  | _ => true
/-- The index is a multiple of n, for the register groups of R309, R321, R353 and R357. -/
def Opnd.aligned (n : Nat) : Opnd → Bool
  | .v i => i.val % n == 0
  | .k i => i.val % n == 0
  | _ => false
/-- n registers from this one do not run past k7 (R349) or past s63 (R358). -/
def Opnd.fits (n : Nat) : Opnd → Bool
  | .k i => i.val + n ≤ 8
  | .s i => i.val + n ≤ 64
  | _ => true

/-! Type classes (R237). -/

def Ty.code : Ty → Nat
  | .i32 => 0 | .n32 => 1 | .b32 => 2 | .i64 => 3 | .n64 => 4 | .b64 => 5 | .f64 => 6 | .f32 => 7 | .f16x2 => 8
  | .bf16x2 => 9 | .e4m3x4 => 10 | .e5m2x4 => 11 | .ai8 => 12 | .ai4 => 13

def Ty.ofCode : Nat → Option Ty
  | 0 => some .i32 | 1 => some .n32 | 2 => some .b32 | 3 => some .i64 | 4 => some .n64 | 5 => some .b64
  | 6 => some .f64 | 7 => some .f32 | 8 => some .f16x2 | 9 => some .bf16x2 | 10 => some .e4m3x4
  | 11 => some .e5m2x4 | 12 => some .ai8 | 13 => some .ai4 | _ => none

/-- The types whose per-lane values take a pair (R204). -/
def Ty.is64 : Ty → Bool | .i64 => true | .n64 => true | .b64 => true | .f64 => true | _ => false
def Ty.isInt (t : Ty) : Bool := t.code ≤ 5
def Ty.isI : Ty → Bool | .i32 => true | .i64 => true | _ => false
def Ty.isB : Ty → Bool | .b32 => true | .b64 => true | _ => false
/-- The .i and .n types of R261. -/
def Ty.isIN : Ty → Bool | .i32 => true | .n32 => true | .i64 => true | .n64 => true | _ => false
/-- Class F of R287. -/
def Ty.isF : Ty → Bool | .f64 => true | .f32 => true | .f16x2 => true | .bf16x2 => true | _ => false
/-- Class G of R287. -/
def Ty.isG : Ty → Bool | .f64 => true | .f32 => true | .f16x2 => true | _ => false
/-- Class H of R287. -/
def Ty.isH : Ty → Bool | .f32 => true | .f16x2 => true | _ => false
def Ty.is16x2 : Ty → Bool | .f16x2 => true | .bf16x2 => true | _ => false
def Ty.isFp8 : Ty → Bool | .e4m3x4 => true | .e5m2x4 => true | _ => false
def Ty.isAi : Ty → Bool | .ai8 => true | .ai4 => true | _ => false

/-- The OP codes 0 to 6 with the types R136 accepts. -/
def redPair (op : Nat) (t : Ty) : Bool :=
  match op with
  | 0 => t.isIN
  | 1 => t == .f32 || t == .f64
  | 2 => t.isIN || t == .f32 || t == .f64
  | 3 => t.isIN || t == .f32 || t == .f64
  | 4 => t.isB
  | 5 => t.isB
  | 6 => t.isB
  | _ => false

/-- The pairs of R318 for ATOM. -/
def atomPair (op : Nat) (t : Ty) : Bool :=
  match op with
  | 7 => t.code ≤ 7
  | 8 => t == .n32 || t == .n64
  | 9 => t == .n32 || t == .n64
  | n => redPair n t

/-- The rule of one word: whether its codes are accepted (step 5 of R240), and for each operand field either `none`, the
field is unused and must hold 0x00 (R236), or whether its class is accepted (step 6). -/
structure Rule where
  codes : Bool
  ops : List (Opnd × Option Bool)
deriving DecidableEq, Repr

def Opnd.isZero : Opnd → Bool | .v 0 => true | _ => false

def Rule.codesOk (r : Rule) : Bool := r.codes && r.ops.all fun o => o.2.isSome || o.1.isZero
def Rule.operandsOk (r : Rule) : Bool := r.ops.all fun o => o.2.getD true

/-- A V-format rule with its four operand fields. -/
def VF.rule (f : VF) (codes : Bool) (d a b c : Option Bool) : Rule := ⟨codes, [(f.d, d), (f.a, a), (f.b, b), (f.c, c)]⟩
def IF.rule (f : IF) (codes : Bool) (d a : Option Bool) : Rule := ⟨codes, [(f.d, d), (f.a, a)]⟩
def MF.rule (f : MF) (codes : Bool) (d a b : Option Bool) : Rule := ⟨codes, [(f.d, d), (f.a, a), (f.b, b)]⟩
def BF.rule (f : BF) (codes : Bool) (c : Option Bool) : Rule := ⟨codes, [(f.c, c)]⟩

/-! V format. -/

def VF.m (f : VF) : Nat := f.mod.toNat
/-- RMO 000, SAT 0 and SF 00 (R250, R302, R349). -/
def VF.plain (f : VF) : Bool := f.rmo == .lane && !f.sat && f.sf == .none
/-- TYPE 0 and MOD 0 as well: a word that uses none of those fields. -/
def VF.bare (f : VF) : Bool := f.plain && f.ty == .i32 && f.m == 0
/-- A source of class `cls`, an even pair under a 64-bit type (R204). -/
def VF.at (f : VF) (cls : Bool) (o : Opnd) : Bool := cls && (!f.ty.is64 || o.even)

/-- A word with no operand and no field. -/
def noneRule (f : VF) : Rule := f.rule f.bare none none none none

/-- The destination of an INT word (R247, R260): v or k, or s when every source is uniform. -/
def VF.intD (f : VF) (srcs : List Opnd) : Bool :=
  match f.d with
  | .s _ => srcs.all Opnd.uniform
  | _ => f.d.vk && (!f.ty.is64 || f.d.even)

/-- INT words with n sources (R260, R261). -/
def intRule (f : VF) (n : Nat) (types sat mod : Bool) : Rule :=
  let src (o : Opnd) := f.at o.src o
  let srcs := [f.a, f.b, f.c].take n
  f.rule (types && f.rmo == .lane && f.sf == .none && (!f.sat || sat && !f.ty.isB) && mod)
    (some (f.intD srcs)) (some (src f.a)) (if 2 ≤ n then some (src f.b) else none) (if 3 ≤ n then some (src f.c) else none)

/-- ADDC and SUBB (R262). -/
def carryRule (f : VF) : Rule :=
  let src (o : Opnd) := f.at o.src o
  f.rule (f.ty.isInt && f.plain && f.m < 8) (some (f.at f.d.vk f.d)) (some (src f.a)) (some (src f.b))
    (some (match f.c with | .m _ => true | .const .zero => true | .const .one => true | _ => false))

/-- CMP (R264): the v or k destination is one register at any type. -/
def cmpRule (f : VF) : Rule :=
  let src (o : Opnd) := f.at o.src o
  let d := match f.d with
    | .m _ => true
    | .s _ => f.a.uniform && f.b.uniform
    | o => o.vk
  f.rule (f.ty.isInt && f.plain && f.m ≤ 9) (some d) (some (src f.a)) (some (src f.b)) none

/-- SEL (R265): into s from an s selector with s or constant sources. -/
def selRule (f : VF) : Rule :=
  let src (o : Opnd) := f.at o.src o
  let d := match f.d with
    | .s _ => f.a.sc && f.b.sc && f.c.isS
    | o => f.at o.vk o
  f.rule (f.ty.isInt && f.plain && f.m == 0) (some d) (some (src f.a)) (some (src f.b)) (some (f.c.isM || f.c.isS))

/-- MOV (R267): z to z under .b64 only. Field A takes a z register, so that a z source with any other destination is an error of step 7
of R240, where R55 stands, and not of step 6 (log entry 112). -/
def movRule (f : VF) : Rule :=
  let zz := f.d.isZ && f.a.isZ && f.ty == .b64
  f.rule (f.ty.isInt && f.plain && f.m == 0) (some (zz || f.intD (if f.a.isZ then [] else [f.a]))) (some (f.a.isZ || f.at f.a.src f.a)) none none

/-- FP words with n sources (R283, R287). -/
def fpRule (f : VF) (n : Nat) (types rmo sat mod : Bool) : Rule :=
  let src (o : Opnd) := f.at o.num o
  f.rule (types && (rmo || f.rmo == .lane) && (sat || !f.sat) && f.sf == .none && mod)
    (some (f.at f.d.vk f.d)) (some (src f.a)) (if 2 ≤ n then some (src f.b) else none) (if 3 ≤ n then some (src f.c) else none)

/-- FCMP (R290): an m destination under .f64 and .f32 only; a v or k destination is one register. -/
def fcmpRule (f : VF) : Rule :=
  let src (o : Opnd) := f.at o.num o
  f.rule (f.ty.isF && f.plain && f.m ≤ 11) (some (f.d.vk || f.d.isM && !f.ty.is16x2)) (some (src f.a)) (some (src f.b)) none

/-- FCLASS (R291): one destination register at any type. -/
def fclassRule (f : VF) : Rule :=
  f.rule (f.ty.isF && f.plain && f.m == 0) (some f.d.vk) (some (f.at f.a.num f.a)) none none

/-- FSCALE (R293): B is a single register. -/
def fscaleRule (f : VF) : Rule :=
  f.rule (f.ty.isF && f.sf == .none && f.m == 0) (some (f.at f.d.vk f.d)) (some (f.at f.a.num f.a)) (some f.b.num) none

/-- The type code in MOD[3:0] of FCVT, FTOI and ITOF (R296). -/
def VF.ty2 (f : VF) : Option Ty := Ty.ofCode (f.m % 16)
/-- MOD[4], written .hi. -/
def VF.hi (f : VF) : Bool := f.m / 16 % 2 == 1
def VF.pair2 (f : VF) (o : Opnd) : Bool := (match f.ty2 with | some t => !t.is64 || o.even | none => true)

/-- FCVT (R296, R297): B only scalar to packed, .hi only packed to scalar. -/
def fcvtRule (f : VF) : Rule :=
  let sp := f.ty.is16x2 && (match f.ty2 with | some t => !t.is16x2 | none => false)
  f.rule (f.ty.isF && (f.ty2.any Ty.isF) && !f.sat && f.sf == .none && f.m < 32 && (!f.hi || f.ty2.any Ty.is16x2))
    (some (f.at f.d.vk f.d)) (some (f.a.num && f.pair2 f.a)) (if sp then some (f.b.num && f.pair2 f.b) else none) none

/-- FTOI (R296, R297): .hi only on a packed source. -/
def ftoiRule (f : VF) : Rule :=
  f.rule (f.ty.isIN && (f.ty2.any Ty.isF) && !f.sat && f.sf == .none && f.m < 32 && (!f.hi || f.ty2.any Ty.is16x2))
    (some (f.at f.d.vk f.d)) (some (f.a.num && f.pair2 f.a)) none none

/-- ITOF (R283, R296): a packed destination takes B too, and neither source field may then be 0x00. -/
def itofRule (f : VF) : Rule :=
  f.rule (f.ty.isF && (f.ty2.any Ty.isIN) && !f.sat && f.sf == .none && f.m < 16 && (!f.ty.is16x2 || !f.a.isZero && !f.b.isZero))
    (some (f.at f.d.vk f.d)) (some (f.a.src && f.pair2 f.a)) (if f.ty.is16x2 then some (f.b.src && f.pair2 f.b) else none) none

/-- PACK8, UNPK8, QNT and DEQ (R296): single registers. -/
def cvt8Rule (f : VF) (types rmo mod : Bool) (n : Nat) : Rule :=
  f.rule (types && (rmo || f.rmo == .lane) && !f.sat && f.sf == .none && mod)
    (some f.d.vk) (some f.a.num) (if 2 ≤ n then some f.b.num else none) none
/-- The element index of QNT and DEQ. -/
def VF.elemOk (f : VF) : Bool := if f.ty == .ai8 then f.m < 4 else f.m < 8

/-- The register a LANE word exchanges (R303), of which the spec names no classes for BCAST, SHFL, SHUP and SHDN: the model takes v, k and y,
and s, the same value in every lane (log entry 102). -/
def VF.laneA (f : VF) (s : Bool) : Bool := f.at (f.a.vky || s && f.a.isS) f.a
def VF.b3264 (f : VF) : Bool := f.ty == .b32 || f.ty == .b64

/-- BCAST takes a B of class s or a constant, as R303's table says; the k of its note on poison is refused (log entry 125). -/
def bcastRule (f : VF) : Rule :=
  f.rule (f.b3264 && f.plain && f.m == 0) (some (f.at (f.d.vk || f.d.isS) f.d)) (some (f.laneA true)) (some f.b.sc) none
def shflRule (f : VF) : Rule :=
  f.rule (f.b3264 && f.plain && f.m == 0) (some (f.at f.d.vk f.d)) (some (f.laneA true)) (some f.b.src) none
/-- SHUP and SHDN take the B of BCAST (log entry 125). -/
def shiftLaneRule (f : VF) : Rule :=
  f.rule (f.b3264 && f.plain && f.m == 0) (some (f.at f.d.vk f.d)) (some (f.laneA true)) (some f.b.sc) (some (f.at f.c.src f.c))
def ballotRule (f : VF) : Rule :=
  f.rule (f.b3264 && f.plain && f.m == 0) (some (f.d.isM || f.d.isS)) (some (f.laneA false)) none none
/-- REDUX and SCAN (R305, R306): RMO only under fadd. The spec names no classes for A; the model takes v, k and y (log entry 102), and it
takes RMO in a SCAN as in a REDUX (log entry 103). -/
def foldRule (f : VF) (scan : Bool) : Rule :=
  f.rule (redPair (f.m % 16) f.ty && (f.m % 16 == 1 || f.rmo == .lane) && !f.sat && f.sf == .none && (if scan then f.m < 32 else f.m < 16))
    (some (f.at (f.d.vk || !scan && f.d.isS) f.d)) (some (f.laneA false)) none none
def electRule (f : VF) : Rule := f.rule (f.plain && f.ty == .i32 && f.m < 2) (some (f.d.isM || f.d.isS)) none none none
/-- The target of LGET and LPUT (R307): v, k, y or %pc. -/
def Opnd.laneTarget : Opnd → Bool | .spec .pc => true | o => o.vky
def lgetRule (f : VF) : Rule :=
  f.rule (f.plain && f.ty == .i32 && f.m ≤ 4) (some f.d.isS) (some f.a.sc)
    (if f.m == 0 || f.m == 4 then some f.b.laneTarget else none) none
def lputRule (f : VF) : Rule :=
  f.rule (f.plain && f.ty == .i32 && f.m ≤ 3) none (some f.a.sc)
    (if f.m == 0 then some f.b.laneTarget else none) (some f.c.isS)

def maskRule (f : VF) (n : Nat) (d : Bool) : Rule :=
  f.rule f.bare (some d) (if 1 ≤ n then some f.a.maskSrc else none) (if 2 ≤ n then some f.b.maskSrc else none) none

/-- AGET (R272). -/
def agetRule (f : VF) : Rule :=
  f.rule (f.plain && f.ty == .i32 && f.m ≤ 4) (some (f.d.isS || f.d.isZ && (f.m == 1 || f.m == 2 || f.m == 4))) (some f.a.isA) none none

/-- GANG (R276): A is used when the count is not 0. -/
def gangRule (f : VF) : Rule :=
  f.rule (f.plain && f.ty == .i32 && f.m ≤ 6) none (if f.m == 0 then none else some f.a.isS) none none

def rngRule (f : VF) : Rule := f.rule ((f.ty == .n32 || f.ty == .f32) && f.plain && f.m == 0) (some f.d.vk) none none none

/-- MMA and MMASP (R337). -/
def mmaRule (f : VF) (types : Bool) : Rule :=
  f.rule (types && !f.sat && f.sf == .none && f.m < 32 && (f.ty.isAi || f.m / 8 == 0) && f.m / 8 ≠ 3 && (f.m / 4 % 2 == 0 || f.m % 2 == 1))
    (some f.d.isV) none none none
def spushRule (f : VF) : Rule := f.rule (f.plain && f.ty == .i32) none (some f.a.isV) (some f.b.sc) none
def mqstatRule (f : VF) : Rule := f.rule (f.plain && f.ty == .i32 && f.m < 4) (some (f.d.vk || f.d.isS || f.d.isZ)) none none none
def mdropRule (f : VF) : Rule := f.rule (f.plain && f.ty == .i32 && f.m < 4) none none (some f.b.sc) none

/-- The codes of XDEC and XENC by mode (R350). -/
def VF.xdecCodes (f : VF) (enc : Bool) : Bool :=
  f.rmo == .lane && f.sf == .none &&
  match f.m % 4 with
  | 0 => f.ty == .n32 && (enc || !f.sat)
  | 1 => f.ty == .i32 && (enc || !f.sat)
  | 2 => (f.ty == .f32 || f.ty == .bf16x2) && !f.sat && f.m / 8 == 0
  | _ => !enc && f.ty == .f32 && !f.sat && f.m / 4 % 4 < 2 && f.m / 16 ≠ 3
def xdecRule (f : VF) (enc : Bool) : Rule := f.rule (f.xdecCodes enc) (some f.d.vk) (some f.a.s0) (some f.b.sc) (some f.c.sc)

/-- XSPARSE (R353). -/
def xsparseRule (f : VF) : Rule :=
  let a := if f.ty == .f32 then f.a.aligned 4 else if f.ty.is16x2 then f.a.aligned 2 else f.a.vk
  f.rule ((f.ty == .f32 || f.ty.is16x2 || f.ty.isFp8) && f.plain && f.m == 0)
    (some (if f.ty == .f32 then f.d.aligned 2 else f.d.vk)) (some a) none (some f.c.vk)
/-- XMATCH, whose A is v or k (log entry 127). -/
def xmatchRule (f : VF) : Rule := f.rule (f.ty == .b32 && f.plain && f.m == 0) (some (f.d.aligned 2)) (some f.a.vk) none none
def xsortRule (f : VF) : Rule :=
  f.rule ((f.ty == .i32 || f.ty == .n32 || f.ty == .f32) && f.plain && f.m < 2)
    (some f.d.vk) (some f.a.vk) (some f.b.vk) (some f.c.vk)
def xpermRule (f : VF) : Rule :=
  f.rule (f.ty == .b32 && f.plain && f.m < 8) (some (f.d.vk && f.d.fits (f.m + 1))) (some (f.a.vk && f.a.fits (f.m + 1))) (some f.b.src) none
def xtrnRule (f : VF) : Rule := f.rule (f.ty == .b32 && f.plain && f.m == 0) (some (f.d.aligned 8)) (some (f.a.aligned 8)) none none

/-- The tape words (R358, R359): TYPE 0, RMO 000, SAT 0; SF where R359 lets a flag be named. -/
def VF.tape (f : VF) (sf : Bool) (mod : Bool) : Bool := f.ty == .i32 && f.rmo == .lane && !f.sat && (sf || f.sf == .none) && mod
/-- The words of majors 0x29 to 0x2C under TYPE .f32 (R358). -/
def VF.rend (f : VF) (rmo sf mod : Bool) : Bool := f.ty == .f32 && (rmo || f.rmo == .lane) && !f.sat && (sf || f.sf == .none) && mod

/-! VI format. -/

/-- IMM words (R268). -/
def immRule (f : IF) (codes : Bool) (a : Option Bool) : Rule :=
  f.rule codes (some (f.d.vk || f.d.isS && (a.isNone || f.a.uniform))) a
def cmpiRule (f : IF) : Rule :=
  f.rule (f.imm.toNat / 2 ^ 28 ≤ 9) (some (f.d.vk || f.d.isM || f.d.isS && f.a.uniform)) (some f.a.src)

/-- The per-lane system registers of R278. -/
def srPerLane (n : Nat) : Bool := n == 0x00 || n == 0x10
/-- The registers that MFSR reads (R278, R412). -/
def srReadable (n : Nat) : Bool :=
  srPerLane n || [0x20, 0x21, 0x22, 0x30, 0x31, 0x40, 0x41, 0x42, 0x43].contains n || (0x100 ≤ n && n ≤ 0x10C)
/-- The registers that MTSR writes with no effect of their own; HEXIT and PTMASK are rows of their own. -/
def srWritable (n : Nat) : Bool := srPerLane n || n == 0x108

def mfsrRule (f : IF) : Rule :=
  f.rule (srReadable f.imm.toNat) (some (f.d.vk || f.d.isS && !srPerLane f.imm.toNat)) none
def mtsrRule (f : IF) : Rule :=
  f.rule (srWritable f.imm.toNat) none (some (if srPerLane f.imm.toNat then f.a.vk || f.a.sc else f.a.sc))
def hexitRule (f : IF) : Rule := f.rule (f.imm == 0x10D#32) none (some f.a.sc)
def ptmaskRule (f : IF) : Rule := f.rule (f.imm == 0x10A#32) none (some f.a.sc)
def zreadRule (f : IF) : Rule := f.rule (f.imm.toNat < 2) (some f.d.isZ) none

/-! M format. -/

def MF.i (f : MF) : Nat := f.imm.toNat
def Width.bytes : Width → Nat | .b8 => 1 | .b16 => 2 | .b32 => 4 | .b64 => 8 | .b128 => 16
/-- The per-lane registers of a width (R309). -/
def Width.regs : Width → Nat | .b64 => 2 | .b128 => 4 | _ => 1
/-- SCOPE 0, ORD .rlx, SF 00, WIDTH 0 and HINT 0. -/
def MF.noScope (f : MF) : Bool := f.scope == .grp && f.ord == .rlx && f.hint == .none
def MF.bare (f : MF) : Bool := f.noScope && f.sf == .none && f.width == .b8
def loadOrd (o : Ord) : Bool := o == .rlx || o == .acq || o == .sc
def storeOrd (o : Ord) : Bool := o == .rlx || o == .rel || o == .sc

/-- The register group at D of a WIDTH (R309): `s` and `other` say whether an s register, or a y register or a constant,
is accepted. -/
def MF.dataOk (f : MF) (s other : Bool) : Bool :=
  match f.d with
  | .v _ => (match f.width with | .b64 => f.d.even | .b128 => f.d.aligned 4 | _ => true)
  | .k _ => (match f.width with | .b64 => f.d.even | .b128 => f.d.aligned 4 | _ => true)
  | .s _ => s && f.width ≠ .b128
  | .y _ => other && (match f.width with | .b64 => f.d.even | .b128 => false | _ => true)
  | .const _ => other && f.width ≠ .b128
  | _ => false
/-- The lane offset B (R308, R310). -/
def MF.offOk (f : MF) : Bool := f.b.src && (!f.d.isS || f.b.uniform)

def loadRule (f : MF) (hint a : Bool) : Rule :=
  f.rule (loadOrd f.ord && f.sf == .none && (hint || f.hint == .none)) (some (f.dataOk true false)) (some a) (some f.offOk)
def storeRule (f : MF) (hint a : Bool) : Rule :=
  f.rule (storeOrd f.ord && (hint || f.hint == .none)) (some (f.dataOk true true)) (some a) (some f.offOk)
def zstRule (f : MF) : Rule :=
  f.rule (f.ord == .rlx && f.hint == .none && f.width == .b64) (some f.d.isZ) (some f.a.isA) (some f.b.sc)
/-- Tiles (R314). -/
def tileRule (f : MF) (load global : Bool) : Rule :=
  f.rule (f.width == .b128 && (if load then loadOrd f.ord && f.sf == .none else storeOrd f.ord)
      && (global || (f.scope == .grp || f.scope == .core) && f.hint == .none))
    (some f.d.isV) (some (if global then f.a.isA else f.a.s0)) (some f.b.isS)

/-- OP and TYPE of IMM11 under major 0x13 (R234). -/
def MF.op (f : MF) : Nat := f.i % 16
def MF.ty (f : MF) : Option Ty := Ty.ofCode (f.i / 16 % 16)
/-- WIDTH equals the width of TYPE, IMM11[10:8] is zero and HINT is 0. -/
def MF.atomCodes (f : MF) (ok : Ty → Bool) : Bool :=
  f.i < 256 && f.hint == .none &&
  match f.ty with
  | some t => ok t && f.width == (if t.is64 then .b64 else .b32)
  | none => false
def atomRule (f : MF) : Rule :=
  f.rule (f.atomCodes (fun t => t.code < 8 && atomPair f.op t) && f.sf == .none)
    (some (f.dataOk true false)) (some (f.a.isA || f.a.s0)) (some f.offOk)
/-- The CAS family with its types and the alignment of its register group (R321). -/
def casRule (f : MF) (types : Ty → Bool) (n : Nat) : Rule :=
  f.rule (f.atomCodes types && f.op == 0 && f.sf == .none) (some (f.d.aligned n)) (some (f.a.isA || f.a.s0)) (some f.b.src)
def casAlign (f : MF) : Nat := if f.width == .b64 then 4 else 2
def redRule (f : MF) : Rule :=
  f.rule (f.atomCodes (redPair f.op) && (f.ord == .rlx || f.ord == .rel)) (some (f.dataOk true true)) (some f.a.isA) (some f.offOk)
/-- RFLUSH (R323): A and no flag under .grid. -/
def rflushRule (f : MF) : Rule :=
  f.rule (f.noScope && f.width == .b8 && f.i < 2 && (f.i == 0 || f.sf == .none)) none (if f.i == 1 then some f.a.s0 else none) none
def fenceRule (f : MF) : Rule :=
  f.rule (f.ord ≠ .rlx && f.sf == .none && f.width == .b8 && f.hint == .none && f.i == 0) none none none
def lineRule (f : MF) (hint : Bool) : Rule :=
  f.rule (f.scope == .grp && f.ord == .rlx && f.sf == .none && (hint || f.hint == .none)) none (some f.a.isA) (some f.b.src)
/-- LEA (R271). -/
def leaRule (f : MF) : Rule :=
  f.rule (f.noScope && f.sf == .none) (some (f.d.aligned 2 || f.d.isS && f.b.sc)) (some f.a.isA) (some f.b.src)

/-- Barrier words (R326): `anyScope` where any scope is accepted. -/
def barRule (f : MF) (anyScope l : Bool) (d : Option Bool) : Rule :=
  f.rule ((anyScope || f.scope == .grp) && f.ord == .rlx && f.sf == .none && f.width == .b8 && f.hint == .none && (f.i < 2 || l && f.i < 4))
    d (some f.a.s0) (some f.b.sc)
def MF.arriveL (f : MF) : Bool := f.i / 2 % 2 == 1

/-- BN and BK of the copy commands (R328). -/
def MF.bn (f : MF) : Bool := f.i / 1024 == 1
def MF.bk (f : MF) : Bool := f.i / 512 % 2 == 1
def cpyRule (f : MF) (stream : Bool) : Rule :=
  f.rule (f.noScope && (!f.bk || f.bn) && f.i / 256 % 2 == 0 && (if stream then f.sf == .none && f.width ≠ .b128 else f.width == .b8 && f.i % 256 == 0))
    (if stream then none else some f.d.isS) (some f.a.isS) (if f.bn then some f.b.sc else none)

def stashRule (f : MF) (restore : Bool) : Rule :=
  f.rule (f.noScope && f.width == .b8 && (if restore then f.i < 256 else f.i < 128))
    (some (if f.i / 128 == 1 then f.d.isS else f.d.isV)) (some f.a.isA) (some f.b.sc)
def collRule (f : MF) (codes : Bool) : Rule :=
  f.rule (f.bare && f.i < 256 && codes) (some f.d.isS) (some f.a.isA) (some f.b.sc)

/-! B format. -/

/-- The target of BRX and CALLX (R252). -/
def BF.targetOk (f : BF) : Bool := f.c.isS || f.c.vk && f.c.even

/-! The rule of each row. An event is no word and has no field to check here. -/

def Instr.rule : Instr → Rule
  | .nop _ f => noneRule f
  | .bra _ f => f.rule (f.n == 0#8) none
  | .bru _ f => f.rule (f.n.toNat < 2) (some f.c.isS)
  | .brx _ f => f.rule (f.n == 0#8 && f.ofs == 0#32) (some f.targetOk)
  | .call _ f => f.rule true none
  | .callx _ f => f.rule (f.ofs == 0#32) (some f.targetOk)
  | .ret _ f => noneRule f
  | .exit _ f => noneRule f
  | .yield _ f => noneRule f
  | .trap _ f => f.rule true none none
  | .tret _ f => noneRule f
  | .bkpt _ f => f.rule true none none
  | .waitf _ f => f.rule (f.imm.toNat < 4096) none none
  | .add _ f => intRule f 2 f.ty.isInt true (f.m == 0)
  | .sub _ f => intRule f 2 f.ty.isInt true (f.m == 0)
  | .mul _ f => intRule f 2 f.ty.isInt true (f.m == 0)
  | .mulh _ f => intRule f 2 f.ty.isIN false (f.m == 0)
  | .mad _ f => intRule f 3 f.ty.isInt true (f.m == 0)
  | .addc _ f => carryRule f
  | .subb _ f => carryRule f
  | .and _ f => intRule f 2 f.ty.isInt false (f.m == 0)
  | .or _ f => intRule f 2 f.ty.isInt false (f.m == 0)
  | .xor _ f => intRule f 2 f.ty.isInt false (f.m == 0)
  | .andn _ f => intRule f 2 f.ty.isInt false (f.m == 0)
  | .shl _ f => intRule f 2 f.ty.isInt false true
  | .shr _ f => intRule f 2 f.ty.isInt false true
  | .sra _ f => intRule f 2 f.ty.isInt false true
  | .rot _ f => intRule f 2 f.ty.isInt false true
  | .min _ f => intRule f 2 f.ty.isIN false (f.m == 0)
  | .max _ f => intRule f 2 f.ty.isIN false (f.m == 0)
  | .absd _ f => intRule f 2 f.ty.isIN false (f.m == 0)
  | .cmp _ f => cmpRule f
  | .sel _ f => selRule f
  | .popc _ f => intRule f 1 f.ty.isInt false (f.m == 0)
  | .clz _ f => intRule f 1 f.ty.isInt false (f.m == 0)
  | .brev _ f => intRule f 1 f.ty.isInt false (f.m == 0)
  | .bfe _ f => intRule f 2 f.ty.isInt false (f.m == 0)
  | .bfi _ f => intRule f 3 f.ty.isInt false (f.m == 0)
  | .mov _ f => movRule f
  | .div _ f => intRule f 2 f.ty.isIN false (f.m < 2)
  | .movi _ f => immRule f true none
  | .addi _ f => immRule f true (some f.a.src)
  | .andi _ f => immRule f true (some f.a.src)
  | .ori _ f => immRule f true (some f.a.src)
  | .xori _ f => immRule f true (some f.a.src)
  | .cmpi _ f => cmpiRule f
  | .atr _ f => f.rule f.bare (some f.d.isA) (some f.a.isS) none none
  | .arel _ f => f.rule f.bare (some f.d.isA) none none none
  | .lea _ f => leaRule f
  | .aget _ f => agetRule f
  | .mand _ f => maskRule f 2 (f.d.isM || f.d.isS)
  | .mor _ f => maskRule f 2 (f.d.isM || f.d.isS)
  | .mxor _ f => maskRule f 2 (f.d.isM || f.d.isS)
  | .mandn _ f => maskRule f 2 (f.d.isM || f.d.isS)
  | .mmov _ f => maskRule f 1 (f.d.isM || f.d.isS)
  | .mpopc _ f => maskRule f 1 (f.d.isS || f.d.vk)
  | .mfirst _ f => maskRule f 1 (f.d.isS || f.d.vk)
  | .mact _ f => maskRule f 0 (f.d.isM || f.d.isS)
  | .gsplit _ f => f.rule (f.imm == 2#32 || f.imm == 4#32) none none
  | .gfuse _ f => noneRule f
  | .gang _ f => gangRule f
  | .mfsr _ f => mfsrRule f
  | .mtsr _ f => mtsrRule f
  | .hexitWrite _ f => hexitRule f
  | .ptmaskWrite _ f => ptmaskRule f
  | .clk _ f => f.rule f.bare (some (f.d.isS || f.d.vk && f.d.even)) none none none
  | .zread _ f => zreadRule f
  | .rng _ f => rngRule f
  | .ecount _ f => f.rule f.bare (some f.d.isZ) none none none
  | .fadd _ f => fpRule f 2 f.ty.isF true true (f.m == 0)
  | .fsub _ f => fpRule f 2 f.ty.isF true true (f.m == 0)
  | .fmul _ f => fpRule f 2 f.ty.isF true true (f.m == 0)
  | .ffma _ f => fpRule f 3 f.ty.isF true true (f.m == 0)
  | .fmin _ f => fpRule f 2 f.ty.isF false true (f.m == 0)
  | .fmax _ f => fpRule f 2 f.ty.isF false true (f.m == 0)
  | .fminm _ f => fpRule f 2 f.ty.isF false true (f.m == 0)
  | .fmaxm _ f => fpRule f 2 f.ty.isF false true (f.m == 0)
  | .fcmp _ f => fcmpRule f
  | .fclass _ f => fclassRule f
  | .fdiv _ f => fpRule f 2 f.ty.isF true true (f.m == 0)
  | .fsqrt _ f => fpRule f 1 f.ty.isF true true (f.m == 0)
  | .frcp _ f => fpRule f 1 f.ty.isG false true (f.m == 0)
  | .frsq _ f => fpRule f 1 f.ty.isG false true (f.m == 0)
  | .fexp2 _ f => fpRule f 1 f.ty.isH false true (f.m == 0)
  | .flog2 _ f => fpRule f 1 f.ty.isH false true (f.m == 0)
  | .fsin _ f => fpRule f 1 f.ty.isH false true (f.m == 0)
  | .fcos _ f => fpRule f 1 f.ty.isH false true (f.m == 0)
  | .frint _ f => fpRule f 1 f.ty.isF true false (f.m < 2)
  | .fscale _ f => fscaleRule f
  | .fgetexp _ f => fpRule f 1 f.ty.isF false true (f.m == 0)
  | .fdot2 _ f => fpRule f 3 f.ty.is16x2 true true (f.m == 0)
  | .fcvt _ f => fcvtRule f
  | .ftoi _ f => ftoiRule f
  | .itof _ f => itofRule f
  | .pack8 _ f => cvt8Rule f f.ty.isFp8 true (f.m < 2) 2
  | .unpk8 _ f => cvt8Rule f f.ty.isFp8 false (f.m < 4) 1
  | .qnt _ f => cvt8Rule f f.ty.isAi true f.elemOk 2
  | .deq _ f => cvt8Rule f f.ty.isAi true f.elemOk 2
  | .bcast _ f => bcastRule f
  | .shfl _ f => shflRule f
  | .shup _ f => shiftLaneRule f
  | .shdn _ f => shiftLaneRule f
  | .ballot _ f => ballotRule f
  | .redux _ f => foldRule f false
  | .scan _ f => foldRule f true
  | .elect _ f => electRule f
  | .lget _ f => lgetRule f
  | .lput _ f => lputRule f
  | .ld _ f => loadRule f true f.a.isA
  | .lds _ f => loadRule f false f.a.s0
  | .ldk _ f => loadRule f false f.a.s0
  | .st _ f => storeRule f true f.a.isA
  | .sts _ f => storeRule f false f.a.s0
  | .stk _ f => storeRule f false f.a.s0
  | .zst _ f => zstRule f
  | .tld _ f => tileRule f true true
  | .tst _ f => tileRule f false true
  | .tlds _ f => tileRule f true false
  | .tsts _ f => tileRule f false false
  | .atom _ f => atomRule f
  | .cas _ f => casRule f Ty.isInt (casAlign f)
  | .casgt _ f => casRule f (fun t => t == .i64 || t == .n64) 2
  | .casv _ f => casRule f (fun t => t == .b64) 2
  | .caspt _ f => casRule f (fun t => t == .b64) 4
  | .red _ f => redRule f
  | .rflush _ f => rflushRule f
  | .fence _ f => fenceRule f
  | .cinv _ f => lineRule f false
  | .cflu _ f => lineRule f false
  | .pref _ f => lineRule f true
  | .binit _ f => barRule f false false (some f.d.sc)
  | .bexpect _ f => barRule f false false (some f.d.sc)
  | .barrive _ f => barRule f true true (if f.arriveL then some f.d.isS else none)
  | .bwait _ f => barRule f true false (some f.d.isS)
  | .btest _ f => barRule f false false (some (f.d.isS || f.d.vk || f.d.isZ))
  | .cpy _ f => cpyRule f false
  | .cpyt _ f => cpyRule f false
  | .cpyc _ f => cpyRule f false
  | .cpys _ f => cpyRule f true
  | .stash _ f => stashRule f false
  | .restore _ f => stashRule f true
  | .collar _ f => collRule f (f.op < 4 && f.ty.any (redPair f.op))
  | .collrs _ f => collRule f (f.op < 4 && f.ty.any (redPair f.op))
  | .collag _ f => collRule f (f.op == 0 && f.ty.any (fun t => t.code < 8))
  | .collupd _ f => collRule f (f.op < 2 && f.ty == some .f32)
  | .collcmt _ f => collRule f (f.i == 0)
  | .walloc _ f => f.rule f.bare (some (f.d.isS || f.d.aligned 2)) (some f.a.sc) none none
  | .wsend _ f => f.rule f.bare none (some (f.a.isS || f.a.aligned 2)) (some f.b.sc) none
  | .launch _ f => f.rule f.bare (some (f.d.isS || f.d.isZ)) (some f.a.isS) (some f.b.sc) none
  | .mma _ f => mmaRule f (6 ≤ f.ty.code)
  | .mmasp _ f => mmaRule f (8 ≤ f.ty.code && f.ty.code ≤ 12)
  | .spush _ f => spushRule f
  | .mqstat _ f => mqstatRule f
  | .mdrop _ f => mdropRule f
  | .xdec _ f => xdecRule f false
  | .xenc _ f => xdecRule f true
  | .xsparse _ f => xsparseRule f
  | .xmatch _ f => xmatchRule f
  | .xsort _ f => xsortRule f
  | .xperm _ f => xpermRule f
  | .xtrn _ f => xtrnRule f
  | .topen _ f => f.rule (f.tape true (f.m == 0)) none none none none
  | .trec _ f => f.rule (f.tape true (f.m < 16)) none (some f.a.isV) none none
  | .tpop _ f => f.rule (f.tape false (f.m < 8)) (some f.d.isV) none (some f.b.isS) (some f.c.isM)
  | .tmark _ f => f.rule (f.tape true (f.m ≤ 8)) none (if f.m == 0 then none else some f.a.isV) none none
  | .tend _ f => f.rule (f.tape true (f.m == 0)) none none none none
  | .tstat _ f => f.rule (f.tape false (f.m ≤ 2)) (some f.d.isS) none none none
  | .tclose _ f => f.rule (f.tape true (f.m == 0)) none none none none
  | .rcov _ f => f.rule (f.rend true false (f.m == 0)) (some f.d.isV) (some (f.a.isS && f.a.fits 6)) (some f.b.isV) (some f.c.isM)
  | .esmp _ f => f.rule (f.rend true false (f.m == 0)) (some f.d.isV) (some (f.a.isS && f.a.fits 2)) none none
  | .tex _ f => f.rule (f.rend true false (f.m == 0)) (some f.d.isV) (some f.a.isV) (some f.b.isS) none
  | .texl _ f => f.rule (f.rend true false (f.m == 0)) (some f.d.isV) (some f.a.isV) (some f.b.isS) none
  | .texadj _ f => f.rule (f.rend true false (f.m < 2)) (some f.d.isV) (some f.a.isV) (some f.b.isS) (some f.c.isV)
  | .trace _ f => f.rule (f.rend false true (f.m == 0)) (some f.d.isV) (some f.a.isV) (some f.b.isV) (some f.c.isS)
  | .tresume _ f => f.rule (f.rend false true (f.m < 2)) (some f.d.isV) (some f.a.isV) (if f.m == 1 then some f.b.isV else none) none
  | .tabort _ f => f.rule (f.rend false false (f.m == 0)) (some f.d.isV) (some f.a.isV) none none
  | .hitadj _ f => f.rule (f.rend true false (f.m == 0)) (some f.d.isV) (some f.a.isV) none (some f.c.isV)
  | .rcq _ f => f.rule (f.rend false false (f.m < 2)) (some f.d.isV) (some f.a.isV) (if f.m == 1 then some f.b.isV else none) none
  | .rcsync _ f => f.rule (f.tape false (f.m == 0)) none (some f.a.s0) none none
  | .rcstat _ f => f.rule (f.tape false (f.m ≤ 2)) (some f.d.isS) none none none
  | .tileLockGrant _ => ⟨true, []⟩
  | .engineWriteLanding _ _ _ => ⟨true, []⟩
  | .flagClear _ _ => ⟨true, []⟩
  | .streamBeatAccept _ _ _ _ => ⟨true, []⟩
  | .collectiveCompletion _ _ _ => ⟨true, []⟩
  | .batchTimeout _ _ => ⟨true, []⟩
  | .mmaPop _ => ⟨true, []⟩
  | .mmaComplete _ => ⟨true, []⟩
  | .tapeSpill _ => ⟨true, []⟩
  | .tapeFill _ => ⟨true, []⟩
  | .syncPoint _ => ⟨true, []⟩
  | .temperStep _ => ⟨true, []⟩
  | .versionPublish _ => ⟨true, []⟩
  | .handlerOverrun _ => ⟨true, []⟩
  | .laneWaitResume _ => ⟨true, []⟩
  | .groupStallWake _ => ⟨true, []⟩
  | .fusion _ => ⟨true, []⟩
  | .rotationRule _ => ⟨true, []⟩
  | .starvationGuard _ => ⟨true, []⟩
  | .yieldRelease _ => ⟨true, []⟩
  | .arbitrationAgeGrant _ => ⟨true, []⟩
  | .groupRetirement _ => ⟨true, []⟩
  | .teamRetirement _ => ⟨true, []⟩
  | .anvilStage _ _ => ⟨true, []⟩
  | .epochClose _ => ⟨true, []⟩
  | .uPartialApply _ _ => ⟨true, []⟩
  | .lqtailWrite _ _ => ⟨true, []⟩
  | .launchRecordTake _ => ⟨true, []⟩
  | .gridStart _ => ⟨true, []⟩
  | .teamPlacement _ _ _ => ⟨true, []⟩
  | .preEmptionWithdraw _ => ⟨true, []⟩
  | .eviction _ => ⟨true, []⟩
  | .teamRestore _ _ => ⟨true, []⟩
  | .gridCompletion _ => ⟨true, []⟩
  | .invalidationRequest _ _ => ⟨true, []⟩
  | .invalidationComplete _ => ⟨true, []⟩
  | .fqheadWrite _ _ => ⟨true, []⟩
  | .fqctlRetry _ => ⟨true, []⟩
  | .llcctlUnpin => ⟨true, []⟩
  | .pinwWrite _ => ⟨true, []⟩
  | .cacheLoad _ => ⟨true, []⟩
  | .cacheSave _ => ⟨true, []⟩
  | .switch _ => ⟨true, []⟩
  | .switchComplete _ => ⟨true, []⟩
  | .contextResume _ => ⟨true, []⟩
  | .kill _ => ⟨true, []⟩
  | .snapshot _ => ⟨true, []⟩
  | .arm _ _ _ => ⟨true, []⟩
  | .stopReached _ => ⟨true, []⟩
  | .disarm _ => ⟨true, []⟩
  | .debugResume _ => ⟨true, []⟩
  | .debugRead _ _ _ => ⟨true, []⟩
  | .debugWrite _ _ _ => ⟨true, []⟩
  | .debugForceWrite _ _ _ => ⟨true, []⟩
  | .traceCaptureOn _ => ⟨true, []⟩
  | .traceCaptureOff _ => ⟨true, []⟩
  | .samplePacket _ _ _ => ⟨true, []⟩
  | .hostWrite _ _ => ⟨true, []⟩
  | .hostRead _ _ _ => ⟨true, []⟩
  | .remoteAccessArrival _ => ⟨true, []⟩
  | .remoteReply _ _ => ⟨true, []⟩
  | .remoteRequestLost _ => ⟨true, []⟩
  | .portStateChange _ _ => ⟨true, []⟩
  | .leaseRevoke _ => ⟨true, []⟩
  | .leaseNotice _ => ⟨true, []⟩
  | .leaseAck _ => ⟨true, []⟩
  | .leaseDeadline _ => ⟨true, []⟩
  | .lenderReclaim _ => ⟨true, []⟩
  | .featenWrite _ => ⟨true, []⟩
  | .packageReset => ⟨true, []⟩
  | .mailboxWrite => ⟨true, []⟩
  | .mailboxWriteDone => ⟨true, []⟩
  | .mailboxCommit => ⟨true, []⟩
  | .attcmdGo _ => ⟨true, []⟩
  | .attestationReportDone _ => ⟨true, []⟩
  | .reservoirTick _ _ => ⟨true, []⟩
  | .scrub _ => ⟨true, []⟩
  | .registerWrite _ _ => ⟨true, []⟩
  | .softError _ => ⟨true, []⟩
  | .writeBufferDrain _ => ⟨true, []⟩
  | .barSizeSelect _ => ⟨true, []⟩

end Sys2Proof
end

