-- ==== Sys2Proof/Machine/Fp.lean ====
section
/-! DEFINITION. Floating-point formats and the helpers OPND, RESULT, ROUND and SAT of spec/08 (R201 to R214), on exact
values: a finite number is a signed integer times a power of two. -/

namespace Sys2Proof.Machine

/-- Rounding directions (R208); RMO 000 is resolved before these functions are called. -/
inductive Rm | rne | rz | ru | rd
deriving DecidableEq, Repr, Inhabited

def Rm.ofCode : Nat → Rm | 0 => .rne | 1 => .rz | 2 => .ru | _ => .rd

/-- A format (R201): exponent and fraction widths; E4M3 has no infinity and uses its top exponent for numbers. -/
structure Fmt where
  eb : Nat
  fb : Nat
  noInf : Bool := false
deriving DecidableEq, Repr, Inhabited

def fp64 : Fmt := ⟨11, 52, false⟩
def fp32 : Fmt := ⟨8, 23, false⟩
def fp16 : Fmt := ⟨5, 10, false⟩
def bf16 : Fmt := ⟨8, 7, false⟩
def e4m3 : Fmt := ⟨4, 3, true⟩
def e5m2 : Fmt := ⟨5, 2, false⟩

def Fmt.bits (f : Fmt) : Nat := 1 + f.eb + f.fb
def Fmt.bias (f : Fmt) : Int := 2 ^ (f.eb - 1) - 1
/-- Exponent of the smallest normal, and of the last place of a subnormal. -/
def Fmt.emin (f : Fmt) : Int := 1 - f.bias
def Fmt.qmin (f : Fmt) : Int := f.emin - f.fb
/-- The encoding without sign of the largest finite value, of infinity and of the canonical NaN. -/
def Fmt.maxBits (f : Fmt) : Nat := if f.noInf then 2 ^ (f.eb + f.fb) - 2 else (2 ^ f.eb - 1) * 2 ^ f.fb - 1
def Fmt.infBits (f : Fmt) : Nat := (2 ^ f.eb - 1) * 2 ^ f.fb
def Fmt.nanBits (f : Fmt) : Nat := if f.noInf then 2 ^ (f.eb + f.fb) - 1 else f.infBits + 2 ^ (f.fb - 1)
def Fmt.signed (f : Fmt) (neg : Bool) (b : Nat) : Nat := if neg then b + 2 ^ (f.eb + f.fb) else b

/-- The floating-point format of a type's element (R237). -/
def Ty.fmt : Ty → Fmt
  | .f64 => fp64 | .f32 => fp32 | .f16x2 => fp16 | .bf16x2 => bf16 | .e4m3x4 => e4m3 | .e5m2x4 => e5m2 | _ => fp32

/-- The value of an encoding (R202): a NaN with its fraction of `fb` bits, an infinity, or m × 2^e. -/
inductive Num
  | nan (neg sig : Bool) (frac fb : Nat)
  | inf (neg : Bool)
  | fin (neg : Bool) (m : Nat) (e : Int)
deriving DecidableEq, Repr, Inhabited

/-- The value of an encoding (R202). -/
def unpack (f : Fmt) (b : Nat) : Num :=
  let neg := b / 2 ^ (f.eb + f.fb) % 2 == 1
  let e := b / 2 ^ f.fb % 2 ^ f.eb
  let fr := b % 2 ^ f.fb
  if f.noInf && e == 2 ^ f.eb - 1 && fr == 2 ^ f.fb - 1 then .nan neg false fr f.fb
  else if !f.noInf && e == 2 ^ f.eb - 1 then
    if fr == 0 then .inf neg else .nan neg (fr < 2 ^ (f.fb - 1)) fr f.fb
  else if e == 0 then .fin neg fr f.qmin
  else .fin neg (2 ^ f.fb + fr) (f.qmin + (e - 1 : Int))

def Num.isNan : Num → Bool | .nan .. => true | _ => false
def Num.isSig : Num → Bool | .nan _ sig _ _ => sig | _ => false
def Num.isInf : Num → Bool | .inf _ => true | _ => false
def Num.isFin : Num → Bool | .fin .. => true | _ => false
def Num.isZero : Num → Bool | .fin _ 0 _ => true | _ => false
def Num.neg : Num → Bool | .nan n _ _ _ => n | .inf n => n | .fin n _ _ => n
def Num.negate : Num → Num | .nan n s f b => .nan (!n) s f b | .inf n => .inf (!n) | .fin n m e => .fin (!n) m e
/-- m × 2^e as a signed integer at exponent e0, which is at most e. -/
def atExp (neg : Bool) (m : Nat) (e e0 : Int) : Int :=
  let x : Int := m * 2 ^ (e - e0).toNat
  if neg then -x else x

/-- What a lane's FPL makes of an operation (R206): rounding direction, FTZ, DAZ and NANP. -/
structure FpEnv where
  rm : Rm := .rne
  ftz : Bool := false
  daz : Bool := false
  nanp : Bool := false
deriving DecidableEq, Repr, Inhabited

/-! Flags of R206, as bits of FPL. -/
def fNV : W32 := 0x100
def fDZ : W32 := 0x200
def fOF : W32 := 0x400
def fUF : W32 := 0x800
def fNX : W32 := 0x1000
def fNF : W32 := 0x2000

/-- A delivered encoding with the flags raised. -/
structure FpR where
  bits : Nat := 0
  fl : W32 := 0
deriving DecidableEq, Repr, Inhabited

/-- OPND (R210): DAZ turns a subnormal into a zero of its sign. The flag of a signalling NaN is raised by `nvOf`. -/
def opnd (f : Fmt) (env : FpEnv) (b : Nat) : Num :=
  match unpack f b with
  | .fin neg m e => if env.daz && m < 2 ^ f.fb then .fin neg 0 e else .fin neg m e
  | x => x

/-- NV for a signalling NaN among the operands (R210). -/
def nvOf (xs : List Num) : W32 := if xs.any Num.isSig then fNV else 0

/-- The NaN result of R212 from the operands in their order. -/
def nanResult (f : Fmt) (env : FpEnv) (xs : List Num) : Nat :=
  match env.nanp, xs.find? Num.isNan with
  | true, some (.nan neg _ frac fb) =>
    if f.noInf then f.signed neg f.nanBits
    else
      let fr := if f.fb ≤ fb then frac / 2 ^ (fb - f.fb) else frac * 2 ^ (f.fb - fb)
      f.signed neg (f.infBits + (fr % 2 ^ (f.fb - 1) + 2 ^ (f.fb - 1)))
  | _, _ => f.nanBits

/-! ## Rounding -/

/-- Whether the magnitude q + (0, half, rest) rounds away from q. `half` compares the discarded part with one half: 0 none,
1 below, 2 equal, 3 above. -/
def roundsUp (rm : Rm) (neg : Bool) (q half : Nat) : Bool :=
  match rm with
  | .rne => half == 3 || half == 2 && q % 2 == 1
  | .rz => false
  | .ru => half != 0 && !neg
  | .rd => half != 0 && neg

/-- m × 2^e, slightly more when `sticky`, as a multiple of 2^q: the multiple, and whether it is exact. -/
def roundAt (rm : Rm) (neg : Bool) (m : Nat) (sticky : Bool) (e q : Int) : Nat × Bool :=
  if q ≤ e then
    let n := m * 2 ^ (e - q).toNat
    if sticky then (if roundsUp rm neg n 1 then (n + 1, false) else (n, false)) else (n, true)
  else
    let k := (q - e).toNat
    let n := m / 2 ^ k
    let r := m % 2 ^ k
    let h := 2 ^ (k - 1)
    let half := if r == 0 then (if sticky then 1 else 0) else if r < h then 1 else if r == h then (if sticky then 3 else 2) else 3
    (if roundsUp rm neg n half then n + 1 else n, half == 0)

/-- Whether n × 2^q ≤ m × 2^r. -/
def leScaled (n : Nat) (q : Int) (m : Nat) (r : Int) : Bool :=
  if q ≤ r then n ≤ m * 2 ^ (r - q).toNat else n * 2 ^ (q - r).toNat ≤ m

/-- The exponent of the leading bit of m × 2^e. -/
def leadExp (m : Nat) (e : Int) : Int := e + Nat.log2 m

/-- The encoding without sign of n × 2^q, a value of the format. -/
def packMag (f : Fmt) (n : Nat) (q : Int) : Nat :=
  if n == 0 then 0
  else
    let le := leadExp n q
    if f.emin ≤ le then
      let fr := if (f.fb : Int) ≤ Nat.log2 n then n / 2 ^ (Nat.log2 n - f.fb) else n * 2 ^ (f.fb - Nat.log2 n)
      (le + f.bias).toNat * 2 ^ f.fb + fr % 2 ^ f.fb
    else if f.qmin ≤ q then n * 2 ^ (q - f.qmin).toNat
    else n / 2 ^ (f.qmin - q).toNat

/-- The overflow value OVF of R209. -/
def ovf (f : Fmt) (rm : Rm) (neg : Bool) : Nat :=
  let inf := f.signed neg (if f.noInf then f.maxBits else f.infBits)
  let big := f.signed neg f.maxBits
  match rm with
  | .rne => inf
  | .rz => big
  | .ru => if neg then big else inf
  | .rd => if neg then inf else big

/-- The largest finite value as n × 2^q. -/
def Fmt.maxMag (f : Fmt) : Nat × Int :=
  match unpack f f.maxBits with
  | .fin _ m e => (m, e)
  | _ => (0, 0)

/-- RESULT (R209) of a non-zero finite exact value, m × 2^e and slightly more when `sticky`; `p` is the precision and `sat`
delivers SAT's largest finite value in place of OVF (R214). -/
def resultCore (f : Fmt) (p : Nat) (sat : Bool) (env : FpEnv) (neg : Bool) (m : Nat) (sticky : Bool) (e : Int) : FpR :=
  let q := leadExp m e - (p - 1 : Nat)
  let u := roundAt env.rm neg m sticky e q
  if !leScaled u.1 q f.maxMag.1 f.maxMag.2 then
    ⟨if sat then f.signed neg f.maxBits else ovf f env.rm neg, fOF ||| fNX⟩
  else if leadExp u.1 q < f.emin then
    if env.ftz then ⟨f.signed neg 0, fUF ||| fNX⟩
    else
      let w := roundAt env.rm neg m sticky e f.qmin
      ⟨f.signed neg (packMag f w.1 f.qmin), if w.2 then 0 else fUF ||| fNX⟩
  else ⟨f.signed neg (packMag f u.1 q), if u.2 then 0 else fNX⟩

/-- RESULT (R209) of an exact value m × 2^e; a zero keeps the sign given. -/
def resultFin (f : Fmt) (env : FpEnv) (neg : Bool) (m : Nat) (e : Int) : FpR :=
  if m == 0 then ⟨f.signed neg 0, 0⟩ else resultCore f (f.fb + 1) false env neg m false e

/-- RESULT with digits below the given ones (quotients and roots). -/
def resultSticky (f : Fmt) (env : FpEnv) (neg : Bool) (m : Nat) (sticky : Bool) (e : Int) : FpR :=
  if m == 0 && !sticky then ⟨f.signed neg 0, 0⟩ else resultCore f (f.fb + 1) false env neg m sticky e

/-- ±Inf in a format; E4M3 has none and takes its largest value. -/
def infResult (f : Fmt) (neg : Bool) : FpR := ⟨f.signed neg (if f.noInf then f.maxBits else f.infBits), 0⟩

/-- The sign of an exact zero sum (R288): that of the terms where they agree, otherwise + or, under RD, −. -/
def zeroSign (rm : Rm) (signs : List Bool) : Bool :=
  if !signs.isEmpty && signs.all (· == true) then true
  else if !signs.isEmpty && signs.all (· == false) then false
  else rm == .rd

/-- The exact sum of finite terms at their lowest exponent. -/
def exactSum (xs : List (Bool × Nat × Int)) : Int × Int :=
  let e0 := xs.foldl (fun a x => if x.2.2 < a then x.2.2 else a) (match xs with | x :: _ => x.2.2 | [] => 0)
  (xs.foldl (fun a x => a + atExp x.1 x.2.1 x.2.2 e0) 0, e0)

/-- RESULT of the exact sum of finite terms. A sum of zeros takes its sign from their signs, a cancelling sum from rm. -/
def sumResult (f : Fmt) (env : FpEnv) (xs : List (Bool × Nat × Int)) : FpR :=
  let t := exactSum xs
  if t.1 == 0 then
    ⟨f.signed (if xs.all (·.2.1 == 0) then zeroSign env.rm (xs.map (·.1)) else env.rm == .rd) 0, 0⟩
  else resultFin f env (t.1 < 0) t.1.natAbs t.2

/-- A sum of products of values: an infinite or finite term, or an invalid product (0 × ∞). -/
inductive Term
  | bad
  | inf (neg : Bool)
  | fin (t : Bool × Nat × Int)
deriving DecidableEq, Repr, Inhabited

/-- A product of two numbers that are no NaN. -/
def prodTerm (a b : Num) : Term :=
  match a, b with
  | .fin n m e, .fin n' m' e' => .fin (n != n', m * m', e + e')
  | .inf n, y => if y.isZero then .bad else .inf (n != y.neg)
  | x, .inf n => if x.isZero then .bad else .inf (x.neg != n)
  | _, _ => .bad
def numTerm : Num → Term
  | .fin n m e => .fin (n, m, e)
  | .inf n => .inf n
  | .nan .. => .bad

/-- Whether a sum of terms is invalid: 0 × ∞ in a product or ∞ − ∞ in the sum (R211). -/
def sumInvalid (ts : List Term) : Bool :=
  ts.contains .bad || (ts.contains (.inf true) && ts.contains (.inf false))

/-- Delivery of a sum of terms of the operands `xs`, with one rounding (R288, R295). -/
def deliverSum (f : Fmt) (env : FpEnv) (xs : List Num) (ts : List Term) : FpR :=
  let nan := xs.any Num.isNan
  let inv := sumInvalid ts
  if nan || inv then ⟨if nan then nanResult f env xs else f.nanBits, if inv then fNV else nvOf xs⟩
  else if ts.contains (.inf true) then infResult f true
  else if ts.contains (.inf false) then infResult f false
  else sumResult f env (ts.filterMap fun t => match t with | .fin x => some x | _ => none)

/-- The terms of products, where a product with a NaN operand counts for nothing: the NaN decides (R212), and only 0 × ∞ or
∞ − ∞ among the other operands adds NV. -/
def termsOf (ps : List (Num × Num)) (c : List Num) : List Term :=
  (ps.filter fun p => !p.1.isNan && !p.2.isNan).map (fun p => prodTerm p.1 p.2) ++ (c.filter fun x => !x.isNan).map numTerm

def fadd (f : Fmt) (env : FpEnv) (a b : Num) : FpR := deliverSum f env [a, b] (termsOf [] [a, b])
def fmul (f : Fmt) (env : FpEnv) (a b : Num) : FpR := deliverSum f env [a, b] (termsOf [(a, b)] [])
def ffma (f : Fmt) (env : FpEnv) (a b c : Num) : FpR := deliverSum f env [a, b, c] (termsOf [(a, b)] [c])

/-- Bits a quotient or root carries beyond those its rounding can need. -/
def guardBits : Nat := 70

/-- A / B (R288): the quotient to enough bits, and whether more follow. -/
def fdiv (f : Fmt) (env : FpEnv) (a b : Num) : FpR :=
  if a.isNan || b.isNan then ⟨nanResult f env [a, b], nvOf [a, b]⟩
  else
    match a, b with
    | .inf _, .inf _ => ⟨f.nanBits, fNV⟩
    | .inf n, y => infResult f (n != y.neg)
    | x, .inf n => ⟨f.signed (x.neg != n) 0, 0⟩
    | .fin n m e, .fin n' m' e' =>
      if m' == 0 then
        if m == 0 then ⟨f.nanBits, fNV⟩ else ⟨(infResult f (n != n')).bits, fDZ⟩
      else
        let k := guardBits + Nat.log2 m'
        let num := m * 2 ^ k
        resultSticky f env (n != n') (num / m') (num % m' != 0) (e - e' - k)
    | _, _ => ⟨f.nanBits, fNV⟩

/-- The integer square root, bit by bit from bit k down. -/
def isqrtFrom (n : Nat) : Nat → Nat → Nat
  | 0, r => if (r + 1) * (r + 1) ≤ n then r + 1 else r
  | k + 1, r => let t := r + 2 ^ (k + 1); isqrtFrom n k (if t * t ≤ n then t else r)
def isqrt (n : Nat) : Nat := isqrtFrom n (Nat.log2 n / 2 + 1) 0

/-- √A (R288). -/
def fsqrt (f : Fmt) (env : FpEnv) (a : Num) : FpR :=
  match a with
  | .nan .. => ⟨nanResult f env [a], nvOf [a]⟩
  | .inf neg => if neg then ⟨f.nanBits, fNV⟩ else infResult f false
  | .fin neg m e =>
    if m == 0 then ⟨f.signed neg 0, 0⟩
    else if neg then ⟨f.nanBits, fNV⟩
    else
      let k := 2 * guardBits + (if e % 2 == 0 then 0 else 1)
      let n := m * 2 ^ k
      let r := isqrt n
      resultSticky f env false r (r * r != n) ((e - k) / 2)

/-- Delivery of a chosen number by RESULT (R289). -/
def deliverNum (f : Fmt) (env : FpEnv) (x : Num) : FpR :=
  match x with
  | .nan .. => ⟨nanResult f env [x], nvOf [x]⟩
  | .inf n => infResult f n
  | .fin n m e => resultFin f env n m e

/-- SAT (R214) into a floating format. -/
def satNum (f : Fmt) (env : FpEnv) (x : Num) : FpR :=
  match x with
  | .nan .. => ⟨nanResult f env [x], nvOf [x]⟩
  | .inf n => if f.noInf then ⟨f.signed n f.maxBits, fNX⟩ else infResult f n
  | .fin n m e => if m == 0 then ⟨f.signed n 0, 0⟩ else resultCore f (f.fb + 1) true env n m false e

/-- The SAT bit on a floating-point arithmetic instruction: ±Inf becomes ± largest finite, with no flag (R214). -/
def satInf (f : Fmt) (sat : Bool) (r : FpR) : FpR :=
  match unpack f r.bits with
  | .inf n => if sat then { r with bits := f.signed n f.maxBits } else r
  | _ => r

/-- A value compared with another: −0 and +0 are equal here. Neither is a NaN. -/
def numLt (a b : Num) : Bool :=
  match a, b with
  | .inf n, .inf n' => n && !n'
  | .inf n, _ => n
  | _, .inf n => !n
  | .fin n m e, .fin n' m' e' =>
    let e0 := if e ≤ e' then e else e'
    atExp n m e e0 < atExp n' m' e' e0
  | _, _ => false
def numEq (a b : Num) : Bool := !a.isNan && !b.isNan && !numLt a b && !numLt b a
/-- The order of R289, where −0 lies below +0. -/
def numBelow (a b : Num) : Bool := numLt a b || (numEq a b && a.neg && !b.neg)

/-- The rounded integer of a finite number under rm, and whether it is exact. -/
def roundInt (rm : Rm) (x : Num) : Int × Bool :=
  match x with
  | .fin neg m e =>
    let r := roundAt rm neg m false e 0
    (if neg then -(r.1 : Int) else r.1, r.2)
  | _ => (0, true)
/-- An integer as a number. -/
def ofInt (x : Int) : Num := .fin (x < 0) x.natAbs 0
/-- A number scaled by 2^n. -/
def Num.scale (x : Num) (n : Int) : Num := match x with | .fin neg m e => .fin neg m (e + n) | y => y

/-- SAT (R214) of a number rounded to an integer type of w bits, signed or not. -/
def satInt (w : Nat) (signed : Bool) (rm : Rm) (x : Num) : FpR :=
  let lo : Int := if signed then -(2 ^ (w - 1) : Nat) else 0
  let hi : Int := if signed then (2 ^ (w - 1) : Nat) - 1 else (2 ^ w : Nat) - 1
  match x with
  | .nan .. => ⟨0, fNV⟩
  | .inf n => ⟨wrap w (if n then lo else hi), fNV⟩
  | y =>
    let r := roundInt rm y
    if r.1 < lo then ⟨wrap w lo, fNV⟩
    else if hi < r.1 then ⟨wrap w hi, fNV⟩
    else ⟨wrap w r.1, if r.2 then 0 else fNX⟩

/-! ## Reductions (R136, R137) -/

/-- The environment of a reduction (R137). -/
def redEnv (rm : Rm) : FpEnv := { rm := rm }

/-- minimumNumber and maximumNumber on encodings (R136, R289): `nv` for a signalling NaN, a NaN result canonical. -/
def minMaxNumber (f : Fmt) (env : FpEnv) (max : Bool) (a b : Num) : FpR :=
  match a.isNan, b.isNan with
  | true, true => ⟨nanResult f env [a, b], nvOf [a, b]⟩
  | true, false => let r := deliverNum f env b; { r with fl := r.fl ||| nvOf [a] }
  | false, true => let r := deliverNum f env a; { r with fl := r.fl ||| nvOf [b] }
  | false, false => deliverNum f env (if numBelow a b != max then a else b)

/-- The identity of an op (R136). -/
def redIdentity (op : Nat) (t : Ty) : Nat :=
  let w := if t.is64 then 64 else 32
  match op with
  | 0 => 0
  | 1 => if t.is64 then 2 ^ 63 else 2 ^ 31
  | 2 => if t.isInt then (if t.isI then 2 ^ (w - 1) - 1 else 2 ^ w - 1) else (Ty.fmt t).nanBits
  | 3 => if t.isInt then (if t.isI then 2 ^ (w - 1) else 0) else (Ty.fmt t).nanBits
  | 4 => 2 ^ w - 1
  | _ => 0

/-- combine(p, c) of R136 with the flags of a floating-point op. -/
def combine (env : FpEnv) (op : Nat) (t : Ty) (p c : Nat) : FpR :=
  let w := if t.is64 then 64 else 32
  let f := Ty.fmt t
  match op with
  | 0 => ⟨(p + c) % 2 ^ w, 0⟩
  | 1 => fadd f env (opnd f env p) (opnd f env c)
  | 2 =>
    if t.isInt then ⟨if (if t.isI then sgn w p ≤ sgn w c else p ≤ c) then p else c, 0⟩
    else minMaxNumber f env false (opnd f env p) (opnd f env c)
  | 3 =>
    if t.isInt then ⟨if (if t.isI then sgn w c ≤ sgn w p else c ≤ p) then p else c, 0⟩
    else minMaxNumber f env true (opnd f env p) (opnd f env c)
  | 4 => ⟨p &&& c, 0⟩
  | 5 => ⟨p ||| c, 0⟩
  | _ => ⟨p ^^^ c, 0⟩

end Sys2Proof.Machine
end

