-- ==== Sys2Proof/Machine/Mem.lean ====
section
/-! DEFINITION. Global memory: bytes of HBM and their poison (R70, R71), fault records and their ring (R41 to R45), requests to
peers (R20, R456), line locks (R90, R91), U lines gathered at home (R150, R151), page-table walks and permissions (R10 to R19,
R35), translation registers (R21 to R25), the LLC, the write buffer and the L1 (R60 to R69). -/

namespace Sys2Proof.Machine

/-- The chip id and the local address of a physical address (R16). -/
def paChip (pa : Nat) : Nat := pa / 2 ^ 42 % 1024
def paLocal (pa : Nat) : Nat := pa % 2 ^ 42

/-- A message of an MSI-X vector (R448); while bit 0 of its entry's control word masks it, its pending bit is set instead (log
entry 13). -/
def State.raise (s : State) (v : Nat) : State :=
  s.modPkg fun p =>
    if (p.msixTab.get 0 (2 * v + 1)).getLsbD 32 then { p with msixPend := p.msixPend.insert v } else { p with msix := p.msix ++ [v] }
/-- A finding counted in UE, with vector 320 (R463). -/
def State.countUe (s : State) : State :=
  (s.modPkg fun p => { p with pkgUE := if p.pkgUE == 0xFFFFFFFF#32 then p.pkgUE else p.pkgUE + 1 }).raise 320

/-! ## Bytes at home -/

/-- What an address that memory does not list reads as (log entry 1). -/
def memDefault : Byte := 0

def memGet : List Host.Cell → Nat → Byte
  | [], _ => memDefault
  | (x, y) :: t, a => if x = a then y else memGet t a

/-- The canonical list with byte b at address a: a default byte is not listed. -/
def memPut : List Host.Cell → Nat → Byte → List Host.Cell
  | [], a, b => if b = memDefault then [] else [(a, b)]
  | (x, y) :: t, a, b =>
    if b = memDefault then (if x = a then memPut t a b else (x, y) :: memPut t a b)
    else if x = a then (a, b) :: t
    else if a < x then (a, b) :: (x, y) :: t
    else (x, y) :: memPut t a b

/-- Every listed address of m is above a. -/
def Memory.above (a : Nat) (m : List Host.Cell) : Bool := m.all fun c => a < c.1
/-- Addresses strictly rising and no default byte listed. -/
def Memory.wf : List Host.Cell → Bool
  | [] => true
  | (x, y) :: t => y ≠ memDefault && Memory.above x t && Memory.wf t

def memRead (m : List Host.Cell) (a n : Nat) : List Byte := tab n fun i => memGet m (a + i)
def memWrite (m : List Host.Cell) (a : Nat) : List Byte → List Host.Cell
  | [] => m
  | b :: bs => memWrite (memPut m a b) (a + 1) bs

/-- The bytes of HBM: 1,024 GiB (R17). -/
def hbmSize : Nat := 2 ^ 40

/-- n bytes of local HBM as they stand at home. -/
def State.hbm (s : State) (a n : Nat) : List Byte := memRead s.mem a n
/-- Whether any of n bytes lies in a poisoned word of 8 bytes (R71). -/
def State.hbmPoi (s : State) (a n : Nat) : Bool := s.memPoi.any fun w => 8 * w < a + n && a < 8 * w + 8
/-- The poisoned words that n bytes touch, ascending. -/
def State.poiWords (s : State) (a n : Nat) : List Nat := s.memPoi.filter fun w => 8 * w < a + n && a < 8 * w + 8
/-- A write at home: every whole word covered loses its poison, a narrower write leaves it (R71). -/
def State.hbmWrite (s : State) (a : Nat) (bs : List Byte) : State :=
  { s with mem := memWrite s.mem a bs, memPoi := s.memPoi.filter fun w => !(a ≤ 8 * w && 8 * w + 8 ≤ a + bs.length) }
/-- Words marked poisoned; each new one that is found uncorrectable is counted in UE, raises vector 320 (R463), and unpins its
line (R68). -/
def State.hbmPoison (s : State) (ws : List Nat) (found : Bool) : State :=
  ws.foldl (fun s w =>
    if s.memPoi.has w then s
    else
      let s := { s with memPoi := s.memPoi.insert w }
      if found then (s.modPkg fun p => { p with pinned := p.pinned.filter fun l => l % 2 ^ 35 != w / 16 }).countUe else s) s
/-- The 8-byte words that n bytes from a touch, ascending, and those of them that `poi` marks. -/
def wordsOf (a n : Nat) : List Nat := (List.range ((a + n + 7) / 8 - a / 8)).map fun i => a / 8 + i
def markedWords (a n : Nat) (poi : List Bool) : List Nat := ((wordsOf a n).zip poi).filterMap fun x => if x.2 then some x.1 else none
/-- The marks of the words that n bytes at home touch. -/
def State.poiMarks (s : State) (a n : Nat) : List Bool := (wordsOf a n).map s.memPoi.has

/-- The cache die, slice and set of a line (R65), and with them its HBM stack and its place in the stack (R70). -/
def llcSet (line : Nat) : Nat × Nat × Nat :=
  (line / 32 % 8 ^^^ line / 2048 % 8 ^^^ line / 2 ^ 17 % 8, line % 32, line % 2 ^ 35 / 32 % 6144)
def hbmStack (a : Nat) : Nat := 2 * (llcSet (a / 128)).1 + bitsAt a 15 1
def stackOffset (a : Nat) : Nat := bitsAt a 16 24 * 4096 + a % 4096

/-! ## Fault records -/

/-- Fault kinds (R42). -/
def kNonCanon : Nat := 0x01
def kNotMapped : Nat := 0x02
def kTable : Nat := 0x03
def kPerm : Nat := 0x04
def kHole : Nat := 0x05
def kUnrouted : Nat := 0x06
def kLeaseNotice : Nat := 0x07
def kLeaseRevoked : Nat := 0x08
def kEcc : Nat := 0x10
def kGuard : Nat := 0x20
def kScratch : Nat := 0x21
def kKRange : Nat := 0x22
def kBadDone : Nat := 0x30

/-- Access kinds of R43. -/
inductive Acc
  | load | store | atomic | reduction | tileLoad | tileStore | engRead | engWrite | fetch | traverse | texture | stash | restore
  | spill | fill | tape | zst | none
deriving DecidableEq, Repr, Inhabited

def Acc.code : Acc → Nat
  | .load => 0 | .store => 1 | .atomic => 2 | .reduction => 3 | .tileLoad => 4 | .tileStore => 5 | .engRead => 6
  | .engWrite => 7 | .fetch => 8 | .traverse => 9 | .texture => 10 | .stash => 11 | .restore => 12 | .spill => 13 | .fill => 14
  | .tape => 15 | .zst => 16 | .none => 17

/-- The 64 bytes of a record (R41). -/
def FRec.bytes (r : FRec) : List Byte :=
  leBytes 2 r.kind ++ leBytes 1 r.access ++ leBytes 1 r.width ++ leBytes 4 r.seq.toNat ++ leBytes 8 r.va.toNat
    ++ leBytes 8 r.mask.toNat ++ leBytes 8 r.pc.toNat ++ leBytes 4 r.grid.toNat ++ leBytes 4 r.team.toNat ++ leBytes 1 r.group
    ++ leBytes 1 r.gw ++ leBytes 2 r.flags ++ leBytes 4 r.intv.toNat ++ leBytes 8 r.retired.toNat ++ leBytes 8 r.aux.toNat

/-- Records the ring holds unread, and whether it is full (R44). -/
def Ctx.fqCount (c : Ctx) : Nat := (c.fqTail - c.fqHead).toNat
def Ctx.fqFull (c : Ctx) : Bool := 2 ^ c.fqLogn ≤ c.fqCount
/-- A new record waits: the ring is full, or records of a saved context go before it (R430). -/
def Ctx.fqWaits (c : Ctx) : Bool := c.fqFull || !c.savedSlots.isEmpty

/-- A record written at FQTAIL (R45); `ie` raises the vector whatever FQCTL.IE holds (R394, R396). -/
def State.ringPut (s : State) (ctx : Nat) (r : FRec) (ie : Bool) : State :=
  let c := s.ctxAt ctx
  let s := s.hbmWrite (paLocal c.fqBase.toNat + 64 * (c.fqTail.toNat % 2 ^ c.fqLogn)) r.bytes
  let s := s.setCtxAt ctx { c with fqTail := c.fqTail + 1 }
  let s := if c.fqIE || ie then s.raise ctx else s
  if c.fqIE && (s.ctxAt ctx).fqFull then s.raise ctx else s

/-- The SEQ of a record being formed (R45). -/
def State.takeSeq (s : State) (ctx : Nat) : State × W32 :=
  let c := s.ctxAt ctx
  (s.setCtxAt ctx { c with recCount := c.recCount + 1 }, c.recCount)

/-- A record of a unit with no group to stall: to the ring, or held by the unit (R45). -/
def State.unitRec (s : State) (ctx : Nat) (u : UnitId) (r : FRec) (ie : Bool) : State :=
  let (s, q) := (if u == .dist || u == .fabric then s else s.count ctx 8 1).takeSeq ctx
  let r := { r with seq := q }
  let c := s.ctxAt ctx
  if c.fqWaits then
    let s := s.setCtxAt ctx { c with unitRecs := c.unitRecs ++ [(u, r)] }
    if ie then s.raise ctx else s
  else s.ringPut ctx r ie

/-- A unit holds a record for want of ring room, and starts no further work of the context (R45). -/
def Ctx.holds (c : Ctx) (u : UnitId) : Bool := c.unitRecs.any fun x => x.1 == u

/-- Another group of the focused core stalled for want of a fault slot before the group in focus did, and has still to take its place
(R45): the retries come in the order of the stalls, and a group that has not stalled comes after them all. -/
def State.retryFirst (s : State) : Bool :=
  let g := s.g
  s.groups.any fun e =>
    e.1 != s.foc.grp && e.2.phase == .running && !e.2.stopped && (e.2.stall == .fault || e.2.stall == .none && e.2.afterStall)
      && (!(g.afterStall || g.stall == .fault) || e.2.stallOrder < g.stallOrder)
      && (s.teamAt e.2.team).core == s.foc.core && (s.teamAt e.2.team).phase == .resident
/-- The places a record of the group in focus can still take: ring room and free slots of its core. -/
def State.recordRoom (s : State) : Nat :=
  let c := s.c
  if s.retryFirst then 0 else (if c.fqWaits then 0 else 2 ^ c.fqLogn - c.fqCount) + (4 - s.co.slots.length)

/-- A record of the issuing group with its work name and the word in progress (R41). -/
def State.grpRec (s : State) (kind : Nat) (acc : Acc) (width : Nat) (mask : Mask) (va aux : W64) : FRec :=
  let g := s.g
  let h := g.handler
  { kind, access := acc.code, width, va, mask, pc := g.iss.pc, grid := s.gr.lrec.gid, team := s.t.id, group := g.idx, gw := g.gw,
    intv := BitVec.ofNat 32 (g.retired.toNat / 2 ^ s.c.dbgIntv),
    flags := if g.afterStall then 2 else 0,
    retired := (match h with | some h => if g.iss.handler then h.tretired else g.retired | none => g.retired), aux }

/-! ## Requests to peers -/

def State.isLocal (s : State) (pa : Nat) : Bool := paChip pa == s.pkg.chipId.toNat

/-- The port of a request (R20): a fixed function of PA[51:7], which the spec leaves open, over the ports of its chip's routing
entry (log entry 91). -/
def State.portOf (s : State) (pa : Nat) : Nat :=
  let ports := (List.range 16).filter (s.pkg.routing.get 0 (paChip pa)).getLsbD
  bankGet ports 0 (Config.portPick (pa / 128 % 2 ^ 45) % max 1 ports.length)
/-- A request sent to the peer that holds its address: its handle. -/
def State.send (s : State) (q : PeerReq) : State × Nat :=
  let (s, id) := s.freshId
  let port := s.portOf q.pa
  (s.modPkg fun p => { p with peerOut := p.peerOut ++ [{ q with id, port, cut := !p.portUp.getLsbD port }] }, id)

/-! ## Line locks (R90, R91) -/

/-- The numbers of the lines that n bytes touch, ascending. -/
def linesOf (pa n : Nat) : List Nat := (List.range ((pa + n + 127) / 128 - pa / 128)).map fun i => pa / 128 + i
/-- A tile holds the lock of a line against a read, or against a write; one with no lock left to ask for is itself performing. -/
def State.lineHeld (s : State) (line : Nat) (write : Bool) : Bool :=
  (s.groups.any fun e => match e.2.stall with | .tile (_ :: _) got x _ _ => got.contains line && (write || x) | _ => false)
    || s.pkg.peerLocks.any fun p => p.1 == line && (write || p.2.1)
/-- A line of n bytes of local memory is locked against an access. -/
def State.blocked (s : State) (pa n : Nat) (write : Bool) : Bool := s.isLocal pa && (linesOf pa n).any fun l => s.lineHeld l write
/-- An access reaches the home of n bytes: where it must wait for a lock, the step in progress is put off whole. -/
def State.meet (s : State) (pa n : Nat) (write : Bool) : State := if s.blocked pa n write then { s with met := s.met + 1 } else s
/-- The step from `s0` to `s`, or none of it where one of its accesses must wait for a lock. -/
def State.unmet (s0 s : State) : State := if s.met = s0.met then s else s0

/-- An access of the host waits already, and a later one waits behind it (R103). -/
def State.hostWaits (s : State) : Bool := s.pkg.waiting.any fun w => match w with | .host _ => true | .peer _ _ => false
def State.hostQueue (s : State) (a : HostAccess) : State := s.modPkg fun p => { p with waiting := p.waiting ++ [.host a] }

/-! ## The LLC -/

/-- The page policy of an entry (R64), and what stands in its place for an access that has no page: the host's, a peer's, or a
unit's at a physical address. -/
def pteCp (e : W64) : Nat := bitsAt e.toNat 7 2
def noCp : Nat := 4

/-- An access under CP `cp` that reaches the LLC at the line's home (R64, R67 to R69): one under CP 11 pins the line it allocates,
and falls back to the ordinary ways where the set's pinned ways are full; one under another CP unpins it. Whether an ordinary way
still holds a line is a free value (log entry 93). -/
def State.touchLlc (s : State) (pa cp : Nat) : State :=
  let n := pa / 128
  let here := s.pkg.llc.has n && Config.freeBool (s.freeKey (Nat.pair 5 n))
  if !s.isLocal pa || cp == noCp && s.pkg.pinned.has n then s
  else if cp == 3 then
    if s.pkg.pinned.has n || here then s
    else if (s.pkg.pinned.filter fun x => llcSet x == llcSet n).length < s.pkg.pinw then s.modPkg fun p => { p with pinned := p.pinned.insert n, llc := p.llc.erase n }
    else s.modPkg fun p => { p with llc := p.llc.insert n, pinFall := if p.pinFall == 0xFFFFFFFF#32 then p.pinFall else p.pinFall + 1 }
  else
    s.modPkg fun p =>
      { p with pinned := p.pinned.erase n, llc := if cp == 2 && !here && !p.pinned.has n then p.llc.erase n else p.llc.insert n }

/-! ## Reductions at home -/

/-- REDFLAGS of a context (R147): the exceptions of a combine, and NF for a non-finite value. -/
def State.redFlags (s : State) (ctx : Nat) (t : Ty) (r : FpR) : State :=
  let nf : W32 := if t == .f32 || t == .f64 then (if (unpack (Ty.fmt t) r.bits).isFin then 0 else fNF) else 0
  let c := s.ctxAt ctx
  s.setCtxAt ctx { c with redFlags := c.redFlags ||| ((r.fl ||| nf) &&& 0x3D00).setWidth 64 }

/-- The bytes of a reduction's type. -/
def redBytes (t : Ty) : Nat := if t.is64 then 8 else 4
/-- The record of a reduction's partial that meets poison or is lost (R138, R456). -/
def redRec (kind : Nat) (gid team : W32) (gw : Nat) (t : Ty) (aux : Nat) : FRec :=
  { kind, access := Acc.reduction.code, width := if t.is64 then 3 else 2, grid := gid, team, group := 0xFF, gw, aux := BitVec.ofNat 64 aux }

/-- One partial applied to its word at home (R143, R151), an access under the policy of its page (R64); or, on a poisoned word, the
record of R138. -/
def State.applyWord (s : State) (ctx : Nat) (rm : Rm) (gid team : W32) (gw : Nat) (pa cp op : Nat) (t : Ty) (v : Nat) : State :=
  let n := redBytes t
  let a := paLocal pa
  let s := s.touchLlc pa cp
  if s.hbmPoi a n then s.unitRec ctx (.anvil gid.toNat) (redRec kEcc gid team gw t (pa / 8 * 8)) false
  else
    let r := combine (redEnv rm) op t (ofLe (s.hbm a n)) v
    (s.hbmWrite a (leBytes n r.bits)).redFlags ctx t r

/-- A reduction sent to a remote home (R146, R150), for the release of a core and for a flag of the focused group to wait for. -/
def State.sendRemoteRed (s : State) (core : Option Nat) (flag : Option (Nat × Nat)) (ctx rm : Nat) (gid team : W32) (pa op : Nat) (t : Ty) (v : Nat) : State :=
  let n := redBytes t
  (s.send { kind := .rmw, pa, n, data := leBytes n v, op := op + 16 * t.code, ctx, core, grp := s.foc.grp, flag, mode := .red (BitVec.ofNat 2 rm),
            frec := redRec kUnrouted gid team 0 t pa }).1

/-- The anvil unit of a grid holds a record, and applies no partial of the context until it is written (R45): the step in progress is
put off whole. -/
def State.meetUnit (s : State) (ctx : Nat) (gid : W32) : State :=
  if (s.ctxAt ctx).holds (.anvil gid.toNat) then { s with met := s.met + 1 } else s
/-- The partials of a U line sent home (R63, R102), each under the context and rounding of its grid (log entry 111); they wait for a
lock, and for a unit that holds a record. -/
def State.sendLine (s : State) (l : L1Line) : State :=
  l.words.foldl (fun s w =>
    let gr := s.gridAt w.grid
    (s.meetUnit gr.ctx gr.lrec.gid).applyWord gr.ctx (Rm.ofCode gr.redRm) gr.lrec.gid w.team 0 (l.line * 128 + w.off) w.cp w.op w.ty w.value.toNat)
    (s.meet (l.line * 128) 128 true)

def CoreSt.line (c : CoreSt) (n : Nat) : Option L1Line := c.l1.find? (·.line == n)
def CoreSt.dropLine (c : CoreSt) (n : Nat) : CoreSt := { c with l1 := c.l1.filter (·.line != n) }
def L1Line.isU (l : L1Line) : Bool := l.data.isNone

/-- The U line of a core, if it holds one, sent home and invalid (R61). -/
def State.sendU (s : State) (core n : Nat) : State :=
  match (s.coreAt core).line n with
  | some l => if l.isU then (s.setCoreAt core ((s.coreAt core).dropLine n)).sendLine l else s
  | none => s

/-- The home gathers every U copy of a line, in ascending core order (R151). -/
def State.gather (s : State) (n : Nat) : State := s.cores.keys.foldl (fun s k => s.sendU k n) s
/-- Gathering for every line of an access at home. -/
def State.gatherRange (s : State) (pa n : Nat) : State := (linesOf pa n).foldl State.gather s
/-- n bytes of local memory as a home read finds them, every U copy of their lines counted in (R151). -/
def State.homeView (s : State) (pa n : Nat) : State := s.gatherRange pa n

/-! ## Records at home -/

/-- The ring's next line gathered, before a record is written there (R151). -/
def State.gatherRing (s : State) (ctx : Nat) : State :=
  let c := s.ctxAt ctx
  s.gatherRange (c.fqBase.toNat + 64 * (c.fqTail.toNat % 2 ^ c.fqLogn)) 64
def State.ringWrite (s : State) (ctx : Nat) (r : FRec) (ie : Bool) : State := (s.gatherRing ctx).ringPut ctx r ie
/-- A record of a unit, the ring's line gathered first (R45, R151). -/
def State.recordUnit (s : State) (ctx : Nat) (u : UnitId) (r : FRec) (ie : Bool) : State := (s.gatherRing ctx).unitRec ctx u r ie

/-- A record of a group's access: to the ring, or to a slot of the core with OVF counted (R45). The access made sure of a
place first. -/
def State.recordAt (s : State) (ctx core : Nat) (r : FRec) : State × W32 :=
  let (s, q) := ((s.gatherRing ctx).count ctx 8 1).takeSeq ctx
  let r := { r with seq := q }
  let c := s.ctxAt ctx
  if c.fqWaits then
    let co := s.coreAt core
    ((s.setCoreAt core { co with slots := co.slots ++ [(ctx, r)] }).setCtxAt ctx { c with fqOvf := c.fqOvf + 1 }, q)
  else (s.ringPut ctx r false, q)

/-! ## Page tables -/

/-- A failed translation: its kind and AUX. -/
structure Flt where
  kind : Nat := 0
  aux : W64 := 0
deriving DecidableEq, Repr, Inhabited

/-- Bits [63:55] all equal bit 54 (R10). -/
def canonical (va : W64) : Bool := va.toNat / 2 ^ 54 == 0 || va.toNat / 2 ^ 54 == 2 ^ 10 - 1

/-- An entry of a table at home: poisoned, or its 64 bits (R11). -/
def State.pte (s : State) (frame : Nat) (idx : Nat) : Except Flt W64 :=
  let pa := frame * 65536 + 8 * idx
  let h := s.homeView pa 8
  if h.hbmPoi (paLocal pa) 8 then .error ⟨kEcc, BitVec.ofNat 64 pa⟩ else .ok (BitVec.ofNat 64 (ofLe (h.hbm (paLocal pa) 8)))

def pteFrame (e : W64) : Nat := e.toNat / 2 ^ 16 % 2 ^ 36
/-- A table frame lies in the K96's own HBM: its chip id is CHIPID and its local address is HBM (R11, R17). -/
def State.ownFrame (s : State) (frame : Nat) : Bool :=
  frame / 2 ^ 26 == s.pkg.chipId.toNat && frame % 2 ^ 26 * 65536 < hbmSize

/-- A page found by a walk: its leaf entry, its size, and the frame of its table. -/
structure Page where
  pte : W64 := 0
  size : PageSize := .small
  table : Nat := 0
deriving DecidableEq, Repr, Inhabited

/-- The bytes of a page, and the number of the page that a VA lies in. -/
def PageSize.bytes : PageSize → Nat | .small => 2 ^ 16 | .span => 2 ^ 20 | .big => 2 ^ 29
def PageSize.num (p : PageSize) (va : W64) : Nat := va.toNat / p.bytes

/-- One level of the walk of R11 with its remaining levels. -/
def State.walkFrom (s : State) (va : Nat) : Nat → Nat → Except Flt Page
  | 0, _ => .error ⟨kTable, 0⟩
  | n + 1, frame =>
    match s.pte frame (va / 2 ^ (16 + 13 * n) % 8192) with
    | .error f => .error f
    | .ok e =>
      if !e.getLsbD 0 then .error ⟨kNotMapped, 0⟩
      else if bitsAt e.toNat 12 4 ≠ 0 then .error ⟨kTable, 0⟩
      else if e.getLsbD 1 then
        if n = 0 then .ok ⟨e, .small, frame⟩
        else if n = 1 && bitsAt e.toNat 16 13 = 0 then .ok ⟨e, .big, frame⟩
        else .error ⟨kTable, 0⟩
      else if n = 0 || !s.ownFrame (pteFrame e) then .error ⟨kTable, 0⟩
      else s.walkFrom va n (pteFrame e)

/-- The walk of a canonical VA under a context's tables (R11). -/
def State.walk (s : State) (ctx : Nat) (va : W64) : Except Flt Page :=
  if !canonical va then .error ⟨kNonCanon, 0⟩
  else
    let r := (s.ctxAt ctx).root.toNat / 2 ^ 16 % 2 ^ 36
    if !s.ownFrame r then .error ⟨kTable, 0⟩ else s.walkFrom va.toNat 3 r

/-- The physical address of a VA in a page (R11, R14). -/
def Page.pa (p : Page) (va : W64) : Nat := pteFrame p.pte * 65536 / p.size.bytes * p.size.bytes + va.toNat % p.size.bytes

/-- The 1 MiB page of an honoured CONT that a 64 KiB VA lies in (R14): the entry aligned to 16, where it is a valid leaf whose frame
is aligned to 1 MiB and whose CONT bit is set. -/
def State.span (s : State) (table : Nat) (va : W64) : Option Page :=
  match s.pte table (va.toNat / 2 ^ 20 * 16 % 8192) with
  | .ok e =>
    if e.getLsbD 0 && e.getLsbD 1 && e.getLsbD 9 && bitsAt e.toNat 12 4 == 0 && pteFrame e % 16 == 0 then some ⟨e, .span, table⟩ else none
  | .error _ => none
/-- The level-3 table of a VA, where the walk reaches one. -/
def State.leafTable (s : State) (ctx : Nat) (va : W64) : Option Nat :=
  let r := (s.ctxAt ctx).root.toNat / 2 ^ 16 % 2 ^ 36
  let down (frame i : Nat) : Option Nat :=
    match s.pte frame i with
    | .ok e => if e.getLsbD 0 && !e.getLsbD 1 && bitsAt e.toNat 12 4 == 0 && s.ownFrame (pteFrame e) then some (pteFrame e) else none
    | .error _ => none
  if canonical va && s.ownFrame r then (down r (va.toNat / 2 ^ 42 % 8192)).bind fun t => down t (va.toNat / 2 ^ 29 % 8192) else none
/-- The walk of an access: in a span whose CONT is honoured, an access takes its own entry or the span's, a free choice (R14). -/
def State.walkPick (s : State) (ctx : Nat) (va : W64) : Except Flt Page :=
  match (s.leafTable ctx va).bind fun t => s.span t va with
  | some p => if Config.freeBool (s.freeKey (Nat.pair 3 (va.toNat / 65536))) then .ok p else s.walk ctx va
  | none => s.walk ctx va

/-- The leaf bits of R13, from an entry's bits [11:2] or the same bits of ATTR: PIN is 11, STASH 10, PROF 6, A 5, X 4, W 3,
R 2. A tile store's A bit is looked at after everything else (R316, see `State.tileRows`). -/
def permOk (acc : Acc) (e : W64) : Bool :=
  let r := e.getLsbD 2
  let w := e.getLsbD 3
  let x := e.getLsbD 4
  let a := e.getLsbD 5
  let prof := e.getLsbD 6
  let stash := e.getLsbD 10
  match acc with
  | .load => r && !prof
  | .tileLoad => r && !prof
  | .engRead => r && !prof
  | .texture => r && !prof
  | .traverse => r && !prof
  | .store => w && !prof
  | .engWrite => w && !prof
  | .atomic => w && a && !prof
  | .reduction => w && a && !prof
  | .tileStore => w && !prof
  | .zst => w && prof
  | .fetch => x
  | .stash => w && stash
  | .restore => r && stash
  | .spill => r && w && !prof
  | .fill => r && w && !prof
  | .tape => r && w && !prof
  | .none => true

/-- The revoked lease a physical address lies in (R35, R36). -/
def State.revokedLease (s : State) (pa : Nat) : Option Lease :=
  (s.pkg.leases.map (·.2)).find? fun l =>
    l.v && !l.lender && l.state == 2 && l.peer.toNat == paChip pa && l.base * 2 ^ 29 ≤ paLocal pa && paLocal pa < (l.base + l.len) * 2 ^ 29

/-- The physical and lease checks of R17, R19 and R35. -/
def State.physCheck (s : State) (pa : Nat) : Except Flt Unit :=
  if s.isLocal pa then
    if paLocal pa < hbmSize then .ok () else .error ⟨kHole, BitVec.ofNat 64 pa⟩
  else
    let e := s.pkg.routing.get 0 (paChip pa)
    if !e.getLsbD 63 || e.toNat % 65536 == 0 then .error ⟨kUnrouted, BitVec.ofNat 64 pa⟩
    else if min 256 (bitsAt e.toNat 16 9) * 2 ^ 32 ≤ paLocal pa || hbmSize ≤ paLocal pa then .error ⟨kHole, BitVec.ofNat 64 pa⟩
    else
      match s.revokedLease pa with
      | some l => .error ⟨kLeaseRevoked, BitVec.ofNat 64 (l.base * 2 ^ 29)⟩
      | none => .ok ()

/-- A physical address with its leaf entry, after every check of an access kind. -/
structure Trans where
  pa : Nat := 0
  pte : W64 := 0
deriving DecidableEq, Repr, Inhabited

/-- The group in focus has the reply to a request for this address: it passed its checks before it left, and no later write of a
routing entry or a lease touches it (R19, R456). -/
def State.answered (s : State) (pa : Nat) : Bool := s.g.replies.any fun r => r.pa ≤ pa && pa < r.pa + r.n
/-- The checks of R17, R19 and R35 for an address that an access of the group in focus forms. -/
def State.grpCheck (s : State) (pa : Nat) : Except Flt Unit := if s.answered pa then .ok () else s.physCheck pa
/-- A page's permissions, then the checks `chk` of the physical address (R13, R37). -/
def finishTrans (chk : Nat → Except Flt Unit) (acc : Acc) (p : Page) (va : W64) : Except Flt Trans :=
  if !permOk acc p.pte then .error ⟨kPerm, 0⟩
  else
    match chk (p.pa va) with
    | .ok () => .ok ⟨p.pa va, p.pte⟩
    | .error f => .error f

/-- The page that some entries hold for a VA (R24). -/
def tlbFind (es : List TlbEntry) (ctx : Nat) (va : W64) : Option TlbEntry := es.find? fun e => e.ctx == ctx && e.page == e.size.num va
def TlbEntry.toPage (e : TlbEntry) : Page := ⟨e.pte, e.size, 0⟩
/-- The entry a TLB holds of a page. -/
def Page.entry (p : Page) (ctx : Nat) (va : W64) : TlbEntry := { ctx, page := p.size.num va, size := p.size, pte := p.pte }
/-- The TLB that the cores of a cluster share: 2,048 entries (R24). -/
def State.clusterTlb (s : State) (core : Nat) : List TlbEntry := s.pkg.ctlb.get [] (core / 96)
def State.fillCluster (s : State) (core : Nat) (e : TlbEntry) : State :=
  s.modPkg fun p => { p with ctlb := p.ctlb.set (core / 96) ((e :: s.clusterTlb core).take 2048) }
def State.fillCore (s : State) (core : Nat) (e : TlbEntry) : State :=
  let co := s.coreAt core
  s.setCoreAt core { co with tlb := (e :: co.tlb).take 64 }

/-- Translation by the core's TLB, then by its cluster's, then by a walk, whose page both then hold (R23, R24); a failed walk is
never held. -/
def State.translate (s : State) (core ctx : Nat) (acc : Acc) (va : W64) : State × Except Flt Trans :=
  if !canonical va then (s, .error ⟨kNonCanon, 0⟩)
  else
    match tlbFind (s.coreAt core).tlb ctx va with
    | some e => (s, finishTrans s.grpCheck acc e.toPage va)
    | none =>
      match tlbFind (s.clusterTlb core) ctx va with
      | some e => (s.fillCore core e, finishTrans s.grpCheck acc e.toPage va)
      | none =>
        match s.walkPick ctx va with
        | .error f => (s, .error f)
        | .ok p => ((s.fillCore core (p.entry ctx va)).fillCluster core (p.entry ctx va), finishTrans s.grpCheck acc p va)

/-- Translation without a TLB, for units that belong to no core. -/
def State.translateUnit (s : State) (ctx : Nat) (acc : Acc) (va : W64) : Except Flt Trans :=
  match s.walk ctx va with
  | .error f => .error f
  | .ok p => finishTrans s.physCheck acc p va

/-- Translation for a unit that has replies in hand, or a request on its way (`sent`): an address asked of a peer passed its checks
before the request left, and no later write of a routing entry or a lease touches it (R19, R456). -/
def State.translateSent (s : State) (fetched : List Reply) (sent : Nat → Bool) (ctx : Nat) (acc : Acc) (va : W64) : Except Flt Trans :=
  match s.walk ctx va with
  | .error f => .error f
  | .ok p => finishTrans (fun pa => if (fetched.any fun r => r.pa ≤ pa && pa < r.pa + r.n) || sent pa then .ok () else s.physCheck pa) acc p va

/-! ## Translation registers -/

/-- The pages after the base page that continue its run (R22): entries of its table that are leaves, whose frame follows and whose
bits [11:2] other than CONT are the base page's. -/
def State.runPages (s : State) (table idx : Nat) (e : W64) (step : Nat) : Nat → Nat
  | 0 => 0
  | n + 1 =>
    match s.pte table idx with
    | .error _ => 0
    | .ok e' =>
      if e'.getLsbD 0 && e'.getLsbD 1 && bitsAt e'.toNat 12 4 == 0 && pteFrame e' == pteFrame e + step
          && (bitsAt e'.toNat 2 10 &&& 0x37F) == (bitsAt e.toNat 2 10 &&& 0x37F)
      then 1 + s.runPages table (idx + 1) e' step n
      else 0

/-- ATTR from a leaf entry (R21): bits [11:2] without CONT and the level bits, at their places. -/
def attrOf (e : W64) : Half :=
  let x := e.toNat
  BitVec.ofNat 16 (bitsAt x 2 5 * 8 + bitsAt x 7 2 * 256 + bitsAt x 10 2 * 1024)

/-- ATR of a base VA (R22): the register it leaves. -/
def State.atr (s : State) (ctx : Nat) (va : W64) : AReg :=
  let epoch := (s.ctxAt ctx).invCount
  match s.walk ctx va with
  | .error _ => { valid := true, baseva := va, epoch }
  | .ok p =>
    let size := p.size.bytes
    let idx := va.toNat / size % 8192
    let more := s.runPages p.table (idx + 1) p.pte (size / 65536) (min (8191 - idx) (if p.size == .big then 8 else 8191))
    let len := size - va.toNat % size + more * size
    { valid := true, baseva := va, pbase := BitVec.ofNat 52 (p.pa va), limit := BitVec.ofNat 32 (min len (2 ^ 32 - 1)),
      attr := attrOf p.pte, epoch }

def AReg.stale (a : AReg) : Bool := a.attr.getLsbD 15
/-- The entry bits that ATTR stands for, at the places of R12. -/
def AReg.pte (a : AReg) : W64 :=
  let x := a.attr.toNat
  BitVec.ofNat 64 (3 + bitsAt x 3 5 * 4 + bitsAt x 8 2 * 128 + bitsAt x 10 2 * 1024)

/-- The retranslation of a STALE register at its next use (R25); one that is not VALID has nothing to translate (R21, R272). -/
def State.refresh (s : State) (i : Nat) : State :=
  let a := s.g.areg i
  if a.stale && a.valid then s.setG (s.g.setAreg i (s.atr s.foc.ctx a.baseva)) else s

/-- The VA and translation of an offset from a translation register (R23): the fast path in its window, otherwise the core's
TLB and walk. -/
def State.resolve (s : State) (i : Nat) (acc : Acc) (o : Int) (width : Nat) : State × W64 × Except Flt Trans :=
  let s := s.refresh i
  let a := s.g.areg i
  let va : W64 := a.baseva + BitVec.ofInt 64 o
  if 0 ≤ o && o + width ≤ a.limit.toNat then
    let pa := a.pbase.toNat + o.toNat
    if !permOk acc a.pte then (s, va, .error ⟨kPerm, 0⟩)
    else
      match s.grpCheck pa with
      | .ok () => (s, va, .ok ⟨pa, a.pte⟩)
      | .error f => (s, va, .error f)
  else
    let r := s.translate s.foc.core s.foc.ctx acc va
    (r.1, va, r.2)

/-! ## The write buffer and L1 -/

/-- Whether the reduction spill region of a context with a grid running keeps an address (R147): writes there are discarded. -/
def State.inSpillRegion (s : State) (a : Nat) : Bool :=
  s.ctxs.any fun e =>
    paLocal e.2.rspBase.toNat ≤ a && a < paLocal e.2.rspBase.toNat + e.2.rspSize.toNat * 65536 && s.grids.any fun g => g.2.ctx == e.1 && g.2.phase == .running

/-- A byte of the operation that a flag waits for is still on its way: in a write buffer, in an engine, or at a peer. -/
def State.opPending (s : State) (tag : Nat × Nat) : Bool :=
  (s.cores.any fun c => c.2.wbuf.any fun e => e.flag == some tag) || (s.teams.any fun t => t.2.cmds.any fun c => c.flag == some tag) || s.pkg.peerOut.any fun q => q.flag == some tag
/-- The flag of an operation is due once none of its bytes is on its way (R98, R131). -/
def State.flagLanded (s : State) (grp : Nat) (tag : Nat × Nat) : State :=
  if s.opPending tag then s else let g := s.grpAt grp; s.setGrpAt grp { g with fdone := g.fdone ++ [tag.2] }

/-- The same for every line of an access. -/
def State.touchRange (s : State) (pa n cp : Nat) : State := (linesOf pa n).foldl (fun s l => s.touchLlc (128 * l) cp) s

/-- A write of its bytes at their local home under the policy of its page; the spill region discards it (R147), and the words that
`poi` marks are then poisoned (R71). -/
def State.lockedWrite (s : State) (pa cp : Nat) (bs : List Byte) (poi : List Bool) : State :=
  let s := s.touchRange pa bs.length cp
  if s.inSpillRegion (paLocal pa) then s else (s.hbmWrite (paLocal pa) bs).hbmPoison (markedWords (paLocal pa) bs.length poi) false
/-- A write performed at its local home (R91, R147, R151): where a lock blocks it the step waits, and every U copy of its lines is
gathered first. -/
def State.homeWrite (s : State) (pa cp : Nat) (bs : List Byte) (poi : List Bool) : State :=
  ((s.meet pa bs.length true).gatherRange pa bs.length).lockedWrite pa cp bs poi

/-- Lines on their way to a core from a peer that its L1 is not to keep: they may be older than what the core now knows. -/
def State.dropFills (s : State) (core : Nat) (p : Nat → Bool) : State :=
  if s.pkg.peerOut.any fun q => q.fill.isSome then
    s.modPkg fun x => { x with peerOut := x.peerOut.map fun (q : PeerReq) =>
      if (q.fill.any fun f => f.1 == core) && p (q.pa / 128) then ({ q with fill := none } : PeerReq) else q }
  else s
/-- Valid lines of a core dropped, with the fills on their way to it (R61). -/
def State.dropValid (s : State) (core : Nat) (p : Nat → Bool) : State :=
  let co := s.coreAt core
  (s.setCoreAt core { co with l1 := co.l1.filter fun l => l.isU || !p l.line }).dropFills core p
/-- The Valid lines that n bytes touch dropped. -/
def State.dropRange (s : State) (core pa n : Nat) : State := s.dropValid core fun l => (linesOf pa n).contains l
/-- Bytes written into the Valid lines of a core that hold them; a fill on its way to one of them is given up. -/
def State.updateValid (s : State) (core pa : Nat) (bs : List Byte) : State :=
  let co := s.coreAt core
  let put (l : L1Line) (d : List Byte) : List Byte :=
    (List.range bs.length).foldl (fun x i => if (pa + i) / 128 = l.line then bankPut 0 x ((pa + i) % 128) (bs.getD i 0) else x) d
  let clean (l : L1Line) (d : List Bool) : List Bool := tab 16 fun w => d.getD w false && !(pa ≤ l.line * 128 + 8 * w && l.line * 128 + 8 * w + 8 ≤ pa + bs.length)
  (s.setCoreAt core { co with l1 := co.l1.map fun l => (match l.data with | some d => ({ l with data := some (put l d.1, clean l d.2) } : L1Line) | none => l) }).dropFills
    core (linesOf pa bs.length).contains

/-- A store of a core, or of a unit of no core, performed at its home (R62): local HBM, or a request to the peer; the flag that waits
for it is then due. -/
def State.performStore (s : State) (core : Option Nat) (e : WbEntry) : State :=
  if s.isLocal e.pa then
    let s := s.homeWrite e.pa e.cp e.data e.poi
    match e.flag with
    | some f => s.flagLanded e.grp f
    | none => s
  else
    let q : PeerReq := { kind := .store, pa := e.pa, n := e.data.length, data := e.data, poi := e.poi, grp := e.grp, flag := e.flag,
                         ctx := e.ctx, frec := e.frec, core, tape := e.tape }
    ((match core with | some c => s.dropFills c (linesOf e.pa e.data.length).contains | none => s).send q).1

/-- The oldest store of a core's write buffer performed at home; it waits while a tile holds its line (R91). -/
def State.drainOne (s : State) (core : Nat) : State :=
  let co := s.coreAt core
  match co.wbuf with
  | [] => s
  | e :: t => if s.blocked e.pa e.data.length true then s else (s.setCoreAt core { co with wbuf := t }).performStore (some core) e

/-- The whole write buffer drained, oldest first (R86), as far as no lock stops it. -/
def State.drain (s : State) (core : Nat) : State :=
  (List.range (s.coreAt core).wbuf.length).foldl (fun s _ => s.drainOne core) s

/-- Every U line of a core sent home (R102). -/
def State.sendAllU (s : State) (core : Nat) : State :=
  ((s.coreAt core).l1.filter L1Line.isU).foldl (fun s l => s.sendU core l.line) s
/-- What a release at .clu or wider does to a core (R86). -/
def State.flushCore (s : State) (core : Nat) : State := (s.drain core).sendAllU core
/-- Bytes in a form of the K96 that no spec page lays out, written to memory (R429; log entry 10). -/
def State.privateWrite (s : State) (pa n : Nat) : State :=
  s.hbmWrite (paLocal pa) (tab n fun i => Config.privateLayout (s.freeKey i))
/-- The epoch that a contribution with tag k of a team belongs to, as far as the flushes executed by now tell (R139, R142). -/
def Team.epochOf (t : Team) (k : Nat) : W32 :=
  BitVec.ofNat 32 (t.epochO + t.gridFlushed + (((t.flushNamed.map (·.1)).eraseDups.filter (· < k)).length))
/-- The epochs of a grid's contributions and partials in the spill region (R141, R142). -/
def State.spilledEpochs (s : State) (k : Nat) : List W32 :=
  let gr := s.gridAt k
  ((s.teams.filter fun e => e.2.grid == k).flatMap fun e => (e.2.contribs.filter (·.spilled)).map fun c => e.2.epochOf c.k)
    ++ ((gr.flight ++ gr.staged).filter (·.spilled)).map (·.epoch)
/-- The bytes of the region that a grid takes (R148; log entry 114): 64 for each contribution or partial of the epoch that has most of
them there, and 48 for each sample. -/
def State.gridSpill (s : State) (k : Nat) : Nat :=
  let es := s.spilledEpochs k
  64 * es.foldl (fun n e => max n (es.count e)) 0 + 48 * (s.gridAt k).samples.length
/-- The bytes of a context's region in use (R147), and whether they are more than it has. -/
def State.rspUse (s : State) (ctx : Nat) : Nat := (s.grids.filter fun e => e.2.ctx == ctx).foldl (fun n e => n + s.gridSpill e.1) 0
def State.rspOver (s : State) (ctx : Nat) : Bool := (s.ctxAt ctx).rspSize.toNat * 65536 < s.rspUse ctx
/-- USED and PEAK in units of 64 KiB (R147). -/
def State.rspUnits (s : State) (ctx : Nat) : Nat := (s.rspUse ctx + 65535) / 65536
def State.rspPeaked (s : State) (ctx : Nat) : State :=
  let c := s.ctxAt ctx
  if c.rspPeak.toNat < s.rspUnits ctx then s.setCtxAt ctx { c with rspPeak := BitVec.ofNat 32 (s.rspUnits ctx) } else s
/-- The bytes of an entry just taken of a context's spill region written there, and PEAK brought up to USED (R141, R142, R147). -/
def State.spillWrite (s : State) (ctx : Nat) (bs : List Byte) : State :=
  (s.hbmWrite (paLocal (s.ctxAt ctx).rspBase.toNat + (s.rspUse ctx - bs.length)) bs).rspPeaked ctx
/-- The same for n bytes of contributions or partials, in a form of the K96's own (log entry 10). -/
def State.spillBytes (s : State) (ctx n : Nat) : State := s.spillWrite ctx (tab n fun i => Config.privateLayout (s.freeKey i))

/-- The locks of remote lines given back to their homes (R90). -/
def State.unlockLines (s : State) (ls : List Nat) : State :=
  (ls.filter fun l => !s.isLocal (128 * l)).foldl (fun s l => (s.send { kind := .unlock, pa := 128 * l, n := 128 }).1) s

/-- Nothing of a core has still to perform at home: no buffered store, no U partial, no write on its way to a peer. -/
def State.coreClear (s : State) (core : Nat) : Bool :=
  (s.coreAt core).wbuf.isEmpty && !(s.coreAt core).l1.any L1Line.isU && !s.pkg.peerOut.any fun q => q.core == some core && !q.tape && q.lost.isNone && (q.kind == .store || q.kind == .rmw)

/-- Scopes that reach beyond the core. -/
def wideScope : Scope → Bool | .grp => false | .core => false | _ => true
/-- A release at .clu or wider, and at .grp or .core (R86). -/
def State.release (s : State) (scope : Scope) : State := if wideScope scope then s.flushCore s.foc.core else s
/-- Everything a release waits for has performed. -/
def State.released (s : State) (scope : Scope) : Bool := !wideScope scope || s.coreClear s.foc.core
/-- An acquire at .clu or wider drops every Valid line of the core (R61, R86). -/
def State.acquire (s : State) (scope : Scope) : State := if wideScope scope then s.dropValid s.foc.core fun _ => true else s

def isRel : Ord → Bool | .rel => true | .ar => true | .sc => true | _ => false
def isAcq : Ord → Bool | .acq => true | .ar => true | .sc => true | _ => false

/-- The line of a full set that is replaced: of those to be replaced first, the oldest. -/
def victim (set : List L1Line) : Option L1Line :=
  set.foldl (fun r x => match r with | none => some x | some y => if x.pri < y.pri then some x else r) none
/-- A new line in its set of 8 ways (R60); the victim of a full set is evicted, a U line's partials going home (R61). -/
def State.allocLine (s : State) (core : Nat) (l : L1Line) : State :=
  let co := s.coreAt core
  let set := co.l1.filter fun x => x.line % 128 == l.line % 128
  let s := match victim set with
    | some old => if 8 ≤ set.length then (let s := s.setCoreAt core (co.dropLine old.line); if old.isU then s.sendLine old else s) else s
    | none => s
  let co := s.coreAt core
  s.setCoreAt core { co with l1 := co.l1 ++ [l] }

/-- The newest buffered byte of an address. -/
def CoreSt.buffered (c : CoreSt) (a : Nat) : Option Byte :=
  c.wbuf.foldl (fun r e => if e.pa ≤ a && a < e.pa + e.data.length then some (e.data.getD (a - e.pa) 0) else r) none
/-- n bytes with the core's buffered bytes over them, and the first poisoned word that one of them was taken from (R61, R71). -/
def CoreSt.forward (c : CoreSt) (pa n : Nat) (byte : Nat → Byte) (poi : Nat → Bool) : List Byte × Option Nat :=
  (tab n fun i => (c.buffered (pa + i)).getD (byte i), ((List.range n).find? fun i => (c.buffered (pa + i)).isNone && poi i).map fun i => (pa + i) / 8 * 8)

/-- The place in the order of replacement that a page's policy and a HINT give a line (R64, R238; log entry 93), and whether the L1
keeps it at all. -/
def linePri (cp : Nat) (h : Hint) : Nat :=
  match h with
  | .keep => 2
  | .strm => 0
  | _ => if cp == 1 then 0 else 1
def l1Keeps (cp : Nat) (h : Hint) : Bool := cp != 2 && h != .nal

/-- A line come from its home to a core's L1, with the core's buffered bytes over it (R61). -/
def State.fillLine (s : State) (core ln pri : Nat) (data : List Byte) (poi : List Bool) : State :=
  let co := s.coreAt core
  if (co.line ln).any L1Line.isU then s
  else
    let whole := (co.forward (ln * 128) 128 (fun i => data.getD i 0) fun _ => false).1
    (s.setCoreAt core (co.dropLine ln)).allocLine core { line := ln, data := some (whole, poi), pri }

/-- What the focused core's L1 has of a load: bytes, with the first poisoned word among them; otherwise the state in which its home
is read, the line being absent. Whether a Valid line has been evicted since is a free value (log entry 18). -/
def State.l1Load (s : State) (pa n cp : Nat) : State × Option (List Byte) :=
  let core := s.foc.core
  let ln := pa / 128
  match (s.coreAt core).line ln with
  | none => (s, none)
  | some l =>
    match l.data with
    | none => (s.sendU core ln, none)
    | some d =>
      let r := (s.coreAt core).forward pa n (fun i => d.1.getD (pa % 128 + i) 0) fun i => d.2.getD ((pa % 128 + i) / 8) false
      if cp == 2 || r.2.isSome || !Config.freeBool (s.freeKey (Nat.pair 4 ln)) then (s.setCoreAt core ((s.coreAt core).dropLine ln), none)
      else (s, some r.1)

/-- A load of n bytes within a line of local memory by the focused core (R61, R91): forwarding from the write buffer, the Valid
line, or home; the bytes and the first poisoned word it took bytes from. Where a tile holds the line's shared lock and a core has a U
copy of it, the read waits for the lock, since the partial that it gathers must (log entry 110). -/
def State.cachedRead (s : State) (pa n cp : Nat) (h : Hint) : State × List Byte × Option Nat :=
  match s.l1Load pa n cp with
  | (s, some bs) => (s, bs, none)
  | (s, none) =>
    let ln := pa / 128
    let s := (((s.meet pa n false).count s.foc.ctx 5 1).gather ln).touchLlc pa cp
    let base := paLocal (ln * 128)
    let r := s.co.forward pa n (fun i => memGet s.mem (paLocal pa + i)) fun i => s.memPoi.has ((paLocal pa + i) / 8)
    (if l1Keeps cp h then s.fillLine s.foc.core ln (linePri cp h) (s.hbm base 128) (s.poiMarks base 128) else s, r)

/-- Bytes of one line that a core has read at its home: the core's Valid line stays as it is where it holds the same bytes (R61), and is
dropped where it does not, since a later read of it might then be older than this one (R83); so might the line of a fill on its way. -/
def State.seen (s : State) (core pa : Nat) (bs : List Byte) : State :=
  let co := s.coreAt core
  let same (d : List Byte) : Bool := (List.range bs.length).all fun i => (co.buffered (pa + i)).isSome || d.getD (pa % 128 + i) 0 == bs.getD i 0
  let old := (co.line (pa / 128)).any fun l => l.data.any fun d => !same d.1
  (if old then s.setCoreAt core (co.dropLine (pa / 128)) else s).dropFills core (· == pa / 128)

/-- A store entering the focused core's write buffer (R61, R62). -/
def State.bufferStore (s : State) (pa cp : Nat) (bs : List Byte) (flag : Option (Nat × Nat)) (frec : FRec) : State :=
  let core := s.foc.core
  let s := (s.sendU core (pa / 128)).updateValid core pa bs
  let co := s.coreAt core
  s.setCoreAt core { co with wbuf := co.wbuf ++ [{ pa, data := bs, grp := s.foc.grp, flag, ctx := s.foc.ctx, frec, cp, hand := s.g.handler.isSome, order := s.order }] }

/-- A line made Invalid in the focused core, its partial sent home, before an access performed at home (R61). -/
def State.homeLine (s : State) (pa : Nat) : State :=
  let core := s.foc.core
  ((s.sendU core (pa / 128)).dropValid core (· == pa / 128)).gather (pa / 128)

/-- A core's own buffered stores to a line performed at home, before an access there that follows them; one that a lock stops puts
the step off. -/
def State.drainLine (s : State) (core pa : Nat) : State :=
  let mine (s : State) : Bool := (s.coreAt core).wbuf.any fun e => e.pa / 128 == pa / 128
  if mine s then
    let s' := s.drain core
    if mine s' then { s' with met := s'.met + 1 } else s'
  else s

/-- The same for every line of a range. -/
def State.drainRange (s : State) (core pa n : Nat) : State := (linesOf pa n).foldl (fun s l => s.drainLine core (l * 128)) s

/-- A write at home by an engine for a team, after the core's own earlier stores there: the covered Valid lines of the team's core
are dropped first (R96). -/
def State.engineWrite (s : State) (core pa cp : Nat) (bs : List Byte) (poi : List Bool) : State :=
  (((s.drainRange core pa bs.length).dropRange core pa bs.length).homeWrite pa cp bs poi)

end Sys2Proof.Machine
end

