-- ==== Sys2Proof/Machine/Log.lean ====
section
/-! DEFINITION. The log of a context (R434 to R436): the states and values that an interval holds, the room they take, and the
samples of memory instructions (R445). -/

namespace Sys2Proof.Machine

/-- The bytes that a snapshot takes at most, and an entry (R436). -/
def snapBytes (g : Grp) : Nat := 4096 + 4 * g.gw * (g.budget + 16)
def entBytes : Nat := 144

/-- The interval of a work name (R432): its grid, team, launch index, part and number. -/
def Ctx.interval (c : Ctx) (gid team : W32) (idx part : Nat) (retired : W64) : List Nat :=
  [gid.toNat, team.toNat, idx, part, retired.toNat / 2 ^ c.dbgIntv]
def Ctx.snapKey (c : Ctx) (x : Snap) : List Nat := c.interval x.gid x.team x.grp.idx x.grp.part x.retired
def Ctx.entKey (c : Ctx) (x : LogEnt) : List Nat := c.interval x.gid x.team x.idx x.part x.retired

/-- The oldest interval discarded whole (R436). -/
def Ctx.dropOldest (c : Ctx) : Ctx :=
  match c.snaps.head?.map c.snapKey with
  | some k => { c with snaps := c.snaps.filter fun x => c.snapKey x != k, log := c.log.filter fun x => c.entKey x != k }
  | none => { c with log := [] }
/-- The intervals that a log holds. -/
def Ctx.intervals (c : Ctx) : List (List Nat) := (c.snaps.map c.snapKey).eraseDups
/-- The most bytes that what a log holds may take. -/
def Ctx.logBytes (c : Ctx) : Nat := (c.snaps.filter (·.full)).foldl (fun n x => n + snapBytes x.grp) (entBytes * c.log.length)
/-- The intervals that a ring has discarded, oldest first (R436): none when it is sure to hold everything, all without a region,
otherwise a free number of them, `drop` (the layout of the region is not in the spec, log entry 10). -/
def Ctx.trim (c : Ctx) (drop : Nat) : Ctx :=
  let room := c.dbgLogSz.toNat * 65536
  if room = 0 then { c with snaps := [], log := [] }
  else if c.logBytes ≤ room then c
  else (List.range (drop % (c.intervals.length + 1))).foldl (fun c _ => c.dropOldest) c

/-- n bytes written somewhere in the log region of the context in focus, whose layout is private (R436, log entry 10), and the ring
trimmed. -/
def State.logWrite (s : State) (n : Nat) : State :=
  let c := s.c
  let room := c.dbgLogSz.toNat * 65536
  let at' := if room = 0 then 0 else (Config.freeHalf (s.freeKey 1)).toNat % room
  let s := s.setC (c.trim (Config.freeHalf (s.freeKey 0)).toNat)
  (s.privateWrite (c.dbgLog.toNat + at') (min (room - at') n)).bump

/-- The group in focus with its poison table, as the log holds it. -/
def State.snapOf (s : State) (ptab : List (Option PtEntry)) (full : Bool) : Snap :=
  { full, key := s.foc.grp, gid := s.gr.lrec.gid, team := s.t.id, retired := s.g.retired, grp := s.g, ptab }

/-- A value that enters the group in focus from outside its registers, logged with its poison bits (R435). -/
def State.logEntry (s : State) (kind : LogKind) (addr : Nat) (data : List Byte) (poi : List Bool) : State :=
  (s.modC fun c => { c with log := c.log ++ [{ gid := s.gr.lrec.gid, team := s.t.id, idx := s.g.idx, part := s.g.part, retired := s.g.retired, kind, addr, data, poi }] }).logWrite entBytes
/-- The same while the context logs. -/
def State.logIn (s : State) (kind : LogKind) (addr : Nat) (data : List Byte) (poi : List Bool := []) : State :=
  if s.c.dbgLogOn then s.logEntry kind addr data poi else s
/-- A register word that enters the group, with its poison. -/
def State.logReg (s : State) (kind : LogKind) (lane : Nat) (r : Reg) : State := s.logIn kind lane (leBytes 4 r.val.toNat) [r.poi]

/-- Bytes that the group in focus has read of one block: logged where the interval's log has nothing of the block yet, or where they are
not the bytes of the group's image of it (R435). -/
def State.logBlock (s : State) (kind : LogKind) (a : Nat) (bs : List Byte) (poi : Bool) : State :=
  let known := s.g.logSeen.has (a / 128) && (List.range bs.length).all fun i => s.g.image.find (a + i) == some (bs.getD i 0)
  if known && !poi then s
  else (s.logEntry kind a bs [poi]).modG fun g => { g.imagePut a bs with logSeen := g.logSeen.insert (a / 128) }
/-- A read of the group in focus, by its address in a digest (R446), logged block by block (R435). -/
def State.logRead (s : State) (kind : LogKind) (a : Nat) (bs : List Byte) (poi : Bool := false) : State :=
  if !s.c.dbgLogOn then s
  else
    (linesOf a bs.length).foldl (fun s ln =>
      let lo := max a (128 * ln)
      s.logBlock kind lo ((bs.drop (lo - a)).take (128 * ln + 128 - lo)) poi) s

/-! ## Samples -/

/-- A global memory instruction of the group in focus counted for its core, and sampled when it is the last of 2^(SMPL + 5) (R445; log
entry 105). -/
def State.sampled (s : State) (kind : Acc) : State :=
  let c := s.c
  if c.dbgSmpl == 0 || !c.dbgTrace then s
  else
    let n := s.co.smpl.get 0 s.foc.ctx + 1
    if n < 2 ^ (c.dbgSmpl + 5) then s.modCo fun co => { co with smpl := co.smpl.set s.foc.ctx n }
    else
      let x : Sampled := { grp := s.foc.grp, kind := kind.code, pc := s.g.iss.pc, gid := s.gr.lrec.gid, team := s.t.id, idx := s.g.idx }
      (s.modCo fun co => { co with smpl := co.smpl.set s.foc.ctx 0 }).setC { c with smplDue := c.smplDue ++ [x] }

end Sys2Proof.Machine
end

