-- ==== Sys2Proof/WellFormed.lean ====
section
/-! DEFINITION. Well-formed instructions: the words that pass steps 5 and 6 of R240, and the events whose arguments lie in
the ranges the spec gives them. -/

namespace Sys2Proof

/-- The arguments of an event name a context, core, queue or port that the spec has (R18, R397, R448, R457). Words pass. -/
def Instr.argsOk : Instr → Bool
  | .flagClear _ flag => flag < 12
  | .batchTimeout _ node => node < 63
  | .uPartialApply core _ => core < 1536
  | .lqtailWrite queue _ => queue < 64
  | .launchRecordTake queue => queue < 64
  | .teamPlacement _ cores _ => cores.all (· < 1536)
  | .teamRestore _ core => core < 1536
  | .temperStep ctx => ctx < 256
  | .versionPublish ctx => ctx < 256
  | .invalidationRequest ctx _ => ctx < 256
  | .invalidationComplete ctx => ctx < 256
  | .fqheadWrite ctx _ => ctx < 256
  | .fqctlRetry ctx => ctx < 256
  | .cacheLoad ctx => ctx < 256
  | .cacheSave ctx => ctx < 256
  | .switch ctx => ctx < 256
  | .switchComplete ctx => ctx < 256
  | .contextResume ctx => ctx < 256
  | .kill ctx => ctx < 256
  | .arm ctx _ _ => ctx < 256
  | .disarm ctx => ctx < 256
  | .debugResume ctx => ctx < 256
  | .debugRead ctx _ _ => ctx < 256
  | .debugWrite ctx _ _ => ctx < 256
  | .debugForceWrite ctx _ _ => ctx < 256
  | .traceCaptureOn ctx => ctx < 256
  | .traceCaptureOff ctx => ctx < 256
  | .attcmdGo ctx => ctx < 256
  | .attestationReportDone ctx => ctx < 256
  | .writeBufferDrain core => core < 1536
  | _ => true

/-- Step 5 of R240: every code is accepted and every unused field is zero. -/
def Instr.codesOk (i : Instr) : Bool := i.rule.codesOk

/-- Step 6 of R240: every operand's class is accepted in its field. -/
def Instr.operandsOk (i : Instr) : Bool := i.rule.operandsOk

/-- A well-formed instruction: a word that decodes, or an event with arguments in range. -/
def Instr.wellFormed (i : Instr) : Bool := i.codesOk && i.operandsOk && i.argsOk

end Sys2Proof
end

