-- ==== Sys2Proof/Decode.lean ====
section
/-! DEFINITION. Decoding and encoding of instruction words (R231 to R239) and block headers (R227, R228). The decoder is total:
every word is an instruction or is rejected by the name R240 gives its fate. -/

namespace Sys2Proof

/-- Why a word is no instruction (R240, steps 4 to 6). -/
inductive Reject | illegalInstruction | illegalOperand | truncated
deriving DecidableEq, Repr, Inhabited

/-! Codes of fields (R237, R238, R208). -/

def Const.ofCode : Nat → Option Const
  | 0 => some .zero | 1 => some .one | 2 => some .negOne | 3 => some .two | 4 => some .fourHalf | _ => none
def Special.ofCode : Nat → Option Special
  | 0 => some .lane | 1 => some .grp | 2 => some .tlane | 3 => some .team | 4 => some .gw | 5 => some .pc | 6 => some .role
  | 7 => some .nteam | _ => none

/-- The operand a specifier byte names; none where R237 reserves it. -/
def Opnd.ofByte (b : Byte) : Option Opnd :=
  let n := b.toNat
  if h : n < 64 then some (.v ⟨n, h⟩)
  else if h : n - 64 < 64 then some (.s ⟨n - 64, h⟩)
  else if h : n - 128 < 8 then some (.k ⟨n - 128, h⟩)
  else if h : n - 136 < 2 then some (.y ⟨n - 136, h⟩)
  else if n < 144 then none
  else if h : n - 144 < 8 then some (.m ⟨n - 144, h⟩)
  else if h : n - 152 < 8 then some (.a ⟨n - 152, h⟩)
  else if h : n - 160 < 4 then some (.z ⟨n - 160, h⟩)
  else if n < 168 then none
  else if n < 176 then (Const.ofCode (n - 168)).map .const
  else (Special.ofCode (n - 176)).map .spec

def Const.code : Const → Nat | .zero => 0 | .one => 1 | .negOne => 2 | .two => 3 | .fourHalf => 4
def Special.code : Special → Nat
  | .lane => 0 | .grp => 1 | .tlane => 2 | .team => 3 | .gw => 4 | .pc => 5 | .role => 6 | .nteam => 7

/-- The specifier byte of an operand (R237). -/
def Opnd.byte : Opnd → Byte
  | .v i => BitVec.ofNat 8 i.val
  | .s i => BitVec.ofNat 8 (64 + i.val)
  | .k i => BitVec.ofNat 8 (128 + i.val)
  | .y i => BitVec.ofNat 8 (136 + i.val)
  | .m i => BitVec.ofNat 8 (144 + i.val)
  | .a i => BitVec.ofNat 8 (152 + i.val)
  | .z i => BitVec.ofNat 8 (160 + i.val)
  | .const c => BitVec.ofNat 8 (168 + c.code)
  | .spec x => BitVec.ofNat 8 (176 + x.code)

def Rmo.ofCode : Nat → Option Rmo
  | 0 => some .lane | 1 => some .rne | 2 => some .rz | 3 => some .ru | 4 => some .rd | _ => none
def Rmo.code : Rmo → Nat | .lane => 0 | .rne => 1 | .rz => 2 | .ru => 3 | .rd => 4
def Sf.ofCode : Nat → Option Sf | 0 => some .none | 1 => some .a | 2 => some .b | _ => Option.none
def Sf.code : Sf → Nat | .none => 0 | .a => 1 | .b => 2
def Scope.ofCode : Nat → Option Scope
  | 0 => some .grp | 1 => some .core | 2 => some .clu | 3 => some .pkg | 4 => some .pod | _ => none
def Scope.code : Scope → Nat | .grp => 0 | .core => 1 | .clu => 2 | .pkg => 3 | .pod => 4
def Ord.ofCode : Nat → Option Ord
  | 0 => some .rlx | 1 => some .acq | 2 => some .rel | 3 => some .ar | 4 => some .sc | _ => none
def Ord.code : Ord → Nat | .rlx => 0 | .acq => 1 | .rel => 2 | .ar => 3 | .sc => 4
def Width.ofCode : Nat → Option Width
  | 0 => some .b8 | 1 => some .b16 | 2 => some .b32 | 3 => some .b64 | 4 => some .b128 | _ => none
def Width.code : Width → Nat | .b8 => 0 | .b16 => 1 | .b32 => 2 | .b64 => 3 | .b128 => 4
def Hint.ofCode : Nat → Option Hint
  | 0 => some .none | 1 => some .keep | 2 => some .strm | 3 => some .nal | _ => Option.none
def Hint.code : Hint → Nat | .none => 0 | .keep => 1 | .strm => 2 | .nal => 3

/-! Fields of a word. -/

/-- The specifier in bits [lo+7:lo], and whether it is reserved; a reserved one stands as v63 for the check of unused
fields, which comes first (R240). -/
def opndAt (w : W64) (lo : Nat) : Opnd × Bool :=
  match Opnd.ofByte (w.extractLsb' lo 8) with
  | some o => (o, false)
  | none => (.v 63, true)

def codeAt (w : W64) (lo n : Nat) : Nat := (w.extractLsb' lo n).toNat

def predAt (w : W64) : Pred :=
  { m := ⟨codeAt w 49 3, (w.extractLsb' 49 3).isLt⟩, neg := w.getLsbD 48 }

/-- The V-format fields (R232); none where a code is reserved. -/
def vfAt (w : W64) : Option VF :=
  match Ty.ofCode (codeAt w 12 4), Rmo.ofCode (codeAt w 9 3), Sf.ofCode (codeAt w 6 2) with
  | some ty, some rmo, some sf =>
    some { d := (opndAt w 40).1, a := (opndAt w 32).1, b := (opndAt w 24).1, c := (opndAt w 16).1, ty, rmo,
           sat := w.getLsbD 8, sf, mod := w.extractLsb' 0 6 }
  | _, _, _ => none
def vfReserved (w : W64) : Bool := (opndAt w 40).2 || (opndAt w 32).2 || (opndAt w 24).2 || (opndAt w 16).2

/-- The VI-format fields (R233). -/
def ifAt (w : W64) : IF := { d := (opndAt w 40).1, a := (opndAt w 32).1, imm := w.extractLsb' 0 32 }
def ifReserved (w : W64) : Bool := (opndAt w 40).2 || (opndAt w 32).2

/-- The M-format fields (R234); none where a code is reserved. -/
def mfAt (w : W64) : Option MF :=
  match Scope.ofCode (codeAt w 21 3), Ord.ofCode (codeAt w 18 3), Sf.ofCode (codeAt w 16 2), Width.ofCode (codeAt w 13 3),
      Hint.ofCode (codeAt w 11 2) with
  | some scope, some ord, some sf, some width, some hint =>
    some { d := (opndAt w 40).1, a := (opndAt w 32).1, b := (opndAt w 24).1, scope, ord, sf, width, hint,
           imm := w.extractLsb' 0 11 }
  | _, _, _, _, _ => none
def mfReserved (w : W64) : Bool := (opndAt w 40).2 || (opndAt w 32).2 || (opndAt w 24).2

/-- The B-format fields (R235). -/
def bfAt (w : W64) : BF := { c := (opndAt w 40).1, n := w.extractLsb' 32 8, ofs := w.extractLsb' 0 32 }
def bfReserved (w : W64) : Bool := (opndAt w 40).2

/-! The opcode map (R239). -/

/-- The format of a row with the instruction its fields make. -/
inductive Build
  | v (mk : Pred → VF → Instr)
  | i (mk : Pred → IF → Instr)
  | m (mk : Pred → MF → Instr)
  | b (mk : Pred → BF → Instr)

/-- MTSR, whose writes of HEXIT and PTMASK are rows of their own (R412). -/
def mtsrOf (p : Pred) (f : IF) : Instr :=
  if f.imm == 0x10D#32 then .hexitWrite p f else if f.imm == 0x10A#32 then .ptmaskWrite p f else .mtsr p f

/-- The assigned majors, each with its sub-opcodes from 0 up (R239). -/
def opcodeMap : List (Nat × List Build) :=
  [(0x00, [.v .nop, .b .bra, .b .bru, .b .brx, .b .call, .b .callx, .v .ret, .v .exit, .v .yield, .i .trap, .v .tret, .i
     .bkpt, .i .waitf]),
   (0x01, [.v .add, .v .sub, .v .mul, .v .mulh, .v .mad, .v .addc, .v .subb, .v .and, .v .or, .v .xor, .v .andn, .v .shl,
     .v .shr, .v .sra, .v .rot, .v .min, .v .max, .v .absd, .v .cmp, .v .sel, .v .popc, .v .clz, .v .brev, .v .bfe, .v
     .bfi, .v .mov, .v .div]),
   (0x02, [.i .movi, .i .addi, .i .andi, .i .ori, .i .xori, .i .cmpi]),
   (0x03, [.v .atr, .v .arel, .m .lea, .v .aget]),
   (0x04, [.v .mand, .v .mor, .v .mxor, .v .mandn, .v .mmov, .v .mpopc, .v .mfirst, .v .mact]),
   (0x05, [.i .gsplit, .v .gfuse, .v .gang]),
   (0x06, [.i .mfsr, .i mtsrOf, .v .clk, .i .zread, .v .rng, .v .ecount]),
   (0x08, [.v .fadd, .v .fsub, .v .fmul, .v .ffma, .v .fmin, .v .fmax, .v .fminm, .v .fmaxm, .v .fcmp, .v .fclass, .v
     .fdiv, .v .fsqrt, .v .frcp, .v .frsq, .v .fexp2, .v .flog2, .v .fsin, .v .fcos, .v .frint, .v .fscale, .v .fgetexp, .v
     .fdot2]),
   (0x09, [.v .fcvt, .v .ftoi, .v .itof, .v .pack8, .v .unpk8, .v .qnt, .v .deq]),
   (0x0A, [.v .bcast, .v .shfl, .v .shup, .v .shdn, .v .ballot, .v .redux, .v .scan, .v .elect, .v .lget, .v .lput]),
   (0x10, [.m .ld, .m .lds, .m .ldk]),
   (0x11, [.m .st, .m .sts, .m .stk, .m .zst]),
   (0x12, [.m .tld, .m .tst, .m .tlds, .m .tsts]),
   (0x13, [.m .atom, .m .cas, .m .casgt, .m .casv, .m .caspt, .m .red, .m .rflush]),
   (0x14, [.m .fence, .m .cinv, .m .cflu, .m .pref]),
   (0x15, [.m .binit, .m .bexpect, .m .barrive, .m .bwait, .m .btest]),
   (0x16, [.m .cpy, .m .cpyt, .m .cpyc, .m .cpys]),
   (0x17, [.m .stash, .m .restore]),
   (0x18, [.m .collar, .m .collrs, .m .collag, .m .collupd, .m .collcmt]),
   (0x19, [.v .walloc, .v .wsend, .v .launch]),
   (0x20, [.v .mma, .v .mmasp, .v .spush, .v .mqstat, .v .mdrop]),
   (0x21, [.v .xdec, .v .xenc, .v .xsparse, .v .xmatch, .v .xsort, .v .xperm, .v .xtrn]),
   (0x28, [.v .topen, .v .trec, .v .tpop, .v .tmark, .v .tend, .v .tstat, .v .tclose]),
   (0x29, [.v .rcov, .v .esmp]),
   (0x2A, [.v .tex, .v .texl, .v .texadj]),
   (0x2B, [.v .trace, .v .tresume, .v .tabort, .v .hitadj]),
   (0x2C, [.v .rcq, .v .rcsync, .v .rcstat])]

def buildAt (major sub : Nat) : Option Build := (opcodeMap.lookup major).bind (·[sub]?)

/-- The instruction that a word's fields spell, with whether a specifier is reserved; none where a code is. -/
def Build.parse (b : Build) (w : W64) : Option (Instr × Bool) :=
  match b with
  | .v mk => (vfAt w).map fun f => (mk (predAt w) f, vfReserved w)
  | .i mk => some (mk (predAt w) (ifAt w), ifReserved w)
  | .m mk => (mfAt w).map fun f => (mk (predAt w) f, mfReserved w)
  | .b mk => some (mk (predAt w) (bfAt w), bfReserved w)

/-- Steps 4 to 6 of R240, in their order. -/
def decodeWord (w : W64) : Except Reject Instr :=
  match buildAt (codeAt w 58 6) (codeAt w 52 6) with
  | none => .error .illegalInstruction
  | some b =>
    match b.parse w with
    | none => .error .illegalInstruction
    | some (i, reserved) =>
      if !i.codesOk then .error .illegalInstruction
      else if reserved || !i.operandsOk then .error .illegalOperand
      else .ok i

/-- A word from its eight bytes, little-endian (R225). -/
def wordOfBytes (bs : List Byte) : W64 := BitVec.ofNat 64 (bs.foldr (fun b n => b.toNat + 256 * n) 0)

/-- Decoding of any bytes: the first eight make the word, and the rest is returned. -/
def decode (bs : List Byte) : Except Reject (Instr × List Byte) :=
  if bs.length < 8 then .error .truncated
  else
    match decodeWord (wordOfBytes (bs.take 8)) with
    | .ok i => .ok (i, bs.drop 8)
    | .error e => .error e

/-- The host's question: the instruction whose word is w; every row is one word of 64 bits. -/
def decodeTableWord (nbits w : Nat) : Option Instr :=
  match decodeWord (BitVec.ofNat 64 (w % 2 ^ nbits)) with
  | .ok i => some i
  | .error _ => none

/-! Block headers. -/

def HKind.code : HKind → Nat | .ord => 0 | .trap => 1 | .node => 2 | .grid => 3
def HKind.ofCode : Nat → HKind | 0 => .ord | 1 => .trap | 2 => .node | _ => .grid

/-- SETA and SETB: code 15 names no flag and 12 to 14 are reserved. -/
def flagOfCode (n : Nat) : Option (Option (Fin 12)) :=
  if h : n < 12 then some (some ⟨n, h⟩) else if n == 15 then some none else none
def flagCode : Option (Fin 12) → Nat | some i => i.val | none => 15

/-- The header a word holds; none for a bad header (R228). -/
def decodeHeader (w : W64) : Option Header :=
  if codeAt w 58 6 ≠ 63 || codeAt w 20 3 ≠ 0 then none
  else
    match flagOfCode (codeAt w 36 4), flagOfCode (codeAt w 32 4) with
    | some setA, some setB =>
      if h : codeAt w 25 7 < 65 then
        some { len := w.extractLsb' 52 6, wait := w.extractLsb' 40 12, setA, setB, live := ⟨codeAt w 25 7, h⟩,
               kind := .ofCode (codeAt w 23 2), pfx := w.extractLsb' 0 20 }
      else none
    | _, _ => none

/-- The word of a header (R227). -/
def encodeHeader (h : Header) : W64 :=
  63#6 ++ h.len ++ h.wait ++ BitVec.ofNat 4 (flagCode h.setA) ++ BitVec.ofNat 4 (flagCode h.setB) ++ BitVec.ofNat 7 h.live.val
    ++ BitVec.ofNat 2 h.kind.code ++ 0#3 ++ h.pfx

/-! Encoding. -/

def Pred.bits (p : Pred) : BitVec 4 := BitVec.ofNat 3 p.m.val ++ BitVec.ofBool p.neg
def VF.bits (f : VF) : BitVec 48 :=
  f.d.byte ++ f.a.byte ++ f.b.byte ++ f.c.byte ++ BitVec.ofNat 4 f.ty.code ++ BitVec.ofNat 3 f.rmo.code
    ++ BitVec.ofBool f.sat ++ BitVec.ofNat 2 f.sf.code ++ f.mod
def IF.bits (f : IF) : BitVec 48 := f.d.byte ++ f.a.byte ++ f.imm
def MF.bits (f : MF) : BitVec 48 :=
  f.d.byte ++ f.a.byte ++ f.b.byte ++ BitVec.ofNat 3 f.scope.code ++ BitVec.ofNat 3 f.ord.code ++ BitVec.ofNat 2 f.sf.code
    ++ BitVec.ofNat 3 f.width.code ++ BitVec.ofNat 2 f.hint.code ++ f.imm
def BF.bits (f : BF) : BitVec 48 := f.c.byte ++ f.n ++ f.ofs

/-- The parts of a word: MAJOR, SUB, the predicate and the format's 48 bits (R231). -/
structure Parts where
  major : BitVec 6
  sub : BitVec 6
  pred : Pred
  body : BitVec 48
deriving DecidableEq, Repr

/-- The parts of each instruction's word (R239); an event has no word. -/
def Instr.parts : Instr → Option Parts
  | .nop p f => some ⟨0x00, 0x00, p, f.bits⟩
  | .bra p f => some ⟨0x00, 0x01, p, f.bits⟩
  | .bru p f => some ⟨0x00, 0x02, p, f.bits⟩
  | .brx p f => some ⟨0x00, 0x03, p, f.bits⟩
  | .call p f => some ⟨0x00, 0x04, p, f.bits⟩
  | .callx p f => some ⟨0x00, 0x05, p, f.bits⟩
  | .ret p f => some ⟨0x00, 0x06, p, f.bits⟩
  | .exit p f => some ⟨0x00, 0x07, p, f.bits⟩
  | .yield p f => some ⟨0x00, 0x08, p, f.bits⟩
  | .trap p f => some ⟨0x00, 0x09, p, f.bits⟩
  | .tret p f => some ⟨0x00, 0x0A, p, f.bits⟩
  | .bkpt p f => some ⟨0x00, 0x0B, p, f.bits⟩
  | .waitf p f => some ⟨0x00, 0x0C, p, f.bits⟩
  | .add p f => some ⟨0x01, 0x00, p, f.bits⟩
  | .sub p f => some ⟨0x01, 0x01, p, f.bits⟩
  | .mul p f => some ⟨0x01, 0x02, p, f.bits⟩
  | .mulh p f => some ⟨0x01, 0x03, p, f.bits⟩
  | .mad p f => some ⟨0x01, 0x04, p, f.bits⟩
  | .addc p f => some ⟨0x01, 0x05, p, f.bits⟩
  | .subb p f => some ⟨0x01, 0x06, p, f.bits⟩
  | .and p f => some ⟨0x01, 0x07, p, f.bits⟩
  | .or p f => some ⟨0x01, 0x08, p, f.bits⟩
  | .xor p f => some ⟨0x01, 0x09, p, f.bits⟩
  | .andn p f => some ⟨0x01, 0x0A, p, f.bits⟩
  | .shl p f => some ⟨0x01, 0x0B, p, f.bits⟩
  | .shr p f => some ⟨0x01, 0x0C, p, f.bits⟩
  | .sra p f => some ⟨0x01, 0x0D, p, f.bits⟩
  | .rot p f => some ⟨0x01, 0x0E, p, f.bits⟩
  | .min p f => some ⟨0x01, 0x0F, p, f.bits⟩
  | .max p f => some ⟨0x01, 0x10, p, f.bits⟩
  | .absd p f => some ⟨0x01, 0x11, p, f.bits⟩
  | .cmp p f => some ⟨0x01, 0x12, p, f.bits⟩
  | .sel p f => some ⟨0x01, 0x13, p, f.bits⟩
  | .popc p f => some ⟨0x01, 0x14, p, f.bits⟩
  | .clz p f => some ⟨0x01, 0x15, p, f.bits⟩
  | .brev p f => some ⟨0x01, 0x16, p, f.bits⟩
  | .bfe p f => some ⟨0x01, 0x17, p, f.bits⟩
  | .bfi p f => some ⟨0x01, 0x18, p, f.bits⟩
  | .mov p f => some ⟨0x01, 0x19, p, f.bits⟩
  | .div p f => some ⟨0x01, 0x1A, p, f.bits⟩
  | .movi p f => some ⟨0x02, 0x00, p, f.bits⟩
  | .addi p f => some ⟨0x02, 0x01, p, f.bits⟩
  | .andi p f => some ⟨0x02, 0x02, p, f.bits⟩
  | .ori p f => some ⟨0x02, 0x03, p, f.bits⟩
  | .xori p f => some ⟨0x02, 0x04, p, f.bits⟩
  | .cmpi p f => some ⟨0x02, 0x05, p, f.bits⟩
  | .atr p f => some ⟨0x03, 0x00, p, f.bits⟩
  | .arel p f => some ⟨0x03, 0x01, p, f.bits⟩
  | .lea p f => some ⟨0x03, 0x02, p, f.bits⟩
  | .aget p f => some ⟨0x03, 0x03, p, f.bits⟩
  | .mand p f => some ⟨0x04, 0x00, p, f.bits⟩
  | .mor p f => some ⟨0x04, 0x01, p, f.bits⟩
  | .mxor p f => some ⟨0x04, 0x02, p, f.bits⟩
  | .mandn p f => some ⟨0x04, 0x03, p, f.bits⟩
  | .mmov p f => some ⟨0x04, 0x04, p, f.bits⟩
  | .mpopc p f => some ⟨0x04, 0x05, p, f.bits⟩
  | .mfirst p f => some ⟨0x04, 0x06, p, f.bits⟩
  | .mact p f => some ⟨0x04, 0x07, p, f.bits⟩
  | .gsplit p f => some ⟨0x05, 0x00, p, f.bits⟩
  | .gfuse p f => some ⟨0x05, 0x01, p, f.bits⟩
  | .gang p f => some ⟨0x05, 0x02, p, f.bits⟩
  | .mfsr p f => some ⟨0x06, 0x00, p, f.bits⟩
  | .mtsr p f => some ⟨0x06, 0x01, p, f.bits⟩
  | .clk p f => some ⟨0x06, 0x02, p, f.bits⟩
  | .zread p f => some ⟨0x06, 0x03, p, f.bits⟩
  | .rng p f => some ⟨0x06, 0x04, p, f.bits⟩
  | .ecount p f => some ⟨0x06, 0x05, p, f.bits⟩
  | .fadd p f => some ⟨0x08, 0x00, p, f.bits⟩
  | .fsub p f => some ⟨0x08, 0x01, p, f.bits⟩
  | .fmul p f => some ⟨0x08, 0x02, p, f.bits⟩
  | .ffma p f => some ⟨0x08, 0x03, p, f.bits⟩
  | .fmin p f => some ⟨0x08, 0x04, p, f.bits⟩
  | .fmax p f => some ⟨0x08, 0x05, p, f.bits⟩
  | .fminm p f => some ⟨0x08, 0x06, p, f.bits⟩
  | .fmaxm p f => some ⟨0x08, 0x07, p, f.bits⟩
  | .fcmp p f => some ⟨0x08, 0x08, p, f.bits⟩
  | .fclass p f => some ⟨0x08, 0x09, p, f.bits⟩
  | .fdiv p f => some ⟨0x08, 0x0A, p, f.bits⟩
  | .fsqrt p f => some ⟨0x08, 0x0B, p, f.bits⟩
  | .frcp p f => some ⟨0x08, 0x0C, p, f.bits⟩
  | .frsq p f => some ⟨0x08, 0x0D, p, f.bits⟩
  | .fexp2 p f => some ⟨0x08, 0x0E, p, f.bits⟩
  | .flog2 p f => some ⟨0x08, 0x0F, p, f.bits⟩
  | .fsin p f => some ⟨0x08, 0x10, p, f.bits⟩
  | .fcos p f => some ⟨0x08, 0x11, p, f.bits⟩
  | .frint p f => some ⟨0x08, 0x12, p, f.bits⟩
  | .fscale p f => some ⟨0x08, 0x13, p, f.bits⟩
  | .fgetexp p f => some ⟨0x08, 0x14, p, f.bits⟩
  | .fdot2 p f => some ⟨0x08, 0x15, p, f.bits⟩
  | .fcvt p f => some ⟨0x09, 0x00, p, f.bits⟩
  | .ftoi p f => some ⟨0x09, 0x01, p, f.bits⟩
  | .itof p f => some ⟨0x09, 0x02, p, f.bits⟩
  | .pack8 p f => some ⟨0x09, 0x03, p, f.bits⟩
  | .unpk8 p f => some ⟨0x09, 0x04, p, f.bits⟩
  | .qnt p f => some ⟨0x09, 0x05, p, f.bits⟩
  | .deq p f => some ⟨0x09, 0x06, p, f.bits⟩
  | .bcast p f => some ⟨0x0A, 0x00, p, f.bits⟩
  | .shfl p f => some ⟨0x0A, 0x01, p, f.bits⟩
  | .shup p f => some ⟨0x0A, 0x02, p, f.bits⟩
  | .shdn p f => some ⟨0x0A, 0x03, p, f.bits⟩
  | .ballot p f => some ⟨0x0A, 0x04, p, f.bits⟩
  | .redux p f => some ⟨0x0A, 0x05, p, f.bits⟩
  | .scan p f => some ⟨0x0A, 0x06, p, f.bits⟩
  | .elect p f => some ⟨0x0A, 0x07, p, f.bits⟩
  | .lget p f => some ⟨0x0A, 0x08, p, f.bits⟩
  | .lput p f => some ⟨0x0A, 0x09, p, f.bits⟩
  | .ld p f => some ⟨0x10, 0x00, p, f.bits⟩
  | .lds p f => some ⟨0x10, 0x01, p, f.bits⟩
  | .ldk p f => some ⟨0x10, 0x02, p, f.bits⟩
  | .st p f => some ⟨0x11, 0x00, p, f.bits⟩
  | .sts p f => some ⟨0x11, 0x01, p, f.bits⟩
  | .stk p f => some ⟨0x11, 0x02, p, f.bits⟩
  | .zst p f => some ⟨0x11, 0x03, p, f.bits⟩
  | .tld p f => some ⟨0x12, 0x00, p, f.bits⟩
  | .tst p f => some ⟨0x12, 0x01, p, f.bits⟩
  | .tlds p f => some ⟨0x12, 0x02, p, f.bits⟩
  | .tsts p f => some ⟨0x12, 0x03, p, f.bits⟩
  | .atom p f => some ⟨0x13, 0x00, p, f.bits⟩
  | .cas p f => some ⟨0x13, 0x01, p, f.bits⟩
  | .casgt p f => some ⟨0x13, 0x02, p, f.bits⟩
  | .casv p f => some ⟨0x13, 0x03, p, f.bits⟩
  | .caspt p f => some ⟨0x13, 0x04, p, f.bits⟩
  | .red p f => some ⟨0x13, 0x05, p, f.bits⟩
  | .rflush p f => some ⟨0x13, 0x06, p, f.bits⟩
  | .fence p f => some ⟨0x14, 0x00, p, f.bits⟩
  | .cinv p f => some ⟨0x14, 0x01, p, f.bits⟩
  | .cflu p f => some ⟨0x14, 0x02, p, f.bits⟩
  | .pref p f => some ⟨0x14, 0x03, p, f.bits⟩
  | .binit p f => some ⟨0x15, 0x00, p, f.bits⟩
  | .bexpect p f => some ⟨0x15, 0x01, p, f.bits⟩
  | .barrive p f => some ⟨0x15, 0x02, p, f.bits⟩
  | .bwait p f => some ⟨0x15, 0x03, p, f.bits⟩
  | .btest p f => some ⟨0x15, 0x04, p, f.bits⟩
  | .cpy p f => some ⟨0x16, 0x00, p, f.bits⟩
  | .cpyt p f => some ⟨0x16, 0x01, p, f.bits⟩
  | .cpyc p f => some ⟨0x16, 0x02, p, f.bits⟩
  | .cpys p f => some ⟨0x16, 0x03, p, f.bits⟩
  | .stash p f => some ⟨0x17, 0x00, p, f.bits⟩
  | .restore p f => some ⟨0x17, 0x01, p, f.bits⟩
  | .collar p f => some ⟨0x18, 0x00, p, f.bits⟩
  | .collrs p f => some ⟨0x18, 0x01, p, f.bits⟩
  | .collag p f => some ⟨0x18, 0x02, p, f.bits⟩
  | .collupd p f => some ⟨0x18, 0x03, p, f.bits⟩
  | .collcmt p f => some ⟨0x18, 0x04, p, f.bits⟩
  | .walloc p f => some ⟨0x19, 0x00, p, f.bits⟩
  | .wsend p f => some ⟨0x19, 0x01, p, f.bits⟩
  | .launch p f => some ⟨0x19, 0x02, p, f.bits⟩
  | .mma p f => some ⟨0x20, 0x00, p, f.bits⟩
  | .mmasp p f => some ⟨0x20, 0x01, p, f.bits⟩
  | .spush p f => some ⟨0x20, 0x02, p, f.bits⟩
  | .mqstat p f => some ⟨0x20, 0x03, p, f.bits⟩
  | .mdrop p f => some ⟨0x20, 0x04, p, f.bits⟩
  | .xdec p f => some ⟨0x21, 0x00, p, f.bits⟩
  | .xenc p f => some ⟨0x21, 0x01, p, f.bits⟩
  | .xsparse p f => some ⟨0x21, 0x02, p, f.bits⟩
  | .xmatch p f => some ⟨0x21, 0x03, p, f.bits⟩
  | .xsort p f => some ⟨0x21, 0x04, p, f.bits⟩
  | .xperm p f => some ⟨0x21, 0x05, p, f.bits⟩
  | .xtrn p f => some ⟨0x21, 0x06, p, f.bits⟩
  | .topen p f => some ⟨0x28, 0x00, p, f.bits⟩
  | .trec p f => some ⟨0x28, 0x01, p, f.bits⟩
  | .tpop p f => some ⟨0x28, 0x02, p, f.bits⟩
  | .tmark p f => some ⟨0x28, 0x03, p, f.bits⟩
  | .tend p f => some ⟨0x28, 0x04, p, f.bits⟩
  | .tstat p f => some ⟨0x28, 0x05, p, f.bits⟩
  | .tclose p f => some ⟨0x28, 0x06, p, f.bits⟩
  | .rcov p f => some ⟨0x29, 0x00, p, f.bits⟩
  | .esmp p f => some ⟨0x29, 0x01, p, f.bits⟩
  | .tex p f => some ⟨0x2A, 0x00, p, f.bits⟩
  | .texl p f => some ⟨0x2A, 0x01, p, f.bits⟩
  | .texadj p f => some ⟨0x2A, 0x02, p, f.bits⟩
  | .trace p f => some ⟨0x2B, 0x00, p, f.bits⟩
  | .tresume p f => some ⟨0x2B, 0x01, p, f.bits⟩
  | .tabort p f => some ⟨0x2B, 0x02, p, f.bits⟩
  | .hitadj p f => some ⟨0x2B, 0x03, p, f.bits⟩
  | .rcq p f => some ⟨0x2C, 0x00, p, f.bits⟩
  | .rcsync p f => some ⟨0x2C, 0x01, p, f.bits⟩
  | .rcstat p f => some ⟨0x2C, 0x02, p, f.bits⟩
  | .hexitWrite p f => some ⟨0x06, 0x01, p, f.bits⟩
  | .ptmaskWrite p f => some ⟨0x06, 0x01, p, f.bits⟩
  | .tileLockGrant _ => none
  | .engineWriteLanding _ _ _ => none
  | .flagClear _ _ => none
  | .streamBeatAccept _ _ _ _ => none
  | .collectiveCompletion _ _ _ => none
  | .batchTimeout _ _ => none
  | .mmaPop _ => none
  | .mmaComplete _ => none
  | .tapeSpill _ => none
  | .tapeFill _ => none
  | .syncPoint _ => none
  | .temperStep _ => none
  | .versionPublish _ => none
  | .handlerOverrun _ => none
  | .laneWaitResume _ => none
  | .groupStallWake _ => none
  | .fusion _ => none
  | .rotationRule _ => none
  | .starvationGuard _ => none
  | .yieldRelease _ => none
  | .arbitrationAgeGrant _ => none
  | .groupRetirement _ => none
  | .teamRetirement _ => none
  | .anvilStage _ _ => none
  | .epochClose _ => none
  | .uPartialApply _ _ => none
  | .lqtailWrite _ _ => none
  | .launchRecordTake _ => none
  | .gridStart _ => none
  | .teamPlacement _ _ _ => none
  | .preEmptionWithdraw _ => none
  | .eviction _ => none
  | .teamRestore _ _ => none
  | .gridCompletion _ => none
  | .invalidationRequest _ _ => none
  | .invalidationComplete _ => none
  | .fqheadWrite _ _ => none
  | .fqctlRetry _ => none
  | .llcctlUnpin => none
  | .pinwWrite _ => none
  | .cacheLoad _ => none
  | .cacheSave _ => none
  | .switch _ => none
  | .switchComplete _ => none
  | .contextResume _ => none
  | .kill _ => none
  | .snapshot _ => none
  | .arm _ _ _ => none
  | .stopReached _ => none
  | .disarm _ => none
  | .debugResume _ => none
  | .debugRead _ _ _ => none
  | .debugWrite _ _ _ => none
  | .debugForceWrite _ _ _ => none
  | .traceCaptureOn _ => none
  | .traceCaptureOff _ => none
  | .samplePacket _ _ _ => none
  | .hostWrite _ _ => none
  | .hostRead _ _ _ => none
  | .remoteAccessArrival _ => none
  | .remoteReply _ _ => none
  | .remoteRequestLost _ => none
  | .portStateChange _ _ => none
  | .leaseRevoke _ => none
  | .leaseNotice _ => none
  | .leaseAck _ => none
  | .leaseDeadline _ => none
  | .lenderReclaim _ => none
  | .featenWrite _ => none
  | .packageReset => none
  | .mailboxWrite => none
  | .mailboxWriteDone => none
  | .mailboxCommit => none
  | .attcmdGo _ => none
  | .attestationReportDone _ => none
  | .reservoirTick _ _ => none
  | .scrub _ => none
  | .registerWrite _ _ => none
  | .softError _ => none
  | .writeBufferDrain _ => none
  | .barSizeSelect _ => none

def Parts.word (p : Parts) : W64 := p.major ++ p.sub ++ p.pred.bits ++ p.body

/-- The word of an instruction. -/
def encode (i : Instr) : Option W64 := i.parts.map Parts.word

end Sys2Proof
end

