-- ==== Sys2Proof/Machine/Flags.lean ====
section
/-! DEFINITION. Flag computations: the FPL word of a lane (R206 to R209), carries and comparisons of integers (R262, R264), and
the completion flags that SF names (R130). -/

namespace Sys2Proof.Machine

/-! ## FPL -/

/-- The bits of FPL that hold a value (R206). -/
def fplMask : W32 := 0x3F1F
/-- The environment an operation reads from FPL (R207), with RMO as override (R208). -/
def fpEnv (fpl : W32) (rmo : Rmo) : FpEnv :=
  { rm := match rmo with
      | .lane => Rm.ofCode (fpl.toNat % 4)
      | .rne => .rne
      | .rz => .rz
      | .ru => .ru
      | .rd => .rd
    ftz := fpl.getLsbD 2, daz := fpl.getLsbD 3, nanp := fpl.getLsbD 4 }
/-- The environment of a CVT instruction, which rounds with RNE at RMO 000 (R208). -/
def cvtEnv (fpl : W32) (rmo : Rmo) : FpEnv := fpEnv fpl (if rmo == .lane then .rne else rmo)
/-- Sticky flags set in a lane; the hardware only ever sets them (R206). -/
def Lane.raise (x : Lane) (fl : W32) : Lane := { x with fpl := x.fpl ||| fl }

/-! ## Integers of w bits -/

/-- ADDC: the sum and the carry out (R262). -/
def addCarry (w a b cin : Nat) : Nat × Bool := ((a + b + cin) % 2 ^ w, 2 ^ w ≤ a + b + cin)
/-- SUBB: the difference and the borrow out (R262). -/
def subBorrow (w a b cin : Nat) : Nat × Bool := (wrap w ((a : Int) - b - cin), a < b + cin)

/-- The conditions of CMP and CMPI by their codes 0 to 9 (R264). -/
def cmpHolds (w code a b : Nat) : Bool :=
  match code with
  | 0 => a == b
  | 1 => a != b
  | 2 => sgn w a < sgn w b
  | 3 => sgn w a ≤ sgn w b
  | 4 => sgn w b < sgn w a
  | 5 => sgn w b ≤ sgn w a
  | 6 => a < b
  | 7 => a ≤ b
  | 8 => b < a
  | _ => b ≤ a

/-- SAT of an exact integer (R261): clamped for .i and .n types, otherwise modulo 2^w. -/
def satWrap (w : Nat) (sat signed : Bool) (x : Int) : Nat :=
  if sat then
    if signed then wrap w (max (-(2 ^ (w - 1) : Nat)) (min ((2 ^ (w - 1) : Nat) - 1) x))
    else wrap w (max 0 (min ((2 ^ w : Nat) - 1) x))
  else wrap w x

/-! ## Completion flags -/

/-- The flag that SF names in a block: none, a flag, or a code that the header sets to none (R130). -/
def sfFlag (hdr : W64) (sf : Sf) : Option (Option Nat) :=
  match decodeHeader hdr with
  | none => if sf == .none then some none else none
  | some h =>
    match sf with
    | .none => some none
    | .a => h.setA.map fun i => some i.val
    | .b => h.setB.map fun i => some i.val

/-- A count raised at issue, to at most 255 (R130). -/
def Grp.flagUp (g : Grp) (f : Nat) : Grp := g.setFlag f (g.flag f + 1)
/-- A count lowered at completion. -/
def Grp.flagDown (g : Grp) (f : Nat) : Grp := g.setFlag f (g.flag f - 1)
/-- Every flag that a mask names is clear (R132). -/
def Grp.flagsOff (g : Grp) (mask : BitVec 12) : Bool := (List.range 12).all fun i => !mask.getLsbD i || g.flag i == 0

end Sys2Proof.Machine
end

