-- ==== Sys2Proof/Machine/Operands.lean ====
section
/-! DEFINITION. Operands: what a specifier reads in a lane under a type, the window and y checks of step 7 (R49, R53, R240), and
the writes of v, k, s and m destinations with the shift of y (R53, R54, R204). -/

namespace Sys2Proof

/-- The width of a type's per-lane value (R204, R260). -/
def Ty.w (t : Ty) : Nat := if t.is64 then 64 else 32
/-- The per-lane registers a value takes (R204). -/
def Ty.regs (t : Ty) : Nat := if t.is64 then 2 else 1
/-- A constant as an integer (R237). -/
def Const.int : Const → Int | .zero => 0 | .one => 1 | .negOne => -1 | .two => 2 | .fourHalf => 4
/-- The index of a register specifier of a class. -/
def Opnd.sIdx : Opnd → Nat | .s i => i.val | _ => 0
def Opnd.mIdx : Opnd → Nat | .m i => i.val | _ => 0
def Opnd.aIdx : Opnd → Nat | .a i => i.val | _ => 0
def Opnd.zIdx : Opnd → Nat | .z i => i.val | _ => 0
def Opnd.vIdx : Opnd → Nat | .v i => i.val | _ => 0

end Sys2Proof

namespace Sys2Proof.Machine

/-- The value of an operand, below 2^32 or 2^64, and whether a word it reads is poisoned (R417). -/
structure Val where
  n : Nat := 0
  poi : Bool := false
deriving DecidableEq, Repr, Inhabited

/-- A constant as an encoding of a format (R204). -/
def constFp (f : Fmt) : Const → Nat
  | .zero => 0
  | .one => f.bias.toNat * 2 ^ f.fb
  | .negOne => f.signed true (f.bias.toNat * 2 ^ f.fb)
  | .two => (f.bias.toNat + 1) * 2 ^ f.fb
  | .fourHalf => (f.bias.toNat - 1) * 2 ^ f.fb
/-- A constant under a type; under a packed type it stands in every element (R204). -/
def constBits (t : Ty) (c : Const) : Nat :=
  if t.isInt then wrap t.w c.int
  else if t == .ai8 then wrap 8 c.int * 0x01010101
  else if t == .ai4 then wrap 4 c.int * 0x11111111
  else if t.is16x2 then constFp (Ty.fmt t) c * 0x00010001
  else if t.isFp8 then constFp (Ty.fmt t) c * 0x01010101
  else constFp (Ty.fmt t) c

/-! ## Reading -/

/-- A per-lane v register by its window index (R49). -/
def Grp.vReg (g : Grp) (l i : Nat) : Reg := bankGet (g.lane l).v {} (g.wb + i)
def Grp.kReg (g : Grp) (l i : Nat) : Reg := bankGet (g.lane l).k {} i
def Grp.yReg (g : Grp) (l i : Nat) : YReg := if i = 0 then (g.lane l).y0 else (g.lane l).y1
/-- An s register; in a handler s48 to s63 are the handler bank, which is never poisoned (R414, R417). -/
def Grp.sVal (g : Grp) (i : Nat) : Val :=
  if g.iss.handler && 48 ≤ i then ⟨(bankGet g.hbank 0 (i - 48)).toNat, false⟩
  else ⟨(g.sreg i).val.toNat, (g.sreg i).poi⟩
/-- An m register; m0 reads as all ones and is never poisoned (R54, R251). -/
def Grp.mBits (g : Grp) (i : Nat) : Mask := if i = 0 then BitVec.allOnes 64 else (bankGet g.m {} i).bits
def Grp.mPoi (g : Grp) (i : Nat) : Mask := if i = 0 then 0 else (bankGet g.m {} i).poi

/-- The identity operands of R184, as 32-bit values. -/
def State.special (s : State) (l : Nat) : Special → Nat
  | .lane => l
  | .grp => s.g.idx
  | .tlane => s.g.idx * s.gr.lrec.gw0 + s.g.base + l
  | .team => s.t.id.toNat
  | .gw => s.g.gw
  | .pc => s.g.iss.pc.toNat % 2 ^ 32
  | .role => if s.g.idx < s.gr.lrec.p then 0 else 1
  | .nteam => s.gr.lrec.nteam.toNat

/-- A pair of registers as one value, low word first (R204). -/
def pairVal (lo hi : Reg) : Val := ⟨lo.val.toNat + 2 ^ 32 * hi.val.toNat, lo.poi || hi.poi⟩

/-- What an operand reads in lane l under a type (R204, R237). -/
def State.rd (s : State) (l : Nat) (t : Ty) (o : Opnd) : Val :=
  let g := s.g
  match o with
  | .v i => if t.is64 then pairVal (g.vReg l i.val) (g.vReg l (i.val + 1)) else ⟨(g.vReg l i.val).val.toNat, (g.vReg l i.val).poi⟩
  | .k i => if t.is64 then pairVal (g.kReg l i.val) (g.kReg l (i.val + 1)) else ⟨(g.kReg l i.val).val.toNat, (g.kReg l i.val).poi⟩
  | .y i =>
    let y0 := (g.lane l).y0
    let y1 := (g.lane l).y1
    if t.is64 then ⟨y1.val.toNat + 2 ^ 32 * y0.val.toNat, y1.poi || y0.poi⟩
    else ⟨(g.yReg l i.val).val.toNat, (g.yReg l i.val).poi⟩
  | .s i => if t.is64 then g.sVal i.val else ⟨(g.sVal i.val).n % 2 ^ 32, (g.sVal i.val).poi⟩
  | .m i => ⟨(g.mBits i.val).toNat % 2 ^ t.w, g.mPoi i.val != 0⟩
  | .a _ => {}
  | .z i => ⟨(g.zreg i.val).toNat % 2 ^ t.w, false⟩
  | .const c => ⟨constBits t c, false⟩
  | .spec x => ⟨s.special l x % 2 ^ 32, false⟩

/-- Step 7 of R240 for an operand of n registers in lane l: the window (R49), a valid y (R53), a valid a register (R21). -/
def Grp.opOk (g : Grp) (l n : Nat) : Opnd → Bool
  | .v i => i.val + n ≤ g.win
  | .y i => if n = 2 then (g.yReg l 0).valid && (g.yReg l 1).valid else (g.yReg l i.val).valid
  | .a i => (g.areg i.val).valid
  | _ => true

/-! ## Writing -/

/-- The shift of y by a 32-bit result (R53). -/
def Lane.pushY (x : Lane) (r : Reg) : Lane := { x with y1 := x.y0, y0 := { val := r.val, poi := r.poi, valid := true } }
/-- The registers of a w-bit result, low word first. -/
def Val.regs (v : Val) (is64 : Bool) : List Reg :=
  if is64 then [⟨BitVec.ofNat 32 v.n, v.poi⟩, ⟨BitVec.ofNat 32 (v.n / 2 ^ 32), v.poi⟩] else [⟨BitVec.ofNat 32 v.n, v.poi⟩]

/-- Registers written from a v or k operand on in a lane whose window base is wb; any other operand is no destination. -/
def Lane.putRegs (x : Lane) (wb : Nat) (o : Opnd) (rs : List Reg) : Lane :=
  match o with
  | .v i => { x with v := (List.range rs.length).foldl (fun v j => bankPut {} v (wb + i.val + j) (rs.getD j {})) x.v }
  | .k i => { x with k := (List.range rs.length).foldl (fun k j => bankPut {} k (i.val + j) (rs.getD j {})) x.k }
  | _ => x
/-- A vector-datapath result: the register or pair, with y shifted for each word (R53). -/
def Lane.putVec (x : Lane) (wb : Nat) (o : Opnd) (is64 : Bool) (v : Val) : Lane :=
  (v.regs is64).foldl Lane.pushY (x.putRegs wb o (v.regs is64))

/-- An s register written; the handler bank takes no poison (R414, R417). -/
def Grp.putS (g : Grp) (i : Nat) (v : Val) : Grp :=
  if g.iss.handler && 48 ≤ i then { g with hbank := bankPut 0 g.hbank (i - 48) (BitVec.ofNat 64 v.n) }
  else g.setSreg i ⟨BitVec.ofNat 64 v.n, v.poi⟩
/-- A w-bit result as s takes it: .i32 is sign-extended, every other 32-bit type zero-extended (R204). -/
def sExtend (t : Ty) (n : Nat) : Nat := if t == .i32 then wrap 64 (sgn 32 n) else n % 2 ^ t.w

/-- The bits of an m register at some lanes written; m0 ignores it and bits at or above the width are clear (R54). -/
def Grp.putM (g : Grp) (i : Nat) (lanes bits poi : Mask) : Grp :=
  if i = 0 then g
  else
    let r := bankGet g.m {} i
    let w := widthMask g.gw
    { g with m := bankPut {} g.m i { bits := ((r.bits &&& ~~~lanes) ||| (bits &&& lanes)) &&& w,
                                     poi := ((r.poi &&& ~~~lanes) ||| (poi &&& lanes)) &&& w } }

end Sys2Proof.Machine
end

