-- ==== Sys2Proof/Machine/Ops.lean ====
section
/-! DEFINITION. The operations every meaning is built from: how an issue performs and retires (R152, R187, R240), precise traps,
the entry of a handler and the return from it (R409 to R416), the poison table (R418 to R420), the end of a grid (R423), group
stalls (R114), fault records of an issue (R40) and the fetch of a word (R410). -/

namespace Sys2Proof.Machine

abbrev Out := Host.Outcome State Fault Refusal
/-- What a write of a register that comes as an event of its own leaves: in recovery nothing answers it (R452), and where it meets a line
whose lock keeps it out it waits whole (R91). -/
def State.regEvent (s t : State) : Out := .next (if s.pkg.inRecovery then s else s.unmet t)

/-! ## Causes (R408) -/

def cIllInstr : Nat := 0x0001
def cIllOpnd : Nat := 0x0002
def cIllHdr : Nat := 0x0003
def cAlign : Nat := 0x0004
def cTrans : Nat := 0x0005
def cPoison : Nat := 0x0006
def cTableFull : Nat := 0x0007
def cSoft : Nat := 0x0008
def cSpillOvf : Nat := 0x0009
def cTapeUnder : Nat := 0x000A
def cTapeOver : Nat := 0x000B
def cGang : Nat := 0x000C
def cGuard : Nat := 0x0010
def cOverrun : Nat := 0x0011
def cDouble : Nat := 0x0100
def cHandlerOver : Nat := 0x0101
def cMachine : Nat := 0x0102
def cRedSpill : Nat := 0x0103
def cWorkOver : Nat := 0x0104
def cKilled : Nat := 0x0105
def cHexit : Nat := 0x0106

/-- Why a lane fails: the cause, what TINFO holds (R413; for Poison Consumed the operand's specifier), whether it is one of
steps 1 to 7 of R240, whether it is imprecise, and whether the saved PC is the next word (R258). -/
structure Fail where
  cause : Nat
  info : Nat := 0
  early : Bool := false
  impr : Bool := false
  skip : Bool := false
deriving DecidableEq, Repr, Inhabited

def Fail.illOpnd : Fail := { cause := cIllOpnd, early := true }
def Fail.illInstr : Fail := { cause := cIllInstr, early := true }
def Fail.illHdr : Fail := { cause := cIllHdr, early := true }
/-- An Illegal Operand check of the instruction itself, after step 7. -/
def Fail.opndLate : Fail := { cause := cIllOpnd }
/-- Poison consumed from an operand (R413, R421). -/
def Fail.poison (o : Opnd) : Fail := { cause := cPoison, info := o.byte.toNat }
/-- The lanes of a mask failing alike. -/
def failAll (g : Grp) (m : Mask) (f : Fail) : List (Nat × Fail) := (g.lanesOf m).map fun l => (l, f)
def failMask (fs : List (Nat × Fail)) : Mask := maskOf (fs.map (·.1))

/-! ## The poison table -/

/-- The entry numbers of the group's table (R418). -/
def State.ptab (s : State) : List (Option PtEntry) := s.t.ptabs.get [] s.g.idx
def State.ptEntry (s : State) (e : Nat) : Option PtEntry := bankGet s.ptab none e
def State.setPtab (s : State) (t : List (Option PtEntry)) : State := s.modT fun x => { x with ptabs := x.ptabs.set s.g.idx t }
/-- The lanes of a group, as lanes of its launch group. -/
def Grp.launchMask (g : Grp) : Mask := widthMask g.gw <<< g.base
/-- How far the window of a group has moved up since an entry was made, and the name of its first register there (R254). -/
def PtEntry.slid (e : PtEntry) (g : Grp) : Int := (e.slides.filter fun x => x.1 &&& g.launchMask != 0).foldl (fun n x => n + x.2) 0
def PtEntry.name (e : PtEntry) (g : Grp) : Int := e.reg - e.slid g
/-- The lanes of an entry, as lanes of the group in focus. -/
def Grp.ptMask (g : Grp) (e : PtEntry) : Mask := (e.mask >>> g.base) &&& widthMask g.gw
/-- Bits of lanes cleared in every entry that `p` holds of; an entry left empty is free (R419). -/
def State.ptClear (s : State) (p : PtEntry → Bool) (lanes : Mask) : State :=
  s.setPtab (s.ptab.map fun e =>
    match e with
    | none => none
    | some e => if p e then (if e.mask &&& ~~~(lanes <<< s.g.base) == 0 then none else some { e with mask := e.mask &&& ~~~(lanes <<< s.g.base) }) else some e)
/-- The active lanes of an issue leave the entries that its word made (R419). -/
def State.ptIssued (s : State) (act : Mask) : State :=
  if s.ptab.any (·.any fun e => e.pc == s.g.iss.pc) then s.ptClear (fun e => e.pc == s.g.iss.pc) act else s
/-- The lowest free entry number. -/
def State.ptFree (s : State) : Option Nat := (List.range 8).find? fun e => (s.ptEntry e).isNone
/-- An entry of the instruction in progress (R418): its first destination and register count, the lanes, and the SEQ of its first
record, all ones for none. -/
def State.ptMake (s : State) (o : Opnd) (n : Nat) (mask : Mask) (seq : Option W32) : State :=
  match s.ptFree with
  | none => s
  | some e =>
    let x : PtEntry := { isV := o.isV, reg := o.byte.toNat, n, mask := mask <<< s.g.base, seq := seq.getD 0xFFFFFFFF#32, pc := s.g.iss.pc, bb := s.g.iss.bb }
    s.setPtab (bankPut none s.ptab e (some x))

/-! ## The end of a grid -/

/-- The order in which an epoch's partials are applied (R143). -/
def Partial.before (a b : Partial) : Bool :=
  let ka := [a.team.toNat, a.k, a.pa, a.op, a.ty.code]
  let kb := [b.team.toNat, b.k, b.pa, b.op, b.ty.code]
  decide (ka ≤ kb)
/-- The partials of the open epoch that have reached staging or the spill region, in that order. -/
def Grid.openStaged (g : Grid) : List Partial := sortBy Partial.before (g.staged.filter fun p => p.epoch == g.epoch)
/-- A partial applied at its home, every U copy of its line first (R143, R151). -/
def State.applyPartial (s : State) (gr : Grid) (p : Partial) : State :=
  ((s.meet p.pa (redBytes p.ty) true).gather (p.pa / 128)).applyWord gr.ctx (Rm.ofCode gr.redRm) gr.lrec.gid p.team 0 p.pa p.cp p.op p.ty p.value.toNat

/-- The partials of the open epoch that were applied before the grid ended: none, some or all, in their order (R148); how many is
a free value, and one whose line a tile holds ends them. -/
def State.abandonEpoch (s : State) (k : Nat) : State :=
  let gr := s.gridAt k
  let n := (Config.freeByte (s.freeKey 0)).toNat % (gr.staged.length + 1)
  let ps := (gr.openStaged.take n).takeWhile fun p => !s.blocked p.pa (redBytes p.ty) true
  (ps.foldl (fun s p => s.applyPartial gr p) s).bump

/-- Energy reserved against a cluster's account given back (R462). -/
def State.unreserve (s : State) (cluster n : Nat) : State :=
  s.modPkg fun p => { p with reserved := bankPut 0 p.reserved cluster (bankGet p.reserved 0 cluster - n) }
/-- What a team's allocation leaves in the bytes of its core's scratchpad that it held (R465). -/
def State.leaveScr (s : State) (t : Team) (ctx : Nat) : State :=
  let co := s.coreAt t.core
  let old := ((co.leftScr.find? fun x => x.1 == ctx).map (·.2)).getD []
  let new := (old.filter fun c => c.1 < t.base) ++ (t.scr.filter fun c => c.1 < t.size).map (fun c => (t.base + c.1, c.2))
    ++ old.filter fun c => t.base + t.size ≤ c.1
  s.setCoreAt t.core { co with leftScr := (ctx, new) :: co.leftScr.filter fun x => x.1 != ctx }

/-- The end of a grid with a cause (R423): no group of it issues again, its epoch, samples and batches are discarded, and its
teams leave their cores. GRID_COMPLETION then writes the completion word; until then its commands may still land. -/
def State.endGrid (s : State) (k : Nat) (cause info : Nat) : State :=
  let gr := s.gridAt k
  if gr.phase == .ended || gr.phase == .done then s
  else
    let s := s.abandonEpoch k
    let own := s.teams.filter fun e => e.2.grid == k
    let s := s.unlockLines (s.groups.flatMap fun e =>
      if own.any (fun t => t.1 == e.2.team) then (match e.2.stall with | .tile _ got _ _ _ => got | _ => []) else [])
    let s := { s with
      teams := s.teams.update fun _ t =>
        if t.grid == k then { t with phase := .retired, size := 0, reserved := 0, contribs := [], syncBars := [], flushBars := [], held := [], preReq := false, letGo := false, landed := [] }
        else t
      groups := s.groups.update fun _ g =>
        if own.any (fun e => e.1 == g.team) then { g with phase := .retired, handler := none, stall := .none, mmaPend := none } else g }
    let s := own.foldl (fun s e =>
      let s := s.unreserve (e.2.core / 96) e.2.reserved
      if e.2.size ≠ 0 then s.leaveScr e.2 gr.ctx else s) s
    let c := s.ctxAt gr.ctx
    let mine (g : Nat) : Bool := own.any fun e => e.1 == (s.grpAt g).team
    let s := s.setCtxAt gr.ctx { c with rcQueue := c.rcQueue.filter fun q => q.grid != k
                                        stopGrp := c.stopGrp.filter fun g => !mine g, heldStops := c.heldStops.filter fun x => !mine x.1 }
    s.setGridAt k { gr with phase := .ended, cause := BitVec.ofNat 16 cause, info := BitVec.ofNat 64 info, flight := [], staged := [], samples := [],
                            nodes := gr.nodes.map fun n => { n with gathered := [] } }

/-- A fatal cause of the group in focus. -/
def State.fatal (s : State) (cause info : Nat) : State := s.endGrid s.foc.grid cause info
def State.doubleTrap (s : State) : State := s.fatal cDouble 0

/-! ## Traps -/

/-- TINFO of a trap (R413): for Poison Consumed the operand and the highest valid entry whose lanes meet T. -/
def State.trapInfo (s : State) (T : Mask) (f : Fail) : Nat :=
  if f.cause == cPoison then
    let e := (List.range 8).foldl (fun r i =>
      match s.ptEntry i with
      | some x => if s.g.ptMask x &&& T != 0 then i else r
      | none => r) 0xFF
    f.info % 256 + 256 * e
  else f.info

/-- TAKING A TRAP (R409, R411, R412): the lanes T become Trapped, the trap state takes the cause, the lanes, the word and the
retired count at it, and the handler is to start at TRAPV with a fresh budget; without a handler the grid ends with the cause. -/
def State.trapEntry (s : State) (T : Mask) (f : Fail) (tpc tword tret : W64) : State :=
  let g := s.g.modLanes (s.g.lanesOf T) fun _ x => { x with st := .trapped }
  let s := s.setG g
  if s.gr.lrec.trapv == 0 then s.fatal f.cause (s.trapInfo T f)
  else
    s.setG { g with
      ptsel := 0
      handler := some { pc := s.gr.lrec.trapv, cause := f.cause, impr := f.impr, tmask := T, tpc, tword,
                        tinfo := BitVec.ofNat 64 (s.trapInfo T f), tretired := tret } }

/-- THE RETURN FROM A HANDLER (R258, R416): each lane of TMASK that has not exited runs again at its PC, and a lane whose PC or
block base the handler wrote is judged by R230 and loses the y entries that the handler did not write after that. -/
def State.trapReturn (s : State) : State :=
  match s.g.handler with
  | none => s
  | some h =>
    let g := s.g.modLanes s.g.laneIdx fun l x =>
      let x := if h.tmask.getLsbD l && x.st == .trapped then { x with st := .running, rot := 0 } else x
      if h.patched.getLsbD l then
        { x with reach := .patched
                 y0 := if h.y0set.getLsbD l then x.y0 else { x.y0 with valid := false }
                 y1 := if h.y1set.getLsbD l then x.y1 else { x.y1 with valid := false } }
      else x
    s.setG { g with handler := none }

/-! ## How an issue performs -/

/-- What a meaning does at its issue: `hold` for a bounded wait with no effect, a group stall (R114), the end of the grid, or the
effect with the lanes that fail. -/
inductive Did
  | hold
  | stall (s : State) (st : Stall)
  | fatal (s : State) (cause info : Nat)
  | done (s : State) (fails : List (Nat × Fail))

/-- The predicate's bits and its poisoned lanes (R231, R251). -/
def Grp.predBits (g : Grp) (p : Pred) : Mask := if p.neg then ~~~(g.mBits p.m.val) else g.mBits p.m.val
def Grp.predPoi (g : Grp) (p : Pred) : Mask := g.mPoi p.m.val

/-- Every lane that has not exited is in the issue set and active (R254). -/
def Grp.converged (g : Grp) (act : Mask) : Bool := g.alive &&& ~~~act == 0

/-- Every lane of the issue set moved to the next word (R187). -/
def Grp.advance (g : Grp) : Grp := g.modLanes (g.lanesOf g.iss.set) fun _ x => { x with pc := g.iss.pc + 8 }
/-- Lanes put back at the word of the issue. -/
def Grp.keepPc (g : Grp) (m : Mask) : Grp := g.modLanes (g.lanesOf m) fun _ x => { x with pc := g.iss.pc }
/-- The rotation counts after an issue (R189). -/
def Grp.countRot (g : Grp) : Grp :=
  g.modLanes g.laneIdx fun l x => if x.st == .running then { x with rot := if g.iss.set.getLsbD l then 0 else x.rot + 1 } else x

/-- What a replay comes to at each retired count (R437; log entry 12): with LOG set, the group's state as it stands there. -/
def State.logState (s : State) : State :=
  if s.c.dbgLogOn then s.modC fun c => { c with snaps := c.snaps ++ [s.snapOf s.ptab false] } else s

/-- The failure of the lowest failing lane, whose cause is the trap's; cause 0 traps nothing. -/
def lowestFail (fails : List (Nat × Fail)) : Option Fail := (sortBy (fun a b => a.1 ≤ b.1) (fails.filter fun f => f.2.cause ≠ 0)).head?.map (·.2)
/-- The failing lanes that keep their PC (R409): all but the trapped lanes of a TRAP (R258). -/
def keptLanes (fails : List (Nat × Fail)) : Mask := failMask (fails.filter fun f => !(f.2.skip && (lowestFail fails).any fun x => x.cause == f.2.cause))
/-- The end of an issue (R152, R189, R409): failing lanes keep the PC, the others have retired, and the lanes that fail with the
cause of the lowest failing lane trap. Cause 0 keeps a lane's PC without a trap. -/
def State.finish (s : State) (counted : Bool) (fails : List (Nat × Fail)) : State :=
  let tret := s.g.retired
  let g := (s.g.keepPc (keptLanes fails)).countRot
  let s := (s.setG { g with retired := if counted then g.retired + 1 else g.retired, stall := .none, afterStall := false, replies := [], readyFor := 0 }).bump
  let s := if counted then (s.count s.foc.ctx 1 1).logState else s
  match lowestFail fails with
  | none => s
  | some f => s.trapEntry (failMask (fails.filter fun x => x.2.cause == f.cause)) f s.g.iss.pc s.g.iss.word tret

/-- A group held at issue: the lanes stay at the word, and the stall names what it waits for (R114). -/
def State.stallAt (s : State) (st : Stall) : State :=
  let (s, o) := s.freshOrder
  let g := if s.g.iss.handler then s.g else s.g.keepPc s.g.iss.set
  s.setG { g with stall := st, stallRoom := if st == .fault then s.recordRoom else g.stallRoom, stallOrder := if g.stall == st || st == .fault && g.afterStall then g.stallOrder else o }

/-- The end of a handler instruction (R415): it counts against the budget; any failing lane is a Double Trap. One that would
retire past the budget ends the grid instead, with none of its effect (see perform). -/
def State.finishHandler (s : State) (fails : List (Nat × Fail)) : State :=
  if fails.isEmpty then
    (s.modG fun g => { g with handler := g.handler.map fun h => { h with budget := h.budget - 1 }, stall := .none, afterStall := false, replies := [] }).bump
  else s.doubleTrap

/-- The lanes of the issue set that wait at a barrier object, whose instruction has still to retire in them (R154, R188). -/
def Grp.barWaits (g : Grp) : Mask :=
  maskOf ((g.lanesOf g.iss.set).filter fun l => (g.lane l).st == .waiting && (match (g.lane l).wait with | .bwait _ _ _ _ _ => true | .arriveL _ _ _ _ _ _ => true | _ => false))
/-- Whether an issue counts in the retired count (R152): some lane of its set has retired, and no lane failed in steps 1 to 7 of
R240 (log entry 25). A GFUSE counts in its part at its issue, though its lanes go on only after the fusion (log entry 113). -/
def Grp.counts (g : Grp) (fails : List (Nat × Fail)) : Bool :=
  (g.iss.set &&& ~~~(failMask fails) &&& ~~~g.barWaits) != 0 && fails.all fun f => !f.2.early
/-- The lanes of an issue that does not count yet, whose waits have still to end, owe its count (R152). -/
def State.owe (s : State) (fails : List (Nat × Fail)) : State :=
  if s.g.barWaits != 0 && !s.g.counts fails && fails.all (fun f => !f.2.early) then
    s.modG fun g => g.modLanes (g.lanesOf g.barWaits) fun _ x => { x with owes := true }
  else s

/-- The end of an issue whose effect is done, with the lanes that failed: it counts, or is owed, as R152 says. -/
def State.endIssue (s : State) (fails : List (Nat × Fail)) : State := (s.owe fails).finish (s.g.counts fails) fails

/-- A failure that reports a guard touch or an overrun (R422). -/
def Fail.report (f : Fail) : Bool := f.cause == cGuard || f.cause == cOverrun
/-- A report comes behind a lane that failed before the effect, so that lane's cause is taken and the report stays pending (R251, R409,
R422). -/
def reportWaits (early fails : List (Nat × Fail)) : Bool :=
  fails.any (·.2.report) && (lowestFail early).isSome && (lowestFail (early ++ fails)).any fun f => !f.report
/-- The failures of an effect in the lanes that had not failed before it (R251). -/
def lateFails (early fails : List (Nat × Fail)) : List (Nat × Fail) := fails.filter fun x => !early.any fun y => y.1 == x.1
/-- The outcome of an effect in lanes: `s` is the state at issue, `early` the lanes that failed before the effect. One whose accesses
met a locked line is held (R91). -/
def State.conclude (s : State) (early : List (Nat × Fail)) : Did → Out
  | .hold => .next s
  | .stall s' st => .next (s.unmet (({ s' with accounts := s.accounts, debited := s.debited }.modT fun t => { t with ptabs := s.t.ptabs }).stallAt st))
  | .fatal s' c i => .next (s'.fatal c i)
  | .done s' fails =>
    if s'.met ≠ s.met then .next s
    else if reportWaits early fails then .next ((s.setG s.g.advance).endIssue (early ++ (lateFails early fails).map fun x => (x.1, { cause := 0 })))
    else .next (s'.endIssue (early ++ lateFails early fails))

/-- The state in which the effect of a handler's instruction acts: the handler at its next word. -/
def State.atHandler (s : State) : State := s.modG fun g => { g with handler := g.handler.map fun h => { h with pc := g.iss.pc + 8 } }
/-- The lanes of the issue set that the predicate allows (R231, R251). -/
def State.allowed (s : State) (p : Pred) : Mask := s.g.iss.set &&& s.g.predBits p
/-- The active lanes of the issue set, those whose predicate is poisoned among them (R231, R251). -/
def State.reached (s : State) (p : Pred) : Mask := s.allowed p ||| s.g.iss.set &&& s.g.predPoi p
/-! ## Energy, in units of 10^-14 J (R461) -/

/-- Energy debited to a cluster's account. -/
def State.debitAt (s : State) (k n : Nat) : State :=
  { s with accounts := bankPut 0 s.accounts k (bankGet s.accounts 0 k - n), debited := bankPut 0 s.debited k (bankGet s.debited 0 k + n) }
/-- What an issue of a word in n active lanes debits at R461's costs: a lane operation in each lane for the words of the vector datapath
with a destination of the lanes, and the bytes that LD and ST move at the L1 and LDS and STS at the scratchpad (log entry 83). -/
def issueEnergy (w : W64) (n : Nat) : Nat :=
  let major := codeAt w 58 6
  let once := (opndAt w 40).1.isS
  if major == 0x10 || major == 0x11 then
    (if once then min n 1 else n) * ((Width.ofCode (codeAt w 13 3)).elim 0 Width.bytes) * (match codeAt w 52 6 with | 0 => 100 | 1 => 50 | _ => 0)
  else if once || !([1, 2, 8, 9, 10, 0x29].contains major) then 0
  else 100 * n
/-- The debit of an issue with some active lanes to its cluster. -/
abbrev State.debitIssue (s : State) (act : Mask) : State := s.debitAt (s.foc.core / 96) (issueEnergy s.g.iss.word (s.g.lanesOf act).length)

/-- The state in which the effect of an issue acts on lanes: the issue set at the next word, the entries of the poison table that this
word made in its active lanes gone, whatever fails in them, and its energy debited (R187, R419, R461). -/
def State.atIssue (s : State) (act : Mask) : State := ((s.setG s.g.advance).ptIssued act).debitIssue act

/-- A handler instruction at its issue (R414, R415): where `h` allows it, `op` runs once with no active lane; one that would retire
past the budget ends the grid with none of its effect. -/
def State.performHandler (s : State) (h : Bool) (p : Pred) (chk : Nat → Bool) (op : State → Mask → Did) : Out :=
  if !h || p.neg || p.m.val ≠ 0 || !chk 0 then .next s.doubleTrap
  else
    match op s.atHandler 0 with
    | .hold => .next s
    | .stall s' st => .next (s.unmet ((s'.modG fun x => { x with handler := s.g.handler }).stallAt st))
    | .fatal s' c i => .next (if s.g.handler.any (·.budget == 0) then s.fatal cHandlerOver 0 else s'.fatal c i)
    | .done s' fails =>
      if s'.met ≠ s.met then .next s
      else if fails.isEmpty && s.g.handler.any (·.budget == 0) then .next (s.fatal cHandlerOver 0)
      else .next (s'.finishHandler fails)

/-- An instruction at its issue. In lanes: the predicate, step 7 of R240 as `chk`, poisoned predicates (R251), then the effect
`op` on the active lanes. A handler's instruction runs under performHandler. -/
def State.perform (s : State) (h : Bool) (p : Pred) (chk : Nat → Bool) (op : State → Mask → Did) : Out :=
  let g := s.g
  if g.iss.handler then s.performHandler h p chk op
  else
    let raw := s.allowed p
    let bad := maskOf ((g.lanesOf raw).filter fun l => !chk l)
    let pm := g.iss.set &&& g.predPoi p &&& ~~~bad
    let act := raw &&& ~~~bad &&& ~~~pm
    let early := failAll g bad .illOpnd ++ failAll g pm { cause := cPoison, info := 0x90 + p.m.val }
    if act == 0 then .next ((s.atIssue (s.reached p)).finish (g.counts early) early) else s.conclude early (op (s.atIssue (s.reached p)) act)

/-- An instruction whose group must be converged (R254): with no lane that its predicate allows, its checks still run. -/
def State.performWide (s : State) (p : Pred) (chk : Nat → Bool) (op : State → Mask → Did) : Out :=
  let g := s.g
  if !g.iss.handler && g.iss.set &&& (g.predBits p ||| g.predPoi p) == 0 then s.conclude [] (op (s.setG g.advance) 0)
  else s.perform false p chk op

/-- An instruction whose effect is on its active lanes, each from the state at issue. -/
def State.perLane (s : State) (p : Pred) (chk : Nat → Bool) (op : State → Nat → Lane → Lane) : Out :=
  s.perform false p chk fun s act => .done (s.setG (s.g.modLanes (s.g.lanesOf act) (op s))) []

/-- An instruction that its group performs once in an issue with an active lane (R248), or once in a handler. -/
def State.once (s : State) (h : Bool) (p : Pred) (chk : Nat → Bool) (op : State → Mask → Grp → Grp) : Out :=
  s.perform h p chk fun s act => .done (s.setG (op s act s.g)) []

/-- The operands of a word pass step 7 in a lane, each with its count of registers. -/
def State.opsOk (s : State) (os : List (Opnd × Nat)) (l : Nat) : Bool := os.all fun o => s.g.opOk l o.2 o.1

/-! ## Flags held up by a unit (R114, R132) -/

/-- The engine of a command: 0 for channel M, 5 for the codec. -/
def CmdKind.chan : CmdKind → Nat | .stash _ _ => 5 | .restore _ _ _ => 5 | _ => 0

/-- A flag of a mask counts an operation whose unit holds a record for want of ring room: a command, a TCLOSE whose tape has such a
transfer, or a lost write at a peer. -/
def State.flagStuck (s : State) (mask : BitVec 12) : Bool :=
  (s.t.cmds.any fun c => c.grp == s.foc.grp && s.c.holds (.engine s.foc.team c.kind.chan) && c.flag.any fun f => mask.getLsbD f.2)
    || (s.g.tape.closing.any fun f => mask.getLsbD f.2) && (s.c.holds (.tape s.foc.grp) || s.pkg.peerOut.any fun q => q.tape && q.grp == s.foc.grp && q.lost.isSome)
    || s.pkg.peerOut.any fun q => q.grp == s.foc.grp && q.lost.isSome && q.flag.any fun f => mask.getLsbD f.2
/-- A wait for some flags of the group: bounded, or a blocking point while a unit holds a record that one of them waits for (R114,
R132). -/
def State.flagWait (s : State) (mask : BitVec 12) : Did := if s.flagStuck mask then .stall s .flag else .hold
/-- A wait for a named flag that stands at 255 (R130). -/
def State.fullWait (s : State) (fl : Option Nat) : Did := s.flagWait (BitVec.ofNat 12 (2 ^ fl.getD 12))

/-! ## Fault records of an issue -/

/-- The number of the page of a VA, in units of 64 KiB: that of its 512 MiB page where one maps it (R40). -/
def State.pageOf (s : State) (va : W64) : Nat :=
  match s.walk s.foc.ctx va with
  | .ok p => if p.size == .big then va.toNat / 2 ^ 29 * 8192 else va.toNat / 65536
  | .error _ => va.toNat / 65536

/-- The fault of an access: its lanes, the lane that comes first, its VA and page, and what failed. -/
structure LaneFlt where
  mask : Mask := 0
  lane : Nat := 0
  va : W64 := 0
  page : Nat := 0
  flt : Flt := {}
deriving DecidableEq, Repr, Inhabited

/-- The faults of one page, as one record names them (R40). -/
def LaneFlt.sameRec (a b : LaneFlt) : Bool := a.page == b.page
/-- One fault for each page, ascending in the pages: the lowest lane's, with the lanes of all. -/
def groupFlts (fs : List LaneFlt) : List LaneFlt :=
  let fs := sortBy (fun a b => a.lane ≤ b.lane) fs
  let heads := fs.foldl (fun hs f => if hs.any f.sameRec then hs else hs ++ [f]) []
  sortBy (fun a b => a.page ≤ b.page) (heads.map fun h => { h with mask := (fs.filter h.sameRec).foldl (fun m f => m ||| f.mask) 0 })

/-- Records formed in order: the state, the SEQ of the first and their count (R40, R45). -/
def State.writeRecs (s : State) (rs : List FRec) : State × Option W32 × Nat :=
  rs.foldl (fun a r =>
    let x := a.1.recordAt a.1.foc.ctx a.1.foc.core r
    (x.1, (match a.2.1 with | none => some x.2 | y => y), a.2.2 + 1)) (s, none, 0)

/-- The MASK of a record that a handler's own access forms: the spec states none, so it is a free value (log entry 19). -/
def State.handlerMask (s : State) : Mask := Config.freeWord (s.freeKey 40)

/-- The records of faulting lanes of the issue in progress, one for each page (R40, R41). -/
def State.fltRecs (s : State) (acc : Acc) (width : Nat) (fs : List LaneFlt) : List FRec :=
  (groupFlts fs).map fun f => s.grpRec f.flt.kind acc width f.mask f.va f.flt.aux

/-- A Translation Fault with its records in TINFO (R413). -/
def Fail.trans (seq : Option W32) (n : Nat) : Fail := { cause := cTrans, info := (seq.getD 0).toNat + 2 ^ 32 * (n % 65536) }

/-! ## Remote reads and the fetch of a word -/

/-- The reply that holds n bytes of a physical address, if it has come (R456). -/
def Grp.replyFor (g : Grp) (pa n : Nat) : Option Reply := g.replies.find? fun r => r.pa == pa && r.n == n && r.lane.isNone

/-- Lanes that fail; a handler has none, and lane 0 stands for it. -/
def failActive (g : Grp) (act : Mask) (f : Fail) : List (Nat × Fail) := if g.iss.handler then [(0, f)] else failAll g act f

/-- A load of the group sent to the peer that holds an address, or the one already out: its handle; `fill` where the L1 is to
keep the line. -/
def State.sendLoad (s : State) (pa n : Nat) (acc : Acc) (width : Nat) (mask : Mask) (va : W64) (fill : Option (Nat × Nat) := none) : State × Nat :=
  match s.pkg.peerOut.find? fun q => q.kind == .load && q.grp == s.foc.grp && q.cmd.isNone && !q.tape && q.pa == pa && q.n == n with
  | some q => (s, q.id)
  | none => s.send { kind := .load, pa, n, grp := s.foc.grp, ctx := s.foc.ctx, fill, frec := s.grpRec kUnrouted acc width mask va (BitVec.ofNat 64 pa) }

inductive Fetched
  | word (w : W64)
  | flt (f : Flt)
  | wait (id : Nat)
deriving DecidableEq, Repr

/-- The word at a VA as an instruction fetch reads it, under the policy of its page (R64, R225, R410). -/
def State.fetch (s : State) (va : W64) (set : Mask) : State × Fetched :=
  match s.translate s.foc.core s.foc.ctx .fetch va with
  | (s, .error f) => (s, .flt f)
  | (s, .ok t) =>
    if s.isLocal t.pa then
      let s := s.touchLlc t.pa (pteCp t.pte)
      if s.hbmPoi (paLocal t.pa) 8 then (s, .flt ⟨kEcc, BitVec.ofNat 64 t.pa⟩)
      else (s, .word (BitVec.ofNat 64 (ofLe (s.hbm (paLocal t.pa) 8))))
    else
      match s.g.replyFor t.pa 8 with
      | some r =>
        match r.data with
        | some d => (s, if r.poi.any id then .flt ⟨kEcc, BitVec.ofNat 64 t.pa⟩ else .word (BitVec.ofNat 64 (ofLe d)))
        | none => (s, .flt ⟨kUnrouted, BitVec.ofNat 64 t.pa⟩)
      | none => let r := s.sendLoad t.pa 8 .fetch 7 set va; (r.1, .wait r.2)

/-- What a branch, call or return finds at its target (R240 step 2): a header, another word, a word that cannot be read, which
the next issue of the lane meets (R410), or a word still to come from a peer. -/
inductive Target
  | kind (k : HKind) (h : Header)
  | bad
  | unread
  | wait (id : Nat)
deriving DecidableEq, Repr

def State.target (s : State) (va : W64) : State × Target :=
  if va.toNat % 8 ≠ 0 || !canonical va then (s, .bad)
  else
    match s.fetch va 0 with
    | (s', .word w) => (match decodeHeader w with | some h => (s', .kind h.kind h) | none => (s', .bad))
    | (s', .flt _) => (s', .unread)
    | (s', .wait id) => (s', .wait id)

/-- The header of KIND k is what a transfer of control needs. -/
def Target.isKind (t : Target) (k : HKind) : Bool := match t with | .kind k' _ => k' == k | _ => false
/-- A target that lets a branch retire: a header of KIND 00, or a fetch that fails and is met later (R410). -/
def Target.ok (t : Target) : Bool := match t with | .kind .ord _ => true | .unread => true | _ => false

/-- The targets of lanes looked at in turn: each lane with its target and what stands there, and the requests to wait for. -/
def State.lookAll (s : State) (ts : List (Nat × W64)) : State × List (Nat × W64 × Target) × List Nat :=
  ts.foldl (fun a t =>
    match a.1.target t.2 with
    | (s, .wait id) => (s, a.2.1, a.2.2 ++ [id])
    | (s, k) => (s, a.2.1 ++ [(t.1, t.2, k)], a.2.2)) (s, [], [])
/-- The target of a B word (R235). -/
def BF.target (f : BF) (pc : W64) : W64 := pc + BitVec.ofInt 64 (8 * f.ofs.toInt)

end Sys2Proof.Machine
end

