-- ==== Sys2Proof/Machine/Int.lean ====
section
/-! DEFINITION. The INT instructions (major 0x01, R260 to R267): on the vector datapath, or once on the scalar unit when the
destination is an s register (R247). -/

namespace Sys2Proof.Machine

/-! ## The two datapaths -/

/-- A result of up to three sources in a lane, poisoned when any of them is (R249). -/
def State.val3 (s : State) (l : Nat) (t : Ty) (srcs : List Opnd) (fn : Nat → Nat → Nat → Nat) : Val :=
  let v (i : Nat) : Val := match srcs[i]? with | some o => s.rd l t o | none => {}
  ⟨fn (v 0).n (v 1).n (v 2).n, (v 0).poi || (v 1).poi || (v 2).poi⟩

/-- The operands of a word for step 7, each with the registers its type takes. -/
def withRegs (n : Nat) (os : List Opnd) : List (Opnd × Nat) := os.map fun o => (o, n)

/-- An INT instruction of n sources: `fn` on w-bit values (R247, R260). -/
def State.intOp (s : State) (p : Pred) (f : VF) (n : Nat) (fn : Nat → Nat → Nat → Nat) : Out :=
  let srcs := [f.a, f.b, f.c].take n
  match f.d with
  | .s i =>
    s.once true p (s.opsOk (withRegs f.ty.regs srcs)) fun s _ g =>
      let v := s.val3 0 f.ty srcs fn
      g.putS i.val ⟨sExtend f.ty v.n, v.poi⟩
  | d =>
    s.perLane p (s.opsOk (withRegs f.ty.regs (d :: srcs))) fun s l x => x.putVec s.g.wb d f.ty.is64 (s.val3 l f.ty srcs fn)

/-! ## What they compute -/

/-- A w-bit value as the integer its type reads (R260). -/
def intOf (t : Ty) (x : Nat) : Int := if t.isI then sgn t.w x else (x : Int)
/-- An exact result taken modulo 2^w, or clamped under SAT (R261). -/
def satOf (f : VF) (x : Int) : Nat := satWrap f.ty.w f.sat f.ty.isI x

def popCount (w x : Nat) : Nat := ((List.range w).filter fun i => x.testBit i).length
def leadingZeros (w x : Nat) : Nat := if x = 0 then w else w - 1 - Nat.log2 x
def bitReverse (w x : Nat) : Nat := (List.range w).foldl (fun r i => if x.testBit i then r + 2 ^ (w - 1 - i) else r) 0

/-- The shift count of SHL, SHR, SRA and ROT (R263). -/
def shiftCount (f : VF) (b : Nat) : Nat := (b + f.m) % 2 ^ 32
def shiftLeft (w a n : Nat) : Nat := if w ≤ n then 0 else a * 2 ^ n % 2 ^ w
def shiftRight (w a n : Nat) : Nat := if w ≤ n then 0 else a / 2 ^ n
def shiftArith (w a n : Nat) : Nat :=
  if w ≤ n then (if sgn w a < 0 then 2 ^ w - 1 else 0) else wrap w (sgn w a / (2 ^ n : Nat))
def rotateLeft (w a n : Nat) : Nat := (a * 2 ^ (n % w) + a / 2 ^ (w - n % w)) % 2 ^ w

/-- Bits pos + i of A for i below len, a bit at or above w read as the sign for .i types and 0 otherwise (R263). -/
def bitField (w a pos len : Nat) (signed : Bool) : Nat :=
  let ext := if signed && a.testBit (w - 1) then a + (2 ^ 512 - 2 ^ w) else a
  bitsAt ext pos len
/-- BFE (R263). -/
def extractField (w a b : Nat) (signed : Bool) : Nat :=
  let pos := b % 256
  let len := min (b / 256 % 256) w
  if len = 0 then 0
  else
    let x := bitField w a pos len signed
    if signed then wrap w (sgn len x) else x
/-- BFI (R263). -/
def insertField (w a b c : Nat) : Nat :=
  let pos := b % 256
  let len := min (b / 256 % 256) w
  let m := (2 ^ len - 1) * 2 ^ pos % 2 ^ w
  (a &&& (2 ^ w - 1 - m)) ||| (c * 2 ^ pos % 2 ^ w &&& m)

/-- DIV (R266). -/
def divide (t : Ty) (rem : Bool) (a b : Nat) : Nat :=
  if b = 0 then (if rem then a else 2 ^ t.w - 1)
  else
    let x := intOf t a
    let y := intOf t b
    wrap t.w (if rem then x.tmod y else x.tdiv y)

def execAdd (p : Pred) (f : VF) (s : State) : Out := s.intOp p f 2 fun a b _ => satOf f (intOf f.ty a + intOf f.ty b)
def execSub (p : Pred) (f : VF) (s : State) : Out := s.intOp p f 2 fun a b _ => satOf f (intOf f.ty a - intOf f.ty b)
def execMul (p : Pred) (f : VF) (s : State) : Out := s.intOp p f 2 fun a b _ => satOf f (intOf f.ty a * intOf f.ty b)
def execMulh (p : Pred) (f : VF) (s : State) : Out :=
  s.intOp p f 2 fun a b _ => wrap f.ty.w (intOf f.ty a * intOf f.ty b / (2 ^ f.ty.w : Nat))
def execMad (p : Pred) (f : VF) (s : State) : Out :=
  s.intOp p f 3 fun a b c => satOf f (intOf f.ty a * intOf f.ty b + intOf f.ty c)
def execAnd (p : Pred) (f : VF) (s : State) : Out := s.intOp p f 2 fun a b _ => a &&& b
def execOr (p : Pred) (f : VF) (s : State) : Out := s.intOp p f 2 fun a b _ => a ||| b
def execXor (p : Pred) (f : VF) (s : State) : Out := s.intOp p f 2 fun a b _ => a ^^^ b
def execAndn (p : Pred) (f : VF) (s : State) : Out := s.intOp p f 2 fun a b _ => a &&& (2 ^ f.ty.w - 1 - b)
def execShl (p : Pred) (f : VF) (s : State) : Out := s.intOp p f 2 fun a b _ => shiftLeft f.ty.w a (shiftCount f b)
def execShr (p : Pred) (f : VF) (s : State) : Out := s.intOp p f 2 fun a b _ => shiftRight f.ty.w a (shiftCount f b)
def execSra (p : Pred) (f : VF) (s : State) : Out := s.intOp p f 2 fun a b _ => shiftArith f.ty.w a (shiftCount f b)
def execRot (p : Pred) (f : VF) (s : State) : Out := s.intOp p f 2 fun a b _ => rotateLeft f.ty.w a (shiftCount f b)
def execMin (p : Pred) (f : VF) (s : State) : Out := s.intOp p f 2 fun a b _ => if intOf f.ty a ≤ intOf f.ty b then a else b
def execMax (p : Pred) (f : VF) (s : State) : Out := s.intOp p f 2 fun a b _ => if intOf f.ty b ≤ intOf f.ty a then a else b
def execAbsd (p : Pred) (f : VF) (s : State) : Out := s.intOp p f 2 fun a b _ => (intOf f.ty a - intOf f.ty b).natAbs
def execPopc (p : Pred) (f : VF) (s : State) : Out := s.intOp p f 1 fun a _ _ => popCount f.ty.w a
def execClz (p : Pred) (f : VF) (s : State) : Out := s.intOp p f 1 fun a _ _ => leadingZeros f.ty.w a
def execBrev (p : Pred) (f : VF) (s : State) : Out := s.intOp p f 1 fun a _ _ => bitReverse f.ty.w a
def execBfe (p : Pred) (f : VF) (s : State) : Out := s.intOp p f 2 fun a b _ => extractField f.ty.w a b f.ty.isI
def execBfi (p : Pred) (f : VF) (s : State) : Out := s.intOp p f 3 fun a b c => insertField f.ty.w a b c
def execDiv (p : Pred) (f : VF) (s : State) : Out := s.intOp p f 2 fun a b _ => divide f.ty (f.m == 1) a b

/-- MOV (R267); z to z runs on the scalar unit, and z to anything else fails in every active lane (R55, R240 step 7). -/
def execMov (p : Pred) (f : VF) (s : State) : Out :=
  match f.d with
  | .z i => s.once true p (fun _ => true) fun s _ g => g.setZreg i.val (s.g.zreg f.a.zIdx)
  | _ => if f.a.isZ then s.perform true p (fun _ => false) fun s _ => .done s [] else s.intOp p f 1 fun a _ _ => a

/-! ## Carries, comparisons, selection -/

/-- A bit of an m source, or the constant 0 or 1, in a lane (R262). -/
def State.carryIn (s : State) (l : Nat) (o : Opnd) : Val :=
  match o with
  | .m i => ⟨if (s.g.mBits i.val).getLsbD l then 1 else 0, (s.g.mPoi i.val).getLsbD l⟩
  | .const .one => ⟨1, false⟩
  | _ => {}

/-- Bits of active lanes into an m register: one value and poison for each lane. -/
def Grp.putMLanes (g : Grp) (i : Nat) (act : Mask) (val : Nat → Val) : Grp :=
  let ls := g.lanesOf act
  g.putM i act (maskOf (ls.filter fun l => (val l).n != 0)) (maskOf (ls.filter fun l => (val l).poi))

/-- ADDC and SUBB: the result in D and the carry or borrow in m_MOD (R262), all reads before the writes. -/
def State.carryOp (s : State) (p : Pred) (f : VF) (fn : Nat → Nat → Nat → Nat → Nat × Bool) : Out :=
  s.perform false p (s.opsOk (withRegs f.ty.regs [f.d, f.a, f.b])) fun s act =>
    let res (l : Nat) : Val × Bool :=
      let a := s.rd l f.ty f.a
      let b := s.rd l f.ty f.b
      let c := s.carryIn l f.c
      let r := fn f.ty.w a.n b.n c.n
      (⟨r.1, a.poi || b.poi || c.poi⟩, r.2)
    let g := s.g.modLanes (s.g.lanesOf act) fun l x => x.putVec s.g.wb f.d f.ty.is64 (res l).1
    .done (s.setG (g.putMLanes (f.m % 8) act fun l => ⟨if (res l).2 then 1 else 0, (res l).1.poi⟩)) []

def execAddc (p : Pred) (f : VF) (s : State) : Out := s.carryOp p f addCarry
def execSubb (p : Pred) (f : VF) (s : State) : Out := s.carryOp p f subBorrow

/-- A comparison written as R264 gives: a bit of m, a 32-bit 1 or 0, or 64 bits of s. -/
def State.compareOp (s : State) (h : Bool) (p : Pred) (d : Opnd) (srcs : List (Opnd × Nat)) (res : State → Nat → Val) : Out :=
  match d with
  | .m i => s.perform false p (s.opsOk srcs) fun s act => .done (s.setG (s.g.putMLanes i.val act (res s))) []
  | .s i => s.once h p (s.opsOk srcs) fun s _ g => g.putS i.val (res s 0)
  | d => s.perLane p (s.opsOk ((d, 1) :: srcs)) fun s l x => x.putVec s.g.wb d false (res s l)

def execCmp (p : Pred) (f : VF) (s : State) : Out :=
  s.compareOp true p f.d (withRegs f.ty.regs [f.a, f.b]) fun s l =>
    s.val3 l f.ty [f.a, f.b] fun a b _ => if cmpHolds f.ty.w f.m a b then 1 else 0

/-- SEL (R265): an m selector chooses by lane, an s selector for every lane. -/
def execSel (p : Pred) (f : VF) (s : State) : Out :=
  let pick (s : State) (l : Nat) : Val :=
    let a := s.rd l f.ty f.a
    let b := s.rd l f.ty f.b
    let c := match f.c with | .m _ => s.carryIn l f.c | o => s.rd l .b64 o
    ⟨if c.n != 0 then a.n else b.n, a.poi || b.poi || c.poi⟩
  match f.d with
  | .s i => s.once true p (fun _ => true) fun s _ g => g.putS i.val ⟨sExtend f.ty (pick s 0).n, (pick s 0).poi⟩
  | d => s.perLane p (s.opsOk (withRegs f.ty.regs [d, f.a, f.b])) fun s l x => x.putVec s.g.wb d f.ty.is64 (pick s l)

end Sys2Proof.Machine
end

