-- ==== Sys2Proof/Machine/Addr.lean ====
section
/-! DEFINITION. Translation register instructions (major 0x03, R269 to R272). -/

namespace Sys2Proof.Machine

/-- ATR never faults; a poisoned operand traps and leaves the register (R22, R269). -/
def execAtr (p : Pred) (f : VF) (s : State) : Out :=
  s.perform false p (fun _ => true) fun s act =>
    let v := s.g.sVal f.a.sIdx
    if v.poi then .done s (failAll s.g act (.poison f.a))
    else .done (s.setG (s.g.setAreg f.d.aIdx (s.atr s.foc.ctx (BitVec.ofNat 64 v.n)))) []

/-- AREL clears VALID (R270). -/
def execArel (p : Pred) (f : VF) (s : State) : Out :=
  s.once false p (fun _ => true) fun _ _ g => g.setAreg f.d.aIdx { g.areg f.d.aIdx with valid := false }

/-- The offset of an M word in units of its width (R234). -/
def MF.immBytes (f : MF) : Int := f.imm.toInt * f.width.bytes
/-- The lane offset o of R23: the unsigned offset register plus the immediate, exact. -/
def State.laneOff (s : State) (l : Nat) (f : MF) : Int := (s.rd l .n32 f.b).n + MF.immBytes f

/-- LEA: BASEVA + o, with nothing translated (R271). -/
def execLea (p : Pred) (f : MF) (s : State) : Out :=
  let va (s : State) (l : Nat) : Val :=
    ⟨wrap 64 ((s.g.areg f.a.aIdx).baseva.toNat + s.laneOff l f), (s.rd l .n32 f.b).poi⟩
  match f.d with
  | .s i => s.once false p (s.opsOk [(f.a, 1), (f.b, 1)]) fun s _ g => g.putS i.val (va s 0)
  | d => s.perLane p (s.opsOk [(d, 2), (f.a, 1), (f.b, 1)]) fun s l x => x.putVec s.g.wb d true (va s l)

/-- The fields AGET reads; a register that is not valid reads as zero (R272). -/
def AReg.field (a : AReg) (n : Nat) : Nat :=
  if !a.valid then 0
  else
    match n with
    | 0 => a.baseva.toNat
    | 1 => a.pbase.toNat
    | 2 => a.limit.toNat
    | 3 => 65536 + a.attr.toNat
    | _ => a.epoch.toNat

/-- AGET: PBASE, LIMIT and EPOCH go into z alone in a DET grid, every other read into s alone (R153, R272). -/
def execAget (p : Pred) (f : VF) (s : State) : Out :=
  s.perform false p (fun _ => true) fun s act =>
    let hidden := f.m == 1 || f.m == 2 || f.m == 4
    if f.d.isZ != (s.gr.det && hidden) then .done s (failAll s.g act .illOpnd)
    else
      let s := s.refresh f.a.aIdx
      let v := (s.g.areg f.a.aIdx).field f.m
      match f.d with
      | .z i => .done (s.setG (s.g.setZreg i.val (BitVec.ofNat 64 v))) []
      | d => .done (s.setG (s.g.putS d.sIdx ⟨v, false⟩)) []

end Sys2Proof.Machine
end

