-- ==== Sys2Proof/Machine/Range.lean ====
section
/-! DEFINITION. Runs of bytes in virtual memory, for units that move more than one lane access: translation of every page a run
covers (R39, R40), and reads and writes of its bytes at home or at a peer. -/

namespace Sys2Proof.Machine

/-- A run cut at the 64 KiB page boundaries: the VA and length of each part. -/
def cutPages : Nat → Nat → Nat → List (Nat × Nat)
  | 0, _, _ => []
  | fuel + 1, va, n =>
    if n = 0 then []
    else
      let k := min n (65536 - va % 65536)
      (va, k) :: cutPages fuel (va + k) (n - k)
/-- The parts of n bytes from a VA; VAs are taken modulo 2^64. -/
def runParts (va : W64) (n : Nat) : List (W64 × Nat) := (cutPages (n / 65536 + 2) va.toNat n).map fun p => (BitVec.ofNat 64 p.1, p.2)

/-- A part of a run at its physical address. -/
structure Part where
  va : W64 := 0
  pa : Nat := 0
  n : Nat := 0
  pte : W64 := 0
deriving DecidableEq, Repr, Inhabited

/-- One fault for each page (R40): the first met of those of a page, the pages ascending. -/
def State.onePerPage {α : Type} (s : State) (va : α → W64) (fs : List α) : List α :=
  sortBy (fun a b => s.pageOf (va a) ≤ s.pageOf (va b)) (fs.foldl (fun l f => if l.any fun y => s.pageOf (va y) == s.pageOf (va f) then l else l ++ [f]) [])

/-- The pages of a run translated for an access: its parts, and one fault for each page, ascending. -/
def State.mapRun (s : State) (acc : Acc) (va : W64) (n : Nat) : State × List Part × List (W64 × Flt) :=
  let r : State × List Part × List (W64 × Flt) := (runParts va n).foldl (fun a p =>
    match a.1.translate a.1.foc.core a.1.foc.ctx acc p.1 with
    | (s, .ok t) => (s, a.2.1 ++ [{ va := p.1, pa := t.pa, n := p.2, pte := t.pte }], a.2.2)
    | (s, .error f) => (s, a.2.1, a.2.2 ++ [(p.1, f)])) (s, [], [])
  (r.1, r.2.1, r.1.onePerPage (·.1) r.2.2)

/-- Bytes read with their poison, byte by byte. -/
structure Bytes where
  data : List Byte := []
  poi : List Bool := []
deriving DecidableEq, Repr, Inhabited

def Bytes.append (a b : Bytes) : Bytes := ⟨a.data ++ b.data, a.poi ++ b.poi⟩
def Bytes.bad (b : Bytes) : Bool := b.poi.any id

/-- n bytes of local HBM with their poison, as they stand at home, read under the policy of their page. -/
def State.lockedRead (s : State) (pa n cp : Nat) : State × Bytes :=
  let s := s.touchRange pa n cp
  let a := paLocal pa
  (s, ⟨s.hbm a n, tab n fun i => s.memPoi.has ((a + i) / 8)⟩)
/-- n bytes of local HBM read at home, once no tile's lock keeps the read out, every U copy gathered first (R91, R151; log entry
110). -/
def State.homeBytes (s : State) (pa n cp : Nat) : State × Bytes := ((s.meet pa n false).gatherRange pa n).lockedRead pa n cp
/-- The same for a unit of a team, after the stores of its core to those lines (R95), whose Valid lines are dropped: they may be
older than what the unit has read (R83, R97). -/
def State.unitBytes (s : State) (core pa n cp : Nat) : State × Bytes := ((s.drainRange core pa n).dropRange core pa n).homeBytes pa n cp
/-- The poison of the n bytes of a reply, byte by byte. -/
def Reply.bytePoi (r : Reply) : List Bool := tab r.n fun i => r.poi.getD ((r.pa + i) / 8 - r.pa / 8) false

/-- What a read of a run finds: its bytes; the parts a peer lost (R456); the requests still to be answered. -/
structure RunRead where
  got : Bytes := {}
  lost : List Part := []
  waits : List Nat := []
deriving DecidableEq, Repr, Inhabited

/-- The parts of a run read at their homes. -/
def State.readParts (s : State) (acc : Acc) (width : Nat) (mask : Mask) (ps : List Part) : State × RunRead :=
  ps.foldl (fun a p =>
    let s := a.1
    let r := a.2
    if s.isLocal p.pa then
      let x := s.unitBytes s.foc.core p.pa p.n (pteCp p.pte)
      (x.1, { r with got := r.got.append x.2 })
    else
      match s.g.replyFor p.pa p.n with
      | some y =>
        match y.data with
        | some d => (s, { r with got := r.got.append ⟨tab p.n fun i => d.getD i 0, y.bytePoi⟩ })
        | none => (s, { r with got := r.got.append ⟨List.replicate p.n 0, List.replicate p.n true⟩, lost := r.lost ++ [p] })
      | none =>
        let x := ((s.drainRange s.foc.core p.pa p.n).dropRange s.foc.core p.pa p.n).sendLoad p.pa p.n acc width mask p.va
        (x.1, { r with waits := r.waits ++ [x.2] })) (s, {})

/-- The marks of the 8-byte words that bytes from `pa` on touch, from the poison of the bytes (R71, R174). -/
def marksOf (pa : Nat) (poi : List Bool) : List Bool :=
  if poi.any id then (wordsOf pa poi.length).map fun w => (List.range poi.length).any fun i => (pa + i) / 8 = w && poi.getD i false else []

/-- Bytes, with their poison, written to the parts of a run for the group in focus, each at its home; `tape` for a spill of its
tape. -/
def State.writeParts (s : State) (acc : Acc) (mask : Mask) (ps : List Part) (b : Bytes) (tape : Bool := false) : State :=
  (ps.foldl (fun a p =>
    let d := a.2.data.take p.n
    let poi := marksOf p.pa (a.2.poi.take p.n)
    let s := a.1
    (if s.isLocal p.pa then s.engineWrite s.foc.core p.pa (pteCp p.pte) d poi
     else ((s.drainRange s.foc.core p.pa p.n).dropRange s.foc.core p.pa p.n).performStore (some s.foc.core)
       { pa := p.pa, data := d, poi, tape, grp := s.foc.grp, ctx := s.foc.ctx, frec := s.grpRec kUnrouted acc 7 mask p.va (BitVec.ofNat 64 p.pa) },
     (⟨a.2.data.drop p.n, a.2.poi.drop p.n⟩ : Bytes))) (s, b)).1

/-- The records of a run's faults, one for each page (R40, R41). -/
def State.runRecs (s : State) (acc : Acc) (width : Nat) (mask : Mask) (fs : List (W64 × Flt)) : List FRec :=
  fs.map fun f => s.grpRec f.2.kind acc width mask f.1 f.2.aux

/-- A precise Translation Fault of lanes from a run's faults, with its records, or a stall for want of places (R34, R39, R45). -/
def State.runFault (s : State) (acc : Acc) (width : Nat) (mask : Mask) (fs : List (W64 × Flt)) : Did :=
  let fs := s.onePerPage (·.1) fs
  if s.recordRoom < fs.length then .stall s .fault
  else
    let r := s.writeRecs (s.runRecs acc width mask fs)
    .done r.1 (failAll r.1.g mask (Fail.trans r.2.1 r.2.2))

/-- The first poisoned word of bytes read from a physical address on, at its address. -/
def firstBad (pa : Nat) (poi : List Bool) : Option Nat := ((List.range poi.length).find? fun i => poi.getD i false).map fun i => (pa + i) / 8 * 8

/-- The faults of parts that were lost or hold a poisoned word (R41, R71, R456), each by its VA; `poi` is the poison of their bytes. -/
def partFlts (lost : List Part) : List Part → List Bool → List (W64 × Flt)
  | [], _ => []
  | p :: ps, poi =>
    (if lost.contains p then [(p.va, ⟨kUnrouted, BitVec.ofNat 64 p.pa⟩)]
     else (firstBad p.pa (poi.take p.n)).toList.map fun w => (p.va, ⟨kEcc, BitVec.ofNat 64 w⟩)) ++ partFlts lost ps (poi.drop p.n)

/-- A run of virtual memory read for the group in focus: faults and poisoned words trap the lanes of `mask`. -/
def State.withRun (s : State) (acc : Acc) (mask : Mask) (va : W64) (n : Nat) (k : State → List Byte → Did) : Did :=
  match s.mapRun acc va n with
  | (s, ps, []) =>
    let r := s.readParts acc 7 mask ps
    if !r.2.waits.isEmpty then .stall r.1 (.reply r.2.waits)
    else if r.2.got.bad then
      r.1.runFault acc 7 mask (partFlts r.2.lost ps r.2.got.poi)
    else k r.1 r.2.got.data
  | (s, _, fs) => s.runFault acc 7 mask fs

end Sys2Proof.Machine
end

