-- ==== Sys2Proof/Machine/Scr.lean ====
section
/-! DEFINITION. Scratchpad and K space: address classes (R29), targets of K addresses (R31), bytes with their poison (R59), guard
touches (R30), barrier objects (R108 to R113). -/

namespace Sys2Proof.Machine

/-- The size of a team's allocation (R28). -/
def State.scrSize (s : State) (team : Nat) : Nat := (s.gridAt (s.teamAt team).grid).lrec.allocSize

/-- The class of a team-relative byte (R29): 0 in the allocation, 1 a guard granule, 2 out of range. -/
def byteClass (size b : Nat) : Nat :=
  if b % 2 ^ 32 < size then 0 else if b % 2 ^ 32 < size + 256 || 2 ^ 32 - 256 ≤ b % 2 ^ 32 then 1 else 2
/-- The class of n bytes, at most 256: that of the worst. -/
def scrClass (size rel n : Nat) : Nat := max (byteClass size rel) (byteClass size (rel + n - 1))

/-- The team and offset of n bytes at a K-space address (R31). -/
def State.kTarget (s : State) (addr n : Nat) : Option (Nat × Nat) :=
  let rank := addr / 2 ^ 19
  let off := addr % 2 ^ 19
  if s.gr.setSize s.t ≤ rank then none
  else
    match s.teamOfRank rank with
    | some t => if off + n ≤ min 0x60000 (s.scrSize t) then some (t, off) else none
    | none => none

/-- The bank of a team-relative byte, and its row there in an allocation from `base` (R56). -/
def scrBank (off : Nat) : Nat := off / 4 % 192
def scrRow (base off : Nat) : Nat := base / 768 + off / 4 / 192
/-- AUX of a scratchpad or K record: bank and team-relative offset (R41). -/
def scrAux (off : Nat) : W64 := BitVec.ofNat 64 (scrBank off * 2 ^ 32 + off % 2 ^ 32)
/-- AUX of a poisoned scratchpad word (R59). -/
def scrPoiAux (off : Nat) : W64 := scrAux off ||| 0x8000000000000000

/-- n bytes from an offset meet a range. -/
def meets (off n lo hi : Nat) : Bool := lo < off + n && off < hi && lo < hi
/-- Bytes that no store reaches: barrier objects and the tape area (R110, R168). -/
def LaunchRec.meetsBar (r : LaunchRec) (off n : Nat) : Bool := meets off n r.barBase (r.barBase + 16 * r.nbar)
def LaunchRec.meetsTape (r : LaunchRec) (off n : Nat) : Bool := meets off n r.tapeBase (r.tapeBase + r.tape)
def State.scrGuarded (s : State) (team off n : Nat) : Bool :=
  let r := (s.gridAt (s.teamAt team).grid).lrec
  r.meetsBar off n || r.meetsTape off n

/-- Bytes of a team's scratchpad as they stand in its banks. -/
def State.scrRaw (s : State) (team off n : Nat) : Bytes :=
  let t := s.teamAt team
  ⟨memRead t.scr off n, tab n fun i => t.scrPoi.has ((off + i) / 4)⟩
/-- Bytes as a program or an engine reads them: the tape area reads as zero (R168). -/
def State.scrRead (s : State) (team off n : Nat) : Bytes :=
  let r := (s.gridAt (s.teamAt team).grid).lrec
  let b := s.scrRaw team off n
  ⟨tab n fun i => if r.meetsTape (off + i) 1 then 0 else b.data.getD i 0, tab n fun i => !r.meetsTape (off + i) 1 && b.poi.getD i false⟩
/-- The first poisoned word among n bytes, team-relative. -/
def State.scrBadWord (s : State) (team off n : Nat) : Nat :=
  let p := (s.scrRead team off n).poi
  match (List.range n).find? fun i => p.getD i false with
  | some i => (off + i) / 4 * 4
  | none => off
/-- Bytes written: each whole word loses its poison (R59). -/
def State.scrWrite (s : State) (team off : Nat) (bs : List Byte) : State :=
  let t := s.teamAt team
  s.setTeamAt team { t with scr := memWrite t.scr off bs
                            scrPoi := t.scrPoi.filter fun w => !(off ≤ 4 * w && 4 * w + 4 ≤ off + bs.length) }
/-- Every word that meets n bytes poisoned. -/
def State.scrPoison (s : State) (team off n : Nat) : State :=
  let t := s.teamAt team
  s.setTeamAt team { t with scrPoi := (List.range ((off + n + 3) / 4 - off / 4)).foldl (fun p i => NSet.insert p (off / 4 + i)) t.scrPoi }

/-- Guard touches of one instruction (R30): the first of the group is kept, later ones are counted. -/
def State.guardTouch (s : State) (acc : Acc) (width : Nat) (ts : List (Mask × Nat)) : State :=
  match ts with
  | [] => s
  | (_, off) :: _ =>
    s.modG fun g =>
      match g.guard with
      | some x => { g with guard := some { x with count := min 65535 (x.count + ts.length) } }
      | none =>
        { g with guard := some { off := BitVec.ofNat 32 off, pc := g.iss.pc, access := acc.code, width,
                                 mask := ts.foldl (fun m t => m ||| t.1) 0, retired := g.retired, count := 0 } }

/-! ## Barrier objects -/

/-- A barrier object's fields (R108). -/
structure BarObj where
  ov : Bool := false
  phase : Nat := 0
  expl : Nat := 0
  arrl : Nat := 0
  expb : Nat := 0
  landb : Nat := 0
deriving DecidableEq, Repr, Inhabited

/-- The object that a barrier operand names (R109): an address in the issuer's own allocation, or a K-space address. -/
def State.barName (s : State) (kspace : Bool) (addr : Nat) : Option BarName :=
  let at' (team off : Nat) : Option BarName :=
    let r := (s.gridAt (s.teamAt team).grid).lrec
    if off % 16 = 0 && r.barBase ≤ off && off < r.barBase + 16 * r.nbar then some { team, off, kspace, addr := BitVec.ofNat 32 addr } else none
  if kspace then
    match s.kTarget addr 16 with
    | some (t, off) => at' t off
    | none => none
  else at' s.foc.team addr

def State.barGet (s : State) (b : BarName) : BarObj :=
  let w (i : Nat) : Nat := ofLe (memRead (s.teamAt b.team).scr (b.off + 4 * i) 4)
  { ov := (w 0).testBit 31, phase := w 0 % 2 ^ 31, expl := w 1 / 65536, arrl := w 1 % 65536, expb := w 2, landb := w 3 }
def BarObj.bytes (o : BarObj) : List Byte :=
  leBytes 4 (o.phase % 2 ^ 31 + if o.ov then 2 ^ 31 else 0) ++ leBytes 4 (o.expl * 65536 + o.arrl) ++ leBytes 4 o.expb ++ leBytes 4 o.landb
/-- The same object. -/
def BarName.same (a b : BarName) : Bool := a.team == b.team && a.off == b.off
/-- The object and phase that a lane waits at. -/
def Wait.phase : Wait → Option (BarName × W32)
  | .bwait b p _ _ _ => some (b, p)
  | .arriveL b p _ _ _ _ => some (b, p)
  | _ => Option.none
/-- How an object ends a wait for a phase, if it does (R113, R114). -/
def BarObj.ends (o : BarObj) (p : W32) : Option Bool := if o.phase != p.toNat then some false else if o.ov then some true else none
/-- The lanes whose wait at an object ends with the object as it stands: what wakes them is kept until they resume (R113, R114). -/
def State.wakeLanes (s : State) (b : BarName) (o : BarObj) : State :=
  let hit (x : Lane) : Bool := x.st == .waiting && x.woken.isNone && x.wait.phase.any fun w => b.same w.1 && (o.ends w.2).isSome
  { s with groups := s.groups.update fun _ g =>
      if g.laneIdx.any fun l => hit (g.lane l) then
        g.modLanes (g.laneIdx.filter fun l => hit (g.lane l)) fun _ x => { x with woken := x.wait.phase.bind fun w => o.ends w.2 }
      else g }
/-- An object written as a whole, with what that does to the lanes that wait at it. -/
def State.barPut (s : State) (b : BarName) (o : BarObj) : State := (s.scrWrite b.team b.off o.bytes).wakeLanes b o

/-- The reports an overrun leaves: every group of the object's team that has not retired holds one (R113). -/
def State.overrun (s : State) (b : BarName) : State :=
  let (s, o) := s.freshOrder
  { s with groups := s.groups.update fun _ g =>
      if g.team == b.team && g.phase == .running && !g.overruns.any fun x => b.same x.2 then
        { g with overruns := g.overruns ++ [(o, { team := b.team, off := b.off, addr := BitVec.ofNat 32 b.off })] } else g }

/-- The .l arrivals that wait for a phase of an object (R154): each by its group, its word's place and the retired count at its issue,
with its key (team-set rank, launch index, lowest %tlane). -/
def State.arrivals (s : State) (b : BarName) (phase : Nat) : List ((Nat × W64 × W64) × List Nat) :=
  s.groups.flatMap fun e =>
    let g := e.2
    let t := s.teamAt g.team
    let ls := g.laneIdx.filterMap fun l =>
      match (g.lane l).st, (g.lane l).wait with
      | .waiting, .arriveL b' ph _ none _ ret => if b.same b' && ph.toNat == phase then some (l, (g.lane l).pc, ret) else none
      | _, _ => none
    (ls.filter fun x => !ls.any fun y => y.2 == x.2 && y.1 < x.1).map fun x => ((e.1, x.2), [(s.gridAt t.grid).rank t, g.idx, g.key x.1])

/-- The arrival with the highest key is designated, every other one is not (R154). -/
def State.designate (s : State) (b : BarName) (phase : Nat) : State :=
  let xs := s.arrivals b phase
  let best := xs.foldl (fun r x => match r with | none => some x | some y => if y.2 < x.2 then some x else some y) (none : Option ((Nat × W64 × W64) × List Nat))
  { s with groups := s.groups.update fun k g =>
      g.modLanes g.laneIdx fun _ x =>
        match x.st, x.wait with
        | .waiting, .arriveL b' ph d none w ret =>
          if b.same b' && ph.toNat == phase then { x with wait := .arriveL b' ph d (some (best.any fun y => y.1 == (k, x.pc, ret))) w ret } else x
        | _, _ => x }

/-- The test after each update (R111). -/
def BarObj.test (o : BarObj) : BarObj :=
  if o.arrl = o.expl && o.landb = o.expb then { o with phase := (o.phase + 1) % 2 ^ 31, arrl := 0, expb := 0, landb := 0 }
  else if o.arrl = o.expl && o.expb < o.landb then { o with ov := true }
  else o

/-- An object written back after an update and its test; an OV that becomes 1 leaves its reports. -/
def State.barUpdate (s : State) (b : BarName) (o : BarObj) : State :=
  let old := s.barGet b
  let s' := s.barPut b o
  if o.ov && !old.ov then s'.overrun b else if o.phase != old.phase then s'.designate b old.phase else s'

/-- Landing of n bytes (R111). -/
def BarObj.land (o : BarObj) (n : Nat) : BarObj :=
  if o.ov then o
  else if 2 ^ 32 - 1 < o.landb + n then { o with ov := true }
  else { o with landb := o.landb + n }.test
def State.barLand (s : State) (b : BarName) (n : Nat) : State := if n = 0 then s else s.barUpdate b ((s.barGet b).land n)
/-- Arrival of c lanes (R111): an overrun adds nothing. -/
def BarObj.arrive (o : BarObj) (c : Nat) : BarObj :=
  if o.expl < o.arrl + c then { o with ov := true } else { o with arrl := o.arrl + c }.test
/-- Expectation of n bytes (R111). -/
def BarObj.expect (o : BarObj) (n : Nat) : BarObj :=
  if 2 ^ 32 - 1 < o.expb + n then { o with ov := true } else { o with expb := o.expb + n }.test

end Sys2Proof.Machine
end

