-- ==== Sys2Proof/Machine/LdSt.lean ====
section
/-! DEFINITION. Lane accesses: addresses and checks (R308 to R312), loads and stores of global memory, scratchpad and K space
(majors 0x10 and 0x11, R313), with poisoned loads and their table entries (R37, R418, R420). -/

namespace Sys2Proof.Machine

/-! ## One access of an instruction -/

/-- An access of a lane, or of a group whose address is uniform: its operands, its bytes, and whether its data is poisoned. -/
structure Access where
  acc : Acc := .load
  a : Opnd
  b : Opnd
  imm : Int := 0
  n : Nat := 1
  kspace : Bool := false
  hint : Hint := .none
deriving DecidableEq, Repr

/-- Where the bytes of an access lie. -/
inductive Spot
  | mem (va : W64) (pa cp : Nat)
  | scr (team off : Nat)
  | guard (off : Nat)
deriving DecidableEq, Repr, Inhabited

/-- What the checks of R311 find. -/
inductive Look
  | fail (f : Fail)
  | flt (va : W64) (page : Nat) (f : Flt)
  | ok (x : Spot)
deriving DecidableEq, Repr, Inhabited

/-- Accesses that a store's rules govern. -/
def Acc.writes : Acc → Bool | .load => false | _ => true

/-- The checks of R311 for lane l: poison of B, of an s base, then of the data operand `d`; alignment; range, guard and
translation. -/
def State.look (s : State) (x : Access) (d : Option Opnd) (l : Nat) : State × Look :=
  let b := s.rd l .n32 x.b
  let base := match x.a with | .s i => s.g.sVal i.val | _ => {}
  if b.poi then (s, .fail (.poison x.b))
  else if base.poi then (s, .fail (.poison x.a))
  else
    match d with
    | some d => (s, .fail (.poison d))
    | none =>
      match x.a with
      | .a i =>
        let o : Int := b.n + x.imm
        if ((s.g.areg i.val).baseva + BitVec.ofInt 64 o).toNat % x.n ≠ 0 then (s, .fail { cause := cAlign })
        else
          match s.resolve i.val x.acc o x.n with
          | (s, va, .error f) => (s, .flt va (s.pageOf va) f)
          | (s, va, .ok t) => (s, .ok (.mem va t.pa (pteCp t.pte)))
      | _ =>
        let addr := wrap 32 ((base.n : Int) + b.n + x.imm)
        if addr % x.n ≠ 0 then (s, .fail { cause := cAlign })
        else if x.kspace then
          match s.kTarget addr x.n with
          | none => (s, .flt 0 0 ⟨kKRange, scrAux (addr % 2 ^ 19)⟩)
          | some (t, off) => if x.acc.writes && s.scrGuarded t off x.n then (s, .flt 0 0 ⟨kScratch, scrAux off⟩) else (s, .ok (.scr t off))
        else
          match scrClass (s.scrSize s.foc.team) addr x.n with
          | 0 => if x.acc.writes && s.scrGuarded s.foc.team addr x.n then (s, .flt 0 0 ⟨kScratch, scrAux addr⟩) else (s, .ok (.scr s.foc.team addr))
          | 1 => (s, .ok (.guard addr))
          | _ => (s, .flt 0 0 ⟨kScratch, scrAux addr⟩)

/-- What becomes of an access: it fails, faults, waits for a peer, or reads bytes; a guarded access touches a granule. -/
inductive Fate
  | fail (f : Fail)
  | flt (f : LaneFlt)
  | wait (id : Nat)
  | got (bs : List Byte)
  | guard (off : Nat)
  | at' (x : Spot)
deriving DecidableEq, Repr, Inhabited

/-- The fate of a load that has bytes of memory, with the first poisoned word among them (R71). -/
def State.memFate (s : State) (mask : Mask) (l : Nat) (va : W64) (bs : List Byte) : Option Nat → Fate
  | none => .got bs
  | some w => .flt { mask, lane := l, va, page := s.pageOf va, flt := ⟨kEcc, BitVec.ofNat 64 w⟩ }

/-- A load of remote memory (R60, R61, R114): from the write buffer, the Valid line, or what its home has sent; otherwise a request,
for the whole line where the L1 is to keep it, after the core's own stores there. -/
def State.remoteLoad (s : State) (x : Access) (mask : Mask) (l width : Nat) (va : W64) (pa cp : Nat) : State × Fate :=
  let keep := l1Keeps cp x.hint
  let a := if keep then pa / 128 * 128 else pa
  let n := if keep then 128 else x.n
  if (List.range x.n).all fun i => (s.co.buffered (pa + i)).isSome then (s, .got (s.co.forward pa x.n (fun _ => 0) fun _ => false).1)
  else
    match s.g.replyFor a n with
    | some r =>
      match r.data with
      | some d =>
        let y := s.co.forward pa x.n (fun i => d.getD (pa - a + i) 0) fun i => r.poi.getD ((pa + i) / 8 - a / 8) false
        (s, s.memFate mask l va y.1 y.2)
      | none => (s, .flt { mask, lane := l, va, page := s.pageOf va, flt := ⟨kUnrouted, BitVec.ofNat 64 pa⟩ })
    | none =>
      match s.l1Load pa x.n cp with
      | (s, some bs) => (s, .got bs)
      | (s, none) =>
        let r := (s.drainLine s.foc.core pa).sendLoad a n x.acc width mask va (if keep then some (s.foc.core, linePri cp x.hint) else none)
        (r.1, .wait r.2)

/-- The bytes of a load at a spot (R61, R59, R71, R114): a poisoned word is a fault. -/
def State.loadAt (s : State) (x : Access) (mask : Mask) (l width : Nat) : Spot → State × Fate
  | .guard off => (s, .guard off)
  | .scr t off =>
    let b := s.scrRead t off x.n
    if b.bad then (s, .flt { mask, lane := l, flt := ⟨kEcc, scrPoiAux (s.scrBadWord t off x.n)⟩ }) else (s, .got b.data)
  | .mem va pa cp =>
    if s.isLocal pa then
      let r := s.cachedRead pa x.n cp x.hint
      (r.1, r.1.memFate mask l va r.2.1 r.2.2)
    else s.remoteLoad x mask l width va pa cp

/-- The address that a digest takes for a spot (R446). -/
def State.digAddr (s : State) (kspace : Bool) : Spot → Nat
  | .mem va _ _ => va.toNat
  | .scr t off => if kspace then digK (s.gr.rank (s.teamAt t) * 2 ^ 19 + off) else digScr off
  | .guard _ => 0
/-- The same for an access of the group in focus, whose bytes the log of its interval takes (R435). -/
def State.loadLogged (s : State) (x : Access) (mask : Mask) (l width : Nat) (p : Spot) : State × Fate :=
  match s.loadAt x mask l width p with
  | (s, .got bs) => (s.logRead (if x.acc == .texture then .texture else .load) (s.digAddr x.kspace p) bs, .got bs)
  | r => r

/-- The lanes that an issue performs an access for: each active lane, or once for all when its address is uniform (R310). -/
def State.shares (s : State) (act : Mask) (once : Bool) : List (Mask × Nat) :=
  let ls := s.g.lanesOf act
  if once then [(act, ls.headD 0)] else ls.map fun l => (bitMask l, l)

/-- The checks and reads of every access of an issue, in the order of its lanes. -/
def State.fates (s : State) (x : Access) (width : Nat) (poi : State → Nat → Option Opnd) (read : Bool) (xs : List (Mask × Nat)) :
    State × List (Mask × Nat × Fate) :=
  xs.foldl (fun a m =>
    let r := a.1.look x (poi a.1 m.2) m.2
    let y : State × Fate :=
      match r.2 with
      | .fail f => (r.1, .fail f)
      | .flt va page f => (r.1, .flt { mask := m.1, lane := m.2, va, page, flt := f })
      | .ok p => if read then r.1.loadLogged x m.1 m.2 width p else (r.1, match p with | .guard off => .guard off | p => .at' p)
    (y.1, a.2 ++ [(m.1, m.2, y.2)])) (s, [])

def waitsOf (fs : List (Mask × Nat × Fate)) : List Nat := fs.filterMap fun f => match f.2.2 with | .wait id => some id | _ => none
def fltsOf (fs : List (Mask × Nat × Fate)) : List LaneFlt := fs.filterMap fun f => match f.2.2 with | .flt x => some x | _ => none
def guardsOf (fs : List (Mask × Nat × Fate)) : List (Mask × Nat) :=
  fs.filterMap fun f => match f.2.2 with | .guard off => some (f.1, off) | _ => none
/-- The lanes that fail a check other than a fault. -/
def State.failsOf (s : State) (fs : List (Mask × Nat × Fate)) : List (Nat × Fail) :=
  fs.flatMap fun f => match f.2.2 with | .fail x => failActive s.g f.1 x | _ => []
/-- The faulting lanes, trapping with a cause. -/
def State.fltFails (s : State) (fs : List LaneFlt) (f : Fail) : List (Nat × Fail) := fs.flatMap fun x => failActive s.g x.mask f

/-- The mask a record of the issue names: the faulting lanes, and in a handler a free value. -/
def State.recMask (s : State) (fs : List LaneFlt) : List LaneFlt :=
  if s.g.iss.handler then fs.map fun f => { f with mask := s.handlerMask } else fs

/-- The records of an issue's faults written, or none if a place is missing (R40, R45): the state, first SEQ and count. An access that
needs several records waits until there is a place for all of them at once (log entry 118). -/
def State.noteFlts (s : State) (acc : Acc) (width : Nat) (fs : List LaneFlt) : Option (State × Option W32 × Nat) :=
  let rs := s.fltRecs acc width (s.recMask fs)
  if s.recordRoom < rs.length then none else some (s.writeRecs rs)

/-! ## Orders (R80, R84, R86) -/

def isSc (o : Ord) : Bool := o == .sc
/-- What follows a release that is complete; until the core's earlier writes have performed at home the group is held (R86). -/
def State.orWait (s : State) (need : Bool) (scope : Scope) (d : Did) : Did := if need && !s.released scope then .stall s .release else d
/-- An .sc read joins the order at home: it follows the core's earlier writes, and reads no line that was Valid before it. -/
def State.beforeRead (s : State) (o : Ord) (sc : Scope) : State := if isSc o then (s.release sc).acquire sc else s
def State.afterRead (s : State) (o : Ord) (sc : Scope) : State := if isAcq o then s.acquire sc else s
/-- A release orders the core's earlier writes before the write. -/
def State.beforeWrite (s : State) (o : Ord) (sc : Scope) : State := if isRel o then s.release sc else s
/-- An .sc write leaves for its home at once; the next .sc access or release of the core waits for it. -/
def State.afterWrite (s : State) (o : Ord) (sc : Scope) : State := if isSc o then s.release sc else s

/-! ## Loads -/

/-- The 32-bit registers of n bytes (R309). -/
def bytesRegs (bs : List Byte) : List Reg := tab ((bs.length + 3) / 4) fun i => ⟨BitVec.ofNat 32 (ofLe ((bs.drop (4 * i)).take 4)), false⟩

/-- Bytes delivered to the destination of an access (R309); loads never shift y (R53). An s register is written whole, zero-extended, by
an atomic of type .i32 as well (log entry 116). -/
def Grp.deliver (g : Grp) (d : Opnd) (mask : Mask) (bs : List Byte) : Grp :=
  match d with
  | .s i => g.putS i.val ⟨ofLe bs, false⟩
  | d => g.modLanes (g.lanesOf mask) fun _ x => x.putRegs g.wb d (bytesRegs bs)
/-- A poisoned word: a free value with its bit set (log entry 3). -/
def State.poisonReg (s : State) (l i : Nat) : Reg := ⟨Config.freeHalf (s.freeKey (64 * l + i)), true⟩
/-- A destination of k registers poisoned in some lanes (R37). -/
def State.poisonDest (s : State) (d : Opnd) (k : Nat) (mask : Mask) : State :=
  match d with
  | .s i => s.setG (s.g.putS i.val ⟨(Config.freeWord (s.freeKey 0)).toNat, true⟩)
  | d => s.setG (s.g.modLanes (s.g.lanesOf mask) fun l x => x.putRegs s.g.wb d (tab k (s.poisonReg l)))

/-- The registers that an origin instruction poisons, with its table entry; or its lanes trap, when the table is full (R418,
R420). -/
def State.origin (s : State) (d : Opnd) (k : Nat) (mask : Mask) (seq : Option W32) (n : Nat) : State × List (Nat × Fail) :=
  if mask == 0 && !s.g.iss.handler then (s, [])
  else if mask != 0 && s.ptFree.isNone then
    (s, failAll s.g mask { cause := cTableFull, info := (seq.getD 0).toNat + 2 ^ 32 * (n % 65536) })
  else
    let s' := (s.poisonDest d k mask).logIn .load 0 (leBytes 8 mask.toNat) [true]
    (if mask == 0 then s' else s'.ptMake d k mask seq, [])

/-- A memory instruction based on a translation register counts towards the samples (R445). -/
def State.sampledIf (s : State) (a : Opnd) (acc : Acc) : State := if a.isA then s.sampled acc else s

/-- A load of one of the three spaces (R311, R313). -/
def State.loadOp (s : State) (h : Bool) (p : Pred) (f : MF) (kspace : Bool) : Out :=
  let w := f.width.code
  let k := if f.d.isS then 1 else f.width.regs
  let x : Access := { acc := .load, a := f.a, b := f.b, imm := MF.immBytes f, n := f.width.bytes, kspace, hint := f.hint }
  s.perform h p (s.opsOk [(f.d, k), (f.a, 1), (f.b, 1)]) fun s act =>
    let s := s.beforeRead f.ord f.scope
    s.orWait (isSc f.ord) f.scope <|
    let (s, fs) := s.fates x w (fun _ _ => none) true (s.shares act f.d.isS)
    if !(waitsOf fs).isEmpty then .stall s (.remote (waitsOf fs))
    else
      match s.noteFlts .load w (fltsOf fs) with
      | none => .stall s .fault
      | some (s, seq, n) =>
        let s := s.guardTouch .load w (guardsOf fs)
        let s := s.setG (fs.foldl (fun g f' =>
          match f'.2.2 with
          | .got bs => g.deliver f.d f'.1 bs
          | .guard _ => g.deliver f.d f'.1 (List.replicate f.width.bytes 0)
          | _ => g) s.g)
        let flts := fltsOf fs
        let r := if flts.isEmpty then (s, []) else s.origin f.d k (flts.foldl (fun m f => m ||| f.mask) 0) seq n
        .done ((r.1.sampledIf f.a .load).afterRead f.ord f.scope) (r.1.failsOf fs ++ r.2)

def execLd (p : Pred) (f : MF) (s : State) : Out := s.loadOp f.d.isS p f false
def execLds (p : Pred) (f : MF) (s : State) : Out := s.loadOp false p f false
def execLdk (p : Pred) (f : MF) (s : State) : Out := s.loadOp false p f true

/-! ## Stores -/

/-- The flag that the SF of an issue names (R130). -/
def State.sfNow (s : State) (sf : Sf) : Option Nat := (sfFlag s.g.iss.hdr sf).join
/-- A named flag stands at 255, and issue holds (R130). -/
def State.flagFull (s : State) (fl : Option Nat) : Bool := fl.any fun i => 255 ≤ s.g.flag i
/-- The count of a named flag raised, and the tag of the operation that it waits for. -/
def State.flagStart (s : State) (fl : Option Nat) : State × Option (Nat × Nat) :=
  match fl with
  | none => (s, none)
  | some i => let (s, id) := s.freshId; (s.modG fun g => g.flagUp i, some (id, i))
/-- The operation is due if none of its bytes is on its way. -/
def State.flagEnd (s : State) (tag : Option (Nat × Nat)) : State :=
  match tag with
  | none => s
  | some t => s.flagLanded s.foc.grp t

/-- The data operand of a store in a lane as bytes of its width (R309). -/
def State.storeData (s : State) (l : Nat) (d : Opnd) (w : Width) : List Byte × Bool :=
  match w with
  | .b128 =>
    let r (i : Nat) : Reg := match d with | .v j => s.g.vReg l (j.val + i) | .k j => s.g.kReg l (j.val + i) | _ => {}
    ((List.range 4).flatMap fun i => leBytes 4 (r i).val.toNat, (List.range 4).any fun i => (r i).poi)
  | .b64 => let v := s.rd l .b64 d; (leBytes 8 v.n, v.poi)
  | w => let v := s.rd l .b32 d; (leBytes w.bytes v.n, v.poi)

/-- Bytes stored at a spot: through the write buffer, or at the bank. -/
def State.storeAt (s : State) (acc : Acc) (width : Nat) (mask : Mask) (x : Spot) (bs : List Byte) (tag : Option (Nat × Nat)) : State :=
  match x with
  | .mem va pa cp => s.bufferStore pa cp bs tag (s.grpRec kUnrouted acc width mask va (BitVec.ofNat 64 pa))
  | .scr t off => s.scrWrite t off bs
  | .guard _ => s

/-- The lanes that perform. -/
def performed (fs : List (Mask × Nat × Fate)) : List (Mask × Nat × Fate) :=
  fs.filter fun f => match f.2.2 with | .at' _ => true | .guard _ => true | .got _ => true | _ => false

/-- A store of one of the three spaces (R311, R313): ascending lanes, so that the highest of those that write a byte decides
(R78). -/
def State.storeOp (s : State) (h : Bool) (p : Pred) (f : MF) (acc : Acc) (kspace : Bool) : Out :=
  let w := f.width.code
  let k := if f.d.isS then 1 else f.width.regs
  let x : Access := { acc, a := f.a, b := f.b, imm := MF.immBytes f, n := f.width.bytes, kspace }
  s.perform h p (s.opsOk [(f.d, k), (f.a, 1), (f.b, 1)]) fun s act =>
    let poi (s : State) (l : Nat) : Option Opnd := if (s.storeData l f.d f.width).2 then some f.d else none
    let (s, fs) := s.fates x w poi false (s.shares act (f.d.isS || f.d.isZ))
    let fl := s.sfNow f.sf
    if !(performed fs).isEmpty && s.flagFull fl then s.fullWait fl
    else
      let s := if (performed fs).isEmpty then s else s.beforeWrite f.ord f.scope
      s.orWait (isRel f.ord && !(performed fs).isEmpty) f.scope <|
      match s.noteFlts acc w (fltsOf fs) with
      | none => .stall s .fault
      | some (s, seq, n) =>
        let s := s.guardTouch acc w (guardsOf fs)
        let s :=
          if (performed fs).isEmpty then s
          else
            let (s, tag) := s.flagStart fl
            let s := fs.foldl (fun s f' =>
              match f'.2.2 with
              | .at' y =>
                let bs := (s.storeData f'.2.1 f.d f.width).1
                let s := s.storeAt acc w f'.1 y bs tag
                if acc == .zst then s else s.wrote (s.digAddr kspace y) bs
              | _ => s) s
            (s.flagEnd tag).afterWrite f.ord f.scope
        .done (s.sampledIf f.a acc) (s.failsOf fs ++ s.fltFails (fltsOf fs) (.trans seq n))

def execSt (p : Pred) (f : MF) (s : State) : Out := s.storeOp (f.d.isS && f.sf == .none) p f .store false
def execSts (p : Pred) (f : MF) (s : State) : Out := s.storeOp false p f .store false
def execStk (p : Pred) (f : MF) (s : State) : Out := s.storeOp false p f .store true
/-- ZST stores a z register, to pages that are written for profiles alone (R55, R313). -/
def execZst (p : Pred) (f : MF) (s : State) : Out := s.storeOp false p f .zst false

/-- FLAG_CLEAR: an operation that has completed lowers its flag (R98, R130). -/
def execFlagClear (grp flag : Nat) (s : State) : Out :=
  let g := s.grpAt grp
  if g.fdone.contains flag then .next (s.setGrpAt grp { g.flagDown flag with fdone := g.fdone.erase flag }) else .next s

end Sys2Proof.Machine
end

