-- ==== Sys2Proof/Machine/Trc.lean ====
section
/-! DEFINITION. The trace ring (R442, R443), the counters as they are read (R444), and the stop conditions of a group: armed
stops, breakpoints and snapshots that are due (R434, R438, R439). -/

namespace Sys2Proof.Machine

/-- A feature is disabled (R451). -/
def Pkg.lacks (p : Pkg) (bit : Nat) : Bool := p.featLock && !p.featEn.getLsbD bit

/-! ## Counters -/

/-- Codes that count cc, fc or misses of an LLC whose replacement is open (2, 3, 4, 6, 7, 9, 10 of R444): what their counters have
counted since they were last brought up to date is a free value (log entry 3). -/
def timedCode (c : Nat) : Bool := c == 2 || c == 3 || c == 4 || c == 6 || c == 7 || c == 9 || c == 10
def Ctx.pmcAt (c : Ctx) (j : Nat) : BitVec 48 := bankGet c.pmc 0 j
/-- A team of the context is resident. -/
def State.hasResident (s : State) (ctx : Nat) : Bool := s.teams.any fun e => e.2.phase == .resident && (s.gridAt e.2.grid).ctx == ctx
/-- The counters of a context brought up to date before they are read or written: they count only what its resident teams cause. -/
def State.pmcNow (s : State) (ctx : Nat) : State :=
  let c := s.ctxAt ctx
  let on := s.hasResident ctx
  if !c.pmcRun && !on then s
  else
    let add (j : Nat) : BitVec 48 := if timedCode (bankGet c.pmcSel 0 j) then (Config.freeWord (s.freeKey j)).setWidth 48 else 0
    (s.setCtxAt ctx { c with pmc := tab 8 fun j => c.pmcAt j + add j, pmcRun := on }).bump
def Ctx.pmcBytes (c : Ctx) : List Byte := (List.range 8).flatMap fun j => leBytes 8 (c.pmcAt j).toNat

/-! ## The trace ring -/

/-- The VA of the segment that is held or next (R442). -/
def Ctx.segVA (c : Ctx) : W64 := (c.trBase.setWidth 55).signExtend 64 + BitVec.ofNat 64 (65536 * (c.trTail.toNat % max 1 c.trNseg))
/-- Bytes written by the trace unit: W, PROF and PIN are needed (R13, R442). -/
def State.traceWrite (s : State) (ctx off : Nat) (bs : List Byte) : Option State :=
  let va := (s.ctxAt ctx).segVA + BitVec.ofNat 64 off
  match s.walk ctx va with
  | .error _ => none
  | .ok p =>
    if !(p.pte.getLsbD 3 && p.pte.getLsbD 6 && p.pte.getLsbD 11) then none
    else
      match s.physCheck (p.pa va) with
      | .error _ => none
      | .ok () => some (s.performStore none { pa := p.pa va, data := bs, ctx, cp := pteCp p.pte, frec := { kind := kUnrouted, access := Acc.store.code, va, aux := BitVec.ofNat 64 (p.pa va) } })
/-- The held segment released (R442). -/
def State.releaseSeg (s : State) (ctx : Nat) : State :=
  let c := s.ctxAt ctx
  if c.trOff.isSome then s.setCtxAt ctx { c with trOff := none, trTail := c.trTail + 1 } else s
/-- A fault on a segment: FAULT is set, TRACE cleared and nothing released (R442). -/
def State.traceFault (s : State) (ctx : Nat) : State := s.setCtxAt ctx { s.ctxAt ctx with trFault := true, dbgTrace := false }
/-- The header of a packet, with the true time last read (R443). -/
def State.packetHead (s : State) (kind : Nat) (gap : Bool) (len : Nat) : List Byte :=
  leBytes 2 kind ++ leBytes 2 (if gap then 1 else 0) ++ leBytes 2 len ++ leBytes 2 0 ++ leBytes 8 s.pkg.time
/-- True time read: it counts on (R280). -/
def State.readTime (s : State) : State := (s.modPkg fun p => { p with time := s.timeNow }).bump
/-- A packet that its segment has no room for goes to the next one, after padding (R443). -/
def State.padSeg (s : State) (ctx n : Nat) : Option State :=
  match (s.ctxAt ctx).trOff with
  | some o =>
    if o + n ≤ 65536 then some s
    else (s.traceWrite ctx o (s.packetHead 0 false (65536 - o - 16))).map fun s => s.releaseSeg ctx
  | none => some s
/-- Where the next packet starts: in the held segment, or in a new one where one may start (R442). -/
def Ctx.packetAt (c : Ctx) : Option Nat :=
  match c.trOff with
  | some o => some o
  | none => if (c.trTail - c.trHead).toNat < c.trNseg then some 0 else none
/-- A packet into the trace ring, or dropped and counted when no segment may start (R442, R443). -/
def State.packet (s : State) (ctx kind : Nat) (gap : Bool) (payload : List Byte) : State :=
  let n := 16 + payload.length
  match s.readTime.padSeg ctx n with
  | none => s.traceFault ctx
  | some s =>
    let c := s.ctxAt ctx
    match c.packetAt with
    | none => s.setCtxAt ctx { c with trDrop := if c.trDrop == 0xFFFFFFFF#32 then c.trDrop else c.trDrop + 1 }
    | some o =>
      match s.traceWrite ctx o (s.packetHead kind gap payload.length ++ payload) with
      | none => s.traceFault ctx
      | some s =>
        let s := (s.setCtxAt ctx { s.ctxAt ctx with trOff := some (o + n) }).bump
        if o + n = 65536 then s.releaseSeg ctx else s

/-- Capture going on (R444). -/
def State.traceOn (s : State) (ctx : Nat) : State :=
  let c := s.ctxAt ctx
  if c.dbgTrace then s
  else
    let s := (s.setCtxAt ctx { c with dbgTrace := true, trGap := false }).pmcNow ctx
    s.packet ctx 1 false (s.ctxAt ctx).pmcBytes
/-- Capture going off (R442, R444). -/
def State.traceOff (s : State) (ctx : Nat) : State :=
  let c := s.ctxAt ctx
  if !c.dbgTrace then s
  else
    let s := s.pmcNow ctx
    let s := s.packet ctx 2 (s.ctxAt ctx).trGap (s.ctxAt ctx).pmcBytes
    -- a fault on the way has cleared TRACE and releases nothing
    if !(s.ctxAt ctx).dbgTrace then s
    else
      let s := s.releaseSeg ctx
      s.setCtxAt ctx { s.ctxAt ctx with dbgTrace := false }

/-! ## Stops -/

/-- The group answers to a target's name (R432). -/
def State.hasName (s : State) (n : StopName) (k : Nat) : Bool :=
  let g := s.grpAt k
  let t := s.teamAt g.team
  (s.gridAt t.grid).lrec.gid == n.gid && t.id == n.team && g.idx == n.idx && g.part == n.part && g.phase != .split
/-- A group of a context has come to the count it is to stop at (R438); a running handler goes first. -/
def State.stopDue (s : State) (k : Nat) : Bool :=
  let g := s.grpAt k
  let ctx := (s.gridAt (s.teamAt g.team).grid).ctx
  match (s.ctxAt ctx).armed with
  | some n => g.phase == .running && g.handler.isNone && !g.stopped && s.hasName n k && n.ret.toNat ≤ g.retired.toNat
  | none => false
/-- The retired count of a group begins an interval: a multiple of its length, or the first count past one that a fusion has stepped
over (R195, R434; log entry 104). -/
def Grp.newInterval (g : Grp) (intv : Nat) : Bool := g.retired.toNat % 2 ^ intv == 0 || g.crossed
/-- A group that has not written the snapshot of its retired count (R434): at the start of an interval, or at its own, before it or its
handler issues again. -/
def State.snapDue (s : State) (k : Nat) : Bool :=
  let g := s.grpAt k
  let c := s.ctxAt (s.gridAt (s.teamAt g.team).grid).ctx
  c.dbgLogOn && g.phase == .running && g.snapped != some g.retired && (g.newInterval c.dbgIntv || g.iss == {})

/-- A group of the context is stopped, live or in replay (R439). -/
def Ctx.hasStop (c : Ctx) : Bool := c.stopGrp.isSome || c.replay.isSome
/-- The stop event of a group (R443). -/
def State.stopPacket (s : State) (ctx grp : Nat) (code : W32) : State :=
  let g := s.grpAt grp
  let t := s.teamAt g.team
  if (s.ctxAt ctx).dbgTrace then
    s.packet ctx 4 false (leBytes 4 (s.gridAt t.grid).lrec.gid.toNat ++ leBytes 4 t.id.toNat ++ leBytes 1 g.idx ++ leBytes 1 g.part ++ leBytes 6 0
      ++ leBytes 8 g.retired.toNat ++ leBytes 4 code.toNat ++ leBytes 4 0)
  else s
/-- A stop reported: the group is the stopped one, with the code of a breakpoint (R439). -/
def State.report (s : State) (ctx grp : Nat) (bk : Option W32) : State :=
  (s.setCtxAt ctx { s.ctxAt ctx with stopGrp := some grp, dbgBk := bk.isSome, dbgCode := bk.getD 0 }).stopPacket ctx grp (bk.getD 0)
/-- A group that meets a stop condition holds; while another is stopped its report waits (R439). -/
def State.stopGroup (s : State) (grp : Nat) (bk : Option W32) : State :=
  let ctx := (s.gridAt (s.teamAt (s.grpAt grp).team).grid).ctx
  let s := s.setGrpAt grp { s.grpAt grp with stopped := true }
  let c := s.ctxAt ctx
  if c.hasStop then s.setCtxAt ctx { c with heldStops := c.heldStops ++ [(grp, bk)] } else s.report ctx grp bk

/-- A group of the context of a target's name has retired, and none still runs by that name; a part that was fused has not retired
(R195, R438). -/
def State.targetGone (s : State) (ctx : Nat) (n : StopName) : Bool :=
  let named (p : Grp → Bool) : Bool := s.groups.any fun e => s.hasName n e.1 && (s.gridAt (s.teamAt e.2.team).grid).ctx == ctx && p e.2
  (named fun g => g.phase == .retired && !g.fused) && !named fun g => g.phase == .running
/-- DBGSTAT.STATE (R433, R438): an armed target that has retired was not reached, and a stopped group that has ended is stopped no
more. -/
def State.dbgState (s : State) (ctx : Nat) : Nat :=
  let c := s.ctxAt ctx
  match c.stopGrp with
  | some k => if (s.grpAt k).phase == .running then 2 else 0
  | none =>
    if c.replay.isSome then 3
    else
      match c.armed with
      | some n => if s.targetGone ctx n then 4 else 1
      | none => c.dbgState

end Sys2Proof.Machine
end

