-- ==== Sys2Proof/Machine/Bar.lean ====
section
/-! DEFINITION. The barrier instructions (major 0x15, R326, R327) with pending reports (R422), and the resumption of lanes from a
lane wait (R188). -/

namespace Sys2Proof.Machine

/-! ## Reports taken at a barrier instruction -/

/-- TINFO of a Barrier Overrun (R413). -/
def BarName.info (b : BarName) : Nat := b.addr.toNat + if b.kspace then 2 ^ 32 else 0
/-- The group holds no report for an object any more (R113). -/
def State.takeReport (s : State) (b : BarName) : State := s.modG fun g => { g with overruns := g.overruns.filter fun x => !b.same x.2 }
/-- A Barrier Overrun of some lanes that names an object whose OV is 1, which takes the report (R113). -/
def State.overrunAt (s : State) (act : Mask) (b : BarName) : Did :=
  .done (s.takeReport b) (failAll s.g act { cause := cOverrun, info := b.info })

/-- The guard report of the focused group: its record (R30, R422), then the Guard Fault of the active lanes. -/
def State.guardReport (s : State) (act : Mask) (x : Guard) : Did :=
  if s.recordRoom = 0 then .stall s .fault
  else
    let r := { s.grpRec kGuard .none x.width x.mask 0 (scrAux x.off.toNat) with access := x.access, pc := x.pc, retired := x.retired }
    let (s, q) := s.recordAt s.foc.ctx s.foc.core r
    .done (s.modG fun g => { g with guard := none }) (failAll s.g act { cause := cGuard, info := q.toNat + 2 ^ 32, impr := true })

/-- The operands of a barrier instruction: the first poisoned one, and the address (R326). -/
def State.barAddr (s : State) (f : MF) : Nat := ((s.rd 0 .n32 f.a).n + (s.rd 0 .n32 f.b).n) % 2 ^ 32
def State.barPoison (s : State) (os : List Opnd) : Option Opnd := os.find? fun o => (s.rd 0 .b64 o).poi
def MF.kspace (f : MF) : Bool := f.i % 2 == 1
/-- The object that a barrier word names now, if its operands are clean (R109). -/
def State.barNow (s : State) (f : MF) : Option BarName :=
  if (s.barPoison [f.a, f.b]).isSome then none else s.barName (MF.kspace f) (s.barAddr f)

/-- The pending reports that BARRIVE and BWAIT take first, one for each issue (R422): the guard report, then overruns, oldest
first, but for the one that the word takes precisely. -/
def State.pending (s : State) (f : MF) (act : Mask) : Option Did :=
  match s.g.guard with
  | some x => some (s.guardReport act x)
  | none =>
    let named := (s.barNow f).filter fun b => (s.barGet b).ov
    match s.g.overruns.find? fun x => !named.any x.2.same with
    | some x => some (.done (s.takeReport x.2) (failAll s.g act { cause := cOverrun, info := x.2.info, impr := true }))
    | none => none

/-- The checks of R326, then `k` on the object: poison of the operands `os` in turn, R109, and OV where the word minds it. -/
def State.withBar (s : State) (f : MF) (act : Mask) (os : List Opnd) (ov : Bool) (k : State → BarName → Did) : Did :=
  match s.barPoison os with
  | some o => .done s (failAll s.g act (.poison o))
  | none =>
    match s.barName (MF.kspace f) (s.barAddr f) with
    | none => .done s (failAll s.g act .opndLate)
    | some b => if ov && (s.barGet b).ov then s.overrunAt act b else k s b

/-- BINIT (R110). -/
def execBinit (p : Pred) (f : MF) (s : State) : Out :=
  s.perform false p (fun _ => true) fun s act =>
    s.withBar f act [f.a, f.b, f.d] false fun s b =>
      let n := (s.rd 0 .b64 f.d).n
      if n < 1 || 65535 < n then .done s (failAll s.g act .opndLate) else .done (s.barPut b { expl := n }) []

/-- BEXPECT (R111, R112). -/
def execBexpect (p : Pred) (f : MF) (s : State) : Out :=
  s.perform false p (fun _ => true) fun s act =>
    s.withBar f act [f.a, f.b, f.d] true fun s b =>
      let o := s.barGet b
      let n := (s.rd 0 .n32 f.d).n
      let s' := s.barUpdate b (o.expect n)
      if 2 ^ 32 - 1 < o.expb + n then s'.overrunAt act b else .done s' []

/-- BARRIVE (R111, R154): the arrival of the active lanes, as a release. In a DET grid .l lanes wait for their phase. -/
def execBarrive (p : Pred) (f : MF) (s : State) : Out :=
  s.perform false p (fun _ => true) fun s act =>
    (s.pending f act).getD <| s.withBar f act [f.a, f.b] true fun s b =>
      let o := s.barGet b
      let c := (s.g.lanesOf act).length
      let s := s.release f.scope
      s.orWait true f.scope <|
      if o.expl < o.arrl + c then (s.barUpdate b (o.arrive c)).overrunAt act b
      else if !f.arriveL then .done (s.barUpdate b (o.arrive c)) []
      else
        match f.d with
        | .s i =>
          if s.gr.det then
            let w : Wait := .arriveL b (BitVec.ofNat 32 o.phase) i none s.g.iss.word s.g.retired
            let s := s.modG fun g => g.modLanes (g.lanesOf act) fun _ x => { x with st := .waiting, wait := w, woken := none, owes := false }
            .done (s.barUpdate b (o.arrive c)) []
          else
            let v := if o.arrl + c = o.expl then 1 else 0
            .done (((s.setG (s.g.putS i.val ⟨v, false⟩)).barUpdate b (o.arrive c)).logIn .arrive 0 (leBytes 8 v)) []
        | _ => .done s []

/-- BWAIT (R114, R327): each active lane enters a lane wait. -/
def execBwait (p : Pred) (f : MF) (s : State) : Out :=
  s.perform false p (fun _ => true) fun s act =>
    (s.pending f act).getD <| s.withBar f act [f.a, f.b, f.d] true fun s b =>
      let ph : W32 := BitVec.ofNat 32 ((s.rd 0 .n32 f.d).n % 2 ^ 31)
      let w : Wait := .bwait b ph f.scope s.g.iss.word s.g.retired
      .done (s.modG fun g => g.modLanes (g.lanesOf act) fun _ x => { x with st := .waiting, wait := w, woken := (s.barGet b).ends ph, owes := false }) []

/-- BTEST (R327): word 0 of the object, into z alone in a DET grid (R153); it shifts no y. -/
def execBtest (p : Pred) (f : MF) (s : State) : Out :=
  s.perform false p (s.opsOk [(f.d, 1)]) fun s act =>
    if f.d.isZ != s.gr.det then .done s (failAll s.g act .opndLate)
    else
      s.withBar f act [f.a, f.b] true fun s b =>
        let o := s.barGet b
        let v := o.phase + if o.ov then 2 ^ 31 else 0
        let s := s.logIn .btest b.addr.toNat (leBytes 4 v)
        match f.d with
        | .z i => .done (s.setG (s.g.setZreg i.val (BitVec.ofNat 64 v))) []
        | .s i => .done (s.setG (s.g.putS i.val ⟨v, false⟩)) []
        | d => .done (s.setG (s.g.modLanes (s.g.lanesOf act) fun _ x => x.putRegs s.g.wb d [⟨BitVec.ofNat 32 v, false⟩])) []

/-! ## The end of a lane wait -/

/-- How a wait stands: still on, over, or over because its object has overrun (R113). -/
inductive WaitEnd | on | over | overrun
deriving DecidableEq, Repr

def Lane.waitEnd (x : Lane) : WaitEnd :=
  match x.wait with
  | .none => .over
  | .gfuse => .on
  | _ => match x.woken with | none => .on | some false => .over | some true => .overrun

/-- The lowest PC of some lanes. -/
def Grp.lowest (g : Grp) (ls : List Nat) : Option W64 :=
  ls.foldl (fun r l => match r with | none => some (g.lane l).pc | some p => some (if (g.lane l).pc.toNat < p.toNat then (g.lane l).pc else p)) none

/-- The lanes that a group resumes next (R188): those at the lowest PC of its Waiting lanes, while none runs or handles a trap. -/
def Grp.waitSet (g : Grp) : List Nat :=
  if g.phase != .running || g.handler.isSome || g.stall != .none || !(g.inState .running).isEmpty then []
  else
    let ws := g.inState .waiting
    match g.lowest ws with
    | none => []
    | some pc => ws.filter fun l => (g.lane l).pc == pc

/-- Every wait of the lanes to be resumed has ended, and no stop holds the group (R438). -/
def State.canResume (s : State) (grp : Nat) : Bool :=
  let g := s.grpAt grp
  let ls := g.waitSet
  !g.stopped && !s.stopDue grp && !ls.isEmpty && ls.all fun l => (g.lane l).waitEnd != .on

/-- The scope of the acquire of a returning BWAIT (R97): another team's object is acquired at .clu at least, and in a DET grid, where
the phase may hold the bytes of an epoch's close, every object at .pkg (R144). -/
def waitScope (det : Bool) (team : Nat) (b : BarName) (sc : Scope) : Scope :=
  if det then (match sc with | .pod => .pod | _ => .pkg) else
  match sc with
  | .grp => if b.team == team then .core else .clu
  | .core => if b.team == team then .core else .clu
  | sc => sc

/-- The object, word and retired count of a barrier wait. -/
def waitObj : Wait → Option (BarName × W64 × W64)
  | .bwait b _ _ w r => some (b, w, r)
  | .arriveL b _ _ _ w r => some (b, w, r)
  | _ => none

/-- NF raised in the lanes of a collective by the return of a BWAIT on the phase that counted it (R207). -/
def State.collNfAt (s : State) (b : BarName) (phase : W32) : State :=
  s.modG fun g =>
    let mine := g.collNf.filter fun x => b.same x.1 && x.2.1 == phase
    let m := mine.foldl (fun m x => m ||| x.2.2) 0
    { g.modLanes (g.lanesOf (m >>> g.base)) fun _ x => x.raise fNF with collNf := g.collNf.filter fun x => !(b.same x.1 && x.2.1 == phase) }

/-- The version of the cache that the return of a BWAIT on a phase binds the group to (R388). -/
def State.bindAt (s : State) (b : BarName) (phase : W32) : State :=
  match (s.teamAt b.team).rcBinds.reverse.find? fun x => b.same x.1 && x.2.1 == phase with
  | some x => if s.gr.det then s.modG fun g => { g with rcBound := x.2.2, rcDue := 0 } else s
  | none => s

/-- The issues that retire as some lanes resume, for the first time in a lane of them (R152), each by its retired count. -/
def Grp.owed (g : Grp) (ls : List Nat) : List W64 :=
  (ls.filterMap fun l => if (g.lane l).owes then (waitObj (g.lane l).wait).map (·.2.2) else none).eraseDups
/-- One such issue counted. -/
def State.countWait (s : State) (r : W64) : State :=
  let owed (x : Lane) : Bool := x.owes && (waitObj x.wait).map (·.2.2) == some r
  ((s.modG fun g => { g.modLanes (g.laneIdx.filter fun l => owed (g.lane l)) fun _ x => { x with owes := false } with retired := g.retired + 1 }).count s.foc.ctx 1 1).logState

/-- LANE_WAIT_RESUME (R188): the lanes run again. A BWAIT acquires (R97), an arrival learns whether it is designated (R154), and
lanes whose object has overrun trap at their barrier word (R113). Where several issues retire with them, all but one are counted
first, one at a time, so that a stop or a snapshot meets each count (R434, R438). -/
def execLaneWaitResume (grp : Nat) (s : State) : Out :=
  if !s.canResume grp then .next s
  else
    let s := s.focusGrp grp
    let ls := s.g.waitSet
    let ovl := ls.filter fun l => (s.g.lane l).waitEnd == .overrun
    let first := (ovl.head?.map fun l => (s.g.lane l)).bind fun x => (waitObj x.wait).map fun y => (x.pc - 8, y)
    match s.g.owed (ls.filter fun l => !ovl.contains l) with
    | r :: _ :: _ => .next (s.countWait r).bump
    | owed =>
    let s := (ls.filter fun l => !ovl.contains l).foldl (fun s l =>
      match (s.g.lane l).wait with
      | .bwait b ph sc _ _ => ((s.acquire (waitScope s.gr.det s.foc.team b sc)).collNfAt b ph).bindAt b ph
      | .arriveL _ _ d res _ _ => let v : W64 := if res.getD false then 1 else 0; (s.setG (s.g.setSreg d.val ⟨v, false⟩)).logIn .arrive l (leBytes 8 v.toNat)
      | _ => s) s
    let taken := ovl.filterMap fun l => (waitObj (s.g.lane l).wait).map (·.1)
    let s := owed.foldl State.countWait s
    let s := s.modG fun g => g.modLanes ls fun _ x => { x with st := .running, wait := .none, rot := 0, woken := none, owes := false }
    match first with
    | none => .next s
    | some (pc, b, w, ret) =>
      let s := (taken.foldl State.takeReport s).modG fun g => g.modLanes ovl fun _ x => { x with pc }
      .next (s.bump.trapEntry (maskOf ovl) { cause := cOverrun, info := b.info } pc w ret)

end Sys2Proof.Machine
end

