-- ==== Sys2Proof/Machine/FpFun.lean ====
section
/-! DEFINITION. The approximate functions (R216 to R218): the exact value of each function to far more digits than its rounding
can need, rounded to nearest at the precision of R218, with the special cases of R217. -/

namespace Sys2Proof.Machine

/-! ## Fixed-point evaluation

Numbers are scaled by 2^funBits; every series stops once its terms vanish at that scale. -/

def funBits : Nat := 800
def funOne : Nat := 2 ^ funBits

/-- Σ x·y^i/(2i+1) with alternating or equal signs, from the power t = x·y^i at index i: the sums of positive and negative
terms. -/
def oddSeries (div alt : Nat) : Nat → Nat → Nat → Nat × Nat → Nat × Nat
  | 0, _, _, a => a
  | fuel + 1, i, t, (p, n) =>
    oddSeries div alt fuel (i + 1) (t / div) (if alt * i % 2 = 0 then (p + t / (2 * i + 1), n) else (p, n + t / (2 * i + 1)))
/-- atan(1/n) and atanh(1/n). -/
def atanInv (n : Nat) : Nat := let r := oddSeries (n * n) 1 400 0 (funOne / n) (0, 0); r.1 - r.2
def atanhInv (n : Nat) : Nat := (oddSeries (n * n) 0 600 0 (funOne / n) (0, 0)).1
def fixPi : Nat := 16 * atanInv 5 - 4 * atanInv 239
def fixLn2 : Nat := 2 * atanhInv 3

/-- e^t for a fixed-point t below 1: the sum of the terms from index k on, where `term` is t^(k-1)/(k-1)!. -/
def expSeries (t : Nat) : Nat → Nat → Nat → Nat → Nat
  | 0, _, _, acc => acc
  | fuel + 1, k, term, acc => let x := term * t / funOne / k; expSeries t fuel (k + 1) x (acc + x)
def fixExp (t : Nat) : Nat := expSeries t 220 1 funOne funOne

/-- 2·atanh(z) for a fixed-point z of at most 1/3. -/
def lnSeries (z2 : Nat) : Nat → Nat → Nat → Nat → Nat
  | 0, _, _, acc => acc
  | fuel + 1, i, t, acc => lnSeries z2 fuel (i + 1) (t * z2 / funOne) (acc + t / (2 * i + 1))
/-- ln(y) of y = n/d with 1 ≤ y < 2. -/
def fixLn (n d : Nat) : Nat :=
  let z := (n - d) * funOne / (n + d)
  2 * lnSeries (z * z / funOne) 280 0 z 0

/-- The terms of sine and cosine of a fixed-point r: (−1)^k r^(2k+o)/(2k+o)!, as sums of positive and negative terms. -/
def sinSeries (r2 o : Nat) : Nat → Nat → Nat → Nat × Nat → Nat × Nat
  | 0, _, _, a => a
  | fuel + 1, k, t, (p, n) =>
    let a := if k % 2 = 0 then (p + t, n) else (p, n + t)
    sinSeries r2 o fuel (k + 1) (t * r2 / funOne / ((2 * k + 1 + o) * (2 * k + 2 + o))) a
def fixSin (r : Nat) : Nat := let a := sinSeries (r * r / funOne) 1 120 0 r (0, 0); a.1 - a.2
def fixCos (r : Nat) : Nat := let a := sinSeries (r * r / funOne) 0 120 0 funOne (0, 0); a.1 - a.2

/-! ## The functions -/

inductive Fun | rcp | rsq | exp2 | log2 | sin | cos
deriving DecidableEq, Repr

/-- The precision of a type's result (R218). -/
def funPrec (f : Fmt) : Nat := if f == fp64 then 28 else f.fb + 1

/-- The value m × 2^e, slightly more when `sticky`, delivered to nearest; `exact` cases raise no NX, every other finite result
does (R217, R218). -/
def funDeliver (f : Fmt) (env : FpEnv) (exact : Bool) (neg : Bool) (m : Nat) (sticky : Bool) (e : Int) : FpR :=
  let env := { env with rm := .rne }
  let r := if m == 0 && !sticky then ⟨f.signed neg 0, 0⟩ else resultCore f (funPrec f) false env neg m sticky e
  if exact then r else { r with fl := r.fl ||| fNX }

/-- A number is ± a power of two. -/
def isPow2 (m : Nat) : Bool := m != 0 && m == 2 ^ Nat.log2 m

/-- Sine or cosine of a finite non-zero number m × 2^e (R216, R218). -/
def trig (f : Fmt) (env : FpEnv) (cosine neg : Bool) (m : Nat) (e : Int) : FpR :=
  let x := m * 2 ^ (e + funBits).toNat
  let h := fixPi / 2
  let q := x / h % 4
  let r := x % h
  let useCos := (q % 2 == 1) != cosine
  let v := if useCos then fixCos r else fixSin r
  let flip := if cosine then q == 1 || q == 2 else (q == 2 || q == 3)
  funDeliver f env false (if cosine then flip else flip != neg) v true (-(funBits : Int))

/-- An approximate function of an operand after OPND. -/
def approx (fn : Fun) (f : Fmt) (env : FpEnv) (a : Num) : FpR :=
  match a with
  | .nan .. => ⟨nanResult f env [a], nvOf [a]⟩
  | .inf neg =>
    match fn with
    | .rcp => ⟨f.signed neg 0, 0⟩
    | .rsq => if neg then ⟨f.nanBits, fNV⟩ else ⟨0, 0⟩
    | .exp2 => if neg then ⟨0, 0⟩ else infResult f false
    | .log2 => if neg then ⟨f.nanBits, fNV⟩ else infResult f false
    | .sin => ⟨f.nanBits, fNV⟩
    | .cos => ⟨f.nanBits, fNV⟩
  | .fin neg m e =>
    if m == 0 then
      match fn with
      | .rcp => { infResult f neg with fl := fDZ }
      | .rsq => { infResult f neg with fl := fDZ }
      | .exp2 => resultFin f {} false 1 0
      | .log2 => { infResult f true with fl := fDZ }
      | .sin => ⟨f.signed neg 0, 0⟩
      | .cos => resultFin f {} false 1 0
    else
      match fn with
      | .rcp =>
        let k := funBits
        let q := 2 ^ k / m
        let r := funDeliver f env (isPow2 m && f.emin ≤ -(leadExp m e)) neg q (2 ^ k % m != 0) (-e - k)
        r
      | .rsq =>
        if neg then ⟨f.nanBits, fNV⟩
        else
          let odd : Nat := if e % 2 == 0 then 0 else 1
          let n := 2 ^ (2 * funBits) / (m * 2 ^ odd)
          let q := isqrt n
          let exact := isPow2 m && (leadExp m e) % 2 == 0
          funDeliver f env exact false q (!exact) (-((e - odd) / 2) - funBits)
      | .exp2 =>
        let x := atExp neg m e (-(funBits : Int))
        let whole := x % funOne == 0
        let n := max (-3000) (min 3000 (x / funOne))
        let fr := (x % funOne).toNat
        if whole then funDeliver f env true false 1 false n
        else funDeliver f env false false (fixExp (fr * fixLn2 / funOne)) true (n - funBits)
      | .log2 =>
        if neg then ⟨f.nanBits, fNV⟩
        else
          let k := leadExp m e
          if isPow2 m then resultFin f { env with rm := .rne } (k < 0) k.natAbs 0
          else
            let l : Int := k * funOne + (fixLn m (2 ^ Nat.log2 m) * funOne / fixLn2 : Nat)
            funDeliver f env false (l < 0) l.natAbs true (-(funBits : Int))
      | .sin => trig f env false neg m e
      | .cos => trig f env true neg m e

end Sys2Proof.Machine
end

