-- ==== Sys2Proof/Machine/FpOps.lean ====
section
/-! DEFINITION. The FP instructions (major 0x08, R283 to R295): each element of each active lane through OPND, the operation and
RESULT, with flags raised in lanes whose result is not poisoned (R213, R284). -/

namespace Sys2Proof.Machine

/-! ## Elements -/

/-- The elements of a value of a floating-point type (R203). -/
def elems (t : Ty) (n : Nat) : List Nat := if t.is16x2 then [n % 65536, n / 65536 % 65536] else [n]
def joinElems (t : Ty) (es : List Nat) : Nat := if t.is16x2 then es.getD 0 0 + 65536 * es.getD 1 0 else es.getD 0 0
/-- Results of elements joined, with their flags together (R203). -/
def joinRes (t : Ty) (rs : List FpR) : FpR := ⟨joinElems t (rs.map (·.bits)), rs.foldl (fun f r => f ||| r.fl) 0⟩
/-- The number of elements. -/
def elemCount (t : Ty) : Nat := if t.is16x2 then 2 else 1

/-- A per-lane result with its flags, which a poisoned result does not raise (R213, R284). -/
def Lane.putFp (x : Lane) (wb : Nat) (d : Opnd) (is64 : Bool) (r : FpR) (poi : Bool) : Lane :=
  (x.putVec wb d is64 ⟨r.bits, poi⟩).raise (if poi then 0 else r.fl)

/-- An FP instruction of n sources, element by element (R286, R288): `fn` from the operands after OPND. -/
def State.fpOp (s : State) (p : Pred) (f : VF) (n : Nat) (fn : Fmt → FpEnv → List Num → FpR) : Out :=
  let srcs := [f.a, f.b, f.c].take n
  let fmt := Ty.fmt f.ty
  s.perLane p (s.opsOk (withRegs f.ty.regs (f.d :: srcs))) fun s l x =>
    let env := fpEnv x.fpl f.rmo
    let vs := srcs.map fun o => s.rd l f.ty o
    let rs := tab (elemCount f.ty) fun e => satInf fmt f.sat (fn fmt env (vs.map fun v => opnd fmt env ((elems f.ty v.n).getD e 0)))
    x.putFp s.g.wb f.d f.ty.is64 (joinRes f.ty rs) (vs.any (·.poi))

/-- An operand of a list. -/
def at' (xs : List Num) (i : Nat) : Num := xs.getD i (.fin false 0 0)

/-- A − B: the sign of a NaN operand is kept. -/
def fsub (f : Fmt) (env : FpEnv) (a b : Num) : FpR := fadd f env a (if b.isNan then b else b.negate)

def execFadd (p : Pred) (f : VF) (s : State) : Out := s.fpOp p f 2 fun m e xs => fadd m e (at' xs 0) (at' xs 1)
def execFsub (p : Pred) (f : VF) (s : State) : Out := s.fpOp p f 2 fun m e xs => fsub m e (at' xs 0) (at' xs 1)
def execFmul (p : Pred) (f : VF) (s : State) : Out := s.fpOp p f 2 fun m e xs => fmul m e (at' xs 0) (at' xs 1)
def execFfma (p : Pred) (f : VF) (s : State) : Out := s.fpOp p f 3 fun m e xs => ffma m e (at' xs 0) (at' xs 1) (at' xs 2)
def execFdiv (p : Pred) (f : VF) (s : State) : Out := s.fpOp p f 2 fun m e xs => fdiv m e (at' xs 0) (at' xs 1)
def execFsqrt (p : Pred) (f : VF) (s : State) : Out := s.fpOp p f 1 fun m e xs => fsqrt m e (at' xs 0)

/-- minimum and maximum of IEEE 754-2019 (R289). -/
def minMax (f : Fmt) (env : FpEnv) (max : Bool) (a b : Num) : FpR :=
  if a.isNan || b.isNan then ⟨nanResult f env [a, b], nvOf [a, b]⟩ else minMaxNumber f env max a b

def execFmin (p : Pred) (f : VF) (s : State) : Out := s.fpOp p f 2 fun m e xs => minMaxNumber m e false (at' xs 0) (at' xs 1)
def execFmax (p : Pred) (f : VF) (s : State) : Out := s.fpOp p f 2 fun m e xs => minMaxNumber m e true (at' xs 0) (at' xs 1)
def execFminm (p : Pred) (f : VF) (s : State) : Out := s.fpOp p f 2 fun m e xs => minMax m e false (at' xs 0) (at' xs 1)
def execFmaxm (p : Pred) (f : VF) (s : State) : Out := s.fpOp p f 2 fun m e xs => minMax m e true (at' xs 0) (at' xs 1)

def execFrcp (p : Pred) (f : VF) (s : State) : Out := s.fpOp p f 1 fun m e xs => approx .rcp m e (at' xs 0)
def execFrsq (p : Pred) (f : VF) (s : State) : Out := s.fpOp p f 1 fun m e xs => approx .rsq m e (at' xs 0)
def execFexp2 (p : Pred) (f : VF) (s : State) : Out := s.fpOp p f 1 fun m e xs => approx .exp2 m e (at' xs 0)
def execFlog2 (p : Pred) (f : VF) (s : State) : Out := s.fpOp p f 1 fun m e xs => approx .log2 m e (at' xs 0)
def execFsin (p : Pred) (f : VF) (s : State) : Out := s.fpOp p f 1 fun m e xs => approx .sin m e (at' xs 0)
def execFcos (p : Pred) (f : VF) (s : State) : Out := s.fpOp p f 1 fun m e xs => approx .cos m e (at' xs 0)

/-- FRINT (R292): a zero result takes A's sign, FTZ plays no part, and NX is raised under .x alone. -/
def frint (f : Fmt) (env : FpEnv) (x : Bool) (a : Num) : FpR :=
  match a with
  | .fin neg _ _ =>
    let r := roundInt env.rm a
    ⟨(resultFin f {} neg r.1.natAbs 0).bits, if x && !r.2 then fNX else 0⟩
  | .inf neg => infResult f neg
  | .nan .. => ⟨nanResult f env [a], nvOf [a]⟩
def execFrint (p : Pred) (f : VF) (s : State) : Out := s.fpOp p f 1 fun m e xs => frint m e (f.m == 1) (at' xs 0)

/-- FGETEXP (R294). -/
def fgetexp (f : Fmt) (env : FpEnv) (a : Num) : FpR :=
  match a with
  | .nan .. => ⟨nanResult f env [a], nvOf [a]⟩
  | .inf _ => infResult f false
  | .fin _ m e =>
    if m == 0 then { infResult f true with fl := fDZ }
    else let k := leadExp m e; resultFin f env (k < 0) k.natAbs 0
def execFgetexp (p : Pred) (f : VF) (s : State) : Out := s.fpOp p f 1 fun m e xs => fgetexp m e (at' xs 0)

/-- The integer that FSCALE reads from B for element e: 32 bits, or 16 under a packed type (R293). -/
def scaleOf (t : Ty) (o : Opnd) (v : Nat) (e : Nat) : Int :=
  match o with
  | .const c => c.int
  | _ => if t.is16x2 then sgn 16 (v / 2 ^ (16 * e)) else sgn 32 v

/-- FSCALE: A × 2^n (R293). The exponent is bounded where every result is already beyond the format. -/
def fscale (f : Fmt) (env : FpEnv) (a : Num) (n : Int) : FpR := deliverNum f env (a.scale (max (-5000) (min 5000 n)))
def execFscale (p : Pred) (f : VF) (s : State) : Out :=
  let fmt := Ty.fmt f.ty
  s.perLane p (s.opsOk [(f.d, f.ty.regs), (f.a, f.ty.regs), (f.b, 1)]) fun s l x =>
    let env := fpEnv x.fpl f.rmo
    let a := s.rd l f.ty f.a
    let b := s.rd l .i32 f.b
    let rs := tab (elemCount f.ty) fun e =>
      satInf fmt f.sat (fscale fmt env (opnd fmt env ((elems f.ty a.n).getD e 0)) (scaleOf f.ty f.b b.n e))
    x.putFp s.g.wb f.d f.ty.is64 (joinRes f.ty rs) (a.poi || b.poi)

/-- FDOT2: two products and an FP32 addend, exact before one rounding (R295). -/
def execFdot2 (p : Pred) (f : VF) (s : State) : Out :=
  let fmt := Ty.fmt f.ty
  s.perLane p (s.opsOk (withRegs 1 [f.d, f.a, f.b, f.c])) fun s l x =>
    let env := fpEnv x.fpl f.rmo
    let a := s.rd l f.ty f.a
    let b := s.rd l f.ty f.b
    let c := s.rd l .f32 f.c
    let e (v : Nat) (i : Nat) : Num := opnd fmt env ((elems f.ty v).getD i 0)
    let xs := [e a.n 0, e a.n 1, e b.n 0, e b.n 1, opnd fp32 env c.n]
    let r := deliverSum fp32 env xs (termsOf [(e a.n 0, e b.n 0), (e a.n 1, e b.n 1)] [opnd fp32 env c.n])
    x.putFp s.g.wb f.d false (satInf fp32 f.sat r) (a.poi || b.poi || c.poi)

/-! ## Comparison and class -/

/-- The conditions of R290 with the NV each raises. -/
def fcmp (code : Nat) (a b : Num) : Bool × W32 :=
  let un := a.isNan || b.isNan
  let holds := match code with
    | 0 => numEq a b
    | 1 => un || !numEq a b
    | 2 => !un && numLt a b
    | 3 => !un && !numLt b a
    | 4 => !un && numLt b a
    | 5 => !un && !numLt a b
    | 6 => un
    | 7 => !un
    | 8 => !un && numLt a b
    | 9 => !un && !numLt b a
    | 10 => !un && numLt b a
    | _ => !un && !numLt a b
  (holds, if 2 ≤ code && code ≤ 5 && un then fNV else nvOf [a, b])

/-- FCMP in a lane: the result by element, the flags, and poison. -/
def State.fcmpLane (s : State) (f : VF) (l : Nat) : List Bool × W32 × Bool :=
  let fmt := Ty.fmt f.ty
  let env := fpEnv (s.g.lane l).fpl f.rmo
  let a := s.rd l f.ty f.a
  let b := s.rd l f.ty f.b
  let rs := tab (elemCount f.ty) fun e =>
    fcmp f.m (opnd fmt env ((elems f.ty a.n).getD e 0)) (opnd fmt env ((elems f.ty b.n).getD e 0))
  (rs.map (·.1), rs.foldl (fun x r => x ||| r.2) 0, a.poi || b.poi)

def execFcmp (p : Pred) (f : VF) (s : State) : Out :=
  let srcs := withRegs f.ty.regs [f.a, f.b]
  match f.d with
  | .m i =>
    s.perform false p (s.opsOk srcs) fun s act =>
      let g := s.g.modLanes (s.g.lanesOf act) fun l x => let r := s.fcmpLane f l; x.raise (if r.2.2 then 0 else r.2.1)
      .done (s.setG (g.putMLanes i.val act fun l => let r := s.fcmpLane f l; ⟨if r.1.getD 0 false then 1 else 0, r.2.2⟩)) []
  | d =>
    s.perLane p (s.opsOk ((d, 1) :: srcs)) fun s l x =>
      let r := s.fcmpLane f l
      let bit (e one : Nat) : Nat := if r.1.getD e false then one else 0
      let v := if f.ty.is16x2 then bit 0 0xFFFF + bit 1 0xFFFF0000 else bit 0 1
      x.putFp s.g.wb d false ⟨v, r.2.1⟩ r.2.2

/-- The class bit of an encoding (R291), from its raw bits. -/
def fclass (f : Fmt) (b : Nat) : Nat :=
  match unpack f b with
  | .nan _ sig _ _ => if sig then 2 ^ 8 else 2 ^ 9
  | .inf neg => if neg then 1 else 2 ^ 7
  | .fin neg m _ =>
    if m == 0 then (if neg then 2 ^ 3 else 2 ^ 4)
    else if m < 2 ^ f.fb then (if neg then 2 ^ 2 else 2 ^ 5)
    else (if neg then 2 ^ 1 else 2 ^ 6)
def execFclass (p : Pred) (f : VF) (s : State) : Out :=
  s.perLane p (s.opsOk [(f.d, 1), (f.a, f.ty.regs)]) fun s l x =>
    let a := s.rd l f.ty f.a
    x.putVec s.g.wb f.d false ⟨joinElems f.ty ((elems f.ty a.n).map (fclass (Ty.fmt f.ty))), a.poi⟩

end Sys2Proof.Machine
end

