-- ==== Sys2Proof/Machine/Copy.lean ====
section
/-! DEFINITION. The copy engine and the stream ports (R115 to R129, R328, R329): layout records, the checks of a command, its
landings, and the pushes of CPYS into ports. -/

namespace Sys2Proof.Machine

/-! ## Layout records (R116 to R118) -/

/-- The bytes of an element (R117). -/
def fmtBytes : Nat → Nat
  | 0 => 1 | 1 => 2 | 2 => 4 | 3 => 8 | 4 => 8 | 5 => 4 | 6 => 2 | 7 => 2 | _ => 1
/-- The floating-point format of codes 5 to 9. -/
def fmtOf : Nat → Fmt
  | 5 => fp32 | 6 => fp16 | 7 => bf16 | 8 => e4m3 | _ => e5m2

/-- The bytes of a record as a layout, and whether check 3 of R119 passes it. -/
def readLayout (b : List Byte) : Layout × Bool :=
  let w (lo n : Nat) : Nat := ofLe ((b.drop lo).take n)
  let ext := tab 4 fun i => w (16 + 4 * i) 4
  let l : Layout := { base := BitVec.ofNat 64 (w 0 8), rank := w 8 1, fmt := w 9 1, space := w 10 1, swz := (w 11 1).testBit 0, ext,
                      sd := tab 3 fun i => sgn 64 (w (32 + 8 * i) 8) }
  let zero := w 11 1 < 2 && w 12 4 = 0 && w 56 8 = 0
  let exts := (List.range 4).all fun i => 1 ≤ ext.getD i 0 && ext.getD i 0 ≤ 2 ^ 24 && (i < l.rank || ext.getD i 0 = 1)
  let swz := !l.swz || (l.space ≠ 0 && w 0 8 % 128 = 0 && l.sd.getD 0 0 % 128 = 0 && 128 ≤ ext.getD 0 0 * fmtBytes l.fmt)
  (l, zero && l.fmt ≤ 9 && l.space ≤ 2 && 1 ≤ l.rank && l.rank ≤ 4 && exts && (l.space = 0 || w 4 4 = 0) && swz)

def Layout.eb (l : Layout) : Nat := fmtBytes l.fmt
def Layout.e (l : Layout) (i : Nat) : Nat := l.ext.getD i 1
def Layout.count (l : Layout) : Nat := l.e 0 * l.e 1 * l.e 2 * l.e 3
def Layout.bytes (l : Layout) : Nat := l.count * l.eb
/-- The coordinates of element j, c0 fastest. -/
def Layout.coords (l : Layout) (j : Nat) : Nat × Nat × Nat × Nat :=
  (j % l.e 0, j / l.e 0 % l.e 1, j / (l.e 0 * l.e 1) % l.e 2, j / (l.e 0 * l.e 1 * l.e 2))
/-- The address of an element, before it is taken as a VA or a 32-bit address (R118). -/
def Layout.addr (l : Layout) (c : Nat × Nat × Nat × Nat) : Nat :=
  let a : Int := l.base.toNat + c.1 * l.eb + c.2.1 * l.sd.getD 0 0 + c.2.2.1 * l.sd.getD 1 0 + c.2.2.2 * l.sd.getD 2 0
  let n := wrap (if l.space = 0 then 64 else 32) a
  if l.swz then n ^^^ (c.2.1 % 8 * 16) else n
/-- BASE and the strides are multiples of the element size (check 6 of R119). -/
def Layout.aligned (l : Layout) : Bool := l.base.toNat % l.eb = 0 && l.sd.all fun x => x % l.eb = 0

/-- Where an element lies: its VA, or a team and an offset; none out of range (R29, R31). -/
inductive Place
  | va (a : W64)
  | scr (team off : Nat)
  | none
deriving DecidableEq, Repr, Inhabited

/-- The place of n bytes of a box of the focused team; guard granules count as out of range (check 7 of R119). -/
def State.placeOf (s : State) (space addr n : Nat) : Place :=
  match space with
  | 0 => .va (BitVec.ofNat 64 addr)
  | 1 => if scrClass (s.scrSize s.foc.team) addr n = 0 then .scr s.foc.team addr else .none
  | _ => match s.kTarget addr n with | some (t, off) => .scr t off | Option.none => .none

/-! ## Reads and writes of the engine -/

/-- What an engine finds of a source: its bytes, each with whether it is poisoned, and the fault if they cannot be read; or a
request. -/
inductive Src
  | got (bs : List Byte) (poi : List Bool) (f : Option Flt)
  | wait (pa : Nat)
deriving DecidableEq, Repr

/-- Bytes of no certain value. -/
def State.freeBytes (s : State) (i n : Nat) : List Byte := tab n fun j => Config.freeByte (s.freeKey (64 * i + j))

/-- A request of the focused team's command is on its way to a peer. -/
def State.cmdSent (s : State) (cmd : Option Nat) (pa : Nat) : Bool :=
  s.pkg.peerOut.any fun q => q.kind == .load && cmd.isSome && q.cmd == cmd.map (s.foc.team, ·) && q.pa == pa

/-- n bytes read for a team's engine (R95, R123); `fetched` are the replies that have come for the command `cmd`. -/
def State.engRead (s : State) (acc : Acc) (fetched : List Reply) (n : Nat) (cmd : Option Nat) : Place → State × Src
  | .none => (s, .got (s.freeBytes 0 n) (List.replicate n true) (some ⟨kScratch, 0⟩))
  | .scr t off => let b := s.scrRead t off n; (s, .got b.data b.poi (if b.bad then some ⟨kEcc, scrPoiAux (s.scrBadWord t off n)⟩ else none))
  | .va a =>
    match s.translateSent fetched (s.cmdSent cmd) s.foc.ctx acc a with
    | .error f => (s, .got (s.freeBytes 0 n) (List.replicate n true) (some f))
    | .ok t =>
      let ecc (poi : List Bool) : Option Flt := (firstBad t.pa poi).map fun w => ⟨kEcc, BitVec.ofNat 64 w⟩
      if s.isLocal t.pa then
        let r := s.unitBytes s.foc.core t.pa n (pteCp t.pte)
        (r.1, .got r.2.data r.2.poi (ecc r.2.poi))
      else
        match fetched.find? fun r => r.pa == t.pa && r.n == n with
        | some r =>
          match r.data with
          | some d => (s, .got (tab n fun i => d.getD i 0) r.bytePoi (ecc r.bytePoi))
          | none => (s, .got (s.freeBytes 0 n) (List.replicate n true) (some ⟨kUnrouted, BitVec.ofNat 64 t.pa⟩))
        | none => (s, .wait t.pa)

/-- A read of a command sent to a peer, once (R456), after the stores of the team's core to those lines (R95). -/
def State.engFetch (s : State) (team cmd pa n : Nat) : State :=
  if s.pkg.peerOut.any fun q => q.cmd == some (team, cmd) && q.pa == pa && q.n == n then s
  else
    (((s.drainRange s.foc.core pa n).dropRange s.foc.core pa n).send { kind := .load, pa, n, cmd := some (team, cmd), ctx := s.foc.ctx }).1

/-- The record of an access that a command meets after its issue (R41). -/
def State.cmdRec (s : State) (grp : Nat) (mask : Mask) (pc retired : W64) (acc : Acc) (va : W64) (f : Flt) : FRec :=
  let g := s.grpAt grp
  { kind := f.kind, access := acc.code, width := 7, va, mask, pc, grid := s.gr.lrec.gid, team := s.t.id, group := g.idx, gw := g.gw,
    intv := BitVec.ofNat 32 (retired.toNat / 2 ^ s.c.dbgIntv), retired, aux := f.aux }

/-- The scratchpad words poisoned that the poisoned ones among some bytes reach (R123). -/
def State.scrPoisonBytes (s : State) (team off : Nat) (poi : List Bool) : State :=
  (List.range poi.length).foldl (fun s i => if poi.getD i false then s.scrPoison team (off + i) 1 else s) s

/-- Bytes that an engine of the focused team writes, each with whether its source word is poisoned (R71, R96, R123): a poisoned byte
poisons the word that it reaches, of 4 bytes in scratchpad and of 8 in memory; a clean one leaves the mark of a word that the write
covers in part, also where the writes of several elements cover all of it (log entry 119); a landing on bytes out of reach is
discarded with a record. True when the bytes have landed, false when they are on their way to a peer. -/
def State.engWrite (s : State) (acc : Acc) (u : UnitId) (grp : Nat) (mask : Mask) (pc retired : W64) (tag : Option (Nat × Nat))
    (bar : Option BarName) (x : Place) (bs : List Byte) (poi : List Bool) (cmd : Option Nat := none) : State × Bool :=
  match x with
  | .none => (s, true)
  | .scr t off => ((s.scrWrite t off bs).scrPoisonBytes t off poi, true)
  | .va a =>
    match s.translateUnit s.foc.ctx acc a with
    | .error f => (s.recordUnit s.foc.ctx u (s.cmdRec grp mask pc retired acc a f) false, true)
    | .ok t =>
      if s.isLocal t.pa then
        (s.engineWrite s.foc.core t.pa (pteCp t.pte) bs (marksOf t.pa poi), true)
      else
        let (s, id) := ((s.drainRange s.foc.core t.pa bs.length).dropRange s.foc.core t.pa bs.length).freshId
        let op := cmd.getD id
        let q : PeerReq := { kind := .store, pa := t.pa, n := bs.length, data := bs, poi := marksOf t.pa poi, grp, flag := tag,
                             ctx := s.foc.ctx, cmd := some (s.foc.team, op), bar := bar.map fun b => (b, bs.length),
                             frec := s.cmdRec grp mask pc retired acc a ⟨kUnrouted, BitVec.ofNat 64 t.pa⟩ }
        ((s.send q).1, false)

/-! ## The checks of a command (R119) -/

/-- A trap of every active lane with the records given (R39, R40). -/
def State.cmdFault (s : State) (act : Mask) (rs : List FRec) : Did :=
  if s.recordRoom < rs.length then .stall s .fault
  else let r := s.writeRecs rs; .done r.1 (failAll r.1.g act (.trans r.2.1 r.2.2))

/-- A layout record of the issuing team (R116): check 2 of R119. -/
def State.layoutAt (s : State) (addr : Nat) : Except (Fail ⊕ FRec) (List Byte) :=
  if addr % 64 ≠ 0 then .error (.inl { cause := cAlign })
  else if scrClass (s.scrSize s.foc.team) addr 64 ≠ 0 then .error (.inr (s.grpRec kScratch .load 7 0 0 (scrAux addr)))
  else
    let b := s.scrRead s.foc.team addr 64
    if b.bad then .error (.inr (s.grpRec kEcc .load 7 0 0 (scrPoiAux (s.scrBadWord s.foc.team addr 64)))) else .ok b.data

/-- The lowest element of a box that is out of range, or for a destination covers barrier or tape bytes: its address and kind, with
its offset (check 7 of R119). -/
def State.boxFault (s : State) (l : Layout) (dest : Bool) : Option (Nat × Nat × Nat) :=
  if l.space = 0 then none
  else
    (List.range l.count).foldl (fun r j =>
      let a := l.addr (l.coords j)
      let bad : Option (Nat × Nat × Nat) :=
        match s.placeOf l.space a l.eb with
        | .scr t off => if dest && s.scrGuarded t off l.eb then some (a, kScratch, off) else none
        | _ => some (a, if l.space = 1 then kScratch else kKRange, if l.space = 1 then a else a % 2 ^ 19)
      match r, bad with
      | some x, some y => some (if y.1 < x.1 then y else x)
      | none, y => y
      | x, none => x) none

/-- The pages of a global box, ascending, each by its lowest VA (check 8 of R119). -/
def Layout.pages (l : Layout) : List Nat :=
  if l.space ≠ 0 then []
  else
    let as := (List.range l.count).map fun j => l.addr (l.coords j)
    let ps := as.foldl (fun ps a => NSet.insert ps (a / 65536)) []
    ps.map fun p => (as.filter fun a => a / 65536 == p).foldl min (p * 65536 + 65535)

/-- The faults of a box's pages for an access. -/
def State.boxPages (s : State) (acc : Acc) (act : Mask) (l : Layout) : State × List (LaneFlt × Acc) :=
  l.pages.foldl (fun x a =>
    let va : W64 := BitVec.ofNat 64 a
    match x.1.translate x.1.foc.core x.1.foc.ctx acc va with
    | (s, .ok _) => (s, x.2)
    | (s, .error f) => (s, x.2 ++ [({ mask := act, va, page := s.pageOf va, flt := f }, acc)])) (s, [])

/-- The shapes of a copy agree (check 4 of R119; R120 to R122). -/
def shapesOk (k : CmdKind) (a d : Layout) : Bool :=
  let same := (List.range 4).all fun i => a.e i = d.e i
  d.bytes ≤ 2 ^ 31 - 1 &&
  match k with
  | .cpyt =>
    let g := 32 / a.eb
    a.fmt = d.fmt && d.e 0 = a.e 1 && d.e 1 = a.e 0 && d.e 2 = a.e 2 && d.e 3 = a.e 3 && a.e 0 % g = 0 && a.e 1 % g = 0
  | .cpyc => same && 5 ≤ a.fmt && 5 ≤ d.fmt
  | _ => same && a.fmt = d.fmt

/-- The teams that a multicast mask names, by ranks of the issuer's octet (R127). -/
def State.consumers (s : State) (mask : Nat) : Option (List Nat) :=
  let js := (List.range 8).filter mask.testBit
  let q := s.gr.rank s.t / 8 * 8
  if js.isEmpty || js.any fun j => s.gr.setSize s.t ≤ q + j then none
  else some (js.filterMap fun j => s.teamOfRank (q + j))

/-- The checks of a copy command on its layouts: source, and destination but for CPYS (R119), then `k` with the barrier. -/
def State.copyChecks (s : State) (f : MF) (act : Mask) (kind : Option CmdKind) (k : State → List Layout → Option BarName → Did) : Did :=
  let regs := (if kind.isSome then [f.d, f.a] else [f.a]) ++ if f.bn then [f.b] else []
  let addrs := (if kind.isSome then [f.a, f.d] else [f.a]).map fun o => (s.rd 0 .n32 o).n
  match regs.find? fun o => (s.rd 0 .b64 o).poi with
  | some o => .done s (failAll s.g act (.poison o))
  | none =>
    match addrs.mapM s.layoutAt with
    | .error (.inl x) => .done s (failAll s.g act x)
    | .error (.inr r) => s.cmdFault act [{ r with mask := act }]
    | .ok recs =>
      let ls := recs.map readLayout
      let src := (ls.headD ({}, false)).1
      let dst := (ls.getD 1 ({}, false)).1
      let bar := if f.bn then s.barName f.bk ((s.rd 0 .n32 f.b).n) else none
      let shape := match kind with | some c => shapesOk c src dst | none => src.bytes % 32 = 0
      let stream := kind.isSome || (s.gr.streams && (s.consumers (f.i % 256)).isSome)
      if ls.any (fun l => !l.2) || !shape || (f.bn && bar.isNone) || !stream then .done s (failAll s.g act .opndLate)
      else if ls.any fun l => !l.1.aligned then .done s (failAll s.g act { cause := cAlign })
      else
        let bs := (s.boxFault src false).toList.map (fun x => (x, Acc.engRead)) ++
          if kind.isSome then (s.boxFault dst true).toList.map (fun x => (x, Acc.engWrite)) else []
        match bs with
        | x :: more =>
          let y := more.foldl (fun a b => if b.1.1 < a.1.1 then b else a) x
          s.cmdFault act [s.grpRec y.1.2.1 y.2 7 act 0 (scrAux y.1.2.2)]
        | [] =>
          let (s, fa) := s.boxPages .engRead act src
          let (s, fd) := if kind.isSome then s.boxPages .engWrite act dst else (s, [])
          match s.onePerPage (fun x => x.1.va) (fa ++ fd) with
          | [] => k s (ls.map (·.1)) bar
          | fs => s.cmdFault act (fs.map fun x => s.grpRec x.1.flt.kind x.2 7 act x.1.va x.1.flt.aux)

/-! ## CPY, CPYT, CPYC -/

/-- A command of the focused group handed to its engine. -/
def State.startCmd (s : State) (c : Cmd) : State :=
  let (s, id) := s.freshId
  s.modT fun t => { t with cmds := t.cmds ++ [{ c with id, grp := s.foc.grp, pc := s.g.iss.pc, retired := s.g.retired }] }

/-- A copy of memory (R329): checked, captured, and left to the engine. -/
def State.copyOp (s : State) (p : Pred) (f : MF) (kind : CmdKind) : Out :=
  s.perform false p (fun _ => true) fun s act =>
    if s.flagFull (s.sfNow f.sf) then s.fullWait (s.sfNow f.sf)
    else
      s.copyChecks f act (some kind) fun s ls bar =>
        let (s, flag) := s.flagStart (s.sfNow f.sf)
        let dst := ls.getD 1 {}
        .done (s.startCmd { kind, src := ls.headD {}, dst, total := dst.count, bar, flag, mask := act }) []

def execCpy (p : Pred) (f : MF) (s : State) : Out := s.copyOp p f .cpy
def execCpyt (p : Pred) (f : MF) (s : State) : Out := s.copyOp p f .cpyt
def execCpyc (p : Pred) (f : MF) (s : State) : Out := s.copyOp p f .cpyc

/-- CPYC of one element (R122). -/
def convertElem (src dst : Nat) (bs : List Byte) : List Byte :=
  let d := fmtOf dst
  match unpack (fmtOf src) (ofLe bs) with
  | .nan neg _ _ _ => leBytes (fmtBytes dst) (d.signed neg d.nanBits)
  | x => leBytes (fmtBytes dst) (satNum d {} x).bits

/-- The source coordinates of a destination element. -/
def Cmd.srcCoords (c : Cmd) (j : Nat) : Nat × Nat × Nat × Nat :=
  let x := c.dst.coords j
  match c.kind with
  | .cpyt => (x.2.1, x.1, x.2.2.1, x.2.2.2)
  | _ => x

/-! ## CPYS -/

/-- CPYS (R127 to R129, R329): a push into one port of each consumer. -/
def execCpys (p : Pred) (f : MF) (s : State) : Out :=
  s.perform false p (fun _ => true) fun s act =>
    s.copyChecks f act none fun s ls bar =>
      let src := ls.headD {}
      let (s, id) := s.freshId
      let push : Push := { id, grp := s.foc.grp, port := f.width.code, box := some src, beats := src.bytes / 32,
                           taken := ((s.consumers (f.i % 256)).getD []).map fun t => (t, 0), bar, mask := act, pc := s.g.iss.pc, retired := s.g.retired }
      .done (s.modT fun t => { t with pushes := t.pushes ++ [push] }) []

/-- The bytes that a port holds at most (R125). -/
def portCap (port : Nat) : Nat := if port < 2 then 65536 else 8192

/-- The next beat of a push, read once (R128, R129): `none` while a peer has yet to answer. A word that cannot be read stops the
push at its beat, with a record. -/
def State.readBeat (s : State) (team : Nat) (u : Push) : Option (State × Push) :=
  match u.box with
  | none => some (s, u)
  | some b =>
    let per := 32 / b.eb
    let j0 := u.bytes.length / b.eb
    let r := (List.range per).foldl (fun (x : Option (State × List Byte × Option (Flt × W64))) i =>
      match x with
      | none => none
      | some (s, bs, some e) => some (s, bs, some e)
      | some (s, bs, none) =>
        let pl := s.placeOf b.space (b.addr (b.coords (j0 + i))) b.eb
        match s.engRead .engRead u.fetched b.eb (some u.id) pl with
        | (_, .wait _) => none
        | (s, .got d _ none) => some (s, bs ++ d, none)
        | (s, .got _ _ (some f)) => some (s, bs, some (f, match pl with | .va a => a | _ => 0))) (some (s, [], none))
    match r with
    | none => none
    | some (s, bs, none) => some (s, { u with bytes := u.bytes ++ bs })
    | some (s, _, some (f, va)) =>
      some (s.recordUnit s.foc.ctx (.engine team (1 + u.port)) (s.cmdRec u.grp u.mask u.pc u.retired .engRead va f) false, { u with stop := true })

/-- The requests that the next beat of a push needs of peers. -/
def State.beatFetch (s : State) (team : Nat) (u : Push) : State :=
  match u.box with
  | none => s
  | some b =>
    (List.range (32 / b.eb)).foldl (fun s i =>
      match s.engRead .engRead u.fetched b.eb (some u.id) (s.placeOf b.space (b.addr (b.coords (u.bytes.length / b.eb + i))) b.eb) with
      | (s, .wait pa) => s.engFetch team u.id pa b.eb
      | (s, _) => s) s

/-- The beats that a push can still give: all of them, or those before the word it stopped at. -/
def Push.avail (u : Push) : Nat := if u.stop then u.bytes.length / 32 else u.beats
def Push.takenBy (u : Push) (t : Nat) : Nat := ((u.taken.find? fun x => x.1 == t).map (·.2)).getD 0
/-- The beats that every consumer has taken. -/
def Push.common (u : Push) : Nat := u.taken.foldl (fun n x => min n x.2) u.beats

/-- Another push of the same issuer to the same port and consumer is older and not yet through (R115, R128). -/
def Team.olderPush (t : Team) (u : Push) (c : Nat) : Bool :=
  t.pushes.any fun v => v.id < u.id && v.port == u.port && (v.taken.any fun x => x.1 == c && x.2 < v.avail) && (v.grp == u.grp || v.box.isSome && u.box.isSome)

/-- A push put back in its team; one that every consumer has accepted retires. -/
def State.putPush (s : State) (team : Nat) (u : Push) (before : Nat) : State :=
  let t := s.teamAt team
  let through := u.taken.all fun x => u.avail ≤ x.2
  let s := s.setTeamAt team { t with pushes := if through then t.pushes.filter (fun v => v.id != u.id) else t.pushes.map fun v => if v.id == u.id then u else v }
  match u.bar with
  | some b => s.barLand b (32 * (u.common - before))
  | none => s

/-- A port marked broken as a push ends there; a gang of the team that waits for it has seen it (R129, R340). -/
def State.breakPort (s : State) (team port : Nat) (ended : Nat × Nat) : State :=
  let c := s.teamAt team
  let pt := bankGet c.ports ({} : Port) port
  let s := s.setTeamAt team { c with ports := bankPut {} c.ports port { pt with broken := true, cur := if pt.cur == some ended then none else pt.cur } }
  { s with groups := s.groups.update fun _ g =>
      match g.stall with
      | .port o seen => if g.team == team then { g with stall := .port o (seen ++ [port]) } else g
      | _ => g }
/-- A push stopped at a word that it could not read breaks the ports of the consumers `now` with no beat of it still to take; the others
break with their last (R129; log entry 94). -/
def State.breakPorts (s : State) (team : Nat) (u : Push) (now : Nat → Bool) : State :=
  u.taken.foldl (fun s x =>
    if !now x.1 || (s.teamAt x.1).phase == .retired || x.2 < u.avail then s else s.breakPort x.1 u.port (team, u.id)) s

/-- One beat of a push accepted by a consumer (R128): false when nothing can move now. The bytes that its barrier counts are a release
at .clu of the team's core (R97). -/
def State.acceptBeat (s : State) (team push consumer : Nat) : State × Bool :=
  let t := s.teamAt team
  match t.pushes.find? fun u => u.id == push with
  | none => (s, false)
  | some u =>
    let c := s.teamAt consumer
    let k := u.takenBy consumer
    let set (u : Push) (n : Nat) : Push := { u with taken := u.taken.map fun x => if x.1 == consumer then (consumer, n) else x }
    let s := if u.bar.isSome then s.flushCore t.core else s
    if !u.taken.any (·.1 == consumer) || u.avail ≤ k || u.bar.isSome && !s.coreClear t.core then (s, false)
    else if c.phase == .retired then (s.putPush team (set u u.beats) u.common, true)
    else if (s.c.holds (.engine team (1 + u.port)) && u.box.isSome) || t.phase != .resident && u.bytes.length ≤ 32 * k then (s, false)
    else
      let pt := bankGet c.ports ({} : Port) u.port
      let mine := pt.cur == some (team, push)
      if c.phase != .resident || (pt.cur.isSome && !mine) || (!mine && t.olderPush u consumer) || portCap u.port < pt.bytes.length + 32 then (s, false)
      else
        match (if u.bytes.length ≤ 32 * k then s.readBeat team u else some (s, u)) with
        | none => (s.beatFetch team u, false)
        | some (s, u) =>
          let stopped := u.stop && !(t.pushes.any fun v => v.id == push && v.stop)
          let before := u.common
          let got := 32 * k < u.bytes.length
          let k' := if got then k + 1 else k
          let u := set u k'
          let last := u.avail ≤ k'
          let c := s.teamAt consumer
          let pt : Port := { pt with bytes := if got then pt.bytes ++ (u.bytes.drop (32 * k)).take 32 else pt.bytes, cur := if last then none else some (team, push) }
          let s := s.setTeamAt consumer { c with ports := bankPut {} c.ports u.port pt }
          ((if u.stop then s.breakPorts team u (fun x => stopped || x == consumer) else s).putPush team u before, true)

/-- STREAM_BEAT_ACCEPT (R128): up to n beats of a push accepted by a consumer. -/
def State.acceptBeats (s : State) (team push consumer : Nat) : Nat → State
  | 0 => s
  | n + 1 =>
    let r := s.acceptBeat team push consumer
    if r.1.met ≠ s.met then s else if r.2 then r.1.acceptBeats team push consumer n else r.1
def execStreamBeatAccept (team push consumer n : Nat) (s : State) : Out :=
  .next ((s.focusTeam team).acceptBeats team push consumer n)

end Sys2Proof.Machine
end

