-- ==== Sys2Proof/Machine/Stash.lean ====
section
/-! DEFINITION. The quench codec (R159 to R163), STASH and RESTORE (R330, R331), and the landings of the copy engine (R96, R123,
R166). -/

namespace Sys2Proof.Machine

/-! ## The codec -/

/-- The exponent field of a finite FP32 encoding, at least 1 (R161). -/
def epsOf (v : Nat) : Nat := max 1 (bitsAt v 23 8)
def finite32 (v : Nat) : Bool := bitsAt v 23 8 ≠ 255
def maxEps (vs : List Nat) : Nat := (vs.filter finite32).foldl (fun n v => max n (epsOf v)) 1
/-- b as a width of codes, from RATIO. -/
def codeBits (coarse : Bool) : Nat := if coarse then 3 else 7
def blockBytes (coarse : Bool) : Nat := if coarse then 32 else 64
/-- The exponent of the step s of a sub-block (R161). -/
def stepExp (e d b : Nat) : Int := (e : Int) - 127 - d - (b - 2 : Nat)

/-- A sub-block of 16 FP32 encodings under a block exponent e: d and its codes (R161). -/
def encodeSub (b e : Nat) (vs : List Nat) : Nat × List Nat :=
  if vs.any fun v => !finite32 v then (7, vs.map fun _ => 2 ^ (b - 1))
  else
    let d := min 7 (e - maxEps vs)
    let top : Int := (2 ^ (b - 1) : Nat) - 1
    (d, vs.map fun v => wrap b (max (-top) (min top (roundInt .rne ((unpack fp32 v).scale (-(stepExp e d b)))).1)))

/-- A block of 64 FP32 encodings as bytes (R159 to R161). -/
def encodeBlock (coarse : Bool) (vs : List Nat) : List Byte :=
  let b := codeBits coarse
  let e := maxEps vs
  let subs := tab 4 fun i => encodeSub b e ((vs.drop (16 * i)).take 16)
  let hdr := e + ((List.range 4).map fun i => (subs.getD i (0, [])).1 * 2 ^ (8 + 3 * i)).sum
  let codes := subs.flatMap (·.2)
  leBytes (blockBytes coarse) (hdr + ((List.range 64).map fun j => codes.getD j 0 * 2 ^ (32 + b * j)).sum)

/-- The 64 FP32 encodings of a block (R162), each none where it is a canonical NaN. -/
def decodeBlock (coarse : Bool) (bs : List Byte) : List (Option Nat) :=
  let b := codeBits coarse
  let x := ofLe bs
  let e := x % 256
  if bitsAt x 20 12 ≠ 0 || e = 0 || e = 255 then List.replicate 64 none
  else
    (List.range 4).flatMap fun i =>
      let cs := tab 16 fun j => bitsAt x (32 + b * (16 * i + j)) b
      if cs.contains (2 ^ (b - 1)) then List.replicate 16 none
      else cs.map fun c => some (resultFin fp32 {} (sgn b c < 0) (sgn b c).natAbs (stepExp e (bitsAt x (8 + 3 * i) 3) b)).bits

/-- A decoded value as its destination takes it: FP32, or BF16 by RNE (R162). -/
def decodedBits (bf : Bool) (v : Option Nat) : Nat :=
  match v with
  | none => if bf then bf16.nanBits else fp32.nanBits
  | some n => if bf then (satNum bf16 {} (unpack fp32 n)).bits else n

/-! ## The fields of IMM11 (R330) -/

def MF.spDest (f : MF) : Bool := f.i / 128 % 2 == 1
def MF.bf (f : MF) : Bool := f.i / 64 % 2 == 1
def MF.coarse (f : MF) : Bool := f.i / 32 % 2 == 1
def MF.count (f : MF) : Nat := f.i % 32 + 1
/-- The values that a command moves, and its blocks. -/
def MF.values (f : MF) (gw : Nat) : Nat := if MF.spDest f then 64 * MF.count f else MF.count f * gw * (if MF.bf f then 2 else 1)
def MF.blocks (f : MF) (gw : Nat) : Nat := MF.values f gw / 64

/-! ## The checks of R331 -/

/-- The poison that the operands hold, in the order of check 3: B, the s destination, the source registers of a STASH. -/
def State.stashPoison (s : State) (f : MF) (act : Mask) (regs : Bool) : Option Opnd :=
  if (s.rd 0 .b64 f.b).poi then some f.b
  else if MF.spDest f && (s.rd 0 .b64 f.d).poi then some f.d
  else if regs && (s.g.lanesOf act).any (fun l => (List.range (MF.count f)).any fun j => (s.g.vReg l (f.d.vIdx + j)).poi) then some f.d
  else none

/-- The pages of the blocks that fail, each by the VA of its first block there; a page names one record (R40). -/
def State.blockFlts (s : State) (acc : Acc) (act : Mask) (va : W64) (blocks bytes : Nat) : State × List LaneFlt :=
  (List.range blocks).foldl (fun (x : State × List LaneFlt) k =>
    let a := va + BitVec.ofNat 64 (k * bytes)
    match x.1.translate x.1.foc.core x.1.foc.ctx acc a with
    | (s, .ok _) => (s, x.2)
    | (s, .error f) => (s, x.2 ++ [{ mask := act, va := a, page := s.pageOf a, flt := f }])) (s, [])

/-- Checks 1 to 4 of R331, then `k` with the block address. -/
def State.stashChecks (s : State) (f : MF) (act : Mask) (regs : Bool) (k : State → W64 → Did) : Did :=
  let g := s.g
  if !g.converged act then .done s (failAll g g.iss.set .opndLate)
  else if MF.values f g.gw % 64 ≠ 0 || !MF.spDest f && g.win < f.d.vIdx + MF.count f then .done s (failAll g act .opndLate)
  else
    match s.stashPoison f act regs with
    | some o => .done s (failAll g act (.poison o))
    | none =>
      let va := (g.areg f.a.aIdx).baseva + BitVec.ofNat 64 ((s.rd 0 .n32 f.b).n % 2 ^ 32)
      if va.toNat % blockBytes (MF.coarse f) ≠ 0 then .done s (failAll g act { cause := cAlign }) else k s va

/-- The records of a command's faulting pages, then the trap of every active lane (R39). -/
def State.stashTrap (s : State) (acc : Acc) (act : Mask) (fs : List LaneFlt) : Did :=
  match s.noteFlts acc 7 fs with
  | none => .stall s .fault
  | some (s, seq, n) => .done (s.sampled acc) (failAll s.g act (.trans seq n))

/-! ## STASH -/

/-- The source value at a region position, widened to FP32 (R159, R331). -/
def State.stashValue (s : State) (f : MF) (m : Nat) : Nat :=
  let w := if MF.bf f then m / 2 else m
  let r := (s.g.vReg (w % s.g.gw) (f.d.vIdx + w / s.g.gw)).val.toNat
  if MF.bf f then (if m % 2 = 0 then r % 65536 else r / 65536) * 65536 else r

/-- STASH (R166, R331): the blocks are formed at issue and written by the engine. -/
def execStash (p : Pred) (f : MF) (s : State) : Out :=
  s.performWide p (s.opsOk [(f.a, 1)]) fun s act =>
    if s.flagFull (s.sfNow f.sf) then s.fullWait (s.sfNow f.sf)
    else
      s.stashChecks f act true fun s va =>
        let bs := blockBytes (MF.coarse f)
        let nb := MF.blocks f s.g.gw
        let (s, fs) := s.blockFlts .stash act va nb bs
        if !fs.isEmpty then s.stashTrap .stash act fs
        else
          let vs := tab (MF.values f s.g.gw) (s.stashValue f)
          let per := if MF.bf f then 2 else 1
          let hit (l : Nat) : Bool := (List.range vs.length).any fun m => m / per % s.g.gw == l && !finite32 (vs.getD m 0)
          let bytes := (List.range nb).flatMap fun k => encodeBlock (MF.coarse f) ((vs.drop (64 * k)).take 64)
          let (s, flag) := s.flagStart (s.sfNow f.sf)
          let s := s.modG fun g => g.modLanes ((g.lanesOf act).filter hit) fun _ x => x.raise fNF
          .done ((s.startCmd { kind := .stash bs bytes, dst := { base := va }, total := nb, flag, mask := act }).sampled .stash) []

/-! ## RESTORE -/

/-- A block read at its home: its values with its poison and fault, or a request to wait for (R166). -/
def State.readBlock (s : State) (fetched : List Reply) (cmd : Option Nat) (coarse : Bool) (va : W64) : State × Src :=
  s.engRead .restore fetched (blockBytes coarse) cmd (.va va)

/-- The blocks of a RESTORE into registers: values with poison, faults, and requests to peers, each sent after the stores of the
group's core to its lines (R82, R95). -/
def State.restoreBlocks (s : State) (act : Mask) (coarse : Bool) (va : W64) (nb : Nat) :
    State × List (Option Nat × Bool) × List LaneFlt × List Nat :=
  (List.range nb).foldl (fun x k =>
    let a := va + BitVec.ofNat 64 (k * blockBytes coarse)
    match x.1.readBlock x.1.g.replies none coarse a with
    | (s, .got bs p f) =>
      let poi := p.any id
      let fs := match f with | some f => [{ mask := act, va := a, page := s.pageOf a, flt := f }] | none => []
      (s, x.2.1 ++ (decodeBlock coarse bs).map (fun v => (v, poi)), x.2.2.1 ++ fs, x.2.2.2)
    | (s, .wait pa) =>
      let n := blockBytes coarse
      let r := ((s.drainRange s.foc.core pa n).dropRange s.foc.core pa n).sendLoad pa n .restore 7 act a
      (r.1, x.2.1, x.2.2.1, x.2.2.2 ++ [r.2])) (s, [], [], [])

/-- The register of lane-word (j, l) (R331): its word, and whether it holds a canonical NaN of R162. -/
def restoreReg (bf : Bool) (vs : List (Option Nat × Bool)) (w : Nat) : Nat × Bool × Bool :=
  let v (i : Nat) : Option Nat × Bool := vs.getD i (some 0, false)
  if bf then (decodedBits true (v (2 * w)).1 + 65536 * decodedBits true (v (2 * w + 1)).1, (v (2 * w)).2 || (v (2 * w + 1)).2,
              (v (2 * w)).1.isNone || (v (2 * w + 1)).1.isNone)
  else (decodedBits false (v w).1, (v w).2, (v w).1.isNone)

/-- RESTORE into registers (R331): a failed or poisoned block poisons its values; a full table leaves everything as it was
(R420). -/
def State.restoreRegs (s : State) (f : MF) (act : Mask) (va : W64) : Did :=
  let (s, vs, fs, waits) := s.restoreBlocks act (MF.coarse f) va (MF.blocks f s.g.gw)
  if !waits.isEmpty then .stall s (.reply waits)
  else
    match s.noteFlts .restore 7 fs with
    | none => .stall s .fault
    | some (s, seq, n) =>
      let gw := s.g.gw
      let reg (l j : Nat) : Nat × Bool × Bool := restoreReg (MF.bf f) vs (j * gw + l)
      let js := List.range (MF.count f)
      let bad := maskOf ((s.g.lanesOf act).filter fun l => js.any fun j => (reg l j).2.1)
      if bad != 0 && s.ptFree.isNone then
        .done s (failAll s.g bad { cause := cTableFull, info := (seq.getD 0).toNat + 2 ^ 32 * (n % 65536) } ++ failAll s.g (act &&& ~~~bad) { cause := 0 })
      else
        let (s, tag) := s.flagStart (s.sfNow f.sf)
        let s := s.modG fun g => g.modLanes (g.lanesOf act) fun l x =>
          let rs := js.map fun j => let r := reg l j; if r.2.1 then s.poisonReg l j else (⟨BitVec.ofNat 32 r.1, false⟩ : Reg)
          let x := x.putRegs g.wb f.d rs
          if js.any fun j => (reg l j).2.2 && !(reg l j).2.1 then x.raise fNF else x
        let s := (s.g.lanesOf act).foldl (fun s l => js.foldl (fun s j => s.logIn .restore l (leBytes 4 (reg l j).1) [(reg l j).2.1]) s) s
        .done (((if bad == 0 then s else s.ptMake f.d (MF.count f) bad seq).flagEnd tag).sampled .restore) []

/-- RESTORE into scratchpad (R331): left to the engine. -/
def State.restoreScr (s : State) (f : MF) (act : Mask) (va : W64) : Did :=
  let d := (s.rd 0 .n32 f.d).n
  let nb := MF.count f
  let n := 64 * nb * (if MF.bf f then 2 else 4)
  if d % 4 ≠ 0 then .done s (failAll s.g act { cause := cAlign })
  else
    let bad := (List.range (n / 4)).find? fun i => scrClass (s.scrSize s.foc.team) (d + 4 * i) 4 ≠ 0 || s.scrGuarded s.foc.team (d + 4 * i) 4
    match bad with
    | some i => s.cmdFault act [s.grpRec kScratch .engWrite 7 act 0 (scrAux (d + 4 * i))]
    | none =>
      let (s, fs) := s.blockFlts .restore act va nb (blockBytes (MF.coarse f))
      if !fs.isEmpty then s.stashTrap .restore act fs
      else
        let (s, flag) := s.flagStart (s.sfNow f.sf)
        .done ((s.startCmd { kind := .restore (codeBits (MF.coarse f)) (MF.bf f) nb, src := { base := va }, dst := { base := BitVec.ofNat 64 d, space := 1 },
                             total := nb, flag, mask := act }).sampled .restore) []

def execRestore (p : Pred) (f : MF) (s : State) : Out :=
  s.performWide p (s.opsOk [(f.a, 1)]) fun s act =>
    if s.flagFull (s.sfNow f.sf) then s.fullWait (s.sfNow f.sf)
    else s.stashChecks f act false fun s va => if MF.spDest f then s.restoreScr f act va else s.restoreRegs f act va

/-! ## Landings -/

/-- Flags raised in lanes of a launch group by an engine, in the group or in its parts. -/
def State.raiseIn (s : State) (grp : Nat) (mask : Mask) (fl : W32) : State :=
  let g0 := s.grpAt grp
  { s with groups := s.groups.update fun _ g =>
      if g.team == g0.team && g.idx == g0.idx && g.phase != .split then
        g.modLanes (g.lanesOf ((mask <<< g0.base) >>> g.base)) fun _ x => x.raise fl
      else g }

/-- The place and length of item j of a command's destination: an element, or a block. -/
def State.landPlace (s : State) (c : Cmd) (j : Nat) : Place × Nat :=
  match c.kind with
  | .stash b _ => (.va (c.dst.base + BitVec.ofNat 64 (j * b)), b)
  | .restore _ bf _ => let n := 64 * (if bf then 2 else 4); (.scr s.foc.team (c.dst.base.toNat + j * n), n)
  | _ => (s.placeOf c.dst.space (c.dst.addr (c.dst.coords j)) c.dst.eb, c.dst.eb)

/-- The number that a VA is compared by: its physical address where it has one. -/
def State.placeKey (s : State) (va : W64) : Nat := match s.walk s.foc.ctx va with | .ok p => p.pa va | .error _ => 2 ^ 52 + va.toNat
/-- Two places of the focused team share a byte. -/
def State.placesMeet (s : State) (a : Place) (n : Nat) (b : Place) (m : Nat) : Bool :=
  match a, b with
  | .va x, .va y => let p := s.placeKey x; let q := s.placeKey y; p < q + m && q < p + n
  | .scr t x, .scr u y => t == u && x < y + m && y < x + n
  | _, _ => false

/-- An earlier command of the team on the engine has still to write a byte of a place (R96). -/
def State.landBlocked (s : State) (c : Cmd) (x : Place) (n : Nat) : Bool :=
  s.t.cmds.any fun e => e.id < c.id && e.kind.chan == c.kind.chan &&
    (List.range (e.total - e.landed)).any fun i => let y := s.landPlace e (e.landed + i); s.placesMeet x n y.1 y.2

/-- The bytes of item j from its source, each with its poison: none while a peer has still to answer; NF for a NaN of R162. A converted
element, and every value of a block, is poisoned with its source (R123, R166). -/
def State.landBytes (s : State) (c : Cmd) (j : Nat) : State × Option (List Byte × List Bool × Bool) :=
  let whole (bs : List Byte) (poi : List Bool) : List Bool := List.replicate bs.length (poi.any id)
  match c.kind with
  | .stash b bytes => (s, some ((bytes.drop (j * b)).take b, [], false))
  | .restore b bf _ =>
    let va := c.src.base + BitVec.ofNat 64 (j * blockBytes (b == 3))
    match s.readBlock c.fetched (some c.id) (b == 3) va with
    | (s, .wait pa) => (s.engFetch s.foc.team c.id pa (blockBytes (b == 3)), none)
    | (s, .got bs poi _) =>
      let vs := decodeBlock (b == 3) bs
      let out := vs.flatMap fun v => leBytes (if bf then 2 else 4) (decodedBits bf v)
      (s, some (out, whole out poi, !poi.any id && vs.any Option.isNone))
  | _ =>
    match s.engRead .engRead c.fetched c.src.eb (some c.id) (s.placeOf c.src.space (c.src.addr (c.srcCoords j)) c.src.eb) with
    | (s, .wait pa) => (s.engFetch s.foc.team c.id pa c.src.eb, none)
    | (s, .got bs poi _) =>
      if c.kind == .cpyc then let out := convertElem c.src.fmt c.dst.fmt bs; (s, some (out, whole out poi, false))
      else (s, some (bs, poi, false))

/-- The next item of a command landed (R96, R123, R166); false when none can land now. The bytes that its barrier counts are a release
at .clu of the team's core (R97); a saved team's commands wait for its restore (R134). -/
def State.landOne (s : State) (team cmd : Nat) : State × Bool :=
  let s := s.focusTeam team
  match s.t.cmds.find? fun c => c.id == cmd with
  | none => (s, false)
  | some c =>
    let (x, n) := s.landPlace c c.landed
    if c.total ≤ c.landed || s.t.phase == .saved || s.c.holds (.engine team c.kind.chan) || s.landBlocked c x n then (s, false)
    else
      match s.landBytes c c.landed with
      | (s, none) => (s, false)
      | (s, some (bs, poi, nf)) =>
        let s := if c.bar.isSome then s.flushCore s.foc.core else s
        if c.bar.isSome && !s.coreClear s.foc.core then (s, false)
        else
        let acc : Acc := match c.kind with | .stash _ _ => .stash | _ => .engWrite
        let (s, done) := s.engWrite acc (.engine team c.kind.chan) c.grp c.mask c.pc c.retired c.flag c.bar x bs poi
        let s := if nf then s.raiseIn c.grp c.mask fNF else s
        let s := if done then (match c.bar with | some b => s.barLand b n | none => s) else s
        let c := { c with landed := c.landed + 1 }
        if c.total ≤ c.landed then
          let s := s.modT fun t => { t with cmds := t.cmds.filter fun e => e.id != cmd }
          ((match c.flag with | some f => s.flagLanded c.grp f | none => s).bump, true)
        else ((s.modT fun t => { t with cmds := t.cmds.map fun e => if e.id == cmd then c else e }).bump, true)

/-- Up to n items of a command landed, in the order of its elements. -/
def State.landMany (s : State) (team cmd : Nat) : Nat → State
  | 0 => s
  | n + 1 => let r := s.landOne team cmd; if r.1.met ≠ s.met then s else if r.2 then r.1.landMany team cmd n else r.1

/-- ENGINE_WRITE_LANDING (R96, R123): up to n elements or blocks of a command. -/
def execEngineWriteLanding (team cmd n : Nat) (s : State) : Out := .next (s.landMany team cmd n)

end Sys2Proof.Machine
end

