-- ==== Sys2Proof/Machine/Coll.lean ====
section
/-! DEFINITION. The collective engine: COLLAR, COLLRS, COLLAG, COLLUPD and COLLCMT (R332 to R335), and their completion with
what the other ranks send (R156, R459, R460). -/

namespace Sys2Proof.Machine

/-! ## Records in memory -/

/-- n bytes of a little-endian field. -/
def fieldAt (b : List Byte) (lo n : Nat) : Nat := ofLe ((b.drop lo).take n)

/-- A communicator record (R459); `bad` where a field breaks its bounds. -/
structure Comm where
  nrank : Nat := 1
  myrank : Nat := 0
  chunk : Nat := 4096
  live : W64 := 0
  shadow : W64 := 0
  shard : Nat := 0
  ranks : W64 := 0
  bad : Bool := false
deriving DecidableEq, Repr, Inhabited

def readComm (va : W64) (b : List Byte) : Comm :=
  let nrank := fieldAt b 0 2
  let myrank := fieldAt b 2 2
  let chunk := fieldAt b 4 4
  let zero := (b.drop 40).all (· == 0)
  { nrank, myrank, chunk, live := BitVec.ofNat 64 (fieldAt b 8 8), shadow := BitVec.ofNat 64 (fieldAt b 16 8), shard := fieldAt b 24 8,
    ranks := BitVec.ofNat 64 (fieldAt b 32 8),
    bad := va.toNat % 64 ≠ 0 || nrank < 1 || 1024 < nrank || nrank ≤ myrank || chunk % 128 ≠ 0 || chunk < 4096 || 2 ^ 24 < chunk || !zero }

/-- The bytes of an element. -/
def Ty.bytes (t : Ty) : Nat := if t.is64 then 8 else 4
/-- The elements of the slice of rank r: its first, and how many (R334; log entry 31). -/
def sliceOf (count nrank r : Nat) : Nat × Nat :=
  let n := (count + nrank - 1) / nrank
  (r * n, min n (count - r * n))

/-- A captured descriptor (R333). -/
def Coll.fill (c : Coll) (b : List Byte) : Coll :=
  { c with comm := BitVec.ofNat 64 (fieldAt b 0 8), send := BitVec.ofNat 64 (fieldAt b 8 8), recv := BitVec.ofNat 64 (fieldAt b 16 8),
           count := fieldAt b 24 8, step := BitVec.ofNat 32 (fieldAt b 32 4), params := tab 6 fun i => BitVec.ofNat 32 (fieldAt b (40 + 4 * i) 4) }

/-- The runs of memory that a collective covers, each with its access (R39). -/
def Coll.runs (c : Coll) (m : Comm) : List (Acc × W64 × Nat) :=
  let w := Ty.bytes c.ty
  let n := (sliceOf c.count m.nrank m.myrank).2
  let rd (va : W64) (k : Nat) : List (Acc × W64 × Nat) := [(.engRead, va, k)]
  let wr (va : W64) (k : Nat) : List (Acc × W64 × Nat) := [(.engWrite, va, k)]
  if m.bad then []
  else
    rd m.ranks (2 * m.nrank) ++
    match c.kind with
    | .allReduce => rd c.send (w * c.count) ++ wr c.recv (w * c.count)
    | .reduceScatter => rd c.send (w * c.count) ++ wr c.recv (w * n)
    | .allGather => rd c.send (w * c.count) ++ wr c.recv (w * c.count * m.nrank)
    | .update =>
      rd c.send (4 * c.count) ++ rd m.live (4 * n) ++ wr m.shadow (4 * n) ++ (if c.op = 1 then rd c.recv (8 * n) ++ wr c.recv (8 * n) else [])
    | .commit => wr c.comm 64

/-- The faults of the pages of some runs, ascending, one for each page with the access that met it first (R40). -/
def State.runsFaults (s : State) (rs : List (Acc × W64 × Nat)) : State × List (Acc × W64 × Flt) :=
  let r := rs.foldl (fun (x : State × List (Acc × W64 × Flt)) q =>
    let y := x.1.mapRun q.1 q.2.1 q.2.2
    (y.1, x.2 ++ y.2.2.map fun f => (q.1, f))) (s, [])
  (r.1, r.1.onePerPage (fun x => x.2.1) r.2)

/-! ## Issue -/

/-- A collective at its issue (R332, R333): its operands, descriptor and barrier object checked, every page it covers
translated, and its descriptor captured. Neither the cause that a descriptor off a multiple of 64 traps with nor the order of these
checks is the spec's (log entry 120). -/
def State.collOp (s : State) (p : Pred) (f : MF) (kind : CollKind) : Out :=
  s.perform false p (s.opsOk [(f.a, 1)]) fun s act =>
    let desc := (s.g.areg f.a.aIdx).baseva + BitVec.ofNat 64 ((s.rd 0 .n32 f.b).n % 2 ^ 32)
    match [f.b, f.d].find? fun o => (s.rd 0 .b64 o).poi with
    | some o => .done s (failAll s.g act (.poison o))
    | none =>
      if desc.toNat % 64 ≠ 0 then .done s (failAll s.g act { cause := cAlign })
      else
        s.withRun .engRead act desc 64 fun s b =>
          match s.mapRun .engWrite desc 64 with
          | (s, _, f :: fs) => s.runFault .engWrite 7 act (f :: fs)
          | (s, _, []) =>
            match s.barName false (s.rd 0 .n32 f.d).n with
            | none => .done s (failAll s.g act .opndLate)
            | some bar =>
              let c := Coll.fill { kind, op := f.op, ty := (MF.ty f).getD .i32, desc, bar, mask := act, pc := s.g.iss.pc, retired := s.g.retired,
                                   grp := s.foc.grp } b
              s.withRun .engRead act c.comm 64 fun s m =>
                match s.runsFaults (c.runs (readComm c.comm m)) with
                | (s, []) =>
                  let (s, id) := (s.release .pkg).freshId
                  s.orWait true .pkg (.done (s.modT fun t => { t with colls := t.colls ++ [{ c with id }] }) [])
                | (s, fs) => s.cmdFault act (fs.map fun x => s.grpRec x.2.2.kind x.1 7 act x.2.1 x.2.2.aux)

def execCollar (p : Pred) (f : MF) (s : State) : Out := s.collOp p f .allReduce
def execCollrs (p : Pred) (f : MF) (s : State) : Out := s.collOp p f .reduceScatter
def execCollag (p : Pred) (f : MF) (s : State) : Out := s.collOp p f .allGather
def execCollupd (p : Pred) (f : MF) (s : State) : Out := s.collOp p f .update
def execCollcmt (p : Pred) (f : MF) (s : State) : Out := s.collOp p f .commit

/-! ## The engine's reads and writes -/

/-- The run of a collective: the state, the records of accesses that failed, in order, and true while a peer has still to answer. -/
structure CollSt where
  s : State
  recs : List (Acc × W64 × Flt) := []
  wait : Bool := false

/-- Elements of w bytes that the engine reads from a VA, each with whether it is poisoned. -/
def CollSt.read (r : CollSt) (c : Coll) (va : W64) (w n : Nat) : CollSt × List (Nat × Bool) :=
  (List.range n).foldl (fun x i =>
    let a := va + BitVec.ofNat 64 (i * w)
    match x.1.s.engRead .engRead c.fetched w (some c.id) (.va a) with
    | (s, .got bs poi f) => ({ x.1 with s, recs := x.1.recs ++ f.toList.map fun f => (.engRead, a, f) }, x.2 ++ [(ofLe bs, poi.any id || f.isSome)])
    | (s, .wait pa) => ({ x.1 with s := s.engFetch s.foc.team c.id pa w, wait := true }, x.2 ++ [(0, true)])) (r, [])

/-- Bytes written at a VA, those out of reach discarded (R335). -/
def CollSt.put (r : CollSt) (c : Coll) (va : W64) (bs : List Byte) (poi : Bool) : CollSt :=
  match r.s.translateUnit r.s.foc.ctx .engWrite va with
  | .error f => { r with recs := r.recs ++ [(.engWrite, va, f)] }
  | .ok _ => { r with s := (r.s.engWrite .engWrite .coll c.grp c.mask c.pc c.retired none none (.va va) bs (List.replicate bs.length poi) (some c.id)).1 }
/-- Elements written from a VA on, in ascending order. -/
def CollSt.write (r : CollSt) (c : Coll) (va : W64) (w : Nat) (vs : List (Nat × Bool)) : CollSt :=
  (List.range vs.length).foldl (fun r i => let v := vs.getD i (0, false); r.put c (va + BitVec.ofNat 64 (i * w)) (leBytes w v.1) v.2) r

/-! ## Arithmetic (R156, R334) -/

/-- A value that is no finite number. -/
def nonFinite (t : Ty) (v : Nat) : Bool := (t == .f32 || t == .f64) && !(unpack (Ty.fmt t) v).isFin

/-- The reduction of one element in rank order, from the first rank's value. -/
def reduceRanks (op : Nat) (t : Ty) : List Nat → Nat
  | [] => 0
  | v :: vs => vs.foldl (fun p x => (combine (redEnv .rne) op t p x).bits) v

/-- One element's update: w, m and v after it. -/
def updateElem (adam : Bool) (par : Nat → Num) (g w m v : Nat) : Nat × Nat × Nat :=
  let u := unpack fp32
  let lr := par 0
  let e : FpEnv := {}
  let r (x : FpR) : Num := u x.bits
  if !adam then ((ffma fp32 e lr.negate (u g) (u w)).bits, m, v)
  else
    let one : Num := .fin false 1 0
    let mix (b x y : Num) : FpR :=
      let q := r (fsub fp32 e one b)
      deliverSum fp32 e [b, x, q, y] (termsOf [(b, x), (q, y)] [])
    let m' := mix (par 1) (u m) (u g)
    let v' := mix (par 2) (u v) (r (fmul fp32 e (u g) (u g)))
    let den := r (fadd fp32 e (r (fsqrt fp32 e (r (fmul fp32 e (r v') (par 5))))) (par 3))
    let d := r (fdiv fp32 e (r (fmul fp32 e (r m') (par 4))) den)
    ((ffma fp32 e lr.negate d (u w)).bits, m'.bits, v'.bits)

/-! ## Completion -/

/-- The non-finite bit of a share: the OR of its trailers' (R156). -/
def shareNonFinite (p : PeerPart) : Bool := p.trailers.any (·.nonFinite)
/-- Every chunk of a share has come: their trailers stand in the order of the chunks (R459). A share of no bytes is one chunk. -/
def Comm.wholeShare (m : Comm) (p : PeerPart) : Bool :=
  p.trailers.map (·.index) == List.range (max 1 ((p.data.length + m.chunk - 1) / m.chunk))
/-- A share's descriptor agrees with a collective's in COUNT, TYPE and OP, and its trailers in STEP (R335). -/
def Coll.agrees (c : Coll) (p : PeerPart) : Bool := p.agree && p.trailers.all fun t => t.step == c.step
/-- The chip of each rank, from the bytes at RANKS (R459). -/
def rankChips (m : Comm) (b : List (Nat × Bool)) : List Nat := tab m.nrank fun r => (b.getD (2 * r) (0, false)).1 + 256 * (b.getD (2 * r + 1) (0, false)).1
/-- The shares of all the other ranks have come, in rank order, each from its rank's chip. -/
def sharesIn (m : Comm) (chips : List Nat) (peers : List PeerPart) : Bool :=
  peers.map (·.chip) == ((List.range m.nrank).filter (· != m.myrank)).map (fun r => chips.getD r 0) && peers.all m.wholeShare

/-- The values that the ranks put in for element i, in rank order; the own rank's from `own`. -/
def rankValues (m : Comm) (peers : List PeerPart) (w : Nat) (own i : Nat) : List Nat :=
  (List.range m.nrank).map fun r =>
    if r = m.myrank then own
    else ofLe (((peers.getD (if r < m.myrank then r else r - 1) ⟨0, true, [], []⟩).data.drop (w * i)).take w)

/-- The count of 8 bytes into the named object, a release at .pod, with NF for the lanes in the phase that it counts in (R207, R335). -/
def State.collCount (s : State) (c : Coll) (nf : Bool) : State :=
  let ph : W32 := BitVec.ofNat 32 (s.barGet c.bar).phase
  let g0 := s.grpAt c.grp
  let s :=
    if nf then
      { s with groups := s.groups.update fun _ g =>
          if g.team == g0.team && g.idx == g0.idx && g.phase == .running then { g with collNf := g.collNf ++ [(c.bar, ph, c.mask <<< g0.base)] } else g }
    else s
  s.barLand c.bar 8

/-- STATUS written (R333). -/
def CollSt.status (r : CollSt) (c : Coll) (v : Nat) : CollSt := r.write c (c.desc + 36) 4 [(v, false)]

/-- The step bit of a collective set (R335, R460). -/
def State.setStepBit (s : State) (c : Coll) : State :=
  s.modC fun x => { x with stepBits := if x.stepBits.contains (c.comm, c.step) then x.stepBits else x.stepBits ++ [(c.comm, c.step)] }

/-- What a collective writes once no peer has still to answer: its non-finite bit, and STATUS. -/
def CollSt.run (r : CollSt) (c : Coll) (m : Comm) (peers : List PeerPart) : CollSt × Bool × Nat :=
  let w := Ty.bytes c.ty
  let sl := sliceOf c.count m.nrank m.myrank
  let peerNf := peers.any shareNonFinite
  match c.kind with
  | .allGather =>
    let (r, own) := r.read c c.send w c.count
    if r.wait then (r, false, 0)
    else
      let vs := (List.range m.nrank).flatMap fun k => tab c.count fun i =>
        let o := own.getD i (0, false)
        ((rankValues m peers w o.1 i).getD k 0, k == m.myrank && o.2)
      (r.write c c.recv w vs, false, 0)
  | .commit =>
    let bit := peerNf || r.s.c.stepBits.contains (c.comm, c.step)
    let r := { r with s := r.s.modC fun x => { x with stepBits := x.stepBits.filter (· != (c.comm, c.step)) } }
    if bit then (r, false, 1) else (r.put c (c.comm + 8) (leBytes 8 m.shadow.toNat ++ leBytes 8 m.live.toNat) false, false, 0)
  | k =>
    let (r, own) := r.read c c.send w c.count
    let el (i : Nat) : Nat × Bool := own.getD i (0, false)
    let red (i : Nat) : Nat × Bool := (reduceRanks (if k == .update then 1 else c.op) c.ty (rankValues m peers w (el i).1 i), (el i).2)
    let idx := if k == .allReduce then List.range c.count else tab sl.2 fun i => sl.1 + i
    let nf := peerNf || own.any (fun v => !v.2 && nonFinite c.ty v.1) || idx.any fun i => !(red i).2 && nonFinite c.ty (red i).1
    if r.wait then (r, false, 0)
    else if k == .allReduce || k == .reduceScatter then (r.write c c.recv w (idx.map red), nf, 0)
    else
      let adam := c.op == 1
      let (r, ws) := r.read c m.live 4 sl.2
      let (r, mv) := if adam then r.read c c.recv 4 (2 * sl.2) else (r, [])
      if r.wait then (r, false, 0)
      else
        let par (i : Nat) : Num := unpack fp32 (c.params.getD i 0).toNat
        let xs := (List.range sl.2).map fun i =>
          let g := red (sl.1 + i)
          let a := ws.getD i (0, false)
          let mo := mv.getD i (0, false)
          let vo := mv.getD (sl.2 + i) (0, false)
          (updateElem adam par g.1 a.1 mo.1 vo.1, g.2 || a.2 || mo.2 || vo.2)
        let nf := nf || xs.any fun x => !x.2 && (nonFinite .f32 x.1.1 || adam && (nonFinite .f32 x.1.2.1 || nonFinite .f32 x.1.2.2))
        let r := r.write c m.shadow 4 (xs.map fun x => (x.1.1, x.2))
        (if adam then r.write c c.recv 4 (xs.map (fun x => (x.1.2.1, x.2)) ++ xs.map fun x => (x.1.2.2, x.2)) else r, nf, 0)

/-- The first collective of the package still to run (R459), of a context whose records the engine does not hold (R45). -/
def State.nextColl (s : State) : Option (Nat × Coll) :=
  (s.teams.flatMap fun t => if (s.ctxAt (s.gridAt t.2.grid).ctx).holds .coll then [] else t.2.colls.map fun c => (t.1, c)).foldl (fun r x =>
    match r with
    | none => some x
    | some y => if x.2.id < y.2.id then some x else some y) none

/-- A collective that has run leaves its team. -/
def State.dropColl (s : State) (team coll : Nat) : State :=
  let t := s.teamAt team
  s.setTeamAt team { t with colls := t.colls.filter fun x => x.id != coll }

/-- The whole of a collective (R334, R335, R460), with its non-finite bit, once the shares of the chips at RANKS have come: ranks that
disagree, or a bad record, write STATUS 2 alone and set the step's bit (log entries 60 and 121). -/
def State.collWhole (s : State) (c : Coll) (peers : List PeerPart) : CollSt × Bool :=
  let (r, b) := CollSt.read { s } c c.comm 1 64
  let m := readComm c.comm (b.map fun x => BitVec.ofNat 8 x.1)
  let bad := m.bad || b.any (·.2) || (c.kind == .update && m.shard < 4 * (sliceOf c.count m.nrank m.myrank).2)
  let mismatch (r : CollSt) : CollSt × Bool := (CollSt.status { r with s := r.s.setStepBit c } c 2, false)
  if r.wait then (r, false)
  else if bad then mismatch r
  else
    let (r, ids) := r.read c m.ranks 1 (2 * m.nrank)
    if r.wait then (r, false)
    else if ids.any (·.2) then mismatch r
    else if !sharesIn m (rankChips m ids) peers then ({ r with wait := true }, false)
    else if peers.any fun x => !c.agrees x then mismatch r
    else
      let (r, nf, status) := r.run c m peers
      if r.wait then (r, false) else (CollSt.status (if nf then { r with s := r.s.setStepBit c } else r) c status, nf)

/-- A collective put back in its team. -/
def State.setColl (s : State) (team : Nat) (c : Coll) : State :=
  let t := s.teamAt team
  s.setTeamAt team { t with colls := t.colls.map fun x => if x.id == c.id then c else x }
/-- A write of a collective is on its way to a peer. -/
def State.collOut (s : State) (team coll : Nat) : Bool := s.pkg.peerOut.any fun q => q.cmd == some (team, coll) && q.kind == .store
/-- Records of a collective's accesses, in order (R45). -/
def State.collRecs (s : State) (c : Coll) (recs : List (Acc × W64 × Flt)) : State :=
  recs.foldl (fun s x => s.recordUnit s.foc.ctx .coll (s.cmdRec c.grp c.mask c.pc c.retired x.1 x.2.1 x.2.2) false) s

/-- COLLECTIVE_COMPLETION (R334, R335, R460): the collective that is next runs with what the other ranks put in, and counts its 8
bytes once its writes have performed; a later event does so where some are at a peer. Where the ring has no room for its records, the
record that finds none is held, and the rest of the collective waits with it (R45). -/
def execCollectiveCompletion (team coll : Nat) (peers : List PeerPart) (s : State) : Out :=
  match s.nextColl with
  | none => .next s
  | some (t, c) =>
    let s := s.focusTeam team
    if t != team || c.id != coll then .next s
    else
      match c.ran with
      | some nf => if s.collOut team coll then .next s else .next ((s.collCount c nf).dropColl team coll).bump
      | none =>
        let (r, nf) := s.collWhole c peers
        let recs := r.recs.drop c.recs
        let room := if s.c.fqWaits then 0 else 2 ^ s.c.fqLogn - s.c.fqCount
        if r.wait then .next (s.unmet r.s)
        else if room < recs.length then .next ((s.collRecs c (recs.take (room + 1))).setColl team { c with recs := c.recs + room + 1 })
        else
          let s' := r.s.collRecs c recs
          .next (s.unmet (if s'.collOut team coll then s'.setColl team { c with ran := some nf } else ((s'.collCount c nf).dropColl team coll).bump))

end Sys2Proof.Machine
end

