-- ==== Sys2Proof/Machine/GrpOps.lean ====
section
/-! DEFINITION. Group shape: GSPLIT, GFUSE and GANG (major 0x05, R192 to R196, R274 to R276). -/

namespace Sys2Proof.Machine

/-- Part p of a group split by f (R193). What R193 does not name is the model's choice (log entry 34): a pending guard report and
pending overrun reports go to part 0, and the handler bank, the flush count f_g (R139), the bound version of the cache, the count of
MINE and the digest (R446) are copied to every part, which counts or folds on from there. -/
def Grp.partOf (g : Grp) (k f p : Nat) : Grp :=
  let w := g.gw / f
  { team := g.team, idx := g.idx, part := g.part * f + p, factor := g.factor * f, base := g.base + p * w, gw := w,
    budget := g.budget, parent := some k,
    lanes := tab w fun l => { g.lane (p * w + l) with rot := 0 }
    s := g.s, a := g.a, z := g.z
    m := tab 8 fun i => { bits := ((bankGet g.m {} i).bits >>> (p * w)) &&& widthMask w, poi := ((bankGet g.m {} i).poi >>> (p * w)) &&& widthMask w }
    spillOff := g.spillOff + p * (g.spillLen / f), spillLen := g.spillLen / f
    retired := g.retired + 1, hbank := g.hbank, flushes := g.flushes
    rcBound := g.rcBound, rcDue := g.rcDue, rcSyncs := g.rcSyncs, rcMine := g.rcMine
    guard := if p = 0 then g.guard else none, overruns := if p = 0 then g.overruns else [], collNf := g.collNf, digest := g.digest }

/-- GSPLIT (R192, R193, R274): it waits for the group's flags, is refused to a group that is not whole and free, and hands the
group's state to its parts. -/
def execGsplit (p : Pred) (f : IF) (s : State) : Out :=
  s.performWide p (fun _ => true) fun s act =>
    let g := s.g
    let n := f.imm.toNat
    if !g.flagsClear then s.flagWait (BitVec.allOnes 12)
    else if g.alive &&& ~~~act != 0 || g.gw / n < 8 || s.gr.lrec.split < g.factor * n || !g.frames.isEmpty || !g.gang.isEmpty then
      .done s (failAll g g.iss.set .opndLate)
    else
      let k := s.foc.grp
      let ids := tab n fun i => s.nextId + i
      let s := { s with
        nextId := s.nextId + n
        groups := ids.foldl (fun gs id => gs.set id (g.partOf k n (id - s.nextId))) s.groups }
      .done (s.setG { g with phase := .split, parts := ids, guard := none, overruns := [] }) []

/-- GFUSE (R194, R275): each active lane waits; not a part, or a part inside a call, traps. -/
def execGfuse (p : Pred) (_f : VF) (s : State) : Out :=
  s.perform false p (fun _ => true) fun s act =>
    if s.g.parent.isNone || !s.g.frames.isEmpty then .done s (failAll s.g act .opndLate)
    else .done (s.modG fun g => g.modLanes (g.lanesOf act) fun _ x => { x with st := .waiting, wait := .gfuse }) []

/-- A part has arrived when each lane that has not exited waits at a GFUSE (R194). -/
def Grp.arrived (g : Grp) : Bool := g.laneIdx.all fun l => (g.lane l).st == .exited || ((g.lane l).st == .waiting && (g.lane l).wait == .gfuse)

/-- The group a fusion leaves (R195), from the parent as it stood at the split and its parts in order. What R195 does not name is the
model's choice (log entry 34): the handler bank, the bound version and the count of MINE are part 0's, the flush count and the count of
syncs are the largest of the parts', the guard report is the first part's that holds one, and the overrun reports are all of the
parts', oldest first (R422). -/
def Grp.fusedOf (g : Grp) (ps : List Grp) : Grp :=
  let p0 := ps.headD {}
  let w := p0.gw
  { g with
    phase := .running, parts := []
    lanes := ps.flatMap fun q => q.laneIdx.map fun l => let x := q.lane l; { x with wait := if x.wait == .gfuse then .none else x.wait }
    s := p0.s, a := p0.a, z := p0.z
    m := tab 8 fun i => (List.range ps.length).foldl (fun r j =>
      let q := bankGet (ps.getD j {}).m ({} : MReg) i
      { bits := r.bits ||| (q.bits <<< (j * w)), poi := r.poi ||| (q.poi <<< (j * w)) }) ({} : MReg)
    flags := [], fdone := [], wb := 0, frames := [], spTop := 0, gang := []
    retired := ps.foldl (fun n q => if n.toNat < q.retired.toNat then q.retired else n) 0
    hbank := p0.hbank, handler := none, stall := .none, yielded := false
    guard := (ps.findSome? fun q => q.guard), overruns := sortBy (fun a b => a.1 ≤ b.1) (ps.flatMap (·.overruns)).eraseDups
    flushes := ps.foldl (fun n q => max n q.flushes) g.flushes
    rcBound := p0.rcBound, rcDue := p0.rcDue, rcSyncs := ps.foldl (fun n q => max n q.rcSyncs) g.rcSyncs, rcMine := p0.rcMine
    collNf := ps.flatMap fun q => q.collNf.map fun x => (x.1, x.2.1, x.2.2 &&& (widthMask q.gw <<< q.base))
    readyFor := 0 }

/-- FUSION: every sibling part has arrived and every flag of every sibling is clear (R195), and none is stopped (R438); otherwise nothing
happens. -/
def State.fusionReady (s : State) (k : Nat) : Bool :=
  let g := s.grpAt k
  g.phase == .split && g.parts.all fun j => let q := s.grpAt j; q.phase != .split && q.arrived && q.flagsClear && q.handler.isNone && !q.stopped && !s.stopDue j
/-- A number of 64 bits as two words of a log. -/
def wordPair (x : W64) (poi : Bool := false) : List Reg := [⟨x.setWidth 32, poi⟩, ⟨(x >>> 32).setWidth 32, poi⟩]
/-- The state of a lane that a fusion hands on (R195, R435): its v, k and y registers, FPL, RNG counter and PC. -/
def Lane.inherits (x : Lane) (budget : Nat) : List Reg :=
  tab budget (bankGet x.v {}) ++ x.k ++ [⟨x.y0.val, x.y0.poi⟩, ⟨x.y1.val, x.y1.poi⟩, ⟨x.fpl, false⟩, ⟨x.ctr, false⟩] ++ wordPair x.pc
/-- The state of a group that a fusion hands on (R195, R435): its s, m, a and z registers. -/
def Grp.inherits (g : Grp) : List Reg :=
  ((List.range 64).flatMap fun i => wordPair (g.sreg i).val (g.sreg i).poi) ++ g.m.flatMap (fun r => wordPair r.bits ++ wordPair r.poi)
    ++ g.a.flatMap (fun r => wordPair r.baseva ++ wordPair (r.pbase.setWidth 64) ++ [⟨r.limit, false⟩, ⟨r.epoch, false⟩, ⟨r.attr.setWidth 32, r.valid⟩])
    ++ g.z.flatMap fun x => wordPair x
/-- Words logged in pieces of at most 128 bytes. -/
def State.logWords (s : State) (i : Nat) (rs : List Reg) : State :=
  (tab ((rs.length + 31) / 32) fun j => (rs.drop (32 * j)).take 32).foldl (fun s ws => s.logIn .fuse i (ws.flatMap fun r => leBytes 4 r.val.toNat) (ws.map (·.poi))) s
/-- The state that the fused group in focus inherits, logged lane by lane, and the group's own after the lanes (R435). -/
def State.logFuse (s : State) : State := (s.g.laneIdx.foldl (fun s l => s.logWords l ((s.g.lane l).inherits s.g.budget)) s).logWords 64 s.g.inherits
/-- Whether a fused count lies in a later interval than the one its group had at the split, and not at its start (R434). -/
def Ctx.crosses (c : Ctx) (old new : W64) : Bool :=
  c.dbgLogOn && decide (old.toNat / 2 ^ c.dbgIntv < new.toNat / 2 ^ c.dbgIntv) && new.toNat % 2 ^ c.dbgIntv != 0
def execFusion (grp : Nat) (s : State) : Out :=
  if s.fusionReady grp then
    let g := s.grpAt grp
    let f := g.fusedOf (g.parts.map s.grpAt)
    let c := s.ctxAt (s.gridAt (s.teamAt g.team).grid).ctx
    let s' := s.setGrpAt grp { f with crossed := c.crosses g.retired f.retired }
    let s' := { s' with groups := s'.groups.update fun j q => if g.parts.contains j then { q with phase := .retired, fused := q.phase != GrpPhase.retired } else q }
    .next ((s'.focusGrp grp).logFuse)
  else .next s

/-- GANG (R196, R276): a poisoned A traps before R196's checks of the groups it names (log entry 124). -/
def execGang (p : Pred) (f : VF) (s : State) : Out :=
  s.perform false p (fun _ => true) fun s act =>
    let c := f.m
    let v := s.g.sVal f.a.sIdx
    let ms := tab c fun i => bitsAt v.n (8 * i) 8
    let gw0 := s.gr.lrec.gw0
    if c = 0 then .done (s.modG fun g => { g with gang := [] }) []
    else if v.poi then .done s (failAll s.g act (.poison f.a))
    else if gw0 = 8 || gw0 = 16 || s.g.parent.isSome || ms.any (fun i => s.gr.lrec.ngroups ≤ i) || ms.eraseDups.length ≠ c || !ms.contains s.g.idx then
      .done s (failAll s.g act .opndLate)
    else .done (s.modG fun g => { g with gang := ms }) []

end Sys2Proof.Machine
end

