-- ==== Sys2Proof/Machine/Mat.lean ====
section
/-! DEFINITION. The matrix engine (R337 to R345) with its summation tree (R221 to R224), the rendezvous latch of a gang (R339),
the pop of its entries (R340, R341), and the stream instructions SPUSH, MQSTAT and MDROP (R346 to R348). -/

namespace Sys2Proof.Machine

/-! ## Shapes -/

/-- Kslab of a type (R337). -/
def kSlab : Ty → Nat | .f64 => 4 | .f32 => 8 | .f16x2 => 32 | .bf16x2 => 32 | .ai4 => 128 | _ => 64
/-- The bits of an operand element (R126). -/
def matBits : Ty → Nat | .f64 => 64 | .f32 => 32 | .f16x2 => 16 | .bf16x2 => 16 | .ai4 => 4 | _ => 8
/-- Logical k of a slab (R221). -/
def slabK (sparse : Bool) (t : Ty) : Nat := if sparse then 2 * kSlab t else kSlab t
/-- The accumulator's format and its registers in a fragment (R221, R338). -/
def accFmt (t : Ty) : Fmt := if t == .f64 then fp64 else fp32
def fragRegs (t : Ty) : Nat := if t == .f64 then 32 else 16
/-- G of an asymmetric type (R337). -/
def VF.group (f : VF) : Nat := 32 * 2 ^ (f.m / 8 % 4)
def VF.z (f : VF) : Bool := f.m % 2 == 1
def VF.e (f : VF) : Bool := f.m / 2 % 2 == 1
def VF.c' (f : VF) : Bool := f.m / 4 % 2 == 1

/-- The lengths in k of the parts of asymmetric groups that lie in a slab, from `k` left of an open group. -/
def segments (g : Nat) : Nat → Nat → Nat → List Nat
  | 0, _, _ => []
  | fuel + 1, k, n => if n = 0 then [] else min k n :: segments g fuel g (n - min k n)
/-- The parts of groups that an MMA of a member covers: the open group's first (R224). -/
def State.slabParts (g : Grp) (sparse : Bool) (f : VF) : List Nat :=
  let k := slabK sparse f.ty
  let left := match g.openI with | some o => if VF.z f then VF.group f else o.size - o.done | none => VF.group f
  segments (VF.group f) (k + 1) left k
/-- The groups whose first k lies in the slab, each with one SCALE entry (R126). -/
def State.scaleEntries (g : Grp) (sparse : Bool) (f : VF) : Nat :=
  if !f.ty.isAi then 0
  else
    let n := (State.slabParts g sparse f).length
    if g.openI.isSome && !VF.z f then n - 1 else n

/-- The bytes that each port must hold for an MMA of a gang of g members (R126): A, B, META and SCALE. -/
def entrySizes (sparse : Bool) (f : VF) (size n scales : Nat) : List Nat :=
  let ks := kSlab f.ty
  [16 * size * ks * matBits f.ty / 8, n * slabK sparse f.ty * matBits f.ty / 8, if sparse then 16 * size * ks / 4 else 0, scales * (16 * size + n) * 4]

/-! ## The latch (R338, R339) -/

/-- The groups of the focused team that a gang list names, in its order. -/
def State.gangOf (s : State) (l : List Nat) : List Nat :=
  l.filterMap fun i => (s.groups.find? fun e => e.2.team == s.foc.team && e.2.idx == i && e.2.phase == .running).map (·.1)
def Stall.isLatch : Stall → Bool | .latch _ => true | _ => false
/-- The bits that the words of a gang agree in (R339). -/
def gangKey (w : W64) : Nat := w.toNat / 2 ^ 52 * 2 ^ 48 + w.toNat % 2 ^ 48

/-- Every lane of a group that waits at its MMA trapped there; the focus returns to where it was. -/
def State.trapMember (s : State) (k : Nat) (f : Fail) : State :=
  let s' := s.focusGrp k
  let g := s'.g
  let ls := g.laneIdx.filter fun l => (g.lane l).st != .exited
  (((s'.setG { g with stall := .none, readyFor := 0 }).bump).trapEntry (maskOf ls) f g.iss.pc g.iss.word g.retired).refocus s

/-- The ports that a gang of some members pops (R340). -/
def State.gangPorts (s : State) (sparse : Bool) (f : VF) (ms : List Nat) : List Nat :=
  let g := s.grpAt (ms.headD 0)
  let sizes := entrySizes sparse f ms.length (g.gw / 2) (State.scaleEntries g sparse f)
  (List.range 4).filter fun i => sizes.getD i 0 ≠ 0
/-- The first of a gang's ports that is broken, or has been seen broken since the latch opened (R340 check 1). -/
def State.brokenPort (s : State) (sparse : Bool) (f : VF) (ms seen : List Nat) : Option Nat :=
  (s.gangPorts sparse f ms).find? fun i => (bankGet s.t.ports ({} : Port) i).broken || seen.contains i
/-- Poison Consumed at a broken port (R340, R413). -/
def Fail.brokenPort (i : Nat) : Fail := { cause := cPoison, info := 0xC0 + i }

/-- An arrival at the latch (R338, R339); a broken port that the gang must pop traps it as the latch opens (R340). -/
def State.mmaOp (s : State) (sparse : Bool) (p : Pred) (f : VF) : Out :=
  s.perform false p (fun _ => true) fun s act =>
    let g := s.g
    if !s.gr.streams || g.laneIdx.any (fun l => !act.getLsbD l) || g.gang.isEmpty || f.d.vIdx % 8 ≠ 0 || g.win < f.d.vIdx + fragRegs f.ty then
      .done s (failAll g act .opndLate)
    else
      let w := g.iss.word
      let others := (s.gangOf g.gang).filter (· != s.foc.grp)
      let waiting := others.filter fun k => (s.grpAt k).stall.isLatch
      let differs (k : Nat) : Bool :=
        let y := s.grpAt k
        y.gang != g.gang || match y.stall with | .latch w' => gangKey w' != gangKey w | _ => false
      if waiting.any differs then .done (waiting.foldl (fun s k => s.trapMember k { cause := cGang }) s) (failAll g act { cause := cGang })
      else if others.length + 1 == g.gang.length && waiting.length == others.length then
        match s.brokenPort sparse f (s.gangOf g.gang) [] with
        | some i => .done (waiting.foldl (fun s k => s.trapMember k (.brokenPort i)) s) (failAll s.g act (.brokenPort i))
        | none =>
          let (s, o) := s.freshOrder
          .stall { s with groups := s.groups.update fun k y => if waiting.contains k then { y with stall := .port o [] } else y } (.port o [])
      else .stall s (.latch w)

def execMma (p : Pred) (f : VF) (s : State) : Out := s.mmaOp false p f
def execMmasp (p : Pred) (f : VF) (s : State) : Out := s.mmaOp true p f

/-- A group of the focused team has retired: the groups that wait at the latch with it in their lists trap, with every waiting
group those lists name (R339). -/
def State.gangRetired (s : State) (idx : Nat) : State :=
  let waits := (s.groups.filter fun e => e.2.team == s.foc.team && e.2.phase == .running && e.2.stall.isLatch && e.2.gang.contains idx).map (·.2)
  let named := waits.flatMap (·.gang)
  let hit := (s.groups.filter fun e => e.2.team == s.foc.team && e.2.phase == .running && e.2.stall.isLatch && named.contains e.2.idx).map (·.1)
  hit.foldl (fun s k => s.trapMember k { cause := cGang }) s

/-! ## The pop (R340, R341) -/

/-- The word of an MMA as its fields. -/
def mmaFields (w : W64) : Option (Bool × VF) :=
  match decodeWord w with
  | .ok (.mma _ f) => some (false, f)
  | .ok (.mmasp _ f) => some (true, f)
  | _ => none

/-- A nibble of META names two kept positions in order; a SCALE word is zero above its zero point (R126). -/
def metaBad (b : Byte) : Bool := let x := b.toNat; x / 4 % 4 ≤ x % 4 || x / 64 ≤ x / 16 % 4
def scaleBad (ai4 : Bool) (w : Nat) : Bool := w / 2 ^ 24 ≠ 0 || ai4 && 16 ≤ w / 2 ^ 16 % 256

/-- Where the gang of a member that waits at the ports stands (R340). -/
inductive PopState
  | wait
  | trap (f : Fail)
  | pop
deriving DecidableEq, Repr

/-- The checks of R340 for a gang with the fields and members given. -/
def State.popState (s : State) (sparse : Bool) (f : VF) (ms : List Nat) : PopState :=
  let g := s.grpAt (ms.headD 0)
  let sizes := entrySizes sparse f ms.length (g.gw / 2) (State.scaleEntries g sparse f)
  let port (i : Nat) : Port := bankGet s.t.ports {} i
  match s.brokenPort sparse f ms (match g.stall with | .port _ seen => seen | _ => []) with
  | some i => .trap (.brokenPort i)
  | none =>
    if (s.gangPorts sparse f ms).any fun i => (port i).bytes.length < sizes.getD i 0 then .wait
    else
      let head (i : Nat) : List Byte := (port i).bytes.take (sizes.getD i 0)
      let words := tab (sizes.getD 3 0 / 4) fun i => ofLe (((head 3).drop (4 * i)).take 4)
      let badOpen := ms.any fun k => match (s.grpAt k).openI with | some o => !VF.z f && (o.ty != f.ty || o.size != VF.group f) | none => false
      let parts := State.slabParts g sparse f
      let start := match g.openI with | some o => if VF.z f then 0 else o.done | none => 0
      let ends := (start + parts.sum) % VF.group f
      if (head 2).any metaBad || words.any (scaleBad (f.ty == .ai4)) then .trap .opndLate
      else if badOpen then .trap .opndLate
      else if f.ty.isAi && VF.e f && ends ≠ 0 then .trap .opndLate
      else .pop

/-- n bytes taken from a port of the focused team. -/
def State.takePort (s : State) (i n : Nat) : State × List Byte :=
  let p := bankGet s.t.ports {} i
  (s.modT fun t => { t with ports := bankPut {} t.ports i { p with bytes := p.bytes.drop n } }, p.bytes.take n)

/-- The words of SCALE entries that member j needs, entry by entry: its rows, then the columns. -/
def memberScale (size n j : Nat) (b : List Byte) : Nat → List Byte
  | 0 => []
  | k + 1 =>
    let e := b.take ((16 * size + n) * 4)
    (e.drop (64 * j)).take 64 ++ e.drop (64 * size) ++ memberScale size n j (b.drop ((16 * size + n) * 4)) k

/-- The group may pop: it waits at the ports, its gang is whole, and no other gang of the team opened its latch before (R341); or a port
it waits for has broken (R340). -/
def State.canPop (s : State) (grp : Nat) : Option (Bool × VF × List Nat) :=
  let g := s.grpAt grp
  match g.phase, g.stall with
  | .running, .port o seen =>
    let ms := ((s.focusGrp grp).gangOf g.gang).filter fun k => match (s.grpAt k).stall with | .port o' _ => o' == o | _ => false
    let earlier := s.groups.any fun e => e.2.team == g.team && e.2.phase == .running && match e.2.stall with | .port o' _ => o' < o | _ => false
    match mmaFields g.iss.word with
    | none => none
    | some x =>
      if ms.length != g.gang.length || (s.teamAt g.team).phase != .resident || earlier && !(s.gangPorts x.1 x.2 ms).any seen.contains then none
      else some (x.1, x.2, ms)
  | _, _ => none

/-- MMA_POP (R340, R341): the gang's entries are checked and popped together, and every member's MMA retires; or all its lanes
trap. -/
def execMmaPop (grp : Nat) (s : State) : Out :=
  match s.canPop grp with
  | none => .next s
  | some (sparse, f, ms) =>
    let s := s.focusGrp grp
    match s.popState sparse f ms with
    | .wait => .next s
    | .trap x => .next (ms.foldl (fun s k => s.trapMember k x) s)
    | .pop =>
      let g := s.grpAt (ms.headD 0)
      let n := g.gw / 2
      let size := ms.length
      let sc := State.scaleEntries g sparse f
      let sizes := entrySizes sparse f size n sc
      let (s, a) := s.takePort 0 (sizes.getD 0 0)
      let (s, b) := s.takePort 1 (sizes.getD 1 0)
      let (s, mt) := s.takePort 2 (sizes.getD 2 0)
      let (s, sb) := s.takePort 3 (sizes.getD 3 0)
      let rows (x : List Byte) (j : Nat) : List Byte := (x.drop (j * (x.length / size))).take (x.length / size)
      .next <| (List.range size).foldl (fun s j =>
        let s := s.focusGrp (ms.getD j 0)
        let pend : MmaPend := { sparse, f, member := j, size, a := rows a j, b, mta := rows mt j, scale := memberScale size n j sb sc,
                                fpl := s.g.lanes.map (·.fpl)
                                acc := s.g.laneIdx.map fun l => tab (fragRegs f.ty) fun i => s.g.vReg l (f.d.vIdx + i) }
        let s := (s.ptIssued s.g.iss.set).modG fun g => { g.advance with mmaPend := some pend }
        s.finish true []) s

/-! ## The summation tree (R221 to R224) -/

/-- An element of an entry. -/
def matElem (bits : Nat) (b : List Byte) (i : Nat) : Nat :=
  if bits = 4 then (b.getD (i / 2) 0).toNat / 16 ^ (i % 2) % 16 else ofLe ((b.drop (i * bits / 8)).take (bits / 8))

/-- The kept elements of a local row: each logical k with its element (R344). -/
def keptRow (sparse : Bool) (t : Ty) (a mt : List Byte) (r : Nat) : List (Nat × Nat) :=
  let ks := kSlab t
  (List.range ks).map fun i =>
    let v := matElem (matBits t) a (r * ks + i)
    if sparse then
      let nib := (mt.getD (r * ks / 4 + i / 4) 0).toNat / 16 ^ (i / 2 % 2) % 16
      (i / 2 * 4 + (if i % 2 = 0 then nib % 4 else nib / 4), v)
    else (i, v)

/-- The exact sum of a quad's products with its flags (R211, R222). -/
def quadSum (f : Fmt) (env : FpEnv) (ps : List (Num × Num)) : Num × W32 :=
  let xs := ps.flatMap fun p => [p.1, p.2]
  let ts := termsOf ps []
  if sumInvalid ts then (.nan false false 0 f.fb, fNV ||| nvOf xs)
  else if xs.any Num.isNan then (.nan false false 0 f.fb, nvOf xs)
  else if ts.contains (.inf true) then (.inf true, 0)
  else if ts.contains (.inf false) then (.inf false, 0)
  else
    let fs := ts.filterMap fun t => match t with | .fin x => some x | _ => none
    let r := exactSum fs
    if r.1 == 0 then (.fin (if fs.all (·.2.1 == 0) then zeroSign env.rm (fs.map (·.1)) else env.rm == .rd) 0 0, 0)
    else (.fin (r.1 < 0) r.1.natAbs r.2, 0)

/-- A chain with a sum added, one rounding. -/
def chainAdd (f : Fmt) (env : FpEnv) (c : Nat × W32) (s : Num × W32) : Nat × W32 :=
  let r := fadd f env (unpack f c.1) s.1
  (r.bits, c.2 ||| r.fl ||| s.2)

/-- One element over a slab of a native format: both chains (R222). -/
def nativeElem (t : Ty) (env : FpEnv) (row : List (Nat × Nat)) (col : Nat → Nat) (kb : Nat) (ev od : Nat × W32) : (Nat × W32) × (Nat × W32) :=
  let f := Ty.fmt t
  let acc := accFmt t
  let quad (j p : Nat) : List (Num × Num) :=
    (row.filter fun x => x.1 / 8 == j && x.1 % 2 == p).map fun x => (opnd f env x.2, opnd f env (col x.1))
  (List.range ((kb + 7) / 8)).foldl (fun c j =>
    (chainAdd acc env c.1 (quadSum acc env (quad j 0)), chainAdd acc env c.2 (quadSum acc env (quad j 1)))) (ev, od)

/-- sa × sb × I (R224): exact before its one rounding. -/
def scaleTerm (env : FpEnv) (sa sb : Num) (i : Int) : FpR :=
  let f := fp32
  let x := ofInt i
  let inf := sa.isInf || sb.isInf
  let zero := sa.isZero || sb.isZero || x.isZero
  if sa.isNan || sb.isNan then ⟨f.nanBits, nvOf [sa, sb] ||| if inf && zero then fNV else 0⟩
  else if inf && zero then ⟨f.nanBits, fNV⟩
  else if inf then infResult f ((sa.neg != sb.neg) != x.neg)
  else
    match sa, sb with
    | .fin n m e, .fin n' m' e' => resultFin f env ((n != n') != x.neg) (m * m' * i.natAbs) (e + e')
    | _, _ => ⟨f.nanBits, 0⟩

/-- The scale and zero point of a word. -/
def scaleOfWord (env : FpEnv) (b : List Byte) (i : Nat) : Num × Int :=
  let w := ofLe ((b.drop (4 * i)).take 4)
  (opnd fp16 env (w % 65536), (w / 65536 % 256 : Nat))

/-- What an asymmetric element has gathered: the chains, the sum of the open group, and whether a new group has begun. -/
structure AiElem where
  ev : Nat × W32
  od : Nat × W32
  sum : Int

/-- One element over the parts of a slab (R224): `scales` are the words of the open group and of each new one. -/
def aiElem (env : FpEnv) (row : List (Nat × Nat)) (col : Nat → Nat) (r c rows : Nat) (parts : List (Nat × Nat × Bool × Bool × List Byte)) (x : AiElem) : AiElem :=
  parts.foldl (fun x p =>
    let (lo, n, odd, closes, sc) := p
    let a := scaleOfWord env sc r
    let b := scaleOfWord env sc (rows + c)
    let sum := x.sum + ((row.filter fun k => lo ≤ k.1 && k.1 < lo + n).map fun k => ((k.2 : Int) - a.2) * ((col k.1 : Int) - b.2)).sum
    if !closes then { x with sum }
    else
      let t := scaleTerm env a.1 b.1 sum
      let y : Num × W32 := (unpack fp32 t.bits, t.fl)
      if odd then { x with od := chainAdd fp32 env x.od y, sum := 0 } else { x with ev := chainAdd fp32 env x.ev y, sum := 0 }) x

/-- The parts of a slab with the place, chain and scale words of each; `first` is the k consumed since .z. A group that begins at k is group
k / G, and feeds the chain of that number's parity (R224; log entry 123). -/
def aiParts (size : Nat) (o : Option OpenI) (parts : List Nat) (rowBytes : Nat) (sc : List Byte) (first : Nat) : List (Nat × Nat × Bool × Bool × List Byte) :=
  let r := parts.foldl (fun (x : List (Nat × Nat × Bool × Bool × List Byte) × Nat × Option OpenI × List Byte × Nat) n =>
    let (out, lo, op, sc, k) := x
    match op with
    | some o => (out ++ [(lo, n, o.odd, o.done + n == size, o.scale)], lo + n, none, sc, k + n)
    | none => (out ++ [(lo, n, k / size % 2 == 1, n == size, sc.take rowBytes)], lo + n, none, sc.drop rowBytes, k + n)) ([], 0, o, sc, first)
  r.1

/-- An element of a fragment (R342): its lane and its even and odd registers, counted from the base. -/
def fragPlace (f64 : Bool) (n r c : Nat) : Nat × Nat × Nat :=
  let i := r / 2
  (r % 2 * n + c, if f64 then 2 * i else i, if f64 then 16 + 2 * i else 8 + i)

/-- A value of the fragment of C that a pending MMA took: 32 bits, or with `w` 64. -/
def MmaPend.old (m : MmaPend) (w : Bool) (l i : Nat) : Val :=
  let r (j : Nat) : Reg := bankGet (bankGet m.acc [] l) {} j
  if w then ⟨(r i).val.toNat + 2 ^ 32 * (r (i + 1)).val.toNat, (r i).poi || (r (i + 1)).poi⟩ else ⟨(r i).val.toNat, (r i).poi⟩

/-- The energy of a member's part of a product: one MAC for each kept k of its 16 rows and n columns (R345, R461). -/
def macEnergy (t : Ty) (n : Nat) : Nat :=
  16 * n * kSlab t * match t with
    | .e4m3x4 => 25 | .e5m2x4 => 25 | .ai8 => 25 | .ai4 => 15 | .f16x2 => 45 | .bf16x2 => 45 | .f32 => 160 | .f64 => 600 | _ => 0

/-- MMA_COMPLETE (R343, R345): the elements that the member owns are formed and delivered, with their flags; its MACs are debited (R461). -/
def execMmaComplete (grp : Nat) (s : State) : Out :=
  match (s.grpAt grp).mmaPend with
  | none => .next s
  | some m =>
    let s := s.focusGrp grp
    let g := s.g
    let f := m.f
    let t := f.ty
    let n := g.gw / 2
    let kb := slabK m.sparse t
    let d := f.d.vIdx
    let w := t == .f64
    let op := if VF.z f then none else g.openI
    let begun := if VF.z f then 0 else g.mmaK
    let parts := if t.isAi then segments (VF.group f) (kb + 1) (match op with | some o => o.size - o.done | none => VF.group f) kb else []
    let ps := if t.isAi then aiParts (VF.group f) op parts (4 * (16 + n)) m.scale begun else []
    let cell (r c : Nat) : Option (Nat × (Nat × W32) × (Nat × W32)) × Int :=
      let (l, ei, oi) := fragPlace w n r c
      let env := { fpEnv (m.fpl.getD l 0) f.rmo with nanp := false }
      let e := m.old w l ei
      let o := m.old w l oi
      let poi := if VF.z f then VF.c' f && e.poi else e.poi || o.poi
      let cOp := opnd (accFmt t) env e.n
      let cBits := match unpack (accFmt t) e.n, cOp with | .fin neg _ _, .fin _ 0 _ => (accFmt t).signed neg 0 | .nan .., _ => (accFmt t).nanBits | _, _ => e.n
      let ev : Nat × W32 := if !VF.z f then (e.n, 0) else if VF.c' f then (cBits, nvOf [cOp]) else (0, 0)
      let od : Nat × W32 := (if VF.z f then 0 else o.n, 0)
      let row := keptRow m.sparse t m.a m.mta r
      let col (k : Nat) : Nat := matElem (matBits t) m.b (c * kb + k)
      let sum0 : Int := match op with | some q => q.sums.getD (r * n + c) 0 | none => 0
      let (ev, od, sum) : (Nat × W32) × (Nat × W32) × Int :=
        if t.isAi then let x := aiElem env row col r c 16 ps { ev, od, sum := sum0 }; (x.ev, x.od, x.sum)
        else let x := nativeElem t env row col kb ev od; (x.1, x.2, 0)
      let (ev, od) : (Nat × W32) × (Nat × W32) :=
        if VF.e f then (chainAdd (accFmt t) env (ev.1, ev.2 ||| od.2) (unpack (accFmt t) od.1, 0), (0, 0)) else (ev, od)
      (if poi then none else some (l, ev, od), sum)
    let idx := (List.range 16).flatMap fun r => (List.range n).map fun c => (r, c)
    let cells := idx.map fun x => (x, cell x.1 x.2)
    let g := cells.foldl (fun g x =>
      let (l, ei, oi) := fragPlace w n x.1.1 x.1.2
      let put (g : Grp) (i : Nat) (v : Val) : Grp :=
        ((v.regs w).zip [0, 1]).foldl (fun g r =>
          let j := d + i + r.2
          if m.cancel.contains (j, l) then g else g.modLane l fun y => y.putRegs g.wb (.v (Fin.ofNat 64 j)) [r.1]) g
      match x.2.1 with
      | some (l, ev, od) => (put (put g ei ⟨ev.1, false⟩) oi ⟨od.1, false⟩).modLane l fun y => y.raise (ev.2 ||| od.2)
      | none => put (put g ei ⟨(m.old w l ei).n, true⟩) oi ⟨(m.old w l oi).n, true⟩) g
    let lastOpen := match ps.getLast? with | some p => !p.2.2.2.1 | none => false
    let done := match op with
      | some o => if parts.length == 1 then o.done + kb else parts.getLastD 0
      | none => parts.getLastD 0
    let newOpen : Option OpenI :=
      if t.isAi then
        (if lastOpen then
          ps.getLast?.map fun p => { ty := t, size := VF.group f, done, odd := p.2.2.1, scale := p.2.2.2.2, sums := cells.map fun x => x.2.2 }
         else none)
      else op
    .next (((s.setG { g with mmaPend := none, openI := newOpen, mmaK := begun + kb }).debitAt (s.foc.core / 96) (macEnergy t n)).bump)

/-! ## Stream instructions -/

/-- SPUSH (R346): a push of captured registers into one port of each consumer. -/
def execSpush (p : Pred) (f : VF) (s : State) : Out :=
  let n := f.m / 4 + 1
  s.perform false p (fun _ => true) fun s act =>
    let g := s.g
    let b := s.rd 0 .n32 f.b
    let src := (List.range n).flatMap fun j => g.laneIdx.map fun l => g.vReg l (f.a.vIdx + j)
    if !s.gr.streams || s.gr.lrec.p ≤ g.idx || !g.converged act then .done s (failAll g act .opndLate)
    else if g.win < f.a.vIdx + n then .done s (failAll g act .opndLate)
    else if src.any (·.poi) then .done s (failAll g act (.poison f.a))
    else if b.poi then .done s (failAll g act (.poison f.b))
    else
      match s.consumers (b.n % 256) with
      | none => .done s (failAll g act .opndLate)
      | some ts =>
        let (s, id) := s.freshId
        let push : Push := { id, grp := s.foc.grp, port := f.m % 4, bytes := src.flatMap (fun r => leBytes 4 r.val.toNat), beats := n * g.gw / 8,
                             taken := ts.map fun t => (t, 0), mask := act, pc := g.iss.pc, retired := g.retired }
        .done (s.modT fun t => { t with pushes := t.pushes ++ [push] }) []

/-- MQSTAT (R347): a snapshot of a port, into z alone in a DET grid (R153). -/
def execMqstat (p : Pred) (f : VF) (s : State) : Out :=
  s.perform false p (s.opsOk [(f.d, 1)]) fun s act =>
    if f.d.isZ != s.gr.det || !s.gr.streams then .done s (failAll s.g act .opndLate)
    else
      let q := bankGet s.t.ports ({} : Port) f.m
      let v := q.bytes.length + if q.broken then 2 ^ 31 else 0
      let s := s.logIn .mqstat f.m (leBytes 4 v)
      match f.d with
      | .z i => .done (s.setG (s.g.setZreg i.val (BitVec.ofNat 64 v))) []
      | .s i => .done (s.setG (s.g.putS i.val ⟨v, false⟩)) []
      | d => .done (s.setG (s.g.modLanes (s.g.lanesOf act) fun _ x => x.putRegs s.g.wb d [⟨BitVec.ofNat 32 v, false⟩])) []

/-- MDROP (R348): whole beats discarded, oldest first; an empty port is broken no more. -/
def execMdrop (p : Pred) (f : VF) (s : State) : Out :=
  s.perform false p (fun _ => true) fun s act =>
    let b := s.rd 0 .b64 f.b
    if !s.gr.streams then .done s (failAll s.g act .opndLate)
    else if b.poi then .done s (failAll s.g act (.poison f.b))
    else
      let q := bankGet s.t.ports ({} : Port) f.m
      let bytes := if b.n = 0 then [] else q.bytes.drop (32 * b.n)
      .done (s.modT fun t => { t with ports := bankPut {} t.ports f.m { q with bytes, broken := q.broken && !bytes.isEmpty } }) []

end Sys2Proof.Machine
end

