-- ==== Sys2Proof/Machine/Tile.lean ====
section
/-! DEFINITION. Tiles (0x12.00 to 0x12.03, R314 to R316, R87 to R93): one event over the rows of a shape, under line locks for a
global tile. -/

namespace Sys2Proof.Machine

/-! ## Geometry -/

/-- A tile's shape word (R87) with the offset of row 0 (R314). -/
structure TileShape where
  nr : Nat := 1
  rb : Nat := 16
  stride : Int := 0
  bad : Bool := false
  off : Int := 0
deriving DecidableEq, Repr, Inhabited

def tileShape (b : Nat) (imm : Int) : TileShape :=
  let nr := b % 32 + 1
  let rb := 16 * (bitsAt b 5 3 + 1)
  { nr, rb, stride := sgn 20 (bitsAt b 12 20) * 16, bad := bitsAt b 8 4 ≠ 0 || 4096 < nr * rb, off := (bitsAt b 32 32 : Nat) + imm * 16 }
def TileShape.size (t : TileShape) : Nat := t.nr * t.rb
/-- The start of row i from an offset of 0. -/
def TileShape.row (t : TileShape) (i : Nat) : Int := t.off + i * t.stride
/-- The registers of the image (R315). -/
def TileShape.regs (t : TileShape) (gw : Nat) : Nat := (t.size + 4 * gw - 1) / (4 * gw)
/-- A row start is a multiple of 16 and its row lies in one 128-byte line (R88). -/
def rowAligned (a rb : Nat) : Bool := a % 16 == 0 && a % 128 + rb ≤ 128

/-! ## The register image (R315) -/

/-- Word w of an image at v register d. -/
def Grp.imageReg (g : Grp) (d w : Nat) : Reg := g.vReg (w % g.gw) (d + w / g.gw)
def Grp.imageBytes (g : Grp) (d size : Nat) : List Byte := (List.range (size / 4)).flatMap fun w => leBytes 4 (g.imageReg d w).val.toNat
/-- Words of an image that lie in lane l. -/
def laneWords (gw size l : Nat) : Nat := (size / 4 + gw - 1 - l) / gw
/-- An image written from its words. -/
def Grp.putImage (g : Grp) (d : Opnd) (size : Nat) (word : Nat → Nat → Reg) : Grp :=
  g.modLanes g.laneIdx fun l x => x.putRegs g.wb d (tab (laneWords g.gw size l) fun j => word l j)
/-- The lanes that hold a word of an image. -/
def imageLanes (gw size : Nat) : Mask := maskOf ((List.range gw).filter fun l => 0 < laneWords gw size l)

/-! ## Checks -/

/-- What the checks of R316 leave: failing lanes, faults, a guarded tile, scratchpad rows, or global rows with their lines. -/
inductive TileLook
  | fail (f : Fail) (issueSet : Bool)
  | flts (fs : List LaneFlt)
  | guard (off : Nat)
  | scr (offs : List Nat)
  | mem (rows : List (W64 × Nat × Nat))
deriving DecidableEq, Repr

/-- Rows of a global tile translated in order: each with its VA, address and leaf entry, and the faults. -/
def State.mapRows (s : State) (acc : Acc) (a : Nat) (t : TileShape) : State × List (W64 × Trans) × List LaneFlt :=
  (List.range t.nr).foldl (fun x i =>
    match x.1.resolve a acc (t.row i) t.rb with
    | (s, va, .ok r) => (s, x.2.1 ++ [(va, r)], x.2.2)
    | (s, va, .error f) => (s, x.2.1, x.2.2 ++ [{ va, page := s.pageOf va, flt := f }])) (s, [], [])
/-- The rows with their addresses and policies, and the faults: where no row fails its translation, those of the pages of a tile store
that lack A (R13, R316 step 3). -/
def State.tileRows (s : State) (acc : Acc) (a : Nat) (t : TileShape) : State × List (W64 × Nat × Nat) × List LaneFlt :=
  let r := s.mapRows acc a t
  let lack := if acc == .tileStore && r.2.2.isEmpty then r.2.1.filter fun x => !x.2.pte.getLsbD 5 else []
  (r.1, r.2.1.map fun x => (x.1, x.2.pa, pteCp x.2.pte), r.2.2 ++ lack.map fun x => { va := x.1, page := r.1.pageOf x.1, flt := ⟨kPerm, 0⟩ })

/-- The checks of a tile (R88, R315, R316). -/
def State.tileLook (s : State) (f : MF) (acc : Acc) (act : Mask) : State × TileLook :=
  let g := s.g
  let b := g.sVal f.b.sIdx
  let base := match f.a with | .s i => g.sVal i.val | _ => {}
  let t := tileShape b.n f.imm.toInt
  let d := f.d.vIdx
  let store := acc == .tileStore
  let inWin := (List.range (t.size / 4)).filter fun w => d + w / g.gw < g.win
  if !g.converged act then (s, .fail .opndLate true)
  else if b.poi then (s, .fail (.poison f.b) false)
  else if base.poi then (s, .fail (.poison f.a) false)
  else if store && inWin.any (fun w => (g.imageReg d w).poi) then (s, .fail (.poison f.d) false)
  else if t.bad || g.win < d + t.regs g.gw then (s, .fail .opndLate false)
  else
    match f.a with
    | .a i =>
      let va (k : Nat) : Nat := ((g.areg i.val).baseva + BitVec.ofInt 64 (t.row k)).toNat
      if (List.range t.nr).any fun k => !rowAligned (va k) t.rb then (s, .fail { cause := cAlign } false)
      else
        match s.tileRows acc i.val t with
        | (s, rows, []) => (s, .mem rows)
        | (s, _, fs) => (s, .flts (fs.map fun x => { x with mask := act }))
    | _ =>
      let off (k : Nat) : Nat := wrap 32 ((base.n : Int) + t.row k)
      let rows := (List.range t.nr).map off
      let size := s.scrSize s.foc.team
      if rows.any fun r => !rowAligned r t.rb then (s, .fail { cause := cAlign } false)
      else
        match rows.find? fun r => scrClass size r t.rb == 2 with
        | some r => (s, .flts [{ mask := act, flt := ⟨kScratch, scrAux r⟩ }])
        | none =>
          match rows.find? fun r => scrClass size r t.rb == 1 with
          | some r => (s, .guard r)
          | none =>
            match (if store then rows.find? fun r => s.scrGuarded s.foc.team r t.rb else none) with
            | some r => (s, .flts [{ mask := act, flt := ⟨kScratch, scrAux r⟩ }])
            | none => (s, .scr rows)

/-! ## Locks (R90) -/

/-- The covered lines, ascending. -/
def rowLines (rows : List (Nat × Nat)) : List Nat := rows.foldl (fun l r => NSet.insert l (r.1 / 128)) []
/-- A lock of a line asked for at order `since` has still to wait (R90): another tile holds one that excludes it, or asked before it,
unless both are shared. -/
def State.lockBusy (s : State) (grp line : Nat) (excl : Bool) (since : Nat) : Bool :=
  (s.groups.any fun e =>
    e.1 != grp &&
    match e.2.stall with
    | .tile left got x _ o => got.contains line && (x || excl) || left.head? == some line && decide (o < since) && (x || excl)
    | _ => false)
  || (s.pkg.peerLocks.any fun p => p.1 == line && (p.2.1 || excl))
  || s.pkg.waiting.any fun w =>
    match w with
    | .peer a o => (match a.kind with | .lock x => a.pa / 128 == line && decide (o < since) && (x || excl) | _ => false)
    | _ => false

/-! ## Effects -/

/-- A load that fails: its records, and its whole image poisoned (R37, R420). -/
def State.tilePoison (s : State) (f : MF) (act : Mask) (size : Nat) (fs : List LaneFlt) : Did :=
  match s.noteFlts .tileLoad 4 fs with
  | none => .stall s .fault
  | some (s, seq, n) =>
    let lanes := imageLanes s.g.gw size
    if s.ptFree.isNone then
      let T := if lanes &&& act == 0 then act else lanes &&& act
      .done (s.sampledIf f.a .tileLoad) (failAll s.g T { cause := cTableFull, info := (seq.getD 0).toNat + 2 ^ 32 * (n % 65536) } ++ failAll s.g (act &&& ~~~T) { cause := 0 })
    else
      let s' := (s.setG (s.g.putImage f.d size fun l j => s.poisonReg l j)).logIn .tile 0 (leBytes 8 lanes.toNat) [true]
      .done ((s'.ptMake f.d ((size + 4 * s.g.gw - 1) / (4 * s.g.gw)) lanes seq).sampledIf f.a .tileLoad) []

/-- A store that fails traps every active lane (R39). -/
def State.tileTrap (s : State) (f : MF) (acc : Acc) (act : Mask) (fs : List LaneFlt) : Did :=
  match s.noteFlts acc 4 fs with
  | none => .stall s .fault
  | some (s, seq, n) => .done (s.sampledIf f.a acc) (failAll s.g act (.trans seq n))

/-- The image of a load delivered from its bytes. -/
def Grp.putTile (g : Grp) (d : Opnd) (bs : List Byte) : Grp :=
  g.putImage d bs.length fun l j => ⟨BitVec.ofNat 32 (ofLe ((bs.drop (4 * (j * g.gw + l))).take 4)), false⟩

/-- The rows of a global tile read at one point, with every lock held (R90 step 4): local rows at their homes, whose U partials were
gathered before each grant, and remote rows as their homes sent them with the locks; the poisoned and lost rows as faults. The core's
Valid lines keep what they hold of the rows, or are dropped where they hold something else (R61, R83). -/
def State.tileRead (s : State) (act : Mask) (rb : Nat) (rows : List (W64 × Nat × Nat)) : State × List Byte × List LaneFlt :=
  rows.foldl (fun x r =>
    let s := x.1
    let bad (f : Flt) : LaneFlt := { mask := act, va := r.1, page := s.pageOf r.1, flt := f }
    let ecc (poi : List Bool) : List LaneFlt := (firstBad r.2.1 poi).toList.map fun w => bad ⟨kEcc, BitVec.ofNat 64 w⟩
    if s.isLocal r.2.1 then
      let y := s.lockedRead r.2.1 rb r.2.2
      (y.1.seen s.foc.core r.2.1 y.2.data, x.2.1 ++ y.2.data, x.2.2 ++ ecc y.2.poi)
    else
      let off := r.2.1 % 128
      match (s.g.replyFor (r.2.1 / 128 * 128) 128).bind fun q => q.data.map fun d => (q, d) with
      | some (q, d) =>
        let bs := tab rb fun i => d.getD (off + i) 0
        (s.seen s.foc.core r.2.1 bs, x.2.1 ++ bs, x.2.2 ++ ecc ((q.bytePoi.drop off).take rb))
      | none => (s, x.2.1 ++ List.replicate rb 0, x.2.2 ++ [bad ⟨kUnrouted, BitVec.ofNat 64 r.2.1⟩])) (s, [], [])

/-- The bytes that rows at some addresses write, by ascending address; the highest row supplies a byte that several write (R88). -/
def rowBytes (rb : Nat) (bs : List Byte) (addr : Nat → Nat) (n : Nat) : KMap Byte :=
  (List.range n).foldl (fun m i => (List.range rb).foldl (fun m j => m.set (addr i + j) (bs.getD (i * rb + j) 0)) m) []
/-- The bytes of a tile store folded into the digest (R446). -/
def State.digestRows (s : State) (rb : Nat) (bs : List Byte) (addr : Nat → Nat) (n : Nat) : State :=
  if s.c.dbgLogOn then (rowBytes rb bs addr n).foldl (fun s e => s.wrote e.1 [e.2]) s else s
/-- The rows that a tile load reads, logged (R435). -/
def State.logRows (s : State) (rb : Nat) (bs : List Byte) (addr : Nat → Nat) (n : Nat) : State :=
  (List.range n).foldl (fun s i => s.logRead .tile (addr i) ((bs.drop (i * rb)).take rb)) s

/-- A row of a tile store performed at its home, where the U partials were gathered before the lock was granted and a later one waits for
its release (R90 step 3, R91); the issuing core's Valid lines are updated with it (R90 step 5), and the core's stores that still stand
in its buffer come after it. -/
def State.rowWrite (s : State) (act : Mask) (va : W64) (pa cp : Nat) (d : List Byte) (tag : Option (Nat × Nat)) : State :=
  let s := s.updateValid s.foc.core pa (s.co.forward pa d.length (fun i => d.getD i 0) fun _ => false).1
  if s.isLocal pa then s.lockedWrite pa cp d []
  else s.performStore (some s.foc.core) { pa, data := d, grp := s.foc.grp, flag := tag, ctx := s.foc.ctx,
                                          frec := s.grpRec kUnrouted .tileStore 4 act va (BitVec.ofNat 64 pa) }

/-- The rows of a global tile written with every lock held, the highest row last; a peer performs its rows before it takes the locks
back, which follow them on the line's port. -/
def State.tileWrite (s : State) (act : Mask) (va : Nat → W64) (rb : Nat) (rows : List (Nat × Nat)) (bs : List Byte) (tag : Option (Nat × Nat)) : State :=
  (rows.zip (List.range rows.length)).foldl (fun s r => s.rowWrite act (va r.2) r.1.1 r.1.2 ((bs.drop (r.2 * rb)).take rb) tag)
    (s.digestRows rb bs (fun i => (va i).toNat) rows.length)

/-- A tile asks for its first lock (R90), the core's earlier stores to its lines performed. -/
def State.tileLock (s : State) (excl : Bool) (rows : List (W64 × Nat × Nat)) : Did :=
  let rs := rows.map (·.2)
  let (s, o) := ((rowLines rs).foldl (fun s l => s.drainLine s.foc.core (128 * l)) s).freshOrder
  .stall s (.tile (rowLines rs) [] excl rs o)

/-- TLD and TLDS. -/
def State.tileLoad (s : State) (p : Pred) (f : MF) : Out :=
  s.performWide p (s.opsOk [(f.a, 1)]) fun s act =>
    let t := tileShape (s.g.sVal f.b.sIdx).n f.imm.toInt
    let deliver (s : State) (bs : List Byte) : Did := .done ((s.setG (s.g.putTile f.d bs)).afterRead f.ord f.scope) []
    match s.g.stall with
    | .tile [] got _ rows _ =>
      let vs := (List.range t.nr).map fun k => (s.g.areg f.a.aIdx).baseva + BitVec.ofInt 64 (t.row k)
      match s.tileRead act t.rb (vs.zip rows) with
      | (s, bs, []) => deliver (((s.unlockLines got).logRows t.rb bs (fun k => (vs.getD k 0).toNat) t.nr).sampled .tileLoad) bs
      | (s, _, fs) => (s.unlockLines got).tilePoison f act t.size fs
    | _ =>
      let s := s.beforeRead f.ord f.scope
      s.orWait (isSc f.ord) f.scope <|
      match s.tileLook f .tileLoad act with
      | (s, .fail x all) => .done s (failAll s.g (if all then s.g.iss.set else act) x)
      | (s, .flts fs) => s.tilePoison f act t.size fs
      | (s, .guard off) => deliver (s.guardTouch .tileLoad 4 [(act, off)]) (List.replicate t.size 0)
      | (s, .scr offs) =>
        match offs.find? fun o => (s.scrRead s.foc.team o t.rb).bad with
        | some o => s.tilePoison f act t.size [{ mask := act, flt := ⟨kEcc, scrPoiAux (s.scrBadWord s.foc.team o t.rb)⟩ }]
        | none =>
          let bs := offs.flatMap fun o => (s.scrRead s.foc.team o t.rb).data
          deliver (s.logRows t.rb bs (fun i => digScr (offs.getD i 0)) t.nr) bs
      | (s, .mem rows) => s.tileLock false rows

/-- TST and TSTS. -/
def State.tileStore (s : State) (p : Pred) (f : MF) : Out :=
  s.performWide p (s.opsOk [(f.a, 1)]) fun s act =>
    let t := tileShape (s.g.sVal f.b.sIdx).n f.imm.toInt
    let image := s.g.imageBytes f.d.vIdx t.size
    let write (s : State) (go : State → Option (Nat × Nat) → State) : Did :=
      let (s, tag) := s.flagStart (s.sfNow f.sf)
      .done (((go s tag).flagEnd tag).afterWrite f.ord f.scope) []
    match s.g.stall with
    | .tile [] got _ rows _ =>
      write s fun s tag => (s.tileWrite act (fun k => (s.g.areg f.a.aIdx).baseva + BitVec.ofInt 64 (t.row k)) t.rb rows image tag).unlockLines got |>.sampled .tileStore
    | _ =>
      match s.tileLook f .tileStore act with
      | (s, .fail x all) => .done s (failAll s.g (if all then s.g.iss.set else act) x)
      | (s, .flts fs) => s.tileTrap f .tileStore act fs
      | (s, l) =>
        if s.flagFull (s.sfNow f.sf) then s.fullWait (s.sfNow f.sf)
        else
          let s := s.beforeWrite f.ord f.scope
          s.orWait (isRel f.ord) f.scope <|
          match l with
          | .guard off => write (s.guardTouch .tileStore 4 [(act, off)]) fun s _ => s
          | .scr offs => write s fun s _ =>
              (offs.zip (List.range t.nr)).foldl (fun s o => s.scrWrite s.foc.team o.1 ((image.drop (o.2 * t.rb)).take t.rb))
                (s.digestRows t.rb image (fun i => digScr (offs.getD i 0)) t.nr)
          | .mem rows => s.tileLock true rows
          | _ => .done s []

def execTld (p : Pred) (f : MF) (s : State) : Out := s.tileLoad p f
def execTst (p : Pred) (f : MF) (s : State) : Out := s.tileStore p f
def execTlds (p : Pred) (f : MF) (s : State) : Out := s.tileLoad p f
def execTsts (p : Pred) (f : MF) (s : State) : Out := s.tileStore p f

/-- The lock that the tile in focus waits for is its own: it asks for the next, or with the last performs; a performance that must
wait leaves the lock as it was, in `s0`. -/
def State.lockGot (s s0 : State) : Out :=
  match s.g.stall with
  | .tile (l :: left) got excl rows _ =>
    let (s, o) := s.freshOrder
    let s := s.modG fun g => { g with stall := .tile left (got ++ [l]) excl rows o }
    if !left.isEmpty then .next s
    else
      let r : Out :=
        match decodeWord s.g.iss.word with
        | .ok (.tld p f) => s.tileLoad p f
        | .ok (.tst p f) => s.tileStore p f
        | _ => .next s
      match r with
      | .next s' => .next (match s'.g.stall with | .tile [] _ _ _ _ => s0 | _ => s')
      | x => x
  | _ => .next s0

/-- TILE_LOCK_GRANT (R90): the next line's lock, asked of its home in its turn, its U partials gathered first; with the last lock
the tile performs. A remote line's lock comes with the reply to its request. -/
def execTileLockGrant (grp : Nat) (s0 : State) : Out :=
  let s := s0.focusGrp grp
  match s.g.stall with
  | .tile (l :: _) _ excl _ since =>
    if s.isLocal (128 * l) then
      let s' := s.gather l
      if s.lockBusy grp l excl since || s'.met ≠ s.met then .next s0 else s'.lockGot s0
    else if s.pkg.peerOut.any fun q => q.kind == .lock excl && q.grp == grp && q.pa == 128 * l then .next s0
    else .next (s.send { kind := .lock excl, pa := 128 * l, n := 128, grp, ctx := s.foc.ctx }).1
  | _ => .next s0

end Sys2Proof.Machine
end

