-- ==== Sys2Proof/Machine/Debug.lean ====
section
/-! DEFINITION. Checkpoints and replay (R434 to R438, R446), stops (R438, R439), and the debugger's access to the stopped group
(R440, R441). -/

namespace Sys2Proof.Machine

/-! ## Checkpoints -/

/-- SNAPSHOT (R434, R446): the group's state is logged with its poison table and its digest; at the start of an interval the next digest
starts, and nothing of the interval is logged yet (R435). -/
def execSnapshot (grp : Nat) (s : State) : Out :=
  if !s.snapDue grp then .next s
  else
    let s := s.focusGrp grp
    let fresh := s.g.newInterval s.c.dbgIntv
    let s := s.modC fun c => { c with snaps := c.snaps ++ [s.snapOf s.ptab true] }
    let s := s.modG fun g => if fresh then { g with snapped := some g.retired, crossed := false, digest := 0, logSeen := [], image := [] } else { g with snapped := some g.retired }
    .next (s.logWrite (snapBytes s.g))

/-! ## Stops -/

/-- The logged state of a name at a retired count, the last one logged. -/
def Ctx.logged (c : Ctx) (n : StopName) (ret : W64) : Option Snap :=
  c.snaps.reverse.find? fun x => x.gid == n.gid && x.team == n.team && x.grp.idx == n.idx && x.grp.part == n.part && x.retired == ret
/-- The snapshot of the interval that a count lies in. -/
def Ctx.snapFor (c : Ctx) (n : StopName) : Option Snap :=
  c.snaps.find? fun x => x.full && x.gid == n.gid && x.team == n.team && x.grp.idx == n.idx && x.grp.part == n.part
    && x.retired.toNat / 2 ^ c.dbgIntv == n.ret.toNat / 2 ^ c.dbgIntv && x.retired.toNat ≤ n.ret.toNat
/-- A logged group with every delivery that was still to come (R441): those of a pending MMA. -/
def State.delivered (s : State) (x : Snap) : Snap :=
  match execMmaComplete x.key (s.setGrpAt x.key x.grp) with
  | .next t => { x with grp := t.grpAt x.key }
  | _ => x
/-- A replay from the snapshot of an interval to its stop, which waits for every delivery, or STATE 5 where something it needs is gone
(R437, R438, R441). It comes to the state that the group had at that count, which is kept with the log: every value it reads is served from
there (log entry 12). -/
def State.startReplay (s : State) (c : Ctx) (n : StopName) : Ctx :=
  match c.snapFor n, c.logged n n.ret with
  | some _, some x => { c with replay := some (s.delivered x), replayWritten := false, dbgBk := false, dbgDigok := false }
  | _, _ => { c with dbgState := 5 }

/-- A stop armed (R438). A target that no group answers to yet is armed while its grid can still place it. One stop at a time: while a group
or replay is stopped, ARM changes nothing (log entry 12). -/
def State.arm (s : State) (ctx : Nat) (launchIdx : Byte) (part : BitVec 2) : State :=
  let c := s.ctxAt ctx
  let n : StopName := { gid := c.stopGid, team := c.stopTeam, idx := launchIdx.toNat, part := part.toNat, ret := c.stopRet }
  if s.pkg.lacks 7 || s.dbgState ctx == 2 || s.dbgState ctx == 3 then s
  else
    let c := { c with armed := none, dbgState := 0, stopGrp := none }
    let mine := s.groups.keys.filter fun k => s.hasName n k && (s.gridAt (s.teamAt (s.grpAt k).team).grid).ctx == ctx
    let c :=
      match mine.find? fun k => (s.grpAt k).phase == .running with
      | some k => if (s.grpAt k).retired.toNat < n.ret.toNat then { c with armed := some n } else s.startReplay c n
      | none =>
        match mine.find? fun k => (s.grpAt k).phase == .retired && !(s.grpAt k).fused with
        | some k => if (s.grpAt k).retired.toNat < n.ret.toNat then { c with dbgState := 4 } else s.startReplay c n
        | none =>
          if s.grids.any fun e => e.2.ctx == ctx && e.2.lrec.gid == n.gid && (e.2.phase == .pending || e.2.phase == .running)
          then { c with armed := some n } else { c with dbgState := 4 }
    s.setCtxAt ctx c
/-- ARM (R438). -/
def execArm (ctx : Nat) (launchIdx : Byte) (part : BitVec 2) (s : State) : Out := s.regEvent (s.arm ctx launchIdx part)

/-- STOP_REACHED (R438): the armed group stops before it issues again. -/
def execStopReached (grp : Nat) (s : State) : Out :=
  if !s.stopDue grp then .next s
  else
    let ctx := (s.gridAt (s.teamAt (s.grpAt grp).team).grid).ctx
    .next ((s.setCtxAt ctx { s.ctxAt ctx with armed := none }).stopGroup grp none)

/-- An armed stop cancelled (R438). -/
def State.disarm (s : State) (ctx : Nat) : State :=
  if s.pkg.lacks 7 then s else s.setCtxAt ctx { s.ctxAt ctx with armed := none, dbgState := 0 }
/-- DISARM (R438). -/
def execDisarm (ctx : Nat) (s : State) : Out := s.regEvent (s.disarm ctx)

/-- Two logged states are of one group. -/
def Snap.sameName (x y : Snap) : Bool := y.gid == x.gid && y.team == x.team && y.grp.idx == x.grp.idx && y.grp.part == x.grp.part
/-- The snapshot at the start of the next interval of a replayed group, whose digest is that of the replayed interval (R446). -/
def Ctx.endSnap (c : Ctx) (x : Snap) : Option Snap :=
  c.snaps.find? fun y => y.full && x.sameName y && y.retired.toNat / 2 ^ c.dbgIntv == x.retired.toNat / 2 ^ c.dbgIntv + 1
/-- The entries that the log of a group holds from a retired count on. -/
def Ctx.entriesFrom (c : Ctx) (x : Snap) : List LogEnt :=
  c.log.filter fun e => e.gid == x.gid && e.team == x.team && e.idx == x.grp.idx && e.part == x.grp.part && x.retired.toNat ≤ e.retired.toNat
/-- RESUME of a replay: it runs on to the end of its logged span (R437, R438, R446). One that no debugger wrote into comes there as the
group did, with DIGOK when the span completes an interval; any other runs again, instruction by instruction. -/
def State.endReplay (s : State) (ctx : Nat) (x : Snap) : State :=
  let c := s.ctxAt ctx
  let c' := { c with replay := none, replayWritten := false, dbgState := 0 }
  s.setCtxAt ctx <|
    if c.replayWritten then { c' with rerun := some { at' := x, left := c.entriesFrom x, stop := c.endSnap x }, dbgDigok := false }
    else { c' with dbgDigok := (c.endSnap x).isSome }

/-- The stopped group or replay goes on, and the next held condition is reported (R438, R439). -/
def State.debugResume (s : State) (ctx : Nat) : State :=
  let c := s.ctxAt ctx
  let s :=
    if s.pkg.lacks 7 then s else
    match c.stopGrp with
    | some k =>
      let g := s.grpAt k
      (s.setGrpAt k { g with stopped := false, stepOver := if c.dbgBk then some (g.iss.pc, g.retired) else none }).setCtxAt ctx { c with stopGrp := none, dbgState := 0 }
    | none => match c.replay with | some x => s.endReplay ctx x | none => s
  let c := s.ctxAt ctx
  if c.hasStop then s
  else
    match c.heldStops.filter fun x => (s.grpAt x.1).phase == .running with
    | [] => s.setCtxAt ctx { c with heldStops := [] }
    | x :: xs => (s.setCtxAt ctx { c with heldStops := xs }).report ctx x.1 x.2
/-- DEBUG_RESUME (R438, R439). -/
def execDebugResume (ctx : Nat) (s : State) : Out := s.regEvent (s.debugResume ctx)

/-! ## Access to the stopped group -/

/-- A register or PC of a lane as the debugger reads it, with its poison bit (R440). For an m register the lane only selects the bit, and
bits at or above GW are clear (R54). -/
def Grp.dbgGet (g : Grp) (spec : Byte) (l : Nat) : Option (W64 × Bool) :=
  match Opnd.ofByte spec with
  | some (.m i) => some (if (g.mBits i.val).getLsbD l && decide (l < g.gw) then 1 else 0, (g.mPoi i.val).getLsbD l && decide (l < g.gw))
  | o =>
    if g.gw ≤ l then none
    else
    match o with
    | some (.v i) => if i.val < g.win then let r := g.vReg l i.val; some (r.val.setWidth 64, r.poi) else none
    | some (.k i) => let r := g.kReg l i.val; some (r.val.setWidth 64, r.poi)
    | some (.y i) => let r := g.yReg l i.val; some (r.val.setWidth 64, r.poi)
    | some (.s i) => let r := g.sreg i.val; some (r.val, r.poi)
    | some (.spec .pc) => some ((g.lane l).pc, false)
    | _ => none

/-- A register or PC of a lane as the debugger writes it (R440, R230); m0 keeps its ones. -/
def Grp.dbgSet (g : Grp) (spec : Byte) (l : Nat) (x : W64) : Grp :=
  let w : W32 := x.setWidth 32
  match Opnd.ofByte spec with
  | some (.v i) => g.modLane l fun y => y.putRegs g.wb (.v i) [⟨w, false⟩]
  | some (.k i) => g.modLane l fun y => y.putRegs g.wb (.k i) [⟨w, false⟩]
  | some (.y i) => g.modLane l fun y => if i.val = 0 then { y with y0 := ⟨w, false, true⟩ } else { y with y1 := ⟨w, false, true⟩ }
  | some (.s i) => g.setSreg i.val ⟨x, false⟩
  | some (.m i) => if g.gw ≤ l then g else g.putM i.val (bitMask l) (if x.getLsbD 0 then bitMask l else 0) 0
  | some (.spec .pc) => g.modLane l fun y => { y with pc := x, reach := .patched }
  | _ => g

/-- A register of a lane has a result of an MMA still to come (R441). -/
def Grp.dbgPending (g : Grp) (spec : Byte) (l : Nat) : Bool :=
  match g.mmaPend, Opnd.ofByte spec with
  | some m, some (.v i) => m.f.d.vIdx ≤ i.val && i.val < m.f.d.vIdx + fragRegs m.f.ty && !m.cancel.contains (i.val, l)
  | _, _ => false

/-- The registers into which the instruction that the group in focus issued last delivers its result some time after its issue (R441): those
of a load, the transform pipe, TPOP, TEX or TRACE, with those like them. -/
def State.lateDest (s : State) : Option (Opnd × Nat) :=
  match decodeWord s.g.iss.word with
  | .error _ => none
  | .ok i =>
    match i with
    | .ld _ f => some (f.d, f.width.regs)
    | .lds _ f => some (f.d, f.width.regs)
    | .ldk _ f => some (f.d, f.width.regs)
    | .tld _ f => some (f.d, (tileShape (s.g.sVal f.b.sIdx).n f.imm.toInt).regs s.g.gw)
    | .tlds _ f => some (f.d, (tileShape (s.g.sVal f.b.sIdx).n f.imm.toInt).regs s.g.gw)
    | .xdec _ f => some (f.d, (s.rd 0 .n32 f.c).n)
    | .xsparse _ f => some (f.d, if f.ty == .f32 then 2 else 1)
    | .xmatch _ f => some (f.d, 2)
    | .xsort _ f => some (f.d, 1)
    | .xperm _ f => some (f.d, f.m % 8 + 1)
    | .xtrn _ f => some (f.d, 8)
    | .tpop _ f => some (f.d, f.m % 8 + 1)
    | .tex _ f => some (f.d, 4)
    | .texl _ f => some (f.d, 4)
    | .texadj _ f => some (f.d, 2 + f.m % 2)
    | .trace _ f => some (f.d, 1)
    | .tresume _ f => some (f.d, 1)
    | _ => none
/-- An operand lies among n registers from another on. -/
def oneOf (d : Opnd) (n : Nat) : Opnd → Bool
  | .v j => (match d with | .v i => i.val ≤ j.val && j.val < i.val + n | _ => false)
  | .k j => (match d with | .k i => i.val ≤ j.val && j.val < i.val + n | _ => false)
  | .s j => (match d with | .s i => i.val ≤ j.val && j.val < i.val + n | _ => false)
  | _ => false
/-- A result of the last instruction of a live-stopped group has still to reach a register of a lane (R441). The model writes results at the
issue, so whether one would still be on its way is a free value (log entry 122); what a debugger forces in its place stands either way. -/
def State.dbgLate (s : State) (ctx : Nat) (spec : Byte) (l : Nat) : Bool :=
  match (s.ctxAt ctx).stopGrp, Opnd.ofByte spec with
  | some k, some o =>
    let s := s.focusGrp k
    (s.lateDest.any fun d => oneOf d.1 d.2 o) && (o.isS || s.g.iss.set.getLsbD l) && Config.freeBool (s.freeKey (Nat.pair 7 l))
  | _, _ => false

/-- The group that the debugger reaches: live, or the replay's (R440). -/
def State.dbgGroup (s : State) (ctx : Nat) : Option Grp :=
  let c := s.ctxAt ctx
  match s.dbgState ctx with
  | 2 => c.stopGrp.map s.grpAt
  | 3 => c.replay.map (·.grp)
  | _ => none
def State.setDbgGroup (s : State) (ctx : Nat) (g : Grp) : State :=
  let c := s.ctxAt ctx
  match c.stopGrp with
  | some k => s.setGrpAt k g
  | none => s.setCtxAt ctx { c with replay := c.replay.map fun x => { x with grp := g }, replayWritten := true }
def State.dbgStatus (s : State) (ctx st : Nat) : State := s.setCtxAt ctx { s.ctxAt ctx with dbgAccStatus := st }

/-- A read of the debugger from the stopped group (R440): a result still to come is waited for. -/
def State.dbgRead (s : State) (ctx : Nat) (spec : Byte) (lane : Nat) : State :=
  let s := match s.dbgGroup ctx, (s.ctxAt ctx).stopGrp with
    | some g, some k => if g.dbgPending spec lane then (match execMmaComplete k s with | .next s => s | _ => s) else s
    | _, _ => s
  match (s.dbgGroup ctx).bind fun g => g.dbgGet spec (if (Opnd.ofByte spec).any Opnd.isS then 0 else lane) with
  | some (x, poi) => (s.setCtxAt ctx { s.ctxAt ctx with dbgData := x, dbgAccPoison := poi, dbgAccStatus := 0 })
  | none => (s.dbgStatus ctx 2)
/-- DEBUG_READ (R440). -/
def execDebugRead (ctx : Nat) (spec : Byte) (lane : BitVec 6) (s : State) : Out :=
  s.regEvent (if s.pkg.lacks 7 then s else s.dbgRead ctx spec lane.toNat)

/-- A write of the debugger into the stopped group, with FORCE or without (R440, R441). -/
def State.dbgWrite (s : State) (ctx : Nat) (spec : Byte) (l : Nat) (force : Bool) : State :=
  match s.dbgGroup ctx with
  | none => s.dbgStatus ctx 2
  | some g =>
    if (g.dbgGet spec (if (Opnd.ofByte spec).any Opnd.isS then 0 else l)).isNone then s.dbgStatus ctx 2
    else if g.dbgPending spec l && !force && (s.ctxAt ctx).stopGrp.isSome then s.dbgStatus ctx 1
    else if s.dbgLate ctx spec l && !force then (s.dbgStatus ctx 1).bump
    else
      let reg : Nat := match Opnd.ofByte spec with | some (.v i) => i.val | _ => 0
      let g := if g.dbgPending spec l then { g with mmaPend := g.mmaPend.map fun m => { m with cancel := (reg, l) :: m.cancel } } else g
      (s.setDbgGroup ctx (g.dbgSet spec l (s.ctxAt ctx).dbgData)).dbgStatus ctx 0

/-- DEBUG_WRITE (R440, R441). -/
def execDebugWrite (ctx : Nat) (spec : Byte) (lane : BitVec 6) (s : State) : Out := s.regEvent (if s.pkg.lacks 7 then s else s.dbgWrite ctx spec lane.toNat false)
/-- DEBUG_FORCE_WRITE (R441). -/
def execDebugForceWrite (ctx : Nat) (spec : Byte) (lane : BitVec 6) (s : State) : Out := s.regEvent (if s.pkg.lacks 7 then s else s.dbgWrite ctx spec lane.toNat true)

end Sys2Proof.Machine
end

