-- ==== Sys2Proof/Machine/Sched.lean ====
section
/-! DEFINITION. How a group comes to an instruction: the issue PC and the issue set (R187 to R189), the header and the block of
its lanes (R226 to R230), the fetch and the checks of R240 up to step 6, and the choice of a group (R405). -/

namespace Sys2Proof.Machine

/-! ## The issue PC and set -/

/-- What a lane expects of the word at its PC: to be inside a block, with the block's base and header, or to be a header of a
KIND, any KIND where a handler or debugger set the PC. -/
inductive Expect
  | inside (bb hdr : W64)
  | header (k : Option HKind)
deriving DecidableEq, Repr

/-- The words of a block after its header. -/
def blockLen (hdr : W64) : Nat := codeAt hdr 52 6 + 1
/-- A PC is a word of the block at bb (R230). -/
def inBlock (pc bb hdr : W64) : Bool := bb.toNat < pc.toNat && pc.toNat ≤ bb.toNat + 8 * blockLen hdr && (pc.toNat - bb.toNat) % 8 == 0

/-- What the place of a PC makes of a reach: `.inside` past its block's end is fall-through to a header (R226). -/
def expectOf (pc bb hdr : W64) : Reach → Option Expect
  | .inside => some (if inBlock pc bb hdr then .inside bb hdr else .header (some .ord))
  | .header k => some (.header (some k))
  | .patched => none

/-- The lowest PC of some lanes. -/
def lowestPc (g : Grp) (ls : List Nat) : Option W64 :=
  ls.foldl (fun r l => match r with | none => some (g.lane l).pc | some p => some (if (g.lane l).pc.toNat < p.toNat then (g.lane l).pc else p)) none

/-- The issue PC (R187, R189). -/
def Grp.issuePc (g : Grp) : Option W64 :=
  let run := g.inState .running
  let top := run.foldl (fun n l => max n (g.lane l).rot) 0
  lowestPc g (if 256 ≤ top then run.filter fun l => (g.lane l).rot == top else run)

/-! ## The checks before a meaning -/

/-- What becomes of a group at its turn: it is held, the step is spent on a trap, a stall or an end, or an instruction issues. -/
inductive Prep
  | held
  | spent (s : State)
  | go (s : State) (i : Instr)

/-- The issue in progress recorded, with the word still to be fetched. -/
def State.setIss (s : State) (i : Issue) : State := s.modG fun g => { g with iss := i }

/-- A trap of the issue set before any meaning (R240 steps 1 to 6); in a handler the grid ends (R414). -/
def State.preTrap (s : State) (f : Fail) : State :=
  if s.g.iss.handler then s.doubleTrap else s.finish false (failAll s.g s.g.iss.set f)

/-- A fetch that fails (R410): one record, then the Translation Fault trap of the issue set, or the end of the grid in a
handler; without a place for the record the lanes stall where they stand. -/
def State.fetchFault (s : State) (i : Issue) (va : W64) (f : Flt) : State :=
  let s0 := s.setIss { i with pc := va, word := 0 }
  if s0.recordRoom = 0 then (s.setIss { i with word := 0 }).stallAt .fault
  else
    let mask := if i.handler then s.handlerMask else i.set
    let r := s0.recordAt s0.foc.ctx s0.foc.core (s0.grpRec f.kind .fetch 7 mask va f.aux)
    if i.handler then r.1.doubleTrap
    else
      let s1 := r.1.setIss { i with pc := va, word := 0 }
      let tret := s1.g.retired
      let g := s1.g.countRot
      ((s1.setG { g with stall := .none, afterStall := false, replies := [], readyFor := 0 }).bump).trapEntry i.set (Fail.trans (some r.2) 1) va 0 tret

/-- MAJORs whose feature is disabled once FEATEN is locked (R451). -/
def featureOff (p : Pkg) (major : Nat) : Bool :=
  p.featLock &&
  match major with
  | 0x20 => !p.featEn.getLsbD 1
  | 0x21 => !p.featEn.getLsbD 1
  | 0x2C => !p.featEn.getLsbD 2
  | 0x17 => !p.featEn.getLsbD 3
  | 0x28 => !p.featEn.getLsbD 4
  | 0x18 => !p.featEn.getLsbD 6
  | _ => false

/-- SF of a word: of the V format, and under majors 0x10 to 0x18 of the M format; the control, immediate, address, group and system
majors use none (R232, R234, R236). -/
def sfOf (i : Instr) : Sf :=
  match i.parts with
  | some p =>
    let m := p.major.toNat
    if m == 0x00 || m == 0x02 || m == 0x03 || m == 0x05 || m == 0x06 then .none
    else if (0x10 ≤ m && m ≤ 0x18) then (Sf.ofCode (codeAt (p.body.setWidth 64) 16 2)).getD .none
    else (Sf.ofCode (codeAt (p.body.setWidth 64) 6 2)).getD .none
  | none => .none

/-- The register groups of the tape and rendering words (R358). -/
def regGroups : Instr → List (Opnd × Nat)
  | .trec _ f => [(f.a, f.m % 8 + 1)]
  | .tmark _ f => [(f.a, f.m % 16)]
  | .tpop _ f => [(f.d, f.m % 8 + 1)]
  | .rcov _ f => [(f.d, 3), (f.b, 2)]
  | .esmp _ f => [(f.d, 6)]
  | .tex _ f => [(f.d, 4), (f.a, 2)]
  | .texl _ f => [(f.d, 4), (f.a, 3)]
  | .texadj _ f => [(f.d, 2 + f.m % 2), (f.a, 2 + f.m % 2), (f.c, 4)]
  | .trace _ f => [(f.b, 8)]
  | .hitadj _ f => [(f.d, 15), (f.c, 3)]
  | .rcq _ f => [(f.d, 3), (f.a, 8), (f.b, if f.m = 1 then 3 else 0)]
  | _ => []
/-- Every register group lies in the window (R49, R358). -/
def Grp.groupsFit (g : Grp) (i : Instr) : Bool := (regGroups i).all fun o => o.2 = 0 || g.opOk 0 o.2 o.1

/-- A call ends its block (R246). -/
def isCall : Instr → Bool | .call _ _ => true | .callx _ _ => true | _ => false

/-- The instruction of a fetched word with the cause of a word that is none (R240 steps 4 to 6). A word that names a flag its
header sets to none is illegal before its operands are looked at (R130); `last` when it ends its block. -/
def State.judge (s : State) (hdr w : W64) (last : Bool) : Except Fail Instr :=
  if featureOff s.pkg (codeAt w 58 6) then .error .illInstr
  else
    match buildAt (codeAt w 58 6) (codeAt w 52 6) with
    | none => .error .illInstr
    | some b =>
      match b.parse w with
      | none => .error .illInstr
      | some (i, reserved) =>
        if !i.codesOk || (sfFlag hdr (sfOf i)).isNone || isCall i && !last then .error .illInstr
        else if reserved || !i.operandsOk || !s.g.groupsFit i then .error .illOpnd
        else .ok i

/-- The active lanes that a branch, call or return word sends to a target, each with its target (R235, R240 step 2, R253): none for
another word, nor for a lane whose operand gives no target. -/
def State.branchLanes (s : State) (w : W64) : List (Nat × W64) :=
  let p := predAt w
  let f := bfAt w
  let ls := s.g.lanesOf (s.allowed p &&& ~~~s.g.predPoi p)
  let direct := ls.map fun l => (l, BF.target f s.g.iss.pc)
  let own := ls.filterMap fun l =>
    let v := s.rd l .b64 f.c
    if !bfReserved w && (f.c.vk || f.c.isS) && s.g.opOk l 2 f.c && !v.poi then some (l, BitVec.ofNat 64 v.n) else none
  if codeAt w 58 6 ≠ 0 then []
  else
    match codeAt w 52 6 with
    | 1 => direct
    | 2 => if !bfReserved w && f.c.isS && !(s.g.sVal f.c.sIdx).poi && ((s.g.sVal f.c.sIdx).n == 0) == (f.n == 0#8) then direct else []
    | 3 => own
    | 4 => direct
    | 5 => if own.length = ls.length then own else []
    | 6 => (match s.g.frames with | [] => [] | fr :: _ => ls.map fun l => (l, fr.ret))
    | _ => []
/-- A word that steps 4 to 6 of R240 reject traps its issue set; the lanes that it would send to a target which is no header have failed
at step 2, before that. In a handler the grid ends (R414). -/
def State.reject (s : State) (f : Fail) : Prep :=
  if s.g.iss.handler then .spent s.doubleTrap
  else
    let r := s.lookAll (s.branchLanes s.g.iss.word)
    if !r.2.2.isEmpty then .spent (r.1.stallAt (.reply r.2.2))
    else
      let bad := r.2.1.filterMap fun x => if x.2.2.ok then none else some x.1
      .spent (r.1.finish false ((failAll s.g s.g.iss.set f).map fun x => if bad.contains x.1 then (x.1, .illHdr) else x))

/-- The word at `va` of a block fetched and judged for an issue. -/
def State.fetchWord (s : State) (i : Issue) (va : W64) : Prep :=
  match s.fetch va i.set with
  | (s, .flt f) => .spent (s.fetchFault i va f)
  | (s, .wait id) => .spent ((s.setIss i).stallAt (.reply [id]))
  | (s, .word w) =>
    let s := s.setIss { i with pc := va, word := w }
    let s := if i.handler then s else s.modG fun g => g.modLanes (g.lanesOf i.set) fun _ x => { x with pc := va }
    match s.judge i.hdr w (va.toNat == i.bb.toNat + 8 * blockLen i.hdr) with
    | .ok ins => .go s ins
    | .error f => s.reject f

/-- A block entered by an issue set (R187, R230): PC and base of its lanes, and y invalid (R53). -/
def Grp.enterBlock (g : Grp) (set : Mask) (bb hdr : W64) : Grp :=
  g.modLanes (g.lanesOf set) fun _ x =>
    { x with pc := bb + 8, bb, hdr, reach := .inside, y0 := { x.y0 with valid := false }, y1 := { x.y1 with valid := false } }

/-- A header expected at the issue PC (R226, R228, R240 step 1): fetched, checked and applied, with the first word of its block
fetched before anything of the block is (R410). `wants` are the lanes with the KIND each must find, none for any KIND; those that
find another trap, and the rest issue after them. -/
def State.enter (s : State) (i : Issue) (wants : List (Nat × Option HKind)) : Prep :=
  match s.fetch i.pc i.set with
  | (s, .flt f) => .spent (s.fetchFault i i.pc f)
  | (s, .wait id) => .spent ((s.setIss i).stallAt (.reply [id]))
  | (s, .word w) =>
    let bad := wants.filter fun x => match decodeHeader w with | some h => x.2.any (· != h.kind) | none => true
    if bad.any fun x => x.2.any (· != .ord) then .spent ((s.setIss { i with word := w }).fatal cIllHdr 0)
    else if !bad.isEmpty then .spent ((s.setIss { i with word := w, set := i.set &&& maskOf (bad.map (·.1)) }).preTrap .illHdr)
    else
      let s := s.setIss { i with word := w }
      match decodeHeader w with
      | none => .held
      | some h =>
        if !s.g.flagsOff h.wait then (if s.flagStuck h.wait && !i.handler then .spent (s.stallAt .flag) else .held)
        else
          match s.fetch (i.pc + 8) i.set with
          | (s, .flt f) => .spent (s.fetchFault i (i.pc + 8) f)
          | (s, .wait id) => .spent (s.stallAt (.reply [id]))
          | (s, .word _) =>
            let s := if i.handler then s.modG fun g => { g with handler := g.handler.map fun x => { x with bb := i.pc, hdr := w, reach := .inside } }
              else s.modG fun g => g.enterBlock i.set i.pc w
            s.fetchWord { i with bb := i.pc, hdr := w } (i.pc + 8)

/-- Lanes whose PC or block base a handler or debugger set (R230): one whose PC is a word of the block that its base names goes on
there, and any other is left to find a header. The header at the base is fetched first (log entry 96); the lane whose fetch gives no
word ends the list. -/
def State.settlePatched (s : State) (set : Mask) : List Nat → State × Option (Nat × Fetched)
  | [] => (s, none)
  | l :: ls =>
    let x := s.g.lane l
    if !(x.bb.toNat < x.pc.toNat && x.pc.toNat ≤ x.bb.toNat + 512 && x.bb.toNat % 8 == 0) then s.settlePatched set ls
    else
      match s.fetch x.bb set with
      | (s, .word w) =>
        (if (decodeHeader w).isSome && inBlock x.pc x.bb w then s.modG fun g => g.modLanes [l] fun _ y => { y with hdr := w, reach := .inside }
         else s).settlePatched set ls
      | (s, f) => (s, some (l, f))

/-- The Running lanes at a PC. -/
def Grp.lanesAt (g : Grp) (pc : W64) : List Nat := (g.inState .running).filter fun l => (g.lane l).pc == pc
/-- What a lane expects of the word at its PC; one that was set there and lies in no block takes a header of any KIND. -/
def Lane.expects (x : Lane) : Expect := (expectOf x.pc x.bb x.hdr x.reach).getD (.header none)
def Lane.isInside (x : Lane) : Bool := match x.expects with | .inside _ _ => true | .header _ => false

/-- The word at the issue PC for the lanes that stand there (R187). Where some stand inside a block and some at its end, a word is
wrong for one of the two kinds, and the lowest lane's kind comes first. -/
def State.issueAt (s : State) (pc : W64) (ls : List Nat) : Prep :=
  let x := s.g.lane (ls.headD 0)
  let inside := ls.filter fun l => (s.g.lane l).isInside
  let i : Issue := { pc, bb := x.bb, hdr := x.hdr, handler := false }
  match x.expects with
  | .inside bb hdr => s.fetchWord { i with bb, hdr, set := maskOf inside } pc
  | .header _ =>
    let heads := ls.filter fun l => !inside.contains l
    let i := { i with set := maskOf heads }
    if pc.toNat % 8 ≠ 0 then .spent ((s.setIss i).preTrap .illHdr)
    else s.enter i (heads.map fun l => (l, match (s.g.lane l).expects with | .header k => k | .inside _ _ => none))

/-- The next instruction of the group in focus, in its lanes: lanes that a handler or debugger set are settled first, once their own
word has been fetched (R410). -/
def State.prepLanes (s : State) : Prep :=
  match s.g.issuePc with
  | none => .held
  | some pc =>
    let ls := s.g.lanesAt pc
    let set := maskOf ls
    let x := s.g.lane (ls.headD 0)
    let i : Issue := { pc, bb := x.bb, hdr := x.hdr, set, handler := false }
    let patched := ls.filter fun l => (s.g.lane l).reach == .patched
    if patched.isEmpty || pc.toNat % 8 ≠ 0 then s.issueAt pc ls
    else
      match s.fetch pc set with
      | (s, .flt f) => .spent (s.fetchFault i pc f)
      | (s, .wait id) => .spent ((s.setIss i).stallAt (.reply [id]))
      | (s, .word _) =>
        match s.settlePatched set patched with
        | (s, none) => s.issueAt pc ls
        | (s, some (l, .flt f)) =>
          let bb := (s.g.lane l).bb
          .spent (s.fetchFault { i with set := maskOf (patched.filter fun j => (s.g.lane j).bb == bb) } bb f)
        | (s, some (_, .wait id)) => .spent ((s.setIss i).stallAt (.reply [id]))
        | (s, some (_, .word _)) => .spent s

/-- The next instruction of the handler of the group in focus (R411, R414). -/
def State.prepHandler (s : State) (h : Handler) : Prep :=
  let i : Issue := { pc := h.pc, bb := h.bb, hdr := h.hdr, set := 0, handler := true }
  match expectOf h.pc h.bb h.hdr h.reach with
  | some (.inside bb hdr) => s.fetchWord { i with bb, hdr } h.pc
  | some (.header k) => s.enter i [(0, k)]
  | none => .spent s.doubleTrap

/-- The next instruction of the group in focus. -/
def State.prepare (s : State) : Prep :=
  match s.g.handler with
  | some h => s.prepHandler h
  | none => s.prepLanes

/-! ## The choice of a group -/

/-- The group may issue: it runs in a resident team of an enabled context, stands at no blocking point, and no YIELD, matrix
result or debugger holds it (R44, R199, R405). -/
def State.mayIssue (s : State) (k : Nat) : Bool :=
  let g := s.grpAt k
  let t := s.teamAt g.team
  let gr := s.gridAt t.grid
  let c := s.ctxAt gr.ctx
  g.phase == .running && t.phase == .resident && gr.phase == .running && c.root.getLsbD 0
    && g.stall == .none && !g.yielded && !g.stopped && g.mmaPend.isNone && !s.stopDue k && !s.snapDue k
    && (g.handler.isSome || g.laneIdx.any fun l => (g.lane l).st == .running)

/-- Age by placement sequence, then launch index, then part index (R405). -/
def State.older (s : State) (a b : Nat) : Bool :=
  let ga := s.grpAt a
  let gb := s.grpAt b
  let oa := (s.teamAt ga.team).order
  let ob := (s.teamAt gb.team).order
  oa < ob || oa == ob && (ga.idx < gb.idx || ga.idx == gb.idx && ga.part ≤ gb.part)

/-- The unit that a word goes to (R405): the scalar unit for one with an s destination outside the units (R247), else by its major
(log entry 97). -/
def unitOf (w : W64) : Nat :=
  let major := codeAt w 58 6
  if major ≤ 0x0A || major == 0x29 then (if (Opnd.ofByte (BitVec.ofNat 8 (codeAt w 40 8))).any Opnd.isS then 1 else 0)
  else if major ≤ 0x15 || major == 0x19 then 2
  else if major ≤ 0x18 then 5
  else if major == 0x20 then 3
  else if major == 0x21 then 4
  else if major == 0x28 then 6
  else if major == 0x2A then 7
  else if major == 0x2B then 8
  else 9

/-- Steps since a unit of a quarter last took an issue. -/
def CoreSt.idle (c : CoreSt) (quarter unit : Nat) : Nat := bankGet c.units 0 (quarter * 10 + unit)
/-- Every unit idle one step longer, and the one that takes the issue idle no more. -/
def CoreSt.tookIssue (c : CoreSt) (quarter unit : Nat) : CoreSt :=
  { c with units := bankPut 0 ((tab 40 fun j => bankGet c.units 0 j + 1)) (quarter * 10 + unit) 0 }

/-- The unit of the word a group issues next, past the header it may stand at. -/
def State.nextUnit (s : State) (k : Nat) : Nat := match (s.focusGrp k).prepare with | .go s' _ => unitOf s'.g.iss.word | _ => 0

/-- The class of a candidate (R405): a handler, a starving group, or any other. -/
def Grp.issueClass (g : Grp) : Nat := if g.handler.isSome then 0 else if 256 ≤ g.readyFor then 1 else 2

/-- The better of two groups of one quarter (R405). -/
def State.better (s : State) (a b : Nat) : Nat :=
  let ga := s.grpAt a
  let gb := s.grpAt b
  if ga.issueClass < gb.issueClass then a
  else if gb.issueClass < ga.issueClass then b
  else if ga.issueClass < 2 then (if s.older a b then a else b)
  else
    let ia := (s.coreAt (s.teamAt ga.team).core).idle (ga.idx % 4) (s.nextUnit a)
    let ib := (s.coreAt (s.teamAt gb.team).core).idle (gb.idx % 4) (s.nextUnit b)
    if ib < ia then a else if ia < ib then b else if s.older a b then a else b

/-- A group's turn would come to nothing: its header or flags wait, or another bounded hold applies (R114, R405). `run` is what an
instruction does. -/
def State.heldNow (s : State) (run : Instr → State → Out) (k : Nat) : Bool :=
  match (s.focusGrp k).prepare with
  | .held => true
  | .spent _ => false
  | .go s' i => (match run i s' with | .next t => t.grpAt k == s'.grpAt k | _ => false)
/-- The groups that are ready (R405). -/
def State.readyGroups (s : State) (run : Instr → State → Out) : List Nat := s.groups.keys.filter fun k => s.mayIssue k && !s.heldNow run k

/-- Of the ready groups, the best of each quarter, and of those the one that has waited longest (log entry 2). -/
def State.chooseGroup (s : State) (ready : List Nat) : Option Nat :=
  let sameQuarter (a b : Nat) : Bool :=
    (s.teamAt (s.grpAt a).team).core == (s.teamAt (s.grpAt b).team).core && (s.grpAt a).idx % 4 == (s.grpAt b).idx % 4
  let best := ready.filter fun k => ready.all fun j => !sameQuarter k j || s.better k j == k
  best.foldl (fun r k =>
    match r with
    | none => some k
    | some j => if (s.grpAt j).readyFor < (s.grpAt k).readyFor then some k else some j) none

/-- A quarter issues for a chosen group: the ready groups of that quarter are passed over for one cc more, a cc more has passed for those
that YIELD holds, and a unit of it takes an issue (R257, R405; log entry 76). -/
def State.passOver (s : State) (ready : List Nat) (k : Nat) : State :=
  let g := s.grpAt k
  let core := (s.teamAt g.team).core
  let s' := { s with groups := s.groups.update fun j x =>
    if j == k then { x with readyFor := 0 }
    else if (s.teamAt x.team).core != core || x.idx % 4 != g.idx % 4 then x
    else if x.yielded then { x with yieldAge := x.yieldAge + 1 }
    else if ready.contains j then { x with readyFor := x.readyFor + 1 } else x }
  s'.setCoreAt core ((s'.coreAt core).tookIssue (g.idx % 4) (s.nextUnit k))

end Sys2Proof.Machine
end

