-- ==== Sys2Proof/Machine/Replay.lean ====
section
/-! DEFINITION. A replay that goes on after a debugger wrote into it (R437, R438, R446): its group runs again, an instruction at each step,
in a view of the machine that is thrown away, with what enters it served from the log. -/

namespace Sys2Proof.Machine

/-! ## What the log serves -/

/-- A field that held a before an instruction of the logged group and b after it: b where the instruction wrote it, and otherwise what the
replay holds. -/
def served {α : Type} [DecidableEq α] (a b x : α) : α := if a = b then x else b
def servedBank {α : Type} [DecidableEq α] (d : α) (a b x : List α) : List α :=
  tab (max (max a.length b.length) x.length) fun i => served (bankGet a d i) (bankGet b d i) (bankGet x d i)
/-- A lane of the replay past an instruction whose results the log serves. -/
def Lane.serve (a b x : Lane) : Lane :=
  { b with v := servedBank {} a.v b.v x.v, k := servedBank {} a.k b.k x.k, y0 := served a.y0 b.y0 x.y0, y1 := served a.y1 b.y1 x.y1,
           fpl := served a.fpl b.fpl x.fpl, ctr := served a.ctr b.ctr x.ctr }
/-- The group of the replay past such an instruction. -/
def Grp.serve (a b x : Grp) : Grp :=
  { b with lanes := tab b.lanes.length fun l => (a.lane l).serve (b.lane l) (x.lane l)
           s := servedBank {} a.s b.s x.s, m := servedBank {} a.m b.m x.m, a := servedBank {} a.a b.a x.a, z := servedBank 0 a.z b.z x.z
           gang := served a.gang b.gang x.gang, digest := x.digest, logSeen := x.logSeen, image := x.image }

/-- An entry holds bytes of memory at its address; any other holds values of registers, or poison. -/
def LogEnt.bytes (e : LogEnt) : Bool :=
  !e.poi.any id && (match e.kind with | .load => true | .tile => true | .atomic => true | .texture => true | .traverse => true | .xdec => true | _ => false)

/-! ## The view -/

/-- A byte at an address of a digest, as the group of the replay is to read it: of its team's scratchpad, of K space, or of memory. -/
def State.replayByte (s : State) (a : Nat) (b : Byte) : State :=
  if 2 ^ 63 ≤ a && a < 2 ^ 63 + 2 ^ 32 then s.scrWrite s.foc.team (a - 2 ^ 63) [b]
  else if 2 ^ 62 ≤ a && a < 2 ^ 63 then
    let o := a - 2 ^ 62
    match s.teams.find? fun e => e.2.grid == s.foc.grid && s.gr.rank e.2 == o / 2 ^ 19 with
    | some e => s.scrWrite e.1 (o % 2 ^ 19) [b]
    | none => s
  else
    match s.walk s.foc.ctx (BitVec.ofNat 64 a) with
    | .ok p => let pa := p.pa (BitVec.ofNat 64 a); if s.isLocal pa then { s with mem := memWrite s.mem (paLocal pa) [b] } else s
    | .error _ => s
/-- The machine with the group of a replay in focus, in the place of the live one; its reads find the bytes that the log has for it, and
nothing is logged yet. -/
def State.replayView (s : State) (ctx : Nat) (r : Rerun) : State :=
  let x := r.at'
  let c := s.ctxAt ctx
  let g := { x.grp with stall := .none, stopped := false, yielded := false, replies := [], mmaPend := none }
  let s := { ((s.setCtxAt ctx { c with dbgLogOn := true, snaps := [], log := [] }).setGrpAt x.key g).focusGrp x.key with cores := [] }.setPtab x.ptab
  let s := x.grp.image.foldl (fun s e => s.replayByte e.1 e.2) s
  (r.left.filter fun e => e.bytes && e.retired == x.grp.retired).foldl (fun s e =>
    (List.range e.data.length).foldl (fun s i => s.replayByte (e.addr + i) (e.data.getD i 0)) s) s
/-- One turn of the group in the view; `run` is what an instruction does. -/
def State.replayTurn (s : State) (run : Instr → State → Out) : Option State :=
  match s.prepare with
  | .held => none
  | .spent t => some t
  | .go t i => (match run i t with | .next t => some t | _ => none)

/-! ## A step of the replay -/

/-- A replay has ended with a STATE and DIGOK (R433, R446). -/
def Ctx.rerunEnd (c : Ctx) (st : Nat) (ok : Bool) : Ctx := { c with rerun := none, dbgState := st, dbgDigok := ok }
/-- The entries that an instruction of the replay asks for are the next ones of the log, in kind and address (R437). -/
def asLogged (es left : List LogEnt) : Bool :=
  es.length ≤ left.length && (es.zip left).all fun x => x.1.kind == x.2.kind && x.1.addr == x.2.addr
/-- The state that the log has of a group at a retired count, with its deliveries. -/
def State.loggedAt (s : State) (ctx : Nat) (x : Snap) (n : W64) : Option Grp :=
  ((s.ctxAt ctx).logged { gid := x.gid, team := x.team, idx := x.grp.idx, part := x.grp.part, ret := n } n).map fun y => (s.delivered y).grp
/-- One instruction of a replay (R437): where it waits for something outside the group, or its values come from the log, it leaves what the
log serves; where its kind or address is not the next entry's, the replay ends with STATE 6. It ends at the start of the next interval, with
DIGOK when the digests agree (R446), or where the logged span ends. -/
def State.rerunCtx (s : State) (run : Instr → State → Out) (ctx : Nat) (r : Rerun) : Ctx :=
  let c := s.ctxAt ctx
  let g := r.at'.grp
  let next (g : Grp) (ptab : List (Option PtEntry)) (left : List LogEnt) : Ctx :=
    { c with rerun := some { r with at' := { r.at' with grp := g, ptab, retired := g.retired }, left } }
  if r.stop.any fun y => y.retired.toNat ≤ g.retired.toNat then c.rerunEnd 0 (r.stop.any fun y => y.grp.digest == g.digest)
  else
    match s.loggedAt ctx r.at' g.retired, s.loggedAt ctx r.at' (g.retired + 1) with
    | some a, some b =>
      (match (s.replayView ctx r).replayTurn run with
      | none => next (a.serve b g) r.at'.ptab r.left
      | some t =>
        let es := (t.ctxAt ctx).log
        let t' := t.focusGrp r.at'.key
        let left := r.left.drop es.length
        if !asLogged es r.left then c.rerunEnd 6 false
        else if t'.g.retired ≠ g.retired then next (if es.all (·.bytes) then t'.g else a.serve b t'.g) t'.ptab left
        else if t'.g.handler != g.handler then next t'.g t'.ptab left
        else next (a.serve b g) r.at'.ptab r.left)
    | _, _ => c.rerunEnd 0 false

/-- The context whose replay runs on. -/
def State.rerunDue (s : State) : Option (Nat × Rerun) := s.ctxs.findSome? fun e => e.2.rerun.map fun r => (e.1, r)
/-- A replay runs on by one instruction. Nothing else changes (R437). -/
def State.rerunStep (s : State) (run : Instr → State → Out) (ctx : Nat) (r : Rerun) : State := (s.setCtxAt ctx (s.rerunCtx run ctx r)).bump

end Sys2Proof.Machine
end

