-- ==== Sys2Proof/Machine/Red.lean ====
section
/-! DEFINITION. Reductions (R135 to R151, R322, R323): RED and RFLUSH, team flushes of a DET grid, anvil staging, the close of an
epoch, and U partials sent home. -/

namespace Sys2Proof.Machine

/-! ## Deterministic grids -/

/-- The contributions that the reduction buffer of a core holds (R141): those made there, also of a team that has been evicted since,
until the flush that covers them (log entry 115). -/
def State.bufferUse (s : State) (core : Nat) : Nat := s.teams.foldl (fun n e => n + (e.2.contribs.filter fun c => !c.spilled && c.core == core).length) 0

/-- A contribution of the focused team (R139, R141), written to the spill region when the buffer is full, from where the flush that
covers it takes it back; none where the region has no room. -/
def State.contribute (s : State) (c : Contrib) : Option State :=
  let put (c : Contrib) : State := s.modT fun t => { t with contribs := t.contribs ++ [{ c with core := s.foc.core }] }
  if s.bufferUse s.foc.core < 2048 then some (put c)
  else
    let s' := put { c with spilled := true }
    if s'.rspOver s.foc.ctx then none else some (s'.spillBytes s.foc.ctx 64)

/-- The order in which a flush folds (R140); contributions of one lane keep their issue order. -/
def Contrib.before (a b : Contrib) : Bool := a.idx < b.idx || a.idx == b.idx && a.lane ≤ b.lane
/-- One target of a flush. -/
def Contrib.sameTarget (a b : Contrib) : Bool := a.pa == b.pa && a.op == b.op && a.ty == b.ty

/-- Contributions to one target folded from the identity, with REDFLAGS (R136, R137). -/
def State.foldTarget (s : State) (ctx : Nat) (rm : Rm) (cs : List Contrib) : State × Nat :=
  match cs with
  | [] => (s, 0)
  | c :: _ =>
    cs.foldl (fun a x =>
      let r := combine (redEnv rm) c.op c.ty a.2 x.value.toNat
      (a.1.redFlags ctx c.ty r, r.bits)) (s, redIdentity c.op c.ty)

/-- The contributions `cs` of a flush with key (team id, k) made into partials (R140, R142, R146). -/
def State.flushContribs (s : State) (team k : Nat) (cs : List Contrib) : State :=
  let t := s.teamAt team
  let gr := s.gridAt t.grid
  let heads := cs.foldl (fun hs c => if hs.any c.sameTarget then hs else hs ++ [c]) []
  heads.foldl (fun s h =>
    let (s, v) := s.foldTarget gr.ctx (Rm.ofCode gr.redRm) (sortBy Contrib.before (cs.filter h.sameTarget))
    if s.isLocal h.pa then
      let g := s.gridAt t.grid
      s.setGridAt t.grid { g with flight := g.flight ++ [{ pa := h.pa, op := h.op, ty := h.ty, value := BitVec.ofNat 64 v, team := t.id, k, epoch := BitVec.ofNat 32 (t.epochO + t.gridFlushed), cp := h.cp }] }
    else s.sendRemoteRed none none gr.ctx gr.redRm gr.lrec.gid t.id h.pa h.op h.ty v) s

/-- A team's flush of the contributions that `cover` holds of, which leave the buffer and the spill region. -/
def State.flushCover (s : State) (team k : Nat) (cover : Contrib → Bool) : State :=
  let t := s.teamAt team
  let cs := t.contribs.filter cover
  (s.setTeamAt team { t with contribs := t.contribs.filter fun c => !cover c }).flushContribs team k cs

/-- The k-th team flush (R139, R144): its partials, and if it is a grid flush the end of the team's epoch, with the barriers that
wait for its close. -/
def State.teamFlush (s : State) (team : Nat) : State :=
  let k := (s.teamAt team).flushed
  let s := s.flushCover team k fun c => c.k == k
  let t := s.teamAt team
  let named := t.flushNamed.filter fun x => x.1 == k
  let e := t.epochO + t.gridFlushed
  s.setTeamAt team { t with
    flushed := k + 1
    gridFlushed := if named.isEmpty then t.gridFlushed else t.gridFlushed + 1
    flushNamed := t.flushNamed.filter fun x => x.1 != k
    flushBars := t.flushBars ++ named.map fun x => (e, x.2) }

/-- Every group of the team has executed its next RFLUSH or retired, and some group has executed it (R139). -/
def State.flushDue (s : State) (team : Nat) : Bool :=
  let k := (s.teamAt team).flushed
  let gs := (s.groups.filter fun e => e.2.team == team).map (·.2)
  (gs.any fun g => g.phase != .split && k < g.flushes) && gs.all fun g => g.phase != .running || k < g.flushes

/-- Every team flush that is due. -/
def State.teamFlushes (s : State) (team : Nat) : Nat → State
  | 0 => s
  | n + 1 => if s.flushDue team then (s.teamFlush team).teamFlushes team n else s
def State.runFlushes (s : State) (team : Nat) : State :=
  s.teamFlushes team ((s.groups.filter fun e => e.2.team == team).foldl (fun n e => max n e.2.flushes) 0 + 1)

/-! ## Fast grids -/

/-- A contribution into a U line of the focused core (R150): each of its 8-byte words holds one partial, and one whose op, type or place
differs sends the line home first. A word that another grid began keeps that grid's rounding, and the exceptions of the fold go to the
context that contributes (log entry 111). -/
def State.uAdd (s : State) (pa cp op : Nat) (t : Ty) (v : Nat) : State :=
  let core := s.foc.core
  let ln := pa / 128
  let off := pa % 128
  let s := s.drainLine core pa
  let fits (l : L1Line) : Bool := l.words.all fun w => w.off / 8 != off / 8 || w.off == off && w.op == op && w.ty == t
  let s :=
    match (s.coreAt core).line ln with
    | some l => if !l.isU then s.dropValid core (· == ln) else if fits l then s else s.sendU core ln
    | none => s
  let s := if ((s.coreAt core).line ln).isSome then s else s.allocLine core { line := ln }
  match (s.coreAt core).line ln with
  | none => s
  | some l =>
    let w : UWord := (l.words.find? fun w => w.off == off).getD { off, op, ty := t, value := BitVec.ofNat 64 (redIdentity op t), grid := s.foc.grid, team := s.t.id, cp }
    let r := combine (redEnv (Rm.ofCode (s.gridAt w.grid).redRm)) op t w.value.toNat v
    let l := { l with words := (l.words.filter fun w => w.off != off) ++ [{ w with value := BitVec.ofNat 64 r.bits }] }
    let co := s.coreAt core
    (s.setCoreAt core { co with l1 := co.l1.map fun x => if x.line == ln then l else x }).redFlags s.foc.ctx t r

/-! ## RED -/

/-- One access of a RED at its physical address: false where the spill region has no room. -/
def State.redAt (s : State) (pa cp op : Nat) (t : Ty) (v lane : Nat) (tag : Option (Nat × Nat)) : State × Bool :=
  if s.gr.det then
    let s := (s.sendU s.foc.core (pa / 128)).dropValid s.foc.core (· == pa / 128)
    match s.contribute { pa, op, ty := t, value := BitVec.ofNat 64 v, idx := s.g.idx, lane := s.g.key lane, k := s.g.flushes, cp } with
    | some s => (s, true)
    | none => (s, false)
  else if s.isLocal pa then (s.uAdd pa cp op t v, true)
  else
    let s := (s.drainLine s.foc.core pa).dropValid s.foc.core (· == pa / 128)
    (s.sendRemoteRed (some s.foc.core) tag s.foc.ctx s.gr.redRm s.gr.lrec.gid s.t.id pa op t v, true)

/-- RED (R322): no register is written. -/
def execRed (p : Pred) (f : MF) (s : State) : Out :=
  let w := f.width.code
  let t := (MF.ty f).getD .i32
  let k := if f.d.isS then 1 else t.regs
  let x : Access := { acc := .reduction, a := f.a, b := f.b, n := f.width.bytes }
  s.perform false p (s.opsOk [(f.d, k), (f.a, 1), (f.b, 1)]) fun s act =>
    let poi (s : State) (l : Nat) : Option Opnd := if (s.rd l t f.d).poi then some f.d else none
    let (s, fs) := s.fates x w poi false (s.shares act f.d.isS)
    let fl := s.sfNow f.sf
    if !(performed fs).isEmpty && s.flagFull fl then s.fullWait fl
    else
      let s := if (performed fs).isEmpty then s else s.beforeWrite f.ord f.scope
      s.orWait (isRel f.ord && !(performed fs).isEmpty) f.scope <|
      match s.noteFlts .reduction w (fltsOf fs) with
      | none => .stall s .fault
      | some (s, seq, n) =>
        let (s, tag) := if (performed fs).isEmpty then (s, none) else s.flagStart fl
        let r := fs.foldl (fun (a : State × Bool) f' =>
          match f'.2.2 with
          | .at' (.mem va pa cp) =>
            let v := (s.rd f'.2.1 t f.d).n
            let y := (a.1.digest va.toNat (leBytes (redBytes t) v)).redAt pa cp f.op t v f'.2.1 tag
            (y.1, a.2 && y.2)
          | _ => a) (s, true)
        if r.2 then .done ((r.1.flagEnd tag).sampledIf f.a .reduction) (r.1.failsOf fs ++ r.1.fltFails (fltsOf fs) (.trans seq n)) else .fatal r.1 cRedSpill 0

/-! ## RFLUSH -/

/-- RFLUSH (R139, R323): the group's flush count; in a fast grid every U partial of the core, whose homes are local (R150), is applied
and then counted. -/
def execRflush (p : Pred) (f : MF) (s : State) : Out :=
  let grid := f.i == 1
  s.perform false p (fun _ => true) fun s act =>
    let v := match f.a with | .s i => s.g.sVal i.val | _ => {}
    let bar := if grid then s.barName false (v.n % 2 ^ 32) else none
    if grid && v.poi then .done s (failAll s.g act (.poison f.a))
    else if grid && bar.isNone then .done s (failAll s.g act .opndLate)
    else if s.flagFull (s.sfNow f.sf) then s.fullWait (s.sfNow f.sf)
    else
      let (s, tag) := s.flagStart (s.sfNow f.sf)
      if s.gr.det then
        let k := s.g.flushes
        let s := (s.modT fun t => match bar with | some b => { t with flushNamed := t.flushNamed ++ [(k, b)] } | none => t).modG fun g => { g with flushes := k + 1 }
        .done ((s.runFlushes s.foc.team).flagEnd tag) []
      else
        let s := s.sendAllU s.foc.core
        .done ((match bar with | some b => s.barLand b 8 | none => s).flagEnd tag) []

/-! ## Staging and epochs -/

/-- The partials that the staging ways of a line's LLC set hold (R67, R142): 8 entries of 32 bytes fill them. -/
def State.setStaged (s : State) (pa : Nat) : Nat :=
  s.grids.foldl (fun n e => n + (e.2.staged.filter fun p => !p.spilled && llcSet (p.pa / 128) == llcSet (pa / 128)).length) 0

/-- ANVIL_STAGE (R142, R143): the oldest partial of a team on its way that belongs to the open epoch is staged, or goes to the spill
region when its set is full. -/
def execAnvilStage (team : Nat) (full : Bool) (s : State) : Out :=
  let t := s.teamAt team
  let gr := s.gridAt t.grid
  match gr.flight.find? fun p => p.team == t.id && p.epoch == gr.epoch with
  | none => .next s
  | some p =>
    if full != (8 ≤ s.setStaged p.pa : Bool) then .next s
    else
      let gr := { gr with flight := gr.flight.erase p }
      if !full then .next (s.setGridAt t.grid { gr with staged := gr.staged ++ [p] })
      else
        let s' := s.setGridAt t.grid { gr with staged := gr.staged ++ [{ p with spilled := true }] }
        .next (if s'.rspOver gr.ctx then s.endGrid t.grid cRedSpill 0 else s'.spillBytes gr.ctx 64)

/-- The teams of a grid. -/
def State.teamsOf (s : State) (grid : Nat) : List (Nat × Team) := s.teams.filter fun e => e.2.grid == grid
/-- Every team launched from ENTRY has been created. -/
def Grid.allCreated (g : Grid) : Bool := g.lrec.nteam.toNat ≤ g.nextTeam

/-- The epoch a team has reached, in the 32 bits of an epoch number (R142, R482); a team that has not retired reaches no epoch below the
open one, so it has ended the open epoch once it has reached another, whether or not the number has wrapped. -/
def Team.reached (t : Team) : W32 := BitVec.ofNat 32 (t.epochO + t.gridFlushed)
def Team.ended (t : Team) (epoch : W32) : Bool := let d := (t.reached - epoch).toNat; 0 < d && d < 2 ^ 31

/-- The open epoch can close (R143): each of its teams has ended it or retired, its partials are staged, and it has something to
close. -/
def State.epochReady (s : State) (grid : Nat) : Bool :=
  let gr := s.gridAt grid
  let ts := (s.teamsOf grid).map (·.2)
  gr.det && gr.phase == .running && gr.allCreated && !(s.ctxAt gr.ctx).holds (.anvil gr.lrec.gid.toNat)
    && (ts.all fun t => t.ended gr.epoch || t.phase == .retired)
    && (gr.flight.all fun p => p.epoch != gr.epoch)
    && ((ts.any fun t => t.ended gr.epoch) || gr.staged.any fun p => p.epoch == gr.epoch)

/-- The partials of the open epoch applied in the order of their keys (R143), each once every core's stores to its line have
performed (R149); the first whose record its unit must hold is the last for now (R45). -/
def State.applyOpen (s : State) (grid : Nat) : List Partial → State
  | [] => s
  | p :: ps =>
    let gr := s.gridAt grid
    let s := (s.cores.keys.foldl (fun s c => s.drainLine c p.pa) s).applyPartial gr p
    let s := s.setGridAt grid { gr with staged := gr.staged.erase p }
    if (s.ctxAt gr.ctx).holds (.anvil gr.lrec.gid.toNat) then s else s.applyOpen grid ps

/-- EPOCH_CLOSE (R143, R144): the epoch's partials applied, each under its line's exclusive lock, which no tile holds meanwhile (R91), and then
its barriers counted. -/
def execEpochClose (grid : Nat) (s0 : State) : Out :=
  if !s0.epochReady grid then .next s0
  else
    let gr := s0.gridAt grid
    let s := s0.applyOpen grid gr.openStaged
    if s.met ≠ s0.met then .next s0
    else if (s.ctxAt gr.ctx).holds (.anvil gr.lrec.gid.toNat) then .next s
    else
      let s := s.setGridAt grid { s.gridAt grid with epoch := gr.epoch + 1 }
      let due := (s.teamsOf grid).flatMap fun e => (e.2.flushBars.filter fun x => BitVec.ofNat 32 x.1 == gr.epoch).map (·.2)
      let s := { s with teams := s.teams.update fun _ t => if t.grid == grid then { t with flushBars := t.flushBars.filter fun x => BitVec.ofNat 32 x.1 != gr.epoch } else t }
      .next (due.foldl (fun s b => s.barLand b 8) s)

/-- U_PARTIAL_APPLY (R102, R151): the partials of one U line reach home. -/
def execUPartialApply (core line : Nat) (s : State) : Out := .next (s.unmet (s.sendU core line))

/-- WRITE_BUFFER_DRAIN (R62): the oldest store of a core's write buffer performs at its home. -/
def execWriteBufferDrain (core : Nat) (s : State) : Out := .next (s.drainOne core)

end Sys2Proof.Machine
end

