-- ==== Sys2Proof/Machine/Work.lean ====
section
/-! DEFINITION. Work graphs and launch from a program (R336, R398, R401 to R404): WALLOC, WSEND, LAUNCH, the launch of a node's
batches and the drain of nodes. -/

namespace Sys2Proof.Machine

/-! ## Records and pools -/

def Grid.node (g : Grid) (i : Nat) : Node := bankGet g.nodes {} i
def Grid.pool (g : Grid) (j : Nat) : Pool := bankGet g.pools {} j
def Grid.setNode (g : Grid) (i : Nat) (n : Node) : Grid := { g with nodes := bankPut {} g.nodes i n }
def Grid.setPool (g : Grid) (j : Nat) (p : Pool) : Grid := { g with pools := bankPut {} g.pools j p }
/-- The VA of a record (R400). -/
def Pool.va (p : Pool) (r : Nat) : W64 := p.base + BitVec.ofNat 64 (r * p.recsize)
/-- The bit of PROD that names a team (R400): 0 for one launched from ENTRY, j + 1 for one of node j. -/
def Team.origin (t : Team) : Nat := match t.node with | none => 0 | some x => x.1 + 1
/-- Records returned to their pools (R401). -/
def Grid.giveBack (g : Grid) (hs : List Held) : Grid :=
  hs.foldl (fun g h => let p := g.pool h.pool; g.setPool h.pool { p with free := NSet.insert p.free h.index }) g

/-! ## Batches (R402 to R404) -/

/-- A batch of records launched as a node team (R404); a team id above 2^32 − 1 ends the grid. -/
def State.launchBatch (s : State) (grid i : Nat) (rs : List Gathered) : State :=
  let gr := s.gridAt grid
  let n := gr.node i
  let id := gr.lrec.nteam.toNat + n.batches * gr.nodes.length + i
  if gr.phase != .running then s
  else if 2 ^ 32 ≤ id then s.endGrid grid cWorkOver 0
  else
    let (s, k) := s.freshId
    let t : Team := { grid, id := BitVec.ofNat 32 id, node := some (i, n.batches), batch := rs.map (·.va),
                      held := rs.map fun r => { pool := r.pool, index := r.index }, epochO := n.epochO, syncO := n.syncO }
    (s.setTeamAt k t).setGridAt grid (gr.setNode i { n with batches := n.batches + 1 })

/-- The open batch of a node of a fast grid closes and launches (R402). -/
def State.closeBatch (s : State) (grid i : Nat) : State :=
  let gr := s.gridAt grid
  let n := gr.node i
  (s.setGridAt grid (gr.setNode i { n with gathered := [] })).launchBatch grid i n.gathered

/-- Batches of b of a list. -/
def cutBatches (b : Nat) : Nat → List Gathered → List (List Gathered)
  | 0, _ => []
  | _ + 1, [] => []
  | n + 1, x :: xs => (x :: xs).take b :: cutBatches b n ((x :: xs).drop b)

/-- The order of a DET node's records (R403). -/
def Gathered.before (a b : Gathered) : Bool := decide ([a.team.toNat, a.idx, a.lane, a.seq] ≤ [b.team.toNat, b.idx, b.lane, b.seq])

/-- A team counts as retired for a drain when it has been created and has retired. -/
def State.originDone (s : State) (grid o : Nat) : Bool :=
  let gr := s.gridAt grid
  let ts := (s.teams.filter fun e => e.2.grid == grid && e.2.origin == o).map (·.2)
  (o ≠ 0 || gr.lrec.nteam.toNat ≤ gr.nextTeam) && (o = 0 || (gr.node (o - 1)).drained) && ts.all fun t => t.phase == .retired

/-- A node can drain (R402): every team and every node that PROD names is done. -/
def State.canDrain (s : State) (grid i : Nat) : Bool :=
  let gr := s.gridAt grid
  let n := gr.node i
  !n.drained && (List.range (gr.nodes.length + 1)).all fun o => !n.prod.getLsbD o || s.originDone grid o

/-- The drain of a node (R402, R403, R482): its origins are fixed and its last records launch. -/
def State.drainNode (s : State) (grid i : Nat) : State :=
  let gr := s.gridAt grid
  let n := gr.node i
  let ps := (s.teams.filter fun e => e.2.grid == grid && n.prod.getLsbD e.2.origin).map (·.2)
  let n := { n with drained := true, epochO := ps.foldl (fun m t => max m (t.epochO + t.gridFlushed)) 0,
                    syncO := ps.foldl (fun m t => max m (t.syncO + t.syncs)) 0 }
  let s := s.setGridAt grid (gr.setNode i n)
  if gr.det then
    let s := s.setGridAt grid (gr.setNode i { n with gathered := [] })
    (cutBatches n.batch n.gathered.length (sortBy Gathered.before n.gathered)).foldl (fun s b => s.launchBatch grid i b) s
  else if n.gathered.isEmpty then s else s.closeBatch grid i

/-- Every drain that is due, in ascending node index. -/
def State.drainNodes (s : State) (grid : Nat) : Nat → State
  | 0 => s
  | fuel + 1 =>
    match (List.range (s.gridAt grid).nodes.length).find? fun i => s.canDrain grid i with
    | some i => (s.drainNode grid i).drainNodes grid fuel
    | none => s

/-- BATCH_TIMEOUT (R402): the open batch of a node of a fast grid launches short. -/
def execBatchTimeout (grid node : Nat) (s : State) : Out :=
  let gr := s.gridAt grid
  let n := gr.node node
  if gr.det || gr.phase != .running || gr.nodes.length ≤ node || n.timeout == 0 || n.gathered.isEmpty then .next s else .next (s.closeBatch grid node)

/-! ## WALLOC and WSEND -/

/-- The node that an operand names, with the checks of R336. -/
def State.nodeOf (s : State) (act : Mask) (o : Opnd) (k : Node → Did) : Did :=
  let v := s.rd 0 .b64 o
  if v.poi then .done s (failAll s.g act (.poison o))
  else if s.gr.nodes.length ≤ v.n then .done s (failAll s.g act .opndLate)
  else k (s.gr.node v.n)

/-- The key under which a lane holds a record: a record in an s register is the group's. -/
def Grp.holder (g : Grp) (s : Bool) (l : Nat) : Nat × Nat := (g.idx, if s then 64 else g.key l)

/-- One free record taken for a lane (R401). -/
def State.takeRecord (s : State) (pool : Nat) (who : Nat × Nat) (i : Nat) : Option (State × W64) :=
  let p := s.gr.pool pool
  match p.free.length with
  | 0 => none
  | n + 1 =>
    let r := p.free.getD (Config.recordPick (s.freeKey i) % (n + 1)) 0
    some ((s.modGr fun g => g.setPool pool { p with free := p.free.erase r }).modT fun t =>
      { t with held := t.held ++ [{ pool, index := r, owner := some who }] }, p.va r)

/-- WALLOC (R336, R401): each active lane takes a record; the group stalls on an empty pool, and keeps what it took. -/
def execWalloc (p : Pred) (f : VF) (s : State) : Out :=
  s.perform false p (s.opsOk [(f.d, if f.d.isS then 1 else 2)]) fun s act =>
    s.nodeOf act f.a fun n =>
      let ls := if f.d.isS then (s.g.lanesOf act).take 1 else s.g.lanesOf act
      let r := ls.foldl (fun (x : State × Bool) l =>
        if x.2 || x.1.g.wallocGot.any (fun y => y.1 == l) then x
        else
          match x.1.takeRecord n.pool (x.1.g.holder f.d.isS l) l with
          | none => (x.1, true)
          | some (s, va) => (s.modG fun g => { g with wallocGot := g.wallocGot ++ [(l, va)] }, false)) (s, false)
      if r.2 then .stall r.1 .walloc
      else
        let s := r.1.acquire .pkg
        let got (l : Nat) : W64 := ((s.g.wallocGot.find? fun y => y.1 == l).map (·.2)).getD 0
        let s := ls.foldl (fun s l => s.logIn .walloc l (leBytes 8 (got l).toNat)) s
        let g := { s.g with wallocGot := [] }
        .done (s.setG (match f.d with
          | .s i => g.putS i.val ⟨(got (ls.headD 0)).toNat, false⟩
          | d => g.modLanes ls fun l x => x.putRegs g.wb d [⟨(got l).setWidth 32, false⟩, ⟨(got l >>> 32).setWidth 32, false⟩])) []

/-- The record that a lane sends: held by the lane from the node's pool, at the VA given. -/
def State.sendable (s : State) (n : Node) (who : Nat × Nat) (va : Nat) : Option Held :=
  s.t.held.find? fun h => h.owner == some who && h.pool == n.pool && ((s.gr.pool h.pool).va h.index).toNat == va

/-- A record published to a node's assembler (R402, R403, R474). -/
def State.sendRecord (s : State) (i l : Nat) (h : Held) : State :=
  let x := s.g.lane l
  let s := s.modT fun t => { t with held := t.held.erase h }
  let r : Gathered := { va := (s.gr.pool h.pool).va h.index, pool := h.pool, index := h.index, team := s.t.id, idx := s.g.idx, lane := s.g.key l, seq := x.wsends }
  let s := s.setG (s.g.setLane l { x with wsends := x.wsends + 1 })
  let n := s.gr.node i
  let n := { n with gathered := n.gathered ++ [r] }
  let s := s.modGr fun g => g.setNode i n
  if !s.gr.det && n.batch ≤ n.gathered.length then s.closeBatch s.foc.grid i else s

/-- WSEND (R336, R401): each active lane sends its record as a release at .pkg. The order of its checks is the model's (log entry 126). -/
def execWsend (p : Pred) (f : VF) (s : State) : Out :=
  s.perform false p (s.opsOk [(f.a, if f.a.isS then 1 else 2)]) fun s act =>
    s.nodeOf act f.b fun n =>
      let i := (s.rd 0 .b64 f.b).n
      let ls := if f.a.isS then (s.g.lanesOf act).take 1 else s.g.lanesOf act
      let s := s.release .pkg
      let r := ls.foldl (fun (x : State × List (Nat × Fail)) l =>
        let v := s.rd l .b64 f.a
        if v.poi then (x.1, x.2 ++ [(l, .poison f.a)])
        else
          match (if n.prod.getLsbD x.1.t.origin then x.1.sendable n (x.1.g.holder f.a.isS l) v.n else none) with
          | none => (x.1, x.2 ++ [(l, Fail.opndLate)])
          | some h => (x.1.sendRecord i l h, x.2)) (s, [])
      s.orWait true .pkg (.done r.1 (if f.a.isS then r.2.flatMap fun y => failAll s.g act y.2 else r.2))

/-! ## LAUNCH -/

/-- The slot of a queue at a count. -/
def Queue.slot (q : Queue) (n : W32) : Nat := q.base.toNat + 128 * (n.toNat % 2 ^ q.logn)

/-- LAUNCH (R336, R398): the record is read at issue and appended to the queue, or the queue does not take it. The order of its checks is
the model's (log entry 126). -/
def execLaunch (p : Pred) (f : VF) (s : State) : Out :=
  s.perform false p (fun _ => true) fun s act =>
    let a := s.rd 0 .b64 f.a
    let b := s.rd 0 .b64 f.b
    if f.d.isZ != s.gr.det then .done s (failAll s.g act .opndLate)
    else if a.poi then .done s (failAll s.g act (.poison f.a))
    else if b.poi then .done s (failAll s.g act (.poison f.b))
    else if 64 ≤ b.n then .done s (failAll s.g act .opndLate)
    else if a.n % 128 ≠ 0 then .done s (failAll s.g act { cause := cAlign })
    else
      s.withRun .engRead act (BitVec.ofNat 64 a.n) 128 fun s bs =>
        let q := s.pkg.queues.get {} b.n
        let put (s : State) (v : Nat) : Did :=
          let s := s.logIn .launch 0 (leBytes 8 v)
          match f.d with
          | .z i => .done (s.setG (s.g.setZreg i.val (BitVec.ofNat 64 v))) []
          | .s i => .done (s.setG (s.g.putS i.val ⟨v, false⟩)) []
          | _ => .done s []
        if !q.en || q.ctx ≠ s.foc.ctx || (q.tail - q.head).toNat = 2 ^ q.logn then put s 1
        else
          let s := s.release .pod
          s.orWait true .pod
            (put ((s.engineWrite s.foc.core (q.slot q.tail) 0 bs []).modPkg fun p => { p with queues := p.queues.set b.n { q with tail := q.tail + 1 } }) 0)

end Sys2Proof.Machine
end

