-- ==== Sys2Proof/Machine/Dist.lean ====
section
/-! DEFINITION. The distributor (R392 to R399): launch queues, the checks of a launch record and of its graph, the start of a
grid, placement under R182, R183 and R399, pre-emption requests, and the completion word. -/

namespace Sys2Proof.Machine

/-! ## The distributor's reads -/

/-- What the distributor finds of 8 bytes: a word, a fault, or a request to a peer. -/
inductive DistWord
  | word (w : W64)
  | flt (f : Flt)
  | wait
deriving DecidableEq, Repr

/-- 8 aligned bytes read for a context (R394, R396). -/
def State.distWord (s : State) (ctx : Nat) (acc : Acc) (va : W64) : State × DistWord :=
  let sent (pa : Nat) : Bool := s.pkg.peerOut.any fun q => q.dist && q.ctx == ctx && q.pa == pa
  match s.translateSent (s.ctxAt ctx).distFetched sent ctx acc va with
  | .error f => (s, .flt f)
  | .ok t =>
    if s.isLocal t.pa then
      let r := s.homeBytes t.pa 8 (pteCp t.pte)
      (r.1, if r.2.bad then .flt ⟨kEcc, BitVec.ofNat 64 t.pa⟩ else .word (BitVec.ofNat 64 (ofLe r.2.data)))
    else
      let c := s.ctxAt ctx
      match c.distFetched.find? fun r => r.pa == t.pa with
      | some r =>
        (s, match r.data with
            | some d => if r.bytePoi.any id then .flt ⟨kEcc, BitVec.ofNat 64 t.pa⟩ else .word (BitVec.ofNat 64 (ofLe d))
            | none => .flt ⟨kUnrouted, BitVec.ofNat 64 t.pa⟩)
      | none =>
        if sent t.pa then (s, .wait)
        else ((s.send { kind := .load, pa := t.pa, n := 8, dist := true, ctx }).1, .wait)

/-- n words from a VA: their bytes, the lowest word that cannot be read, and whether a peer has still to answer for a word before it. -/
def State.distRead (s : State) (ctx : Nat) (acc : Acc) (va : W64) (n : Nat) : State × List Byte × Option (W64 × Flt) × Bool :=
  (List.range n).foldl (fun x i =>
    if x.2.2.1.isSome || x.2.2.2 then x
    else
      let a := va + BitVec.ofNat 64 (8 * i)
      match x.1.distWord ctx acc a with
      | (s, .word w) => (s, x.2.1 ++ leBytes 8 w.toNat, none, false)
      | (s, .flt f) => (s, x.2.1, some (a, f), false)
      | (s, .wait) => (s, x.2.1, none, true)) (s, [], none, false)

/-- What came of the distributor's requests, forgotten. -/
def State.distForget (s : State) (ctx : Nat) : State := s.setCtxAt ctx { s.ctxAt ctx with distFetched := [] }

/-- A record of the distributor (R394, R396). -/
def distRec (kind : Nat) (acc : Acc) (va : W64) (gid : W32) (aux : W64) : FRec :=
  { kind, access := acc.code, va, grid := gid, team := 0xFFFFFFFF, group := 0xFF, aux }

/-! ## Launch records (R392, R394) -/

def parseLaunch (b : List Byte) : LaunchRec :=
  let w (lo n : Nat) : Nat := ofLe ((b.drop lo).take n)
  let q (lo : Nat) : W64 := BitVec.ofNat 64 (w lo 8)
  { entry := q 0, trapv := q 8, argp := q 16, rngkey := q 24, rspill := q 32, tspill := q 40, graph := q 48, done := q 56, dep0 := q 64, dep1 := q 72
    nteam := BitVec.ofNat 32 (w 80 4), gid := BitVec.ofNat 32 (w 84 4), scratch := w 88 4, tape := w 92 4, rslice := w 96 4, tseg := w 100 4
    energy := w 104 4, pbud := w 108 2, cbud := w 110 2, nbar := w 112 2, gw0 := w 114 1, p := w 115 1, c := w 116 1, split := w 117 1
    tssize := w 118 1, flags := BitVec.ofNat 8 (w 119 1) }

/-- A VA field: canonical, and a multiple of n. -/
def vaOk (n : Nat) (va : W64) : Bool := canonical va && va.toNat % n == 0
def budgetOk (b : Nat) : Bool := 16 ≤ b && b ≤ 256 && b % 8 == 0
/-- The team shape of R180 and the tape of R167. -/
def LaunchRec.shapeOk (r : LaunchRec) : Bool :=
  (r.gw0 == 8 || r.gw0 == 16 || r.gw0 == 32 || r.gw0 == 64) && r.p ≤ 63 && 1 ≤ r.c && r.c ≤ 64 && r.ngroups ≤ 64 && r.ngroups * r.gw0 ≤ 1024
    && budgetOk r.pbud && budgetOk r.cbud && (r.split == 1 || r.split == 2 || r.split == 4) && 8 ≤ r.gw0 / r.split
    && (r.tape == 0 || r.tape % (256 * r.ngroups) == 0 && 4096 ≤ r.tape / r.ngroups)
/-- The features that a record needs are enabled (R451). -/
def LaunchRec.featOk (r : LaunchRec) (p : Pkg) : Bool :=
  (!r.flag 0 || p.featEn.getLsbD 0) && (!r.flag 1 || p.featEn.getLsbD 1) && (r.tape == 0 || p.featEn.getLsbD 4)
/-- The checks of R394 on the record alone, but for DONE; `reserved` is its bytes 120 to 127. -/
def LaunchRec.ok (r : LaunchRec) (reserved : List Byte) (p : Pkg) : Bool :=
  reserved.all (· == 0) && r.flags.toNat < 64 && r.nteam != 0 && 1 ≤ r.tssize && r.tssize ≤ 96 && r.rslice % 64 == 0 && r.tseg % 256 == 0
    && vaOk 8 r.entry && vaOk 8 r.trapv && vaOk 1 r.argp && vaOk 64 r.rspill && vaOk 256 r.tspill && vaOk 64 r.graph && vaOk 8 r.dep0 && vaOk 8 r.dep1
    && r.shapeOk && r.allocSize ≤ 392192 && r.featOk p

/-! ## The graph record (R400) -/

def parseNode (b : List Byte) : Node :=
  let w (lo n : Nat) : Nat := ofLe ((b.drop lo).take n)
  { entry := BitVec.ofNat 64 (w 0 8), prod := BitVec.ofNat 64 (w 8 8), batch := w 16 1, pool := w 17 1, timeout := BitVec.ofNat 32 (w 20 4) }
def nodeOk (nn np : Nat) (b : List Byte) : Bool :=
  let n := parseNode b
  vaOk 8 n.entry && n.prod.toNat < 2 ^ (nn + 1) && 1 ≤ n.batch && n.batch ≤ 64 && n.pool < np && ofLe ((b.drop 18).take 2) == 0 && ofLe ((b.drop 24).take 8) == 0
def parsePool (b : List Byte) : Pool :=
  let w (lo n : Nat) : Nat := ofLe ((b.drop lo).take n)
  { base := BitVec.ofNat 64 (w 0 8), records := w 8 4, recsize := w 12 2, free := List.range (w 8 4) }
def poolOk (b : List Byte) : Bool :=
  let w (lo n : Nat) : Nat := ofLe ((b.drop lo).take n)
  vaOk 16 (BitVec.ofNat 64 (w 0 8)) && 1 ≤ w 8 4 && w 8 4 ≤ 65535 && 16 ≤ w 12 2 && w 12 2 ≤ 4096 && w 12 2 % 16 == 0 && w 14 2 == 0

/-- The nodes that can be reached in order: those whose producer nodes stand before them, round by round. -/
def settled (ns : List Node) : Nat → List Nat → List Nat
  | 0, done => done
  | k + 1, done =>
    settled ns k ((List.range ns.length).filter fun i =>
      (List.range ns.length).all fun j => !((bankGet ns {} i).prod.getLsbD (j + 1)) || done.contains j)
/-- PROD forms no cycle. -/
def acyclic (ns : List Node) : Bool := (settled ns ns.length []).length == ns.length

/-- A graph record read and checked (R394, R400): its nodes and pools, whether it is good, the byte that could not be read, and
whether a peer has still to answer. -/
def State.readGraph (s : State) (ctx : Nat) (r : LaunchRec) : State × List Node × List Pool × Bool × Option (W64 × Flt) × Bool :=
  if r.graph == 0 then (s, [], [], true, none, false)
  else
    match s.distRead ctx .engRead r.graph 8 with
    | (s, _, some f, wait) => (s, [], [], false, some f, wait)
    | (s, h, none, true) => let _ := h; (s, [], [], false, none, true)
    | (s, h, none, false) =>
      let nn := ofLe (h.take 1)
      let np := ofLe ((h.drop 1).take 1)
      if nn < 1 || 63 < nn || np < 1 || 16 < np || (h.drop 2).any (· != 0) then (s, [], [], false, none, false)
      else
        match s.distRead ctx .engRead (r.graph + 64) (4 * nn + 2 * np) with
        | (s, _, some f, wait) => (s, [], [], false, some f, wait)
        | (s, _, none, true) => (s, [], [], false, none, true)
        | (s, b, none, false) =>
          let nb := tab nn fun i => (b.drop (32 * i)).take 32
          let pb := tab np fun j => (b.drop (32 * nn + 16 * j)).take 16
          let ns := nb.map parseNode
          let ok := nb.all (nodeOk nn np) && pb.all poolOk && acyclic ns && 8 * ns.foldl (fun m n => max m n.batch) 0 ≤ r.scratch
          (s, ns, pb.map parsePool, ok, none, false)

/-! ## Completion words -/

/-- The queue's vector after a completion word (R397). -/
def State.queueVector (s : State) (queue : Nat) : State := if (s.pkg.queues.get {} queue).ie then s.raise (256 + queue) else s

/-- A completion word written for a context, and then its queue's vector, which a word bound for a peer puts off to its reply; or the
record when DONE can no longer be reached (R104, R394, R396, R397). -/
def State.writeDone (s : State) (ctx queue : Nat) (r : LaunchRec) (cause : Half) : State :=
  let w := leBytes 8 (2 ^ 63 + cause.toNat)
  match s.translateUnit ctx .engWrite r.done with
  | .error f => s.recordUnit ctx .dist (distRec kBadDone .none r.done r.gid (BitVec.ofNat 64 f.kind)) true
  | .ok t =>
    if s.isLocal t.pa then (s.homeWrite t.pa (pteCp t.pte) w []).queueVector queue
    else
      (s.send { kind := .store, pa := t.pa, n := 8, data := w, ctx, done := some queue,
                frec := { distRec kUnrouted .none r.done r.gid (BitVec.ofNat 64 t.pa) with access := Acc.store.code } }).1

/-! ## Taking a record -/

/-- A queue's tail set (R397). -/
def State.setTail (s : State) (queue : Nat) (tail : W32) : State :=
  if 64 ≤ queue then s else s.modPkg fun p => { p with queues := p.queues.set queue { p.queues.get {} queue with tail } }
/-- LQTAIL_WRITE (R397, R103): a queue's tail set by the host, after every earlier access of the host has performed. -/
def execLqtailWrite (queue : Nat) (tail : W32) (s : State) : Out := s.regEvent (if s.hostWaits then s.hostQueue (.tail queue tail) else s.setTail queue tail)

/-- DONE of a record (R394): none when it can take a word, otherwise the AUX of its Bad Completion record. -/
def State.doneFault (s : State) (ctx : Nat) (r : LaunchRec) : Option W64 :=
  if r.done.toNat % 8 ≠ 0 then some 0
  else match s.translateUnit ctx .engWrite r.done with | .ok _ => none | .error f => some (BitVec.ofNat 64 f.kind)

/-- A queue has a record that the distributor may take now (R45, R397, R429). -/
def State.canTake (s : State) (queue : Nat) : Bool :=
  let q := s.pkg.queues.get {} queue
  let c := s.ctxAt q.ctx
  q.en && q.head != q.tail && !c.holds .dist && c.ctxState == 0

/-- LAUNCH_RECORD_TAKE (R394, R397): the record at HEAD is taken and checked; it is refused, or its grid is pending. -/
def execLaunchRecordTake (queue : Nat) (s : State) : Out :=
  if !s.canTake queue then .next s
  else
    let q := s.pkg.queues.get {} queue
    let ctx := q.ctx
    let (s', x) := s.homeBytes (q.slot q.head) 128 noCp
    let b := x.data
    let r := parseLaunch b
    let took (s : State) : State := (s.modPkg fun p => { p with queues := p.queues.set queue { q with head := q.head + 1 } }).distForget ctx
    let go (t : State) : Out := .next (s.unmet t)
    let refuse (t : State) : Out := go (took (t.writeDone ctx queue r 0xFFFF))
    match s'.doneFault ctx r with
    | some aux => go (took (s'.recordUnit ctx .dist (distRec kBadDone .none r.done r.gid aux) true))
    | none =>
      if x.bad || !r.ok (b.drop 120) s.pkg then refuse s'
      else
        match s'.readGraph ctx r with
        | (s, _, _, _, none, true) => go s
        | (s, _, _, _, some f, _) => refuse (s.recordUnit ctx .dist (distRec f.2.kind .engRead f.1 r.gid f.2.aux) false)
        | (s, _, _, false, none, false) => refuse s
        | (s, ns, ps, true, none, false) =>
          let (s, k) := (took s).freshId
          let (s, o) := s.freshOrder
          go (s.setGridAt k { lrec := r, queue, ctx, order := o, nodes := ns, pools := ps })

/-! ## The start of a grid -/

/-- A grid of the context taken before one still runs, and may still complete steps (R388; log entry 98). -/
def State.earlierRuns (s : State) (grid : Nat) : Bool :=
  let gr := s.gridAt grid
  s.grids.any fun e => e.2.ctx == gr.ctx && e.2.order < gr.order && e.2.phase == .running
/-- A DET grid waits for every step of earlier grids (R388). -/
def State.stepsDue (s : State) (grid : Nat) : Bool :=
  let gr := s.gridAt grid
  let c := s.ctxAt gr.ctx
  gr.det && (c.rcBusy || c.rcPending.isSome || !c.rcFreeze && 4096 ≤ c.rcQueue.length || s.earlierRuns grid)

/-- A dependence word (R396): set; not set, with the record of its first failed read; or waited for. -/
def State.depWord (s : State) (grid : Nat) (va : W64) (bad : Bool) : State × Bool × Bool :=
  let gr := s.gridAt grid
  if va == 0 then (s, true, bad)
  else
    match s.distWord gr.ctx .engRead va with
    | (s, .word w) =>
      let c := s.ctxAt gr.ctx
      let s := s.setCtxAt gr.ctx { c with distFetched := c.distFetched.filter fun r => match s.walk gr.ctx va with | .ok p => r.pa != p.pa va | .error _ => true }
      (s, w.getLsbD 63, bad)
    | (s, .wait) => (s, false, bad)
    | (s, .flt f) =>
      ((if bad then s else s.recordUnit gr.ctx .dist (distRec f.kind .engRead va gr.lrec.gid f.aux) true).distForget gr.ctx, false, true)

/-- A header that is to have a KIND (R228): checked when it can be read now; `none` while a peer has still to answer. -/
def State.headerFits (s : State) (ctx : Nat) (va : W64) (k : HKind) : State × Option Bool :=
  match s.distWord ctx .fetch va with
  | (s, .word w) => (s, some (match decodeHeader w with | some h => h.kind == k | none => false))
  | (s, .flt _) => (s, some true)
  | (s, .wait) => (s, none)

/-- A pending grid can be looked at: its context is enabled and not switched out (R44, R429). -/
def State.canStart (s : State) (grid : Nat) : Bool :=
  let gr := s.gridAt grid
  let c := s.ctxAt gr.ctx
  gr.phase == .pending && c.root.getLsbD 0 && c.ctxState == 0 && !c.holds .dist && !s.stepsDue grid

/-- GRID_START (R396, R228): the dependence words are read; when all are set the headers are checked and the grid runs. -/
def execGridStart (grid : Nat) (s : State) : Out :=
  if !s.canStart grid then .next s
  else
    let gr := s.gridAt grid
    let r := gr.lrec
    let go (t : State) : Out := .next (s.unmet t)
    let (s, d0, b0) := s.depWord grid r.dep0 gr.dep0Bad
    let (s, d1, b1) := s.depWord grid r.dep1 gr.dep1Bad
    let gr := { gr with dep0Bad := b0, dep1Bad := b1 }
    let s := s.setGridAt grid gr
    if !d0 || !d1 then go s
    else
      let (s, e) := s.headerFits gr.ctx r.entry .grid
      let (s, t) := if r.trapv == 0 then (s, some true) else s.headerFits gr.ctx r.trapv .trap
      match e, t with
      | some true, some true =>
        go ((s.distForget gr.ctx).setGridAt grid { gr with phase := .running, startVersion := (s.ctxAt gr.ctx).rcVersion })
      | none, _ => go s
      | _, none => go s
      | _, _ => go (((s.distForget gr.ctx).setGridAt grid { gr with phase := .running }).endGrid grid cIllHdr 0)

/-! ## Room (R182, R399) -/

/-- Lane-registers, slots and lanes that a team of the shape takes of quarter q (R182). -/
def LaunchRec.need (r : LaunchRec) (q : Nat) : Nat × Nat × Nat :=
  let gs := (List.range r.ngroups).filter fun g => g % 4 == q
  ((gs.map fun g => (if g < r.p then r.pbud else r.cbud) * r.gw0).sum, r.split * gs.length, r.gw0 * gs.length)

/-- What the groups placed on a core take of quarter q: whole groups, until they retire; a team just seated takes what it needs. -/
def State.quarterUse (s : State) (core q : Nat) : Nat × Nat × Nat :=
  let seated := (s.teams.filter fun e => e.2.phase == .resident && e.2.core == core && e.2.groups.isEmpty).foldl (fun x e =>
    let n := (s.gridAt e.2.grid).lrec.need q
    (x.1 + n.1, x.2.1 + n.2.1, x.2.2 + n.2.2)) ((0, 0, 0) : Nat × Nat × Nat)
  s.groups.foldl (fun x e =>
    let g := e.2
    let t := s.teamAt g.team
    if g.parent.isNone && g.phase != .retired && t.phase == .resident && t.core == core && g.idx % 4 == q then
      let r := (s.gridAt t.grid).lrec
      (x.1 + g.budget * r.gw0, x.2.1 + r.split, x.2.2 + r.gw0)
    else x) seated
def State.quartersFit (s : State) (core : Nat) (r : LaunchRec) : Bool :=
  (List.range 4).all fun q =>
    let u := s.quarterUse core q
    let n := r.need q
    u.1 + n.1 ≤ 16384 && u.2.1 + n.2.1 ≤ 16 && u.2.2 + n.2.2 ≤ 512

/-- The allocations standing in a core's scratchpad: bases and sizes. -/
def State.allocs (s : State) (core : Nat) : List (Nat × Nat) :=
  (s.teams.filter fun e => e.2.core == core && e.2.size ≠ 0).map fun e => (e.2.base, e.2.size)
/-- The lowest multiple of 768 at which n bytes fit in a core's scratchpad (R28). -/
def State.scrRoom (s : State) (core n : Nat) : Option Nat :=
  let as := s.allocs core
  (sortBy (· ≤ ·) (0 :: as.map fun a => (a.1 + a.2 + 767) / 768 * 768)).find? fun b =>
    b + n ≤ 393216 && as.all fun a => b + n ≤ a.1 || a.1 + a.2 ≤ b
/-- The ports of a core are free (R125, R399). -/
def State.portsFree (s : State) (core : Nat) : Bool :=
  !s.teams.any fun e => e.2.core == core && e.2.phase == .resident && (s.gridAt e.2.grid).streams
/-- The account of a cluster covers a team (R399, R462), in units of 10^-14 J. -/
def State.energyFits (s : State) (core n : Nat) : Bool :=
  n = 0 || (n * 100000 : Int) ≤ bankGet s.accounts 0 (core / 96) - Int.ofNat (bankGet s.pkg.reserved 0 (core / 96))
/-- A team of a grid fits on a core; `ported` for one that needs quarters at all. -/
def State.coreFits (s : State) (core : Nat) (r : LaunchRec) (retired : Bool) : Bool :=
  core < 1536 && (s.scrRoom core r.allocSize).isSome && (retired || s.quartersFit core r && (!r.flag 1 || s.portsFree core) && s.energyFits core r.energy)

/-! ## Placement -/

/-- The start state of a group (R47, R393, R395). -/
def freshGrp (gr : Grid) (t : Team) (team i : Nat) (bound : Option W32) : Grp :=
  let r := gr.lrec
  let (entry, k) : W64 × HKind := match t.node with | some x => ((gr.node x.1).entry, .node) | none => (r.entry, .grid)
  let s : List SReg := [⟨r.argp, false⟩] ++ match t.node with
    | some x => [⟨BitVec.ofNat 64 t.batch.length, false⟩, ⟨BitVec.ofNat 64 x.1, false⟩]
    | none => []
  { team, idx := i, gw := r.gw0, budget := if i < r.p then r.pbud else r.cbud, s,
    lanes := List.replicate r.gw0 { pc := entry, bb := entry, reach := .header k }
    spillOff := (t.id.toNat * r.ngroups + i) * r.rslice, spillLen := r.rslice, rcBound := bound.getD 0
    rcDue := if bound.isSome then 0 else t.syncO }

/-- The scratchpad of a team first placed (R404, R465): its barrier objects, its batch, and over the rest zero or what a team of
the context left there. -/
def firstScr (r : LaunchRec) (batch : List W64) (left : List Host.Cell) : List Host.Cell :=
  let o : BarObj := { expl := r.ngroups * r.gw0 }
  let m := left.filter fun c => c.1 < r.allocSize
  let m := (List.range r.nbar).foldl (fun m i => memWrite m (r.barBase + 16 * i) o.bytes) m
  memWrite m 0 (batch.flatMap fun va => leBytes 8 va.toNat)

/-- What teams of a context left in some bytes of a core's scratchpad: each byte is that or zero, by a free choice for each (R465). -/
def State.leftAt (s : State) (core ctx base size : Nat) : List Host.Cell :=
  ((((s.coreAt core).leftScr.find? fun x => x.1 == ctx).map (·.2)).getD []).filterMap fun c =>
    if base ≤ c.1 && c.1 < base + size && Config.freeBool (s.freeKey (Nat.pair 6 c.1)) then some (c.1 - base, c.2) else none

/-- The version that a team's groups start bound to (R388); none where V(y) has still to be published (log entry 100). -/
def State.startBound (s : State) (gr : Grid) (t : Team) : Option W32 :=
  if !gr.det then some (s.ctxAt gr.ctx).rcVersion else if t.syncO = 0 then some gr.startVersion else gr.versions[t.syncO - 1]?

/-- A team put on a core with room: its allocation, energy and place in the placement sequence. -/
def State.seat (s : State) (k core : Nat) : Option State :=
  let t := s.teamAt k
  let r := (s.gridAt t.grid).lrec
  let retired := t.phase == .retired
  if !s.coreFits core r retired then none
  else
    let base := (s.scrRoom core r.allocSize).getD 0
    let (s, o) := s.freshOrder
    let n := if retired then 0 else r.energy * 100000
    let ctx := (s.gridAt t.grid).ctx
    let s := if retired then s else s.setCtxAt ctx { s.ctxAt ctx with pmcRun := true }
    let s := s.setTeamAt k { t with core, base, size := r.allocSize, reserved := n, order := o, phase := if retired then .retired else .resident, preReq := false, letGo := false }
    some (s.modPkg fun p => { p with reserved := bankPut 0 p.reserved (core / 96) (bankGet p.reserved 0 (core / 96) + n) })

/-- A new team placed for the first time; it sees what its grid acquired as it started (R104), and nothing older in its core's
L1. -/
def State.placeTeam (s : State) (k core : Nat) (keep : Bool) : Option State :=
  match s.seat k core with
  | none => none
  | some s =>
    let s := s.dropValid core fun _ => true
    let t := s.teamAt k
    let gr := s.gridAt t.grid
    let left := if keep then s.leftAt core gr.ctx t.base t.size else []
    let (s, gs) := (List.range gr.lrec.ngroups).foldl (fun (x : State × List Nat) i =>
      let (s, id) := x.1.freshId
      (s.setGrpAt id (freshGrp gr t k i (s.startBound gr t)), x.2 ++ [id])) (s, [])
    some (s.setTeamAt k { s.teamAt k with scr := firstScr gr.lrec t.batch left, groups := gs })

/-- The team of the lowest id among some (R399). -/
def State.lowestTeam (s : State) (ks : List Nat) : Option Nat := (sortBy (fun a b => (s.teamAt a).id.toNat ≤ (s.teamAt b).id.toNat) ks).head?
/-- The next teams of a grid to be placed (R399, R402): the waiting node team of the lowest id, or the next team set, created now. -/
def State.nextTeams (s : State) (grid : Nat) : State × List Nat :=
  let gr := s.gridAt grid
  match s.lowestTeam ((s.teams.filter fun e => e.2.grid == grid && e.2.phase == .pending && e.2.node.isSome).map (·.1)) with
  | some k => (s, [k])
  | none =>
    let n := min gr.lrec.tssize (gr.lrec.nteam.toNat - gr.nextTeam)
    let r := (List.range n).foldl (fun (x : State × List Nat) i =>
      let (s, id) := x.1.freshId
      (s.setTeamAt id { grid, id := BitVec.ofNat 32 (gr.nextTeam + i) }, x.2 ++ [id])) (s, [])
    (r.1.setGridAt grid { gr with nextTeam := gr.nextTeam + n }, r.2)

/-- Teams placed on cores one after another; none if any does not fit. -/
def State.placeAll (s : State) (keep : Bool) : List Nat → List Nat → Option State
  | [], _ => some s
  | _ :: _, [] => none
  | t :: ts, c :: cs => match s.placeTeam t c keep with | some s => s.placeAll keep ts cs | none => none

/-- The grid has a team that waits to be placed, and may place it (R399, R429). -/
def State.wantsPlace (s : State) (grid : Nat) : Bool :=
  let gr := s.gridAt grid
  let c := s.ctxAt gr.ctx
  gr.phase == .running && c.ctxState == 0 && c.root.getLsbD 0
    && (!gr.allCreated || s.teams.any fun e => e.2.grid == grid && e.2.phase == .pending)

/-- The cores chosen for some teams lie in one cluster (R183). -/
def oneCluster (cores : List Nat) : Bool := cores.all fun c => c / 96 == cores.headD 0 / 96

/-- The next teams of a grid placed on some cores. -/
def State.tryPlace (s : State) (grid : Nat) (cores : List Nat) (keep : Bool) : Option State :=
  let (s, ts) := s.nextTeams grid
  if ts.isEmpty || !oneCluster cores then none else s.placeAll keep ts (cores.take ts.length)

/-- Cores of a cluster for n teams of a grid, each the lowest with room after those before it. -/
def State.coresIn (s : State) (cluster : Nat) : List Nat → Option (List Nat)
  | [] => some []
  | t :: ts =>
    let r := (s.gridAt (s.teamAt t).grid).lrec
    match (List.range 96).find? fun i => s.coreFits (96 * cluster + i) r ((s.teamAt t).phase == .retired) with
    | none => none
    | some i => ((s.seat t (96 * cluster + i)).bind fun s => s.coresIn cluster ts).map fun cs => (96 * cluster + i) :: cs
/-- The first cluster that takes some teams, with a core for each. -/
def State.coresFor (s : State) (ts : List Nat) : Option (List Nat) := (List.range 16).findSome? fun c => s.coresIn c ts
/-- Where the next teams of a grid fit, if anywhere. -/
def State.roomFor (s : State) (grid : Nat) : Option (List Nat) := let r := s.nextTeams grid; if r.2.isEmpty then none else r.1.coresFor r.2

/-- The order of the pending grids (R399). -/
def State.gridBefore (s : State) (a b : Nat) : Bool :=
  let ga := s.gridAt a
  let gb := s.gridAt b
  gb.prio < ga.prio || ga.prio == gb.prio && ga.order ≤ gb.order

/-! ## Pre-emption (R199, R399, R424) -/

/-- A group stands at a blocking point (R199); a handler stands at none (R415). -/
def Grp.blocked (g : Grp) : Bool :=
  g.handler.isNone &&
    (g.stopped && g.mmaPend.isNone
      || (match g.stall with
        | .none => false
        | .tile _ _ _ _ _ => false
        | .reply _ => false
        | .fill => false
        | .release => false
        | _ => true)
      || g.stall == .none && g.mmaPend.isNone && g.laneIdx.all fun l => (g.lane l).st == .waiting || (g.lane l).st == .exited)
/-- The groups and parts of a team that run. -/
def State.running (s : State) (team : Nat) : List Grp := (s.groups.filter fun e => e.2.team == team && e.2.phase == .running).map (·.2)
/-- The teams of a team's set that have been placed (R32, R183). -/
def State.setOf (s : State) (team : Nat) : List Nat :=
  let t := s.teamAt team
  let z := (s.gridAt t.grid).lrec.tssize
  if t.node.isSome then [team]
  else (s.teams.filter fun e => e.2.grid == t.grid && e.2.node.isNone && e.2.id.toNat / z == t.id.toNat / z).map (·.1)
def State.allBlocked (s : State) (team : Nat) : Bool := (s.setOf team).all fun k => (s.running k).all Grp.blocked

/-- An epoch close or a sync point of a grid, by its number. -/
inductive Milestone
  | close (e : Nat)
  | sync (n : Nat)
deriving DecidableEq, Repr
/-- The objects into which closes and sync points will count bytes for a team. -/
def Team.milestones (t : Team) : List (Milestone × BarName) :=
  (t.flushNamed.map fun x => (.close (t.epochOf x.1).toNat, x.2)) ++ (t.flushBars.map fun x => (.close x.1, x.2)) ++ t.syncBars.map fun x => (.sync x.1, x.2)
/-- The object that a lane waits for, in BWAIT or in BARRIVE.l. -/
def Lane.waitsOn (x : Lane) : Option BarName :=
  match x.st, x.wait with
  | .waiting, .bwait b _ _ _ _ => some b
  | .waiting, .arriveL b _ _ _ _ _ => some b
  | _, _ => none
/-- The closes and sync points whose bytes lanes of a team wait for, in its own objects or in those of its set (R145, R388). -/
def State.awaits (s : State) (team : Nat) : List Milestone :=
  let on := (s.running team).flatMap fun g => g.laneIdx.filterMap fun l => (g.lane l).waitsOn
  let due := (s.setOf team).flatMap fun k => (s.teamAt k).milestones
  (due.filter fun x => on.any x.2.same).map (·.1)
/-- A team has still to come to a close or a sync point before it can happen (R143, R388, R482). -/
def Team.mustReach (t : Team) : Milestone → Bool
  | .close e => t.phase != .retired && t.epochO + t.gridFlushed ≤ e
  | .sync n => t.phase != .retired && t.syncO + t.syncs < n
/-- The teams of a grid that are to be placed next when no room holds them: a saved set, or new teams. -/
def State.unplaced (s : State) (grid : Nat) (saved : Option Nat) : List Team :=
  match saved with
  | some k => (s.setOf k).map s.teamAt
  | none => let r := s.nextTeams grid; r.2.map r.1.teamAt

/-- A resident team waits for a close or a sync point that one of some unplaced teams must reach (R399, case 2). -/
def State.holdsUp (s : State) (us : List Team) (team : Nat) : Bool := (s.awaits team).any fun m => us.any fun u => u.mustReach m
/-- A resident team that the distributor pre-empts for unplaced teams of a grid (R399). -/
def State.victim (s : State) (grid : Nat) (us : List Team) (team : Nat) : Bool :=
  let gr := s.gridAt grid
  let t := s.teamAt team
  let o := s.gridAt t.grid
  t.phase == .resident && !t.preReq && s.allBlocked team
    && (o.prio < gr.prio || t.grid == grid && gr.det && s.holdsUp us team)

/-- A saved set that was let go for unplaced teams of its DET grid leaves the room to them: it waits for a close or a sync point that such
a team, not yet placed, must reach. Any other saved team comes before every team not yet placed (R399; log entry 99). -/
def State.deferred (s : State) (team : Nat) : Bool :=
  let t := s.teamAt team
  let gr := s.gridAt t.grid
  let new := (s.teams.filter fun e => e.2.grid == t.grid && e.2.phase == .pending).map (·.2) ++ if gr.allCreated then [] else [{ grid := t.grid }]
  gr.det && ((s.setOf team).any fun k => (s.teamAt k).letGo) && (s.setOf team).any (s.holdsUp new)
/-- A saved team may be placed again (R427, R429); a context that resumes takes all of its saved teams (R430). -/
def State.canRestore (s : State) (team : Nat) : Bool :=
  let t := s.teamAt team
  let gr := s.gridAt t.grid
  let c := s.ctxAt gr.ctx
  t.phase == .saved && gr.phase == .running && (c.ctxState == 0 && !s.deferred team || c.ctxState == 3) && c.root.getLsbD 0
/-- The saved team of a grid that is placed next, the lowest id first: ahead of every team of the grid not yet placed (R399). -/
def State.nextSaved (s : State) (grid : Nat) : Option Nat :=
  s.lowestTeam (s.teams.keys.filter fun k => (s.teamAt k).grid == grid && s.canRestore k)
/-- Where what a grid has pending fits now, if anywhere. -/
def State.roomNow (s : State) (grid : Nat) : Option (List Nat) :=
  match s.nextSaved grid with
  | some t => s.coresFor (s.setOf t)
  | none => if s.wantsPlace grid then s.roomFor grid else none
/-- A grid before one in the order has something pending that fits (R399). -/
def State.outranked (s : State) (grid : Nat) : Bool :=
  s.grids.keys.any fun k => k != grid && s.gridBefore k grid && (s.roomNow k).isSome

/-- TEAM_PLACEMENT (R399, R32, R465): the next team or team set of a grid is placed on the cores given, unless a grid before it in
order has something to place that fits, or a saved team of the grid comes first. When what the grid has pending fits on no core at all,
a resident team on the first of the cores that R399 lets go is requested. -/
def execTeamPlacement (grid : Nat) (cores : List Nat) (keep : Bool) (s : State) : Out :=
  let next := s.nextSaved grid
  let saved := next.isSome
  if !saved && !s.wantsPlace grid || s.outranked grid then .next s
  else
    match (if saved then none else s.tryPlace grid cores keep) with
    | some s => .next s
    | none =>
      if (s.roomNow grid).isSome then .next s
      else
        match s.teams.find? fun e => cores.contains e.2.core && s.victim grid (s.unplaced grid next) e.1 with
        | some e => .next (s.setTeamAt e.1 { e.2 with preReq := true, letGo := (s.gridAt grid).prio ≤ (s.gridAt e.2.grid).prio })
        | none => .next s

/-- PRE_EMPTION_WITHDRAW (R424). -/
def execPreEmptionWithdraw (team : Nat) (s : State) : Out :=
  let t := s.teamAt team
  if t.preReq && (s.ctxAt (s.gridAt t.grid).ctx).ctxState == 0 then .next (s.setTeamAt team { t with preReq := false, letGo := false }) else .next s

/-! ## The end of a grid -/

/-- A group, or a record of it, belongs to a grid. -/
def State.ofGrid (s : State) (grid grp ctx : Nat) (gid : W32) : Bool :=
  let gr := s.gridAt grid
  ctx == gr.ctx && (gid == gr.lrec.gid || (s.grpAt grp).team ∈ ((s.teamsOf grid).map (·.1)))
/-- Stores, partials and writes to peers of a grid that have still to perform, in every core (R104, R396). -/
def State.gridBusy (s : State) (grid : Nat) : Bool :=
  (s.pkg.peerOut.any fun q => !q.dist && q.done.isNone && q.lost.isNone && (q.kind == .store || q.kind == .rmw) && s.ofGrid grid q.grp q.ctx q.frec.grid)
    || s.cores.any fun e => (e.2.wbuf.any fun w => s.ofGrid grid w.grp w.ctx w.frec.grid) || e.2.l1.any fun l => l.words.any fun w => w.grid == grid

/-- The samples of a DET grid have met their last sync point, and the stream holds no whole step (R388). -/
def State.syncsDone (s : State) (grid : Nat) : Bool :=
  let gr := s.gridAt grid
  let c := s.ctxAt gr.ctx
  !gr.det || gr.samples.isEmpty && (s.teamsOf grid).all (fun t => t.2.syncBars.isEmpty)
    && (c.rcFreeze || c.rcQueue.length < 4096) && !c.rcBusy && c.rcPending.isNone

/-- A running grid has nothing left to do (R396). -/
def State.gridDone (s : State) (grid : Nat) : Bool :=
  let gr := s.gridAt grid
  gr.phase == .running && gr.allCreated && ((s.teamsOf grid).all fun t => t.2.phase == .retired)
    && (gr.nodes.all fun n => n.drained && n.gathered.isEmpty) && gr.flight.isEmpty && gr.staged.isEmpty
    && ((s.teamsOf grid).all fun t => t.2.flushBars.isEmpty && t.2.cmds.isEmpty && t.2.colls.isEmpty && t.2.pushes.isEmpty) && s.syncsDone grid

/-- A killed context runs again once the completion words of its grids have been written (R431). -/
def State.endKill (s : State) (ctx : Nat) : State :=
  let c := s.ctxAt ctx
  if c.killing && s.grids.all fun e => e.2.ctx != ctx || e.2.phase != .ended then s.setCtxAt ctx { c with killing := false, ctxState := 0 } else s

/-- GRID_COMPLETION (R396, R423): the completion word as a release at .pod (R104): every store and partial of the grid is sent home,
and the word is written once nothing of the grid has still to perform. -/
def execGridCompletion (grid : Nat) (s : State) : Out :=
  let gr := s.gridAt grid
  if gr.phase == .ended || s.gridDone grid then
    let s' := s.cores.keys.foldl (fun s k => s.flushCore k) s
    if s'.met ≠ s.met then .next s
    else if s'.gridBusy grid then .next s'
    else
      let s' := { s' with
        teams := s'.teams.update fun _ t => if t.grid == grid then { t with cmds := [], colls := [], pushes := [], size := 0 } else t
        groups := s'.groups.update fun _ g => if (s.teamAt g.team).grid == grid then { g with flags := [], fdone := [], replies := [] } else g }
      let s' := s'.writeDone gr.ctx gr.queue gr.lrec gr.cause
      .next (s.unmet ((s'.setGridAt grid { s'.gridAt grid with phase := .done }).endKill gr.ctx))
  else .next s

end Sys2Proof.Machine
end

