-- ==== Sys2Proof/Machine/LaneOps.lean ====
section
/-! DEFINITION. The LANE instructions (major 0x0A, R302 to R307): exchanges between lanes, the trees of REDUX and SCAN (R219,
R220), and a handler's access to lanes. -/

namespace Sys2Proof.Machine

/-! ## Exchanges -/

/-- A register group that an operand names lies in the window, whether or not the lane comes to read it (R49). -/
def Grp.winOk (g : Grp) (n : Nat) : Opnd → Bool | .v i => i.val + n ≤ g.win | _ => true
/-- A word that gives each active lane A of another lane, or C of its own where `src` names none; the rest of A's step 7 is that of
the lane read (R302, R303). -/
def State.exchange (s : State) (p : Pred) (f : VF) (own : List Opnd) (src : State → Nat → Option Nat) (ixPoi : State → Nat → Bool) : Out :=
  let regs := f.ty.regs
  s.perform false p (fun l => s.g.opOk l regs f.d && s.opsOk (withRegs 1 own) l
      && s.g.winOk regs f.a && s.g.winOk regs f.c && (match src s l with | some j => s.g.opOk j regs f.a | none => s.g.opOk l regs f.c))
    fun s act =>
      let g := s.g.modLanes (s.g.lanesOf act) fun l x =>
        let v := match src s l with | some j => s.rd j f.ty f.a | none => s.rd l f.ty f.c
        x.putVec s.g.wb f.d f.ty.is64 ⟨v.n, v.poi || ixPoi s l⟩
      .done (s.setG g) []

/-- The index that B gives in a lane, 32 bits. -/
def State.laneIndex (s : State) (l : Nat) (o : Opnd) : Val := s.rd l .n32 o

/-- BCAST: one lane's A to every active lane, or once to s. -/
def execBcast (p : Pred) (f : VF) (s : State) : Out :=
  let j (s : State) : Nat := (s.laneIndex 0 f.b).n % s.g.gw
  match f.d with
  | .s i =>
    s.once false p (fun _ => s.g.opOk (j s) f.ty.regs f.a) fun s _ g =>
      let v := s.rd (j s) f.ty f.a
      g.putS i.val ⟨v.n, v.poi || (s.laneIndex 0 f.b).poi⟩
  | _ => s.exchange p f [] (fun s _ => some (j s)) fun s l => (s.laneIndex l f.b).poi

def execShfl (p : Pred) (f : VF) (s : State) : Out :=
  s.exchange p f [f.b] (fun s l => some ((s.laneIndex l f.b).n % s.g.gw)) fun s l => (s.laneIndex l f.b).poi
def execShup (p : Pred) (f : VF) (s : State) : Out :=
  s.exchange p f [] (fun s l => if (s.laneIndex l f.b).n ≤ l then some (l - (s.laneIndex l f.b).n) else none) fun s l => (s.laneIndex l f.b).poi
def execShdn (p : Pred) (f : VF) (s : State) : Out :=
  s.exchange p f [] (fun s l => if l + (s.laneIndex l f.b).n < s.g.gw then some (l + (s.laneIndex l f.b).n) else none) fun s l =>
    (s.laneIndex l f.b).poi

/-- A whole mask written to m or s, once (R304). -/
def Grp.putWhole (g : Grp) (d : Opnd) (bits : Mask) (poi : Bool) : Grp :=
  match d with
  | .m i => g.putM i.val (BitVec.allOnes 64) bits (if poi then BitVec.allOnes 64 else 0)
  | d => g.putS d.sIdx ⟨bits.toNat, poi⟩

/-- BALLOT (R304). -/
def execBallot (p : Pred) (f : VF) (s : State) : Out :=
  s.once false p (s.opsOk [(f.a, f.ty.regs)]) fun s act g =>
    let ls := g.lanesOf act
    g.putWhole f.d (maskOf (ls.filter fun l => (s.rd l f.ty f.a).n != 0)) (ls.any fun l => (s.rd l f.ty f.a).poi)

/-- ELECT: the lowest active lane, or the highest with .last (R304). -/
def execElect (p : Pred) (f : VF) (s : State) : Out :=
  s.once false p (fun _ => true) fun _ act g =>
    let ls := g.lanesOf act
    g.putWhole f.d (match (if f.m == 1 then ls.getLast? else ls.head?) with | some l => bitMask l | none => 0) false

/-! ## Trees -/

/-- The op code of REDUX and SCAN. -/
def foldCode (f : VF) : Nat := f.m % 16
/-- FPL of the lowest active lane, by which every leaf and combine goes (R219; log entry 30). -/
def State.foldFpl (s : State) (act : Mask) : W32 := match s.g.lanesOf act with | l :: _ => (s.g.lane l).fpl | [] => 0
/-- The environment of every combine: RMO, or RM of the lowest active lane, with that lane's FTZ; NaN results are canonical and
DAZ has acted on the leaves (R212, R219). -/
def State.foldEnv (s : State) (f : VF) (act : Mask) : FpEnv := { fpEnv (s.foldFpl act) f.rmo with daz := false, nanp := false }
/-- Leaf i: an active lane's operand, read through OPND for floating-point types, or the identity (R219, R305). -/
def State.leaf (s : State) (f : VF) (act : Mask) (i : Nat) : Nat :=
  if act.getLsbD i then
    let v := (s.rd i f.ty f.a).n
    if f.ty.isInt then v
    else
      let fmt := Ty.fmt f.ty
      match unpack fmt v with
      | .fin neg m _ => if (s.foldFpl act).getLsbD 3 && m < 2 ^ fmt.fb then fmt.signed neg 0 else v
      | _ => v
  else redIdentity (foldCode f) f.ty

/-- The pairwise combines of one level, with the flags they raise. -/
def pairUp (env : FpEnv) (op : Nat) (t : Ty) : List FpR → List FpR
  | a :: b :: r => let c := combine env op t a.bits b.bits; c :: pairUp env op t r
  | r => r
/-- The levels of the tree of R219, leaves first. -/
def treeLevels (env : FpEnv) (op : Nat) (t : Ty) : Nat → List FpR → List (List FpR)
  | 0, xs => [xs]
  | n + 1, xs => xs :: treeLevels env op t n (pairUp env op t xs)

/-- The tree over a group of width gw. -/
def State.foldTree (s : State) (f : VF) (act : Mask) : List (List FpR) :=
  treeLevels (s.foldEnv f act) (foldCode f) f.ty (Nat.log2 s.g.gw) (tab s.g.gw fun i => ⟨s.leaf f act i, 0⟩)
def flagsOf (ls : List (List FpR)) : W32 := ls.foldl (fun a l => l.foldl (fun a r => a ||| r.fl) a) 0

/-- REDUX (R219, R305): the root to every active lane, or once to s. -/
def execRedux (p : Pred) (f : VF) (s : State) : Out :=
  s.perform false p (s.opsOk ((match f.d with | .s _ => [] | d => [(d, f.ty.regs)]) ++ [(f.a, f.ty.regs)])) fun s act =>
    let t := s.foldTree f act
    let root := ((t.getLastD []).headD {}).bits
    let poi := (s.g.lanesOf act).any fun l => (s.rd l f.ty f.a).poi
    let fl := if poi then 0 else flagsOf t
    let g := s.g.modLanes (s.g.lanesOf act) fun _ x =>
      match f.d with
      | .s _ => x.raise fl
      | d => (x.putVec s.g.wb d f.ty.is64 ⟨root, poi⟩).raise fl
    .done (s.setG (match f.d with | .s i => g.putS i.val ⟨sExtend f.ty root, poi⟩ | _ => g)) []

/-- The nodes whose combination in order is the inclusive prefix of n leaves: n as descending powers of two (R220). -/
def prefixNodes (t : List (List FpR)) (n : Nat) : List FpR :=
  ((List.range 7).reverse.foldl (fun a k =>
    if n.testBit k then (a.1 ++ [(t.getD k []).getD (a.2 / 2 ^ k) {}], a.2 + 2 ^ k) else a) (([] : List FpR), 0)).1
/-- A leaf delivered as a result: a NaN is canonical (R212). -/
def canonLeaf (t : Ty) (n : Nat) : Nat := if t.isInt then n else if (unpack (Ty.fmt t) n).isNan then (Ty.fmt t).nanBits else n
/-- The prefix combined from left to right, with the flags of its own combines. -/
def combineNodes (env : FpEnv) (op : Nat) (t : Ty) : List FpR → FpR
  | [] => {}
  | [x] => ⟨canonLeaf t x.bits, 0⟩
  | x :: xs => xs.foldl (fun a b => let r := combine env op t a.bits b.bits; ⟨r.bits, a.fl ||| r.fl⟩) ⟨x.bits, 0⟩

/-- SCAN (R220, R306). -/
def execScan (p : Pred) (f : VF) (s : State) : Out :=
  s.perform false p (s.opsOk (withRegs f.ty.regs [f.d, f.a])) fun s act =>
    let t := s.foldTree f act
    let env := s.foldEnv f act
    let excl := f.m / 16 == 1
    let ls := s.g.lanesOf act
    let covered (l : Nat) : Nat := if excl then l else l + 1
    let res (l : Nat) : FpR := if covered l = 0 then ⟨redIdentity (foldCode f) f.ty, 0⟩ else combineNodes env (foldCode f) f.ty (prefixNodes t (covered l))
    let poi (l : Nat) : Bool := ls.any fun j => j < covered l && (s.rd j f.ty f.a).poi
    let fl := ls.foldl (fun a l => a ||| (res l).fl) (flagsOf t)
    let g := s.g.modLanes ls fun l x => (x.putVec s.g.wb f.d f.ty.is64 ⟨(res l).bits, poi l⟩).raise (if poi l then 0 else fl)
    .done (s.setG g) []

/-! ## A handler's access to a lane -/

/-- The lane that LGET and LPUT name, with the checks of R307: in a handler alone, within the width, and a target register
within the window. -/
def State.handlerLane (s : State) (act : Mask) (f : VF) (k : State → Nat → Val → Did) : Did :=
  if !s.g.iss.handler then .done s (failAll s.g act { cause := cIllInstr })
  else
    let l := s.rd 0 .n32 f.a
    if s.g.gw ≤ l.n || !(match f.b with | .v i => (i.val < s.g.win : Bool) | _ => true) then .done s [(0, .opndLate)] else k s l.n l

/-- A lane's own register or y entry with its poison. -/
def Grp.laneReg (g : Grp) (l : Nat) : Opnd → Reg
  | .v i => g.vReg l i.val
  | .k i => g.kReg l i.val
  | .y i => ⟨(g.yReg l i.val).val, (g.yReg l i.val).poi⟩
  | _ => {}
def Grp.laneY (g : Grp) (l : Nat) : Opnd → Option YReg
  | .y i => some (g.yReg l i.val)
  | _ => none

/-- What LGET returns (R307). -/
def Grp.laneGet (g : Grp) (l : Nat) (f : VF) : Nat :=
  let x := g.lane l
  let r := g.laneReg l f.b
  match f.m with
  | 0 => if f.b == .spec .pc then x.pc.toNat else if r.poi || (g.laneY l f.b).any (fun y => !y.valid) then 0 else r.val.toNat
  | 1 => x.fpl.toNat
  | 2 => x.bb.toNat
  | 3 => x.ctr.toNat
  | _ =>
    (if r.poi then 1 else 0) + (if (g.laneY l f.b).any (·.valid) then 2 else 0)
      + 4 * (match x.st with | .running => 0 | .waiting => 1 | .trapped => 2 | .exited => 3)

/-- LGET (R307); a poisoned lane index poisons the result. -/
def execLget (p : Pred) (f : VF) (s : State) : Out :=
  s.perform true p (fun _ => true) fun s act =>
    s.handlerLane act f fun s l ix => .done (s.setG (s.g.putS f.d.sIdx ⟨s.g.laneGet l f, ix.poi⟩)) []

/-- LPUT of a lane (R307, R416): a PC or block base marks the lane patched, and only y entries written after that stay valid. -/
def Grp.lanePut (g : Grp) (l : Nat) (f : VF) (v : Nat) : Grp :=
  let w := BitVec.ofNat 32 v
  let patch (h : Handler) : Handler :=
    { h with patched := h.patched ||| bitMask l, y0set := h.y0set &&& ~~~(bitMask l), y1set := h.y1set &&& ~~~(bitMask l) }
  let mark (i : Nat) (h : Handler) : Handler :=
    if h.patched.getLsbD l then (if i = 0 then { h with y0set := h.y0set ||| bitMask l } else { h with y1set := h.y1set ||| bitMask l }) else h
  match f.m with
  | 0 =>
    match f.b with
    | .spec .pc => { (g.modLane l fun x => { x with pc := BitVec.ofNat 64 v }) with handler := g.handler.map patch }
    | .y i =>
      let e : YReg := { val := w, poi := false, valid := true }
      { (g.modLane l fun x => if i.val = 0 then { x with y0 := e } else { x with y1 := e }) with handler := g.handler.map (mark i.val) }
    | o => g.modLane l fun x => x.putRegs g.wb o [⟨w, false⟩]
  | 1 => g.modLane l fun x => { x with fpl := w &&& fplMask }
  | 2 => { (g.modLane l fun x => { x with bb := BitVec.ofNat 64 v }) with handler := g.handler.map patch }
  | _ => g.modLane l fun x => { x with ctr := w }

/-- LPUT (R307). A poisoned lane index is used as it stands, and what it writes is not poisoned, which R307 leaves open (log entry
107). -/
def execLput (p : Pred) (f : VF) (s : State) : Out :=
  s.perform true p (fun _ => true) fun s act =>
    s.handlerLane act f fun s l _ =>
      let v := s.rd 0 .b64 f.c
      if v.poi then .done s [(0, .poison f.c)]
      else if (s.g.lane l).st == .exited then .done s []
      else .done (s.setG (s.g.lanePut l f v.n)) []

end Sys2Proof.Machine
end

