-- ==== Sys2Proof/Machine/Sys.lean ====
section
/-! DEFINITION. System instructions (major 0x06): system registers with the trap state (R277, R278, R412), CLK, ZREAD, RNG and
ECOUNT (R279 to R282). -/

namespace Sys2Proof.Machine

/-! ## System registers -/

/-- The specifier PTREG shows; the spec names none for a register outside the window, where it is a free value. -/
def State.ptRegByte (s : State) (e : PtEntry) : Nat :=
  let n := e.name s.g
  if !e.isV || 0 ≤ n && n < 64 then n.toNat else (Config.freeByte (s.freeKey 0)).toNat

/-- The trap-state registers 0x0100 to 0x010C, read in a handler (R412). -/
def State.trapReg (s : State) (h : Handler) (n : Nat) : Nat :=
  let e := s.ptEntry s.g.ptsel
  match n - 0x100 with
  | 0 => h.cause + (if h.impr then 65536 else 0)
  | 1 => h.tmask.toNat
  | 2 => h.tpc.toNat
  | 3 => h.tword.toNat
  | 4 => h.tinfo.toNat
  | 5 => h.tretired.toNat
  | 6 => h.budget
  | 7 => (List.range 8).foldl (fun r i => if (s.ptEntry i).isSome then r + 2 ^ i else r) 0
  | 8 => s.g.ptsel
  | 9 => (match e with | some e => s.ptRegByte e + 256 * e.n + 2 ^ 32 * e.seq.toNat | none => 0)
  | 10 => (match e with | some e => (s.g.ptMask e).toNat | none => 0)
  | 11 => (match e with | some e => e.pc.toNat | none => 0)
  | _ => (match e with | some e => e.bb.toNat | none => 0)

/-- The group-held registers of R278. -/
def State.grpReg (s : State) (n : Nat) : Nat :=
  let g := s.g
  let r := s.gr.lrec
  match n with
  | 0x20 => g.frames.length
  | 0x21 => g.wb
  | 0x22 => g.budget
  | 0x30 => g.factor + 256 * g.part
  | 0x31 => ofLe (g.gang.map (BitVec.ofNat 8)) + 2 ^ 48 * g.gang.length
  | 0x40 => r.argp.toNat
  | 0x41 => s.gr.rank s.t
  | 0x42 => s.gr.setSize s.t
  | _ => (if s.gr.det then 1 else 0) + 2 * s.gr.prio

/-- MFSR of a group-held register: into s, or into each active lane, which takes the low 32 bits of a wider one in the one register it
names (log entry 101). -/
def State.readGroupReg (s : State) (act : Mask) (d : Opnd) (v : Nat) : Did :=
  match d with
  | .s i => .done (s.setG (s.g.putS i.val ⟨v, false⟩)) []
  | d =>
    if s.g.iss.handler then .done s [(0, .illInstr)]
    else .done (s.setG (s.g.modLanes (s.g.lanesOf act) fun _ x => x.putVec s.g.wb d false ⟨v, false⟩)) []

/-- A RESTORE of the group into scratchpad has still to deliver its flags (R207). -/
def State.nfPending (s : State) : Bool :=
  s.t.cmds.any fun c => (match c.kind with | .restore _ _ _ => true | _ => false) && (s.grpAt c.grp).idx == s.g.idx
/-- MFSR (R277, R278, R412): the trap state is read in a handler alone. -/
def execMfsr (p : Pred) (f : IF) (s : State) : Out :=
  let n := f.imm.toNat
  if srPerLane n then
    s.perform false p (s.opsOk [(f.d, 1)]) fun s act =>
      if n = 0 && s.nfPending then .hold
      else
        .done (s.setG (s.g.modLanes (s.g.lanesOf act) fun _ x =>
          x.putVec s.g.wb f.d false ⟨if n = 0 then x.fpl.toNat else x.ctr.toNat, false⟩)) []
  else
    s.perform true p (s.opsOk [(f.d, 1)]) fun s act =>
      if 0x100 ≤ n then
        match s.g.iss.handler, s.g.handler with
        | true, some h => s.readGroupReg act f.d (s.trapReg h n)
        | _, _ => .done s (failAll s.g act .illOpnd)
      else s.readGroupReg act f.d (s.grpReg n)

/-- A value written to a trap-state register in a handler; outside one it is an Illegal Operand (R278), and a poisoned source
traps (R277). -/
def State.writeTrapReg (s : State) (act : Mask) (a : Opnd) (k : State → Nat → Did) : Did :=
  if !s.g.iss.handler then .done s (failAll s.g act .illOpnd)
  else
    let v := s.rd 0 .b64 a
    if v.poi then .done s [(0, .poison a)] else k s v.n

/-- MTSR (R277, R278): FPL and RNGCTR lane by lane, PTSEL in a handler. -/
def execMtsr (p : Pred) (f : IF) (s : State) : Out :=
  let n := f.imm.toNat
  if srPerLane n then
    s.perform false p (s.opsOk [(f.a, 1)]) fun s act =>
      if n = 0 && s.nfPending then .hold else
      let ls := s.g.lanesOf act
      let ok := ls.filter fun l => !(s.rd l .n32 f.a).poi
      let g := s.g.modLanes ok fun l x =>
        let v := BitVec.ofNat 32 (s.rd l .n32 f.a).n
        if n = 0 then { x with fpl := v &&& fplMask } else { x with ctr := v }
      .done (s.setG g) ((ls.filter fun l => (s.rd l .n32 f.a).poi).map fun l => (l, .poison f.a))
  else
    s.perform true p (fun _ => true) fun s act =>
      s.writeTrapReg act f.a fun s v => .done (s.modG fun g => { g with ptsel := v % 8 }) []

/-- HEXIT: the grid ends with the Handler Exit cause and the value written (R412). -/
def execHexitWrite (p : Pred) (f : IF) (s : State) : Out :=
  s.perform true p (fun _ => true) fun s act => s.writeTrapReg act f.a fun s v => .fatal s cHexit v

/-- PTMASK: lanes of the selected entry cleared; an empty mask frees it (R412, R419). -/
def execPtmaskWrite (p : Pred) (f : IF) (s : State) : Out :=
  s.perform true p (fun _ => true) fun s act =>
    s.writeTrapReg act f.a fun s v =>
      let i := s.g.ptsel
      match s.ptEntry i with
      | none => .done s []
      | some e =>
        let m := e.mask &&& ~~~((~~~(BitVec.ofNat 64 v) &&& widthMask s.g.gw) <<< s.g.base)
        .done (s.setPtab (bankPut none s.ptab i (if m == 0 then none else some { e with mask := m }))) []

/-! ## Counts, time, random numbers, energy -/

/-- CLK: the retired count before it (R279). -/
def execClk (p : Pred) (f : VF) (s : State) : Out :=
  match f.d with
  | .s i => s.once false p (fun _ => true) fun _ _ g => g.putS i.val ⟨g.retired.toNat, false⟩
  | d => s.perLane p (s.opsOk [(d, 2)]) fun s _ x => x.putVec s.g.wb d true ⟨s.g.retired.toNat, false⟩

/-- The numbers of a list in an order that some picks give: each number once. -/
def drawOrder (pick : Nat → Nat) : Nat → List Nat → List Nat
  | 0, _ => []
  | n + 1, xs => let x := bankGet xs 0 (pick n % max 1 xs.length); x :: drawOrder pick n (xs.erase x)
/-- The CLU and CORE that a core reports (R280; log entry 8): a numbering of the two clusters of a die, and one of the 96 cores of a
cluster, so that no two cores report the same pair. -/
def coreNumber (core : Nat) : Nat × Nat :=
  let k := core / 96
  (k / 2 * 2 + (k + (if (Config.placement (1536 + k / 2)).getLsbD 0 then 1 else 0)) % 2,
   bankGet (drawOrder (fun i => (Config.placement (96 * k + i)).toNat) 96 (List.range 96)) 0 (core % 96))
/-- The placement word of R280: QTR is the group's quarter. -/
def placementWord (core quarter : Nat) : Nat :=
  let n := coreNumber core
  quarter * 2 ^ 16 + n.1 / 2 * 2 ^ 12 + n.1 * 2 ^ 8 + n.2

/-- ZREAD (R280). -/
def execZread (p : Pred) (f : IF) (s : State) : Out :=
  s.perform false p (fun _ => true) fun s _ =>
    if f.imm == 0#32 then
      let t := s.timeNow
      .done (((s.modPkg fun p => { p with time := t }).setG (s.g.setZreg f.d.zIdx (BitVec.ofNat 64 t))).logIn .zread 0 (leBytes 8 t)) []
    else
      let v := placementWord s.foc.core (s.g.idx % 4)
      .done ((s.setG (s.g.setZreg f.d.zIdx (BitVec.ofNat 64 v))).logIn .zread 1 (leBytes 8 v)) []

/-- The draw of R155. -/
def rngDraw (key team tlane ctr : Nat) : Nat :=
  let m := 2 ^ 64
  let id := (team * 1024 + tlane) % m
  let x := key ^^^ (id * 0x9E3779B97F4A7C15 % m) ^^^ (ctr * 0xB3F16C2D8E47A5A9 % m)
  let x := (x ^^^ x / 2 ^ 31) * 0xE7D319B54C862F0B % m
  let x := (x ^^^ x / 2 ^ 29) * 0xB3F16C2D8E47A5A9 % m
  (x ^^^ x / 2 ^ 32) % 2 ^ 32
/-- The draw of a lane at its counter (R155). -/
def State.draw (s : State) (l : Nat) (x : Lane) : Nat := rngDraw s.gr.lrec.rngkey.toNat s.t.id.toNat (s.special l .tlane) x.ctr.toNat
/-- (draw >> 8) × 2^−24 as FP32, exact (R281). -/
def unitFp32 (d : Nat) : Nat := (resultFin fp32 {} false (d / 256) (-24)).bits

/-- RNG (R155, R281). -/
def execRng (p : Pred) (f : VF) (s : State) : Out :=
  s.perLane p (s.opsOk [(f.d, 1)]) fun s l x =>
    let d := s.draw l x
    { x with ctr := x.ctr + 1 }.putVec s.g.wb f.d false ⟨if f.ty == Ty.f32 then unitFp32 d else d, false⟩

/-- ECOUNT: the energy debited to the team's cluster account, in whole picojoules, of 100 of the model's units (R282). -/
def execEcount (p : Pred) (f : VF) (s : State) : Out :=
  s.perform false p (fun _ => true) fun s _ =>
    let v := bankGet s.debited 0 (s.foc.core / 96) / 100
    .done ((s.setG (s.g.setZreg f.d.zIdx (BitVec.ofNat 64 v))).logIn .ecount 0 (leBytes 8 v)) []

end Sys2Proof.Machine
end

