-- ==== Sys2Proof/Machine/Rast.lean ====
section
/-! DEFINITION. Rounded steps of a formula over FP32 values, and coverage and edge sampling (major 0x29, R367 to R369). -/

namespace Sys2Proof.Machine

/-! ## Steps of a formula -/

/-- A value of a formula: its number, its encoding where a RESULT delivered it, and the flags raised on the way to it. -/
structure Fx where
  x : Num := .fin false 0 0
  bits : Nat := 0
  fl : W32 := 0
deriving DecidableEq, Repr, Inhabited

/-- An operand through OPND (R210). -/
def Fx.op (env : FpEnv) (b : Nat) : Fx := { x := opnd fp32 env b, bits := b }
/-- A delivered result. -/
def Fx.ofR (fl : W32) (r : FpR) : Fx := { x := unpack fp32 r.bits, bits := r.bits, fl := fl ||| r.fl }
/-- An exact number, which need not be a value of FP32. -/
def Fx.exact (x : Num) : Fx := { x }
def Fx.one : Fx := .ofR 0 ⟨0x3F800000, 0⟩
def Fx.zero : Fx := {}
def Fx.nan : Fx := .ofR 0 ⟨fp32.nanBits, 0⟩
def Fx.neg (a : Fx) : Fx := { a with x := if a.x.isNan then a.x else a.x.negate }
def flagsIn (xs : List Fx) : W32 := xs.foldl (fun m a => m ||| a.fl) 0

/-- The term of a sum: a value or a product of two. -/
def fxTerm : List Fx → List Term
  | [a] => if a.x.isNan then [] else [numTerm a.x]
  | [a, b] => if a.x.isNan || b.x.isNan then [] else [prodTerm a.x b.x]
  | _ => []
/-- RESULT of the exact sum of values and products, with one rounding (R209, R211, R212). -/
def fxSum (env : FpEnv) (ts : List (List Fx)) : Fx :=
  let xs := ts.flatMap id
  .ofR (flagsIn xs) (deliverSum fp32 env (xs.map (·.x)) (ts.flatMap fxTerm))
def fxMul (env : FpEnv) (a b : Fx) : Fx := fxSum env [[a, b]]
def fxAdd (env : FpEnv) (a b : Fx) : Fx := fxSum env [[a], [b]]
def fxSub (env : FpEnv) (a b : Fx) : Fx := fxSum env [[a], [b.neg]]
def fxDiv (env : FpEnv) (a b : Fx) : Fx := .ofR (a.fl ||| b.fl) (fdiv fp32 env a.x b.x)
/-- A value delivered as it is, a NaN by R212. -/
def fxDeliver (env : FpEnv) (a : Fx) : Fx := .ofR a.fl (deliverNum fp32 env a.x)
/-- √ of an exact sum of squares, with one rounding. -/
def fxNorm (env : FpEnv) (xs : List Fx) : Fx :=
  let ns := xs.map (·.x)
  let fl := flagsIn xs
  if ns.any Num.isNan then .ofR fl ⟨nanResult fp32 env ns, nvOf ns⟩
  else if ns.any Num.isInf then .ofR fl (infResult fp32 false)
  else
    let t := exactSum (ns.filterMap fun x => match x with | .fin _ m e => some (false, m * m, 2 * e) | _ => none)
    .ofR fl (fsqrt fp32 env (.fin false t.1.natAbs t.2))

/-- The register of a value. -/
def Fx.reg (a : Fx) (poi : Bool) : Reg := ⟨BitVec.ofNat 32 a.bits, poi⟩
/-- Results of a formula written from a register on, with its flags; poisoned results raise none (R213). -/
def Lane.putFx (x : Lane) (wb : Nat) (d : Opnd) (rs : List Fx) (fl : W32) (poi : Bool) : Lane :=
  (x.putRegs wb d (rs.map fun r => r.reg poi)).raise (if poi then 0 else fl ||| flagsIn rs)

/-! ## RCOV -/

/-- Coverage and λ of a pixel (R368): `c` are F0 to F11. -/
def rcovLane (env : FpEnv) (c : List Fx) (x y : Fx) : Bool × List Fx :=
  let a (i : Nat) : Fx := c.getD i .zero
  let fin (v : Fx) : Bool := v.x.isFin
  let allFin := ((List.range 9).all fun i => fin (a i)) && fin x && fin y
  let terms (i : Nat) : List (List Fx) := [[a (3 * i), x], [a (3 * i + 1), y], [a (3 * i + 2)]]
  let sign (i : Nat) : Int := (exactSum ((terms i).flatMap fun t => (fxTerm t).filterMap fun u => match u with | .fin z => some z | _ => none)).1
  let pos (v : Fx) : Bool := !v.x.neg && !v.x.isZero
  let inside (i : Nat) : Bool := 0 < sign i || sign i == 0 && (pos (a (3 * i)) || (a (3 * i)).x.isZero && pos (a (3 * i + 1)))
  let p (i : Nat) : Fx := fxMul env (fxSum env (terms i)) (a (9 + i))
  let S := fxAdd env (fxAdd env (p 0) (p 1)) (p 2)
  (allFin && (List.range 3).all inside, tab 3 fun i => fxDiv env (p i) S)

/-- RCOV (R368). -/
def execRcov (p : Pred) (f : VF) (s : State) : Out :=
  s.perform false p (s.opsOk [(f.d, 3), (f.b, 2)]) fun s act =>
    let sv (i : Nat) : Val := s.g.sVal (f.a.sIdx + i)
    let words := (List.range 6).flatMap fun i => [(sv i).n % 2 ^ 32, (sv i).n / 2 ^ 32]
    let cp := (List.range 6).any fun i => (sv i).poi
    let ls := s.g.lanesOf act
    let xr (l j : Nat) : Reg := s.g.vReg l (f.b.vIdx + j)
    let poi (l : Nat) : Bool := cp || (xr l 0).poi || (xr l 1).poi
    let res (l : Nat) : Bool × List Fx :=
      let env := fpEnv (s.g.lane l).fpl f.rmo
      rcovLane env (words.map (Fx.op env)) (.op env (xr l 0).val.toNat) (.op env (xr l 1).val.toNat)
    let g := s.g.modLanes ls fun l x => x.putFx s.g.wb f.d (res l).2 0 (poi l)
    .done (s.setG (g.putM f.c.mIdx act (maskOf (ls.filter fun l => (res l).1)) (maskOf (ls.filter poi)))) []

/-! ## ESMP -/

/-- A point on an edge from a draw (R369). -/
def esmpLane (env : FpEnv) (x0 y0 x1 y1 : Fx) (draw : Nat) : List Fx :=
  let tau := Fx.ofR 0 ⟨unitFp32 draw, 0⟩
  let dx := fxSub env x1 x0
  let dy := fxSub env y1 y0
  let px := fxSum env [[x0], [tau, dx]]
  let py := fxSum env [[y0], [tau, dy]]
  let L := fxNorm env [dx, dy]
  let n := if L.x.isZero then [{ Fx.zero with fl := L.fl }, .zero] else [fxDiv env dy L, fxDiv env dx.neg L]
  [px, py] ++ n ++ [L, tau]

/-- ESMP (R369): a lane whose results a poisoned endpoint poisons draws nothing. -/
def execEsmp (p : Pred) (f : VF) (s : State) : Out :=
  s.perLane p (s.opsOk [(f.d, 6)]) fun s l x =>
    let e (j : Nat) : Val := s.g.sVal (f.a.sIdx + j)
    let env := fpEnv x.fpl f.rmo
    let w (j hi : Nat) : Fx := .op env ((e j).n / 2 ^ (32 * hi) % 2 ^ 32)
    if (e 0).poi || (e 1).poi then x.putRegs s.g.wb f.d (tab 6 fun j => s.poisonReg l j)
    else { x with ctr := x.ctr + 1 }.putFx s.g.wb f.d (esmpLane env (w 0 0) (w 0 1) (w 1 0) (w 1 1) (s.draw l x)) 0 false

end Sys2Proof.Machine
end

