-- ==== Sys2Proof/Machine/Rcache.lean ====
section
/-! DEFINITION. The radiance cache (major 0x2C, R383 to R391): queries, samples, sync points, training steps, the publication of
versions, and the image of the cache. -/

namespace Sys2Proof.Machine

/-! ## The network (R383) -/

/-- Places of a parameter in the order of the image (R391). -/
def hashIx (level h feat : Nat) : Nat := (level * 32768 + h) * 2 + feat
def w1Ix (j i : Nat) : Nat := 524288 + j * 24 + i
def w2Ix (j i : Nat) : Nat := 525824 + j * 64 + i
def w3Ix (c i : Nat) : Nat := 529920 + c * 64 + i
def paramCount : Nat := 530112

/-- The resolution of a level. -/
def levelRes (l : Nat) : Nat := 16 * 3 ^ l / 2 ^ l
/-- acc + a × b with one rounding. -/
def mac (acc a b : Num) : Num := unpack fp32 (ffma fp32 {} a b acc).bits
def rnd (r : FpR) : Num := unpack fp32 r.bits
def numZero : Num := .fin false 0 0
def numOne : Num := .fin false 1 0
/-- A number is above zero. -/
def Num.isPos (x : Num) : Bool := !x.isNan && !x.neg && !x.isZero
def relu (x : Num) : Num := if x.isPos then x else numZero

/-- A corner of a level: its hash and its weight. -/
structure Corner where
  h : Nat := 0
  om : Num := numZero
deriving DecidableEq, Repr, Inhabited

/-- ⌊sc⌋ and sc − ⌊sc⌋ of an axis. -/
def splitAxis (sc : Num) : Int × Num :=
  let c := (roundInt .rd sc).1
  (c, match sc with
    | .fin n m e => let t := exactSum [(n, m, e), (decide (0 < c), c.natAbs, 0)]; .fin (t.1 < 0) t.1.natAbs t.2
    | x => x)

/-- The corners of a level, or none where a scaled position is not finite. -/
def levelCorners (pos : List Num) (l : Nat) : Option (List Corner) :=
  let sc := pos.map fun x => rnd (fmul fp32 {} x (.fin false (levelRes l) 0))
  if !sc.all Num.isFin then none
  else
    let ax := sc.map splitAxis
    some (tab 8 fun k =>
      let b (i : Nat) : Nat := k / 2 ^ i % 2
      let ix (i : Nat) : Nat := wrap 32 ((ax.getD i (0, numZero)).1 + b i)
      let w (i : Nat) : Num :=
        let f := (ax.getD i (0, numZero)).2
        if b i = 1 then f else rnd (fadd fp32 {} numOne f.negate)
      { h := (ix 0 ^^^ ix 1 * 0x8DA6B343 % 2 ^ 32 ^^^ ix 2 * 0xD8163841 % 2 ^ 32) % 2 ^ 15
        om := rnd (fmul fp32 {} (rnd (fmul fp32 {} (w 0) (w 1))) (w 2)) })

/-- A forward pass: the corners of each level, the inputs of W1, and the sums and activations of the layers. -/
structure Forward where
  corners : List (List Corner) := []
  x : List Num := []
  a1 : List Num := []
  a2 : List Num := []
  a3 : List Num := []
deriving DecidableEq, Repr, Inhabited

/-- A layer: each output the sum over its inputs from +0. -/
def layer (w : Nat → Num) (ix : Nat → Nat → Nat) (outs : Nat) (xs : List Num) : List Num :=
  tab outs fun j => (xs.foldl (fun (a : Num × Nat) x => (mac a.1 (w (ix j a.2)) x, a.2 + 1)) (numZero, 0)).1

/-- The evaluation of the network on eight FP32 inputs; none where every result is +0 for want of a finite input. -/
def forward (w : Nat → Num) (ins : List Nat) : Option Forward :=
  let xs := ins.map (unpack fp32)
  if !xs.all Num.isFin then none
  else
    match (List.range 8).mapM (levelCorners (xs.take 3)) with
    | none => none
    | some cs =>
      let feats := (List.range 16).map fun i =>
        (cs.getD (i / 2) []).foldl (fun a c => mac a c.om (w (hashIx (i / 2) c.h (i % 2)))) numZero
      let x := feats ++ xs.drop 3 ++ List.replicate 3 numZero
      let a1 := layer w w1Ix 64 x
      let a2 := layer w w2Ix 64 (a1.map relu)
      some { corners := cs, x, a1, a2, a3 := layer w w3Ix 3 (a2.map relu) }

/-- The encoding of an FP32 number. -/
def bits32 (x : Num) : Nat := (deliverNum fp32 {} x).bits
/-- The results of a query. -/
def rcQuery (w : Nat → Num) (ins : List Nat) : List Nat :=
  match forward w ins with
  | none => [0, 0, 0]
  | some f => f.a3.map fun a => bits32 (relu a)

/-- The FP16 copy of a version of the cache. -/
def Ctx.weights (c : Ctx) (v : W32) (i : Nat) : Num :=
  match c.rcCopies.find? fun x => x.num == v with
  | some x => unpack fp16 (x.weights.get 0 i).toNat
  | none => numZero

/-! ## RCQ, RCSYNC, RCSTAT -/

/-- The samples in the package queue (R385); a step in progress has taken its own. -/
def Ctx.rcDepth (c : Ctx) : Nat := c.rcQueue.length - if c.rcBusy then 4096 else 0
def State.rcDepth (s : State) : Nat := s.ctxs.foldl (fun n e => n + e.2.rcDepth) 0

/-- The version that a query of the group in focus uses (R387, R388). -/
def State.rcVer (s : State) : W32 := if s.gr.det then s.g.rcBound else s.c.rcVersion

/-- The words of registers from one on. -/
def Grp.words (g : Grp) (l : Nat) (o : Opnd) (n : Nat) : List Nat := tab n fun j => (g.vReg l (o.vIdx + j)).val.toNat
def Grp.wordsPoi (g : Grp) (l : Nat) (o : Opnd) (n : Nat) : Bool := (List.range n).any fun j => (g.vReg l (o.vIdx + j)).poi

/-- The 48 bytes of a sample (R477). -/
def Sample.bytes (q : Sample) : List Byte := q.words.flatMap fun w => leBytes 4 w.toNat
/-- A lane's sample joins the stream, or waits for its sync point (R385); false where the spill region has no room. -/
def State.enqueue (s : State) (l : Nat) (ws : List Nat) : State × Bool :=
  let x := s.g.lane l
  let q : Sample := { grid := s.foc.grid, team := s.t.id, idx := s.g.idx, lane := s.g.key l, seq := x.samples, sync := s.t.syncO + s.g.rcSyncs + 1,
                      words := ws.map (BitVec.ofNat 32) ++ [0] }
  let s := s.modG fun g => { g.modLane l (fun x => { x with samples := x.samples + 1 }) with rcMine := g.rcMine + 1 }
  if s.c.rcFreeze then (s, true)
  else if s.gr.det then
    let s' := s.modGr fun g => { g with samples := g.samples ++ [q] }
    if s'.rspOver s.foc.ctx then (s, false) else (s'.spillWrite s.foc.ctx q.bytes, true)
  else if 8192 ≤ s.rcDepth then (s.modC fun c => { c with rcDropped := c.rcDropped + 1 }, true)
  else (s.modC fun c => { c with rcQueue := c.rcQueue ++ [q] }, true)

/-- RCQ (R383 to R385). -/
def execRcq (p : Pred) (f : VF) (s : State) : Out :=
  let train := f.m % 2 == 1
  s.perform false p (s.opsOk ([(f.d, 3), (f.a, 8)] ++ if train then [(f.b, 3)] else [])) fun s act =>
    if s.g.rcDue ≠ 0 then .hold else
    let w := s.c.weights s.rcVer
    let ls := s.g.lanesOf act
    let bad (l : Nat) : Option Opnd :=
      if !train then none else if s.g.wordsPoi l f.a 8 then some f.a else if s.g.wordsPoi l f.b 3 then some f.b else none
    let fails := ls.filterMap fun l => (bad l).map fun o => (l, Fail.poison o)
    let ok := ls.filter fun l => (bad l).isNone
    let g := s.g.modLanes ok fun l x =>
      x.putRegs s.g.wb f.d ((rcQuery w (s.g.words l f.a 8)).map fun n => ⟨BitVec.ofNat 32 n, s.g.wordsPoi l f.a 8⟩)
    let r := ok.foldl (fun (x : State × Bool) l =>
      let ws := s.g.words l f.a 8 ++ s.g.words l f.b 3
      if train && ws.all finite32 then let y := x.1.enqueue l ws; (y.1, x.2 && y.2) else x) (s.setG g, true)
    let r := (ok.foldl (fun s l => (List.range 3).foldl (fun s j => s.logReg .rcq l (g.vReg l (f.d.vIdx + j))) s) r.1, r.2)
    if r.2 then .done r.1 fails else .fatal r.1 cRedSpill 0

/-- The syncs that a team has had (R388): each of its groups has executed its RCSYNC or retired. -/
def State.countSyncs (s : State) (team : Nat) : State :=
  let gs := (s.groups.filter fun e => e.2.team == team && e.2.phase != .split).map (·.2)
  let run := gs.filter fun g => g.phase == .running
  let top := gs.foldl (fun n g => max n g.rcSyncs) 0
  let n := match run with | [] => top | _ => run.foldl (fun n g => min n g.rcSyncs) top
  let t := s.teamAt team
  s.setTeamAt team { t with syncs := max t.syncs n }

/-- RCSYNC (R384, R387, R388). -/
def execRcsync (p : Pred) (f : VF) (s : State) : Out :=
  s.perform false p (fun _ => true) fun s act =>
    let a := s.rd 0 .n32 f.a
    if a.poi then .done s (failAll s.g act (.poison f.a))
    else
      match s.barName false a.n with
      | none => .done s (failAll s.g act .opndLate)
      | some b =>
        if s.gr.det then
          let n := s.t.syncO + s.g.rcSyncs + 1
          let s := (s.modG fun g => { g with rcSyncs := g.rcSyncs + 1 }).modT fun t => { t with syncBars := t.syncBars ++ [(n, b)] }
          .done (s.countSyncs s.foc.team) []
        else .done (s.barLand b 8) []

/-- RCSTAT (R390, R153). -/
def execRcstat (p : Pred) (f : VF) (s : State) : Out :=
  s.perform false p (fun _ => true) fun s _ =>
    if f.m % 4 = 0 && s.g.rcDue ≠ 0 then .hold else
    let c := s.c
    let det := s.gr.det
    let v : Nat := match f.m % 4 with
      | 0 => s.rcVer.toNat * 2 ^ 32 + c.rcVersion.toNat
      | 1 => (if det then 0 else c.rcDropped.toNat) * 2 ^ 32 + s.g.rcMine.toNat
      | _ => if det then 0 else (if c.rcBusy then 2 ^ 16 else 0) + min 65535 s.rcDepth
    .done (s.setG (s.g.putS f.d.sIdx ⟨v, false⟩)) []

/-! ## Sync points (R388) -/

/-- A step of the context is due or in progress, or a version waits to be published. -/
def Ctx.rcWorks (c : Ctx) : Bool := c.rcBusy || c.rcPending.isSome || !c.rcFreeze && 4096 ≤ c.rcQueue.length

/-- The version of the last sync point, once every step it completed has been taken and published: the RCSYNCs of the sync point
count into their objects. -/
def State.settle (s : State) (grid : Nat) : State :=
  let gr := s.gridAt grid
  let c := s.ctxAt gr.ctx
  let n := gr.versions.length + 1
  if gr.syncs < n || c.rcWorks then s
  else
    let s := s.setGridAt grid { gr with versions := gr.versions ++ [c.rcVersion] }
    let s := { s with groups := s.groups.update fun _ g =>
      if (s.teamAt g.team).grid == grid && g.rcDue == n then { g with rcBound := c.rcVersion, rcDue := 0 } else g }
    let due := (s.teamsOf grid).flatMap fun e => (e.2.syncBars.filter fun x => x.1 == n).map (·.2)
    let s := { s with teams := s.teams.update fun _ t => if t.grid == grid then { t with syncBars := t.syncBars.filter fun x => x.1 != n } else t }
    due.foldl (fun s b =>
      let t := s.teamAt b.team
      let s := s.setTeamAt b.team { t with rcBinds := t.rcBinds ++ [(b, BitVec.ofNat 32 (s.barGet b).phase, c.rcVersion)] }
      s.barLand b 8) s

/-- The next sync point of a DET grid takes place: every team with an earlier origin has reached it or retired, the one before it
has its version, and there is something to do. -/
def State.syncReady (s : State) (grid : Nat) : Bool :=
  let gr := s.gridAt grid
  let n := gr.syncs + 1
  let ts := (s.teamsOf grid).map (·.2)
  gr.det && gr.phase == .running && gr.allCreated && gr.versions.length == gr.syncs
    && (ts.all fun t => n ≤ t.syncO || n ≤ t.syncO + t.syncs || t.phase == .retired)
    && ((ts.any fun t => n ≤ t.syncO + t.syncs && t.syncO < n) || (ts.all fun t => t.phase == .retired) && !gr.samples.isEmpty)

/-- The order of a sync point's samples (R388). -/
def Sample.before (a b : Sample) : Bool := decide ([a.team.toNat, a.idx, a.lane, a.seq] ≤ [b.team.toNat, b.idx, b.lane, b.seq])

/-- SYNC_POINT (R388): the samples are appended in order; the steps that this completes follow. -/
def execSyncPoint (grid : Nat) (s : State) : Out :=
  if !s.syncReady grid then .next s
  else
    let gr := s.gridAt grid
    let n := gr.syncs + 1
    let qs := gr.samples.filter fun q => q.sync ≤ n
    let c := s.ctxAt gr.ctx
    let s := s.setCtxAt gr.ctx { c with rcQueue := c.rcQueue ++ if c.rcFreeze then [] else sortBy Sample.before qs }
    .next ((s.setGridAt grid { gr with samples := gr.samples.filter (fun q => n < q.sync), syncs := n }).settle grid)

/-! ## Steps (R386) -/

/-- Gradients of parameters, by their places. -/
abbrev Grad := KMap Num
def Grad.add (g : Grad) (i : Nat) (a b : Num) : Grad := KMap.set g i (mac (KMap.get g numZero i) a b)

/-- The gradient at an output (R386). -/
def lossGrad (y t : Num) : Num :=
  let e : FpEnv := {}
  let num := rnd (fmul fp32 e (.fin false 2 0) (rnd (fadd fp32 e y t.negate)))
  let den := rnd (fadd fp32 e (rnd (fmul fp32 e y y)) (unpack fp32 0x3C23D70A))
  (rnd (fdiv fp32 e num den)).scale (-12)

/-- δ passed back through RELU and through a layer: the masked δ, and the gradients at its inputs. -/
def maskDelta (ds as : List Num) : List Num := tab ds.length fun i => if (as.getD i numZero).isPos then ds.getD i numZero else numZero
def backLayer (w : Nat → Num) (ix : Nat → Nat → Nat) (ds : List Num) (ins : Nat) : List Num :=
  tab ins fun i => (ds.foldl (fun (a : Num × Nat) d => (mac a.1 d (w (ix a.2 i)), a.2 + 1)) (numZero, 0)).1
/-- The parameter gradients of a layer. -/
def layerGrad (g : Grad) (ix : Nat → Nat → Nat) (ds xs : List Num) : Grad :=
  (List.range ds.length).foldl (fun g j => (List.range xs.length).foldl (fun g i => Grad.add g (ix j i) (ds.getD j numZero) (xs.getD i numZero)) g) g

/-- One sample's share in an engine's gradients. -/
def sampleGrad (w : Nat → Num) (g : Grad) (ws : List W32) : Grad :=
  let v := ws.map (·.toNat)
  match forward w (v.take 8) with
  | none => g
  | some f =>
    let h1 := f.a1.map relu
    let h2 := f.a2.map relu
    let d3 := maskDelta (tab 3 fun c => lossGrad (relu (f.a3.getD c numZero)) (unpack fp32 (v.getD (8 + c) 0))) f.a3
    let d2 := maskDelta (backLayer w w3Ix d3 64) f.a2
    let d1 := maskDelta (backLayer w w2Ix d2 64) f.a1
    let gx := backLayer w w1Ix d1 24
    let g := layerGrad (layerGrad (layerGrad g w3Ix d3 h2) w2Ix d2 h1) w1Ix d1 f.x
    (List.range 8).foldl (fun g l =>
      (f.corners.getD l []).foldl (fun g c =>
        Grad.add (Grad.add g (hashIx l c.h 0) (gx.getD (2 * l) numZero) c.om) (hashIx l c.h 1) (gx.getD (2 * l + 1) numZero) c.om) g) g

/-- The batch gradient: each engine's samples in order, from +0, then the engines' sums in cluster order; a parameter that no engine
reaches has the gradient +0. -/
def batchGrad (w : Nat → Num) (qs : List Sample) : Grad :=
  let es : List Grad := (List.range 16).map fun c => ((qs.drop (256 * c)).take 256).foldl (fun g q => sampleGrad w g q.words) []
  let keys := es.foldl (fun (k : NSet) e => e.foldl (fun k x => NSet.insert k x.1) k) []
  keys.map fun i => (i, (es.drop 1).foldl (fun a e => rnd (fadd fp32 {} a (KMap.get e numZero i))) (KMap.get (es.headD []) numZero i))

/-- The constants of the update at step t (R386, R334): LR, B1, B2, EPS and the corrections. -/
def adamPar (lr : W32) (t : Nat) : Nat → Num
  | 0 => unpack fp32 lr.toNat
  | 1 => rnd (fdiv fp32 {} (ofInt 9) (ofInt 10))
  | 2 => rnd (fdiv fp32 {} (ofInt 99) (ofInt 100))
  | 3 => .fin false 1 (-24)
  | 4 => rnd (fdiv fp32 {} (ofInt (10 ^ t : Nat)) (ofInt ((10 ^ t - 9 ^ t : Nat))))
  | _ => rnd (fdiv fp32 {} (ofInt (100 ^ t : Nat)) (ofInt ((100 ^ t - 99 ^ t : Nat))))

/-- A parameter after a step. -/
def Param.step (p : Param) (par : Nat → Num) (g : Num) : Param :=
  let r := updateElem true par (bits32 g) p.master.toNat p.m.toNat p.v.toNat
  { master := BitVec.ofNat 32 r.1, m := BitVec.ofNat 32 r.2.1, v := BitVec.ofNat 32 r.2.2 }

/-- Every parameter after a step; where a zero parameter with a zero gradient stays zero, only the others need a look. -/
def stepParams (ps : KMap Param) (par : Nat → Num) (g : Grad) : KMap Param :=
  let keys := if Param.step {} par numZero == ({} : Param) then g.foldl (fun (k : NSet) e => NSet.insert k e.1) (KMap.keys ps) else List.range paramCount
  (keys.map fun i => (i, (KMap.get ps {} i).step par (KMap.get g numZero i))).filter fun e => e.2 != ({} : Param)

/-- The FP16 copy of the masters (R386). -/
def copyOf (ps : KMap Param) : KMap Half :=
  (ps.map fun e => (e.1, BitVec.ofNat 16 (deliverNum fp16 {} (unpack fp32 e.2.master.toNat)).bits)).filter fun e => e.2 != 0
/-- The weights a step uses: the copy of its masters as they stand. -/
def Ctx.trainWeights (c : Ctx) (i : Nat) : Num := unpack fp16 (deliverNum fp16 {} (unpack fp32 (KMap.get c.rcParams {} i).master.toNat)).bits

/-- The end of a step: the update, or nothing where a gradient is not finite. -/
def Ctx.stepDone (c : Ctx) : Ctx :=
  let c' := { c with rcBusy := false, rcQueue := c.rcQueue.drop 4096 }
  let g := batchGrad c.trainWeights (c.rcQueue.take 4096)
  if !g.all (·.2.isFin) then c'
  else
    let t := c.rcSteps + 1
    { c' with rcParams := stepParams c.rcParams (adamPar c.rcLR t) g, rcSteps := t, rcPending := some (BitVec.ofNat 32 t) }

/-- A step of the context can start (R387, R388, R391). -/
def Ctx.stepDue (c : Ctx) : Bool := !c.rcBusy && !c.rcFreeze && 4096 ≤ c.rcQueue.length

/-- The DET grids of a context settle their last sync point, if they can. -/
def State.settleAll (s : State) (ctx : Nat) : State :=
  (s.grids.filter fun e => e.2.ctx == ctx && e.2.det && e.2.phase == .running).foldl (fun s e => s.settle e.1) s

/-- TEMPER_STEP (R386): a step starts with the next 4,096 samples, and at its next turn ends. -/
def execTemperStep (ctx : Nat) (s : State) : Out :=
  let c := s.ctxAt ctx
  if c.rcBusy then .next ((s.setCtxAt ctx (if c.rcQueue.length < 4096 then { c with rcBusy := false } else c.stepDone)).settleAll ctx)
  else if c.stepDue then .next (s.setCtxAt ctx { c with rcBusy := true })
  else .next s

/-! ## Versions (R389) -/

/-- The versions that groups of the context's DET grids bind, or will bind when they start. -/
def State.boundVersions (s : State) (ctx : Nat) : List W32 :=
  let grids := s.grids.filter fun e => e.2.ctx == ctx && e.2.det && e.2.phase == .running
  grids.flatMap fun e =>
    (if e.2.allCreated then [] else [e.2.startVersion])
      ++ (s.teamsOf e.1).flatMap fun t =>
        if t.2.phase == .pending then (s.startBound e.2 t.2).toList
        else (s.groups.filter fun g => g.2.team == t.1 && g.2.phase != .retired && g.2.rcDue == 0).map fun g => g.2.rcBound

/-- The copies still held: those bound, and the latest. -/
def State.heldCopies (s : State) (ctx : Nat) : List Version :=
  let c := s.ctxAt ctx
  let bound := s.boundVersions ctx
  c.rcCopies.filter fun v => v.num == c.rcVersion || bound.contains v.num
/-- The lowest slot of the snapshot region that no held copy takes. -/
def State.freeSlot (s : State) (ctx : Nat) : Option Nat :=
  let held := s.heldCopies ctx
  (List.range (s.ctxAt ctx).rcSnapN).find? fun i => held.all fun v => v.slot != some i
/-- A version waits for a slot that is free. -/
def State.publishReady (s : State) (ctx : Nat) : Bool := (s.ctxAt ctx).rcPending.isSome && (s.freeSlot ctx).isSome

/-- The stride of a slot, and the bytes of a copy. -/
def slotStride : Nat := 0x110000
/-- VERSION_PUBLISH (R389): the copy of the masters takes a slot and is the latest version. The layout of a slot's bytes is the
K96's own (log entry 10). -/
def execVersionPublish (ctx : Nat) (s : State) : Out :=
  let c := s.ctxAt ctx
  match c.rcPending, s.freeSlot ctx with
  | some v, some i =>
    let s' := s.homeWrite (c.rcSnap.toNat + slotStride * i) noCp (tab (2 * paramCount) fun j => Config.privateLayout (s.freeKey j)) []
    let held := s.heldCopies ctx
    .next (s.unmet ((s'.setCtxAt ctx { s'.ctxAt ctx with rcCopies := held ++ [{ num := v, slot := some i, weights := copyOf c.rcParams }], rcVersion := v, rcPending := none }).bump.settleAll ctx))
  | _, _ => .next s

/-! ## The image (R391) -/

/-- A grid of the context is resident or pre-empted. -/
def State.ctxBusy (s : State) (ctx : Nat) : Bool := s.grids.any fun e => e.2.ctx == ctx && e.2.phase == .running

/-- The bytes of the image. -/
def imageBytes : Nat := 12 * paramCount + 16
/-- The parameters and the step count of the image read into every replica (R391). -/
def State.readImage (s : State) (ctx : Nat) : State :=
  let c := s.ctxAt ctx
  let h := s.homeView c.rcImg.toNat imageBytes
  let w (off : Nat) : W32 := BitVec.ofNat 32 (ofLe (h.hbm (paLocal c.rcImg.toNat + off) 4))
  let ps : KMap Param := ((List.range paramCount).map fun i => (i, ({ master := w (12 * i), m := w (12 * i + 4), v := w (12 * i + 8) } : Param))).filter
    fun e => e.2 != ({} : Param)
  h.setCtxAt ctx { h.ctxAt ctx with rcParams := ps, rcSteps := (w (12 * paramCount)).toNat }
/-- The version that an image names. -/
def State.imageVersion (s : State) (ctx : Nat) : W32 := BitVec.ofNat 32 (ofLe (s.hbm (paLocal (s.ctxAt ctx).rcImg.toNat + 12 * paramCount + 4) 4))
/-- LOAD (R391): the image read with its version, and the queue emptied. -/
def State.loadCache (s : State) (ctx : Nat) : State :=
  let s := s.readImage ctx
  let c : Ctx := { s.ctxAt ctx with rcVersion := s.imageVersion ctx }
  s.setCtxAt ctx { c with rcQueue := [], rcBusy := false, rcPending := none, rcCopies := [{ num := c.rcVersion, weights := copyOf c.rcParams }] }
/-- The version of the masters as they stand, published or not (R386). -/
def Ctx.rcNow (c : Ctx) : W32 := c.rcPending.getD c.rcVersion
/-- SAVE (R391): the cache written to its image, with the step count and the version of what it writes. -/
def State.saveCache (s : State) (ctx : Nat) : State :=
  let c := s.ctxAt ctx
  let bs := (List.range paramCount).flatMap fun i =>
    let p := KMap.get c.rcParams {} i
    leBytes 4 p.master.toNat ++ leBytes 4 p.m.toNat ++ leBytes 4 p.v.toNat
  s.homeWrite c.rcImg.toNat noCp (bs ++ leBytes 4 c.rcSteps ++ leBytes 4 c.rcNow.toNat ++ List.replicate 8 0) []

/-- CACHE_LOAD (R391): refused while a grid runs. -/
def execCacheLoad (ctx : Nat) (s : State) : Out := s.regEvent (if s.ctxBusy ctx then s else s.loadCache ctx)
/-- CACHE_SAVE (R391): refused while a grid runs. -/
def execCacheSave (ctx : Nat) (s : State) : Out := s.regEvent (if s.ctxBusy ctx then s else s.saveCache ctx)

end Sys2Proof.Machine
end

