-- ==== Sys2Proof/Machine/Ctl.lean ====
section
/-! DEFINITION. Control transfer (major 0x00, R252 to R259): branches, calls and returns with their register window, EXIT, YIELD,
traps and the return from a handler, and the wait for flags. -/

namespace Sys2Proof.Machine

/-- NOP changes nothing but the PC (R252). -/
def execNop (p : Pred) (_f : VF) (s : State) : Out := s.perform true p (fun _ => true) fun s _ => .done s []

/-! ## Branches -/

/-- Lanes moved to a target that they reach as a header of KIND 00 (R228); in a handler its own PC. -/
def State.jump (s : State) (act : Mask) (t : W64) : State :=
  s.modG fun g =>
    if g.iss.handler then { g with handler := g.handler.map fun h => { h with pc := t, reach := .header .ord } }
    else g.modLanes (g.lanesOf act) fun _ x => { x with pc := t, reach := .header .ord }

/-- A branch of the active lanes to one target (R240 step 2, R253, R410). -/
def State.branchTo (s : State) (act : Mask) (t : W64) : Did :=
  match s.target t with
  | (s, .wait id) => .stall s (.reply [id])
  | (s, k) => if k.ok then .done (s.jump act t) [] else .done s (failActive s.g act .illHdr)

def execBra (p : Pred) (f : BF) (s : State) : Out :=
  s.perform true p (fun _ => true) fun s act => s.branchTo act (BF.target f s.g.iss.pc)

/-- BRU tests all 64 bits of an s register (R253). -/
def execBru (p : Pred) (f : BF) (s : State) : Out :=
  s.perform true p (fun _ => true) fun s act =>
    let v := s.g.sVal f.c.sIdx
    if v.poi then .done s (failActive s.g act (.poison f.c))
    else if (v.n == 0) == (f.n == 0#8) then s.branchTo act (BF.target f s.g.iss.pc)
    else .done s []

/-- The 64-bit target that BRX and CALLX read in a lane. -/
def State.rdTarget (s : State) (l : Nat) (o : Opnd) : Val := s.rd l .b64 o

/-- BRX branches each lane to its own target (R253). -/
def execBrx (p : Pred) (f : BF) (s : State) : Out :=
  s.perform false p (s.opsOk [(f.c, 2)]) fun s act =>
    let ls := s.g.lanesOf act
    let bad := (ls.filter fun l => (s.rdTarget l f.c).poi).map fun l => (l, Fail.poison f.c)
    let ts := (ls.filter fun l => !(s.rdTarget l f.c).poi).map fun l => (l, BitVec.ofNat 64 (s.rdTarget l f.c).n)
    let r := s.lookAll ts
    if !r.2.2.isEmpty then .stall r.1 (.reply r.2.2)
    else
      let s := (r.2.1.filter fun x => x.2.2.ok).foldl (fun s x => s.jump (bitMask x.1) x.2.1) r.1
      .done s (bad ++ (r.2.1.filter fun x => !x.2.2.ok).map fun x => (x.1, Fail.illHdr))

/-! ## Calls -/

/-- Lanes that keep their PC without trapping (R409, R420). -/
def Fail.kept : Fail := { cause := 0 }

/-- The base of the group's slice of the register spill region (R393). -/
def State.spillBase (s : State) : W64 := s.gr.lrec.rspill + BitVec.ofNat 64 s.g.spillOff

/-- The 16 bytes of a frame header (R52). -/
def Frame.header (f : Frame) : List Byte :=
  leBytes 8 f.ret.toNat ++ leBytes 2 f.s ++ leBytes 1 f.n ++ leBytes 1 (if f.spilled then 1 else 0) ++ leBytes 2 f.wb ++ leBytes 2 0

/-- The words pushed for a call that spills S registers: register-major, lane-ascending (R50, R52). -/
def Grp.pushed (g : Grp) (n : Nat) : List Reg := (List.range n).flatMap fun i => g.laneIdx.map fun l => g.vReg l i

/-- The registers of every lane moved within the window: phys(to + i) takes phys(from + i), all reads first (R50, R51). -/
def Grp.moveWindow (g : Grp) (src dst n : Nat) : Grp :=
  g.modLanes g.laneIdx fun _ x =>
    { x with v := (List.range n).foldl (fun v i => bankPut {} v (g.wb + dst + i) (bankGet x.v {} (g.wb + src + i))) x.v }

/-- An entry renamed in the lanes of a group whose window slides up by n (R254); what its sibling parts name stays. -/
def PtEntry.slide (e : PtEntry) (g : Grp) (n : Int) : PtEntry :=
  let d := e.slid g + n
  let rest := e.slides.filter fun x => x.1 &&& g.launchMask == 0
  { e with slides := if d = 0 then rest else rest ++ [(g.launchMask, d)] }
/-- The entries of this group's lanes renamed with the window as it slides up by n (R254): a register that it moves past is named below
0, whatever else its entry holds. -/
def State.slideNames (s : State) (n : Int) : State :=
  s.setPtab (s.ptab.map fun e => e.map fun x => if x.isV && (s.g.ptMask x != 0 || x.slid s.g != 0) then x.slide s.g n else x)
def State.renameCall (s : State) (n : Nat) : State := s.slideNames n
/-- The names before the matching call. -/
def State.renameRet (s : State) (n : Nat) : State := s.slideNames (-n)

/-- The registers that a spill would push and that have an entry in any lane (R254, check 5). -/
def State.spillPoisoned (s : State) (n : Nat) : Option Nat :=
  (List.range n).find? fun i => s.ptab.any fun e => e.any fun x => x.isV && decide (x.name s.g ≤ (i : Int)) && decide ((i : Int) < x.name s.g + x.n) && s.g.ptMask x != 0

/-- Checks 2 to 7 of a call with its effect (R50, R254): `live` is LIVE of the return site's header, `t` the target. -/
def State.enterCall (s : State) (act : Mask) (n : Nat) (live : Nat) (same : Bool) (t : W64) : Did :=
  let g := s.g
  let w := g.win
  if !g.converged act then .done s (failAll g g.iss.set .opndLate)
  else if w < n then .done s (failAll g act .opndLate)
  else if !same then .done s (failAll g act .opndLate)
  else
    let spilled := !(g.wb + n + w ≤ g.budget)
    let S := if spilled then min live n else 0
    match s.spillPoisoned S with
    | some i => .done s (failAll g act { cause := cPoison, info := i })
    | none =>
      let ws := g.pushed S
      let fr : Frame := { off := g.spTop, ret := g.iss.pc + 8, spilled, s := S, n, wb := g.wb, poi := ws.map (·.poi) }
      let bytes := fr.header ++ ws.flatMap fun r => leBytes 4 r.val.toNat
      if g.spillLen < g.spTop + bytes.length then .done s (failAll g act { cause := cSpillOvf })
      else
        match s.mapRun .spill (s.spillBase + BitVec.ofNat 64 g.spTop) bytes.length with
        | (s, ps, []) =>
          let s := s.writeParts .spill act ps ⟨bytes, []⟩
          let g := s.g
          let g := if spilled then g.moveWindow n 0 (w - n) else { g with wb := g.wb + n }
          let g := { g with frames := fr :: g.frames, spTop := g.spTop + bytes.length }
          .done (((s.setG g).renameCall n).jump act t) []
        | (s, _, fs) => s.runFault .spill 7 act fs

/-- The fetch of the return site's header, which comes before the checks of a call (R254, R410): its word, or the fault of the
issue set. -/
def State.returnSite (s : State) (k : State → Option Header → Did) : Did :=
  let va := s.g.iss.pc + 8
  match s.fetch va s.g.iss.set with
  | (s, .wait id) => .stall s (.reply [id])
  | (s, .word w) => k s (match decodeHeader w with | some h => if h.kind == .ord then some h else none | none => none)
  | (s, .flt f) =>
    if s.recordRoom = 0 then .stall s .fault
    else
      let r := s.recordAt s.foc.ctx s.foc.core (s.grpRec f.kind .fetch 7 s.g.iss.set va f.aux)
      .done r.1 (failAll r.1.g r.1.g.iss.set (Fail.trans (some r.2) 1))

/-- CALL (R50, R254). Its place at the end of its block is checked before it issues (R246). -/
def execCall (p : Pred) (f : BF) (s : State) : Out :=
  s.performWide p (fun _ => true) fun s act =>
    s.returnSite fun s h =>
      if act == 0 then .done s (failAll s.g s.g.iss.set .opndLate)
      else match s.target (BF.target f s.g.iss.pc) with
      | (s, .wait id) => .stall s (.reply [id])
      | (s, k) =>
        match h with
        | some h => if k.ok then s.enterCall act f.n.toNat h.live.val true (BF.target f s.g.iss.pc) else .done s (failAll s.g act .illHdr)
        | none => .done s (failAll s.g act .illHdr)

/-- CALLX (R50, R254): poisoned targets are looked at first, and a check that fails in some lanes keeps the others. -/
def execCallx (p : Pred) (f : BF) (s : State) : Out :=
  s.performWide p (s.opsOk [(f.c, 2)]) fun s act =>
    s.returnSite fun s h =>
      if act == 0 then .done s (failAll s.g s.g.iss.set .opndLate)
      else
      let ls := s.g.lanesOf act
      let bad := ls.filter fun l => (s.rdTarget l f.c).poi
      if !bad.isEmpty then .done s (ls.map fun l => (l, if bad.contains l then Fail.poison f.c else Fail.kept))
      else
        let r := s.lookAll (ls.map fun l => (l, BitVec.ofNat 64 (s.rdTarget l f.c).n))
        let wrong := r.2.1.filter fun x => !x.2.2.ok
        if !r.2.2.isEmpty then .stall r.1 (.reply r.2.2)
        else
          match h with
          | none => .done r.1 (failAll r.1.g act .illHdr)
          | some h =>
            if !wrong.isEmpty then .done r.1 (r.2.1.map fun x => (x.1, if x.2.2.ok then Fail.kept else Fail.illHdr))
            else
              match r.2.1 with
              | [] => .done r.1 []
              | (_, t, _) :: more => r.1.enterCall act f.n.toNat h.live.val (more.all fun x => x.2.1 == t) t

/-- RET (R51, R255). -/
def execRet (p : Pred) (_f : VF) (s : State) : Out :=
  s.performWide p (fun _ => true) fun s act =>
    match s.g.frames with
    | [] => .done s (failAll s.g s.g.iss.set .opndLate)
    | fr :: rest =>
      match s.target fr.ret with
      | (s, .wait id) => .stall s (.reply [id])
      | (s, k) =>
        if !k.ok && act != 0 then .done s (failAll s.g act .illHdr)
        else if !s.g.converged act then .done s (failAll s.g s.g.iss.set .opndLate)
        else
          let gw := s.g.gw
          let words := fr.s * gw
          s.withRun .fill act (s.spillBase + BitVec.ofNat 64 (fr.off + 16)) (4 * words) fun s bs =>
            let s := s.renameRet fr.n
            let g := s.g
            let g := if fr.spilled then g.moveWindow 0 fr.n (g.win - fr.n) else { g with wb := fr.wb }
            let word (j : Nat) : Reg := ⟨BitVec.ofNat 32 (ofLe ((bs.drop (4 * j)).take 4)), fr.poi.getD j false⟩
            let g := g.modLanes g.laneIdx fun l x =>
              x.putRegs g.wb (.v 0) (tab fr.s fun i => word (i * gw + l))
            .done ((s.setG { g with frames := rest, spTop := fr.off }).jump act fr.ret) []

/-! ## Exit, yield, traps, waits -/

/-- EXIT (R256): active lanes exit and leave the poison table (R419). -/
def execExit (p : Pred) (_f : VF) (s : State) : Out :=
  s.perform false p (fun _ => true) fun s act =>
    .done ((s.ptClear (fun _ => true) act).modG fun g => g.modLanes (g.lanesOf act) fun _ x => { x with st := .exited, wait := .none }) []

/-- YIELD (R257): the quarter passes over the group until YIELD_RELEASE. -/
def execYield (p : Pred) (_f : VF) (s : State) : Out :=
  s.perform false p (fun _ => true) fun s _ => .done (s.modG fun g => { g with yielded := true, yieldAge := 0 }) []

/-- TRAP (R258): every active lane traps, with its PC after the word. -/
def execTrap (p : Pred) (f : IF) (s : State) : Out :=
  s.perform false p (fun _ => true) fun s act => .done s (failAll s.g act { cause := cSoft, info := f.imm.toNat, skip := true })

/-- TRET (R258, R416): the end of the handler; elsewhere an Illegal Instruction. -/
def execTret (p : Pred) (_f : VF) (s : State) : Out :=
  s.perform true p (fun _ => true) fun s act =>
    if s.g.iss.handler then .done s.trapReturn [] else .done s (failAll s.g act { cause := cIllInstr })

/-- BKPT (R258, R439): with BKEN set the group stops before the BKPT retires and reports IMM32; when it issues again after
RESUME, or with BKEN clear, it acts as NOP. A group that RESUME has moved elsewhere stops at the next BKPT that it reaches. -/
def execBkpt (p : Pred) (f : IF) (s : State) : Out :=
  s.perform false p (fun _ => true) fun s _ =>
    if s.c.dbgBken && s.g.stepOver != some (s.g.iss.pc, s.g.retired) then
      .stall (s.stopGroup s.foc.grp (some f.imm)) .none
    else .done (s.modG fun g => { g with stepOver := none }) []

/-- WAITF (R259): the group is held until every named flag is clear. -/
def execWaitf (p : Pred) (f : IF) (s : State) : Out :=
  s.perform false p (fun _ => true) fun s _ =>
    let m : BitVec 12 := f.imm.setWidth 12
    if s.g.flagsOff m then .done s [] else s.flagWait m

end Sys2Proof.Machine
end

