-- ==== Sys2Proof/Machine/Tape.lean ====
section
/-! DEFINITION. Tapes (R167 to R178) and their words (major 0x28, R359 to R366): records in a group's slice, their spill and fill
by the tape engine, and recompute spans. -/

namespace Sys2Proof.Machine

/-! ## The slice -/

/-- The slice of the group in focus: its offset in the allocation (R167). -/
def State.sliceBase (s : State) : Nat := s.gr.lrec.tapeBase + s.g.idx * s.gr.lrec.slice
/-- The parts of n logical bytes from t on: offset in the allocation and length (R169). -/
def State.slicePieces (s : State) (t n : Nat) : List (Nat × Nat) :=
  let size := s.gr.lrec.slice
  let o := t % size
  if o + n ≤ size then [(s.sliceBase + o, n)] else [(s.sliceBase + o, size - o), (s.sliceBase, n - (size - o))]
def State.tapeGet (s : State) (t n : Nat) : Bytes :=
  (s.slicePieces t n).foldl (fun b p => b.append (s.scrRaw s.foc.team p.1 p.2)) {}
def State.tapePut (s : State) (t : Nat) (bs : List Byte) : State :=
  ((s.slicePieces t bs.length).foldl (fun (x : State × List Byte) p => (x.1.scrWrite s.foc.team p.1 (x.2.take p.2), x.2.drop p.2)) (s, bs)).1
/-- The scratchpad words that hold n logical bytes poisoned. -/
def State.tapePoison (s : State) (t n : Nat) : State := (s.slicePieces t n).foldl (fun s p => s.scrPoison s.foc.team p.1 p.2) s
def State.modTape (s : State) (f : Tape → Tape) : State := s.modG fun g => { g with tape := f g.tape }
/-- The bytes in the slice (R169). -/
def Tape.occ (t : Tape) : Nat := t.top - t.b
/-- The first byte of the group's spill segment (R393). -/
def State.segBase (s : State) : W64 :=
  let r := s.gr.lrec
  r.tspill + BitVec.ofNat 64 ((s.t.id.toNat * r.ngroups + s.g.idx) * r.tseg)

/-! ## Spill and fill (R174) -/

/-- What becomes of a transfer: it moved a record, it may not be performed, it is held, its record finds no place (R45), or a
peer has still to answer. -/
inductive Moved
  | done (s : State)
  | over (s : State)
  | held (s : State)
  | noPlace (s : State)
  | wait (s : State)

/-- A transfer that faults (R34): its records, held transfer marked, and the hold. -/
def State.tapeHold (s : State) (fore spill : Bool) (fs : List (W64 × Flt)) : Moved :=
  let t := s.g.tape
  let recs := fs.map fun f =>
    let r := s.cmdRec s.foc.grp t.opMask t.opPc t.opRet .tape f.1 f.2
    { r with flags := 1 + if fore && s.g.afterStall then 2 else 0 }
  if fore && s.recordRoom < recs.length then .noPlace s
  else
    let s := if fore then (s.writeRecs recs).1 else recs.foldl (fun s r => s.recordUnit s.foc.ctx (.tape s.foc.grp) r false) s
    .held (s.modTape fun t => { t with held := some spill, heldBack := !fore })

/-- The group's transfers wait for the driver (R34, R45). -/
def State.tapeStuck (s : State) : Bool := s.g.tape.held.isSome || s.c.holds (.tape s.foc.grp)

/-- The oldest resident record: its first byte and its end. -/
def Tape.oldest (t : Tape) : Option (Nat × Nat) :=
  match t.recs.filter (t.b ≤ ·) with
  | [] => none
  | [x] => some (x, t.top)
  | x :: y :: _ => some (x, y)
/-- A fill is due, or still due, once the top of the tape stands at `top` (R174). -/
def Tape.fillsOn (t : Tape) (slice top : Nat) : Bool := 4 * (top - t.b) < slice && top < t.top || t.filling && 2 * (top - t.b) < slice
/-- The youngest spilled record: its first byte. -/
def Tape.youngest (t : Tape) : Option Nat := (t.recs.filter (· < t.b)).getLast?

/-- The oldest resident record spilled. -/
def State.spillOne (s : State) (fore : Bool) : Moved :=
  if s.tapeStuck then .held s
  else
    match s.g.tape.oldest with
    | none => .over s
    | some (t, e) =>
      if s.gr.lrec.tseg < e then .over s
      else
        match s.mapRun .tape (s.segBase + BitVec.ofNat 64 t) (e - t) with
        | (s, ps, []) =>
          .done ((s.writeParts .tape s.g.tape.opMask ps (s.tapeGet t (e - t)) true).modTape fun x => { x with b := e })
        | (s, _, fs) => s.tapeHold fore true fs

/-- The parts of a record read from its segment: its bytes, and the parts to ask a peer for. -/
def State.readSegment (s : State) (ps : List Part) : State × Bytes × List Part :=
  ps.foldl (fun x p =>
    if x.1.isLocal p.pa then
      let y := x.1.unitBytes x.1.foc.core p.pa p.n (pteCp p.pte)
      (y.1, x.2.1.append y.2, x.2.2)
    else
      match x.1.g.tape.fetched.find? fun r => r.pa == p.pa && r.n == p.n with
      | some r =>
        (x.1, x.2.1.append (match r.data with
          | some d => ⟨tab p.n fun i => d.getD i 0, r.bytePoi⟩
          | none => ⟨List.replicate p.n 0, List.replicate p.n true⟩), x.2.2)
      | none => (x.1, x.2.1, x.2.2 ++ [p])) (s, {}, [])

/-- A part of a segment asked of the peer that holds it. -/
def State.askSegment (s : State) (p : Part) : State :=
  if s.pkg.peerOut.any fun q => q.kind == .load && q.tape && q.grp == s.foc.grp && q.pa == p.pa then s
  else
    let t := s.g.tape
    let q : PeerReq := { kind := .load, pa := p.pa, n := p.n, grp := s.foc.grp, tape := true, ctx := s.foc.ctx,
                         frec := s.cmdRec s.foc.grp t.opMask t.opPc t.opRet .tape p.va ⟨kUnrouted, BitVec.ofNat 64 p.pa⟩ }
    (((s.drainRange s.foc.core p.pa p.n).dropRange s.foc.core p.pa p.n).send q).1

/-- The youngest spilled record filled. -/
def State.fillOne (s : State) (fore : Bool) : Moved :=
  if s.tapeStuck then .held s
  else
    match s.g.tape.youngest with
    | none => .over s
    | some t =>
      let n := s.g.tape.b - t
      if s.gr.lrec.slice < s.g.tape.top - t then .over s
      else
        match s.mapRun .tape (s.segBase + BitVec.ofNat 64 t) n with
        | (s, ps, []) =>
          match s.readSegment ps with
          | (s, b, []) =>
            let s := s.tapePut t b.data
            let s := (List.range (n / 8)).foldl (fun s i => if ((b.poi.drop (8 * i)).take 8).any id then s.tapePoison (t + 8 * i) 8 else s) s
            .done (s.modTape fun x => { x with b := t, fetched := [] })
          | (s, _, ask) => .wait (ask.foldl State.askSegment s)
        | (s, _, fs) => s.tapeHold fore false fs

/-- Transfers in the background until the occupancy is at most, or at least, half the slice. -/
def State.spillToHalf (s : State) : Nat → State
  | 0 => s
  | n + 1 =>
    if 2 * s.g.tape.occ ≤ s.gr.lrec.slice then s
    else match s.spillOne false with | .done s => s.spillToHalf n | .held s => s | .over s => s | .noPlace s => s | .wait s => s
def State.fillToHalf (s : State) : Nat → State
  | 0 => s
  | n + 1 =>
    if s.gr.lrec.slice ≤ 2 * s.g.tape.occ || s.g.tape.b = 0 then s
    else match s.fillOne false with | .done s => s.fillToHalf n | .held s => s | .over s => s | .noPlace s => s | .wait s => s

/-- The group has a tape that the tape engine may move now: no transfer of it waits for the driver or for a peer. -/
def State.tapeIdle (s : State) : Bool :=
  s.g.parent.isNone && s.g.tape.st != .closed && s.t.phase == .resident && s.gr.phase == .running && !s.tapeStuck
    && !s.pkg.peerOut.any fun q => q.tape && q.grp == s.foc.grp
/-- Occupancy stands above three quarters, and the oldest record has room in the segment (R174). -/
def State.spillDue (s : State) : Bool :=
  s.tapeIdle && 3 * s.gr.lrec.slice < 4 * s.g.tape.occ && (match s.g.tape.oldest with | some (_, e) => e ≤ s.gr.lrec.tseg | none => false)
/-- A pop has left the occupancy below a quarter with records spilled; the fill goes on to half the slice, also past the answers of a peer,
while the youngest fits (R174). -/
def State.fillDue (s : State) : Bool :=
  s.tapeIdle && s.g.tape.filling && 2 * s.g.tape.occ < s.gr.lrec.slice && (match s.g.tape.youngest with | some t => s.g.tape.top - t ≤ s.gr.lrec.slice | none => false)

/-- TAPE_SPILL (R174). -/
def execTapeSpill (grp : Nat) (s : State) : Out :=
  let s' := s.focusGrp grp
  .next (if s'.spillDue then s.unmet (s'.spillToHalf s'.g.tape.recs.length).bump else s)
/-- TAPE_FILL (R174). -/
def execTapeFill (grp : Nat) (s : State) : Out :=
  let s' := s.focusGrp grp
  .next (if s'.fillDue then s.unmet (s'.fillToHalf s'.g.tape.recs.length).bump else s)

/-- A transfer of the group's tape is out at a peer. -/
def State.tapeOut (s : State) (grp : Nat) : Bool := s.pkg.peerOut.any fun q => q.tape && q.grp == grp
/-- A group's tape discarded with its held transfer, under what is left of it (R178, R361): what a peer still sends for it is dropped. -/
def State.dropTape (s : State) (grp : Nat) (left : Tape) : State :=
  let g := s.grpAt grp
  let s := s.setGrpAt grp { g with tape := { left with closing := g.tape.closing } }
  if s.tapeOut grp then
    s.modPkg fun p => { p with peerOut := p.peerOut.map fun (q : PeerReq) => if q.tape && q.grp == grp && q.kind == .load then { q with kind := .pref } else q }
  else s
/-- The TCLOSE of a group completes once no transfer of it is out (R175). -/
def State.tapeEnded (s : State) (grp : Nat) : State :=
  let g := s.grpAt grp
  match g.tape.closing with
  | some t => if s.tapeOut grp then s else (s.setGrpAt grp { g with tape := { g.tape with closing := none } }).flagLanded grp t
  | none => s

/-- A held transfer retried by the tape engine, also while its group is split (R34, R167, R177): one in the background goes on to its
end. -/
def State.retryTape (s : State) (grp : Nat) : State :=
  let s := s.focusGrp grp
  match s.g.tape.held with
  | none => s
  | some spill =>
    if s.c.holds (.tape grp) || s.t.phase != .resident || s.g.phase == .retired then s
    else
      let back := s.g.tape.heldBack
      let s := s.modTape fun t => { t with held := none }
      let n := s.g.tape.recs.length
      let go (s : State) : State := if back then (if spill then s.spillToHalf n else s.fillToHalf n) else s
      match (if spill then s.spillOne false else s.fillOne false) with
      | .done s => go s
      | .held s => s.modTape fun t => { t with heldBack := back }
      | .over s => s
      | .noPlace s => s
      | .wait s => s

/-! ## Records (R170 to R172) -/

/-- The bytes of a record's values, padded to 16 (R170). -/
def padTo16 (n : Nat) : Nat := (n + 15) / 16 * 16

/-- A narrowed value (R172). -/
def narrowBf (n : Nat) : Nat :=
  match unpack fp32 n with
  | .nan neg _ _ _ => bf16.signed neg 0x7FC0
  | .inf neg => bf16.signed neg 0x7F80
  | x => (satNum bf16 {} x).bits

/-- The source words of a record, word-major, then ascending lane (R170). -/
def State.recordWords (s : State) (a : Opnd) (n : Nat) (act : Mask) : List Reg :=
  (List.range n).flatMap fun j => (s.g.lanesOf act).map fun l => s.g.vReg l (a.vIdx + j)

/-- A record: its bytes, and the offsets of its poisoned words. -/
def tapeRecord (kind n : Nat) (act : Mask) (seq : W32) (ws : List Reg) (marker : Option (W64 × W32)) : List Byte × List Nat :=
  let half := kind == 2
  let vals := ws.flatMap fun r => if half then leBytes 2 (narrowBf r.val.toNat) else leBytes 4 r.val.toNat
  let vals := vals ++ List.replicate (padTo16 vals.length - vals.length) 0
  let mid := match marker with | some (va, q) => leBytes 8 va.toNat ++ leBytes 4 q.toNat ++ leBytes 4 0 | none => []
  (vals ++ mid ++ leBytes 8 act.toNat ++ leBytes 2 n ++ leBytes 1 kind ++ leBytes 1 0 ++ leBytes 4 seq.toNat,
   if half then [] else ((List.range ws.length).filter fun i => (ws.getD i {}).poi).map (4 * ·))

/-- Room made for a record by spilling the oldest ones (R174). -/
def State.makeRoom (s : State) (size : Nat) : Nat → Moved
  | 0 => .done s
  | n + 1 =>
    if s.g.tape.occ + size ≤ s.gr.lrec.slice then .done s
    else match s.spillOne true with | .done s => s.makeRoom size n | r => r

/-- A record pushed (R170 to R174): a full slice waits for its spill or traps with Tape Overflow. -/
def State.push (s : State) (sf : Sf) (act : Mask) (kind n : Nat) (a : Opnd) (marker : Option (W64 × W32)) (st : TapeSt) : Did :=
  let s := s.modTape fun t => { t with opMask := act, opPc := s.g.iss.pc, opRet := s.g.retired }
  let ws := s.recordWords a n act
  let (bs, poi) := tapeRecord kind n act s.g.tape.seq ws marker
  match s.makeRoom bs.length (s.g.tape.recs.length + 1) with
  | .over s => .done s (failAll s.g act { cause := cTapeOver })
  | .held s => .stall s .tape
  | .wait s => .stall s .fill
  | .noPlace s => .stall s .fault
  | .done s =>
    let (s, tag) := s.flagStart (s.sfNow sf)
    let t := s.g.tape.top
    let s := poi.foldl (fun s o => s.tapePoison (t + o) 4) (s.tapePut t bs)
    let s := s.modTape fun x => { x with top := t + bs.length, seq := x.seq + 1, recs := x.recs ++ [t], st, filling := x.fillsOn s.gr.lrec.slice (t + bs.length) }
    let nf := if kind == 2 then (s.g.lanesOf act).filter fun l => (List.range n).any fun j => !finite32 (s.g.vReg l (a.vIdx + j)).val.toNat else []
    .done ((s.modG fun g => g.modLanes nf fun _ x => x.raise fNF).flagEnd tag) []

/-! ## The words -/

/-- The checks 1 to 3 of R360, then the effect. -/
def State.tapeOp (s : State) (p : Pred) (f : VF) (conv last : Bool) (states : TapeSt → Bool) (k : State → Mask → Did) : Out :=
  (if conv then s.performWide p (fun _ => true) else s.perform false p (fun _ => true)) fun s act =>
    if s.flagFull (s.sfNow f.sf) then s.fullWait (s.sfNow f.sf)
    else if s.g.parent.isSome || s.gr.lrec.tape = 0 then .done s (failAll s.g act .opndLate)
    else if conv && !s.g.converged act then .done s (failAll s.g s.g.iss.set .opndLate)
    else if last && s.g.iss.pc.toNat ≠ s.g.iss.bb.toNat + 8 * (codeAt s.g.iss.hdr 52 6 + 1) then .done s (failAll s.g act { cause := cIllInstr })
    else if !states s.g.tape.st then .done s (failAll s.g act .opndLate)
    else k s act

/-- A change of the tape that completes at once (R175). -/
def State.tapeDone (s : State) (f : VF) (g : Tape → Tape) : Did :=
  let (s, tag) := s.flagStart (s.sfNow f.sf)
  .done ((s.modTape g).flagEnd tag) []

/-- TOPEN (R169, R361). -/
def execTopen (p : Pred) (f : VF) (s : State) : Out :=
  s.tapeOp p f true false (· == .closed) fun s _ => s.tapeDone f fun t => { st := .normal, closing := t.closing }

/-- TREC (R362): suppressed in a span. -/
def execTrec (p : Pred) (f : VF) (s : State) : Out :=
  s.tapeOp p f false false (· != .closed) fun s act =>
    let n := f.m % 8 + 1
    let half := f.m / 8 % 2 == 1
    if s.g.tape.st == .span then s.tapeDone f id
    else if half && (s.recordWords f.a n act).any (·.poi) then .done s (failAll s.g act (.poison f.a))
    else s.push f.sf act (if half then 2 else 0) n f.a none s.g.tape.st

/-- TMARK (R363). -/
def execTmark (p : Pred) (f : VF) (s : State) : Out :=
  s.tapeOp p f true true (· == .normal) fun s act =>
    s.push f.sf act 1 (f.m % 16) f.a (some (s.g.iss.pc + 8, s.g.tape.seq + 1)) .span

/-- TEND (R365): at the end of a recompute every lane enters the block of the pop that began it. -/
def execTend (p : Pred) (f : VF) (s : State) : Out :=
  s.tapeOp p f true false (fun st => st == .span || st == .recompute) fun s act =>
    if s.g.tape.st == .span then s.tapeDone f fun t => { t with st := .normal }
    else
      match s.target s.g.tape.ret with
      | (s, .wait id) => .stall s (.reply [id])
      | (s, k) => if k.ok then (s.jump act s.g.tape.ret).tapeDone f fun t => { t with st := .normal } else .done s (failAll s.g act .illHdr)

/-- The status words of TSTAT (R366, R153). -/
def Tape.status (t : Tape) (det : Bool) (sel : Nat) : Nat :=
  match sel with
  | 0 => t.seq.toNat * 2 ^ 32 + (if t.held.isSome && !det then 4 else 0)
      + (match t.st with | .closed => 0 | .normal => 1 | .span => 2 | .recompute => 3)
  | 1 => t.top % 2 ^ 32
  | _ => if det then 0 else t.b % 2 ^ 32 * 2 ^ 32 + t.occ % 2 ^ 32

def execTstat (p : Pred) (f : VF) (s : State) : Out :=
  s.tapeOp p f false false (fun _ => true) fun s _ => .done (s.setG (s.g.putS f.d.sIdx ⟨s.g.tape.status s.gr.det (f.m % 4), false⟩)) []

/-- TCLOSE (R361, R178): the tape and a transfer that is held are discarded; its flag waits for the transfers that are out (R175). A
second TCLOSE waits for the first. -/
def execTclose (p : Pred) (f : VF) (s : State) : Out :=
  s.tapeOp p f true false (fun _ => true) fun s _ =>
    if s.g.tape.closing.isSome then .hold
    else
      let (s, tag) := s.flagStart (s.sfNow f.sf)
      let s := if s.g.tape.st == .closed then s else s.dropTape s.foc.grp { seq := s.g.tape.seq }
      .done ((s.modTape fun t => { t with closing := tag }).tapeEnded s.foc.grp) []

/-! ## TPOP -/

/-- A record header as a pop reads it (R171), or none where it is poisoned or malformed (R173). -/
structure RecHdr where
  mask : Mask := 0
  wpl : Nat := 0
  kind : Nat := 0
deriving DecidableEq, Repr, Inhabited

def recHdr (b : Bytes) : Option RecHdr :=
  let x := ofLe b.data
  let h : RecHdr := { mask := BitVec.ofNat 64 x, wpl := bitsAt x 64 16, kind := bitsAt x 80 8 }
  if b.bad || bitsAt x 88 8 ≠ 0 || 2 < h.kind || 8 < h.wpl || h.kind ≠ 1 && h.wpl = 0 then none else some h

/-- Bytes of a value, of the values, and of the whole record (R170). -/
def RecHdr.eb (h : RecHdr) : Nat := if h.kind = 2 then 2 else 4
def RecHdr.lanes (h : RecHdr) : List Nat := (List.range 64).filter fun l => h.mask.getLsbD l
def RecHdr.pad (h : RecHdr) : Nat := padTo16 (h.eb * h.wpl * h.lanes.length)
def RecHdr.size (h : RecHdr) : Nat := h.pad + (if h.kind = 1 then 32 else 16)

/-- Value j of the i-th lane in MASK, widened exactly (R172), with its poison. -/
def State.popValue (s : State) (h : RecHdr) (t i j : Nat) : Reg :=
  let o := t + h.eb * (j * h.lanes.length + i)
  let b := s.tapeGet (o / 4 * 4) 4
  let x := bitsAt (ofLe b.data) (8 * (o % 4)) (8 * h.eb)
  ⟨BitVec.ofNat 32 (if h.kind = 2 then x * 65536 else x), b.bad⟩

/-- The top record popped (R364); it is resident. R173 gives a fate to poison in the values and in the header alone: a poisoned word of a
marker's resume block is read as it stands, and B takes its address without poison (log entry 95). -/
def State.popTop (s : State) (f : VF) (act : Mask) : Did :=
  let n := f.m % 8 + 1
  let top := s.g.tape.top
  match recHdr (s.tapeGet (top - 16) 16) with
  | none => .fatal s cMachine 0
  | some h =>
    if (if h.kind = 1 then n < h.wpl else h.wpl ≠ n) then .done s (failAll s.g act .opndLate)
    else
      let t := top - h.size
      let live := h.mask &&& s.g.alive
      let vals (l : Nat) : List Reg := tab h.wpl (s.popValue h t (h.lanes.idxOf l))
      let bad := maskOf ((s.g.lanesOf live).filter fun l => (vals l).any (·.poi))
      if bad != 0 && s.ptFree.isNone then
        .done s (failAll s.g (bad &&& act) { cause := cTableFull } ++ failAll s.g (act &&& ~~~bad) { cause := 0 })
      else
        let s' := s.modG fun g => g.modLanes (g.lanesOf live) fun l x => x.putRegs g.wb f.d (vals l)
        let s' := (s'.g.lanesOf live).foldl (fun s l => (vals l).foldl (fun s r => s.logReg .tpop l r) s) (s'.logIn .tpop 64 ((s.tapeGet (top - 16) 16).data))
        let s' := if bad == 0 then s' else s'.ptMake f.d h.wpl bad none
        let mark := ofLe ((s.tapeGet (t + h.pad) 16).data.take 8)
        let (c, b) := if h.kind = 1 then (live, mark) else (0, 0)
        let s' := s'.modG fun g => (g.putM f.c.mIdx (BitVec.allOnes 64) c 0).putS f.b.sIdx ⟨b, false⟩
        .done (s'.modTape fun x =>
          { x with filling := x.fillsOn s.gr.lrec.slice t, top := t, recs := x.recs.dropLast, opMask := act, opPc := s.g.iss.pc, opRet := s.g.retired
                   ret := if h.kind = 1 then s.g.iss.bb else x.ret
                   st := if h.kind = 1 then .recompute else x.st }) []

/-- TPOP (R364): a record that is not resident is filled first. -/
def execTpop (p : Pred) (f : VF) (s : State) : Out :=
  s.tapeOp p f true false (· == .normal) fun s act =>
    let t := s.g.tape
    if t.top = 0 then .done s (failAll s.g s.g.iss.set { cause := cTapeUnder })
    else if t.b < t.top then s.popTop f act
    else
      match (s.modTape fun t => { t with opMask := act, opPc := s.g.iss.pc, opRet := s.g.retired }).fillOne true with
      | .done s => s.popTop f act
      | .noPlace s => .stall s .fault
      | .held s => .stall s .tape
      | .wait s => .stall s .fill
      | .over s => .fatal s cMachine 0

end Sys2Proof.Machine
end

