-- ==== Sys2Proof/Machine/Retire.lean ====
section
/-! DEFINITION. The retirement of groups and teams (R197), and the eviction and restore of a team (R200, R424 to R427). -/

namespace Sys2Proof.Machine

/-! ## Retirement -/

/-- Commands of the group `k` are the group's own: its lanes are all among the group's, as those of the parts it was fused from are. -/
def Grp.owns (g q : Grp) : Bool := q.team == g.team && q.idx == g.idx && g.base ≤ q.base && q.base + q.gw ≤ g.base + g.gw
/-- The group has commands of an engine, pushes or collectives that have not completed, its own or those of its parts. -/
def State.cmdsOut (s : State) (grp : Nat) : Bool :=
  let g := s.grpAt grp
  let t := s.teamAt g.team
  let mine (k : Nat) : Bool := g.owns (s.grpAt k)
  (t.cmds.any fun c => mine c.grp) || (t.pushes.any fun u => mine u.grp) || t.colls.any fun c => mine c.grp

/-- A group or part can retire (R197): its lanes have exited, its flags are clear, its commands have completed. -/
def State.canRetire (s : State) (grp : Nat) : Bool :=
  let g := s.grpAt grp
  g.phase == .running && (s.teamAt g.team).phase == .resident && g.handler.isNone && g.stall == .none && !g.stopped && g.mmaPend.isNone
    && (g.laneIdx.all fun l => (g.lane l).st == .exited) && g.flagsClear && g.fdone.isEmpty && !s.cmdsOut grp

/-- GROUP_RETIREMENT (R197): the group counts as retired for team flushes (R139), and for gangs that name it (R339). -/
def execGroupRetirement (grp : Nat) (s : State) : Out :=
  if !s.canRetire grp then .next s
  else
    let s := (s.focusGrp grp).modG fun g => { g with phase := .retired }
    let s := if s.g.parent.isNone then s.gangRetired s.g.idx else s
    let team := s.foc.team
    .next ((s.runFlushes team).countSyncs team)

/-- A team can retire: all its groups have, and what has landed for it is counted. -/
def State.canRetireTeam (s : State) (team : Nat) : Bool :=
  let t := s.teamAt team
  t.phase == .resident && (s.gridAt t.grid).phase == .running && t.landed.isEmpty && s.groups.all fun e => e.2.team != team || e.2.phase == .retired

/-- The allocations of a team set are released once all its teams have retired (R32). -/
def State.releaseSet (s : State) (team : Nat) : State :=
  let ks := s.setOf team
  if ks.all fun k => (s.teamAt k).phase == .retired then
    ks.foldl (fun s k =>
      let t := s.teamAt k
      if t.size = 0 then s else (s.leaveScr t (s.gridAt t.grid).ctx).setTeamAt k { t with size := 0 }) s
  else s

/-- What a team's retirement does: the last flushes, its tapes discarded (R178), records given back, room released, and the nodes
that drain. -/
def State.retireTeam (s : State) (team : Nat) : State :=
  let s := (s.runFlushes team).countSyncs team
  let s := s.flushCover team (s.teamAt team).flushed fun _ => true
  let s := (s.teamAt team).groups.foldl (fun s k => s.dropTape k {}) s
  let t := s.teamAt team
  let s := s.setGridAt t.grid ((s.gridAt t.grid).giveBack t.held)
  let s := s.unreserve (t.core / 96) t.reserved
  let s := s.setTeamAt team { t with phase := .retired, held := [], ports := [], preReq := false, reserved := 0 }
  let s := s.releaseSet team
  s.drainNodes t.grid (s.gridAt t.grid).nodes.length

/-- A team can retire now: what its retirement releases at .pkg, with the records it gives back (R401), has performed. -/
def State.retireReady (s : State) (team : Nat) : Bool := (s.teamAt team).held.isEmpty || s.coreClear (s.teamAt team).core
/-- TEAM_RETIREMENT (R197, R139, R401 to R403). -/
def execTeamRetirement (team : Nat) (s : State) : Out :=
  if !s.canRetireTeam team then .next s
  else
    let s' := if (s.teamAt team).held.isEmpty then s else s.flushCore (s.teamAt team).core
    .next (s.unmet (if s'.retireReady team then s'.retireTeam team else s'))

/-! ## Eviction and restore -/

/-- Commands and transfers of a team in flight that must run to completion before it is saved (R134, R177): all but those their unit
holds, with their writes and those of its tapes on their way to peers, and what a retired tape instruction has still to end. -/
def State.inFlight (s : State) (team : Nat) : Bool :=
  let t := s.teamAt team
  let c := s.ctxAt (s.gridAt t.grid).ctx
  !t.landed.isEmpty || (t.cmds.any fun e => !c.holds (.engine team e.kind.chan))
    || (s.pkg.peerOut.any fun q => q.lost.isNone && ((q.cmd.any fun x => x.1 == team) && q.kind == .store || q.tape && (s.grpAt q.grp).team == team))

/-- A requested team can be evicted (R424). -/
def State.canEvict (s : State) (team : Nat) : Bool :=
  let t := s.teamAt team
  t.preReq && t.phase == .resident && s.allBlocked team && (s.setOf team).all fun k => !s.inFlight k

/-- The waits of a group as they are saved (R426, R345): a remote load is issued again, an MMA starts at its latch again, and an access
that faulted is retried from the start, with nothing of what its peers had answered (R46). -/
def State.saveWait (s0 : State) (grp : Nat) : State :=
  let g : Grp := { s0.grpAt grp with replies := [] }
  let s := s0.setGrpAt grp g
  match g.stall with
  | .remote ids => (s.setGrpAt grp { g with stall := .none }).modPkg fun p => { p with peerOut := p.peerOut.filter fun q => !ids.contains q.id }
  | .latch _ => s.setGrpAt grp { g with stall := .none }
  | .port _ _ => s.setGrpAt grp { g with stall := .none }
  | _ => s

/-- One team of a set saved. -/
def State.saveTeam (s : State) (k : Nat) : State :=
  let t := s.teamAt k
  let s := s.unreserve (t.core / 96) t.reserved
  let s := if t.size = 0 then s else s.leaveScr t (s.gridAt t.grid).ctx
  let c := s.ctxAt (s.gridAt t.grid).ctx
  let s := if c.dbgTrace then s.setCtxAt (s.gridAt t.grid).ctx { c with trGap := true } else s
  let s := s.setTeamAt k { s.teamAt k with phase := if t.phase == .resident then .saved else t.phase, size := 0, reserved := 0, preReq := false }
  (s.groups.filter fun e => e.2.team == k && e.2.phase == .running).foldl (fun s e => s.saveWait e.1) s

/-- Room of the save area that a team takes during a switch; a switch whose area is full stops short (R429). -/
def State.saveRoom (s : State) (ctx : Nat) : State × Bool :=
  let c := s.ctxAt ctx
  if c.ctxState ≠ 1 then (s, true)
  else
    let n := 1 + (Config.freeHalf (s.freeKey 0)).toNat % 4096
    let need := c.ctxNeed.toNat + n
    let s := (s.setCtxAt ctx { c with ctxNeed := BitVec.ofNat 32 need }).bump
    if need ≤ c.ctxSaveSz.toNat then (s.privateWrite (c.ctxSave.toNat + 65536 * c.ctxNeed.toNat) (65536 * n), true)
    else (s.setCtxAt ctx { s.ctxAt ctx with ctxShort := true, ctxState := 0 }, false)

/-- A switch that stops short lets go of its requests; the teams it saved are restored as any other (R429). -/
def State.dropRequests (s : State) (ctx : Nat) : State :=
  { s with teams := s.teams.update fun _ t => if (s.gridAt t.grid).ctx == ctx then { t with preReq := false } else t }

/-- EVICTION (R426): the team is saved with its whole set (R32), once every store of their cores has performed, which a core that
restores them must see. -/
def execEviction (team : Nat) (s : State) : Out :=
  if !s.canEvict team then .next s
  else
    let cores := (s.setOf team).map fun k => (s.teamAt k).core
    let s' := cores.foldl (fun s c => s.flushCore c) s
    if s'.met ≠ s.met then .next s
    else if !cores.all s'.coreClear then .next s'
    else
      let ctx := (s.gridAt (s.teamAt team).grid).ctx
      let (s', ok) := s'.saveRoom ctx
      if !ok then .next (s'.dropRequests ctx) else .next ((s'.setOf team).foldl (fun s k => s.saveTeam k) s')

/-- The cores that a saved set takes when its team `team` takes `core`: the others the lowest of the cluster that fit. -/
def State.restoreCores (s : State) (team core : Nat) : Option (List (Nat × Nat)) :=
  let rest := (s.setOf team).filter (· != team)
  (s.seat team core).bind fun s' => (s'.coresIn (core / 96) rest).map fun cs => (team, core) :: rest.zip cs

/-- A context being restored runs again once none of its teams is saved (R430). -/
def State.settleResume (s : State) (ctx : Nat) : State :=
  let c := s.ctxAt ctx
  if c.ctxState == 3 && s.teams.all fun e => e.2.phase != .saved || (s.gridAt e.2.grid).ctx != ctx then s.setCtxAt ctx { c with ctxState := 0 } else s

/-- TEAM_RESTORE (R200, R399, R427): the set of a saved team is placed again, when no grid before its own in order has something to
place that fits and no saved team of its grid comes before it; each wait is taken up as it stood. The new cores' caches hold nothing of
the team's past. -/
def execTeamRestore (team core : Nat) (s : State) : Out :=
  let grid := (s.teamAt team).grid
  if !s.canRestore team || s.outranked grid || !(s.nextSaved grid).any (s.setOf team).contains then .next s
  else
    match s.restoreCores team core with
    | none => .next s
    | some ks =>
      let ctx := (s.gridAt (s.teamAt team).grid).ctx
      .next <| State.settleResume (ctx := ctx) <| ks.foldl (fun s x =>
        match s.seat x.1 x.2 with
        | none => s
        | some s =>
          (s.teamAt x.1).groups.foldl State.retryTape (s.dropValid x.2 fun _ => true)) s

end Sys2Proof.Machine
end

