-- ==== Sys2Proof/Machine/Evict.lean ====
section
/-! DEFINITION. The fault ring as the driver reads it (R45), and the switch, resumption and end of a context (R428 to R431). -/

namespace Sys2Proof.Machine

/-! ## Records that wait -/

/-- The record of a context that is oldest by SEQ among the heads of its cores' slots and of its units' queues: where it stands. -/
def State.nextWaiting (s : State) (ctx : Nat) : Option (FRec × Option Nat) :=
  let c := s.ctxAt ctx
  let slots := s.cores.filterMap fun e => (e.2.slots.find? fun x => x.1 == ctx).map fun x => (x.2, some e.1)
  let units := (c.unitRecs.head?.map fun x => (x.2, (none : Option Nat))).toList
  (slots ++ units).foldl (fun r x => match r with | none => some x | some y => if x.1.seq.toNat < y.1.seq.toNat then some x else some y) none

/-- The request leaves the list of those still out, and a TCLOSE that waited for it may complete (R175). -/
def State.dropReq (s : State) (q : PeerReq) : State :=
  let s := s.modPkg fun p => { p with peerOut := p.peerOut.filter fun x => x.id != q.id }
  if q.tape then s.tapeEnded q.grp else s
/-- What waits for a write that has completed: its flag, its count in a barrier object, which the release of the team's core comes
before, and the vector of a completion word (R97, R98, R104, R123, R130, R456). -/
def State.settleWrite (s : State) (q : PeerReq) : State :=
  let s := match q.flag with | some f => s.flagLanded q.grp f | none => s
  match q.bar, q.cmd with
  | some b, some c => s.setTeamAt c.1 { s.teamAt c.1 with landed := (s.teamAt c.1).landed ++ [b] }
  | _, _ => s
/-- The lost writes whose record has reached the ring are complete (R456). -/
def State.settleLost (s : State) (ctx : Nat) (seq : W32) : State :=
  match s.pkg.peerOut.find? fun q => q.ctx == ctx && q.lost == some seq with
  | some q => (s.dropReq q).settleWrite q
  | none => s

/-- Records drain to the ring while it has room (R45); those of a saved context go first once it is being restored (R430). -/
def State.drainRecs (s : State) (ctx : Nat) : Nat → State
  | 0 => s
  | n + 1 =>
    let c := s.ctxAt ctx
    if c.fqFull then s
    else
      match c.savedSlots with
      | r :: rs => if c.ctxState == 2 && !c.killing then s else ((s.setCtxAt ctx { c with savedSlots := rs }).ringWrite ctx r false).drainRecs ctx n
      | [] =>
        match s.nextWaiting ctx with
        | none => s
        | some (r, some core) =>
          let co := s.coreAt core
          ((s.setCoreAt core { co with slots := co.slots.erase (ctx, r) }).ringWrite ctx r false).drainRecs ctx n
        | some (r, none) =>
          (((s.setCtxAt ctx { c with unitRecs := c.unitRecs.drop 1 }).ringWrite ctx r false).settleLost ctx r.seq).drainRecs ctx n
/-- Every record of a context that waits. -/
def State.waitingRecs (s : State) (ctx : Nat) : Nat :=
  let c := s.ctxAt ctx
  c.savedSlots.length + c.unitRecs.length + s.cores.foldl (fun n e => n + (e.2.slots.filter fun x => x.1 == ctx).length) 0
def State.drainAll (s : State) (ctx : Nat) : State := s.drainRecs ctx (s.waitingRecs ctx)

/-- FQHEAD written (R45): ring room is freed, and records that wait reach the ring. -/
def State.writeHead (s : State) (ctx : Nat) (head : W32) : State := (s.setCtxAt ctx { s.ctxAt ctx with fqHead := head }).drainAll ctx
/-- FQHEAD_WRITE (R45). -/
def execFqheadWrite (ctx : Nat) (head : W32) (s : State) : Out := s.regEvent (s.writeHead ctx head)

/-- FQCTL_RETRY (R34): every held tape transfer of the context is tried again. -/
def State.retryHeld (s : State) (ctx : Nat) : State :=
  let ks := s.groups.filterMap fun e =>
    if e.2.tape.held.isSome && e.2.phase != .retired && (s.teamAt e.2.team).phase == .resident && (s.gridAt (s.teamAt e.2.team).grid).ctx == ctx then some e.1 else none
  (ks.foldl State.retryTape s).bump
def execFqctlRetry (ctx : Nat) (s : State) : Out := s.regEvent (s.retryHeld ctx)

/-! ## Context switch -/

/-- Some team of the context is resident. -/
def State.anyResident (s : State) (ctx : Nat) : Bool :=
  s.teams.any fun e => e.2.phase == .resident && (s.gridAt e.2.grid).ctx == ctx
/-- The grids of a context in a phase. -/
def State.gridsIn (s : State) (ctx : Nat) (p : GridPhase → Bool) : List Nat := (s.grids.filter fun e => e.2.ctx == ctx && p e.2.phase).map (·.1)

/-- A switch asked for (R428, R429): nothing of the context is placed any more, and each resident team is asked to leave. -/
def State.switchOut (s : State) (ctx : Nat) : State :=
  let c := s.ctxAt ctx
  if c.ctxState ≠ 0 then s
  else
    let s := s.setCtxAt ctx { c with ctxState := 1, ctxNeed := 0 }
    { s with teams := s.teams.update fun _ t => if t.phase == .resident && (s.gridAt t.grid).ctx == ctx then { t with preReq := true } else t }

/-- SWITCH (R428). -/
def execSwitch (ctx : Nat) (s : State) : Out := s.regEvent (s.switchOut ctx)

def Partial.toSpill (p : Partial) : Partial := { p with spilled := true }
/-- The core reduction buffers and the staging of a grid written to the spill region, or its end for want of room (R429, R148). -/
def State.spillGrid (s : State) (k : Nat) : State :=
  let gr := s.gridAt k
  let n := (s.teamsOf k).foldl (fun n e => n + (e.2.contribs.filter fun c => !c.spilled).length) ((gr.flight ++ gr.staged).filter fun p => !p.spilled).length
  let s' : State := { s with teams := s.teams.update fun _ t => if t.grid == k then { t with contribs := t.contribs.map fun (c : Contrib) => ({ c with spilled := true } : Contrib) } else t }
  let s' := s'.setGridAt k { gr with flight := gr.flight.map Partial.toSpill, staged := gr.staged.map Partial.toSpill }
  if n = 0 then s else if s'.rspOver gr.ctx then s.endGrid k cRedSpill 0 else s'.spillBytes gr.ctx (64 * n)

/-- Fault slots of a context taken into its saved image, in the order their records were formed (R429, R430). -/
def State.saveSlots (s : State) (ctx : Nat) : State :=
  let rs := s.cores.flatMap fun e => (e.2.slots.filter fun x => x.1 == ctx).map (·.2)
  let s := { s with cores := s.cores.update fun _ co => { co with slots := co.slots.filter fun x => x.1 != ctx } }
  let c := s.ctxAt ctx
  s.setCtxAt ctx { c with savedSlots := c.savedSlots ++ sortBy (fun a b => a.seq.toNat ≤ b.seq.toNat) rs }

/-- SWITCH_COMPLETE (R429, R383): with no team resident the rest is saved, the radiance cache through its image, or the switch stops
short. -/
def execSwitchComplete (ctx : Nat) (s : State) : Out :=
  let s0 := s
  if (s.ctxAt ctx).ctxState ≠ 1 || (s.ctxAt ctx).killing || s.anyResident ctx then .next s
  else
    let (s, ok) := s.saveRoom ctx
    if !ok then .next (s.dropRequests ctx)
    else
      let s := (((s.gridsIn ctx (· == .running)).foldl State.spillGrid s).saveSlots ctx).saveCache ctx
      let s := s.releaseSeg ctx
      .next (s0.unmet ((s.setCtxAt ctx { s.ctxAt ctx with ctxState := 2, trGap := true }).raise ctx))

/-- A resumption asked for (R430): a saved context is restored, the parameters of its radiance cache from the image (R383), while the
copies of published versions stand in the snapshot region as they did (R389); its waiting records go to the
ring first, and its teams are placed as room is found. -/
def State.resumeCtx (s : State) (ctx : Nat) : State :=
  if (s.ctxAt ctx).ctxState ≠ 2 then s
  else
    let s := s.readImage ctx
    ((s.setCtxAt ctx { s.ctxAt ctx with ctxState := 3 }).drainAll ctx).settleResume ctx
/-- CONTEXT_RESUME (R430). -/
def execContextResume (ctx : Nat) (s : State) : Out := s.regEvent (s.resumeCtx ctx)

/-- Every grid of the context ends (R431); STATE returns to 0 once their completion words are written. -/
def State.kill (s : State) (ctx : Nat) : State :=
  let s := (s.gridsIn ctx fun p => p == .pending || p == .running).foldl (fun s k => s.endGrid k cKilled 0) s
  ((s.setCtxAt ctx { s.ctxAt ctx with killing := true }).drainAll ctx).endKill ctx
/-- KILL (R431). -/
def execKill (ctx : Nat) (s : State) : Out := s.regEvent (s.kill ctx)

end Sys2Proof.Machine
end

