-- ==== Sys2Proof/Machine/Energy.lean ====
section
/-! DEFINITION. The bellows controller (R461, R462), scrubbing and soft errors (R59, R71, R72, R463). -/

namespace Sys2Proof.Machine

/-! ## Energy, in units of 10^-14 J -/

def uJ : Nat := 10 ^ 8
/-- What 1 µs adds before the accounts are credited (R461): 3 mJ less the static energy, never below 1.5 mJ. -/
def netEnergy (static : Nat) : Nat := max (1500 * uJ) (3000 * uJ - static)
def accountCap : Nat := 187500 * uJ
def reservoirCap : Nat := 3 * 10 ^ 14

/-- A cluster's account raised from the reservoir by at most n, never above the cap. -/
def State.credit (s : State) (k n : Nat) : State :=
  let a := bankGet s.accounts 0 k
  let x := min (min n s.pkg.reservoir) ((accountCap : Int) - a).toNat
  { s with accounts := bankPut 0 s.accounts k (a + x), pkg := { s.pkg with reservoir := s.pkg.reservoir - x } }
/-- A cluster whose account is at or below zero issues in 1 cc of every 4 (R462). -/
def State.narrowed (s : State) (k : Nat) : Bool := bankGet s.accounts 0 k ≤ 0

/-- RESERVOIR_TICK (R461): what a cluster's engines, caches and links moved in the last µs is debited, beside what its issues and products
debited as they came (log entry 83); the net addition is shared out, and what the caps leave is offered to one cluster after another,
starting one further than the last time. -/
def execReservoirTick (static : Nat) (debits : List Nat) (s : State) : Out :=
  let s := (List.range 16).foldl (fun s k => s.debitAt k (debits.getD k 0)) s
  let narrow := (List.range 16).any s.narrowed
  let net := netEnergy static
  let s := s.modPkg fun p =>
    { p with reservoir := min reservoirCap (p.reservoir + net), narrow := if narrow && p.narrow != 0xFFFFFFFF#32 then p.narrow + 1 else p.narrow }
  let s := (List.range 16).foldl (fun s k => s.credit k (net / 16)) s
  let first := (s.pkg.tickStart + 1) % 16
  let s := (List.range 16).foldl (fun s i => s.credit ((first + i) % 16) s.pkg.reservoir) s
  .next (s.modPkg fun p => { p with tickStart := first })

/-! ## Errors -/

/-- SCRUB (R463): words found uncorrectable are poisoned, counted and reported. -/
def execScrub (bad : List Nat) (s : State) : Out := .next (s.hbmPoison (bad.filter (· < hbmSize / 8)) true)

/-- Every grid of the package ends with the Machine Check cause. -/
def State.checkAll (s : State) : State :=
  (s.grids.filter fun e => e.2.phase == .pending || e.2.phase == .running).foldl (fun s e => s.endGrid e.1 cMachine 0) s

/-- SOFT_ERROR (R59, R71, R72, R463): a single-bit error is corrected and counted. An uncorrectable one is found at once in this
model (log entry 17). -/
def execSoftError (target : ErrTarget) (s : State) : Out :=
  match target with
  | .singleBit => .next (s.modPkg fun p => { p with pkgCE := if p.pkgCE == 0xFFFFFFFF#32 then p.pkgCE else p.pkgCE + 1 })
  | .memWord pa => .next (if s.isLocal pa && paLocal pa < hbmSize then s.hbmPoison [paLocal pa / 8] true else s)
  | .scrWord team word =>
    if s.scrSize team ≤ 4 * word then .next s
    else .next (let s' := s.scrPoison team (4 * word) 4; if (s.teamAt team).scrPoi.has word then s' else s'.countUe)
  | .register grp =>
    let g := s.grpAt grp
    if g.phase == .running then .next (s.countUe.endGrid (s.teamAt g.team).grid cMachine 0) else .next s
  | .barrier team _ =>
    if (s.gridAt (s.teamAt team).grid).phase == .running then .next (s.countUe.endGrid (s.teamAt team).grid cMachine 0) else .next s
  | .l1Line core line =>
    match (s.coreAt core).line line with
    | none => .next s
    | some l =>
      let s' := s.setCoreAt core ((s.coreAt core).dropLine line)
      if !l.isU then .next s'
      else
        let ws := l.words.foldl (fun (r : NSet) w => NSet.insert r (paLocal (line * 128 + w.off) / 8)) []
        .next (if s.isLocal (line * 128) then s'.hbmPoison ws true else s')
  | .firmware => .next ((s.checkAll.modPkg fun p => { p with bootState := 3, svn := p.minSvn }).countUe)

end Sys2Proof.Machine
end

