-- ==== Sys2Proof/Machine/Order.lean ====
section
/-! DEFINITION. FENCE and the cache control words CINV, CFLU and PREF (major 0x14, R324, R325). -/

namespace Sys2Proof.Machine

/-- FENCE orders the group's accesses at its scope (R81, R86). -/
def execFence (p : Pred) (f : MF) (s : State) : Out :=
  s.perform true p (fun _ => true) fun s _ =>
    let s := s.beforeWrite f.ord f.scope
    s.orWait (isRel f.ord) f.scope <|
    .done (if isAcq f.ord then s.acquire f.scope else s) []

/-- A cache control word: `op` on the physical address of each lane that passes every check of R311; other lanes do nothing. -/
def State.lineOp (s : State) (p : Pred) (f : MF) (op : State → Nat → Nat → State) : Out :=
  let x : Access := { acc := .load, a := f.a, b := f.b, imm := MF.immBytes f, n := f.width.bytes }
  s.perform false p (s.opsOk [(f.a, 1), (f.b, 1)]) fun s act =>
    let r := s.fates x 0 (fun _ _ => none) false (s.shares act false)
    .done (r.2.foldl (fun s y => match y.2.2 with | .at' (.mem _ pa cp) => op s pa cp | _ => s) r.1) []

def execCinv (p : Pred) (f : MF) (s : State) : Out := s.lineOp p f fun s pa _ => s.dropValid s.foc.core (· == pa / 128)
def execCflu (p : Pred) (f : MF) (s : State) : Out := s.lineOp p f fun s pa _ => s.sendU s.foc.core (pa / 128)
/-- A line fetched into the L1 under its policy, or with .nal into the LLC alone (R325); a remote line comes with the reply of its home,
which has no place in the LLC of this chip. -/
def State.prefetch (s : State) (h : Hint) (pa cp : Nat) : State :=
  let base := pa / 128 * 128
  if s.isLocal pa then (if h == .nal then ((s.meet base 128 false).gather (pa / 128)).touchLlc pa cp else (s.cachedRead base 128 cp h).1)
  else if !l1Keeps cp h || (s.co.line (pa / 128)).isSome then s
  else ((s.drainLine s.foc.core base).send { kind := .pref, pa := base, n := 128, grp := s.foc.grp, ctx := s.foc.ctx, fill := some (s.foc.core, linePri cp h) }).1
def execPref (p : Pred) (f : MF) (s : State) : Out := s.lineOp p f fun s pa cp => s.prefetch f.hint pa cp

end Sys2Proof.Machine
end

