-- ==== Sys2Proof/Machine/Inval.lean ====
section
/-! DEFINITION. Invalidation of translations (R25, R26) and the LLC control register's commands (R68, R69). -/

namespace Sys2Proof.Machine

/-- The page number of a VA, bits [54:16] (R25). -/
def pageNum (va : W64) : Nat := va.toNat / 65536 % 2 ^ 39
/-- Ranges of page numbers modulo 2^39 that meet. -/
def pagesMeet (p n q m : Nat) : Bool := (q + 2 ^ 39 - p) % 2 ^ 39 < n || (p + 2 ^ 39 - q) % 2 ^ 39 < m
/-- A request covers some pages; a count of 0 is the whole context (R44). -/
def InvReq.covers (r : InvReq) (p n : Nat) : Bool := r.count == 0 || pagesMeet r.page.toNat r.count.toNat p n

/-- The pages that an a-register's window lies in, its base page at the least. -/
def AReg.pages (a : AReg) : Nat := (a.baseva.toNat % 65536 + (a.limit.toNat - 1)) / 65536 + 1
/-- A register that a request makes STALE (R25). -/
def AReg.invalidate (a : AReg) (r : InvReq) : AReg :=
  if a.valid && canonical a.baseva && r.covers (pageNum a.baseva) a.pages then { a with attr := a.attr ||| 0x8000 } else a
/-- A TLB entry of a request's range. -/
def TlbEntry.hit (e : TlbEntry) (r : InvReq) : Bool :=
  let n := e.size.bytes / 65536
  r.covers (e.page * n % 2 ^ 39) n

/-- A request accepted (R25). -/
def State.invalidate (s : State) (ctx : Nat) (count : W32) : State :=
  let c := s.ctxAt ctx
  let r : InvReq := { page := c.invVA, count }
  let s := s.setCtxAt ctx { c with invCount := c.invCount + 1, invReqs := c.invReqs ++ [r] }
  let gone (es : List TlbEntry) : List TlbEntry := es.filter fun e => !(e.ctx == ctx && e.hit r)
  { s with
    pkg := { s.pkg with ctlb := s.pkg.ctlb.update fun _ es => gone es }
    groups := s.groups.update fun _ g => if (s.gridAt (s.teamAt g.team).grid).ctx == ctx then { g with a := g.a.map fun a => a.invalidate r } else g
    cores := s.cores.update fun _ co => { co with tlb := gone co.tlb } }

/-- INVALIDATION_REQUEST (R25): a write of INVCNT. -/
def execInvalidationRequest (ctx : Nat) (count : W32) (s : State) : Out := s.regEvent (s.invalidate ctx count)

/-- An access of the context has still to perform at .pod (R26): a buffered store, a partial in a U line, a contribution or
partial of an epoch, a write on its way to a peer, a command of an engine, or a tile between its locks. -/
def State.accessOut (s : State) (ctx : Nat) : Bool :=
  let mine (grid : Nat) : Bool := (s.gridAt grid).ctx == ctx
  (s.cores.any fun e => (e.2.wbuf.any fun w => w.ctx == ctx) || e.2.l1.any fun l => l.words.any fun w => mine w.grid)
    || (s.pkg.peerOut.any fun q => q.ctx == ctx && !q.dist && q.lost.isNone)
    || (s.teams.any fun e => mine e.2.grid && (!e.2.contribs.isEmpty || !e.2.cmds.isEmpty || !e.2.pushes.isEmpty || !e.2.colls.isEmpty))
    || (s.grids.any fun e => e.2.ctx == ctx && !(e.2.flight.isEmpty && e.2.staged.isEmpty))
    || s.groups.any fun e => mine (s.teamAt e.2.team).grid && (match e.2.stall with | .tile _ _ _ _ _ => true | _ => false)
/-- A page that the trace unit holds lies in the range of a request (R15). -/
def Ctx.holdsPage (c : Ctx) (r : InvReq) : Bool :=
  c.trOff.isSome && r.covers (pageNum (c.trBase + BitVec.ofNat 64 (65536 * (c.trTail.toNat % max 1 c.trNseg)))) 1
/-- The oldest request of a context is complete (R15, R26). -/
def State.invDone (s : State) (ctx : Nat) : Bool :=
  match (s.ctxAt ctx).invReqs with
  | r :: _ => !s.accessOut ctx && !(s.ctxAt ctx).holdsPage r
  | [] => false

/-- INVALIDATION_COMPLETE (R26). -/
def execInvalidationComplete (ctx : Nat) (s : State) : Out :=
  let c := s.ctxAt ctx
  .next (if s.invDone ctx then s.setCtxAt ctx { c with invReqs := c.invReqs.drop 1, invSeq := c.invSeq + 1 } else s)

/-- LLCCTL_UNPIN (R69): no line of the package is pinned. -/
def execLlcctlUnpin (s : State) : Out := s.regEvent (s.modPkg fun p => { p with pinned := [] })

/-- The pinned lines that keep their ways when a set has n of them: the lowest lines (log entry 14). -/
def keepPinned (n : Nat) (ls : NSet) : NSet := ls.foldl (fun r l => if (r.filter fun x => llcSet x == llcSet l).length < n then r ++ [l] else r) []
/-- PINW written (R69): above 8 it stays; the lines in released ways are unpinned. -/
def State.setPinw (s : State) (n : Nat) : State :=
  if 8 < n then s else s.modPkg fun p => { p with pinw := n, pinned := if n < p.pinw then keepPinned n p.pinned else p.pinned }
/-- PINW_WRITE (R69). -/
def execPinwWrite (pinw : BitVec 4) (s : State) : Out := s.regEvent (s.setPinw pinw.toNat)

end Sys2Proof.Machine
end

