-- ==== Sys2Proof/Machine/Atom.lean ====
section
/-! DEFINITION. Atomics: ATOM and the CAS family (major 0x13, R317 to R321), each lane one read-modify-write at the home of its
address, in ascending lane order (R78). -/

namespace Sys2Proof.Machine

/-- The 32-bit words of the register group at D in a lane, low word first. -/
def State.dWords (s : State) (l : Nat) (d : Opnd) (k : Nat) : List Reg :=
  match d with
  | .v i => tab k fun j => s.g.vReg l (i.val + j)
  | .k i => tab k fun j => s.g.kReg l (i.val + j)
  | .s i => (Val.regs (s.g.sVal i.val) true).take k
  | _ => []
/-- The value of some words, low word first. -/
def wordsVal (ws : List Reg) : Nat := ofLe (ws.flatMap fun r => leBytes 4 r.val.toNat)

/-- A spot of an atomic made ready, with the core's own stores to its line performed: a poisoned word is a fault (R71, R319), and a
remote one is sent to its home with what it computes by (R320). -/
def State.readyAtom (s : State) (x : Access) (mask : Mask) (l op : Nat) (data : List Byte) : Spot → State × Fate
  | .guard off => (s, .guard off)
  | .scr t off =>
    if (s.scrRead t off x.n).bad then (s, .flt { mask, lane := l, flt := ⟨kEcc, scrPoiAux (s.scrBadWord t off x.n)⟩ }) else (s, .at' (.scr t off))
  | .mem va pa cp =>
    let s := s.drainLine s.foc.core pa
    if s.isLocal pa then
      let s := ((s.meet pa x.n true).homeLine pa).touchLlc pa cp
      (s, match s.memFate mask l va [] (firstBad pa (tab x.n fun i => s.memPoi.has ((paLocal pa + i) / 8))) with | .got _ => .at' (.mem va pa cp) | f => f)
    else
      match s.pkg.peerOut.find? fun q => q.kind == .rmw && q.grp == s.foc.grp && q.lane == some l with
      | some q => (s, .wait q.id)
      | none =>
        let q : PeerReq := { kind := .rmw, pa, n := x.n, data, op, grp := s.foc.grp, lane := some l, ctx := s.foc.ctx, mode := .lane (s.g.lane l).fpl,
                             frec := s.grpRec kUnrouted .atomic (if x.n = 8 then 3 else 2) mask va (BitVec.ofNat 64 pa) }
        let r := (s.dropValid s.foc.core (· == pa / 128)).send q
        (r.1, .wait r.2)

/-- What has come back of a lane's remote atomic: the old value, a poisoned word that stopped it (R71, R319), or a loss, of which the
old value is a free value (R456; log entry 3). -/
def State.atomBack (s : State) (x : Access) (m : Mask × Nat) (r : Reply) : Fate :=
  let va := match s.look x none m.2 with | (_, .ok (.mem va _ _)) => va | _ => 0
  match r.data with
  | none => .got (leBytes x.n (Config.freeWord (s.freeKey (m.2 + 1))).toNat)
  | some d => s.memFate m.1 m.2 va (tab x.n fun i => d.getD i 0) (firstBad r.pa r.bytePoi)

/-- The checks of each lane's atomic, and what has come back of a remote one. -/
def State.atomFates (s : State) (x : Access) (op : Nat) (k : Nat) (d : Opnd) (xs : List (Mask × Nat)) : State × List (Mask × Nat × Fate) :=
  xs.foldl (fun a m =>
    let s := a.1
    let y : State × Fate :=
      match s.g.replies.find? fun r => r.lane == some m.2 with
      | some r => (s, s.atomBack x m r)
      | none =>
        let ws := s.dWords m.2 d k
        match s.look x (if ws.any (·.poi) then some d else none) m.2 with
        | (s, .fail f) => (s, .fail f)
        | (s, .flt va page f) => (s, .flt { mask := m.1, lane := m.2, va, page, flt := f })
        | (s, .ok p) => s.readyAtom x m.1 m.2 op (ws.flatMap fun r => leBytes 4 r.val.toNat) p
    (y.1, a.2 ++ [(m.1, m.2, y.2)])) (s, [])

/-- One lane's read-modify-write at a spot: the old value, with what is written and the flags it raises. -/
def State.atomAt (s : State) (n : Nat) (fn : Nat → Option Nat × W32) : Spot → State × Nat × W32
  | .scr t off =>
    let old := ofLe (s.scrRaw t off n).data
    ((match (fn old).1 with | some v => s.scrWrite t off (leBytes n v) | none => s), old, (fn old).2)
  | .mem _ pa cp =>
    let old := ofLe (s.hbm (paLocal pa) n)
    ((match (fn old).1 with | some v => s.homeWrite pa cp (leBytes n v) [] | none => s), old, (fn old).2)
  | .guard _ => (s, 0, 0)

/-- An atomic of the focused group: `k` words at D, `op` the operation as a peer is told it, and `fn` what a lane's words make of
the old value (R319, R321). -/
def State.rmwOp (s : State) (p : Pred) (f : MF) (k op : Nat) (fn : FpEnv → List Reg → Nat → Option Nat × W32) : Out :=
  let w := f.width.code
  let n := f.width.bytes
  let x : Access := { acc := .atomic, a := f.a, b := f.b, n }
  s.perform f.d.isS p (s.opsOk [(f.d, if f.d.isS then 1 else k), (f.a, 1), (f.b, 1)]) fun s act =>
    let s := (s.beforeWrite f.ord f.scope).beforeRead f.ord f.scope
    s.orWait (isRel f.ord) f.scope <|
    let (s, fs) := s.atomFates x op k f.d (s.shares act f.d.isS)
    if !(waitsOf fs).isEmpty then .stall s (.reply (waitsOf fs))
    else
      match s.noteFlts .atomic w (fltsOf fs) with
      | none => .stall s .fault
      | some (s, seq, c) =>
        let s := s.guardTouch .atomic w (guardsOf fs)
        let s0 := s
        let s := fs.foldl (fun s f' =>
          let l := f'.2.1
          match f'.2.2 with
          | .at' y =>
            let fo := fn (fpEnv (s0.g.lane l).fpl .lane) (s0.dWords l f.d k)
            let r := s.atomAt n fo y
            let a := s.digAddr false y
            let t := r.1.logRead .atomic a (leBytes n r.2.1)
            let r := (match (fo r.2.1).1 with | some v => t.wrote a (leBytes n v) | none => t, r.2)
            let g := r.1.g.deliver f.d f'.1 (leBytes n r.2.1)
            r.1.setG (if s.g.iss.handler then g else g.modLane l fun z => z.raise r.2.2)
          | .got bs =>
            let fo := fn (fpEnv (s0.g.lane l).fpl .lane) (s0.dWords l f.d k) (ofLe bs)
            let va := match s0.look x none l with | (_, .ok y) => s0.digAddr false y | _ => 0
            let s := s.logRead .atomic va bs
            let s := match fo.1 with | some v => s.wrote va (leBytes n v) | none => s
            let g := s.g.deliver f.d f'.1 bs
            s.setG (if s.g.iss.handler then g else g.modLane l fun z => z.raise fo.2)
          | .guard _ => s.setG (s.g.deliver f.d f'.1 (List.replicate n 0))
          | _ => s) s
        .done ((s.sampledIf f.a .atomic).afterRead f.ord f.scope) (s.failsOf fs ++ s.fltFails (fltsOf fs) (.trans seq c))

/-- f(old, d) of R318, with the flags of a float operation (R320). -/
def atomNew (env : FpEnv) (op : Nat) (t : Ty) (old d : Nat) : Nat × W32 :=
  match op with
  | 7 => (d, 0)
  | 8 => (if d ≤ old then 0 else old + 1, 0)
  | 9 => (if old = 0 || d < old then d else old - 1, 0)
  | op => let r := combine env op t old d; (r.bits, r.fl)

def execAtom (p : Pred) (f : MF) (s : State) : Out :=
  let t := (MF.ty f).getD .i32
  s.rmwOp p f t.regs f.i fun env ws old => let r := atomNew env f.op t old (wordsVal ws); (some r.1, r.2)

/-- CAS: equal bit for bit (R321). -/
def casNew (k : Nat) (ws : List Reg) (old : Nat) : Option Nat :=
  if old = wordsVal (ws.take k) then some (wordsVal (ws.drop k)) else none
/-- CASGT: a greater high word, signed for .i64. -/
def casgtNew (signed : Bool) (ws : List Reg) (old : Nat) : Option Nat :=
  let n := wordsVal ws
  let hi (x : Nat) : Int := if signed then sgn 32 (x / 2 ^ 32) else (x / 2 ^ 32 : Nat)
  if hi old < hi n then some n else none
/-- CASV: the expected version, which the new word raises by one. -/
def casvNew (ws : List Reg) (old : Nat) : Option Nat :=
  let v := wordsVal (ws.drop 1)
  if old / 2 ^ 32 = v then some ((v + 1) % 2 ^ 32 * 2 ^ 32 + wordsVal (ws.take 1)) else none
/-- CASPT: the expected word, whose tag the new word raises by one. -/
def casptNew (ws : List Reg) (old : Nat) : Option Nat :=
  if old = wordsVal (ws.take 2) then some ((old / 2 ^ 48 + 1) % 2 ^ 16 * 2 ^ 48 + wordsVal (ws.drop 2) % 2 ^ 48) else none

def execCas (p : Pred) (f : MF) (s : State) : Out :=
  let k := if f.width = .b64 then 2 else 1
  s.rmwOp p f (2 * k) (f.i + 256) fun _ ws old => (casNew k ws old, 0)
def execCasgt (p : Pred) (f : MF) (s : State) : Out := s.rmwOp p f 2 (f.i + 512) fun _ ws old => (casgtNew (MF.ty f == some .i64) ws old, 0)
def execCasv (p : Pred) (f : MF) (s : State) : Out := s.rmwOp p f 2 (f.i + 768) fun _ ws old => (casvNew ws old, 0)
def execCaspt (p : Pred) (f : MF) (s : State) : Out := s.rmwOp p f 4 (f.i + 1024) fun _ ws old => (casptNew ws old, 0)

end Sys2Proof.Machine
end

