-- ==== Sys2Proof/Machine/Fabric.lean ====
section
/-! DEFINITION. UALink (R105, R456, R457): accesses of peers, the replies to requests and their loss, ports, and leases (R36,
R458). -/

namespace Sys2Proof.Machine

/-! ## Accesses of peers -/

/-- The lender's range of a revoked lease that an address lies in (R36): later traffic is discarded. -/
def State.reclaimed (s : State) (pa : Nat) : Bool :=
  (s.pkg.leases.map (·.2)).any fun l =>
    l.v && l.lender && l.state == 2 && l.base * 2 ^ 29 ≤ paLocal pa && paLocal pa < (l.base + l.len) * 2 ^ 29

/-- The new value that an access of the CAS family makes of the old one, if any, from the bytes of its operands (R321). -/
def peerCas (k : CasKind) (n : Nat) (data : List Byte) (old : Nat) : Option Nat :=
  let ws : List Reg := tab (data.length / 4) fun i => ⟨BitVec.ofNat 32 (ofLe ((data.drop (4 * i)).take 4)), false⟩
  match k with
  | .cas => casNew (n / 4) ws old
  | .casgt signed => casgtNew signed ws old
  | .casv => casvNew ws old
  | .caspt => casptNew ws old
/-- The rounding and flush bits that a peer's read-modify-write goes by (R320, R146). -/
def peerEnv : RmwMode → FpEnv
  | .lane fpl => fpEnv fpl .lane
  | .red rm => redEnv (Rm.ofCode rm.toNat)

/-- What an access got back. -/
def State.peerBack (s : State) (d : List Byte) (poi : List Bool) : State := s.modPkg fun p => { p with peerData := (d, poi) }
/-- A read-modify-write at home: a poisoned word stops it (R71, R319). -/
def State.peerRmw (s : State) (acc : PeerAccess) (new : Nat → Option Nat) : State :=
  let (s, b) := s.homeBytes acc.pa acc.n noCp
  if b.bad then s.peerBack [] (s.poiMarks (paLocal acc.pa) acc.n)
  else
    let old := ofLe b.data
    (match new old with | some v => s.homeWrite acc.pa noCp (leBytes acc.n v) [] | none => s).peerBack b.data []

/-- The access is that of a tile which holds a line. -/
def State.peerOwns (s : State) (acc : PeerAccess) (line : Nat) : Bool := acc.who ≠ 0 && s.pkg.peerLocks.any fun p => p.1 == line && p.2.2 == acc.who
/-- A peer's access performed at the home of its bytes (R105, R146); a tile's write goes under the lock that it holds (R90, R91). -/
def State.peerPerform (s : State) (acc : PeerAccess) : State :=
  let line := acc.pa / 128
  match acc.kind with
  | .read => let (s, b) := s.homeBytes acc.pa acc.n noCp; s.peerBack b.data (s.poiMarks (paLocal acc.pa) acc.n)
  | .write data poi => (if s.peerOwns acc line then s.lockedWrite acc.pa noCp data poi else s.homeWrite acc.pa noCp data poi).peerBack [] []
  | .rmw op ty mode data => s.peerRmw acc fun old => some (atomNew (peerEnv mode) op.toNat ((Ty.ofCode ty.toNat).getD .i32) old (ofLe data)).1
  | .cas k data => s.peerRmw acc fun old => peerCas k acc.n data old
  | .lock excl =>
    let (s, b) := s.homeBytes (128 * line) 128 noCp
    (s.modPkg fun p => { p with peerLocks := p.peerLocks ++ [(line, excl, acc.who)] }).peerBack b.data (s.poiMarks (paLocal (128 * line)) 128)
  | .unlock => (s.modPkg fun p => { p with peerLocks := p.peerLocks.filter fun x => !(x.1 == line && x.2.2 == acc.who) }).peerBack [] []

/-- An access of a peer writes. -/
def peerWrites : PeerKind → Bool | .read => false | _ => true
/-- The bytes that an access of a peer reaches. -/
def peerLen (acc : PeerAccess) : Nat := match acc.kind with | .write data _ => data.length | .lock _ => 128 | _ => acc.n
/-- An access of a peer waits for a line lock that is not its own tile's (R91), or, for a lock, behind those asked for before (R90). -/
def State.peerHeld (s : State) (acc : PeerAccess) (order : Nat) : Bool :=
  match acc.kind with
  | .unlock => false
  | .lock excl => s.lockBusy s.nextId (acc.pa / 128) excl order
  | k => (linesOf acc.pa (peerLen acc)).any fun l => !s.peerOwns acc l && s.lineHeld l (peerWrites k)
/-- An access that has no home here, or whose lease has been taken back (R36): it does nothing, and a load gets poison. A lock is given
back all the same. -/
def State.peerVoid (s : State) (acc : PeerAccess) : Bool :=
  acc.kind != .unlock && (!s.isLocal acc.pa || hbmSize < paLocal acc.pa + peerLen acc || s.reclaimed acc.pa)
/-- A peer's access performed, where no lock keeps it out; a tile's own lock does not. -/
def State.peerTry (s : State) (acc : PeerAccess) (order : Nat) : Option State :=
  if s.peerVoid acc then some (s.peerBack [] ((wordsOf acc.pa acc.n).map fun _ => true))
  else if s.peerHeld acc order then none
  else
    let t := s.peerPerform acc
    if t.met = s.met || s.peerOwns acc (acc.pa / 128) then some { t with met := s.met } else none
/-- An access of a peer comes after an earlier one that waits for one of its lines (R105); a tile's accesses have its locks' order. -/
def peerBehind (acc : PeerAccess) (ws : List Waiter) : Bool :=
  acc.who == 0 && ws.any fun w =>
    match w with
    | .peer a _ => (match a.kind with | .lock _ => false | _ => (linesOf acc.pa (peerLen acc)).any (linesOf a.pa (peerLen a)).contains)
    | .host _ => false

/-- REMOTE_ACCESS_ARRIVAL (R105, R146): one event at the home of the bytes, once no tile's lock keeps it out (R91). What the peer gets
back stands in `peerData`. -/
def execRemoteAccessArrival (acc : PeerAccess) (s : State) : Out :=
  let (s, o) := s.freshOrder
  match (if peerBehind acc s.pkg.waiting then none else s.peerTry acc o) with
  | some t => .next t
  | none => .next (s.modPkg fun p => { p with waiting := p.waiting ++ [.peer acc o] })

/-! ## Replies -/

/-- A reply put where the request's unit looks for it: a command, push or collective by its number, the distributor, the group's
tape engine, or the group. -/
def State.putReply (s : State) (q : PeerReq) (data : Option (List Byte)) (poi : List Bool) : State :=
  let r : Reply := { pa := q.pa, n := q.n, lane := q.lane, data, poi }
  match q.cmd with
  | some (team, id) =>
    let t := s.teamAt team
    s.setTeamAt team { t with
      cmds := t.cmds.map fun (c : Cmd) => if c.id == id then ({ c with fetched := c.fetched ++ [r] } : Cmd) else c
      pushes := t.pushes.map fun (u : Push) => if u.id == id then ({ u with fetched := u.fetched ++ [r] } : Push) else u
      colls := t.colls.map fun (c : Coll) => if c.id == id then ({ c with fetched := c.fetched ++ [r] } : Coll) else c }
  | none =>
    if q.dist then s.setCtxAt q.ctx { s.ctxAt q.ctx with distFetched := (s.ctxAt q.ctx).distFetched ++ [r] }
    else
      let g := s.grpAt q.grp
      if q.tape then s.setGrpAt q.grp { g with tape := { g.tape with fetched := g.tape.fetched ++ [r] } }
      else s.setGrpAt q.grp { g with replies := g.replies ++ [r] }

/-- The lock of a remote line come from its home, with the line's bytes (R90); one that no tile waits for any more is given back. -/
def State.lockReply (s : State) (q : PeerReq) (excl : Bool) (data : Option (List Byte)) (poi : List Bool) : Out :=
  let s := s.focusGrp q.grp
  match s.g.stall with
  | .tile (l :: _) _ x _ _ =>
    if 128 * l = q.pa && x == excl then let s := s.putReply q data poi; s.lockGot s else .next (s.unlockLines [q.pa / 128])
  | _ => .next (s.unlockLines [q.pa / 128])

/-- The reply to a reduction performed at a remote home (R146, R150): the exceptions of its combine go to REDFLAGS (R137), or, where it met
a poisoned word, the record of R138 is formed (log entry 117). -/
def State.redReply (s : State) (q : PeerReq) (d : List Byte) (poi : List Bool) : State :=
  match firstBad q.pa (Reply.bytePoi { pa := q.pa, n := q.n, poi }) with
  | some w => s.recordUnit q.ctx (.anvil q.frec.grid.toNat) { q.frec with kind := kEcc, aux := BitVec.ofNat 64 w } false
  | none => let t := (Ty.ofCode (q.op / 16)).getD .i32; s.redFlags q.ctx t (combine (peerEnv q.mode) (q.op % 16) t (ofLe d) (ofLe q.data))
/-- What the core of a group learns of memory as a reply to the group comes: what it holds of the same bytes may be older (R83). -/
def State.learn (s : State) (q : PeerReq) (d : List Byte) : State :=
  let core := (s.teamAt (s.grpAt q.grp).team).core
  if q.cmd.isSome || q.dist || q.tape then s
  else if q.kind == .load && q.pa % 128 + q.n ≤ 128 then s.seen core q.pa d
  else s.dropRange core q.pa q.n
/-- A line come for a core's L1: it is kept where the core holds no Valid copy of the line, whose bytes might be newer (R83). -/
def State.landFill (s : State) (q : PeerReq) (d : List Byte) (poi : List Bool) : State :=
  match q.fill with
  | none => s
  | some f =>
    let t := s.seen f.1 q.pa d
    if ((s.coreAt f.1).line (q.pa / 128)).isSome then t else t.fillLine f.1 (q.pa / 128) f.2 d (tab 16 fun i => poi.getD i false)

/-- REMOTE_REPLY (R456): a reply to a request that is still out, its bytes with the poison of their 8-byte words (R71); one that has been
lost is complete already. -/
def execRemoteReply (req : Nat) (data : List Byte × List Bool) (s : State) : Out :=
  match s.pkg.peerOut.find? fun q => q.id == req && q.lost.isNone with
  | none => .next s
  | some q =>
    let s := s.dropReq q
    let d := tab q.n fun i => data.1.getD i 0
    match q.kind with
    | .load => .next (((if q.fill.isSome then s.landFill q d data.2 else s.learn q d)).putReply q (some d) data.2)
    | .pref => .next (s.landFill q d data.2)
    | .rmw => .next ((if q.lane.isSome then (s.learn q d).putReply q (some d) data.2 else s.redReply q d data.2).settleWrite q)
    | .store => .next (let s := s.settleWrite q; match q.done with | some queue => s.queueVector queue | none => s)
    | .lock excl => s.lockReply q excl (some d) data.2
    | .unlock => .next s

/-- REMOTE_REQUEST_LOST (R456): a request whose port has gone down. A load returns poison; any other request has retired, and is
reported by a record with the context's interrupt: for what waits for it, it is complete once its record is written (R45). -/
def execRemoteRequestLost (req : Nat) (s : State) : Out :=
  match s.pkg.peerOut.find? fun q => q.id == req && q.cut && q.lost.isNone with
  | none => .next s
  | some q =>
    let s := s.modPkg fun p => { p with lostCnt := if p.lostCnt == 0xFFFFFFFF#32 then p.lostCnt else p.lostCnt + 1 }
    let report (s : State) : Out :=
      let seq := (s.ctxAt q.ctx).recCount
      let s := s.recordUnit q.ctx .fabric q.frec true
      let s := if q.lane.isSome then s.putReply q none [] else s
      if (s.ctxAt q.ctx).unitRecs.any fun x => x.1 == .fabric && x.2.seq == seq then
        .next (s.modPkg fun p => { p with peerOut := p.peerOut.map fun (x : PeerReq) => if x.id == q.id then ({ x with lost := some seq } : PeerReq) else x })
      else .next ((s.dropReq q).settleWrite q)
    match q.kind with
    | .load => .next ((s.dropReq q).putReply q none [])
    | .pref => .next (s.dropReq q)
    | .lock excl => (s.dropReq q).lockReply q excl none []
    | .unlock => .next (s.dropReq q)
    | .rmw => report s
    | .store => report s

/-! ## Ports -/

/-- A port up or down (R457). -/
def State.setPort (s : State) (port : Nat) (up : Bool) : State :=
  if s.pkg.portUp.getLsbD port == up then s
  else
    let b : Half := BitVec.ofNat 16 (2 ^ port)
    (s.modPkg fun p =>
      { p with portUp := p.portUp ^^^ b, portEvt := p.portEvt ||| b,
               peerOut := p.peerOut.map fun (q : PeerReq) => if !up && q.port == port then ({ q with cut := true } : PeerReq) else q }).raise 320
/-- PORT_STATE_CHANGE (R457); the requests on a port that goes down may be lost, one by one (R456). -/
def execPortStateChange (port : Fin 16) (up : Bool) (s : State) : Out := .next (s.setPort port.val up)

/-! ## Leases -/

def State.lease (s : State) (j : Nat) : Lease := s.pkg.leases.get {} j
def State.setLease (s : State) (j : Nat) (l : Lease) : State := s.modPkg fun p => { p with leases := p.leases.set j l }

/-- A lender's write of REVOKE (R458): the notice is sent once. -/
def State.leaseRevoke (s : State) (j : Nat) : State :=
  let l := s.lease j
  if s.pkg.lacks 5 || !l.v || !l.lender || l.state ≠ 0 then s
  else (s.setLease j { l with state := 1 }).modPkg fun p => { p with leaseSent := p.leaseSent ++ [(j, true)] }
def execLeaseRevoke (entry : Fin 8) (s : State) : Out := s.regEvent (s.leaseRevoke entry.val)

/-- LEASE_NOTICE (R36): the borrower's entry is Noticed, and each enabled context is told by a record and its interrupt (log entry
15). -/
def execLeaseNotice (entry : Fin 8) (s : State) : Out :=
  let l := s.lease entry.val
  if !l.v || l.lender || l.state ≠ 0 then .next s
  else
    let s := s.setLease entry.val { l with state := 1 }
    let r : FRec := { kind := kLeaseNotice, access := Acc.none.code, aux := BitVec.ofNat 64 (l.base * 2 ^ 29) }
    .next ((s.ctxs.filter fun e => e.2.root.getLsbD 0).foldl (fun s e => s.recordUnit e.1 .fabric r true) s)

/-- A borrower's write of ACK (R36, R458): a Noticed lease is Revoked at once, and the lender is told. -/
def State.leaseAck (s : State) (j : Nat) : State :=
  let l := s.lease j
  if s.pkg.lacks 5 || !l.v || l.lender || l.state ≠ 1 then s
  else (s.setLease j { l with state := 2 }).modPkg fun p => { p with leaseSent := p.leaseSent ++ [(j, false)] }
def execLeaseAck (entry : Fin 8) (s : State) : Out := s.regEvent (s.leaseAck entry.val)

/-- LEASE_DEADLINE (R36): 25 ms after the notice. -/
def execLeaseDeadline (entry : Fin 8) (s : State) : Out :=
  let l := s.lease entry.val
  .next (if l.v && !l.lender && l.state == 1 then s.setLease entry.val { l with state := 2 } else s)

/-- LENDER_RECLAIM (R36): the lender takes the range back. -/
def execLenderReclaim (entry : Fin 8) (s : State) : Out :=
  let l := s.lease entry.val
  .next (if l.v && l.lender && l.state == 1 then s.setLease entry.val { l with state := 2 } else s)

end Sys2Proof.Machine
end

