-- ==== Sys2Proof/Machine/Sha.lean ====
section
/-! DEFINITION. SHA3-512, which the spec names (R452, R454) and FIPS 202 defines (PRESUMED, log entry 7). A state is its 25 lanes, lane
(x, y) at place x + 5y. -/

namespace Sys2Proof.Machine

/-- The walk that rho and pi share: from place (x, y), with the triangular numbers as rotations, each step gives the lane it reads, the
place it writes and the rotation. -/
def shaWalk : Nat → Nat → Nat → Nat → List (Nat × Nat × Nat)
  | 0, _, _, _ => []
  | left + 1, step, x, y =>
    let z := (2 * x + 3 * y) % 5
    (x + 5 * y, y + 5 * z, (step + 1) * (step + 2) / 2 % 64) :: shaWalk left (step + 1) y z

/-- The shift register of iota, bit after bit. -/
def shaBits : Nat → Nat → List Bool
  | 0, _ => []
  | left + 1, r => r.testBit 0 :: shaBits left (if r < 128 then 2 * r else 2 * r ^^^ 0x171)
/-- What iota adds in a round: bit 2 ^ j - 1 of lane 0 for each of the round's seven bits. -/
def shaIota (round : Nat) : W64 :=
  let bits := shaBits 168 1
  (List.range 7).foldl (fun w j => if bits.getD (7 * round + j) false then w ||| bitMask (2 ^ j - 1) else w) 0

/-- Theta: each lane takes the parity of the column before its own, and of the one after it rotated by 1. -/
def shaTheta (a : List W64) : List W64 :=
  let parity := tab 5 fun x => (a.zip (List.range 25)).foldl (fun w e => if e.2 % 5 = x then w ^^^ e.1 else w) 0
  let mix := tab 5 fun x => bankGet parity 0 ((x + 4) % 5) ^^^ (bankGet parity 0 ((x + 1) % 5)).rotateLeft 1
  (a.zip (List.range 25)).map fun e => e.1 ^^^ bankGet mix 0 (e.2 % 5)
/-- Rho and pi: lanes moved along the walk; lane 0 stays. -/
def shaMove (a : List W64) : List W64 :=
  (shaWalk 24 0 1 0).foldl (fun b e => bankPut 0 b e.2.1 ((bankGet a 0 e.1).rotateLeft e.2.2)) a
/-- Chi on one row of five. -/
def shaRow (r : List W64) : List W64 := tab 5 fun x => bankGet r 0 x ^^^ (bankGet r 0 ((x + 2) % 5) &&& ~~~bankGet r 0 ((x + 1) % 5))
def shaChi (a : List W64) : List W64 := (List.range 5).flatMap fun y => shaRow ((a.drop (5 * y)).take 5)
/-- The permutation: 24 rounds. -/
def shaPermute (a : List W64) : List W64 :=
  (List.range 24).foldl (fun a round => let b := shaChi (shaMove (shaTheta a)); bankPut 0 b 0 (bankGet b 0 0 ^^^ shaIota round)) a

/-- Padded blocks of 72 bytes taken in, one after another. -/
def shaAbsorb (a : List W64) : Nat → List Byte → List W64
  | 0, _ => a
  | blocks + 1, m =>
    let block := (tab 9 fun i => BitVec.ofNat 64 (ofLe ((m.drop (8 * i)).take 8)))
    shaAbsorb (shaPermute ((a.zip (List.range 25)).map fun e => e.1 ^^^ bankGet block 0 e.2)) blocks (m.drop 72)
/-- The digest: 64 bytes. -/
def sha3 (m : List Byte) : List Byte :=
  let blocks := m.length / 72 + 1
  let padded := tab (72 * blocks) fun i => m.getD i 0 ||| (if i = m.length then 0x06 else 0) ||| if i + 1 = 72 * blocks then 0x80 else 0
  ((shaAbsorb (List.replicate 25 0) blocks padded).take 8).flatMap fun w => leBytes 8 w.toNat

end Sys2Proof.Machine
end

