-- ==== Sys2Proof/Machine/Boot.lean ====
section
/-! DEFINITION. Feature negotiation (R450, R451), bring-up and recovery (R452, R453) and attestation (R454, R455). -/

namespace Sys2Proof.Machine

/-- FEATCAP of EXK96-A0 (R450). -/
def featCap : W64 := 0x1FF
/-- FEATEN as it reads (R449). -/
def Pkg.featReg (p : Pkg) : W64 := p.featEn ||| (if p.featLock then 0x8000000000000000 else 0)
/-- The one write of FEATEN (R451). -/
def State.writeFeat (s : State) (v : W64) : State :=
  s.modPkg fun p => if p.featLock then p else { p with featEn := v &&& featCap, featLock := true }
/-- FEATEN_WRITE (R451). -/
def execFeatenWrite (value : W64) (s : State) : Out := s.regEvent (s.writeFeat value)

/-! ## Bring-up -/

/-- The bytes of the image in package flash; its length is the image's own (log entry 7). -/
def Pkg.image (p : Pkg) : List Byte := memRead p.flash 0 (Config.imageLength (memRead p.flash 0 64))
/-- A measurement register extended (R452). -/
def extend (m d : List Byte) : List Byte := sha3 (m ++ d)
def zeros (n : Nat) : List Byte := List.replicate n 0

/-- Step 1 of bring-up (R452): the boot ROM takes the digest of the image in flash, and STATE 1 follows. -/
def State.bootHash (s : State) : State := s.modPkg fun p => { p with bootState := 1, bootDigest := sha3 p.image }
/-- Steps 2 and 3 (R452): the image verified, and M0 extended with its digest; one that fails leaves the K96 in recovery. -/
def State.bootVerify (s : State) : State :=
  s.modPkg fun p =>
    if Config.imageVerifies p.image && p.minSvn.toNat ≤ (Config.imageSvn p.image).toNat then { p with m0 := extend (zeros 64) p.bootDigest }
    else { p with bootState := 3, svn := p.minSvn }
/-- Step 4 (R452): the image runs. It extends M1, writes CHIPID and trains the ports, whose number and partners are open (log entry
7), and window B opens; its SVN raises the fused minimum (R453). -/
def State.bootRun (s : State) : State :=
  let img := s.pkg.image
  let v := Config.imageSvn img
  let s := s.modPkg fun p =>
    { p with bootState := 2, svn := v, minSvn := v, m1 := extend (zeros 64) (Config.imageConfig img),
             chipId := (Config.freeHalf (s.freeKey 0)).setWidth 10, chipSet := true }
  let up := (Config.freeHalf (s.freeKey 1)).setWidth 16
  ((List.range 16).foldl (fun s i => if up.getLsbD i then s.setPort i true else s) s).bump
/-- The next stage of a bring-up that is under way. -/
def State.bootStep (s : State) : State :=
  if s.pkg.bootState = 0 then s.bootHash
  else if s.pkg.bootState = 1 then (if s.pkg.m0.isEmpty then s.bootVerify else s.bootRun)
  else s
/-- Bring-up from its start to its end (R452). -/
def State.bringUp (s : State) : State := s.bootStep.bootStep.bootStep

/-- The package reset: every register at its reset value, but for what flash, fuses and HBM keep (log entry 16). -/
def State.packageReset (s : State) : State :=
  { State.reset with
    agenda := s.agenda, free := s.free, nextId := s.nextId, order := s.order, hostOut := s.hostOut, mem := s.mem, memPoi := s.memPoi
    pkg := { flash := s.pkg.flash, minSvn := s.pkg.minSvn, svn := s.pkg.minSvn } }

/-- PACKAGE_RESET (R452): one step of the part, with the whole of bring-up in it. The machine itself takes a bring-up that has started
stage by stage (log entry 16). -/
def execPackageReset (s : State) : Out := .next s.packageReset.bringUp

/-! ## The recovery mailbox -/

/-- A WRITE that is refused (R453). -/
def Pkg.mbxBad (p : Pkg) : Bool :=
  p.mbxBusy || p.mbxLen == 0 || 2048 < p.mbxLen || p.mbxOff.toNat % 2048 != 0 || Config.flashSize.toNat < p.mbxOff.toNat + p.mbxLen
/-- Writing MBXCTL.WRITE (R453). -/
def State.mailboxWrite (s : State) : State :=
  s.modPkg fun p =>
    if !p.inRecovery then p
    else if p.mbxBad then { p with mbxErr := true }
    else { p with mbxBusy := true, flash := memWrite p.flash p.mbxOff.toNat (tab p.mbxLen fun i => p.mbxBuf.get 0 i) }
/-- MAILBOX_WRITE (R453). -/
def execMailboxWrite (s : State) : Out := .next s.mailboxWrite
/-- MAILBOX_WRITE_DONE (R453). -/
def execMailboxWriteDone (s : State) : Out := .next (s.modPkg fun p => { p with mbxBusy := false })
/-- Writing MBXCTL.COMMIT (R453): reset and bring-up. -/
def State.mailboxCommit (s : State) : State := if s.pkg.inRecovery then s.packageReset.bringUp else s
/-- MAILBOX_COMMIT (R453). -/
def execMailboxCommit (s : State) : Out := .next s.mailboxCommit

/-! ## Attestation -/

/-- n bytes of a list, zero after its end. -/
def padTo (n : Nat) (bs : List Byte) : List Byte := tab n fun i => bs.getD i 0
/-- A request for a report (R454, R455): refused while one is being made, or for a buffer that is not in local HBM. -/
def State.attest (s : State) (ctx : Nat) : State :=
  let c := s.ctxAt ctx
  if c.attBusy || !s.isLocal c.attBuf.toNat || hbmSize < paLocal c.attBuf.toNat + 8192 then s.setCtxAt ctx { c with attErr := true }
  else s.setCtxAt ctx { c with attBusy := true, attCap := tab 8 fun i => bankGet c.attNonce 0 i }
/-- ATTCMD_GO (R455). -/
def execAttcmdGo (ctx : Nat) (s : State) : Out := s.regEvent (s.attest ctx)

/-- The part number in ASCII. -/
def partNumber : List Byte := [0x45, 0x58, 0x4B, 0x39, 0x36, 0x2D, 0x41, 0x30]
/-- The body of a report (R455). -/
def State.reportBody (s : State) (ctx : Nat) : List Byte :=
  let p := s.pkg
  padTo 64 ((s.ctxAt ctx).attCap.flatMap fun w => leBytes 8 w.toNat) ++ padTo 64 p.m0 ++ padTo 64 p.m1 ++ leBytes 4 p.svn.toNat
    ++ leBytes 2 p.chipId.toNat ++ zeros 2 ++ leBytes 8 featCap.toNat ++ leBytes 8 p.featReg.toNat ++ padTo 16 partNumber ++ zeros 24
/-- ATTESTATION_REPORT_DONE (R455): body, signature and zeros; the vector; BUSY clears. -/
def execAttestationReportDone (ctx : Nat) (s : State) : Out :=
  let c := s.ctxAt ctx
  if !c.attBusy then .next s
  else
    let body := s.reportBody ctx
    let s' := s.homeWrite c.attBuf.toNat noCp (padTo 8192 (body ++ padTo 4627 (Config.attestSignature (sha3 body)))) []
    .next (s.unmet ((s'.setCtxAt ctx { s'.ctxAt ctx with attBusy := false }).raise ctx))

end Sys2Proof.Machine
end

