-- ==== Sys2Proof/Machine/Trace.lean ====
section
/-! DEFINITION. Trace capture and samples (R442 to R445). -/

namespace Sys2Proof.Machine

/-- TRACE_CAPTURE_ON (R444). -/
def execTraceCaptureOn (ctx : Nat) (s : State) : Out := s.regEvent (if s.pkg.lacks 7 then s else s.traceOn ctx)
/-- TRACE_CAPTURE_OFF (R442, R444). -/
def execTraceCaptureOff (ctx : Nat) (s : State) : Out := s.regEvent (if s.pkg.lacks 7 then s else s.traceOff ctx)

/-- SAMPLE_PACKET (R445): the request of a sampled memory instruction of a group has completed: its packet, with the PC of the lowest
active lane, its access kind, and the five queueing times, which the event brings. Nothing is written for a group that no sample is due
of. -/
def execSamplePacket (grp : Nat) (kind : Byte) (times : List Half) (s : State) : Out :=
  let ctx := (s.gridAt (s.teamAt (s.grpAt grp).team).grid).ctx
  let c := s.ctxAt ctx
  match c.smplDue.find? fun x => x.grp == grp && x.kind == kind.toNat with
  | none => .next s
  | some x =>
    let s := s.setCtxAt ctx { c with smplDue := c.smplDue.erase x }
    if !c.dbgTrace then .next s
    else
      .next (s.packet ctx 3 false (leBytes 8 x.pc.toNat ++ leBytes 4 x.gid.toNat ++ leBytes 4 x.team.toNat ++ leBytes 1 x.idx
        ++ leBytes 1 x.kind ++ leBytes 2 0 ++ (List.range 5).flatMap (fun i => leBytes 2 (times.getD i 0).toNat) ++ leBytes 2 0))

end Sys2Proof.Machine
end

