-- ==== Sys2Proof/Machine/Regs.lean ====
section
/-! DEFINITION. The host's windows (R447, R448): the registers of window A with their access rules, and window B. -/

namespace Sys2Proof.Machine

/-- A 64-bit register from its parts: each a value and the bit it starts at. -/
def regOf (fs : List (Nat × Nat)) : W64 := fs.foldl (fun r f => r ||| BitVec.ofNat 64 (f.1 * 2 ^ f.2)) 0
def flagBit (b : Bool) : Nat := if b then 1 else 0
/-- w bits of a register from bit lo, at their place and as a number. -/
def keepBits (x : W64) (lo w : Nat) : W64 := x &&& BitVec.ofNat 64 ((2 ^ w - 1) * 2 ^ lo)
def fieldOf (x : W64) (lo w : Nat) : Nat := bitsAt x.toNat lo w
/-- RW1C: the bits written as ones are clear. -/
def clear32 (old : W32) (x : Nat) : W32 := old &&& ~~~BitVec.ofNat 32 x

/-! ## Context registers -/

/-- A group of the context is stalled for want of a fault slot (R44). -/
def State.slotStall (s : State) (ctx : Nat) : Bool :=
  s.groups.any fun e => e.2.phase == .running && e.2.stall == .fault && (s.gridAt (s.teamAt e.2.team).grid).ctx == ctx

/-- The register of a context's block at an offset (R44, R147, R391, R428, R433, R455). Write-only fields read as zero. -/
def State.ctxReg (s : State) (ctx off : Nat) : W64 :=
  let c := s.ctxAt ctx
  match off with
  | 0x00 => c.root
  | 0x08 => c.fqBase
  | 0x10 => BitVec.ofNat 64 c.fqLogn
  | 0x18 => c.fqHead.setWidth 64
  | 0x20 => c.fqTail.setWidth 64
  | 0x28 =>
    let slots := s.cores.any fun e => e.2.slots.any fun x => x.1 == ctx
    regOf [(c.fqOvf.toNat, 32), (flagBit (s.slotStall ctx), 2), (flagBit slots, 1), (flagBit (c.fqCount == 2 ^ c.fqLogn), 0)]
  | 0x30 => regOf [(flagBit c.fqIE, 0)]
  | 0x38 => regOf [(c.invVA.toNat, 16)]
  | 0x48 => c.invSeq.setWidth 64
  | 0x50 => c.rspBase
  | 0x58 => c.rspSize.setWidth 64
  | 0x60 => regOf [(c.rspPeak.toNat, 32), (s.rspUnits ctx, 0)]
  | 0x68 => c.redFlags
  | 0x70 => regOf [(c.rcLR.toNat, 32), (flagBit c.rcFreeze, 0)]
  | 0x78 => c.rcImg
  | 0x80 => c.rcSnap
  | 0x88 => BitVec.ofNat 64 c.rcSnapN
  | 0x90 => c.ctxSave
  | 0x98 => c.ctxSaveSz.setWidth 64
  | 0xA8 => regOf [(c.ctxNeed.toNat, 32), (flagBit c.ctxShort, 2), (c.ctxState, 0)]
  | 0xB0 => regOf [(c.dbgSmpl, 12), (flagBit c.dbgTrace, 10), (flagBit c.dbgBken, 9), (flagBit c.dbgLogOn, 8), (c.dbgIntv, 0)]
  | 0xB8 => c.dbgLog
  | 0xC0 => c.dbgLogSz.setWidth 64
  | 0xC8 => regOf [(c.stopGid.toNat, 32), (c.stopTeam.toNat, 0)]
  | 0xD0 => c.stopRet
  | 0xE0 => regOf [(c.dbgCode.toNat, 32), (flagBit c.dbgDigok, 4), (flagBit c.dbgBk, 3), (s.dbgState ctx, 0)]
  | 0xE8 => regOf [(c.dbgAccStatus, 62), (flagBit c.dbgAccPoison, 18)]
  | 0xF0 => c.dbgData
  | 0xF8 => c.trBase
  | 0x100 => BitVec.ofNat 64 c.trNseg
  | 0x108 => c.trHead.setWidth 64
  | 0x110 => c.trTail.setWidth 64
  | 0x118 => regOf [(c.trDrop.toNat, 32), (flagBit c.trFault, 1), (flagBit c.trOff.isSome, 0)]
  | 0x120 => regOf (tab 8 fun j => (bankGet c.pmcSel 0 j, 8 * j))
  | 0x1A8 => c.attBuf
  | 0x1B8 => regOf [(flagBit c.attErr, 1), (flagBit c.attBusy, 0)]
  | off =>
    if 0x128 ≤ off && off ≤ 0x160 then (c.pmcAt ((off - 0x128) / 8)).setWidth 64
    else if 0x168 ≤ off && off ≤ 0x1A0 then bankGet c.attNonce 0 ((off - 0x168) / 8)
    else 0

/-- DBGCMD (R433): ARM, DISARM and RESUME. -/
def State.writeDbgCmd (s : State) (ctx : Nat) (x : W64) : State :=
  let s := if x.getLsbD 1 then s.disarm ctx else s
  let s := if x.getLsbD 2 then s.debugResume ctx else s
  if x.getLsbD 0 then s.arm ctx (x.extractLsb' 8 8) (x.extractLsb' 16 2) else s
/-- DBGACC (R433, R440, R441). -/
def State.writeDbgAcc (s : State) (ctx : Nat) (x : W64) : State :=
  let l := fieldOf x 8 6
  if x.getLsbD 16 then s.dbgWrite ctx (x.setWidth 8) l (x.getLsbD 17) else s.dbgRead ctx (x.setWidth 8) l
/-- DBGCTL (R433): an interval that is refused stays; TRACE starts or stops capture. -/
def State.writeDbgCtl (s : State) (ctx : Nat) (x : W64) : State :=
  let c := s.ctxAt ctx
  let n := fieldOf x 0 5
  let intv := if 10 ≤ n && n ≤ 24 && !s.ctxBusy ctx then n else c.dbgIntv
  let s := s.setCtxAt ctx { c with dbgSmpl := fieldOf x 12 4, dbgBken := x.getLsbD 9, dbgLogOn := x.getLsbD 8, dbgIntv := intv }
  if x.getLsbD 10 then s.traceOn ctx else s.traceOff ctx

/-- A write of a debug, trace or counter register (R433, R444); ignored while the feature is disabled (R451). -/
def State.writeDebugReg (s : State) (ctx off : Nat) (x : W64) : State :=
  let c := s.ctxAt ctx
  if s.pkg.lacks 7 then s
  else
    match off with
    | 0xB0 => s.writeDbgCtl ctx x
    | 0xB8 => if s.ctxBusy ctx then s else s.setCtxAt ctx { c with dbgLog := keepBits x 16 36 }
    | 0xC0 => if s.ctxBusy ctx then s else s.setCtxAt ctx { c with dbgLogSz := x.setWidth 32 }
    | 0xC8 => s.setCtxAt ctx { c with stopGid := (x >>> 32).setWidth 32, stopTeam := x.setWidth 32 }
    | 0xD0 => s.setCtxAt ctx { c with stopRet := x }
    | 0xD8 => s.writeDbgCmd ctx x
    | 0xE8 => s.writeDbgAcc ctx x
    | 0xF0 => s.setCtxAt ctx { c with dbgData := x }
    | 0xF8 => if c.dbgTrace then s else s.setCtxAt ctx { c with trBase := keepBits x 16 39 }
    | 0x100 => if c.dbgTrace || fieldOf x 0 16 = 0 then s else s.setCtxAt ctx { c with trNseg := fieldOf x 0 16 }
    | 0x108 => s.setCtxAt ctx { c with trHead := x.setWidth 32 }
    | 0x118 => s.setCtxAt ctx { c with trDrop := clear32 c.trDrop (fieldOf x 32 32), trFault := c.trFault && !x.getLsbD 1 }
    | 0x120 =>
      let es := tab 8 fun j => fieldOf x (8 * j) 8
      let s := s.pmcNow ctx
      if es.any fun e => 10 < e then s else s.setCtxAt ctx { s.ctxAt ctx with pmcSel := es }
    | off =>
      if 0x128 ≤ off && off ≤ 0x160 then
        let s := s.pmcNow ctx
        let c := s.ctxAt ctx
        s.setCtxAt ctx { c with pmc := bankPut 0 c.pmc ((off - 0x128) / 8) (x.setWidth 48) }
      else s

/-- RCCTL (R391). -/
def State.writeRcCtl (s : State) (ctx : Nat) (x : W64) : State :=
  if s.ctxBusy ctx then s
  else
    let s := s.setCtxAt ctx { s.ctxAt ctx with rcLR := (x >>> 32).setWidth 32, rcFreeze := x.getLsbD 0 }
    let s := if x.getLsbD 2 then s.loadCache ctx else s
    if x.getLsbD 1 then s.saveCache ctx else s
/-- CTXCMD (R428). -/
def State.writeCtxCmd (s : State) (ctx : Nat) (x : W64) : State :=
  let s := if x.getLsbD 0 then s.switchOut ctx else s
  let s := if x.getLsbD 1 then s.resumeCtx ctx else s
  if x.getLsbD 2 then s.kill ctx else s
/-- FQCTL (R44). -/
def State.writeFqCtl (s : State) (ctx : Nat) (x : W64) : State :=
  let s := s.setCtxAt ctx { s.ctxAt ctx with fqIE := x.getLsbD 0 }
  if x.getLsbD 1 then s.retryHeld ctx else s

/-- A write of a context's register (R44, R147, R391, R428, R433, R455). -/
def State.writeCtxReg (s : State) (ctx off : Nat) (x : W64) : State :=
  let c := s.ctxAt ctx
  let idle := !s.ctxBusy ctx
  match off with
  | 0x00 =>
    -- EN is refused until FEATEN is locked (R451)
    let en := if s.pkg.featLock then keepBits x 0 1 else keepBits c.root 0 1
    s.setCtxAt ctx { c with root := keepBits x 16 36 ||| en }
  | 0x08 => s.setCtxAt ctx { c with fqBase := keepBits x 12 40 }
  | 0x10 => let n := fieldOf x 0 5; if 6 ≤ n && n ≤ 20 then s.setCtxAt ctx { c with fqLogn := n } else s
  | 0x18 => s.writeHead ctx (x.setWidth 32)
  | 0x28 => s.setCtxAt ctx { c with fqOvf := clear32 c.fqOvf (fieldOf x 32 32) }
  | 0x30 => s.writeFqCtl ctx x
  | 0x38 => s.setCtxAt ctx { c with invVA := x.extractLsb' 16 39 }
  | 0x40 => s.invalidate ctx (x.setWidth 32)
  | 0x50 => if idle then s.setCtxAt ctx { c with rspBase := keepBits x 16 36 } else s
  | 0x58 => if idle then s.setCtxAt ctx { c with rspSize := x.setWidth 32 } else s
  | 0x60 => s.setCtxAt ctx { c with rspPeak := (x >>> 32).setWidth 32 }
  | 0x68 => s.setCtxAt ctx { c with redFlags := c.redFlags &&& ~~~x }
  | 0x70 => s.writeRcCtl ctx x
  | 0x78 => if idle then s.setCtxAt ctx { c with rcImg := keepBits x 12 40 } else s
  | 0x80 => if idle then s.setCtxAt ctx { c with rcSnap := keepBits x 16 36 } else s
  | 0x88 => let n := fieldOf x 0 8; if idle && 2 ≤ n then s.setCtxAt ctx { c with rcSnapN := n } else s
  | 0x90 => if c.ctxState = 0 then s.setCtxAt ctx { c with ctxSave := keepBits x 16 36 } else s
  | 0x98 => if c.ctxState = 0 then s.setCtxAt ctx { c with ctxSaveSz := x.setWidth 32 } else s
  | 0xA0 => s.writeCtxCmd ctx x
  | 0xA8 => s.setCtxAt ctx { c with ctxShort := c.ctxShort && !x.getLsbD 2 }
  | 0x1A8 => s.setCtxAt ctx { c with attBuf := keepBits x 13 39 }
  | 0x1B0 => if x.getLsbD 0 then s.attest ctx else s
  | 0x1B8 => s.setCtxAt ctx { c with attErr := c.attErr && !x.getLsbD 1 }
  | off =>
    if 0x168 ≤ off && off ≤ 0x1A0 then s.setCtxAt ctx { c with attNonce := bankPut 0 c.attNonce ((off - 0x168) / 8) x }
    else s.writeDebugReg ctx off x

/-! ## Package, mailbox, routing, leases, fabric, MSI-X -/

/-- Launch queue q's register (R397). -/
def Pkg.queueReg (p : Pkg) (q off : Nat) : W64 :=
  let u := p.queues.get {} q
  match off with
  | 0x00 => u.base
  | 0x08 => regOf [(flagBit u.en, 63), (u.ctx, 32), (flagBit u.ie, 4), (u.logn, 0)]
  | 0x10 => u.head.setWidth 64
  | 0x18 => u.tail.setWidth 64
  | _ => 0
/-- LQCFG (R397, R448, R451): a bad CTX or LOGN refuses the write; while EN is set CTX and LOGN stay. -/
def Queue.setCfg (u : Queue) (p : Pkg) (x : W64) : Queue :=
  let ctx := fieldOf x 32 16
  let n := fieldOf x 0 4
  let en := if p.featLock then x.getLsbD 63 else u.en
  if 256 ≤ ctx || n < 1 || 12 < n then u
  else if u.en then { u with en, ie := x.getLsbD 4 }
  else { u with en, ctx, ie := x.getLsbD 4, logn := n }
def Pkg.writeQueue (p : Pkg) (q off : Nat) (x : W64) : Pkg :=
  let u := p.queues.get {} q
  let u := match off with
    | 0x00 => if u.en then u else { u with base := keepBits x 7 45 }
    | 0x08 => u.setCfg p x
    | 0x18 => { u with tail := x.setWidth 32 }
    | _ => u
  { p with queues := p.queues.set q u }

/-- The recovery mailbox (R453). -/
def Pkg.mailboxReg (p : Pkg) (off : Nat) : W64 :=
  if !p.inRecovery then 0
  else
    match off with
    | 0x1008 => regOf [(Config.flashSize.toNat, 32), (flagBit p.mbxErr, 2), (flagBit p.mbxBusy, 1), (flagBit (!p.mbxBusy), 0)]
    | 0x1010 => p.mbxOff.setWidth 64
    | 0x1018 => BitVec.ofNat 64 p.mbxLen
    | off => if 0x1800 ≤ off then BitVec.ofNat 64 (ofLe (tab 8 fun i => p.mbxBuf.get 0 (off - 0x1800 + i))) else 0
def State.writeMailbox (s : State) (off : Nat) (x : W64) : State :=
  if !s.pkg.inRecovery then s
  else
    match off with
    | 0x1000 =>
      let s := if x.getLsbD 0 then s.mailboxWrite else s
      if x.getLsbD 1 then s.mailboxCommit else s
    | 0x1008 => s.modPkg fun p => { p with mbxErr := p.mbxErr && !x.getLsbD 2 }
    | 0x1010 => s.modPkg fun p => { p with mbxOff := x.setWidth 32 }
    | 0x1018 => s.modPkg fun p => { p with mbxLen := fieldOf x 0 12 }
    | off =>
      if 0x1800 ≤ off then
        s.modPkg fun p => { p with mbxBuf := (List.range 8).foldl (fun b i => b.set (off - 0x1800 + i) (BitVec.ofNat 8 (fieldOf x (8 * i) 8))) p.mbxBuf }
      else s

/-- A lease entry's register (R458). -/
def Pkg.leaseReg (p : Pkg) (j off : Nat) : W64 :=
  let l := p.leases.get {} j
  match off with
  | 0 => regOf [(flagBit l.v, 63), (flagBit l.lender, 62), (l.state, 60), (l.peer.toNat, 0)]
  | 8 => regOf [(l.base, 29)]
  | 16 => regOf [(l.len, 29)]
  | _ => 0
/-- A write of a lease entry (R458): V may be cleared only of a Revoked lease; a new lease is Active. -/
def State.writeLease (s : State) (j off : Nat) (x : W64) : State :=
  let l := s.lease j
  if s.pkg.lacks 5 then s
  else
    match off with
    | 0 =>
      let v := x.getLsbD 63
      if l.v && !v && l.state ≠ 2 then s
      else
        let s := s.setLease j { l with v, lender := x.getLsbD 62, peer := x.setWidth 10, state := if l.v && v then l.state else 0 }
        let s := if x.getLsbD 59 then s.leaseRevoke j else s
        if x.getLsbD 58 then s.leaseAck j else s
    | 8 => s.setLease j { l with base := fieldOf x 29 13 }
    | 16 => s.setLease j { l with len := fieldOf x 29 13 }
    | _ => s

/-- A masked vector whose mask is lifted sends the message it held (log entry 13). -/
def State.sendPending (s : State) (v : Nat) : State :=
  if s.pkg.msixPend.has v then (s.modPkg fun p => { p with msixPend := p.msixPend.erase v }).raise v else s

/-- A register of window A at an offset that is a multiple of 8 (R448, R449). In recovery BOOTSTAT and the mailbox alone answer. -/
def State.regRead (s : State) (off : Nat) : W64 :=
  let p := s.pkg
  if off == 0x20 then regOf [(p.svn.toNat, 32), (p.bootState, 0)]
  else if 0x1000 ≤ off && off < 0x2000 then p.mailboxReg off
  else if p.inRecovery then Config.freeWord (s.freeKey off)
  else if off == 0x00 then featCap
  else if off == 0x08 then p.featReg
  else if off == 0x10 then p.chipId.setWidth 64
  else if off == 0x18 then regOf [(p.pinFall.toNat, 16), (p.pinw, 0)]
  else if off == 0x28 then p.wbOff
  else if off == 0x30 then regOf [(p.pkgCE.toNat, 32), (p.pkgUE.toNat, 0)]
  else if off == 0x38 then regOf [(p.narrow.toNat, 32), (p.reservoir / uJ, 0)]
  else if 0x800 ≤ off && off < 0x1000 then p.queueReg ((off - 0x800) / 32) (off % 32)
  else if 0x2000 ≤ off && off < 0x4000 then p.routing.get 0 ((off - 0x2000) / 8)
  else if 0x4000 ≤ off && off < 0x4100 then p.leaseReg ((off - 0x4000) / 32) (off % 32)
  else if off == 0x4100 then p.portUp.setWidth 64
  else if off == 0x4108 then p.portEvt.setWidth 64
  else if off == 0x4110 then p.lostCnt.setWidth 64
  else if 0x80000 ≤ off && off < 0x88000 then p.msixTab.get 0 ((off - 0x80000) / 8)
  else if 0x90000 ≤ off && off < 0x90100 then regOf (tab 64 fun i => (flagBit (p.msixPend.has (8 * (off - 0x90000) + i)), i))
  else if 0x100000 ≤ off && off < 0x200000 then s.ctxReg ((off - 0x100000) / 4096) (off % 4096)
  else 0

/-- A write of a register of window A (R448); an offset without one ignores it. -/
def State.regWrite (s : State) (off : Nat) (x : W64) : State :=
  if 0x1000 ≤ off && off < 0x2000 then s.writeMailbox off x
  else if s.pkg.inRecovery || off % 8 ≠ 0 then s
  else if off == 0x08 then s.writeFeat x
  else if off == 0x10 then s.modPkg fun p => if p.chipSet then p else { p with chipId := x.setWidth 10, chipSet := true }
  else if off == 0x18 then
    let s := s.modPkg fun p => { p with pinFall := clear32 p.pinFall (fieldOf x 16 32), pinned := if x.getLsbD 8 then [] else p.pinned }
    s.setPinw (fieldOf x 0 4)
  else if off == 0x28 then s.modPkg fun p => { p with wbOff := keepBits x 30 10 }
  else if off == 0x30 then s.modPkg fun p => { p with pkgCE := clear32 p.pkgCE (fieldOf x 32 32), pkgUE := clear32 p.pkgUE (fieldOf x 0 32) }
  else if off == 0x38 then s.modPkg fun p => { p with narrow := clear32 p.narrow (fieldOf x 32 32) }
  else if 0x800 ≤ off && off < 0x1000 then s.modPkg fun p => p.writeQueue ((off - 0x800) / 32) (off % 32) x
  else if 0x2000 ≤ off && off < 0x4000 then
    s.modPkg fun p => { p with routing := p.routing.set ((off - 0x2000) / 8) (keepBits x 63 1 ||| keepBits x 0 25) }
  else if 0x4000 ≤ off && off < 0x4100 then s.writeLease ((off - 0x4000) / 32) (off % 32) x
  else if off == 0x4108 then s.modPkg fun p => { p with portEvt := p.portEvt &&& ~~~(x.setWidth 16) }
  else if off == 0x4110 then s.modPkg fun p => { p with lostCnt := x.setWidth 32 }
  else if 0x80000 ≤ off && off < 0x88000 then
    let i := (off - 0x80000) / 8
    (s.modPkg fun p => { p with msixTab := p.msixTab.set i x }).sendPending (i / 2)
  else if 0x100000 ≤ off && off < 0x200000 then s.writeCtxReg ((off - 0x100000) / 4096) (off % 4096) x
  else s


/-! ## Window B -/

/-- The local address that window B's offset 0 reaches (R447, R449). -/
def Pkg.windowBase (p : Pkg) : Nat := p.wbOff.toNat / 2 ^ p.barLog * 2 ^ p.barLog
/-- n bytes of window B lie in it and in HBM, and the window is open (R447, R452). -/
def Pkg.inWindow (p : Pkg) (off n : Nat) : Bool := p.bootState == 2 && off + n ≤ 2 ^ p.barLog && p.windowBase + off + n ≤ hbmSize

/-- The physical address of an offset in window B. -/
def Pkg.windowPa (p : Pkg) (off : Nat) : Nat := p.chipId.toNat * 2 ^ 42 + p.windowBase + off
/-- A write through window B performed at home (R103, R447): it clears the poison of whole words. -/
def State.windowWrite (s : State) (off : Nat) (data : List Byte) : State :=
  if s.pkg.inWindow off data.length then s.homeWrite (s.pkg.windowPa off) noCp data [] else s
/-- A read of a window (R103, R447): the bytes, or all ones with EP where a word is poisoned. In window A the counters of a context
are brought up to date first. -/
def State.windowRead (s : State) (win : Window) (off n : Nat) : State :=
  match win with
  | .a =>
    let s := if 0x100000 ≤ off && off < 0x200000 then s.pmcNow ((off - 0x100000) / 4096) else s
    { s.bump with hostOut := (tab n fun i => BitVec.ofNat 8 (fieldOf (s.regRead ((off + i) / 8 * 8)) (8 * ((off + i) % 8)) 8), false) }
  | .b =>
    if !s.pkg.inWindow off n then { s.bump with hostOut := (tab n fun i => Config.freeByte (s.freeKey i), false) }
    else
      let (s, b) := s.homeBytes (s.pkg.windowPa off) n noCp
      { s with hostOut := if b.bad then (List.replicate n 0xFF, true) else (b.data, false) }

/-- An access of the host performed. -/
def State.hostPerform (s : State) : HostAccess → State
  | .read win off n => s.windowRead win off n
  | .write off data => s.windowWrite off data
  | .reg off value => s.regWrite off value
  | .tail queue tail => s.setTail queue tail
/-- The same, where no line lock keeps it out (R91). -/
def State.hostTry (s : State) (a : HostAccess) : Option State := let t := s.hostPerform a; if t.met = s.met then some t else none
/-- An access of the host in its turn (R103): one that a lock keeps out waits, and the later ones behind it. -/
def State.hostTurn (s : State) (a : HostAccess) : Out := .next (((if s.hostWaits then none else s.hostTry a)).getD (s.hostQueue a))

/-- HOST_WRITE (R103, R447). -/
def execHostWrite (off : Nat) (data : List Byte) (s : State) : Out := s.hostTurn (.write off data)
/-- HOST_READ (R103, R447). -/
def execHostRead (win : Window) (off n : Nat) (s : State) : Out := s.hostTurn (.read win off n)
/-- REGISTER_WRITE (R448): a write of one register of window A, with everything its field rules give. -/
def execRegisterWrite (off : Nat) (value : W64) (s : State) : Out := s.hostTurn (.reg off value)

/-- BAR_SIZE_SELECT (R447): 1 GiB to 1 TiB. -/
def execBarSizeSelect (log : Nat) (s : State) : Out :=
  .next (if 30 ≤ log && log ≤ 40 then s.modPkg fun p => { p with barLog := log } else s)

end Sys2Proof.Machine
end

