-- ==== Sys2Proof/Machine/Serve.lean ====
section
/-! DEFINITION. What the package does of itself before anything else: the stages of bring-up (R452), accesses of peers and the host that a
lock has let go (R91, R103), bytes landed at peers that are counted after the release of their team's core (R97), and stops whose report
is due (R439). -/

namespace Sys2Proof.Machine

/-- A waiting access performed, if its turn has come: a peer's after those before it to its lines, the host's in order. -/
def State.serveOne (s : State) (before : List Waiter) (w : Waiter) (after : List Waiter) : Option State :=
  let rest := s.modPkg fun p => { p with waiting := before ++ after }
  match w with
  | .peer acc o => if peerBehind acc before then none else rest.peerTry acc o
  | .host a => if before.any fun w => match w with | .host _ => true | .peer _ _ => false then none else rest.hostTry a
/-- The first of the waiting accesses that can perform, performed. -/
def State.serveFrom (s : State) (before : List Waiter) : List Waiter → Option State
  | [] => none
  | w :: ws => match s.serveOne before w ws with | some t => some t | none => s.serveFrom (before ++ [w]) ws

/-- The oldest landing at a peer that a team has still to count: its core's earlier writes are released first (R97, R123). -/
def State.serveLanded (s : State) (team : Nat) : Option State :=
  match (s.teamAt team).landed with
  | [] => none
  | x :: xs =>
    let core := (s.teamAt team).core
    let t := s.flushCore core
    if t.met ≠ s.met then none
    else if t.coreClear core then some ((t.setTeamAt team { t.teamAt team with landed := xs }).barLand x.1 x.2)
    else if t = s then none
    else some t

/-- The oldest condition that a context holds back is reported once no group of it is stopped (R439). -/
def State.serveStop (s : State) (ctx : Nat) : Option State :=
  let c := s.ctxAt ctx
  if c.hasStop then none
  else
    match c.heldStops with
    | [] => none
    | x :: xs => some ((s.setCtxAt ctx { c with heldStops := xs }).report ctx x.1 x.2)

/-- What the package does of itself now, if anything. -/
def State.service (s : State) : Option State :=
  if s.pkg.bootState < 2 then some s.bootStep
  else (s.serveFrom [] s.pkg.waiting).orElse fun _ => (s.teams.keys.findSome? s.serveLanded).orElse fun _ => s.ctxs.keys.findSome? s.serveStop

end Sys2Proof.Machine
end

