-- ==== Sys2Proof/Machine/Imm.lean ====
section
/-! DEFINITION. The IMM instructions (major 0x02, R268). -/

namespace Sys2Proof.Machine

/-- The immediate sign-extended to w bits. -/
def IF.ext (f : IF) (w : Nat) : Nat := wrap w f.imm.toInt

/-- An IMM instruction: 64 bits on the scalar unit when D is s, 32 bits in lanes otherwise. -/
def State.immOp (s : State) (p : Pred) (f : IF) (srcs : List Opnd) (fn : Nat → Nat → Nat → Nat) : Out :=
  match f.d with
  | .s i => s.once true p (s.opsOk (withRegs 1 srcs)) fun s _ g => g.putS i.val (s.val3 0 .i64 srcs fun a _ _ => fn 64 a (IF.ext f 64))
  | d => s.perLane p (s.opsOk (withRegs 1 (d :: srcs))) fun s l x => x.putVec s.g.wb d false (s.val3 l .i32 srcs fun a _ _ => fn 32 a (IF.ext f 32))

def execMovi (p : Pred) (f : IF) (s : State) : Out := s.immOp p f [] fun _ _ i => i
def execAddi (p : Pred) (f : IF) (s : State) : Out := s.immOp p f [f.a] fun w a i => (a + i) % 2 ^ w
def execAndi (p : Pred) (f : IF) (s : State) : Out := s.immOp p f [f.a] fun _ a i => a &&& i
def execOri (p : Pred) (f : IF) (s : State) : Out := s.immOp p f [f.a] fun _ a i => a ||| i
def execXori (p : Pred) (f : IF) (s : State) : Out := s.immOp p f [f.a] fun _ a i => a ^^^ i

/-- CMPI: the condition in IMM32[31:28] on sext(IMM32[27:0]), 64 bits wide when A is s. -/
def execCmpi (p : Pred) (f : IF) (s : State) : Out :=
  let t : Ty := if f.a.isS then .i64 else .i32
  let imm := wrap t.w (sgn 28 (f.imm.toNat % 2 ^ 28))
  s.compareOp true p f.d [(f.a, 1)] fun s l => s.val3 l t [f.a] fun a _ _ => if cmpHolds t.w (f.imm.toNat / 2 ^ 28) a imm then 1 else 0

end Sys2Proof.Machine
end

