-- ==== Sys2Proof/Machine/MaskOps.lean ====
section
/-! DEFINITION. The MASK instructions (major 0x04, R273): whole masks, once for each issue. -/

namespace Sys2Proof.Machine

/-- A source mask with its poisoned bits; bits at or above the width are zero (R273). -/
def Grp.maskSrc (g : Grp) (o : Opnd) : Mask × Mask :=
  let w := widthMask g.gw
  match o with
  | .m i => (g.mBits i.val &&& w, g.mPoi i.val &&& w)
  | .s i => (BitVec.ofNat 64 (g.sVal i.val).n &&& w, if (g.sVal i.val).poi then w else 0)
  | .const c => (BitVec.ofInt 64 c.int &&& w, 0)
  | _ => (0, 0)

/-- A mask written to an m register bit by bit, or to an s register whole (R54, R249). -/
def Grp.putMask (g : Grp) (d : Opnd) (bits poi : Mask) : Grp :=
  match d with
  | .m i => g.putM i.val (BitVec.allOnes 64) bits poi
  | d => g.putS d.sIdx ⟨bits.toNat, poi != 0⟩

/-- A bitwise form of two masks. -/
def State.maskOp (s : State) (p : Pred) (f : VF) (fn : Mask → Mask → Mask) : Out :=
  s.once true p (fun _ => true) fun _ _ g =>
    let a := g.maskSrc f.a
    let b := g.maskSrc f.b
    g.putMask f.d (fn a.1 b.1) (a.2 ||| b.2)

def execMand (p : Pred) (f : VF) (s : State) : Out := s.maskOp p f fun a b => a &&& b
def execMor (p : Pred) (f : VF) (s : State) : Out := s.maskOp p f fun a b => a ||| b
def execMxor (p : Pred) (f : VF) (s : State) : Out := s.maskOp p f fun a b => a ^^^ b
def execMandn (p : Pred) (f : VF) (s : State) : Out := s.maskOp p f fun a b => a &&& ~~~b
def execMmov (p : Pred) (f : VF) (s : State) : Out :=
  s.once true p (fun _ => true) fun _ _ g => g.putMask f.d (g.maskSrc f.a).1 (g.maskSrc f.a).2

/-- A number computed from a whole mask, into s or into each active lane. -/
def State.maskCount (s : State) (p : Pred) (f : VF) (fn : Nat → Nat) : Out :=
  let res (g : Grp) : Val := ⟨fn (g.maskSrc f.a).1.toNat, (g.maskSrc f.a).2 != 0⟩
  match f.d with
  | .s i => s.once true p (fun _ => true) fun _ _ g => g.putS i.val (res g)
  | d => s.perLane p (s.opsOk [(d, 1)]) fun s _ x => x.putVec s.g.wb d false (res s.g)

/-- The index of the lowest set bit, 64 when none is. -/
def firstBit (x : Nat) : Nat := ((List.range 64).find? fun i => x.testBit i).getD 64

def execMpopc (p : Pred) (f : VF) (s : State) : Out := s.maskCount p f (popCount 64)
def execMfirst (p : Pred) (f : VF) (s : State) : Out := s.maskCount p f firstBit
/-- MACT: the active lanes of this instruction; a handler's issue has none (R273). -/
def execMact (p : Pred) (f : VF) (s : State) : Out := s.once true p (fun _ => true) fun _ act g => g.putMask f.d act 0

end Sys2Proof.Machine
end

