-- ==== Sys2Proof/Machine/Wake.lean ====
section
/-! DEFINITION. What lets a group issue again or first: the end of a group stall (R114), rotation (R189), the starvation guard
(R405), the release of a YIELD (R257), and a handler past its budget (R415). -/

namespace Sys2Proof.Machine

/-! ## Group stalls -/

/-- The free records of the pool that the group's WALLOC draws on. -/
def State.poolFree (s : State) : Nat :=
  match decodeWord s.g.iss.word with
  | .ok (.walloc _ f) => (s.gr.pool (s.gr.node (s.rd 0 .b64 f.a).n).pool).free.length
  | _ => 0

/-- The wake condition of a group's blocking point holds (R114). A latch and a port wake their gang as they open (R339, R340). -/
def State.stallOver (s0 : State) (k : Nat) : Bool :=
  let s := s0.focusGrp k
  if s.g.phase != .running || s.t.phase != .resident || s.g.stopped then false
  else
    match s.g.stall with
    | .walloc => 0 < s.poolFree
    | .remote ids => !s.pkg.peerOut.any fun q => ids.contains q.id && q.lost.isNone
    | .reply ids => !s.pkg.peerOut.any fun q => ids.contains q.id && q.lost.isNone
    | .fill => !s.pkg.peerOut.any fun q => q.tape && q.grp == k && q.kind == .load
    | .release => s.coreClear s.foc.core
    | .fault => s.g.stallRoom < s.recordRoom
    | .tape => !s.tapeStuck
    | .flag => !s.flagStuck (BitVec.allOnes 12)
    | _ => false

/-- GROUP_STALL_WAKE (R114): the group issues again. -/
def execGroupStallWake (grp : Nat) (s : State) : Out :=
  if s.stallOver grp then
    let g := s.grpAt grp
    .next (s.setGrpAt grp { g with stall := .none, afterStall := g.afterStall || g.stall == .fault })
  else .next s

/-! ## Turns -/

/-- ROTATION_RULE (R189): a Running lane that has waited 256 issues makes its PC the issue PC, and its lanes the issue set, which
the issue that follows fetches for. -/
def execRotationRule (grp : Nat) (s : State) : Out :=
  let g := s.grpAt grp
  let top := (g.inState .running).filter fun l => 256 ≤ (g.lane l).rot
  if !s.mayIssue grp || g.handler.isSome || top.isEmpty then .next s
  else
    match g.issuePc with
    | none => .next s
    | some pc =>
      let ls := g.lanesAt pc
      let x := g.lane (ls.headD 0)
      .next (s.setGrpAt grp { g with iss := { pc, bb := x.bb, hdr := x.hdr, set := maskOf ls } })

/-- STARVATION_GUARD (R405): 256 cc have passed in which the group was ready and did not issue; it is chosen before the units'
rule. -/
def execStarvationGuard (grp : Nat) (s : State) : Out :=
  if s.mayIssue grp then let g := s.grpAt grp; .next (s.setGrpAt grp { g with readyFor := max 256 g.readyFor }) else .next s

/-- Every other ready group of the quarter has had its turn since the YIELD, or the quarter has issued 64 times (R257). -/
def State.yieldOver (s : State) (k : Nat) : Bool :=
  let g := s.grpAt k
  let core := (s.teamAt g.team).core
  g.yielded && (64 ≤ g.yieldAge || (s.groups.keys.filter s.mayIssue).all fun j =>
    let h := s.grpAt j
    (s.teamAt h.team).core != core || h.idx % 4 != g.idx % 4 || h.readyFor < g.yieldAge)
/-- YIELD_RELEASE (R257). -/
def execYieldRelease (grp : Nat) (s : State) : Out :=
  if s.yieldOver grp then .next (s.setGrpAt grp { s.grpAt grp with yielded := false }) else .next s

/-- What an instruction does at its issue in a handler (R414): the instructions that a handler may issue have their meanings, and
any other is a Double Trap. -/
def handlerRun (i : Instr) (s : State) : Out :=
  match i with
  | .nop p f => execNop p f s
  | .bra p f => execBra p f s
  | .bru p f => execBru p f s
  | .tret p f => execTret p f s
  | .mfsr p f => execMfsr p f s
  | .mtsr p f => execMtsr p f s
  | .hexitWrite p f => execHexitWrite p f s
  | .ptmaskWrite p f => execPtmaskWrite p f s
  | .lget p f => execLget p f s
  | .lput p f => execLput p f s
  | .add p f => execAdd p f s
  | .sub p f => execSub p f s
  | .mul p f => execMul p f s
  | .mulh p f => execMulh p f s
  | .mad p f => execMad p f s
  | .addc p f => execAddc p f s
  | .subb p f => execSubb p f s
  | .and p f => execAnd p f s
  | .or p f => execOr p f s
  | .xor p f => execXor p f s
  | .andn p f => execAndn p f s
  | .shl p f => execShl p f s
  | .shr p f => execShr p f s
  | .sra p f => execSra p f s
  | .rot p f => execRot p f s
  | .min p f => execMin p f s
  | .max p f => execMax p f s
  | .absd p f => execAbsd p f s
  | .cmp p f => execCmp p f s
  | .sel p f => execSel p f s
  | .popc p f => execPopc p f s
  | .clz p f => execClz p f s
  | .brev p f => execBrev p f s
  | .bfe p f => execBfe p f s
  | .bfi p f => execBfi p f s
  | .mov p f => execMov p f s
  | .div p f => execDiv p f s
  | .movi p f => execMovi p f s
  | .addi p f => execAddi p f s
  | .andi p f => execAndi p f s
  | .ori p f => execOri p f s
  | .xori p f => execXori p f s
  | .cmpi p f => execCmpi p f s
  | .mand p f => execMand p f s
  | .mor p f => execMor p f s
  | .mxor p f => execMxor p f s
  | .mandn p f => execMandn p f s
  | .mmov p f => execMmov p f s
  | .mpopc p f => execMpopc p f s
  | .mfirst p f => execMfirst p f s
  | .mact p f => execMact p f s
  | .ld p f => execLd p f s
  | .st p f => execSt p f s
  | .atom p f => execAtom p f s
  | .cas p f => execCas p f s
  | .casgt p f => execCasgt p f s
  | .casv p f => execCasv p f s
  | .caspt p f => execCaspt p f s
  | .fence p f => execFence p f s
  | _ => .next s.doubleTrap

/-- HANDLER_OVERRUN (R415): the next instruction of a handler whose budget is at 0 is issued; if it would retire, the grid ends with
that cause instead. -/
def execHandlerOverrun (grp : Nat) (s : State) : Out :=
  let g := s.grpAt grp
  if g.handler.any (·.budget == 0) && s.mayIssue grp then
    match (s.focusGrp grp).prepare with
    | .go s' i => handlerRun i s'
    | .spent s' => .next s'
    | .held => .next s
  else .next s

end Sys2Proof.Machine
end

