-- ==== Sys2Proof/Machine/Auto.lean ====
section
/-! DEFINITION. What the machine does of itself when its agenda is empty (log entry 2): an issue and an internal event take
turns, and the first enabled event of a fixed order is taken. -/

namespace Sys2Proof.Machine

/-- An event would change the machine, and not only the model's focus and free counter. -/
def State.moves (s : State) (o : Out) : Bool :=
  match o with | .next s' => ({ s' with foc := s.foc, free := s.free } : State) != s | _ => false
/-- The event of each of some handles that is enabled. -/
def dueOf (ks : List Nat) (p : Nat → Bool) (e : Nat → Instr) : List Instr := (ks.filter p).map e
/-- The same where the event may still come to nothing, for a lock or a write that has not performed. -/
def State.dueMove (s : State) (ks : List Nat) (p : Nat → Bool) (e : Nat → Instr) (x : Nat → State → Out) : List Instr :=
  dueOf ks (fun k => p k && s.moves (x k s)) e

/-- Stops, snapshots, waits and deliveries of groups. -/
def State.groupEvents (s : State) : List Instr :=
  let ks := s.groups.keys
  let resident (k : Nat) : Bool := (s.teamAt (s.grpAt k).team).phase == .resident && (s.gridAt (s.teamAt (s.grpAt k).team).grid).phase == .running
  dueOf ks (fun k => resident k && s.stopDue k) .stopReached
    ++ dueOf ks (fun k => resident k && s.snapDue k) .snapshot
    ++ dueOf ks (fun k => (s.grpAt k).mmaPend.isSome) .mmaComplete
    ++ dueOf ks (fun k => resident k && match s.canPop k with | some x => (match (s.focusGrp k).popState x.1 x.2.1 x.2.2 with | .wait => false | _ => true) | none => false) .mmaPop
    ++ (ks.filterMap fun k => (s.grpAt k).fdone.head?.map fun f => .flagClear k f)
    ++ s.dueMove ks (fun k => resident k && match (s.grpAt k).stall with | .tile (_ :: _) _ _ _ _ => true | _ => false) .tileLockGrant execTileLockGrant
    ++ dueOf ks (fun k => resident k && s.canResume k) .laneWaitResume
    ++ dueOf ks s.stallOver .groupStallWake
    ++ dueOf ks (fun k => resident k && s.fusionReady k) .fusion
    ++ dueOf ks s.canRetire .groupRetirement
    ++ s.dueMove ks (fun k => (s.focusGrp k).spillDue) .tapeSpill execTapeSpill
    ++ s.dueMove ks (fun k => (s.focusGrp k).fillDue) .tapeFill execTapeFill
    ++ dueOf ks s.yieldOver .yieldRelease
    ++ s.ctxs.flatMap fun e => e.2.smplDue.map fun x => .samplePacket x.grp (BitVec.ofNat 8 x.kind) (tab 5 fun i => (Config.freeHalf (s.freeKey (60 + i))).setWidth 16)

/-- Landings of engines, beats of streams, staging and the retirement of teams. A command lands whole. -/
def State.teamEvents (s : State) : List Instr :=
  let ks := s.teams.keys
  (ks.flatMap fun k => (s.teamAt k).cmds.filterMap fun c =>
      let n := max 1 (c.total - c.landed)
      if s.moves (execEngineWriteLanding k c.id n s) then some (.engineWriteLanding k c.id n) else none)
    ++ (ks.flatMap fun k => (s.teamAt k).pushes.flatMap fun u => u.taken.filterMap fun x =>
      if s.moves (execStreamBeatAccept k u.id x.1 1 s) then some (.streamBeatAccept k u.id x.1 1) else none)
    ++ (ks.filterMap fun k =>
      let t := s.teamAt k
      let gr := s.gridAt t.grid
      (gr.flight.find? fun p => p.team == t.id && p.epoch == gr.epoch).map fun p => .anvilStage k (decide (8 ≤ s.setStaged p.pa)))
    ++ s.dueMove ks s.canRetireTeam .teamRetirement execTeamRetirement
    ++ s.dueMove ks s.canEvict .eviction execEviction
    ++ (s.grids.keys.filterMap fun g => (s.nextSaved g).bind fun k => (s.coresFor (s.setOf k)).bind fun cs =>
      (s.setOf k).head?.bind fun t => if s.moves (execTeamRestore t (cs.headD 0) s) then some (.teamRestore t (cs.headD 0)) else none)

/-- What the distributor, the anvil units, the radiance cache and the collective engine may do, and what the host's requests come
to. -/
def State.unitEvents (s : State) : List Instr :=
  let gs := s.grids.keys
  let cs := s.ctxs.keys
  s.dueMove gs s.epochReady .epochClose execEpochClose
    ++ s.dueMove gs s.syncReady .syncPoint execSyncPoint
    ++ s.dueMove cs (fun k => (s.ctxAt k).rcBusy || (s.ctxAt k).stepDue) .temperStep execTemperStep
    ++ s.dueMove cs s.publishReady .versionPublish execVersionPublish
    ++ (match s.nextColl with | some (t, c) => if s.moves (execCollectiveCompletion t c.id [] s) then [.collectiveCompletion t c.id []] else [] | none => [])
    ++ s.dueMove gs (fun k => (s.gridAt k).phase == .ended || s.gridDone k) .gridCompletion execGridCompletion
    ++ s.dueMove s.pkg.queues.keys s.canTake .launchRecordTake execLaunchRecordTake
    ++ s.dueMove gs s.canStart .gridStart execGridStart
    ++ (gs.filterMap fun k =>
      if (s.nextSaved k).isNone && !s.wantsPlace k then none
      else
        let cores := (s.roomFor k).getD (List.range 1536)
        let keep := Config.freeBool (s.freeKey 0)
        if s.moves (execTeamPlacement k cores keep s) then some (.teamPlacement k cores keep) else none)
    ++ s.dueMove cs (fun k => (s.ctxAt k).ctxState == 1 && !s.anyResident k) .switchComplete execSwitchComplete
    ++ dueOf cs s.invDone .invalidationComplete
    ++ s.dueMove cs (fun k => (s.ctxAt k).attBusy) .attestationReportDone execAttestationReportDone
    ++ (if s.pkg.mbxBusy then [.mailboxWriteDone] else [])

/-- Stores and U lines that stand in a core's L1. -/
def State.coreEvents (s : State) : List Instr :=
  s.dueMove s.cores.keys (fun k => !(s.coreAt k).wbuf.isEmpty) .writeBufferDrain execWriteBufferDrain
    ++ s.cores.flatMap fun e => (e.2.l1.filter fun l => l.isU && s.moves (execUPartialApply e.1 l.line s)).map fun l => .uPartialApply e.1 l.line

/-- The internal events that may come about, in the fixed order of log entry 2. What comes from outside the K96 stands in the
agenda alone. -/
def State.autoEvents (s : State) : List Instr := s.groupEvents ++ s.teamEvents ++ s.unitEvents ++ s.coreEvents

/-! ## Traffic classes (R407) -/

/-- The arbitration point of what belongs to no core: the ports of the dies and of the package. -/
def packagePoint : Nat := 1536
/-- The arbitration point, a core's port or the package's, and the class of the packet that an event moves; none for an event that moves
no packet (log entry 106). A buffer that holds a handler's store drains with the handler's traffic. -/
def State.traffic (s : State) (e : Instr) : Option (Nat × Nat) :=
  let ofTeam (t c : Nat) : Option (Nat × Nat) := some ((s.teamAt t).core, c)
  let ofGrp (g c : Nat) : Option (Nat × Nat) := ofTeam (s.grpAt g).team c
  match e with
  | .groupStallWake g =>
    (match (s.grpAt g).stall with
     | .fault => ofGrp g 0
     | .remote _ => ofGrp g (if (s.grpAt g).handler.isSome then 0 else 1)
     | .reply _ => ofGrp g (if (s.grpAt g).handler.isSome then 0 else 1)
     | _ => none)
  | .writeBufferDrain core => some (core, if (s.coreAt core).wbuf.any (·.hand) then 0 else 1)
  | .tileLockGrant g => ofGrp g 1
  | .uPartialApply core _ => some (core, 4)
  | .engineWriteLanding t _ _ => ofTeam t 2
  | .streamBeatAccept t _ _ _ => ofTeam t 2
  | .collectiveCompletion _ _ _ => some (packagePoint, 2)
  | .tapeSpill g => ofGrp g 3
  | .tapeFill g => ofGrp g 3
  | .anvilStage t _ => ofTeam t 4
  | .epochClose _ => some (packagePoint, 4)
  | .temperStep _ => some (packagePoint, 5)
  | .samplePacket g _ _ => ofGrp g 6
  | _ => none
/-- The event that a packet's grant performs. -/
def packetRun (e : Instr) (s : State) : Out :=
  match e with
  | .groupStallWake g => execGroupStallWake g s
  | .writeBufferDrain core => execWriteBufferDrain core s
  | .uPartialApply core line => execUPartialApply core line s
  | .tileLockGrant g => execTileLockGrant g s
  | .engineWriteLanding t c n => execEngineWriteLanding t c n s
  | .streamBeatAccept t u k n => execStreamBeatAccept t u k n s
  | .collectiveCompletion t c xs => execCollectiveCompletion t c xs s
  | .tapeSpill g => execTapeSpill g s
  | .tapeFill g => execTapeFill g s
  | .anvilStage t full => execAnvilStage t full s
  | .epochClose g => execEpochClose g s
  | .temperStep c => execTemperStep c s
  | .samplePacket g k ts => execSamplePacket g k ts s
  | _ => .next s
/-- The age of a packet: the lower, the older; packets of one age are in the order of the events (R407). -/
def State.packetAge (s : State) : Instr → Nat
  | .groupStallWake g => (s.grpAt g).stallOrder
  | .tileLockGrant g => (s.grpAt g).stallOrder
  | .writeBufferDrain core => ((s.coreAt core).wbuf.map (·.order)).headD 0
  | .engineWriteLanding _ c _ => c
  | .streamBeatAccept _ u _ _ => u
  | .collectiveCompletion _ c _ => c
  | _ => 0
/-- The packets of some events that wait at a point, each with its class. -/
def State.packetsAt (s : State) (es : List Instr) (point : Nat) : List (Nat × Instr) :=
  es.filterMap fun e => (s.traffic e).bind fun x => if x.1 == point then some (x.2, e) else none
/-- A point has granted a packet of a class: every other class that waits there has waited for one grant more. -/
def State.granted (s : State) (es : List Instr) (point cls : Nat) : State :=
  let old := s.pkg.waits.get [] point
  let cs := (s.packetsAt es point).map (·.1)
  s.modPkg fun p => { p with waits := p.waits.set point (tab 7 fun c => if c ≠ cls && cs.contains c then bankGet old 0 c + 1 else 0) }
/-- The events that an arbitration point does not hold back: no packet of a lower class waits there. -/
def State.grantable (s : State) (es : List Instr) : List Instr :=
  es.filter fun e => match s.traffic e with
    | none => true
    | some (p, c) => (s.packetsAt es p).all fun x => c ≤ x.1
/-- The packet that a grant by age takes: the oldest of the class that has waited longest at the point. -/
def State.agePacket (s : State) (point : Nat) : Option (Nat × Instr) :=
  let old := s.pkg.waits.get [] point
  (s.packetsAt s.autoEvents point).foldl (fun r x =>
    match r with
    | none => some x
    | some y =>
      let a := bankGet old 0 x.1
      let b := bankGet old 0 y.1
      if b < a || x.1 == y.1 && s.packetAge x.2 < s.packetAge y.2 then some x else some y) none
/-- ARBITRATION_AGE_GRANT (R407): once in 4,096 fc a point grants the oldest packet of the class that has waited longest, whatever its
class. -/
def execArbitrationAgeGrant (point : Nat) (s : State) : Out :=
  match s.agePacket point with
  | none => .next s
  | some (c, e) => packetRun e (s.granted s.autoEvents point c)

/-- What the next step does. -/
inductive Plan
  | event (i : Instr) (s : State)
  | issue (i : Instr) (s : State)
  | spent (s : State)
deriving Repr

/-- An internal event as the next step: the first that no packet of a lower class holds back. -/
def State.planEvent (s : State) : Option Plan :=
  let es := s.autoEvents
  (s.grantable es).head?.map fun e => .event e (match s.traffic e with | some (p, c) => s.granted es p c | none => s)

/-- An issue as the next step, of the group chosen of those whose turn would come to something; `run` is what an instruction does. -/
def State.planIssue (s : State) (run : Instr → State → Out) : Option Plan :=
  let ready := s.readyGroups run
  match s.chooseGroup ready with
  | none => none
  | some k =>
    match ((s.passOver ready k).focusGrp k).prepare with
    | .go s' i => some (.issue i s')
    | .spent s' => some (.spent s')
    | .held => none

/-- An event and an issue take turns. -/
def State.planTurn (s : State) (run : Instr → State → Out) : Plan :=
  let s' := { s with turn := !s.turn }
  if s.turn then (s'.planEvent.orElse fun _ => s'.planIssue run).getD (.spent s')
  else ((s'.planIssue run).orElse fun _ => s'.planEvent).getD (.spent s')
/-- The next step of a machine whose agenda is empty. -/
def State.plan (s : State) (run : Instr → State → Out) : Plan :=
  match s.service, s.rerunDue with
  | some t, _ => .spent t
  | none, some x => .spent (s.rerunStep run x.1 x.2)
  | none, none => s.planTurn run

/-! ## A machine made ready to run one word -/

/-- The VA of the block that holds the word: its header here, the word after it. -/
def placeVA : W64 := 0
/-- The frames of the three tables and of the page that holds the block, in units of 64 KiB. -/
def placeRoot : Nat := 1
/-- A table entry for the frame n of the K96 itself, with leaf bits. -/
def placeEntry (chip n bits : Nat) : List Byte := leBytes 8 (bits + 65536 * (n + 2 ^ 26 * chip))
/-- The header of the block: one word, flags F0 and F1 for SF. -/
def placeHeader : Header := { len := 0, wait := 0, setA := some 0, setB := some 1, live := 64, kind := .ord, pfx := 0 }

/-- A grid of one team of one group of eight lanes that stands at the word, with tables that map its page. It stands for the
loading of a program from outside (log entry 6). -/
def State.place (s : State) (bs : List Byte) : State :=
  let chip := s.pkg.chipId.toNat
  let mem := memWrite s.mem (placeRoot * 65536) (placeEntry chip 2 1)
  let mem := memWrite mem (2 * 65536) (placeEntry chip 3 1)
  let mem := memWrite mem (3 * 65536) (placeEntry chip 4 0x1F)
  let hdr := encodeHeader placeHeader
  let mem := memWrite mem (4 * 65536) (leBytes 8 hdr.toNat)
  let mem := memWrite mem (4 * 65536 + 8) bs
  let lane : Lane := { pc := placeVA + 8, bb := placeVA, hdr, reach := .inside }
  let grp : Grp := { gw := 8, lanes := List.replicate 8 lane, spillLen := 4096 }
  let team : Team := { grid := 0, core := 0, phase := .resident, groups := [0] }
  let grid : Grid := { phase := .running, lrec := { gw0 := 8, nteam := 1 } }
  { s with
    agenda := []
    turn := false
    mem
    memPoi := s.memPoi.filter fun w => 5 * 8192 ≤ w || w < 8192
    pkg := { s.pkg with featLock := true, featEn := 0x1FF, bootState := 2 }
    ctxs := s.ctxs.set 0 { s.ctxAt 0 with root := BitVec.ofNat 64 (1 + 65536 * (placeRoot + 2 ^ 26 * chip)) }
    cores := s.cores.set 0 {}
    grids := s.grids.set 0 grid
    teams := s.teams.set 0 team
    groups := [(0, grp)] }

end Sys2Proof.Machine
end

