-- ==== Sys2Proof/Machine/Cvt.lean ====
section
/-! DEFINITION. The CVT instructions (major 0x09, R296 to R301), delivered through SAT. -/

namespace Sys2Proof.Machine

/-- The source type in MOD[3:0] (R296). -/
def srcTy (f : VF) : Ty := f.ty2.getD .f32

/-- A source element of a floating-point type: the one that .hi chooses, or the whole scalar (R297). -/
def pickElem (f : VF) (t : Ty) (n : Nat) : Nat := (elems t n).getD (if f.hi then 1 else 0) 0

/-- FCVT (R297). -/
def execFcvt (p : Pred) (f : VF) (s : State) : Out :=
  let t := srcTy f
  let src := Ty.fmt t
  let dst := Ty.fmt f.ty
  let pack := f.ty.is16x2 && !t.is16x2
  s.perLane p (s.opsOk ([(f.d, f.ty.regs), (f.a, t.regs)] ++ if pack then [(f.b, t.regs)] else [])) fun s l x =>
    let env := cvtEnv x.fpl f.rmo
    let a := s.rd l t f.a
    let b := if pack then s.rd l t f.b else {}
    let one (n : Nat) : FpR := satNum dst env (opnd src env n)
    let rs := if pack then [one a.n, one b.n]
      else if f.ty.is16x2 then (elems t a.n).map one
      else [one (pickElem f t a.n)]
    x.putFp s.g.wb f.d f.ty.is64 (joinRes f.ty rs) (a.poi || b.poi)

/-- FTOI (R297): a NaN gives 0 with NV, and a value beyond the type its bound with NV. -/
def execFtoi (p : Pred) (f : VF) (s : State) : Out :=
  let t := srcTy f
  s.perLane p (s.opsOk [(f.d, f.ty.regs), (f.a, t.regs)]) fun s l x =>
    let env := cvtEnv x.fpl f.rmo
    let a := s.rd l t f.a
    x.putFp s.g.wb f.d f.ty.is64 (satInt f.ty.w f.ty.isI env.rm (opnd (Ty.fmt t) env (pickElem f t a.n))) a.poi

/-- ITOF (R296, R297): a packed destination takes e0 from A and e1 from B. -/
def execItof (p : Pred) (f : VF) (s : State) : Out :=
  let t := srcTy f
  let pack := f.ty.is16x2
  s.perLane p (s.opsOk ([(f.d, f.ty.regs), (f.a, t.regs)] ++ if pack then [(f.b, t.regs)] else [])) fun s l x =>
    let env := cvtEnv x.fpl f.rmo
    let a := s.rd l t f.a
    let b := if pack then s.rd l t f.b else {}
    let one (n : Nat) : FpR := satNum (Ty.fmt f.ty) env (ofInt (intOf t n))
    x.putFp s.g.wb f.d f.ty.is64 (joinRes f.ty (if pack then [one a.n, one b.n] else [one a.n])) (a.poi || b.poi)

/-- w bits of a word replaced at element i. -/
def putElem (w word i v : Nat) : Nat := word - bitsAt word (w * i) w * 2 ^ (w * i) + v % 2 ^ w * 2 ^ (w * i)

/-- PACK8 writes elements 2h and 2h + 1 and keeps the others (R298). -/
def execPack8 (p : Pred) (f : VF) (s : State) : Out :=
  s.perLane p (s.opsOk (withRegs 1 [f.d, f.a, f.b])) fun s l x =>
    let env := cvtEnv x.fpl f.rmo
    let a := s.rd l .f32 f.a
    let b := s.rd l .f32 f.b
    let d := s.rd l .b32 f.d
    let one (n : Nat) : FpR := satNum (Ty.fmt f.ty) env (opnd fp32 env n)
    let h := f.m % 2
    let v := putElem 8 (putElem 8 d.n (2 * h) (one a.n).bits) (2 * h + 1) (one b.n).bits
    x.putFp s.g.wb f.d false ⟨v, (one a.n).fl ||| (one b.n).fl⟩ (a.poi || b.poi || d.poi)

/-- UNPK8 widens one FP8 element to FP32 (R299). -/
def execUnpk8 (p : Pred) (f : VF) (s : State) : Out :=
  let fmt := Ty.fmt f.ty
  s.perLane p (s.opsOk (withRegs 1 [f.d, f.a])) fun s l x =>
    let env := cvtEnv x.fpl f.rmo
    let a := s.rd l f.ty f.a
    x.putFp s.g.wb f.d false (deliverNum fp32 { env with ftz := false } (opnd fmt env (bitsAt a.n (8 * (f.m % 4)) 8))) a.poi

/-- The width of an asymmetric element (R205). -/
def aiWidth (t : Ty) : Nat := if t == .ai8 then 8 else 4
/-- A scale word that QNT and DEQ refuse (R300). -/
def badScale (t : Ty) (b : Nat) : Bool := b / 2 ^ 24 % 256 != 0 || t == .ai4 && 16 ≤ b / 2 ^ 16 % 256

/-- num / den rounded to an integer under rm: the magnitude, and whether it is exact. -/
def roundRatio (rm : Rm) (neg : Bool) (num den : Nat) : Nat × Bool :=
  let q := num / den
  let r := num % den
  let half := if r == 0 then 0 else if 2 * r < den then 1 else if 2 * r == den then 2 else 3
  (if roundsUp rm neg q half then q + 1 else q, r == 0)

/-- The code that QNT chooses with its flags (R300). -/
def quantise (t : Ty) (env : FpEnv) (x sc : Num) (zp : Nat) : Nat × W32 :=
  let top := 2 ^ aiWidth t - 1
  let clamp (neg : Bool) : Nat × W32 := (if neg then 0 else top, fNV)
  match x, sc with
  | .fin n m e, .fin false (k + 1) e' =>
    let r := roundRatio env.rm n (m * 2 ^ (e - e').toNat) ((k + 1) * 2 ^ (e' - e).toNat)
    let q : Int := (if n then -(r.1 : Int) else r.1) + zp
    if q < 0 then clamp true else if (top : Int) < q then clamp false else (q.toNat, if r.2 then 0 else fNX)
  | .inf n, .fin false (_ + 1) _ => clamp n
  | _, _ => (zp, fNV)

/-- A scale word read: the trap of a lane whose unpoisoned scale word is refused. -/
def State.scaleFails (s : State) (f : VF) (act : Mask) (srcs : List Opnd) : List (Nat × Fail) :=
  ((s.g.lanesOf act).filter fun l => !(srcs.any fun o => (s.rd l .b32 o).poi) && badScale f.ty (s.rd l .b32 f.b).n).map
    fun l => (l, Fail.opndLate)

/-- QNT (R300). -/
def execQnt (p : Pred) (f : VF) (s : State) : Out :=
  s.perform false p (s.opsOk (withRegs 1 [f.d, f.a, f.b])) fun s act =>
    let fails := s.scaleFails f act [f.d, f.a, f.b]
    let ok := (s.g.lanesOf act).filter fun l => fails.all fun x => x.1 != l
    let g := s.g.modLanes ok fun l x =>
      let env := cvtEnv x.fpl f.rmo
      let a := s.rd l .f32 f.a
      let b := s.rd l .b32 f.b
      let d := s.rd l .b32 f.d
      let r := quantise f.ty env (opnd fp32 env a.n) (opnd fp16 env (b.n % 65536)) (b.n / 65536 % 256)
      x.putFp s.g.wb f.d false ⟨putElem (aiWidth f.ty) d.n f.m r.1, r.2⟩ (a.poi || b.poi || d.poi)
    .done (s.setG g) fails

/-- DEQ (R301). -/
def execDeq (p : Pred) (f : VF) (s : State) : Out :=
  s.perform false p (s.opsOk (withRegs 1 [f.d, f.a, f.b])) fun s act =>
    let fails := s.scaleFails f act [f.a, f.b]
    let ok := (s.g.lanesOf act).filter fun l => fails.all fun x => x.1 != l
    let g := s.g.modLanes ok fun l x =>
      let env := cvtEnv x.fpl f.rmo
      let a := s.rd l .b32 f.a
      let b := s.rd l .b32 f.b
      let q : Int := (bitsAt a.n (aiWidth f.ty * f.m) (aiWidth f.ty) : Nat) - ((b.n / 65536 % 256 : Nat) : Int)
      x.putFp s.g.wb f.d false (fmul fp32 env (opnd fp16 env (b.n % 65536)) (ofInt q)) (a.poi || b.poi)
    .done (s.setG g) fails

end Sys2Proof.Machine
end

