-- ==== Sys2Proof/Machine/Ray.lean ====
section
/-! DEFINITION. Ray traversal (major 0x2B, R375 to R382): state records in scratchpad, the traversal of a lane, and the adjoint of a
hit. -/

namespace Sys2Proof.Machine

/-! ## Records (R375, R376) -/

/-- The reference of a complete subtree, and of no hit. -/
def refNone : Nat := 0xC0000000
def refKind (r : Nat) : Nat := r / 2 ^ 30
def refIndex (r : Nat) : Nat := r % 2 ^ 30

/-- A traversal state record (R376). -/
structure Ray where
  org : List Nat := []
  dir : List Nat := []
  flags : Nat := 0
  scene : Nat := 0
  tmin : Nat := 0
  tmax : Nat := 0
  node : Nat := 0
  level : Nat := 0
  sp : Nat := 0
  drop : Nat := 0
  status : Nat := 0
  stack : List Nat := []
  slev : Nat := 0
  trail : Nat := 0
  hitu : Nat := 0
  hitv : Nat := 0
  hprim : Nat := 0
  href : Nat := 0
  cref : Nat := 0
deriving DecidableEq, Repr, Inhabited

def readRay (b : List Byte) : Ray :=
  let w (lo n : Nat) : Nat := ofLe ((b.drop lo).take n)
  { org := tab 3 fun i => w (4 * i) 4, dir := tab 3 fun i => w (12 + 4 * i) 4, flags := w 24 4, scene := w 28 4, tmin := w 32 4, tmax := w 36 4,
    node := w 40 4, level := w 44 1, sp := w 45 1, drop := w 46 1, status := w 47 1, stack := tab 12 fun i => w (48 + 4 * i) 4,
    slev := w 96 6, trail := w 102 6, hitu := w 108 4, hitv := w 112 4, hprim := w 116 4, href := w 120 4, cref := w 124 4 }
def Ray.bytes (r : Ray) : List Byte :=
  r.org.flatMap (leBytes 4) ++ r.dir.flatMap (leBytes 4) ++ leBytes 4 r.flags ++ leBytes 4 r.scene ++ leBytes 4 r.tmin ++ leBytes 4 r.tmax
    ++ leBytes 4 r.node ++ leBytes 1 r.level ++ leBytes 1 r.sp ++ leBytes 1 r.drop ++ leBytes 1 r.status ++ r.stack.flatMap (leBytes 4)
    ++ leBytes 6 r.slev ++ leBytes 6 r.trail ++ leBytes 4 r.hitu ++ leBytes 4 r.hitv ++ leBytes 4 r.hprim ++ leBytes 4 r.href ++ leBytes 4 r.cref

def Ray.first (r : Ray) : Bool := r.flags.testBit 0
def Ray.cull (r : Ray) : Bool := r.flags.testBit 1
def Ray.trailAt (r : Ray) (l : Nat) : Nat := bitsAt r.trail (3 * l) 3
def Ray.slevAt (r : Ray) (e : Nat) : Nat := bitsAt r.slev (4 * e) 4
/-- The fields that a traversal rests on lie in the ranges of R376. -/
def Ray.wf (r : Ray) : Bool :=
  r.level ≤ 15 && r.sp ≤ 12 && r.status ≤ 3 && (List.range 16).all (fun l => r.trailAt l ≤ 4) && (List.range r.sp).all fun e => 1 ≤ r.slevAt e

/-- TRAIL[lev − 1] += 1 and TRAIL[L] ← 0 for L ≥ lev (R379). -/
def Ray.bump (r : Ray) (lev : Nat) : Ray :=
  match lev with
  | 0 => { r with trail := 0 }
  | k + 1 => { r with trail := r.trail % 2 ^ (3 * k) + (r.trailAt k + 1) % 8 * 2 ^ (3 * k) }
/-- A push; onto twelve entries it drops entry 0 and sets DROP (R379). -/
def Ray.push (r : Ray) (ref lev : Nat) : Ray :=
  let r := if 12 ≤ r.sp then { r with stack := r.stack.drop 1 ++ [0], slev := r.slev / 16, sp := 11, drop := r.drop / 2 * 2 + 1 } else r
  { r with stack := r.stack.set r.sp ref, slev := r.slev % 2 ^ (4 * r.sp) + (lev % 16 + r.slev / 2 ^ (4 * r.sp + 4) * 16) * 2 ^ (4 * r.sp), sp := r.sp + 1 }
/-- STATUS at the end of a traversal (R378). -/
def Ray.finish (r : Ray) : Ray := { r with status := if r.href = refNone then 0 else 1 }

/-- A scene record (R375). -/
structure Scene where
  nodes : W64 := 0
  tris : W64 := 0
  root : Nat := 0
deriving DecidableEq, Repr, Inhabited
def readScene (b : List Byte) : Scene :=
  { nodes := BitVec.ofNat 64 (ofLe (b.take 8)), tris := BitVec.ofNat 64 (ofLe ((b.drop 8).take 8)), root := ofLe ((b.drop 24).take 4) }

/-! ## Tests (R381) -/

/-- a ≤ b, false for a NaN. -/
def numLe (a b : Num) : Bool := !a.isNan && !b.isNan && !numLt b a
def numMax (a b : Num) : Num := if numLt a b then b else a
def numMin (a b : Num) : Num := if numLt b a then b else a
/-- An FP32 word, read with DAZ clear. -/
def fw (n : Nat) : Fx := .op {} n
/-- The exact difference of two numbers. -/
def exactSub (a b : Num) : Num :=
  match a, b with
  | .fin n m e, .fin n' m' e' => let t := exactSum [(n, m, e), (!n', m', e')]; .fin (t.1 < 0) t.1.natAbs t.2
  | .inf n, .inf n' => if n == n' then unpack fp32 fp32.nanBits else .inf n
  | .inf n, .fin .. => .inf n
  | .fin .., .inf n => .inf (!n)
  | _, _ => unpack fp32 fp32.nanBits

/-- The interval of one axis: none where the child is missed, no bounds for the whole line (R381). -/
def slabAxis (o d lo hi : Fx) : Option (Option (Num × Num)) :=
  if d.x.isZero then (if numLe lo.x o.x && numLe o.x hi.x then some none else none)
  else
    let i := fxDiv {} .one d
    let t1 := (fxMul {} (.exact (exactSub lo.x o.x)) i).x
    let t2 := (fxMul {} (.exact (exactSub hi.x o.x)) i).x
    if t1.isNan || t2.isNan then none else some (some (numMin t1 t2, numMax t1 t2))

/-- The slab test of a child's box: its entry when it passes (R381). -/
def Ray.slab (r : Ray) (box : List Nat) : Option Num :=
  let tmin := (fw r.tmin).x
  let tmax := (fw r.tmax).x
  if tmin.isNan || tmax.isNan then none
  else
    let e := (List.range 3).foldl (fun (a : Option (Num × Num)) i =>
      match a, slabAxis (fw (r.org.getD i 0)) (fw (r.dir.getD i 0)) (fw (box.getD i 0)) (fw (box.getD (i + 3) 0)) with
      | some (lo, hi), some (some (l, h)) => some (numMax lo l, numMin hi h)
      | some x, some none => some x
      | _, _ => none) (some (tmin, tmax))
    match e with
    | some (lo, hi) => if numLe lo hi then some lo else none
    | none => none

/-! Vectors of three components: each component and each dot product has one rounding. -/

def vSub (env : FpEnv) (a b : List Fx) : List Fx := tab 3 fun i => fxSub env (a.getD i .zero) (b.getD i .zero)
def vCross (env : FpEnv) (a b : List Fx) : List Fx :=
  tab 3 fun i =>
    let x (v : List Fx) (j : Nat) : Fx := v.getD ((i + j) % 3) .zero
    fxSum env [[x a 1, x b 2], [(x a 2).neg, x b 1]]
def vDot (env : FpEnv) (a b : List Fx) : Fx := fxSum env (tab 3 fun i => [a.getD i .zero, b.getD i .zero])
/-- The vertices of a triangle record. -/
def vertices (env : FpEnv) (b : List Byte) (k : Nat) : List Fx := tab 3 fun i => .op env (ofLe ((b.drop (12 * k + 4 * i)).take 4))

/-- The triangle test: t, u and v on acceptance (R381). -/
def Ray.triangle (r : Ray) (b : List Byte) : Option (Nat × Nat × Nat) :=
  let v0 := vertices {} b 0
  let o := r.org.map fw
  let d := r.dir.map fw
  let e1 := vSub {} (vertices {} b 1) v0
  let e2 := vSub {} (vertices {} b 2) v0
  let sv := vSub {} o v0
  let p := vCross {} d e2
  let det := vDot {} e1 p
  if det.x.isZero || r.cull && !det.x.isNan && det.x.neg then none
  else
    let q := vCross {} sv e1
    let u := fxDiv {} (vDot {} sv p) det
    let v := fxDiv {} (vDot {} d q) det
    let t := fxDiv {} (vDot {} e2 q) det
    let zero : Num := .fin false 0 0
    if numLe zero u.x && numLe zero v.x && numLe (fxAdd {} u v).x Fx.one.x && numLe (fw r.tmin).x t.x && !(fw r.tmax).x.isNan && numLt t.x (fw r.tmax).x
    then some (t.bits, u.bits, v.bits) else none

/-! ## The traversal of a lane (R379) -/

/-- What a fetch of the unit finds: bytes, faults, or requests (R380). -/
inductive Fetch
  | got (bs : List Byte)
  | flt (fs : List LaneFlt)
  | wait (ids : List Nat)
deriving DecidableEq, Repr, Inhabited

def State.rayFetch (s : State) (l : Nat) (va : W64) (n : Nat) : State × Fetch :=
  let flt (s : State) (fs : List (W64 × Flt)) : Fetch :=
    .flt (fs.map fun f => { mask := bitMask l, lane := l, va := f.1, page := s.pageOf f.1, flt := f.2 })
  match s.mapRun .traverse va n with
  | (s, _, f :: fs) => (s, flt s (f :: fs))
  | (s, ps, []) =>
    let r := s.readParts .traverse 7 (bitMask l) ps
    if !r.2.waits.isEmpty then (r.1, .wait r.2.waits)
    else if r.2.got.bad then (r.1, flt r.1 (partFlts r.2.lost ps r.2.got.poi)) else (r.1.logRead .traverse va.toNat r.2.got.data, .got r.2.got.data)

/-- The children of a node that pass, ascending by entry, ties by lower slot (R379). -/
def Ray.children (r : Ray) (b : List Byte) : List Nat :=
  let cs := (List.range 4).filterMap fun c =>
    let ref := ofLe ((b.drop (96 + 4 * c)).take 4)
    if refKind ref = 3 then none else (r.slab (tab 6 fun i => ofLe ((b.drop (24 * c + 4 * i)).take 4))).map fun e => (e, ref)
  (sortBy (fun x y => !numLt y.1 x.1) cs).map (·.2)

/-- A node entered: the farther children pushed from the last down (R379). -/
def Ray.enter (r : Ray) (b : List Byte) : Ray :=
  let list := r.children b
  let k := r.trailAt r.level
  match list.drop k with
  | [] => { r with node := refNone }
  | c :: more =>
    let r := more.reverse.foldl (fun r x => r.push x (r.level + 1)) r
    { r with node := c, level := r.level + 1 }

/-- A triangle tested: true when the traversal finishes (R379). -/
def Ray.hitTriangle (r : Ray) (b : List Byte) : Ray × Bool :=
  match r.triangle b with
  | some (t, u, v) =>
    let r := { r with tmax := t, hitu := u, hitv := v, hprim := ofLe ((b.drop 36).take 4), href := r.node }
    if r.first then (r.finish, true) else ({ r with node := refNone }, false)
  | none => ({ r with node := refNone }, false)

/-- How a lane's traversal ends: its record, with the faults of a fetch, or the requests it waits for. -/
inductive RayRun
  | stop (r : Ray) (fs : List LaneFlt)
  | wait (ids : List Nat)
deriving DecidableEq, Repr, Inhabited

/-- The loop of R379, to at most `fuel` steps; TRAIL rises at every return to a node, so that far fewer suffice. -/
def State.rayLoop (s : State) (sc : Scene) (l : Nat) (r : Ray) : Nat → State × RayRun
  | 0 => (s, .stop r [])
  | n + 1 =>
    if r.node = refNone then
      if 0 < r.sp then
        let e := r.sp - 1
        let r := { r with node := r.stack.getD e 0, level := r.slevAt e, sp := e }
        s.rayLoop sc l (r.bump r.level) n
      else if r.drop.testBit 0 && 0 < r.level then
        s.rayLoop sc l { r.bump r.level with drop := r.drop / 2 * 2, node := sc.root, level := 0 } n
      else (s, .stop r.finish [])
    else
      match refKind r.node with
      | 0 =>
        if 15 ≤ r.level then s.rayLoop sc l { r with node := refNone } n
        else
          match s.rayFetch l (sc.nodes + BitVec.ofNat 64 (128 * refIndex r.node)) 128 with
          | (s, .got b) => s.rayLoop sc l (r.enter b) n
          | (s, .flt fs) => (s, .stop { r with status := 3 } fs)
          | (s, .wait ids) => (s, .wait ids)
      | 1 =>
        match s.rayFetch l (sc.tris + BitVec.ofNat 64 (48 * refIndex r.node)) 48 with
        | (s, .got b) => let x := r.hitTriangle b; if x.2 then (s, .stop x.1 []) else s.rayLoop sc l x.1 n
        | (s, .flt fs) => (s, .stop { r with status := 3 } fs)
        | (s, .wait ids) => (s, .wait ids)
      | 2 => (s, .stop { r with cref := r.node, node := refNone, status := 2 } [])
      | _ => s.rayLoop sc l { r with node := refNone } n

/-- More steps than a traversal of 15 levels can take. -/
def rayFuel : Nat := 2 ^ 64

/-! ## The words -/

/-- What a lane of a RAY word comes to: a trap, a range fault, poisoned results, requests, or its record and status. -/
inductive RayLane
  | fail (f : Fail)
  | range (f : LaneFlt)
  | poi (f : LaneFlt)
  | wait (ids : List Nat)
  | done (addr : Nat) (rec' : List Byte) (status : Nat) (fs : List LaneFlt)
deriving DecidableEq, Repr, Inhabited

/-- Bytes of the scratchpad out of range, guarded, or that no store reaches (R377). -/
def State.rayRange (s : State) (l a n : Nat) : Option LaneFlt :=
  if scrClass (s.scrSize s.foc.team) a n ≠ 0 || s.scrGuarded s.foc.team a n then some { mask := bitMask l, lane := l, flt := ⟨kScratch, scrAux a⟩ }
  else none
/-- A poisoned word among the bytes of a record (R380). -/
def State.rayPoison (s : State) (l a n : Nat) : Option LaneFlt :=
  if (s.scrRead s.foc.team a n).bad then some { mask := bitMask l, lane := l, flt := ⟨kEcc, scrPoiAux (s.scrBadWord s.foc.team a n)⟩ } else none

/-- The scene of a lane that uses it (R377, R380), then `k`. -/
def State.withScene (s : State) (l a : Nat) (k : State → Scene → State × RayLane) : State × RayLane :=
  if a % 32 ≠ 0 then (s, .fail { cause := cAlign })
  else
    match s.rayRange l a 32, s.rayPoison l a 32 with
    | some f, _ => (s, .range f)
    | none, some f => (s, .poi f)
    | none, none => let b := (s.scrRead s.foc.team a 32).data; k (s.logRead .traverse (digScr a) b) (readScene b)

/-- A traversal run from a lane's record (R378, R379). A record outside the ranges of R376 gives free values to the fields that a
traversal may assign, TMAX and those after it, and keeps the rest (R471; log entry 68). -/
def State.rayRun (s : State) (l a : Nat) (r : Ray) (root : Bool) : State × RayLane :=
  s.withScene l r.scene fun s sc =>
    let r := if root then { r with node := sc.root } else r
    if !r.wf then
      let b := r.bytes.take 36 ++ (s.freeBytes l 128).drop 36
      (s, .done a b ((b.getD 47 0).toNat % 4) [])
    else
      match s.rayLoop sc l r rayFuel with
      | (s, .stop r fs) => (s, .done a r.bytes (r.status % 4) fs)
      | (s, .wait ids) => (s, .wait ids)

/-- The checks of a lane's state record in their order (R377), then `k` with its address and record. -/
def State.rayLane (s : State) (f : VF) (poi : Option Opnd) (scene : Option Nat) (l : Nat) (k : State → Nat → Ray → State × RayLane) : State × RayLane :=
  let a := (s.rd l .b32 f.a).n
  match poi with
  | some o => (s, .fail (.poison o))
  | none =>
    if a % 128 ≠ 0 || scene.any (· % 32 ≠ 0) then (s, .fail { cause := cAlign })
    else
      match s.rayRange l a 128, scene.bind fun x => s.rayRange l x 32, s.rayPoison l a 128 with
      | some e, _, _ => (s, .range e)
      | none, some e, _ => (s, .range e)
      | none, none, some e => (s, .poi e)
      | none, none, none => let b := (s.scrRead s.foc.team a 128).data; k (s.logRead .traverse (digScr a) b) a (readRay b)

/-- The first poisoned operand of a lane: A, then n registers of B, then C. -/
def State.rayPoi (s : State) (f : VF) (l nb : Nat) (c : Bool) : Option Opnd :=
  if (s.rd l .b32 f.a).poi then some f.a
  else if (List.range nb).any fun j => (s.g.vReg l (f.b.vIdx + j)).poi then some f.b
  else if c then some f.c
  else none

/-- Every lane of a RAY word from the state at issue. -/
def State.rayAll (s : State) (ls : List Nat) (one : State → Nat → State × RayLane) : State × List (Nat × RayLane) :=
  ls.foldl (fun x l => let r := one x.1 l; (r.1, x.2 ++ [(l, r.2)])) (s, [])

def rayWaits (xs : List (Nat × RayLane)) : List Nat := xs.flatMap fun x => match x.2 with | .wait ids => ids | _ => []
def rayFlts (xs : List (Nat × RayLane)) : List LaneFlt :=
  xs.flatMap fun x => match x.2 with | .range f => [f] | .poi f => [f] | .done _ _ _ fs => fs | _ => []
def rayFails (xs : List (Nat × RayLane)) (t : Fail) : List (Nat × Fail) :=
  xs.filterMap fun x => match x.2 with | .fail f => some (x.1, f) | .range _ => some (x.1, t) | _ => none

/-- TRACE, TRESUME and TABORT (R377, R378): records written and statuses delivered once no lane waits. -/
def State.rayOp (s : State) (p : Pred) (f : VF) (nb : Nat) (one : State → Nat → State × RayLane) (chk : Bool) : Out :=
  s.perform false p (s.opsOk ([(f.d, 1), (f.a, 1)] ++ if nb = 0 then [] else [(f.b, nb)])) fun s act =>
    if chk && !(s.rd 0 .b64 f.c).poi && 2 ^ 34 ≤ (s.rd 0 .b64 f.c).n then .done s (failAll s.g act .opndLate)
    else if s.flagFull (s.sfNow f.sf) then s.fullWait (s.sfNow f.sf)
    else
      let (s, xs) := s.rayAll (s.g.lanesOf act) one
      if !(rayWaits xs).isEmpty then .stall s (.reply (rayWaits xs))
      else
        match s.noteFlts .traverse 7 (rayFlts xs) with
        | none => .stall s .fault
        | some (s, seq, n) =>
          let fails := rayFails xs (.trans seq n)
          let (s, tag) := if fails.length = xs.length then (s, none) else s.flagStart (s.sfNow f.sf)
          let s := xs.foldl (fun s x =>
            match x.2 with
            | .done a b st _ => ((s.scrWrite s.foc.team a b).wroteImage (digScr a) b).modG fun g => g.modLane x.1 fun y => y.putRegs g.wb f.d [⟨BitVec.ofNat 32 st, false⟩]
            | .poi _ => s.modG fun g => g.modLane x.1 fun y => y.putRegs g.wb f.d [s.poisonReg x.1 0]
            | _ => s) s
          .done ((s.flagEnd tag).sampled .traverse) fails

/-- TRACE (R378). -/
def execTrace (p : Pred) (f : VF) (s : State) : Out :=
  s.rayOp p f 8 (fun s l =>
    let c := s.rd 0 .b64 f.c
    s.rayLane f (s.rayPoi f l 8 c.poi) (some (c.n % 2 ^ 32)) l fun s a r =>
      let b (j : Nat) : Nat := (s.g.vReg l (f.b.vIdx + j)).val.toNat
      s.rayRun l a { r with org := tab 3 b, dir := tab 3 fun i => b (3 + i), tmin := b 6, tmax := b 7, flags := c.n / 2 ^ 32 % 4, scene := c.n % 2 ^ 32,
                            level := 0, sp := 0, drop := 0, trail := 0, status := 0, href := refNone } true) true

/-- TRESUME (R378). -/
def execTresume (p : Pred) (f : VF) (s : State) : Out :=
  let hit := f.m % 2 == 1
  s.rayOp p f (if hit then 1 else 0) (fun s l =>
    s.rayLane f (s.rayPoi f l (if hit then 1 else 0) false) none l fun s a r =>
      if r.status < 2 then (s, .done a r.bytes r.status [])
      else
        let t := (s.g.vReg l f.b.vIdx).val.toNat
        let x := fw t
        if r.status = 2 && hit && numLe (fw r.tmin).x x.x && numLt x.x (fw r.tmax).x && !(fw r.tmax).x.isNan then
          let r := { r with tmax := t, hitu := 0, hitv := 0, hprim := refIndex r.cref, href := r.cref }
          if r.first then (s, .done a r.finish.bytes (r.finish.status % 4) []) else s.rayRun l a r false
        else s.rayRun l a r false) false

/-- TABORT (R378). -/
def execTabort (p : Pred) (f : VF) (s : State) : Out :=
  s.rayOp p f 0 (fun s l =>
    s.rayLane f (s.rayPoi f l 0 false) none l fun s a r =>
      let r := if r.status = 2 || r.status = 3 then ({ r with node := refNone, sp := 0 } : Ray).finish else r
      (s, .done a r.bytes (r.status % 4) [])) false

/-! ## HITADJ (R382) -/

/-- The derivatives of a hit: `gs` are ∂L/∂t, ∂L/∂u and ∂L/∂v. -/
def Ray.adjoint (r : Ray) (env : FpEnv) (b : List Byte) (gs : List Nat) : List Fx :=
  let op (n : Nat) : Fx := .op env n
  let v0 := vertices env b 0
  let d := r.dir.map op
  let e1 := vSub env (vertices env b 1) v0
  let e2 := vSub env (vertices env b 2) v0
  let nv := vCross env e1 e2
  let p := vCross env d e2
  let w := vCross env e1 d
  let det := vDot env e1 p
  let u := op r.hitu
  let v := op r.hitv
  let g (i : Nat) : Fx := op (gs.getD i 0)
  let lam := tab 3 fun a => fxDiv env (fxSum env [[g 0, nv.getD a .zero], [g 1, p.getD a .zero], [g 2, w.getD a .zero]]) det
  let c := fxSub env .one (fxAdd env u v)
  let by' (x : Fx) : List Fx := lam.map fun y => fxMul env x y
  by' c.neg ++ by' u.neg ++ by' v.neg ++ lam ++ by' (op r.tmax)

/-- HITADJ (R382, R418): a triangle that cannot be fetched poisons the results. -/
def execHitadj (p : Pred) (f : VF) (s : State) : Out :=
  s.perform false p (s.opsOk [(f.d, 15), (f.a, 1), (f.c, 3)]) fun s act =>
    let ls := s.g.lanesOf act
    let cReg (l j : Nat) : Reg := s.g.vReg l (f.c.vIdx + j)
    let zeros : List Byte := []
    let one (s : State) (l : Nat) : State × RayLane :=
      let cp := (List.range 3).any fun j => (cReg l j).poi
      s.rayLane f (s.rayPoi f l 0 cp) none l fun s a r =>
        if r.status ≠ 1 || refKind r.href ≠ 1 then (s, .done a zeros 0 [])
        else
          s.withScene l r.scene fun s sc =>
            match s.rayFetch l (sc.tris + BitVec.ofNat 64 (48 * refIndex r.href)) 48 with
            | (s, .got b) => (s, .done a b 1 [])
            | (s, .flt fs) => (s, .done a zeros 2 fs)
            | (s, .wait ids) => (s, .wait ids)
    let (s, xs) := s.rayAll ls one
    if !(rayWaits xs).isEmpty then .stall s (.reply (rayWaits xs))
    else
      match s.noteFlts .traverse 7 (rayFlts xs) with
      | none => .stall s .fault
      | some (s, seq, n) =>
        let bad := maskOf ((xs.filter fun x => match x.2 with | .poi _ => true | .done _ _ st _ => st == 2 | _ => false).map (·.1))
        let g := xs.foldl (fun g x =>
          match x.2 with
          | .done a b st _ =>
            if st = 2 then g
            else
              let r := readRay (s.scrRead s.foc.team a 128).data
              g.modLane x.1 fun y =>
                let rs := if st = 0 then List.replicate 15 Fx.zero else r.adjoint (fpEnv y.fpl f.rmo) b (tab 3 fun j => (cReg x.1 j).val.toNat)
                y.putFx g.wb f.d rs 0 false
          | _ => g) s.g
        let (s, full) := (s.setG g).origin f.d 15 bad seq n
        .done (s.sampled .traverse) (rayFails xs (.trans seq n) ++ full)

end Sys2Proof.Machine
end

