-- ==== Sys2Proof/Machine/Tex.lean ====
section
/-! DEFINITION. Texture sampling and its adjoint (major 0x2A, R370 to R374). -/

namespace Sys2Proof.Machine

/-! ## Texture records (R370, R371) -/

structure TexRec where
  base : W64 := 0
  grad : W64 := 0
  w : Nat := 1
  h : Nat := 1
  levels : Nat := 1
  fmt : Nat := 0
  wrapH : Nat := 0
  wrapV : Nat := 0
  bil : Bool := false
  lin : Bool := false
deriving DecidableEq, Repr, Inhabited

/-- The bytes of a record, and whether every field is in its range. -/
def readTex (b : List Byte) : TexRec × Bool :=
  let n (lo k : Nat) : Nat := ofLe ((b.drop lo).take k)
  let r : TexRec :=
    { base := BitVec.ofNat 64 (n 0 8), grad := BitVec.ofNat 64 (n 8 8), w := n 16 2, h := n 18 2, levels := n 20 1, fmt := n 21 1,
      wrapH := n 22 1 % 4, wrapV := n 22 1 / 4 % 4, bil := n 23 1 % 2 == 1, lin := n 23 1 / 2 % 2 == 1 }
  (r, n 0 8 % 256 == 0 && n 8 8 % 256 == 0 && 1 ≤ r.w && r.w ≤ 16384 && 1 ≤ r.h && r.h ≤ 16384
    && 1 ≤ r.levels && r.levels ≤ min 15 (1 + Nat.log2 (max r.w r.h)) && r.fmt ≤ 2 && n 22 1 < 16 && n 23 1 < 4 && (b.drop 24).all (· == 0))

def TexRec.eb (t : TexRec) : Nat := match t.fmt with | 0 => 16 | 1 => 8 | _ => 4
def TexRec.lw (t : TexRec) (l : Nat) : Nat := max 1 (t.w / 2 ^ l)
def TexRec.lh (t : TexRec) (l : Nat) : Nat := max 1 (t.h / 2 ^ l)
/-- OFS of a level for texels of eb bytes (R371). -/
def TexRec.ofs (t : TexRec) (eb : Nat) : Nat → Nat
  | 0 => 0
  | l + 1 => t.ofs eb l + 256 * ((t.lw l * t.lh l * eb + 255) / 256)
/-- The offset of a texel of a level. -/
def TexRec.texel (t : TexRec) (eb l : Nat) (i : Nat × Nat) : W64 := BitVec.ofNat 64 (t.ofs eb l + (i.2 * t.lw l + i.1) * eb)

/-- A column or row in its range by a wrap mode; none at a border (R371). -/
def wrapTexel (mode n : Nat) (i : Int) : Option Nat :=
  match mode with
  | 0 => some (i % n).toNat
  | 1 => some (min (max i 0) ((n : Int) - 1)).toNat
  | 2 => let m := (i % (2 * n : Nat)).toNat; some (if m < n then m else 2 * n - 1 - m)
  | _ => if 0 ≤ i && i < n then some i.toNat else none
def TexRec.at' (t : TexRec) (l : Nat) (i j : Int) : Option (Nat × Nat) :=
  match wrapTexel t.wrapH (t.lw l) i, wrapTexel t.wrapV (t.lh l) j with
  | some a, some b => some (a, b)
  | _, _ => none

/-! ## Samples (R373) -/

/-- ⌊x⌋ of a finite number. -/
def floorNum (x : Num) : Int := (roundInt .rd x).1
/-- A finite number less an integer, exact. -/
def subInt (x : Num) (n : Int) : Num :=
  match x with
  | .fin neg m e => let t := exactSum [(neg, m, e), (decide (0 < n), n.natAbs, 0)]; .fin (t.1 < 0) t.1.natAbs t.2
  | y => y
/-- A finite number and a half, exact. -/
def addHalf (x : Num) : Num :=
  match x with
  | .fin neg m e => let t := exactSum [(neg, m, e), (false, 1, -1)]; .fin (t.1 < 0) t.1.natAbs t.2
  | y => y
/-- A finite number times a natural number, exact. -/
def mulNat (x : Num) (n : Nat) : Num := match x with | .fin neg m e => .fin neg (m * n) e | y => y
def Fx.nat (n : Nat) : Fx := .exact (.fin false n 0)
def Fx.half (neg : Bool) : Fx := .exact (.fin neg 1 (-1))

/-- Where one level is sampled: its texels, wrapped, with their weights, and for bilinear texels fx, fy, gx and gy. -/
structure Samp where
  level : Nat := 0
  taps : List (Option (Nat × Nat)) := []
  ws : List Fx := []
  fr : Option (Fx × Fx × Fx × Fx) := none
  fl : W32 := 0
deriving DecidableEq, Repr, Inhabited

/-- The geometry of SAMPLE; none where a coordinate is not finite, with the flags raised (R373). -/
def TexRec.sample (t : TexRec) (env : FpEnv) (l : Nat) (x y : Fx) : Option Samp × W32 :=
  if !x.x.isFin || !y.x.isFin then (none, fNV ||| nvOf [x.x, y.x])
  else if t.bil then
    let xs := fxSum env [[x, .nat (t.lw l)], [.half true]]
    let ys := fxSum env [[y, .nat (t.lh l)], [.half true]]
    let fl := xs.fl ||| ys.fl
    if !xs.x.isFin || !ys.x.isFin then (none, fl ||| fNV)
    else
      let i := floorNum xs.x
      let j := floorNum ys.x
      let fx := Fx.exact (subInt xs.x i)
      let fy := Fx.exact (subInt ys.x j)
      let gx := fxSub env .one fx
      let gy := fxSub env .one fy
      (some { level := l, taps := [t.at' l i j, t.at' l (i + 1) j, t.at' l i (j + 1), t.at' l (i + 1) (j + 1)],
              ws := [fxMul env gx gy, fxMul env fx gy, fxMul env gx fy, fxMul env fx fy], fr := some (fx, fy, gx, gy), fl }, fl)
  else (some { level := l, taps := [t.at' l (floorNum (mulNat x.x (t.lw l))) (floorNum (mulNat y.x (t.lh l)))], ws := [.one] }, 0)

/-- The levels that λ selects with their weights; none where λ is not finite (R373). -/
def TexRec.select (t : TexRec) (env : FpEnv) (lam : Fx) : Option (List (Nat × Fx)) :=
  let top := t.levels - 1
  if !lam.x.isFin then none
  else if t.lin then
    if lam.x.neg || lam.x.isZero then some [(0, .one)]
    else
      let k := (floorNum lam.x).toNat
      if top ≤ k then some [(top, .one)]
      else
        let fl := Fx.exact (subInt lam.x k)
        if fl.x.isZero then some [(k, .one)] else some [(k, fxSub env .one fl), (k + 1, fl)]
  else
    some [((min (max (floorNum (addHalf lam.x)) 0) top).toNat, .one)]

/-- The channels of a texel's bytes (R371). -/
def TexRec.channels (t : TexRec) (env : FpEnv) (bs : List Byte) : List Fx :=
  tab 4 fun c =>
    match t.fmt with
    | 0 => .op env (ofLe ((bs.drop (4 * c)).take 4))
    | 1 => .exact (unpack fp16 (ofLe ((bs.drop (2 * c)).take 2)))
    | _ => .ofR 0 ⟨(fdiv fp32 {} (ofInt (ofLe ((bs.drop c).take 1))) (ofInt 255)).bits, 0⟩

/-- A level filtered (R373): `T` holds the channels of each tap. -/
def Samp.filter (p : Samp) (env : FpEnv) (T : List (List Fx)) : List Fx :=
  tab 4 fun c =>
    let v (k : Nat) : Fx := (T.getD k []).getD c .zero
    let w (k : Nat) : Fx := p.ws.getD k .zero
    match p.fr with
    | none => fxDeliver env (v 0)
    | some _ => [1, 2, 3].foldl (fun a k => fxSum env [[a], [w k, v k]]) (fxMul env (w 0) (v 0))

/-! ## Lanes -/

/-- The operands of a lane of a texture word: x, y and λ, and for the adjoint ∂L/∂R to ∂L/∂A. -/
structure TexLane where
  x : Fx := {}
  y : Fx := {}
  lam : Option Fx := none
  g : List Fx := []
  poi : Bool := false
deriving DecidableEq, Repr, Inhabited

/-- The levels a lane samples with their weights: none where its results are NaNs, and the flags raised (R373). -/
def TexRec.plan (t : TexRec) (env : FpEnv) (x : TexLane) : List (Option Samp × Fx) × W32 :=
  let one (l : Nat) (w : Fx) : (Option Samp × Fx) × W32 := let r := t.sample env l x.x x.y; ((r.1, w), r.2)
  let many (ls : List (Nat × Fx)) : List (Option Samp × Fx) × W32 :=
    let rs := ls.map fun y => one y.1 y.2
    (rs.map (·.1), rs.foldl (fun m r => m ||| r.2) 0)
  match x.lam with
  | none => many [(0, .one)]
  | some lam => match t.select env lam with | none => ([(none, .one)], fNV ||| nvOf [lam.x]) | some ls => many ls

/-- What a lane's taps fetched: for each level the channels of each tap. -/
abbrev Taps := List (List (List Fx))

/-- The channels that TEX and TEXL deliver (R373). -/
def texResult (env : FpEnv) (ls : List (Option Samp × Fx)) (T : Taps) : List Fx :=
  let c (i : Nat) : List Fx := match (ls.getD i (none, .one)).1 with | some p => p.filter env (T.getD i []) | none => List.replicate 4 .nan
  match ls with
  | [_, (_, fl)] =>
    let gl := (ls.getD 0 (none, .one)).2
    tab 4 fun k => fxSum env [[fxMul env gl ((c 0).getD k .zero)], [fl, (c 1).getD k .zero]]
  | _ => c 0

/-- Σ of products over the channels: from the first product, one rounding per step (R374). -/
def chanSum (env : FpEnv) (a b : Nat → Fx) : Fx :=
  [1, 2, 3].foldl (fun s k => fxSum env [[s], [a k, b k]]) (fxMul env (a 0) (b 0))

/-- ∂L/∂x and ∂L/∂y of a level (R374). -/
def Samp.deriv (p : Samp) (t : TexRec) (env : FpEnv) (g : List Fx) (T : List (List Fx)) : Fx × Fx :=
  match p.fr with
  | none => (.zero, .zero)
  | some (fx, fy, gx, gy) =>
    let v (k c : Nat) : Fx := (T.getD k []).getD c .zero
    let ex (c : Nat) : Fx := fxSum env [[fxMul env gy (fxSub env (v 1 c) (v 0 c))], [fy, fxSub env (v 3 c) (v 2 c)]]
    let ey (c : Nat) : Fx := fxSum env [[fxMul env gx (fxSub env (v 2 c) (v 0 c))], [fx, fxSub env (v 3 c) (v 1 c)]]
    let G (c : Nat) : Fx := g.getD c .zero
    (fxMul env (chanSum env G ex) (.nat (t.lw p.level)), fxMul env (chanSum env G ey) (.nat (t.lh p.level)))

/-- The derivatives that TEXADJ delivers (R374). -/
def texDerivs (t : TexRec) (env : FpEnv) (x : TexLane) (ls : List (Option Samp × Fx)) (T : Taps) : List Fx :=
  let d (i : Nat) : Fx × Fx := match (ls.getD i (none, .one)).1 with | some p => p.deriv t env x.g (T.getD i []) | none => (.nan, .nan)
  let c (i : Nat) : List Fx := match (ls.getD i (none, .one)).1 with | some p => p.filter env (T.getD i []) | none => []
  let xy := match ls with
    | [(_, gl), (_, fl)] => [fxSum env [[fxMul env gl (d 0).1], [fl, (d 1).1]], fxSum env [[fxMul env gl (d 0).2], [fl, (d 1).2]]]
    | _ => [(d 0).1, (d 0).2]
  match x.lam with
  | none => xy
  | some _ =>
    xy ++ [match ls with
      | [_, _] => chanSum env (fun k => x.g.getD k .zero) fun k => fxSub env ((c 1).getD k .zero) ((c 0).getD k .zero)
      | _ => .zero]

/-- The contributions of a lane in their order: address and value (R374). -/
def texScatter (t : TexRec) (env : FpEnv) (x : TexLane) (ls : List (Option Samp × Fx)) : List (W64 × Fx) :=
  ls.flatMap fun y =>
    match y.1 with
    | none => []
    | some p =>
      (List.range p.taps.length).flatMap fun k =>
        match p.taps.getD k none with
        | none => []
        | some i =>
          let w := fxMul env y.2 (p.ws.getD k .zero)
          tab 4 fun ch => (t.grad + t.texel 16 p.level i + BitVec.ofNat 64 (4 * ch), fxMul env w (x.g.getD ch .zero))

/-! ## The words -/

/-- The texture record of a word at issue (R370, R372), then `k`. -/
def State.texRecord (s : State) (f : VF) (act : Mask) (k : State → TexRec → Did) : Did :=
  let b := s.rd 0 .n32 f.b
  if b.poi then .done s (failAll s.g act .opndLate)
  else
    match s.layoutAt b.n with
    | .error (.inl x) => .done s (failAll s.g act x)
    | .error (.inr r) => s.cmdFault act [{ r with mask := act }]
    | .ok bs => let t := readTex bs; if t.2 then k (s.logRead .texture (digScr b.n) bs) t.1 else .done s (failAll s.g act .opndLate)

/-- The operands of a lane (R372). -/
def State.texLane (s : State) (f : VF) (lam adj : Bool) (env : FpEnv) (l : Nat) : TexLane :=
  let a (j : Nat) : Reg := s.g.vReg l (f.a.vIdx + j)
  let c (j : Nat) : Reg := s.g.vReg l (f.c.vIdx + j)
  let op (r : Reg) : Fx := .op env r.val.toNat
  { x := op (a 0), y := op (a 1), lam := if lam then some (op (a 2)) else none, g := if adj then tab 4 fun j => op (c j) else [],
    poi := (a 0).poi || (a 1).poi || lam && (a 2).poi || adj && (List.range 4).any fun j => (c j).poi }

/-- One texel fetched (R372): its bytes, a fault or a request; a border texel is not fetched. -/
def State.fetchTexel (s : State) (f : VF) (t : TexRec) (l level : Nat) (tap : Option (Nat × Nat)) : State × Fate :=
  match tap with
  | none => (s, .got (List.replicate t.eb 0))
  | some i =>
    let va := t.base + t.texel t.eb level i
    match s.translate s.foc.core s.foc.ctx .texture va with
    | (s, .error x) => (s, .flt { mask := bitMask l, lane := l, va, page := s.pageOf va, flt := x })
    | (s, .ok r) => s.loadLogged { acc := .texture, a := f.a, b := f.b, n := t.eb } (bitMask l) l 7 (.mem va r.pa (pteCp r.pte))

/-- Every texel of a lane fetched: the channels of its taps, faults and requests. -/
def State.fetchTaps (s : State) (f : VF) (t : TexRec) (env : FpEnv) (l : Nat) (ls : List (Option Samp × Fx)) :
    State × Taps × List LaneFlt × List Nat :=
  ls.foldl (fun x y =>
    match y.1 with
    | none => (x.1, x.2.1 ++ [[]], x.2.2.1, x.2.2.2)
    | some p =>
      let r := p.taps.foldl (fun (z : State × List (List Fx) × List LaneFlt × List Nat) tap =>
        match z.1.fetchTexel f t l p.level tap with
        | (s, .got bs) => (s, z.2.1 ++ [if tap.isSome then t.channels env bs else List.replicate 4 .zero], z.2.2.1, z.2.2.2)
        | (s, .flt e) => (s, z.2.1 ++ [List.replicate 4 .zero], z.2.2.1 ++ [e], z.2.2.2)
        | (s, .wait id) => (s, z.2.1, z.2.2.1, z.2.2.2 ++ [id])
        | (s, _) => (s, z.2.1, z.2.2.1, z.2.2.2)) (x.1, [], x.2.2.1, x.2.2.2)
      (r.1, x.2.1 ++ [r.2.1], r.2.2.1, r.2.2.2)) (s, [], [], [])

/-- What a lane of a texture word comes to: results, contributions at their addresses, and the flags raised. -/
structure TexOut where
  lane : Nat := 0
  rs : List Fx := []
  poi : Bool := false
  fl : W32 := 0
  reds : List (W64 × Nat × Nat × Fx) := []
deriving DecidableEq, Repr, Inhabited

/-- The contributions of a lane translated (R374, R39). -/
def State.mapReds (s : State) (l : Nat) (cs : List (W64 × Fx)) : State × List (W64 × Nat × Nat × Fx) × List LaneFlt :=
  cs.foldl (fun x c =>
    match x.1.translate x.1.foc.core x.1.foc.ctx .reduction c.1 with
    | (s, .ok r) => (s, x.2.1 ++ [(c.1, r.pa, pteCp r.pte, c.2)], x.2.2)
    | (s, .error e) => (s, x.2.1, x.2.2 ++ [{ mask := bitMask l, lane := l, va := c.1, page := s.pageOf c.1, flt := e }])) (s, [], [])

/-- One lane of a texture word: its outcome, its fetch faults, its reduction faults, its requests. -/
def State.texOne (s : State) (f : VF) (t : TexRec) (lam adj : Bool) (l : Nat) : State × TexOut × List LaneFlt × List LaneFlt × List Nat :=
  let env := fpEnv (s.g.lane l).fpl f.rmo
  let x := s.texLane f lam adj env l
  let n := if adj then (if lam then 3 else 2) else 4
  if x.poi then (s, { lane := l, rs := List.replicate n .nan, poi := true }, [], [], [])
  else
    let (ls, fl) := t.plan env x
    if adj && ls.any (·.1.isNone) then (s, { lane := l, rs := List.replicate n .nan, fl }, [], [], [])
    else
      let (s, T, fs, ws) := s.fetchTaps f t env l ls
      if !adj then (s, { lane := l, rs := texResult env ls T, fl }, fs, [], ws)
      else
        let sc := texScatter t env x ls
        let (s, rs, es) := s.mapReds l sc
        (s, { lane := l, rs := texDerivs t env x ls T, fl := fl ||| flagsIn (sc.map (·.2)), reds := rs }, fs, es, ws)

/-- The outcomes of the lanes of a texture word, with faults and requests. -/
def State.texAll (s : State) (f : VF) (t : TexRec) (lam adj : Bool) (ls : List Nat) :
    State × List TexOut × List LaneFlt × List LaneFlt × List Nat :=
  ls.foldl (fun x l =>
    let r := x.1.texOne f t lam adj l
    (r.1, x.2.1 ++ [r.2.1], x.2.2.1 ++ r.2.2.1, x.2.2.2.1 ++ r.2.2.2.1, x.2.2.2.2 ++ r.2.2.2.2)) (s, [], [], [], [])

/-- The contributions of a lane folded into the digest, by ascending address (R446). -/
def State.digestReds (s : State) (o : TexOut) : State :=
  (sortBy (fun a b => a.1.toNat ≤ b.1.toNat) o.reds).foldl (fun s r => s.digest r.1.toNat (leBytes 4 r.2.2.2.bits)) s
/-- The lanes' contributions issued in their order (R374, R140); false where the spill region has no room. -/
def State.scatter (s : State) (os : List TexOut) : State × Bool :=
  os.foldl (fun x o => o.reds.foldl (fun y r =>
    let z := y.1.redAt r.2.1 r.2.2.1 1 .f32 r.2.2.2.bits o.lane none
    (z.1, y.2 && z.2)) (x.1.digestReds o, x.2)) (s, true)

/-- A texture word (R372 to R374): a lane whose fetch faults has its results poisoned, one whose contribution faults traps. -/
def State.texOp (s : State) (p : Pred) (f : VF) (lam adj : Bool) : Out :=
  let n := if adj then (if lam then 3 else 2) else 4
  s.perform false p (s.opsOk ([(f.d, n), (f.a, if lam then 3 else 2)] ++ if adj then [(f.c, 4)] else [])) fun s act =>
    s.texRecord f act fun s t =>
      if adj && t.grad == 0 then .done s (failAll s.g act .opndLate)
      else
        let (s, os, fs, es, ws) := s.texAll f t lam adj (s.g.lanesOf act)
        let recs := (groupFlts (fs ++ es)).map fun x =>
          let k : Acc × Nat := if fs.any fun y => y.lane == x.lane && y.va == x.va then (.texture, 7) else (.reduction, 2)
          s.grpRec x.flt.kind k.1 k.2 x.mask x.va x.flt.aux
        if !ws.isEmpty then .stall s (.reply ws)
        else if s.recordRoom < recs.length then .stall s .fault
        else
          let (s, seq, k) := s.writeRecs recs
          let trap := es.foldl (fun m x => m ||| x.mask) 0
          let bad := fs.foldl (fun m x => m ||| x.mask) 0 &&& ~~~trap
          let (s, full) := s.origin f.d n bad seq k
          let lost := failMask full ||| trap
          let ok := os.filter fun o => !lost.getLsbD o.lane
          let g := ok.foldl (fun g o => if bad.getLsbD o.lane then g else g.modLane o.lane fun x => x.putFx s.g.wb f.d o.rs o.fl o.poi) s.g
          match (s.setG g).scatter ok with
          | (s, true) => .done (s.sampled .texture) (failAll s.g trap (.trans seq k) ++ full)
          | (s, false) => .fatal s cRedSpill 0

def execTex (p : Pred) (f : VF) (s : State) : Out := s.texOp p f false false
def execTexl (p : Pred) (f : VF) (s : State) : Out := s.texOp p f true false
def execTexadj (p : Pred) (f : VF) (s : State) : Out := s.texOp p f (f.m % 2 == 1) true

end Sys2Proof.Machine
end

