-- ==== Sys2Proof/Machine/Xf.lean ====
section
/-! DEFINITION. The transform pipe (major 0x21, R349 to R357): packed streams in scratchpad, 2:4 selection, matching, sorting,
permutation and transposition of lanes. -/

namespace Sys2Proof.Machine

/-- Register j from a v or k operand on, in lane l. -/
def Grp.regAt (g : Grp) (l : Nat) (o : Opnd) (j : Nat) : Reg :=
  match o with
  | .v i => g.vReg l (i.val + j)
  | .k i => g.kReg l (i.val + j)
  | _ => {}

/-! ## Streams (R350 to R352) -/

/-- The form of a stream: its mode, and in modes 0 and 1 the width k, in mode 2 the ratio, in mode 3 the code and group widths. -/
structure Stream where
  mode : Nat := 0
  k : Nat := 1
  coarse : Bool := false
  grp : Nat := 32
deriving DecidableEq, Repr, Inhabited

def VF.stream (f : VF) : Stream :=
  let x := f.m / 4
  match f.m % 4 with
  | 2 => { mode := 2, coarse := x % 2 == 1 }
  | 3 => { mode := 3, k := if x % 4 == 0 then 8 else 4, grp := 32 * 2 ^ (x / 4) }
  | m => { mode := m, k := x + 1 }

/-- The bytes of a record of mode 3 (R351). -/
def Stream.recBytes (t : Stream) : Nat := 4 + t.grp * t.k / 8
/-- The first bit of element i, from the start of the stream; for mode 2 that of its block. -/
def Stream.bit (t : Stream) (i : Nat) : Nat :=
  match t.mode with
  | 2 => i / 64 * blockBytes t.coarse * 8
  | 3 => (i / t.grp * t.recBytes + 4) * 8 + i % t.grp * t.k
  | _ => t.k * i
/-- The byte ranges, offset and length from A, that element i touches: its field, its block, or its scale word and field. -/
def Stream.ranges (t : Stream) (i : Nat) : List (Nat × Nat) :=
  let b := t.bit i
  match t.mode with
  | 2 => [(b / 8, blockBytes t.coarse)]
  | 3 => [(i / t.grp * t.recBytes, 4), (b / 8, (b % 8 + t.k + 7) / 8)]
  | _ => [(b / 8, (b % 8 + t.k + 7) / 8)]
/-- The words that byte ranges touch, as team-relative addresses. -/
def rangeWords (a : Nat) (rs : List (Nat × Nat)) : List Nat :=
  rs.flatMap fun r => (List.range ((a + r.1 + r.2 + 3) / 4 - (a + r.1) / 4)).map fun j => ((a + r.1) / 4 + j) * 4 % 2 ^ 32

/-- n bytes of the scratchpad at a team-relative address taken modulo 2^32. -/
def State.streamBytes (s : State) (a n : Nat) : Nat :=
  ofLe (tab n fun i => (s.scrRead s.foc.team ((a + i) % 2 ^ 32) 1).data.getD 0 0)
/-- A field of w bits at a bit of the stream. -/
def State.streamField (s : State) (a bit w : Nat) : Nat := s.streamBytes (a + bit / 8) ((bit % 8 + w + 7) / 8) / 2 ^ (bit % 8) % 2 ^ w

/-- The fault of a touched word of XDEC, with its AUX: out of range or a guard granule, or poisoned (R351). -/
def State.wordFlt (s : State) (w : Nat) : Option Flt :=
  if scrClass (s.scrSize s.foc.team) w 4 ≠ 0 then some ⟨kScratch, scrAux w⟩
  else if (s.scrRead s.foc.team w 4).bad then some ⟨kEcc, scrPoiAux w⟩
  else none

/-- The operands of XDEC and XENC: the address, the first element, the register count. -/
structure StreamOps where
  a : Nat := 0
  e0 : Nat := 0
  n : Nat := 1
deriving DecidableEq, Repr, Inhabited

/-- Elements of a lane-word. -/
def VF.perWord (f : VF) : Nat := if f.ty == .bf16x2 then 2 else 1

/-- The checks of R350, then `k` with the operands; an operand's poison is consumed as that of an address (R421). -/
def State.streamOp (s : State) (p : Pred) (f : VF) (k : State → Mask → StreamOps → Did) : Out :=
  s.performWide p (fun _ => true) fun s act =>
    let a := s.rd 0 .n32 f.a
    let b := s.rd 0 .n32 f.b
    let c := s.rd 0 .n32 f.c
    if !s.g.converged act then .done s (failAll s.g s.g.iss.set .opndLate)
    else if a.poi then .done s (failAll s.g act (.poison f.a))
    else if b.poi then .done s (failAll s.g act (.poison f.b))
    else if c.poi then .done s (failAll s.g act (.poison f.c))
    else if c.n = 0 || 8 < c.n || !(s.g.opOk 0 c.n f.d && f.d.fits c.n) then .done s (failAll s.g act .opndLate)
    else k s act { a := a.n, e0 := b.n, n := c.n }

/-- One element decoded (R351): its value, whether its scale word is refused, and its flags. -/
def State.decodeElem (s : State) (f : VF) (o : StreamOps) (l i : Nat) : Nat × Bool × W32 :=
  let t := VF.stream f
  match t.mode with
  | 0 => (s.streamField o.a (t.bit i) t.k, false, 0)
  | 1 => (wrap 32 (sgn t.k (s.streamField o.a (t.bit i) t.k)), false, 0)
  | 2 =>
    let n := blockBytes t.coarse
    let v := (decodeBlock t.coarse (leBytes n (s.streamBytes (o.a + t.bit i / 8) n))).getD (i % 64) none
    (decodedBits (f.ty == .bf16x2) v, false, if v.isNone then fNF else 0)
  | _ =>
    let sc := s.streamBytes (o.a + i / t.grp * t.recBytes) 4
    let env := cvtEnv (s.g.lane l).fpl f.rmo
    let q : Int := (s.streamField o.a (t.bit i) t.k : Nat) - ((sc / 65536 % 256 : Nat) : Int)
    let r := fmul fp32 env (opnd fp16 env (sc % 65536)) (ofInt q)
    (r.bits, badScale (if t.k = 8 then .ai8 else .ai4) sc, r.fl)

/-- A lane-word decoded: the register, and its flags. -/
def State.decodeWord (s : State) (f : VF) (o : StreamOps) (l j : Nat) : Reg × W32 :=
  let p := j * s.g.gw + l
  if f.ty == .bf16x2 then
    let x := s.decodeElem f o l (o.e0 + 2 * p)
    let y := s.decodeElem f o l (o.e0 + 2 * p + 1)
    (⟨BitVec.ofNat 32 (x.1 + 65536 * y.1), false⟩, x.2.2 ||| y.2.2)
  else
    let x := s.decodeElem f o l (o.e0 + p)
    (⟨BitVec.ofNat 32 x.1, x.2.1⟩, if x.2.1 then 0 else x.2.2)

/-- The words that lane-word (j, l) touches. -/
def State.streamWords (s : State) (f : VF) (o : StreamOps) (l j : Nat) : List Nat :=
  let c := VF.perWord f
  (List.range c).flatMap fun e => rangeWords o.a ((VF.stream f).ranges (o.e0 + c * (j * s.g.gw + l) + e))

/-- XDEC (R351): an element with a word it cannot read is poisoned, with a record (R37, R40, R420). -/
def execXdec (p : Pred) (f : VF) (s : State) : Out :=
  s.streamOp p f fun s act o =>
    let js := List.range o.n
    let wordFlts (l j : Nat) : List Flt := (s.streamWords f o l j).filterMap s.wordFlt
    let fs : List LaneFlt := (s.g.lanesOf act).flatMap fun l => js.flatMap fun j => (wordFlts l j).map fun x => { mask := bitMask l, lane := l, flt := x }
    match s.noteFlts .load 7 fs with
    | none => .stall s .fault
    | some (s', seq, n) =>
      let bad := fs.foldl (fun m x => m ||| x.mask) 0
      if bad != 0 && s'.ptFree.isNone then
        .done s' (failAll s'.g bad { cause := cTableFull, info := (seq.getD 0).toNat + 2 ^ 32 * (n % 65536) } ++ failAll s'.g (act &&& ~~~bad) { cause := 0 })
      else
        let g := s'.g.modLanes (s'.g.lanesOf act) fun l x =>
          let rs := js.map fun j => if (wordFlts l j).isEmpty then s.decodeWord f o l j else (s'.poisonReg l j, 0)
          (x.putRegs s'.g.wb f.d (rs.map (·.1))).raise (rs.foldl (fun m r => m ||| r.2) 0)
        let s' := (s'.g.lanesOf act).foldl (fun s l => js.foldl (fun s j =>
          (s'.streamWords f o l j).foldl (fun s a => s.logRead .xdec (digScr a) (s'.scrRead s'.foc.team a 4).data (!(wordFlts l j).isEmpty)) s) s) (s'.setG g)
        .done (if bad == 0 then s' else s'.ptMake f.d o.n bad seq) []

/-- The value of a lane-word as XENC writes it in modes 0 and 1 (R352). -/
def packField (t : Stream) (sat : Bool) (n : Nat) : Nat :=
  if !sat then n % 2 ^ t.k
  else if t.mode = 0 then min n (2 ^ t.k - 1)
  else wrap t.k (max (-(2 ^ (t.k - 1) : Nat)) (min ((2 ^ (t.k - 1) : Nat) - 1) (sgn 32 n)))

/-- The source values of XENC in stream order: lane-words, or in mode 2 FP32 values. -/
def State.encodeValues (s : State) (f : VF) (o : StreamOps) : List Nat :=
  (List.range (o.n * s.g.gw)).flatMap fun p =>
    let r := (s.g.regAt (p % s.g.gw) f.d (p / s.g.gw)).val.toNat
    if f.ty == .bf16x2 then [r % 65536 * 65536, r / 65536 * 65536] else [r]

/-- The bits that XENC writes: where they begin and how many they are. -/
def VF.span (f : VF) (o : StreamOps) (values : Nat) : Nat × Nat :=
  let t := VF.stream f
  (t.bit o.e0, if t.mode = 2 then values / 64 * blockBytes t.coarse * 8 else t.k * values)

/-- Bits of the stream replaced; every other bit of the words they touch is kept, and a poisoned word that is not written whole
stays poisoned (R59, R352). -/
def State.streamWrite (s : State) (a bit w x : Nat) : State :=
  let lo := (a + bit / 8) % 2 ^ 32
  let n := (bit % 8 + w + 7) / 8
  let old := s.streamBytes lo n
  let v := old % 2 ^ (bit % 8) + x * 2 ^ (bit % 8) + old / 2 ^ (bit % 8 + w) * 2 ^ (bit % 8 + w)
  let keep := (if bit % 8 ≠ 0 then [lo / 4] else []) ++ (if (bit + w) % 8 ≠ 0 then [(lo + n - 1) / 4] else [])
  let again := keep.filter fun y => s.t.scrPoi.has y
  again.foldl (fun s y => s.scrPoison s.foc.team (4 * y) 4) (s.scrWrite s.foc.team lo (leBytes n v))

/-- XENC (R352). -/
def execXenc (p : Pred) (f : VF) (s : State) : Out :=
  s.streamOp p f fun s act o =>
    let t := VF.stream f
    let vs := s.encodeValues f o
    let (bit, w) := VF.span f o vs.length
    let words := rangeWords o.a [(bit / 8, (bit % 8 + w + 7) / 8)]
    if t.mode = 2 && (o.e0 % 64 ≠ 0 || vs.length % 64 ≠ 0) then .done s (failAll s.g act .opndLate)
    else if s.g.laneIdx.any fun l => (List.range o.n).any fun j => (s.g.regAt l f.d j).poi then .done s (failAll s.g act (.poison f.d))
    else
      match words.find? fun x => scrClass (s.scrSize s.foc.team) x 4 ≠ 0 || s.scrGuarded s.foc.team x 4 with
      | some x =>
        (match s.noteFlts .store 7 [{ mask := act, flt := ⟨kScratch, scrAux x⟩ }] with
         | none => .stall s .fault
         | some (s, seq, n) => .done s (failAll s.g act (.trans seq n)))
      | none =>
        if t.mode = 2 then
          let bytes := (List.range (vs.length / 64)).flatMap fun k => encodeBlock t.coarse ((vs.drop (64 * k)).take 64)
          let per := VF.perWord f
          let hit (l : Nat) : Bool := (List.range vs.length).any fun m => m / per % s.g.gw == l && !finite32 (vs.getD m 0)
          let s := s.streamWrite o.a bit w (ofLe bytes)
          .done (s.modG fun g => g.modLanes ((g.lanesOf act).filter hit) fun _ x => x.raise fNF) []
        else .done (s.streamWrite o.a bit w ((vs.map (packField t f.sat)).foldr (fun v n => v + 2 ^ t.k * n) 0)) []

/-! ## Selection and order (R353 to R355) -/

/-- A value's rank: a NaN above every number, numbers by magnitude (R353). -/
def magRank (f : Fmt) (n : Nat) : Nat := if (unpack f n).isNan then 2 ^ 64 else n % 2 ^ (f.eb + f.fb)
/-- The two of four values with the highest ranks, lower indices first among equals. -/
def pickTwo (rank : Nat → Nat) : Nat × Nat :=
  let order := sortBy (fun a b => rank b ≤ rank a) [0, 1, 2, 3]
  let i := order.getD 0 0
  let j := order.getD 1 1
  (min i j, max i j)

/-- XSPARSE (R353). -/
def execXsparse (p : Pred) (f : VF) (s : State) : Out :=
  let fmt := Ty.fmt f.ty
  let srcs := if f.ty == .f32 then 4 else if f.ty.is16x2 then 2 else 1
  let dsts := if f.ty == .f32 then 2 else 1
  s.perLane p (s.opsOk [(f.d, dsts), (f.a, srcs), (f.c, 1)]) fun s l x =>
    let rs := tab srcs fun j => s.g.regAt l f.a j
    let w := 32 * srcs / 4
    let vals := tab 4 fun i => bitsAt (ofLe (rs.flatMap fun r => leBytes 4 r.val.toNat)) (w * i) w
    let (lo, hi) := pickTwo fun i => magRank fmt (vals.getD i 0)
    let poi := rs.any (·.poi)
    let kept := vals.getD lo 0 + 2 ^ w * vals.getD hi 0
    let out := tab dsts fun j => (⟨BitVec.ofNat 32 (kept / 2 ^ (32 * j)), poi⟩ : Reg)
    (x.putRegs s.g.wb f.d out).putRegs s.g.wb f.c [⟨BitVec.ofNat 32 (lo + 4 * hi), poi⟩]

/-- XMATCH (R354). -/
def execXmatch (p : Pred) (f : VF) (s : State) : Out :=
  s.perform false p (s.opsOk [(f.d, 2), (f.a, 1)]) fun s act =>
    let ls := s.g.lanesOf act
    let poi := ls.any fun l => (s.g.regAt l f.a 0).poi
    let m (l : Nat) : Mask := maskOf (ls.filter fun j => (s.g.regAt j f.a 0).val == (s.g.regAt l f.a 0).val)
    .done (s.modG fun g => g.modLanes ls fun l x => x.putRegs g.wb f.d (Val.regs ⟨(m l).toNat, poi⟩ true)) []

/-- A sort key as an integer: totalOrder for .f32 (R355). -/
def sortKey (t : Ty) (n : Nat) : Int :=
  match t with
  | .i32 => sgn 32 n
  | .f32 => if n / 2 ^ 31 = 0 then (n : Int) else -(n - 2 ^ 31 : Nat) - 1
  | _ => n

/-- XSORT (R355). -/
def execXsort (p : Pred) (f : VF) (s : State) : Out :=
  s.perform false p (s.opsOk (withRegs 1 [f.d, f.a, f.b, f.c])) fun s act =>
    let ls := s.g.lanesOf act
    let kv := ls.map fun l => (s.g.regAt l f.a 0, s.g.regAt l f.b 0)
    let poi := kv.any fun r => r.1.poi || r.2.poi
    let key (r : Reg × Reg) : Int := sortKey f.ty r.1.val.toNat
    let sorted := sortBy (fun x y => if f.m % 2 = 1 then key y ≤ key x else key x ≤ key y) kv
    let g := (ls.zip sorted).foldl (fun g (y : Nat × Reg × Reg) =>
      g.modLane y.1 fun x =>
        (x.putRegs g.wb f.d [{ y.2.1 with poi }]).putRegs g.wb f.c [{ y.2.2 with poi }]) s.g
    .done (s.setG g) []

/-! ## Permutation and transposition (R356, R357) -/

def execXperm (p : Pred) (f : VF) (s : State) : Out :=
  let n := f.m % 8 + 1
  s.perform false p (s.opsOk [(f.d, n), (f.a, n), (f.b, 1)]) fun s act =>
    let g := s.g.modLanes (s.g.lanesOf act) fun l x =>
      let ix := s.rd l .n32 f.b
      x.putRegs s.g.wb f.d (tab n fun j => let r := s.g.regAt (ix.n % s.g.gw) f.a j; { r with poi := r.poi || ix.poi })
    .done (s.setG g) []

def execXtrn (p : Pred) (f : VF) (s : State) : Out :=
  s.perform false p (s.opsOk [(f.d, 8), (f.a, 8)]) fun s _ =>
    let g := s.g.modLanes s.g.laneIdx fun l x =>
      x.putRegs s.g.wb f.d (tab 8 fun r => s.g.regAt (l / 8 * 8 + r) f.a (l % 8))
    .done (s.setG g) []

end Sys2Proof.Machine
end

