-- ==== Sys2Proof/Machine/Dispatch.lean ====
section
/-! DEFINITION. The meaning of each instruction and event, one arm for each constructor of Instr. -/

namespace Sys2Proof.Machine

def exec (i : Instr) (s : State) : Host.Outcome State Fault Refusal :=
  match i with
  | .nop p f => Sys2Proof.Machine.execNop p f s
  | .bra p f => Sys2Proof.Machine.execBra p f s
  | .bru p f => Sys2Proof.Machine.execBru p f s
  | .brx p f => Sys2Proof.Machine.execBrx p f s
  | .call p f => Sys2Proof.Machine.execCall p f s
  | .callx p f => Sys2Proof.Machine.execCallx p f s
  | .ret p f => Sys2Proof.Machine.execRet p f s
  | .exit p f => Sys2Proof.Machine.execExit p f s
  | .yield p f => Sys2Proof.Machine.execYield p f s
  | .trap p f => Sys2Proof.Machine.execTrap p f s
  | .tret p f => Sys2Proof.Machine.execTret p f s
  | .bkpt p f => Sys2Proof.Machine.execBkpt p f s
  | .waitf p f => Sys2Proof.Machine.execWaitf p f s
  | .add p f => Sys2Proof.Machine.execAdd p f s
  | .sub p f => Sys2Proof.Machine.execSub p f s
  | .mul p f => Sys2Proof.Machine.execMul p f s
  | .mulh p f => Sys2Proof.Machine.execMulh p f s
  | .mad p f => Sys2Proof.Machine.execMad p f s
  | .addc p f => Sys2Proof.Machine.execAddc p f s
  | .subb p f => Sys2Proof.Machine.execSubb p f s
  | .and p f => Sys2Proof.Machine.execAnd p f s
  | .or p f => Sys2Proof.Machine.execOr p f s
  | .xor p f => Sys2Proof.Machine.execXor p f s
  | .andn p f => Sys2Proof.Machine.execAndn p f s
  | .shl p f => Sys2Proof.Machine.execShl p f s
  | .shr p f => Sys2Proof.Machine.execShr p f s
  | .sra p f => Sys2Proof.Machine.execSra p f s
  | .rot p f => Sys2Proof.Machine.execRot p f s
  | .min p f => Sys2Proof.Machine.execMin p f s
  | .max p f => Sys2Proof.Machine.execMax p f s
  | .absd p f => Sys2Proof.Machine.execAbsd p f s
  | .cmp p f => Sys2Proof.Machine.execCmp p f s
  | .sel p f => Sys2Proof.Machine.execSel p f s
  | .popc p f => Sys2Proof.Machine.execPopc p f s
  | .clz p f => Sys2Proof.Machine.execClz p f s
  | .brev p f => Sys2Proof.Machine.execBrev p f s
  | .bfe p f => Sys2Proof.Machine.execBfe p f s
  | .bfi p f => Sys2Proof.Machine.execBfi p f s
  | .mov p f => Sys2Proof.Machine.execMov p f s
  | .div p f => Sys2Proof.Machine.execDiv p f s
  | .movi p f => Sys2Proof.Machine.execMovi p f s
  | .addi p f => Sys2Proof.Machine.execAddi p f s
  | .andi p f => Sys2Proof.Machine.execAndi p f s
  | .ori p f => Sys2Proof.Machine.execOri p f s
  | .xori p f => Sys2Proof.Machine.execXori p f s
  | .cmpi p f => Sys2Proof.Machine.execCmpi p f s
  | .atr p f => Sys2Proof.Machine.execAtr p f s
  | .arel p f => Sys2Proof.Machine.execArel p f s
  | .lea p f => Sys2Proof.Machine.execLea p f s
  | .aget p f => Sys2Proof.Machine.execAget p f s
  | .mand p f => Sys2Proof.Machine.execMand p f s
  | .mor p f => Sys2Proof.Machine.execMor p f s
  | .mxor p f => Sys2Proof.Machine.execMxor p f s
  | .mandn p f => Sys2Proof.Machine.execMandn p f s
  | .mmov p f => Sys2Proof.Machine.execMmov p f s
  | .mpopc p f => Sys2Proof.Machine.execMpopc p f s
  | .mfirst p f => Sys2Proof.Machine.execMfirst p f s
  | .mact p f => Sys2Proof.Machine.execMact p f s
  | .gsplit p f => Sys2Proof.Machine.execGsplit p f s
  | .gfuse p f => Sys2Proof.Machine.execGfuse p f s
  | .gang p f => Sys2Proof.Machine.execGang p f s
  | .mfsr p f => Sys2Proof.Machine.execMfsr p f s
  | .mtsr p f => Sys2Proof.Machine.execMtsr p f s
  | .hexitWrite p f => Sys2Proof.Machine.execHexitWrite p f s
  | .ptmaskWrite p f => Sys2Proof.Machine.execPtmaskWrite p f s
  | .clk p f => Sys2Proof.Machine.execClk p f s
  | .zread p f => Sys2Proof.Machine.execZread p f s
  | .rng p f => Sys2Proof.Machine.execRng p f s
  | .ecount p f => Sys2Proof.Machine.execEcount p f s
  | .fadd p f => Sys2Proof.Machine.execFadd p f s
  | .fsub p f => Sys2Proof.Machine.execFsub p f s
  | .fmul p f => Sys2Proof.Machine.execFmul p f s
  | .ffma p f => Sys2Proof.Machine.execFfma p f s
  | .fmin p f => Sys2Proof.Machine.execFmin p f s
  | .fmax p f => Sys2Proof.Machine.execFmax p f s
  | .fminm p f => Sys2Proof.Machine.execFminm p f s
  | .fmaxm p f => Sys2Proof.Machine.execFmaxm p f s
  | .fcmp p f => Sys2Proof.Machine.execFcmp p f s
  | .fclass p f => Sys2Proof.Machine.execFclass p f s
  | .fdiv p f => Sys2Proof.Machine.execFdiv p f s
  | .fsqrt p f => Sys2Proof.Machine.execFsqrt p f s
  | .frcp p f => Sys2Proof.Machine.execFrcp p f s
  | .frsq p f => Sys2Proof.Machine.execFrsq p f s
  | .fexp2 p f => Sys2Proof.Machine.execFexp2 p f s
  | .flog2 p f => Sys2Proof.Machine.execFlog2 p f s
  | .fsin p f => Sys2Proof.Machine.execFsin p f s
  | .fcos p f => Sys2Proof.Machine.execFcos p f s
  | .frint p f => Sys2Proof.Machine.execFrint p f s
  | .fscale p f => Sys2Proof.Machine.execFscale p f s
  | .fgetexp p f => Sys2Proof.Machine.execFgetexp p f s
  | .fdot2 p f => Sys2Proof.Machine.execFdot2 p f s
  | .fcvt p f => Sys2Proof.Machine.execFcvt p f s
  | .ftoi p f => Sys2Proof.Machine.execFtoi p f s
  | .itof p f => Sys2Proof.Machine.execItof p f s
  | .pack8 p f => Sys2Proof.Machine.execPack8 p f s
  | .unpk8 p f => Sys2Proof.Machine.execUnpk8 p f s
  | .qnt p f => Sys2Proof.Machine.execQnt p f s
  | .deq p f => Sys2Proof.Machine.execDeq p f s
  | .bcast p f => Sys2Proof.Machine.execBcast p f s
  | .shfl p f => Sys2Proof.Machine.execShfl p f s
  | .shup p f => Sys2Proof.Machine.execShup p f s
  | .shdn p f => Sys2Proof.Machine.execShdn p f s
  | .ballot p f => Sys2Proof.Machine.execBallot p f s
  | .redux p f => Sys2Proof.Machine.execRedux p f s
  | .scan p f => Sys2Proof.Machine.execScan p f s
  | .elect p f => Sys2Proof.Machine.execElect p f s
  | .lget p f => Sys2Proof.Machine.execLget p f s
  | .lput p f => Sys2Proof.Machine.execLput p f s
  | .ld p f => Sys2Proof.Machine.execLd p f s
  | .lds p f => Sys2Proof.Machine.execLds p f s
  | .ldk p f => Sys2Proof.Machine.execLdk p f s
  | .st p f => Sys2Proof.Machine.execSt p f s
  | .sts p f => Sys2Proof.Machine.execSts p f s
  | .stk p f => Sys2Proof.Machine.execStk p f s
  | .zst p f => Sys2Proof.Machine.execZst p f s
  | .tld p f => Sys2Proof.Machine.execTld p f s
  | .tst p f => Sys2Proof.Machine.execTst p f s
  | .tlds p f => Sys2Proof.Machine.execTlds p f s
  | .tsts p f => Sys2Proof.Machine.execTsts p f s
  | .tileLockGrant grp => Sys2Proof.Machine.execTileLockGrant grp s
  | .atom p f => Sys2Proof.Machine.execAtom p f s
  | .cas p f => Sys2Proof.Machine.execCas p f s
  | .casgt p f => Sys2Proof.Machine.execCasgt p f s
  | .casv p f => Sys2Proof.Machine.execCasv p f s
  | .caspt p f => Sys2Proof.Machine.execCaspt p f s
  | .red p f => Sys2Proof.Machine.execRed p f s
  | .rflush p f => Sys2Proof.Machine.execRflush p f s
  | .fence p f => Sys2Proof.Machine.execFence p f s
  | .cinv p f => Sys2Proof.Machine.execCinv p f s
  | .cflu p f => Sys2Proof.Machine.execCflu p f s
  | .pref p f => Sys2Proof.Machine.execPref p f s
  | .binit p f => Sys2Proof.Machine.execBinit p f s
  | .bexpect p f => Sys2Proof.Machine.execBexpect p f s
  | .barrive p f => Sys2Proof.Machine.execBarrive p f s
  | .bwait p f => Sys2Proof.Machine.execBwait p f s
  | .btest p f => Sys2Proof.Machine.execBtest p f s
  | .cpy p f => Sys2Proof.Machine.execCpy p f s
  | .cpyt p f => Sys2Proof.Machine.execCpyt p f s
  | .cpyc p f => Sys2Proof.Machine.execCpyc p f s
  | .cpys p f => Sys2Proof.Machine.execCpys p f s
  | .engineWriteLanding team cmd n => Sys2Proof.Machine.execEngineWriteLanding team cmd n s
  | .flagClear grp flag => Sys2Proof.Machine.execFlagClear grp flag s
  | .streamBeatAccept team push consumer n => Sys2Proof.Machine.execStreamBeatAccept team push consumer n s
  | .stash p f => Sys2Proof.Machine.execStash p f s
  | .restore p f => Sys2Proof.Machine.execRestore p f s
  | .collar p f => Sys2Proof.Machine.execCollar p f s
  | .collrs p f => Sys2Proof.Machine.execCollrs p f s
  | .collag p f => Sys2Proof.Machine.execCollag p f s
  | .collupd p f => Sys2Proof.Machine.execCollupd p f s
  | .collcmt p f => Sys2Proof.Machine.execCollcmt p f s
  | .collectiveCompletion team coll peers => Sys2Proof.Machine.execCollectiveCompletion team coll peers s
  | .walloc p f => Sys2Proof.Machine.execWalloc p f s
  | .wsend p f => Sys2Proof.Machine.execWsend p f s
  | .launch p f => Sys2Proof.Machine.execLaunch p f s
  | .mma p f => Sys2Proof.Machine.execMma p f s
  | .mmasp p f => Sys2Proof.Machine.execMmasp p f s
  | .mmaPop grp => Sys2Proof.Machine.execMmaPop grp s
  | .mmaComplete grp => Sys2Proof.Machine.execMmaComplete grp s
  | .spush p f => Sys2Proof.Machine.execSpush p f s
  | .mqstat p f => Sys2Proof.Machine.execMqstat p f s
  | .mdrop p f => Sys2Proof.Machine.execMdrop p f s
  | .xdec p f => Sys2Proof.Machine.execXdec p f s
  | .xenc p f => Sys2Proof.Machine.execXenc p f s
  | .xsparse p f => Sys2Proof.Machine.execXsparse p f s
  | .xmatch p f => Sys2Proof.Machine.execXmatch p f s
  | .xsort p f => Sys2Proof.Machine.execXsort p f s
  | .xperm p f => Sys2Proof.Machine.execXperm p f s
  | .xtrn p f => Sys2Proof.Machine.execXtrn p f s
  | .topen p f => Sys2Proof.Machine.execTopen p f s
  | .trec p f => Sys2Proof.Machine.execTrec p f s
  | .tpop p f => Sys2Proof.Machine.execTpop p f s
  | .tmark p f => Sys2Proof.Machine.execTmark p f s
  | .tend p f => Sys2Proof.Machine.execTend p f s
  | .tstat p f => Sys2Proof.Machine.execTstat p f s
  | .tclose p f => Sys2Proof.Machine.execTclose p f s
  | .tapeSpill grp => Sys2Proof.Machine.execTapeSpill grp s
  | .tapeFill grp => Sys2Proof.Machine.execTapeFill grp s
  | .rcov p f => Sys2Proof.Machine.execRcov p f s
  | .esmp p f => Sys2Proof.Machine.execEsmp p f s
  | .tex p f => Sys2Proof.Machine.execTex p f s
  | .texl p f => Sys2Proof.Machine.execTexl p f s
  | .texadj p f => Sys2Proof.Machine.execTexadj p f s
  | .trace p f => Sys2Proof.Machine.execTrace p f s
  | .tresume p f => Sys2Proof.Machine.execTresume p f s
  | .tabort p f => Sys2Proof.Machine.execTabort p f s
  | .hitadj p f => Sys2Proof.Machine.execHitadj p f s
  | .rcq p f => Sys2Proof.Machine.execRcq p f s
  | .rcsync p f => Sys2Proof.Machine.execRcsync p f s
  | .rcstat p f => Sys2Proof.Machine.execRcstat p f s
  | .syncPoint grid => Sys2Proof.Machine.execSyncPoint grid s
  | .temperStep ctx => Sys2Proof.Machine.execTemperStep ctx s
  | .versionPublish ctx => Sys2Proof.Machine.execVersionPublish ctx s
  | .laneWaitResume grp => Sys2Proof.Machine.execLaneWaitResume grp s
  | .groupStallWake grp => Sys2Proof.Machine.execGroupStallWake grp s
  | .fusion grp => Sys2Proof.Machine.execFusion grp s
  | .yieldRelease grp => Sys2Proof.Machine.execYieldRelease grp s
  | .groupRetirement grp => Sys2Proof.Machine.execGroupRetirement grp s
  | .teamRetirement team => Sys2Proof.Machine.execTeamRetirement team s
  | .anvilStage team full => Sys2Proof.Machine.execAnvilStage team full s
  | .epochClose grid => Sys2Proof.Machine.execEpochClose grid s
  | .uPartialApply core line => Sys2Proof.Machine.execUPartialApply core line s
  | .lqtailWrite queue tail => Sys2Proof.Machine.execLqtailWrite queue tail s
  | .launchRecordTake queue => Sys2Proof.Machine.execLaunchRecordTake queue s
  | .gridStart grid => Sys2Proof.Machine.execGridStart grid s
  | .teamPlacement grid cores keep => Sys2Proof.Machine.execTeamPlacement grid cores keep s
  | .eviction team => Sys2Proof.Machine.execEviction team s
  | .teamRestore team core => Sys2Proof.Machine.execTeamRestore team core s
  | .gridCompletion grid => Sys2Proof.Machine.execGridCompletion grid s
  | .invalidationRequest ctx count => Sys2Proof.Machine.execInvalidationRequest ctx count s
  | .invalidationComplete ctx => Sys2Proof.Machine.execInvalidationComplete ctx s
  | .fqheadWrite ctx head => Sys2Proof.Machine.execFqheadWrite ctx head s
  | .fqctlRetry ctx => Sys2Proof.Machine.execFqctlRetry ctx s
  | .cacheLoad ctx => Sys2Proof.Machine.execCacheLoad ctx s
  | .cacheSave ctx => Sys2Proof.Machine.execCacheSave ctx s
  | .switch ctx => Sys2Proof.Machine.execSwitch ctx s
  | .switchComplete ctx => Sys2Proof.Machine.execSwitchComplete ctx s
  | .contextResume ctx => Sys2Proof.Machine.execContextResume ctx s
  | .kill ctx => Sys2Proof.Machine.execKill ctx s
  | .snapshot grp => Sys2Proof.Machine.execSnapshot grp s
  | .arm ctx launchIdx part => Sys2Proof.Machine.execArm ctx launchIdx part s
  | .stopReached grp => Sys2Proof.Machine.execStopReached grp s
  | .disarm ctx => Sys2Proof.Machine.execDisarm ctx s
  | .debugResume ctx => Sys2Proof.Machine.execDebugResume ctx s
  | .debugRead ctx spec lane => Sys2Proof.Machine.execDebugRead ctx spec lane s
  | .debugWrite ctx spec lane => Sys2Proof.Machine.execDebugWrite ctx spec lane s
  | .traceCaptureOn ctx => Sys2Proof.Machine.execTraceCaptureOn ctx s
  | .traceCaptureOff ctx => Sys2Proof.Machine.execTraceCaptureOff ctx s
  | .samplePacket grp kind times => Sys2Proof.Machine.execSamplePacket grp kind times s
  | .hostWrite off data => Sys2Proof.Machine.execHostWrite off data s
  | .hostRead win off n => Sys2Proof.Machine.execHostRead win off n s
  | .remoteAccessArrival acc => Sys2Proof.Machine.execRemoteAccessArrival acc s
  | .remoteReply req data => Sys2Proof.Machine.execRemoteReply req data s
  | .remoteRequestLost req => Sys2Proof.Machine.execRemoteRequestLost req s
  | .featenWrite value => Sys2Proof.Machine.execFeatenWrite value s
  | .packageReset => Sys2Proof.Machine.execPackageReset s
  | .mailboxWrite => Sys2Proof.Machine.execMailboxWrite s
  | .mailboxWriteDone => Sys2Proof.Machine.execMailboxWriteDone s
  | .mailboxCommit => Sys2Proof.Machine.execMailboxCommit s
  | .attcmdGo ctx => Sys2Proof.Machine.execAttcmdGo ctx s
  | .attestationReportDone ctx => Sys2Proof.Machine.execAttestationReportDone ctx s
  | .registerWrite off value => Sys2Proof.Machine.execRegisterWrite off value s
  | .writeBufferDrain core => Sys2Proof.Machine.execWriteBufferDrain core s
  | .leaseRevoke entry => Sys2Proof.Machine.execLeaseRevoke entry s
  | .leaseNotice entry => Sys2Proof.Machine.execLeaseNotice entry s
  | .leaseAck entry => Sys2Proof.Machine.execLeaseAck entry s
  | .leaseDeadline entry => Sys2Proof.Machine.execLeaseDeadline entry s
  | .lenderReclaim entry => Sys2Proof.Machine.execLenderReclaim entry s
  | .portStateChange port up => Sys2Proof.Machine.execPortStateChange port up s
  | .barSizeSelect log => Sys2Proof.Machine.execBarSizeSelect log s
  | .arbitrationAgeGrant point => Sys2Proof.Machine.execArbitrationAgeGrant point s
  | .starvationGuard grp => Sys2Proof.Machine.execStarvationGuard grp s
  | .rotationRule grp => Sys2Proof.Machine.execRotationRule grp s
  | .handlerOverrun grp => Sys2Proof.Machine.execHandlerOverrun grp s
  | .llcctlUnpin => Sys2Proof.Machine.execLlcctlUnpin s
  | .pinwWrite pinw => Sys2Proof.Machine.execPinwWrite pinw s
  | .softError target => Sys2Proof.Machine.execSoftError target s
  | .scrub bad => Sys2Proof.Machine.execScrub bad s
  | .reservoirTick static debits => Sys2Proof.Machine.execReservoirTick static debits s
  | .debugForceWrite ctx spec lane => Sys2Proof.Machine.execDebugForceWrite ctx spec lane s
  | .preEmptionWithdraw team => Sys2Proof.Machine.execPreEmptionWithdraw team s
  | .batchTimeout grid node => Sys2Proof.Machine.execBatchTimeout grid node s

end Sys2Proof.Machine
end

