-- ==== Sys2Proof/Machine/Step.lean ====
section
/-! DEFINITION. One step: the head event of the agenda, or what the machine does of itself. -/

namespace Sys2Proof.Machine

def step (s : State) : Host.Outcome State Fault Refusal :=
  match s.agenda with
  | e :: rest => if e.parts.isSome then .fault .notAnEvent else exec e { s with agenda := rest }
  | [] =>
    match s.plan exec with
    | .event i s' => exec i s'
    | .issue i s' => exec i s'
    | .spent s' => .next s'

/-- The state in which the very next step fetches and runs the word w (log entry 6). -/
def State.withFetchWord (s : State) (nbits w : Nat) : State := s.place (leBytes 8 (w % 2 ^ nbits))

end Sys2Proof.Machine
end

