-- ==== Sys2Proof/Safety.lean ====
section
/-! DEFINITION. The terms that statements use: when an issue runs, the state its effect starts from and the state its retirement
leaves; the invariants of the machine. -/

namespace Sys2Proof.Machine

/-! ## Issues that run -/

/-- The issue is one of lanes, some lane is allowed, no lane of the set has a poisoned predicate (R251), and step 7 of R240 holds
in every allowed lane. -/
abbrev State.Runs (s : State) (p : Pred) (chk : Nat → Bool) : Prop :=
  s.g.iss.handler = false ∧ s.allowed p ≠ 0#64 ∧ s.g.iss.set &&& s.g.predPoi p = 0#64 ∧ ∀ l ∈ s.g.lanesOf (s.allowed p), chk l = true

/-- The issue is one of a handler under predicate m0 that is not negated (R414). -/
abbrev State.RunsH (s : State) (p : Pred) : Prop := s.g.iss.handler = true ∧ p.neg = false ∧ p.m.val = 0
/-- The budget of the handler of the group in focus stands at 0 (R415). -/
def State.budgetOver (s : State) : Bool := s.g.handler.any (·.budget == 0)

/-- An issue in which no lane fails: it retires in every lane of its set that does not wait at a barrier object (R152, R188). -/
def State.retire (s : State) : State := s.endIssue []
/-- An instruction of a handler that retires. -/
def State.retireH (s : State) : State := s.finishHandler []
/-- What an instruction of a handler answers that leaves the state t and meets no trap: it retires, or, with the budget at 0, the grid ends
with the Handler Overrun cause and none of the effect (R415). -/
def State.handlerEnd (s t : State) : Host.Outcome State Fault Refusal := .next (if s.budgetOver then s.fatal 0x0101 0 else t.retireH)

/-! ## Invariants -/

/-- Global memory is in its canonical form: addresses rise strictly and no byte that an unlisted address reads as is listed. -/
abbrev State.MemOk (s : State) : Prop := Memory.wf s.mem = true

end Sys2Proof.Machine
end

