-- ==== Sys2Proof/Certificates/Slice0/Obligations.lean ====
section
/-! DEFINITION. The statements for the provers, with the terms they use. -/

namespace Sys2Proof.Claims
open Sys2Proof.Machine

/-! ## Terms of the statements -/

/-- What an issue under predicate p answers when its effect changes the allowed lanes alone and retires. -/
def lanesOut (s : State) (p : Pred) (act : Nat → Lane → Lane) : Out :=
  .next ((s.atIssue (s.allowed p)).modG fun g => g.modLanes (g.lanesOf (s.allowed p)) act).retire
/-- What an issue answers when its effect changes the group once and retires. -/
def groupOut (s : State) (p : Pred) (act : Grp → Grp) : Out := .next ((s.atIssue (s.allowed p)).modG act).retire
/-- The same for a handler's instruction. -/
def handlerOut (s : State) (act : Grp → Grp) : Out := s.handlerEnd (s.atHandler.modG act)

/-- No core holds a partial that an access at home would gather (R151). -/
def noPartials (s : State) : Prop := ∀ c ∈ s.cores, ∀ l ∈ c.2.l1, l.isU = false
/-- No tile holds the lock of a line. -/
def noLocks (s : State) : Prop := ∀ (pa n : Nat) (w : Bool), s.blocked pa n w = false

/-- A destination with one value for each lane. -/
def laneDest : Opnd → Bool
  | .v _ => true
  | .k _ => true
  | _ => false

/-! ## Integer words -/

/-- The integer that a w-bit value stands for under the type of a word (R260). -/
def num (f : VF) (x : Nat) : Int := if f.ty.isI then (BitVec.ofNat f.ty.w x).toInt else (x : Int)
/-- An exact result as R261 delivers it: clamped under SAT, modulo 2^w otherwise. -/
def delivered (f : VF) (z : Int) : Nat :=
  let lo : Int := if f.ty.isI then -(2 ^ (f.ty.w - 1) : Nat) else 0
  let hi : Int := if f.ty.isI then (2 ^ (f.ty.w - 1) : Nat) - 1 else (2 ^ f.ty.w : Nat) - 1
  (BitVec.ofInt f.ty.w (if f.sat then (if z < lo then lo else if hi < z then hi else z) else z)).toNat

/-- The INT words whose result is one value of their sources: predicate, fields, how many sources, and the value (R261, R263,
R266, R267). -/
def intRow : Instr → Option (Pred × VF × Nat × (Nat → Nat → Nat → Nat))
  | .add p f => some (p, f, 2, fun a b _ => delivered f (num f a + num f b))
  | .sub p f => some (p, f, 2, fun a b _ => delivered f (num f a - num f b))
  | .mul p f => some (p, f, 2, fun a b _ => delivered f (num f a * num f b))
  | .mulh p f => some (p, f, 2, fun a b _ => (BitVec.ofInt (2 * f.ty.w) (num f a * num f b)).toNat / 2 ^ f.ty.w)
  | .mad p f => some (p, f, 3, fun a b c => delivered f (num f a * num f b + num f c))
  | .and p f => some (p, f, 2, fun a b _ => a &&& b)
  | .or p f => some (p, f, 2, fun a b _ => a ||| b)
  | .xor p f => some (p, f, 2, fun a b _ => a ^^^ b)
  | .andn p f => some (p, f, 2, fun a b _ => a &&& (2 ^ f.ty.w - 1 - b))
  | .shl p f => some (p, f, 2, fun a b _ => shiftLeft f.ty.w a ((b + f.m) % 2 ^ 32))
  | .shr p f => some (p, f, 2, fun a b _ => shiftRight f.ty.w a ((b + f.m) % 2 ^ 32))
  | .sra p f => some (p, f, 2, fun a b _ => shiftArith f.ty.w a ((b + f.m) % 2 ^ 32))
  | .rot p f => some (p, f, 2, fun a b _ => rotateLeft f.ty.w a ((b + f.m) % 2 ^ 32))
  | .min p f => some (p, f, 2, fun a b _ => if num f b < num f a then b else a)
  | .max p f => some (p, f, 2, fun a b _ => if num f a < num f b then b else a)
  | .absd p f => some (p, f, 2, fun a b _ => (num f a - num f b).natAbs)
  | .popc p f => some (p, f, 1, fun a _ _ => (List.range f.ty.w).countP a.testBit)
  | .clz p f => some (p, f, 1, fun a _ _ => leadingZeros f.ty.w a)
  | .brev p f => some (p, f, 1, fun a _ _ => bitReverse f.ty.w a)
  | .bfe p f => some (p, f, 2, fun a b _ => extractField f.ty.w a b f.ty.isI)
  | .bfi p f => some (p, f, 3, fun a b c => insertField f.ty.w a b c)
  | .mov p f => some (p, f, 1, fun a _ _ => a)
  | .div p f => some (p, f, 2, fun a b _ => divide f.ty (f.m == 1) a b)
  | _ => none

/-- The sources of a row. -/
def srcsOf (f : VF) (n : Nat) : List Opnd := [f.a, f.b, f.c].take n

end Sys2Proof.Claims

open Sys2Proof Sys2Proof.Machine Sys2Proof.Claims

namespace Sys2Proof.Claims
open Sys2Proof.Machine

/-- An INT word of n sources with the value fn: with a v or k destination it writes its result, and shifts y, in the active lanes; with
an s destination it computes once, in an issue with an active lane or in a handler. It retires. -/
def intWord (i : Instr) (p : Pred) (f : VF) (n : Nat) (fn : Nat → Nat → Nat → Nat) (s : State) : Prop :=
  (laneDest f.d = true → s.Runs p (s.opsOk (withRegs f.ty.regs (f.d :: srcsOf f n))) →
    exec i s = lanesOut s p fun l x => x.putVec s.g.wb f.d f.ty.is64 (s.val3 l f.ty (srcsOf f n) fn)) ∧
  (∀ k, f.d = .s k →
    let v := s.val3 0 f.ty (srcsOf f n) fn
    let w : Val := ⟨sExtend f.ty v.n, v.poi⟩
    (s.Runs p (s.opsOk (withRegs f.ty.regs (srcsOf f n))) → exec i s = groupOut s p fun g => g.putS k w) ∧
    (s.RunsH p → s.opsOk (withRegs f.ty.regs (srcsOf f n)) 0 = true → exec i s = handlerOut s fun g => g.putS k w))

end Sys2Proof.Claims

/-- R247, R248, R260, R261, R263, R266, R267: every INT word but ADDC, SUBB, CMP and SEL gives its value; MOV between z registers
copies. -/
def Obligations.IntWords : Prop :=
  (∀ (i : Instr) (p : Pred) (f : VF) (n : Nat) (fn : Nat → Nat → Nat → Nat) (s : State), intRow i = some (p, f, n, fn) → intWord i p f n fn s) ∧
  (∀ (p : Pred) (f : VF) (k : Fin 4) (s : State), f.d = .z k →
    (s.Runs p (fun _ => true) → exec (.mov p f) s = groupOut s p fun g => g.setZreg k (s.g.zreg f.a.zIdx)) ∧
    (s.RunsH p → exec (.mov p f) s = handlerOut s fun g => g.setZreg k (s.g.zreg f.a.zIdx)))

/-- R263: SHL, SHR, SRA and ROT by n = (uB + c) mod 2^32 are the shifts of the bits, for every count; BFE and BFI bit by bit, for a
control word with pos in its low byte and len, at most w, in the next. -/
def Obligations.ShiftsAndBitFields : Prop :=
  (∀ (p : Pred) (f : VF) (s : State),
    let n (b : Nat) : Nat := (b + f.m) % 2 ^ 32
    intWord (.shl p f) p f 2 (fun a b _ => shiftLeft f.ty.w a (n b)) s ∧ intWord (.shr p f) p f 2 (fun a b _ => shiftRight f.ty.w a (n b)) s ∧
    intWord (.sra p f) p f 2 (fun a b _ => shiftArith f.ty.w a (n b)) s ∧ intWord (.rot p f) p f 2 (fun a b _ => rotateLeft f.ty.w a (n b)) s ∧
    intWord (.bfe p f) p f 2 (fun a b _ => extractField f.ty.w a b f.ty.isI) s ∧
    intWord (.bfi p f) p f 3 (fun a b c => insertField f.ty.w a b c) s) ∧
  (∀ (w a n : Nat), (w = 32 ∨ w = 64) → a < 2 ^ w →
    shiftLeft w a n = (BitVec.ofNat w a <<< n).toNat ∧
    shiftRight w a n = (BitVec.ofNat w a >>> n).toNat ∧
    shiftArith w a n = ((BitVec.ofNat w a).sshiftRight n).toNat ∧
    rotateLeft w a n = ((BitVec.ofNat w a).rotateLeft n).toNat) ∧
  (∀ (w a b c : Nat) (sg : Bool) (i : Nat), (w = 32 ∨ w = 64) → a < 2 ^ w → c < 2 ^ w → i < w →
    let pos := b % 256
    let len := min (b / 256 % 256) w
    let bit (j : Nat) : Bool := if j < w then a.testBit j else sg && a.testBit (w - 1)
    (extractField w a b sg).testBit i = (len ≠ 0 && (if i < len then bit (pos + i) else sg && bit (pos + (len - 1)))) ∧
    (insertField w a b c).testBit i = (if pos ≤ i ∧ i < pos + len then c.testBit (i - pos) else a.testBit i) ∧
    extractField w a b sg < 2 ^ w ∧ insertField w a b c < 2 ^ w)

/-- R266: DIV truncates towards zero and its remainder takes the sign of A; a zero divisor gives all ones, and A as the remainder;
no case traps, and none raises a flag. -/
def Obligations.Division : Prop :=
  (∀ (p : Pred) (f : VF) (s : State), intWord (.div p f) p f 2 (fun a b _ => divide f.ty (f.m == 1) a b) s) ∧
  (∀ (x : Lane) (wb : Nat) (d : Opnd) (is64 : Bool) (v : Val), (x.putVec wb d is64 v).fpl = x.fpl) ∧
  (∀ (t : Ty) (a b : Nat), (t = .i32 ∨ t = .i64 ∨ t = .n32 ∨ t = .n64) → a < 2 ^ t.w → b < 2 ^ t.w →
    (b = 0 → divide t false a b = 2 ^ t.w - 1 ∧ divide t true a b = a) ∧
    (b ≠ 0 → t.isI = false → divide t false a b = a / b ∧ divide t true a b = a % b) ∧
    (b ≠ 0 → t.isI = true →
      divide t false a b = ((BitVec.ofNat t.w a).sdiv (BitVec.ofNat t.w b)).toNat ∧
      divide t true a b = ((BitVec.ofNat t.w a).srem (BitVec.ofNat t.w b)).toNat) ∧
    (t.isI = true → a = 2 ^ (t.w - 1) → b = 2 ^ t.w - 1 → divide t false a b = 2 ^ (t.w - 1) ∧ divide t true a b = 0))

/-- R262: ADDC and SUBB write the sum or difference modulo 2^w and put the carry or borrow into bit l of the mask MOD names, with
every read before the writes. -/
def Obligations.CarryWords : Prop :=
  ∀ (p : Pred) (f : VF) (s : State), s.Runs p (s.opsOk (withRegs f.ty.regs [f.d, f.a, f.b])) →
    let a (l : Nat) : Val := s.rd l f.ty f.a
    let b (l : Nat) : Val := s.rd l f.ty f.b
    let c (l : Nat) : Val := s.carryIn l f.c
    let poi (l : Nat) : Bool := (a l).poi || (b l).poi || (c l).poi
    let out (t : Nat → Int) : Out :=
      .next ((s.atIssue (s.allowed p)).modG fun g =>
        (g.modLanes (g.lanesOf (s.allowed p)) fun l x =>
          x.putVec s.g.wb f.d f.ty.is64 ⟨(t l % (2 ^ f.ty.w : Nat)).toNat, poi l⟩).putMLanes (f.m % 8) (s.allowed p) fun l =>
            ⟨if (2 ^ f.ty.w : Nat) ≤ t l ∨ t l < 0 then 1 else 0, poi l⟩).retire
    exec (.addc p f) s = out (fun l => (a l).n + (b l).n + (c l).n) ∧
    exec (.subb p f) s = out (fun l => (a l).n - (b l).n - (c l).n)

namespace Sys2Proof.Claims
open Sys2Proof.Machine

/-- The conditions of R264 on w-bit values. -/
def condHolds (w : Nat) (a b : BitVec w) : Nat → Bool
  | 0 => a == b
  | 1 => a != b
  | 2 => a.slt b
  | 3 => a.sle b
  | 4 => b.slt a
  | 5 => b.sle a
  | 6 => a.ult b
  | 7 => a.ule b
  | 8 => b.ult a
  | _ => b.ule a

/-- Where a comparison's result goes (R264): bits of an m register, 32 bits of each active lane, or 64 bits of an s register. -/
def comparesTo (i : Instr) (p : Pred) (d : Opnd) (srcs : List (Opnd × Nat)) (res : Nat → Val) (s : State) : Prop :=
  (∀ k, d = .m k → s.Runs p (s.opsOk srcs) → exec i s = groupOut s p fun g => g.putMLanes k (s.allowed p) res) ∧
  (laneDest d = true → s.Runs p (s.opsOk ((d, 1) :: srcs)) → exec i s = lanesOut s p fun l x => x.putVec s.g.wb d false (res l)) ∧
  (∀ k, d = .s k →
    (s.Runs p (s.opsOk srcs) → exec i s = groupOut s p fun g => g.putS k (res 0)) ∧
    (s.RunsH p → s.opsOk srcs 0 = true → exec i s = handlerOut s fun g => g.putS k (res 0)))

end Sys2Proof.Claims

/-- R264, R268: CMP and CMPI test A against B, or against sext(IMM32[27:0]) under the condition in IMM32[31:28], and write 1 or 0
by the class of D, poisoned with a source. -/
def Sys2Proof.Claims.comparisonsHold : Prop :=
  (∀ (p : Pred) (f : VF) (s : State), comparesTo (.cmp p f) p f.d (withRegs f.ty.regs [f.a, f.b])
    (fun l => ⟨if condHolds f.ty.w (BitVec.ofNat _ (s.rd l f.ty f.a).n) (BitVec.ofNat _ (s.rd l f.ty f.b).n) f.m then 1 else 0,
      (s.rd l f.ty f.a).poi || (s.rd l f.ty f.b).poi⟩) s) ∧
  (∀ (p : Pred) (f : IF) (s : State),
    let t : Ty := if f.a.isS then .i64 else .i32
    comparesTo (.cmpi p f) p f.d [(f.a, 1)]
      (fun l => ⟨if condHolds t.w (BitVec.ofNat _ (s.rd l t f.a).n) ((f.imm.extractLsb' 0 28).signExtend t.w) (f.imm.extractLsb' 28 4).toNat then 1 else 0,
        (s.rd l t f.a).poi⟩) s)

/-- R265: SEL takes A where its selector's bit of the lane, or its whole s register, is not zero, and B otherwise; poison of any of
the three poisons the result. -/
def Sys2Proof.Claims.selectionsHold : Prop :=
  ∀ (p : Pred) (f : VF) (s : State),
    let sel (l : Nat) : Val := match f.c with
      | .m i => ⟨if (s.g.mBits i.val).getLsbD l then 1 else 0, (s.g.mPoi i.val).getLsbD l⟩
      | o => s.rd l .b64 o
    let v (l : Nat) : Val :=
      ⟨if (sel l).n = 0 then (s.rd l f.ty f.b).n else (s.rd l f.ty f.a).n, (s.rd l f.ty f.a).poi || (s.rd l f.ty f.b).poi || (sel l).poi⟩
    (laneDest f.d = true → s.Runs p (s.opsOk (withRegs f.ty.regs [f.d, f.a, f.b])) →
      exec (.sel p f) s = lanesOut s p fun l x => x.putVec s.g.wb f.d f.ty.is64 (v l)) ∧
    (∀ k, f.d = .s k →
      (s.Runs p (fun _ => true) → exec (.sel p f) s = groupOut s p fun g => g.putS k ⟨sExtend f.ty (v 0).n, (v 0).poi⟩) ∧
      (s.RunsH p → exec (.sel p f) s = handlerOut s fun g => g.putS k ⟨sExtend f.ty (v 0).n, (v 0).poi⟩))

/-- Comparisons and selections. -/
def Obligations.ComparisonsAndSelections : Prop := comparisonsHold ∧ selectionsHold

namespace Sys2Proof.Claims
open Sys2Proof.Machine

/-- The IMM words but CMPI: predicate, fields, whether A is read, and the value of A and the immediate at a width (R268). -/
def immRow : Instr → Option (Pred × IF × Bool × ((w : Nat) → BitVec w → BitVec w → BitVec w))
  | .movi p f => some (p, f, false, fun _ _ i => i)
  | .addi p f => some (p, f, true, fun _ a i => a + i)
  | .andi p f => some (p, f, true, fun _ a i => a &&& i)
  | .ori p f => some (p, f, true, fun _ a i => a ||| i)
  | .xori p f => some (p, f, true, fun _ a i => a ^^^ i)
  | _ => none

end Sys2Proof.Claims

/-- R268: MOVI, ADDI, ANDI, ORI and XORI, 64 bits wide into s and 32 bits wide into lanes, on the sign-extended immediate. -/
def Obligations.Immediates : Prop :=
  ∀ (i : Instr) (p : Pred) (f : IF) (useA : Bool) (fn : (w : Nat) → BitVec w → BitVec w → BitVec w) (s : State),
    immRow i = some (p, f, useA, fn) →
    let a (t : Ty) (l : Nat) : Val := if useA then s.rd l t f.a else {}
    let srcs : List Opnd := if useA then [f.a] else []
    let v (w : Nat) (t : Ty) (l : Nat) : Val := ⟨(fn w (BitVec.ofNat w (a t l).n) (f.imm.signExtend w)).toNat, (a t l).poi⟩
    (laneDest f.d = true → s.Runs p (s.opsOk (withRegs 1 (f.d :: srcs))) →
      exec i s = lanesOut s p fun l x => x.putVec s.g.wb f.d false (v 32 .i32 l)) ∧
    (∀ k, f.d = .s k →
      (s.Runs p (s.opsOk (withRegs 1 srcs)) → exec i s = groupOut s p fun g => g.putS k (v 64 .i64 0)) ∧
      (s.RunsH p → s.opsOk (withRegs 1 srcs) 0 = true → exec i s = handlerOut s fun g => g.putS k (v 64 .i64 0)))

/-! ## Masks, translation registers, system registers -/

namespace Sys2Proof.Claims
open Sys2Proof.Machine

/-- The state in which the effect of an issue under predicate p acts. -/
abbrev eff (s : State) (p : Pred) : State := s.atIssue (s.allowed p)
/-- What an issue answers when its effect leaves the state u and retires in every lane of its set. -/
abbrev retired (u : State) : Out := .next u.retire
/-- What an issue answers when lanes fail after its effect: the rest retires, and the failing lanes trap (R409). -/
abbrev trapped (u : State) (fails : List (Nat × Fail)) : Out := .next (u.endIssue fails)
/-- No access between two states of an issue has met a line whose lock keeps it out (R91): one that has waits whole. -/
abbrev unheld (s u : State) : Prop := u.met = s.met
/-- Every lane of the issue set is Running, as R187 has it. -/
abbrev running (s : State) : Prop := ∀ l ∈ s.g.lanesOf s.g.iss.set, (s.g.lane l).st = .running

/-- A word that its group performs once, in an issue with an active lane or in a handler. -/
def performsOnce (i : Instr) (p : Pred) (act : Mask → Grp → Grp) (s : State) : Prop :=
  (s.Runs p (fun _ => true) → exec i s = groupOut s p (act (s.allowed p))) ∧ (s.RunsH p → exec i s = handlerOut s (act 0))

/-- The bitwise MASK words (R273). -/
def maskRow : Instr → Option (Pred × VF × (Bool → Bool → Bool))
  | .mand p f => some (p, f, fun a b => a && b)
  | .mor p f => some (p, f, fun a b => a || b)
  | .mxor p f => some (p, f, fun a b => a != b)
  | .mandn p f => some (p, f, fun a b => a && !b)
  | _ => none
/-- The mask whose bit l is fn of the bits l of two masks. -/
def bitwise (fn : Bool → Bool → Bool) (a b : Mask) : Mask := maskOf ((List.range 64).filter fun l => fn (a.getLsbD l) (b.getLsbD l))

end Sys2Proof.Claims

/-- R273: the bitwise MASK words, MMOV and MACT write a whole mask once; MPOPC and MFIRST count in one. That MACT reads 0 in a handler is
the model's choice (log entry 28). -/
def Obligations.MaskWords : Prop :=
  (∀ (i : Instr) (p : Pred) (f : VF) (fn : Bool → Bool → Bool) (s : State), maskRow i = some (p, f, fn) →
    performsOnce i p (fun _ g =>
      g.putMask f.d (bitwise fn (s.g.maskSrc f.a).1 (s.g.maskSrc f.b).1) ((s.g.maskSrc f.a).2 ||| (s.g.maskSrc f.b).2)) s) ∧
  (∀ (p : Pred) (f : VF) (s : State),
    performsOnce (.mmov p f) p (fun _ g => g.putMask f.d (s.g.maskSrc f.a).1 (s.g.maskSrc f.a).2) s ∧
    performsOnce (.mact p f) p (fun act g => g.putMask f.d act 0) s) ∧
  (∀ (p : Pred) (f : VF) (s : State),
    let x := (s.g.maskSrc f.a).1
    let poi := (s.g.maskSrc f.a).2 != 0
    let ones : Val := ⟨(List.range 64).countP x.getLsbD, poi⟩
    let first : Val := ⟨((List.range 64).find? x.getLsbD).getD 64, poi⟩
    (∀ k, f.d = .s k →
      performsOnce (.mpopc p f) p (fun _ g => g.putS k ones) s ∧ performsOnce (.mfirst p f) p (fun _ g => g.putS k first) s) ∧
    (laneDest f.d = true → s.Runs p (s.opsOk [(f.d, 1)]) →
      exec (.mpopc p f) s = lanesOut s p (fun _ x => x.putVec s.g.wb f.d false ones) ∧
      exec (.mfirst p f) s = lanesOut s p (fun _ x => x.putVec s.g.wb f.d false first)))

/-- R269 to R272: ATR leaves the register of R22, or traps on poison; AREL clears VALID; LEA writes BASEVA + B + imm; AGET reads a
field. That a DET grid gives the hidden fields in z alone, and any other pairing is an Illegal Operand, is the model's choice (log
entry 37). -/
def Obligations.TranslationWords : Prop :=
  (∀ (p : Pred) (f : VF) (s : State), s.Runs p (fun _ => true) →
    exec (.atr p f) s =
      (if (s.g.sVal f.a.sIdx).poi then trapped (eff s p) (failAll s.g (s.allowed p) (.poison f.a))
      else retired ((eff s p).modG fun g => g.setAreg f.d.aIdx ((eff s p).atr s.foc.ctx (BitVec.ofNat 64 (s.g.sVal f.a.sIdx).n)))) ∧
    exec (.arel p f) s = groupOut s p (fun g => g.setAreg f.d.aIdx { g.areg f.d.aIdx with valid := false }) ∧
    exec (.aget p f) s =
      (if f.d.isZ = (s.gr.det && (f.m == 1 || f.m == 2 || f.m == 4)) then
        let u := (eff s p).refresh f.a.aIdx
        let v := (u.g.areg f.a.aIdx).field f.m
        retired (u.modG fun g => if f.d.isZ then g.setZreg f.d.zIdx (BitVec.ofNat 64 v) else g.putS f.d.sIdx ⟨v, false⟩)
      else trapped (eff s p) (failAll s.g (s.allowed p) .illOpnd))) ∧
  (∀ (p : Pred) (f : MF) (s : State),
    let va (l : Nat) : Val :=
      ⟨((s.g.areg f.a.aIdx).baseva + BitVec.ofNat 64 (s.rd l .n32 f.b).n + BitVec.ofInt 64 (f.imm.toInt * f.width.bytes)).toNat,
        (s.rd l .n32 f.b).poi⟩
    (laneDest f.d = true → s.Runs p (s.opsOk [(f.d, 2), (f.a, 1), (f.b, 1)]) →
      exec (.lea p f) s = lanesOut s p fun l x => x.putVec s.g.wb f.d true (va l)) ∧
    (∀ k, f.d = .s k → s.Runs p (s.opsOk [(f.a, 1), (f.b, 1)]) → exec (.lea p f) s = groupOut s p fun g => g.putS k (va 0)))

/-- R277, R278, R412: MFSR of a per-lane register, a group's register, and in a handler the trap state, which traps elsewhere. That a
register of more than 32 bits leaves its low half in v or k is the model's choice (log entry 101). -/
def Sys2Proof.Claims.systemReadsHold : Prop :=
  ∀ (p : Pred) (f : IF) (s : State),
    let n := f.imm.toNat
    ((n = 0 ∨ n = 0x10) → s.Runs p (s.opsOk [(f.d, 1)]) → (n = 0 → (eff s p).nfPending = false) →
      exec (.mfsr p f) s = lanesOut s p fun _ x => x.putVec s.g.wb f.d false ⟨if n = 0 then x.fpl.toNat else x.ctr.toNat, false⟩) ∧
    (n ≠ 0 → n ≠ 0x10 → n < 0x100 →
      (laneDest f.d = true → s.Runs p (s.opsOk [(f.d, 1)]) →
        exec (.mfsr p f) s = lanesOut s p fun _ x => x.putVec s.g.wb f.d false ⟨(eff s p).grpReg n, false⟩) ∧
      (∀ k, f.d = .s k →
        (s.Runs p (fun _ => true) → exec (.mfsr p f) s = groupOut s p fun g => g.putS k ⟨(eff s p).grpReg n, false⟩) ∧
        (s.RunsH p → exec (.mfsr p f) s = handlerOut s fun g => g.putS k ⟨s.atHandler.grpReg n, false⟩))) ∧
    (0x100 ≤ n →
      (∀ k h, f.d = .s k → s.RunsH p → s.g.handler = some h →
        exec (.mfsr p f) s = handlerOut s fun g => g.putS k ⟨s.atHandler.trapReg h n, false⟩) ∧
      (s.Runs p (s.opsOk [(f.d, 1)]) → exec (.mfsr p f) s = trapped (eff s p) (failAll s.g (s.allowed p) .illOpnd)))

/-- R277, R278, R206: MTSR writes FPL, whose reserved bits keep reading as zero, or the draw counter in the active lanes, and traps
the lanes whose source is poisoned; PTSEL, 0x108, is written in a handler and is an Illegal Operand elsewhere. -/
def Sys2Proof.Claims.systemWritesHold : Prop :=
  ∀ (p : Pred) (f : IF) (s : State),
    let n := f.imm.toNat
    let poi (l : Nat) : Bool := (s.rd l .n32 f.a).poi
    ((n = 0 ∨ n = 0x10) → s.Runs p (s.opsOk [(f.a, 1)]) → (n = 0 → (eff s p).nfPending = false) →
      let u := (eff s p).modG fun g => g.modLanes ((g.lanesOf (s.allowed p)).filter fun l => !poi l) fun l x =>
        if n = 0 then { x with fpl := BitVec.ofNat 32 (s.rd l .n32 f.a).n &&& 0x3F1F#32 } else { x with ctr := BitVec.ofNat 32 (s.rd l .n32 f.a).n }
      exec (.mtsr p f) s = trapped u (((s.g.lanesOf (s.allowed p)).filter poi).map fun l => (l, Fail.poison f.a)) ∧
      ((∀ l ∈ s.g.lanesOf (s.allowed p), poi l = false) → exec (.mtsr p f) s = retired u)) ∧
    (n = 0x108 →
      (s.RunsH p → (s.rd 0 .b64 f.a).poi = false →
        exec (.mtsr p f) s = handlerOut s fun g => { g with ptsel := (s.rd 0 .b64 f.a).n % 8 }) ∧
      (s.Runs p (fun _ => true) → exec (.mtsr p f) s = trapped (eff s p) (failAll s.g (s.allowed p) .illOpnd)))

/-- R412, R419: in a handler, a write of HEXIT ends the grid with the Handler Exit cause and the value, and a write of PTMASK
clears the lanes it leaves out of the selected entry, which an empty mask frees. -/
def Sys2Proof.Claims.handlerRegisterWritesHold : Prop :=
  ∀ (p : Pred) (f : IF) (s : State), s.RunsH p → (s.rd 0 .b64 f.a).poi = false →
    let v := (s.rd 0 .b64 f.a).n
    exec (.hexitWrite p f) s = .next (if s.budgetOver then s.fatal 0x0101 0 else s.atHandler.fatal 0x0106 v) ∧
    (s.ptEntry s.g.ptsel = none → exec (.ptmaskWrite p f) s = s.handlerEnd s.atHandler) ∧
    (∀ e, s.ptEntry s.g.ptsel = some e →
      let m := e.mask &&& ~~~((~~~(BitVec.ofNat 64 v) &&& widthMask s.g.gw) <<< s.g.base)
      exec (.ptmaskWrite p f) s =
        s.handlerEnd (s.atHandler.setPtab (bankPut none s.ptab s.g.ptsel (if m = 0 then none else some { e with mask := m }))))

/-- Reads and writes of the system registers. -/
def Obligations.SystemRegisters : Prop := systemReadsHold ∧ systemWritesHold ∧ handlerRegisterWritesHold

/-- R155, R279 to R282: CLK reads the retired count before it, ZREAD true time, which has counted on since it was last read, or the
placement, whose cluster and core numbers no two cores share (log entry 8 for the numbers), RNG draws and moves the lane's counter on,
ECOUNT reads the cluster's debit in picojoules; a context that logs takes what they read (R435). A word of the INT class with a destination of
the lanes debits 1 pJ in each active lane (R461); that such words are the lane operations is the model's choice (log entry 83). -/
def Sys2Proof.Claims.countsAndTimesHold : Prop :=
  (∀ (p : Pred) (f : VF) (s : State),
    (∀ k, f.d = .s k → s.Runs p (fun _ => true) → exec (.clk p f) s = groupOut s p fun g => g.putS k ⟨s.g.retired.toNat, false⟩) ∧
    (laneDest f.d = true → s.Runs p (s.opsOk [(f.d, 2)]) →
      exec (.clk p f) s = lanesOut s p fun _ x => x.putVec s.g.wb f.d true ⟨s.g.retired.toNat, false⟩) ∧
    (s.Runs p (s.opsOk [(f.d, 1)]) →
      exec (.rng p f) s = lanesOut s p fun l x =>
        let d := rngDraw s.gr.lrec.rngkey.toNat s.t.id.toNat (s.special l .tlane) x.ctr.toNat
        { x with ctr := x.ctr + 1 }.putVec s.g.wb f.d false ⟨if f.ty = Ty.f32 then unitFp32 d else d, false⟩) ∧
    (s.Runs p (fun _ => true) →
      let v := bankGet (eff s p).debited 0 (s.foc.core / 96) / 100
      exec (.ecount p f) s = retired (((eff s p).modG fun g => g.setZreg f.d.zIdx (BitVec.ofNat 64 v)).logIn .ecount 0 (leBytes 8 v))) ∧
    (laneDest f.d = true → s.Runs p (s.opsOk (withRegs f.ty.regs [f.d, f.a, f.b])) → s.g.iss.word.extractLsb' 58 6 = 1#6 →
      Opnd.ofByte (s.g.iss.word.extractLsb' 40 8) = some f.d →
      ∃ t, exec (.add p f) s = .next t ∧ t.debited = bankPut 0 s.debited (s.foc.core / 96)
        (bankGet s.debited 0 (s.foc.core / 96) + 100 * (s.g.lanesOf (s.allowed p)).length))) ∧
  (∀ (p : Pred) (f : IF) (s : State), s.Runs p (fun _ => true) →
    (f.imm = 0 → ∃ t, t < 2 ^ 64 ∧ (s.pkg.time < 2 ^ 64 - 1 → s.pkg.time < t) ∧
      exec (.zread p f) s =
        retired ((((eff s p).modPkg fun k => { k with time := t }).modG fun g => g.setZreg f.d.zIdx (BitVec.ofNat 64 t)).logIn .zread 0 (leBytes 8 t))) ∧
    (f.imm ≠ 0 →
      let v := placementWord s.foc.core (s.g.idx % 4)
      exec (.zread p f) s = retired (((eff s p).modG fun g => g.setZreg f.d.zIdx (BitVec.ofNat 64 v)).logIn .zread 1 (leBytes 8 v))) ∧
    (∀ a b, a < 384 → b < 384 → a ≠ b → coreNumber a ≠ coreNumber b ∧ (coreNumber a).1 < 4 ∧ (coreNumber a).2 < 96))

/-- R155: the draw is the mixing of the key, the id and the counter, modulo 2^64. -/
def Sys2Proof.Claims.drawFunctionHold : Prop :=
  ∀ (key team tlane ctr : Nat), key < 2 ^ 64 →
    let id : W64 := BitVec.ofNat 64 team * 1024 + BitVec.ofNat 64 tlane
    let x := BitVec.ofNat 64 key ^^^ (id * 0x9E3779B97F4A7C15) ^^^ (BitVec.ofNat 64 ctr * 0xB3F16C2D8E47A5A9)
    let x := (x ^^^ (x >>> 31)) * 0xE7D319B54C862F0B
    let x := (x ^^^ (x >>> 29)) * 0xB3F16C2D8E47A5A9
    rngDraw key team tlane ctr = ((x ^^^ (x >>> 32)).setWidth 32).toNat

/-- Counts, true time and draws. -/
def Obligations.CountsAndDraws : Prop := countsAndTimesHold ∧ drawFunctionHold

namespace Sys2Proof.Claims
open Sys2Proof.Machine

/-- What LGET returns of lane l by its selector MOD and the specifier B (R307, the table). -/
def laneReads (g : Grp) (l m : Nat) (b : Opnd) : Nat :=
  let x := g.lane l
  let y (i : Fin 2) : YReg := if i = 0 then x.y0 else x.y1
  let st : Nat := match x.st with | .running => 0 | .waiting => 1 | .trapped => 2 | .exited => 3
  match m, b with
  | 0, .v i => let r := bankGet x.v {} (g.wb + i.val); if r.poi then 0 else r.val.toNat
  | 0, .k i => let r := bankGet x.k {} i.val; if r.poi then 0 else r.val.toNat
  | 0, .y i => if (y i).poi || !(y i).valid then 0 else (y i).val.toNat
  | 0, .spec .pc => x.pc.toNat
  | 1, _ => x.fpl.toNat
  | 2, _ => x.bb.toNat
  | 3, _ => x.ctr.toNat
  | 4, .v i => (if (bankGet x.v {} (g.wb + i.val)).poi then 1 else 0) + 4 * st
  | 4, .k i => (if (bankGet x.k {} i.val).poi then 1 else 0) + 4 * st
  | 4, .y i => (if (y i).poi then 1 else 0) + (if (y i).valid then 2 else 0) + 4 * st
  | 4, _ => 4 * st
  | _, _ => 0

/-- What LPUT writes in the lane (R307, the table): the register from the low 32 bits with its poison clear and a y entry valid, the
whole VA of %pc or of the block base, FPL without its reserved bits, or the draw counter. -/
def laneWrites (g : Grp) (m : Nat) (b : Opnd) (c : W64) (x : Lane) : Lane :=
  let w : W32 := c.setWidth 32
  match m, b with
  | 0, .v i => { x with v := bankPut {} x.v (g.wb + i.val) { val := w, poi := false } }
  | 0, .k i => { x with k := bankPut {} x.k i.val { val := w, poi := false } }
  | 0, .y 0 => { x with y0 := { val := w, poi := false, valid := true } }
  | 0, .y 1 => { x with y1 := { val := w, poi := false, valid := true } }
  | 0, .spec .pc => { x with pc := c }
  | 1, _ => { x with fpl := w &&& 0x3F1F#32 }
  | 2, _ => { x with bb := c }
  | 3, _ => { x with ctr := w }
  | _, _ => x

/-- The selectors and specifiers that R307's table names for both words; LGET has .st beside them. -/
def laneTarget (m : Nat) (b : Opnd) : Bool :=
  match m, b with
  | 0, .v _ => true
  | 0, .k _ => true
  | 0, .y _ => true
  | 0, .spec .pc => true
  | 1, _ => true
  | 2, _ => true
  | 3, _ => true
  | _, _ => false

end Sys2Proof.Claims

/-- R307, R414: in a handler, with a lane index below %gw and a target within the window, LGET returns what the table names of the
lane, and LPUT writes it there, nothing else of the lane and of no other lane, unless the lane has exited; an index at or above %gw, a v beyond the window and a
poisoned C trap, which ends the grid; outside a handler both are an Illegal Instruction in the active lanes, which lanes those are being
the model's reading (log entry 39). That a poisoned index poisons LGET's result, and
is used as it stands by LPUT, is the model's choice (log entry 107). -/
def Obligations.LaneAccess : Prop :=
  ∀ (p : Pred) (f : VF) (s : State),
    let l := (s.rd 0 .n32 f.a).n
    let c := s.rd 0 .b64 f.c
    let within : Prop := l < s.g.gw ∧ ∀ i, f.b = .v i → i.val < s.g.win
    (s.RunsH p → within → (laneTarget f.m f.b = true ∨ f.m = 4) →
      exec (.lget p f) s = handlerOut s (fun g => g.putS f.d.sIdx ⟨laneReads s.g l f.m f.b, (s.rd 0 .n32 f.a).poi⟩)) ∧
    (s.RunsH p → within → laneTarget f.m f.b = true → c.poi = false →
      ((s.g.lane l).st = .exited → exec (.lput p f) s = s.handlerEnd s.atHandler) ∧
      ((s.g.lane l).st ≠ .exited → s.budgetOver = true → exec (.lput p f) s = .next (s.fatal 0x0101 0)) ∧
      (∀ h, (s.g.lane l).st ≠ .exited → s.budgetOver = false → s.g.handler = some h →
        ∃ t, exec (.lput p f) s = .next t ∧ t.g.lane l = laneWrites s.g f.m f.b (BitVec.ofNat 64 c.n) (s.g.lane l) ∧
          (∀ j, j ≠ l → t.g.lane j = s.g.lane j) ∧ t.mem = s.mem ∧ t.g.s = s.g.s ∧ t.g.m = s.g.m ∧ t.g.retired = s.g.retired ∧
          ∃ h', t.g.handler = some h' ∧ h'.budget = h.budget - 1 ∧ h'.pc = s.g.iss.pc + 8)) ∧
    (s.RunsH p → ¬within →
      exec (.lget p f) s = .next (s.atHandler.fatal 0x0100 0) ∧ exec (.lput p f) s = .next (s.atHandler.fatal 0x0100 0)) ∧
    (s.RunsH p → within → laneTarget f.m f.b = true → c.poi = true → exec (.lput p f) s = .next (s.atHandler.fatal 0x0100 0)) ∧
    (s.Runs p (fun _ => true) →
      exec (.lget p f) s = trapped (eff s p) (failAll s.g (s.allowed p) { cause := 0x0001 }) ∧
      exec (.lput p f) s = trapped (eff s p) (failAll s.g (s.allowed p) { cause := 0x0001 }))

/-! ## Floating point -/

namespace Sys2Proof.Claims
open Sys2Proof.Machine

/-- The FP words of one value per element: predicate, fields, sources, and the operation on operands after OPND (R286 to R294). -/
def fpRow : Instr → Option (Pred × VF × Nat × (Fmt → FpEnv → List Machine.Num → FpR))
  | .fadd p f => some (p, f, 2, fun m e xs => fadd m e (at' xs 0) (at' xs 1))
  | .fsub p f => some (p, f, 2, fun m e xs => fsub m e (at' xs 0) (at' xs 1))
  | .fmul p f => some (p, f, 2, fun m e xs => fmul m e (at' xs 0) (at' xs 1))
  | .ffma p f => some (p, f, 3, fun m e xs => ffma m e (at' xs 0) (at' xs 1) (at' xs 2))
  | .fmin p f => some (p, f, 2, fun m e xs => minMaxNumber m e false (at' xs 0) (at' xs 1))
  | .fmax p f => some (p, f, 2, fun m e xs => minMaxNumber m e true (at' xs 0) (at' xs 1))
  | .fminm p f => some (p, f, 2, fun m e xs => minMax m e false (at' xs 0) (at' xs 1))
  | .fmaxm p f => some (p, f, 2, fun m e xs => minMax m e true (at' xs 0) (at' xs 1))
  | .fdiv p f => some (p, f, 2, fun m e xs => fdiv m e (at' xs 0) (at' xs 1))
  | .fsqrt p f => some (p, f, 1, fun m e xs => fsqrt m e (at' xs 0))
  | .frcp p f => some (p, f, 1, fun m e xs => approx .rcp m e (at' xs 0))
  | .frsq p f => some (p, f, 1, fun m e xs => approx .rsq m e (at' xs 0))
  | .fexp2 p f => some (p, f, 1, fun m e xs => approx .exp2 m e (at' xs 0))
  | .flog2 p f => some (p, f, 1, fun m e xs => approx .log2 m e (at' xs 0))
  | .fsin p f => some (p, f, 1, fun m e xs => approx .sin m e (at' xs 0))
  | .fcos p f => some (p, f, 1, fun m e xs => approx .cos m e (at' xs 0))
  | .frint p f => some (p, f, 1, fun m e xs => frint m e (f.m == 1) (at' xs 0))
  | .fgetexp p f => some (p, f, 1, fun m e xs => fgetexp m e (at' xs 0))
  | _ => none

end Sys2Proof.Claims

/-- R284, R286 to R295: an FP word reads each element through OPND under the lane's FPL and RMO, delivers through SAT, and raises the
flags of its elements in every active lane whose result is not poisoned. -/
def Obligations.FloatWords : Prop :=
  (∀ (i : Instr) (p : Pred) (f : VF) (n : Nat) (fn : Fmt → FpEnv → List Machine.Num → FpR) (s : State), fpRow i = some (p, f, n, fn) →
    s.Runs p (s.opsOk (withRegs f.ty.regs (f.d :: srcsOf f n))) →
    exec i s = lanesOut s p fun l x =>
      let env := fpEnv x.fpl f.rmo
      let vs := (srcsOf f n).map fun o => s.rd l f.ty o
      let el (e : Nat) : FpR := satInf (Ty.fmt f.ty) f.sat (fn (Ty.fmt f.ty) env (vs.map fun v => opnd (Ty.fmt f.ty) env ((elems f.ty v.n).getD e 0)))
      x.putFp s.g.wb f.d f.ty.is64 (joinRes f.ty (tab (elemCount f.ty) el)) (vs.any (·.poi))) ∧
  (∀ (p : Pred) (f : VF) (s : State), s.Runs p (s.opsOk [(f.d, f.ty.regs), (f.a, f.ty.regs), (f.b, 1)]) →
    exec (.fscale p f) s = lanesOut s p fun l x =>
      let env := fpEnv x.fpl f.rmo
      let a := s.rd l f.ty f.a
      let b := s.rd l .i32 f.b
      let el (e : Nat) : FpR := satInf (Ty.fmt f.ty) f.sat
        (fscale (Ty.fmt f.ty) env (opnd (Ty.fmt f.ty) env ((elems f.ty a.n).getD e 0)) (scaleOf f.ty f.b b.n e))
      x.putFp s.g.wb f.d f.ty.is64 (joinRes f.ty (tab (elemCount f.ty) el)) (a.poi || b.poi)) ∧
  (∀ (p : Pred) (f : VF) (s : State), s.Runs p (s.opsOk (withRegs 1 [f.d, f.a, f.b, f.c])) →
    exec (.fdot2 p f) s = lanesOut s p fun l x =>
      let env := fpEnv x.fpl f.rmo
      let el (v i : Nat) : Machine.Num := opnd (Ty.fmt f.ty) env ((elems f.ty v).getD i 0)
      let a := s.rd l f.ty f.a
      let b := s.rd l f.ty f.b
      let c := s.rd l .f32 f.c
      let z := opnd fp32 env c.n
      let sum := deliverSum fp32 env [el a.n 0, el a.n 1, el b.n 0, el b.n 1, z] (termsOf [(el a.n 0, el b.n 0), (el a.n 1, el b.n 1)] [z])
      x.putFp s.g.wb f.d false (satInf fp32 f.sat sum) (a.poi || b.poi || c.poi))

namespace Sys2Proof.Claims
open Sys2Proof.Machine

/-- The place of a number that is no NaN in the order of the extended reals: below, among or above the finite numbers, with its exact
value; both zeros have the value 0. -/
def exactOf : Machine.Num → Int × ℚ
  | .inf neg => (if neg then -1 else 1, 0)
  | .fin neg m e => (0, (if neg then -1 else 1) * m * (2 : ℚ) ^ e)
  | .nan _ _ _ _ => (0, 0)
/-- A < B. -/
def below (a b : Machine.Num) : Bool := (exactOf a).1 < (exactOf b).1 || ((exactOf a).1 = (exactOf b).1 && (exactOf a).2 < (exactOf b).2)
/-- When the condition of an FCMP is true (R290, the table). -/
def fcmpTrue (code : Nat) (a b : Machine.Num) : Bool :=
  let nan := a.isNan || b.isNan
  let eq := decide (exactOf a = exactOf b)
  match code with
  | 0 => !nan && eq
  | 1 => nan || !eq
  | 2 => !nan && below a b
  | 3 => !nan && (below a b || eq)
  | 4 => !nan && below b a
  | 5 => !nan && (below b a || eq)
  | 6 => nan
  | 7 => !nan
  | 8 => !nan && below a b
  | 9 => !nan && (below a b || eq)
  | 10 => !nan && below b a
  | _ => !nan && (below b a || eq)
/-- When it sets NV: an ordered comparison for any NaN, a quiet one for a signalling NaN (R290). -/
def fcmpNv (code : Nat) (a b : Machine.Num) : Bool := if 2 ≤ code ∧ code ≤ 5 then a.isNan || b.isNan else a.isSig || b.isSig

/-- The operands of element e of an FCMP in a lane, under the lane's FPL and RMO (R284, R290). -/
def fcmpArgs (s : State) (f : VF) (l e : Nat) : Machine.Num × Machine.Num :=
  let env := fpEnv (s.g.lane l).fpl f.rmo
  let el (o : Opnd) : Machine.Num := opnd (Ty.fmt f.ty) env (bitsAt (s.rd l f.ty o).n (if f.ty.is16x2 then 16 * e else 0) (if f.ty.is16x2 then 16 else f.ty.w))
  (el f.a, el f.b)
/-- The condition in element e of a lane. -/
def fcmpBit (s : State) (f : VF) (l e : Nat) : Bool := fcmpTrue f.m (fcmpArgs s f l e).1 (fcmpArgs s f l e).2
/-- The flags of an FCMP in a lane: NV of its elements, and none where its result is poisoned (R203, R213). -/
def fcmpFlags (s : State) (f : VF) (l : Nat) (poi : Bool) : W32 :=
  if poi then 0
  else if (List.range (if f.ty.is16x2 then 2 else 1)).any fun e => fcmpNv f.m (fcmpArgs s f l e).1 (fcmpArgs s f l e).2 then 0x100 else 0

/-- The class bit of an encoding by its sign, exponent and fraction fields (R291, the table). -/
def classBit (m : Fmt) (x : Nat) : Nat :=
  let neg := x.testBit (m.eb + m.fb)
  let e := bitsAt x m.fb m.eb
  let fr := bitsAt x 0 m.fb
  if e = 2 ^ m.eb - 1 then (if fr ≠ 0 then (if fr.testBit (m.fb - 1) then 9 else 8) else if neg then 0 else 7)
  else if e = 0 then (if fr = 0 then (if neg then 3 else 4) else if neg then 2 else 5)
  else if neg then 1 else 6

end Sys2Proof.Claims

/-- R290, R291: FCMP writes bit l of m in each active lane, or 1 or 0 into a v or k register, or all ones or all zeros into each element
of a packed type, with NV where its kind sets it; a poisoned source poisons the result. FCLASS writes the one class bit of the raw
encoding, of each element of a packed type, and raises no flag. -/
def Obligations.FloatTests : Prop :=
  ∀ (p : Pred) (f : VF) (s : State), f.ty = .f32 ∨ f.ty = .f64 ∨ f.ty = .f16x2 ∨ f.ty = .bf16x2 →
    let poi (l : Nat) : Bool := (s.rd l f.ty f.a).poi || (s.rd l f.ty f.b).poi
    (∀ k, f.d = .m k → s.Runs p (s.opsOk (withRegs f.ty.regs [f.a, f.b])) →
      exec (.fcmp p f) s = groupOut s p fun g =>
        (g.modLanes (g.lanesOf (s.allowed p)) fun l x => x.raise (fcmpFlags s f l (poi l))).putMLanes k (s.allowed p)
          fun l => ⟨if fcmpBit s f l 0 then 1 else 0, poi l⟩) ∧
    (laneDest f.d = true → s.Runs p (s.opsOk ((f.d, 1) :: withRegs f.ty.regs [f.a, f.b])) →
      exec (.fcmp p f) s = lanesOut s p fun l x =>
        let v := if f.ty.is16x2 then (if fcmpBit s f l 0 then 0xFFFF else 0) + (if fcmpBit s f l 1 then 0xFFFF0000 else 0)
          else if fcmpBit s f l 0 then 1 else 0
        (x.putVec s.g.wb f.d false ⟨v, poi l⟩).raise (fcmpFlags s f l (poi l))) ∧
    (laneDest f.d = true → s.Runs p (s.opsOk [(f.d, 1), (f.a, f.ty.regs)]) →
      exec (.fclass p f) s = lanesOut s p fun l x =>
        let n := (s.rd l f.ty f.a).n
        let cls (lo : Nat) : Nat := 2 ^ classBit (Ty.fmt f.ty) (bitsAt n lo (if f.ty.is16x2 then 16 else f.ty.w))
        x.putVec s.g.wb f.d false ⟨if f.ty.is16x2 then cls 0 + 65536 * cls 16 else cls 0, (s.rd l f.ty f.a).poi⟩)

/-- R206: the hardware only ever sets a flag: no FP word clears a bit of a lane's FPL, and a lane that is not active keeps it. -/
def Obligations.FlagsOnlySet : Prop :=
  ∀ (i : Instr) (p : Pred) (f : VF) (n : Nat) (fn : Fmt → FpEnv → List Machine.Num → FpR) (s t : State) (l : Nat), fpRow i = some (p, f, n, fn) →
    s.Runs p (s.opsOk (withRegs f.ty.regs (f.d :: srcsOf f n))) → exec i s = .next t →
    (t.g.lane l).fpl &&& (s.g.lane l).fpl = (s.g.lane l).fpl ∧
    (l ∉ s.g.lanesOf (s.allowed p) → (t.g.lane l).fpl = (s.g.lane l).fpl)

/-! ## Conversions -/

namespace Sys2Proof.Claims
open Sys2Proof.Machine

/-- The source elements that a conversion to a packed type joins, or the one that it reads (R297). -/
def cvtSources (f : VF) (a b : Nat) : List Nat :=
  if f.ty.is16x2 && !(srcTy f).is16x2 then [a, b] else if f.ty.is16x2 then elems (srcTy f) a else [pickElem f (srcTy f) a]

end Sys2Proof.Claims

/-- R296, R297: FCVT, FTOI and ITOF deliver each element through SAT of the destination, raising its flags; the source of e1 is B
where a scalar type fills a packed one. -/
def Obligations.Conversions : Prop :=
  ∀ (p : Pred) (f : VF) (s : State),
    let t := srcTy f
    (let two := f.ty.is16x2 && !t.is16x2
     s.Runs p (s.opsOk ([(f.d, f.ty.regs), (f.a, t.regs)] ++ if two then [(f.b, t.regs)] else [])) →
      exec (.fcvt p f) s = lanesOut s p fun l x =>
        let env := cvtEnv x.fpl f.rmo
        let b : Val := if two then s.rd l t f.b else {}
        let rs := (cvtSources f (s.rd l t f.a).n b.n).map fun n => satNum (Ty.fmt f.ty) env (opnd (Ty.fmt t) env n)
        x.putFp s.g.wb f.d f.ty.is64 (joinRes f.ty rs) ((s.rd l t f.a).poi || b.poi)) ∧
    (s.Runs p (s.opsOk [(f.d, f.ty.regs), (f.a, t.regs)]) →
      exec (.ftoi p f) s = lanesOut s p fun l x =>
        let env := cvtEnv x.fpl f.rmo
        x.putFp s.g.wb f.d f.ty.is64 (satInt f.ty.w f.ty.isI env.rm (opnd (Ty.fmt t) env (pickElem f t (s.rd l t f.a).n))) (s.rd l t f.a).poi) ∧
    (s.Runs p (s.opsOk ([(f.d, f.ty.regs), (f.a, t.regs)] ++ if f.ty.is16x2 then [(f.b, t.regs)] else [])) →
      exec (.itof p f) s = lanesOut s p fun l x =>
        let env := cvtEnv x.fpl f.rmo
        let b : Val := if f.ty.is16x2 then s.rd l t f.b else {}
        let rs := ((s.rd l t f.a).n :: if f.ty.is16x2 then [b.n] else []).map fun n => satNum (Ty.fmt f.ty) env (ofInt (intOf t n))
        x.putFp s.g.wb f.d f.ty.is64 (joinRes f.ty rs) ((s.rd l t f.a).poi || b.poi))

/-- R298 to R301: PACK8 and UNPK8; QNT and DEQ where no lane's scale word is refused, and with the refused lanes trapping. -/
def Obligations.PackedConversions : Prop :=
  ∀ (p : Pred) (f : VF) (s : State),
    (s.Runs p (s.opsOk (withRegs 1 [f.d, f.a, f.b])) →
      exec (.pack8 p f) s = lanesOut s p (fun l x =>
        let env := cvtEnv x.fpl f.rmo
        let a := s.rd l .f32 f.a
        let b := s.rd l .f32 f.b
        let d := s.rd l .b32 f.d
        let ra := satNum (Ty.fmt f.ty) env (opnd fp32 env a.n)
        let rb := satNum (Ty.fmt f.ty) env (opnd fp32 env b.n)
        x.putFp s.g.wb f.d false ⟨putElem 8 (putElem 8 d.n (2 * (f.m % 2)) ra.bits) (2 * (f.m % 2) + 1) rb.bits, ra.fl ||| rb.fl⟩
          (a.poi || b.poi || d.poi)) ∧
      (let fails := (eff s p).scaleFails f (s.allowed p) [f.d, f.a, f.b]
       exec (.qnt p f) s = trapped
        ((eff s p).modG fun g => g.modLanes ((g.lanesOf (s.allowed p)).filter fun l => fails.all fun x => x.1 != l) fun l x =>
          let env := cvtEnv x.fpl f.rmo
          let a := s.rd l .f32 f.a
          let b := s.rd l .b32 f.b
          let d := s.rd l .b32 f.d
          let r := quantise f.ty env (opnd fp32 env a.n) (opnd fp16 env (b.n % 65536)) (b.n / 65536 % 256)
          x.putFp s.g.wb f.d false ⟨putElem (aiWidth f.ty) d.n f.m r.1, r.2⟩ (a.poi || b.poi || d.poi)) fails) ∧
      (let fails := (eff s p).scaleFails f (s.allowed p) [f.a, f.b]
       exec (.deq p f) s = trapped
        ((eff s p).modG fun g => g.modLanes ((g.lanesOf (s.allowed p)).filter fun l => fails.all fun x => x.1 != l) fun l x =>
          let env := cvtEnv x.fpl f.rmo
          let a := s.rd l .b32 f.a
          let b := s.rd l .b32 f.b
          let q : Int := (bitsAt a.n (aiWidth f.ty * f.m) (aiWidth f.ty) : Nat) - ((b.n / 65536 % 256 : Nat) : Int)
          x.putFp s.g.wb f.d false (fmul fp32 env (opnd fp16 env (b.n % 65536)) (ofInt q)) (a.poi || b.poi)) fails)) ∧
    (s.Runs p (s.opsOk (withRegs 1 [f.d, f.a])) →
      exec (.unpk8 p f) s = lanesOut s p fun l x =>
        let env := cvtEnv x.fpl f.rmo
        let a := s.rd l f.ty f.a
        x.putFp s.g.wb f.d false (deliverNum fp32 { env with ftz := false } (opnd (Ty.fmt f.ty) env (bitsAt a.n (8 * (f.m % 4)) 8))) a.poi)

/-! ## Between lanes -/

namespace Sys2Proof.Claims
open Sys2Proof.Machine

/-- The words that give a lane another lane's A (R303): predicate, fields, the operands read in the lane itself, and the lane that a
lane reads, or none where it takes C. -/
def moveRow (s : State) : Instr → Option (Pred × VF × List Opnd × (Nat → Option Nat))
  | .bcast p f => some (p, f, [], fun _ => some ((s.rd 0 .n32 f.b).n % s.g.gw))
  | .shfl p f => some (p, f, [f.b], fun l => some ((s.rd l .n32 f.b).n % s.g.gw))
  | .shup p f => some (p, f, [], fun l => if (s.rd l .n32 f.b).n ≤ l then some (l - (s.rd l .n32 f.b).n) else none)
  | .shdn p f => some (p, f, [], fun l => if l + (s.rd l .n32 f.b).n < s.g.gw then some (l + (s.rd l .n32 f.b).n) else none)
  | _ => none

/-- Node i of level a of the tree of R219 over the leaves of a group. -/
def node (s : State) (f : VF) (act : Mask) : Nat → Nat → Nat
  | 0, i => s.leaf f act i
  | a + 1, i => (combine (s.foldEnv f act) (foldCode f) f.ty (node s f act a (2 * i)) (node s f act a (2 * i + 1))).bits

end Sys2Proof.Claims

/-- R302, R303: BCAST, SHFL, SHUP and SHDN give each active lane A of the lane it names, or its own C, read before any write; BCAST
writes an s register once. -/
def Sys2Proof.Claims.laneMovesHold : Prop :=
  (∀ (i : Instr) (p : Pred) (f : VF) (own : List Opnd) (src : Nat → Option Nat) (s : State), moveRow s i = some (p, f, own, src) →
    laneDest f.d = true →
    s.Runs p (fun l => s.g.opOk l f.ty.regs f.d && s.opsOk (withRegs 1 own) l
      && (match src l with | some j => s.g.opOk j f.ty.regs f.a | none => s.g.opOk l f.ty.regs f.c)) →
    exec i s = lanesOut s p fun l x =>
      let v := match src l with | some j => s.rd j f.ty f.a | none => s.rd l f.ty f.c
      x.putVec s.g.wb f.d f.ty.is64 ⟨v.n, v.poi || (s.rd l .n32 f.b).poi⟩) ∧
  (∀ (p : Pred) (f : VF) (k : Fin 64) (s : State), f.d = .s k →
    let j := (s.rd 0 .n32 f.b).n % s.g.gw
    s.Runs p (fun _ => s.g.opOk j f.ty.regs f.a) →
    exec (.bcast p f) s = groupOut s p fun g => g.putS k ⟨(s.rd j f.ty f.a).n, (s.rd j f.ty f.a).poi || (s.rd 0 .n32 f.b).poi⟩)

/-- R304: BALLOT and ELECT write a whole mask once. -/
def Sys2Proof.Claims.laneVotesHold : Prop :=
  ∀ (p : Pred) (f : VF) (s : State),
    let ls := s.g.lanesOf (s.allowed p)
    (s.Runs p (s.opsOk [(f.a, f.ty.regs)]) →
      exec (.ballot p f) s = groupOut s p fun g =>
        g.putWhole f.d (maskOf (ls.filter fun l => (s.rd l f.ty f.a).n != 0)) (ls.any fun l => (s.rd l f.ty f.a).poi)) ∧
    (∀ lo hi, ls.head? = some lo → ls.getLast? = some hi → s.Runs p (fun _ => true) →
      exec (.elect p f) s = groupOut s p fun g => g.putWhole f.d (bitMask (if f.m = 1 then hi else lo)) false)

/-- Lanes that read other lanes, and votes. -/
def Obligations.LaneMovesAndVotes : Prop := laneMovesHold ∧ laneVotesHold

/-- R219, R220, R305, R306: REDUX delivers the root of the fixed pairwise tree over the group's current width to every active lane,
or once to s, and SCAN each lane's prefix; the flags of every combine go to every active lane whose result is not poisoned. That
REDUX to s raises its flags in every active lane, and that every node goes by the FPL of the lowest active lane, is the model's reading (log
entry 30), as is that SCAN takes an RMO under fadd (log entry 103). -/
def Obligations.LaneTrees : Prop :=
  ∀ (p : Pred) (f : VF) (s : State), (∃ k, 1 ≤ k ∧ k ≤ 6 ∧ s.g.gw = 2 ^ k) →
    let act := s.allowed p
    let ls := s.g.lanesOf act
    let fl := flagsOf (s.foldTree f act)
    (let root := node s f act (Nat.log2 s.g.gw) 0
     let poi := ls.any fun l => (s.rd l f.ty f.a).poi
     (laneDest f.d = true → s.Runs p (s.opsOk (withRegs f.ty.regs [f.d, f.a])) →
       exec (.redux p f) s = lanesOut s p fun _ x => (x.putVec s.g.wb f.d f.ty.is64 ⟨root, poi⟩).raise (if poi then 0 else fl)) ∧
     (∀ k, f.d = .s k → s.Runs p (s.opsOk (withRegs f.ty.regs [f.a])) →
       exec (.redux p f) s = groupOut s p fun g =>
         (g.modLanes ls fun _ x => x.raise (if poi then 0 else fl)).putS k ⟨sExtend f.ty root, poi⟩)) ∧
    (let n (l : Nat) : Nat := if f.m / 16 = 1 then l else l + 1
     let res (l : Nat) : FpR :=
       if n l = 0 then ⟨redIdentity (foldCode f) f.ty, 0⟩ else combineNodes (s.foldEnv f act) (foldCode f) f.ty (prefixNodes (s.foldTree f act) (n l))
     let poi (l : Nat) : Bool := ls.any fun j => j < n l && (s.rd j f.ty f.a).poi
     let all := ls.foldl (fun a l => a ||| (res l).fl) fl
     s.Runs p (s.opsOk (withRegs f.ty.regs [f.d, f.a])) →
       exec (.scan p f) s = lanesOut s p fun l x =>
         (x.putVec s.g.wb f.d f.ty.is64 ⟨(res l).bits, poi l⟩).raise (if poi l then 0 else all))

/-! ## What register words leave alone -/

namespace Sys2Proof.Claims
open Sys2Proof.Machine

/-- The words whose effect is on the lanes of their group alone when D is v or k: predicate, destination with its registers, and the
other operands of step 7. -/
def laneWord : Instr → Option (Pred × Opnd × Nat × List (Opnd × Nat))
  | .cmp p f => some (p, f.d, 1, withRegs f.ty.regs [f.a, f.b])
  | .cmpi p f => some (p, f.d, 1, [(f.a, 1)])
  | .sel p f => some (p, f.d, f.ty.regs, withRegs f.ty.regs [f.a, f.b])
  | .movi p f => some (p, f.d, 1, [])
  | .addi p f => some (p, f.d, 1, [(f.a, 1)])
  | .andi p f => some (p, f.d, 1, [(f.a, 1)])
  | .ori p f => some (p, f.d, 1, [(f.a, 1)])
  | .xori p f => some (p, f.d, 1, [(f.a, 1)])
  | .lea p f => some (p, f.d, 2, [(f.a, 1), (f.b, 1)])
  | .mpopc p f => some (p, f.d, 1, [])
  | .mfirst p f => some (p, f.d, 1, [])
  | .clk p f => some (p, f.d, 2, [])
  | .fcmp p f => some (p, f.d, 1, withRegs f.ty.regs [f.a, f.b])
  | .fclass p f => some (p, f.d, 1, [(f.a, f.ty.regs)])
  | .ftoi p f => some (p, f.d, f.ty.regs, [(f.a, (srcTy f).regs)])
  | .pack8 p f => some (p, f.d, 1, withRegs 1 [f.a, f.b])
  | .unpk8 p f => some (p, f.d, 1, withRegs 1 [f.a])
  | i => match intRow i, fpRow i with
    | some r, _ => some (r.1, r.2.1.d, r.2.1.ty.regs, withRegs r.2.1.ty.regs (srcsOf r.2.1 r.2.2.1))
    | _, some r => some (r.1, r.2.1.d, r.2.1.ty.regs, withRegs r.2.1.ty.regs (srcsOf r.2.1 r.2.2.1))
    | _, _ => none

/-- The parts of a group that no register word with a v or k destination changes. -/
def sameGroup (g h : Grp) : Prop :=
  h.s = g.s ∧ h.m = g.m ∧ h.a = g.a ∧ h.z = g.z ∧ h.flags = g.flags ∧ h.hbank = g.hbank ∧ h.handler = g.handler ∧ h.frames = g.frames ∧
  h.wb = g.wb ∧ h.gang = g.gang ∧ h.tape = g.tape ∧ h.guard = g.guard ∧ h.phase = g.phase
/-- The parts of a lane that no register word changes. -/
def sameLane (x y : Lane) : Prop :=
  y.bb = x.bb ∧ y.hdr = x.hdr ∧ y.reach = x.reach ∧ y.st = x.st ∧ y.wait = x.wait ∧ y.ctr = x.ctr ∧ y.wsends = x.wsends ∧ y.samples = x.samples

end Sys2Proof.Claims

/-- The frame of the register words with a v or k destination (R204, R248): when one runs, memory with its poison, the package, the
cores, the grids, the other groups, and the group's own s, m, a and z registers, flags, frames and lists stay as they were; in each
lane every register outside the destination, and the lane's state, draw counter and block, stay as they were, and in a lane that is
not active every register does. The PCs, the poison table, the retired count, the context's counters and the cluster's energy account may change. -/
def Obligations.RegisterWordFrame : Prop :=
  ∀ (i : Instr) (p : Pred) (d : Opnd) (n : Nat) (srcs : List (Opnd × Nat)) (s t : State), laneWord i = some (p, d, n, srcs) →
    laneDest d = true → s.Runs p (s.opsOk ((d, n) :: srcs)) → exec i s = .next t →
    t.mem = s.mem ∧ t.memPoi = s.memPoi ∧ t.pkg = s.pkg ∧ t.cores = s.cores ∧ t.grids = s.grids ∧
    (∀ k, k ≠ s.foc.grp → t.grpAt k = s.grpAt k) ∧ sameGroup s.g t.g ∧
    (∀ l, sameLane (s.g.lane l) (t.g.lane l)) ∧
    (∀ l j, (∀ r, d = .v r → j < s.g.wb + r.val ∨ s.g.wb + r.val + n ≤ j) → bankGet (t.g.lane l).v {} j = bankGet (s.g.lane l).v {} j) ∧
    (∀ l j, (∀ r, d = .k r → j < r.val ∨ r.val + n ≤ j) → bankGet (t.g.lane l).k {} j = bankGet (s.g.lane l).k {} j) ∧
    (∀ l, l ∉ s.g.lanesOf (s.allowed p) → (t.g.lane l).v = (s.g.lane l).v ∧ (t.g.lane l).k = (s.g.lane l).k ∧
      (t.g.lane l).y0 = (s.g.lane l).y0 ∧ (t.g.lane l).y1 = (s.g.lane l).y1 ∧ (t.g.lane l).fpl = (s.g.lane l).fpl)

/-! ## Control transfer -/

namespace Sys2Proof.Claims
open Sys2Proof.Machine

/-- A transfer of some lanes to a target that they reach as a header of KIND 00 (R187, R228). -/
def moved (u : State) (act : Mask) (t : W64) : State :=
  u.modG fun g => g.modLanes (g.lanesOf act) fun _ x => { x with pc := t, reach := .header .ord }
/-- What an issue answers when its group is held at the word, after what it did to the state u (R114). -/
def stalled (s u : State) (st : Stall) : Out :=
  .next (s.unmet (({ u with accounts := s.accounts, debited := s.debited }.modT fun t => { t with ptabs := s.t.ptabs }).stallAt st))
/-- The handler at its target. -/
def movedH (u : State) (t : W64) : State := u.modG fun g => { g with handler := g.handler.map fun h => { h with pc := t, reach := .header .ord } }
/-- The target of a branch, from the VA of the branch and OFS in words (R235). -/
def targetOf (f : BF) (s : State) : W64 := s.g.iss.pc + 8 * f.ofs.signExtend 64

/-- A branch that is taken: the lanes move where the target is a header of KIND 00 or cannot be read, and trap with Illegal Header
where it is another word (R240 step 2, R410). -/
def takesBranch (i : Instr) (p : Pred) (t : W64) (s : State) : Prop :=
  (∀ u k, (eff s p).target t = (u, k) → k.ok = true → exec i s = retired (moved u (s.allowed p) t)) ∧
  (∀ u, (eff s p).target t = (u, .bad) → exec i s = trapped u (failAll u.g (s.allowed p) .illHdr))

end Sys2Proof.Claims

/-- R187, R252, R253: NOP changes nothing but the PC; BRA moves its active lanes to its target; BRU does so where all 64 bits of its s
register pass its test, and falls through elsewhere; a poisoned condition traps. -/
def Sys2Proof.Claims.uniformBranchesHold : Prop :=
  (∀ (p : Pred) (f : VF) (s : State),
    (s.Runs p (fun _ => true) → exec (.nop p f) s = retired (eff s p)) ∧ (s.RunsH p → exec (.nop p f) s = s.handlerEnd s.atHandler)) ∧
  (∀ (p : Pred) (f : BF) (s : State),
    let c := s.g.sVal f.c.sIdx
    let go : Bool := if f.n = 0 then c.n == 0 else c.n != 0
    (s.Runs p (fun _ => true) →
      takesBranch (.bra p f) p (targetOf f s) s ∧
      (c.poi = false → go = true → takesBranch (.bru p f) p (targetOf f s) s) ∧
      (c.poi = false → go = false → exec (.bru p f) s = retired (eff s p)) ∧
      (c.poi = true → exec (.bru p f) s = trapped (eff s p) (failAll s.g (s.allowed p) (.poison f.c)))) ∧
    (s.RunsH p → ∀ u k, s.atHandler.target (targetOf f s) = (u, k) → k.ok = true →
      exec (.bra p f) s = s.handlerEnd (movedH u (targetOf f s)) ∧
      (c.poi = false → go = true → exec (.bru p f) s = s.handlerEnd (movedH u (targetOf f s))) ∧
      (c.poi = false → go = false → exec (.bru p f) s = s.handlerEnd s.atHandler)))

/-- R253: BRX moves each active lane to its own target; lanes with a poisoned target trap with Poison Consumed, and those whose target
is no header of KIND 00 with Illegal Header. -/
def Sys2Proof.Claims.laneBranchesHold : Prop :=
  ∀ (p : Pred) (f : BF) (s u : State) (xs : List (Nat × W64 × Target)), s.Runs p (s.opsOk [(f.c, 2)]) →
    let ls := s.g.lanesOf (s.allowed p)
    let poi (l : Nat) : Bool := (s.rd l .b64 f.c).poi
    (eff s p).lookAll ((ls.filter fun l => !poi l).map fun l => (l, BitVec.ofNat 64 (s.rd l .b64 f.c).n)) = (u, xs, []) →
    let t := (xs.filter fun x => x.2.2.ok).foldl (fun u x => u.jump (bitMask x.1) x.2.1) u
    let fails := (ls.filter poi).map (fun l => (l, Fail.poison f.c)) ++ (xs.filter fun x => !x.2.2.ok).map fun x => (x.1, Fail.illHdr)
    exec (.brx p f) s = trapped t fails ∧ (fails = [] → exec (.brx p f) s = retired t)

/-- Branches. -/
def Obligations.Branches : Prop := uniformBranchesHold ∧ laneBranchesHold

namespace Sys2Proof.Claims
open Sys2Proof.Machine

/-- The call of R50 from the state u, with the target t and LIVE of the return-site header, once its frame and its spilled words are
mapped to the parts ps in v. -/
def called (act : Mask) (n live : Nat) (t : W64) (u v : State) (ps : List Part) : State :=
  let g := u.g
  let fits : Bool := g.wb + n + g.win ≤ g.budget
  let S := if fits then 0 else min live n
  let words := (List.range S).flatMap fun i => g.laneIdx.map fun l => g.vReg l i
  let fr : Frame := { off := g.spTop, ret := g.iss.pc + 8, spilled := !fits, s := S, n, wb := g.wb, poi := words.map (·.poi) }
  let bytes := fr.header ++ words.flatMap fun r => leBytes 4 r.val.toNat
  let w := v.writeParts .spill act ps ⟨bytes, []⟩
  let h := if fits then { w.g with wb := w.g.wb + n } else w.g.moveWindow n 0 (g.win - n)
  ((w.setG { h with frames := fr :: h.frames, spTop := h.spTop + bytes.length }).renameCall n).jump act t

/-- Checks 2, 3, 5, 6 and 7 of R254 pass for a call of slide n, with the pages of its frame in v. -/
def callPasses (act : Mask) (n live : Nat) (u v : State) (ps : List Part) : Prop :=
  let g := u.g
  let S := if g.wb + n + g.win ≤ g.budget then 0 else min live n
  let len := 16 + 4 * S * g.gw
  g.converged act = true ∧ n ≤ g.win ∧ u.spillPoisoned S = none ∧ g.spTop + len ≤ g.spillLen ∧
    u.mapRun .spill (u.spillBase + BitVec.ofNat 64 g.spTop) len = (v, ps, [])

end Sys2Proof.Claims

/-- R50, R254: a CALL or CALLX whose checks pass pushes its frame with the return address, slides the window or spills, and sets the
active lanes to the target, which every active lane of a CALLX shares. -/
def Sys2Proof.Claims.callsHold : Prop :=
  ∀ (p : Pred) (f : BF) (s u v w : State) (word : W64) (h : Header) (ps : List Part),
    (eff s p).fetch (s.g.iss.pc + 8) s.g.iss.set = (u, .word word) → decodeHeader word = some h → h.kind = .ord →
    (∀ k, s.Runs p (fun _ => true) → u.target (targetOf f s) = (v, k) → k.ok = true → callPasses (s.allowed p) f.n.toNat h.live.val v w ps →
      unheld s (called (s.allowed p) f.n.toNat h.live.val (targetOf f s) v w ps) →
      exec (.call p f) s = retired (called (s.allowed p) f.n.toNat h.live.val (targetOf f s) v w ps)) ∧
    (∀ t xs, s.Runs p (s.opsOk [(f.c, 2)]) →
      let ls := s.g.lanesOf (s.allowed p)
      (∀ l ∈ ls, s.rd l .b64 f.c = ⟨t.toNat, false⟩) →
      u.lookAll (ls.map fun l => (l, t)) = (v, xs, []) → (∀ x ∈ xs, x.2.1 = t ∧ x.2.2.ok = true) → xs ≠ [] →
      callPasses (s.allowed p) f.n.toNat h.live.val v w ps →
      unheld s (called (s.allowed p) f.n.toNat h.live.val t v w ps) →
      exec (.callx p f) s = retired (called (s.allowed p) f.n.toNat h.live.val t v w ps))

/-- R51, R255: RET with a frame, in a converged group, pops it: the window base or the moved window is restored, the spilled registers
are filled from the frame's words, and the active lanes stand at its return address. Without a frame it is an Illegal Operand of the
issue set. -/
def Sys2Proof.Claims.returnsHold : Prop :=
  ∀ (p : Pred) (f : VF) (s : State), s.Runs p (fun _ => true) →
    (s.g.frames = [] → exec (.ret p f) s = trapped (eff s p) (failAll s.g s.g.iss.set .opndLate)) ∧
    (∀ fr rest u v k ps r, s.g.frames = fr :: rest → (eff s p).target fr.ret = (u, k) → k.ok = true → u.g.converged (s.allowed p) = true →
      u.mapRun .fill (u.spillBase + BitVec.ofNat 64 (fr.off + 16)) (4 * (fr.s * u.g.gw)) = (v, ps, []) →
      v.readParts .fill 7 (s.allowed p) ps = r → r.2.waits = [] → r.2.got.bad = false → unheld s r.1 →
      let w := r.1.renameRet fr.n
      let g := if fr.spilled then w.g.moveWindow 0 fr.n (w.g.win - fr.n) else { w.g with wb := fr.wb }
      let word (j : Nat) : Reg := ⟨BitVec.ofNat 32 (ofLe ((r.2.got.data.drop (4 * j)).take 4)), fr.poi.getD j false⟩
      let g := g.modLanes g.laneIdx fun l x => x.putRegs g.wb (.v 0) (tab fr.s fun i => word (i * u.g.gw + l))
      exec (.ret p f) s = retired ((w.setG { g with frames := rest, spTop := fr.off }).jump (s.allowed p) fr.ret))

/-- Calls and returns. -/
def Obligations.CallsAndReturns : Prop := callsHold ∧ returnsHold

/-- R186, R256, R257, R259: EXIT moves its active lanes to Exited, which leave the poison table; YIELD has the quarter pass over the
group; WAITF retires where every flag it names is clear. -/
def Sys2Proof.Claims.exitYieldWaitHold : Prop :=
  (∀ (p : Pred) (f : VF) (s : State), s.Runs p (fun _ => true) →
    exec (.exit p f) s =
      retired (((eff s p).ptClear (fun _ => true) (s.allowed p)).modG fun g =>
        g.modLanes (g.lanesOf (s.allowed p)) fun _ x => { x with st := .exited, wait := .none }) ∧
    exec (.yield p f) s = groupOut s p fun g => { g with yielded := true, yieldAge := 0 }) ∧
  (∀ (p : Pred) (f : IF) (s : State), s.Runs p (fun _ => true) →
    ((∀ i, i < 12 → f.imm.getLsbD i = true → s.g.flag i = 0) → exec (.waitf p f) s = retired (eff s p)) ∧
    ((∃ i, i < 12 ∧ f.imm.getLsbD i = true ∧ s.g.flag i ≠ 0) → (eff s p).flagStuck (f.imm.setWidth 12) = false → exec (.waitf p f) s = .next s))

/-- R258, R439: BKPT acts as NOP unless the context enables breakpoint stops, where it stops the group before it retires; the BKPT at
which the group was stopped acts as NOP when it issues again. -/
def Sys2Proof.Claims.breakpointsHold : Prop :=
  ∀ (p : Pred) (f : IF) (s : State), s.Runs p (fun _ => true) →
    let here := some (s.g.iss.pc, s.g.retired)
    ((s.c.dbgBken = false ∨ s.g.stepOver = here) → exec (.bkpt p f) s = groupOut s p fun g => { g with stepOver := none }) ∧
    (s.c.dbgBken = true → s.g.stepOver ≠ here → exec (.bkpt p f) s = stalled s ((eff s p).stopGroup s.foc.grp (some f.imm)) .none)

/-- The other CTL words. -/
def Obligations.LaneControl : Prop := exitYieldWaitHold ∧ breakpointsHold

/-! ## Traps -/

/-- R258, R409, R412, R413: TRAP enters the handler at TRAPV with every active lane Trapped at the word after it, the Software Trap
cause and IMM32 in the trap state, a fresh budget, and the retired count as it was where no lane falls through. -/
def Obligations.SoftwareTrap : Prop :=
  ∀ (p : Pred) (f : IF) (s : State), s.Runs p (fun _ => true) → s.gr.lrec.trapv ≠ 0 →
    ∃ t, exec (.trap p f) s = .next t ∧
      t.g.handler = some { pc := s.gr.lrec.trapv, cause := 0x0008, impr := false, tmask := maskOf (s.g.lanesOf (s.allowed p)), tpc := s.g.iss.pc,
                           tword := s.g.iss.word, tinfo := BitVec.ofNat 64 f.imm.toNat, tretired := s.g.retired } ∧
      t.g.ptsel = 0 ∧
      (∀ l ∈ s.g.lanesOf (s.allowed p), (t.g.lane l).st = .trapped ∧ (t.g.lane l).pc = s.g.iss.pc + 8) ∧
      t.mem = s.mem ∧ (s.g.iss.set &&& ~~~(maskOf (s.g.lanesOf (s.allowed p))) = 0 → t.g.retired = s.g.retired)

/-- R409, R411, R412: taking a trap: the lanes T become Trapped, the trap state takes the cause, T, the word with its VA and the retired
count, and the handler is to start at TRAPV, under the header of KIND 01 that R228 asks for, with 65,536 instructions allowed. No
register, flag or frame of the group and nothing of memory changes. -/
def Obligations.TrapEntry : Prop :=
  ∀ (s : State) (T : Mask) (fl : Fail) (tpc tword tret : W64), s.gr.lrec.trapv ≠ 0 →
    let t := s.trapEntry T fl tpc tword tret
    (∃ h, t.g.handler = some h ∧ h.pc = s.gr.lrec.trapv ∧ h.reach = .header .trap ∧ h.budget = 65536 ∧ h.cause = fl.cause ∧ h.tmask = T ∧
      h.tpc = tpc ∧ h.tword = tword ∧ h.tretired = tret) ∧
    (∀ l ∈ s.g.lanesOf T, (t.g.lane l).st = .trapped) ∧
    (∀ l, (t.g.lane l).pc = (s.g.lane l).pc ∧ (t.g.lane l).v = (s.g.lane l).v ∧ (t.g.lane l).k = (s.g.lane l).k ∧ (t.g.lane l).fpl = (s.g.lane l).fpl ∧
      (l ∉ s.g.lanesOf T → (t.g.lane l).st = (s.g.lane l).st)) ∧
    t.g.s = s.g.s ∧ t.g.m = s.g.m ∧ t.g.a = s.g.a ∧ t.g.z = s.g.z ∧ t.g.hbank = s.g.hbank ∧ t.g.flags = s.g.flags ∧ t.g.frames = s.g.frames ∧
    t.mem = s.mem ∧ (∀ k, k ≠ s.foc.grp → t.grpAt k = s.grpAt k)

/-- R409: where lanes fail at an issue, those that fail with the cause of the lowest failing lane trap at the word, the other failing
lanes stay Running at it, and the rest keep what the effect left them. -/
def Obligations.TrapLanes : Prop :=
  ∀ (s : State) (counted : Bool) (fails : List (Nat × Fail)) (l0 : Nat) (f0 : Fail), s.gr.lrec.trapv ≠ 0 →
    (l0, f0) ∈ fails → (fails.map (·.1)).Nodup → (∀ x ∈ fails, l0 ≤ x.1 ∧ x.1 < s.g.gw ∧ x.1 < 64 ∧ x.2.cause ≠ 0 ∧ x.2.skip = false) →
    let t := s.finish counted fails
    (∃ h, t.g.handler = some h ∧ h.cause = f0.cause ∧ h.tpc = s.g.iss.pc ∧ h.tword = s.g.iss.word ∧ h.tretired = s.g.retired) ∧
    (∀ x ∈ fails, (t.g.lane x.1).pc = s.g.iss.pc ∧
      (t.g.lane x.1).st = (if x.2.cause = f0.cause then .trapped else (s.g.lane x.1).st)) ∧
    (∀ l, l ∉ fails.map (·.1) → (t.g.lane l).pc = (s.g.lane l).pc ∧ (t.g.lane l).st = (s.g.lane l).st)

/-- R423, R409: a trap of a launch record that names no handler ends the grid with its cause, and no group of the grid issues again;
other grids keep theirs. -/
def Obligations.TrapWithoutHandler : Prop :=
  ∀ (s : State) (T : Mask) (fl : Fail) (tpc tword tret : W64), s.gr.lrec.trapv = 0 → s.gr.phase ≠ .ended → s.gr.phase ≠ .done →
    let t := s.trapEntry T fl tpc tword tret
    (t.gridAt s.foc.grid).phase = .ended ∧ (t.gridAt s.foc.grid).cause = BitVec.ofNat 16 fl.cause ∧
    (∀ k, k ≠ s.foc.grid → t.gridAt k = s.gridAt k) ∧
    (∀ k, (t.teamAt (t.grpAt k).team).grid = s.foc.grid → t.mayIssue k = false)

namespace Sys2Proof.Claims
open Sys2Proof.Machine

/-- The words that a handler may issue (R414), PRED and PN apart. -/
def handlerWord : Instr → Bool
  | .nop _ _ | .bra _ _ | .bru _ _ | .tret _ _ | .hexitWrite _ _ | .ptmaskWrite _ _ | .lget _ _ | .lput _ _ | .fence _ _ => true
  | .mand _ _ | .mor _ _ | .mxor _ _ | .mandn _ _ | .mmov _ _ | .mact _ _ => true
  | .mfsr _ f | .mtsr _ f => f.imm.toNat ≠ 0 && f.imm.toNat ≠ 0x10
  | .add _ f | .sub _ f | .mul _ f | .mulh _ f | .mad _ f | .and _ f | .or _ f | .xor _ f | .andn _ f | .shl _ f | .shr _ f | .sra _ f
  | .rot _ f | .min _ f | .max _ f | .absd _ f | .cmp _ f | .sel _ f | .popc _ f | .clz _ f | .brev _ f | .bfe _ f | .bfi _ f | .div _ f
  | .mpopc _ f | .mfirst _ f => f.d.isS
  | .mov _ f => f.d.isS || f.d.isZ
  | .movi _ f | .addi _ f | .andi _ f | .ori _ f | .xori _ f | .cmpi _ f => f.d.isS
  | .ld _ f | .atom _ f | .cas _ f | .casgt _ f | .casv _ f | .caspt _ f => f.d.isS
  | .st _ f => f.d.isS && f.sf == .none
  | _ => false

end Sys2Proof.Claims

/-- R414: a word that a handler may not issue, or one under a predicate, ends the grid with the Double Trap cause; so does any trap that
one of its words meets. -/
def Sys2Proof.Claims.handlerWordsHold : Prop :=
  (∀ (i : Instr) (q : Parts) (s : State), i.parts = some q → s.g.iss.handler = true →
    (handlerWord i = false ∨ q.pred.neg = true ∨ q.pred.m.val ≠ 0) → exec i s = .next (s.fatal 0x0100 0)) ∧
  (∀ (s u : State) (p : Pred) (chk : Nat → Bool) (op : State → Mask → Did) (x : Nat × Fail) (xs : List (Nat × Fail)),
    s.g.iss.handler = true → p.neg = false → p.m.val = 0 → chk 0 = true → op s.atHandler 0 = .done u (x :: xs) → unheld s u →
    s.perform true p chk op = .next (u.fatal 0x0100 0)) ∧
  (∀ (s : State) (p : Pred) (chk : Nat → Bool) (op : State → Mask → Did), s.g.iss.handler = true → chk 0 = false →
    s.perform true p chk op = .next (s.fatal 0x0100 0))

/-- R228, R240, R410, R414: the checks before the meaning of a handler's word. A word inside a block that steps 4 to 6 of R240 reject, a
header of the wrong KIND where a branch or a fall-through comes to one, and a fetch that fails, its record written, end the grid with
the Double Trap cause; a header of the wrong KIND at TRAPV ends it with the Illegal Header cause. -/
def Sys2Proof.Claims.handlerChecksHold : Prop :=
  ∀ (s : State) (h : Handler), s.g.handler = some h →
    let i : Issue := { pc := h.pc, bb := h.bb, hdr := h.hdr, set := 0, handler := true }
    (∀ u f, h.reach ≠ .patched → s.fetch h.pc 0 = (u, .flt f) →
      let v := u.setIss { i with word := 0 }
      v.recordRoom ≠ 0 →
      s.prepare = .spent ((v.recordAt v.foc.ctx v.foc.core (v.grpRec f.kind .fetch 7 u.handlerMask h.pc f.aux)).1.fatal 0x0100 0)) ∧
    (∀ u w f, h.reach = .inside → inBlock h.pc h.bb h.hdr = true → s.fetch h.pc 0 = (u, .word w) →
      let v := u.setIss { i with word := w }
      v.judge h.hdr w (h.pc.toNat == h.bb.toNat + 8 * blockLen h.hdr) = .error f → s.prepare = .spent (v.fatal 0x0100 0)) ∧
    (∀ u w k, (h.reach = .header k ∨ h.reach = .inside ∧ inBlock h.pc h.bb h.hdr = false ∧ k = .ord) → s.fetch h.pc 0 = (u, .word w) →
      (∀ x, decodeHeader w = some x → x.kind ≠ k) →
      s.prepare = .spent ((u.setIss { i with word := w }).fatal (if k = .ord then 0x0100 else 0x0003) 0))

/-- Traps in a handler. -/
def Obligations.DoubleTraps : Prop := handlerWordsHold ∧ handlerChecksHold

/-- R415: a handler's instruction that retires lowers TBUDGET by one and leaves the retired count; one that would retire with TBUDGET
at 0 ends the grid with the Handler Overrun cause, with none of its effect. A team whose group runs a handler is never pre-empted, and a
group that runs one issues before every other group of its quarter. -/
def Obligations.HandlerBudget : Prop :=
  (∀ (s : State) (h : Handler), s.g.handler = some h →
    ∃ h', s.retireH.g.handler = some h' ∧ h'.budget = h.budget - 1 ∧ h'.pc = h.pc ∧ s.retireH.g.retired = s.g.retired) ∧
  (∀ (s u : State) (p : Pred) (chk : Nat → Bool) (op : State → Mask → Did) (h : Handler),
    s.g.iss.handler = true → p.neg = false → p.m.val = 0 → chk 0 = true → s.g.handler = some h → h.budget = 0 → op s.atHandler 0 = .done u [] → unheld s u →
    s.perform true p chk op = .next (s.fatal 0x0101 0)) ∧
  (∀ (s : State) (grp : Nat) (g : Grp) (team : Nat), (grp, g) ∈ s.groups → g.phase = .running → g.handler.isSome = true → g.team ∈ s.setOf team →
    s.canEvict team = false) ∧
  (∀ (s : State) (a b : Nat), (s.grpAt a).handler.isSome = true → (s.grpAt b).handler = none → s.better a b = a ∧ s.better b a = a)

/-- R258, R416: TRET ends the handler; each Trapped lane of TMASK runs again at its PC, and a lane whose PC or block base the handler
wrote loses the y entries that the handler did not write after that. Elsewhere TRET is an Illegal Instruction in the active lanes, which
lanes those are being the model's reading (log entry 39). -/
def Obligations.TrapReturn : Prop :=
  ∀ (p : Pred) (f : VF) (s : State),
    (s.RunsH p → s.budgetOver = true → exec (.tret p f) s = .next (s.fatal 0x0101 0)) ∧
    (∀ h, s.RunsH p → s.budgetOver = false → s.g.handler = some h →
      ∃ t, exec (.tret p f) s = .next t ∧ t.g.handler = none ∧ t.mem = s.mem ∧ t.g.retired = s.g.retired ∧
        (∀ l, l < s.g.gw → (t.g.lane l).pc = (s.g.lane l).pc ∧ (t.g.lane l).bb = (s.g.lane l).bb ∧ (t.g.lane l).v = (s.g.lane l).v ∧
          (t.g.lane l).st = (if h.tmask.getLsbD l = true ∧ (s.g.lane l).st = .trapped then .running else (s.g.lane l).st) ∧
          ((t.g.lane l).y0.valid = ((s.g.lane l).y0.valid && (!h.patched.getLsbD l || h.y0set.getLsbD l))) ∧
          ((t.g.lane l).y1.valid = ((s.g.lane l).y1.valid && (!h.patched.getLsbD l || h.y1set.getLsbD l))))) ∧
    (s.Runs p (fun _ => true) → exec (.tret p f) s = trapped (eff s p) (failAll s.g (s.allowed p) { cause := 0x0001 }))

/-! ## The shape of groups -/

/-- R192, R193, R274: GSPLIT of a free, whole and flagless group makes its parts, each with its own lanes, copies of the group's s, a
and z registers, its own bits of m, clear flags and an empty stack in its own slice of the spill region. -/
def Sys2Proof.Claims.splitHold : Prop :=
  ∀ (p : Pred) (f : IF) (s : State) (q : Nat), s.Runs p (fun _ => true) → running s → q < f.imm.toNat → (∀ e ∈ s.groups, e.1 < s.nextId) →
    s.foc.grp < s.nextId → s.g.flagsClear = true → s.g.alive &&& ~~~(s.allowed p) = 0 → 8 ≤ s.g.gw / f.imm.toNat →
    s.g.factor * f.imm.toNat ≤ s.gr.lrec.split → s.g.frames = [] → s.g.gang = [] →
    ∃ t, exec (.gsplit p f) s = .next t ∧ t.g.phase = .split ∧ t.g.retired = s.g.retired + 1 ∧
      t.g.parts = tab f.imm.toNat (fun i => s.nextId + i) ∧
      (let x := t.grpAt (s.nextId + q)
       let w := s.g.gw / f.imm.toNat
       x.gw = w ∧ x.s = s.g.s ∧ x.a = s.g.a ∧ x.z = s.g.z ∧ x.flags = [] ∧ x.frames = [] ∧ x.wb = 0 ∧ x.gang = [] ∧ x.retired = s.g.retired + 1 ∧
       x.idx = s.g.idx ∧ x.phase = .running ∧ x.spillLen = s.g.spillLen / f.imm.toNat ∧
       (∀ l, l < w → (x.lane l).v = (s.g.lane (q * w + l)).v ∧ (x.lane l).fpl = (s.g.lane (q * w + l)).fpl) ∧
       (∀ i l, 0 < i → i < 8 → l < w → q * w + l < 64 → (x.mBits i).getLsbD l = (s.g.mBits i).getLsbD (q * w + l)))

/-- R194 to R196, R275, R276: GFUSE makes its active lanes wait and traps in a group that is no part; FUSION joins the parts when every
one has arrived and every flag is clear (R195; what R195 does not name of the fused group is log entry 34, and that a GFUSE counts at its issue log entry 113); GANG sets the list that its register spells, or clears it. -/
def Sys2Proof.Claims.fuseAndGangHold : Prop :=
  (∀ (p : Pred) (f : VF) (s : State), s.Runs p (fun _ => true) →
    (s.g.parent.isSome = true → s.g.frames = [] →
      exec (.gfuse p f) s = lanesOut s p fun _ x => { x with st := .waiting, wait := .gfuse }) ∧
    ((s.g.parent.isNone = true ∨ s.g.frames ≠ []) → exec (.gfuse p f) s = trapped (eff s p) (failAll s.g (s.allowed p) .opndLate)) ∧
    (f.m = 0 → exec (.gang p f) s = groupOut s p fun g => { g with gang := [] }) ∧
    (let v := s.g.sVal f.a.sIdx
     let ms := tab f.m fun i => bitsAt v.n (8 * i) 8
     f.m ≠ 0 → v.poi = false → s.gr.lrec.gw0 ≠ 8 → s.gr.lrec.gw0 ≠ 16 → s.g.parent = none → (∀ i ∈ ms, i < s.gr.lrec.ngroups) → ms.Nodup →
       s.g.idx ∈ ms → exec (.gang p f) s = groupOut s p fun g => { g with gang := ms })) ∧
  (∀ (k : Nat) (s : State), s.fusionReady k = true →
    ∃ t, exec (.fusion k) s = .next t ∧
      (k ∉ (s.grpAt k).parts →
        { t.grpAt k with image := [], logSeen := [], crossed := false } =
          { (s.grpAt k).fusedOf ((s.grpAt k).parts.map s.grpAt) with image := [], logSeen := [], crossed := false }) ∧
      (∀ j ∈ (s.grpAt k).parts, j ∈ s.groups.keys → (t.grpAt j).phase = .retired))

/-- Splits, fusions and gangs. -/
def Obligations.GroupShape : Prop := splitHold ∧ fuseAndGangHold

/-! ## Loads and stores -/

namespace Sys2Proof.Claims
open Sys2Proof.Machine

/-- The access of a load or store word. -/
def accessOf (f : MF) (acc : Acc) (kspace : Bool) : Access :=
  { acc, a := f.a, b := f.b, imm := f.imm.toInt * f.width.bytes, n := f.width.bytes, kspace, hint := if acc = .load then f.hint else .none }
/-- A release, where one is due, is complete: every earlier write of the core has performed at its home (R86). -/
abbrev drained (due : Bool) (u : State) (scope : Scope) : Prop := due = true → u.released scope = true
/-- The registers of the data operand for step 7. -/
def dataRegs (f : MF) : Nat := if f.d.isS then 1 else f.width.regs
/-- Every fate is a read or a touch of a guard granule. -/
def allRead (fs : List (Mask × Nat × Fate)) : Prop := ∀ x ∈ fs, (∃ bs, x.2.2 = .got bs) ∨ ∃ off, x.2.2 = .guard off
/-- Every fate is a place to write or a touch of a guard granule. -/
def allPlaced (fs : List (Mask × Nat × Fate)) : Prop := ∀ x ∈ fs, (∃ y, x.2.2 = .at' y) ∨ ∃ off, x.2.2 = .guard off
/-- What a load's read delivers: the bytes, or zeros for a guard granule (R30, R309). -/
def deliverFates (f : MF) (fs : List (Mask × Nat × Fate)) (g : Grp) : Grp :=
  fs.foldl (fun g x => match x.2.2 with
    | .got bs => g.deliver f.d x.1 bs
    | .guard _ => g.deliver f.d x.1 (List.replicate f.width.bytes 0)
    | _ => g) g

/-- A load whose accesses all pass their checks, that no lock holds up and that, under .sc, finds the core's earlier writes performed:
each lane's bytes are delivered, and the word retires (R80, R86, R308 to R313). -/
def loadCompletes (i : Instr) (p : Pred) (f : MF) (kspace : Bool) (s : State) : Prop :=
  ∀ u fs, s.Runs p (s.opsOk [(f.d, dataRegs f), (f.a, 1), (f.b, 1)]) →
    drained (f.ord == .sc) ((eff s p).beforeRead f.ord f.scope) f.scope → ((eff s p).beforeRead f.ord f.scope).fates (accessOf f .load kspace) f.width.code (fun _ _ => none) true
      (((eff s p).beforeRead f.ord f.scope).shares (s.allowed p) f.d.isS) = (u, fs) → allRead fs →
    let t := (((u.guardTouch .load f.width.code (guardsOf fs)).modG (deliverFates f fs)).sampledIf f.a .load).afterRead f.ord f.scope
    unheld s t → exec i s = retired t
/-- The same of an LD of a handler, which delivers to an s register (R414). -/
def handlerLoadCompletes (p : Pred) (f : MF) (s : State) : Prop :=
  ∀ u fs, s.RunsH p → f.d.isS = true → s.opsOk [(f.d, 1), (f.a, 1), (f.b, 1)] 0 = true →
    let b := s.atHandler.beforeRead f.ord f.scope
    drained (f.ord == .sc) b f.scope → b.fates (accessOf f .load false) f.width.code (fun _ _ => none) true (b.shares 0 true) = (u, fs) → allRead fs →
    let t := (((u.guardTouch .load f.width.code (guardsOf fs)).modG (deliverFates f fs)).sampledIf f.a .load).afterRead f.ord f.scope
    unheld s t → exec (.ld p f) s = s.handlerEnd t

/-- The operands of a store's data that are poisoned in a lane. -/
def dataPoison (f : MF) (u : State) (l : Nat) : Option Opnd := if (u.storeData l f.d f.width).2 then some f.d else none
/-- What a store does in the lanes that pass their checks: each lane's bytes at its place, in ascending order of the lanes, and the
digest of what it writes (R78, R446). -/
def storeFates (f : MF) (acc : Acc) (kspace : Bool) (tag : Option (Nat × Nat)) (fs : List (Mask × Nat × Fate)) (v : State) : State :=
  fs.foldl (fun s x => match x.2.2 with
    | .at' y =>
      let bs := (s.storeData x.2.1 f.d f.width).1
      let s := s.storeAt acc f.width.code x.1 y bs tag
      if acc = .zst then s else s.wrote (s.digAddr kspace y) bs
    | _ => s) v

/-- A store whose accesses all pass their checks, that no lock holds up, whose flag has room and whose release, if it is one, is
complete: its flag counts, each lane's bytes are stored at its place,
in ascending order of the lanes, and the word retires (R78, R130, R308 to R313). -/
def storeCompletes (i : Instr) (p : Pred) (f : MF) (acc : Acc) (kspace : Bool) (s : State) : Prop :=
  ∀ u fs, s.Runs p (s.opsOk [(f.d, dataRegs f), (f.a, 1), (f.b, 1)]) →
    (eff s p).fates (accessOf f acc kspace) f.width.code (dataPoison f) false ((eff s p).shares (s.allowed p) (f.d.isS || f.d.isZ)) = (u, fs) →
    allPlaced fs → fs ≠ [] → u.flagFull (u.sfNow f.sf) = false →
    drained (f.ord == .rel || f.ord == .ar || f.ord == .sc) (u.beforeWrite f.ord f.scope) f.scope →
    let v := ((u.beforeWrite f.ord f.scope).guardTouch acc f.width.code (guardsOf fs)).flagStart (u.sfNow f.sf)
    let t := (((storeFates f acc kspace v.2 fs v.1).flagEnd v.2).afterWrite f.ord f.scope).sampledIf f.a acc
    unheld s t → exec i s = retired t
/-- The same of an ST of a handler, which stores an s register and raises no flag (R414). -/
def handlerStoreCompletes (p : Pred) (f : MF) (s : State) : Prop :=
  ∀ u fs, s.RunsH p → f.d.isS = true → f.sf = .none → s.opsOk [(f.d, 1), (f.a, 1), (f.b, 1)] 0 = true →
    s.atHandler.fates (accessOf f .store false) f.width.code (dataPoison f) false (s.atHandler.shares 0 true) = (u, fs) →
    allPlaced fs → fs ≠ [] → drained (f.ord == .rel || f.ord == .ar || f.ord == .sc) (u.beforeWrite f.ord f.scope) f.scope →
    let v := (u.beforeWrite f.ord f.scope).guardTouch .store f.width.code (guardsOf fs)
    let t := ((storeFates f .store false none fs v).afterWrite f.ord f.scope).sampledIf f.a .store
    unheld s t → exec (.st p f) s = s.handlerEnd t

/-- The load and store words: predicate, fields, the kind of access, and whether the address is one of K space. -/
def loadRow : Instr → Option (Pred × MF × Bool)
  | .ld p f => some (p, f, false)
  | .lds p f => some (p, f, false)
  | .ldk p f => some (p, f, true)
  | _ => none
def storeRow : Instr → Option (Pred × MF × Acc × Bool)
  | .st p f => some (p, f, .store, false)
  | .sts p f => some (p, f, .store, false)
  | .stk p f => some (p, f, .store, true)
  | .zst p f => some (p, f, .zst, false)
  | _ => none

end Sys2Proof.Claims

namespace Sys2Proof.Claims
open Sys2Proof.Machine

/-- No access fails a check but its translation and range, and none waits for a peer. -/
def onlyFaults (fs : List (Mask × Nat × Fate)) : Prop := ∀ x ∈ fs, (∀ f, x.2.2 ≠ .fail f) ∧ ∀ id, x.2.2 ≠ .wait id
/-- The lanes whose access faults. -/
def faultLanes (fs : List (Mask × Nat × Fate)) : Mask := (fltsOf fs).foldl (fun m y => m ||| y.mask) 0

end Sys2Proof.Claims

/-- R37, R45, R418, R420: a load that meets faults writes their records, or stalls while they have no place; the lanes that do not fault take
their bytes, the faulting lanes' destinations are poisoned under a new entry of the poison table, and the load retires in every lane. Where
no entry is free, the faulting lanes trap with the Poison Table Full cause instead. -/
def Sys2Proof.Claims.loadFaultsHold : Prop :=
  ∀ (i : Instr) (p : Pred) (f : MF) (kspace : Bool) (s u : State) (fs : List (Mask × Nat × Fate)), loadRow i = some (p, f, kspace) →
    s.Runs p (s.opsOk [(f.d, dataRegs f), (f.a, 1), (f.b, 1)]) →
    let b := (eff s p).beforeRead f.ord f.scope
    drained (f.ord == .sc) b f.scope →
    b.fates (accessOf f .load kspace) f.width.code (fun _ _ => none) true (b.shares (s.allowed p) f.d.isS) = (u, fs) →
    onlyFaults fs → fltsOf fs ≠ [] →
    (u.noteFlts .load f.width.code (fltsOf fs) = none → exec i s = stalled s u .fault) ∧
    (∀ v seq n, u.noteFlts .load f.width.code (fltsOf fs) = some (v, seq, n) →
      let x := (v.guardTouch .load f.width.code (guardsOf fs)).modG (deliverFates f fs)
      let m := faultLanes fs
      (x.ptFree.isSome = true →
        let y := ((x.poisonDest f.d (dataRegs f) m).logIn .load 0 (leBytes 8 m.toNat) [true]).ptMake f.d (dataRegs f) m seq
        let t := (y.sampledIf f.a .load).afterRead f.ord f.scope
        unheld s t → exec i s = retired t) ∧
      (x.ptFree = none →
        let t := (x.sampledIf f.a .load).afterRead f.ord f.scope
        unheld s t → exec i s = trapped t (failAll x.g m { cause := 0x0007, info := (seq.getD 0).toNat + 2 ^ 32 * (n % 65536) })))

/-- R37, R418: a poisoned destination has its poison bit set in each register of each faulting lane, and every other lane as it was; the
entry has the lowest free number, and names the registers, the lanes as lanes of the launch group, the SEQ of the first record, and where the
word stands. -/
def Sys2Proof.Claims.poisonEntriesHold : Prop :=
  ∀ (s : State) (d : Opnd) (k : Nat) (m : Mask) (seq : Option W32),
    (∀ l, l < s.g.gw → m.getLsbD l = true → ∀ j, j < k →
      (∀ i : Fin 64, d = .v i → ((s.poisonDest d k m).g.vReg l (i.val + j)).poi = true) ∧
      (∀ i : Fin 8, d = .k i → ((s.poisonDest d k m).g.kReg l (i.val + j)).poi = true)) ∧
    (laneDest d = true → ∀ l, m.getLsbD l = false → (s.poisonDest d k m).g.lane l = s.g.lane l) ∧
    (∀ i : Fin 64, d = .s i → s.g.iss.handler = false → ((s.poisonDest d k m).g.sVal i.val).poi = true) ∧
    (∀ e, s.ptFree = some e →
      let t := s.ptMake d k m seq
      e < 8 ∧ (∀ j, j < e → s.ptEntry j ≠ none) ∧ (∀ j, j ≠ e → t.ptEntry j = s.ptEntry j) ∧
      t.ptEntry e = some { isV := d.isV, reg := d.byte.toNat, n := k, mask := m <<< s.g.base, seq := seq.getD (BitVec.allOnes 32),
                           pc := s.g.iss.pc, bb := s.g.iss.bb })

/-- R308 to R313, R37: LD, LDS and LDK deliver their bytes and retire, an LD of a handler too; faulting lanes take poison. -/
def Obligations.Loads : Prop :=
  (∀ (p : Pred) (f : MF) (s : State), loadCompletes (.ld p f) p f false s ∧ loadCompletes (.lds p f) p f false s ∧
    loadCompletes (.ldk p f) p f true s ∧ handlerLoadCompletes p f s) ∧ loadFaultsHold ∧ poisonEntriesHold

namespace Sys2Proof.Claims
open Sys2Proof.Machine

/-- The pages that some faults lie on, each once, ascending. -/
def faultPages (fs : List LaneFlt) (ps : List Nat) : Prop := ps.Pairwise (· < ·) ∧ ∀ p, p ∈ ps ↔ ∃ f ∈ fs, f.page = p
/-- The record of a page (R40, R41): the lanes that faulted on it, the VA, kind and AUX of the lowest of them, and the names of the issue. -/
def pageRecord (s : State) (acc : Machine.Acc) (width : Nat) (fs : List LaneFlt) (p : Nat) (r : FRec) : Prop :=
  (∃ f ∈ fs, f.page = p ∧ (∀ y ∈ fs, y.page = p → f.lane ≤ y.lane) ∧ r.kind = f.flt.kind ∧ r.va = f.va ∧ r.aux = f.flt.aux) ∧
  (∀ l, r.mask.getLsbD l = true ↔ ∃ f ∈ fs, f.page = p ∧ f.mask.getLsbD l = true) ∧
  r.access = acc.code ∧ r.width = width ∧ r.pc = s.g.iss.pc ∧ r.grid = s.gr.lrec.gid ∧ r.team = s.t.id ∧ r.group = s.g.idx ∧ r.gw = s.g.gw ∧
  r.flags = (if s.g.afterStall then 2 else 0) ∧ r.intv = BitVec.ofNat 32 (s.g.retired.toNat / 2 ^ s.c.dbgIntv) ∧ r.retired = s.g.retired
/-- The local address of the place that the i-th record from FQTAIL on takes in a context's ring (R45). -/
def ringPlace (c : Ctx) (i : Nat) : Nat := paLocal c.fqBase.toNat + 64 * ((c.fqTail + BitVec.ofNat 32 i).toNat % 2 ^ c.fqLogn)

end Sys2Proof.Claims

/-- R40, R41, R44, R45: the faults of an access leave one record for each page, in ascending order of the pages, with the context's record
count as SEQ; where the ring has room they are written from FQTAIL on, with every other byte of memory as it was, and where it is full they
take fault slots of the core and are counted in OVF. An access with more pages than there are places writes none: that it waits for all of
them at once is the model's choice (log entry 118). -/
def Sys2Proof.Claims.faultRecordsHold : Prop :=
  ∀ (s : State) (acc : Machine.Acc) (width : Nat) (fs : List LaneFlt), s.g.iss.handler = false → fs ≠ [] → noPartials s → s.c.fqLogn ≤ 20 →
    let c := s.c
    let old := (s.coreAt s.foc.core).slots
    (∀ ps, faultPages fs ps → s.recordRoom < ps.length → s.noteFlts acc width fs = none) ∧
    (∀ v seq n, s.noteFlts acc width fs = some (v, seq, n) →
      let d := v.ctxAt s.foc.ctx
      ∃ (ps : List Nat) (rs : List FRec), faultPages fs ps ∧ n = ps.length ∧ rs.length = n ∧ n ≤ s.recordRoom ∧ seq = some c.recCount ∧ v.g = s.g ∧
        d.recCount = c.recCount + BitVec.ofNat 32 n ∧
        (∀ i, i < n → pageRecord s acc width fs (ps.getD i 0) (rs.getD i default) ∧ (rs.getD i default).seq = c.recCount + BitVec.ofNat 32 i) ∧
        (c.savedSlots = [] → c.fqCount + n ≤ 2 ^ c.fqLogn →
          d.fqTail = c.fqTail + BitVec.ofNat 32 n ∧ (v.coreAt s.foc.core).slots = old ∧
          (∀ i j, i < n → j < 64 → memGet v.mem (ringPlace c i + j) = (rs.getD i default).bytes.getD j 0) ∧
          ∀ a, (∀ i, i < n → a < ringPlace c i ∨ ringPlace c i + 64 ≤ a) → memGet v.mem a = memGet s.mem a) ∧
        (c.fqFull = true →
          v.mem = s.mem ∧ d.fqTail = c.fqTail ∧ d.fqOvf = c.fqOvf + BitVec.ofNat 32 n ∧
          (v.coreAt s.foc.core).slots = old ++ rs.map fun r => (s.foc.ctx, r)))

/-- R41: the 64 bytes of a record, field by field. -/
def Sys2Proof.Claims.recordBytesHold : Prop :=
  ∀ r : FRec, let field (o n : Nat) : Nat := ofLe ((r.bytes.drop o).take n)
    r.bytes.length = 64 ∧ field 0 2 = r.kind % 2 ^ 16 ∧ field 2 1 = r.access % 2 ^ 8 ∧ field 3 1 = r.width % 2 ^ 8 ∧ field 4 4 = r.seq.toNat ∧
    field 8 8 = r.va.toNat ∧ field 16 8 = r.mask.toNat ∧ field 24 8 = r.pc.toNat ∧ field 32 4 = r.grid.toNat ∧ field 36 4 = r.team.toNat ∧
    field 40 1 = r.group % 2 ^ 8 ∧ field 41 1 = r.gw % 2 ^ 8 ∧ field 42 2 = r.flags % 2 ^ 16 ∧ field 44 4 = r.intv.toNat ∧
    field 48 8 = r.retired.toNat ∧ field 56 8 = r.aux.toNat

/-- R39, R45, R413: a store that meets faults writes their records, or stalls while they have no place; the lanes that pass store their
bytes, and the faulting lanes write nothing, keep their PC and trap with the Translation Fault cause, TINFO naming the first record and how
many there are. -/
def Sys2Proof.Claims.storeFaultsHold : Prop :=
  ∀ (i : Instr) (p : Pred) (f : MF) (acc : Acc) (kspace : Bool) (s u : State) (fs : List (Mask × Nat × Fate)), storeRow i = some (p, f, acc, kspace) →
    s.Runs p (s.opsOk [(f.d, dataRegs f), (f.a, 1), (f.b, 1)]) →
    (eff s p).fates (accessOf f acc kspace) f.width.code (dataPoison f) false ((eff s p).shares (s.allowed p) (f.d.isS || f.d.isZ)) = (u, fs) →
    onlyFaults fs → fltsOf fs ≠ [] →
    let some' : Prop := ∃ x ∈ fs, (∃ y, x.2.2 = .at' y) ∨ ∃ off, x.2.2 = .guard off
    let cause (seq : Option W32) (n : Nat) : Fail := { cause := 0x0005, info := (seq.getD 0).toNat + 2 ^ 32 * (n % 65536) }
    let lanes (seq : Option W32) (n : Nat) : List (Nat × Fail) := (fltsOf fs).flatMap fun x => failAll u.g x.mask (cause seq n)
    (¬ some' →
      (u.noteFlts acc f.width.code (fltsOf fs) = none → exec i s = stalled s u .fault) ∧
      (∀ v seq n, u.noteFlts acc f.width.code (fltsOf fs) = some (v, seq, n) →
        let t := v.sampledIf f.a acc
        unheld s t → exec i s = trapped t (lanes seq n))) ∧
    (some' → u.flagFull (u.sfNow f.sf) = false →
      let b := u.beforeWrite f.ord f.scope
      drained (f.ord == .rel || f.ord == .ar || f.ord == .sc) b f.scope →
      (b.noteFlts acc f.width.code (fltsOf fs) = none → exec i s = stalled s b .fault) ∧
      (∀ v seq n, b.noteFlts acc f.width.code (fltsOf fs) = some (v, seq, n) →
        let x := (v.guardTouch acc f.width.code (guardsOf fs)).flagStart (u.sfNow f.sf)
        let t := (((storeFates f acc kspace x.2 fs x.1).flagEnd x.2).afterWrite f.ord f.scope).sampledIf f.a acc
        unheld s t → exec i s = trapped t (lanes seq n)))

namespace Sys2Proof.Claims
open Sys2Proof.Machine

/-- The lanes that an access is performed for: each active lane, or the lowest for data that is uniform (R310). -/
def accessLanes (s : State) (p : Pred) (d : Opnd) : List Nat :=
  if d.isS || d.isZ then (s.g.lanesOf (s.allowed p)).take 1 else s.g.lanesOf (s.allowed p)
/-- The offset of a lane from its translation register, and the VA that it forms (R23, R308). -/
def globalOff (s : State) (f : MF) (l : Nat) : Int := (s.rd l .n32 f.b).n + f.imm.toInt * f.width.bytes
def globalVa (s : State) (f : MF) (l : Nat) : W64 := (s.g.areg f.a.aIdx).baseva + BitVec.ofInt 64 (globalOff s f l)
/-- The lane's bytes lie in the window of its translation register, so that no table is walked (R23). -/
def inWindow (s : State) (f : MF) (l : Nat) : Prop :=
  0 ≤ globalOff s f l ∧ globalOff s f l + f.width.bytes ≤ (s.g.areg f.a.aIdx).limit.toNat
/-- The 64 bits of an entry of a table of the K96's own, none of them poisoned (R11). -/
def tableEntry (s : State) (frame i : Nat) (e : W64) : Prop :=
  s.hbmPoi (paLocal (frame * 65536 + 8 * i)) 8 = false ∧ BitVec.ofNat 64 (ofLe (s.hbm (paLocal (frame * 65536 + 8 * i)) 8)) = e
/-- A table entry that names the next table, and a leaf (R11, R12). -/
def nextTable (s : State) (e : W64) : Prop := e.getLsbD 0 = true ∧ e.getLsbD 1 = false ∧ bitsAt e.toNat 12 4 = 0 ∧ s.ownFrame (bitsAt e.toNat 16 36) = true
def leafEntry (e : W64) : Prop := e.getLsbD 0 = true ∧ e.getLsbD 1 = true ∧ bitsAt e.toNat 12 4 = 0

end Sys2Proof.Claims

/-- R10, R11: the walk of a context's three tables: the page that a leaf of level 3 or 2 gives and its address, and the kind of the failure of
an address that is not canonical, of an entry with V clear, of one that is poisoned, and of a table out of its place. -/
def Sys2Proof.Claims.walksHold : Prop :=
  ∀ (s : State) (ctx : Nat) (va : W64), noPartials s →
    let r := bitsAt (s.ctxAt ctx).root.toNat 16 36
    let i1 := bitsAt va.toNat 42 13
    let i2 := bitsAt va.toNat 29 13
    let i3 := bitsAt va.toNat 16 13
    (canonical va = true ↔ va.extractLsb' 54 10 = 0 ∨ va.extractLsb' 54 10 = BitVec.allOnes 10) ∧
    (canonical va = false → s.walk ctx va = .error ⟨0x01, 0⟩) ∧
    (canonical va = true → s.ownFrame r = false → s.walk ctx va = .error ⟨0x03, 0⟩) ∧
    (canonical va = true → s.ownFrame r = true → ∀ e1, tableEntry s r i1 e1 →
      (e1.getLsbD 0 = false → s.walk ctx va = .error ⟨0x02, 0⟩) ∧
      (leafEntry e1 → s.walk ctx va = .error ⟨0x03, 0⟩) ∧
      (nextTable s e1 → ∀ e2, let t2 := bitsAt e1.toNat 16 36
        tableEntry s t2 i2 e2 →
        (e2.getLsbD 0 = false → s.walk ctx va = .error ⟨0x02, 0⟩) ∧
        (leafEntry e2 → bitsAt e2.toNat 16 13 ≠ 0 → s.walk ctx va = .error ⟨0x03, 0⟩) ∧
        (leafEntry e2 → bitsAt e2.toNat 16 13 = 0 → ∃ pg, s.walk ctx va = .ok pg ∧ pg.pte = e2 ∧ pg.size = .big ∧
          pg.pa va = bitsAt e2.toNat 29 23 * 2 ^ 29 + va.toNat % 2 ^ 29) ∧
        (nextTable s e2 → ∀ e3, let t3 := bitsAt e2.toNat 16 36
          tableEntry s t3 i3 e3 →
          (e3.getLsbD 0 = false → s.walk ctx va = .error ⟨0x02, 0⟩) ∧
          (e3.getLsbD 0 = true → (e3.getLsbD 1 = false ∨ bitsAt e3.toNat 12 4 ≠ 0) → s.walk ctx va = .error ⟨0x03, 0⟩) ∧
          (leafEntry e3 → ∃ pg, s.walk ctx va = .ok pg ∧ pg.pte = e3 ∧ pg.size = .small ∧
            pg.pa va = bitsAt e3.toNat 16 36 * 2 ^ 16 + va.toNat % 2 ^ 16)))) ∧
    (canonical va = true → s.ownFrame r = true → s.hbmPoi (paLocal (r * 65536 + 8 * i1)) 8 = true →
      s.walk ctx va = .error ⟨0x10, BitVec.ofNat 64 (r * 65536 + 8 * i1)⟩)

/-- R13, R17, R19: the leaf bits that loads, stores, atomics, ZST and fetches need, and the checks of a physical address: HBM of the K96's
own, and of another chip a valid routing entry with a port and an address below its HBMSZ. -/
def Sys2Proof.Claims.addressChecksHold : Prop :=
  (∀ e : W64, let b (i : Nat) : Bool := e.getLsbD i
    permOk .load e = (b 2 && !b 6) ∧ permOk .store e = (b 3 && !b 6) ∧ permOk .atomic e = (b 3 && b 5 && !b 6) ∧
    permOk .reduction e = (b 3 && b 5 && !b 6) ∧ permOk .zst e = (b 3 && b 6) ∧ permOk .fetch e = b 4 ∧ permOk .stash e = (b 3 && b 10) ∧
    permOk .restore e = (b 2 && b 10)) ∧
  (∀ (s : State) (pa : Nat), let e := s.pkg.routing.get 0 (paChip pa)
    (s.isLocal pa = true → s.physCheck pa = if paLocal pa < hbmSize then .ok () else .error ⟨0x05, BitVec.ofNat 64 pa⟩) ∧
    (s.isLocal pa = false → (e.getLsbD 63 = false ∨ e.toNat % 65536 = 0) → s.physCheck pa = .error ⟨0x06, BitVec.ofNat 64 pa⟩) ∧
    (s.isLocal pa = false → e.getLsbD 63 = true → e.toNat % 65536 ≠ 0 → (hbmSize ≤ paLocal pa ∨ bitsAt e.toNat 16 9 * 2 ^ 32 ≤ paLocal pa) →
      s.physCheck pa = .error ⟨0x05, BitVec.ofNat 64 pa⟩))

/-- R23, R308: where each lane of an ST that passes its checks stores: at the VA BASEVA + B + IMM11 × width, modulo 2^64, and, in the window
of a register that is not STALE, at the physical address PBASE plus the offset; elsewhere at the address that the translation of that VA
gives. A relaxed ST leaves memory as it is and puts each lane's bytes into the core's write buffer, in ascending order of the lanes; the
registers of the lanes, s, m and z, and the other cores' buffers stay. -/
def Sys2Proof.Claims.globalStoreFrameHold : Prop :=
  ∀ (p : Pred) (f : MF) (s u : State) (fs : List (Mask × Nat × Fate)), f.a.isA = true → f.ord = .rlx → noPartials s →
    (s.g.areg f.a.aIdx).stale = false → s.Runs p (s.opsOk [(f.d, dataRegs f), (f.a, 1), (f.b, 1)]) →
    (eff s p).fates (accessOf f .store false) f.width.code (dataPoison f) false ((eff s p).shares (s.allowed p) (f.d.isS || f.d.isZ)) = (u, fs) →
    allPlaced fs → u.flagFull (u.sfNow f.sf) = false →
    ∃ (t : State) (pas : Nat → Nat), exec (.st p f) s = .next t ∧ t.mem = s.mem ∧ t.memPoi = s.memPoi ∧
      (∀ l ∈ accessLanes s p f.d,
        (inWindow s f l → pas l = (s.g.areg f.a.aIdx).pbase.toNat + (globalOff s f l).toNat) ∧
        (¬ inWindow s f l → ∃ (w w' : State) (pte : W64), w.mem = s.mem ∧ w.memPoi = s.memPoi ∧ w.ctxs = s.ctxs ∧
          w.translate s.foc.core s.foc.ctx .store (globalVa s f l) = (w', Except.ok ⟨pas l, pte⟩))) ∧
      (t.coreAt s.foc.core).wbuf.map (fun e => (e.pa, e.data)) =
        (s.coreAt s.foc.core).wbuf.map (fun e => (e.pa, e.data)) ++
          ((accessLanes s p f.d).map fun l => (pas l, (s.storeData l f.d f.width).1)) ∧
      (∀ k, k ≠ s.foc.core → (t.coreAt k).wbuf = (s.coreAt k).wbuf) ∧
      (∀ l, (t.g.lane l).v = (s.g.lane l).v ∧ (t.g.lane l).k = (s.g.lane l).k ∧ (t.g.lane l).fpl = (s.g.lane l).fpl) ∧
      t.g.s = s.g.s ∧ t.g.m = s.g.m ∧ t.g.z = s.g.z ∧ (t.teams.map fun e => e.2.scr) = s.teams.map fun e => e.2.scr

/-- R78, R130, R308 to R313, R55: ST, STS, STK and ZST store their bytes and retire, an ST of a handler too; faulting lanes trap. -/
def Obligations.Stores : Prop :=
  (∀ (p : Pred) (f : MF) (s : State), storeCompletes (.st p f) p f .store false s ∧ storeCompletes (.sts p f) p f .store false s ∧
    storeCompletes (.stk p f) p f .store true s ∧ storeCompletes (.zst p f) p f .zst false s ∧ handlerStoreCompletes p f s) ∧
  storeFaultsHold ∧ faultRecordsHold ∧ recordBytesHold ∧ globalStoreFrameHold ∧ walksHold ∧ addressChecksHold

namespace Sys2Proof.Claims
open Sys2Proof.Machine

/-- The scratchpad address of a lane: base, offset and immediate modulo 2^32 (R308). -/
def scrAddr (s : State) (f : MF) (l : Nat) : Nat :=
  let base := match f.a with | .s i => (s.g.sVal i.val).n | _ => 0
  (((base : Int) + (s.rd l .n32 f.b).n + f.imm.toInt * f.width.bytes) % (2 ^ 32 : Nat)).toNat
/-- A lane's access to the team's own allocation passes its checks: no poisoned operand, an aligned address, bytes inside (R311). -/
def scrClean (s : State) (f : MF) (l : Nat) : Prop :=
  (s.rd l .n32 f.b).poi = false ∧ (∀ i, f.a = .s i → (s.g.sVal i.val).poi = false) ∧ scrAddr s f l % f.width.bytes = 0 ∧
  scrAddr s f l + f.width.bytes ≤ s.scrSize s.foc.team

end Sys2Proof.Claims

/-- R28, R29, R78, R308 to R313: a relaxed STS in the team's own allocation, outside its barrier and tape parts, writes each lane's bytes
at its address, the highest lane deciding where several write a byte; every other byte of the scratchpad, the other scratchpads, HBM and
the registers of the lanes stay as they were. -/
def Sys2Proof.Claims.scratchpadStoreFrameHold : Prop :=
  ∀ (p : Pred) (f : MF) (s : State), (∀ i, f.a ≠ .a i) → f.ord = .rlx → s.Runs p (s.opsOk [(f.d, dataRegs f), (f.a, 1), (f.b, 1)]) →
    s.scrSize s.foc.team < 2 ^ 32 →
    (∀ l ∈ accessLanes s p f.d, scrClean s f l ∧ (s.storeData l f.d f.width).2 = false ∧
      s.scrGuarded s.foc.team (scrAddr s f l) f.width.bytes = false) →
    s.flagFull (s.sfNow f.sf) = false →
    ∃ t, exec (.sts p f) s = .next t ∧ t.mem = s.mem ∧ t.memPoi = s.memPoi ∧
      (∀ k, k ≠ s.foc.team → (t.teamAt k).scr = (s.teamAt k).scr) ∧
      (∀ a, (∀ l ∈ accessLanes s p f.d, a < scrAddr s f l ∨ scrAddr s f l + f.width.bytes ≤ a) →
        memGet (t.teamAt s.foc.team).scr a = memGet (s.teamAt s.foc.team).scr a) ∧
      (∀ l ∈ accessLanes s p f.d, ∀ i, i < f.width.bytes →
        (∀ j ∈ accessLanes s p f.d, l < j → scrAddr s f l + i < scrAddr s f j ∨ scrAddr s f j + f.width.bytes ≤ scrAddr s f l + i) →
        memGet (t.teamAt s.foc.team).scr (scrAddr s f l + i) = (s.storeData l f.d f.width).1.getD i 0) ∧
      (∀ l, (t.g.lane l).v = (s.g.lane l).v ∧ (t.g.lane l).k = (s.g.lane l).k ∧ (t.g.lane l).fpl = (s.g.lane l).fpl) ∧
      t.g.s = s.g.s ∧ t.g.m = s.g.m ∧ t.g.a = s.g.a ∧ t.g.z = s.g.z

/-- R309, R311, R313: a relaxed LDS of the team's own allocation delivers, in each lane it is performed for, the bytes of its address,
low byte first, zero-extended to 32 bits where it is narrower, and changes no scratchpad, nor memory but for the log of a context that
logs (R435). -/
def Sys2Proof.Claims.scratchpadLoadResultHold : Prop :=
  ∀ (p : Pred) (f : MF) (s : State), (∀ i, f.a ≠ .a i) → f.ord = .rlx → laneDest f.d = true → f.width ≠ .b128 →
    s.Runs p (s.opsOk [(f.d, dataRegs f), (f.a, 1), (f.b, 1)]) → s.scrSize s.foc.team < 2 ^ 32 →
    (∀ l ∈ accessLanes s p f.d, scrClean s f l ∧ (s.scrRead s.foc.team (scrAddr s f l) f.width.bytes).bad = false) →
    ∃ t, exec (.lds p f) s = .next t ∧ (s.c.dbgLogOn = false → t.mem = s.mem ∧ t.memPoi = s.memPoi) ∧ t.teams.map (fun e => e.2.scr) = s.teams.map (fun e => e.2.scr) ∧
      (∀ l ∈ s.g.lanesOf (s.allowed p), ∀ i, i < f.width.regs →
        let bs := ((s.scrRead s.foc.team (scrAddr s f l) f.width.bytes).data.drop (4 * i)).take 4
        (∀ j : Fin 64, f.d = .v j → t.g.vReg l (j.val + i) = ⟨BitVec.ofNat 32 (ofLe bs), false⟩) ∧
        (∀ j : Fin 8, f.d = .k j → t.g.kReg l (j.val + i) = ⟨BitVec.ofNat 32 (ofLe bs), false⟩)) ∧
      (∀ l, (t.g.lane l).y0 = (s.g.lane l).y0 ∧ (t.g.lane l).y1 = (s.g.lane l).y1)

/-- What the scratchpad holds after a store, and what a load reads of it. -/
def Obligations.ScratchpadAccess : Prop := scratchpadStoreFrameHold ∧ scratchpadLoadResultHold

/-- R61, R62, R91: where no core holds a U copy and no tile holds the lock of its lines, the oldest buffered store of a core performs at
its home: its bytes stand there, every other byte of HBM stays as it was, and the buffer holds the rest; a store that a lock stops
waits. -/
def Sys2Proof.Claims.oldestStorePerformsHold : Prop :=
  ∀ (core : Nat) (s : State) (e : WbEntry) (rest : List WbEntry), (s.coreAt core).wbuf = e :: rest → s.isLocal e.pa = true →
    (s.blocked e.pa e.data.length true = true → exec (.writeBufferDrain core) s = .next s) ∧
    (s.blocked e.pa e.data.length true = false → s.inSpillRegion (paLocal e.pa) = false → (∀ c ∈ s.cores, ∀ l ∈ c.2.l1, l.isU = false) →
      ∃ t, exec (.writeBufferDrain core) s = .next t ∧ (t.coreAt core).wbuf = rest ∧
        (∀ a, (a < paLocal e.pa ∨ paLocal e.pa + e.data.length ≤ a) → memGet t.mem a = memGet s.mem a) ∧
        (∀ i, i < e.data.length → memGet t.mem (paLocal e.pa + i) = e.data.getD i 0))

/-- R407: the grant by age of an arbitration point performs a packet of a class that has waited there longest, whatever its class, as
its own event does; with no packet there nothing happens. Which events move packets, and at which points, is log entry 106. -/
def Sys2Proof.Claims.ageGrantHold : Prop :=
  ∀ (point : Nat) (s : State),
    let es := s.autoEvents
    let waited (c : Nat) : Nat := bankGet (s.pkg.waits.get [] point) 0 c
    (s.packetsAt es point = [] → exec (.arbitrationAgeGrant point) s = .next s) ∧
    (s.packetsAt es point ≠ [] → ∃ c e t, (c, e) ∈ s.packetsAt es point ∧ (∀ x ∈ s.packetsAt es point, waited x.1 ≤ waited c) ∧
      exec (.arbitrationAgeGrant point) s = exec e (s.granted es point c) ∧ exec (.arbitrationAgeGrant point) s = .next t)

/-- Stores of the write buffer, and the grant by age. -/
def Obligations.BufferedStorePerforms : Prop := oldestStorePerformsHold ∧ ageGrantHold

/-! ## Tiles -/

/-- R87 to R93, R314 to R316: a tile of the own scratchpad is read or written whole; a global tile asks for the locks of its lines and,
with the last of them, reads or writes its rows as one event. -/
def Sys2Proof.Claims.tileWordsHold : Prop :=
  ∀ (p : Pred) (f : MF) (s u : State), s.Runs p (s.opsOk [(f.a, 1)]) →
    let t := tileShape (s.g.sVal f.b.sIdx).n f.imm.toInt
    let image := s.g.imageBytes f.d.vIdx t.size
    let va (k : Nat) : W64 := (s.g.areg f.a.aIdx).baseva + BitVec.ofInt 64 (t.row k)
    let loads (u : State) (bs : List Byte) : Prop :=
      let v := (u.modG fun g => g.putTile f.d bs).afterRead f.ord f.scope
      unheld s v → exec (.tld p f) s = retired v ∧ exec (.tlds p f) s = retired v
    let stores (u : State) (go : State → Option (Nat × Nat) → State) : Prop :=
      let x := u.flagStart (u.sfNow f.sf)
      let v := ((go x.1 x.2).flagEnd x.2).afterWrite f.ord f.scope
      unheld s v → exec (.tst p f) s = retired v ∧ exec (.tsts p f) s = retired v
    let asks (u : State) (excl : Bool) (rows : List (Nat × Nat)) : Out :=
      let v := (rowLines rows).foldl (fun s l => s.drainLine s.foc.core (128 * l)) u
      stalled s v.freshOrder.1 (.tile (rowLines rows) [] excl rows v.order)
    (s.g.stall = .none →
      (drained (f.ord == .sc) ((eff s p).beforeRead f.ord f.scope) f.scope →
        (∀ offs, ((eff s p).beforeRead f.ord f.scope).tileLook f .tileLoad (s.allowed p) = (u, .scr offs) →
          (∀ o ∈ offs, (u.scrRead u.foc.team o t.rb).bad = false) →
          let bs := offs.flatMap fun o => (u.scrRead u.foc.team o t.rb).data
          loads (u.logRows t.rb bs (fun i => digScr (offs.getD i 0)) t.nr) bs) ∧
        (∀ rows, ((eff s p).beforeRead f.ord f.scope).tileLook f .tileLoad (s.allowed p) = (u, .mem rows) →
          exec (.tld p f) s = asks u false (rows.map (·.2)))) ∧
      (u.flagFull (u.sfNow f.sf) = false → drained (isRel f.ord) (u.beforeWrite f.ord f.scope) f.scope →
        (∀ offs, (eff s p).tileLook f .tileStore (s.allowed p) = (u, .scr offs) →
          stores (u.beforeWrite f.ord f.scope) fun v _ =>
            (offs.zip (List.range t.nr)).foldl (fun v o => v.scrWrite v.foc.team o.1 ((image.drop (o.2 * t.rb)).take t.rb))
              (v.digestRows t.rb image (fun i => digScr (offs.getD i 0)) t.nr)) ∧
        (∀ rows, (eff s p).tileLook f .tileStore (s.allowed p) = (u, .mem rows) →
          exec (.tst p f) s = asks (u.beforeWrite f.ord f.scope) true (rows.map (·.2))))) ∧
    (∀ got excl rows since, s.g.stall = .tile [] got excl rows since →
      (∀ bs, (eff s p).tileRead (s.allowed p) t.rb (((List.range t.nr).map va).zip rows) = (u, bs, []) →
        loads (((u.unlockLines got).logRows t.rb bs (fun k => (((List.range t.nr).map va).getD k 0).toNat) t.nr).sampled .tileLoad) bs) ∧
      stores (eff s p) fun v tag => ((v.tileWrite (s.allowed p) va t.rb rows image tag).unlockLines got).sampled .tileStore)

/-- R90, R94: TILE_LOCK_GRANT gives a tile the next lock of a local line in its turn, where no other lock excludes it and no earlier
asker waits, its U partials gathered first, and asks a remote line's home for it once; with the last lock the tile performs. -/
def Sys2Proof.Claims.tileLocksHold : Prop :=
  ∀ (k l : Nat) (left got : List Nat) (excl : Bool) (rows : List (Nat × Nat)) (since : Nat) (s : State),
    (s.grpAt k).stall = .tile (l :: left) got excl rows since →
    let s1 := s.focusGrp k
    let u := s1.gather l
    let v := u.freshOrder.1.modG fun g => { g with stall := .tile left (got ++ [l]) excl rows u.order }
    (s.isLocal (128 * l) = true →
      ((s1.lockBusy k l excl since = true ∨ u.met ≠ s1.met) → exec (.tileLockGrant k) s = .next s) ∧
      (s1.lockBusy k l excl since = false → unheld s1 u →
        (left ≠ [] → exec (.tileLockGrant k) s = .next v) ∧
        (left = [] → ∀ i t, (∃ p f, i = .tld p f ∨ i = .tst p f) → decodeWord v.g.iss.word = .ok i → exec i v = .next t →
          ((∃ b c d e, t.g.stall = .tile [] b c d e) → exec (.tileLockGrant k) s = .next s) ∧
          ((∀ b c d e, t.g.stall ≠ .tile [] b c d e) → exec (.tileLockGrant k) s = .next t)))) ∧
    (s.isLocal (128 * l) = false →
      (let asked := s1.pkg.peerOut.any fun q => q.kind == .lock excl && q.grp == k && q.pa == 128 * l
       exec (.tileLockGrant k) s =
         .next (if asked then s else (s1.send { kind := .lock excl, pa := 128 * l, n := 128, grp := k, ctx := s1.foc.ctx }).1)))

/-- Tiles and their locks. -/
def Obligations.Tiles : Prop := tileWordsHold ∧ tileLocksHold

/-! ## Atomics -/

namespace Sys2Proof.Claims
open Sys2Proof.Machine

/-- The atomic words: predicate, fields, how many 32-bit words stand at D, the operation as a peer is told it, and what a lane's words
make of the old value: a new value or none, and the flags it raises (R318 to R321). -/
def atomRow : Instr → Option (Pred × MF × Nat × Nat × (FpEnv → List Reg → Nat → Option Nat × W32))
  | .atom p f =>
    let t := (MF.ty f).getD .i32
    some (p, f, t.regs, f.i, fun env ws old => (some (atomNew env f.op t old (wordsVal ws)).1, (atomNew env f.op t old (wordsVal ws)).2))
  | .cas p f =>
    let k := if f.width = .b64 then 2 else 1
    some (p, f, 2 * k, f.i + 256, fun _ ws old => (if old = wordsVal (ws.take k) then some (wordsVal (ws.drop k)) else none, 0))
  | .casgt p f => some (p, f, 2, f.i + 512, fun _ ws old => (casgtNew (MF.ty f == some .i64) ws old, 0))
  | .casv p f => some (p, f, 2, f.i + 768, fun _ ws old => (casvNew ws old, 0))
  | .caspt p f => some (p, f, 4, f.i + 1024, fun _ ws old => (casptNew ws old, 0))
  | _ => none

/-- One lane's atomic at its place, or as its remote home has done it (R78, R320): the old value is returned, the new one written and its
flags raised. -/
def atomStep (f : MF) (k : Nat) (fn : FpEnv → List Reg → Nat → Option Nat × W32) (u : State) (v : State) (x : Mask × Nat × Fate) : State :=
  let n := f.width.bytes
  let fo := fn (fpEnv (u.g.lane x.2.1).fpl .lane) (u.dWords x.2.1 f.d k)
  let back (v : State) (a old : Nat) : State :=
    let t := v.logRead .atomic a (leBytes n old)
    let w := match (fo old).1 with | some z => t.wrote a (leBytes n z) | none => t
    w.setG (let g := w.g.deliver f.d x.1 (leBytes n old); if w.g.iss.handler then g else g.modLane x.2.1 fun z => z.raise (fo old).2)
  match x.2.2 with
  | .at' y => back (v.atomAt n fo y).1 (v.digAddr false y) (v.atomAt n fo y).2.1
  | .got bs =>
    back v (match u.look { acc := .atomic, a := f.a, b := f.b, n } none x.2.1 with | (_, .ok y) => u.digAddr false y | _ => 0) (ofLe bs)
  | .guard _ => v.setG (v.g.deliver f.d x.1 (List.replicate n 0))
  | _ => v

/-- Every fate is a place at home, a touch of a guard granule, or n bytes that a remote home has sent back. -/
def allAtomic (n : Nat) (fs : List (Mask × Nat × Fate)) : Prop :=
  ∀ x ∈ fs, (∃ y, x.2.2 = .at' y ∧ ∀ off, y ≠ .guard off) ∨ (∃ off, x.2.2 = .guard off) ∨ ∃ old, old < 2 ^ (8 * n) ∧ x.2.2 = .got (leBytes n old)

end Sys2Proof.Claims

/-- R78, R86, R317 to R321: an atomic word whose every access is at its place, that no lock holds up and whose release is complete,
performs lane by lane in ascending order, each lane returning the old value, and retires; so does one of a handler, whose data stand in s
registers. That a touch of a guard granule returns zeros and writes nothing is log entry 45, and the rounding of an access for an s register
entry 46. -/
def Sys2Proof.Claims.atomicsHold : Prop :=
  (∀ (i : Instr) (p : Pred) (f : MF) (k op : Nat) (fn : FpEnv → List Reg → Nat → Option Nat × W32) (s u : State) (fs : List (Mask × Nat × Fate)),
    atomRow i = some (p, f, k, op, fn) → s.Runs p (s.opsOk [(f.d, if f.d.isS then 1 else k), (f.a, 1), (f.b, 1)]) →
    let v := ((eff s p).beforeWrite f.ord f.scope).beforeRead f.ord f.scope
    drained (isRel f.ord) v f.scope →
    v.atomFates { acc := .atomic, a := f.a, b := f.b, n := f.width.bytes } op k f.d (v.shares (s.allowed p) f.d.isS) = (u, fs) →
    allAtomic f.width.bytes fs →
    let w := u.guardTouch .atomic f.width.code (guardsOf fs)
    let t := ((fs.foldl (atomStep f k fn w) w).sampledIf f.a .atomic).afterRead f.ord f.scope
    unheld s t → exec i s = retired t) ∧
  (∀ (i : Instr) (p : Pred) (f : MF) (k op : Nat) (fn : FpEnv → List Reg → Nat → Option Nat × W32) (s u : State) (fs : List (Mask × Nat × Fate)),
    atomRow i = some (p, f, k, op, fn) → s.RunsH p → f.d.isS = true → s.opsOk [(f.d, 1), (f.a, 1), (f.b, 1)] 0 = true →
    let v := (s.atHandler.beforeWrite f.ord f.scope).beforeRead f.ord f.scope
    drained (isRel f.ord) v f.scope →
    v.atomFates { acc := .atomic, a := f.a, b := f.b, n := f.width.bytes } op k f.d (v.shares 0 true) = (u, fs) →
    allAtomic f.width.bytes fs →
    let w := u.guardTouch .atomic f.width.code (guardsOf fs)
    let t := ((fs.foldl (atomStep f k fn w) w).sampledIf f.a .atomic).afterRead f.ord f.scope
    unheld s t → exec i s = s.handlerEnd t)

/-- R136, R318, R321: the new values of the operations: a sum modulo 2^w, the sum and the minimum and maximum of FADD, FMIN and FMAX,
signed and unsigned minima and maxima, and, or, xor, an exchange, a wrapping increment and decrement, and the versioned exchanges. -/
def Sys2Proof.Claims.atomicValuesHold : Prop :=
  (∀ (env : FpEnv) (t : Ty) (old d : Nat), let w := if t.is64 then 64 else 32
    let x := BitVec.ofNat w old
    let y := BitVec.ofNat w d
    let num (r : FpR) : Nat × W32 := (r.bits, r.fl)
    old < 2 ^ w → d < 2 ^ w →
    atomNew env 0 t old d = ((x + y).toNat, 0) ∧
    atomNew env 1 t old d = num (fadd (Ty.fmt t) env (opnd (Ty.fmt t) env old) (opnd (Ty.fmt t) env d)) ∧
    (t.isI = true → atomNew env 2 t old d = (if y.slt x then d else old, 0) ∧ atomNew env 3 t old d = (if x.slt y then d else old, 0)) ∧
    (t.isInt = true → t.isI = false →
      atomNew env 2 t old d = (if d < old then d else old, 0) ∧ atomNew env 3 t old d = (if old < d then d else old, 0)) ∧
    (t.isInt = false →
      atomNew env 2 t old d = num (minMaxNumber (Ty.fmt t) env false (opnd (Ty.fmt t) env old) (opnd (Ty.fmt t) env d)) ∧
      atomNew env 3 t old d = num (minMaxNumber (Ty.fmt t) env true (opnd (Ty.fmt t) env old) (opnd (Ty.fmt t) env d))) ∧
    atomNew env 4 t old d = ((x &&& y).toNat, 0) ∧ atomNew env 5 t old d = ((x ||| y).toNat, 0) ∧ atomNew env 6 t old d = ((x ^^^ y).toNat, 0)) ∧
  ∀ (env : FpEnv) (t : Ty) (old d : Nat) (a b c e : Reg),
    atomNew env 7 t old d = (d, 0) ∧
    atomNew env 8 t old d = (if old < d then old + 1 else 0, 0) ∧
    atomNew env 9 t old d = (if 0 < old ∧ old ≤ d then old - 1 else d, 0) ∧
    casvNew [a, b] old = (if old / 2 ^ 32 = b.val.toNat then some ((b.val + 1).toNat * 2 ^ 32 + a.val.toNat) else none) ∧
    casgtNew false [a, b] old = (if old / 2 ^ 32 < b.val.toNat then some (b.val.toNat * 2 ^ 32 + a.val.toNat) else none) ∧
    (old < 2 ^ 64 → casgtNew true [a, b] old =
      (if (BitVec.ofNat 32 (old / 2 ^ 32)).slt b.val then some (b.val.toNat * 2 ^ 32 + a.val.toNat) else none)) ∧
    (old < 2 ^ 64 → casptNew [a, b, c, e] old =
      (if old = b.val.toNat * 2 ^ 32 + a.val.toNat then
        some (((old / 2 ^ 48 + 1) % 2 ^ 16) * 2 ^ 48 + (e.val.toNat % 2 ^ 16) * 2 ^ 32 + c.val.toNat) else none))

/-- Atomics and their values. -/
def Obligations.AtomicWords : Prop := atomicsHold ∧ atomicValuesHold

/-! ## Reductions -/

/-- R138 to R141, R146, R150, R322, R323: RED whose release is complete and whom no lock holds up performs its accesses and retires,
or ends the grid with the Reduction Spill cause where the spill region has no room; RFLUSH counts in a DET grid, where .grid names the
barrier of the epoch, and sends the core's partials home in a fast one. That a RED of an s register is one contribution is log entry 52. -/
def Sys2Proof.Claims.reductionWordsHold : Prop :=
  (∀ (p : Pred) (f : MF) (s u : State) (fs : List (Mask × Nat × Fate)),
    let t := (MF.ty f).getD .i32
    s.Runs p (s.opsOk [(f.d, if f.d.isS then 1 else t.regs), (f.a, 1), (f.b, 1)]) →
    (eff s p).fates { acc := .reduction, a := f.a, b := f.b, n := f.width.bytes } f.width.code
      (fun v l => if (v.rd l t f.d).poi then some f.d else none) false ((eff s p).shares (s.allowed p) f.d.isS) = (u, fs) →
    (∀ x ∈ fs, ∃ va pa cp, x.2.2 = .at' (.mem va pa cp)) → fs ≠ [] → u.flagFull (u.sfNow f.sf) = false →
    drained (isRel f.ord) (u.beforeWrite f.ord f.scope) f.scope →
    let v := (u.beforeWrite f.ord f.scope).flagStart (u.sfNow f.sf)
    let r := fs.foldl (fun (a : State × Bool) x =>
      match x.2.2 with
      | .at' (.mem va pa cp) =>
        let d := (v.1.rd x.2.1 t f.d).n
        let y := (a.1.digest va.toNat (leBytes (if t.is64 then 8 else 4) d)).redAt pa cp f.op t d x.2.1 v.2
        (y.1, a.2 && y.2)
      | _ => a) (v.1, true)
    let w := (r.1.flagEnd v.2).sampledIf f.a .reduction
    (r.2 = true → unheld s w → exec (.red p f) s = retired w) ∧ (r.2 = false → exec (.red p f) s = .next (r.1.fatal 0x0103 0))) ∧
  (∀ (p : Pred) (f : MF) (s : State), s.Runs p (fun _ => true) → (eff s p).flagFull ((eff s p).sfNow f.sf) = false →
    let v := (eff s p).flagStart ((eff s p).sfNow f.sf)
    let k := v.1.g.flushes
    let counted (u : State) : State := ((u.modG fun g => { g with flushes := k + 1 }).runFlushes s.foc.team).flagEnd v.2
    let sent (u : State) : State := u.flagEnd v.2
    (f.i ≠ 1 →
      (s.gr.det = true → unheld s (counted v.1) → exec (.rflush p f) s = retired (counted v.1)) ∧
      (s.gr.det = false → unheld s (v.1.sendAllU s.foc.core) → exec (.rflush p f) s = retired (sent (v.1.sendAllU s.foc.core)))) ∧
    (∀ i b, f.i = 1 → f.a = .s i → (s.g.sVal i.val).poi = false → s.barName false ((s.g.sVal i.val).n % 2 ^ 32) = some b →
      (let u := counted (v.1.modT fun t => { t with flushNamed := t.flushNamed ++ [(k, b)] })
       s.gr.det = true → unheld s u → exec (.rflush p f) s = retired u) ∧
      (let u := (v.1.sendAllU s.foc.core).barLand b 8
       s.gr.det = false → unheld s u → exec (.rflush p f) s = retired (sent u))))

/-- R67, R142, R143, R148, R151: ANVIL_STAGE stages the oldest partial of a team that belongs to the open epoch, spills it where its set is
full, or ends the grid where the region is; EPOCH_CLOSE ends a ready epoch whose lines no tile holds; U_PARTIAL_APPLY sends a line's
partials home. The 64 bytes of a spilled partial, and what stands in them, are the model's choice (log entry 10), and so is that a step
which meets a lock is put off whole (log entry 92). -/
def Sys2Proof.Claims.reductionEventsHold : Prop :=
  (∀ (team : Nat) (full : Bool) (q : Partial) (s : State),
    let k := (s.teamAt team).grid
    let gr := s.gridAt k
    let rest : Grid := { gr with flight := gr.flight.erase q }
    gr.flight.find? (fun q => q.team == (s.teamAt team).id && q.epoch == gr.epoch) = some q → (full = true ↔ 8 ≤ s.setStaged q.pa) →
    (full = false → exec (.anvilStage team full) s = .next (s.setGridAt k { rest with staged := gr.staged ++ [q] })) ∧
    (let u := s.setGridAt k { rest with staged := gr.staged ++ [{ q with spilled := true }] }
     (full = true → u.rspOver gr.ctx = false → exec (.anvilStage team full) s = .next (u.spillBytes gr.ctx 64)) ∧
     (full = true → u.rspOver gr.ctx = true → exec (.anvilStage team full) s = .next (s.endGrid k 0x0103 0)))) ∧
  (∀ (core line : Nat) (s : State),
    (unheld s (s.sendU core line) → exec (.uPartialApply core line) s = .next (s.sendU core line)) ∧
    (¬unheld s (s.sendU core line) → exec (.uPartialApply core line) s = .next s)) ∧
  (∀ (grid : Nat) (s : State), s.epochReady grid = true →
    let gr := s.gridAt grid
    let u := s.applyOpen grid gr.openStaged
    (unheld s u → (u.ctxAt gr.ctx).holds (.anvil gr.lrec.gid.toNat) = false →
      ∃ t, exec (.epochClose grid) s = .next t ∧ (t.gridAt grid).epoch = gr.epoch + 1 ∧ ∀ q ∈ (t.gridAt grid).staged, q.epoch ≠ gr.epoch) ∧
    (¬unheld s u → exec (.epochClose grid) s = .next s))

/-- Reductions. -/
def Obligations.Reductions : Prop := reductionWordsHold ∧ reductionEventsHold

/-! ## Fences and cache control -/

/-- R61, R81, R86, R324, R325: FENCE releases, waits until the core's earlier writes have performed, and acquires at its scope; CINV drops
the Valid lines it names, CFLU sends their partials home, and PREF fetches lines under their policy; none of them faults. -/
def Obligations.FencesAndLines : Prop :=
  ∀ (p : Pred) (f : MF) (s : State),
    let out (u : State) : State := u.beforeWrite f.ord f.scope
    let fence (u : State) : State := if isAcq f.ord then (out u).acquire f.scope else out u
    (s.Runs p (fun _ => true) → unheld s (fence (eff s p)) →
      (drained (isRel f.ord) (out (eff s p)) f.scope → exec (.fence p f) s = retired (fence (eff s p))) ∧
      (¬drained (isRel f.ord) (out (eff s p)) f.scope → exec (.fence p f) s = stalled s (out (eff s p)) .release)) ∧
    (s.RunsH p → unheld s (fence s.atHandler) → drained (isRel f.ord) (out s.atHandler) f.scope →
      exec (.fence p f) s = s.handlerEnd (fence s.atHandler)) ∧
    (∀ u fs, s.Runs p (s.opsOk [(f.a, 1), (f.b, 1)]) →
      (eff s p).fates { accessOf f .load false with hint := .none } 0 (fun _ _ => none) false ((eff s p).shares (s.allowed p) false) = (u, fs) →
      let each (i : Instr) (op : State → Nat → Nat → State) : Prop :=
        let t := fs.foldl (fun s y => match y.2.2 with | .at' (.mem _ pa cp) => op s pa cp | _ => s) u
        unheld s t → exec i s = retired t
      each (.cinv p f) (fun s pa _ => s.dropValid s.foc.core (· == pa / 128)) ∧
      each (.cflu p f) (fun s pa _ => s.sendU s.foc.core (pa / 128)) ∧
      each (.pref p f) (fun s pa cp => s.prefetch f.hint pa cp))

/-! ## Barriers -/

namespace Sys2Proof.Claims
open Sys2Proof.Machine

/-- The operands of a barrier word are clean and name the object b (R109, R326). -/
def names (s : State) (f : MF) (os : List Opnd) (b : BarName) : Prop :=
  (∀ o ∈ os, (s.rd 0 .b64 o).poi = false) ∧
  s.barName (f.i % 2 == 1) (((s.rd 0 .n32 f.a).n + (s.rd 0 .n32 f.b).n) % 2 ^ 32) = some b
/-- No report is pending in the group (R422). -/
def noReports (s : State) : Prop := s.g.guard = none ∧ s.g.overruns = []

end Sys2Proof.Claims

/-- R109 to R113, R154, R326, R327: the barrier words on a named object: BINIT sets it up, BEXPECT adds to what it expects, BARRIVE
adds the active lanes once its release is complete, and under .l learns which arrival is designated or waits to, BWAIT makes the
lanes wait for the end of the phase, and BTEST reads word 0 of it. What BWAIT owes to the retired count, and that BTEST writes no y, are log
entry 53, and that BTEST takes a z destination in a DET grid alone is entry 37. -/
def Sys2Proof.Claims.barriersHold : Prop :=
  ∀ (p : Pred) (f : MF) (s : State) (b : BarName),
    let o := (eff s p).barGet b
    (s.Runs p (fun _ => true) →
      (names (eff s p) f [f.a, f.b, f.d] b →
        (1 ≤ (s.rd 0 .b64 f.d).n → (s.rd 0 .b64 f.d).n ≤ 65535 →
          exec (.binit p f) s = retired ((eff s p).barPut b { expl := (s.rd 0 .b64 f.d).n })) ∧
        (o.ov = false → o.expb + (s.rd 0 .n32 f.d).n < 2 ^ 32 →
          exec (.bexpect p f) s = retired ((eff s p).barUpdate b (o.expect (s.rd 0 .n32 f.d).n))) ∧
        (o.ov = false → noReports s →
          let ph : W32 := BitVec.ofNat 32 ((s.rd 0 .n32 f.d).n % 2 ^ 31)
          exec (.bwait p f) s = lanesOut s p fun _ x =>
            { x with st := .waiting, wait := .bwait b ph f.scope s.g.iss.word s.g.retired
                     woken := if o.phase = ph.toNat then none else some false, owes := false })) ∧
      (names (eff s p) f [f.a, f.b] b → o.ov = false → noReports s →
        let c := (s.g.lanesOf (s.allowed p)).length
        let u := (eff s p).release f.scope
        let arrived (u : State) : State := u.barUpdate b (o.arrive c)
        o.arrl + c ≤ o.expl → u.released f.scope = true → unheld s u →
        (f.arriveL = false → exec (.barrive p f) s = retired (arrived u)) ∧
        (∀ k, f.arriveL = true → f.d = .s k → s.gr.det = false →
          let v := if o.arrl + c = o.expl then 1 else 0
          exec (.barrive p f) s = retired ((arrived (u.modG fun g => g.putS k.val ⟨v, false⟩)).logIn .arrive 0 (leBytes 8 v))) ∧
        (∀ k, f.arriveL = true → f.d = .s k → s.gr.det = true →
          exec (.barrive p f) s = retired (arrived (u.modG fun g => g.modLanes (g.lanesOf (s.allowed p)) fun _ x =>
            { x with st := .waiting, wait := .arriveL b (BitVec.ofNat 32 o.phase) k none s.g.iss.word s.g.retired, woken := none, owes := false }))))) ∧
    (s.Runs p (s.opsOk [(f.d, 1)]) → names (eff s p) f [f.a, f.b] b → o.ov = false →
      let u := (eff s p).logIn .btest b.addr.toNat (leBytes 4 o.phase)
      (∀ k, f.d = .z k → s.gr.det = true → exec (.btest p f) s = retired (u.modG fun g => g.setZreg k (BitVec.ofNat 64 o.phase))) ∧
      (∀ k, f.d = .s k → s.gr.det = false → exec (.btest p f) s = retired (u.modG fun g => g.putS k ⟨o.phase, false⟩)) ∧
      (laneDest f.d = true → s.gr.det = false →
        exec (.btest p f) s = retired (u.modG fun g =>
          g.modLanes (g.lanesOf (s.allowed p)) fun _ x => x.putRegs s.g.wb f.d [⟨BitVec.ofNat 32 o.phase, false⟩])))

/-- R111: the test of a barrier object after an update: all arrivals and bytes in completes the phase and starts the next from zero; more
bytes than expected with all arrivals in is an overrun; anything else leaves it as it is. -/
def Sys2Proof.Claims.barrierTestHold : Prop :=
  ∀ (o : BarObj),
    (o.arrl = o.expl → o.landb = o.expb →
      o.test.phase = (o.phase + 1) % 2 ^ 31 ∧ o.test.arrl = 0 ∧ o.test.expb = 0 ∧ o.test.landb = 0 ∧ o.test.expl = o.expl ∧ o.test.ov = o.ov) ∧
    (o.arrl = o.expl → o.expb < o.landb → o.test.ov = true ∧ o.test.phase = o.phase) ∧
    ((o.arrl ≠ o.expl ∨ o.landb < o.expb) → o.test = o)

/-- Barrier words. -/
def Obligations.BarrierWords : Prop := barriersHold ∧ barrierTestHold

/-! ## The copy engine and the stream ports -/

namespace Sys2Proof.Claims
open Sys2Proof.Machine

/-- No operand of a list is poisoned. -/
def clean (s : State) (os : List Opnd) : Prop := ∀ o ∈ os, (s.rd 0 .b64 o).poi = false
/-- The barrier object that a command names with BN set, or none (R119). -/
def barOf (s : State) (f : MF) (bar : Option BarName) : Prop :=
  if f.bn then s.barName f.bk (s.rd 0 .n32 f.b).n = bar ∧ bar ≠ none else bar = none
/-- The layout record at an operand passes checks 2 and 3 of R119. -/
def record (s : State) (o : Opnd) (l : Layout) : Prop := ∃ bs, s.layoutAt (s.rd 0 .n32 o).n = .ok bs ∧ readLayout bs = (l, true)

/-- Checks 1 to 8 of R119 pass for a copy of src to dst, with its pages mapped in u. -/
def copyPasses (s u : State) (f : MF) (act : Mask) (kind : CmdKind) (src dst : Layout) (bar : Option BarName) : Prop :=
  clean s ([f.d, f.a] ++ if f.bn then [f.b] else []) ∧ record s f.a src ∧ record s f.d dst ∧
  shapesOk kind src dst = true ∧ barOf s f bar ∧ src.aligned = true ∧ dst.aligned = true ∧
  s.boxFault src false = none ∧ s.boxFault dst true = none ∧
  ∃ v, s.boxPages .engRead act src = (v, []) ∧ v.boxPages .engWrite act dst = (u, [])
/-- The same for CPYS, whose beats go to the ports of ts. -/
def pushPasses (s u : State) (f : MF) (act : Mask) (src : Layout) (bar : Option BarName) (ts : List Nat) : Prop :=
  clean s (f.a :: if f.bn then [f.b] else []) ∧ record s f.a src ∧ src.bytes % 32 = 0 ∧ barOf s f bar ∧ s.gr.streams = true ∧
  s.consumers (f.i % 256) = some ts ∧ u.consumers (f.i % 256) = some ts ∧ src.aligned = true ∧ s.boxFault src false = none ∧
  s.boxPages .engRead act src = (u, [])

/-- The access of a command's landings (R43). -/
def landAcc (c : Cmd) : Machine.Acc := match c.kind with | .stash _ _ => .stash | _ => .engWrite
/-- The copies of memory with their kinds. -/
def copyRow : Instr → Option (Pred × MF × CmdKind)
  | .cpy p f => some (p, f, .cpy)
  | .cpyt p f => some (p, f, .cpyt)
  | .cpyc p f => some (p, f, .cpyc)
  | _ => none

end Sys2Proof.Claims

/-- R96, R97, R119, R123, R329: a copy whose checks pass retires with its command in the engine, and CPYS with its push; the next
element of a copy lands at its place in scratchpad or local memory, with its poison, after what its barrier releases, and the last
ends the command and clears its flag; n elements are one and then the rest. The order of the elements is the model's choice (log
entry 41). -/
def Sys2Proof.Claims.copiesHold : Prop :=
  (∀ (i : Instr) (p : Pred) (f : MF) (kind : CmdKind) (src dst : Layout) (bar : Option BarName) (s u : State), copyRow i = some (p, f, kind) →
    s.Runs p (fun _ => true) → (eff s p).flagFull ((eff s p).sfNow f.sf) = false →
    copyPasses (eff s p) u f (s.allowed p) kind src dst bar →
    let v := u.flagStart (u.sfNow f.sf)
    exec i s = retired (v.1.startCmd { kind, src, dst, total := dst.count, bar, flag := v.2, mask := s.allowed p })) ∧
  (∀ (p : Pred) (f : MF) (src : Layout) (bar : Option BarName) (ts : List Nat) (s u : State), s.Runs p (fun _ => true) →
    pushPasses (eff s p) u f (s.allowed p) src bar ts →
    exec (.cpys p f) s = retired (u.freshId.1.modT fun t =>
      { t with pushes := t.pushes ++ [{ id := u.nextId, grp := u.foc.grp, port := f.width.code, box := some src, beats := src.bytes / 32,
                                        taken := ts.map fun t => (t, 0), bar, mask := s.allowed p, pc := u.g.iss.pc, retired := u.g.retired }] })) ∧
  (∀ (team cmd n : Nat) (x : Place) (c : Cmd) (s u r w : State) (bs : List Byte) (poi : List Bool) (nf : Bool), u = s.focusTeam team →
    u.t.cmds.find? (fun c => c.id == cmd) = some c → c.landed < c.total → u.t.phase ≠ .saved → u.c.holds (.engine team c.kind.chan) = false →
    u.landPlace c c.landed = (x, n) → u.landBlocked c x n = false →
    u.landBytes c c.landed = (r, some (bs, poi, nf)) →
    let v := if c.bar.isSome then r.flushCore r.foc.core else r
    (c.bar.isSome = true → v.coreClear v.foc.core = true) →
    ((∃ tm off, x = .scr tm off ∧ w = (v.scrWrite tm off bs).scrPoisonBytes tm off poi) ∨
      (∃ a t, x = .va a ∧ v.translateUnit v.foc.ctx (landAcc c) a = .ok t ∧ v.isLocal t.pa = true ∧
        w = v.engineWrite v.foc.core t.pa (pteCp t.pte) bs (marksOf t.pa poi))) →
    let w := if nf then w.raiseIn c.grp c.mask fNF else w
    let w := match c.bar with | some b => w.barLand b n | none => w
    unheld s w →
    let lands (x : State) : Prop := exec (.engineWriteLanding team cmd 1) s = .next x ∧
      ∀ k, exec (.engineWriteLanding team cmd (k + 1)) s = exec (.engineWriteLanding team cmd k) x
    (c.landed + 1 < c.total →
      lands (w.modT fun t => { t with cmds := t.cmds.map fun e => if e.id == cmd then { c with landed := c.landed + 1 } else e }).bump) ∧
    (c.landed + 1 = c.total →
      let w := w.modT fun t => { t with cmds := t.cmds.filter fun e => e.id != cmd }
      lands (match c.flag with | some f => w.flagLanded c.grp f | none => w).bump))

namespace Sys2Proof.Claims
open Sys2Proof.Machine

/-- The bytes bs that n elements of a push's box, from element j on, read as, from s, which leaves t (R95, R128). -/
def boxReads (u : Push) (b : Layout) : Nat → Nat → State → State → List Byte → Prop
  | 0, _, s, t, bs => s = t ∧ bs = []
  | n + 1, j, s, t, bs => ∃ v d poi rest,
    s.engRead .engRead u.fetched b.eb (some u.id) (s.placeOf b.space (b.addr (b.coords j)) b.eb) = (v, .got d poi none) ∧
      boxReads u b n (j + 1) v t rest ∧ bs = d ++ rest
/-- A push with one consumer's count set to n. -/
def tookBy (u : Push) (consumer n : Nat) : Push := { u with taken := u.taken.map fun x => if x.1 == consumer then (consumer, n) else x }
/-- The push u as u' in its team, gone once every consumer has every beat, and the bytes that all of them have newly taken counted into
its barrier (R128). -/
def pushKept (s : State) (team : Nat) (u u' : Push) : State :=
  let t := s.teamAt team
  let s := s.setTeamAt team { t with
    pushes := if u'.taken.all fun x => u.beats ≤ x.2 then t.pushes.filter fun v => v.id != u.id else t.pushes.map fun v => if v.id == u.id then u' else v }
  match u.bar with
  | some b => s.barLand b (32 * (u'.common - u.common))
  | none => s

end Sys2Proof.Claims

/-- R96, R97, R125, R128: a beat of a push, from its issuer's registers or read from its box, enters a port that has room for it and that
no other push is in; a consumer that has retired takes every beat at once; a push's barrier counts what every consumer has taken, after
the release of its core; n beats are one beat and then the rest. -/
def Sys2Proof.Claims.streamBeatsHold : Prop :=
  (∀ (team push consumer : Nat) (s w : State) (u : Push) (bs : List Byte), (s.teamAt team).pushes.find? (fun u => u.id == push) = some u →
    u.stop = false → consumer ∈ u.taken.map (·.1) →
    let t := s.teamAt team
    let v := if u.bar.isSome then (s.focusTeam team).flushCore t.core else s.focusTeam team
    let k := u.takenBy consumer
    let q := bankGet (s.teamAt consumer).ports ({} : Port) u.port
    k < u.beats → (u.bar.isSome = true → v.coreClear t.core = true) →
    (v.c.holds (.engine team (1 + u.port)) = false ∨ u.box = none) →
    (32 * k < u.bytes.length ∧ w = v ∧ bs = [] ∨
      ∃ b, u.bytes.length = 32 * k ∧ t.phase = .resident ∧ u.box = some b ∧ boxReads u b (32 / b.eb) (32 * k / b.eb) v w bs ∧ bs.length = 32) →
    (s.teamAt consumer).phase = .resident →
    (q.cur = some (team, push) ∨ q.cur = none ∧ t.olderPush u consumer = false) → q.bytes.length + 32 ≤ portCap u.port →
    let all := u.bytes ++ bs
    let c := w.teamAt consumer
    let pt : Port := { q with bytes := q.bytes ++ (all.drop (32 * k)).take 32, cur := if u.beats ≤ k + 1 then none else some (team, push) }
    let x := pushKept (w.setTeamAt consumer { c with ports := bankPut {} c.ports u.port pt }) team u (tookBy { u with bytes := all } consumer (k + 1))
    unheld s x → exec (.streamBeatAccept team push consumer 1) s = .next x ∧
      (x.focusTeam team = x → ∀ n, exec (.streamBeatAccept team push consumer (n + 1)) s = exec (.streamBeatAccept team push consumer n) x)) ∧
  (∀ (team push consumer : Nat) (s : State) (u : Push), (s.teamAt team).pushes.find? (fun u => u.id == push) = some u →
    u.stop = false → consumer ∈ u.taken.map (·.1) → u.takenBy consumer < u.beats → (s.teamAt consumer).phase = .retired →
    let v := if u.bar.isSome then (s.focusTeam team).flushCore (s.teamAt team).core else s.focusTeam team
    let x := pushKept v team u (tookBy u consumer u.beats)
    (u.bar.isSome = true → v.coreClear (s.teamAt team).core = true) → unheld s x → exec (.streamBeatAccept team push consumer 1) s = .next x)

/-- Copies and streams. -/
def Obligations.CopyCommands : Prop := copiesHold ∧ streamBeatsHold

/-! ## STASH and RESTORE -/

namespace Sys2Proof.Claims
open Sys2Proof.Machine

/-- Checks 1 to 4 of R331 pass, with va the address of the first block. -/
def stashPasses (s : State) (f : MF) (act : Mask) (regs : Bool) (va : W64) : Prop :=
  s.g.converged act = true ∧ MF.values f s.g.gw % 64 = 0 ∧ (MF.spDest f = false → f.d.vIdx + MF.count f ≤ s.g.win) ∧
  s.stashPoison f act regs = none ∧ va = (s.g.areg f.a.aIdx).baseva + BitVec.ofNat 64 (s.rd 0 .n32 f.b).n ∧
  va.toNat % blockBytes (MF.coarse f) = 0

end Sys2Proof.Claims

/-- R159 to R166, R330, R331: STASH forms its blocks from the registers at issue and leaves them to the engine, raising NF where a value
of a lane is not finite; RESTORE writes the decoded values of its blocks into registers at once, or leaves a scratchpad destination
to the engine. -/
def Obligations.StashAndRestore : Prop :=
  ∀ (p : Pred) (f : MF) (s u : State) (va : W64), s.Runs p (s.opsOk [(f.a, 1)]) → (eff s p).flagFull ((eff s p).sfNow f.sf) = false →
    let act := s.allowed p
    let nb := MF.blocks f s.g.gw
    let size := blockBytes (MF.coarse f)
    let v := u.flagStart (u.sfNow f.sf)
    (stashPasses (eff s p) f act true va → (eff s p).blockFlts .stash act va nb size = (u, []) →
      let vs := tab (MF.values f u.g.gw) (u.stashValue f)
      let hit (l : Nat) : Bool := (List.range vs.length).any fun m => m / (if MF.bf f then 2 else 1) % u.g.gw == l && !finite32 (vs.getD m 0)
      let bytes := (List.range nb).flatMap fun k => encodeBlock (MF.coarse f) ((vs.drop (64 * k)).take 64)
      exec (.stash p f) s = retired ((v.1.modG fun g => g.modLanes ((g.lanesOf act).filter hit) fun _ x => x.raise fNF).startCmd
        { kind := .stash size bytes, dst := { base := va }, total := nb, flag := v.2, mask := act })) ∧
    (stashPasses (eff s p) f act false va → MF.spDest f = false →
      ∀ vs, (eff s p).restoreBlocks act (MF.coarse f) va nb = (u, vs, [], []) → (∀ x ∈ vs, x.2 = false) → unheld s u →
      let word (l j : Nat) : Nat × Bool × Bool := restoreReg (MF.bf f) vs (j * u.g.gw + l)
      let js := List.range (MF.count f)
      let w := v.1.modG fun g => g.modLanes (g.lanesOf act) fun l x =>
        let x := x.putRegs g.wb f.d (js.map fun j => ⟨BitVec.ofNat 32 (word l j).1, false⟩)
        if js.any fun j => (word l j).2.2 then x.raise fNF else x
      let w := (w.g.lanesOf act).foldl (fun s l => js.foldl (fun s j => s.logIn .restore l (leBytes 4 (word l j).1) [false]) s) w
      exec (.restore p f) s = retired (w.flagEnd v.2)) ∧
    (stashPasses (eff s p) f act false va → MF.spDest f = true →
      let d := (s.rd 0 .n32 f.d).n
      d % 4 = 0 →
      (∀ j, j < 16 * MF.count f * (if MF.bf f then 2 else 4) →
        scrClass ((eff s p).scrSize s.foc.team) (d + 4 * j) 4 = 0 ∧ (eff s p).scrGuarded s.foc.team (d + 4 * j) 4 = false) →
      (eff s p).blockFlts .restore act va (MF.count f) size = (u, []) →
      exec (.restore p f) s = retired (v.1.startCmd
        { kind := .restore (codeBits (MF.coarse f)) (MF.bf f) (MF.count f), src := { base := va }, dst := { base := BitVec.ofNat 64 d, space := 1 },
          total := MF.count f, flag := v.2, mask := act }))

/-! ## Collectives -/

namespace Sys2Proof.Claims
open Sys2Proof.Machine

/-- n bytes from a VA read whole, and not poisoned, from s, which leaves t. -/
def readsRun (s t : State) (acc : Acc) (act : Mask) (va : W64) (n : Nat) (bs : List Byte) : Prop :=
  ∃ u ps r, s.mapRun acc va n = (u, ps, []) ∧ u.readParts acc 7 act ps = r ∧ r.2.waits = [] ∧ r.2.got.bad = false ∧ r.1 = t ∧ r.2.got.data = bs

/-- The collective words with their kinds. -/
def collRow : Instr → Option (Pred × MF × CollKind)
  | .collar p f => some (p, f, .allReduce)
  | .collrs p f => some (p, f, .reduceScatter)
  | .collag p f => some (p, f, .allGather)
  | .collupd p f => some (p, f, .update)
  | .collcmt p f => some (p, f, .commit)
  | _ => none

end Sys2Proof.Claims

/-- R332, R333: a collective whose descriptor, object and pages pass retires with its command, after a release at .pkg. -/
def Sys2Proof.Claims.collectiveWordsHold : Prop :=
  ∀ (i : Instr) (p : Pred) (f : MF) (kind : CollKind) (s u v w x : State) (b m : List Byte) (ps : List Part) (bar : BarName), collRow i = some (p, f, kind) →
    s.Runs p (s.opsOk [(f.a, 1)]) → clean (eff s p) [f.b, f.d] →
    let act := s.allowed p
    let desc := (s.g.areg f.a.aIdx).baseva + BitVec.ofNat 64 (s.rd 0 .n32 f.b).n
    desc.toNat % 64 = 0 → readsRun (eff s p) u .engRead act desc 64 b → u.mapRun .engWrite desc 64 = (v, ps, []) →
    v.barName false (v.rd 0 .n32 f.d).n = some bar →
    let c := Coll.fill { kind, op := f.op, ty := (MF.ty f).getD .i32, desc, bar, mask := act, pc := v.g.iss.pc, retired := v.g.retired, grp := v.foc.grp } b
    readsRun v w .engRead act c.comm 64 m → w.runsFaults (c.runs (readComm c.comm m)) = (x, []) →
    let y := (x.release .pkg).freshId
    drained true y.1 .pkg → unheld s y.1 →
    exec i s = retired (y.1.modT fun t => { t with colls := t.colls ++ [{ c with id := y.2 }] })

/-- R333 to R335, R459, R460: the oldest collective runs once the share of every rank is there, whole and from the chip that RANKS names:
its results and STATUS, or STATUS 2 alone and the step's bit for a bad record or where ranks disagree in descriptor or step, and then
its count, which waits for the writes that are on their way to a peer. That the record is read as the engine runs, the slices, and how
shares are told apart are the model's choice (log entries 31, 60 and 121). -/
def Sys2Proof.Claims.collectiveRunsHold : Prop :=
  ∀ (team : Nat) (c : Coll) (peers : List PeerPart) (s : State), s.nextColl = some (team, c) → (s.focusTeam team).c.holds .coll = false →
    let u := s.focusTeam team
    let settles (q : CollSt) (nf : Bool) : Prop :=
      unheld s q.s → q.recs = [] →
      (q.s.collOut team c.id = false → exec (.collectiveCompletion team c.id peers) s = .next ((q.s.collCount c nf).dropColl team c.id).bump) ∧
      (q.s.collOut team c.id = true → exec (.collectiveCompletion team c.id peers) s = .next (q.s.setColl team { c with ran := some nf }))
    (∀ nf, c.ran = some nf →
      (u.collOut team c.id = false → exec (.collectiveCompletion team c.id peers) s = .next ((u.collCount c nf).dropColl team c.id).bump) ∧
      (u.collOut team c.id = true → exec (.collectiveCompletion team c.id peers) s = .next u)) ∧
    (∀ r b, c.ran = none → CollSt.read { s := u } c c.comm 1 64 = (r, b) → r.wait = false →
      let m := readComm c.comm (b.map fun x => BitVec.ofNat 8 x.1)
      (m.bad = true → settles (CollSt.status { r with s := r.s.setStepBit c } c 2) false) ∧
      (∀ z ids, (∀ x ∈ b, x.2 = false) → m.bad = false → (c.kind = .update → 4 * (sliceOf c.count m.nrank m.myrank).2 ≤ m.shard) →
        r.read c m.ranks 1 (2 * m.nrank) = (z, ids) → z.wait = false → (∀ x ∈ ids, x.2 = false) →
        (sharesIn m (rankChips m ids) peers = false → unheld s z.s → exec (.collectiveCompletion team c.id peers) s = .next z.s) ∧
        (sharesIn m (rankChips m ids) peers = true →
          ((∀ x ∈ peers, x.agree = true ∧ ∀ y ∈ x.trailers, y.step = c.step) → ∀ w nf st, CollSt.run z c m peers = (w, nf, st) → w.wait = false →
            settles (CollSt.status (if nf then { w with s := w.s.setStepBit c } else w) c st) nf) ∧
          ((∃ x ∈ peers, x.agree = false ∨ ∃ y ∈ x.trailers, y.step ≠ c.step) →
            settles (CollSt.status { z with s := z.s.setStepBit c } c 2) false))))

/-- Collectives. -/
def Obligations.Collectives : Prop := collectiveWordsHold ∧ collectiveRunsHold

/-! ## Work graphs and launches -/

namespace Sys2Proof.Claims
open Sys2Proof.Machine

/-- The records that WALLOC takes for the lanes of a list that have none yet, in their order, and whether the pool ran empty. -/
def takes (pool : Nat) (isS : Bool) (x : State × Bool) (l : Nat) : State × Bool :=
  if x.2 || x.1.g.wallocGot.any (fun y => y.1 == l) then x
  else
    match x.1.takeRecord pool (x.1.g.holder isS l) l with
    | none => (x.1, true)
    | some (s, va) => (s.modG fun g => { g with wallocGot := g.wallocGot ++ [(l, va)] }, false)
/-- The record that a lane of WSEND names, published to node i. -/
def sends (n : Node) (i : Nat) (f : VF) (s : State) (l : Nat) : State :=
  match s.sendable n (s.g.holder f.a.isS l) (s.rd l .b64 f.a).n with
  | some h => s.sendRecord i l h
  | none => s
/-- A value written whole into an s or z register. -/
def putScalar (s : State) (d : Opnd) (v : Nat) : State :=
  match d with
  | .z i => s.modG fun g => g.setZreg i.val (BitVec.ofNat 64 v)
  | .s i => s.modG fun g => g.putS i.val ⟨v, false⟩
  | _ => s

end Sys2Proof.Claims

/-- R336, R398, R401 to R404: WALLOC gives each active lane a free record of the node's pool and acquires, or stalls on an empty pool
with what it took; WSEND, its release complete, publishes each active lane's record; LAUNCH appends a launch record to a queue, or answers 1
for one that does not take it; BATCH_TIMEOUT launches the open batch of a node of a fast grid. One record for an s register and the
acquire at .pkg on every WALLOC are log entry 61, the choice of a record is entry 9, and the order of the checks entry 126. -/
def Obligations.WorkGraph : Prop :=
  (∀ (p : Pred) (f : VF) (s u : State), let k := (s.rd 0 .b64 f.a).n
    s.Runs p (s.opsOk [(f.d, if f.d.isS then 1 else 2)]) → (s.rd 0 .b64 f.a).poi = false → k < s.gr.nodes.length →
    let ls := if f.d.isS then (s.g.lanesOf (s.allowed p)).take 1 else s.g.lanesOf (s.allowed p)
    let pool := (s.gr.node k).pool
    (ls.foldl (takes pool f.d.isS) (eff s p, false) = (u, false) →
      let va (l : Nat) : W64 := ((u.g.wallocGot.find? fun y => y.1 == l).map (·.2)).getD 0
      let w := ls.foldl (fun s l => s.logIn .walloc l (leBytes 8 (va l).toNat)) (u.acquire .pkg)
      (∀ j, f.d = .s j → exec (.walloc p f) s = retired (w.modG fun g => { g with wallocGot := [] }.putS j ⟨(va (ls.headD 0)).toNat, false⟩)) ∧
      (f.d.isS = false → exec (.walloc p f) s =
        retired (w.modG fun g => { g with wallocGot := [] }.modLanes ls fun l x =>
          x.putRegs g.wb f.d [⟨(va l).setWidth 32, false⟩, ⟨(va l >>> 32).setWidth 32, false⟩]))) ∧
    (ls.foldl (takes pool f.d.isS) (eff s p, false) = (u, true) → exec (.walloc p f) s = stalled s u .walloc)) ∧
  (∀ (p : Pred) (f : VF) (s : State), let k := (s.rd 0 .b64 f.b).n
    s.Runs p (s.opsOk [(f.a, if f.a.isS then 1 else 2)]) → (s.rd 0 .b64 f.b).poi = false → k < s.gr.nodes.length →
    let ls := if f.a.isS then (s.g.lanesOf (s.allowed p)).take 1 else s.g.lanesOf (s.allowed p)
    let n := s.gr.node k
    let u (m : Nat) : State := (ls.take m).foldl (sends n k f) ((eff s p).release .pkg)
    (∀ m l, ls[m]? = some l → ((u m).rd l .b64 f.a).poi = false ∧ n.prod.getLsbD (u m).t.origin = true ∧
      ((u m).sendable n ((u m).g.holder f.a.isS l) ((u m).rd l .b64 f.a).n).isSome = true) →
    drained true (u 0) .pkg → unheld s (u ls.length) → exec (.wsend p f) s = retired (u ls.length)) ∧
  (∀ (p : Pred) (f : VF) (s u : State) (bs : List Byte), let a := (s.rd 0 .b64 f.a).n
    let k := (s.rd 0 .b64 f.b).n
    s.Runs p (fun _ => true) → f.d.isZ = s.gr.det → clean (eff s p) [f.a, f.b] → k < 64 → a % 128 = 0 →
    readsRun (eff s p) u .engRead (s.allowed p) (BitVec.ofNat 64 a) 128 bs →
    let q := u.pkg.queues.get {} k
    ((q.en = false ∨ q.ctx ≠ u.foc.ctx ∨ (q.tail - q.head).toNat = 2 ^ q.logn) → unheld s u →
      exec (.launch p f) s = retired (putScalar (u.logIn .launch 0 (leBytes 8 1)) f.d 1)) ∧
    (q.en = true → q.ctx = u.foc.ctx → (q.tail - q.head).toNat ≠ 2 ^ q.logn →
      let x := u.release .pod
      let v := (x.engineWrite x.foc.core (q.slot q.tail) 0 bs []).modPkg fun p => { p with queues := p.queues.set k { q with tail := q.tail + 1 } }
      drained true x .pod → unheld s v → exec (.launch p f) s = retired (putScalar (v.logIn .launch 0 (leBytes 8 0)) f.d 0))) ∧
  (∀ (grid node : Nat) (s : State), let gr := s.gridAt grid
    let n := gr.node node
    let id := gr.lrec.nteam.toNat + n.batches * gr.nodes.length + node
    gr.det = false → gr.phase = .running → node < gr.nodes.length → n.timeout ≠ 0 → n.gathered ≠ [] →
    ∃ t, exec (.batchTimeout grid node) s = .next t ∧
      (2 ^ 32 ≤ id → (t.gridAt grid).phase = .ended ∧ (t.gridAt grid).cause = 0x0104) ∧
      (id < 2 ^ 32 → t.mem = s.mem ∧ t.groups = s.groups ∧ ((t.gridAt grid).node node).gathered = [] ∧ (∀ k, k ≠ s.nextId → t.teamAt k = s.teamAt k) ∧ (∀ j, j ≠ node → (t.gridAt grid).node j = gr.node j) ∧
        ((t.gridAt grid).node node).batches = n.batches + 1 ∧
        t.teamAt s.nextId = { grid, id := BitVec.ofNat 32 id, node := some (node, n.batches), batch := n.gathered.map (·.va),
                              held := n.gathered.map fun r => { pool := r.pool, index := r.index }, epochO := n.epochO, syncO := n.syncO }))

/-! ## The matrix engine -/

namespace Sys2Proof.Claims
open Sys2Proof.Machine

/-- The gang of the group in focus but for itself, and those of it that wait at the latch (R339). -/
def mates (s : State) : List Nat := (s.gangOf s.g.gang).filter (· != s.foc.grp)
def arrived (s : State) : List Nat := (mates s).filter fun k => (s.grpAt k).stall.isLatch
/-- Every waiting member names the same gang and waits with a word of the same fields. -/
def agree (s : State) : Prop :=
  ∀ k ∈ arrived s, (s.grpAt k).gang = s.g.gang ∧ ∀ w, (s.grpAt k).stall = .latch w → gangKey w = gangKey s.g.iss.word
/-- The checks of R338: all lanes active, a gang named, an aligned accumulator in the window. -/
def mmaFits (s : State) (act : Mask) (f : VF) : Prop :=
  s.gr.streams = true ∧ (∀ l ∈ s.g.laneIdx, act.getLsbD l = true) ∧ s.g.gang ≠ [] ∧ f.d.vIdx % 8 = 0 ∧ f.d.vIdx + fragRegs f.ty ≤ s.g.win

/-- The two chains of an element of C at row r and column c of a member, with their flags, and whether the product takes poison from C. -/
abbrev Chains := (Nat × W32) × (Nat × W32)
/-- The environment of an element: the FPL of its lane and the rounding of the word, with canonical NaNs (R212, R223). -/
def cellEnv (m : MmaPend) (l : Nat) : FpEnv := { fpEnv (m.fpl.getD l 0) m.f.rmo with nanp := false }
/-- What an element starts from (R338, R343): its fragment of C; under .z zero, or with .c the even half alone, a number of C as DAZ reads
it. -/
def startsFrom (m : MmaPend) (l ei oi : Nat) (x : Chains) : Prop :=
  let w := m.f.ty == .f64
  let fmt := accFmt m.f.ty
  let e := (m.old w l ei).n
  (VF.z m.f = false → x = ((e, 0), ((m.old w l oi).n, 0))) ∧
  (VF.z m.f = true → x.2 = (0, 0)) ∧
  (VF.z m.f = true → VF.c' m.f = false → x.1 = (0, 0)) ∧
  (VF.z m.f = true → VF.c' m.f = true → ∀ neg, opnd fmt (cellEnv m l) e = .inf neg → x.1 = (e, 0)) ∧
  (VF.z m.f = true → VF.c' m.f = true → ∀ neg k ex, opnd fmt (cellEnv m l) e = .fin neg k ex → k ≠ 0 → x.1 = (e, 0))
/-- A fragment's element that is poisoned where the product reads it (R343). -/
def poisonedStart (m : MmaPend) (l ei oi : Nat) : Bool :=
  let w := m.f.ty == .f64
  if VF.z m.f then VF.c' m.f && (m.old w l ei).poi else (m.old w l ei).poi || (m.old w l oi).poi
/-- .e adds the odd chain into the even one, with one rounding, and leaves zero in its place (R222). -/
def endsAs (m : MmaPend) (l : Nat) (x : Chains) : Chains :=
  if VF.e m.f then
    let r := fadd (accFmt m.f.ty) (cellEnv m l) (unpack (accFmt m.f.ty) x.1.1) (unpack (accFmt m.f.ty) x.2.1)
    ((r.bits, x.1.2 ||| x.2.2 ||| r.fl), (0, 0))
  else x
/-- What stands at a register of the accumulator: a value of 32 bits, or of 64 in two registers. -/
def holdsAt (t : State) (grp l i : Nat) (w : Bool) (v : Val) : Prop :=
  (t.grpAt grp).vReg l i = (Val.regs v w).getD 0 {} ∧ (w = true → (t.grpAt grp).vReg l (i + 1) = (Val.regs v w).getD 1 {})

end Sys2Proof.Claims

/-- R222 to R224, R342 to R345: what MMA_COMPLETE delivers of a member's product in a native format or an asymmetric one: each element of
its 16 rows and of its columns at the lane and registers of R342, its chains continued from C over the slab, the poison of C's elements,
the flags in the lane's FPL, and the energy of its MACs. -/
def Sys2Proof.Claims.productsHold : Prop :=
  ∀ (grp : Nat) (m : MmaPend) (s : State), (s.grpAt grp).mmaPend = some m → m.f.d.vIdx + fragRegs m.f.ty ≤ 64 → m.cancel = [] →
    let g := s.grpAt grp
    let n := g.gw / 2
    let kb := slabK m.sparse m.f.ty
    let w := m.f.ty == .f64
    let op := if VF.z m.f then none else g.openI
    let lens := segments (VF.group m.f) (kb + 1) (match op with | some o => o.size - o.done | none => VF.group m.f) kb
    let parts := aiParts (VF.group m.f) op lens (4 * (16 + n)) m.scale (if VF.z m.f then 0 else g.mmaK)
    2 * n = g.gw → g.lanes.length = g.gw → 0 < n →
    ∃ t, exec (.mmaComplete grp) s = .next t ∧ (t.grpAt grp).mmaK = (if VF.z m.f then 0 else g.mmaK) + kb ∧
      bankGet t.debited 0 ((s.focusGrp grp).foc.core / 96) = bankGet s.debited 0 ((s.focusGrp grp).foc.core / 96) + macEnergy m.f.ty n ∧
      ∀ r c, r < 16 → c < n → ∀ l ei oi, fragPlace w n r c = (l, ei, oi) →
        let row := keptRow m.sparse m.f.ty m.a m.mta r
        let col (k : Nat) : Nat := matElem (matBits m.f.ty) m.b (c * kb + k)
        let put (v x : Val) : Prop := holdsAt t grp l (m.f.d.vIdx + ei) w v ∧ holdsAt t grp l (m.f.d.vIdx + oi) w x
        (poisonedStart m l ei oi = true → put ⟨(m.old w l ei).n, true⟩ ⟨(m.old w l oi).n, true⟩) ∧
        (poisonedStart m l ei oi = false → ∃ x y : Chains, startsFrom m l ei oi x ∧
          (m.f.ty.isAi = false → y = nativeElem m.f.ty (cellEnv m l) row col kb x.1 x.2) ∧
          (m.f.ty.isAi = true →
            let z := aiElem (cellEnv m l) row col r c 16 parts
              { ev := x.1, od := x.2, sum := match op with | some q => q.sums.getD (r * n + c) 0 | none => 0 }
            y = (z.ev, z.od)) ∧
          put ⟨(endsAs m l y).1.1, false⟩ ⟨(endsAs m l y).2.1, false⟩ ∧
          ((t.grpAt grp).lane l).fpl &&& ((endsAs m l y).1.2 ||| (endsAs m l y).2.2) = (endsAs m l y).1.2 ||| (endsAs m l y).2.2)

/-- R211, R222: the slab of a native format: of each eight consecutive k the products of the even ones are summed exactly and added to the
even chain with one rounding, those of the odd ones to the odd chain. -/
def Sys2Proof.Claims.nativeSumsHold : Prop :=
  (∀ (t : Ty) (env : FpEnv) (row : List (Nat × Nat)) (col : Nat → Nat) (ev od : Nat × W32), nativeElem t env row col 0 ev od = (ev, od)) ∧
  (∀ (t : Ty) (env : FpEnv) (row : List (Nat × Nat)) (col : Nat → Nat) (ev od : Nat × W32) (j n : Nat), 0 < n → n ≤ 8 →
    let x := nativeElem t env row col (8 * j) ev od
    let acc := accFmt t
    let q (odd : Bool) : Machine.Num × W32 := quadSum acc env ((row.filter fun e => e.1 / 8 == j && (e.1 % 2 == 1) == odd).map fun e =>
      (opnd (Ty.fmt t) env e.2, opnd (Ty.fmt t) env (col e.1)))
    let add (c : Nat × W32) (y : Machine.Num × W32) : Nat × W32 :=
      ((fadd acc env (unpack acc c.1) y.1).bits, c.2 ||| (fadd acc env (unpack acc c.1) y.1).fl ||| y.2)
    nativeElem t env row col (8 * j + n) ev od = (add x.1 (q false), add x.2 (q true))) ∧
  (∀ (f : Fmt) (env : FpEnv) (ps : List (Machine.Num × Machine.Num)), (∀ p ∈ ps, (∃ n m e, p.1 = .fin n m e) ∧ ∃ n m e, p.2 = .fin n m e) →
    ∃ n m e, quadSum f env ps = (.fin n m e, 0) ∧
      (exactOf (.fin n m e)).2 = (ps.map fun p => (exactOf p.1).2 * (exactOf p.2).2).sum)

/-- R224: the parts of asymmetric groups in a slab: a group in progress goes on on its own chain, and a group that begins at k, counted from
.z on, is group k / G and feeds the even chain where that number is even and the odd one where it is odd, which is the model's reading
(log entry 123). A group's exact sum goes on from part to part, and, where its last k is in the part, is scaled with one rounding and
added to its chain. -/
def Sys2Proof.Claims.asymmetricSumsHold : Prop :=
  (∀ (size : Nat) (op : Option OpenI) (lens : List Nat) (rowBytes : Nat) (sc : List Byte) (first i : Nat), i < lens.length →
    let lo := (lens.take i).sum
    let n := lens.getD i 0
    let x := (aiParts size op lens rowBytes sc first).getD i default
    x.1 = lo ∧ x.2.1 = n ∧
    (∀ o, i = 0 → op = some o → x.2.2 = (o.odd, o.done + n == size, o.scale)) ∧
    ((i ≠ 0 ∨ op = none) → x.2.2 = ((first + lo) / size % 2 == 1, n == size, (sc.drop (rowBytes * (i - if op.isSome then 1 else 0))).take rowBytes))) ∧
  (∀ (env : FpEnv) (row : List (Nat × Nat)) (col : Nat → Nat) (r c rows : Nat) (ps : List (Nat × Nat × Bool × Bool × List Byte))
      (lo n : Nat) (odd closes : Bool) (sc : List Byte) (x : AiElem),
    let y := aiElem env row col r c rows ps x
    let z := aiElem env row col r c rows (ps ++ [(lo, n, odd, closes, sc)]) x
    let a := scaleOfWord env sc r
    let b := scaleOfWord env sc (rows + c)
    let sum : Int := y.sum + ((row.filter fun k => lo ≤ k.1 && k.1 < lo + n).map fun k => ((k.2 : Int) - a.2) * ((col k.1 : Int) - b.2)).sum
    let t := scaleTerm env a.1 b.1 sum
    let add (e : Nat × W32) : Nat × W32 := chainAdd fp32 env e (unpack fp32 t.bits, t.fl)
    z.sum = (if closes then 0 else sum) ∧ z.ev = (if closes && !odd then add y.ev else y.ev) ∧ z.od = (if closes && odd then add y.od else y.od)) ∧
  (∀ (env : FpEnv) (n n' : Bool) (m m' : Nat) (e e' i : Int),
    scaleTerm env (.fin n m e) (.fin n' m' e') i = resultFin fp32 env ((n != n') != decide (i < 0)) (m * m' * i.natAbs) (e + e'))

/-- R338 to R341, R343, R346 to R348: MMA and MMASP wait at their gang's latch, the last arrival opens it, or traps the gang where a port that
it must pop is broken; the pop takes the gang's entries from the four ports and leaves each member a product to deliver, which MMA_COMPLETE
delivers into the fragment alone; SPUSH pushes its registers, MQSTAT reads a port and MDROP discards whole beats of it. How many SCALE
entries the pop takes is log entry 62, and that MQSTAT takes a z destination in a DET grid alone is entry 37. -/
def Sys2Proof.Claims.matrixWordsHold : Prop :=
  (∀ (p : Pred) (f : VF) (s : State), let u := eff s p
    s.Runs p (fun _ => true) → mmaFits u (s.allowed p) f → agree u →
    let whole : Prop := (mates u).length + 1 = u.g.gang.length ∧ arrived u = mates u
    (¬ whole → exec (.mma p f) s = stalled s u (.latch u.g.iss.word) ∧ exec (.mmasp p f) s = stalled s u (.latch u.g.iss.word)) ∧
    (whole → ∀ sparse : Bool, let i : Instr := if sparse then .mmasp p f else .mma p f
      let broken (n : Nat) : Prop := n ∈ u.gangPorts sparse f (u.gangOf u.g.gang) ∧ (bankGet u.t.ports ({} : Port) n).broken = true
      let v : State := { u with order := u.order + 1, groups := u.groups.update fun k y => if (mates u).contains k then { y with stall := .port u.order [] } else y }
      ((∀ n, ¬ broken n) → exec i s = stalled s v (.port u.order [])) ∧
      (∀ n, broken n → (∀ m, m < n → ¬ broken m) →
        let w := (mates u).foldl (fun x k => x.trapMember k (.brokenPort n)) u
        unheld s w → exec i s = trapped w (failAll w.g (s.allowed p) (.brokenPort n))))) ∧
  (∀ (grp : Nat) (sparse : Bool) (f : VF) (ms : List Nat) (s : State), s.canPop grp = some (sparse, f, ms) →
    (s.focusGrp grp).popState sparse f ms = .pop →
    let g := s.grpAt (ms.headD 0)
    let sizes := entrySizes sparse f ms.length (g.gw / 2) (State.scaleEntries g sparse f)
    ∃ t, exec (.mmaPop grp) s = .next t ∧ t.mem = s.mem ∧ (∀ k ∈ ms, (t.grpAt k).mmaPend ≠ none) ∧
      ∀ i, i < 4 → (bankGet (t.teamAt (s.grpAt grp).team).ports ({} : Port) i).bytes =
        (bankGet (s.teamAt (s.grpAt grp).team).ports ({} : Port) i).bytes.drop (sizes.getD i 0)) ∧
  (∀ (grp : Nat) (m : MmaPend) (s : State), (s.grpAt grp).mmaPend = some m → m.f.d.vIdx + fragRegs m.f.ty ≤ 64 →
    ∃ t, exec (.mmaComplete grp) s = .next t ∧ t.mem = s.mem ∧ (t.grpAt grp).mmaPend = none ∧
      (∀ k, k ≠ grp → t.grpAt k = s.grpAt k) ∧
      ∀ l, ((t.grpAt grp).lane l).pc = ((s.grpAt grp).lane l).pc ∧ ((t.grpAt grp).lane l).k = ((s.grpAt grp).lane l).k ∧
        ∀ j, (j < (s.grpAt grp).wb + m.f.d.vIdx ∨ (s.grpAt grp).wb + m.f.d.vIdx + fragRegs m.f.ty ≤ j) →
          bankGet ((t.grpAt grp).lane l).v {} j = bankGet ((s.grpAt grp).lane l).v {} j) ∧
  (∀ (p : Pred) (f : VF) (s : State) (ts : List Nat), let u := eff s p
    let n := f.m / 4 + 1
    let src := (List.range n).flatMap fun j => u.g.laneIdx.map fun l => u.g.vReg l (f.a.vIdx + j)
    s.Runs p (fun _ => true) → u.gr.streams = true → u.g.idx < u.gr.lrec.p → u.g.converged (s.allowed p) = true → f.a.vIdx + n ≤ u.g.win →
    (∀ r ∈ src, r.poi = false) → (s.rd 0 .n32 f.b).poi = false → u.consumers ((s.rd 0 .n32 f.b).n % 256) = some ts →
    exec (.spush p f) s = retired (u.freshId.1.modT fun t =>
      { t with pushes := t.pushes ++ [{ id := u.nextId, grp := s.foc.grp, port := f.m % 4, bytes := src.flatMap (fun r => leBytes 4 r.val.toNat),
                                        beats := n * u.g.gw / 8, taken := ts.map fun t => (t, 0), mask := s.allowed p, pc := s.g.iss.pc,
                                        retired := s.g.retired }] })) ∧
  (∀ (p : Pred) (f : VF) (s : State), s.gr.streams = true →
    let q := bankGet s.t.ports ({} : Port) f.m
    let v := q.bytes.length + if q.broken then 2 ^ 31 else 0
    (s.Runs p (s.opsOk [(f.d, 1)]) →
      let u := (eff s p).logIn .mqstat f.m (leBytes 4 v)
      (∀ k, f.d = .z k → s.gr.det = true → exec (.mqstat p f) s = retired (u.modG fun g => g.setZreg k (BitVec.ofNat 64 v))) ∧
      (∀ k, f.d = .s k → s.gr.det = false → exec (.mqstat p f) s = retired (u.modG fun g => g.putS k ⟨v, false⟩)) ∧
      (laneDest f.d = true → s.gr.det = false →
        exec (.mqstat p f) s = retired (u.modG fun g => g.modLanes (g.lanesOf (s.allowed p)) fun _ x =>
          x.putRegs s.g.wb f.d [⟨BitVec.ofNat 32 v, false⟩]))) ∧
    (s.Runs p (fun _ => true) → (s.rd 0 .b64 f.b).poi = false →
      let bytes := if (s.rd 0 .b64 f.b).n = 0 then [] else q.bytes.drop (32 * (s.rd 0 .b64 f.b).n)
      exec (.mdrop p f) s = retired ((eff s p).modT fun t =>
        { t with ports := bankPut {} t.ports f.m { q with bytes, broken := q.broken && !bytes.isEmpty } })))

/-- The matrix engine: its words, and the elements that it delivers. -/
def Obligations.Matrix : Prop := matrixWordsHold ∧ productsHold ∧ nativeSumsHold ∧ asymmetricSumsHold

/-! ## The transform pipe -/

namespace Sys2Proof.Claims
open Sys2Proof.Machine

/-- The checks of R350 pass with the operands o. -/
def streamPasses (s : State) (act : Mask) (f : VF) (o : StreamOps) : Prop :=
  s.g.converged act = true ∧ (s.rd 0 .n32 f.a).poi = false ∧ (s.rd 0 .n32 f.b).poi = false ∧ (s.rd 0 .n32 f.c).poi = false ∧
  o = { a := (s.rd 0 .n32 f.a).n, e0 := (s.rd 0 .n32 f.b).n, n := (s.rd 0 .n32 f.c).n } ∧ 1 ≤ o.n ∧ o.n ≤ 8 ∧
  s.g.opOk 0 o.n f.d = true ∧ f.d.fits o.n = true
/-- Each word that lanes of XDEC touch is read and logged (R435), lane by lane and register by register. -/
def wordsLogged (f : VF) (o : StreamOps) (u : State) (ls : List Nat) (s : State) : State :=
  ls.foldl (fun s l => (List.range o.n).foldl (fun s j => (s.streamWords f o l j).foldl (fun s a =>
    s.logRead .xdec (digScr a) (u.scrRead u.foc.team a 4).data) s) s) s

end Sys2Proof.Claims

/-- R349 to R357: XDEC decodes the words it can read, logged where the context logs, XENC writes its field and nothing else of the scratchpad, XSPARSE keeps two of four
values, XMATCH and XSORT work over the active lanes, XPERM and XTRN move registers between lanes. -/
def Obligations.Transforms : Prop :=
  ∀ (p : Pred) (f : VF) (s : State), let u := eff s p
    let ls := s.g.lanesOf (s.allowed p)
    (∀ o, s.Runs p (fun _ => true) → streamPasses u (s.allowed p) f o →
      ((∀ l ∈ ls, ∀ j, j < o.n → ∀ w ∈ u.streamWords f o l j, u.wordFlt w = none) →
        exec (.xdec p f) s = retired (wordsLogged f o u ls (u.modG fun g => g.modLanes ls fun l x =>
          let rs := (List.range o.n).map fun j => u.decodeWord f o l j
          (x.putRegs s.g.wb f.d (rs.map (·.1))).raise (rs.foldl (fun m r => m ||| r.2) 0)))) ∧
      (let t := VF.stream f
       let vs := u.encodeValues f o
       let (bit, w) := VF.span f o vs.length
       (t.mode = 2 → o.e0 % 64 = 0 ∧ vs.length % 64 = 0) → (∀ l ∈ s.g.laneIdx, ∀ j, j < o.n → (s.g.regAt l f.d j).poi = false) →
       (∀ x ∈ rangeWords o.a [(bit / 8, (bit % 8 + w + 7) / 8)], scrClass (u.scrSize s.foc.team) x 4 = 0 ∧ u.scrGuarded s.foc.team x 4 = false) →
       (t.mode ≠ 2 → exec (.xenc p f) s = retired (u.streamWrite o.a bit w ((vs.map (packField t f.sat)).foldr (fun v n => v + 2 ^ t.k * n) 0))) ∧
       (t.mode = 2 →
         let bytes := (List.range (vs.length / 64)).flatMap fun k => encodeBlock t.coarse ((vs.drop (64 * k)).take 64)
         let hit (l : Nat) : Bool := (List.range vs.length).any fun m => m / VF.perWord f % u.g.gw == l && !finite32 (vs.getD m 0)
         exec (.xenc p f) s =
           retired ((u.streamWrite o.a bit w (ofLe bytes)).modG fun g => g.modLanes ((g.lanesOf (s.allowed p)).filter hit) fun _ x => x.raise fNF)))) ∧
    (let n := if f.ty == .f32 then 4 else if f.ty.is16x2 then 2 else 1
     let k := if f.ty == .f32 then 2 else 1
     s.Runs p (s.opsOk [(f.d, k), (f.a, n), (f.c, 1)]) →
      exec (.xsparse p f) s = lanesOut s p fun l x =>
        let rs := tab n fun j => s.g.regAt l f.a j
        let vals := tab 4 fun i => bitsAt (ofLe (rs.flatMap fun r => leBytes 4 r.val.toNat)) (8 * n * i) (8 * n)
        let (lo, hi) := pickTwo fun i => magRank (Ty.fmt f.ty) (vals.getD i 0)
        let kept := vals.getD lo 0 + 2 ^ (8 * n) * vals.getD hi 0
        (x.putRegs s.g.wb f.d (tab k fun j => ⟨BitVec.ofNat 32 (kept / 2 ^ (32 * j)), rs.any (·.poi)⟩)).putRegs s.g.wb f.c
          [⟨BitVec.ofNat 32 (lo + 4 * hi), rs.any (·.poi)⟩]) ∧
    (s.Runs p (s.opsOk [(f.d, 2), (f.a, 1)]) →
      exec (.xmatch p f) s = lanesOut s p fun l x =>
        x.putVec s.g.wb f.d true ⟨(maskOf (ls.filter fun j => (s.g.regAt j f.a 0).val == (s.g.regAt l f.a 0).val)).toNat,
          ls.any fun j => (s.g.regAt j f.a 0).poi⟩) ∧
    (s.Runs p (s.opsOk (withRegs 1 [f.d, f.a, f.b, f.c])) →
      let kv := ls.map fun l => (s.g.regAt l f.a 0, s.g.regAt l f.b 0)
      let key (r : Reg × Reg) : Int := sortKey f.ty r.1.val.toNat
      let poi := kv.any fun r => r.1.poi || r.2.poi
      let sorted := sortBy (fun x y => if f.m % 2 = 1 then key y ≤ key x else key x ≤ key y) kv
      exec (.xsort p f) s = lanesOut s p fun l x =>
        let r := sorted.getD (ls.idxOf l) ({}, {})
        (x.putRegs s.g.wb f.d [{ r.1 with poi }]).putRegs s.g.wb f.c [{ r.2 with poi }]) ∧
    (s.Runs p (s.opsOk [(f.d, f.m % 8 + 1), (f.a, f.m % 8 + 1), (f.b, 1)]) →
      exec (.xperm p f) s = lanesOut s p fun l x =>
        let ix := s.rd l .n32 f.b
        x.putRegs s.g.wb f.d (tab (f.m % 8 + 1) fun j =>
          ⟨(s.g.regAt (ix.n % s.g.gw) f.a j).val, (s.g.regAt (ix.n % s.g.gw) f.a j).poi || ix.poi⟩)) ∧
    (s.Runs p (s.opsOk [(f.d, 8), (f.a, 8)]) →
      exec (.xtrn p f) s = groupOut s p fun g => g.modLanes g.laneIdx fun l x =>
        x.putRegs s.g.wb f.d (tab 8 fun r => s.g.regAt (l / 8 * 8 + r) f.a (l % 8)))

/-! ## Tapes -/

namespace Sys2Proof.Claims
open Sys2Proof.Machine

/-- The issue of a tape word runs, its group has a tape of its own, and no flag it raises is full (R360). -/
def tapeRuns (s : State) (p : Pred) (f : VF) (sts : TapeSt → Bool) : Prop :=
  s.Runs p (fun _ => true) ∧ (eff s p).flagFull ((eff s p).sfNow f.sf) = false ∧ s.g.parent = none ∧ s.gr.lrec.tape ≠ 0 ∧ sts s.g.tape.st = true
/-- The values that a pop takes into a group's lanes, logged behind the record's header (R435). -/
def popLogged (hdr : List Byte) (ls : List Nat) (vals : Nat → List Reg) (s : State) : State :=
  ls.foldl (fun s l => (vals l).foldl (fun s r => s.logReg .tpop l r) s) (s.logIn .tpop 64 hdr)
/-- The group of a tape word is converged. -/
def conv (s : State) (p : Pred) : Prop := (eff s p).g.converged (s.allowed p) = true
/-- What a tape word answers whose effect on the tape completes at once (R175). -/
def tapeOut (f : VF) (u : State) (h : Tape → Tape) : Out :=
  let v := u.flagStart (u.sfNow f.sf)
  retired ((v.1.modTape h).flagEnd v.2)
/-- A record of n words of each active lane that finds room in the slice at once: its bytes and their place. -/
def pushed (s u : State) (f : VF) (act : Mask) (kind n : Nat) (mark : Option (W64 × W32)) (st : TapeSt) : Prop :=
  let r := tapeRecord kind n act s.g.tape.seq (s.recordWords f.a n act) mark
  s.g.tape.occ + r.1.length ≤ s.gr.lrec.slice ∧
  u = (let t := s.g.tape.top
       let v := s.modTape fun t => { t with opMask := act, opPc := s.g.iss.pc, opRet := s.g.retired }
       let v := v.flagStart (v.sfNow f.sf)
       let w := r.2.foldl (fun s o => s.tapePoison (t + o) 4) (v.1.tapePut t r.1)
       let w := w.modTape fun x => { x with top := t + r.1.length, seq := x.seq + 1, recs := x.recs ++ [t], st, filling := x.fillsOn s.gr.lrec.slice (t + r.1.length) }
       (w.modG fun g => g.modLanes (if kind == 2 then (w.g.lanesOf act).filter fun l =>
         (List.range n).any fun j => !finite32 (w.g.vReg l (f.a.vIdx + j)).val.toNat else []) fun _ x => x.raise fNF).flagEnd v.2)

end Sys2Proof.Claims

/-- R169 to R175, R359 to R366: TOPEN opens an empty tape and TCLOSE closes it, with its flag held while a
transfer of the tape is out at a peer; TREC appends a record where the slice has room, or nothing
in a span; TMARK appends a marker and begins a span; TPOP takes the top record back into its lanes; TEND ends a span, or a recompute
with every lane at the block of its pop; TSTAT reads the tape's words; a background transfer that is due spills or fills to the half. A
suppressed TREC completing at once, and TCLOSE discarding a held transfer and keeping SEQ, are log entry 65, and a poisoned resume block is
read as it stands by entry 95. -/
def Obligations.Tapes : Prop :=
  (∀ (p : Pred) (f : VF) (s : State), let u := eff s p
    (tapeRuns s p f (· == .closed) → conv s p → exec (.topen p f) s = tapeOut f u fun t => { st := .normal, closing := t.closing }) ∧
    (tapeRuns s p f (fun _ => true) → conv s p → s.g.tape.closing = none →
      let v := u.flagStart (u.sfNow f.sf)
      (u.tapeOut s.foc.grp = false → exec (.tclose p f) s = tapeOut f u fun t => if t.st == .closed then t else { seq := t.seq }) ∧
      (u.tapeOut s.foc.grp = true → s.g.tape.st ≠ .closed →
        let w := v.1.modPkg fun p => { p with peerOut := p.peerOut.map fun q =>
          if q.tape = true ∧ q.grp = s.foc.grp ∧ q.kind = .load then { q with kind := .pref } else q }
        exec (.tclose p f) s = retired (w.modTape fun t => { seq := t.seq, closing := v.2 }))) ∧
    (tapeRuns s p f (· != .closed) →
      let half := f.m / 8 % 2 == 1
      let n := f.m % 8 + 1
      (s.g.tape.st = .span → exec (.trec p f) s = tapeOut f u id) ∧
      (s.g.tape.st ≠ .span → (half = true → ∀ r ∈ u.recordWords f.a n (s.allowed p), r.poi = false) →
        ∀ v, pushed u v f (s.allowed p) (if half then 2 else 0) n none s.g.tape.st → exec (.trec p f) s = retired v)) ∧
    (tapeRuns s p f (· == .normal) → conv s p → s.g.iss.pc.toNat = s.g.iss.bb.toNat + 8 * blockLen s.g.iss.hdr →
      ∀ v, pushed u v f (s.allowed p) 1 (f.m % 16) (some (s.g.iss.pc + 8, s.g.tape.seq + 1)) .span → exec (.tmark p f) s = retired v) ∧
    (tapeRuns s p f (· == .normal) → conv s p → s.g.tape.b < s.g.tape.top →
      ∀ h, recHdr (u.tapeGet (s.g.tape.top - 16) 16) = some h → (if h.kind = 1 then h.wpl ≤ f.m % 8 + 1 else h.wpl = f.m % 8 + 1) →
      let t := s.g.tape.top - h.size
      let live := h.mask &&& u.g.alive
      let vals (l : Nat) : List Reg := tab h.wpl (u.popValue h t (h.lanes.idxOf l))
      (∀ l ∈ u.g.lanesOf live, ∀ r ∈ vals l, r.poi = false) →
      exec (.tpop p f) s = retired (((popLogged (u.tapeGet (s.g.tape.top - 16) 16).data (u.g.lanesOf live) vals
          (u.modG fun g => g.modLanes (g.lanesOf live) fun l x => x.putRegs g.wb f.d (vals l))).modG fun g =>
        (g.putM f.c.mIdx (BitVec.allOnes 64) (if h.kind = 1 then live else 0) 0).putS f.b.sIdx
          ⟨if h.kind = 1 then ofLe ((u.tapeGet (t + h.pad) 16).data.take 8) else 0, false⟩).modTape fun x =>
        { x with filling := x.fillsOn s.gr.lrec.slice t, top := t, recs := x.recs.dropLast, opMask := s.allowed p, opPc := s.g.iss.pc, opRet := s.g.retired
                 ret := if h.kind = 1 then s.g.iss.bb else x.ret, st := if h.kind = 1 then .recompute else x.st })) ∧
    (tapeRuns s p f (fun st => st == .span || st == .recompute) → conv s p →
      (s.g.tape.st = .span → exec (.tend p f) s = tapeOut f u fun t => { t with st := .normal }) ∧
      (s.g.tape.st = .recompute → ∀ v k, u.target s.g.tape.ret = (v, k) → k.ok = true →
        exec (.tend p f) s = tapeOut f (v.jump (s.allowed p) s.g.tape.ret) fun t => { t with st := .normal })) ∧
    (tapeRuns s p f (fun _ => true) → exec (.tstat p f) s = groupOut s p fun g => g.putS f.d.sIdx ⟨s.g.tape.status s.gr.det (f.m % 4), false⟩)) ∧
  (∀ (grp : Nat) (s : State), let u := s.focusGrp grp
    let spilt := (u.spillToHalf u.g.tape.recs.length).bump
    let filled := (u.fillToHalf u.g.tape.recs.length).bump
    (u.spillDue = true → unheld s spilt → exec (.tapeSpill grp) s = .next spilt) ∧
    (u.fillDue = true → unheld s filled → exec (.tapeFill grp) s = .next filled))

/-! ## Coverage, edges and textures -/

namespace Sys2Proof.Claims
open Sys2Proof.Machine

/-- The channels v of one texel of a lane, from s, which leaves u: of a border texel +0, with no fetch (R371, R372). -/
def tapRead (f : VF) (t : TexRec) (env : FpEnv) (l level : Nat) (tap : Option (Nat × Nat)) (s u : State) (v : List Fx) : Prop :=
  tap = none ∧ u = s ∧ v = List.replicate 4 .zero ∨
    ∃ i bs, tap = some i ∧ s.fetchTexel f t l level (some i) = (u, .got bs) ∧ v = t.channels env bs
/-- Those of the texels of a level in their order, and of the levels in theirs. -/
def tapsRead (f : VF) (t : TexRec) (env : FpEnv) (l level : Nat) : List (Option (Nat × Nat)) → State → State → List (List Fx) → Prop
  | [], s, u, T => u = s ∧ T = []
  | x :: xs, s, u, T => ∃ m v T', tapRead f t env l level x s m v ∧ tapsRead f t env l level xs m u T' ∧ T = v :: T'
def levelsRead (f : VF) (t : TexRec) (env : FpEnv) (l : Nat) : List (Option Samp × Fx) → State → State → Taps → Prop
  | [], s, u, T => u = s ∧ T = []
  | x :: xs, s, u, T => ∃ m v T', (match x.1 with | none => m = s ∧ v = [] | some p => tapsRead f t env l p.level p.taps s m v) ∧
      levelsRead f t env l xs m u T' ∧ T = v :: T'
/-- Every lane of a list comes to its outcome, with every texel fetched and every contribution mapped, from s, which leaves u. -/
def lanesTex (f : VF) (t : TexRec) (lam adj : Bool) : List Nat → State → State → List TexOut → Prop
  | [], s, u, os => u = s ∧ os = []
  | l :: ls, s, u, os => ∃ m o os', s.texOne f t lam adj l = (m, o, [], [], []) ∧ lanesTex f t lam adj ls m u os' ∧ os = o :: os'

end Sys2Proof.Claims

/-- R371 to R374: a lane of a texture word. Poisoned operands poison its results; a coordinate or λ that is not finite gives NaNs and NV,
and scatters nothing; else its texels are fetched and filtered, or give the derivatives, with its contributions mapped. A nearest
sample is the texel at the floor of the coordinates times the size, wrapped by its modes, and its four channels are the result. -/
def Sys2Proof.Claims.texLanesHold : Prop :=
  (∀ (f : VF) (t : TexRec) (lam adj : Bool) (l : Nat) (s u : State) (T : Taps),
    let env := fpEnv (s.g.lane l).fpl f.rmo
    let x := s.texLane f lam adj env l
    let plan := t.plan env x
    let n := if adj then (if lam then 3 else 2) else 4
    (x.poi = true → s.texOne f t lam adj l = (s, { lane := l, rs := List.replicate n .nan, poi := true }, [], [], [])) ∧
    (x.poi = false → adj = false → levelsRead f t env l plan.1 s u T →
      s.texOne f t lam adj l = (u, { lane := l, rs := texResult env plan.1 T, fl := plan.2 }, [], [], [])) ∧
    (x.poi = false → adj = true → (∃ y ∈ plan.1, y.1 = none) →
      s.texOne f t lam adj l = (s, { lane := l, rs := List.replicate n .nan, fl := plan.2 }, [], [], [])) ∧
    (x.poi = false → adj = true → (∀ y ∈ plan.1, y.1 ≠ none) → levelsRead f t env l plan.1 s u T →
      ∀ v rs, u.mapReds l (texScatter t env x plan.1) = (v, rs, []) →
      s.texOne f t lam adj l = (v, { lane := l, rs := texDerivs t env x plan.1 T, fl := plan.2 ||| flagsIn ((texScatter t env x plan.1).map (·.2)),
                                     reds := rs }, [], [], []))) ∧
  (∀ (t : TexRec) (env : FpEnv) (x : TexLane), t.bil = false → x.lam = none →
    (x.x.x.isFin = true → x.y.x.isFin = true →
      let i := floorNum (mulNat x.x.x t.w)
      let j := floorNum (mulNat x.y.x t.h)
      1 ≤ t.w → 1 ≤ t.h → ∃ p, t.plan env x = ([(some p, .one)], 0) ∧ p.level = 0 ∧ p.taps = [t.at' 0 i j] ∧ p.fr = none ∧
        ∀ T : List Fx, T.length = 4 → texResult env [(some p, .one)] [[T]] = T.map (fxDeliver env)) ∧
    (x.x.x.isFin = false ∨ x.y.x.isFin = false →
      ∃ fl, t.plan env x = ([(none, .one)], fl) ∧ fl &&& fNV = fNV ∧ ∀ T, texResult env [(none, .one)] T = List.replicate 4 .nan)) ∧
  (∀ (n : Nat) (i : Int), 1 ≤ n →
    wrapTexel 0 n i = some (i % n).toNat ∧ wrapTexel 1 n i = some (if i < 0 then 0 else if i < n then i.toNat else n - 1) ∧
    (∀ (k r : Nat), r < n → wrapTexel 2 n (2 * n * k + r) = some r ∧ wrapTexel 2 n (2 * n * k + n + r) = some (n - 1 - r)) ∧
    wrapTexel 3 n i = (if 0 ≤ i ∧ i < n then some i.toNat else none))

/-- R367 to R374, R445: RCOV writes the coverage bits of a mask and λ of each lane, ESMP a point of its edge from a draw; TEX and TEXL
write the filtered channels, and TEXADJ the derivatives with its contributions issued, where every texel is fetched and every
contribution mapped. -/
def Sys2Proof.Claims.rasterWordsHold : Prop :=
  (∀ (p : Pred) (f : VF) (s : State), s.Runs p (s.opsOk [(f.d, 3), (f.b, 2)]) →
    let sv (i : Nat) : Val := s.g.sVal (f.a.sIdx + i)
    let c (env : FpEnv) : List Fx := ((List.range 6).flatMap fun i => [(sv i).n % 2 ^ 32, (sv i).n / 2 ^ 32]).map (Fx.op env)
    let xr (l j : Nat) : Reg := s.g.vReg l (f.b.vIdx + j)
    let poi (l : Nat) : Bool := (List.range 6).any (fun i => (sv i).poi) || (xr l 0).poi || (xr l 1).poi
    let res (l : Nat) : Bool × List Fx :=
      let env := fpEnv (s.g.lane l).fpl f.rmo
      rcovLane env (c env) (.op env (xr l 0).val.toNat) (.op env (xr l 1).val.toNat)
    exec (.rcov p f) s = groupOut s p fun g =>
      (g.modLanes (g.lanesOf (s.allowed p)) fun l x => x.putFx s.g.wb f.d (res l).2 0 (poi l)).putM f.c.mIdx (s.allowed p)
        (maskOf ((s.g.lanesOf (s.allowed p)).filter fun l => (res l).1)) (maskOf ((s.g.lanesOf (s.allowed p)).filter poi))) ∧
  (∀ (p : Pred) (f : VF) (s : State), s.Runs p (s.opsOk [(f.d, 6)]) → (s.g.sVal f.a.sIdx).poi = false → (s.g.sVal (f.a.sIdx + 1)).poi = false →
    exec (.esmp p f) s = lanesOut s p fun l x =>
      let env := fpEnv x.fpl f.rmo
      let w (j hi : Nat) : Fx := .op env ((s.g.sVal (f.a.sIdx + j)).n / 2 ^ (32 * hi) % 2 ^ 32)
      { x with ctr := x.ctr + 1 }.putFx s.g.wb f.d (esmpLane env (w 0 0) (w 0 1) (w 1 0) (w 1 1) (s.draw l x)) 0 false) ∧
  (∀ (i : Instr) (p : Pred) (f : VF) (lam adj : Bool) (s u v : State) (bs : List Byte) (t : TexRec) (os : List TexOut),
    (i = .tex p f ∧ lam = false ∧ adj = false ∨ i = .texl p f ∧ lam = true ∧ adj = false ∨ i = .texadj p f ∧ lam = (f.m % 2 == 1) ∧ adj = true) →
    s.Runs p (s.opsOk ([(f.d, if adj then (if lam then 3 else 2) else 4), (f.a, if lam then 3 else 2)] ++ if adj then [(f.c, 4)] else [])) →
    (s.rd 0 .n32 f.b).poi = false → (eff s p).layoutAt (s.rd 0 .n32 f.b).n = .ok bs → readTex bs = (t, true) → (adj = true → t.grad ≠ 0) →
    lanesTex f t lam adj (s.g.lanesOf (s.allowed p)) ((eff s p).logRead .texture (digScr (s.rd 0 .n32 f.b).n) bs) u os →
    (u.setG (os.foldl (fun g o => g.modLane o.lane fun x => x.putFx u.g.wb f.d o.rs o.fl o.poi) u.g)).scatter os = (v, true) →
    unheld s v → exec i s = retired (v.sampled .texture))

/-- Coverage, edges and textures. -/
def Obligations.RasterAndTextures : Prop := rasterWordsHold ∧ texLanesHold

/-! ## Traversal -/

namespace Sys2Proof.Claims
open Sys2Proof.Machine

/-- A lane of TRACE: a new ray from B, in the scene that C names, from its root (R378). -/
def traceLane (f : VF) (s : State) (l : Nat) : State × RayLane :=
  let c := s.rd 0 .b64 f.c
  let b (j : Nat) : Nat := (s.g.vReg l (f.b.vIdx + j)).val.toNat
  s.rayLane f (s.rayPoi f l 8 c.poi) (some (c.n % 2 ^ 32)) l fun s a r =>
    s.rayRun l a { r with org := tab 3 b, dir := tab 3 fun i => b (3 + i), tmin := b 6, tmax := b 7, flags := c.n / 2 ^ 32 % 4, scene := c.n % 2 ^ 32,
                          level := 0, sp := 0, drop := 0, trail := 0, status := 0, href := refNone } true
/-- A lane of TRESUME without a hit to report: a traversal in progress goes on (R378). -/
def resumeLane (f : VF) (s : State) (l : Nat) : State × RayLane :=
  s.rayLane f (s.rayPoi f l 0 false) none l fun s a r => if r.status < 2 then (s, .done a r.bytes r.status []) else s.rayRun l a r false
/-- A lane of TABORT: a traversal in progress ends with the hit it has (R378). -/
def abortLane (f : VF) (s : State) (l : Nat) : State × RayLane :=
  s.rayLane f (s.rayPoi f l 0 false) none l fun s a r =>
    let x := if r.status = 2 ∨ r.status = 3 then ({ r with node := refNone, sp := 0 } : Ray).finish else r
    (s, .done a x.bytes (x.status % 4) [])
/-- A lane of HITADJ: the triangle that its record hit (R382). -/
def hitLane (f : VF) (s : State) (l : Nat) : State × RayLane :=
  s.rayLane f (s.rayPoi f l 0 ((List.range 3).any fun j => (s.g.vReg l (f.c.vIdx + j)).poi)) none l fun s a r =>
    if r.status ≠ 1 ∨ refKind r.href ≠ 1 then (s, .done a [] 0 [])
    else
      s.withScene l r.scene fun s sc =>
        match s.rayFetch l (sc.tris + BitVec.ofNat 64 (48 * refIndex r.href)) 48 with
        | (s, .got b) => (s, .done a b 1 [])
        | (s, .flt fs) => (s, .done a [] 2 fs)
        | (s, .wait ids) => (s, .wait ids)
/-- Every lane of a list comes to a record of bytes bs at address a with status st, with nothing that traps, faults or waits for a peer
or for a lock. -/
def allDone (s v : State) (one : State → Nat → State × RayLane) (ls : List Nat) (a : Nat → Nat) (bs : Nat → List Byte) (st : Nat → Nat) : Prop :=
  s.rayAll ls one = (v, ls.map fun l => (l, .done (a l) (bs l) (st l) [])) ∧ unheld s v
/-- What a traversal word then answers: its records written and its statuses delivered. -/
def rayOut (f : VF) (v : State) (ls : List Nat) (a : Nat → Nat) (bs : Nat → List Byte) (st : Nat → Nat) : Out :=
  let w := v.flagStart (v.sfNow f.sf)
  retired (((ls.foldl (fun s l => ((s.scrWrite s.foc.team (a l) (bs l)).wroteImage (digScr (a l)) (bs l)).modG fun g =>
    g.modLane l fun y => y.putRegs g.wb f.d [⟨BitVec.ofNat 32 (st l), false⟩]) w.1).flagEnd w.2).sampled .traverse)
/-- The state after the records of some lanes have been read, each logged where its context logs (R435). -/
def raysRead (s : State) (ls : List Nat) (a : Nat → Nat) : State :=
  ls.foldl (fun s l => s.logRead .traverse (digScr (a l)) (s.scrRead s.foc.team (a l) 128).data) s

/-- One turn of the loop of R379 that goes on: from record r in s to record q in t. -/
def rayTurn (sc : Scene) (l : Nat) (s : State) (r : Ray) (t : State) (q : Ray) : Prop :=
  (r.node = refNone ∧ 0 < r.sp ∧ t = s ∧
    q = ({ r with node := r.stack.getD (r.sp - 1) 0, level := r.slevAt (r.sp - 1), sp := r.sp - 1 } : Ray).bump (r.slevAt (r.sp - 1))) ∨
  (r.node = refNone ∧ r.sp = 0 ∧ r.drop.testBit 0 = true ∧ 0 < r.level ∧ t = s ∧
    q = { r.bump r.level with drop := r.drop / 2 * 2, node := sc.root, level := 0 }) ∨
  (r.node ≠ refNone ∧ (refKind r.node = 0 ∧ 15 ≤ r.level ∨ 3 ≤ refKind r.node) ∧ t = s ∧ q = { r with node := refNone }) ∨
  (refKind r.node = 0 ∧ r.level < 15 ∧ ∃ b, s.rayFetch l (sc.nodes + BitVec.ofNat 64 (128 * refIndex r.node)) 128 = (t, .got b) ∧
    let cs := (r.children b).drop (r.trailAt r.level)
    q = match cs with
      | [] => { r with node := refNone }
      | c :: more => { more.foldr (fun x r => r.push x (r.level + 1)) r with node := c, level := r.level + 1 }) ∨
  (refKind r.node = 1 ∧ ∃ b, s.rayFetch l (sc.tris + BitVec.ofNat 64 (48 * refIndex r.node)) 48 = (t, .got b) ∧
    match r.triangle b with
    | none => q = { r with node := refNone }
    | some (x, u, v) => r.first = false ∧
        q = { r with tmax := x, hitu := u, hitv := v, hprim := ofLe ((b.drop 36).take 4), href := r.node, node := refNone })
/-- The turn that ends it, with the faults of its fetch. -/
def rayStop (sc : Scene) (l : Nat) (s : State) (r : Ray) (t : State) (q : Ray) (fs : List LaneFlt) : Prop :=
  (r.node = refNone ∧ r.sp = 0 ∧ (r.drop.testBit 0 && 0 < r.level) = false ∧ t = s ∧ q = r.finish ∧ fs = []) ∨
  (refKind r.node = 0 ∧ r.level < 15 ∧ s.rayFetch l (sc.nodes + BitVec.ofNat 64 (128 * refIndex r.node)) 128 = (t, .flt fs) ∧
    q = { r with status := 3 }) ∨
  (refKind r.node = 1 ∧ s.rayFetch l (sc.tris + BitVec.ofNat 64 (48 * refIndex r.node)) 48 = (t, .flt fs) ∧ q = { r with status := 3 }) ∨
  (refKind r.node = 1 ∧ ∃ b x u v, s.rayFetch l (sc.tris + BitVec.ofNat 64 (48 * refIndex r.node)) 48 = (t, .got b) ∧
    r.triangle b = some (x, u, v) ∧ r.first = true ∧ fs = [] ∧
    q = ({ r with tmax := x, hitu := u, hitv := v, hprim := ofLe ((b.drop 36).take 4), href := r.node } : Ray).finish) ∨
  (refKind r.node = 2 ∧ t = s ∧ fs = [] ∧ q = { r with cref := r.node, node := refNone, status := 2 })
/-- A traversal of n turns and one that ends it. -/
def rayWalk (sc : Scene) (l : Nat) : Nat → State → Ray → State → Ray → List LaneFlt → Prop
  | 0, s, r, t, q, fs => rayStop sc l s r t q fs
  | n + 1, s, r, t, q, fs => ∃ u x, rayTurn sc l s r u x ∧ rayWalk sc l n u x t q fs

end Sys2Proof.Claims

/-- R376, R378, R379, R471: a traversal whose scene record reads is the turns of the loop in their order, and leaves the record that the
last of them gives; the fields that no traversal assigns keep their bytes, also where the record lies outside the ranges of its
format (log entry 68). A push puts a reference and its level on the stack, or drops the oldest of twelve; a return to a level counts
its child and forgets what lay below. -/
def Sys2Proof.Claims.rayRunsHold : Prop :=
  (∀ (l a n : Nat) (r q : Ray) (root : Bool) (s t : State) (fs : List LaneFlt), r.scene % 32 = 0 → s.rayRange l r.scene 32 = none →
    s.rayPoison l r.scene 32 = none →
    let b := (s.scrRead s.foc.team r.scene 32).data
    let sc := readScene b
    let r := if root then { r with node := sc.root } else r
    r.wf = true → n < 2 ^ 64 → rayWalk sc l n (s.logRead .traverse (digScr r.scene) b) r t q fs →
    s.rayRun l a r root = (t, .done a q.bytes (q.status % 4) fs)) ∧
  (∀ (l a a' st : Nat) (r : Ray) (root : Bool) (s t : State) (bs : List Byte) (fs : List LaneFlt), r.org.length = 3 → r.dir.length = 3 →
    s.rayRun l a r root = (t, .done a' bs st fs) → a' = a ∧ bs.take 36 = r.bytes.take 36 ∧ st < 4) ∧
  (∀ (r : Ray) (ref lev : Nat), r.stack.length = 12 → r.slev < 2 ^ 48 → lev < 16 →
    (r.sp < 12 → let q := r.push ref lev
      q.sp = r.sp + 1 ∧ q.drop = r.drop ∧ q.stack.getD r.sp 0 = ref ∧ q.slevAt r.sp = lev ∧
        ∀ e, e < 12 → e ≠ r.sp → q.stack.getD e 0 = r.stack.getD e 0 ∧ q.slevAt e = r.slevAt e) ∧
    (r.sp = 12 → let q := r.push ref lev
      q.sp = 12 ∧ q.drop.testBit 0 = true ∧ q.stack.getD 11 0 = ref ∧ q.slevAt 11 = lev ∧
        ∀ e, e < 11 → q.stack.getD e 0 = r.stack.getD (e + 1) 0 ∧ q.slevAt e = r.slevAt (e + 1))) ∧
  (∀ (r : Ray) (lev i : Nat), 1 ≤ lev → lev ≤ 16 → r.trail < 2 ^ 48 → i < 16 →
    (r.bump lev).trailAt i = if i + 1 = lev then (r.trailAt i + 1) % 8 else if i < lev then r.trailAt i else 0)

/-- R375 to R382, R445: TRACE starts, and TRESUME resumes, each lane's traversal and writes its state record and status; a lane that has
finished keeps its record; TABORT ends one where it stands; HITADJ gives the derivatives of a hit, or zeros for a miss. -/
def Sys2Proof.Claims.rayWordsHold : Prop :=
  ∀ (p : Pred) (f : VF) (s v : State) (a : Nat → Nat) (bs : Nat → List Byte) (st : Nat → Nat), let u := eff s p
    let ls := s.g.lanesOf (s.allowed p)
    (s.Runs p (s.opsOk [(f.d, 1), (f.a, 1), (f.b, 8)]) → (s.rd 0 .b64 f.c).n < 2 ^ 34 → u.flagFull (u.sfNow f.sf) = false → ls ≠ [] →
      allDone u v (traceLane f) ls a bs st → exec (.trace p f) s = rayOut f v ls a bs st) ∧
    (f.m % 2 = 0 → s.Runs p (s.opsOk [(f.d, 1), (f.a, 1)]) → u.flagFull (u.sfNow f.sf) = false →
      allDone u v (resumeLane f) ls a bs st → exec (.tresume p f) s = rayOut f v ls a bs st) ∧
    (f.m % 2 = 1 → s.Runs p (s.opsOk [(f.d, 1), (f.a, 1), (f.b, 1)]) → u.flagFull (u.sfNow f.sf) = false →
      ∀ (r : Nat → Ray), (∀ l ∈ ls, s.rd l .b32 f.a = ⟨a l, false⟩ ∧ (s.g.vReg l f.b.vIdx).poi = false ∧ a l % 128 = 0 ∧
        u.rayRange l (a l) 128 = none ∧ u.rayPoison l (a l) 128 = none ∧ r l = readRay (u.scrRead s.foc.team (a l) 128).data) →
      ((∀ l ∈ ls, (r l).status < 2) → exec (.tresume p f) s = rayOut f (raysRead u ls a) ls a (fun l => (r l).bytes) fun l => (r l).status) ∧
      (let t (l : Nat) : Nat := (s.g.vReg l f.b.vIdx).val.toNat
       let hit (l : Nat) : Ray := ({ r l with tmax := t l, hitu := 0, hitv := 0, hprim := refIndex (r l).cref, href := (r l).cref } : Ray).finish
       (∀ l ∈ ls, (r l).status = 2 ∧ (r l).first = true ∧ numLe (fw (r l).tmin).x (fw (t l)).x = true ∧
         numLt (fw (t l)).x (fw (r l).tmax).x = true ∧ (fw (r l).tmax).x.isNan = false) →
       exec (.tresume p f) s = rayOut f (raysRead u ls a) ls a (fun l => (hit l).bytes) fun l => (hit l).status % 4)) ∧
    (s.Runs p (s.opsOk [(f.d, 1), (f.a, 1)]) → u.flagFull (u.sfNow f.sf) = false →
      allDone u v (abortLane f) ls a bs st → exec (.tabort p f) s = rayOut f v ls a bs st) ∧
    (s.Runs p (s.opsOk [(f.d, 15), (f.a, 1), (f.c, 3)]) → allDone u v (hitLane f) ls a bs st → (∀ l ∈ ls, st l < 2) →
      exec (.hitadj p f) s = retired ((v.modG fun g => g.modLanes ls fun l x =>
        x.putFx g.wb f.d (if st l = 0 then List.replicate 15 Fx.zero
          else (readRay (v.scrRead v.foc.team (a l) 128).data).adjoint (fpEnv x.fpl f.rmo) (bs l) (tab 3 fun j => (s.g.vReg l (f.c.vIdx + j)).val.toNat)) 0 false).sampled
            .traverse))

/-- Traversal. -/
def Obligations.Traversal : Prop := rayWordsHold ∧ rayRunsHold

/-! ## The radiance cache -/

namespace Sys2Proof.Claims
open Sys2Proof.Machine

/-- The 32 bits that stand in memory at an address, low byte first. -/
def wordOf (s : State) (a : Nat) : W32 := BitVec.ofNat 32 (ofLe (s.hbm a 4))
/-- The image of the radiance cache (R391): the master, first and second moment of each parameter, the count of steps, the version of these
masters, and 8 bytes of zero. -/
def imageOf (c : Ctx) : List Byte :=
  ((List.range paramCount).flatMap fun i =>
    let p := KMap.get c.rcParams {} i
    leBytes 4 p.master.toNat ++ leBytes 4 p.m.toNat ++ leBytes 4 p.v.toNat) ++
  leBytes 4 c.rcSteps ++ leBytes 4 (c.rcPending.getD c.rcVersion).toNat ++ List.replicate 8 0

end Sys2Proof.Claims

/-- R384, R385, R387: RCQ.t traps the lanes with a poisoned input or target, writes in the others the same results as RCQ, and sends the
eight inputs and three targets of each of those in which all eleven are finite, in lane order; where a sample finds no room in the spill
region the grid ends with the Reduction Spill cause. -/
def Sys2Proof.Claims.trainingQueriesHold : Prop :=
  ∀ (p : Pred) (f : VF) (s w : State) (ok : Bool), f.m % 2 = 1 → s.Runs p (s.opsOk [(f.d, 3), (f.a, 8), (f.b, 3)]) → s.g.rcDue = 0 →
    let ls := s.g.lanesOf (s.allowed p)
    let ins (l : Nat) : List Nat := s.g.words l f.a 8 ++ s.g.words l f.b 3
    let bad (l : Nat) : Option Opnd := if s.g.wordsPoi l f.a 8 then some f.a else if s.g.wordsPoi l f.b 3 then some f.b else none
    let good := ls.filter fun l => (bad l).isNone
    let u := (eff s p).modG fun g => g.modLanes good fun l x =>
      x.putRegs s.g.wb f.d ((rcQuery (s.c.weights s.rcVer) (s.g.words l f.a 8)).map fun n => ⟨BitVec.ofNat 32 n, false⟩)
    (good.filter fun l => (ins l).all finite32).foldl (fun (x : State × Bool) l => ((x.1.enqueue l (ins l)).1, x.2 && (x.1.enqueue l (ins l)).2)) (u, true) =
      (w, ok) →
    let t := good.foldl (fun v l => (List.range 3).foldl (fun v j => v.logReg .rcq l (u.g.vReg l (f.d.vIdx + j))) v) w
    unheld s t →
    exec (.rcq p f) s = if ok then trapped t (ls.filterMap fun l => (bad l).map fun o => (l, Fail.poison o)) else .next (t.fatal 0x0103 0)

/-- R385, R387, R389, R477: a lane's sample: it counts in the lane and in MINE; a frozen cache drops it; in a DET grid it waits for its sync
point, with its 48 bytes in the spill region where they fit; in a fast grid it joins the package's queue, or is dropped and counted where
8,192 samples wait. Its bytes are POS, DIR, NRM, RGH, the targets and four bytes of zero, as they came. MINE in a frozen cache is the
model's reading (log entry 71). -/
def Sys2Proof.Claims.samplesHold : Prop :=
  ∀ (s : State) (l : Nat) (ws : List Nat), ws.length = 11 → (∀ w ∈ ws, w < 2 ^ 32) → l < s.g.lanes.length →
    let x := s.g.lane l
    let u := s.modG fun g => { g.modLane l (fun y => { y with samples := x.samples + 1 }) with rcMine := s.g.rcMine + 1 }
    ∃ q : Sample, q.grid = s.foc.grid ∧ q.team = s.t.id ∧ q.idx = s.g.idx ∧ q.lane = s.g.key l ∧ q.seq = x.samples ∧ q.sync = s.t.syncO + s.g.rcSyncs + 1 ∧
      q.bytes.length = 48 ∧ (∀ i, i < 11 → (q.bytes.drop (4 * i)).take 4 = leBytes 4 (ws.getD i 0)) ∧ q.bytes.drop 44 = [0, 0, 0, 0] ∧
      (s.c.rcFreeze = true → s.enqueue l ws = (u, true)) ∧
      (s.c.rcFreeze = false → s.gr.det = true →
        let v := u.modGr fun g => { g with samples := s.gr.samples ++ [q] }
        s.enqueue l ws = if v.rspOver s.foc.ctx then (v, false) else (v.spillWrite s.foc.ctx q.bytes, true)) ∧
      (s.c.rcFreeze = false → s.gr.det = false →
        s.enqueue l ws = (if 8192 ≤ s.rcDepth then u.modC fun c => { c with rcDropped := s.c.rcDropped + 1 }
          else u.modC fun c => { c with rcQueue := s.c.rcQueue ++ [q] }, true))

/-- R391: CACHE_SAVE writes the image of the parameters at RCIMG, and nothing else of memory; CACHE_LOAD reads it into every replica, with
its version as the only one held, and empties the queue. While a grid of the context runs, both leave the machine as it is. -/
def Sys2Proof.Claims.cacheImagesHold : Prop :=
  ∀ (ctx : Nat) (s : State), s.pkg.inRecovery = false → noPartials s → let c := s.ctxAt ctx
    let a := paLocal c.rcImg.toNat
    let bs := imageOf c
    (s.ctxBusy ctx = true → exec (.cacheLoad ctx) s = .next s ∧ exec (.cacheSave ctx) s = .next s) ∧
    (s.ctxBusy ctx = false → s.blocked c.rcImg.toNat bs.length true = false → s.inSpillRegion a = false →
      ∃ t, exec (.cacheSave ctx) s = .next t ∧ (∀ i, i < bs.length → memGet t.mem (a + i) = bs.getD i 0) ∧
        (∀ b, (b < a ∨ a + bs.length ≤ b) → memGet t.mem b = memGet s.mem b) ∧ (∀ j, t.ctxAt j = s.ctxAt j) ∧ t.groups = s.groups) ∧
    (s.ctxBusy ctx = false → ∃ t, exec (.cacheLoad ctx) s = .next t ∧ t.mem = s.mem ∧ t.groups = s.groups ∧ (∀ j, j ≠ ctx → t.ctxAt j = s.ctxAt j) ∧
      let d := t.ctxAt ctx
      (∀ i, i < paramCount → KMap.get d.rcParams {} i =
        ({ master := wordOf s (a + 12 * i), m := wordOf s (a + 12 * i + 4), v := wordOf s (a + 12 * i + 8) } : Param)) ∧
      d.rcSteps = (wordOf s (a + 12 * paramCount)).toNat ∧ d.rcVersion = wordOf s (a + 12 * paramCount + 4) ∧
      d.rcQueue = [] ∧ d.rcBusy = false ∧ d.rcPending = none ∧ d.rcCopies = [{ num := d.rcVersion, weights := copyOf d.rcParams }])

/-- R383 to R389: RCQ writes each lane's query of the bound version's network, once that version is known, RCSYNC counts into its object or
marks a sync point of a DET grid, and RCSTAT reads the cache; a step takes 4,096 samples, and a version waits for a slot. The bytes of a
slot are log entry 10, what MINE counts entry 71, and the version that a node team waits for entry 100. -/
def Sys2Proof.Claims.cacheWordsHold : Prop :=
  (∀ (p : Pred) (f : VF) (s : State), f.m % 2 = 0 → s.Runs p (s.opsOk [(f.d, 3), (f.a, 8)]) → s.g.rcDue = 0 →
    let ls := s.g.lanesOf (s.allowed p)
    let u := (eff s p).modG fun g => g.modLanes ls fun l x =>
      x.putRegs s.g.wb f.d ((rcQuery (s.c.weights s.rcVer) (s.g.words l f.a 8)).map fun n => ⟨BitVec.ofNat 32 n, s.g.wordsPoi l f.a 8⟩)
    exec (.rcq p f) s = retired (ls.foldl (fun v l => (List.range 3).foldl (fun v j => v.logReg .rcq l (u.g.vReg l (f.d.vIdx + j))) v) u)) ∧
  (∀ (p : Pred) (f : VF) (s : State) (b : BarName), s.Runs p (fun _ => true) → (s.rd 0 .n32 f.a).poi = false →
    (eff s p).barName false (s.rd 0 .n32 f.a).n = some b →
    (s.gr.det = false → exec (.rcsync p f) s = retired ((eff s p).barLand b 8)) ∧
    (s.gr.det = true → exec (.rcsync p f) s = retired ((((eff s p).modG fun g => { g with rcSyncs := g.rcSyncs + 1 }).modT fun t =>
      { t with syncBars := t.syncBars ++ [(s.t.syncO + s.g.rcSyncs + 1, b)] }).countSyncs s.foc.team))) ∧
  (∀ (p : Pred) (f : VF) (s : State), s.Runs p (fun _ => true) → (f.m % 4 = 0 → s.g.rcDue = 0) →
    exec (.rcstat p f) s = groupOut s p fun g => g.putS f.d.sIdx ⟨match f.m % 4 with
      | 0 => s.rcVer.toNat * 2 ^ 32 + s.c.rcVersion.toNat
      | 1 => (if s.gr.det then 0 else s.c.rcDropped.toNat) * 2 ^ 32 + s.g.rcMine.toNat
      | _ => if s.gr.det then 0 else (if s.c.rcBusy then 2 ^ 16 else 0) + min 65535 s.rcDepth, false⟩) ∧
  (∀ (grid : Nat) (s : State), s.syncReady grid = true →
    let gr := s.gridAt grid
    let qs := gr.samples.filter fun q => q.sync ≤ gr.syncs + 1
    let c := s.ctxAt gr.ctx
    exec (.syncPoint grid) s = .next (((s.setCtxAt gr.ctx
      { c with rcQueue := c.rcQueue ++ if c.rcFreeze then [] else sortBy Sample.before qs }).setGridAt grid
        { gr with samples := gr.samples.filter (fun q => gr.syncs + 1 < q.sync), syncs := gr.syncs + 1 }).settle grid)) ∧
  (∀ (ctx : Nat) (s : State), let c := s.ctxAt ctx
    (c.rcBusy = false → c.rcFreeze = false → 4096 ≤ c.rcQueue.length → exec (.temperStep ctx) s = .next (s.setCtxAt ctx { c with rcBusy := true })) ∧
    (c.rcBusy = true → 4096 ≤ c.rcQueue.length → exec (.temperStep ctx) s = .next ((s.setCtxAt ctx c.stepDone).settleAll ctx)) ∧
    (∀ v i, c.rcPending = some v → s.freeSlot ctx = some i →
      let u := s.homeWrite (c.rcSnap.toNat + slotStride * i) noCp (tab (2 * paramCount) fun j => Config.privateLayout (s.freeKey j)) []
      let w := ((u.setCtxAt ctx
        { u.ctxAt ctx with rcCopies := s.heldCopies ctx ++ [{ num := v, slot := some i, weights := copyOf c.rcParams }], rcVersion := v,
                           rcPending := none }).bump.settleAll ctx)
      unheld s w → exec (.versionPublish ctx) s = .next w))

/-- The radiance cache. -/
def Obligations.RadianceCache : Prop := cacheWordsHold ∧ trainingQueriesHold ∧ samplesHold ∧ cacheImagesHold

/-! ## Turns, waits and the end of groups -/

/-- R98, R111, R114, R189, R257, R405, R415: what lets a group go on or first: a flag whose operation is complete falls by one; the lanes
at a wait whose phase is over run again where they stand; a stall that is over leaves the group free to issue; a lane that waited 256
issues makes the issue set; a starving group ranks before others; a YIELD is over; an instruction that would retire in a handler with no
budget left ends its grid instead, as the statement of each word says of a handler whose budget is over. Recording the forced issue, the
ready age of 256 and the end of a YIELD are log entry 76, and the overrun at budget 0 is entry 75. -/
def Obligations.Waking : Prop :=
  ∀ (grp : Nat) (s : State), let g := s.grpAt grp
    (∀ i, g.fdone.contains i = true → exec (.flagClear grp i) s = .next (s.setGrpAt grp { g.flagDown i with fdone := g.fdone.erase i })) ∧
    (g.stopped = false → s.stopDue grp = false → g.waitSet ≠ [] → (∀ l ∈ g.waitSet, (g.lane l).waitEnd = .over) →
      (∀ r r' rs, g.owed g.waitSet = r :: r' :: rs → ∃ t, exec (.laneWaitResume grp) s = .next t ∧ (t.grpAt grp).retired = g.retired + 1 ∧
        ∀ l, ((t.grpAt grp).lane l).st = (g.lane l).st ∧ ((t.grpAt grp).lane l).wait = (g.lane l).wait) ∧
      ((g.owed g.waitSet).length ≤ 1 → ∃ t, exec (.laneWaitResume grp) s = .next t ∧
        (t.grpAt grp).retired = g.retired + BitVec.ofNat 64 (g.owed g.waitSet).length ∧ ((s.focusGrp grp).c.dbgLogOn = false → t.mem = s.mem) ∧ (t.grpAt grp).handler = g.handler ∧
        ∀ l, ((t.grpAt grp).lane l).pc = (g.lane l).pc ∧ ((t.grpAt grp).lane l).v = (g.lane l).v ∧
          (l ∈ g.waitSet → ((t.grpAt grp).lane l).st = .running ∧ ((t.grpAt grp).lane l).wait = .none) ∧
          (l ∉ g.waitSet → ((t.grpAt grp).lane l).st = (g.lane l).st))) ∧
    (s.stallOver grp = true →
      exec (.groupStallWake grp) s = .next (s.setGrpAt grp { g with stall := .none, afterStall := g.afterStall || g.stall == .fault })) ∧
    (∀ pc, s.mayIssue grp = true → g.handler = none → (∃ l ∈ g.inState .running, 256 ≤ (g.lane l).rot) → g.issuePc = some pc →
      let ls := (g.inState .running).filter fun l => (g.lane l).pc == pc
      exec (.rotationRule grp) s =
        .next (s.setGrpAt grp { g with iss := { pc, bb := (g.lane (ls.headD 0)).bb, hdr := (g.lane (ls.headD 0)).hdr, set := maskOf ls } })) ∧
    (s.mayIssue grp = true → g.handler = none →
      ∃ t, exec (.starvationGuard grp) s = .next t ∧ (t.grpAt grp).issueClass = 1 ∧ ∀ k, k ≠ grp → t.grpAt k = s.grpAt k) ∧
    (s.yieldOver grp = true → exec (.yieldRelease grp) s = .next (s.setGrpAt grp { g with yielded := false })) ∧
    (∀ (h : Handler) (u : State) (i : Instr), g.handler = some h → h.budget = 0 → s.mayIssue grp = true → i.parts ≠ none →
      (s.focusGrp grp).prepare = .go u i → u.g.iss.handler = true → exec (.handlerOverrun grp) s = exec i u)

/-! ## Grids, teams and groups -/

namespace Sys2Proof.Claims
open Sys2Proof.Machine

/-- What R197 asks of a group or part that retires: it runs, every lane has exited, its flags are clear with none still to fall, and no
command, push or collective of it, or of the parts it was fused from, is outstanding; nor is a product, a stall, a trap or a stop. -/
def groupOver (s : State) (grp : Nat) : Prop :=
  let g := s.grpAt grp
  let t := s.teamAt g.team
  g.phase = GrpPhase.running ∧ t.phase = .resident ∧ g.handler = none ∧ g.stall = .none ∧ g.stopped = false ∧ g.mmaPend = none ∧
  (∀ l, l < g.gw → (g.lane l).st = .exited) ∧ (∀ n ∈ g.flags, n = 0) ∧ g.fdone = [] ∧
  ∀ k, (k ∈ t.cmds.map (·.grp) ∨ k ∈ t.pushes.map (·.grp) ∨ k ∈ t.colls.map (·.grp)) → g.owns (s.grpAt k) = false
/-- R197: a group or part retires; the team flushes and sync points that waited for it follow, and gangs that name it trap (R139, R339,
R388). -/
def groupsRetireHold : Prop :=
  ∀ (grp : Nat) (s : State), groupOver s grp →
    let g := s.grpAt grp
    let u := (s.focusGrp grp).modG fun g => { g with phase := .retired }
    let v := if g.parent = none then u.gangRetired g.idx else u
    exec (.groupRetirement grp) s = .next ((v.runFlushes g.team).countSyncs g.team) ∧ (u.grpAt grp).phase = .retired ∧
    (u.grpAt grp).lanes = g.lanes ∧ ∀ k, k ≠ grp → u.grpAt k = s.grpAt k
/-- R197, R401: a team whose groups have all retired retires; what its retirement releases has performed where it gives records back,
its tapes are closed and its room released, and the nodes that drain follow. -/
def teamsRetireHold : Prop :=
  ∀ (team : Nat) (s : State), let t := s.teamAt team
    let u := if t.held = [] then s else s.flushCore t.core
    t.phase = .resident → (s.gridAt t.grid).phase = .running → t.landed = [] → (∀ e ∈ s.groups, e.2.team = team → e.2.phase = .retired) →
    ((u.teamAt team).held = [] ∨ u.coreClear (u.teamAt team).core = true) → unheld s (u.retireTeam team) →
    exec (.teamRetirement team) s = .next (u.retireTeam team) ∧
    ∃ v : State, u.retireTeam team = v.drainNodes (v.teamAt team).grid (v.gridAt (v.teamAt team).grid).nodes.length ∧
      (v.teamAt team).phase = .retired ∧ (v.teamAt team).held = [] ∧ (v.teamAt team).reserved = 0 ∧
      ∀ k ∈ (v.teamAt team).groups, (v.grpAt k).tape.st = .closed
/-- R397, R103: the host sets a queue's TAIL, behind the host's accesses that still wait. -/
def tailsSetHold : Prop :=
  ∀ (queue : Nat) (tail : W32) (s : State), s.pkg.inRecovery = false → queue < 64 → (∀ w ∈ s.pkg.waiting, ∃ a o, w = .peer a o) →
    exec (.lqtailWrite queue tail) s = .next (s.modPkg fun p => { p with queues := p.queues.set queue { p.queues.get {} queue with tail } })
/-- R392, R394, R397: the record at HEAD of an enabled queue that is not empty, whose 128 bytes pass the checks and whose graph can be read
and passes R400, is taken, and its grid is pending behind those taken before it. -/
def recordsTakenHold : Prop :=
  ∀ (queue : Nat) (s v : State) (ns : List Node) (ps : List Pool), let q := s.pkg.queues.get {} queue
    let c := s.ctxAt q.ctx
    q.en = true → q.head ≠ q.tail → c.ctxState = 0 → (∀ x ∈ c.unitRecs, x.1 ≠ .dist) →
    let b := s.homeBytes (q.slot q.head) 128 noCp
    let r := parseLaunch b.2.data
    (∀ i, i < 128 → b.2.poi.getD i false = false) → r.done.toNat % 8 = 0 → (∃ tr, b.1.translateUnit q.ctx .engWrite r.done = .ok tr) →
    r.ok (b.2.data.drop 120) s.pkg = true → b.1.readGraph q.ctx r = (v, ns, ps, true, none, false) →
    let w := (v.modPkg fun p => { p with queues := p.queues.set queue { q with head := q.head + 1 } }).distForget q.ctx
    unheld s w → exec (.launchRecordTake queue) s =
      .next (({ w with nextId := w.nextId + 1, order := w.order + 1 } : State).setGridAt w.nextId
        { lrec := r, queue, ctx := q.ctx, order := w.order, nodes := ns, pools := ps })

/-- A reply of a peer to the distributor is not the one for a VA. -/
def notFor (s : State) (ctx : Nat) (va : W64) (r : Reply) : Bool :=
  match s.walk ctx va with
  | .ok p => r.pa != p.pa va
  | .error _ => true
/-- A dependence word is none, or reads with bit 63 set, and what a peer sent for it is done with. -/
def depSet (s u : State) (ctx : Nat) (va : W64) : Prop :=
  (va = 0 ∧ u = s) ∨ (va ≠ 0 ∧ ∃ (v : State) (w : W64), s.distWord ctx .engRead va = (v, .word w) ∧ w.getLsbD 63 = true ∧
    u = v.setCtxAt ctx { v.ctxAt ctx with distFetched := (v.ctxAt ctx).distFetched.filter (notFor v ctx va) })
/-- The word at va is a header of KIND k, or cannot be read yet, which the first issue then meets (R228, R410). -/
def startsAt (s u : State) (ctx : Nat) (va : W64) (k : HKind) : Prop :=
  (∃ w h, s.distWord ctx .fetch va = (u, .word w) ∧ decodeHeader w = some h ∧ h.kind = k) ∨ ∃ f, s.distWord ctx .fetch va = (u, .flt f)
/-- R228, R388, R396: a pending grid of a context that is enabled and not switched out, which waits for no step, starts once its dependence
words are set, with the headers that its record names. -/
def gridsStartHold : Prop :=
  ∀ (grid : Nat) (s u v w x : State), let gr := s.gridAt grid
    let c := s.ctxAt gr.ctx
    gr.phase = .pending → c.root.getLsbD 0 = true → c.ctxState = 0 → (∀ x ∈ c.unitRecs, x.1 ≠ .dist) →
    (gr.det = true → c.rcBusy = false ∧ c.rcPending = none ∧ (c.rcFreeze = true ∨ c.rcQueue.length < 4096) ∧
      ∀ e ∈ s.grids, e.2.ctx = gr.ctx → e.2.order < gr.order → e.2.phase ≠ .running) →
    depSet s u gr.ctx gr.lrec.dep0 → u.gridAt grid = gr → depSet u v gr.ctx gr.lrec.dep1 →
    startsAt (v.setGridAt grid gr) w gr.ctx gr.lrec.entry .grid →
    ((gr.lrec.trapv = 0 ∧ x = w) ∨ (gr.lrec.trapv ≠ 0 ∧ startsAt w x gr.ctx gr.lrec.trapv .trap)) →
    let y := (x.distForget gr.ctx).setGridAt grid { gr with phase := .running, startVersion := (x.ctxAt gr.ctx).rcVersion }
    unheld s y → exec (.gridStart grid) s = .next y
/-- What R399 asks of a core for a new team of a grid: quarters (R182), scratchpad at a 768-byte offset (R28), ports (R125), energy. -/
def coreTakes (s : State) (core base : Nat) (r : LaunchRec) : Prop :=
  core < 1536 ∧ s.scrRoom core r.allocSize = some base ∧ s.quartersFit core r = true ∧ (r.flag 1 = true → s.portsFree core = true) ∧
  s.energyFits core r.energy = true
/-- R399, R32, R183: the next team or team set of a grid is placed on cores of one cluster that take its teams one after another, when no
saved team of the grid goes before it and no grid before it in the order has anything to place that fits. A team placed alone is resident
on its core, in its room, with its groups. -/
def teamsPlacedHold : Prop :=
  ∀ (grid : Nat) (cores : List Nat) (keep : Bool) (s : State), let r := s.nextTeams grid
    s.nextSaved grid = none → s.wantsPlace grid = true → (∀ k ∈ s.grids.keys, k ≠ grid → s.gridBefore k grid = true → s.roomNow k = none) →
    (∀ c ∈ cores, c / 96 = cores.headD 0 / 96) →
    (∀ t, r.2 ≠ [] → r.1.placeAll keep r.2 (cores.take r.2.length) = some t → exec (.teamPlacement grid cores keep) s = .next t) ∧
    (∀ k core rest base, r.2 = [k] → cores = core :: rest → (r.1.teamAt k).phase = .pending →
      let l := (r.1.gridAt (r.1.teamAt k).grid).lrec
      coreTakes r.1 core base l →
      ∃ t, exec (.teamPlacement grid cores keep) s = .next t ∧ (t.teamAt k).phase = .resident ∧ (t.teamAt k).core = core ∧ (t.teamAt k).base = base ∧
        (t.teamAt k).size = l.allocSize ∧ (t.teamAt k).groups.length = l.ngroups ∧ t.mem = s.mem)
/-- R424: a request is withdrawn. -/
def withdrawalsHold : Prop :=
  ∀ (team : Nat) (s : State), (s.teamAt team).preReq = true → (s.ctxAt (s.gridAt (s.teamAt team).grid).ctx).ctxState = 0 →
    exec (.preEmptionWithdraw team) s = .next (s.setTeamAt team { s.teamAt team with preReq := false, letGo := false })

/-- What R396 asks of a grid that completes: it has ended abnormally (R423), or each of its teams has been placed and has retired, every
node has drained, every epoch has closed, nothing of its teams is outstanding, and the samples of a DET grid have met their last sync
point. -/
def gridOver (s : State) (grid : Nat) : Prop :=
  let gr := s.gridAt grid
  gr.phase = .ended ∨
    gr.phase = .running ∧ gr.allCreated = true ∧ gr.flight = [] ∧ gr.staged = [] ∧ (∀ n ∈ gr.nodes, n.drained = true ∧ n.gathered = []) ∧
    (∀ e ∈ s.teamsOf grid, e.2.phase = .retired ∧ e.2.flushBars = [] ∧ e.2.cmds = [] ∧ e.2.colls = [] ∧ e.2.pushes = []) ∧ s.syncsDone grid = true
/-- R104, R396, R423: a grid that is over is complete with its completion word, a release at .pod: the word is written once every store and
partial of the grid has performed, and until then they are on their way. -/
def gridsCompleteHold : Prop :=
  ∀ (grid : Nat) (s : State), gridOver s grid → let gr := s.gridAt grid
    let u := s.cores.keys.foldl (fun s k => s.flushCore k) s
    unheld s u →
    (u.gridBusy grid = true → exec (.gridCompletion grid) s = .next u) ∧
    (u.gridBusy grid = false →
      let v : State := { u with
        teams := u.teams.update fun _ t => if t.grid == grid then { t with cmds := [], colls := [], pushes := [], size := 0 } else t
        groups := u.groups.update fun _ g => if (s.teamAt g.team).grid == grid then { g with flags := [], fdone := [], replies := [] } else g }
      let w := v.writeDone gr.ctx gr.queue gr.lrec gr.cause
      unheld s w → ∃ t, exec (.gridCompletion grid) s = .next t ∧ (t.gridAt grid).phase = .done ∧ t.mem = w.mem)

end Sys2Proof.Claims

/-- R104, R197, R394 to R399, R401, R423, R424: groups and teams retire, a queue's tail is set, a launch record is taken, a grid starts, a team
is placed, a pre-emption request is withdrawn, and a grid completes. -/
def Obligations.Residency : Prop :=
  groupsRetireHold ∧ teamsRetireHold ∧ tailsSetHold ∧ recordsTakenHold ∧ gridsStartHold ∧ teamsPlacedHold ∧ withdrawalsHold ∧ gridsCompleteHold

/-! ## Contexts -/

/-- R425 to R430: a team that may leave is saved with its set, with every register of its groups and no reply of a peer, so that what waits
for one starts over (R46), and its set is placed again. -/
def Sys2Proof.Claims.teamsLeaveHold : Prop :=
  (∀ (team : Nat) (s v : State), let cores := (s.setOf team).map fun k => (s.teamAt k).core
    let u := cores.foldl (fun s c => s.flushCore c) s
    s.canEvict team = true → unheld s u → (∀ c ∈ cores, u.coreClear c = true) →
    u.saveRoom (s.gridAt (s.teamAt team).grid).ctx = (v, true) →
    ∃ t, exec (.eviction team) s = .next t ∧ t.mem = v.mem ∧
      (∀ k ∈ v.setOf team, (v.teamAt k).phase = .resident →
        (t.teamAt k).phase = .saved ∧ (t.teamAt k).size = 0 ∧ (t.teamAt k).reserved = 0 ∧ (t.teamAt k).preReq = false ∧
        (t.teamAt k).scr = (v.teamAt k).scr ∧ (t.teamAt k).ports = (v.teamAt k).ports ∧ (t.teamAt k).contribs = (v.teamAt k).contribs) ∧
      (∀ k, k ∉ v.setOf team → t.teamAt k = v.teamAt k) ∧
      (∀ j, let g := v.grpAt j
        let h := t.grpAt j
        h.lanes = g.lanes ∧ h.s = g.s ∧ h.m = g.m ∧ h.a = g.a ∧ h.z = g.z ∧ h.handler = g.handler ∧ h.flags = g.flags ∧ h.tape = g.tape) ∧
      ∀ e ∈ v.groups, e.2.team ∈ v.setOf team → e.2.phase = .running → (t.grpAt e.1).replies = []) ∧
  (∀ (team core : Nat) (s : State) (ks : List (Nat × Nat)), s.canRestore team = true → s.outranked (s.teamAt team).grid = false →
    (∃ k ∈ s.setOf team, s.nextSaved (s.teamAt team).grid = some k) → s.restoreCores team core = some ks →
    exec (.teamRestore team core) s = .next ((ks.foldl (fun s x =>
      match s.seat x.1 x.2 with
      | none => s
      | some s =>
        (s.teamAt x.1).groups.foldl State.retryTape (s.dropValid x.2 fun _ => true)) s).settleResume (s.gridAt (s.teamAt team).grid).ctx))

/-- R34: a RETRY of a context with no held transfer does nothing; where one group of it holds a transfer of its own, that transfer is tried
again, and has performed. A record spilled leaves the tape resident from its end on, and one filled from its start on (R174). -/
def Sys2Proof.Claims.retriesHold : Prop :=
  (∀ (ctx : Nat) (s : State), s.pkg.inRecovery = false →
    ((∀ e ∈ s.groups, e.2.tape.held = none) → exec (.fqctlRetry ctx) s = .next s.bump) ∧
    (∀ (k : Nat) (spill : Bool) (w : State), let g := s.grpAt k
      s.groups.filter (fun e => e.2.tape.held.isSome) = [(k, g)] → g.tape.held = some spill → g.tape.heldBack = false → g.phase ≠ .retired →
      (s.teamAt g.team).phase = .resident → (s.gridAt (s.teamAt g.team).grid).ctx = ctx → (s.ctxAt ctx).holds (.tape k) = false →
      let v := (s.focusGrp k).modTape fun t => { t with held := none }
      (if spill then v.spillOne false else v.fillOne false) = .done w → unheld s w → exec (.fqctlRetry ctx) s = .next w.bump)) ∧
  (∀ (fore : Bool) (s u : State) (ps : List Part) (t e : Nat), s.tapeStuck = false → s.g.tape.oldest = some (t, e) → e ≤ s.gr.lrec.tseg →
    s.mapRun .tape (s.segBase + BitVec.ofNat 64 t) (e - t) = (u, ps, []) →
    ∃ v, s.spillOne fore = .done v ∧ v.g.tape = { u.g.tape with b := e } ∧ v.g.lanes = u.g.lanes) ∧
  (∀ (fore : Bool) (s u v : State) (ps : List Part) (b : Bytes) (t : Nat), s.tapeStuck = false → s.g.tape.youngest = some t →
    s.g.tape.top - t ≤ s.gr.lrec.slice → s.mapRun .tape (s.segBase + BitVec.ofNat 64 t) (s.g.tape.b - t) = (u, ps, []) →
    u.readSegment ps = (v, b, []) →
    ∃ w, s.fillOne fore = .done w ∧ w.g.tape = { v.g.tape with b := t, fetched := [] } ∧ w.g.lanes = v.g.lanes ∧ w.mem = v.mem)

/-- R25, R26, R45, R69, R428 to R431: a switch asks every resident team to leave, and completes once none is; a saved context resumes with
the parameters of its image; KILL ends its grids; an invalidation is accepted, and completes once no access is out; a write of FQHEAD, an
unpinning and a write of PINW. -/
def Sys2Proof.Claims.contextEventsHold : Prop :=
  (∀ (ctx : Nat) (s : State), s.pkg.inRecovery = false → let c := s.ctxAt ctx
    (c.ctxState = 0 → ∃ t, exec (.switch ctx) s = .next t ∧ (t.ctxAt ctx).ctxState = 1 ∧ t.mem = s.mem ∧
      ∀ k x, KMap.find s.teams k = some x → x.phase = .resident → (s.gridAt x.grid).ctx = ctx → (t.teamAt k).preReq = true) ∧
    (c.ctxState = 1 → c.killing = false → s.anyResident ctx = false → ∀ u, s.saveRoom ctx = (u, true) →
      let v := ((((u.gridsIn ctx (· == .running)).foldl State.spillGrid u).saveSlots ctx).saveCache ctx).releaseSeg ctx
      unheld s v → exec (.switchComplete ctx) s = .next ((v.setCtxAt ctx { v.ctxAt ctx with ctxState := 2, trGap := true }).raise ctx)) ∧
    (c.ctxState = 2 → noPartials s →
      let a := paLocal c.rcImg.toNat
      ∃ t, exec (.contextResume ctx) s = .next t ∧ (s.waitingRecs ctx = 0 → t.mem = s.mem) ∧
        (t.ctxAt ctx).ctxState = (if s.teams.any fun e => e.2.phase == .saved && (s.gridAt e.2.grid).ctx == ctx then 3 else 0) ∧
        (∀ i, i < paramCount → KMap.get (t.ctxAt ctx).rcParams {} i =
          ({ master := wordOf s (a + 12 * i), m := wordOf s (a + 12 * i + 4), v := wordOf s (a + 12 * i + 8) } : Param)) ∧
        (t.ctxAt ctx).rcSteps = (wordOf s (a + 12 * paramCount)).toNat ∧ (t.ctxAt ctx).rcVersion = c.rcVersion) ∧
    (noPartials s → ∃ t, exec (.kill ctx) s = .next t ∧
      ∀ k gr, KMap.find s.grids k = some gr → gr.ctx = ctx → (gr.phase = .pending ∨ gr.phase = .running) →
        (t.gridAt k).phase = .ended ∧ (t.gridAt k).cause = 0x0105) ∧
    (∀ n : W32, ∃ t, exec (.invalidationRequest ctx n) s = .next t ∧ (t.ctxAt ctx).invReqs = c.invReqs ++ [{ page := c.invVA, count := n }] ∧
      (∀ co ∈ t.cores, ∀ e ∈ co.2.tlb, e.ctx = ctx → e.hit { page := c.invVA, count := n } = false) ∧
      ∀ cl ∈ t.pkg.ctlb, ∀ e ∈ cl.2, e.ctx = ctx → e.hit { page := c.invVA, count := n } = false) ∧
    (s.invDone ctx = true → exec (.invalidationComplete ctx) s = .next (s.setCtxAt ctx { c with invReqs := c.invReqs.drop 1, invSeq := c.invSeq + 1 })) ∧
    (∀ h : W32, (s.waitingRecs ctx = 0 → exec (.fqheadWrite ctx h) s = .next (s.setCtxAt ctx { c with fqHead := h })) ∧
      (noPartials s → exec (.fqheadWrite ctx h) s = .next ((s.setCtxAt ctx { c with fqHead := h }).drainAll ctx)))) ∧
  (∀ s : State, s.pkg.inRecovery = false → ∃ t, exec .llcctlUnpin s = .next t ∧ t.pkg.pinned = [] ∧ t.mem = s.mem) ∧
  (∀ (n : BitVec 4) (s : State), s.pkg.inRecovery = false →
    ∃ t, exec (.pinwWrite n) s = .next t ∧ t.mem = s.mem ∧ t.pkg.pinw = if n.toNat ≤ 8 then n.toNat else s.pkg.pinw)

/-- Teams that leave and come back, held transfers, and the events of a context. -/
def Obligations.Contexts : Prop := teamsLeaveHold ∧ retriesHold ∧ contextEventsHold

/-! ## Debugging and tracing -/

namespace Sys2Proof.Claims
open Sys2Proof.Machine

/-- A counter of 32 bits that stays at its top. -/
def satUp (x : W32) : W32 := if x = 0xFFFFFFFF#32 then x else x + 1

end Sys2Proof.Claims

/-- R15, R442, R443: a packet of the trace unit: dropped and counted where no segment may start; a fault of its segment's page, or a page
without W, PROF and PIN, sets FAULT and clears TRACE; and elsewhere its header, with true time, and its payload stand at the next place of
the segment, nothing else of memory changes, and a full segment is released. -/
def Sys2Proof.Claims.packetsHold : Prop :=
  ∀ (s : State) (ctx kind : Nat) (gap : Bool) (payload : List Byte), payload.length + 16 ≤ 65536 → noPartials s →
    let c := s.ctxAt ctx
    let n := 16 + payload.length
    let t := s.packet ctx kind gap payload
    let bytes := leBytes 2 kind ++ leBytes 2 (if gap then 1 else 0) ++ leBytes 2 payload.length ++ leBytes 2 0 ++ leBytes 8 s.timeNow ++ payload
    let room : Prop := (c.trTail - c.trHead).toNat < c.trNseg
    (c.trOff = none → ¬ room → t.mem = s.mem ∧ t.ctxAt ctx = { c with trDrop := satUp c.trDrop }) ∧
    (∀ (o : Nat) (pg : Page), (c.trOff = some o ∨ c.trOff = none ∧ o = 0 ∧ room) → o + n ≤ 65536 →
      let va := c.segVA + BitVec.ofNat 64 o
      s.walk ctx va = .ok pg →
      let pa := pg.pa va
      let mayWrite : Bool := pg.pte.getLsbD 3 && pg.pte.getLsbD 6 && pg.pte.getLsbD 11
      ((mayWrite = false ∨ ∃ f, s.physCheck pa = .error f) → t.mem = s.mem ∧ t.ctxAt ctx = { c with trFault := true, dbgTrace := false }) ∧
      (mayWrite = true → s.isLocal pa = true → paLocal pa < hbmSize → s.blocked pa n true = false → s.inSpillRegion (paLocal pa) = false →
        (∀ i, i < n → memGet t.mem (paLocal pa + i) = bytes.getD i 0) ∧
        (∀ a, (a < paLocal pa ∨ paLocal pa + n ≤ a) → memGet t.mem a = memGet s.mem a) ∧
        t.ctxAt ctx = if o + n = 65536 then { c with trOff := none, trTail := c.trTail + 1 } else { c with trOff := some (o + n) }))

/-- R443, R444: capture going on clears GAP and writes packet 1 with the eight counters, and going off writes packet 2 with them and
releases the segment, unless a fault on the way has ended the capture. -/
def Sys2Proof.Claims.capturesHold : Prop :=
  ∀ (ctx : Nat) (s : State), s.pkg.inRecovery = false → s.pkg.lacks 7 = false → let c := s.ctxAt ctx
    let counters (w : State) : List Byte := (List.range 8).flatMap fun j => leBytes 8 ((w.ctxAt ctx).pmcAt j).toNat
    let counted (w : State) : Prop := w.mem = s.mem ∧ w.groups = s.groups ∧
      ∀ j, j < 8 → timedCode (bankGet c.pmcSel 0 j) = false → (w.ctxAt ctx).pmcAt j = c.pmcAt j
    (c.dbgTrace = true → exec (.traceCaptureOn ctx) s = .next s) ∧
    (c.dbgTrace = false → exec (.traceCaptureOff ctx) s = .next s ∧
      ∃ w, counted w ∧ (w.ctxAt ctx).dbgTrace = true ∧ (w.ctxAt ctx).trGap = false ∧
        (unheld s (w.packet ctx 1 false (counters w)) → exec (.traceCaptureOn ctx) s = .next (w.packet ctx 1 false (counters w)))) ∧
    (c.dbgTrace = true → ∃ w, counted w ∧ (w.ctxAt ctx).dbgTrace = true ∧
      let x := w.packet ctx 2 c.trGap (counters w)
      let d := x.ctxAt ctx
      unheld s x →
        (d.dbgTrace = false → exec (.traceCaptureOff ctx) s = .next x) ∧
        (d.dbgTrace = true → ∃ t, exec (.traceCaptureOff ctx) s = .next t ∧ t.mem = x.mem ∧
          t.ctxAt ctx = { d with dbgTrace := false, trOff := none, trTail := if d.trOff.isSome then d.trTail + 1 else d.trTail }))

/-- R437, R438, R446: RESUME of a replay ends it where nothing was written into it, with DIGOK where its span completes an interval; one that
a debugger wrote into runs on with the rest of its log. Such a run ends with STATE 0 at the start of the next interval, DIGOK telling whether
the digests agree, and with STATE 6 where an instruction asks for an entry of another kind or address than the log's next. -/
def Sys2Proof.Claims.replaysHold : Prop :=
  (∀ (ctx : Nat) (s : State) (x : Snap), s.pkg.inRecovery = false → s.pkg.lacks 7 = false → let c := s.ctxAt ctx
    c.stopGrp = none → c.heldStops = [] → c.replay = some x →
    let d : Ctx := { c with replay := none, replayWritten := false, dbgState := 0 }
    ∃ t, exec (.debugResume ctx) s = .next t ∧ t.mem = s.mem ∧ t.groups = s.groups ∧
      t.ctxAt ctx = (if c.replayWritten then { d with rerun := some { at' := x, left := c.entriesFrom x, stop := c.endSnap x }, dbgDigok := false }
        else { d with dbgDigok := (c.endSnap x).isSome })) ∧
  (∀ (s : State) (run : Instr → State → Out) (ctx : Nat) (r : Rerun), let c := s.ctxAt ctx
    let g := r.at'.grp
    (∀ y, r.stop = some y → y.retired.toNat ≤ g.retired.toNat →
      s.rerunCtx run ctx r = { c with rerun := none, dbgState := 0, dbgDigok := decide (y.grp.digest = g.digest) }) ∧
    (∀ a b t, (∀ y, r.stop = some y → g.retired.toNat < y.retired.toNat) → s.loggedAt ctx r.at' g.retired = some a →
      s.loggedAt ctx r.at' (g.retired + 1) = some b → (s.replayView ctx r).replayTurn run = some t →
      let es := (t.ctxAt ctx).log
      (¬ (es.length ≤ r.left.length ∧ ∀ i, i < es.length →
          (es.getD i default).kind = (r.left.getD i default).kind ∧ (es.getD i default).addr = (r.left.getD i default).addr) →
        s.rerunCtx run ctx r = { c with rerun := none, dbgState := 6, dbgDigok := false })))

/-- R434, R438 to R441, R445: a snapshot that is due is logged; a stop is armed, reached, cancelled and resumed; the debugger reads and writes
a register of the stopped group, with its status, and finds BUSY where a result is still to reach it, which a free value decides for the
last instruction (log entry 122); a sample leaves a packet. Without the feature, and in recovery, the writes of its registers do nothing. -/
def Sys2Proof.Claims.debugEventsHold : Prop :=
  (∀ (ctx : Nat) (s : State) (i : Byte) (part : BitVec 2) (spec : Byte) (l : BitVec 6), (s.pkg.lacks 7 = true ∨ s.pkg.inRecovery = true) →
    exec (.arm ctx i part) s = .next s ∧ exec (.disarm ctx) s = .next s ∧ exec (.debugRead ctx spec l) s = .next s ∧
    exec (.debugWrite ctx spec l) s = .next s ∧ exec (.debugForceWrite ctx spec l) s = .next s ∧ exec (.traceCaptureOn ctx) s = .next s ∧
    exec (.traceCaptureOff ctx) s = .next s) ∧
  ∀ (ctx : Nat) (s : State), s.pkg.lacks 7 = false → s.pkg.inRecovery = false → let c := s.ctxAt ctx
    (∀ grp, s.snapDue grp = true → let g := s.grpAt grp
      let c := (s.focusGrp grp).c
      ∃ t, exec (.snapshot grp) s = .next t ∧ (t.grpAt grp).snapped = some g.retired ∧
        (t.grpAt grp).digest = (if g.newInterval c.dbgIntv then 0 else g.digest) ∧
        (t.grpAt grp).crossed = (if g.newInterval c.dbgIntv then false else g.crossed) ∧
        (t.grpAt grp).logSeen = (if g.newInterval c.dbgIntv then [] else g.logSeen) ∧ (t.grpAt grp).lanes = g.lanes) ∧
    (∀ (i : Byte) (part : BitVec 2), s.dbgState ctx ≠ 2 → s.dbgState ctx ≠ 3 →
      (∀ e ∈ s.groups, s.hasName { gid := c.stopGid, team := c.stopTeam, idx := i.toNat, part := part.toNat, ret := c.stopRet } e.1 = false) →
      (∃ e ∈ s.grids, e.2.ctx = ctx ∧ e.2.lrec.gid = c.stopGid ∧ (e.2.phase = .pending ∨ e.2.phase = .running)) →
      ∃ t, exec (.arm ctx i part) s = .next t ∧
        (t.ctxAt ctx).armed = some { gid := c.stopGid, team := c.stopTeam, idx := i.toNat, part := part.toNat, ret := c.stopRet }) ∧
    (∀ grp, s.stopDue grp = true →
      ∃ t, exec (.stopReached grp) s = .next t ∧ (t.grpAt grp).stopped = true ∧ t.mayIssue grp = false) ∧
    exec (.disarm ctx) s = .next (s.setCtxAt ctx { c with armed := none, dbgState := 0 }) ∧
    (∀ k, c.stopGrp = some k → c.heldStops = [] → c.replay = none →
      ∃ t, exec (.debugResume ctx) s = .next t ∧ (t.grpAt k).stopped = false ∧ 
        (t.grpAt k).stepOver = (if c.dbgBk then some ((s.grpAt k).iss.pc, (s.grpAt k).retired) else none) ∧ (t.ctxAt ctx).stopGrp = none) ∧
    (∀ (spec : Byte) (l : BitVec 6) (g : Grp) (x : W64) (poi : Bool), s.dbgGroup ctx = some g → g.dbgPending spec l.toNat = false →
      g.dbgGet spec (if (Opnd.ofByte spec).any Opnd.isS then 0 else l.toNat) = some (x, poi) →
      exec (.debugRead ctx spec l) s = .next (s.setCtxAt ctx { c with dbgData := x, dbgAccPoison := poi, dbgAccStatus := 0 }) ∧
      (s.dbgLate ctx spec l.toNat = true → exec (.debugWrite ctx spec l) s = .next (s.dbgStatus ctx 1).bump) ∧
      (s.dbgLate ctx spec l.toNat = false →
        exec (.debugWrite ctx spec l) s = .next ((s.setDbgGroup ctx (g.dbgSet spec l.toNat c.dbgData)).dbgStatus ctx 0)) ∧
      exec (.debugForceWrite ctx spec l) s = .next ((s.setDbgGroup ctx (g.dbgSet spec l.toNat c.dbgData)).dbgStatus ctx 0)) ∧
    (∀ (grp : Nat) (kind : Byte) (times : List Half) (x : Sampled), let k := (s.gridAt (s.teamAt (s.grpAt grp).team).grid).ctx
      let d := s.ctxAt k
      d.dbgTrace = true → d.smplDue.find? (fun y => y.grp == grp && y.kind == kind.toNat) = some x →
      exec (.samplePacket grp kind times) s = .next ((s.setCtxAt k { d with smplDue := d.smplDue.erase x }).packet k 3 false
        (leBytes 8 x.pc.toNat ++ leBytes 4 x.gid.toNat ++ leBytes 4 x.team.toNat ++ leBytes 1 x.idx ++ leBytes 1 x.kind ++ leBytes 2 0 ++
          (List.range 5).flatMap (fun i => leBytes 2 (times.getD i 0).toNat) ++ leBytes 2 0)))

/-- Stops, the debugger's access, replays, trace packets and capture. -/
def Obligations.Debugging : Prop := debugEventsHold ∧ replaysHold ∧ packetsHold ∧ capturesHold

/-! ## The package and its host -/

namespace Sys2Proof.Claims
open Sys2Proof.Machine

/-- The events that are a driver's write of one register. -/
def driverWord : Instr → Bool
  | .featenWrite _ => true
  | .attcmdGo _ => true
  | .lqtailWrite _ _ => true
  | .fqheadWrite _ _ => true
  | .fqctlRetry _ => true
  | .switch _ => true
  | .contextResume _ => true
  | .kill _ => true
  | .invalidationRequest _ _ => true
  | .llcctlUnpin => true
  | .pinwWrite _ => true
  | .cacheLoad _ => true
  | .cacheSave _ => true
  | .arm _ _ _ => true
  | .disarm _ => true
  | .debugResume _ => true
  | .debugRead _ _ _ => true
  | .debugWrite _ _ _ => true
  | .debugForceWrite _ _ _ => true
  | .traceCaptureOn _ => true
  | .traceCaptureOff _ => true
  | .leaseRevoke _ => true
  | .leaseAck _ => true
  | _ => false
/-- The registers of a context's block that a write sets, with nothing else: offset, lowest bit and width of the field that is kept, and
whether the register belongs to the debug feature (R44, R433, R442, R455). -/
def plainRegs : List (Nat × Nat × Nat × Bool) :=
  [(0x08, 12, 40, false), (0x38, 16, 39, false), (0xC8, 0, 64, true), (0xD0, 0, 64, true), (0xF0, 0, 64, true), (0x108, 0, 32, true),
   (0x168, 0, 64, false), (0x170, 0, 64, false), (0x178, 0, 64, false), (0x180, 0, 64, false), (0x188, 0, 64, false), (0x190, 0, 64, false),
   (0x198, 0, 64, false), (0x1A0, 0, 64, false), (0x1A8, 13, 39, false)]

end Sys2Proof.Claims

/-- R103, R447, R448, R451, R452: a register of window A: a plain one reads back what was written of its field, no other of them changes and
nothing else of the machine; a read-only one keeps its value; a read gives the eight bytes of a register, low byte first. In recovery the
registers outside the mailbox, and the events that are a write of one, change nothing (log entry 84). -/
def Sys2Proof.Claims.registersHold : Prop :=
  (∀ (i : Instr) (s : State), s.pkg.inRecovery = true → driverWord i = true → exec i s = .next s) ∧
  (∀ (off : Nat) (v : W64) (s : State), s.pkg.inRecovery = true → s.hostWaits = false → (off < 0x1000 ∨ 0x2000 ≤ off) →
    exec (.registerWrite off v) s = .next s) ∧
  (∀ (ctx : Nat) (r : Nat × Nat × Nat × Bool) (v : W64) (s : State), let block := 0x100000 + 4096 * ctx
    ctx < 256 → r ∈ plainRegs → s.pkg.inRecovery = false → s.hostWaits = false → (r.2.2.2 = true → s.pkg.lacks 7 = false) →
    ∃ t, exec (.registerWrite (block + r.1) v) s = .next t ∧ t.regRead (block + r.1) = keepBits v r.2.1 r.2.2.1 ∧
      (∀ q ∈ plainRegs, q.1 ≠ r.1 → t.regRead (block + q.1) = s.regRead (block + q.1)) ∧ t.mem = s.mem ∧ t.pkg = s.pkg ∧ t.groups = s.groups ∧
      t.teams = s.teams ∧ t.grids = s.grids ∧ ∀ j, j ≠ ctx → t.ctxAt j = s.ctxAt j) ∧
  (∀ (ctx off : Nat) (v : W64) (s : State), ctx < 256 → off ∈ [0x20, 0x48, 0xE0, 0x110] → s.pkg.inRecovery = false → s.hostWaits = false →
    exec (.registerWrite (0x100000 + 4096 * ctx + off) v) s = .next s) ∧
  (∀ (off : Nat) (s : State), off % 8 = 0 → s.hostWaits = false →
    (off < 0x100000 ∨ 0x200000 ≤ off ∨ (s.ctxAt ((off - 0x100000) / 4096)).pmcRun = false ∧ s.hasResident ((off - 0x100000) / 4096) = false) →
    ∃ t, exec (.hostRead .a off 8) s = .next t ∧ t.mem = s.mem ∧ t.hostOut = (leBytes 8 (s.regRead off).toNat, false))

/-- R461: a tick of the reservoir debits each cluster's account, adds 3 mJ less the static energy, and at least 1.5 mJ, below the reservoir's
cap, and shares it out: no account passes its cap, and nothing but the debits leaves the reservoir and the accounts. What the engines,
caches and links debit stands in the event (log entry 83). -/
def Sys2Proof.Claims.reservoirHolds : Prop :=
  ∀ (s : State) (static : Nat) (debits : List Nat), s.pkg.reservoir ≤ reservoirCap → (∀ k, k < 16 → bankGet s.accounts 0 k ≤ accountCap) →
    let total (u : State) : Int := ((List.range 16).map fun k => bankGet u.accounts 0 k).sum
    ∃ t, exec (.reservoirTick static debits) s = .next t ∧ t.pkg.reservoir ≤ reservoirCap ∧ t.pkg.tickStart = (s.pkg.tickStart + 1) % 16 ∧
      t.mem = s.mem ∧ t.groups = s.groups ∧ (∀ k, k < 16 → bankGet t.accounts 0 k ≤ accountCap) ∧
      (∀ k, k < 16 → bankGet t.debited 0 k = bankGet s.debited 0 k + debits.getD k 0) ∧
      (t.pkg.reservoir : Int) + total t =
        (min reservoirCap (s.pkg.reservoir + max (1500 * uJ) (3000 * uJ - static)) : Nat) + total s - ((List.range 16).map fun k => (debits.getD k 0 : Int)).sum

/-- R447, R449, R451 to R455, R463: FEATEN takes one write; a reset keeps what flash and HBM hold (log entry 16); the mailbox writes flash, which
it copies at its start (log entry 86), and commits in recovery alone; a report is asked for and done; a host store performs at its home and
a host load of window B reads it, behind the accesses that wait already (log entry 109); BAR sizes from 1 GiB to 1 TiB; errors, which are
found at once (log entry 17), are counted and poison their words. -/
def Sys2Proof.Claims.packageEventsHold : Prop :=
  ∀ s : State,
    (∀ v : W64, s.pkg.inRecovery = false → (s.pkg.featLock = false → ∃ t, exec (.featenWrite v) s = .next t ∧ t.pkg.featEn = v &&& 0x1FF ∧ t.pkg.featLock = true) ∧
      (s.pkg.featLock = true → ∃ t, exec (.featenWrite v) s = .next t ∧ t.pkg = s.pkg)) ∧
    (∃ t, exec .packageReset s = .next t ∧ t.mem = s.mem ∧ t.memPoi = s.memPoi ∧ t.pkg.flash = s.pkg.flash ∧ t.groups = [] ∧ t.grids = [] ∧
      t.ctxs = [] ∧ t.pkg.featLock = false ∧ (t.pkg.bootState = 2 ∨ t.pkg.bootState = 3)) ∧
    (s.pkg.bootState = 3 → s.pkg.mbxBad = false → ∃ t, exec .mailboxWrite s = .next t ∧ t.pkg.mbxBusy = true ∧
      (∀ i, i < s.pkg.mbxLen → memGet t.pkg.flash (s.pkg.mbxOff.toNat + i) = s.pkg.mbxBuf.get 0 i) ∧
      ∀ a, (a < s.pkg.mbxOff.toNat ∨ s.pkg.mbxOff.toNat + s.pkg.mbxLen ≤ a) → memGet t.pkg.flash a = memGet s.pkg.flash a) ∧
    exec .mailboxWriteDone s = .next (s.modPkg fun p => { p with mbxBusy := false }) ∧
    (s.pkg.bootState = 3 → exec .mailboxCommit s = exec .packageReset s) ∧
    (∀ ctx, let c := s.ctxAt ctx
      (c.attBusy = false → s.pkg.inRecovery = false → s.isLocal c.attBuf.toNat = true → paLocal c.attBuf.toNat + 8192 ≤ hbmSize →
        exec (.attcmdGo ctx) s = .next (s.setCtxAt ctx { c with attBusy := true, attCap := tab 8 fun i => bankGet c.attNonce 0 i })) ∧
      (c.attBusy = true → noPartials s → s.blocked c.attBuf.toNat 8192 true = false →
        ∃ t, exec (.attestationReportDone ctx) s = .next t ∧ (t.ctxAt ctx).attBusy = false)) ∧
    (∀ (off : Nat) (data : List Byte), s.pkg.inWindow off data.length = true → noPartials s → s.hostWaits = false →
      s.blocked (s.pkg.windowPa off) data.length true = false →
      let a := s.pkg.windowBase + off
      s.inSpillRegion a = false →
      ∃ t, exec (.hostWrite off data) s = .next t ∧ (∀ i, i < data.length → memGet t.mem (a + i) = data.getD i 0) ∧
        ∀ b, (b < a ∨ a + data.length ≤ b) → memGet t.mem b = memGet s.mem b) ∧
    (∀ off n : Nat, s.pkg.inWindow off n = true → noPartials s → s.hostWaits = false → s.blocked (s.pkg.windowPa off) n false = false →
      ∃ t, exec (.hostRead .b off n) s = .next t ∧ t.mem = s.mem ∧
        t.hostOut = if s.hbmPoi (s.pkg.windowBase + off) n then (List.replicate n 0xFF, true) else (s.hbm (s.pkg.windowBase + off) n, false)) ∧
    (∀ v : W64, s.pkg.bootState ≠ 3 → s.hostWaits = false → exec (.registerWrite 0x08 v) s = exec (.featenWrite v) s) ∧
    (∀ log, 30 ≤ log → log ≤ 40 → exec (.barSizeSelect log) s = .next (s.modPkg fun p => { p with barLog := log })) ∧
    (∀ bad : List Nat, ∃ t, exec (.scrub bad) s = .next t ∧ t.mem = s.mem ∧ ∀ w ∈ bad, w < hbmSize / 8 → t.memPoi.has w = true) ∧
    exec (.softError .singleBit) s = .next (s.modPkg fun p => { p with pkgCE := satUp p.pkgCE }) ∧
    (∀ pa, s.isLocal pa = true → paLocal pa < hbmSize → exec (.softError (.memWord pa)) s = .next (s.hbmPoison [paLocal pa / 8] true)) ∧
    (∀ team word, 4 * word < s.scrSize team → ∃ t, exec (.softError (.scrWord team word)) s = .next t ∧ (t.teamAt team).scrPoi.has word = true ∧
      t.mem = s.mem ∧ t.pkg.pkgUE = if (s.teamAt team).scrPoi.has word then s.pkg.pkgUE else satUp s.pkg.pkgUE)

/-- The package and its host. -/
def Obligations.PackageEvents : Prop := packageEventsHold ∧ registersHold ∧ reservoirHolds

/-! ## UALink -/

/-- R90, R91, R105, R146, R319 to R321: a peer's access at the home of its bytes, where no lock keeps it out and no earlier one waits: a read
gives the bytes and the marks of their words; a write puts its bytes there; an atomic or reduction writes the new value and gives the old
one back, and a poisoned word stops it; a lock gives the line's bytes and is held until its tile gives it up. An access that a lock keeps
out waits. What peers send stands in the events (log entry 11). -/
def Sys2Proof.Claims.peerAccessesHold : Prop :=
  ∀ (s : State) (pa n : Nat), s.isLocal pa = true → s.reclaimed pa = false → noPartials s → s.pkg.waiting = [] →
    let a := paLocal pa
    let line := pa / 128
    let waits (acc : PeerAccess) : Prop := ∃ t, exec (.remoteAccessArrival acc) s = .next t ∧ t.mem = s.mem ∧ t.pkg.waiting = [.peer acc s.order]
    let stays (acc : PeerAccess) (w : Nat → Option Nat) : Prop :=
      (s.hbmPoi a n = true → ∃ t, exec (.remoteAccessArrival acc) s = .next t ∧ t.mem = s.mem ∧ t.pkg.peerData = ([], s.poiMarks a n)) ∧
      (s.hbmPoi a n = false → ∃ t, exec (.remoteAccessArrival acc) s = .next t ∧ t.pkg.peerData = (s.hbm a n, []) ∧
        (w (ofLe (s.hbm a n)) = none → t.mem = s.mem) ∧
        ∀ v, w (ofLe (s.hbm a n)) = some v → (∀ i, i < n → memGet t.mem (a + i) = (leBytes n v).getD i 0) ∧
          ∀ b, (b < a ∨ a + n ≤ b) → memGet t.mem b = memGet s.mem b)
    (∀ kind, (n = 4 ∨ n = 8) → a + n ≤ hbmSize → (kind = .read ∨ (∃ op ty m d, kind = .rmw op ty m d) ∨ ∃ k d, kind = .cas k d) →
      s.blocked pa n (kind != .read) = true → waits { pa, n, kind }) ∧
    (∀ op ty mode data, (n = 4 ∨ n = 8) → a + n ≤ hbmSize → s.blocked pa n true = false → s.inSpillRegion a = false →
      stays { pa, n, kind := .rmw op ty mode data } fun old =>
        some (atomNew (peerEnv mode) op.toNat ((Ty.ofCode ty.toNat).getD .i32) old (ofLe data)).1) ∧
    (∀ k data, (n = 4 ∨ n = 8) → a + n ≤ hbmSize → s.blocked pa n true = false → s.inSpillRegion a = false →
      stays { pa, n, kind := .cas k data } (peerCas k n data)) ∧
    (∀ (data : List Byte) (old : Nat), (n = 4 ∨ n = 8) → data.length = 2 * n →
      peerCas .cas n data old = if old = ofLe (data.take n) then some (ofLe (data.drop n)) else none) ∧
    (∀ (excl : Bool) (who : Nat), a + 128 ≤ hbmSize →
      let acc : PeerAccess := { pa, n, kind := .lock excl, who }
      (s.lockBusy s.nextId line excl s.order = true → waits acc) ∧
      (s.lockBusy s.nextId line excl s.order = false → s.blocked (128 * line) 128 false = false →
        ∃ t, exec (.remoteAccessArrival acc) s = .next t ∧ t.mem = s.mem ∧ t.pkg.peerLocks = s.pkg.peerLocks ++ [(line, excl, who)] ∧
          t.pkg.peerData = (s.hbm (paLocal (128 * line)) 128, s.poiMarks (paLocal (128 * line)) 128))) ∧
    (∀ who : Nat, ∃ t, exec (.remoteAccessArrival { pa, n, kind := .unlock, who }) s = .next t ∧ t.mem = s.mem ∧
      t.pkg.peerLocks = s.pkg.peerLocks.filter fun x => !(x.1 == line && x.2.2 == who))

/-- R36, R83, R105, R137, R138, R456 to R458: a peer's read or write performs at the home of its bytes; a reply reaches what waits for it, with
what the core's L1 keeps of it, and the exceptions or the poisoned word of a reduction; a request that is lost is counted, with poison for
a load; a port changes its state once; a lease goes from Active to Noticed to Revoked. The model's choices are log entries 11 (what peers
send), 15 and 81 (leases), 49 (remote lines in the L1), 80 (a lost write) and 117 (what a reduction's reply tells). -/
def Sys2Proof.Claims.fabricEventsHold : Prop :=
  ∀ s : State,
    (∀ pa n : Nat, s.isLocal pa = true → s.reclaimed pa = false → noPartials s → s.pkg.waiting = [] →
      (paLocal pa + n ≤ hbmSize → s.blocked pa n false = false → ∃ t, exec (.remoteAccessArrival { pa, n, kind := .read }) s = .next t ∧ t.mem = s.mem ∧
        t.pkg.peerData = (s.hbm (paLocal pa) n, s.poiMarks (paLocal pa) n)) ∧
      (∀ data poi, paLocal pa + data.length ≤ hbmSize → s.blocked pa data.length true = false → s.inSpillRegion (paLocal pa) = false →
        ∃ t, exec (.remoteAccessArrival { pa, n, kind := .write data poi }) s = .next t ∧
        (∀ i, i < data.length → memGet t.mem (paLocal pa + i) = data.getD i 0) ∧
        ∀ a, (a < paLocal pa ∨ paLocal pa + data.length ≤ a) → memGet t.mem a = memGet s.mem a)) ∧
    (∀ (q : PeerReq) (data : List Byte) (poi : List Bool), s.pkg.peerOut.find? (fun x => x.id == q.id && x.lost.isNone) = some q →
      let u := s.dropReq q
      let bytes := tab q.n fun i => data.getD i 0
      let core := (u.teamAt (u.grpAt q.grp).team).core
      let known := if q.cmd.isSome || q.dist || q.tape then u
        else if q.kind = .load ∧ q.pa % 128 + q.n ≤ 128 then u.seen core q.pa bytes else u.dropRange core q.pa q.n
      (q.kind = .load → q.fill = none → exec (.remoteReply q.id (data, poi)) s = .next (known.putReply q (some bytes) poi)) ∧
      (∀ core pri, q.kind = .load → q.fill = some (core, pri) →
        let w := u.seen core q.pa bytes
        let kept := if ((u.coreAt core).line (q.pa / 128)).isSome then w else w.fillLine core (q.pa / 128) pri bytes (tab 16 fun i => poi.getD i false)
        exec (.remoteReply q.id (data, poi)) s = .next (kept.putReply q (some bytes) poi)) ∧
      (q.kind = .store → q.done = none → exec (.remoteReply q.id (data, poi)) s = .next (u.settleWrite q)) ∧
      (∀ queue, q.kind = .store → q.done = some queue → exec (.remoteReply q.id (data, poi)) s = .next ((u.settleWrite q).queueVector queue)) ∧
      (q.kind = .rmw → q.lane = none →
        let bad := firstBad q.pa (Reply.bytePoi { pa := q.pa, n := q.n, poi })
        let t := (Ty.ofCode (q.op / 16)).getD .i32
        (bad = none → exec (.remoteReply q.id (data, poi)) s =
          .next ((u.redFlags q.ctx t (combine (peerEnv q.mode) (q.op % 16) t (ofLe bytes) (ofLe q.data))).settleWrite q)) ∧
        (∀ w, bad = some w → exec (.remoteReply q.id (data, poi)) s =
          .next ((u.recordUnit q.ctx (.anvil q.frec.grid.toNat) { q.frec with kind := 0x10, aux := BitVec.ofNat 64 w } false).settleWrite q))) ∧
      (q.kind = .rmw → q.lane ≠ none → exec (.remoteReply q.id (data, poi)) s = .next ((known.putReply q (some bytes) poi).settleWrite q))) ∧
    (∀ q : PeerReq, s.pkg.peerOut.find? (fun x => x.id == q.id && x.cut && x.lost.isNone) = some q →
      let u := s.modPkg fun p => { p with lostCnt := satUp p.lostCnt }
      (q.kind = .load → exec (.remoteRequestLost q.id) s = .next ((u.dropReq q).putReply q none [])) ∧
      ((q.kind = .store ∨ q.kind = .rmw) → q.lane = none →
        let v := u.recordUnit q.ctx .fabric q.frec true
        (∀ x ∈ (v.ctxAt q.ctx).unitRecs, x.1 ≠ .fabric) → exec (.remoteRequestLost q.id) s = .next ((v.dropReq q).settleWrite q))) ∧
    (∀ (port : Fin 16) (up : Bool), ∃ t, exec (.portStateChange port up) s = .next t ∧ t.pkg.portUp.getLsbD port.val = up ∧
      ∀ i, i ≠ port.val → t.pkg.portUp.getLsbD i = s.pkg.portUp.getLsbD i) ∧
    (∀ j : Fin 8, let l := s.lease j.val
      l.v = true →
      (s.pkg.lacks 5 = false → s.pkg.inRecovery = false → l.lender = true → l.state = 0 → ∃ t, exec (.leaseRevoke j) s = .next t ∧ (t.lease j.val).state = 1 ∧ t.mem = s.mem) ∧
      (l.lender = false → l.state = 0 → ∃ t, exec (.leaseNotice j) s = .next t ∧ (t.lease j.val).state = 1) ∧
      (s.pkg.lacks 5 = false → s.pkg.inRecovery = false → l.lender = false → l.state = 1 → ∃ t, exec (.leaseAck j) s = .next t ∧ (t.lease j.val).state = 2 ∧ t.mem = s.mem) ∧
      (l.lender = false → l.state = 1 → exec (.leaseDeadline j) s = .next (s.setLease j.val { l with state := 2 })) ∧
      (l.lender = true → l.state = 1 → exec (.lenderReclaim j) s = .next (s.setLease j.val { l with state := 2 })))

/-- UALink. -/
def Obligations.Fabric : Prop := fabricEventsHold ∧ peerAccessesHold

/-! ## Encoding -/

/-- R231 to R239 in the worked words of R267, R282, R301, R307 and R357: each decodes to the instruction the spec prints beside it. -/
def Obligations.DecodeKnownWords : Prop :=
  let p : Pred := ⟨0, false⟩
  let zero : Opnd := .v 0
  decodeWord 0x0400050247000100 = .ok (.add p ⟨.v 5, .v 2, .s 7, zero, .i32, .lane, true, .none, 0⟩) ∧
  decodeWord 0x0450060003A81002 = .ok (.addc p ⟨.v 6, .v 0, .v 3, .const .zero, .n32, .lane, false, .none, 2⟩) ∧
  decodeWord 0x0526910280000002 = .ok (.cmp ⟨3, false⟩ ⟨.m 1, .v 2, .k 0, zero, .i32, .lane, false, .none, 2⟩) ∧
  decodeWord 0x0800450000001234 = .ok (.movi p ⟨.s 5, zero, 0x1234⟩) ∧
  decodeWord 0x0040000800000020 = .ok (.call p ⟨zero, 8, 0x20⟩) ∧
  decodeWord 0x00C0000000000024 = .ok (.waitf p ⟨zero, zero, 0x24⟩) ∧
  decodeWord 0x2030060480067400 = .ok (.ffma p ⟨.v 6, .v 4, .k 0, .v 6, .f32, .rz, false, .none, 0⟩) ∧
  decodeWord 0x28900041B5440000 = .ok (.lput p ⟨zero, .s 1, .spec .pc, .s 4, .i32, .lane, false, .none, 0⟩) ∧
  decodeWord 0x80204700000000FF = .error .illegalInstruction ∧
  decodeWord 0x8400144243AB1010 = .ok (.xdec p ⟨.v 20, .s 2, .s 3, .const .two, .n32, .lane, false, .none, 0x10⟩)

/-- R226 to R228, R231 to R239: the word of every well-formed instruction decodes to that instruction, with every field; and a word that decodes
gives a well-formed instruction, whose word it is. The same of block headers. -/
def Obligations.DecodeEncode : Prop :=
  (∀ (i : Instr) (w : W64), i.wellFormed = true → encode i = some w → decodeWord w = .ok i) ∧
  (∀ (w : W64) (i : Instr), decodeWord w = .ok i → i.wellFormed = true ∧ encode i = some w) ∧
  (∀ (i : Instr) (w : W64) (bs : List Byte), i.wellFormed = true → encode i = some w →
    decode ((tab 8 fun j => w.extractLsb' (8 * j) 8) ++ bs) = .ok (i, bs)) ∧
  (∀ h : Header, decodeHeader (encodeHeader h) = some h) ∧ (∀ (w : W64) (h : Header), decodeHeader w = some h → encodeHeader h = w)

/-! ## The step -/

namespace Sys2Proof.Claims
open Sys2Proof.Machine

/-- The state in which a word of a block issues in some lanes at pc (R187, R229): they stand there, and the issue names them. -/
def issuing (t : State) (i : Issue) (pc w : W64) : State :=
  (t.setIss { i with pc, word := w }).modG fun g => g.modLanes (g.lanesOf i.set) fun _ x => { x with pc }
/-- What R240 asks of a word before it has its meaning: steps 3 to 6. -/
def admitted (u : State) (hdr w : W64) (last : Bool) (i : Instr) : Prop :=
  featureOff u.pkg (codeAt w 58 6) = false ∧ decodeWord w = .ok i ∧ (sfFlag hdr (sfOf i)).isSome = true ∧ (isCall i = true → last = true) ∧
  u.g.groupsFit i = true

end Sys2Proof.Claims

/-- A step is the head of the agenda, an event; else, where nothing of the package is to be done first and no replay runs on, at an issue's
turn, the word that stands in memory at the issue PC of the chosen group, within its block: when its eight bytes decode to i and i may issue
(R240), the step is exec of i in the state in which the issue names the word, its lanes stand at it, its line has been touched under the
policy of its page, and the ready groups passed over have waited one step more. The same for a handler's word. A replay that runs on (R437)
changes its own context and nothing else of the machine. What is chosen when, is the model's choice (log entry 2). -/
def Obligations.StepRunsDecoded : Prop :=
  ∀ s : State,
    (∀ e rest, s.agenda = e :: rest → e.parts = none → step s = exec e { s with agenda := rest }) ∧
    (s.agenda = [] → s.service = none → ∀ k r, s.rerunDue = some (k, r) →
      ∃ t, step s = .next t ∧ t.mem = s.mem ∧ t.groups = s.groups ∧ t.teams = s.teams ∧ t.grids = s.grids ∧ t.cores = s.cores ∧ t.pkg = s.pkg ∧
        ∀ j, j ≠ k → t.ctxAt j = s.ctxAt j) ∧
    (s.agenda = [] → s.service = none → s.rerunDue = none →
      let s' : State := { s with turn := !s.turn }
      (s.turn = false ∨ s'.planEvent = none) →
      let ready := s'.readyGroups exec
      ∀ (k : Nat) (t0 : State) (tr : Trans) (w : W64) (i : Instr), s'.chooseGroup ready = some k →
        let u := (s'.passOver ready k).focusGrp k
        let t := t0.touchLlc tr.pa (pteCp tr.pte)
        (∀ (pc : W64) (ls : List Nat) (l : Nat) (bb hdr : W64), u.g.handler = none → u.g.issuePc = some pc →
          ((u.g.inState .running).filter fun j => (u.g.lane j).pc == pc) = ls → ls.head? = some l →
          (∀ j ∈ ls, (u.g.lane j).reach ≠ .patched) → (u.g.lane l).expects = .inside bb hdr →
          let iss : Issue := { pc, bb, hdr, set := maskOf (ls.filter fun j => (u.g.lane j).isInside), handler := false }
          u.translate u.foc.core u.foc.ctx .fetch pc = (t0, .ok tr) → t0.isLocal tr.pa = true → t.hbmPoi (paLocal tr.pa) 8 = false →
          BitVec.ofNat 64 (ofLe (t.hbm (paLocal tr.pa) 8)) = w →
          admitted (issuing t iss pc w) hdr w (pc.toNat == bb.toNat + 8 * blockLen hdr) i →
          step s = exec i (issuing t iss pc w)) ∧
        (∀ (h : Handler) (bb hdr : W64), u.g.handler = some h → expectOf h.pc h.bb h.hdr h.reach = some (.inside bb hdr) →
          let iss : Issue := { pc := h.pc, bb, hdr, set := 0, handler := true }
          u.translate u.foc.core u.foc.ctx .fetch h.pc = (t0, .ok tr) → t0.isLocal tr.pa = true → t.hbmPoi (paLocal tr.pa) 8 = false →
          BitVec.ofNat 64 (ofLe (t.hbm (paLocal tr.pa) 8)) = w →
          let at' := t.setIss { iss with pc := h.pc, word := w }
          admitted at' hdr w (h.pc.toNat == bb.toNat + 8 * blockLen hdr) i →
          step s = exec i at'))

/-- The memory of the package keeps its canonical form through every step, of a word or of an event, in every state. -/
def Obligations.MemoryStaysCanonical : Prop := ∀ s t : State, s.MemOk → step s = .next t → t.MemOk

namespace Sys2Proof.Claims
open Sys2Proof.Machine

/-- The registers of a context's block with a reset value in the tables of R44, R147, R391, R428 and R433, and that value. -/
def contextReset : List (Nat × W64) :=
  [(0x00, 0), (0x08, 0), (0x10, 6), (0x18, 0), (0x20, 0), (0x28, 0), (0x30, 0), (0x38, 0), (0x48, 0), (0x50, 0), (0x58, 0), (0x60, 0),
   (0x68, 0), (0x70, 0), (0x78, 0), (0x80, 0), (0x88, 2), (0x90, 0), (0x98, 0), (0xA8, 0), (0xB0, 16), (0xB8, 0), (0xC0, 0), (0xC8, 0),
   (0xD0, 0), (0xE0, 0), (0xE8, 0), (0xF0, 0), (0xF8, 0), (0x100, 1), (0x108, 0), (0x110, 0)]
/-- The same for a launch queue's block (R397). -/
def queueReset : List (Nat × W64) := [(0x00, 0), (0x08, 4), (0x10, 0), (0x18, 0)]
/-- The same for the package block and the fabric registers (R449, R457). -/
def packageReset : List (Nat × W64) := [(0x08, 0), (0x10, 0), (0x18, 0), (0x28, 0), (0x30, 0), (0x4100, 0), (0x4108, 0), (0x4110, 0)]

end Sys2Proof.Claims

/-- What reset leaves, as the register tables give it: each register of window A with a reset value reads as it, BOOTSTAT.STATE is 0
(ROM), window B has 1 GiB, nothing runs, and memory is in canonical form with nothing listed. That memory lists nothing, and that no word of
it is poisoned, are the model's choice (log entries 1 and 4). -/
def Obligations.ResetState : Prop :=
  let s := State.reset
  (∀ (ctx : Nat) (r : Nat × W64), ctx < 256 → r ∈ contextReset → s.regRead (0x100000 + 4096 * ctx + r.1) = r.2) ∧
  (∀ (q : Nat) (r : Nat × W64), q < 64 → r ∈ queueReset → s.regRead (0x800 + 32 * q + r.1) = r.2) ∧
  (∀ r ∈ packageReset, s.regRead r.1 = r.2) ∧ (∀ i, i < 1024 → s.regRead (0x2000 + 8 * i) = 0) ∧
  s.pkg.bootState = 0 ∧ s.pkg.featLock = false ∧ s.pkg.barLog = 30 ∧
  s.groups = [] ∧ s.teams = [] ∧ s.grids = [] ∧ s.mem = [] ∧ s.memPoi = [] ∧ s.MemOk
end

