-- ==== Sys2Proof/Laws/Memory.lean ====
section
/-! SUPPORT. Laws of memory as a list of cells: what a byte reads as after a write, in any list, and that every operation keeps the
canonical form. -/

namespace Sys2Proof.Machine

/-! ## Reading after a write -/

theorem memGet_memPut (m : List Host.Cell) (a x : Nat) (b : Byte) : memGet (memPut m a b) x = if x = a then b else memGet m x := by
  induction m with
  | nil =>
    by_cases hb : b = memDefault
    · simp [memPut, memGet, hb]
    · by_cases hx : x = a
      · simp [memPut, memGet, hb, hx]
      · simp [memPut, memGet, hb, hx, Ne.symm hx]
  | cons c t ih =>
    obtain ⟨y, z⟩ := c
    by_cases hb : b = memDefault
    · by_cases hy : y = a
      · simp only [memPut, hb, hy, if_true]
        rw [← hb, ih]
        by_cases hx : x = a
        · simp [hx]
        · simp [memGet, hx, Ne.symm hx]
      · simp only [memPut, hb, hy, if_true, if_false, memGet]
        rw [← hb, ih]
        by_cases hx : y = x
        · subst hx
          simp [hy]
        · simp [hx]
    · by_cases hy : y = a
      · subst hy
        simp only [memPut, hb, if_true, if_false, memGet]
        by_cases hx : x = y
        · simp [hx]
        · simp [hx, Ne.symm hx]
      · by_cases ha : a < y
        · simp only [memPut, hb, hy, ha, if_true, if_false, memGet]
          by_cases hx : x = a
          · simp [hx]
          · simp [hx, Ne.symm hx]
        · simp only [memPut, hb, hy, ha, if_false, memGet, ih]
          by_cases hx : y = x
          · subst hx
            simp [hy]
          · simp [hx]

/-- A byte outside the written ones reads as before. -/
theorem memGet_memWrite_other (bs : List Byte) (m : List Host.Cell) (a x : Nat) (h : x < a ∨ a + bs.length ≤ x) :
    memGet (memWrite m a bs) x = memGet m x := by
  induction bs generalizing m a with
  | nil => rfl
  | cons b t ih =>
    simp only [List.length_cons] at h
    rw [memWrite, ih _ _ (by omega), memGet_memPut, if_neg (by omega)]

/-- A written byte reads as it was written. -/
theorem memGet_memWrite (bs : List Byte) (m : List Host.Cell) (a i : Nat) (h : i < bs.length) :
    memGet (memWrite m a bs) (a + i) = bs.getD i 0 := by
  induction bs generalizing m a i with
  | nil => exact absurd h (by simp)
  | cons b t ih =>
    rw [memWrite]
    cases i with
    | zero => rw [memGet_memWrite_other t _ _ _ (by omega), memGet_memPut]; simp
    | succ j =>
      have := ih (memPut m a b) (a + 1) j (by simpa using h)
      rw [show a + (j + 1) = a + 1 + j by omega, this]
      simp

theorem State.hbmWrite_memGet (s : State) (a i : Nat) (bs : List Byte) (h : i < bs.length) :
    memGet (s.hbmWrite a bs).mem (a + i) = bs.getD i 0 := memGet_memWrite bs s.mem a i h
theorem State.hbmWrite_memGet_other (s : State) (a x : Nat) (bs : List Byte) (h : x < a ∨ a + bs.length ≤ x) :
    memGet (s.hbmWrite a bs).mem x = memGet s.mem x := memGet_memWrite_other bs s.mem a x h

/-! ## The canonical form -/

theorem Memory.above_memPut (m : List Host.Cell) (x a : Nat) (b : Byte) (h : Memory.above x m = true) (hx : x < a) :
    Memory.above x (memPut m a b) = true := by
  induction m with
  | nil => by_cases hb : b = memDefault <;> simp [memPut, hb, Memory.above, hx]
  | cons c t ih =>
    obtain ⟨y, z⟩ := c
    have ⟨h1, h2⟩ : x < y ∧ Memory.above x t = true := by simpa [Memory.above] using h
    have ih := ih h2
    have e (u : Byte) (r : List Host.Cell) : Memory.above x ((y, u) :: r) = (decide (x < y) && Memory.above x r) := rfl
    have e' (r : List Host.Cell) : Memory.above x ((a, b) :: r) = (decide (x < a) && Memory.above x r) := rfl
    by_cases hb : b = memDefault <;> by_cases hy : y = a <;> by_cases ha : a < y <;> simp [memPut, hb, hy, ha, e] <;>
      simp_all [Memory.above] <;> assumption

/-- Nothing is listed at or below an address that a list is above: writing the default there changes nothing. -/
theorem Memory.memPut_default_above (m : List Host.Cell) (y a : Nat) (h : Memory.above y m = true) (ha : a ≤ y) :
    memPut m a memDefault = m := by
  induction m with
  | nil => simp [memPut]
  | cons c t ih =>
    obtain ⟨x, z⟩ := c
    have ⟨h1, h2⟩ : y < x ∧ Memory.above y t = true := by simpa [Memory.above] using h
    simp only [memPut, if_true, if_neg (show x ≠ a by omega), ih h2]

/-- A list above an address is above every lower one. -/
theorem Memory.above_mono (m : List Host.Cell) (x y : Nat) (h : Memory.above y m = true) (hx : x ≤ y) : Memory.above x m = true := by
  simp only [Memory.above, List.all_eq_true, decide_eq_true_eq] at *
  intro c hc
  have := h c hc
  omega

theorem Memory.wf_memPut (m : List Host.Cell) (a : Nat) (b : Byte) (h : Memory.wf m = true) : Memory.wf (memPut m a b) = true := by
  induction m with
  | nil => by_cases hb : b = memDefault <;> simp [memPut, hb, Memory.wf, Memory.above]
  | cons c t ih =>
    obtain ⟨y, z⟩ := c
    simp only [Memory.wf, Bool.and_eq_true, decide_eq_true_eq] at h
    obtain ⟨⟨h1, h2⟩, h3⟩ := h
    have ih := ih h3
    by_cases hb : b = memDefault
    · by_cases hy : y = a
      · simp only [memPut, hb, hy, if_true]
        rw [← hb]
        exact ih
      · simp only [memPut, hb, hy, if_true, if_false, Memory.wf, Bool.and_eq_true, decide_eq_true_eq]
        refine ⟨⟨h1, ?_⟩, by rw [← hb]; exact ih⟩
        by_cases ha : y < a
        · exact Memory.above_memPut t y a memDefault h2 ha
        · rw [Memory.memPut_default_above t y a h2]
          · exact h2
          · omega
    · by_cases hy : y = a
      · subst hy
        simp only [memPut, hb, if_true, if_false, Memory.wf, Bool.and_eq_true, decide_eq_true_eq]
        exact ⟨⟨by simpa using hb, h2⟩, h3⟩
      · by_cases ha : a < y
        · simp only [memPut, hb, hy, ha, if_true, if_false, Memory.wf, Bool.and_eq_true, decide_eq_true_eq]
          refine ⟨⟨by simpa using hb, ?_⟩, ⟨h1, h2⟩, h3⟩
          have := Memory.above_mono t a y h2 (by omega)
          simp only [Memory.above, List.all_cons, Bool.and_eq_true, decide_eq_true_eq]
          exact ⟨ha, this⟩
        · simp only [memPut, hb, hy, ha, if_false, Memory.wf, Bool.and_eq_true, decide_eq_true_eq]
          exact ⟨⟨h1, Memory.above_memPut t y a b h2 (by omega)⟩, ih⟩

theorem Memory.wf_memWrite (bs : List Byte) (m : List Host.Cell) (a : Nat) (h : Memory.wf m = true) : Memory.wf (memWrite m a bs) = true := by
  induction bs generalizing m a with
  | nil => exact h
  | cons b t ih => exact ih _ _ (Memory.wf_memPut m a b h)

theorem State.hbmWrite_memOk (s : State) (a : Nat) (bs : List Byte) (h : s.MemOk) : (s.hbmWrite a bs).MemOk := Memory.wf_memWrite bs s.mem a h
theorem State.reset_memOk : State.reset.MemOk := rfl

end Sys2Proof.Machine
end

