-- ==== Sys2Proof/Laws/State.lean ====
section
/-! SUPPORT. One lemma for each field of each update of the state, true by unfolding, and what each accessor reads after each update. -/

namespace Sys2Proof.Machine

@[simp] theorem State.setGrpAt_agenda (s : State) (k : Nat) (g : Grp) : (s.setGrpAt k g).agenda = s.agenda := rfl
@[simp] theorem State.setGrpAt_turn (s : State) (k : Nat) (g : Grp) : (s.setGrpAt k g).turn = s.turn := rfl
@[simp] theorem State.setGrpAt_foc (s : State) (k : Nat) (g : Grp) : (s.setGrpAt k g).foc = s.foc := rfl
@[simp] theorem State.setGrpAt_free (s : State) (k : Nat) (g : Grp) : (s.setGrpAt k g).free = s.free := rfl
@[simp] theorem State.setGrpAt_nextId (s : State) (k : Nat) (g : Grp) : (s.setGrpAt k g).nextId = s.nextId := rfl
@[simp] theorem State.setGrpAt_order (s : State) (k : Nat) (g : Grp) : (s.setGrpAt k g).order = s.order := rfl
@[simp] theorem State.setGrpAt_met (s : State) (k : Nat) (g : Grp) : (s.setGrpAt k g).met = s.met := rfl
@[simp] theorem State.setGrpAt_hostOut (s : State) (k : Nat) (g : Grp) : (s.setGrpAt k g).hostOut = s.hostOut := rfl
@[simp] theorem State.setGrpAt_accounts (s : State) (k : Nat) (g : Grp) : (s.setGrpAt k g).accounts = s.accounts := rfl
@[simp] theorem State.setGrpAt_debited (s : State) (k : Nat) (g : Grp) : (s.setGrpAt k g).debited = s.debited := rfl
@[simp] theorem State.setGrpAt_mem (s : State) (k : Nat) (g : Grp) : (s.setGrpAt k g).mem = s.mem := rfl
@[simp] theorem State.setGrpAt_memPoi (s : State) (k : Nat) (g : Grp) : (s.setGrpAt k g).memPoi = s.memPoi := rfl
@[simp] theorem State.setGrpAt_pkg (s : State) (k : Nat) (g : Grp) : (s.setGrpAt k g).pkg = s.pkg := rfl
@[simp] theorem State.setGrpAt_ctxs (s : State) (k : Nat) (g : Grp) : (s.setGrpAt k g).ctxs = s.ctxs := rfl
@[simp] theorem State.setGrpAt_cores (s : State) (k : Nat) (g : Grp) : (s.setGrpAt k g).cores = s.cores := rfl
@[simp] theorem State.setGrpAt_grids (s : State) (k : Nat) (g : Grp) : (s.setGrpAt k g).grids = s.grids := rfl
@[simp] theorem State.setGrpAt_teams (s : State) (k : Nat) (g : Grp) : (s.setGrpAt k g).teams = s.teams := rfl
@[simp] theorem State.setGrpAt_groups (s : State) (k : Nat) (g : Grp) : (s.setGrpAt k g).groups = s.groups.set k g := rfl

@[simp] theorem State.setTeamAt_agenda (s : State) (k : Nat) (t : Team) : (s.setTeamAt k t).agenda = s.agenda := rfl
@[simp] theorem State.setTeamAt_turn (s : State) (k : Nat) (t : Team) : (s.setTeamAt k t).turn = s.turn := rfl
@[simp] theorem State.setTeamAt_foc (s : State) (k : Nat) (t : Team) : (s.setTeamAt k t).foc = s.foc := rfl
@[simp] theorem State.setTeamAt_free (s : State) (k : Nat) (t : Team) : (s.setTeamAt k t).free = s.free := rfl
@[simp] theorem State.setTeamAt_nextId (s : State) (k : Nat) (t : Team) : (s.setTeamAt k t).nextId = s.nextId := rfl
@[simp] theorem State.setTeamAt_order (s : State) (k : Nat) (t : Team) : (s.setTeamAt k t).order = s.order := rfl
@[simp] theorem State.setTeamAt_met (s : State) (k : Nat) (t : Team) : (s.setTeamAt k t).met = s.met := rfl
@[simp] theorem State.setTeamAt_hostOut (s : State) (k : Nat) (t : Team) : (s.setTeamAt k t).hostOut = s.hostOut := rfl
@[simp] theorem State.setTeamAt_accounts (s : State) (k : Nat) (t : Team) : (s.setTeamAt k t).accounts = s.accounts := rfl
@[simp] theorem State.setTeamAt_debited (s : State) (k : Nat) (t : Team) : (s.setTeamAt k t).debited = s.debited := rfl
@[simp] theorem State.setTeamAt_mem (s : State) (k : Nat) (t : Team) : (s.setTeamAt k t).mem = s.mem := rfl
@[simp] theorem State.setTeamAt_memPoi (s : State) (k : Nat) (t : Team) : (s.setTeamAt k t).memPoi = s.memPoi := rfl
@[simp] theorem State.setTeamAt_pkg (s : State) (k : Nat) (t : Team) : (s.setTeamAt k t).pkg = s.pkg := rfl
@[simp] theorem State.setTeamAt_ctxs (s : State) (k : Nat) (t : Team) : (s.setTeamAt k t).ctxs = s.ctxs := rfl
@[simp] theorem State.setTeamAt_cores (s : State) (k : Nat) (t : Team) : (s.setTeamAt k t).cores = s.cores := rfl
@[simp] theorem State.setTeamAt_grids (s : State) (k : Nat) (t : Team) : (s.setTeamAt k t).grids = s.grids := rfl
@[simp] theorem State.setTeamAt_teams (s : State) (k : Nat) (t : Team) : (s.setTeamAt k t).teams = s.teams.set k t := rfl
@[simp] theorem State.setTeamAt_groups (s : State) (k : Nat) (t : Team) : (s.setTeamAt k t).groups = s.groups := rfl

@[simp] theorem State.setGridAt_agenda (s : State) (k : Nat) (g : Grid) : (s.setGridAt k g).agenda = s.agenda := rfl
@[simp] theorem State.setGridAt_turn (s : State) (k : Nat) (g : Grid) : (s.setGridAt k g).turn = s.turn := rfl
@[simp] theorem State.setGridAt_foc (s : State) (k : Nat) (g : Grid) : (s.setGridAt k g).foc = s.foc := rfl
@[simp] theorem State.setGridAt_free (s : State) (k : Nat) (g : Grid) : (s.setGridAt k g).free = s.free := rfl
@[simp] theorem State.setGridAt_nextId (s : State) (k : Nat) (g : Grid) : (s.setGridAt k g).nextId = s.nextId := rfl
@[simp] theorem State.setGridAt_order (s : State) (k : Nat) (g : Grid) : (s.setGridAt k g).order = s.order := rfl
@[simp] theorem State.setGridAt_met (s : State) (k : Nat) (g : Grid) : (s.setGridAt k g).met = s.met := rfl
@[simp] theorem State.setGridAt_hostOut (s : State) (k : Nat) (g : Grid) : (s.setGridAt k g).hostOut = s.hostOut := rfl
@[simp] theorem State.setGridAt_accounts (s : State) (k : Nat) (g : Grid) : (s.setGridAt k g).accounts = s.accounts := rfl
@[simp] theorem State.setGridAt_debited (s : State) (k : Nat) (g : Grid) : (s.setGridAt k g).debited = s.debited := rfl
@[simp] theorem State.setGridAt_mem (s : State) (k : Nat) (g : Grid) : (s.setGridAt k g).mem = s.mem := rfl
@[simp] theorem State.setGridAt_memPoi (s : State) (k : Nat) (g : Grid) : (s.setGridAt k g).memPoi = s.memPoi := rfl
@[simp] theorem State.setGridAt_pkg (s : State) (k : Nat) (g : Grid) : (s.setGridAt k g).pkg = s.pkg := rfl
@[simp] theorem State.setGridAt_ctxs (s : State) (k : Nat) (g : Grid) : (s.setGridAt k g).ctxs = s.ctxs := rfl
@[simp] theorem State.setGridAt_cores (s : State) (k : Nat) (g : Grid) : (s.setGridAt k g).cores = s.cores := rfl
@[simp] theorem State.setGridAt_grids (s : State) (k : Nat) (g : Grid) : (s.setGridAt k g).grids = s.grids.set k g := rfl
@[simp] theorem State.setGridAt_teams (s : State) (k : Nat) (g : Grid) : (s.setGridAt k g).teams = s.teams := rfl
@[simp] theorem State.setGridAt_groups (s : State) (k : Nat) (g : Grid) : (s.setGridAt k g).groups = s.groups := rfl

@[simp] theorem State.setCtxAt_agenda (s : State) (k : Nat) (c : Ctx) : (s.setCtxAt k c).agenda = s.agenda := rfl
@[simp] theorem State.setCtxAt_turn (s : State) (k : Nat) (c : Ctx) : (s.setCtxAt k c).turn = s.turn := rfl
@[simp] theorem State.setCtxAt_foc (s : State) (k : Nat) (c : Ctx) : (s.setCtxAt k c).foc = s.foc := rfl
@[simp] theorem State.setCtxAt_free (s : State) (k : Nat) (c : Ctx) : (s.setCtxAt k c).free = s.free := rfl
@[simp] theorem State.setCtxAt_nextId (s : State) (k : Nat) (c : Ctx) : (s.setCtxAt k c).nextId = s.nextId := rfl
@[simp] theorem State.setCtxAt_order (s : State) (k : Nat) (c : Ctx) : (s.setCtxAt k c).order = s.order := rfl
@[simp] theorem State.setCtxAt_met (s : State) (k : Nat) (c : Ctx) : (s.setCtxAt k c).met = s.met := rfl
@[simp] theorem State.setCtxAt_hostOut (s : State) (k : Nat) (c : Ctx) : (s.setCtxAt k c).hostOut = s.hostOut := rfl
@[simp] theorem State.setCtxAt_accounts (s : State) (k : Nat) (c : Ctx) : (s.setCtxAt k c).accounts = s.accounts := rfl
@[simp] theorem State.setCtxAt_debited (s : State) (k : Nat) (c : Ctx) : (s.setCtxAt k c).debited = s.debited := rfl
@[simp] theorem State.setCtxAt_mem (s : State) (k : Nat) (c : Ctx) : (s.setCtxAt k c).mem = s.mem := rfl
@[simp] theorem State.setCtxAt_memPoi (s : State) (k : Nat) (c : Ctx) : (s.setCtxAt k c).memPoi = s.memPoi := rfl
@[simp] theorem State.setCtxAt_pkg (s : State) (k : Nat) (c : Ctx) : (s.setCtxAt k c).pkg = s.pkg := rfl
@[simp] theorem State.setCtxAt_ctxs (s : State) (k : Nat) (c : Ctx) : (s.setCtxAt k c).ctxs = s.ctxs.set k c := rfl
@[simp] theorem State.setCtxAt_cores (s : State) (k : Nat) (c : Ctx) : (s.setCtxAt k c).cores = s.cores := rfl
@[simp] theorem State.setCtxAt_grids (s : State) (k : Nat) (c : Ctx) : (s.setCtxAt k c).grids = s.grids := rfl
@[simp] theorem State.setCtxAt_teams (s : State) (k : Nat) (c : Ctx) : (s.setCtxAt k c).teams = s.teams := rfl
@[simp] theorem State.setCtxAt_groups (s : State) (k : Nat) (c : Ctx) : (s.setCtxAt k c).groups = s.groups := rfl

@[simp] theorem State.setCoreAt_agenda (s : State) (k : Nat) (c : CoreSt) : (s.setCoreAt k c).agenda = s.agenda := rfl
@[simp] theorem State.setCoreAt_turn (s : State) (k : Nat) (c : CoreSt) : (s.setCoreAt k c).turn = s.turn := rfl
@[simp] theorem State.setCoreAt_foc (s : State) (k : Nat) (c : CoreSt) : (s.setCoreAt k c).foc = s.foc := rfl
@[simp] theorem State.setCoreAt_free (s : State) (k : Nat) (c : CoreSt) : (s.setCoreAt k c).free = s.free := rfl
@[simp] theorem State.setCoreAt_nextId (s : State) (k : Nat) (c : CoreSt) : (s.setCoreAt k c).nextId = s.nextId := rfl
@[simp] theorem State.setCoreAt_order (s : State) (k : Nat) (c : CoreSt) : (s.setCoreAt k c).order = s.order := rfl
@[simp] theorem State.setCoreAt_met (s : State) (k : Nat) (c : CoreSt) : (s.setCoreAt k c).met = s.met := rfl
@[simp] theorem State.setCoreAt_hostOut (s : State) (k : Nat) (c : CoreSt) : (s.setCoreAt k c).hostOut = s.hostOut := rfl
@[simp] theorem State.setCoreAt_accounts (s : State) (k : Nat) (c : CoreSt) : (s.setCoreAt k c).accounts = s.accounts := rfl
@[simp] theorem State.setCoreAt_debited (s : State) (k : Nat) (c : CoreSt) : (s.setCoreAt k c).debited = s.debited := rfl
@[simp] theorem State.setCoreAt_mem (s : State) (k : Nat) (c : CoreSt) : (s.setCoreAt k c).mem = s.mem := rfl
@[simp] theorem State.setCoreAt_memPoi (s : State) (k : Nat) (c : CoreSt) : (s.setCoreAt k c).memPoi = s.memPoi := rfl
@[simp] theorem State.setCoreAt_pkg (s : State) (k : Nat) (c : CoreSt) : (s.setCoreAt k c).pkg = s.pkg := rfl
@[simp] theorem State.setCoreAt_ctxs (s : State) (k : Nat) (c : CoreSt) : (s.setCoreAt k c).ctxs = s.ctxs := rfl
@[simp] theorem State.setCoreAt_cores (s : State) (k : Nat) (c : CoreSt) : (s.setCoreAt k c).cores = s.cores.set k c := rfl
@[simp] theorem State.setCoreAt_grids (s : State) (k : Nat) (c : CoreSt) : (s.setCoreAt k c).grids = s.grids := rfl
@[simp] theorem State.setCoreAt_teams (s : State) (k : Nat) (c : CoreSt) : (s.setCoreAt k c).teams = s.teams := rfl
@[simp] theorem State.setCoreAt_groups (s : State) (k : Nat) (c : CoreSt) : (s.setCoreAt k c).groups = s.groups := rfl

@[simp] theorem State.setG_agenda (s : State) (g : Grp) : (s.setG g).agenda = s.agenda := rfl
@[simp] theorem State.setG_turn (s : State) (g : Grp) : (s.setG g).turn = s.turn := rfl
@[simp] theorem State.setG_foc (s : State) (g : Grp) : (s.setG g).foc = s.foc := rfl
@[simp] theorem State.setG_free (s : State) (g : Grp) : (s.setG g).free = s.free := rfl
@[simp] theorem State.setG_nextId (s : State) (g : Grp) : (s.setG g).nextId = s.nextId := rfl
@[simp] theorem State.setG_order (s : State) (g : Grp) : (s.setG g).order = s.order := rfl
@[simp] theorem State.setG_met (s : State) (g : Grp) : (s.setG g).met = s.met := rfl
@[simp] theorem State.setG_hostOut (s : State) (g : Grp) : (s.setG g).hostOut = s.hostOut := rfl
@[simp] theorem State.setG_accounts (s : State) (g : Grp) : (s.setG g).accounts = s.accounts := rfl
@[simp] theorem State.setG_debited (s : State) (g : Grp) : (s.setG g).debited = s.debited := rfl
@[simp] theorem State.setG_mem (s : State) (g : Grp) : (s.setG g).mem = s.mem := rfl
@[simp] theorem State.setG_memPoi (s : State) (g : Grp) : (s.setG g).memPoi = s.memPoi := rfl
@[simp] theorem State.setG_pkg (s : State) (g : Grp) : (s.setG g).pkg = s.pkg := rfl
@[simp] theorem State.setG_ctxs (s : State) (g : Grp) : (s.setG g).ctxs = s.ctxs := rfl
@[simp] theorem State.setG_cores (s : State) (g : Grp) : (s.setG g).cores = s.cores := rfl
@[simp] theorem State.setG_grids (s : State) (g : Grp) : (s.setG g).grids = s.grids := rfl
@[simp] theorem State.setG_teams (s : State) (g : Grp) : (s.setG g).teams = s.teams := rfl
@[simp] theorem State.setG_groups (s : State) (g : Grp) : (s.setG g).groups = s.groups.set s.foc.grp g := rfl

@[simp] theorem State.setT_agenda (s : State) (t : Team) : (s.setT t).agenda = s.agenda := rfl
@[simp] theorem State.setT_turn (s : State) (t : Team) : (s.setT t).turn = s.turn := rfl
@[simp] theorem State.setT_foc (s : State) (t : Team) : (s.setT t).foc = s.foc := rfl
@[simp] theorem State.setT_free (s : State) (t : Team) : (s.setT t).free = s.free := rfl
@[simp] theorem State.setT_nextId (s : State) (t : Team) : (s.setT t).nextId = s.nextId := rfl
@[simp] theorem State.setT_order (s : State) (t : Team) : (s.setT t).order = s.order := rfl
@[simp] theorem State.setT_met (s : State) (t : Team) : (s.setT t).met = s.met := rfl
@[simp] theorem State.setT_hostOut (s : State) (t : Team) : (s.setT t).hostOut = s.hostOut := rfl
@[simp] theorem State.setT_accounts (s : State) (t : Team) : (s.setT t).accounts = s.accounts := rfl
@[simp] theorem State.setT_debited (s : State) (t : Team) : (s.setT t).debited = s.debited := rfl
@[simp] theorem State.setT_mem (s : State) (t : Team) : (s.setT t).mem = s.mem := rfl
@[simp] theorem State.setT_memPoi (s : State) (t : Team) : (s.setT t).memPoi = s.memPoi := rfl
@[simp] theorem State.setT_pkg (s : State) (t : Team) : (s.setT t).pkg = s.pkg := rfl
@[simp] theorem State.setT_ctxs (s : State) (t : Team) : (s.setT t).ctxs = s.ctxs := rfl
@[simp] theorem State.setT_cores (s : State) (t : Team) : (s.setT t).cores = s.cores := rfl
@[simp] theorem State.setT_grids (s : State) (t : Team) : (s.setT t).grids = s.grids := rfl
@[simp] theorem State.setT_teams (s : State) (t : Team) : (s.setT t).teams = s.teams.set s.foc.team t := rfl
@[simp] theorem State.setT_groups (s : State) (t : Team) : (s.setT t).groups = s.groups := rfl

@[simp] theorem State.setGr_agenda (s : State) (g : Grid) : (s.setGr g).agenda = s.agenda := rfl
@[simp] theorem State.setGr_turn (s : State) (g : Grid) : (s.setGr g).turn = s.turn := rfl
@[simp] theorem State.setGr_foc (s : State) (g : Grid) : (s.setGr g).foc = s.foc := rfl
@[simp] theorem State.setGr_free (s : State) (g : Grid) : (s.setGr g).free = s.free := rfl
@[simp] theorem State.setGr_nextId (s : State) (g : Grid) : (s.setGr g).nextId = s.nextId := rfl
@[simp] theorem State.setGr_order (s : State) (g : Grid) : (s.setGr g).order = s.order := rfl
@[simp] theorem State.setGr_met (s : State) (g : Grid) : (s.setGr g).met = s.met := rfl
@[simp] theorem State.setGr_hostOut (s : State) (g : Grid) : (s.setGr g).hostOut = s.hostOut := rfl
@[simp] theorem State.setGr_accounts (s : State) (g : Grid) : (s.setGr g).accounts = s.accounts := rfl
@[simp] theorem State.setGr_debited (s : State) (g : Grid) : (s.setGr g).debited = s.debited := rfl
@[simp] theorem State.setGr_mem (s : State) (g : Grid) : (s.setGr g).mem = s.mem := rfl
@[simp] theorem State.setGr_memPoi (s : State) (g : Grid) : (s.setGr g).memPoi = s.memPoi := rfl
@[simp] theorem State.setGr_pkg (s : State) (g : Grid) : (s.setGr g).pkg = s.pkg := rfl
@[simp] theorem State.setGr_ctxs (s : State) (g : Grid) : (s.setGr g).ctxs = s.ctxs := rfl
@[simp] theorem State.setGr_cores (s : State) (g : Grid) : (s.setGr g).cores = s.cores := rfl
@[simp] theorem State.setGr_grids (s : State) (g : Grid) : (s.setGr g).grids = s.grids.set s.foc.grid g := rfl
@[simp] theorem State.setGr_teams (s : State) (g : Grid) : (s.setGr g).teams = s.teams := rfl
@[simp] theorem State.setGr_groups (s : State) (g : Grid) : (s.setGr g).groups = s.groups := rfl

@[simp] theorem State.setC_agenda (s : State) (c : Ctx) : (s.setC c).agenda = s.agenda := rfl
@[simp] theorem State.setC_turn (s : State) (c : Ctx) : (s.setC c).turn = s.turn := rfl
@[simp] theorem State.setC_foc (s : State) (c : Ctx) : (s.setC c).foc = s.foc := rfl
@[simp] theorem State.setC_free (s : State) (c : Ctx) : (s.setC c).free = s.free := rfl
@[simp] theorem State.setC_nextId (s : State) (c : Ctx) : (s.setC c).nextId = s.nextId := rfl
@[simp] theorem State.setC_order (s : State) (c : Ctx) : (s.setC c).order = s.order := rfl
@[simp] theorem State.setC_met (s : State) (c : Ctx) : (s.setC c).met = s.met := rfl
@[simp] theorem State.setC_hostOut (s : State) (c : Ctx) : (s.setC c).hostOut = s.hostOut := rfl
@[simp] theorem State.setC_accounts (s : State) (c : Ctx) : (s.setC c).accounts = s.accounts := rfl
@[simp] theorem State.setC_debited (s : State) (c : Ctx) : (s.setC c).debited = s.debited := rfl
@[simp] theorem State.setC_mem (s : State) (c : Ctx) : (s.setC c).mem = s.mem := rfl
@[simp] theorem State.setC_memPoi (s : State) (c : Ctx) : (s.setC c).memPoi = s.memPoi := rfl
@[simp] theorem State.setC_pkg (s : State) (c : Ctx) : (s.setC c).pkg = s.pkg := rfl
@[simp] theorem State.setC_ctxs (s : State) (c : Ctx) : (s.setC c).ctxs = s.ctxs.set s.foc.ctx c := rfl
@[simp] theorem State.setC_cores (s : State) (c : Ctx) : (s.setC c).cores = s.cores := rfl
@[simp] theorem State.setC_grids (s : State) (c : Ctx) : (s.setC c).grids = s.grids := rfl
@[simp] theorem State.setC_teams (s : State) (c : Ctx) : (s.setC c).teams = s.teams := rfl
@[simp] theorem State.setC_groups (s : State) (c : Ctx) : (s.setC c).groups = s.groups := rfl

@[simp] theorem State.setCo_agenda (s : State) (c : CoreSt) : (s.setCo c).agenda = s.agenda := rfl
@[simp] theorem State.setCo_turn (s : State) (c : CoreSt) : (s.setCo c).turn = s.turn := rfl
@[simp] theorem State.setCo_foc (s : State) (c : CoreSt) : (s.setCo c).foc = s.foc := rfl
@[simp] theorem State.setCo_free (s : State) (c : CoreSt) : (s.setCo c).free = s.free := rfl
@[simp] theorem State.setCo_nextId (s : State) (c : CoreSt) : (s.setCo c).nextId = s.nextId := rfl
@[simp] theorem State.setCo_order (s : State) (c : CoreSt) : (s.setCo c).order = s.order := rfl
@[simp] theorem State.setCo_met (s : State) (c : CoreSt) : (s.setCo c).met = s.met := rfl
@[simp] theorem State.setCo_hostOut (s : State) (c : CoreSt) : (s.setCo c).hostOut = s.hostOut := rfl
@[simp] theorem State.setCo_accounts (s : State) (c : CoreSt) : (s.setCo c).accounts = s.accounts := rfl
@[simp] theorem State.setCo_debited (s : State) (c : CoreSt) : (s.setCo c).debited = s.debited := rfl
@[simp] theorem State.setCo_mem (s : State) (c : CoreSt) : (s.setCo c).mem = s.mem := rfl
@[simp] theorem State.setCo_memPoi (s : State) (c : CoreSt) : (s.setCo c).memPoi = s.memPoi := rfl
@[simp] theorem State.setCo_pkg (s : State) (c : CoreSt) : (s.setCo c).pkg = s.pkg := rfl
@[simp] theorem State.setCo_ctxs (s : State) (c : CoreSt) : (s.setCo c).ctxs = s.ctxs := rfl
@[simp] theorem State.setCo_cores (s : State) (c : CoreSt) : (s.setCo c).cores = s.cores.set s.foc.core c := rfl
@[simp] theorem State.setCo_grids (s : State) (c : CoreSt) : (s.setCo c).grids = s.grids := rfl
@[simp] theorem State.setCo_teams (s : State) (c : CoreSt) : (s.setCo c).teams = s.teams := rfl
@[simp] theorem State.setCo_groups (s : State) (c : CoreSt) : (s.setCo c).groups = s.groups := rfl

@[simp] theorem State.modG_agenda (s : State) (f : Grp → Grp) : (s.modG f).agenda = s.agenda := rfl
@[simp] theorem State.modG_turn (s : State) (f : Grp → Grp) : (s.modG f).turn = s.turn := rfl
@[simp] theorem State.modG_foc (s : State) (f : Grp → Grp) : (s.modG f).foc = s.foc := rfl
@[simp] theorem State.modG_free (s : State) (f : Grp → Grp) : (s.modG f).free = s.free := rfl
@[simp] theorem State.modG_nextId (s : State) (f : Grp → Grp) : (s.modG f).nextId = s.nextId := rfl
@[simp] theorem State.modG_order (s : State) (f : Grp → Grp) : (s.modG f).order = s.order := rfl
@[simp] theorem State.modG_met (s : State) (f : Grp → Grp) : (s.modG f).met = s.met := rfl
@[simp] theorem State.modG_hostOut (s : State) (f : Grp → Grp) : (s.modG f).hostOut = s.hostOut := rfl
@[simp] theorem State.modG_accounts (s : State) (f : Grp → Grp) : (s.modG f).accounts = s.accounts := rfl
@[simp] theorem State.modG_debited (s : State) (f : Grp → Grp) : (s.modG f).debited = s.debited := rfl
@[simp] theorem State.modG_mem (s : State) (f : Grp → Grp) : (s.modG f).mem = s.mem := rfl
@[simp] theorem State.modG_memPoi (s : State) (f : Grp → Grp) : (s.modG f).memPoi = s.memPoi := rfl
@[simp] theorem State.modG_pkg (s : State) (f : Grp → Grp) : (s.modG f).pkg = s.pkg := rfl
@[simp] theorem State.modG_ctxs (s : State) (f : Grp → Grp) : (s.modG f).ctxs = s.ctxs := rfl
@[simp] theorem State.modG_cores (s : State) (f : Grp → Grp) : (s.modG f).cores = s.cores := rfl
@[simp] theorem State.modG_grids (s : State) (f : Grp → Grp) : (s.modG f).grids = s.grids := rfl
@[simp] theorem State.modG_teams (s : State) (f : Grp → Grp) : (s.modG f).teams = s.teams := rfl
@[simp] theorem State.modG_groups (s : State) (f : Grp → Grp) : (s.modG f).groups = s.groups.set s.foc.grp (f s.g) := rfl

@[simp] theorem State.modT_agenda (s : State) (f : Team → Team) : (s.modT f).agenda = s.agenda := rfl
@[simp] theorem State.modT_turn (s : State) (f : Team → Team) : (s.modT f).turn = s.turn := rfl
@[simp] theorem State.modT_foc (s : State) (f : Team → Team) : (s.modT f).foc = s.foc := rfl
@[simp] theorem State.modT_free (s : State) (f : Team → Team) : (s.modT f).free = s.free := rfl
@[simp] theorem State.modT_nextId (s : State) (f : Team → Team) : (s.modT f).nextId = s.nextId := rfl
@[simp] theorem State.modT_order (s : State) (f : Team → Team) : (s.modT f).order = s.order := rfl
@[simp] theorem State.modT_met (s : State) (f : Team → Team) : (s.modT f).met = s.met := rfl
@[simp] theorem State.modT_hostOut (s : State) (f : Team → Team) : (s.modT f).hostOut = s.hostOut := rfl
@[simp] theorem State.modT_accounts (s : State) (f : Team → Team) : (s.modT f).accounts = s.accounts := rfl
@[simp] theorem State.modT_debited (s : State) (f : Team → Team) : (s.modT f).debited = s.debited := rfl
@[simp] theorem State.modT_mem (s : State) (f : Team → Team) : (s.modT f).mem = s.mem := rfl
@[simp] theorem State.modT_memPoi (s : State) (f : Team → Team) : (s.modT f).memPoi = s.memPoi := rfl
@[simp] theorem State.modT_pkg (s : State) (f : Team → Team) : (s.modT f).pkg = s.pkg := rfl
@[simp] theorem State.modT_ctxs (s : State) (f : Team → Team) : (s.modT f).ctxs = s.ctxs := rfl
@[simp] theorem State.modT_cores (s : State) (f : Team → Team) : (s.modT f).cores = s.cores := rfl
@[simp] theorem State.modT_grids (s : State) (f : Team → Team) : (s.modT f).grids = s.grids := rfl
@[simp] theorem State.modT_teams (s : State) (f : Team → Team) : (s.modT f).teams = s.teams.set s.foc.team (f s.t) := rfl
@[simp] theorem State.modT_groups (s : State) (f : Team → Team) : (s.modT f).groups = s.groups := rfl

@[simp] theorem State.modGr_agenda (s : State) (f : Grid → Grid) : (s.modGr f).agenda = s.agenda := rfl
@[simp] theorem State.modGr_turn (s : State) (f : Grid → Grid) : (s.modGr f).turn = s.turn := rfl
@[simp] theorem State.modGr_foc (s : State) (f : Grid → Grid) : (s.modGr f).foc = s.foc := rfl
@[simp] theorem State.modGr_free (s : State) (f : Grid → Grid) : (s.modGr f).free = s.free := rfl
@[simp] theorem State.modGr_nextId (s : State) (f : Grid → Grid) : (s.modGr f).nextId = s.nextId := rfl
@[simp] theorem State.modGr_order (s : State) (f : Grid → Grid) : (s.modGr f).order = s.order := rfl
@[simp] theorem State.modGr_met (s : State) (f : Grid → Grid) : (s.modGr f).met = s.met := rfl
@[simp] theorem State.modGr_hostOut (s : State) (f : Grid → Grid) : (s.modGr f).hostOut = s.hostOut := rfl
@[simp] theorem State.modGr_accounts (s : State) (f : Grid → Grid) : (s.modGr f).accounts = s.accounts := rfl
@[simp] theorem State.modGr_debited (s : State) (f : Grid → Grid) : (s.modGr f).debited = s.debited := rfl
@[simp] theorem State.modGr_mem (s : State) (f : Grid → Grid) : (s.modGr f).mem = s.mem := rfl
@[simp] theorem State.modGr_memPoi (s : State) (f : Grid → Grid) : (s.modGr f).memPoi = s.memPoi := rfl
@[simp] theorem State.modGr_pkg (s : State) (f : Grid → Grid) : (s.modGr f).pkg = s.pkg := rfl
@[simp] theorem State.modGr_ctxs (s : State) (f : Grid → Grid) : (s.modGr f).ctxs = s.ctxs := rfl
@[simp] theorem State.modGr_cores (s : State) (f : Grid → Grid) : (s.modGr f).cores = s.cores := rfl
@[simp] theorem State.modGr_grids (s : State) (f : Grid → Grid) : (s.modGr f).grids = s.grids.set s.foc.grid (f s.gr) := rfl
@[simp] theorem State.modGr_teams (s : State) (f : Grid → Grid) : (s.modGr f).teams = s.teams := rfl
@[simp] theorem State.modGr_groups (s : State) (f : Grid → Grid) : (s.modGr f).groups = s.groups := rfl

@[simp] theorem State.modC_agenda (s : State) (f : Ctx → Ctx) : (s.modC f).agenda = s.agenda := rfl
@[simp] theorem State.modC_turn (s : State) (f : Ctx → Ctx) : (s.modC f).turn = s.turn := rfl
@[simp] theorem State.modC_foc (s : State) (f : Ctx → Ctx) : (s.modC f).foc = s.foc := rfl
@[simp] theorem State.modC_free (s : State) (f : Ctx → Ctx) : (s.modC f).free = s.free := rfl
@[simp] theorem State.modC_nextId (s : State) (f : Ctx → Ctx) : (s.modC f).nextId = s.nextId := rfl
@[simp] theorem State.modC_order (s : State) (f : Ctx → Ctx) : (s.modC f).order = s.order := rfl
@[simp] theorem State.modC_met (s : State) (f : Ctx → Ctx) : (s.modC f).met = s.met := rfl
@[simp] theorem State.modC_hostOut (s : State) (f : Ctx → Ctx) : (s.modC f).hostOut = s.hostOut := rfl
@[simp] theorem State.modC_accounts (s : State) (f : Ctx → Ctx) : (s.modC f).accounts = s.accounts := rfl
@[simp] theorem State.modC_debited (s : State) (f : Ctx → Ctx) : (s.modC f).debited = s.debited := rfl
@[simp] theorem State.modC_mem (s : State) (f : Ctx → Ctx) : (s.modC f).mem = s.mem := rfl
@[simp] theorem State.modC_memPoi (s : State) (f : Ctx → Ctx) : (s.modC f).memPoi = s.memPoi := rfl
@[simp] theorem State.modC_pkg (s : State) (f : Ctx → Ctx) : (s.modC f).pkg = s.pkg := rfl
@[simp] theorem State.modC_ctxs (s : State) (f : Ctx → Ctx) : (s.modC f).ctxs = s.ctxs.set s.foc.ctx (f s.c) := rfl
@[simp] theorem State.modC_cores (s : State) (f : Ctx → Ctx) : (s.modC f).cores = s.cores := rfl
@[simp] theorem State.modC_grids (s : State) (f : Ctx → Ctx) : (s.modC f).grids = s.grids := rfl
@[simp] theorem State.modC_teams (s : State) (f : Ctx → Ctx) : (s.modC f).teams = s.teams := rfl
@[simp] theorem State.modC_groups (s : State) (f : Ctx → Ctx) : (s.modC f).groups = s.groups := rfl

@[simp] theorem State.modCo_agenda (s : State) (f : CoreSt → CoreSt) : (s.modCo f).agenda = s.agenda := rfl
@[simp] theorem State.modCo_turn (s : State) (f : CoreSt → CoreSt) : (s.modCo f).turn = s.turn := rfl
@[simp] theorem State.modCo_foc (s : State) (f : CoreSt → CoreSt) : (s.modCo f).foc = s.foc := rfl
@[simp] theorem State.modCo_free (s : State) (f : CoreSt → CoreSt) : (s.modCo f).free = s.free := rfl
@[simp] theorem State.modCo_nextId (s : State) (f : CoreSt → CoreSt) : (s.modCo f).nextId = s.nextId := rfl
@[simp] theorem State.modCo_order (s : State) (f : CoreSt → CoreSt) : (s.modCo f).order = s.order := rfl
@[simp] theorem State.modCo_met (s : State) (f : CoreSt → CoreSt) : (s.modCo f).met = s.met := rfl
@[simp] theorem State.modCo_hostOut (s : State) (f : CoreSt → CoreSt) : (s.modCo f).hostOut = s.hostOut := rfl
@[simp] theorem State.modCo_accounts (s : State) (f : CoreSt → CoreSt) : (s.modCo f).accounts = s.accounts := rfl
@[simp] theorem State.modCo_debited (s : State) (f : CoreSt → CoreSt) : (s.modCo f).debited = s.debited := rfl
@[simp] theorem State.modCo_mem (s : State) (f : CoreSt → CoreSt) : (s.modCo f).mem = s.mem := rfl
@[simp] theorem State.modCo_memPoi (s : State) (f : CoreSt → CoreSt) : (s.modCo f).memPoi = s.memPoi := rfl
@[simp] theorem State.modCo_pkg (s : State) (f : CoreSt → CoreSt) : (s.modCo f).pkg = s.pkg := rfl
@[simp] theorem State.modCo_ctxs (s : State) (f : CoreSt → CoreSt) : (s.modCo f).ctxs = s.ctxs := rfl
@[simp] theorem State.modCo_cores (s : State) (f : CoreSt → CoreSt) : (s.modCo f).cores = s.cores.set s.foc.core (f s.co) := rfl
@[simp] theorem State.modCo_grids (s : State) (f : CoreSt → CoreSt) : (s.modCo f).grids = s.grids := rfl
@[simp] theorem State.modCo_teams (s : State) (f : CoreSt → CoreSt) : (s.modCo f).teams = s.teams := rfl
@[simp] theorem State.modCo_groups (s : State) (f : CoreSt → CoreSt) : (s.modCo f).groups = s.groups := rfl

@[simp] theorem State.modPkg_agenda (s : State) (f : Pkg → Pkg) : (s.modPkg f).agenda = s.agenda := rfl
@[simp] theorem State.modPkg_turn (s : State) (f : Pkg → Pkg) : (s.modPkg f).turn = s.turn := rfl
@[simp] theorem State.modPkg_foc (s : State) (f : Pkg → Pkg) : (s.modPkg f).foc = s.foc := rfl
@[simp] theorem State.modPkg_free (s : State) (f : Pkg → Pkg) : (s.modPkg f).free = s.free := rfl
@[simp] theorem State.modPkg_nextId (s : State) (f : Pkg → Pkg) : (s.modPkg f).nextId = s.nextId := rfl
@[simp] theorem State.modPkg_order (s : State) (f : Pkg → Pkg) : (s.modPkg f).order = s.order := rfl
@[simp] theorem State.modPkg_met (s : State) (f : Pkg → Pkg) : (s.modPkg f).met = s.met := rfl
@[simp] theorem State.modPkg_hostOut (s : State) (f : Pkg → Pkg) : (s.modPkg f).hostOut = s.hostOut := rfl
@[simp] theorem State.modPkg_accounts (s : State) (f : Pkg → Pkg) : (s.modPkg f).accounts = s.accounts := rfl
@[simp] theorem State.modPkg_debited (s : State) (f : Pkg → Pkg) : (s.modPkg f).debited = s.debited := rfl
@[simp] theorem State.modPkg_mem (s : State) (f : Pkg → Pkg) : (s.modPkg f).mem = s.mem := rfl
@[simp] theorem State.modPkg_memPoi (s : State) (f : Pkg → Pkg) : (s.modPkg f).memPoi = s.memPoi := rfl
@[simp] theorem State.modPkg_pkg (s : State) (f : Pkg → Pkg) : (s.modPkg f).pkg = f s.pkg := rfl
@[simp] theorem State.modPkg_ctxs (s : State) (f : Pkg → Pkg) : (s.modPkg f).ctxs = s.ctxs := rfl
@[simp] theorem State.modPkg_cores (s : State) (f : Pkg → Pkg) : (s.modPkg f).cores = s.cores := rfl
@[simp] theorem State.modPkg_grids (s : State) (f : Pkg → Pkg) : (s.modPkg f).grids = s.grids := rfl
@[simp] theorem State.modPkg_teams (s : State) (f : Pkg → Pkg) : (s.modPkg f).teams = s.teams := rfl
@[simp] theorem State.modPkg_groups (s : State) (f : Pkg → Pkg) : (s.modPkg f).groups = s.groups := rfl

@[simp] theorem State.setPtab_agenda (s : State) (t : List (Option PtEntry)) : (s.setPtab t).agenda = s.agenda := rfl
@[simp] theorem State.setPtab_turn (s : State) (t : List (Option PtEntry)) : (s.setPtab t).turn = s.turn := rfl
@[simp] theorem State.setPtab_foc (s : State) (t : List (Option PtEntry)) : (s.setPtab t).foc = s.foc := rfl
@[simp] theorem State.setPtab_free (s : State) (t : List (Option PtEntry)) : (s.setPtab t).free = s.free := rfl
@[simp] theorem State.setPtab_nextId (s : State) (t : List (Option PtEntry)) : (s.setPtab t).nextId = s.nextId := rfl
@[simp] theorem State.setPtab_order (s : State) (t : List (Option PtEntry)) : (s.setPtab t).order = s.order := rfl
@[simp] theorem State.setPtab_met (s : State) (t : List (Option PtEntry)) : (s.setPtab t).met = s.met := rfl
@[simp] theorem State.setPtab_hostOut (s : State) (t : List (Option PtEntry)) : (s.setPtab t).hostOut = s.hostOut := rfl
@[simp] theorem State.setPtab_accounts (s : State) (t : List (Option PtEntry)) : (s.setPtab t).accounts = s.accounts := rfl
@[simp] theorem State.setPtab_debited (s : State) (t : List (Option PtEntry)) : (s.setPtab t).debited = s.debited := rfl
@[simp] theorem State.setPtab_mem (s : State) (t : List (Option PtEntry)) : (s.setPtab t).mem = s.mem := rfl
@[simp] theorem State.setPtab_memPoi (s : State) (t : List (Option PtEntry)) : (s.setPtab t).memPoi = s.memPoi := rfl
@[simp] theorem State.setPtab_pkg (s : State) (t : List (Option PtEntry)) : (s.setPtab t).pkg = s.pkg := rfl
@[simp] theorem State.setPtab_ctxs (s : State) (t : List (Option PtEntry)) : (s.setPtab t).ctxs = s.ctxs := rfl
@[simp] theorem State.setPtab_cores (s : State) (t : List (Option PtEntry)) : (s.setPtab t).cores = s.cores := rfl
@[simp] theorem State.setPtab_grids (s : State) (t : List (Option PtEntry)) : (s.setPtab t).grids = s.grids := rfl
@[simp] theorem State.setPtab_groups (s : State) (t : List (Option PtEntry)) : (s.setPtab t).groups = s.groups := rfl

@[simp] theorem State.bump_agenda (s : State) : (s.bump).agenda = s.agenda := rfl
@[simp] theorem State.bump_turn (s : State) : (s.bump).turn = s.turn := rfl
@[simp] theorem State.bump_foc (s : State) : (s.bump).foc = s.foc := rfl
@[simp] theorem State.bump_free (s : State) : (s.bump).free = s.free + 1 := rfl
@[simp] theorem State.bump_nextId (s : State) : (s.bump).nextId = s.nextId := rfl
@[simp] theorem State.bump_order (s : State) : (s.bump).order = s.order := rfl
@[simp] theorem State.bump_met (s : State) : (s.bump).met = s.met := rfl
@[simp] theorem State.bump_hostOut (s : State) : (s.bump).hostOut = s.hostOut := rfl
@[simp] theorem State.bump_accounts (s : State) : (s.bump).accounts = s.accounts := rfl
@[simp] theorem State.bump_debited (s : State) : (s.bump).debited = s.debited := rfl
@[simp] theorem State.bump_mem (s : State) : (s.bump).mem = s.mem := rfl
@[simp] theorem State.bump_memPoi (s : State) : (s.bump).memPoi = s.memPoi := rfl
@[simp] theorem State.bump_pkg (s : State) : (s.bump).pkg = s.pkg := rfl
@[simp] theorem State.bump_ctxs (s : State) : (s.bump).ctxs = s.ctxs := rfl
@[simp] theorem State.bump_cores (s : State) : (s.bump).cores = s.cores := rfl
@[simp] theorem State.bump_grids (s : State) : (s.bump).grids = s.grids := rfl
@[simp] theorem State.bump_teams (s : State) : (s.bump).teams = s.teams := rfl
@[simp] theorem State.bump_groups (s : State) : (s.bump).groups = s.groups := rfl

@[simp] theorem State.debitAt_agenda (s : State) (k n : Nat) : (s.debitAt k n).agenda = s.agenda := rfl
@[simp] theorem State.debitAt_turn (s : State) (k n : Nat) : (s.debitAt k n).turn = s.turn := rfl
@[simp] theorem State.debitAt_foc (s : State) (k n : Nat) : (s.debitAt k n).foc = s.foc := rfl
@[simp] theorem State.debitAt_free (s : State) (k n : Nat) : (s.debitAt k n).free = s.free := rfl
@[simp] theorem State.debitAt_nextId (s : State) (k n : Nat) : (s.debitAt k n).nextId = s.nextId := rfl
@[simp] theorem State.debitAt_order (s : State) (k n : Nat) : (s.debitAt k n).order = s.order := rfl
@[simp] theorem State.debitAt_met (s : State) (k n : Nat) : (s.debitAt k n).met = s.met := rfl
@[simp] theorem State.debitAt_hostOut (s : State) (k n : Nat) : (s.debitAt k n).hostOut = s.hostOut := rfl
@[simp] theorem State.debitAt_mem (s : State) (k n : Nat) : (s.debitAt k n).mem = s.mem := rfl
@[simp] theorem State.debitAt_memPoi (s : State) (k n : Nat) : (s.debitAt k n).memPoi = s.memPoi := rfl
@[simp] theorem State.debitAt_pkg (s : State) (k n : Nat) : (s.debitAt k n).pkg = s.pkg := rfl
@[simp] theorem State.debitAt_ctxs (s : State) (k n : Nat) : (s.debitAt k n).ctxs = s.ctxs := rfl
@[simp] theorem State.debitAt_cores (s : State) (k n : Nat) : (s.debitAt k n).cores = s.cores := rfl
@[simp] theorem State.debitAt_grids (s : State) (k n : Nat) : (s.debitAt k n).grids = s.grids := rfl
@[simp] theorem State.debitAt_teams (s : State) (k n : Nat) : (s.debitAt k n).teams = s.teams := rfl
@[simp] theorem State.debitAt_groups (s : State) (k n : Nat) : (s.debitAt k n).groups = s.groups := rfl
@[simp] theorem State.debitAt_g (s : State) (k n : Nat) : (s.debitAt k n).g = s.g := rfl
@[simp] theorem State.debitAt_t (s : State) (k n : Nat) : (s.debitAt k n).t = s.t := rfl
@[simp] theorem State.debitAt_c (s : State) (k n : Nat) : (s.debitAt k n).c = s.c := rfl
@[simp] theorem State.debitAt_co (s : State) (k n : Nat) : (s.debitAt k n).co = s.co := rfl
@[simp] theorem State.debitAt_gr (s : State) (k n : Nat) : (s.debitAt k n).gr = s.gr := rfl

@[simp] theorem State.refocus_agenda (s : State) (s0 : State) : (s.refocus s0).agenda = s.agenda := rfl
@[simp] theorem State.refocus_turn (s : State) (s0 : State) : (s.refocus s0).turn = s.turn := rfl
@[simp] theorem State.refocus_foc (s : State) (s0 : State) : (s.refocus s0).foc = s0.foc := rfl
@[simp] theorem State.refocus_free (s : State) (s0 : State) : (s.refocus s0).free = s.free := rfl
@[simp] theorem State.refocus_nextId (s : State) (s0 : State) : (s.refocus s0).nextId = s.nextId := rfl
@[simp] theorem State.refocus_order (s : State) (s0 : State) : (s.refocus s0).order = s.order := rfl
@[simp] theorem State.refocus_met (s : State) (s0 : State) : (s.refocus s0).met = s.met := rfl
@[simp] theorem State.refocus_hostOut (s : State) (s0 : State) : (s.refocus s0).hostOut = s.hostOut := rfl
@[simp] theorem State.refocus_accounts (s : State) (s0 : State) : (s.refocus s0).accounts = s.accounts := rfl
@[simp] theorem State.refocus_debited (s : State) (s0 : State) : (s.refocus s0).debited = s.debited := rfl
@[simp] theorem State.refocus_mem (s : State) (s0 : State) : (s.refocus s0).mem = s.mem := rfl
@[simp] theorem State.refocus_memPoi (s : State) (s0 : State) : (s.refocus s0).memPoi = s.memPoi := rfl
@[simp] theorem State.refocus_pkg (s : State) (s0 : State) : (s.refocus s0).pkg = s.pkg := rfl
@[simp] theorem State.refocus_ctxs (s : State) (s0 : State) : (s.refocus s0).ctxs = s.ctxs := rfl
@[simp] theorem State.refocus_cores (s : State) (s0 : State) : (s.refocus s0).cores = s.cores := rfl
@[simp] theorem State.refocus_grids (s : State) (s0 : State) : (s.refocus s0).grids = s.grids := rfl
@[simp] theorem State.refocus_teams (s : State) (s0 : State) : (s.refocus s0).teams = s.teams := rfl
@[simp] theorem State.refocus_groups (s : State) (s0 : State) : (s.refocus s0).groups = s.groups := rfl

@[simp] theorem State.focusGrp_agenda (s : State) (k : Nat) : (s.focusGrp k).agenda = s.agenda := rfl
@[simp] theorem State.focusGrp_turn (s : State) (k : Nat) : (s.focusGrp k).turn = s.turn := rfl
@[simp] theorem State.focusGrp_free (s : State) (k : Nat) : (s.focusGrp k).free = s.free := rfl
@[simp] theorem State.focusGrp_nextId (s : State) (k : Nat) : (s.focusGrp k).nextId = s.nextId := rfl
@[simp] theorem State.focusGrp_order (s : State) (k : Nat) : (s.focusGrp k).order = s.order := rfl
@[simp] theorem State.focusGrp_met (s : State) (k : Nat) : (s.focusGrp k).met = s.met := rfl
@[simp] theorem State.focusGrp_hostOut (s : State) (k : Nat) : (s.focusGrp k).hostOut = s.hostOut := rfl
@[simp] theorem State.focusGrp_accounts (s : State) (k : Nat) : (s.focusGrp k).accounts = s.accounts := rfl
@[simp] theorem State.focusGrp_debited (s : State) (k : Nat) : (s.focusGrp k).debited = s.debited := rfl
@[simp] theorem State.focusGrp_mem (s : State) (k : Nat) : (s.focusGrp k).mem = s.mem := rfl
@[simp] theorem State.focusGrp_memPoi (s : State) (k : Nat) : (s.focusGrp k).memPoi = s.memPoi := rfl
@[simp] theorem State.focusGrp_pkg (s : State) (k : Nat) : (s.focusGrp k).pkg = s.pkg := rfl
@[simp] theorem State.focusGrp_ctxs (s : State) (k : Nat) : (s.focusGrp k).ctxs = s.ctxs := rfl
@[simp] theorem State.focusGrp_cores (s : State) (k : Nat) : (s.focusGrp k).cores = s.cores := rfl
@[simp] theorem State.focusGrp_grids (s : State) (k : Nat) : (s.focusGrp k).grids = s.grids := rfl
@[simp] theorem State.focusGrp_teams (s : State) (k : Nat) : (s.focusGrp k).teams = s.teams := rfl
@[simp] theorem State.focusGrp_groups (s : State) (k : Nat) : (s.focusGrp k).groups = s.groups := rfl

@[simp] theorem State.focusTeam_agenda (s : State) (k : Nat) : (s.focusTeam k).agenda = s.agenda := rfl
@[simp] theorem State.focusTeam_turn (s : State) (k : Nat) : (s.focusTeam k).turn = s.turn := rfl
@[simp] theorem State.focusTeam_free (s : State) (k : Nat) : (s.focusTeam k).free = s.free := rfl
@[simp] theorem State.focusTeam_nextId (s : State) (k : Nat) : (s.focusTeam k).nextId = s.nextId := rfl
@[simp] theorem State.focusTeam_order (s : State) (k : Nat) : (s.focusTeam k).order = s.order := rfl
@[simp] theorem State.focusTeam_met (s : State) (k : Nat) : (s.focusTeam k).met = s.met := rfl
@[simp] theorem State.focusTeam_hostOut (s : State) (k : Nat) : (s.focusTeam k).hostOut = s.hostOut := rfl
@[simp] theorem State.focusTeam_accounts (s : State) (k : Nat) : (s.focusTeam k).accounts = s.accounts := rfl
@[simp] theorem State.focusTeam_debited (s : State) (k : Nat) : (s.focusTeam k).debited = s.debited := rfl
@[simp] theorem State.focusTeam_mem (s : State) (k : Nat) : (s.focusTeam k).mem = s.mem := rfl
@[simp] theorem State.focusTeam_memPoi (s : State) (k : Nat) : (s.focusTeam k).memPoi = s.memPoi := rfl
@[simp] theorem State.focusTeam_pkg (s : State) (k : Nat) : (s.focusTeam k).pkg = s.pkg := rfl
@[simp] theorem State.focusTeam_ctxs (s : State) (k : Nat) : (s.focusTeam k).ctxs = s.ctxs := rfl
@[simp] theorem State.focusTeam_cores (s : State) (k : Nat) : (s.focusTeam k).cores = s.cores := rfl
@[simp] theorem State.focusTeam_grids (s : State) (k : Nat) : (s.focusTeam k).grids = s.grids := rfl
@[simp] theorem State.focusTeam_teams (s : State) (k : Nat) : (s.focusTeam k).teams = s.teams := rfl
@[simp] theorem State.focusTeam_groups (s : State) (k : Nat) : (s.focusTeam k).groups = s.groups := rfl

@[simp] theorem State.focusGrid_agenda (s : State) (k : Nat) : (s.focusGrid k).agenda = s.agenda := rfl
@[simp] theorem State.focusGrid_turn (s : State) (k : Nat) : (s.focusGrid k).turn = s.turn := rfl
@[simp] theorem State.focusGrid_free (s : State) (k : Nat) : (s.focusGrid k).free = s.free := rfl
@[simp] theorem State.focusGrid_nextId (s : State) (k : Nat) : (s.focusGrid k).nextId = s.nextId := rfl
@[simp] theorem State.focusGrid_order (s : State) (k : Nat) : (s.focusGrid k).order = s.order := rfl
@[simp] theorem State.focusGrid_met (s : State) (k : Nat) : (s.focusGrid k).met = s.met := rfl
@[simp] theorem State.focusGrid_hostOut (s : State) (k : Nat) : (s.focusGrid k).hostOut = s.hostOut := rfl
@[simp] theorem State.focusGrid_accounts (s : State) (k : Nat) : (s.focusGrid k).accounts = s.accounts := rfl
@[simp] theorem State.focusGrid_debited (s : State) (k : Nat) : (s.focusGrid k).debited = s.debited := rfl
@[simp] theorem State.focusGrid_mem (s : State) (k : Nat) : (s.focusGrid k).mem = s.mem := rfl
@[simp] theorem State.focusGrid_memPoi (s : State) (k : Nat) : (s.focusGrid k).memPoi = s.memPoi := rfl
@[simp] theorem State.focusGrid_pkg (s : State) (k : Nat) : (s.focusGrid k).pkg = s.pkg := rfl
@[simp] theorem State.focusGrid_ctxs (s : State) (k : Nat) : (s.focusGrid k).ctxs = s.ctxs := rfl
@[simp] theorem State.focusGrid_cores (s : State) (k : Nat) : (s.focusGrid k).cores = s.cores := rfl
@[simp] theorem State.focusGrid_grids (s : State) (k : Nat) : (s.focusGrid k).grids = s.grids := rfl
@[simp] theorem State.focusGrid_teams (s : State) (k : Nat) : (s.focusGrid k).teams = s.teams := rfl
@[simp] theorem State.focusGrid_groups (s : State) (k : Nat) : (s.focusGrid k).groups = s.groups := rfl

@[simp] theorem State.focusCtx_agenda (s : State) (k : Nat) : (s.focusCtx k).agenda = s.agenda := rfl
@[simp] theorem State.focusCtx_turn (s : State) (k : Nat) : (s.focusCtx k).turn = s.turn := rfl
@[simp] theorem State.focusCtx_free (s : State) (k : Nat) : (s.focusCtx k).free = s.free := rfl
@[simp] theorem State.focusCtx_nextId (s : State) (k : Nat) : (s.focusCtx k).nextId = s.nextId := rfl
@[simp] theorem State.focusCtx_order (s : State) (k : Nat) : (s.focusCtx k).order = s.order := rfl
@[simp] theorem State.focusCtx_met (s : State) (k : Nat) : (s.focusCtx k).met = s.met := rfl
@[simp] theorem State.focusCtx_hostOut (s : State) (k : Nat) : (s.focusCtx k).hostOut = s.hostOut := rfl
@[simp] theorem State.focusCtx_accounts (s : State) (k : Nat) : (s.focusCtx k).accounts = s.accounts := rfl
@[simp] theorem State.focusCtx_debited (s : State) (k : Nat) : (s.focusCtx k).debited = s.debited := rfl
@[simp] theorem State.focusCtx_mem (s : State) (k : Nat) : (s.focusCtx k).mem = s.mem := rfl
@[simp] theorem State.focusCtx_memPoi (s : State) (k : Nat) : (s.focusCtx k).memPoi = s.memPoi := rfl
@[simp] theorem State.focusCtx_pkg (s : State) (k : Nat) : (s.focusCtx k).pkg = s.pkg := rfl
@[simp] theorem State.focusCtx_ctxs (s : State) (k : Nat) : (s.focusCtx k).ctxs = s.ctxs := rfl
@[simp] theorem State.focusCtx_cores (s : State) (k : Nat) : (s.focusCtx k).cores = s.cores := rfl
@[simp] theorem State.focusCtx_grids (s : State) (k : Nat) : (s.focusCtx k).grids = s.grids := rfl
@[simp] theorem State.focusCtx_teams (s : State) (k : Nat) : (s.focusCtx k).teams = s.teams := rfl
@[simp] theorem State.focusCtx_groups (s : State) (k : Nat) : (s.focusCtx k).groups = s.groups := rfl

@[simp] theorem State.freshId_agenda (s : State) : s.freshId.1.agenda = s.agenda := rfl
@[simp] theorem State.freshId_turn (s : State) : s.freshId.1.turn = s.turn := rfl
@[simp] theorem State.freshId_foc (s : State) : s.freshId.1.foc = s.foc := rfl
@[simp] theorem State.freshId_free (s : State) : s.freshId.1.free = s.free := rfl
@[simp] theorem State.freshId_nextId (s : State) : s.freshId.1.nextId = s.nextId + 1 := rfl
@[simp] theorem State.freshId_order (s : State) : s.freshId.1.order = s.order := rfl
@[simp] theorem State.freshId_met (s : State) : s.freshId.1.met = s.met := rfl
@[simp] theorem State.freshId_hostOut (s : State) : s.freshId.1.hostOut = s.hostOut := rfl
@[simp] theorem State.freshId_accounts (s : State) : s.freshId.1.accounts = s.accounts := rfl
@[simp] theorem State.freshId_debited (s : State) : s.freshId.1.debited = s.debited := rfl
@[simp] theorem State.freshId_mem (s : State) : s.freshId.1.mem = s.mem := rfl
@[simp] theorem State.freshId_memPoi (s : State) : s.freshId.1.memPoi = s.memPoi := rfl
@[simp] theorem State.freshId_pkg (s : State) : s.freshId.1.pkg = s.pkg := rfl
@[simp] theorem State.freshId_ctxs (s : State) : s.freshId.1.ctxs = s.ctxs := rfl
@[simp] theorem State.freshId_cores (s : State) : s.freshId.1.cores = s.cores := rfl
@[simp] theorem State.freshId_grids (s : State) : s.freshId.1.grids = s.grids := rfl
@[simp] theorem State.freshId_teams (s : State) : s.freshId.1.teams = s.teams := rfl
@[simp] theorem State.freshId_groups (s : State) : s.freshId.1.groups = s.groups := rfl
@[simp] theorem State.freshId_snd (s : State) : s.freshId.2 = s.nextId := rfl

@[simp] theorem State.freshOrder_agenda (s : State) : s.freshOrder.1.agenda = s.agenda := rfl
@[simp] theorem State.freshOrder_turn (s : State) : s.freshOrder.1.turn = s.turn := rfl
@[simp] theorem State.freshOrder_foc (s : State) : s.freshOrder.1.foc = s.foc := rfl
@[simp] theorem State.freshOrder_free (s : State) : s.freshOrder.1.free = s.free := rfl
@[simp] theorem State.freshOrder_nextId (s : State) : s.freshOrder.1.nextId = s.nextId := rfl
@[simp] theorem State.freshOrder_order (s : State) : s.freshOrder.1.order = s.order + 1 := rfl
@[simp] theorem State.freshOrder_met (s : State) : s.freshOrder.1.met = s.met := rfl
@[simp] theorem State.freshOrder_hostOut (s : State) : s.freshOrder.1.hostOut = s.hostOut := rfl
@[simp] theorem State.freshOrder_accounts (s : State) : s.freshOrder.1.accounts = s.accounts := rfl
@[simp] theorem State.freshOrder_debited (s : State) : s.freshOrder.1.debited = s.debited := rfl
@[simp] theorem State.freshOrder_mem (s : State) : s.freshOrder.1.mem = s.mem := rfl
@[simp] theorem State.freshOrder_memPoi (s : State) : s.freshOrder.1.memPoi = s.memPoi := rfl
@[simp] theorem State.freshOrder_pkg (s : State) : s.freshOrder.1.pkg = s.pkg := rfl
@[simp] theorem State.freshOrder_ctxs (s : State) : s.freshOrder.1.ctxs = s.ctxs := rfl
@[simp] theorem State.freshOrder_cores (s : State) : s.freshOrder.1.cores = s.cores := rfl
@[simp] theorem State.freshOrder_grids (s : State) : s.freshOrder.1.grids = s.grids := rfl
@[simp] theorem State.freshOrder_teams (s : State) : s.freshOrder.1.teams = s.teams := rfl
@[simp] theorem State.freshOrder_groups (s : State) : s.freshOrder.1.groups = s.groups := rfl
@[simp] theorem State.freshOrder_snd (s : State) : s.freshOrder.2 = s.order := rfl

/-! ## Accessors after updates -/

theorem State.grpAt_setGrpAt (s : State) (k j : Nat) (x : Grp) : (s.setGrpAt k x).grpAt j = if k = j then x else s.grpAt j := by
  simp [State.grpAt, KMap.get_set]
@[simp] theorem State.grpAt_setGrpAt_self (s : State) (k : Nat) (x : Grp) : (s.setGrpAt k x).grpAt k = x := by
  simp [State.grpAt_setGrpAt]
@[simp] theorem State.teamAt_setGrpAt (s : State) (k j : Nat) (x : Grp) : (s.setGrpAt k x).teamAt j = s.teamAt j := rfl
@[simp] theorem State.gridAt_setGrpAt (s : State) (k j : Nat) (x : Grp) : (s.setGrpAt k x).gridAt j = s.gridAt j := rfl
@[simp] theorem State.ctxAt_setGrpAt (s : State) (k j : Nat) (x : Grp) : (s.setGrpAt k x).ctxAt j = s.ctxAt j := rfl
@[simp] theorem State.coreAt_setGrpAt (s : State) (k j : Nat) (x : Grp) : (s.setGrpAt k x).coreAt j = s.coreAt j := rfl
theorem State.teamAt_setTeamAt (s : State) (k j : Nat) (x : Team) : (s.setTeamAt k x).teamAt j = if k = j then x else s.teamAt j := by
  simp [State.teamAt, KMap.get_set]
@[simp] theorem State.teamAt_setTeamAt_self (s : State) (k : Nat) (x : Team) : (s.setTeamAt k x).teamAt k = x := by
  simp [State.teamAt_setTeamAt]
@[simp] theorem State.grpAt_setTeamAt (s : State) (k j : Nat) (x : Team) : (s.setTeamAt k x).grpAt j = s.grpAt j := rfl
@[simp] theorem State.gridAt_setTeamAt (s : State) (k j : Nat) (x : Team) : (s.setTeamAt k x).gridAt j = s.gridAt j := rfl
@[simp] theorem State.ctxAt_setTeamAt (s : State) (k j : Nat) (x : Team) : (s.setTeamAt k x).ctxAt j = s.ctxAt j := rfl
@[simp] theorem State.coreAt_setTeamAt (s : State) (k j : Nat) (x : Team) : (s.setTeamAt k x).coreAt j = s.coreAt j := rfl
theorem State.gridAt_setGridAt (s : State) (k j : Nat) (x : Grid) : (s.setGridAt k x).gridAt j = if k = j then x else s.gridAt j := by
  simp [State.gridAt, KMap.get_set]
@[simp] theorem State.gridAt_setGridAt_self (s : State) (k : Nat) (x : Grid) : (s.setGridAt k x).gridAt k = x := by
  simp [State.gridAt_setGridAt]
@[simp] theorem State.grpAt_setGridAt (s : State) (k j : Nat) (x : Grid) : (s.setGridAt k x).grpAt j = s.grpAt j := rfl
@[simp] theorem State.teamAt_setGridAt (s : State) (k j : Nat) (x : Grid) : (s.setGridAt k x).teamAt j = s.teamAt j := rfl
@[simp] theorem State.ctxAt_setGridAt (s : State) (k j : Nat) (x : Grid) : (s.setGridAt k x).ctxAt j = s.ctxAt j := rfl
@[simp] theorem State.coreAt_setGridAt (s : State) (k j : Nat) (x : Grid) : (s.setGridAt k x).coreAt j = s.coreAt j := rfl
theorem State.ctxAt_setCtxAt (s : State) (k j : Nat) (x : Ctx) : (s.setCtxAt k x).ctxAt j = if k = j then x else s.ctxAt j := by
  simp [State.ctxAt, KMap.get_set]
@[simp] theorem State.ctxAt_setCtxAt_self (s : State) (k : Nat) (x : Ctx) : (s.setCtxAt k x).ctxAt k = x := by
  simp [State.ctxAt_setCtxAt]
@[simp] theorem State.grpAt_setCtxAt (s : State) (k j : Nat) (x : Ctx) : (s.setCtxAt k x).grpAt j = s.grpAt j := rfl
@[simp] theorem State.teamAt_setCtxAt (s : State) (k j : Nat) (x : Ctx) : (s.setCtxAt k x).teamAt j = s.teamAt j := rfl
@[simp] theorem State.gridAt_setCtxAt (s : State) (k j : Nat) (x : Ctx) : (s.setCtxAt k x).gridAt j = s.gridAt j := rfl
@[simp] theorem State.coreAt_setCtxAt (s : State) (k j : Nat) (x : Ctx) : (s.setCtxAt k x).coreAt j = s.coreAt j := rfl
theorem State.coreAt_setCoreAt (s : State) (k j : Nat) (x : CoreSt) : (s.setCoreAt k x).coreAt j = if k = j then x else s.coreAt j := by
  simp [State.coreAt, KMap.get_set]
@[simp] theorem State.coreAt_setCoreAt_self (s : State) (k : Nat) (x : CoreSt) : (s.setCoreAt k x).coreAt k = x := by
  simp [State.coreAt_setCoreAt]
@[simp] theorem State.grpAt_setCoreAt (s : State) (k j : Nat) (x : CoreSt) : (s.setCoreAt k x).grpAt j = s.grpAt j := rfl
@[simp] theorem State.teamAt_setCoreAt (s : State) (k j : Nat) (x : CoreSt) : (s.setCoreAt k x).teamAt j = s.teamAt j := rfl
@[simp] theorem State.gridAt_setCoreAt (s : State) (k j : Nat) (x : CoreSt) : (s.setCoreAt k x).gridAt j = s.gridAt j := rfl
@[simp] theorem State.ctxAt_setCoreAt (s : State) (k j : Nat) (x : CoreSt) : (s.setCoreAt k x).ctxAt j = s.ctxAt j := rfl

@[simp] theorem State.g_setG (s : State) (x : Grp) : (s.setG x).g = x := by
  simp [State.g, State.setG]
@[simp] theorem State.g_modG (s : State) (f : Grp → Grp) : (s.modG f).g = f s.g := by
  simp [State.modG]
@[simp] theorem State.t_setG (s : State) (x : Grp) : (s.setG x).t = s.t := rfl
@[simp] theorem State.t_modG (s : State) (f : Grp → Grp) : (s.modG f).t = s.t := rfl
@[simp] theorem State.gr_setG (s : State) (x : Grp) : (s.setG x).gr = s.gr := rfl
@[simp] theorem State.gr_modG (s : State) (f : Grp → Grp) : (s.modG f).gr = s.gr := rfl
@[simp] theorem State.c_setG (s : State) (x : Grp) : (s.setG x).c = s.c := rfl
@[simp] theorem State.c_modG (s : State) (f : Grp → Grp) : (s.modG f).c = s.c := rfl
@[simp] theorem State.co_setG (s : State) (x : Grp) : (s.setG x).co = s.co := rfl
@[simp] theorem State.co_modG (s : State) (f : Grp → Grp) : (s.modG f).co = s.co := rfl
@[simp] theorem State.t_setT (s : State) (x : Team) : (s.setT x).t = x := by
  simp [State.t, State.setT]
@[simp] theorem State.t_modT (s : State) (f : Team → Team) : (s.modT f).t = f s.t := by
  simp [State.modT]
@[simp] theorem State.g_setT (s : State) (x : Team) : (s.setT x).g = s.g := rfl
@[simp] theorem State.g_modT (s : State) (f : Team → Team) : (s.modT f).g = s.g := rfl
@[simp] theorem State.gr_setT (s : State) (x : Team) : (s.setT x).gr = s.gr := rfl
@[simp] theorem State.gr_modT (s : State) (f : Team → Team) : (s.modT f).gr = s.gr := rfl
@[simp] theorem State.c_setT (s : State) (x : Team) : (s.setT x).c = s.c := rfl
@[simp] theorem State.c_modT (s : State) (f : Team → Team) : (s.modT f).c = s.c := rfl
@[simp] theorem State.co_setT (s : State) (x : Team) : (s.setT x).co = s.co := rfl
@[simp] theorem State.co_modT (s : State) (f : Team → Team) : (s.modT f).co = s.co := rfl
@[simp] theorem State.gr_setGr (s : State) (x : Grid) : (s.setGr x).gr = x := by
  simp [State.gr, State.setGr]
@[simp] theorem State.gr_modGr (s : State) (f : Grid → Grid) : (s.modGr f).gr = f s.gr := by
  simp [State.modGr]
@[simp] theorem State.g_setGr (s : State) (x : Grid) : (s.setGr x).g = s.g := rfl
@[simp] theorem State.g_modGr (s : State) (f : Grid → Grid) : (s.modGr f).g = s.g := rfl
@[simp] theorem State.t_setGr (s : State) (x : Grid) : (s.setGr x).t = s.t := rfl
@[simp] theorem State.t_modGr (s : State) (f : Grid → Grid) : (s.modGr f).t = s.t := rfl
@[simp] theorem State.c_setGr (s : State) (x : Grid) : (s.setGr x).c = s.c := rfl
@[simp] theorem State.c_modGr (s : State) (f : Grid → Grid) : (s.modGr f).c = s.c := rfl
@[simp] theorem State.co_setGr (s : State) (x : Grid) : (s.setGr x).co = s.co := rfl
@[simp] theorem State.co_modGr (s : State) (f : Grid → Grid) : (s.modGr f).co = s.co := rfl
@[simp] theorem State.c_setC (s : State) (x : Ctx) : (s.setC x).c = x := by
  simp [State.c, State.setC]
@[simp] theorem State.c_modC (s : State) (f : Ctx → Ctx) : (s.modC f).c = f s.c := by
  simp [State.modC]
@[simp] theorem State.g_setC (s : State) (x : Ctx) : (s.setC x).g = s.g := rfl
@[simp] theorem State.g_modC (s : State) (f : Ctx → Ctx) : (s.modC f).g = s.g := rfl
@[simp] theorem State.t_setC (s : State) (x : Ctx) : (s.setC x).t = s.t := rfl
@[simp] theorem State.t_modC (s : State) (f : Ctx → Ctx) : (s.modC f).t = s.t := rfl
@[simp] theorem State.gr_setC (s : State) (x : Ctx) : (s.setC x).gr = s.gr := rfl
@[simp] theorem State.gr_modC (s : State) (f : Ctx → Ctx) : (s.modC f).gr = s.gr := rfl
@[simp] theorem State.co_setC (s : State) (x : Ctx) : (s.setC x).co = s.co := rfl
@[simp] theorem State.co_modC (s : State) (f : Ctx → Ctx) : (s.modC f).co = s.co := rfl
@[simp] theorem State.co_setCo (s : State) (x : CoreSt) : (s.setCo x).co = x := by
  simp [State.co, State.setCo]
@[simp] theorem State.co_modCo (s : State) (f : CoreSt → CoreSt) : (s.modCo f).co = f s.co := by
  simp [State.modCo]
@[simp] theorem State.g_setCo (s : State) (x : CoreSt) : (s.setCo x).g = s.g := rfl
@[simp] theorem State.g_modCo (s : State) (f : CoreSt → CoreSt) : (s.modCo f).g = s.g := rfl
@[simp] theorem State.t_setCo (s : State) (x : CoreSt) : (s.setCo x).t = s.t := rfl
@[simp] theorem State.t_modCo (s : State) (f : CoreSt → CoreSt) : (s.modCo f).t = s.t := rfl
@[simp] theorem State.gr_setCo (s : State) (x : CoreSt) : (s.setCo x).gr = s.gr := rfl
@[simp] theorem State.gr_modCo (s : State) (f : CoreSt → CoreSt) : (s.modCo f).gr = s.gr := rfl
@[simp] theorem State.c_setCo (s : State) (x : CoreSt) : (s.setCo x).c = s.c := rfl
@[simp] theorem State.c_modCo (s : State) (f : CoreSt → CoreSt) : (s.modCo f).c = s.c := rfl
@[simp] theorem State.g_modPkg (s : State) (f : Pkg → Pkg) : (s.modPkg f).g = s.g := rfl
@[simp] theorem State.g_bump (s : State) : s.bump.g = s.g := rfl
@[simp] theorem State.g_setPtab (s : State) (t : List (Option PtEntry)) : (s.setPtab t).g = s.g := rfl
@[simp] theorem State.t_modPkg (s : State) (f : Pkg → Pkg) : (s.modPkg f).t = s.t := rfl
@[simp] theorem State.t_bump (s : State) : s.bump.t = s.t := rfl
@[simp] theorem State.gr_modPkg (s : State) (f : Pkg → Pkg) : (s.modPkg f).gr = s.gr := rfl
@[simp] theorem State.gr_bump (s : State) : s.bump.gr = s.gr := rfl
@[simp] theorem State.gr_setPtab (s : State) (t : List (Option PtEntry)) : (s.setPtab t).gr = s.gr := rfl
@[simp] theorem State.c_modPkg (s : State) (f : Pkg → Pkg) : (s.modPkg f).c = s.c := rfl
@[simp] theorem State.c_bump (s : State) : s.bump.c = s.c := rfl
@[simp] theorem State.c_setPtab (s : State) (t : List (Option PtEntry)) : (s.setPtab t).c = s.c := rfl
@[simp] theorem State.co_modPkg (s : State) (f : Pkg → Pkg) : (s.modPkg f).co = s.co := rfl
@[simp] theorem State.co_bump (s : State) : s.bump.co = s.co := rfl
@[simp] theorem State.co_setPtab (s : State) (t : List (Option PtEntry)) : (s.setPtab t).co = s.co := rfl

/-! ## Groups and lanes -/

@[simp] theorem Grp.setLane_team (g : Grp) (l : Nat) (x : Lane) : (g.setLane l x).team = g.team := rfl
@[simp] theorem Grp.setLane_idx (g : Grp) (l : Nat) (x : Lane) : (g.setLane l x).idx = g.idx := rfl
@[simp] theorem Grp.setLane_part (g : Grp) (l : Nat) (x : Lane) : (g.setLane l x).part = g.part := rfl
@[simp] theorem Grp.setLane_factor (g : Grp) (l : Nat) (x : Lane) : (g.setLane l x).factor = g.factor := rfl
@[simp] theorem Grp.setLane_base (g : Grp) (l : Nat) (x : Lane) : (g.setLane l x).base = g.base := rfl
@[simp] theorem Grp.setLane_gw (g : Grp) (l : Nat) (x : Lane) : (g.setLane l x).gw = g.gw := rfl
@[simp] theorem Grp.setLane_budget (g : Grp) (l : Nat) (x : Lane) : (g.setLane l x).budget = g.budget := rfl
@[simp] theorem Grp.setLane_parent (g : Grp) (l : Nat) (x : Lane) : (g.setLane l x).parent = g.parent := rfl
@[simp] theorem Grp.setLane_parts (g : Grp) (l : Nat) (x : Lane) : (g.setLane l x).parts = g.parts := rfl
@[simp] theorem Grp.setLane_phase (g : Grp) (l : Nat) (x : Lane) : (g.setLane l x).phase = g.phase := rfl
@[simp] theorem Grp.setLane_lanes (g : Grp) (l : Nat) (x : Lane) : (g.setLane l x).lanes = bankPut {} g.lanes l x := rfl
@[simp] theorem Grp.setLane_s (g : Grp) (l : Nat) (x : Lane) : (g.setLane l x).s = g.s := rfl
@[simp] theorem Grp.setLane_m (g : Grp) (l : Nat) (x : Lane) : (g.setLane l x).m = g.m := rfl
@[simp] theorem Grp.setLane_a (g : Grp) (l : Nat) (x : Lane) : (g.setLane l x).a = g.a := rfl
@[simp] theorem Grp.setLane_z (g : Grp) (l : Nat) (x : Lane) : (g.setLane l x).z = g.z := rfl
@[simp] theorem Grp.setLane_flags (g : Grp) (l : Nat) (x : Lane) : (g.setLane l x).flags = g.flags := rfl
@[simp] theorem Grp.setLane_fdone (g : Grp) (l : Nat) (x : Lane) : (g.setLane l x).fdone = g.fdone := rfl
@[simp] theorem Grp.setLane_wb (g : Grp) (l : Nat) (x : Lane) : (g.setLane l x).wb = g.wb := rfl
@[simp] theorem Grp.setLane_frames (g : Grp) (l : Nat) (x : Lane) : (g.setLane l x).frames = g.frames := rfl
@[simp] theorem Grp.setLane_spTop (g : Grp) (l : Nat) (x : Lane) : (g.setLane l x).spTop = g.spTop := rfl
@[simp] theorem Grp.setLane_spillOff (g : Grp) (l : Nat) (x : Lane) : (g.setLane l x).spillOff = g.spillOff := rfl
@[simp] theorem Grp.setLane_spillLen (g : Grp) (l : Nat) (x : Lane) : (g.setLane l x).spillLen = g.spillLen := rfl
@[simp] theorem Grp.setLane_gang (g : Grp) (l : Nat) (x : Lane) : (g.setLane l x).gang = g.gang := rfl
@[simp] theorem Grp.setLane_retired (g : Grp) (l : Nat) (x : Lane) : (g.setLane l x).retired = g.retired := rfl
@[simp] theorem Grp.setLane_hbank (g : Grp) (l : Nat) (x : Lane) : (g.setLane l x).hbank = g.hbank := rfl
@[simp] theorem Grp.setLane_handler (g : Grp) (l : Nat) (x : Lane) : (g.setLane l x).handler = g.handler := rfl
@[simp] theorem Grp.setLane_ptsel (g : Grp) (l : Nat) (x : Lane) : (g.setLane l x).ptsel = g.ptsel := rfl
@[simp] theorem Grp.setLane_guard (g : Grp) (l : Nat) (x : Lane) : (g.setLane l x).guard = g.guard := rfl
@[simp] theorem Grp.setLane_overruns (g : Grp) (l : Nat) (x : Lane) : (g.setLane l x).overruns = g.overruns := rfl
@[simp] theorem Grp.setLane_tape (g : Grp) (l : Nat) (x : Lane) : (g.setLane l x).tape = g.tape := rfl
@[simp] theorem Grp.setLane_flushes (g : Grp) (l : Nat) (x : Lane) : (g.setLane l x).flushes = g.flushes := rfl
@[simp] theorem Grp.setLane_rcBound (g : Grp) (l : Nat) (x : Lane) : (g.setLane l x).rcBound = g.rcBound := rfl
@[simp] theorem Grp.setLane_rcDue (g : Grp) (l : Nat) (x : Lane) : (g.setLane l x).rcDue = g.rcDue := rfl
@[simp] theorem Grp.setLane_rcSyncs (g : Grp) (l : Nat) (x : Lane) : (g.setLane l x).rcSyncs = g.rcSyncs := rfl
@[simp] theorem Grp.setLane_rcMine (g : Grp) (l : Nat) (x : Lane) : (g.setLane l x).rcMine = g.rcMine := rfl
@[simp] theorem Grp.setLane_stall (g : Grp) (l : Nat) (x : Lane) : (g.setLane l x).stall = g.stall := rfl
@[simp] theorem Grp.setLane_stallOrder (g : Grp) (l : Nat) (x : Lane) : (g.setLane l x).stallOrder = g.stallOrder := rfl
@[simp] theorem Grp.setLane_stallRoom (g : Grp) (l : Nat) (x : Lane) : (g.setLane l x).stallRoom = g.stallRoom := rfl
@[simp] theorem Grp.setLane_afterStall (g : Grp) (l : Nat) (x : Lane) : (g.setLane l x).afterStall = g.afterStall := rfl
@[simp] theorem Grp.setLane_yielded (g : Grp) (l : Nat) (x : Lane) : (g.setLane l x).yielded = g.yielded := rfl
@[simp] theorem Grp.setLane_stopped (g : Grp) (l : Nat) (x : Lane) : (g.setLane l x).stopped = g.stopped := rfl
@[simp] theorem Grp.setLane_stepOver (g : Grp) (l : Nat) (x : Lane) : (g.setLane l x).stepOver = g.stepOver := rfl
@[simp] theorem Grp.setLane_snapped (g : Grp) (l : Nat) (x : Lane) : (g.setLane l x).snapped = g.snapped := rfl
@[simp] theorem Grp.setLane_crossed (g : Grp) (l : Nat) (x : Lane) : (g.setLane l x).crossed = g.crossed := rfl
@[simp] theorem Grp.setLane_replies (g : Grp) (l : Nat) (x : Lane) : (g.setLane l x).replies = g.replies := rfl
@[simp] theorem Grp.setLane_mmaPend (g : Grp) (l : Nat) (x : Lane) : (g.setLane l x).mmaPend = g.mmaPend := rfl
@[simp] theorem Grp.setLane_openI (g : Grp) (l : Nat) (x : Lane) : (g.setLane l x).openI = g.openI := rfl
@[simp] theorem Grp.setLane_mmaK (g : Grp) (l : Nat) (x : Lane) : (g.setLane l x).mmaK = g.mmaK := rfl
@[simp] theorem Grp.setLane_wallocGot (g : Grp) (l : Nat) (x : Lane) : (g.setLane l x).wallocGot = g.wallocGot := rfl
@[simp] theorem Grp.setLane_collNf (g : Grp) (l : Nat) (x : Lane) : (g.setLane l x).collNf = g.collNf := rfl
@[simp] theorem Grp.setLane_iss (g : Grp) (l : Nat) (x : Lane) : (g.setLane l x).iss = g.iss := rfl
@[simp] theorem Grp.setLane_readyFor (g : Grp) (l : Nat) (x : Lane) : (g.setLane l x).readyFor = g.readyFor := rfl
@[simp] theorem Grp.setLane_yieldAge (g : Grp) (l : Nat) (x : Lane) : (g.setLane l x).yieldAge = g.yieldAge := rfl
@[simp] theorem Grp.setLane_digest (g : Grp) (l : Nat) (x : Lane) : (g.setLane l x).digest = g.digest := rfl
@[simp] theorem Grp.setLane_logSeen (g : Grp) (l : Nat) (x : Lane) : (g.setLane l x).logSeen = g.logSeen := rfl
@[simp] theorem Grp.setLane_image (g : Grp) (l : Nat) (x : Lane) : (g.setLane l x).image = g.image := rfl
@[simp] theorem Grp.setLane_fused (g : Grp) (l : Nat) (x : Lane) : (g.setLane l x).fused = g.fused := rfl

@[simp] theorem Grp.setFlag_team (g : Grp) (i n : Nat) : (g.setFlag i n).team = g.team := rfl
@[simp] theorem Grp.setFlag_idx (g : Grp) (i n : Nat) : (g.setFlag i n).idx = g.idx := rfl
@[simp] theorem Grp.setFlag_part (g : Grp) (i n : Nat) : (g.setFlag i n).part = g.part := rfl
@[simp] theorem Grp.setFlag_factor (g : Grp) (i n : Nat) : (g.setFlag i n).factor = g.factor := rfl
@[simp] theorem Grp.setFlag_base (g : Grp) (i n : Nat) : (g.setFlag i n).base = g.base := rfl
@[simp] theorem Grp.setFlag_gw (g : Grp) (i n : Nat) : (g.setFlag i n).gw = g.gw := rfl
@[simp] theorem Grp.setFlag_budget (g : Grp) (i n : Nat) : (g.setFlag i n).budget = g.budget := rfl
@[simp] theorem Grp.setFlag_parent (g : Grp) (i n : Nat) : (g.setFlag i n).parent = g.parent := rfl
@[simp] theorem Grp.setFlag_parts (g : Grp) (i n : Nat) : (g.setFlag i n).parts = g.parts := rfl
@[simp] theorem Grp.setFlag_phase (g : Grp) (i n : Nat) : (g.setFlag i n).phase = g.phase := rfl
@[simp] theorem Grp.setFlag_lanes (g : Grp) (i n : Nat) : (g.setFlag i n).lanes = g.lanes := rfl
@[simp] theorem Grp.setFlag_s (g : Grp) (i n : Nat) : (g.setFlag i n).s = g.s := rfl
@[simp] theorem Grp.setFlag_m (g : Grp) (i n : Nat) : (g.setFlag i n).m = g.m := rfl
@[simp] theorem Grp.setFlag_a (g : Grp) (i n : Nat) : (g.setFlag i n).a = g.a := rfl
@[simp] theorem Grp.setFlag_z (g : Grp) (i n : Nat) : (g.setFlag i n).z = g.z := rfl
@[simp] theorem Grp.setFlag_flags (g : Grp) (i n : Nat) : (g.setFlag i n).flags = bankPut 0 g.flags i n := rfl
@[simp] theorem Grp.setFlag_fdone (g : Grp) (i n : Nat) : (g.setFlag i n).fdone = g.fdone := rfl
@[simp] theorem Grp.setFlag_wb (g : Grp) (i n : Nat) : (g.setFlag i n).wb = g.wb := rfl
@[simp] theorem Grp.setFlag_frames (g : Grp) (i n : Nat) : (g.setFlag i n).frames = g.frames := rfl
@[simp] theorem Grp.setFlag_spTop (g : Grp) (i n : Nat) : (g.setFlag i n).spTop = g.spTop := rfl
@[simp] theorem Grp.setFlag_spillOff (g : Grp) (i n : Nat) : (g.setFlag i n).spillOff = g.spillOff := rfl
@[simp] theorem Grp.setFlag_spillLen (g : Grp) (i n : Nat) : (g.setFlag i n).spillLen = g.spillLen := rfl
@[simp] theorem Grp.setFlag_gang (g : Grp) (i n : Nat) : (g.setFlag i n).gang = g.gang := rfl
@[simp] theorem Grp.setFlag_retired (g : Grp) (i n : Nat) : (g.setFlag i n).retired = g.retired := rfl
@[simp] theorem Grp.setFlag_hbank (g : Grp) (i n : Nat) : (g.setFlag i n).hbank = g.hbank := rfl
@[simp] theorem Grp.setFlag_handler (g : Grp) (i n : Nat) : (g.setFlag i n).handler = g.handler := rfl
@[simp] theorem Grp.setFlag_ptsel (g : Grp) (i n : Nat) : (g.setFlag i n).ptsel = g.ptsel := rfl
@[simp] theorem Grp.setFlag_guard (g : Grp) (i n : Nat) : (g.setFlag i n).guard = g.guard := rfl
@[simp] theorem Grp.setFlag_overruns (g : Grp) (i n : Nat) : (g.setFlag i n).overruns = g.overruns := rfl
@[simp] theorem Grp.setFlag_tape (g : Grp) (i n : Nat) : (g.setFlag i n).tape = g.tape := rfl
@[simp] theorem Grp.setFlag_flushes (g : Grp) (i n : Nat) : (g.setFlag i n).flushes = g.flushes := rfl
@[simp] theorem Grp.setFlag_rcBound (g : Grp) (i n : Nat) : (g.setFlag i n).rcBound = g.rcBound := rfl
@[simp] theorem Grp.setFlag_rcDue (g : Grp) (i n : Nat) : (g.setFlag i n).rcDue = g.rcDue := rfl
@[simp] theorem Grp.setFlag_rcSyncs (g : Grp) (i n : Nat) : (g.setFlag i n).rcSyncs = g.rcSyncs := rfl
@[simp] theorem Grp.setFlag_rcMine (g : Grp) (i n : Nat) : (g.setFlag i n).rcMine = g.rcMine := rfl
@[simp] theorem Grp.setFlag_stall (g : Grp) (i n : Nat) : (g.setFlag i n).stall = g.stall := rfl
@[simp] theorem Grp.setFlag_stallOrder (g : Grp) (i n : Nat) : (g.setFlag i n).stallOrder = g.stallOrder := rfl
@[simp] theorem Grp.setFlag_stallRoom (g : Grp) (i n : Nat) : (g.setFlag i n).stallRoom = g.stallRoom := rfl
@[simp] theorem Grp.setFlag_afterStall (g : Grp) (i n : Nat) : (g.setFlag i n).afterStall = g.afterStall := rfl
@[simp] theorem Grp.setFlag_yielded (g : Grp) (i n : Nat) : (g.setFlag i n).yielded = g.yielded := rfl
@[simp] theorem Grp.setFlag_stopped (g : Grp) (i n : Nat) : (g.setFlag i n).stopped = g.stopped := rfl
@[simp] theorem Grp.setFlag_stepOver (g : Grp) (i n : Nat) : (g.setFlag i n).stepOver = g.stepOver := rfl
@[simp] theorem Grp.setFlag_snapped (g : Grp) (i n : Nat) : (g.setFlag i n).snapped = g.snapped := rfl
@[simp] theorem Grp.setFlag_crossed (g : Grp) (i n : Nat) : (g.setFlag i n).crossed = g.crossed := rfl
@[simp] theorem Grp.setFlag_replies (g : Grp) (i n : Nat) : (g.setFlag i n).replies = g.replies := rfl
@[simp] theorem Grp.setFlag_mmaPend (g : Grp) (i n : Nat) : (g.setFlag i n).mmaPend = g.mmaPend := rfl
@[simp] theorem Grp.setFlag_openI (g : Grp) (i n : Nat) : (g.setFlag i n).openI = g.openI := rfl
@[simp] theorem Grp.setFlag_mmaK (g : Grp) (i n : Nat) : (g.setFlag i n).mmaK = g.mmaK := rfl
@[simp] theorem Grp.setFlag_wallocGot (g : Grp) (i n : Nat) : (g.setFlag i n).wallocGot = g.wallocGot := rfl
@[simp] theorem Grp.setFlag_collNf (g : Grp) (i n : Nat) : (g.setFlag i n).collNf = g.collNf := rfl
@[simp] theorem Grp.setFlag_iss (g : Grp) (i n : Nat) : (g.setFlag i n).iss = g.iss := rfl
@[simp] theorem Grp.setFlag_readyFor (g : Grp) (i n : Nat) : (g.setFlag i n).readyFor = g.readyFor := rfl
@[simp] theorem Grp.setFlag_yieldAge (g : Grp) (i n : Nat) : (g.setFlag i n).yieldAge = g.yieldAge := rfl
@[simp] theorem Grp.setFlag_digest (g : Grp) (i n : Nat) : (g.setFlag i n).digest = g.digest := rfl
@[simp] theorem Grp.setFlag_logSeen (g : Grp) (i n : Nat) : (g.setFlag i n).logSeen = g.logSeen := rfl
@[simp] theorem Grp.setFlag_image (g : Grp) (i n : Nat) : (g.setFlag i n).image = g.image := rfl
@[simp] theorem Grp.setFlag_fused (g : Grp) (i n : Nat) : (g.setFlag i n).fused = g.fused := rfl

@[simp] theorem Grp.setAreg_team (g : Grp) (i : Nat) (x : AReg) : (g.setAreg i x).team = g.team := rfl
@[simp] theorem Grp.setAreg_idx (g : Grp) (i : Nat) (x : AReg) : (g.setAreg i x).idx = g.idx := rfl
@[simp] theorem Grp.setAreg_part (g : Grp) (i : Nat) (x : AReg) : (g.setAreg i x).part = g.part := rfl
@[simp] theorem Grp.setAreg_factor (g : Grp) (i : Nat) (x : AReg) : (g.setAreg i x).factor = g.factor := rfl
@[simp] theorem Grp.setAreg_base (g : Grp) (i : Nat) (x : AReg) : (g.setAreg i x).base = g.base := rfl
@[simp] theorem Grp.setAreg_gw (g : Grp) (i : Nat) (x : AReg) : (g.setAreg i x).gw = g.gw := rfl
@[simp] theorem Grp.setAreg_budget (g : Grp) (i : Nat) (x : AReg) : (g.setAreg i x).budget = g.budget := rfl
@[simp] theorem Grp.setAreg_parent (g : Grp) (i : Nat) (x : AReg) : (g.setAreg i x).parent = g.parent := rfl
@[simp] theorem Grp.setAreg_parts (g : Grp) (i : Nat) (x : AReg) : (g.setAreg i x).parts = g.parts := rfl
@[simp] theorem Grp.setAreg_phase (g : Grp) (i : Nat) (x : AReg) : (g.setAreg i x).phase = g.phase := rfl
@[simp] theorem Grp.setAreg_lanes (g : Grp) (i : Nat) (x : AReg) : (g.setAreg i x).lanes = g.lanes := rfl
@[simp] theorem Grp.setAreg_s (g : Grp) (i : Nat) (x : AReg) : (g.setAreg i x).s = g.s := rfl
@[simp] theorem Grp.setAreg_m (g : Grp) (i : Nat) (x : AReg) : (g.setAreg i x).m = g.m := rfl
@[simp] theorem Grp.setAreg_a (g : Grp) (i : Nat) (x : AReg) : (g.setAreg i x).a = bankPut {} g.a i x := rfl
@[simp] theorem Grp.setAreg_z (g : Grp) (i : Nat) (x : AReg) : (g.setAreg i x).z = g.z := rfl
@[simp] theorem Grp.setAreg_flags (g : Grp) (i : Nat) (x : AReg) : (g.setAreg i x).flags = g.flags := rfl
@[simp] theorem Grp.setAreg_fdone (g : Grp) (i : Nat) (x : AReg) : (g.setAreg i x).fdone = g.fdone := rfl
@[simp] theorem Grp.setAreg_wb (g : Grp) (i : Nat) (x : AReg) : (g.setAreg i x).wb = g.wb := rfl
@[simp] theorem Grp.setAreg_frames (g : Grp) (i : Nat) (x : AReg) : (g.setAreg i x).frames = g.frames := rfl
@[simp] theorem Grp.setAreg_spTop (g : Grp) (i : Nat) (x : AReg) : (g.setAreg i x).spTop = g.spTop := rfl
@[simp] theorem Grp.setAreg_spillOff (g : Grp) (i : Nat) (x : AReg) : (g.setAreg i x).spillOff = g.spillOff := rfl
@[simp] theorem Grp.setAreg_spillLen (g : Grp) (i : Nat) (x : AReg) : (g.setAreg i x).spillLen = g.spillLen := rfl
@[simp] theorem Grp.setAreg_gang (g : Grp) (i : Nat) (x : AReg) : (g.setAreg i x).gang = g.gang := rfl
@[simp] theorem Grp.setAreg_retired (g : Grp) (i : Nat) (x : AReg) : (g.setAreg i x).retired = g.retired := rfl
@[simp] theorem Grp.setAreg_hbank (g : Grp) (i : Nat) (x : AReg) : (g.setAreg i x).hbank = g.hbank := rfl
@[simp] theorem Grp.setAreg_handler (g : Grp) (i : Nat) (x : AReg) : (g.setAreg i x).handler = g.handler := rfl
@[simp] theorem Grp.setAreg_ptsel (g : Grp) (i : Nat) (x : AReg) : (g.setAreg i x).ptsel = g.ptsel := rfl
@[simp] theorem Grp.setAreg_guard (g : Grp) (i : Nat) (x : AReg) : (g.setAreg i x).guard = g.guard := rfl
@[simp] theorem Grp.setAreg_overruns (g : Grp) (i : Nat) (x : AReg) : (g.setAreg i x).overruns = g.overruns := rfl
@[simp] theorem Grp.setAreg_tape (g : Grp) (i : Nat) (x : AReg) : (g.setAreg i x).tape = g.tape := rfl
@[simp] theorem Grp.setAreg_flushes (g : Grp) (i : Nat) (x : AReg) : (g.setAreg i x).flushes = g.flushes := rfl
@[simp] theorem Grp.setAreg_rcBound (g : Grp) (i : Nat) (x : AReg) : (g.setAreg i x).rcBound = g.rcBound := rfl
@[simp] theorem Grp.setAreg_rcDue (g : Grp) (i : Nat) (x : AReg) : (g.setAreg i x).rcDue = g.rcDue := rfl
@[simp] theorem Grp.setAreg_rcSyncs (g : Grp) (i : Nat) (x : AReg) : (g.setAreg i x).rcSyncs = g.rcSyncs := rfl
@[simp] theorem Grp.setAreg_rcMine (g : Grp) (i : Nat) (x : AReg) : (g.setAreg i x).rcMine = g.rcMine := rfl
@[simp] theorem Grp.setAreg_stall (g : Grp) (i : Nat) (x : AReg) : (g.setAreg i x).stall = g.stall := rfl
@[simp] theorem Grp.setAreg_stallOrder (g : Grp) (i : Nat) (x : AReg) : (g.setAreg i x).stallOrder = g.stallOrder := rfl
@[simp] theorem Grp.setAreg_stallRoom (g : Grp) (i : Nat) (x : AReg) : (g.setAreg i x).stallRoom = g.stallRoom := rfl
@[simp] theorem Grp.setAreg_afterStall (g : Grp) (i : Nat) (x : AReg) : (g.setAreg i x).afterStall = g.afterStall := rfl
@[simp] theorem Grp.setAreg_yielded (g : Grp) (i : Nat) (x : AReg) : (g.setAreg i x).yielded = g.yielded := rfl
@[simp] theorem Grp.setAreg_stopped (g : Grp) (i : Nat) (x : AReg) : (g.setAreg i x).stopped = g.stopped := rfl
@[simp] theorem Grp.setAreg_stepOver (g : Grp) (i : Nat) (x : AReg) : (g.setAreg i x).stepOver = g.stepOver := rfl
@[simp] theorem Grp.setAreg_snapped (g : Grp) (i : Nat) (x : AReg) : (g.setAreg i x).snapped = g.snapped := rfl
@[simp] theorem Grp.setAreg_crossed (g : Grp) (i : Nat) (x : AReg) : (g.setAreg i x).crossed = g.crossed := rfl
@[simp] theorem Grp.setAreg_replies (g : Grp) (i : Nat) (x : AReg) : (g.setAreg i x).replies = g.replies := rfl
@[simp] theorem Grp.setAreg_mmaPend (g : Grp) (i : Nat) (x : AReg) : (g.setAreg i x).mmaPend = g.mmaPend := rfl
@[simp] theorem Grp.setAreg_openI (g : Grp) (i : Nat) (x : AReg) : (g.setAreg i x).openI = g.openI := rfl
@[simp] theorem Grp.setAreg_mmaK (g : Grp) (i : Nat) (x : AReg) : (g.setAreg i x).mmaK = g.mmaK := rfl
@[simp] theorem Grp.setAreg_wallocGot (g : Grp) (i : Nat) (x : AReg) : (g.setAreg i x).wallocGot = g.wallocGot := rfl
@[simp] theorem Grp.setAreg_collNf (g : Grp) (i : Nat) (x : AReg) : (g.setAreg i x).collNf = g.collNf := rfl
@[simp] theorem Grp.setAreg_iss (g : Grp) (i : Nat) (x : AReg) : (g.setAreg i x).iss = g.iss := rfl
@[simp] theorem Grp.setAreg_readyFor (g : Grp) (i : Nat) (x : AReg) : (g.setAreg i x).readyFor = g.readyFor := rfl
@[simp] theorem Grp.setAreg_yieldAge (g : Grp) (i : Nat) (x : AReg) : (g.setAreg i x).yieldAge = g.yieldAge := rfl
@[simp] theorem Grp.setAreg_digest (g : Grp) (i : Nat) (x : AReg) : (g.setAreg i x).digest = g.digest := rfl
@[simp] theorem Grp.setAreg_logSeen (g : Grp) (i : Nat) (x : AReg) : (g.setAreg i x).logSeen = g.logSeen := rfl
@[simp] theorem Grp.setAreg_image (g : Grp) (i : Nat) (x : AReg) : (g.setAreg i x).image = g.image := rfl
@[simp] theorem Grp.setAreg_fused (g : Grp) (i : Nat) (x : AReg) : (g.setAreg i x).fused = g.fused := rfl

@[simp] theorem Grp.setZreg_team (g : Grp) (i : Nat) (x : W64) : (g.setZreg i x).team = g.team := rfl
@[simp] theorem Grp.setZreg_idx (g : Grp) (i : Nat) (x : W64) : (g.setZreg i x).idx = g.idx := rfl
@[simp] theorem Grp.setZreg_part (g : Grp) (i : Nat) (x : W64) : (g.setZreg i x).part = g.part := rfl
@[simp] theorem Grp.setZreg_factor (g : Grp) (i : Nat) (x : W64) : (g.setZreg i x).factor = g.factor := rfl
@[simp] theorem Grp.setZreg_base (g : Grp) (i : Nat) (x : W64) : (g.setZreg i x).base = g.base := rfl
@[simp] theorem Grp.setZreg_gw (g : Grp) (i : Nat) (x : W64) : (g.setZreg i x).gw = g.gw := rfl
@[simp] theorem Grp.setZreg_budget (g : Grp) (i : Nat) (x : W64) : (g.setZreg i x).budget = g.budget := rfl
@[simp] theorem Grp.setZreg_parent (g : Grp) (i : Nat) (x : W64) : (g.setZreg i x).parent = g.parent := rfl
@[simp] theorem Grp.setZreg_parts (g : Grp) (i : Nat) (x : W64) : (g.setZreg i x).parts = g.parts := rfl
@[simp] theorem Grp.setZreg_phase (g : Grp) (i : Nat) (x : W64) : (g.setZreg i x).phase = g.phase := rfl
@[simp] theorem Grp.setZreg_lanes (g : Grp) (i : Nat) (x : W64) : (g.setZreg i x).lanes = g.lanes := rfl
@[simp] theorem Grp.setZreg_s (g : Grp) (i : Nat) (x : W64) : (g.setZreg i x).s = g.s := rfl
@[simp] theorem Grp.setZreg_m (g : Grp) (i : Nat) (x : W64) : (g.setZreg i x).m = g.m := rfl
@[simp] theorem Grp.setZreg_a (g : Grp) (i : Nat) (x : W64) : (g.setZreg i x).a = g.a := rfl
@[simp] theorem Grp.setZreg_z (g : Grp) (i : Nat) (x : W64) : (g.setZreg i x).z = bankPut 0 g.z i x := rfl
@[simp] theorem Grp.setZreg_flags (g : Grp) (i : Nat) (x : W64) : (g.setZreg i x).flags = g.flags := rfl
@[simp] theorem Grp.setZreg_fdone (g : Grp) (i : Nat) (x : W64) : (g.setZreg i x).fdone = g.fdone := rfl
@[simp] theorem Grp.setZreg_wb (g : Grp) (i : Nat) (x : W64) : (g.setZreg i x).wb = g.wb := rfl
@[simp] theorem Grp.setZreg_frames (g : Grp) (i : Nat) (x : W64) : (g.setZreg i x).frames = g.frames := rfl
@[simp] theorem Grp.setZreg_spTop (g : Grp) (i : Nat) (x : W64) : (g.setZreg i x).spTop = g.spTop := rfl
@[simp] theorem Grp.setZreg_spillOff (g : Grp) (i : Nat) (x : W64) : (g.setZreg i x).spillOff = g.spillOff := rfl
@[simp] theorem Grp.setZreg_spillLen (g : Grp) (i : Nat) (x : W64) : (g.setZreg i x).spillLen = g.spillLen := rfl
@[simp] theorem Grp.setZreg_gang (g : Grp) (i : Nat) (x : W64) : (g.setZreg i x).gang = g.gang := rfl
@[simp] theorem Grp.setZreg_retired (g : Grp) (i : Nat) (x : W64) : (g.setZreg i x).retired = g.retired := rfl
@[simp] theorem Grp.setZreg_hbank (g : Grp) (i : Nat) (x : W64) : (g.setZreg i x).hbank = g.hbank := rfl
@[simp] theorem Grp.setZreg_handler (g : Grp) (i : Nat) (x : W64) : (g.setZreg i x).handler = g.handler := rfl
@[simp] theorem Grp.setZreg_ptsel (g : Grp) (i : Nat) (x : W64) : (g.setZreg i x).ptsel = g.ptsel := rfl
@[simp] theorem Grp.setZreg_guard (g : Grp) (i : Nat) (x : W64) : (g.setZreg i x).guard = g.guard := rfl
@[simp] theorem Grp.setZreg_overruns (g : Grp) (i : Nat) (x : W64) : (g.setZreg i x).overruns = g.overruns := rfl
@[simp] theorem Grp.setZreg_tape (g : Grp) (i : Nat) (x : W64) : (g.setZreg i x).tape = g.tape := rfl
@[simp] theorem Grp.setZreg_flushes (g : Grp) (i : Nat) (x : W64) : (g.setZreg i x).flushes = g.flushes := rfl
@[simp] theorem Grp.setZreg_rcBound (g : Grp) (i : Nat) (x : W64) : (g.setZreg i x).rcBound = g.rcBound := rfl
@[simp] theorem Grp.setZreg_rcDue (g : Grp) (i : Nat) (x : W64) : (g.setZreg i x).rcDue = g.rcDue := rfl
@[simp] theorem Grp.setZreg_rcSyncs (g : Grp) (i : Nat) (x : W64) : (g.setZreg i x).rcSyncs = g.rcSyncs := rfl
@[simp] theorem Grp.setZreg_rcMine (g : Grp) (i : Nat) (x : W64) : (g.setZreg i x).rcMine = g.rcMine := rfl
@[simp] theorem Grp.setZreg_stall (g : Grp) (i : Nat) (x : W64) : (g.setZreg i x).stall = g.stall := rfl
@[simp] theorem Grp.setZreg_stallOrder (g : Grp) (i : Nat) (x : W64) : (g.setZreg i x).stallOrder = g.stallOrder := rfl
@[simp] theorem Grp.setZreg_stallRoom (g : Grp) (i : Nat) (x : W64) : (g.setZreg i x).stallRoom = g.stallRoom := rfl
@[simp] theorem Grp.setZreg_afterStall (g : Grp) (i : Nat) (x : W64) : (g.setZreg i x).afterStall = g.afterStall := rfl
@[simp] theorem Grp.setZreg_yielded (g : Grp) (i : Nat) (x : W64) : (g.setZreg i x).yielded = g.yielded := rfl
@[simp] theorem Grp.setZreg_stopped (g : Grp) (i : Nat) (x : W64) : (g.setZreg i x).stopped = g.stopped := rfl
@[simp] theorem Grp.setZreg_stepOver (g : Grp) (i : Nat) (x : W64) : (g.setZreg i x).stepOver = g.stepOver := rfl
@[simp] theorem Grp.setZreg_snapped (g : Grp) (i : Nat) (x : W64) : (g.setZreg i x).snapped = g.snapped := rfl
@[simp] theorem Grp.setZreg_crossed (g : Grp) (i : Nat) (x : W64) : (g.setZreg i x).crossed = g.crossed := rfl
@[simp] theorem Grp.setZreg_replies (g : Grp) (i : Nat) (x : W64) : (g.setZreg i x).replies = g.replies := rfl
@[simp] theorem Grp.setZreg_mmaPend (g : Grp) (i : Nat) (x : W64) : (g.setZreg i x).mmaPend = g.mmaPend := rfl
@[simp] theorem Grp.setZreg_openI (g : Grp) (i : Nat) (x : W64) : (g.setZreg i x).openI = g.openI := rfl
@[simp] theorem Grp.setZreg_mmaK (g : Grp) (i : Nat) (x : W64) : (g.setZreg i x).mmaK = g.mmaK := rfl
@[simp] theorem Grp.setZreg_wallocGot (g : Grp) (i : Nat) (x : W64) : (g.setZreg i x).wallocGot = g.wallocGot := rfl
@[simp] theorem Grp.setZreg_collNf (g : Grp) (i : Nat) (x : W64) : (g.setZreg i x).collNf = g.collNf := rfl
@[simp] theorem Grp.setZreg_iss (g : Grp) (i : Nat) (x : W64) : (g.setZreg i x).iss = g.iss := rfl
@[simp] theorem Grp.setZreg_readyFor (g : Grp) (i : Nat) (x : W64) : (g.setZreg i x).readyFor = g.readyFor := rfl
@[simp] theorem Grp.setZreg_yieldAge (g : Grp) (i : Nat) (x : W64) : (g.setZreg i x).yieldAge = g.yieldAge := rfl
@[simp] theorem Grp.setZreg_digest (g : Grp) (i : Nat) (x : W64) : (g.setZreg i x).digest = g.digest := rfl
@[simp] theorem Grp.setZreg_logSeen (g : Grp) (i : Nat) (x : W64) : (g.setZreg i x).logSeen = g.logSeen := rfl
@[simp] theorem Grp.setZreg_image (g : Grp) (i : Nat) (x : W64) : (g.setZreg i x).image = g.image := rfl
@[simp] theorem Grp.setZreg_fused (g : Grp) (i : Nat) (x : W64) : (g.setZreg i x).fused = g.fused := rfl

@[simp] theorem Grp.setSreg_team (g : Grp) (i : Nat) (x : SReg) : (g.setSreg i x).team = g.team := rfl
@[simp] theorem Grp.setSreg_idx (g : Grp) (i : Nat) (x : SReg) : (g.setSreg i x).idx = g.idx := rfl
@[simp] theorem Grp.setSreg_part (g : Grp) (i : Nat) (x : SReg) : (g.setSreg i x).part = g.part := rfl
@[simp] theorem Grp.setSreg_factor (g : Grp) (i : Nat) (x : SReg) : (g.setSreg i x).factor = g.factor := rfl
@[simp] theorem Grp.setSreg_base (g : Grp) (i : Nat) (x : SReg) : (g.setSreg i x).base = g.base := rfl
@[simp] theorem Grp.setSreg_gw (g : Grp) (i : Nat) (x : SReg) : (g.setSreg i x).gw = g.gw := rfl
@[simp] theorem Grp.setSreg_budget (g : Grp) (i : Nat) (x : SReg) : (g.setSreg i x).budget = g.budget := rfl
@[simp] theorem Grp.setSreg_parent (g : Grp) (i : Nat) (x : SReg) : (g.setSreg i x).parent = g.parent := rfl
@[simp] theorem Grp.setSreg_parts (g : Grp) (i : Nat) (x : SReg) : (g.setSreg i x).parts = g.parts := rfl
@[simp] theorem Grp.setSreg_phase (g : Grp) (i : Nat) (x : SReg) : (g.setSreg i x).phase = g.phase := rfl
@[simp] theorem Grp.setSreg_lanes (g : Grp) (i : Nat) (x : SReg) : (g.setSreg i x).lanes = g.lanes := rfl
@[simp] theorem Grp.setSreg_s (g : Grp) (i : Nat) (x : SReg) : (g.setSreg i x).s = bankPut {} g.s i x := rfl
@[simp] theorem Grp.setSreg_m (g : Grp) (i : Nat) (x : SReg) : (g.setSreg i x).m = g.m := rfl
@[simp] theorem Grp.setSreg_a (g : Grp) (i : Nat) (x : SReg) : (g.setSreg i x).a = g.a := rfl
@[simp] theorem Grp.setSreg_z (g : Grp) (i : Nat) (x : SReg) : (g.setSreg i x).z = g.z := rfl
@[simp] theorem Grp.setSreg_flags (g : Grp) (i : Nat) (x : SReg) : (g.setSreg i x).flags = g.flags := rfl
@[simp] theorem Grp.setSreg_fdone (g : Grp) (i : Nat) (x : SReg) : (g.setSreg i x).fdone = g.fdone := rfl
@[simp] theorem Grp.setSreg_wb (g : Grp) (i : Nat) (x : SReg) : (g.setSreg i x).wb = g.wb := rfl
@[simp] theorem Grp.setSreg_frames (g : Grp) (i : Nat) (x : SReg) : (g.setSreg i x).frames = g.frames := rfl
@[simp] theorem Grp.setSreg_spTop (g : Grp) (i : Nat) (x : SReg) : (g.setSreg i x).spTop = g.spTop := rfl
@[simp] theorem Grp.setSreg_spillOff (g : Grp) (i : Nat) (x : SReg) : (g.setSreg i x).spillOff = g.spillOff := rfl
@[simp] theorem Grp.setSreg_spillLen (g : Grp) (i : Nat) (x : SReg) : (g.setSreg i x).spillLen = g.spillLen := rfl
@[simp] theorem Grp.setSreg_gang (g : Grp) (i : Nat) (x : SReg) : (g.setSreg i x).gang = g.gang := rfl
@[simp] theorem Grp.setSreg_retired (g : Grp) (i : Nat) (x : SReg) : (g.setSreg i x).retired = g.retired := rfl
@[simp] theorem Grp.setSreg_hbank (g : Grp) (i : Nat) (x : SReg) : (g.setSreg i x).hbank = g.hbank := rfl
@[simp] theorem Grp.setSreg_handler (g : Grp) (i : Nat) (x : SReg) : (g.setSreg i x).handler = g.handler := rfl
@[simp] theorem Grp.setSreg_ptsel (g : Grp) (i : Nat) (x : SReg) : (g.setSreg i x).ptsel = g.ptsel := rfl
@[simp] theorem Grp.setSreg_guard (g : Grp) (i : Nat) (x : SReg) : (g.setSreg i x).guard = g.guard := rfl
@[simp] theorem Grp.setSreg_overruns (g : Grp) (i : Nat) (x : SReg) : (g.setSreg i x).overruns = g.overruns := rfl
@[simp] theorem Grp.setSreg_tape (g : Grp) (i : Nat) (x : SReg) : (g.setSreg i x).tape = g.tape := rfl
@[simp] theorem Grp.setSreg_flushes (g : Grp) (i : Nat) (x : SReg) : (g.setSreg i x).flushes = g.flushes := rfl
@[simp] theorem Grp.setSreg_rcBound (g : Grp) (i : Nat) (x : SReg) : (g.setSreg i x).rcBound = g.rcBound := rfl
@[simp] theorem Grp.setSreg_rcDue (g : Grp) (i : Nat) (x : SReg) : (g.setSreg i x).rcDue = g.rcDue := rfl
@[simp] theorem Grp.setSreg_rcSyncs (g : Grp) (i : Nat) (x : SReg) : (g.setSreg i x).rcSyncs = g.rcSyncs := rfl
@[simp] theorem Grp.setSreg_rcMine (g : Grp) (i : Nat) (x : SReg) : (g.setSreg i x).rcMine = g.rcMine := rfl
@[simp] theorem Grp.setSreg_stall (g : Grp) (i : Nat) (x : SReg) : (g.setSreg i x).stall = g.stall := rfl
@[simp] theorem Grp.setSreg_stallOrder (g : Grp) (i : Nat) (x : SReg) : (g.setSreg i x).stallOrder = g.stallOrder := rfl
@[simp] theorem Grp.setSreg_stallRoom (g : Grp) (i : Nat) (x : SReg) : (g.setSreg i x).stallRoom = g.stallRoom := rfl
@[simp] theorem Grp.setSreg_afterStall (g : Grp) (i : Nat) (x : SReg) : (g.setSreg i x).afterStall = g.afterStall := rfl
@[simp] theorem Grp.setSreg_yielded (g : Grp) (i : Nat) (x : SReg) : (g.setSreg i x).yielded = g.yielded := rfl
@[simp] theorem Grp.setSreg_stopped (g : Grp) (i : Nat) (x : SReg) : (g.setSreg i x).stopped = g.stopped := rfl
@[simp] theorem Grp.setSreg_stepOver (g : Grp) (i : Nat) (x : SReg) : (g.setSreg i x).stepOver = g.stepOver := rfl
@[simp] theorem Grp.setSreg_snapped (g : Grp) (i : Nat) (x : SReg) : (g.setSreg i x).snapped = g.snapped := rfl
@[simp] theorem Grp.setSreg_crossed (g : Grp) (i : Nat) (x : SReg) : (g.setSreg i x).crossed = g.crossed := rfl
@[simp] theorem Grp.setSreg_replies (g : Grp) (i : Nat) (x : SReg) : (g.setSreg i x).replies = g.replies := rfl
@[simp] theorem Grp.setSreg_mmaPend (g : Grp) (i : Nat) (x : SReg) : (g.setSreg i x).mmaPend = g.mmaPend := rfl
@[simp] theorem Grp.setSreg_openI (g : Grp) (i : Nat) (x : SReg) : (g.setSreg i x).openI = g.openI := rfl
@[simp] theorem Grp.setSreg_mmaK (g : Grp) (i : Nat) (x : SReg) : (g.setSreg i x).mmaK = g.mmaK := rfl
@[simp] theorem Grp.setSreg_wallocGot (g : Grp) (i : Nat) (x : SReg) : (g.setSreg i x).wallocGot = g.wallocGot := rfl
@[simp] theorem Grp.setSreg_collNf (g : Grp) (i : Nat) (x : SReg) : (g.setSreg i x).collNf = g.collNf := rfl
@[simp] theorem Grp.setSreg_iss (g : Grp) (i : Nat) (x : SReg) : (g.setSreg i x).iss = g.iss := rfl
@[simp] theorem Grp.setSreg_readyFor (g : Grp) (i : Nat) (x : SReg) : (g.setSreg i x).readyFor = g.readyFor := rfl
@[simp] theorem Grp.setSreg_yieldAge (g : Grp) (i : Nat) (x : SReg) : (g.setSreg i x).yieldAge = g.yieldAge := rfl
@[simp] theorem Grp.setSreg_digest (g : Grp) (i : Nat) (x : SReg) : (g.setSreg i x).digest = g.digest := rfl
@[simp] theorem Grp.setSreg_logSeen (g : Grp) (i : Nat) (x : SReg) : (g.setSreg i x).logSeen = g.logSeen := rfl
@[simp] theorem Grp.setSreg_image (g : Grp) (i : Nat) (x : SReg) : (g.setSreg i x).image = g.image := rfl
@[simp] theorem Grp.setSreg_fused (g : Grp) (i : Nat) (x : SReg) : (g.setSreg i x).fused = g.fused := rfl

@[simp] theorem Grp.modLane_team (g : Grp) (l : Nat) (f : Lane → Lane) : (g.modLane l f).team = g.team := rfl
@[simp] theorem Grp.modLane_idx (g : Grp) (l : Nat) (f : Lane → Lane) : (g.modLane l f).idx = g.idx := rfl
@[simp] theorem Grp.modLane_part (g : Grp) (l : Nat) (f : Lane → Lane) : (g.modLane l f).part = g.part := rfl
@[simp] theorem Grp.modLane_factor (g : Grp) (l : Nat) (f : Lane → Lane) : (g.modLane l f).factor = g.factor := rfl
@[simp] theorem Grp.modLane_base (g : Grp) (l : Nat) (f : Lane → Lane) : (g.modLane l f).base = g.base := rfl
@[simp] theorem Grp.modLane_gw (g : Grp) (l : Nat) (f : Lane → Lane) : (g.modLane l f).gw = g.gw := rfl
@[simp] theorem Grp.modLane_budget (g : Grp) (l : Nat) (f : Lane → Lane) : (g.modLane l f).budget = g.budget := rfl
@[simp] theorem Grp.modLane_parent (g : Grp) (l : Nat) (f : Lane → Lane) : (g.modLane l f).parent = g.parent := rfl
@[simp] theorem Grp.modLane_parts (g : Grp) (l : Nat) (f : Lane → Lane) : (g.modLane l f).parts = g.parts := rfl
@[simp] theorem Grp.modLane_phase (g : Grp) (l : Nat) (f : Lane → Lane) : (g.modLane l f).phase = g.phase := rfl
@[simp] theorem Grp.modLane_lanes (g : Grp) (l : Nat) (f : Lane → Lane) : (g.modLane l f).lanes = bankPut {} g.lanes l (f (g.lane l)) := rfl
@[simp] theorem Grp.modLane_s (g : Grp) (l : Nat) (f : Lane → Lane) : (g.modLane l f).s = g.s := rfl
@[simp] theorem Grp.modLane_m (g : Grp) (l : Nat) (f : Lane → Lane) : (g.modLane l f).m = g.m := rfl
@[simp] theorem Grp.modLane_a (g : Grp) (l : Nat) (f : Lane → Lane) : (g.modLane l f).a = g.a := rfl
@[simp] theorem Grp.modLane_z (g : Grp) (l : Nat) (f : Lane → Lane) : (g.modLane l f).z = g.z := rfl
@[simp] theorem Grp.modLane_flags (g : Grp) (l : Nat) (f : Lane → Lane) : (g.modLane l f).flags = g.flags := rfl
@[simp] theorem Grp.modLane_fdone (g : Grp) (l : Nat) (f : Lane → Lane) : (g.modLane l f).fdone = g.fdone := rfl
@[simp] theorem Grp.modLane_wb (g : Grp) (l : Nat) (f : Lane → Lane) : (g.modLane l f).wb = g.wb := rfl
@[simp] theorem Grp.modLane_frames (g : Grp) (l : Nat) (f : Lane → Lane) : (g.modLane l f).frames = g.frames := rfl
@[simp] theorem Grp.modLane_spTop (g : Grp) (l : Nat) (f : Lane → Lane) : (g.modLane l f).spTop = g.spTop := rfl
@[simp] theorem Grp.modLane_spillOff (g : Grp) (l : Nat) (f : Lane → Lane) : (g.modLane l f).spillOff = g.spillOff := rfl
@[simp] theorem Grp.modLane_spillLen (g : Grp) (l : Nat) (f : Lane → Lane) : (g.modLane l f).spillLen = g.spillLen := rfl
@[simp] theorem Grp.modLane_gang (g : Grp) (l : Nat) (f : Lane → Lane) : (g.modLane l f).gang = g.gang := rfl
@[simp] theorem Grp.modLane_retired (g : Grp) (l : Nat) (f : Lane → Lane) : (g.modLane l f).retired = g.retired := rfl
@[simp] theorem Grp.modLane_hbank (g : Grp) (l : Nat) (f : Lane → Lane) : (g.modLane l f).hbank = g.hbank := rfl
@[simp] theorem Grp.modLane_handler (g : Grp) (l : Nat) (f : Lane → Lane) : (g.modLane l f).handler = g.handler := rfl
@[simp] theorem Grp.modLane_ptsel (g : Grp) (l : Nat) (f : Lane → Lane) : (g.modLane l f).ptsel = g.ptsel := rfl
@[simp] theorem Grp.modLane_guard (g : Grp) (l : Nat) (f : Lane → Lane) : (g.modLane l f).guard = g.guard := rfl
@[simp] theorem Grp.modLane_overruns (g : Grp) (l : Nat) (f : Lane → Lane) : (g.modLane l f).overruns = g.overruns := rfl
@[simp] theorem Grp.modLane_tape (g : Grp) (l : Nat) (f : Lane → Lane) : (g.modLane l f).tape = g.tape := rfl
@[simp] theorem Grp.modLane_flushes (g : Grp) (l : Nat) (f : Lane → Lane) : (g.modLane l f).flushes = g.flushes := rfl
@[simp] theorem Grp.modLane_rcBound (g : Grp) (l : Nat) (f : Lane → Lane) : (g.modLane l f).rcBound = g.rcBound := rfl
@[simp] theorem Grp.modLane_rcDue (g : Grp) (l : Nat) (f : Lane → Lane) : (g.modLane l f).rcDue = g.rcDue := rfl
@[simp] theorem Grp.modLane_rcSyncs (g : Grp) (l : Nat) (f : Lane → Lane) : (g.modLane l f).rcSyncs = g.rcSyncs := rfl
@[simp] theorem Grp.modLane_rcMine (g : Grp) (l : Nat) (f : Lane → Lane) : (g.modLane l f).rcMine = g.rcMine := rfl
@[simp] theorem Grp.modLane_stall (g : Grp) (l : Nat) (f : Lane → Lane) : (g.modLane l f).stall = g.stall := rfl
@[simp] theorem Grp.modLane_stallOrder (g : Grp) (l : Nat) (f : Lane → Lane) : (g.modLane l f).stallOrder = g.stallOrder := rfl
@[simp] theorem Grp.modLane_stallRoom (g : Grp) (l : Nat) (f : Lane → Lane) : (g.modLane l f).stallRoom = g.stallRoom := rfl
@[simp] theorem Grp.modLane_afterStall (g : Grp) (l : Nat) (f : Lane → Lane) : (g.modLane l f).afterStall = g.afterStall := rfl
@[simp] theorem Grp.modLane_yielded (g : Grp) (l : Nat) (f : Lane → Lane) : (g.modLane l f).yielded = g.yielded := rfl
@[simp] theorem Grp.modLane_stopped (g : Grp) (l : Nat) (f : Lane → Lane) : (g.modLane l f).stopped = g.stopped := rfl
@[simp] theorem Grp.modLane_stepOver (g : Grp) (l : Nat) (f : Lane → Lane) : (g.modLane l f).stepOver = g.stepOver := rfl
@[simp] theorem Grp.modLane_snapped (g : Grp) (l : Nat) (f : Lane → Lane) : (g.modLane l f).snapped = g.snapped := rfl
@[simp] theorem Grp.modLane_crossed (g : Grp) (l : Nat) (f : Lane → Lane) : (g.modLane l f).crossed = g.crossed := rfl
@[simp] theorem Grp.modLane_replies (g : Grp) (l : Nat) (f : Lane → Lane) : (g.modLane l f).replies = g.replies := rfl
@[simp] theorem Grp.modLane_mmaPend (g : Grp) (l : Nat) (f : Lane → Lane) : (g.modLane l f).mmaPend = g.mmaPend := rfl
@[simp] theorem Grp.modLane_openI (g : Grp) (l : Nat) (f : Lane → Lane) : (g.modLane l f).openI = g.openI := rfl
@[simp] theorem Grp.modLane_mmaK (g : Grp) (l : Nat) (f : Lane → Lane) : (g.modLane l f).mmaK = g.mmaK := rfl
@[simp] theorem Grp.modLane_wallocGot (g : Grp) (l : Nat) (f : Lane → Lane) : (g.modLane l f).wallocGot = g.wallocGot := rfl
@[simp] theorem Grp.modLane_collNf (g : Grp) (l : Nat) (f : Lane → Lane) : (g.modLane l f).collNf = g.collNf := rfl
@[simp] theorem Grp.modLane_iss (g : Grp) (l : Nat) (f : Lane → Lane) : (g.modLane l f).iss = g.iss := rfl
@[simp] theorem Grp.modLane_readyFor (g : Grp) (l : Nat) (f : Lane → Lane) : (g.modLane l f).readyFor = g.readyFor := rfl
@[simp] theorem Grp.modLane_yieldAge (g : Grp) (l : Nat) (f : Lane → Lane) : (g.modLane l f).yieldAge = g.yieldAge := rfl
@[simp] theorem Grp.modLane_digest (g : Grp) (l : Nat) (f : Lane → Lane) : (g.modLane l f).digest = g.digest := rfl
@[simp] theorem Grp.modLane_logSeen (g : Grp) (l : Nat) (f : Lane → Lane) : (g.modLane l f).logSeen = g.logSeen := rfl
@[simp] theorem Grp.modLane_image (g : Grp) (l : Nat) (f : Lane → Lane) : (g.modLane l f).image = g.image := rfl
@[simp] theorem Grp.modLane_fused (g : Grp) (l : Nat) (f : Lane → Lane) : (g.modLane l f).fused = g.fused := rfl

@[simp] theorem Lane.pushY_pc (x : Lane) (r : Reg) : (x.pushY r).pc = x.pc := rfl
@[simp] theorem Lane.pushY_bb (x : Lane) (r : Reg) : (x.pushY r).bb = x.bb := rfl
@[simp] theorem Lane.pushY_hdr (x : Lane) (r : Reg) : (x.pushY r).hdr = x.hdr := rfl
@[simp] theorem Lane.pushY_reach (x : Lane) (r : Reg) : (x.pushY r).reach = x.reach := rfl
@[simp] theorem Lane.pushY_st (x : Lane) (r : Reg) : (x.pushY r).st = x.st := rfl
@[simp] theorem Lane.pushY_wait (x : Lane) (r : Reg) : (x.pushY r).wait = x.wait := rfl
@[simp] theorem Lane.pushY_woken (x : Lane) (r : Reg) : (x.pushY r).woken = x.woken := rfl
@[simp] theorem Lane.pushY_owes (x : Lane) (r : Reg) : (x.pushY r).owes = x.owes := rfl
@[simp] theorem Lane.pushY_rot (x : Lane) (r : Reg) : (x.pushY r).rot = x.rot := rfl
@[simp] theorem Lane.pushY_v (x : Lane) (r : Reg) : (x.pushY r).v = x.v := rfl
@[simp] theorem Lane.pushY_k (x : Lane) (r : Reg) : (x.pushY r).k = x.k := rfl
@[simp] theorem Lane.pushY_y0 (x : Lane) (r : Reg) : (x.pushY r).y0 = { val := r.val, poi := r.poi, valid := true } := rfl
@[simp] theorem Lane.pushY_y1 (x : Lane) (r : Reg) : (x.pushY r).y1 = x.y0 := rfl
@[simp] theorem Lane.pushY_fpl (x : Lane) (r : Reg) : (x.pushY r).fpl = x.fpl := rfl
@[simp] theorem Lane.pushY_ctr (x : Lane) (r : Reg) : (x.pushY r).ctr = x.ctr := rfl
@[simp] theorem Lane.pushY_wsends (x : Lane) (r : Reg) : (x.pushY r).wsends = x.wsends := rfl
@[simp] theorem Lane.pushY_samples (x : Lane) (r : Reg) : (x.pushY r).samples = x.samples := rfl

@[simp] theorem Lane.raise_pc (x : Lane) (fl : W32) : (x.raise fl).pc = x.pc := rfl
@[simp] theorem Lane.raise_bb (x : Lane) (fl : W32) : (x.raise fl).bb = x.bb := rfl
@[simp] theorem Lane.raise_hdr (x : Lane) (fl : W32) : (x.raise fl).hdr = x.hdr := rfl
@[simp] theorem Lane.raise_reach (x : Lane) (fl : W32) : (x.raise fl).reach = x.reach := rfl
@[simp] theorem Lane.raise_st (x : Lane) (fl : W32) : (x.raise fl).st = x.st := rfl
@[simp] theorem Lane.raise_wait (x : Lane) (fl : W32) : (x.raise fl).wait = x.wait := rfl
@[simp] theorem Lane.raise_woken (x : Lane) (fl : W32) : (x.raise fl).woken = x.woken := rfl
@[simp] theorem Lane.raise_owes (x : Lane) (fl : W32) : (x.raise fl).owes = x.owes := rfl
@[simp] theorem Lane.raise_rot (x : Lane) (fl : W32) : (x.raise fl).rot = x.rot := rfl
@[simp] theorem Lane.raise_v (x : Lane) (fl : W32) : (x.raise fl).v = x.v := rfl
@[simp] theorem Lane.raise_k (x : Lane) (fl : W32) : (x.raise fl).k = x.k := rfl
@[simp] theorem Lane.raise_y0 (x : Lane) (fl : W32) : (x.raise fl).y0 = x.y0 := rfl
@[simp] theorem Lane.raise_y1 (x : Lane) (fl : W32) : (x.raise fl).y1 = x.y1 := rfl
@[simp] theorem Lane.raise_fpl (x : Lane) (fl : W32) : (x.raise fl).fpl = x.fpl ||| fl := rfl
@[simp] theorem Lane.raise_ctr (x : Lane) (fl : W32) : (x.raise fl).ctr = x.ctr := rfl
@[simp] theorem Lane.raise_wsends (x : Lane) (fl : W32) : (x.raise fl).wsends = x.wsends := rfl
@[simp] theorem Lane.raise_samples (x : Lane) (fl : W32) : (x.raise fl).samples = x.samples := rfl

end Sys2Proof.Machine
end

