-- ==== Sys2Proof/Laws/MemState.lean ====
section
/-! SUPPORT. What the shared operations over the state do to memory, first half: `mem_f` says that f leaves memory as it is,
`ok_f` that f keeps the canonical form of memory (`Memory.wf`), `did_f` the same of what an effect answers (`Did.Ok`). A fold over
either does the same (`foldl_memS`, `foldl_okS`, and `foldl_memP`, `foldl_okP` over a state beside another value). -/

set_option maxRecDepth 100000

namespace Sys2Proof.Machine

@[simp] theorem ite_memS (c : Prop) [Decidable c] (a b : State) : (if c then a else b).mem = if c then a.mem else b.mem := by split <;> rfl

@[simp] theorem wf_ite (c : Prop) [Decidable c] (a b : List Host.Cell) : Memory.wf (if c then a else b) = if c then Memory.wf a else Memory.wf b := by split <;> rfl

theorem foldl_memS {α} (l : List α) (f : State → α → State) (s : State) (h : ∀ s x, (f s x).mem = s.mem) : (l.foldl f s).mem = s.mem := by
  induction l generalizing s with
  | nil => rfl
  | cons a l ih => rw [List.foldl_cons, ih, h]

theorem foldl_memP {α β} (l : List α) (f : State × β → α → State × β) (s : State × β) (h : ∀ s x, (f s x).1.mem = s.1.mem) : (l.foldl f s).1.mem = s.1.mem := by
  induction l generalizing s with
  | nil => rfl
  | cons a l ih => rw [List.foldl_cons, ih, h]

theorem foldl_okS {α} (l : List α) (f : State → α → State) (s : State) (h : ∀ s x, Memory.wf s.mem = true → Memory.wf (f s x).mem = true) (hs : Memory.wf s.mem = true) : Memory.wf (l.foldl f s).mem = true := by
  induction l generalizing s with
  | nil => exact hs
  | cons a l ih => exact ih _ (h _ _ hs)

theorem foldl_okP {α β} (l : List α) (f : State × β → α → State × β) (s : State × β) (h : ∀ s x, Memory.wf s.1.mem = true → Memory.wf (f s x).1.mem = true) (hs : Memory.wf s.1.mem = true) : Memory.wf (l.foldl f s).1.mem = true := by
  induction l generalizing s with
  | nil => exact hs
  | cons a l ih => exact ih _ (h _ _ hs)

theorem fst_ok {β} {p : State × β} {t : State} {b : β} (e : p = (t, b)) (h : Memory.wf p.1.mem = true) : Memory.wf t.mem = true := by rw [e] at h; exact h

theorem fst_mem {β} {p : State × β} {t : State} {b : β} (e : p = (t, b)) : t.mem = p.1.mem := by rw [e]

def Did.Ok : Did → Prop
  | .hold => True
  | .stall s _ => Memory.wf s.mem = true
  | .fatal s _ _ => Memory.wf s.mem = true
  | .done s _ => Memory.wf s.mem = true

@[simp] theorem Did.Ok_hold : Did.hold.Ok = True := rfl

@[simp] theorem Did.Ok_stall (s st) : (Did.stall s st).Ok = (Memory.wf s.mem = true) := rfl

@[simp] theorem Did.Ok_fatal (s a b) : (Did.fatal s a b).Ok = (Memory.wf s.mem = true) := rfl

@[simp] theorem Did.Ok_done (s a) : (Did.done s a).Ok = (Memory.wf s.mem = true) := rfl

def OutOk (o : Out) : Prop := ∀ t, o = .next t → Memory.wf t.mem = true

theorem ok_next (s : State) (h : Memory.wf s.mem = true) : OutOk (.next s) := fun t e => by cases e; exact h

theorem Did.ok_ite {c : Prop} [Decidable c] {a b : Did} (ha : a.Ok) (hb : b.Ok) : (if c then a else b).Ok := by split <;> assumption

@[simp] theorem mem_State_setGrpAt (s : State) (a1) (a2) : (State.setGrpAt s a1 a2).mem = s.mem := by
  rfl

@[simp] theorem mem_State_setTeamAt (s : State) (a1) (a2) : (State.setTeamAt s a1 a2).mem = s.mem := by
  rfl

@[simp] theorem mem_State_setGridAt (s : State) (a1) (a2) : (State.setGridAt s a1 a2).mem = s.mem := by
  rfl

@[simp] theorem mem_State_setCtxAt (s : State) (a1) (a2) : (State.setCtxAt s a1 a2).mem = s.mem := by
  rfl

@[simp] theorem mem_State_setCoreAt (s : State) (a1) (a2) : (State.setCoreAt s a1 a2).mem = s.mem := by
  rfl

@[simp] theorem mem_State_setG (s : State) (a1) : (State.setG s a1).mem = s.mem := by
  rfl

@[simp] theorem mem_State_setT (s : State) (a1) : (State.setT s a1).mem = s.mem := by
  rfl

@[simp] theorem mem_State_setGr (s : State) (a1) : (State.setGr s a1).mem = s.mem := by
  rfl

@[simp] theorem mem_State_setC (s : State) (a1) : (State.setC s a1).mem = s.mem := by
  rfl

@[simp] theorem mem_State_setCo (s : State) (a1) : (State.setCo s a1).mem = s.mem := by
  rfl

@[simp] theorem mem_State_modG (s : State) (a1) : (State.modG s a1).mem = s.mem := by
  rfl

@[simp] theorem mem_State_modT (s : State) (a1) : (State.modT s a1).mem = s.mem := by
  rfl

@[simp] theorem mem_State_modGr (s : State) (a1) : (State.modGr s a1).mem = s.mem := by
  rfl

@[simp] theorem mem_State_modC (s : State) (a1) : (State.modC s a1).mem = s.mem := by
  rfl

@[simp] theorem mem_State_modCo (s : State) (a1) : (State.modCo s a1).mem = s.mem := by
  rfl

@[simp] theorem mem_State_modPkg (s : State) (a1) : (State.modPkg s a1).mem = s.mem := by
  rfl

@[simp] theorem mem_State_focusGrp (s : State) (a1) : (State.focusGrp s a1).mem = s.mem := by
  rfl

@[simp] theorem mem_State_focusTeam (s : State) (a1) : (State.focusTeam s a1).mem = s.mem := by
  rfl

@[simp] theorem mem_State_focusGrid (s : State) (a1) : (State.focusGrid s a1).mem = s.mem := by
  rfl

@[simp] theorem mem_State_focusCtx (s : State) (a1) : (State.focusCtx s a1).mem = s.mem := by
  rfl

@[simp] theorem mem_State_refocus (s : State) (a1) : (State.refocus s a1).mem = s.mem := by
  rfl

@[simp] theorem mem_State_freshId (s : State) : (State.freshId s).1.mem = s.mem := by
  rfl

@[simp] theorem mem_State_freshOrder (s : State) : (State.freshOrder s).1.mem = s.mem := by
  rfl

@[simp] theorem mem_State_bump (s : State) : (State.bump s).mem = s.mem := by
  rfl

@[simp] theorem mem_State_count (s : State) (a1) (a2) (a3) : (State.count s a1 a2 a3).mem = s.mem := by
  simp [State.count]

@[simp] theorem mem_State_digest (s : State) (a1) (a2) : (State.digest s a1 a2).mem = s.mem := by
  simp [State.digest]

@[simp] theorem mem_State_wrote (s : State) (a1) (a2) : (State.wrote s a1 a2).mem = s.mem := by
  simp [State.wrote]

@[simp] theorem mem_State_raise (s : State) (a1) : (State.raise s a1).mem = s.mem := by
  rfl

@[simp] theorem mem_State_countUe (s : State) : (State.countUe s).mem = s.mem := by
  rfl

@[simp] theorem ok_State_hbmWrite (s : State) (a) (bs) (h : Memory.wf s.mem = true) : Memory.wf (s.hbmWrite a bs).mem = true := State.hbmWrite_memOk s a bs h

@[simp] theorem mem_State_hbmPoison (s : State) (a1) (a2) : (State.hbmPoison s a1 a2).mem = s.mem := by
  simp [State.hbmPoison, foldl_memS]

@[simp] theorem ok_State_ringPut (s : State) (a1) (a2) (a3) (h : Memory.wf s.mem = true) : Memory.wf (State.ringPut s a1 a2 a3).mem = true := by
  simp [State.ringPut, h]

@[simp] theorem mem_State_takeSeq (s : State) (a1) : (State.takeSeq s a1).1.mem = s.mem := by
  rfl

@[simp] theorem ok_State_unitRec (s : State) (a1) (a2) (a3) (a4) (h : Memory.wf s.mem = true) : Memory.wf (State.unitRec s a1 a2 a3 a4).mem = true := by
  simp [State.unitRec, h]

@[simp] theorem mem_State_send (s : State) (a1) : (State.send s a1).1.mem = s.mem := by
  rfl

@[simp] theorem mem_State_meet (s : State) (a1) (a2) (a3) : (State.meet s a1 a2 a3).mem = s.mem := by
  simp [State.meet]

@[simp] theorem mem_State_hostQueue (s : State) (a1) : (State.hostQueue s a1).mem = s.mem := by
  rfl

@[simp] theorem mem_State_redFlags (s : State) (a1) (a2) (a3) : (State.redFlags s a1 a2 a3).mem = s.mem := by
  rfl

@[simp] theorem mem_State_touchLlc (s : State) (a1) (a2) : (State.touchLlc s a1 a2).mem = s.mem := by
  simp [State.touchLlc]

@[simp] theorem ok_State_applyWord (s : State) (a1) (a2) (a3) (a4) (a5) (a6) (a7) (a8) (a9) (a10) (h : Memory.wf s.mem = true) : Memory.wf (State.applyWord s a1 a2 a3 a4 a5 a6 a7 a8 a9 a10).mem = true := by
  unfold State.applyWord; dsimp only
  split <;> simp [h]

@[simp] theorem mem_State_sendRemoteRed (s : State) (a1) (a2) (a3) (a4) (a5) (a6) (a7) (a8) (a9) (a10) : (State.sendRemoteRed s a1 a2 a3 a4 a5 a6 a7 a8 a9 a10).mem = s.mem := by
  rfl

@[simp] theorem mem_State_meetUnit (s : State) (a1) (a2) : (State.meetUnit s a1 a2).mem = s.mem := by
  unfold State.meetUnit
  split <;> rfl

@[simp] theorem ok_State_sendLine (s : State) (a1) (h : Memory.wf s.mem = true) : Memory.wf (State.sendLine s a1).mem = true := by
  unfold State.sendLine; try dsimp only
  all_goals simp_all [foldl_okS]

@[simp] theorem ok_State_sendU (s : State) (a1) (a2) (h : Memory.wf s.mem = true) : Memory.wf (State.sendU s a1 a2).mem = true := by
  unfold State.sendU; try dsimp only
  repeat' split
  all_goals first | assumption | rfl | (simp [h]; done) | (simp_all; done) | (simp only [Prod.ext_iff] at *; casesm* _ ∧ _; subst_vars; simp_all; done)

@[simp] theorem ok_State_gather (s : State) (a1) (h : Memory.wf s.mem = true) : Memory.wf (State.gather s a1).mem = true := by
  unfold State.gather; try dsimp only
  all_goals simp_all [foldl_okS]

@[simp] theorem ok_State_gatherRange (s : State) (a1) (a2) (h : Memory.wf s.mem = true) : Memory.wf (State.gatherRange s a1 a2).mem = true := by
  unfold State.gatherRange; try dsimp only
  all_goals simp_all [foldl_okS]

@[simp] theorem ok_State_homeView (s : State) (a1) (a2) (h : Memory.wf s.mem = true) : Memory.wf (State.homeView s a1 a2).mem = true := by
  simp [State.homeView, h]

@[simp] theorem ok_State_gatherRing (s : State) (a1) (h : Memory.wf s.mem = true) : Memory.wf (State.gatherRing s a1).mem = true := by
  simp [State.gatherRing, h]

@[simp] theorem ok_State_ringWrite (s : State) (a1) (a2) (a3) (h : Memory.wf s.mem = true) : Memory.wf (State.ringWrite s a1 a2 a3).mem = true := by
  simp [State.ringWrite, h]

@[simp] theorem ok_State_recordUnit (s : State) (a1) (a2) (a3) (a4) (h : Memory.wf s.mem = true) : Memory.wf (State.recordUnit s a1 a2 a3 a4).mem = true := by
  simp [State.recordUnit, h]

@[simp] theorem ok_State_recordAt (s : State) (a1) (a2) (a3) (h : Memory.wf s.mem = true) : Memory.wf (State.recordAt s a1 a2 a3).1.mem = true := by
  unfold State.recordAt; try dsimp only
  repeat' split
  all_goals first | assumption | rfl | (simp [h]; done) | (simp_all; done) | (simp only [Prod.ext_iff] at *; casesm* _ ∧ _; subst_vars; simp_all; done)

@[simp] theorem mem_State_fillCluster (s : State) (a1) (a2) : (State.fillCluster s a1 a2).mem = s.mem := by
  rfl

@[simp] theorem mem_State_fillCore (s : State) (a1) (a2) : (State.fillCore s a1 a2).mem = s.mem := by
  rfl

@[simp] theorem mem_State_translate (s : State) (a1) (a2) (a3) (a4) : (State.translate s a1 a2 a3 a4).1.mem = s.mem := by
  unfold State.translate; try dsimp only
  repeat' split
  all_goals first | assumption | rfl | (simp; done) | (simp_all; done) | (simp only [Prod.ext_iff] at *; casesm* _ ∧ _; subst_vars; simp_all; done)

@[simp] theorem mem_State_refresh (s : State) (a1) : (State.refresh s a1).mem = s.mem := by
  simp [State.refresh]

@[simp] theorem mem_State_resolve (s : State) (a1) (a2) (a3) (a4) : (State.resolve s a1 a2 a3 a4).1.mem = s.mem := by
  unfold State.resolve; try dsimp only
  repeat' split
  all_goals first | assumption | rfl | (simp; done) | (simp_all; done) | (simp only [Prod.ext_iff] at *; casesm* _ ∧ _; subst_vars; simp_all; done)

@[simp] theorem mem_State_flagLanded (s : State) (a1) (a2) : (State.flagLanded s a1 a2).mem = s.mem := by
  simp [State.flagLanded]

@[simp] theorem mem_State_touchRange (s : State) (a1) (a2) (a3) : (State.touchRange s a1 a2 a3).mem = s.mem := by
  simp [State.touchRange, foldl_memS]

@[simp] theorem ok_State_lockedWrite (s : State) (a1) (a2) (a3) (a4) (h : Memory.wf s.mem = true) : Memory.wf (State.lockedWrite s a1 a2 a3 a4).mem = true := by
  unfold State.lockedWrite; dsimp only
  split <;> simp [h]

@[simp] theorem ok_State_homeWrite (s : State) (a1) (a2) (a3) (a4) (h : Memory.wf s.mem = true) : Memory.wf (State.homeWrite s a1 a2 a3 a4).mem = true := by
  simp [State.homeWrite, h]

@[simp] theorem mem_State_dropFills (s : State) (a1) (a2) : (State.dropFills s a1 a2).mem = s.mem := by
  simp [State.dropFills]

@[simp] theorem mem_State_dropValid (s : State) (a1) (a2) : (State.dropValid s a1 a2).mem = s.mem := by
  simp [State.dropValid]

@[simp] theorem mem_State_dropRange (s : State) (a1) (a2) (a3) : (State.dropRange s a1 a2 a3).mem = s.mem := by
  simp [State.dropRange]

@[simp] theorem mem_State_updateValid (s : State) (a1) (a2) (a3) : (State.updateValid s a1 a2 a3).mem = s.mem := by
  simp [State.updateValid]

@[simp] theorem ok_State_performStore (s : State) (a1) (a2) (h : Memory.wf s.mem = true) : Memory.wf (State.performStore s a1 a2).mem = true := by
  unfold State.performStore; try dsimp only
  repeat' split
  all_goals first | assumption | rfl | (simp [h]; done) | (simp_all; done) | (simp only [Prod.ext_iff] at *; casesm* _ ∧ _; subst_vars; simp_all; done)

@[simp] theorem ok_State_drainOne (s : State) (a1) (h : Memory.wf s.mem = true) : Memory.wf (State.drainOne s a1).mem = true := by
  unfold State.drainOne; try dsimp only
  repeat' split
  all_goals first | assumption | rfl | (simp [h]; done) | (simp_all; done) | (simp only [Prod.ext_iff] at *; casesm* _ ∧ _; subst_vars; simp_all; done)

@[simp] theorem ok_State_drain (s : State) (a1) (h : Memory.wf s.mem = true) : Memory.wf (State.drain s a1).mem = true := by
  unfold State.drain; try dsimp only
  all_goals simp_all [foldl_okS]

@[simp] theorem ok_State_sendAllU (s : State) (a1) (h : Memory.wf s.mem = true) : Memory.wf (State.sendAllU s a1).mem = true := by
  unfold State.sendAllU; try dsimp only
  all_goals simp_all [foldl_okS]

@[simp] theorem ok_State_flushCore (s : State) (a1) (h : Memory.wf s.mem = true) : Memory.wf (State.flushCore s a1).mem = true := by
  simp [State.flushCore, h]

@[simp] theorem ok_State_privateWrite (s : State) (a1) (a2) (h : Memory.wf s.mem = true) : Memory.wf (State.privateWrite s a1 a2).mem = true := by
  simp [State.privateWrite, h]

@[simp] theorem mem_State_rspPeaked (s : State) (a1) : (State.rspPeaked s a1).mem = s.mem := by
  unfold State.rspPeaked; dsimp only
  split <;> rfl

@[simp] theorem ok_State_spillWrite (s : State) (a1) (a2) (h : Memory.wf s.mem = true) : Memory.wf (State.spillWrite s a1 a2).mem = true := by
  simp [State.spillWrite, h]

@[simp] theorem ok_State_spillBytes (s : State) (a1) (a2) (h : Memory.wf s.mem = true) : Memory.wf (State.spillBytes s a1 a2).mem = true := by
  simp [State.spillBytes, h]

@[simp] theorem mem_State_unlockLines (s : State) (a1) : (State.unlockLines s a1).mem = s.mem := by
  simp [State.unlockLines, foldl_memS]

@[simp] theorem ok_State_release (s : State) (a1) (h : Memory.wf s.mem = true) : Memory.wf (State.release s a1).mem = true := by
  simp [State.release, h]

@[simp] theorem mem_State_acquire (s : State) (a1) : (State.acquire s a1).mem = s.mem := by
  simp [State.acquire]

@[simp] theorem ok_State_allocLine (s : State) (a1) (a2) (h : Memory.wf s.mem = true) : Memory.wf (State.allocLine s a1 a2).mem = true := by
  unfold State.allocLine; try dsimp only
  repeat' split
  all_goals first | assumption | rfl | (simp [h]; done) | (simp_all; done) | (simp only [Prod.ext_iff] at *; casesm* _ ∧ _; subst_vars; simp_all; done)

@[simp] theorem ok_State_fillLine (s : State) (a1) (a2) (a3) (a4) (a5) (h : Memory.wf s.mem = true) : Memory.wf (State.fillLine s a1 a2 a3 a4 a5).mem = true := by
  simp [State.fillLine, h]

@[simp] theorem ok_State_l1Load (s : State) (a1) (a2) (a3) (h : Memory.wf s.mem = true) : Memory.wf (State.l1Load s a1 a2 a3).1.mem = true := by
  unfold State.l1Load; try dsimp only
  repeat' split
  all_goals first | assumption | rfl | (simp [h]; done) | (simp_all; done) | (simp only [Prod.ext_iff] at *; casesm* _ ∧ _; subst_vars; simp_all; done)

@[simp] theorem ok_State_bufferStore (s : State) (a1) (a2) (a3) (a4) (a5) (h : Memory.wf s.mem = true) : Memory.wf (State.bufferStore s a1 a2 a3 a4 a5).mem = true := by
  simp [State.bufferStore, h]

@[simp] theorem ok_State_homeLine (s : State) (a1) (h : Memory.wf s.mem = true) : Memory.wf (State.homeLine s a1).mem = true := by
  simp [State.homeLine, h]

@[simp] theorem ok_State_drainLine (s : State) (a1) (a2) (h : Memory.wf s.mem = true) : Memory.wf (State.drainLine s a1 a2).mem = true := by
  simp [State.drainLine, h]

@[simp] theorem ok_State_drainRange (s : State) (a1) (a2) (a3) (h : Memory.wf s.mem = true) : Memory.wf (State.drainRange s a1 a2 a3).mem = true := by
  unfold State.drainRange; try dsimp only
  all_goals simp_all [foldl_okS]

@[simp] theorem ok_State_engineWrite (s : State) (a1) (a2) (a3) (a4) (a5) (h : Memory.wf s.mem = true) : Memory.wf (State.engineWrite s a1 a2 a3 a4 a5).mem = true := by
  simp [State.engineWrite, h]

@[simp] theorem ok_State_logWrite (s : State) (a1) (h : Memory.wf s.mem = true) : Memory.wf (State.logWrite s a1).mem = true := by
  simp [State.logWrite, h]

@[simp] theorem ok_State_logEntry (s : State) (a1) (a2) (a3) (a4) (h : Memory.wf s.mem = true) : Memory.wf (State.logEntry s a1 a2 a3 a4).mem = true := by
  simp [State.logEntry, h]

@[simp] theorem ok_State_logIn (s : State) (a1) (a2) (a3) (a4) (h : Memory.wf s.mem = true) : Memory.wf (State.logIn s a1 a2 a3 a4).mem = true := by
  simp [State.logIn, h]

@[simp] theorem ok_State_logReg (s : State) (a1) (a2) (a3) (h : Memory.wf s.mem = true) : Memory.wf (State.logReg s a1 a2 a3).mem = true := by
  simp [State.logReg, h]

@[simp] theorem ok_State_logBlock (s : State) (a1) (a2) (a3) (a4) (h : Memory.wf s.mem = true) : Memory.wf (State.logBlock s a1 a2 a3 a4).mem = true := by
  simp [State.logBlock, h]

@[simp] theorem ok_State_logRead (s : State) (a1) (a2) (a3) (a4) (h : Memory.wf s.mem = true) : Memory.wf (State.logRead s a1 a2 a3 a4).mem = true := by
  unfold State.logRead; try dsimp only
  all_goals simp_all [foldl_okS]

@[simp] theorem mem_State_sampled (s : State) (a1) : (State.sampled s a1).mem = s.mem := by
  simp [State.sampled]

@[simp] theorem mem_State_setPtab (s : State) (a1) : (State.setPtab s a1).mem = s.mem := by
  rfl

@[simp] theorem mem_State_ptClear (s : State) (a1) (a2) : (State.ptClear s a1 a2).mem = s.mem := by
  rfl

@[simp] theorem mem_State_ptIssued (s : State) (a1) : (State.ptIssued s a1).mem = s.mem := by
  simp [State.ptIssued]

@[simp] theorem mem_State_ptMake (s : State) (a1) (a2) (a3) (a4) : (State.ptMake s a1 a2 a3 a4).mem = s.mem := by
  unfold State.ptMake; try dsimp only
  repeat' split
  all_goals first | assumption | rfl | (simp; done) | (simp_all; done) | (simp only [Prod.ext_iff] at *; casesm* _ ∧ _; subst_vars; simp_all; done)

@[simp] theorem ok_State_applyPartial (s : State) (a1) (a2) (h : Memory.wf s.mem = true) : Memory.wf (State.applyPartial s a1 a2).mem = true := by
  simp [State.applyPartial, h]

@[simp] theorem ok_State_abandonEpoch (s : State) (a1) (h : Memory.wf s.mem = true) : Memory.wf (State.abandonEpoch s a1).mem = true := by
  unfold State.abandonEpoch; try dsimp only
  all_goals simp_all [foldl_okS]

@[simp] theorem mem_State_unreserve (s : State) (a1) (a2) : (State.unreserve s a1 a2).mem = s.mem := by
  rfl

@[simp] theorem mem_State_leaveScr (s : State) (a1) (a2) : (State.leaveScr s a1 a2).mem = s.mem := by
  rfl

@[simp] theorem ok_State_endGrid (s : State) (a1) (a2) (a3) (h : Memory.wf s.mem = true) : Memory.wf (State.endGrid s a1 a2 a3).mem = true := by
  unfold State.endGrid; try dsimp only
  all_goals simp_all [foldl_okS]

@[simp] theorem ok_State_fatal (s : State) (a1) (a2) (h : Memory.wf s.mem = true) : Memory.wf (State.fatal s a1 a2).mem = true := by
  simp [State.fatal, h]

@[simp] theorem ok_State_doubleTrap (s : State) (h : Memory.wf s.mem = true) : Memory.wf (State.doubleTrap s).mem = true := by
  simp [State.doubleTrap, h]

@[simp] theorem ok_State_trapEntry (s : State) (a1) (a2) (a3) (a4) (a5) (h : Memory.wf s.mem = true) : Memory.wf (State.trapEntry s a1 a2 a3 a4 a5).mem = true := by
  simp [State.trapEntry, h]

@[simp] theorem mem_State_trapReturn (s : State) : (State.trapReturn s).mem = s.mem := by
  unfold State.trapReturn; try dsimp only
  repeat' split
  all_goals first | assumption | rfl | (simp; done) | (simp_all; done) | (simp only [Prod.ext_iff] at *; casesm* _ ∧ _; subst_vars; simp_all; done)

@[simp] theorem mem_State_logState (s : State) : (State.logState s).mem = s.mem := by
  simp [State.logState]

@[simp] theorem ok_State_finish (s : State) (a1) (a2) (h : Memory.wf s.mem = true) : Memory.wf (State.finish s a1 a2).mem = true := by
  unfold State.finish; try dsimp only
  repeat' split
  all_goals first | assumption | rfl | (simp [h]; done) | (simp_all; done) | (simp only [Prod.ext_iff] at *; casesm* _ ∧ _; subst_vars; simp_all; done)

@[simp] theorem mem_State_stallAt (s : State) (a1) : (State.stallAt s a1).mem = s.mem := by
  rfl

@[simp] theorem ok_State_finishHandler (s : State) (a1) (h : Memory.wf s.mem = true) : Memory.wf (State.finishHandler s a1).mem = true := by
  simp [State.finishHandler, h]

@[simp] theorem mem_State_owe (s : State) (a1) : (State.owe s a1).mem = s.mem := by
  simp [State.owe]

@[simp] theorem ok_State_endIssue (s : State) (a1) (h : Memory.wf s.mem = true) : Memory.wf (State.endIssue s a1).mem = true := by
  simp [State.endIssue, h]

@[simp] theorem mem_State_atHandler (s : State) : (State.atHandler s).mem = s.mem := by
  rfl

@[simp] theorem mem_State_atIssue (s : State) (a1) : (State.atIssue s a1).mem = s.mem := by
  simp [State.atIssue]

@[simp] theorem ok_State_writeRecs (s : State) (a1) (h : Memory.wf s.mem = true) : Memory.wf (State.writeRecs s a1).1.mem = true := by
  unfold State.writeRecs; try dsimp only
  all_goals simp_all [foldl_okP]

@[simp] theorem mem_State_sendLoad (s : State) (a1) (a2) (a3) (a4) (a5) (a6) (a7) : (State.sendLoad s a1 a2 a3 a4 a5 a6 a7).1.mem = s.mem := by
  unfold State.sendLoad; try dsimp only
  repeat' split
  all_goals first | assumption | rfl | (simp; done) | (simp_all; done) | (simp only [Prod.ext_iff] at *; casesm* _ ∧ _; subst_vars; simp_all; done)

@[simp] theorem mem_State_fetch (s : State) (a1) (a2) : (State.fetch s a1 a2).1.mem = s.mem := by
  unfold State.fetch; try dsimp only
  repeat' split
  all_goals first | assumption | rfl | (simp; done) | (simp_all; done) | (simp only [Prod.ext_iff] at *; casesm* _ ∧ _; subst_vars; simp_all; done)

@[simp] theorem mem_State_target (s : State) (a1) : (State.target s a1).1.mem = s.mem := by
  unfold State.target; try dsimp only
  repeat' split
  all_goals first | assumption | rfl | (simp; done) | (simp_all; done) | (simp only [Prod.ext_iff] at *; casesm* _ ∧ _; subst_vars; simp_all; done)

@[simp] theorem mem_State_mapRun (s : State) (a1) (a2) (a3) : (State.mapRun s a1 a2 a3).1.mem = s.mem := by
  unfold State.mapRun; try dsimp only
  rw [foldl_memP _ _ _ (fun s x => ?_)]
  try dsimp only
  repeat' split
  all_goals first | assumption | rfl | (simp; done) | (simp_all; done) | (simp only [Prod.ext_iff] at *; casesm* _ ∧ _; subst_vars; simp_all; done)

@[simp] theorem mem_State_lockedRead (s : State) (a1) (a2) (a3) : (State.lockedRead s a1 a2 a3).1.mem = s.mem := by
  simp [State.lockedRead]

@[simp] theorem ok_State_homeBytes (s : State) (a1) (a2) (a3) (h : Memory.wf s.mem = true) : Memory.wf (State.homeBytes s a1 a2 a3).1.mem = true := by
  simp [State.homeBytes, h]

@[simp] theorem ok_State_unitBytes (s : State) (a1) (a2) (a3) (a4) (h : Memory.wf s.mem = true) : Memory.wf (State.unitBytes s a1 a2 a3 a4).1.mem = true := by
  simp [State.unitBytes, h]

@[simp] theorem ok_State_readParts (s : State) (a1) (a2) (a3) (a4) (h : Memory.wf s.mem = true) : Memory.wf (State.readParts s a1 a2 a3 a4).1.mem = true := by
  unfold State.readParts; try dsimp only
  refine foldl_okP _ _ _ (fun s x h => ?_) h
  try dsimp only
  repeat' split
  all_goals first | assumption | rfl | (simp [h]; done) | (simp_all; done) | (simp only [Prod.ext_iff] at *; casesm* _ ∧ _; subst_vars; simp_all; done)

@[simp] theorem ok_State_writeParts (s : State) (a1) (a2) (a3) (a4) (a5) (h : Memory.wf s.mem = true) : Memory.wf (State.writeParts s a1 a2 a3 a4 a5).mem = true := by
  unfold State.writeParts; try dsimp only
  refine foldl_okP _ _ _ (fun s x h => ?_) h
  try dsimp only
  repeat' split
  all_goals first | assumption | rfl | (simp [h]; done) | (simp_all; done) | (simp only [Prod.ext_iff] at *; casesm* _ ∧ _; subst_vars; simp_all; done)

@[simp] theorem did_State_runFault (s : State) (a1) (a2) (a3) (a4) (h : Memory.wf s.mem = true) : (State.runFault s a1 a2 a3 a4).Ok := by
  unfold State.runFault; try dsimp only
  repeat' split
  all_goals first | assumption | rfl | (simp [h]; done) | (simp_all; done) | (simp only [Prod.ext_iff] at *; casesm* _ ∧ _; subst_vars; simp_all; done)

@[simp] theorem did_State_withRun (s : State) (a1) (a2) (a3) (a4) (a5) (ha5 : ∀ y0 y1, Memory.wf y0.mem = true → (a5 y0 y1).Ok) (h : Memory.wf s.mem = true) : (State.withRun s a1 a2 a3 a4 a5).Ok := by
  unfold State.withRun; try dsimp only
  repeat' split
  all_goals first | assumption | rfl | (simp [h, ha5]; done) | (simp_all; done) | (simp only [Prod.ext_iff] at *; casesm* _ ∧ _; subst_vars; simp_all; done)

@[simp] theorem mem_State_scrWrite (s : State) (a1) (a2) (a3) : (State.scrWrite s a1 a2 a3).mem = s.mem := by
  rfl

@[simp] theorem mem_State_scrPoison (s : State) (a1) (a2) (a3) : (State.scrPoison s a1 a2 a3).mem = s.mem := by
  rfl

@[simp] theorem mem_State_guardTouch (s : State) (a1) (a2) (a3) : (State.guardTouch s a1 a2 a3).mem = s.mem := by
  unfold State.guardTouch; try dsimp only
  repeat' split
  all_goals first | assumption | rfl | (simp; done) | (simp_all; done) | (simp only [Prod.ext_iff] at *; casesm* _ ∧ _; subst_vars; simp_all; done)

@[simp] theorem mem_State_wakeLanes (s : State) (a1) (a2) : (State.wakeLanes s a1 a2).mem = s.mem := by
  rfl

@[simp] theorem mem_State_barPut (s : State) (a1) (a2) : (State.barPut s a1 a2).mem = s.mem := by
  rfl

@[simp] theorem mem_State_overrun (s : State) (a1) : (State.overrun s a1).mem = s.mem := by
  rfl

@[simp] theorem mem_State_designate (s : State) (a1) (a2) : (State.designate s a1 a2).mem = s.mem := by
  rfl

@[simp] theorem mem_State_barUpdate (s : State) (a1) (a2) : (State.barUpdate s a1 a2).mem = s.mem := by
  simp [State.barUpdate]

@[simp] theorem mem_State_barLand (s : State) (a1) (a2) : (State.barLand s a1 a2).mem = s.mem := by
  simp [State.barLand]

@[simp] theorem mem_State_look (s : State) (a1) (a2) (a3) : (State.look s a1 a2 a3).1.mem = s.mem := by
  unfold State.look; try dsimp only
  repeat' split
  all_goals first | assumption | rfl | (simp; done) | (simp_all; done) | (simp only [Prod.ext_iff] at *; casesm* _ ∧ _; subst_vars; simp_all; done)

@[simp] theorem ok_State_remoteLoad (s : State) (a1) (a2) (a3) (a4) (a5) (a6) (a7) (h : Memory.wf s.mem = true) : Memory.wf (State.remoteLoad s a1 a2 a3 a4 a5 a6 a7).1.mem = true := by
  unfold State.remoteLoad; try dsimp only
  repeat' split
  all_goals first | assumption | rfl | (simp [h]; done) | (simp_all; done) | (simp only [Prod.ext_iff] at *; casesm* _ ∧ _; subst_vars; simp_all; done)

@[simp] theorem ok_State_unmet (s0 s : State) (h0 : Memory.wf s0.mem = true) (h : Memory.wf s.mem = true) : Memory.wf (s0.unmet s).mem = true := by
  simp [State.unmet, h0, h]

@[simp] theorem ok_State_cachedRead (s : State) (a b c d) (h : Memory.wf s.mem = true) : Memory.wf (s.cachedRead a b c d).1.mem = true := by
  unfold State.cachedRead
  split <;> rename_i e <;> have h1 := fst_ok e (by simp [h])
  · exact h1
  · extract_lets ln s2
    have h2 : Memory.wf s2.mem = true := by simp [s2, h1]
    clear_value s2
    split <;> simp [h2]

@[simp] theorem ok_State_loadAt (s : State) (a b c d e) (h : Memory.wf s.mem = true) : Memory.wf (s.loadAt a b c d e).1.mem = true := by
  unfold State.loadAt
  repeat' split
  all_goals (try dsimp only); repeat' split
  all_goals simp [h]

@[simp] theorem ok_State_loadLogged (s : State) (a b c d e) (h : Memory.wf s.mem = true) : Memory.wf (s.loadLogged a b c d e).1.mem = true := by
  have h0 := ok_State_loadAt s a b c d e h
  unfold State.loadLogged
  split <;> rename_i e
  · have h1 := fst_ok e h0; simp [h1]
  · exact h0

@[simp] theorem ok_State_fates (s : State) (a1) (a2) (a3) (a4) (a5) (h : Memory.wf s.mem = true) : Memory.wf (State.fates s a1 a2 a3 a4 a5).1.mem = true := by
  unfold State.fates; try dsimp only
  refine foldl_okP _ _ _ (fun s x h => ?_) h
  try dsimp only
  repeat' split
  all_goals first | assumption | rfl | (simp [h]; done) | (simp_all; done) | (simp only [Prod.ext_iff] at *; casesm* _ ∧ _; subst_vars; simp_all; done)

@[simp] theorem did_State_orWait (s : State) (a1) (a2) (a3) (ha3 : a3.Ok) (h : Memory.wf s.mem = true) : (State.orWait s a1 a2 a3).Ok := by
  unfold State.orWait; try dsimp only
  repeat' split
  all_goals first | assumption | rfl | (simp [h, ha3]; done) | (simp_all; done) | (simp only [Prod.ext_iff] at *; casesm* _ ∧ _; subst_vars; simp_all; done)

@[simp] theorem ok_State_beforeRead (s : State) (a1) (a2) (h : Memory.wf s.mem = true) : Memory.wf (State.beforeRead s a1 a2).mem = true := by
  simp [State.beforeRead, h]

@[simp] theorem mem_State_afterRead (s : State) (a1) (a2) : (State.afterRead s a1 a2).mem = s.mem := by
  simp [State.afterRead]

@[simp] theorem ok_State_beforeWrite (s : State) (a1) (a2) (h : Memory.wf s.mem = true) : Memory.wf (State.beforeWrite s a1 a2).mem = true := by
  simp [State.beforeWrite, h]

@[simp] theorem ok_State_afterWrite (s : State) (a1) (a2) (h : Memory.wf s.mem = true) : Memory.wf (State.afterWrite s a1 a2).mem = true := by
  simp [State.afterWrite, h]

@[simp] theorem mem_State_poisonDest (s : State) (a1) (a2) (a3) : (State.poisonDest s a1 a2 a3).mem = s.mem := by
  unfold State.poisonDest; try dsimp only
  repeat' split
  all_goals first | assumption | rfl | (simp; done) | (simp_all; done) | (simp only [Prod.ext_iff] at *; casesm* _ ∧ _; subst_vars; simp_all; done)

@[simp] theorem ok_State_origin (s : State) (a1) (a2) (a3) (a4) (a5) (h : Memory.wf s.mem = true) : Memory.wf (State.origin s a1 a2 a3 a4 a5).1.mem = true := by
  unfold State.origin; try dsimp only
  repeat' split
  all_goals first | assumption | rfl | (simp [h]; done) | (simp_all; done) | (simp only [Prod.ext_iff] at *; casesm* _ ∧ _; subst_vars; simp_all; done)

@[simp] theorem mem_State_sampledIf (s : State) (a1) (a2) : (State.sampledIf s a1 a2).mem = s.mem := by
  simp [State.sampledIf]

@[simp] theorem mem_State_flagStart (s : State) (a1) : (State.flagStart s a1).1.mem = s.mem := by
  unfold State.flagStart; try dsimp only
  repeat' split
  all_goals first | assumption | rfl | (simp; done) | (simp_all; done) | (simp only [Prod.ext_iff] at *; casesm* _ ∧ _; subst_vars; simp_all; done)

@[simp] theorem mem_State_flagEnd (s : State) (a1) : (State.flagEnd s a1).mem = s.mem := by
  unfold State.flagEnd; try dsimp only
  repeat' split
  all_goals first | assumption | rfl | (simp; done) | (simp_all; done) | (simp only [Prod.ext_iff] at *; casesm* _ ∧ _; subst_vars; simp_all; done)

@[simp] theorem ok_State_storeAt (s : State) (a1) (a2) (a3) (a4) (a5) (a6) (h : Memory.wf s.mem = true) : Memory.wf (State.storeAt s a1 a2 a3 a4 a5 a6).mem = true := by
  unfold State.storeAt; try dsimp only
  repeat' split
  all_goals first | assumption | rfl | (simp [h]; done) | (simp_all; done) | (simp only [Prod.ext_iff] at *; casesm* _ ∧ _; subst_vars; simp_all; done)

@[simp] theorem ok_State_readyAtom (s : State) (a1) (a2) (a3) (a4) (a5) (a6) (h : Memory.wf s.mem = true) : Memory.wf (State.readyAtom s a1 a2 a3 a4 a5 a6).1.mem = true := by
  unfold State.readyAtom; try dsimp only
  repeat' split
  all_goals first | assumption | rfl | (simp [h]; done) | (simp_all; done) | (simp only [Prod.ext_iff] at *; casesm* _ ∧ _; subst_vars; simp_all; done)

@[simp] theorem ok_State_atomFates (s : State) (a1) (a2) (a3) (a4) (a5) (h : Memory.wf s.mem = true) : Memory.wf (State.atomFates s a1 a2 a3 a4 a5).1.mem = true := by
  unfold State.atomFates; try dsimp only
  refine foldl_okP _ _ _ (fun s x h => ?_) h
  try dsimp only
  repeat' split
  all_goals first | assumption | rfl | (simp [h]; done) | (simp_all; done) | (simp only [Prod.ext_iff] at *; casesm* _ ∧ _; subst_vars; simp_all; done)

@[simp] theorem ok_State_atomAt (s : State) (a1) (a2) (a3) (h : Memory.wf s.mem = true) : Memory.wf (State.atomAt s a1 a2 a3).1.mem = true := by
  unfold State.atomAt; try dsimp only
  repeat' split
  all_goals first | assumption | rfl | (simp [h]; done) | (simp_all; done) | (simp only [Prod.ext_iff] at *; casesm* _ ∧ _; subst_vars; simp_all; done)

@[simp] theorem mem_State_pmcNow (s : State) (a1) : (State.pmcNow s a1).mem = s.mem := by
  simp [State.pmcNow]

theorem ok_State_traceWrite (s : State) (a1) (a2) (a3) {t : State} (e : State.traceWrite s a1 a2 a3 = some t) (h : Memory.wf s.mem = true) : Memory.wf t.mem = true := by
  unfold State.traceWrite at e; try dsimp only at e
  repeat' split at e
  all_goals first | (cases e; done) | (cases e; simp [h]; done) | (cases e; rfl) | (cases e; simp_all; done) | (simp only [Prod.ext_iff] at *; casesm* _ ∧ _; subst_vars; simp_all; done)

@[simp] theorem mem_State_releaseSeg (s : State) (a1) : (State.releaseSeg s a1).mem = s.mem := by
  simp [State.releaseSeg]

@[simp] theorem mem_State_traceFault (s : State) (a1) : (State.traceFault s a1).mem = s.mem := by
  rfl

@[simp] theorem mem_State_readTime (s : State) : (State.readTime s).mem = s.mem := by
  rfl

theorem ok_State_padSeg (s) (a b) {t : State} (e : State.padSeg s a b = some t) (h : Memory.wf s.mem = true) : Memory.wf t.mem = true := by
  unfold State.padSeg at e
  repeat' split at e
  · cases e; exact h
  · obtain ⟨x, hx, rfl⟩ := Option.map_eq_some_iff.mp e
    have := ok_State_traceWrite _ _ _ _ hx h
    simp [this]
  · cases e; exact h

@[simp] theorem ok_State_packet (s : State) (a b c d) (h : Memory.wf s.mem = true) : Memory.wf (s.packet a b c d).mem = true := by
  unfold State.packet
  dsimp only
  split
  · simp [h]
  · rename_i e; have h1 := ok_State_padSeg _ _ _ e (by simp [h])
    split
    · simp [h1]
    · split
      · simp [h1]
      · rename_i e; have h2 := ok_State_traceWrite _ _ _ _ e h1
        simp [h2]

@[simp] theorem ok_State_traceOn (s : State) (a1) (h : Memory.wf s.mem = true) : Memory.wf (State.traceOn s a1).mem = true := by
  simp [State.traceOn, h]

@[simp] theorem ok_State_traceOff (s : State) (a1) (h : Memory.wf s.mem = true) : Memory.wf (State.traceOff s a1).mem = true := by
  simp [State.traceOff, h]

@[simp] theorem ok_State_stopPacket (s : State) (a1) (a2) (a3) (h : Memory.wf s.mem = true) : Memory.wf (State.stopPacket s a1 a2 a3).mem = true := by
  simp [State.stopPacket, h]

@[simp] theorem ok_State_report (s : State) (a1) (a2) (a3) (h : Memory.wf s.mem = true) : Memory.wf (State.report s a1 a2 a3).mem = true := by
  simp [State.report, h]

@[simp] theorem ok_State_stopGroup (s : State) (a1) (a2) (h : Memory.wf s.mem = true) : Memory.wf (State.stopGroup s a1 a2).mem = true := by
  unfold State.stopGroup; try dsimp only
  repeat' split
  all_goals first | assumption | rfl | (simp [h]; done) | (simp_all; done) | (simp only [Prod.ext_iff] at *; casesm* _ ∧ _; subst_vars; simp_all; done)

@[simp] theorem mem_State_setIss (s : State) (a1) : (State.setIss s a1).mem = s.mem := by
  rfl

@[simp] theorem ok_State_preTrap (s : State) (a1) (h : Memory.wf s.mem = true) : Memory.wf (State.preTrap s a1).mem = true := by
  simp [State.preTrap, h]

@[simp] theorem ok_State_fetchFault (s : State) (a1) (a2) (a3) (h : Memory.wf s.mem = true) : Memory.wf (State.fetchFault s a1 a2 a3).mem = true := by
  simp [State.fetchFault, h]

@[simp] theorem mem_State_passOver (s : State) (a1) (a2) : (State.passOver s a1 a2).mem = s.mem := by
  rfl

@[simp] theorem mem_State_jump (s : State) (a1) (a2) : (State.jump s a1 a2).mem = s.mem := by
  rfl

@[simp] theorem did_State_branchTo (s : State) (a1) (a2) (h : Memory.wf s.mem = true) : (State.branchTo s a1 a2).Ok := by
  unfold State.branchTo; try dsimp only
  repeat' split
  all_goals first | assumption | rfl | (simp [h]; done) | (simp_all; done) | (simp only [Prod.ext_iff] at *; casesm* _ ∧ _; subst_vars; simp_all; done)

@[simp] theorem mem_State_lookAll (s : State) (a1) : (State.lookAll s a1).1.mem = s.mem := by
  unfold State.lookAll; try dsimp only
  rw [foldl_memP _ _ _ (fun s x => ?_)]
  try dsimp only
  repeat' split
  all_goals first | assumption | rfl | (simp; done) | (simp_all; done) | (simp only [Prod.ext_iff] at *; casesm* _ ∧ _; subst_vars; simp_all; done)

@[simp] theorem mem_State_slideNames (s : State) (a1) : (State.slideNames s a1).mem = s.mem := by
  rfl

@[simp] theorem mem_State_renameCall (s : State) (a1) : (State.renameCall s a1).mem = s.mem := by
  rfl

@[simp] theorem mem_State_renameRet (s : State) (a1) : (State.renameRet s a1).mem = s.mem := by
  rfl

@[simp] theorem did_State_returnSite (s : State) (a1) (ha1 : ∀ y0 y1, Memory.wf y0.mem = true → (a1 y0 y1).Ok) (h : Memory.wf s.mem = true) : (State.returnSite s a1).Ok := by
  unfold State.returnSite; try dsimp only
  repeat' split
  all_goals first | assumption | rfl | (simp [h, ha1]; done) | (simp_all; done) | (simp only [Prod.ext_iff] at *; casesm* _ ∧ _; subst_vars; simp_all; done)

@[simp] theorem did_State_readGroupReg (s : State) (a1) (a2) (a3) (h : Memory.wf s.mem = true) : (State.readGroupReg s a1 a2 a3).Ok := by
  unfold State.readGroupReg; try dsimp only
  repeat' split
  all_goals first | assumption | rfl | (simp [h]; done) | (simp_all; done) | (simp only [Prod.ext_iff] at *; casesm* _ ∧ _; subst_vars; simp_all; done)

@[simp] theorem did_State_writeTrapReg (s : State) (a1) (a2) (a3) (ha3 : ∀ y0 y1, Memory.wf y0.mem = true → (a3 y0 y1).Ok) (h : Memory.wf s.mem = true) : (State.writeTrapReg s a1 a2 a3).Ok := by
  unfold State.writeTrapReg; try dsimp only
  repeat' split
  all_goals first | assumption | rfl | (simp [h, ha3]; done) | (simp_all; done) | (simp only [Prod.ext_iff] at *; casesm* _ ∧ _; subst_vars; simp_all; done)

@[simp] theorem did_State_handlerLane (s : State) (a1) (a2) (a3) (ha3 : ∀ y0 y1 y2, Memory.wf y0.mem = true → (a3 y0 y1 y2).Ok) (h : Memory.wf s.mem = true) : (State.handlerLane s a1 a2 a3).Ok := by
  unfold State.handlerLane; try dsimp only
  repeat' split
  all_goals first | assumption | rfl | (simp [h, ha3]; done) | (simp_all; done) | (simp only [Prod.ext_iff] at *; casesm* _ ∧ _; subst_vars; simp_all; done)

@[simp] theorem ok_State_prefetch (s : State) (a1) (a2) (a3) (h : Memory.wf s.mem = true) : Memory.wf (State.prefetch s a1 a2 a3).mem = true := by
  simp [State.prefetch, h]

@[simp] theorem ok_State_launchBatch (s : State) (a1) (a2) (a3) (h : Memory.wf s.mem = true) : Memory.wf (State.launchBatch s a1 a2 a3).mem = true := by
  simp [State.launchBatch, h]

@[simp] theorem ok_State_closeBatch (s : State) (a1) (a2) (h : Memory.wf s.mem = true) : Memory.wf (State.closeBatch s a1 a2).mem = true := by
  simp [State.closeBatch, h]

@[simp] theorem ok_State_drainNode (s : State) (a1) (a2) (h : Memory.wf s.mem = true) : Memory.wf (State.drainNode s a1 a2).mem = true := by
  unfold State.drainNode; try dsimp only
  all_goals simp_all [foldl_okS]

@[simp] theorem did_State_nodeOf (s : State) (a1) (a2) (a3) (ha3 : ∀ y0, (a3 y0).Ok) (h : Memory.wf s.mem = true) : (State.nodeOf s a1 a2 a3).Ok := by
  unfold State.nodeOf; try dsimp only
  repeat' split
  all_goals first | assumption | rfl | (simp [h, ha3]; done) | (simp_all; done) | (simp only [Prod.ext_iff] at *; casesm* _ ∧ _; subst_vars; simp_all; done)

@[simp] theorem ok_State_sendRecord (s : State) (a1) (a2) (a3) (h : Memory.wf s.mem = true) : Memory.wf (State.sendRecord s a1 a2 a3).mem = true := by
  simp [State.sendRecord, h]

@[simp] theorem ok_State_engRead (s : State) (a1) (a2) (a3) (a4) (a5) (h : Memory.wf s.mem = true) : Memory.wf (State.engRead s a1 a2 a3 a4 a5).1.mem = true := by
  unfold State.engRead; try dsimp only
  repeat' split
  all_goals first | assumption | rfl | (simp [h]; done) | (simp_all; done) | (simp only [Prod.ext_iff] at *; casesm* _ ∧ _; subst_vars; simp_all; done)

@[simp] theorem ok_State_engFetch (s : State) (a1) (a2) (a3) (a4) (h : Memory.wf s.mem = true) : Memory.wf (State.engFetch s a1 a2 a3 a4).mem = true := by
  simp [State.engFetch, h]

@[simp] theorem mem_State_scrPoisonBytes (s : State) (a1) (a2) (a3) : (State.scrPoisonBytes s a1 a2 a3).mem = s.mem := by
  unfold State.scrPoisonBytes
  exact foldl_memS _ _ _ fun s x => by split <;> simp

@[simp] theorem ok_State_engWrite (s : State) (a1) (a2) (a3) (a4) (a5) (a6) (a7) (a8) (a9) (a10) (a11) (a12) (h : Memory.wf s.mem = true) : Memory.wf (State.engWrite s a1 a2 a3 a4 a5 a6 a7 a8 a9 a10 a11 a12).1.mem = true := by
  unfold State.engWrite; try dsimp only
  repeat' split
  all_goals first | assumption | rfl | (simp [h]; done) | (simp_all; done) | (simp only [Prod.ext_iff] at *; casesm* _ ∧ _; subst_vars; simp_all; done)

@[simp] theorem did_State_cmdFault (s : State) (a1) (a2) (h : Memory.wf s.mem = true) : (State.cmdFault s a1 a2).Ok := by
  unfold State.cmdFault; try dsimp only
  repeat' split
  all_goals first | assumption | rfl | (simp [h]; done) | (simp_all; done) | (simp only [Prod.ext_iff] at *; casesm* _ ∧ _; subst_vars; simp_all; done)

@[simp] theorem mem_State_boxPages (s : State) (a1) (a2) (a3) : (State.boxPages s a1 a2 a3).1.mem = s.mem := by
  unfold State.boxPages; try dsimp only
  rw [foldl_memP _ _ _ (fun s x => ?_)]
  try dsimp only
  repeat' split
  all_goals first | assumption | rfl | (simp; done) | (simp_all; done) | (simp only [Prod.ext_iff] at *; casesm* _ ∧ _; subst_vars; simp_all; done)

@[simp] theorem mem_State_startCmd (s : State) (a1) : (State.startCmd s a1).mem = s.mem := by
  rfl

@[simp] theorem mem_State_putPush (s : State) (a1) (a2) (a3) : (State.putPush s a1 a2 a3).mem = s.mem := by
  unfold State.putPush; try dsimp only
  repeat' split
  all_goals first | assumption | rfl | (simp; done) | (simp_all; done) | (simp only [Prod.ext_iff] at *; casesm* _ ∧ _; subst_vars; simp_all; done)

@[simp] theorem mem_State_breakPort (s : State) (a1) (a2) (a3) : (State.breakPort s a1 a2 a3).mem = s.mem := by
  rfl

@[simp] theorem mem_State_breakPorts (s : State) (a1) (a2) (a3) : (State.breakPorts s a1 a2 a3).mem = s.mem := by
  simp [State.breakPorts, foldl_memS]

@[simp] theorem ok_State_settlePatched (set : Mask) (ls : List Nat) (s : State) (h : Memory.wf s.mem = true) : Memory.wf (s.settlePatched set ls).1.mem = true := by
  induction ls generalizing s with
  | nil => exact h
  | cons l ls ih =>
    unfold State.settlePatched
    dsimp only
    split
    · exact ih _ h
    · split <;> rename_i e
      · have h1 := fst_ok e (by simp [h])
        exact ih _ (by split <;> simp [h1])
      · exact fst_ok e (by simp [h])

@[simp] theorem did_State_enterCall (s : State) (a1) (a2) (a3) (a4) (a5) (h : Memory.wf s.mem = true) : (s.enterCall a1 a2 a3 a4 a5).Ok := by
  unfold State.enterCall
  try dsimp only
  repeat' split
  all_goals try dsimp only
  all_goals first
    | (simp [h]; done)
    | (rename_i e; have h1 := fst_ok e (by simp [h]); simp [h1]; done)

@[simp] theorem ok_State_drainNodes (grid n : Nat) (s : State) (h : Memory.wf s.mem = true) : Memory.wf (s.drainNodes grid n).mem = true := by
  induction n generalizing s with
  | zero => exact h
  | succ n ih =>
    unfold State.drainNodes
    split
    · exact ih _ (by simp [h])
    · exact h

@[simp] theorem did_State_copyChecks (s : State) (a1) (a2) (a3) (k : State → List Layout → Option BarName → Did) (hk : ∀ s n v, Memory.wf s.mem = true → (k s n v).Ok) (h : Memory.wf s.mem = true) : (s.copyChecks a1 a2 a3 k).Ok := by
  unfold State.copyChecks
  extract_lets regs addrs
  clear_value regs addrs
  split
  · exact h
  · split
    · exact h
    · exact did_State_cmdFault _ _ _ h
    · extract_lets
      split
      · exact h
      · split
        · exact h
        · rename_i bs _ _
          clear_value bs
          split
          · exact did_State_cmdFault _ _ _ h
          · split
            rename_i e1
            have h1 := fst_ok e1 (by simp [h])
            split
            rename_i e2
            have h2 := fst_ok e2 (by split <;> simp [h1])
            repeat' split
            all_goals first | exact did_State_cmdFault _ _ _ h2 | exact hk _ _ _ h2

theorem ok_State_readBeat (s : State) (a u) {t v} (e : s.readBeat a u = some (t, v)) (h : Memory.wf s.mem = true) : Memory.wf t.mem = true := by
  unfold State.readBeat at e
  split at e
  · cases e; exact h
  · rename_i b _
    dsimp only at e
    have key : ∀ (l : List Nat) (x : Option (State × List Byte × Option (Flt × W64))), (∀ y, x = some y → Memory.wf y.1.mem = true) →
        ∀ y, (l.foldl (fun (x : Option (State × List Byte × Option (Flt × W64))) i =>
          match x with
          | none => none
          | some (s, bs, some e) => some (s, bs, some e)
          | some (s, bs, none) =>
            let pl := s.placeOf b.space (b.addr (b.coords (u.bytes.length / b.eb + i))) b.eb
            match s.engRead .engRead u.fetched b.eb (some u.id) pl with
            | (s, .wait pa) => let _ := pa; let _ := s; none
            | (s, .got d p none) => let _ := p; some (s, bs ++ d, none)
            | (s, .got d p (some f)) => let _ := d; let _ := p; some (s, bs, some (f, match pl with | .va a => a | _ => 0))) x) = some y → Memory.wf y.1.mem = true := by
      intro l
      induction l with
      | nil => intro x hx y hy; exact hx y hy
      | cons i l ih =>
        intro x hx y hy
        refine ih _ ?_ y hy
        intro z hz
        dsimp only at hz
        split at hz
        · cases hz
        · cases hz; exact hx _ rfl
        · have h0 := hx _ rfl
          try dsimp only at hz
          split at hz
          · cases hz
          · rename_i e; cases hz; exact fst_ok e (by simp [h0])
          · rename_i e; cases hz; exact fst_ok e (by simp [h0])
    split at e
    · cases e
    · rename_i e2; cases e; exact key _ _ (by intro y hy; cases hy; exact h) _ e2
    · rename_i e2; cases e
      have := key _ _ (by intro y hy; cases hy; exact h) _ e2
      simp [this]

@[simp] theorem ok_State_beatFetch (s : State) (a b) (h : Memory.wf s.mem = true) : Memory.wf (s.beatFetch a b).mem = true := by
  unfold State.beatFetch
  split
  · exact h
  · refine foldl_okS _ _ _ (fun s x h => ?_) h
    split
    all_goals rename_i e; have e := fst_ok e (by simp [h]); simp [e]

@[simp] theorem mem_State_blockFlts (s : State) (a1) (a2) (a3) (a4) (a5) : (State.blockFlts s a1 a2 a3 a4 a5).1.mem = s.mem := by
  unfold State.blockFlts; try dsimp only
  rw [foldl_memP _ _ _ (fun s x => ?_)]
  try dsimp only
  repeat' split
  all_goals first | assumption | rfl | (simp; done) | (simp_all; done) | (simp only [Prod.ext_iff] at *; casesm* _ ∧ _; subst_vars; simp_all; done)

@[simp] theorem did_State_stashChecks (s : State) (a1) (a2) (a3) (a4) (ha4 : ∀ y0 y1, Memory.wf y0.mem = true → (a4 y0 y1).Ok) (h : Memory.wf s.mem = true) : (State.stashChecks s a1 a2 a3 a4).Ok := by
  unfold State.stashChecks; try dsimp only
  repeat' split
  all_goals first | assumption | rfl | (simp [h, ha4]; done) | (simp_all; done) | (simp only [Prod.ext_iff] at *; casesm* _ ∧ _; subst_vars; simp_all; done)

@[simp] theorem ok_State_readBlock (s : State) (a1) (a2) (a3) (a4) (h : Memory.wf s.mem = true) : Memory.wf (State.readBlock s a1 a2 a3 a4).1.mem = true := by
  simp [State.readBlock, h]

@[simp] theorem ok_State_restoreBlocks (s : State) (a1) (a2) (a3) (a4) (h : Memory.wf s.mem = true) : Memory.wf (State.restoreBlocks s a1 a2 a3 a4).1.mem = true := by
  unfold State.restoreBlocks; try dsimp only
  refine foldl_okP _ _ _ (fun s x h => ?_) h
  try dsimp only
  repeat' split
  all_goals first | assumption | rfl | (simp [h]; done) | (simp_all; done) | (simp only [Prod.ext_iff] at *; casesm* _ ∧ _; subst_vars; simp_all; done)

theorem ok_State_noteFlts {s t : State} {a b c x} (e : s.noteFlts a b c = some (t, x)) (h : Memory.wf s.mem = true) : Memory.wf t.mem = true := by
  unfold State.noteFlts at e
  dsimp only at e
  split at e
  · cases e
  · exact fst_ok (Option.some.inj e) (by simp [h])

@[simp] theorem did_State_stashTrap (s : State) (a1) (a2) (a3) (h : Memory.wf s.mem = true) : (s.stashTrap a1 a2 a3).Ok := by
  unfold State.stashTrap
  split
  · exact h
  · rename_i e; rw [Did.Ok_done, mem_State_sampled]; exact ok_State_noteFlts e h

@[simp] theorem did_State_restoreRegs (s : State) (a1) (a2) (a3) (h : Memory.wf s.mem = true) : (s.restoreRegs a1 a2 a3).Ok := by
  unfold State.restoreRegs
  split
  rename_i e; have h1 := fst_ok e (by simp [h])
  split
  · exact h1
  · split
    · exact h1
    · rename_i e; have h2 := ok_State_noteFlts e h1
      dsimp only
      split
      · exact h2
      · have hf : ∀ (ls js : List Nat) (v : Nat → Nat → List Byte) (w : Nat → Nat → List Bool) (s : State), Memory.wf s.mem = true →
            Memory.wf (ls.foldl (fun s l => js.foldl (fun s j => s.logIn .restore l (v l j) (w l j)) s) s).mem = true := by
          intro ls js v w s h
          exact foldl_okS _ _ _ (fun s x h => foldl_okS _ _ _ (fun s y h => by simp [h]) h) h
        rw [Did.Ok_done, mem_State_sampled, mem_State_flagEnd]
        split
        · exact hf _ _ _ _ _ (by simp [h2])
        · rw [mem_State_ptMake]; exact hf _ _ _ _ _ (by simp [h2])

end Sys2Proof.Machine
end

