-- ==== Sys2Proof/Laws/MemUnits.lean ====
section
/-! SUPPORT. What the shared operations over the state do to memory, second half, as in Laws/MemState.lean. -/

set_option maxRecDepth 100000

namespace Sys2Proof.Machine

@[simp] theorem did_State_restoreScr (s : State) (a1) (a2) (a3) (h : Memory.wf s.mem = true) : (State.restoreScr s a1 a2 a3).Ok := by
  unfold State.restoreScr; try dsimp only
  repeat' split
  all_goals first | assumption | rfl | (simp [h]; done) | (simp_all; done) | (simp only [Prod.ext_iff] at *; casesm* _ ∧ _; subst_vars; simp_all; done)

@[simp] theorem mem_State_raiseIn (s : State) (a1) (a2) (a3) : (State.raiseIn s a1 a2 a3).mem = s.mem := by
  rfl

@[simp] theorem ok_State_landBytes (s : State) (a1) (a2) (h : Memory.wf s.mem = true) : Memory.wf (State.landBytes s a1 a2).1.mem = true := by
  unfold State.landBytes; try dsimp only
  repeat' split
  all_goals first | assumption | rfl | (simp [h]; done) | (simp_all; done) | (simp only [Prod.ext_iff] at *; casesm* _ ∧ _; subst_vars; simp_all; done)

theorem pick_ok {s t : State} {a : Nat} {u v : Push} {c : Prop} [Decidable c] (e : (if c then s.readBeat a u else some (s, u)) = some (t, v)) (h : Memory.wf s.mem = true) :
    Memory.wf t.mem = true := by
  split at e
  · exact ok_State_readBeat _ _ _ e h
  · cases e; exact h

@[simp] theorem ok_State_acceptBeat (s : State) (a b c) (h : Memory.wf s.mem = true) : Memory.wf (s.acceptBeat a b c).1.mem = true := by
  unfold State.acceptBeat
  extract_lets t
  split
  · exact h
  · extract_lets _ s1 _ _
    have h1 : Memory.wf s1.mem = true := by simp only [s1]; split <;> simp [h]
    clear_value s1
    split
    · exact h1
    · split
      · simp [h1]
      · split
        · exact h1
        · split
          · exact h1
          · split
            · simp [h1]
            · rename_i e; have h2 := pick_ok e h1
              dsimp only; split <;> simp [h2]

@[simp] theorem ok_State_acceptBeats (s : State) (a b c n) (h : Memory.wf s.mem = true) : Memory.wf (s.acceptBeats a b c n).mem = true := by
  induction n generalizing s with
  | zero => exact h
  | succ n ih => unfold State.acceptBeats; dsimp only; repeat' split <;> simp [h, ih]

@[simp] theorem mem_State_tapePut (s : State) (a1) (a2) : (State.tapePut s a1 a2).mem = s.mem := by
  simp [State.tapePut, foldl_memP]

@[simp] theorem mem_State_tapePoison (s : State) (a1) (a2) : (State.tapePoison s a1 a2).mem = s.mem := by
  simp [State.tapePoison, foldl_memS]

@[simp] theorem mem_State_modTape (s : State) (a1) : (State.modTape s a1).mem = s.mem := by
  rfl

@[simp] theorem ok_State_landOne (s : State) (a1) (a2) (h : Memory.wf s.mem = true) : Memory.wf (s.landOne a1 a2).1.mem = true := by
  unfold State.landOne
  extract_lets s1
  have h1 : Memory.wf s1.mem = true := by simp [s1, h]
  clear_value s1
  split
  · exact h1
  · split
    split
    · exact h1
    · split <;> rename_i e <;> have h2 := fst_ok e (by simp [h1])
      · exact h2
      · extract_lets s2 acc
        have h3 : Memory.wf s2.mem = true := by simp only [s2]; split <;> simp [h2]
        clear_value s2
        split
        · exact h3
        · split
          rename_i e; have h4 := fst_ok e (by simp [h3])
          extract_lets s3 s4
          have h5 : Memory.wf s3.mem = true := by simp only [s3]; split <;> simp [h4]
          have h6 : Memory.wf s4.mem = true := by
            simp only [s4]; repeat' split
            all_goals simp [h5]
          clear_value s3 s4
          repeat' split
          all_goals try dsimp only
          all_goals repeat' split
          all_goals simp +zetaDelta [h6]

@[simp] theorem ok_State_landMany (s : State) (a b n) (h : Memory.wf s.mem = true) : Memory.wf (s.landMany a b n).mem = true := by
  induction n generalizing s with
  | zero => exact h
  | succ n ih => unfold State.landMany; dsimp only; repeat' split <;> simp [h, ih]

def Moved.st : Moved → State | .done s => s | .held s => s | .over s => s | .noPlace s => s | .wait s => s

theorem ok_State_tapeHold (s : State) (a b c) (h : Memory.wf s.mem = true) : Memory.wf (s.tapeHold a b c).st.mem = true := by
  simp only [State.tapeHold]
  generalize List.map _ c = recs
  by_cases hc : (a && decide (s.recordRoom < recs.length)) = true
  · simpa only [hc, if_true, Moved.st] using h
  · simp only [hc, Bool.false_eq_true, if_false, Moved.st, mem_State_modTape]
    split
    · simp [h]
    · exact foldl_okS _ _ _ (fun s x h => by simp [h]) h

theorem ok_State_spillOne (s : State) (a) (h : Memory.wf s.mem = true) : Memory.wf (s.spillOne a).st.mem = true := by
  unfold State.spillOne
  repeat' split
  all_goals (try exact h)
  · rename_i e; have h1 := fst_ok e (by simp [h])
    simp [Moved.st, h1]
  · rename_i e; have h1 := fst_ok e (by simp [h])
    exact ok_State_tapeHold _ _ _ _ h1

@[simp] theorem ok_State_readSegment (s : State) (a1) (h : Memory.wf s.mem = true) : Memory.wf (State.readSegment s a1).1.mem = true := by
  unfold State.readSegment; try dsimp only
  refine foldl_okP _ _ _ (fun s x h => ?_) h
  try dsimp only
  repeat' split
  all_goals first | assumption | rfl | (simp [h]; done) | (simp_all; done) | (simp only [Prod.ext_iff] at *; casesm* _ ∧ _; subst_vars; simp_all; done)

@[simp] theorem ok_State_askSegment (s : State) (a1) (h : Memory.wf s.mem = true) : Memory.wf (State.askSegment s a1).mem = true := by
  simp [State.askSegment, h]

@[simp] theorem ok_State_spillToHalf (s : State) (n) (h : Memory.wf s.mem = true) : Memory.wf (s.spillToHalf n).mem = true := by
  induction n generalizing s with
  | zero => exact h
  | succ n ih =>
    unfold State.spillToHalf
    have := ok_State_spillOne s false h
    split
    · exact h
    · split <;> rename_i e <;> rw [e] at this <;> first | exact this | exact ih _ this

@[simp] theorem mem_State_dropTape (s : State) (a1) (a2) : (State.dropTape s a1 a2).mem = s.mem := by
  simp [State.dropTape]

@[simp] theorem mem_State_tapeEnded (s : State) (a1) : (State.tapeEnded s a1).mem = s.mem := by
  unfold State.tapeEnded; try dsimp only
  repeat' split
  all_goals first | assumption | rfl | (simp; done) | (simp_all; done) | (simp only [Prod.ext_iff] at *; casesm* _ ∧ _; subst_vars; simp_all; done)

theorem ok_State_makeRoom (s : State) (a n) (h : Memory.wf s.mem = true) : Memory.wf (s.makeRoom a n).st.mem = true := by
  induction n generalizing s with
  | zero => exact h
  | succ n ih =>
    unfold State.makeRoom
    have := ok_State_spillOne s true h
    split
    · exact h
    · split <;> rename_i e
      · rw [e] at this; exact ih _ this
      · exact this

@[simp] theorem did_State_push (s : State) (a1) (a2) (a3) (a4) (a5) (a6) (a7) (h : Memory.wf s.mem = true) : (s.push a1 a2 a3 a4 a5 a6 a7).Ok := by
  unfold State.push
  extract_lets s1 ws
  have h0 := fun a n => ok_State_makeRoom s1 a n (by simp [s1, h])
  split
  split <;> rename_i e
  all_goals have h2 := congrArg Moved.st e ▸ h0 _ _
  · exact h2
  · exact h2
  · exact h2
  · exact h2
  · dsimp only
    rw [Did.Ok_done]
    simp only [mem_State_flagEnd, mem_State_modG, mem_State_modTape]
    replace h2 : Memory.wf (Moved.st (.done _)).mem = true := h2
    simp only [Moved.st] at h2
    exact foldl_okS _ _ _ (fun s x h => by simp [h]) (by simp [h2])

@[simp] theorem did_State_tapeDone (s : State) (a1) (a2) (h : Memory.wf s.mem = true) : (State.tapeDone s a1 a2).Ok := by
  simp [State.tapeDone, h]

theorem ok_State_contribute (s : State) (a1) {t : State} (e : State.contribute s a1 = some t) (h : Memory.wf s.mem = true) : Memory.wf t.mem = true := by
  unfold State.contribute at e; try dsimp only at e
  repeat' split at e
  all_goals first | (cases e; done) | (cases e; simp [h]; done) | (cases e; rfl) | (cases e; simp_all; done) | (simp only [Prod.ext_iff] at *; casesm* _ ∧ _; subst_vars; simp_all; done)

theorem ok_State_fillOne (s : State) (a) (h : Memory.wf s.mem = true) : Memory.wf (s.fillOne a).st.mem = true := by
  unfold State.fillOne
  repeat' split
  all_goals (try exact h)
  all_goals dsimp only
  all_goals repeat' split
  · rename_i e _ _ _ e2; have h1 := fst_ok e2 (by simp [fst_ok e (by simp [h])])
    simp only [Moved.st, mem_State_modTape]
    exact foldl_okS _ _ _ (fun s x h => by split <;> simp [h]) (by simp [h1])
  · rename_i e _ _ _ _ _ e2; have h1 := fst_ok e2 (by simp [fst_ok e (by simp [h])])
    simp only [Moved.st]
    exact foldl_okS _ _ _ (fun s x h => by simp [h]) h1
  · rename_i e; have h1 := fst_ok e (by simp [h])
    exact ok_State_tapeHold _ _ _ _ h1

@[simp] theorem ok_State_fillToHalf (s : State) (n) (h : Memory.wf s.mem = true) : Memory.wf (s.fillToHalf n).mem = true := by
  induction n generalizing s with
  | zero => exact h
  | succ n ih =>
    unfold State.fillToHalf
    have := ok_State_fillOne s false h
    split
    · exact h
    · split <;> rename_i e <;> rw [e] at this <;> first | exact this | exact ih _ this

@[simp] theorem mem_State_foldTarget (s : State) (a b c) : (s.foldTarget a b c).1.mem = s.mem := by
  cases c with
  | nil => rfl
  | cons c l => exact foldl_memP _ _ _ fun s x => rfl

@[simp] theorem mem_State_flushContribs (s : State) (a b c) : (s.flushContribs a b c).mem = s.mem := by
  unfold State.flushContribs
  dsimp only
  exact foldl_memS _ _ _ fun s x => by split <;> simp

@[simp] theorem mem_State_flushCover (s : State) (a1) (a2) (a3) : (State.flushCover s a1 a2 a3).mem = s.mem := by
  simp [State.flushCover]

@[simp] theorem mem_State_teamFlush (s : State) (a1) : (State.teamFlush s a1).mem = s.mem := by
  simp [State.teamFlush]

@[simp] theorem ok_State_retryTape (s : State) (a) (h : Memory.wf s.mem = true) : Memory.wf (s.retryTape a).mem = true := by
  unfold State.retryTape
  extract_lets s1 back x n
  have hs : Memory.wf s1.mem = true := by simp [s1, h]
  clear_value s1
  split
  · exact hs
  · split
    · exact hs
    · rename_i sp _ _
      extract_lets go
      have hx : Memory.wf x.mem = true := by simp [x, hs]
      have hg : ∀ s : State, Memory.wf s.mem = true → Memory.wf (go s).mem = true := by
        intro s h; simp only [go]; repeat' split
        all_goals simp [h]
      clear_value x go
      have h1 : Memory.wf (if sp = true then x.spillOne false else x.fillOne false).st.mem = true := by
        split
        · exact ok_State_spillOne _ _ hx
        · exact ok_State_fillOne _ _ hx
      split <;> rename_i e <;> rw [e] at h1 <;> simp only [Moved.st] at h1
      · exact hg _ h1
      all_goals simp [h1]

@[simp] theorem did_State_popTop (s : State) (a1) (a2) (h : Memory.wf s.mem = true) : (s.popTop a1 a2).Ok := by
  have hf : ∀ (ls : List Nat) (v : Nat → List Reg) (s : State), Memory.wf s.mem = true →
      Memory.wf (ls.foldl (fun s l => (v l).foldl (fun s r => s.logReg .tpop l r) s) s).mem = true :=
    fun ls v s h => foldl_okS _ _ _ (fun s x h => foldl_okS _ _ _ (fun s y h => by simp [h]) h) h
  unfold State.popTop
  extract_lets n top
  split
  · exact h
  · refine Did.ok_ite h ?_
    extract_lets t live vals bad s1 s2 s3
    refine Did.ok_ite h ?_
    have h1 : Memory.wf s1.mem = true := by simp [s1, h]
    have h2 : Memory.wf s2.mem = true := hf _ _ _ (by simp [h1])
    have h3 : Memory.wf s3.mem = true := by simp only [s3]; split <;> simp [h2]
    clear_value s3
    dsimp only
    split <;> simp [h3]

@[simp] theorem mem_State_teamFlushes (s : State) (a n) : (s.teamFlushes a n).mem = s.mem := by
  induction n generalizing s with
  | zero => rfl
  | succ n ih => unfold State.teamFlushes; split <;> simp [ih]

@[simp] theorem mem_State_runFlushes (s : State) (a1) : (State.runFlushes s a1).mem = s.mem := by
  simp [State.runFlushes]

@[simp] theorem ok_State_uAdd (s : State) (a b c d e) (h : Memory.wf s.mem = true) : Memory.wf (s.uAdd a b c d e).mem = true := by
  unfold State.uAdd
  extract_lets core ln off s1 fits s2 s3
  have h1 : Memory.wf s1.mem = true := by simp [s1, h]
  have h2 : Memory.wf s2.mem = true := by
    simp only [s2]; repeat' split
    all_goals simp [h1]
  have h3 : Memory.wf s3.mem = true := by simp only [s3]; split <;> simp [h2]
  clear_value s3
  split
  · exact h3
  · simp [h3]

@[simp] theorem ok_State_redAt (s : State) (a b c d e f i) (h : Memory.wf s.mem = true) : Memory.wf (s.redAt a b c d e f i).1.mem = true := by
  unfold State.redAt
  split
  · extract_lets s1
    have h1 : Memory.wf s1.mem = true := by simp [s1, h]
    clear_value s1
    split
    · rename_i e; exact ok_State_contribute _ _ e h1
    · exact h1
  · split
    · simp [h]
    · simp [h]

@[simp] theorem ok_State_distWord (s : State) (a1) (a2) (a3) (h : Memory.wf s.mem = true) : Memory.wf (State.distWord s a1 a2 a3).1.mem = true := by
  unfold State.distWord; try dsimp only
  repeat' split
  all_goals first | assumption | rfl | (simp [h]; done) | (simp_all; done) | (simp only [Prod.ext_iff] at *; casesm* _ ∧ _; subst_vars; simp_all; done)

@[simp] theorem ok_State_distRead (s : State) (a1) (a2) (a3) (a4) (h : Memory.wf s.mem = true) : Memory.wf (State.distRead s a1 a2 a3 a4).1.mem = true := by
  unfold State.distRead; try dsimp only
  refine foldl_okP _ _ _ (fun s x h => ?_) h
  try dsimp only
  repeat' split
  all_goals first | assumption | rfl | (simp [h]; done) | (simp_all; done) | (simp only [Prod.ext_iff] at *; casesm* _ ∧ _; subst_vars; simp_all; done)

@[simp] theorem mem_State_distForget (s : State) (a1) : (State.distForget s a1).mem = s.mem := by
  rfl

@[simp] theorem ok_State_readGraph (s : State) (a1) (a2) (h : Memory.wf s.mem = true) : Memory.wf (State.readGraph s a1 a2).1.mem = true := by
  unfold State.readGraph; try dsimp only
  repeat' split
  all_goals first | assumption | rfl | (simp [h]; done) | (simp_all; done) | (simp only [Prod.ext_iff] at *; casesm* _ ∧ _; subst_vars; simp_all; done)

@[simp] theorem mem_State_queueVector (s : State) (a1) : (State.queueVector s a1).mem = s.mem := by
  simp [State.queueVector]

@[simp] theorem ok_State_writeDone (s : State) (a1) (a2) (a3) (a4) (h : Memory.wf s.mem = true) : Memory.wf (State.writeDone s a1 a2 a3 a4).mem = true := by
  unfold State.writeDone; try dsimp only
  repeat' split
  all_goals first | assumption | rfl | (simp [h]; done) | (simp_all; done) | (simp only [Prod.ext_iff] at *; casesm* _ ∧ _; subst_vars; simp_all; done)

@[simp] theorem mem_State_setTail (s : State) (a1) (a2) : (State.setTail s a1 a2).mem = s.mem := by
  simp [State.setTail]

@[simp] theorem ok_State_depWord (s : State) (a1) (a2) (a3) (h : Memory.wf s.mem = true) : Memory.wf (State.depWord s a1 a2 a3).1.mem = true := by
  unfold State.depWord; try dsimp only
  repeat' split
  all_goals first | assumption | rfl | (simp [h]; done) | (simp_all; done) | (simp only [Prod.ext_iff] at *; casesm* _ ∧ _; subst_vars; simp_all; done)

@[simp] theorem ok_State_headerFits (s : State) (a1) (a2) (a3) (h : Memory.wf s.mem = true) : Memory.wf (State.headerFits s a1 a2 a3).1.mem = true := by
  unfold State.headerFits; try dsimp only
  repeat' split
  all_goals first | assumption | rfl | (simp [h]; done) | (simp_all; done) | (simp only [Prod.ext_iff] at *; casesm* _ ∧ _; subst_vars; simp_all; done)

theorem mem_State_seat (s : State) (a1) (a2) {t : State} (e : State.seat s a1 a2 = some t) : t.mem = s.mem := by
  unfold State.seat at e; try dsimp only at e
  repeat' split at e
  all_goals first | (cases e; done) | (cases e; simp; done) | (cases e; rfl) | (cases e; simp_all; done) | (simp only [Prod.ext_iff] at *; casesm* _ ∧ _; subst_vars; simp_all; done)

@[simp] theorem mem_State_endKill (s : State) (a1) : (State.endKill s a1).mem = s.mem := by
  simp [State.endKill]

@[simp] theorem ok_State_trapMember (s : State) (a1) (a2) (h : Memory.wf s.mem = true) : Memory.wf (State.trapMember s a1 a2).mem = true := by
  simp [State.trapMember, h]

@[simp] theorem ok_State_gangRetired (s : State) (a1) (h : Memory.wf s.mem = true) : Memory.wf (State.gangRetired s a1).mem = true := by
  unfold State.gangRetired; try dsimp only
  all_goals simp_all [foldl_okS]

@[simp] theorem mem_State_takePort (s : State) (a1) (a2) : (State.takePort s a1 a2).1.mem = s.mem := by
  rfl

@[simp] theorem mem_State_runsFaults (s : State) (a1) : (State.runsFaults s a1).1.mem = s.mem := by
  simp [State.runsFaults, foldl_memP]

@[simp] theorem mem_State_collCount (s : State) (a1) (a2) : (State.collCount s a1 a2).mem = s.mem := by
  simp [State.collCount]

@[simp] theorem mem_State_setStepBit (s : State) (a1) : (State.setStepBit s a1).mem = s.mem := by
  rfl

@[simp] theorem mem_State_dropColl (s : State) (a1) (a2) : (State.dropColl s a1 a2).mem = s.mem := by
  rfl

@[simp] theorem mem_State_setColl (s : State) (a1) (a2) : (State.setColl s a1 a2).mem = s.mem := by
  rfl

@[simp] theorem ok_State_collRecs (s : State) (a1) (a2) (h : Memory.wf s.mem = true) : Memory.wf (State.collRecs s a1 a2).mem = true := by
  unfold State.collRecs; try dsimp only
  all_goals simp_all [foldl_okS]

@[simp] theorem mem_State_countSyncs (s : State) (a1) : (State.countSyncs s a1).mem = s.mem := by
  rfl

@[simp] theorem mem_State_settle (s : State) (a1) : (State.settle s a1).mem = s.mem := by
  simp [State.settle, foldl_memS]

@[simp] theorem mem_State_settleAll (s : State) (a1) : (State.settleAll s a1).mem = s.mem := by
  simp [State.settleAll, foldl_memS]

@[simp] theorem ok_State_applyOpen (s : State) (grid) (ps) (h : Memory.wf s.mem = true) : Memory.wf (s.applyOpen grid ps).mem = true := by
  induction ps generalizing s with
  | nil => exact h
  | cons p ps ih =>
    unfold State.applyOpen
    extract_lets gr s1 s2
    have h1 : Memory.wf s1.mem = true := by
      simp only [s1]
      exact ok_State_applyPartial _ _ _ (foldl_okS _ _ _ (fun s x h => by simp [h]) h)
    have h2 : Memory.wf s2.mem = true := by simp [s2, h1]
    clear_value s2
    split
    · exact h2
    · exact ih _ h2

theorem mem_State_placeTeam {s t : State} {a b c} (e : s.placeTeam a b c = some t) : t.mem = s.mem := by
  unfold State.placeTeam at e
  split at e
  · cases e
  · rename_i u e1
    have h1 := mem_State_seat _ _ _ e1
    dsimp only at e
    cases e
    simp only [mem_State_setTeamAt]
    rw [foldl_memP _ _ _ (fun s x => by simp)]
    simp [h1]

@[simp] theorem mem_State_nextTeams (s : State) (a) : (s.nextTeams a).1.mem = s.mem := by
  unfold State.nextTeams
  extract_lets gr
  split
  · rfl
  · dsimp only
    rw [mem_State_setGridAt, foldl_memP _ _ _ (fun s x => by simp)]

theorem mem_State_placeAll {k ts cs} : ∀ {s t : State}, s.placeAll k ts cs = some t → t.mem = s.mem := by
  induction ts generalizing cs with
  | nil => intro s t e; cases e; rfl
  | cons a l ih =>
    cases cs with
    | nil => intro s t e; cases e
    | cons c cs =>
      intro s t e
      unfold State.placeAll at e
      split at e
      · rename_i e1; rw [ih e, mem_State_placeTeam e1]
      · cases e

theorem mem_State_tryPlace {s t : State} {a b c} (e : s.tryPlace a b c = some t) : t.mem = s.mem := by
  unfold State.tryPlace at e
  split at e
  rename_i e0
  split at e
  · cases e
  · rw [mem_State_placeAll e, fst_mem e0, mem_State_nextTeams]

@[simp] theorem ok_State_enqueue (s : State) (a b) (h : Memory.wf s.mem = true) : Memory.wf (s.enqueue a b).1.mem = true := by
  unfold State.enqueue
  extract_lets x q s1
  have h1 : Memory.wf s1.mem = true := by simp [s1, h]
  clear_value s1
  split
  · exact h1
  · split
    · split <;> simp +zetaDelta [h1]
    · split <;> simp [h1]

@[simp] theorem ok_State_readImage (s : State) (a) (h : Memory.wf s.mem = true) : Memory.wf (s.readImage a).mem = true := by
  unfold State.readImage
  rw [mem_State_setCtxAt]
  exact ok_State_homeView _ _ _ h

@[simp] theorem ok_State_loadCache (s : State) (a) (h : Memory.wf s.mem = true) : Memory.wf (s.loadCache a).mem = true := by
  have h1 := ok_State_readImage s a h
  unfold State.loadCache
  rw [mem_State_setCtxAt]
  exact h1

@[simp] theorem ok_State_saveCache (s : State) (a) (h : Memory.wf s.mem = true) : Memory.wf (s.saveCache a).mem = true := by
  unfold State.saveCache
  extract_lets c bs
  clear_value bs
  exact ok_State_homeWrite _ _ _ _ _ h

@[simp] theorem mem_State_releaseSet (s : State) (a1) : (State.releaseSet s a1).mem = s.mem := by
  simp [State.releaseSet, foldl_memS]

@[simp] theorem ok_State_retireTeam (s : State) (a1) (h : Memory.wf s.mem = true) : Memory.wf (State.retireTeam s a1).mem = true := by
  unfold State.retireTeam; try dsimp only
  all_goals simp_all [foldl_okS]

@[simp] theorem mem_State_saveWait (s : State) (a1) : (State.saveWait s a1).mem = s.mem := by
  unfold State.saveWait; try dsimp only
  repeat' split
  all_goals first | assumption | rfl | (simp; done) | (simp_all; done) | (simp only [Prod.ext_iff] at *; casesm* _ ∧ _; subst_vars; simp_all; done)

@[simp] theorem mem_State_saveTeam (s : State) (a1) : (State.saveTeam s a1).mem = s.mem := by
  simp [State.saveTeam, foldl_memS]

@[simp] theorem ok_State_saveRoom (s : State) (a1) (h : Memory.wf s.mem = true) : Memory.wf (State.saveRoom s a1).1.mem = true := by
  unfold State.saveRoom; try dsimp only
  repeat' split
  all_goals first | assumption | rfl | (simp [h]; done) | (simp_all; done) | (simp only [Prod.ext_iff] at *; casesm* _ ∧ _; subst_vars; simp_all; done)

@[simp] theorem mem_State_dropRequests (s : State) (a1) : (State.dropRequests s a1).mem = s.mem := by
  rfl

@[simp] theorem mem_State_settleResume (s : State) (a1) : (State.settleResume s a1).mem = s.mem := by
  simp [State.settleResume]

@[simp] theorem mem_State_dropReq (s : State) (a1) : (State.dropReq s a1).mem = s.mem := by
  simp [State.dropReq]

@[simp] theorem mem_State_settleWrite (s : State) (a1) : (State.settleWrite s a1).mem = s.mem := by
  unfold State.settleWrite; try dsimp only
  repeat' split
  all_goals first | assumption | rfl | (simp; done) | (simp_all; done) | (simp only [Prod.ext_iff] at *; casesm* _ ∧ _; subst_vars; simp_all; done)

@[simp] theorem mem_State_settleLost (s : State) (a1) (a2) : (State.settleLost s a1 a2).mem = s.mem := by
  unfold State.settleLost; try dsimp only
  repeat' split
  all_goals first | assumption | rfl | (simp; done) | (simp_all; done) | (simp only [Prod.ext_iff] at *; casesm* _ ∧ _; subst_vars; simp_all; done)

@[simp] theorem ok_State_retryHeld (s : State) (a1) (h : Memory.wf s.mem = true) : Memory.wf (State.retryHeld s a1).mem = true := by
  unfold State.retryHeld; try dsimp only
  all_goals simp_all [foldl_okS]

@[simp] theorem mem_State_switchOut (s : State) (a1) : (State.switchOut s a1).mem = s.mem := by
  simp [State.switchOut]

@[simp] theorem ok_State_spillGrid (s : State) (a1) (h : Memory.wf s.mem = true) : Memory.wf (State.spillGrid s a1).mem = true := by
  simp [State.spillGrid, h]

@[simp] theorem mem_State_saveSlots (s : State) (a1) : (State.saveSlots s a1).mem = s.mem := by
  rfl

@[simp] theorem mem_State_mapRows (s : State) (a1) (a2) (a3) : (State.mapRows s a1 a2 a3).1.mem = s.mem := by
  unfold State.mapRows; try dsimp only
  rw [foldl_memP _ _ _ (fun s x => ?_)]
  try dsimp only
  repeat' split
  all_goals first | assumption | rfl | (simp; done) | (simp_all; done) | (simp only [Prod.ext_iff] at *; casesm* _ ∧ _; subst_vars; simp_all; done)

@[simp] theorem mem_State_tileRows (s : State) (a1) (a2) (a3) : (State.tileRows s a1 a2 a3).1.mem = s.mem := by
  simp [State.tileRows]

@[simp] theorem mem_State_tileLook (s : State) (a1) (a2) (a3) : (State.tileLook s a1 a2 a3).1.mem = s.mem := by
  unfold State.tileLook; try dsimp only
  repeat' split
  all_goals first | assumption | rfl | (simp; done) | (simp_all; done) | (simp only [Prod.ext_iff] at *; casesm* _ ∧ _; subst_vars; simp_all; done)

@[simp] theorem mem_State_seen (s : State) (a1) (a2) (a3) : (State.seen s a1 a2 a3).mem = s.mem := by
  unfold State.seen; dsimp only
  rw [mem_State_dropFills]; split <;> rfl

@[simp] theorem ok_State_tileRead (s : State) (a1) (a2) (a3) (h : Memory.wf s.mem = true) : Memory.wf (State.tileRead s a1 a2 a3).1.mem = true := by
  unfold State.tileRead; try dsimp only
  refine foldl_okP _ _ _ (fun s x h => ?_) h
  try dsimp only
  repeat' split
  all_goals first | assumption | rfl | (simp [h]; done) | (simp_all; done) | (simp only [Prod.ext_iff] at *; casesm* _ ∧ _; subst_vars; simp_all; done)

@[simp] theorem mem_State_digestRows (s : State) (a1) (a2) (a3) (a4) : (State.digestRows s a1 a2 a3 a4).mem = s.mem := by
  simp [State.digestRows, foldl_memS]

@[simp] theorem ok_State_logRows (s : State) (a1) (a2) (a3) (a4) (h : Memory.wf s.mem = true) : Memory.wf (State.logRows s a1 a2 a3 a4).mem = true := by
  unfold State.logRows; try dsimp only
  all_goals simp_all [foldl_okS]

@[simp] theorem ok_State_rowWrite (s : State) (a1) (a2) (a3) (a4) (a5) (a6) (h : Memory.wf s.mem = true) : Memory.wf (State.rowWrite s a1 a2 a3 a4 a5 a6).mem = true := by
  simp [State.rowWrite, h]

@[simp] theorem ok_State_tileWrite (s : State) (a1) (a2) (a3) (a4) (a5) (a6) (h : Memory.wf s.mem = true) : Memory.wf (State.tileWrite s a1 a2 a3 a4 a5 a6).mem = true := by
  unfold State.tileWrite; try dsimp only
  all_goals simp_all [foldl_okS]

@[simp] theorem ok_State_drainRecs (s : State) (g n) (h : Memory.wf s.mem = true) : Memory.wf (s.drainRecs g n).mem = true := by
  induction n generalizing s with
  | zero => exact h
  | succ n ih =>
    unfold State.drainRecs
    dsimp only
    repeat' split
    all_goals first | exact h | exact ih _ (by simp [h])

@[simp] theorem ok_State_drainAll (s : State) (a1) (h : Memory.wf s.mem = true) : Memory.wf (State.drainAll s a1).mem = true := by
  simp [State.drainAll, h]

@[simp] theorem ok_State_writeHead (s : State) (a1) (a2) (h : Memory.wf s.mem = true) : Memory.wf (State.writeHead s a1 a2).mem = true := by
  simp [State.writeHead, h]

@[simp] theorem did_State_tilePoison (s : State) (a1) (a2) (a3) (a4) (h : Memory.wf s.mem = true) : (s.tilePoison a1 a2 a3 a4).Ok := by
  unfold State.tilePoison
  split
  · exact h
  · rename_i e; have h1 := ok_State_noteFlts e h
    dsimp only
    split <;> simp [h1]

@[simp] theorem did_State_tileTrap (s : State) (a1) (a2) (a3) (a4) (h : Memory.wf s.mem = true) : (s.tileTrap a1 a2 a3 a4).Ok := by
  unfold State.tileTrap
  split
  · exact h
  · rename_i e; rw [Did.Ok_done, mem_State_sampledIf]; exact ok_State_noteFlts e h

@[simp] theorem did_State_tileLock (s : State) (a1) (a2) (h : Memory.wf s.mem = true) : (s.tileLock a1 a2).Ok := by
  unfold State.tileLock
  dsimp only
  exact foldl_okS _ _ _ (fun s x h => by simp [h]) h

@[simp] theorem mem_State_peerBack (s : State) (a1) (a2) : (State.peerBack s a1 a2).mem = s.mem := by
  rfl

@[simp] theorem ok_State_peerRmw (s : State) (a1) (a2) (h : Memory.wf s.mem = true) : Memory.wf (State.peerRmw s a1 a2).mem = true := by
  unfold State.peerRmw; try dsimp only
  repeat' split
  all_goals first | assumption | rfl | (simp [h]; done) | (simp_all; done) | (simp only [Prod.ext_iff] at *; casesm* _ ∧ _; subst_vars; simp_all; done)

@[simp] theorem ok_State_peerPerform (s : State) (a1) (h : Memory.wf s.mem = true) : Memory.wf (State.peerPerform s a1).mem = true := by
  unfold State.peerPerform; try dsimp only
  repeat' split
  all_goals first | assumption | rfl | (simp [h]; done) | (simp_all; done) | (simp only [Prod.ext_iff] at *; casesm* _ ∧ _; subst_vars; simp_all; done)

theorem ok_State_peerTry (s : State) (a1) (a2) {t : State} (e : State.peerTry s a1 a2 = some t) (h : Memory.wf s.mem = true) : Memory.wf t.mem = true := by
  unfold State.peerTry at e; try dsimp only at e
  repeat' split at e
  all_goals first | (cases e; done) | (cases e; simp [h]; done) | (cases e; rfl) | (cases e; simp_all; done) | (simp only [Prod.ext_iff] at *; casesm* _ ∧ _; subst_vars; simp_all; done)

@[simp] theorem mem_State_putReply (s : State) (a1) (a2) (a3) : (State.putReply s a1 a2 a3).mem = s.mem := by
  unfold State.putReply; try dsimp only
  repeat' split
  all_goals first | assumption | rfl | (simp; done) | (simp_all; done) | (simp only [Prod.ext_iff] at *; casesm* _ ∧ _; subst_vars; simp_all; done)

@[simp] theorem mem_State_setPort (s : State) (a1) (a2) : (State.setPort s a1 a2).mem = s.mem := by
  simp [State.setPort]

@[simp] theorem mem_State_setLease (s : State) (a1) (a2) : (State.setLease s a1 a2).mem = s.mem := by
  rfl

@[simp] theorem mem_State_leaseRevoke (s : State) (a1) : (State.leaseRevoke s a1).mem = s.mem := by
  simp [State.leaseRevoke]

@[simp] theorem mem_State_leaseAck (s : State) (a1) : (State.leaseAck s a1).mem = s.mem := by
  simp [State.leaseAck]

@[simp] theorem mem_State_writeFeat (s : State) (a1) : (State.writeFeat s a1).mem = s.mem := by
  rfl

@[simp] theorem mem_State_bootHash (s : State) : (State.bootHash s).mem = s.mem := by
  rfl

@[simp] theorem mem_State_bootVerify (s : State) : (State.bootVerify s).mem = s.mem := by
  rfl

@[simp] theorem mem_State_bootRun (s : State) : (State.bootRun s).mem = s.mem := by
  simp [State.bootRun, foldl_memS]

@[simp] theorem mem_State_bootStep (s : State) : (State.bootStep s).mem = s.mem := by
  simp [State.bootStep]

@[simp] theorem mem_State_bringUp (s : State) : (State.bringUp s).mem = s.mem := by
  simp [State.bringUp]

@[simp] theorem mem_State_packageReset (s : State) : (State.packageReset s).mem = s.mem := by
  rfl

@[simp] theorem mem_State_mailboxWrite (s : State) : (State.mailboxWrite s).mem = s.mem := by
  rfl

@[simp] theorem mem_State_mailboxCommit (s : State) : (State.mailboxCommit s).mem = s.mem := by
  simp [State.mailboxCommit]

@[simp] theorem mem_State_attest (s : State) (a1) : (State.attest s a1).mem = s.mem := by
  simp [State.attest]

@[simp] theorem mem_State_arm (s : State) (a1) (a2) (a3) : (State.arm s a1 a2 a3).mem = s.mem := by
  simp [State.arm]

@[simp] theorem mem_State_disarm (s : State) (a1) : (State.disarm s a1).mem = s.mem := by
  simp [State.disarm]

@[simp] theorem mem_State_endReplay (s : State) (a1) (a2) : (State.endReplay s a1 a2).mem = s.mem := by
  rfl

@[simp] theorem ok_State_debugResume (s : State) (a1) (h : Memory.wf s.mem = true) : Memory.wf (State.debugResume s a1).mem = true := by
  unfold State.debugResume; try dsimp only
  repeat' split
  all_goals first | assumption | rfl | (simp [h]; done) | (simp_all; done) | (simp only [Prod.ext_iff] at *; casesm* _ ∧ _; subst_vars; simp_all; done)

@[simp] theorem mem_State_setDbgGroup (s : State) (a1) (a2) : (State.setDbgGroup s a1 a2).mem = s.mem := by
  unfold State.setDbgGroup; try dsimp only
  repeat' split
  all_goals first | assumption | rfl | (simp; done) | (simp_all; done) | (simp only [Prod.ext_iff] at *; casesm* _ ∧ _; subst_vars; simp_all; done)

@[simp] theorem mem_State_dbgStatus (s : State) (a1) (a2) : (State.dbgStatus s a1 a2).mem = s.mem := by
  rfl

@[simp] theorem mem_State_dbgWrite (s : State) (a1) (a2) (a3) (a4) : (State.dbgWrite s a1 a2 a3 a4).mem = s.mem := by
  unfold State.dbgWrite; try dsimp only
  repeat' split
  all_goals first | assumption | rfl | (simp; done) | (simp_all; done) | (simp only [Prod.ext_iff] at *; casesm* _ ∧ _; subst_vars; simp_all; done)

@[simp] theorem mem_State_invalidate (s : State) (a1) (a2) : (State.invalidate s a1 a2).mem = s.mem := by
  rfl

@[simp] theorem mem_State_setPinw (s : State) (a1) : (State.setPinw s a1).mem = s.mem := by
  simp [State.setPinw]

@[simp] theorem ok_State_checkAll (s : State) (h : Memory.wf s.mem = true) : Memory.wf (State.checkAll s).mem = true := by
  unfold State.checkAll; try dsimp only
  all_goals simp_all [foldl_okS]

@[simp] theorem ok_State_writeDbgCmd (s : State) (a1) (a2) (h : Memory.wf s.mem = true) : Memory.wf (State.writeDbgCmd s a1 a2).mem = true := by
  simp [State.writeDbgCmd, h]

@[simp] theorem ok_State_writeDbgCtl (s : State) (a1) (a2) (h : Memory.wf s.mem = true) : Memory.wf (State.writeDbgCtl s a1 a2).mem = true := by
  simp [State.writeDbgCtl, h]

@[simp] theorem ok_State_writeRcCtl (s : State) (a1) (a2) (h : Memory.wf s.mem = true) : Memory.wf (State.writeRcCtl s a1 a2).mem = true := by
  simp [State.writeRcCtl, h]

@[simp] theorem ok_State_writeFqCtl (s : State) (a1) (a2) (h : Memory.wf s.mem = true) : Memory.wf (State.writeFqCtl s a1 a2).mem = true := by
  simp [State.writeFqCtl, h]

@[simp] theorem mem_State_writeMailbox (s : State) (a1) (a2) : (State.writeMailbox s a1 a2).mem = s.mem := by
  unfold State.writeMailbox; try dsimp only
  repeat' split
  all_goals first | assumption | rfl | (simp; done) | (simp_all; done) | (simp only [Prod.ext_iff] at *; casesm* _ ∧ _; subst_vars; simp_all; done)

@[simp] theorem mem_State_writeLease (s : State) (a1) (a2) (a3) : (State.writeLease s a1 a2 a3).mem = s.mem := by
  unfold State.writeLease; try dsimp only
  repeat' split
  all_goals first | assumption | rfl | (simp; done) | (simp_all; done) | (simp only [Prod.ext_iff] at *; casesm* _ ∧ _; subst_vars; simp_all; done)

@[simp] theorem mem_State_sendPending (s : State) (a1) : (State.sendPending s a1).mem = s.mem := by
  simp [State.sendPending]

@[simp] theorem ok_State_kill (s : State) (a) (h : Memory.wf s.mem = true) : Memory.wf (s.kill a).mem = true := by
  unfold State.kill
  dsimp only
  have h1 := foldl_okS (s.gridsIn a fun p => p == .pending || p == .running) (fun s k => s.endGrid k cKilled 0) s (fun s x h => by simp [h]) h
  simp [h1]

theorem mem_mmaComplete {k : Nat} {s t : State} (e : execMmaComplete k s = .next t) : t.mem = s.mem := by
  unfold execMmaComplete at e
  split at e
  · injection e with e; rw [← e]
  · injection e with e; rw [← e]; rfl

@[simp] theorem ok_State_dbgRead (s : State) (a b c) (h : Memory.wf s.mem = true) : Memory.wf (s.dbgRead a b c).mem = true := by
  unfold State.dbgRead
  extract_lets s1
  have h1 : Memory.wf s1.mem = true := by
    simp only [s1]
    repeat' split
    all_goals first | exact h | (rename_i e; rw [mem_mmaComplete e]; exact h)
  split <;> simp [h1]

@[simp] theorem ok_State_writeDbgAcc (s : State) (a1) (a2) (h : Memory.wf s.mem = true) : Memory.wf (State.writeDbgAcc s a1 a2).mem = true := by
  simp [State.writeDbgAcc, h]

@[simp] theorem ok_State_writeDebugReg (s : State) (a1) (a2) (a3) (h : Memory.wf s.mem = true) : Memory.wf (State.writeDebugReg s a1 a2 a3).mem = true := by
  unfold State.writeDebugReg; try dsimp only
  repeat' split
  all_goals first | assumption | rfl | (simp [h]; done) | (simp_all; done) | (simp only [Prod.ext_iff] at *; casesm* _ ∧ _; subst_vars; simp_all; done)

@[simp] theorem ok_State_windowWrite (s : State) (a1) (a2) (h : Memory.wf s.mem = true) : Memory.wf (State.windowWrite s a1 a2).mem = true := by
  simp [State.windowWrite, h]

theorem ok_State_serveLanded {s t : State} {k} (e : s.serveLanded k = some t) (h : Memory.wf s.mem = true) : Memory.wf t.mem = true := by
  unfold State.serveLanded at e
  dsimp only at e
  repeat' split at e
  all_goals cases e
  all_goals simp [h]

theorem ok_State_serveStop {s t : State} {k} (e : s.serveStop k = some t) (h : Memory.wf s.mem = true) : Memory.wf t.mem = true := by
  unfold State.serveStop at e
  dsimp only at e
  repeat' split at e
  all_goals cases e
  simp [h]

@[simp] theorem mem_State_takeReport (s : State) (a1) : (State.takeReport s a1).mem = s.mem := by
  rfl

@[simp] theorem did_State_overrunAt (s : State) (a1) (a2) (h : Memory.wf s.mem = true) : (State.overrunAt s a1 a2).Ok := by
  simp [State.overrunAt, h]

@[simp] theorem did_State_guardReport (s : State) (a1) (a2) (h : Memory.wf s.mem = true) : (State.guardReport s a1 a2).Ok := by
  unfold State.guardReport; try dsimp only
  repeat' split
  all_goals first | assumption | rfl | (simp [h]; done) | (simp_all; done) | (simp only [Prod.ext_iff] at *; casesm* _ ∧ _; subst_vars; simp_all; done)

@[simp] theorem did_State_withBar (s : State) (a1) (a2) (a3) (a4) (a5) (ha5 : ∀ y0 y1, Memory.wf y0.mem = true → (a5 y0 y1).Ok) (h : Memory.wf s.mem = true) : (State.withBar s a1 a2 a3 a4 a5).Ok := by
  unfold State.withBar; try dsimp only
  repeat' split
  all_goals first | assumption | rfl | (simp [h, ha5]; done) | (simp_all; done) | (simp only [Prod.ext_iff] at *; casesm* _ ∧ _; subst_vars; simp_all; done)

@[simp] theorem mem_State_collNfAt (s : State) (a1) (a2) : (State.collNfAt s a1 a2).mem = s.mem := by
  rfl

@[simp] theorem mem_State_bindAt (s : State) (a1) (a2) : (State.bindAt s a1 a2).mem = s.mem := by
  unfold State.bindAt; try dsimp only
  repeat' split
  all_goals first | assumption | rfl | (simp; done) | (simp_all; done) | (simp only [Prod.ext_iff] at *; casesm* _ ∧ _; subst_vars; simp_all; done)

@[simp] theorem ok_State_logState (s : State) (h : Memory.wf s.mem = true) : Memory.wf (State.logState s).mem = true := by
  unfold State.logState
  split <;> simp [h]

@[simp] theorem ok_State_countWait (s : State) (a1) (h : Memory.wf s.mem = true) : Memory.wf (State.countWait s a1).mem = true := by
  simp [State.countWait, h]

@[simp] theorem mem_State_granted (s : State) (a1) (a2) (a3) : (State.granted s a1 a2 a3).mem = s.mem := by
  rfl

@[simp] theorem ok_State_resumeCtx (s : State) (a) (h : Memory.wf s.mem = true) : Memory.wf (s.resumeCtx a).mem = true := by
  have key : ∀ t : State, Memory.wf t.mem = true →
      Memory.wf (if (s.ctxAt a).ctxState ≠ 2 then s else ((t.setCtxAt a { t.ctxAt a with ctxState := 3 }).drainAll a).settleResume a).mem = true := by
    intro t ht
    split
    · exact h
    · simp [ht]
  exact key _ (ok_State_readImage s a h)

@[simp] theorem ok_State_writeCtxCmd (s : State) (a1) (a2) (h : Memory.wf s.mem = true) : Memory.wf (State.writeCtxCmd s a1 a2).mem = true := by
  simp [State.writeCtxCmd, h]

@[simp] theorem ok_State_writeCtxReg (s : State) (a1) (a2) (a3) (h : Memory.wf s.mem = true) : Memory.wf (State.writeCtxReg s a1 a2 a3).mem = true := by
  unfold State.writeCtxReg; try dsimp only
  repeat' split
  all_goals first | assumption | rfl | (simp [h]; done) | (simp_all; done) | (simp only [Prod.ext_iff] at *; casesm* _ ∧ _; subst_vars; simp_all; done)

@[simp] theorem ok_State_regWrite (s : State) (a1) (a2) (h : Memory.wf s.mem = true) : Memory.wf (State.regWrite s a1 a2).mem = true := by
  simp [State.regWrite, h]

@[simp] theorem ok_State_windowRead (s : State) (a b c) (h : Memory.wf s.mem = true) : Memory.wf (s.windowRead a b c).mem = true := by
  unfold State.windowRead
  split
  · dsimp only
    rw [mem_State_bump]
    split <;> simp [h]
  · split
    · exact h
    · split
      rename_i e; have h1 := fst_ok e (by simp [h]); exact h1

@[simp] theorem ok_State_hostPerform (s : State) (a) (h : Memory.wf s.mem = true) : Memory.wf (s.hostPerform a).mem = true := by
  cases a <;> simp [State.hostPerform, h]

theorem ok_State_hostTry {s t : State} {a} (e : s.hostTry a = some t) (h : Memory.wf s.mem = true) : Memory.wf t.mem = true := by
  unfold State.hostTry at e
  dsimp only at e
  split at e
  · cases e; simp [h]
  · cases e

theorem ok_State_serveOne {s t : State} {a b c} (e : s.serveOne a b c = some t) (h : Memory.wf s.mem = true) : Memory.wf t.mem = true := by
  unfold State.serveOne at e
  dsimp only at e
  repeat' split at e
  · cases e
  · exact ok_State_peerTry _ _ _ e (by simp [h])
  · cases e
  · exact ok_State_hostTry e (by simp [h])

theorem ok_State_serveFrom {s t : State} {ws a} (e : s.serveFrom a ws = some t) (h : Memory.wf s.mem = true) : Memory.wf t.mem = true := by
  induction ws generalizing a with
  | nil => cases e
  | cons w ws ih =>
    unfold State.serveFrom at e
    split at e
    · rename_i e1; cases e; exact ok_State_serveOne e1 h
    · exact ih e

@[simp] theorem ok_State_logWords (s : State) (i) (rs) (h : Memory.wf s.mem = true) : Memory.wf (s.logWords i rs).mem = true := by
  unfold State.logWords
  exact foldl_okS _ _ _ (fun s x h => by simp [h]) h

@[simp] theorem ok_State_logFuse (s : State) (h : Memory.wf s.mem = true) : Memory.wf s.logFuse.mem = true := by
  unfold State.logFuse
  exact ok_State_logWords _ _ _ (foldl_okS _ _ _ (fun s x h => by simp [h]) h)

@[simp] theorem ok_State_rayFetch (s : State) (a1) (a2) (a3) (h : Memory.wf s.mem = true) : Memory.wf (State.rayFetch s a1 a2 a3).1.mem = true := by
  unfold State.rayFetch; try dsimp only
  repeat' split
  all_goals first | assumption | rfl | (simp [h]; done) | (simp_all; done) | (simp only [Prod.ext_iff] at *; casesm* _ ∧ _; subst_vars; simp_all; done)

@[simp] theorem ok_State_withScene (s : State) (a1) (a2) (a3) (ha3 : ∀ y0 y1, Memory.wf y0.mem = true → Memory.wf (a3 y0 y1).1.mem = true) (h : Memory.wf s.mem = true) : Memory.wf (State.withScene s a1 a2 a3).1.mem = true := by
  unfold State.withScene; try dsimp only
  repeat' split
  all_goals first | assumption | rfl | (simp [h, ha3]; done) | (simp_all; done) | (simp only [Prod.ext_iff] at *; casesm* _ ∧ _; subst_vars; simp_all; done)

@[simp] theorem ok_State_rayLane (s : State) (a1) (a2) (a3) (a4) (a5) (ha5 : ∀ y0 y1 y2, Memory.wf y0.mem = true → Memory.wf (a5 y0 y1 y2).1.mem = true) (h : Memory.wf s.mem = true) : Memory.wf (State.rayLane s a1 a2 a3 a4 a5).1.mem = true := by
  unfold State.rayLane; try dsimp only
  repeat' split
  all_goals first | assumption | rfl | (simp [h, ha5]; done) | (simp_all; done) | (simp only [Prod.ext_iff] at *; casesm* _ ∧ _; subst_vars; simp_all; done)

@[simp] theorem ok_State_rayAll (s : State) (a1) (a2) (ha2 : ∀ y0 y1, Memory.wf y0.mem = true → Memory.wf (a2 y0 y1).1.mem = true) (h : Memory.wf s.mem = true) : Memory.wf (State.rayAll s a1 a2).1.mem = true := by
  unfold State.rayAll; try dsimp only
  all_goals simp_all [foldl_okP]

@[simp] theorem did_State_texRecord (s : State) (a1) (a2) (a3) (ha3 : ∀ y0 y1, Memory.wf y0.mem = true → (a3 y0 y1).Ok) (h : Memory.wf s.mem = true) : (State.texRecord s a1 a2 a3).Ok := by
  unfold State.texRecord; try dsimp only
  repeat' split
  all_goals first | assumption | rfl | (simp [h, ha3]; done) | (simp_all; done) | (simp only [Prod.ext_iff] at *; casesm* _ ∧ _; subst_vars; simp_all; done)

@[simp] theorem ok_State_fetchTexel (s : State) (a1) (a2) (a3) (a4) (a5) (h : Memory.wf s.mem = true) : Memory.wf (State.fetchTexel s a1 a2 a3 a4 a5).1.mem = true := by
  unfold State.fetchTexel; try dsimp only
  repeat' split
  all_goals first | assumption | rfl | (simp [h]; done) | (simp_all; done) | (simp only [Prod.ext_iff] at *; casesm* _ ∧ _; subst_vars; simp_all; done)

@[simp] theorem mem_State_mapReds (s : State) (a1) (a2) : (State.mapReds s a1 a2).1.mem = s.mem := by
  unfold State.mapReds; try dsimp only
  rw [foldl_memP _ _ _ (fun s x => ?_)]
  try dsimp only
  repeat' split
  all_goals first | assumption | rfl | (simp; done) | (simp_all; done) | (simp only [Prod.ext_iff] at *; casesm* _ ∧ _; subst_vars; simp_all; done)

@[simp] theorem mem_State_streamWrite (s : State) (a1) (a2) (a3) (a4) : (State.streamWrite s a1 a2 a3 a4).mem = s.mem := by
  simp [State.streamWrite, foldl_memS]

/-- What the machine does by itself before it issues leaves memory canonical. -/
theorem ok_State_service {s t : State} (e : s.service = some t) (h : Memory.wf s.mem = true) : Memory.wf t.mem = true := by
  unfold State.service at e
  split at e
  · cases e; simp [h]
  · cases e1 : s.serveFrom [] s.pkg.waiting with
    | some u => rw [e1] at e; cases e; exact ok_State_serveFrom e1 h
    | none =>
      rw [e1] at e
      cases e2 : s.teams.keys.findSome? s.serveLanded with
      | some u =>
        have e : (s.teams.keys.findSome? s.serveLanded).orElse (fun _ => s.ctxs.keys.findSome? s.serveStop) = some t := e
        rw [e2] at e; cases e
        obtain ⟨k, -, e3⟩ := List.exists_of_findSome?_eq_some e2
        exact ok_State_serveLanded e3 h
      | none =>
        have e : (s.teams.keys.findSome? s.serveLanded).orElse (fun _ => s.ctxs.keys.findSome? s.serveStop) = some t := e
        rw [e2] at e
        obtain ⟨k, -, e3⟩ := List.exists_of_findSome?_eq_some e
        exact ok_State_serveStop e3 h

@[simp] theorem ok_State_place (s : State) (bs) (h : Memory.wf s.mem = true) : Memory.wf (s.place bs).mem = true := by
  exact Memory.wf_memWrite _ _ _ (Memory.wf_memWrite _ _ _ (Memory.wf_memWrite _ _ _ (Memory.wf_memWrite _ _ _ (Memory.wf_memWrite _ _ _ h))))

@[simp] theorem ok_State_rayLoop (s : State) (sc l r n) (h : Memory.wf s.mem = true) : Memory.wf (s.rayLoop sc l r n).1.mem = true := by
  induction n generalizing s r with
  | zero => exact h
  | succ n ih =>
    unfold State.rayLoop
    dsimp only
    repeat' split
    all_goals first
      | exact h
      | exact ih _ _ h
      | (rename_i e; have h1 := fst_ok e (by simp [h]); first | exact h1 | exact ih _ _ h1)
      | (rename_i e _; have h1 := fst_ok e (by simp [h]); first | exact h1 | exact ih _ _ h1)

@[simp] theorem ok_State_rayRun (s : State) (a b c d) (h : Memory.wf s.mem = true) : Memory.wf (s.rayRun a b c d).1.mem = true := by
  unfold State.rayRun
  refine ok_State_withScene _ _ _ _ (fun s sc h => ?_) h
  dsimp only
  generalize (if d then _ else _ : Ray) = r
  split
  · exact h
  · split
    all_goals rename_i e; exact fst_ok e (ok_State_rayLoop _ _ _ _ _ h)

@[simp] theorem ok_State_fetchTaps (s : State) (a b c d f) (h : Memory.wf s.mem = true) : Memory.wf (s.fetchTaps a b c d f).1.mem = true := by
  unfold State.fetchTaps
  refine foldl_okP _ _ _ (fun s x h => ?_) h
  split
  · exact h
  · refine foldl_okP _ _ (_, _) (fun s x h => ?_) h
    split
    all_goals rename_i e; exact fst_ok e (by simp [h])

@[simp] theorem ok_State_texOne (s : State) (a b c d f) (h : Memory.wf s.mem = true) : Memory.wf (s.texOne a b c d f).1.mem = true := by
  unfold State.texOne
  extract_lets env x n
  clear_value env x
  split
  · exact h
  · split
    split
    · exact h
    · split
      rename_i e; have h1 := fst_ok e (by simp [h])
      split
      · exact h1
      · extract_lets sc
        split
        rename_i e2; exact fst_ok e2 (by simp [h1])

@[simp] theorem ok_State_texAll (s : State) (a1) (a2) (a3) (a4) (a5) (h : Memory.wf s.mem = true) : Memory.wf (State.texAll s a1 a2 a3 a4 a5).1.mem = true := by
  unfold State.texAll; try dsimp only
  all_goals simp_all [foldl_okP]

@[simp] theorem mem_State_digestReds (s : State) (a1) : (State.digestReds s a1).mem = s.mem := by
  unfold State.digestReds
  exact foldl_memS _ _ _ fun s x => by simp

@[simp] theorem ok_State_scatter (s : State) (os) (h : Memory.wf s.mem = true) : Memory.wf (s.scatter os).1.mem = true := by
  unfold State.scatter
  refine foldl_okP _ _ _ (fun s x h => ?_) h
  exact foldl_okP _ _ _ (fun s y h => by simp [h]) (by rw [mem_State_digestReds]; exact h)

@[simp] theorem ok_State_withFetchWord (s : State) (a1) (a2) (h : Memory.wf s.mem = true) : Memory.wf (State.withFetchWord s a1 a2).mem = true := by
  simp [State.withFetchWord, h]

end Sys2Proof.Machine
end

