-- ==== Sys2Proof/Laws/MemOk.lean ====
section
/-! SUPPORT. Memory stays canonical through an issue: `OutOk` says it of an outcome; `ok_perform` and `ok_performWide` carry it there from
what the effect answers. -/

set_option maxRecDepth 100000

namespace Sys2Proof.Machine

theorem ok_conclude (s : State) (early d) (h : Memory.wf s.mem = true) (hd : d.Ok) : OutOk (s.conclude early d) := by
  unfold State.conclude
  split
  · exact ok_next _ h
  · exact ok_next _ (ok_State_unmet _ _ h (by simpa using hd))
  · exact ok_next _ (ok_State_fatal _ _ _ hd)
  · split
    · exact ok_next _ h
    · split
      · exact ok_next _ (ok_State_endIssue _ _ (by simpa using h))
      · exact ok_next _ (ok_State_endIssue _ _ hd)

theorem ok_performHandler (s : State) (a p c op) (h : Memory.wf s.mem = true) (ho : ∀ m s, Memory.wf s.mem = true → (op s m).Ok) : OutOk (s.performHandler a p c op) := by
  unfold State.performHandler
  split
  · exact ok_next _ (by simp [h])
  · have h1 := ho 0 s.atHandler (by simp [h])
    split <;> rename_i e <;> rw [e] at h1
    · exact ok_next _ h
    · exact ok_next _ (ok_State_unmet _ _ h (by simpa using h1))
    · exact ok_next _ (by split <;> exact ok_State_fatal _ _ _ (by first | exact h | exact h1))
    · split
      · exact ok_next _ h
      · split
        · exact ok_next _ (ok_State_fatal _ _ _ h)
        · exact ok_next _ (ok_State_finishHandler _ _ h1)

theorem ok_perform (s : State) (a p c op) (h : Memory.wf s.mem = true) (ho : ∀ m s, Memory.wf s.mem = true → (op s m).Ok) : OutOk (s.perform a p c op) := by
  unfold State.perform
  dsimp only
  split
  · exact ok_performHandler _ _ _ _ _ h ho
  · split
    · exact ok_next _ (by simp [h])
    · exact ok_conclude _ _ _ h (ho _ _ (by simp [h]))

theorem ok_performWide (s : State) (p c op) (h : Memory.wf s.mem = true) (ho : ∀ m s, Memory.wf s.mem = true → (op s m).Ok) : OutOk (s.performWide p c op) := by
  unfold State.performWide
  dsimp only
  split
  · exact ok_conclude _ _ _ h (ho _ _ (by simp [h]))
  · exact ok_perform _ _ _ _ _ h ho

theorem ok_perLane (s : State) (p c op) (h : Memory.wf s.mem = true) : OutOk (s.perLane p c op) :=
  ok_perform _ _ _ _ _ h fun m s h => by simp [Did.Ok, h]

theorem ok_once (s : State) (a p c op) (h : Memory.wf s.mem = true) : OutOk (s.once a p c op) :=
  ok_perform _ _ _ _ _ h fun m s h => by simp [Did.Ok, h]

end Sys2Proof.Machine
end

