-- ==== Sys2Proof/Laws/PerInstr.lean ====
section
/-! SUPPORT. The family Encoding: the row of the opcode map at an instruction's major and sub-opcode spells that instruction from
its own predicate and fields. One lemma for each constructor of Instr. -/

namespace Sys2Proof.Laws.Encoding

/-- A row of the opcode map spells an instruction from a predicate and a body. -/
def spells (b : Build) (q : Parts) (i : Instr) : Prop :=
  match b with
  | .v mk => ∃ p f, mk p f = i ∧ q.pred = p ∧ q.body = f.bits
  | .i mk => ∃ p f, mk p f = i ∧ q.pred = p ∧ q.body = f.bits
  | .m mk => ∃ p f, mk p f = i ∧ q.pred = p ∧ q.body = f.bits
  | .b mk => ∃ p f, mk p f = i ∧ q.pred = p ∧ q.body = f.bits

/-- R239: the opcode map names a well-formed word where its encoding stands. Events have no word. -/
def Statement (i : Instr) : Prop :=
  i.wellFormed = true → ∀ q, i.parts = some q → ∃ b, buildAt q.major.toNat q.sub.toNat = some b ∧ spells b q i

theorem nop (p : Pred) (f : VF) : Statement (.nop p f) := fun _ _ hq => by cases hq; exact ⟨_, rfl, p, f, rfl, rfl, rfl⟩
theorem bra (p : Pred) (f : BF) : Statement (.bra p f) := fun _ _ hq => by cases hq; exact ⟨_, rfl, p, f, rfl, rfl, rfl⟩
theorem bru (p : Pred) (f : BF) : Statement (.bru p f) := fun _ _ hq => by cases hq; exact ⟨_, rfl, p, f, rfl, rfl, rfl⟩
theorem brx (p : Pred) (f : BF) : Statement (.brx p f) := fun _ _ hq => by cases hq; exact ⟨_, rfl, p, f, rfl, rfl, rfl⟩
theorem call (p : Pred) (f : BF) : Statement (.call p f) := fun _ _ hq => by cases hq; exact ⟨_, rfl, p, f, rfl, rfl, rfl⟩
theorem callx (p : Pred) (f : BF) : Statement (.callx p f) := fun _ _ hq => by cases hq; exact ⟨_, rfl, p, f, rfl, rfl, rfl⟩
theorem ret (p : Pred) (f : VF) : Statement (.ret p f) := fun _ _ hq => by cases hq; exact ⟨_, rfl, p, f, rfl, rfl, rfl⟩
theorem exit (p : Pred) (f : VF) : Statement (.exit p f) := fun _ _ hq => by cases hq; exact ⟨_, rfl, p, f, rfl, rfl, rfl⟩
theorem yield (p : Pred) (f : VF) : Statement (.yield p f) := fun _ _ hq => by cases hq; exact ⟨_, rfl, p, f, rfl, rfl, rfl⟩
theorem trap (p : Pred) (f : IF) : Statement (.trap p f) := fun _ _ hq => by cases hq; exact ⟨_, rfl, p, f, rfl, rfl, rfl⟩
theorem tret (p : Pred) (f : VF) : Statement (.tret p f) := fun _ _ hq => by cases hq; exact ⟨_, rfl, p, f, rfl, rfl, rfl⟩
theorem bkpt (p : Pred) (f : IF) : Statement (.bkpt p f) := fun _ _ hq => by cases hq; exact ⟨_, rfl, p, f, rfl, rfl, rfl⟩
theorem waitf (p : Pred) (f : IF) : Statement (.waitf p f) := fun _ _ hq => by cases hq; exact ⟨_, rfl, p, f, rfl, rfl, rfl⟩
theorem add (p : Pred) (f : VF) : Statement (.add p f) := fun _ _ hq => by cases hq; exact ⟨_, rfl, p, f, rfl, rfl, rfl⟩
theorem sub (p : Pred) (f : VF) : Statement (.sub p f) := fun _ _ hq => by cases hq; exact ⟨_, rfl, p, f, rfl, rfl, rfl⟩
theorem mul (p : Pred) (f : VF) : Statement (.mul p f) := fun _ _ hq => by cases hq; exact ⟨_, rfl, p, f, rfl, rfl, rfl⟩
theorem mulh (p : Pred) (f : VF) : Statement (.mulh p f) := fun _ _ hq => by cases hq; exact ⟨_, rfl, p, f, rfl, rfl, rfl⟩
theorem mad (p : Pred) (f : VF) : Statement (.mad p f) := fun _ _ hq => by cases hq; exact ⟨_, rfl, p, f, rfl, rfl, rfl⟩
theorem addc (p : Pred) (f : VF) : Statement (.addc p f) := fun _ _ hq => by cases hq; exact ⟨_, rfl, p, f, rfl, rfl, rfl⟩
theorem subb (p : Pred) (f : VF) : Statement (.subb p f) := fun _ _ hq => by cases hq; exact ⟨_, rfl, p, f, rfl, rfl, rfl⟩
theorem and (p : Pred) (f : VF) : Statement (.and p f) := fun _ _ hq => by cases hq; exact ⟨_, rfl, p, f, rfl, rfl, rfl⟩
theorem or (p : Pred) (f : VF) : Statement (.or p f) := fun _ _ hq => by cases hq; exact ⟨_, rfl, p, f, rfl, rfl, rfl⟩
theorem xor (p : Pred) (f : VF) : Statement (.xor p f) := fun _ _ hq => by cases hq; exact ⟨_, rfl, p, f, rfl, rfl, rfl⟩
theorem andn (p : Pred) (f : VF) : Statement (.andn p f) := fun _ _ hq => by cases hq; exact ⟨_, rfl, p, f, rfl, rfl, rfl⟩
theorem shl (p : Pred) (f : VF) : Statement (.shl p f) := fun _ _ hq => by cases hq; exact ⟨_, rfl, p, f, rfl, rfl, rfl⟩
theorem shr (p : Pred) (f : VF) : Statement (.shr p f) := fun _ _ hq => by cases hq; exact ⟨_, rfl, p, f, rfl, rfl, rfl⟩
theorem sra (p : Pred) (f : VF) : Statement (.sra p f) := fun _ _ hq => by cases hq; exact ⟨_, rfl, p, f, rfl, rfl, rfl⟩
theorem rot (p : Pred) (f : VF) : Statement (.rot p f) := fun _ _ hq => by cases hq; exact ⟨_, rfl, p, f, rfl, rfl, rfl⟩
theorem min (p : Pred) (f : VF) : Statement (.min p f) := fun _ _ hq => by cases hq; exact ⟨_, rfl, p, f, rfl, rfl, rfl⟩
theorem max (p : Pred) (f : VF) : Statement (.max p f) := fun _ _ hq => by cases hq; exact ⟨_, rfl, p, f, rfl, rfl, rfl⟩
theorem absd (p : Pred) (f : VF) : Statement (.absd p f) := fun _ _ hq => by cases hq; exact ⟨_, rfl, p, f, rfl, rfl, rfl⟩
theorem cmp (p : Pred) (f : VF) : Statement (.cmp p f) := fun _ _ hq => by cases hq; exact ⟨_, rfl, p, f, rfl, rfl, rfl⟩
theorem sel (p : Pred) (f : VF) : Statement (.sel p f) := fun _ _ hq => by cases hq; exact ⟨_, rfl, p, f, rfl, rfl, rfl⟩
theorem popc (p : Pred) (f : VF) : Statement (.popc p f) := fun _ _ hq => by cases hq; exact ⟨_, rfl, p, f, rfl, rfl, rfl⟩
theorem clz (p : Pred) (f : VF) : Statement (.clz p f) := fun _ _ hq => by cases hq; exact ⟨_, rfl, p, f, rfl, rfl, rfl⟩
theorem brev (p : Pred) (f : VF) : Statement (.brev p f) := fun _ _ hq => by cases hq; exact ⟨_, rfl, p, f, rfl, rfl, rfl⟩
theorem bfe (p : Pred) (f : VF) : Statement (.bfe p f) := fun _ _ hq => by cases hq; exact ⟨_, rfl, p, f, rfl, rfl, rfl⟩
theorem bfi (p : Pred) (f : VF) : Statement (.bfi p f) := fun _ _ hq => by cases hq; exact ⟨_, rfl, p, f, rfl, rfl, rfl⟩
theorem mov (p : Pred) (f : VF) : Statement (.mov p f) := fun _ _ hq => by cases hq; exact ⟨_, rfl, p, f, rfl, rfl, rfl⟩
theorem div (p : Pred) (f : VF) : Statement (.div p f) := fun _ _ hq => by cases hq; exact ⟨_, rfl, p, f, rfl, rfl, rfl⟩
theorem movi (p : Pred) (f : IF) : Statement (.movi p f) := fun _ _ hq => by cases hq; exact ⟨_, rfl, p, f, rfl, rfl, rfl⟩
theorem addi (p : Pred) (f : IF) : Statement (.addi p f) := fun _ _ hq => by cases hq; exact ⟨_, rfl, p, f, rfl, rfl, rfl⟩
theorem andi (p : Pred) (f : IF) : Statement (.andi p f) := fun _ _ hq => by cases hq; exact ⟨_, rfl, p, f, rfl, rfl, rfl⟩
theorem ori (p : Pred) (f : IF) : Statement (.ori p f) := fun _ _ hq => by cases hq; exact ⟨_, rfl, p, f, rfl, rfl, rfl⟩
theorem xori (p : Pred) (f : IF) : Statement (.xori p f) := fun _ _ hq => by cases hq; exact ⟨_, rfl, p, f, rfl, rfl, rfl⟩
theorem cmpi (p : Pred) (f : IF) : Statement (.cmpi p f) := fun _ _ hq => by cases hq; exact ⟨_, rfl, p, f, rfl, rfl, rfl⟩
theorem atr (p : Pred) (f : VF) : Statement (.atr p f) := fun _ _ hq => by cases hq; exact ⟨_, rfl, p, f, rfl, rfl, rfl⟩
theorem arel (p : Pred) (f : VF) : Statement (.arel p f) := fun _ _ hq => by cases hq; exact ⟨_, rfl, p, f, rfl, rfl, rfl⟩
theorem lea (p : Pred) (f : MF) : Statement (.lea p f) := fun _ _ hq => by cases hq; exact ⟨_, rfl, p, f, rfl, rfl, rfl⟩
theorem aget (p : Pred) (f : VF) : Statement (.aget p f) := fun _ _ hq => by cases hq; exact ⟨_, rfl, p, f, rfl, rfl, rfl⟩
theorem mand (p : Pred) (f : VF) : Statement (.mand p f) := fun _ _ hq => by cases hq; exact ⟨_, rfl, p, f, rfl, rfl, rfl⟩
theorem mor (p : Pred) (f : VF) : Statement (.mor p f) := fun _ _ hq => by cases hq; exact ⟨_, rfl, p, f, rfl, rfl, rfl⟩
theorem mxor (p : Pred) (f : VF) : Statement (.mxor p f) := fun _ _ hq => by cases hq; exact ⟨_, rfl, p, f, rfl, rfl, rfl⟩
theorem mandn (p : Pred) (f : VF) : Statement (.mandn p f) := fun _ _ hq => by cases hq; exact ⟨_, rfl, p, f, rfl, rfl, rfl⟩
theorem mmov (p : Pred) (f : VF) : Statement (.mmov p f) := fun _ _ hq => by cases hq; exact ⟨_, rfl, p, f, rfl, rfl, rfl⟩
theorem mpopc (p : Pred) (f : VF) : Statement (.mpopc p f) := fun _ _ hq => by cases hq; exact ⟨_, rfl, p, f, rfl, rfl, rfl⟩
theorem mfirst (p : Pred) (f : VF) : Statement (.mfirst p f) := fun _ _ hq => by cases hq; exact ⟨_, rfl, p, f, rfl, rfl, rfl⟩
theorem mact (p : Pred) (f : VF) : Statement (.mact p f) := fun _ _ hq => by cases hq; exact ⟨_, rfl, p, f, rfl, rfl, rfl⟩
theorem gsplit (p : Pred) (f : IF) : Statement (.gsplit p f) := fun _ _ hq => by cases hq; exact ⟨_, rfl, p, f, rfl, rfl, rfl⟩
theorem gfuse (p : Pred) (f : VF) : Statement (.gfuse p f) := fun _ _ hq => by cases hq; exact ⟨_, rfl, p, f, rfl, rfl, rfl⟩
theorem gang (p : Pred) (f : VF) : Statement (.gang p f) := fun _ _ hq => by cases hq; exact ⟨_, rfl, p, f, rfl, rfl, rfl⟩
theorem mfsr (p : Pred) (f : IF) : Statement (.mfsr p f) := fun _ _ hq => by cases hq; exact ⟨_, rfl, p, f, rfl, rfl, rfl⟩
theorem mtsr (p : Pred) (f : IF) : Statement (.mtsr p f) := by
  intro h q hq
  cases hq
  refine ⟨.i mtsrOf, rfl, p, f, ?_, rfl, rfl⟩
  have hr : srWritable f.imm.toNat = true := by
    simp only [Instr.wellFormed, Instr.codesOk, Instr.rule, mtsrRule, IF.rule, Rule.codesOk, Bool.and_eq_true] at h
    exact h.1.1.1
  have h1 : f.imm ≠ 0x10D#32 := by
    intro e
    rw [e] at hr
    exact absurd hr (by decide)
  have h2 : f.imm ≠ 0x10A#32 := by
    intro e
    rw [e] at hr
    exact absurd hr (by decide)
  simp [mtsrOf, h1, h2]
theorem clk (p : Pred) (f : VF) : Statement (.clk p f) := fun _ _ hq => by cases hq; exact ⟨_, rfl, p, f, rfl, rfl, rfl⟩
theorem zread (p : Pred) (f : IF) : Statement (.zread p f) := fun _ _ hq => by cases hq; exact ⟨_, rfl, p, f, rfl, rfl, rfl⟩
theorem rng (p : Pred) (f : VF) : Statement (.rng p f) := fun _ _ hq => by cases hq; exact ⟨_, rfl, p, f, rfl, rfl, rfl⟩
theorem ecount (p : Pred) (f : VF) : Statement (.ecount p f) := fun _ _ hq => by cases hq; exact ⟨_, rfl, p, f, rfl, rfl, rfl⟩
theorem fadd (p : Pred) (f : VF) : Statement (.fadd p f) := fun _ _ hq => by cases hq; exact ⟨_, rfl, p, f, rfl, rfl, rfl⟩
theorem fsub (p : Pred) (f : VF) : Statement (.fsub p f) := fun _ _ hq => by cases hq; exact ⟨_, rfl, p, f, rfl, rfl, rfl⟩
theorem fmul (p : Pred) (f : VF) : Statement (.fmul p f) := fun _ _ hq => by cases hq; exact ⟨_, rfl, p, f, rfl, rfl, rfl⟩
theorem ffma (p : Pred) (f : VF) : Statement (.ffma p f) := fun _ _ hq => by cases hq; exact ⟨_, rfl, p, f, rfl, rfl, rfl⟩
theorem fmin (p : Pred) (f : VF) : Statement (.fmin p f) := fun _ _ hq => by cases hq; exact ⟨_, rfl, p, f, rfl, rfl, rfl⟩
theorem fmax (p : Pred) (f : VF) : Statement (.fmax p f) := fun _ _ hq => by cases hq; exact ⟨_, rfl, p, f, rfl, rfl, rfl⟩
theorem fminm (p : Pred) (f : VF) : Statement (.fminm p f) := fun _ _ hq => by cases hq; exact ⟨_, rfl, p, f, rfl, rfl, rfl⟩
theorem fmaxm (p : Pred) (f : VF) : Statement (.fmaxm p f) := fun _ _ hq => by cases hq; exact ⟨_, rfl, p, f, rfl, rfl, rfl⟩
theorem fcmp (p : Pred) (f : VF) : Statement (.fcmp p f) := fun _ _ hq => by cases hq; exact ⟨_, rfl, p, f, rfl, rfl, rfl⟩
theorem fclass (p : Pred) (f : VF) : Statement (.fclass p f) := fun _ _ hq => by cases hq; exact ⟨_, rfl, p, f, rfl, rfl, rfl⟩
theorem fdiv (p : Pred) (f : VF) : Statement (.fdiv p f) := fun _ _ hq => by cases hq; exact ⟨_, rfl, p, f, rfl, rfl, rfl⟩
theorem fsqrt (p : Pred) (f : VF) : Statement (.fsqrt p f) := fun _ _ hq => by cases hq; exact ⟨_, rfl, p, f, rfl, rfl, rfl⟩
theorem frcp (p : Pred) (f : VF) : Statement (.frcp p f) := fun _ _ hq => by cases hq; exact ⟨_, rfl, p, f, rfl, rfl, rfl⟩
theorem frsq (p : Pred) (f : VF) : Statement (.frsq p f) := fun _ _ hq => by cases hq; exact ⟨_, rfl, p, f, rfl, rfl, rfl⟩
theorem fexp2 (p : Pred) (f : VF) : Statement (.fexp2 p f) := fun _ _ hq => by cases hq; exact ⟨_, rfl, p, f, rfl, rfl, rfl⟩
theorem flog2 (p : Pred) (f : VF) : Statement (.flog2 p f) := fun _ _ hq => by cases hq; exact ⟨_, rfl, p, f, rfl, rfl, rfl⟩
theorem fsin (p : Pred) (f : VF) : Statement (.fsin p f) := fun _ _ hq => by cases hq; exact ⟨_, rfl, p, f, rfl, rfl, rfl⟩
theorem fcos (p : Pred) (f : VF) : Statement (.fcos p f) := fun _ _ hq => by cases hq; exact ⟨_, rfl, p, f, rfl, rfl, rfl⟩
theorem frint (p : Pred) (f : VF) : Statement (.frint p f) := fun _ _ hq => by cases hq; exact ⟨_, rfl, p, f, rfl, rfl, rfl⟩
theorem fscale (p : Pred) (f : VF) : Statement (.fscale p f) := fun _ _ hq => by cases hq; exact ⟨_, rfl, p, f, rfl, rfl, rfl⟩
theorem fgetexp (p : Pred) (f : VF) : Statement (.fgetexp p f) := fun _ _ hq => by cases hq; exact ⟨_, rfl, p, f, rfl, rfl, rfl⟩
theorem fdot2 (p : Pred) (f : VF) : Statement (.fdot2 p f) := fun _ _ hq => by cases hq; exact ⟨_, rfl, p, f, rfl, rfl, rfl⟩
theorem fcvt (p : Pred) (f : VF) : Statement (.fcvt p f) := fun _ _ hq => by cases hq; exact ⟨_, rfl, p, f, rfl, rfl, rfl⟩
theorem ftoi (p : Pred) (f : VF) : Statement (.ftoi p f) := fun _ _ hq => by cases hq; exact ⟨_, rfl, p, f, rfl, rfl, rfl⟩
theorem itof (p : Pred) (f : VF) : Statement (.itof p f) := fun _ _ hq => by cases hq; exact ⟨_, rfl, p, f, rfl, rfl, rfl⟩
theorem pack8 (p : Pred) (f : VF) : Statement (.pack8 p f) := fun _ _ hq => by cases hq; exact ⟨_, rfl, p, f, rfl, rfl, rfl⟩
theorem unpk8 (p : Pred) (f : VF) : Statement (.unpk8 p f) := fun _ _ hq => by cases hq; exact ⟨_, rfl, p, f, rfl, rfl, rfl⟩
theorem qnt (p : Pred) (f : VF) : Statement (.qnt p f) := fun _ _ hq => by cases hq; exact ⟨_, rfl, p, f, rfl, rfl, rfl⟩
theorem deq (p : Pred) (f : VF) : Statement (.deq p f) := fun _ _ hq => by cases hq; exact ⟨_, rfl, p, f, rfl, rfl, rfl⟩
theorem bcast (p : Pred) (f : VF) : Statement (.bcast p f) := fun _ _ hq => by cases hq; exact ⟨_, rfl, p, f, rfl, rfl, rfl⟩
theorem shfl (p : Pred) (f : VF) : Statement (.shfl p f) := fun _ _ hq => by cases hq; exact ⟨_, rfl, p, f, rfl, rfl, rfl⟩
theorem shup (p : Pred) (f : VF) : Statement (.shup p f) := fun _ _ hq => by cases hq; exact ⟨_, rfl, p, f, rfl, rfl, rfl⟩
theorem shdn (p : Pred) (f : VF) : Statement (.shdn p f) := fun _ _ hq => by cases hq; exact ⟨_, rfl, p, f, rfl, rfl, rfl⟩
theorem ballot (p : Pred) (f : VF) : Statement (.ballot p f) := fun _ _ hq => by cases hq; exact ⟨_, rfl, p, f, rfl, rfl, rfl⟩
theorem redux (p : Pred) (f : VF) : Statement (.redux p f) := fun _ _ hq => by cases hq; exact ⟨_, rfl, p, f, rfl, rfl, rfl⟩
theorem scan (p : Pred) (f : VF) : Statement (.scan p f) := fun _ _ hq => by cases hq; exact ⟨_, rfl, p, f, rfl, rfl, rfl⟩
theorem elect (p : Pred) (f : VF) : Statement (.elect p f) := fun _ _ hq => by cases hq; exact ⟨_, rfl, p, f, rfl, rfl, rfl⟩
theorem lget (p : Pred) (f : VF) : Statement (.lget p f) := fun _ _ hq => by cases hq; exact ⟨_, rfl, p, f, rfl, rfl, rfl⟩
theorem lput (p : Pred) (f : VF) : Statement (.lput p f) := fun _ _ hq => by cases hq; exact ⟨_, rfl, p, f, rfl, rfl, rfl⟩
theorem ld (p : Pred) (f : MF) : Statement (.ld p f) := fun _ _ hq => by cases hq; exact ⟨_, rfl, p, f, rfl, rfl, rfl⟩
theorem lds (p : Pred) (f : MF) : Statement (.lds p f) := fun _ _ hq => by cases hq; exact ⟨_, rfl, p, f, rfl, rfl, rfl⟩
theorem ldk (p : Pred) (f : MF) : Statement (.ldk p f) := fun _ _ hq => by cases hq; exact ⟨_, rfl, p, f, rfl, rfl, rfl⟩
theorem st (p : Pred) (f : MF) : Statement (.st p f) := fun _ _ hq => by cases hq; exact ⟨_, rfl, p, f, rfl, rfl, rfl⟩
theorem sts (p : Pred) (f : MF) : Statement (.sts p f) := fun _ _ hq => by cases hq; exact ⟨_, rfl, p, f, rfl, rfl, rfl⟩
theorem stk (p : Pred) (f : MF) : Statement (.stk p f) := fun _ _ hq => by cases hq; exact ⟨_, rfl, p, f, rfl, rfl, rfl⟩
theorem zst (p : Pred) (f : MF) : Statement (.zst p f) := fun _ _ hq => by cases hq; exact ⟨_, rfl, p, f, rfl, rfl, rfl⟩
theorem tld (p : Pred) (f : MF) : Statement (.tld p f) := fun _ _ hq => by cases hq; exact ⟨_, rfl, p, f, rfl, rfl, rfl⟩
theorem tst (p : Pred) (f : MF) : Statement (.tst p f) := fun _ _ hq => by cases hq; exact ⟨_, rfl, p, f, rfl, rfl, rfl⟩
theorem tlds (p : Pred) (f : MF) : Statement (.tlds p f) := fun _ _ hq => by cases hq; exact ⟨_, rfl, p, f, rfl, rfl, rfl⟩
theorem tsts (p : Pred) (f : MF) : Statement (.tsts p f) := fun _ _ hq => by cases hq; exact ⟨_, rfl, p, f, rfl, rfl, rfl⟩
theorem atom (p : Pred) (f : MF) : Statement (.atom p f) := fun _ _ hq => by cases hq; exact ⟨_, rfl, p, f, rfl, rfl, rfl⟩
theorem cas (p : Pred) (f : MF) : Statement (.cas p f) := fun _ _ hq => by cases hq; exact ⟨_, rfl, p, f, rfl, rfl, rfl⟩
theorem casgt (p : Pred) (f : MF) : Statement (.casgt p f) := fun _ _ hq => by cases hq; exact ⟨_, rfl, p, f, rfl, rfl, rfl⟩
theorem casv (p : Pred) (f : MF) : Statement (.casv p f) := fun _ _ hq => by cases hq; exact ⟨_, rfl, p, f, rfl, rfl, rfl⟩
theorem caspt (p : Pred) (f : MF) : Statement (.caspt p f) := fun _ _ hq => by cases hq; exact ⟨_, rfl, p, f, rfl, rfl, rfl⟩
theorem red (p : Pred) (f : MF) : Statement (.red p f) := fun _ _ hq => by cases hq; exact ⟨_, rfl, p, f, rfl, rfl, rfl⟩
theorem rflush (p : Pred) (f : MF) : Statement (.rflush p f) := fun _ _ hq => by cases hq; exact ⟨_, rfl, p, f, rfl, rfl, rfl⟩
theorem fence (p : Pred) (f : MF) : Statement (.fence p f) := fun _ _ hq => by cases hq; exact ⟨_, rfl, p, f, rfl, rfl, rfl⟩
theorem cinv (p : Pred) (f : MF) : Statement (.cinv p f) := fun _ _ hq => by cases hq; exact ⟨_, rfl, p, f, rfl, rfl, rfl⟩
theorem cflu (p : Pred) (f : MF) : Statement (.cflu p f) := fun _ _ hq => by cases hq; exact ⟨_, rfl, p, f, rfl, rfl, rfl⟩
theorem pref (p : Pred) (f : MF) : Statement (.pref p f) := fun _ _ hq => by cases hq; exact ⟨_, rfl, p, f, rfl, rfl, rfl⟩
theorem binit (p : Pred) (f : MF) : Statement (.binit p f) := fun _ _ hq => by cases hq; exact ⟨_, rfl, p, f, rfl, rfl, rfl⟩
theorem bexpect (p : Pred) (f : MF) : Statement (.bexpect p f) := fun _ _ hq => by cases hq; exact ⟨_, rfl, p, f, rfl, rfl, rfl⟩
theorem barrive (p : Pred) (f : MF) : Statement (.barrive p f) := fun _ _ hq => by cases hq; exact ⟨_, rfl, p, f, rfl, rfl, rfl⟩
theorem bwait (p : Pred) (f : MF) : Statement (.bwait p f) := fun _ _ hq => by cases hq; exact ⟨_, rfl, p, f, rfl, rfl, rfl⟩
theorem btest (p : Pred) (f : MF) : Statement (.btest p f) := fun _ _ hq => by cases hq; exact ⟨_, rfl, p, f, rfl, rfl, rfl⟩
theorem cpy (p : Pred) (f : MF) : Statement (.cpy p f) := fun _ _ hq => by cases hq; exact ⟨_, rfl, p, f, rfl, rfl, rfl⟩
theorem cpyt (p : Pred) (f : MF) : Statement (.cpyt p f) := fun _ _ hq => by cases hq; exact ⟨_, rfl, p, f, rfl, rfl, rfl⟩
theorem cpyc (p : Pred) (f : MF) : Statement (.cpyc p f) := fun _ _ hq => by cases hq; exact ⟨_, rfl, p, f, rfl, rfl, rfl⟩
theorem cpys (p : Pred) (f : MF) : Statement (.cpys p f) := fun _ _ hq => by cases hq; exact ⟨_, rfl, p, f, rfl, rfl, rfl⟩
theorem stash (p : Pred) (f : MF) : Statement (.stash p f) := fun _ _ hq => by cases hq; exact ⟨_, rfl, p, f, rfl, rfl, rfl⟩
theorem restore (p : Pred) (f : MF) : Statement (.restore p f) := fun _ _ hq => by cases hq; exact ⟨_, rfl, p, f, rfl, rfl, rfl⟩
theorem collar (p : Pred) (f : MF) : Statement (.collar p f) := fun _ _ hq => by cases hq; exact ⟨_, rfl, p, f, rfl, rfl, rfl⟩
theorem collrs (p : Pred) (f : MF) : Statement (.collrs p f) := fun _ _ hq => by cases hq; exact ⟨_, rfl, p, f, rfl, rfl, rfl⟩
theorem collag (p : Pred) (f : MF) : Statement (.collag p f) := fun _ _ hq => by cases hq; exact ⟨_, rfl, p, f, rfl, rfl, rfl⟩
theorem collupd (p : Pred) (f : MF) : Statement (.collupd p f) := fun _ _ hq => by cases hq; exact ⟨_, rfl, p, f, rfl, rfl, rfl⟩
theorem collcmt (p : Pred) (f : MF) : Statement (.collcmt p f) := fun _ _ hq => by cases hq; exact ⟨_, rfl, p, f, rfl, rfl, rfl⟩
theorem walloc (p : Pred) (f : VF) : Statement (.walloc p f) := fun _ _ hq => by cases hq; exact ⟨_, rfl, p, f, rfl, rfl, rfl⟩
theorem wsend (p : Pred) (f : VF) : Statement (.wsend p f) := fun _ _ hq => by cases hq; exact ⟨_, rfl, p, f, rfl, rfl, rfl⟩
theorem launch (p : Pred) (f : VF) : Statement (.launch p f) := fun _ _ hq => by cases hq; exact ⟨_, rfl, p, f, rfl, rfl, rfl⟩
theorem mma (p : Pred) (f : VF) : Statement (.mma p f) := fun _ _ hq => by cases hq; exact ⟨_, rfl, p, f, rfl, rfl, rfl⟩
theorem mmasp (p : Pred) (f : VF) : Statement (.mmasp p f) := fun _ _ hq => by cases hq; exact ⟨_, rfl, p, f, rfl, rfl, rfl⟩
theorem spush (p : Pred) (f : VF) : Statement (.spush p f) := fun _ _ hq => by cases hq; exact ⟨_, rfl, p, f, rfl, rfl, rfl⟩
theorem mqstat (p : Pred) (f : VF) : Statement (.mqstat p f) := fun _ _ hq => by cases hq; exact ⟨_, rfl, p, f, rfl, rfl, rfl⟩
theorem mdrop (p : Pred) (f : VF) : Statement (.mdrop p f) := fun _ _ hq => by cases hq; exact ⟨_, rfl, p, f, rfl, rfl, rfl⟩
theorem xdec (p : Pred) (f : VF) : Statement (.xdec p f) := fun _ _ hq => by cases hq; exact ⟨_, rfl, p, f, rfl, rfl, rfl⟩
theorem xenc (p : Pred) (f : VF) : Statement (.xenc p f) := fun _ _ hq => by cases hq; exact ⟨_, rfl, p, f, rfl, rfl, rfl⟩
theorem xsparse (p : Pred) (f : VF) : Statement (.xsparse p f) := fun _ _ hq => by cases hq; exact ⟨_, rfl, p, f, rfl, rfl, rfl⟩
theorem xmatch (p : Pred) (f : VF) : Statement (.xmatch p f) := fun _ _ hq => by cases hq; exact ⟨_, rfl, p, f, rfl, rfl, rfl⟩
theorem xsort (p : Pred) (f : VF) : Statement (.xsort p f) := fun _ _ hq => by cases hq; exact ⟨_, rfl, p, f, rfl, rfl, rfl⟩
theorem xperm (p : Pred) (f : VF) : Statement (.xperm p f) := fun _ _ hq => by cases hq; exact ⟨_, rfl, p, f, rfl, rfl, rfl⟩
theorem xtrn (p : Pred) (f : VF) : Statement (.xtrn p f) := fun _ _ hq => by cases hq; exact ⟨_, rfl, p, f, rfl, rfl, rfl⟩
theorem topen (p : Pred) (f : VF) : Statement (.topen p f) := fun _ _ hq => by cases hq; exact ⟨_, rfl, p, f, rfl, rfl, rfl⟩
theorem trec (p : Pred) (f : VF) : Statement (.trec p f) := fun _ _ hq => by cases hq; exact ⟨_, rfl, p, f, rfl, rfl, rfl⟩
theorem tpop (p : Pred) (f : VF) : Statement (.tpop p f) := fun _ _ hq => by cases hq; exact ⟨_, rfl, p, f, rfl, rfl, rfl⟩
theorem tmark (p : Pred) (f : VF) : Statement (.tmark p f) := fun _ _ hq => by cases hq; exact ⟨_, rfl, p, f, rfl, rfl, rfl⟩
theorem tend (p : Pred) (f : VF) : Statement (.tend p f) := fun _ _ hq => by cases hq; exact ⟨_, rfl, p, f, rfl, rfl, rfl⟩
theorem tstat (p : Pred) (f : VF) : Statement (.tstat p f) := fun _ _ hq => by cases hq; exact ⟨_, rfl, p, f, rfl, rfl, rfl⟩
theorem tclose (p : Pred) (f : VF) : Statement (.tclose p f) := fun _ _ hq => by cases hq; exact ⟨_, rfl, p, f, rfl, rfl, rfl⟩
theorem rcov (p : Pred) (f : VF) : Statement (.rcov p f) := fun _ _ hq => by cases hq; exact ⟨_, rfl, p, f, rfl, rfl, rfl⟩
theorem esmp (p : Pred) (f : VF) : Statement (.esmp p f) := fun _ _ hq => by cases hq; exact ⟨_, rfl, p, f, rfl, rfl, rfl⟩
theorem tex (p : Pred) (f : VF) : Statement (.tex p f) := fun _ _ hq => by cases hq; exact ⟨_, rfl, p, f, rfl, rfl, rfl⟩
theorem texl (p : Pred) (f : VF) : Statement (.texl p f) := fun _ _ hq => by cases hq; exact ⟨_, rfl, p, f, rfl, rfl, rfl⟩
theorem texadj (p : Pred) (f : VF) : Statement (.texadj p f) := fun _ _ hq => by cases hq; exact ⟨_, rfl, p, f, rfl, rfl, rfl⟩
theorem trace (p : Pred) (f : VF) : Statement (.trace p f) := fun _ _ hq => by cases hq; exact ⟨_, rfl, p, f, rfl, rfl, rfl⟩
theorem tresume (p : Pred) (f : VF) : Statement (.tresume p f) := fun _ _ hq => by cases hq; exact ⟨_, rfl, p, f, rfl, rfl, rfl⟩
theorem tabort (p : Pred) (f : VF) : Statement (.tabort p f) := fun _ _ hq => by cases hq; exact ⟨_, rfl, p, f, rfl, rfl, rfl⟩
theorem hitadj (p : Pred) (f : VF) : Statement (.hitadj p f) := fun _ _ hq => by cases hq; exact ⟨_, rfl, p, f, rfl, rfl, rfl⟩
theorem rcq (p : Pred) (f : VF) : Statement (.rcq p f) := fun _ _ hq => by cases hq; exact ⟨_, rfl, p, f, rfl, rfl, rfl⟩
theorem rcsync (p : Pred) (f : VF) : Statement (.rcsync p f) := fun _ _ hq => by cases hq; exact ⟨_, rfl, p, f, rfl, rfl, rfl⟩
theorem rcstat (p : Pred) (f : VF) : Statement (.rcstat p f) := fun _ _ hq => by cases hq; exact ⟨_, rfl, p, f, rfl, rfl, rfl⟩
theorem hexitWrite (p : Pred) (f : IF) : Statement (.hexitWrite p f) := by
  intro h q hq
  cases hq
  refine ⟨.i mtsrOf, rfl, p, f, ?_, rfl, rfl⟩
  have hr : f.imm = 0x10D#32 := by
    simp only [Instr.wellFormed, Instr.codesOk, Instr.rule, hexitRule, IF.rule, Rule.codesOk, Bool.and_eq_true, beq_iff_eq] at h
    exact h.1.1.1
  simp [mtsrOf, hr]
theorem ptmaskWrite (p : Pred) (f : IF) : Statement (.ptmaskWrite p f) := by
  intro h q hq
  cases hq
  refine ⟨.i mtsrOf, rfl, p, f, ?_, rfl, rfl⟩
  have hr : f.imm = 0x10A#32 := by
    simp only [Instr.wellFormed, Instr.codesOk, Instr.rule, ptmaskRule, IF.rule, Rule.codesOk, Bool.and_eq_true, beq_iff_eq] at h
    exact h.1.1.1
  simp [mtsrOf, hr]
theorem tileLockGrant (grp : Nat) : Statement (.tileLockGrant grp) := fun _ _ hq => by cases hq
theorem engineWriteLanding (team cmd n : Nat) : Statement (.engineWriteLanding team cmd n) := fun _ _ hq => by cases hq
theorem flagClear (grp flag : Nat) : Statement (.flagClear grp flag) := fun _ _ hq => by cases hq
theorem streamBeatAccept (team push consumer n : Nat) : Statement (.streamBeatAccept team push consumer n) := fun _ _ hq => by cases hq
theorem collectiveCompletion (team coll : Nat) (peers : List PeerPart) : Statement (.collectiveCompletion team coll peers) := fun _ _ hq => by cases hq
theorem batchTimeout (grid node : Nat) : Statement (.batchTimeout grid node) := fun _ _ hq => by cases hq
theorem mmaPop (grp : Nat) : Statement (.mmaPop grp) := fun _ _ hq => by cases hq
theorem mmaComplete (grp : Nat) : Statement (.mmaComplete grp) := fun _ _ hq => by cases hq
theorem tapeSpill (grp : Nat) : Statement (.tapeSpill grp) := fun _ _ hq => by cases hq
theorem tapeFill (grp : Nat) : Statement (.tapeFill grp) := fun _ _ hq => by cases hq
theorem syncPoint (grid : Nat) : Statement (.syncPoint grid) := fun _ _ hq => by cases hq
theorem temperStep (ctx : Nat) : Statement (.temperStep ctx) := fun _ _ hq => by cases hq
theorem versionPublish (ctx : Nat) : Statement (.versionPublish ctx) := fun _ _ hq => by cases hq
theorem handlerOverrun (grp : Nat) : Statement (.handlerOverrun grp) := fun _ _ hq => by cases hq
theorem laneWaitResume (grp : Nat) : Statement (.laneWaitResume grp) := fun _ _ hq => by cases hq
theorem groupStallWake (grp : Nat) : Statement (.groupStallWake grp) := fun _ _ hq => by cases hq
theorem fusion (grp : Nat) : Statement (.fusion grp) := fun _ _ hq => by cases hq
theorem rotationRule (grp : Nat) : Statement (.rotationRule grp) := fun _ _ hq => by cases hq
theorem starvationGuard (grp : Nat) : Statement (.starvationGuard grp) := fun _ _ hq => by cases hq
theorem yieldRelease (grp : Nat) : Statement (.yieldRelease grp) := fun _ _ hq => by cases hq
theorem arbitrationAgeGrant (point : Nat) : Statement (.arbitrationAgeGrant point) := fun _ _ hq => by cases hq
theorem groupRetirement (grp : Nat) : Statement (.groupRetirement grp) := fun _ _ hq => by cases hq
theorem teamRetirement (team : Nat) : Statement (.teamRetirement team) := fun _ _ hq => by cases hq
theorem anvilStage (team : Nat) (full : Bool) : Statement (.anvilStage team full) := fun _ _ hq => by cases hq
theorem epochClose (grid : Nat) : Statement (.epochClose grid) := fun _ _ hq => by cases hq
theorem uPartialApply (core line : Nat) : Statement (.uPartialApply core line) := fun _ _ hq => by cases hq
theorem lqtailWrite (queue : Nat) (tail : W32) : Statement (.lqtailWrite queue tail) := fun _ _ hq => by cases hq
theorem launchRecordTake (queue : Nat) : Statement (.launchRecordTake queue) := fun _ _ hq => by cases hq
theorem gridStart (grid : Nat) : Statement (.gridStart grid) := fun _ _ hq => by cases hq
theorem teamPlacement (grid : Nat) (cores : List Nat) (keep : Bool) : Statement (.teamPlacement grid cores keep) := fun _ _ hq => by cases hq
theorem preEmptionWithdraw (team : Nat) : Statement (.preEmptionWithdraw team) := fun _ _ hq => by cases hq
theorem eviction (team : Nat) : Statement (.eviction team) := fun _ _ hq => by cases hq
theorem teamRestore (team core : Nat) : Statement (.teamRestore team core) := fun _ _ hq => by cases hq
theorem gridCompletion (grid : Nat) : Statement (.gridCompletion grid) := fun _ _ hq => by cases hq
theorem invalidationRequest (ctx : Nat) (count : W32) : Statement (.invalidationRequest ctx count) := fun _ _ hq => by cases hq
theorem invalidationComplete (ctx : Nat) : Statement (.invalidationComplete ctx) := fun _ _ hq => by cases hq
theorem fqheadWrite (ctx : Nat) (head : W32) : Statement (.fqheadWrite ctx head) := fun _ _ hq => by cases hq
theorem fqctlRetry (ctx : Nat) : Statement (.fqctlRetry ctx) := fun _ _ hq => by cases hq
theorem llcctlUnpin : Statement (.llcctlUnpin) := fun _ _ hq => by cases hq
theorem pinwWrite (pinw : BitVec 4) : Statement (.pinwWrite pinw) := fun _ _ hq => by cases hq
theorem cacheLoad (ctx : Nat) : Statement (.cacheLoad ctx) := fun _ _ hq => by cases hq
theorem cacheSave (ctx : Nat) : Statement (.cacheSave ctx) := fun _ _ hq => by cases hq
theorem switch (ctx : Nat) : Statement (.switch ctx) := fun _ _ hq => by cases hq
theorem switchComplete (ctx : Nat) : Statement (.switchComplete ctx) := fun _ _ hq => by cases hq
theorem contextResume (ctx : Nat) : Statement (.contextResume ctx) := fun _ _ hq => by cases hq
theorem kill (ctx : Nat) : Statement (.kill ctx) := fun _ _ hq => by cases hq
theorem snapshot (grp : Nat) : Statement (.snapshot grp) := fun _ _ hq => by cases hq
theorem arm (ctx : Nat) (launchIdx : Byte) (part : BitVec 2) : Statement (.arm ctx launchIdx part) := fun _ _ hq => by cases hq
theorem stopReached (grp : Nat) : Statement (.stopReached grp) := fun _ _ hq => by cases hq
theorem disarm (ctx : Nat) : Statement (.disarm ctx) := fun _ _ hq => by cases hq
theorem debugResume (ctx : Nat) : Statement (.debugResume ctx) := fun _ _ hq => by cases hq
theorem debugRead (ctx : Nat) (spec : Byte) (lane : BitVec 6) : Statement (.debugRead ctx spec lane) := fun _ _ hq => by cases hq
theorem debugWrite (ctx : Nat) (spec : Byte) (lane : BitVec 6) : Statement (.debugWrite ctx spec lane) := fun _ _ hq => by cases hq
theorem debugForceWrite (ctx : Nat) (spec : Byte) (lane : BitVec 6) : Statement (.debugForceWrite ctx spec lane) := fun _ _ hq => by cases hq
theorem traceCaptureOn (ctx : Nat) : Statement (.traceCaptureOn ctx) := fun _ _ hq => by cases hq
theorem traceCaptureOff (ctx : Nat) : Statement (.traceCaptureOff ctx) := fun _ _ hq => by cases hq
theorem samplePacket (grp : Nat) (kind : Byte) (times : List Half) : Statement (.samplePacket grp kind times) := fun _ _ hq => by cases hq
theorem hostWrite (off : Nat) (data : List Byte) : Statement (.hostWrite off data) := fun _ _ hq => by cases hq
theorem hostRead (win : Window) (off n : Nat) : Statement (.hostRead win off n) := fun _ _ hq => by cases hq
theorem remoteAccessArrival (acc : PeerAccess) : Statement (.remoteAccessArrival acc) := fun _ _ hq => by cases hq
theorem remoteReply (req : Nat) (data : List Byte × List Bool) : Statement (.remoteReply req data) := fun _ _ hq => by cases hq
theorem remoteRequestLost (req : Nat) : Statement (.remoteRequestLost req) := fun _ _ hq => by cases hq
theorem portStateChange (port : Fin 16) (up : Bool) : Statement (.portStateChange port up) := fun _ _ hq => by cases hq
theorem leaseRevoke (entry : Fin 8) : Statement (.leaseRevoke entry) := fun _ _ hq => by cases hq
theorem leaseNotice (entry : Fin 8) : Statement (.leaseNotice entry) := fun _ _ hq => by cases hq
theorem leaseAck (entry : Fin 8) : Statement (.leaseAck entry) := fun _ _ hq => by cases hq
theorem leaseDeadline (entry : Fin 8) : Statement (.leaseDeadline entry) := fun _ _ hq => by cases hq
theorem lenderReclaim (entry : Fin 8) : Statement (.lenderReclaim entry) := fun _ _ hq => by cases hq
theorem featenWrite (value : W64) : Statement (.featenWrite value) := fun _ _ hq => by cases hq
theorem packageReset : Statement (.packageReset) := fun _ _ hq => by cases hq
theorem mailboxWrite : Statement (.mailboxWrite) := fun _ _ hq => by cases hq
theorem mailboxWriteDone : Statement (.mailboxWriteDone) := fun _ _ hq => by cases hq
theorem mailboxCommit : Statement (.mailboxCommit) := fun _ _ hq => by cases hq
theorem attcmdGo (ctx : Nat) : Statement (.attcmdGo ctx) := fun _ _ hq => by cases hq
theorem attestationReportDone (ctx : Nat) : Statement (.attestationReportDone ctx) := fun _ _ hq => by cases hq
theorem reservoirTick (static : Nat) (debits : List Nat) : Statement (.reservoirTick static debits) := fun _ _ hq => by cases hq
theorem scrub (bad : List Nat) : Statement (.scrub bad) := fun _ _ hq => by cases hq
theorem registerWrite (off : Nat) (value : W64) : Statement (.registerWrite off value) := fun _ _ hq => by cases hq
theorem softError (target : ErrTarget) : Statement (.softError target) := fun _ _ hq => by cases hq
theorem writeBufferDrain (core : Nat) : Statement (.writeBufferDrain core) := fun _ _ hq => by cases hq
theorem barSizeSelect (log : Nat) : Statement (.barSizeSelect log) := fun _ _ hq => by cases hq

end Sys2Proof.Laws.Encoding
end

