-- ==== Sys2Proof/Laws/Runs.lean ====
section
/-! SUPPORT. What the shared runners of an issue do: with an effect in lanes, once for the group, in a handler. -/

namespace Sys2Proof.Machine

theorem and_mask64 (x : Mask) : x &&& 18446744073709551615#64 = x := BitVec.and_allOnes (x := x)

theorem failMask_nil : failMask [] = 0#64 := rfl

theorem Grp.lanesOf_zero (g : Grp) : g.lanesOf 0#64 = [] := by
  simp [Grp.lanesOf]

theorem maskOf_nil : maskOf [] = 0#64 := rfl

/-- Nothing fails in an issue with a lane that waits at no barrier object: it counts (R152). -/
theorem Grp.counts_nil (g : Grp) (h : g.iss.set &&& ~~~g.barWaits ≠ 0#64) : g.counts [] = true := by
  simp [Grp.counts, failMask_nil, and_mask64, h]

@[simp] theorem State.ptIssued_met (s : State) (m : Mask) : (s.ptIssued m).met = s.met := by
  unfold State.ptIssued
  split <;> rfl

@[simp] theorem State.atIssue_met (s : State) (m : Mask) : (s.atIssue m).met = s.met := by simp [State.atIssue]

/-! ## The log of a context keeps nothing out: no entry of it waits for a lock -/

theorem State.foldl_met {α} (l : List α) (f : State → α → State) (s : State) (h : ∀ s x, (f s x).met = s.met) : (l.foldl f s).met = s.met := by
  induction l generalizing s with
  | nil => rfl
  | cons a l ih => rw [List.foldl_cons, ih, h]

@[simp] theorem State.privateWrite_met (s : State) (pa n : Nat) : (s.privateWrite pa n).met = s.met := rfl
@[simp] theorem State.logWrite_met (s : State) (n : Nat) : (s.logWrite n).met = s.met := rfl
@[simp] theorem State.logEntry_met (s : State) (k a d p) : (s.logEntry k a d p).met = s.met := rfl
@[simp] theorem State.logIn_met (s : State) (k a d p) : (s.logIn k a d p).met = s.met := by unfold State.logIn; split <;> rfl
@[simp] theorem State.logReg_met (s : State) (k l r) : (s.logReg k l r).met = s.met := State.logIn_met s k l _ _
@[simp] theorem State.logBlock_met (s : State) (k a bs p) : (s.logBlock k a bs p).met = s.met := by
  unfold State.logBlock
  dsimp only
  split <;> rfl
@[simp] theorem State.logRead_met (s : State) (k a bs p) : (s.logRead k a bs p).met = s.met := by
  unfold State.logRead
  split
  · rfl
  · exact State.foldl_met _ _ _ fun s x => State.logBlock_met s k _ _ _

/-- An issue that runs: its early checks find nothing, and its effect acts on the allowed lanes. -/
theorem State.perform_runs (s : State) (h : Bool) (p : Pred) (chk : Nat → Bool) (op : State → Mask → Did) (hr : s.Runs p chk) :
    s.perform h p chk op = s.conclude [] (op (s.atIssue (s.allowed p)) (s.allowed p)) := by
  obtain ⟨hh, ha, hp, hc⟩ := hr
  have hb : ((s.g.lanesOf (s.allowed p)).filter fun l => !chk l) = [] := by
    simp only [List.filter_eq_nil_iff]
    intro l hl
    simp [hc l hl]
  have hq : s.reached p = s.allowed p := by simp [State.reached, hp]
  simp only [State.perform, hh, hb, maskOf_nil, hq]
  simp [hp, ha, failAll, Grp.lanesOf_zero, and_mask64]

/-- An effect that no lock holds up ends the issue with the lanes that failed. -/
theorem State.conclude_fails (s t : State) (fails : List (Nat × Fail)) (hm : t.met = s.met) :
    s.conclude [] (.done t fails) = .next (t.endIssue fails) := by
  simp [State.conclude, hm, reportWaits, lowestFail, lateFails, sortBy]

/-- An effect that acts with no failing lane retires. -/
theorem State.conclude_done (s t : State) (hm : t.met = s.met) : s.conclude [] (.done t []) = .next t.retire :=
  State.conclude_fails s t [] hm

theorem State.perform_done (s : State) (h : Bool) (p : Pred) (chk : Nat → Bool) (op : State → Mask → Did) (hr : s.Runs p chk) (t : State)
    (ht : op (s.atIssue (s.allowed p)) (s.allowed p) = .done t []) (hm : t.met = s.met) : s.perform h p chk op = .next t.retire := by
  rw [State.perform_runs s h p chk op hr, ht, State.conclude_done s t hm]

/-- An instruction that is performed lane by lane (R248). -/
theorem State.perLane_runs (s : State) (p : Pred) (chk : Nat → Bool) (op : State → Nat → Lane → Lane) (hr : s.Runs p chk) :
    s.perLane p chk op =
      .next ((s.atIssue (s.allowed p)).setG ((s.atIssue (s.allowed p)).g.modLanes ((s.atIssue (s.allowed p)).g.lanesOf (s.allowed p)) (op (s.atIssue (s.allowed p))))).retire :=
  State.perform_done s false p chk _ hr _ rfl (State.atIssue_met s _)

/-- An instruction that its group performs once (R247, R248). -/
theorem State.once_runs (s : State) (h : Bool) (p : Pred) (chk : Nat → Bool) (op : State → Mask → Grp → Grp) (hr : s.Runs p chk) :
    s.once h p chk op = .next ((s.atIssue (s.allowed p)).setG (op (s.atIssue (s.allowed p)) (s.allowed p) (s.atIssue (s.allowed p)).g)).retire :=
  State.perform_done s h p chk _ hr _ rfl (State.atIssue_met s _)

/-- A group-wide instruction that some lane's predicate allows. -/
theorem State.performWide_runs (s : State) (p : Pred) (chk : Nat → Bool) (op : State → Mask → Did) (hr : s.Runs p chk) :
    s.performWide p chk op = s.conclude [] (op (s.atIssue (s.allowed p)) (s.allowed p)) := by
  have : (s.g.iss.set &&& (s.g.predBits p ||| s.g.predPoi p)) ≠ 0#64 := by
    intro h0
    have h1 := hr.2.1
    rw [BitVec.and_or_distrib_left, hr.2.2.1] at h0
    exact h1 (by simpa [State.allowed] using h0)
  simp only [State.performWide, hr.1]
  simp [this, State.perform_runs s false p chk op hr]

/-- A handler's instruction that a handler may run. -/
theorem State.perform_runsH (s : State) (p : Pred) (chk : Nat → Bool) (op : State → Mask → Did) (hr : s.RunsH p) (hc : chk 0 = true) :
    ∀ t, op s.atHandler 0#64 = .done t [] → t.met = s.met → s.perform true p chk op = s.handlerEnd t := by
  obtain ⟨h1, h2, h3⟩ := hr
  intro t ht hm
  by_cases hb : s.g.handler.any (·.budget == 0) = true <;>
    simp [State.perform, h1, State.performHandler, h2, h3, hc, ht, hm, State.handlerEnd, State.budgetOver, State.retireH, hb, cHandlerOver]

theorem State.once_runsH (s : State) (p : Pred) (chk : Nat → Bool) (op : State → Mask → Grp → Grp) (hr : s.RunsH p) (hc : chk 0 = true) :
    s.once true p chk op = s.handlerEnd (s.atHandler.setG (op s.atHandler 0#64 s.atHandler.g)) :=
  State.perform_runsH s p chk _ hr hc _ rfl rfl

/-! ## What the start and the end of an issue leave alone -/

theorem State.ptIssued_g (s : State) (m : Mask) : (s.ptIssued m).g = s.g := by
  unfold State.ptIssued
  split <;> rfl

theorem State.atIssue_g (s : State) (m : Mask) : (s.atIssue m).g = s.g.advance := by
  simp [State.atIssue, State.ptIssued_g]

theorem Grp.modLanes_iss (g : Grp) (ls : List Nat) (f : Nat → Lane → Lane) : (g.modLanes ls f).iss = g.iss := by
  unfold Grp.modLanes
  induction ls generalizing g with
  | nil => rfl
  | cons l t ih => simpa using ih (g.modLane l (f l))

end Sys2Proof.Machine
end

