-- ==== Sys2Proof/Laws/Reads.lean ====
section
/-! SUPPORT. What updates of lanes leave alone, and what an operand reads in the state in which an effect acts: what it read at
issue. -/

namespace Sys2Proof.Machine

/-- Updates of lanes change the lanes alone. -/
theorem Grp.modLanes_eq (g : Grp) (ls : List Nat) (f : Nat → Lane → Lane) : ∃ x, g.modLanes ls f = { g with lanes := x } := by
  unfold Grp.modLanes
  induction ls generalizing g with
  | nil => exact ⟨g.lanes, rfl⟩
  | cons l t ih =>
    obtain ⟨x, hx⟩ := ih (g.modLane l (f l))
    exact ⟨x, hx⟩

theorem Grp.lane_setLane (g : Grp) (l j : Nat) (x : Lane) : (g.setLane l x).lane j = if l = j then x else g.lane j := by
  simp only [Grp.setLane, Grp.lane, bankGet_put]

/-- A lane after updates of lanes that do not repeat. -/
theorem Grp.lane_modLanes (g : Grp) (ls : List Nat) (f : Nat → Lane → Lane) (h : ls.Nodup) (j : Nat) :
    (g.modLanes ls f).lane j = if j ∈ ls then f j (g.lane j) else g.lane j := by
  unfold Grp.modLanes
  induction ls generalizing g with
  | nil => simp
  | cons l t ih =>
    obtain ⟨h1, h2⟩ := List.nodup_cons.mp h
    rw [List.foldl_cons, ih (g.modLane l (f l)) h2]
    by_cases hj : j = l
    · subst hj
      simp [h1, Grp.modLane, Grp.lane_setLane]
    · simp [hj, Grp.modLane, Grp.lane_setLane, Ne.symm hj]

theorem Grp.lanesOf_nodup (g : Grp) (m : Mask) : (g.lanesOf m).Nodup := List.Nodup.filter _ List.nodup_range

@[simp] theorem Grp.modLanes_gw (g : Grp) (ls : List Nat) (f : Nat → Lane → Lane) : (g.modLanes ls f).gw = g.gw := by
  obtain ⟨x, h⟩ := g.modLanes_eq ls f
  rw [h]
@[simp] theorem Grp.modLanes_wb (g : Grp) (ls : List Nat) (f : Nat → Lane → Lane) : (g.modLanes ls f).wb = g.wb := by
  obtain ⟨x, h⟩ := g.modLanes_eq ls f
  rw [h]
@[simp] theorem Grp.modLanes_m (g : Grp) (ls : List Nat) (f : Nat → Lane → Lane) : (g.modLanes ls f).m = g.m := by
  obtain ⟨x, h⟩ := g.modLanes_eq ls f
  rw [h]
@[simp] theorem Grp.modLanes_s (g : Grp) (ls : List Nat) (f : Nat → Lane → Lane) : (g.modLanes ls f).s = g.s := by
  obtain ⟨x, h⟩ := g.modLanes_eq ls f
  rw [h]
@[simp] theorem Grp.modLanes_z (g : Grp) (ls : List Nat) (f : Nat → Lane → Lane) : (g.modLanes ls f).z = g.z := by
  obtain ⟨x, h⟩ := g.modLanes_eq ls f
  rw [h]
@[simp] theorem Grp.modLanes_a (g : Grp) (ls : List Nat) (f : Nat → Lane → Lane) : (g.modLanes ls f).a = g.a := by
  obtain ⟨x, h⟩ := g.modLanes_eq ls f
  rw [h]
@[simp] theorem Grp.modLanes_flags (g : Grp) (ls : List Nat) (f : Nat → Lane → Lane) : (g.modLanes ls f).flags = g.flags := by
  obtain ⟨x, h⟩ := g.modLanes_eq ls f
  rw [h]
@[simp] theorem Grp.modLanes_hbank (g : Grp) (ls : List Nat) (f : Nat → Lane → Lane) : (g.modLanes ls f).hbank = g.hbank := by
  obtain ⟨x, h⟩ := g.modLanes_eq ls f
  rw [h]
@[simp] theorem Grp.modLanes_idx (g : Grp) (ls : List Nat) (f : Nat → Lane → Lane) : (g.modLanes ls f).idx = g.idx := by
  obtain ⟨x, h⟩ := g.modLanes_eq ls f
  rw [h]
@[simp] theorem Grp.modLanes_base (g : Grp) (ls : List Nat) (f : Nat → Lane → Lane) : (g.modLanes ls f).base = g.base := by
  obtain ⟨x, h⟩ := g.modLanes_eq ls f
  rw [h]
@[simp] theorem Grp.modLanes_budget (g : Grp) (ls : List Nat) (f : Nat → Lane → Lane) : (g.modLanes ls f).budget = g.budget := by
  obtain ⟨x, h⟩ := g.modLanes_eq ls f
  rw [h]
@[simp] theorem Grp.modLanes_retired (g : Grp) (ls : List Nat) (f : Nat → Lane → Lane) : (g.modLanes ls f).retired = g.retired := by
  obtain ⟨x, h⟩ := g.modLanes_eq ls f
  rw [h]
@[simp] theorem Grp.modLanes_handler (g : Grp) (ls : List Nat) (f : Nat → Lane → Lane) : (g.modLanes ls f).handler = g.handler := by
  obtain ⟨x, h⟩ := g.modLanes_eq ls f
  rw [h]

/-- A lane of a group that moved to its next word: its PC alone changed. -/
theorem Grp.advance_lane (g : Grp) (l : Nat) :
    g.advance.lane l = { g.lane l with pc := if l ∈ g.lanesOf g.iss.set then g.iss.pc + 8 else (g.lane l).pc } := by
  rw [Grp.advance, Grp.lane_modLanes _ _ _ (Grp.lanesOf_nodup _ _)]
  split <;> rfl

theorem Grp.lanesOf_advance (g : Grp) (m : Mask) : g.advance.lanesOf m = g.lanesOf m := by
  simp [Grp.lanesOf, Grp.laneIdx, Grp.advance]

theorem State.ptIssued_foc (s : State) (m : Mask) : (s.ptIssued m).foc = s.foc := by
  unfold State.ptIssued
  split <;> rfl
theorem State.ptIssued_gr (s : State) (m : Mask) : (s.ptIssued m).gr.lrec = s.gr.lrec := by
  unfold State.ptIssued
  split
  · simp [State.ptClear, State.setPtab, State.modT, State.setT, State.setTeamAt, State.gr, State.gridAt]
  · rfl

@[simp] theorem State.atIssue_foc (s : State) (m : Mask) : (s.atIssue m).foc = s.foc := by
  simp [State.atIssue, State.ptIssued_foc]

theorem State.ptIssued_t (s : State) (m : Mask) : (s.ptIssued m).t.id = s.t.id := by
  unfold State.ptIssued
  split
  · simp [State.ptClear, State.setPtab, State.modT, State.setT, State.setTeamAt, State.t, State.teamAt, KMap.get_set]
  · rfl

theorem State.special_atIssue (s : State) (m : Mask) (l : Nat) (x : Special) : (s.atIssue m).special l x = s.special l x := by
  have h1 : (s.atIssue m).gr.lrec = s.gr.lrec := by simp [State.atIssue, State.ptIssued_gr]
  have h2 : (s.atIssue m).t.id = s.t.id := by simp [State.atIssue, State.ptIssued_t]
  cases x <;> simp [State.special, h1, h2, State.atIssue_g, Grp.advance, Grp.modLanes_iss]

/-- What an operand reads where the effect acts is what it read at issue. -/
theorem State.rd_atIssue (s : State) (m : Mask) (l : Nat) (t : Ty) (o : Opnd) : (s.atIssue m).rd l t o = s.rd l t o := by
  cases o with
  | v i => simp [State.rd, State.atIssue_g, Grp.vReg, Grp.advance_lane]; simp [Grp.advance]
  | s i => simp [State.rd, State.atIssue_g, Grp.sVal, Grp.advance, Grp.modLanes_iss, Grp.sreg]
  | k i => simp [State.rd, State.atIssue_g, Grp.kReg, Grp.advance_lane]
  | y i => simp [State.rd, State.atIssue_g, Grp.yReg, Grp.advance_lane]
  | m i => simp [State.rd, State.atIssue_g, Grp.mBits, Grp.mPoi, Grp.advance]
  | a i => rfl
  | z i => simp [State.rd, State.atIssue_g, Grp.zreg, Grp.advance]
  | const c => rfl
  | spec x => simp [State.rd, State.special_atIssue]

/-! ## In a handler -/

theorem State.atHandler_g (s : State) :
    s.atHandler.g = { s.g with handler := s.g.handler.map fun h => { h with pc := s.g.iss.pc + 8 } } := by
  simp [State.atHandler]
@[simp] theorem State.atHandler_foc (s : State) : s.atHandler.foc = s.foc := rfl
theorem State.atHandler_gr (s : State) : s.atHandler.gr = s.gr := rfl
theorem State.atHandler_t (s : State) : s.atHandler.t = s.t := rfl

/-- What an operand reads where a handler's effect acts is what it read at issue. -/
theorem State.rd_atHandler (s : State) (l : Nat) (t : Ty) (o : Opnd) : s.atHandler.rd l t o = s.rd l t o := by
  have hs : ∀ x, s.atHandler.special l x = s.special l x := by
    intro x
    cases x <;> simp only [State.special, State.atHandler_g, State.atHandler_gr, State.atHandler_t]
  cases o <;> simp only [State.rd, State.atHandler_g, Grp.vReg, Grp.kReg, Grp.yReg, Grp.sVal, Grp.mBits, Grp.mPoi, Grp.lane, Grp.sreg, Grp.zreg, hs]

end Sys2Proof.Machine
end

