-- ==== Sys2Proof/Laws/Values.lean ====
section
/-! SUPPORT. What an issue's operands come to: reads seen through an issue, their bounds, and the arithmetic helpers as BitVec
arithmetic. -/

namespace Sys2Proof.Machine

theorem State.val3_atIssue (s : State) (m : Mask) (l : Nat) (t : Ty) (srcs : List Opnd) (fn) :
    (s.atIssue m).val3 l t srcs fn = s.val3 l t srcs fn := by
  simp only [State.val3, State.rd_atIssue]
theorem State.val3_atHandler (s : State) (l : Nat) (t : Ty) (srcs : List Opnd) (fn) : s.atHandler.val3 l t srcs fn = s.val3 l t srcs fn := by
  simp only [State.val3, State.rd_atHandler]
theorem State.carryIn_atIssue (s : State) (m : Mask) (l : Nat) (o : Opnd) : (s.atIssue m).carryIn l o = s.carryIn l o := by
  cases o <;> simp [State.carryIn, State.atIssue_g, Grp.mBits, Grp.mPoi, Grp.advance]
theorem State.carryIn_atHandler (s : State) (l : Nat) (o : Opnd) : s.atHandler.carryIn l o = s.carryIn l o := by
  cases o <;> simp [State.carryIn, State.atHandler_g, Grp.mBits, Grp.mPoi]
theorem wrap_ofInt (w : Nat) (z : Int) : wrap w z = (BitVec.ofInt w z).toNat := by
  simp [wrap, BitVec.toNat_ofInt]
theorem sgn_toInt (w x : Nat) (hw : 0 < w) : sgn w x = (BitVec.ofNat w x).toInt := by
  simp only [sgn, BitVec.toInt_eq_toNat_cond, BitVec.toNat_ofNat]
  have : 2 ^ w = 2 * 2 ^ (w - 1) := by rw [← pow_succ']; congr 1; omega
  split <;> split <;> omega
theorem State.rd_lt (s : State) (l : Nat) (t : Ty) (o : Opnd) : (s.rd l t o).n < 2 ^ t.w := by
  have h32 : ∀ x : W32, x.toNat < 2 ^ 32 := fun x => x.isLt
  cases o with
  | v i => simp only [State.rd, Ty.w]; split
           · have := h32 (s.g.vReg l i).val; have := h32 (s.g.vReg l (i+1)).val; simp [pairVal]; omega
           · exact h32 _
  | s i => simp only [State.rd, Ty.w]; split
           · unfold Grp.sVal; split
             · exact (bankGet s.g.hbank 0 _).isLt
             · exact (s.g.sreg _).val.isLt
           · simp; omega
  | k i => simp only [State.rd, Ty.w]; split
           · have := h32 (s.g.kReg l i).val; have := h32 (s.g.kReg l (i+1)).val; simp [pairVal]; omega
           · exact h32 _
  | y i => simp only [State.rd, Ty.w]; split
           · have := h32 (s.g.lane l).y0.val; have := h32 (s.g.lane l).y1.val; simp; omega
           · exact h32 _
  | m i => simp only [State.rd]; exact Nat.mod_lt _ (by positivity)
  | a i => simp [State.rd]
  | z i => simp only [State.rd]; exact Nat.mod_lt _ (by positivity)
  | const c => simp only [State.rd]; cases t <;> cases c <;> decide
  | spec x => simp only [State.rd]; refine lt_of_lt_of_le (Nat.mod_lt _ (by positivity)) (Nat.pow_le_pow_right (by omega) ?_); unfold Ty.w; split <;> omega
end Sys2Proof.Machine
end

