-- ==== Sys2Proof/Tests/Slice0.lean ====
section
/-! SUPPORT. Tests on small states, one step each: what WellFormed refuses, what words decode to, the worked examples of the spec, and
a witness of the hypotheses of each statement. -/

namespace Sys2Proof.Tests
open Sys2Proof.Machine Sys2Proof.Claims

set_option maxRecDepth 100000
set_option Elab.async false

/-! ## Small machines -/

/-- Predicate m0. -/
def p0 : Pred := ⟨0, false⟩
/-- A field that a word does not use. -/
def un : Opnd := .v 0
/-- V-format fields with plain codes. -/
def vf (d a b c : Opnd) (t : Ty) (m : BitVec 6) : VF := ⟨d, a, b, c, t, .lane, false, .none, m⟩
/-- M-format fields with plain codes. -/
def mf (d a b : Opnd) (w : Width) (i : BitVec 11) : MF := ⟨d, a, b, .grp, .rlx, .none, w, .none, i⟩
/-- A header of one word, KIND 00, with flags F0 and F1. -/
def hdr1 : W64 := encodeHeader placeHeader
/-- A running lane at the word at VA 8 of the block at 0. -/
def lane0 : Lane := { pc := 8, hdr := hdr1 }
/-- A group of eight running lanes that issues at VA 8. -/
def grp0 : Grp := { gw := 8, lanes := List.replicate 8 lane0, spillLen := 4096, iss := { pc := 8, hdr := hdr1, set := 0xFF } }
/-- A grid of one team that runs. -/
def grid0 : Grid := { phase := .running, lrec := { gw0 := 8, nteam := 1, trapv := 0x1000, scratch := 4096 } }
/-- A resident team of one group with 4 KiB of scratchpad. -/
def team0 : Team := { phase := .resident, groups := [0], size := 4096 }
/-- A machine of one core, team and group. -/
def mach (g : Grp) (t : Team := team0) (gr : Grid := grid0) : State :=
  { nextId := 1, ctxs := [(0, { root := 1 })], cores := [(0, {})], grids := [(0, gr)], teams := [(0, t)], groups := [(0, g)] }
def st0 : State := mach grp0
/-- The same with valid translation registers. -/
def sa0 : State := mach { grp0 with a := List.replicate 8 { valid := true } }
/-- The same with the scalar unit in the trap handler. -/
def sh0 : State := mach { grp0 with handler := some {}, iss := { grp0.iss with handler := true, set := 0 } }
/-- A machine whose pages map VA 0 to 0xFFFF for reads, writes and fetches, with a group that issues at VA 8. -/
def mapped (bs : List Byte) : State :=
  let s := State.reset.place bs
  s.setGrpAt 0 { s.grpAt 0 with iss := { pc := 8, hdr := hdr1, set := 0xFF } }

/-- A machine that runs. -/
def runSt : State := st0.modPkg fun p => { p with bootState := 2 }

/-! ## Witnesses: the hypotheses of each statement hold together somewhere -/

theorem ex2 {α β : Type} (x : α × β) (c : β) (h : x.2 = c) : ∃ a, x = (a, c) := ⟨_, Prod.ext rfl h⟩
theorem eq2 {α β : Type} {x : α × β} {c : β} (h : x.2 = c) : x = (x.1, c) := Prod.ext rfl h
theorem eq3 {α β γ : Type} {x : α × β × γ} {c : γ} (h : x.2.2 = c) : x = (x.1, x.2.1, c) := Prod.ext rfl (Prod.ext rfl h)
theorem eq4 {α β γ δ : Type} {x : α × β × γ × δ} {c : γ} {d : δ} (h : x.2.2.1 = c) (k : x.2.2.2 = d) : x = (x.1, x.2.1, c, d) :=
  Prod.ext rfl (Prod.ext rfl (Prod.ext h k))
theorem ex3 {α β γ : Type} (x : α × β × γ) (c : γ) (h : x.2.2 = c) : ∃ a b, x = (a, b, c) := ⟨_, _, Prod.ext rfl (Prod.ext rfl h)⟩

theorem witness_IntWords_lanes : intRow (.add p0 (vf (.v 0) (.v 15) (.k 7) un .i32 0)) ≠ none ∧ laneDest (.v 0) = true ∧
    st0.Runs p0 (st0.opsOk (withRegs 1 [.v 0, .v 15, .k 7])) := by
  exact ⟨nofun, rfl, by decide +kernel⟩
theorem witness_IntWords_pairs : st0.Runs p0 (st0.opsOk (withRegs 2 [.v 14, .k 6, .s 63, .const .negOne])) := by decide +kernel
theorem witness_IntWords_once : st0.Runs p0 (st0.opsOk (withRegs 2 [.s 5, .const .two])) ∧ sh0.RunsH p0 ∧
    sh0.opsOk (withRegs 2 [.s 5, .s 48]) 0 = true := ⟨by decide +kernel, ⟨by decide +kernel, rfl, rfl⟩, by decide +kernel⟩
theorem witness_ShiftsAndBitFields : (32 = 32 ∨ 32 = 64) ∧ (2 ^ 32 - 1 : Nat) < 2 ^ 32 ∧ (0 : Nat) < 2 ^ 32 ∧ 31 < 32 := by decide
theorem witness_Division : (Ty.i64 = .i32 ∨ Ty.i64 = .i64) ∧ 2 ^ 63 < 2 ^ Ty.i64.w ∧ 2 ^ 64 - 1 < 2 ^ Ty.i64.w ∧ Ty.i64.isI = true := by decide
theorem witness_CarryWords : st0.Runs p0 (st0.opsOk (withRegs 1 [.v 6, .v 0, .v 3])) := by decide +kernel
theorem witness_Comparisons_mask : (Opnd.m 7 = .m 7) ∧ st0.Runs p0 (st0.opsOk (withRegs 2 [.v 14, .k 6])) := by decide +kernel
theorem witness_Comparisons_lanes : laneDest (.k 7) = true ∧ st0.Runs p0 (st0.opsOk ((.k 7, 1) :: withRegs 2 [.v 14, .k 6])) := by decide +kernel
theorem witness_Comparisons_once : st0.Runs p0 (st0.opsOk (withRegs 2 [.s 0, .s 63])) ∧ sh0.opsOk (withRegs 2 [.s 0, .s 63]) 0 = true := by
  decide +kernel
theorem witness_Selections : st0.Runs p0 (st0.opsOk (withRegs 2 [.v 14, .k 6, .const .one])) := by decide +kernel
theorem witness_Immediates : immRow (.ori p0 ⟨.k 7, .v 15, 5⟩) ≠ none ∧ st0.Runs p0 (st0.opsOk (withRegs 1 [.k 7, .v 15])) ∧
    st0.Runs p0 (st0.opsOk (withRegs 1 [.s 63])) ∧ sh0.opsOk (withRegs 1 [.s 63]) 0 = true :=
  ⟨nofun, by decide +kernel, by decide +kernel, by decide +kernel⟩
theorem witness_MaskWords : maskRow (.mandn p0 (vf (.m 7) (.m 0) (.const .one) un .i32 0)) ≠ none ∧ st0.Runs p0 (fun _ => true) ∧
    st0.Runs p0 (st0.opsOk [(.k 7, 1)]) := ⟨nofun, by decide +kernel, by decide +kernel⟩
theorem witness_TranslationWords : sa0.Runs p0 (sa0.opsOk [(.v 14, 2), (.a 7, 1), (.v 15, 1)]) ∧ sa0.Runs p0 (sa0.opsOk [(.a 7, 1), (.s 3, 1)]) ∧
    sa0.Runs p0 (fun _ => true) := by
  decide +kernel
theorem witness_SystemReads : st0.Runs p0 (st0.opsOk [(.v 15, 1)]) ∧ (eff st0 p0).nfPending = false ∧ (0x43#32).toNat ≠ 0 ∧ (0x43#32).toNat < 0x100 ∧
    0x100 ≤ (0x100#32).toNat := by decide +kernel
theorem witness_SystemWrites : st0.Runs p0 (st0.opsOk [(.k 7, 1)]) ∧ (eff st0 p0).nfPending = false ∧
    (∀ l ∈ st0.g.lanesOf (st0.allowed p0), (st0.rd l .n32 (.k 7)).poi = false) ∧ (sh0.rd 0 .b64 (.s 48)).poi = false := by decide +kernel
theorem witness_HandlerRegisterWrites : sh0.RunsH p0 ∧ (sh0.rd 0 .b64 (.s 63)).poi = false ∧ sh0.ptEntry sh0.g.ptsel = none ∧
    (∃ e, (sh0.setPtab [some { mask := 0xFF }]).ptEntry 0 = some e) :=
  ⟨⟨by decide +kernel, rfl, rfl⟩, by decide +kernel, by decide +kernel, _, rfl⟩
theorem witness_CountsAndDraws : st0.Runs p0 (st0.opsOk [(.v 14, 2)]) ∧ st0.Runs p0 (st0.opsOk [(.k 7, 1)]) ∧ (2 ^ 64 - 1 : Nat) < 2 ^ 64 := by
  decide +kernel
theorem witness_LaneAccess : sh0.RunsH p0 ∧ (sh0.rd 0 .n32 (.const .fourHalf)).n < sh0.g.gw ∧ (15 : Nat) < sh0.g.win ∧
    (sh0.rd 0 .b64 (.s 63)).poi = false := ⟨⟨by decide +kernel, rfl, rfl⟩, by decide +kernel, by decide +kernel, by decide +kernel⟩
/-- A handler whose s registers hold an index past the lanes and a poisoned word, over lanes that have exited. -/
def shBad : State := mach { sh0.g with s := [{ val := 8 }, { val := 3, poi := true }], lanes := List.replicate 8 { lane0 with st := .exited } }
theorem witness_LaneAccess_traps : shBad.RunsH p0 ∧ ¬ (shBad.rd 0 .n32 (.s 0)).n < shBad.g.gw ∧ ¬ (16 : Nat) < shBad.g.win ∧ (shBad.rd 0 .b64 (.s 1)).poi = true ∧
    (shBad.g.lane (shBad.rd 0 .n32 (.const .fourHalf)).n).st = .exited ∧ st0.Runs p0 (fun _ => true) :=
  ⟨⟨by decide +kernel, rfl, rfl⟩, by decide +kernel, by decide +kernel, by decide +kernel, by decide +kernel, by decide +kernel⟩
theorem witness_FloatWords : fpRow (.ffma p0 (vf (.v 14) (.k 6) (.v 0) (.v 2) .f64 0)) ≠ none ∧
    st0.Runs p0 (st0.opsOk (withRegs 2 [.v 14, .k 6, .v 0, .v 2])) := ⟨nofun, by decide +kernel⟩
theorem witness_FloatTests : st0.Runs p0 (st0.opsOk (withRegs 1 [.v 15, .k 7])) ∧ st0.Runs p0 (st0.opsOk [(.k 0, 1), (.v 14, 2)]) := by decide +kernel
theorem witness_FlagsOnlySet : ∃ t, exec (.fadd p0 (vf (.v 1) (.v 2) (.v 3) un .f32 0)) st0 = .next t := ⟨_, rfl⟩
theorem witness_Conversions : st0.Runs p0 (st0.opsOk ([(.v 15, 1), (.k 6, 2)] ++ [(.v 14, 2)])) := by decide +kernel
theorem witness_PackedConversions : st0.Runs p0 (st0.opsOk (withRegs 1 [.v 15, .k 7, .s 6])) := by decide +kernel
theorem witness_LaneMoves : moveRow st0 (.shup p0 (vf (.v 3) (.v 2) (.const .one) (.const .zero) .b32 0)) ≠ none ∧
    st0.Runs p0 (fun l => st0.g.opOk l 1 (.v 3) && st0.opsOk (withRegs 1 []) l && st0.g.opOk l 1 (.v 2)) := ⟨nofun, by decide +kernel⟩
theorem witness_LaneVotes : st0.Runs p0 (st0.opsOk [(.v 14, 2)]) ∧ (st0.g.lanesOf (st0.allowed p0)).head? = some 0 ∧
    (st0.g.lanesOf (st0.allowed p0)).getLast? = some 7 := by decide +kernel
theorem witness_LaneTrees : (∃ k, 1 ≤ k ∧ k ≤ 6 ∧ st0.g.gw = 2 ^ k) ∧ st0.Runs p0 (st0.opsOk (withRegs 2 [.v 14, .k 6])) ∧
    st0.Runs p0 (st0.opsOk (withRegs 2 [.v 0])) := ⟨⟨3, by decide⟩, by decide +kernel, by decide +kernel⟩
theorem witness_RegisterWordFrame : laneWord (.pack8 p0 (vf (.v 1) (.v 2) (.k 3) un .e4m3x4 0)) ≠ none ∧
    st0.Runs p0 (st0.opsOk ((.v 1, 1) :: withRegs 1 [.v 2, .k 3])) ∧
    ∃ t, exec (.pack8 p0 (vf (.v 1) (.v 2) (.k 3) un .e4m3x4 0)) st0 = .next t := ⟨nofun, by decide +kernel, _, rfl⟩
/-- A branch by OFS words with no condition. -/
def bf (o : W32) : BF := ⟨un, 0, o⟩
theorem witness_Branches_run : st0.Runs p0 (fun _ => true) ∧ (st0.g.sVal 5).poi = false ∧ sh0.RunsH p0 :=
  ⟨by decide +kernel, by decide +kernel, by decide +kernel, rfl, rfl⟩
theorem witness_Branches_target : ∃ u k, (eff (mapped []) p0).target (targetOf (bf 0xFFFFFFFF) (mapped [])) = (u, k) ∧ k.ok = true :=
  ⟨_, _, (Prod.eta _).symm, by decide +kernel⟩
theorem witness_Branches_bad : ∃ u, (eff st0 p0).target (targetOf (bf 1) { st0 with groups := [(0, { grp0 with iss := { grp0.iss with pc := 9 } })] }) = (u, .bad) :=
  ⟨_, rfl⟩
theorem witness_Branches_lanes : st0.Runs p0 (st0.opsOk [(.k 6, 2)]) ∧ ∃ u xs, (eff (mapped []) p0).lookAll [(0, 0)] = (u, xs, []) :=
  ⟨by decide +kernel, ex3 _ _ (by decide +kernel)⟩

/-- A call at VA 8 with its return-site header after it. -/
def callSt : State := mapped (leBytes 8 0 ++ leBytes 8 hdr1.toNat)
theorem witness_Calls_site : ∃ u w h, (eff callSt p0).fetch 16 0xFF = (u, .word w) ∧ decodeHeader w = some h ∧ h.kind = .ord := by
  obtain ⟨u, h⟩ := ex2 ((eff callSt p0).fetch 16 0xFF) (.word hdr1) (by decide +kernel)
  exact ⟨u, hdr1, placeHeader, h, by decide +kernel, rfl⟩
theorem witness_Calls_fits : ∃ v ps, callPasses 0xFF 0 64 callSt v ps := by
  obtain ⟨v, ps, h⟩ := ex3 (callSt.mapRun .spill (callSt.spillBase + 0) 16) [] (by decide +kernel)
  exact ⟨v, ps, by decide +kernel, by decide +kernel, by decide +kernel, by decide +kernel, h⟩
theorem witness_Calls_spills : ∃ v ps, callPasses 0xFF 16 64 callSt v ps := by
  obtain ⟨v, ps, h⟩ := ex3 (callSt.mapRun .spill (callSt.spillBase + 0) (16 + 4 * 16 * 8)) [] (by decide +kernel)
  exact ⟨v, ps, by decide +kernel, by decide +kernel, by decide +kernel, by decide +kernel, h⟩
theorem witness_Calls_lanes : (∀ l ∈ callSt.g.lanesOf (callSt.allowed p0), callSt.rd l .b64 (.k 6) = ⟨0, false⟩) ∧
    ∃ v xs, callSt.lookAll ((callSt.g.lanesOf (callSt.allowed p0)).map fun l => (l, 0)) = (v, xs, []) ∧ (∀ x ∈ xs, x.2.1 = 0 ∧ x.2.2.ok = true) ∧
      xs ≠ [] := by
  refine ⟨by decide +kernel, _, _, Prod.ext rfl (Prod.ext rfl ?_), ?_, ?_⟩ <;> decide +kernel
/-- A group inside a call whose frame holds one spilled register. -/
def retSt : State :=
  let s := callSt
  s.setGrpAt 0 { s.g with frames := [{ ret := 16, spilled := true, s := 1, n := 1 }], spTop := 48 }
theorem witness_Returns : (∃ u k, (eff retSt p0).target 16 = (u, k) ∧ k.ok = true) ∧ retSt.g.converged (retSt.allowed p0) = true ∧
    ∃ v ps, retSt.mapRun .fill (retSt.spillBase + 16) 32 = (v, ps, []) ∧
      (v.readParts .fill 7 0xFF ps).2.waits = [] ∧ (v.readParts .fill 7 0xFF ps).2.got.bad = false := by
  refine ⟨⟨_, _, (Prod.eta _).symm, by decide +kernel⟩, by decide +kernel, _, _, Prod.ext rfl (Prod.ext rfl ?_), ?_, ?_⟩ <;> decide +kernel
theorem witness_Calls_unheld : (let u := eff callSt p0
    let x := u.mapRun .spill (u.spillBase + 0) (16 + 4 * 16 * 8)
    unheld callSt (called 0xFF 16 64 (targetOf (bf 0xFFFFFFFF) callSt) u x.1 x.2.1)) := by unfold unheld; decide +kernel
theorem witness_Returns_unheld : (let u := ((eff retSt p0).target 16).1
    let x := u.mapRun .fill (u.spillBase + 16) 32
    unheld retSt (x.1.readParts .fill 7 0xFF x.2.1).1) := by unfold unheld; decide +kernel
theorem witness_LaneControl : (∀ i, i < 12 → (0xFFF#32).getLsbD i = true → st0.g.flag i = 0) ∧
    (let s := mach { grp0 with flags := [1] }
     (∃ i, i < 12 ∧ (1#32).getLsbD i = true ∧ s.g.flag i ≠ 0) ∧ (eff s p0).flagStuck 1 = false) := by
  refine ⟨by decide +kernel, ⟨0, by decide +kernel⟩, by decide +kernel⟩
theorem witness_Breakpoints : st0.c.dbgBken = false ∧ (st0.setCtxAt 0 { dbgBken := true }).c.dbgBken = true ∧
    (let here : Option (W64 × W64) := some (grp0.iss.pc, grp0.retired)
     grp0.stepOver ≠ here ∧ ({ grp0 with stepOver := here } : Grp).stepOver = here) := by decide +kernel
theorem witness_SoftwareTrap : st0.Runs p0 (fun _ => true) ∧ st0.gr.lrec.trapv ≠ 0 ∧
    st0.g.iss.set &&& ~~~(maskOf (st0.g.lanesOf (st0.allowed p0))) = 0 := by decide +kernel
theorem witness_TrapLanes : (2, Fail.illHdr) ∈ [(2, Fail.illHdr), (7, Fail.illInstr)] ∧
    ∀ x ∈ [(2, Fail.illHdr), (7, Fail.illInstr)], 2 ≤ x.1 ∧ x.1 < st0.g.gw ∧ x.1 < 64 ∧ x.2.cause ≠ 0 ∧ x.2.skip = false := by decide +kernel
theorem witness_TrapWithoutHandler : let s := mach grp0 team0 { grid0 with lrec := {} }
    s.gr.lrec.trapv = 0 ∧ s.gr.phase ≠ .ended ∧ s.gr.phase ≠ .done := by decide +kernel
theorem witness_DoubleTraps : sh0.g.iss.handler = true ∧ ∃ u x xs, (fun (_ : State) (_ : Mask) => Did.done sh0 [(0, Fail.illOpnd)]) sh0.atHandler 0 =
    Did.done u (x :: xs) := ⟨by decide +kernel, _, _, _, rfl⟩
theorem witness_HandlerBudget : (∃ h, sh0.g.handler = some h) ∧
    (let s := mach { grp0 with handler := some { budget := 0 }, iss := { handler := true } }
     s.g.iss.handler = true ∧ ∃ h, s.g.handler = some h ∧ h.budget = 0) ∧
    (let g := { grp0 with handler := some {} }
     (0, g) ∈ (mach g).groups ∧ g.team ∈ (mach g).setOf 0) ∧ (st0.grpAt 0).handler = none :=
  ⟨⟨_, rfl⟩, ⟨rfl, _, rfl, rfl⟩, ⟨by decide +kernel, by decide +kernel⟩, rfl⟩
theorem witness_TrapReturn : sh0.RunsH p0 ∧ (∃ h, sh0.g.handler = some h) ∧ st0.Runs p0 (fun _ => true) :=
  ⟨⟨by decide +kernel, rfl, rfl⟩, ⟨_, rfl⟩, by decide +kernel⟩
/-- A handler at VA 8, which it reaches as r says, and the word w there. -/
def handSt (w : Nat) (r : Reach) : State :=
  let s := mapped (leBytes 8 w)
  s.setGrpAt 0 { s.grpAt 0 with handler := some { pc := 8, hdr := hdr1, reach := r } }
def isFlt : Fetched → Bool | .flt _ => true | _ => false
theorem isFlt_eq {x : State × Fetched} (h : isFlt x.2 = true) : ∃ u f, x = (u, .flt f) := by
  obtain ⟨u, f⟩ := x
  cases f <;> simp_all [isFlt]
theorem fst_of {α β : Type} {x : α × β} {u : α} {b : β} (h : x = (u, b)) : u = x.1 := by rw [h]
theorem witness_DoubleTraps_words : (Instr.exit ⟨0, false⟩ (vf un un un un .i32 0)).parts ≠ none ∧ handlerWord (.exit p0 (vf un un un un .i32 0)) = false ∧
    (Instr.nop ⟨1, false⟩ (vf un un un un .i32 0)).parts ≠ none ∧ sh0.g.iss.handler = true ∧ unheld sh0 sh0 := by
  refine ⟨by decide +kernel, rfl, by decide +kernel, rfl, rfl⟩
theorem witness_DoubleTraps_fetch : (∃ h, sh0.g.handler = some h ∧ h.reach ≠ .patched) ∧ ∃ u f, sh0.fetch 0 0 = (u, .flt f) ∧
    (u.setIss { pc := 0, bb := 0, hdr := 0, set := 0, handler := true, word := 0 }).recordRoom ≠ 0 := by
  obtain ⟨u, f, h⟩ := isFlt_eq (x := sh0.fetch 0 0) (by decide +kernel)
  exact ⟨⟨_, rfl, by decide⟩, u, f, h, by rw [fst_of h]; decide +kernel⟩
theorem witness_DoubleTraps_judge : ∃ u, (handSt 1 .inside).fetch 8 0 = (u, .word 1) ∧ inBlock 8 0 hdr1 = true ∧
    (match (u.setIss { pc := 8, bb := 0, hdr := hdr1, set := 0, handler := true, word := 1 }).judge hdr1 1 true with
     | .error _ => true | .ok _ => false) = true := by
  obtain ⟨u, h⟩ := ex2 ((handSt 1 .inside).fetch 8 0) (.word 1) (by decide +kernel)
  exact ⟨u, h, by decide +kernel, by rw [fst_of h]; decide +kernel⟩
theorem witness_DoubleTraps_header : ∃ u, (handSt 0 (.header .trap)).fetch 8 0 = (u, .word 0) ∧ decodeHeader 0 = none :=
  let ⟨u, h⟩ := ex2 ((handSt 0 (.header .trap)).fetch 8 0) (.word 0) (by decide +kernel)
  ⟨u, h, by decide +kernel⟩
theorem witness_TrapReturn_budget : (let s := mach { grp0 with handler := some { budget := 0 }, iss := { handler := true } }
    s.RunsH p0 ∧ s.budgetOver = true) ∧ sh0.budgetOver = false := ⟨⟨⟨by decide +kernel, rfl, rfl⟩, by decide +kernel⟩, by decide +kernel⟩
/-- A group of 16 lanes in a grid whose split factor is 2. -/
def wide : State := mach { grp0 with gw := 16, lanes := List.replicate 16 lane0, iss := { grp0.iss with set := 0xFFFF } } team0
  { grid0 with lrec := { grid0.lrec with gw0 := 16, split := 2, c := 4 } }
theorem witness_Split : wide.Runs p0 (fun _ => true) ∧ 1 < (2#32).toNat ∧ (∀ e ∈ wide.groups, e.1 < wide.nextId) ∧ wide.g.flagsClear = true ∧
    wide.g.alive &&& ~~~(wide.allowed p0) = 0 ∧ 8 ≤ wide.g.gw / (2#32).toNat ∧ wide.g.factor * (2#32).toNat ≤ wide.gr.lrec.split ∧
    wide.g.frames = [] ∧ wide.g.gang = [] := by decide +kernel
theorem witness_FuseAndGang : (mach { grp0 with parent := some 9 }).Runs p0 (fun _ => true) ∧ grp0.parent.isNone = true ∧
    (let s := mach { wide.g with s := [{ val := 0x0001 }], gw := 32, iss := grp0.iss } team0 { grid0 with lrec := { grid0.lrec with gw0 := 32, c := 4 } }
     let ms := tab 2 fun i => bitsAt (s.g.sVal 0).n (8 * i) 8
     s.Runs p0 (fun _ => true) ∧ (s.g.sVal 0).poi = false ∧ (∀ i ∈ ms, i < s.gr.lrec.ngroups) ∧ ms.Nodup ∧ s.g.idx ∈ ms) := by decide +kernel
theorem witness_Fusion : (let s : State := { wide with groups := [(0, { grp0 with phase := .split, parts := [1, 2] }),
      (1, { grp0 with parent := some 0, lanes := List.replicate 8 { lane0 with st := .waiting, wait := .gfuse } }),
      (2, { grp0 with parent := some 0, part := 1, lanes := List.replicate 8 { lane0 with st := .exited } })] }
    s.fusionReady 0 = true) := by decide +kernel
/-- The mapped machine with a0 over its page, uncached, with atomics allowed. -/
def ma : State :=
  let s := mapped []
  s.setG { s.g with a := [{ s.atr 0 0 with attr := (s.atr 0 0).attr ||| 0x240 }] }
/-- Whether a fate is a read, a place, or a place in memory. -/
def isGot : Fate → Bool | .got _ => true | _ => false
def isAt : Fate → Bool | .at' _ => true | _ => false
def isMem : Fate → Bool | .at' (.mem _ _ _) => true | _ => false
theorem allRead_of (fs : List (Mask × Nat × Fate)) (h : (fs.all fun x => isGot x.2.2) = true) : allRead fs := by
  intro x hx
  have := List.all_eq_true.mp h x hx
  revert this
  cases x.2.2 <;> simp [isGot]
theorem allPlaced_of (fs : List (Mask × Nat × Fate)) (h : (fs.all fun x => isAt x.2.2) = true) : allPlaced fs := by
  intro x hx
  have := List.all_eq_true.mp h x hx
  revert this
  cases x.2.2 <;> simp [isAt]
/-- Words of eight bytes at a0, at the scratchpad's start, and in K space. -/
def gm : MF := mf (.v 2) (.a 0) (.const .two) .b64 3
def sm : MF := mf (.v 2) (.const .zero) (.const .zero) .b64 511
theorem witness_Loads_global : ma.Runs p0 (ma.opsOk [(gm.d, dataRegs gm), (gm.a, 1), (.v 1, 1)]) ∧
    ∃ u fs, ma.fates (accessOf (mf (.v 2) (.a 0) (.v 1) .b64 1) .load false) 3 (fun _ _ => none) true (ma.shares 0xFF false) = (u, fs) ∧ allRead fs :=
  ⟨by decide +kernel, _, _, (Prod.eta _).symm, allRead_of _ (by decide +kernel)⟩
theorem witness_Loads_scratchpad : st0.Runs p0 (st0.opsOk [(sm.d, dataRegs sm), (sm.a, 1), (sm.b, 1)]) ∧
    ∃ u fs, st0.fates (accessOf sm .load false) 3 (fun _ _ => none) true (st0.shares 0xFF false) = (u, fs) ∧ allRead fs :=
  ⟨by decide +kernel, _, _, (Prod.eta _).symm, allRead_of _ (by decide +kernel)⟩
theorem witness_Stores_global : ∃ u fs, ma.fates (accessOf (mf (.v 2) (.a 0) (.v 1) .b64 1) .store false) 3 (fun _ _ => none) false
    (ma.shares 0xFF false) = (u, fs) ∧ allPlaced fs ∧ fs ≠ [] ∧ u.flagFull (u.sfNow .none) = false :=
  ⟨_, _, (Prod.eta _).symm, allPlaced_of _ (by decide +kernel), by decide +kernel, by decide +kernel⟩
theorem witness_Stores_scratchpad : ∃ u fs, st0.fates (accessOf sm .store false) 3 (dataPoison sm) false (st0.shares 0xFF false) = (u, fs) ∧
    allPlaced fs ∧ fs ≠ [] ∧ u.flagFull (u.sfNow .none) = false :=
  ⟨_, _, (Prod.eta _).symm, allPlaced_of _ (by decide +kernel), by decide +kernel, by decide +kernel⟩
/-- An access whose highest lane lies outside every mapped page; the same with the fault ring and the slots full, and with no entry of the
poison table free. -/
def ff : MF := mf (.v 2) (.a 0) (.v 1) .b64 0
def fltSt : State := ma.setG (ma.g.modLane 7 fun x => x.putVec 0 (.v 1) false ⟨0x20000, false⟩)
def slotSt : State := fltSt.setCtxAt 0 { fltSt.ctxAt 0 with fqTail := 64 }
def fullSt : State := slotSt.setCoreAt 0 { slotSt.coreAt 0 with slots := List.replicate 4 (0, {}) }
def noEntry : State := fltSt.setPtab (List.replicate 8 (some {}))
/-- The same with every active lane outside. -/
def outside : State := ma.setG (ma.g.modLanes (List.range 8) fun _ x => x.putVec 0 (.v 1) false ⟨0x20000, false⟩)
def loadFates (s : State) (f : MF) : State × List (Mask × Nat × Fate) :=
  let b := (eff s p0).beforeRead f.ord f.scope
  b.fates (accessOf f .load false) f.width.code (fun _ _ => none) true (b.shares (s.allowed p0) f.d.isS)
def placesOf (s : State) (f : MF) : State × List (Mask × Nat × Fate) :=
  (eff s p0).fates (accessOf f .store false) f.width.code (dataPoison f) false ((eff s p0).shares (s.allowed p0) (f.d.isS || f.d.isZ))
def isFault : Fate → Bool | .flt _ => true | _ => false
theorem onlyFaults_of (fs : List (Mask × Nat × Fate)) (h : (fs.all fun x => isGot x.2.2 || isAt x.2.2 || isFault x.2.2) = true) : onlyFaults fs := by
  intro x hx
  have := List.all_eq_true.mp h x hx
  revert this
  cases x.2.2 <;> simp [isGot, isAt, isFault]
theorem note_of {x : Option (State × Option W32 × Nat)} (h : x.isSome = true) : ∃ v seq n, x = some (v, seq, n) := by
  obtain ⟨y, rfl⟩ := Option.isSome_iff_exists.mp h
  exact ⟨_, _, _, rfl⟩
/-- What a load leaves that wrote its records: the faulting lanes' destination poisoned, where an entry is free. -/
def loadLeft (s : State) : State × State :=
  let x := ((((loadFates s ff).1.noteFlts .load ff.width.code (fltsOf (loadFates s ff).2)).getD (s, none, 0)).1.guardTouch .load ff.width.code
    (guardsOf (loadFates s ff).2)).modG (deliverFates ff (loadFates s ff).2)
  let m := faultLanes (loadFates s ff).2
  let y := ((x.poisonDest ff.d (dataRegs ff) m).logIn .load 0 (leBytes 8 m.toNat) [true]).ptMake ff.d (dataRegs ff) m none
  (x, (y.sampledIf ff.a .load).afterRead ff.ord ff.scope)
theorem witness_Loads_faults : fltSt.Runs p0 (fltSt.opsOk [(ff.d, dataRegs ff), (ff.a, 1), (ff.b, 1)]) ∧ drained (ff.ord == .sc) fltSt ff.scope ∧
    onlyFaults (loadFates fltSt ff).2 ∧ fltsOf (loadFates fltSt ff).2 ≠ [] ∧
    (∃ v seq n, (loadFates fltSt ff).1.noteFlts .load ff.width.code (fltsOf (loadFates fltSt ff).2) = some (v, seq, n)) ∧
    (loadLeft fltSt).1.ptFree.isSome = true ∧ unheld fltSt (loadLeft fltSt).2 ∧ (loadLeft noEntry).1.ptFree = none ∧
    (loadFates fullSt ff).1.noteFlts .load ff.width.code (fltsOf (loadFates fullSt ff).2) = none :=
  ⟨by decide +kernel, nofun, onlyFaults_of _ (by decide +kernel), by decide +kernel, note_of (by decide +kernel), by decide +kernel,
    by unfold unheld; decide +kernel, by decide +kernel, by decide +kernel⟩
theorem witness_Loads_entries : st0.ptFree = some 0 ∧ ((mach { grp0 with ptsel := 7 }).setPtab (List.replicate 7 (some {}))).ptFree = some 7 ∧
    (7 < st0.g.gw ∧ (0x80 : Mask).getLsbD 7 = true) ∧ st0.g.iss.handler = false := by decide +kernel
/-- The mapped machine in its trap handler. -/
def mh : State := ma.setG { ma.g with handler := some {}, iss := { ma.g.iss with handler := true, set := 0 } }
def fh : MF := mf (.s 48) (.a 0) (.const .zero) .b64 0
theorem witness_Loads_handler : (let b := mh.atHandler.beforeRead fh.ord fh.scope
    let x := b.fates (accessOf fh .load false) fh.width.code (fun _ _ => none) true (b.shares 0 true)
    mh.RunsH p0 ∧ fh.d.isS = true ∧ mh.opsOk [(fh.d, 1), (fh.a, 1), (fh.b, 1)] 0 = true ∧ allRead x.2 ∧
    unheld mh ((((x.1.guardTouch .load fh.width.code (guardsOf x.2)).modG (deliverFates fh x.2)).sampledIf fh.a .load).afterRead fh.ord fh.scope)) :=
  ⟨⟨by decide +kernel, rfl, rfl⟩, rfl, by decide +kernel, allRead_of _ (by decide +kernel), by unfold unheld; decide +kernel⟩
theorem witness_Stores_handler : (let x := mh.atHandler.fates (accessOf fh .store false) fh.width.code (dataPoison fh) false (mh.atHandler.shares 0 true)
    allPlaced x.2 ∧ x.2 ≠ [] ∧ drained false (x.1.beforeWrite fh.ord fh.scope) fh.scope ∧
    unheld mh (((storeFates fh .store false none x.2 ((x.1.beforeWrite fh.ord fh.scope).guardTouch .store fh.width.code (guardsOf x.2))).afterWrite fh.ord
      fh.scope).sampledIf fh.a .store)) := ⟨allPlaced_of _ (by decide +kernel), by decide +kernel, nofun, by unfold unheld; decide +kernel⟩
theorem witness_Stores_faults : onlyFaults (placesOf fltSt ff).2 ∧ fltsOf (placesOf fltSt ff).2 ≠ [] ∧
    (∃ x ∈ (placesOf fltSt ff).2, isAt x.2.2 = true) ∧ (placesOf fltSt ff).1.flagFull ((placesOf fltSt ff).1.sfNow ff.sf) = false ∧
    (let b (s : State) := (placesOf s ff).1.beforeWrite ff.ord ff.scope
     (∃ v seq n, (b fltSt).noteFlts .store ff.width.code (fltsOf (placesOf fltSt ff).2) = some (v, seq, n)) ∧
     (b fullSt).noteFlts .store ff.width.code (fltsOf (placesOf fullSt ff).2) = none ∧
     (let y := ((b fltSt).noteFlts .store ff.width.code (fltsOf (placesOf fltSt ff).2)).getD (fltSt, none, 0)
      let x := (y.1.guardTouch .store ff.width.code (guardsOf (placesOf fltSt ff).2)).flagStart none
      unheld fltSt ((((storeFates ff .store false x.2 (placesOf fltSt ff).2 x.1).flagEnd x.2).afterWrite ff.ord ff.scope).sampledIf ff.a .store))) :=
  ⟨onlyFaults_of _ (by decide +kernel), by decide +kernel, by decide +kernel, by decide +kernel, note_of (by decide +kernel), by decide +kernel,
    by unfold unheld; decide +kernel⟩
theorem witness_Stores_allFault : onlyFaults (placesOf outside ff).2 ∧ fltsOf (placesOf outside ff).2 ≠ [] ∧
    (∀ x ∈ (placesOf outside ff).2, isFault x.2.2 = true) ∧
    unheld outside ((((placesOf outside ff).1.noteFlts .store ff.width.code (fltsOf (placesOf outside ff).2)).getD (outside, none, 0)).1.sampledIf ff.a .store) :=
  ⟨onlyFaults_of _ (by decide +kernel), by decide +kernel, by decide +kernel, by unfold unheld; decide +kernel⟩
theorem witness_Stores_records : fltSt.g.iss.handler = false ∧ noPartials fltSt ∧ fltSt.c.fqLogn ≤ 20 ∧ fltSt.c.savedSlots = [] ∧
    fltSt.c.fqCount + 1 ≤ 2 ^ fltSt.c.fqLogn ∧ slotSt.c.fqFull = true ∧ fullSt.recordRoom = 0 ∧
    (∃ v seq n, slotSt.noteFlts .store 3 (fltsOf (placesOf slotSt ff).2) = some (v, seq, n)) ∧
    faultPages (fltsOf (placesOf fltSt ff).2) [2] := by
  refine ⟨rfl, by unfold noPartials; decide +kernel, by decide +kernel, rfl, by decide +kernel, by decide +kernel, by decide +kernel, note_of (by decide +kernel),
    by simp, fun p => ?_⟩
  have h : (fltsOf (placesOf fltSt ff).2).map (·.page) = [2] := by decide +kernel
  rw [show (∃ f ∈ fltsOf (placesOf fltSt ff).2, f.page = p) ↔ p ∈ (fltsOf (placesOf fltSt ff).2).map (·.page) by simp, h]
/-- Lanes whose words lie in the window of a0, and lanes whose words lie past it. -/
theorem witness_Stores_frame : ff.a.isA = true ∧ noPartials ma ∧ (ma.g.areg 0).stale = false ∧ (∀ l ∈ accessLanes ma p0 ff.d, inWindow ma ff l) ∧
    allPlaced (placesOf ma ff).2 ∧ (placesOf ma ff).1.flagFull ((placesOf ma ff).1.sfNow .none) = false ∧
    (let s := ma.setG { ma.g with a := [{ ma.g.areg 0 with limit := 0 }] }
     (∀ l ∈ accessLanes s p0 ff.d, ¬ inWindow s ff l) ∧ allPlaced (placesOf s ff).2) := by
  refine ⟨rfl, by unfold noPartials; decide +kernel, by decide +kernel, ?_, allPlaced_of _ (by decide +kernel), by decide +kernel, ?_, allPlaced_of _ (by decide +kernel)⟩ <;>
    unfold inWindow <;> decide +kernel
/-- The mapped machine with an entry of the table of a level. -/
def entrySt (level n bits : Nat) : State := { ma with mem := memWrite ma.mem (level * 65536) (placeEntry 0 n bits) }
theorem witness_Stores_walks : noPartials ma ∧ canonical 0 = true ∧ canonical (1 <<< 54) = false ∧ ma.ownFrame 1 = true ∧ bitsAt ma.c.root.toNat 16 36 = 1 ∧
    tableEntry ma 1 1 0 ∧ tableEntry ma 1 0 0x20001 ∧ nextTable ma 0x20001 ∧ tableEntry ma 2 0 0x30001 ∧ nextTable ma 0x30001 ∧
    tableEntry ma 3 0 0x4001F ∧ leafEntry 0x4001F ∧ tableEntry (entrySt 1 4 0x1F) 1 0 0x4001F ∧ tableEntry (entrySt 2 4 0x1F) 2 0 0x4001F ∧
    bitsAt 0x4001F 16 13 ≠ 0 ∧ tableEntry (entrySt 2 8192 0x1F) 2 0 0x2000001F ∧ leafEntry 0x2000001F ∧ bitsAt 0x2000001F 16 13 = 0 ∧
    tableEntry (entrySt 3 4 1) 3 0 0x40001 ∧ (0x40001#64).getLsbD 1 = false ∧ (ma.hbmPoison [65536 / 8] true).hbmPoi 65536 8 = true ∧
    (ma.setCtxAt 0 { ma.c with root := BitVec.allOnes 64 }).ownFrame (2 ^ 36 - 1) = false := by
  unfold noPartials tableEntry nextTable leafEntry
  decide +kernel
theorem witness_Stores_checks : (let s := ma.modPkg fun p => { p with routing := [(1, BitVec.ofNat 64 (2 ^ 63 + 2 ^ 16 + 1))] }
    s.isLocal 0 = true ∧ s.isLocal (2 ^ 43) = false ∧ (s.pkg.routing.get 0 (paChip (2 ^ 43))).getLsbD 63 = false ∧
    s.isLocal (2 ^ 42 + 2 ^ 32) = false ∧ (s.pkg.routing.get 0 (paChip (2 ^ 42 + 2 ^ 32))).getLsbD 63 = true ∧
    (s.pkg.routing.get 0 (paChip (2 ^ 42 + 2 ^ 32))).toNat % 65536 ≠ 0 ∧
    bitsAt (s.pkg.routing.get 0 (paChip (2 ^ 42 + 2 ^ 32))).toNat 16 9 * 2 ^ 32 ≤ paLocal (2 ^ 42 + 2 ^ 32)) := by decide +kernel
theorem witness_ScratchpadStoreFrame : (∀ i, sm.a ≠ .a i) ∧ sm.ord = .rlx ∧ st0.scrSize 0 < 2 ^ 32 ∧ ∀ l ∈ accessLanes st0 p0 sm.d,
    scrClean st0 sm l ∧ (st0.storeData l sm.d sm.width).2 = false ∧ st0.scrGuarded 0 (scrAddr st0 sm l) 8 = false := by
  refine ⟨nofun, rfl, by decide +kernel, fun l hl => ⟨⟨?_, nofun, ?_, ?_⟩, ?_, ?_⟩⟩ <;> revert l <;> decide +kernel
theorem witness_ScratchpadLoadResult : laneDest sm.d = true ∧ sm.width ≠ .b128 ∧ ∀ l ∈ accessLanes st0 p0 sm.d,
    (st0.scrRead 0 (scrAddr st0 sm l) 8).bad = false := by
  refine ⟨rfl, nofun, ?_⟩
  decide +kernel
theorem witness_Loads_end : (let f := mf (.v 2) (.a 0) (.v 1) .b64 1
    let x := ((eff ma p0).beforeRead f.ord f.scope).fates (accessOf f .load false) f.width.code (fun _ _ => none) true
      (((eff ma p0).beforeRead f.ord f.scope).shares (ma.allowed p0) f.d.isS)
    unheld ma ((((x.1.guardTouch .load f.width.code (guardsOf x.2)).modG (deliverFates f x.2)).sampledIf f.a .load).afterRead f.ord f.scope)) ∧
    drained true ((eff ma p0).beforeRead .sc .pod) .pod := ⟨by unfold unheld; decide +kernel, fun _ => by decide +kernel⟩
/-- The state after a store whose every access is at its place. -/
def storeEnd (s : State) (f : MF) : State :=
  let x := (eff s p0).fates (accessOf f .store false) f.width.code (dataPoison f) false ((eff s p0).shares (s.allowed p0) (f.d.isS || f.d.isZ))
  let v := ((x.1.beforeWrite f.ord f.scope).guardTouch .store f.width.code (guardsOf x.2)).flagStart (x.1.sfNow f.sf)
  (((x.2.foldl (fun s x => match x.2.2 with
    | .at' y => (s.storeAt .store f.width.code x.1 y (s.storeData x.2.1 f.d f.width).1 v.2).wrote (s.digAddr false y) (s.storeData x.2.1 f.d f.width).1
    | _ => s) v.1).flagEnd v.2).afterWrite f.ord f.scope).sampledIf f.a .store
theorem witness_Stores_end : unheld ma (storeEnd ma (mf (.v 2) (.a 0) (.v 1) .b64 1)) ∧
    drained true ((eff ma p0).beforeWrite .rel .pod) .pod := ⟨by unfold unheld; decide +kernel, fun _ => by decide +kernel⟩
/-- A machine whose core holds one store to local HBM. -/
def wbSt : State := { st0 with cores := [(0, { wbuf := [{ pa := 0x5000, data := [1, 2, 3, 4] }] })] }
theorem witness_BufferedStorePerforms : (wbSt.coreAt 0).wbuf = [{ pa := 0x5000, data := [1, 2, 3, 4] }] ∧ wbSt.isLocal 0x5000 = true ∧
    wbSt.inSpillRegion (paLocal 0x5000) = false ∧ ∀ c ∈ wbSt.cores, ∀ l ∈ c.2.l1, l.isU = false := by decide +kernel
theorem witness_BufferedStorePerforms_blocked : wbSt.blocked 0x5000 4 true = false ∧
    (({ wbSt with groups := [(0, { grp0 with stall := .tile [161] [160] false [] 0 })] } : State).blocked 0x5000 4 true = true) := by decide +kernel
theorem witness_BufferedStorePerforms_grant : st0.packetsAt st0.autoEvents 0 = [] ∧ wbSt.packetsAt wbSt.autoEvents 0 ≠ [] := by decide +kernel
/-- A tile of one row of 16 bytes at the end of the allocation, and one of two rows at a0. -/
def tm : MF := mf (.v 0) (.const .zero) (.s 0) .b128 255
def tg : MF := mf (.v 0) (.a 0) (.s 0) .b128 0
def mt : State := ma.setG { ma.g with s := [{ val := 0x1001 }] }
theorem witness_Tiles_load : st0.g.stall = .none ∧ ∃ u offs, st0.tileLook tm .tileLoad 0xFF = (u, .scr offs) ∧
    ∀ o ∈ offs, (u.scrRead u.foc.team o 16).bad = false :=
  ⟨rfl, by
    obtain ⟨u, h⟩ := ex2 (st0.tileLook tm .tileLoad 0xFF) (.scr [4080]) (by decide +kernel)
    refine ⟨u, [4080], h, ?_⟩
    rw [show u = st0 by rw [show u = (st0.tileLook tm .tileLoad 0xFF).1 by rw [h]]; decide +kernel]
    decide +kernel⟩
theorem witness_Tiles_store : ∃ u, st0.tileLook tm .tileStore 0xFF = (u, .scr [4080]) ∧ st0.flagFull (st0.sfNow .none) = false := by
  obtain ⟨u, h⟩ := ex2 (st0.tileLook tm .tileStore 0xFF) (.scr [4080]) (by decide +kernel)
  exact ⟨u, h, by decide +kernel⟩
theorem witness_Tiles_global : (match (mt.tileLook tg .tileStore 0xFF).2 with | .mem rows => rows.length == 2 | _ => false) = true := by decide +kernel
/-- The rows of the tile at a0, with every lock of them held. -/
def tileRows0 : List (Nat × Nat) := [(262144, 2), (262160, 2)]
def heldSt : State := mt.setG { mt.g with stall := .tile [] [2048] false tileRows0 0 }
theorem witness_Tiles_locked : (∃ u bs, (eff heldSt p0).tileRead 0xFF 16 [(0, (262144, 2)), (16, (262160, 2))] = (u, bs, [])) ∧
    unheld heldSt (((eff heldSt p0).tileWrite 0xFF (fun k => BitVec.ofNat 64 (16 * k)) 16 tileRows0 (List.replicate 32 0) none).unlockLines [2048]) :=
  ⟨ex3 _ _ (by decide +kernel), by unfold unheld; decide +kernel⟩
theorem witness_Tiles_read : (let x := (eff heldSt p0).tileRead 0xFF 16 [(0, (262144, 2)), (16, (262160, 2))]
    x.2.2 = [] ∧ unheld heldSt ((((((x.1.unlockLines [2048]).logRows 16 x.2.1 (fun k => 16 * k) 2).sampled .tileLoad).modG fun g => g.putTile (.v 0) x.2.1)).afterRead .rlx .grp)) ∧
    (match (mt.tileLook tg .tileLoad 0xFF).2 with | .mem rows => rows.length == 2 | _ => false) = true ∧
    (let u := (st0.logRows 16 (List.replicate 16 0) digScr 1).modG fun g => g.putTile tm.d (List.replicate 16 0)
     unheld st0 (u.afterRead tm.ord tm.scope)) := by unfold unheld; decide +kernel
def isNext (o : Out) : Bool := match o with | .next _ => true | _ => false
theorem next_of {o : Out} (h : isNext o = true) : ∃ t, o = .next t := by cases o <;> simp_all [isNext]
/-- A group that asks for a lock of its tile, with the word of a TLD. -/
def lockSt (left : List Nat) : State :=
  mt.setG { mt.g with stall := .tile left [] false tileRows0 0, iss := { mt.g.iss with word := (encode (.tld p0 tg)).getD 0 } }
theorem witness_Tiles_grant : let s := (lockSt [2048]).focusGrp 0
    let v := (s.gather 2048).freshOrder.1.modG fun g => { g with stall := .tile [] [2048] false tileRows0 (s.gather 2048).order }
    s.isLocal (128 * 2048) = true ∧ s.lockBusy 0 2048 false 0 = false ∧ unheld s (s.gather 2048) ∧ decodeWord v.g.iss.word = .ok (.tld p0 tg) ∧
    ∃ t, exec (.tld p0 tg) v = .next t :=
  ⟨by decide +kernel, by decide +kernel, by unfold unheld; decide +kernel, rfl, next_of (by decide +kernel)⟩
/-- The same while another tile, or an earlier asker, keeps it out, and for a line of another chip. -/
theorem witness_Tiles_busy : (let s (st : Stall) : State := { lockSt [2048] with groups := (lockSt [2048]).groups ++ [(1, { grp0 with stall := st })] }
    ((s (.tile [] [2048] true [] 0)).focusGrp 0).lockBusy 0 2048 false 0 = true ∧ ((s (.tile [2048] [] true [] 0)).focusGrp 0).lockBusy 0 2048 false 1 = true) ∧
    ((lockSt [2048, 2049]).grpAt 0).stall = .tile [2048, 2049] [] false tileRows0 0 ∧ mt.isLocal (128 * 2 ^ 35) = false := by
  decide +kernel
def am : MF := mf (.v 2) (.a 0) (.const .two) .b32 0
theorem witness_Atomics : atomRow (.atom p0 am) ≠ none ∧ ma.Runs p0 (ma.opsOk [(.v 2, 1), (.a 0, 1), (.const .zero, 1)]) ∧
    ∃ u fs, ma.atomFates { acc := .atomic, a := .a 0, b := .const .zero, n := 4 } 0 1 (.v 2) (ma.shares 0xFF false) = (u, fs) ∧ allPlaced fs :=
  ⟨nofun, by decide +kernel, _, _, (Prod.eta _).symm, allPlaced_of _ (by decide +kernel)⟩
def isAtomicFate (n : Nat) : Fate → Bool
  | .at' (.guard _) => false
  | .at' _ => true
  | .guard _ => true
  | .got bs => decide (ofLe bs < 2 ^ (8 * n)) && decide (bs = leBytes n (ofLe bs))
  | _ => false
theorem allAtomic_of (n : Nat) (fs : List (Mask × Nat × Fate)) (h : (fs.all fun x => isAtomicFate n x.2.2) = true) : allAtomic n fs := by
  intro x hx
  have := List.all_eq_true.mp h x hx
  revert this
  rcases x.2.2 with _ | _ | _ | bs | _ | y <;> simp [isAtomicFate]
  · intro h1 h2; exact ⟨_, h1, h2⟩
  · cases y <;> simp
theorem witness_Atomics_end : (let f := mf (.v 2) (.a 0) (.const .zero) .b32 0
    let v := ((eff ma p0).beforeWrite f.ord f.scope).beforeRead f.ord f.scope
    let x := v.atomFates { acc := .atomic, a := f.a, b := f.b, n := f.width.bytes } f.i 1 f.d (v.shares (ma.allowed p0) f.d.isS)
    let w := x.1.guardTouch .atomic f.width.code (guardsOf x.2)
    allAtomic f.width.bytes x.2 ∧
    unheld ma (((x.2.foldl (atomStep f 1 (fun env ws old => (some (atomNew env f.op .i32 old (wordsVal ws)).1, (atomNew env f.op .i32 old (wordsVal ws)).2)) w) w).sampledIf
      f.a .atomic).afterRead f.ord f.scope)) := ⟨allAtomic_of _ _ (by decide +kernel), by unfold unheld; decide +kernel⟩
/-- An atomic of a handler: a word of an s register at a0. -/
def ah : MF := mf (.s 48) (.a 0) (.const .zero) .b32 0
theorem witness_Atomics_handler : atomRow (.atom p0 ah) ≠ none ∧ mh.RunsH p0 ∧ ah.d.isS = true ∧ mh.opsOk [(ah.d, 1), (ah.a, 1), (ah.b, 1)] 0 = true ∧
    (let v := (mh.atHandler.beforeWrite ah.ord ah.scope).beforeRead ah.ord ah.scope
     let x := v.atomFates { acc := .atomic, a := ah.a, b := ah.b, n := ah.width.bytes } ah.i 1 ah.d (v.shares 0 true)
     let w := x.1.guardTouch .atomic ah.width.code (guardsOf x.2)
     x.2 ≠ [] ∧ allAtomic ah.width.bytes x.2 ∧
     unheld mh (((x.2.foldl (atomStep ah 1 (fun env ws old => (some (atomNew env ah.op .i32 old (wordsVal ws)).1, (atomNew env ah.op .i32 old (wordsVal ws)).2)) w) w).sampledIf
       ah.a .atomic).afterRead ah.ord ah.scope)) :=
  ⟨nofun, ⟨by decide +kernel, rfl, rfl⟩, rfl, by decide +kernel, by decide +kernel, allAtomic_of _ _ (by decide +kernel), by unfold unheld; decide +kernel⟩
theorem witness_Atomics_values : (2 ^ 64 - 1 : Nat) < 2 ^ 64 ∧ Ty.i32.isI = true ∧ Ty.n64.isInt = true ∧ Ty.n64.isI = false ∧ Ty.f32.isInt = false := by decide
theorem witness_Reductions_red : ∃ u fs, ma.fates { acc := .reduction, a := .a 0, b := .const .zero, n := 4 } 2 (fun _ _ => none) false
    (ma.shares 0xFF false) = (u, fs) ∧ (∀ x ∈ fs, ∃ va pa cp, x.2.2 = .at' (.mem va pa cp)) ∧ fs ≠ [] ∧ u.flagFull (u.sfNow .none) = false := by
  refine ⟨_, _, (Prod.eta _).symm, fun x hx => ?_, by decide +kernel, by decide +kernel⟩
  have h : ((ma.fates { acc := .reduction, a := .a 0, b := .const .zero, n := 4 } 2 (fun _ _ => none) false (ma.shares 0xFF false)).2.all
    fun x => isMem x.2.2) = true := by decide +kernel
  have := List.all_eq_true.mp h x hx
  revert this
  rcases x.2.2 with _ | _ | _ | _ | _ | y <;> simp [isMem]
  cases y <;> simp
theorem witness_Reductions_rflush : st0.Runs p0 (fun _ => true) ∧ (0 : Nat) ≠ 1 ∧ (eff st0 p0).flagFull ((eff st0 p0).sfNow .none) = false ∧
    st0.gr.det = false ∧ (mach grp0 team0 { grid0 with lrec := { grid0.lrec with flags := 1 } }).gr.det = true := by decide +kernel
/-- A grid with one partial in flight. -/
def flightSt : State := mach grp0 team0 { grid0 with flight := [{ pa := 64 }] }
theorem witness_Reductions_stage : ((flightSt.gridAt 0).flight.find? fun q => q.team == (flightSt.teamAt 0).id && q.epoch == (flightSt.gridAt 0).epoch) = some { pa := 64 } ∧
    ¬ 8 ≤ flightSt.setStaged 64 ∧
    (let s (n : W32) := (mach grp0 team0 { grid0 with flight := [{ pa := 64 }], staged := List.replicate 8 { pa := 64 } }).setCtxAt 0 { rspSize := n }
     let u (n : W32) := (s n).setGridAt 0 { (s n).gridAt 0 with flight := [], staged := ((s n).gridAt 0).staged ++ [{ pa := 64, spilled := true }] }
     8 ≤ (s 1).setStaged 64 ∧ (u 1).rspOver 0 = false ∧ 8 ≤ (s 0).setStaged 64 ∧ (u 0).rspOver 0 = true) := by decide +kernel
theorem witness_Reductions_epoch : (mach { grp0 with phase := .retired } { team0 with phase := .retired, gridFlushed := 1, epochO := 1 }
    { grid0 with lrec := { grid0.lrec with flags := 1 }, nextTeam := 1, staged := [{}] }).epochReady 0 = true := by decide +kernel
def rm : MF := mf (.v 2) (.a 0) (.const .zero) .b32 0
/-- A reduction of every lane at its place: the state it leaves, and whether each contribution found room. -/
def redEnd (s : State) : State × Bool :=
  let x := (eff s p0).fates { acc := .reduction, a := rm.a, b := rm.b, n := 4 } rm.width.code (fun _ _ => none) false ((eff s p0).shares (s.allowed p0) false)
  let v := (x.1.beforeWrite rm.ord rm.scope).flagStart (x.1.sfNow rm.sf)
  let r := x.2.foldl (fun (a : State × Bool) x =>
    match x.2.2 with
    | .at' (.mem va pa cp) =>
      let y := (a.1.digest va.toNat (leBytes 4 (v.1.rd x.2.1 .i32 rm.d).n)).redAt pa cp rm.op .i32 (v.1.rd x.2.1 .i32 rm.d).n x.2.1 v.2
      (y.1, a.2 && y.2)
    | _ => a) (v.1, true)
  ((r.1.flagEnd v.2).sampledIf rm.a .reduction, r.2)
/-- The same machine with a DET grid whose reduction buffer is full and whose context has no spill region. -/
def fullRed : State :=
  let s := ma.setGridAt 0 { ma.gridAt 0 with lrec := { (ma.gridAt 0).lrec with flags := 1 } }
  s.setTeamAt 0 { s.teamAt 0 with contribs := List.replicate 2048 {} }
theorem witness_Reductions_red_end : (redEnd ma).2 = true ∧ unheld ma (redEnd ma).1 ∧ (redEnd fullRed).2 = false :=
  ⟨by decide +kernel, by unfold unheld; decide +kernel, by decide +kernel⟩
/-- A machine whose core holds one partial at home. -/
def uSt : State := { ma with cores := [(0, { l1 := [{ line := 2048, words := [{ off := 0, value := 5 }] }] })] }
/-- A tile of another group holds the lock of that line. -/
def heldBy (s : State) : State := { s with groups := s.groups ++ [(1, { grp0 with team := 1, stall := .tile [7] [2048] true [] 0 })] }
theorem witness_Reductions_partial : unheld uSt (uSt.sendU 0 2048) ∧ ¬ unheld (heldBy uSt) ((heldBy uSt).sendU 0 2048) ∧
    unheld ma ((eff ma p0).sendAllU 0) := by unfold unheld; decide +kernel
theorem witness_Reductions_fast : (let s := mach { grp0 with s := [{ val := 0 }] } team0 { grid0 with lrec := { grid0.lrec with nbar := 1 } }
    let v := (eff s p0).flagStart ((eff s p0).sfNow .none)
    s.gr.det = false ∧ unheld s ((v.1.sendAllU 0).barLand { team := 0, off := 0, addr := 4096 } 8)) := ⟨by decide +kernel, by unfold unheld; decide +kernel⟩
/-- A DET grid whose only team has retired, with one partial of the open epoch at home. -/
def closeSt : State :=
  (mach { grp0 with phase := .retired } { team0 with phase := .retired, gridFlushed := 1, epochO := 1 }
    { grid0 with lrec := { grid0.lrec with flags := 1 }, nextTeam := 1, staged := [{ pa := 262144 }] })
theorem witness_Reductions_close : closeSt.epochReady 0 = true ∧
    (let u := closeSt.applyOpen 0 (closeSt.gridAt 0).openStaged
     u.met = closeSt.met ∧ (u.ctxAt 0).holds (.anvil 0) = false) ∧
    (heldBy closeSt).epochReady 0 = true ∧ ((heldBy closeSt).applyOpen 0 (closeSt.gridAt 0).openStaged).met ≠ (heldBy closeSt).met := by decide +kernel
theorem witness_FencesAndLines : ma.Runs p0 (ma.opsOk [(.a 0, 1), (.const .zero, 1)]) ∧ sh0.RunsH p0 ∧
    ∃ u fs, ma.fates (accessOf am .load false) 0 (fun _ _ => none) false (ma.shares 0xFF false) = (u, fs) :=
  ⟨by decide +kernel, ⟨by decide +kernel, rfl, rfl⟩, _, _, (Prod.eta _).symm⟩
/-- A machine with a store of its core out at a peer. -/
def outSt : State := ma.modPkg fun p => { p with peerOut := [{ id := 9, kind := .store, core := some 0 }] }
theorem witness_Fences_wait : ¬ drained true ((eff outSt p0).beforeWrite .rel .pkg) .pkg ∧ drained true ((eff ma p0).beforeWrite .ar .pkg) .pkg ∧
    drained true (sh0.atHandler.beforeWrite .ar .pkg) .pkg ∧ unheld outSt (((eff outSt p0).beforeWrite .ar .pkg).acquire .pkg) ∧
    unheld sh0 ((sh0.atHandler.beforeWrite .ar .pkg).acquire .pkg) := by unfold unheld; decide +kernel
theorem witness_Lines_end : (let f := mf un (.a 0) (.const .zero) .b32 0
    let x := (eff ma p0).fates { accessOf f .load false with hint := .none } 0 (fun _ _ => none) false ((eff ma p0).shares (ma.allowed p0) false)
    let each (op : State → Nat → Nat → State) : State := x.2.foldl (fun s y => match y.2.2 with | .at' (.mem _ pa cp) => op s pa cp | _ => s) x.1
    unheld ma (each fun s pa _ => s.dropValid s.foc.core (· == pa / 128)) ∧ unheld ma (each fun s pa _ => s.sendU s.foc.core (pa / 128)) ∧
    unheld ma (each fun s pa cp => s.prefetch f.hint pa cp)) := by unfold unheld; decide +kernel
/-- A team with one barrier object at its offset 4096, whose phase expects eight lanes. -/
def barSt : State := mach { grp0 with s := [{ val := 4096 }, { val := 65535 }] }
  { team0 with scr := memWrite [] 4096 [0, 0, 0, 0, 0, 0, 8, 0] } { grid0 with lrec := { grid0.lrec with nbar := 1 } }
def bm : MF := mf (.s 1) (.s 0) (.const .zero) .b8 0
theorem witness_Reductions_counted : (let s : State := { barSt with grids := [(0, { grid0 with lrec := { grid0.lrec with flags := 1, nbar := 1 } })] }
    let v := (eff s p0).flagStart ((eff s p0).sfNow .none)
    let counted (u : State) : State := ((u.modG fun g => { g with flushes := 1 }).runFlushes 0).flagEnd v.2
    unheld s (counted v.1) ∧ (∃ b, s.barName false ((s.g.sVal 0).n % 2 ^ 32) = some b) ∧
    unheld s (counted (v.1.modT fun t => { t with flushNamed := t.flushNamed ++ [(0, {})] }))) :=
  ⟨by unfold unheld; decide +kernel, ⟨{ team := 0, off := 4096, addr := 4096 }, by decide +kernel⟩, by unfold unheld; decide +kernel⟩
theorem witness_Barriers : ∃ b, names (eff barSt p0) bm [bm.a, bm.b, bm.d] b ∧ noReports barSt ∧ 1 ≤ (barSt.rd 0 .b64 bm.d).n ∧
    (barSt.rd 0 .b64 bm.d).n ≤ 65535 ∧ ((eff barSt p0).barGet b).ov = false ∧
    ((eff barSt p0).barGet b).expb + (barSt.rd 0 .n32 bm.d).n < 2 ^ 32 := by
  refine ⟨{ team := 0, off := 4096, addr := 4096 }, ⟨?_, ?_⟩, ⟨rfl, rfl⟩, ?_⟩ <;> decide +kernel
theorem witness_Barriers_arrive : (let o := barSt.barGet { team := 0, off := 4096, addr := 4096 }
    o.arrl + (barSt.g.lanesOf (barSt.allowed p0)).length ≤ o.expl) ∧ MF.arriveL bm = false := by decide +kernel
theorem witness_Barriers_test : barSt.Runs p0 (barSt.opsOk [(.k 7, 1)]) ∧ barSt.gr.det = false := by decide +kernel
theorem witness_BarrierTest : (let o : BarObj := { expl := 3, arrl := 3, expb := 8, landb := 8 }
    o.arrl = o.expl ∧ o.landb = o.expb) ∧ (let o : BarObj := { expl := 3, arrl := 3, expb := 8, landb := 9 }
    o.arrl = o.expl ∧ o.expb < o.landb) ∧ (let o : BarObj := { expl := 3, arrl := 3, expb := 8, landb := 7 }
    o.arrl ≠ o.expl ∨ o.landb < o.expb) := by decide
theorem witness_Barriers_release : ((eff barSt p0).release .pkg).released .pkg = true ∧ unheld barSt ((eff barSt p0).release .pkg) ∧ barSt.gr.det = false ∧
    MF.arriveL (mf (.s 1) (.s 0) (.const .zero) .b8 2) = true ∧
    (let s : State := { barSt with grids := [(0, { grid0 with lrec := { grid0.lrec with nbar := 1, flags := 1 } })] }
     s.gr.det = true ∧ ((eff s p0).release .pkg).released .pkg = true ∧ unheld s ((eff s p0).release .pkg)) := by unfold unheld; decide +kernel
def isOk : Except Flt Trans → Bool | .ok _ => true | .error _ => false
def okOr : Except Flt Trans → Trans | .ok t => t | .error _ => {}
theorem isOk_eq {e : Except Flt Trans} (h : isOk e = true) : e = .ok (okOr e) := by cases e <;> simp_all [isOk, okOr]
theorem ok_of {ε α : Type} [DecidableEq α] (x : Except ε α) (b : α) (h : (match x with | .ok y => decide (y = b) | .error _ => false) = true) :
    x = .ok b := by
  cases x with
  | ok y => simpa using h
  | error e => exact absurd h (by simp)
/-- The 64 bytes of a layout record of ext elements of 1 byte in the own scratchpad. -/
def boxBytes (base ext : Nat) : List Byte :=
  leBytes 8 base ++ [1, 0, 1, 0] ++ leBytes 4 0 ++ leBytes 4 ext ++ leBytes 4 1 ++ leBytes 4 1 ++ leBytes 4 1 ++ List.replicate 32 0
def box (base ext : Nat) : Layout := { base := BitVec.ofNat 64 base, space := 1, ext := [ext, 1, 1, 1] }
/-- A team with two records, in a grid with streams. -/
def cpySt : State := mach { grp0 with s := [{ val := 0 }, { val := 64 }] }
  { team0 with scr := memWrite (memWrite [] 0 (boxBytes 1024 32)) 64 (boxBytes 2048 32) } { grid0 with lrec := { grid0.lrec with flags := 2 } }
def cm : MF := mf (.s 1) (.s 0) un .b8 0
theorem witness_CopyCommands_start : copyRow (.cpy p0 cm) ≠ none ∧ (eff cpySt p0).flagFull ((eff cpySt p0).sfNow .none) = false ∧
    ∃ u, copyPasses cpySt u cm 0xFF .cpy (box 1024 32) (box 2048 32) none := by
  refine ⟨nofun, by decide +kernel, cpySt, by unfold clean; decide +kernel, ⟨boxBytes 1024 32, ok_of _ _ (by decide +kernel), by decide +kernel⟩, ⟨boxBytes 2048 32, ok_of _ _ (by decide +kernel), by decide +kernel⟩,
    by decide +kernel, ?_, by decide +kernel, by decide +kernel, by decide +kernel, by decide +kernel, cpySt, ?_, ?_⟩
  · rfl
  · exact Prod.ext (by decide +kernel) (by decide +kernel)
  · exact Prod.ext (by decide +kernel) (by decide +kernel)
theorem witness_CopyCommands_push : ∃ u, pushPasses cpySt u (mf un (.s 0) un .b8 1) 0xFF (box 1024 32) none [0] := by
  refine ⟨cpySt, by unfold clean; decide +kernel, ⟨boxBytes 1024 32, ok_of _ _ (by decide +kernel), by decide +kernel⟩, by decide +kernel, rfl, by decide +kernel, by decide +kernel,
    by decide +kernel, by decide +kernel, by decide +kernel, Prod.ext (by decide +kernel) (by decide +kernel)⟩
/-- A copy of two bytes whose last is still to land. -/
def cmd2 : Cmd := { id := 3, src := box 0 2, dst := box 100 2, landed := 1, total := 2 }
def landSt : State := mach grp0 { team0 with cmds := [cmd2] }
theorem witness_CopyCommands_land : ((landSt.focusTeam 0).t.cmds.find? fun c => c.id == 3) = some cmd2 ∧ cmd2.landed + 1 = cmd2.total ∧
    (landSt.focusTeam 0).c.holds (.engine 0 cmd2.kind.chan) = false ∧ (landSt.focusTeam 0).landPlace cmd2 1 = (.scr 0 101, 1) ∧
    (landSt.focusTeam 0).landBlocked cmd2 (.scr 0 101) 1 = false ∧
    ∃ v, (landSt.focusTeam 0).landBytes cmd2 1 = (v, some ([0], [false], false)) := by
  refine ⟨by decide +kernel, rfl, by decide +kernel, by decide +kernel, by decide +kernel, ex2 _ _ (by decide +kernel)⟩
/-- A push of one beat that its consumer has not taken. -/
def push1 : Push := { id := 5, port := 3, bytes := List.replicate 32 7, beats := 1, taken := [(0, 0)] }
def beatSt : State := mach grp0 { team0 with pushes := [push1] }
theorem witness_CopyCommands_beat : ((beatSt.teamAt 0).pushes.find? fun u => u.id == 5) = some push1 ∧ 0 ∈ push1.taken.map (·.1) ∧
    push1.takenBy 0 < push1.beats ∧ (beatSt.teamAt 0).phase = .resident ∧ (beatSt.teamAt 0).olderPush push1 0 = false ∧
    (bankGet (beatSt.teamAt 0).ports ({} : Port) 3).bytes.length + 32 ≤ portCap 3 := by decide +kernel
/-- A push of two beats from a box in the own scratchpad, with a barrier, and one whose consumer has retired. -/
def push2 : Push := { id := 6, port := 3, box := some (box 0 64), beats := 2, taken := [(0, 0)], bar := some { team := 0, off := 4000, addr := 4000 } }
def boxSt : State := mach grp0 { team0 with pushes := [push2], scr := memWrite [] 8 [7] }
def ex_reads (n j : Nat) (s : State) : State × Option (List Byte) :=
  match n with
  | 0 => (s, some [])
  | n + 1 =>
    match s.engRead .engRead push2.fetched 1 (some 6) (s.placeOf (box 0 64).space ((box 0 64).addr ((box 0 64).coords j)) 1) with
    | (v, .got d _ none) => let y := ex_reads n (j + 1) v; (y.1, y.2.map (d ++ ·))
    | (v, _) => (v, none)
theorem boxReads_of (n j : Nat) (s : State) (bs : List Byte) (h : (ex_reads n j s).2 = some bs) : boxReads push2 (box 0 64) n j s (ex_reads n j s).1 bs := by
  induction n generalizing j s bs with
  | zero => simp [ex_reads, boxReads] at *; exact h
  | succ n ih =>
    rw [ex_reads] at h ⊢
    split at h
    · next v d p e =>
      rcases hy : (ex_reads n (j + 1) v).2 with _ | r
      · simp [hy] at h
      · rw [boxReads]
        refine ⟨v, d, p, r, e, ih (j + 1) v r hy, ?_⟩
        simpa [hy] using h.symm
    · simp at h
def boxU : State := (boxSt.focusTeam 0).flushCore 0
theorem witness_CopyCommands_box : ((boxSt.teamAt 0).pushes.find? fun u => u.id == 6) = some push2 ∧ 0 ∈ push2.taken.map (·.1) ∧ push2.takenBy 0 < push2.beats ∧
    boxU.coreClear 0 = true ∧ boxU.c.holds (.engine 0 4) = false ∧ (boxSt.teamAt 0).phase = .resident ∧
    (∃ w bs, boxReads push2 (box 0 64) 32 0 boxU w bs ∧ bs.length = 32 ∧
      unheld boxSt (pushKept w 0 push2 (tookBy { push2 with bytes := bs } 0 1))) := by
  refine ⟨by decide +kernel, by decide +kernel, by decide +kernel, by decide +kernel, by decide +kernel, rfl, _, ((ex_reads 32 0 boxU).2.getD []), boxReads_of _ _ _ _ ?_, ?_, ?_⟩
  · decide +kernel
  · decide +kernel
  · unfold unheld; decide +kernel
theorem witness_CopyCommands_gone : (let s : State := { boxSt with teams := boxSt.teams ++ [(1, { team0 with phase := .retired })] }
    let u : Push := { push1 with taken := [(1, 0)] }
    (s.teamAt 1).phase = .retired ∧ 1 ∈ u.taken.map (·.1) ∧ u.takenBy 1 < u.beats ∧ unheld s (pushKept (s.focusTeam 0) 0 u (tookBy u 1 u.beats)) ∧
    (s.focusTeam 0).coreClear 0 = true) := by unfold unheld; decide +kernel
/-- A copy into local memory with a barrier object, whose first of two bytes is to land. -/
def cmd3 : Cmd := { id := 3, src := box 0 2, dst := { box 100 2 with space := 0 }, total := 2, bar := some { team := 0, off := 4096, addr := 4096 } }
def vaSt : State :=
  (ma.setGridAt 0 { ma.gridAt 0 with lrec := { (ma.gridAt 0).lrec with scratch := 4096 } }).setTeamAt 0 { ma.teamAt 0 with cmds := [cmd3], size := 4096 }
theorem witness_CopyCommands_memory : (let u := vaSt.focusTeam 0
    (u.t.cmds.find? fun c => c.id == 3) = some cmd3 ∧ cmd3.landed < cmd3.total ∧ u.t.phase ≠ .saved ∧ u.c.holds (.engine 0 cmd3.kind.chan) = false ∧
    u.landPlace cmd3 0 = (.va 100, 1) ∧ u.landBlocked cmd3 (.va 100) 1 = false ∧ (u.landBytes cmd3 0).2 = some ([0], [false], false) ∧
    (let v := (u.landBytes cmd3 0).1.flushCore 0
     v.coreClear 0 = true ∧ (match v.translateUnit 0 (landAcc cmd3) 100 with
       | .ok t => v.isLocal t.pa && (v.engineWrite v.foc.core t.pa (pteCp t.pte) [0] (marksOf t.pa [false])).met == vaSt.met
       | .error _ => false) = true)) := by decide +kernel
theorem witness_CopyCommands_scratchpad : (let u := landSt.focusTeam 0
    cmd2.landed < cmd2.total ∧ u.t.phase ≠ .saved ∧ unheld landSt (((u.landBytes cmd2 1).1.scrWrite 0 101 [0]).scrPoisonBytes 0 101 [false])) := by unfold unheld; decide +kernel
theorem witness_CopyCommands_entering : (let t := { team0 with pushes := [push1], ports := List.replicate 4 { cur := some (0, 5) } }
    (bankGet t.ports ({} : Port) 3).cur = some (0, 5) ∧ push1.box = none ∧ push1.bar = none ∧ push1.stop = false ∧ (bankGet team0.ports ({} : Port) 3).cur = none ∧
    32 * 0 < push1.bytes.length) := by decide +kernel
/-- STASH of eight registers of eight lanes at a0, and RESTORE into the scratchpad. -/
def hm : MF := mf (.v 0) (.a 0) (.const .zero) .b8 7
/-- The mapped machine with stash blocks in its page. -/
def ms : State := { ma with mem := memWrite ma.mem (3 * 65536) (placeEntry 0 4 0x41F) }
theorem witness_StashAndRestore_stash : ms.Runs p0 (ms.opsOk [(.a 0, 1)]) ∧ stashPasses ms hm 0xFF true 0 ∧ ∃ u, ms.blockFlts .stash 0xFF 0 1 (blockBytes false) = (u, []) := by
  refine ⟨by decide +kernel, ⟨?_, ?_, ?_, ?_, ?_, ?_⟩, ex2 _ _ (by decide +kernel)⟩ <;> decide +kernel
theorem witness_StashAndRestore_restore : MF.spDest hm = false ∧ ∃ u vs, ms.restoreBlocks 0xFF false 0 1 = (u, vs, [], []) ∧ ∀ x ∈ vs, x.2 = false := by
  exact ⟨rfl, _, _, eq4 (by decide +kernel) (by decide +kernel), by decide +kernel⟩
theorem witness_StashAndRestore_scratchpad : MF.spDest (mf (.const .zero) (.a 0) (.const .zero) .b8 128) = true ∧
    ∀ j, j < 64 → scrClass (st0.scrSize 0) (4 * j) 4 = 0 ∧ st0.scrGuarded 0 (4 * j) 4 = false := by decide +kernel
theorem witness_Restore_unheld : unheld ms (ms.restoreBlocks 0xFF false 0 1).1 := by unfold unheld; decide +kernel
/-- A descriptor of one element at VA 1024, its communicator of n ranks at VA 2048, and a barrier object. -/
def collSt (n : Nat) : State :=
  let m := memWrite ma.mem (4 * 65536 + 1024) (leBytes 8 2048 ++ leBytes 8 8192 ++ leBytes 8 12288 ++ leBytes 8 1)
  let m := memWrite m (4 * 65536 + 2048) (leBytes 2 n ++ leBytes 2 0 ++ leBytes 4 4096 ++ List.replicate 24 0 ++ leBytes 8 16384)
  ({ ma with mem := m } : State).setGridAt 0 { ma.gridAt 0 with lrec := { (ma.gridAt 0).lrec with nbar := 1 } }
def lm : MF := mf (.const .zero) (.a 0) (.s 2) .b32 0
def collReg : State := (collSt 1).setG { (collSt 1).g with s := [{}, {}, { val := 1024 }] }
/-- What a run of n bytes at a VA reads. -/
def runOf (s : State) (va : W64) (n : Nat) : State × RunRead := let x := s.mapRun .engRead va n; x.1.readParts .engRead 7 0xFF x.2.1
theorem reads_of (s : State) (va : W64) (n : Nat) (h1 : (s.mapRun .engRead va n).2.2 = []) (h2 : (runOf s va n).2.waits = [])
    (h3 : (runOf s va n).2.got.bad = false) : readsRun s (runOf s va n).1 .engRead 0xFF va n (runOf s va n).2.got.data :=
  ⟨_, _, _, eq3 h1, rfl, h2, h3, rfl, rfl⟩
def collU : State := (runOf (eff collReg p0) 1024 64).1
def collV : State := (collU.mapRun .engWrite 1024 64).1
def collC : Coll :=
  Coll.fill { kind := .allReduce, op := lm.op, ty := .f32, desc := 1024, bar := (collV.barName false 0).getD {}, mask := 0xFF, pc := 8 }
    (runOf (eff collReg p0) 1024 64).2.got.data
def collW : State := (runOf collV collC.comm 64).1
def collX : State := (collW.runsFaults (collC.runs (readComm collC.comm (runOf collV collC.comm 64).2.got.data))).1
theorem witness_Collectives_desc : collRow (.collar p0 lm) ≠ none ∧ clean (eff collReg p0) [lm.b, lm.d] ∧
    readsRun (eff collReg p0) collU .engRead 0xFF 1024 64 (runOf (eff collReg p0) 1024 64).2.got.data ∧
    (∃ ps, collU.mapRun .engWrite 1024 64 = (collV, ps, [])) ∧ collV.barName false 0 ≠ none ∧ collC.comm = 2048 :=
  ⟨nofun, by unfold clean; decide +kernel, reads_of _ _ _ (by decide +kernel) (by decide +kernel) (by decide +kernel),
    ⟨_, eq3 (by decide +kernel)⟩, by decide +kernel, by decide +kernel⟩
theorem witness_Collectives_issue : readsRun collV collW .engRead 0xFF collC.comm 64 (runOf collV collC.comm 64).2.got.data ∧
    collW.runsFaults (collC.runs (readComm collC.comm (runOf collV collC.comm 64).2.got.data)) = (collX, []) ∧
    drained true (collX.release .pkg).freshId.1 .pkg ∧ unheld collReg (collX.release .pkg).freshId.1 :=
  ⟨reads_of _ _ _ (by decide +kernel) (by decide +kernel) (by decide +kernel), eq2 (by decide +kernel),
    fun _ => by decide +kernel, by unfold unheld; decide +kernel⟩
/-- The same collective of n ranks with the engine. -/
def collQ (n : Nat) (ran : Option Bool) : State :=
  let s := collSt n
  s.setTeamAt 0 { s.teamAt 0 with colls := [{ id := 1, desc := 1024, comm := 2048, send := 8192, recv := 12288, count := 1, ran }] }
def collOf (n : Nat) : Coll := ((collQ n none).nextColl.map (·.2)).getD {}
/-- Its communicator as the engine reads it. -/
def commOf (n : Nat) : CollSt × List (Nat × Bool) := CollSt.read { s := (collQ n none).focusTeam 0 } (collOf n) 2048 1 64
/-- The record of n ranks, the chips that stand at RANKS, and a share of the other rank. -/
def commRec (n : Nat) : Comm := readComm 2048 ((commOf n).2.map fun x => BitVec.ofNat 8 x.1)
def ranksOf (n : Nat) : CollSt × List (Nat × Bool) := (commOf n).1.read (collOf n) (commRec n).ranks 1 (2 * n)
def shareOf (step : W32) : PeerPart := ⟨0, true, [⟨step, 0, false⟩], [0, 0, 0, 0]⟩
theorem witness_Collectives_runs : (let z := ranksOf 2
    let x := CollSt.run z.1 (collOf 2) (commRec 2) [shareOf 0]
    let y := CollSt.status x.1 (collOf 2) x.2.2
    (collQ 2 none).nextColl.map (·.1) = some 0 ∧ ((collQ 2 none).focusTeam 0).c.holds .coll = false ∧ (commOf 2).1.wait = false ∧ (∀ x ∈ (commOf 2).2, x.2 = false) ∧
    (commRec 2).bad = false ∧ z.1.wait = false ∧ (∀ x ∈ z.2, x.2 = false) ∧ sharesIn (commRec 2) (rankChips (commRec 2) z.2) [shareOf 0] = true ∧
    (∀ y ∈ (shareOf 0).trailers, y.step = (collOf 2).step) ∧ x.1.wait = false ∧ x.2.1 = false ∧ y.recs = [] ∧ y.s.met = (collQ 2 none).met ∧
    y.s.collOut 0 1 = false) := by decide +kernel
theorem witness_Collectives_disagree : (let z := ranksOf 2
    let y := CollSt.status { z.1 with s := z.1.s.setStepBit (collOf 2) } (collOf 2) 2
    sharesIn (commRec 2) (rankChips (commRec 2) z.2) [shareOf 1] = true ∧ (∃ y ∈ (shareOf 1).trailers, y.step ≠ (collOf 2).step) ∧
    sharesIn (commRec 2) (rankChips (commRec 2) z.2) [] = false ∧ unheld (collQ 2 none) z.1.s ∧ y.recs = [] ∧ unheld (collQ 2 none) y.s) := by
  unfold unheld; decide +kernel
theorem witness_Collectives_bad : (commRec 0).bad = true ∧ (commOf 0).1.wait = false ∧
    (let y := CollSt.status { (commOf 0).1 with s := (commOf 0).1.s.setStepBit (collOf 0) } (collOf 0) 2
     y.recs = [] ∧ unheld (collQ 0 none) y.s) := by unfold unheld; decide +kernel
theorem witness_Collectives_done : (collQ 1 (some true)).nextColl.map (·.2.ran) = some (some true) ∧ ((collQ 1 (some true)).focusTeam 0).collOut 0 1 = false ∧
    ((collQ 1 (some true)).modPkg fun p => { p with peerOut := [{ id := 4, kind := .store, cmd := some (0, 1) }] }).collOut 0 1 = true := by decide +kernel
/-- A grid with one node, whose pool has one free record. -/
def wgSt : State := mach grp0 { team0 with held := [{ pool := 0, index := 0, owner := some (0, 64) }] }
  { grid0 with nodes := [{ prod := 1 }], pools := [{ records := 2, free := [1] }] }
theorem witness_WorkGraph_walloc : wgSt.Runs p0 (wgSt.opsOk [(.s 5, 1)]) ∧ (wgSt.rd 0 .b64 (.const .zero)).poi = false ∧
    (wgSt.rd 0 .b64 (.const .zero)).n < wgSt.gr.nodes.length ∧ ∃ u, [0].foldl (takes 0 true) (wgSt, false) = (u, false) :=
  ⟨by decide +kernel, by decide +kernel, by decide +kernel, ex2 _ _ (by decide +kernel)⟩
theorem witness_WorkGraph_empty : ∃ u, [0, 1].foldl (takes 0 false) (st0, false) = (u, true) := ex2 _ _ (by decide +kernel)
theorem witness_WorkGraph_wsend : (let l := 0
    (wgSt.rd l .b64 (.s 1)).poi = false ∧ (wgSt.gr.node 0).prod.getLsbD wgSt.t.origin = true ∧
    (wgSt.sendable (wgSt.gr.node 0) (wgSt.g.holder true l) (wgSt.rd l .b64 (.s 1)).n).isSome = true) := by decide +kernel
theorem witness_WorkGraph_launch : clean ma [.const .zero, .const .one] ∧ (1 : Nat) < 64 ∧
    (∃ u ps r, ma.mapRun .engRead 0 128 = (u, ps, []) ∧ u.readParts .engRead 7 0xFF ps = r ∧ r.2.waits = [] ∧ r.2.got.bad = false) ∧
    (ma.pkg.queues.get {} 1).en = false ∧ (let q : Queue := { en := true }; q.ctx = 0 ∧ (q.tail - q.head).toNat ≠ 2 ^ q.logn) := by
  refine ⟨by unfold clean; decide +kernel, by decide, ⟨_, _, _, Prod.ext rfl (Prod.ext rfl ?_), rfl, ?_, ?_⟩, ?_, ?_⟩ <;> decide +kernel
theorem witness_WorkGraph_timeout : (let gr (n : W32) (b : Nat) : Grid := { grid0 with lrec := { grid0.lrec with nteam := n }, nodes := [{ timeout := 5, gathered := [{}], batches := b }] }
    (gr 1 0).det = false ∧ (gr 0xFFFFFFFF 1).det = false ∧ (gr 1 0).phase = .running ∧ 0 < (gr 1 0).nodes.length ∧ ((gr 1 0).node 0).timeout ≠ 0 ∧ ((gr 1 0).node 0).gathered ≠ [] ∧
    (gr 1 0).lrec.nteam.toNat + ((gr 1 0).node 0).batches * (gr 1 0).nodes.length + 0 < 2 ^ 32 ∧
    2 ^ 32 ≤ (gr 0xFFFFFFFF 1).lrec.nteam.toNat + ((gr 0xFFFFFFFF 1).node 0).batches * (gr 0xFFFFFFFF 1).nodes.length + 0) := by
  decide +kernel
theorem witness_WorkGraph_release : drained true ((eff wgSt p0).release .pkg) .pkg ∧
    unheld wgSt (sends (wgSt.gr.node 0) 0 (vf un (.s 1) (.const .zero) un .i32 0) ((eff wgSt p0).release .pkg) 0) := by unfold unheld; decide +kernel
theorem witness_WorkGraph_queue : (let s := ma.modPkg fun p => { p with queues := [(1, { en := true, base := 0x40000 })] }
    let u := (runOf (eff s p0) 0 128).1
    let x := u.release .pod
    readsRun (eff s p0) u .engRead 0xFF 0 128 (runOf (eff s p0) 0 128).2.got.data ∧ drained true x .pod ∧ unheld s u ∧
    unheld s (x.engineWrite 0 0x40000 0 (runOf (eff s p0) 0 128).2.got.data [])) :=
  ⟨reads_of _ _ _ (by decide +kernel) (by decide +kernel) (by decide +kernel), fun _ => by decide +kernel, by unfold unheld; decide +kernel,
    by unfold unheld; decide +kernel⟩
/-- A gang of one 32-lane group at an MMA, and of two of which one has arrived. -/
def gang (k : Nat) (st : Stall) : Grp :=
  { gw := 32, idx := k, lanes := List.replicate 32 lane0, budget := 64, gang := [0], iss := { pc := 8, hdr := hdr1, set := 0xFFFFFFFF, word := 0x800000000000A001 }, stall := st }
def gangSt (g : Grp) (ports : List Port := []) : State :=
  mach g { team0 with ports } { grid0 with lrec := { grid0.lrec with gw0 := 32, c := 4, flags := 2 } }
def mmaF : VF := vf un un un un .e4m3x4 1
theorem witness_Matrix_whole : (let u := gangSt (gang 0 .none)
    mmaFits u (u.allowed p0) mmaF ∧ agree u ∧ (mates u).length + 1 = u.g.gang.length ∧ arrived u = mates u) := by
  refine ⟨⟨?_, ?_, ?_, ?_, ?_⟩, ?_, ?_, ?_⟩
  case refine_6 =>
    intro k hk
    have : arrived (gangSt (gang 0 .none)) = [] := by decide +kernel
    simp [this] at hk
  all_goals decide +kernel
theorem witness_Matrix_waits : (let u := gangSt { gang 0 .none with gang := [0, 1] }
    mmaFits u (u.allowed p0) mmaF ∧ agree u ∧ ¬ ((mates u).length + 1 = u.g.gang.length ∧ arrived u = mates u)) := by
  refine ⟨⟨?_, ?_, ?_, ?_, ?_⟩, ?_, ?_⟩
  case refine_6 =>
    intro k hk
    have : arrived (gangSt { gang 0 .none with gang := [0, 1] }) = [] := by decide +kernel
    simp [this] at hk
  all_goals decide +kernel
theorem witness_Matrix_pop : (let s := gangSt (gang 0 (.port 0 [])) (List.replicate 4 { bytes := List.replicate 2048 0 })
    match s.canPop 0 with | some (sp, f, ms) => decide (ms = [0]) && decide ((s.focusGrp 0).popState sp f ms = .pop) | none => false) = true := by
  decide +kernel
theorem witness_Matrix_complete : (let s := gangSt { gang 0 .none with mmaPend := some { f := mmaF } }
    (s.grpAt 0).mmaPend = some { f := mmaF } ∧ mmaF.d.vIdx + fragRegs mmaF.ty ≤ 64) := by decide +kernel
/-- A product of the gang on its way: under .z, and from a poisoned C; in a native and in an asymmetric format. -/
def cleanC : MmaPend := { f := mmaF }
def poisonC : MmaPend := { f := vf un un un un .e4m3x4 0, acc := List.replicate 32 (List.replicate 16 { poi := true }) }
def asymC : MmaPend := { f := vf un un un un .ai8 1 }
theorem witness_Matrix_product : (∀ m ∈ [cleanC, poisonC, asymC], (let s := gangSt { gang 0 .none with mmaPend := some m }
    (s.grpAt 0).mmaPend = some m ∧ m.f.d.vIdx + fragRegs m.f.ty ≤ 64 ∧ m.cancel = [] ∧ 2 * ((s.grpAt 0).gw / 2) = (s.grpAt 0).gw ∧
    (s.grpAt 0).lanes.length = (s.grpAt 0).gw ∧ 0 < (s.grpAt 0).gw / 2)) ∧ fragPlace false 16 15 15 = (31, 7, 15) ∧
    poisonedStart poisonC 31 7 15 = true ∧ poisonedStart cleanC 31 7 15 = false ∧ cleanC.f.ty.isAi = false ∧ asymC.f.ty.isAi = true := by decide +kernel
theorem witness_Matrix_sums : (0 < 8 ∧ 8 ≤ 8) ∧ (∀ p ∈ [(Machine.Num.fin false 1 0, Machine.Num.fin true 3 (-2))],
    (∃ n m e, p.1 = .fin n m e) ∧ ∃ n m e, p.2 = .fin n m e) ∧ (let lens := segments 8 3 4 16
    0 < lens.length ∧ ∃ o : OpenI, some o = some { done := 4, size := 8 }) := by
  refine ⟨by decide, ?_, by decide +kernel, _, rfl⟩
  simp
/-- A producer group of a grid with streams. -/
def prodSt : State := mach grp0 team0 { grid0 with lrec := { grid0.lrec with p := 1, flags := 2 } }
theorem witness_Matrix_ports : prodSt.Runs p0 (fun _ => true) ∧ prodSt.gr.streams = true ∧ prodSt.g.idx < prodSt.gr.lrec.p ∧
    prodSt.g.converged (prodSt.allowed p0) = true ∧ 12 + 4 ≤ prodSt.g.win ∧ (∀ r ∈ (List.range 4).flatMap fun j => prodSt.g.laneIdx.map fun l =>
      prodSt.g.vReg l (12 + j), r.poi = false) ∧ prodSt.consumers ((prodSt.rd 0 .n32 (.const .one)).n % 256) = some [0] := by decide +kernel
theorem witness_Matrix_broken : (let u := eff (gangSt (gang 0 .none) [{ broken := true }]) p0
    0 ∈ u.gangPorts false mmaF (u.gangOf u.g.gang) ∧ (bankGet u.t.ports ({} : Port) 0).broken = true ∧ mates u = [] ∧
    ∀ n ∈ u.gangPorts true mmaF (u.gangOf u.g.gang), n = 0 ∨ (bankGet u.t.ports ({} : Port) n).broken = false) := by decide +kernel
theorem witness_Matrix_intact : (let u := eff (gangSt (gang 0 .none)) p0
    ∀ n ∈ u.gangPorts false mmaF (u.gangOf u.g.gang) ++ u.gangPorts true mmaF (u.gangOf u.g.gang), (bankGet u.t.ports ({} : Port) n).broken = false) := by
  decide +kernel
/-- The same gang in a DET grid. -/
def gangDet : State := mach (gang 0 .none) team0 { grid0 with lrec := { grid0.lrec with gw0 := 32, c := 4, flags := 3 } }
theorem witness_Matrix_status : (gangSt (gang 0 .none)).Runs p0 ((gangSt (gang 0 .none)).opsOk [(.v 3, 1)]) ∧ (gangSt (gang 0 .none)).gr.det = false ∧
    gangDet.Runs p0 (gangDet.opsOk [(.z 1, 1)]) ∧ gangDet.gr.det = true ∧ gangDet.gr.streams = true ∧
    ((gangSt (gang 0 .none)).rd 0 .b64 (.const .two)).poi = false := by decide +kernel
def xf : VF := ⟨.v 4, .const .zero, .const .zero, .const .two, .n32, .lane, false, .none, 0x1C⟩
theorem witness_Transforms_stream : streamPasses st0 0xFF xf { a := 0, e0 := 0, n := 2 } ∧
    (∀ l ∈ st0.g.lanesOf 0xFF, ∀ j, j < 2 → ∀ w ∈ st0.streamWords xf { a := 0, e0 := 0, n := 2 } l j, st0.wordFlt w = none) ∧
    (let vs := st0.encodeValues xf { a := 0, e0 := 0, n := 2 }
     let (bit, w) := VF.span xf { a := 0, e0 := 0, n := 2 } vs.length
     (∀ l ∈ st0.g.laneIdx, ∀ j, j < 2 → (st0.g.regAt l xf.d j).poi = false) ∧
     ∀ x ∈ rangeWords 0 [(bit / 8, (bit % 8 + w + 7) / 8)], scrClass (st0.scrSize 0) x 4 = 0 ∧ st0.scrGuarded 0 x 4 = false) := by
  refine ⟨⟨?_, ?_, ?_, ?_, ?_, ?_, ?_, ?_, ?_⟩, ?_, ?_⟩ <;> decide +kernel
theorem witness_Transforms_lanes : st0.Runs p0 (st0.opsOk [(.v 8, 8), (.v 0, 8)]) ∧ st0.Runs p0 (st0.opsOk (withRegs 1 [.v 4, .v 1, .k 2, .v 5])) ∧
    st0.Runs p0 (st0.opsOk [(.v 10, 2), (.k 3, 1)]) ∧ st0.Runs p0 (st0.opsOk [(.v 0, 2), (.v 12, 4), (.k 7, 1)]) := by decide +kernel
/-- Blocks of 64 values from a0 on in the scratchpad. -/
def xb : VF := ⟨.v 0, .const .zero, .const .zero, .s 5, .f32, .lane, false, .none, 2⟩
def blockSt : State := mach { grp0 with s := List.replicate 5 {} ++ [{ val := 8 }] }
theorem witness_Transforms_blocks : (let o : StreamOps := { a := 0, e0 := 0, n := 8 }
    let vs := blockSt.encodeValues xb o
    let (bit, w) := VF.span xb o vs.length
    (VF.stream xb).mode = 2 ∧ o.e0 % 64 = 0 ∧ vs.length % 64 = 0 ∧ (blockSt.rd 0 .n32 xb.c).n = 8 ∧ blockSt.g.opOk 0 8 xb.d = true ∧ xb.d.fits 8 = true ∧
    (∀ l ∈ blockSt.g.laneIdx, ∀ j, j < 8 → (blockSt.g.regAt l xb.d j).poi = false) ∧
    ∀ x ∈ rangeWords 0 [(bit / 8, (bit % 8 + w + 7) / 8)], scrClass (blockSt.scrSize 0) x 4 = 0 ∧ blockSt.scrGuarded 0 x 4 = false) := by decide +kernel
/-- A group with a tape of 1 KiB, in a state. -/
def tapeSt (t : Tape) (scr : List Host.Cell := []) : State := mach { grp0 with tape := t } { team0 with scr } { grid0 with lrec := { grid0.lrec with tape := 1024 } }
def tf : VF := vf un (.v 0) un un .b32 0
theorem witness_Tapes_open : tapeRuns (tapeSt {}) p0 tf (· == .closed) ∧ conv (tapeSt {}) p0 := by
  refine ⟨⟨?_, ?_, ?_, ?_, ?_⟩, ?_⟩
  case refine_6 => unfold conv; decide +kernel
  all_goals decide +kernel
theorem witness_Tapes_record : tapeRuns (tapeSt { st := .normal }) p0 tf (· != .closed) ∧
    ∃ v, pushed (tapeSt { st := .normal }) v tf 0xFF 0 1 none .normal := by
  refine ⟨⟨?_, ?_, ?_, ?_, ?_⟩, _, ?_, rfl⟩ <;> decide +kernel
theorem witness_Tapes_mark : (tapeSt { st := .normal }).g.iss.pc.toNat = (tapeSt { st := .normal }).g.iss.bb.toNat + 8 * blockLen (tapeSt { st := .normal }).g.iss.hdr ∧
    ∃ v, pushed (tapeSt { st := .normal }) v tf 0xFF 1 2 (some (16, 1)) .span := by
  refine ⟨?_, _, ?_, rfl⟩ <;> decide +kernel
/-- A tape that holds one record of one word of each lane. -/
def onTape : State := tapeSt { st := .normal, top := 48, recs := [0] } (memWrite [] (4096 + 32) ([0xFF, 0, 0, 0, 0, 0, 0, 0, 1, 0, 0, 0]))
theorem witness_Tapes_pop : onTape.g.tape.b < onTape.g.tape.top ∧ ∃ h, recHdr (onTape.tapeGet 32 16) = some h ∧ h.kind = 0 ∧ h.wpl = 1 ∧
    ∀ l ∈ onTape.g.lanesOf (h.mask &&& onTape.g.alive), ∀ r ∈ tab h.wpl (onTape.popValue h 0 (h.lanes.idxOf l)), r.poi = false :=
  ⟨by decide +kernel, { mask := 0xFF, wpl := 1, kind := 0 }, by decide +kernel, rfl, rfl, by decide +kernel⟩
theorem witness_Tapes_end : tapeRuns (tapeSt { st := .span }) p0 tf (fun st => st == .span || st == .recompute) ∧
    ∃ v k, (mapped []).target 0 = (v, k) ∧ k.ok = true := by
  refine ⟨⟨?_, ?_, ?_, ?_, ?_⟩, _, _, (Prod.eta _).symm, ?_⟩ <;> decide +kernel
/-- The same in a grid with a tape segment in memory. -/
def segSt (t : Tape) : State := (mach { grp0 with tape := t } team0 { grid0 with lrec := { grid0.lrec with tape := 1024, tseg := 65536 } }).focusGrp 0
theorem witness_Tapes_spill : (segSt { st := .normal, top := 784, recs := [0] }).spillDue = true ∧
    (segSt { st := .normal, top := 100, b := 100, recs := [0, 40], filling := true }).fillDue = true := by decide +kernel
/-- A tape with a spill on its way to a peer. -/
def closingSt : State := (tapeSt { st := .normal }).modPkg fun p => { p with peerOut := [{ id := 5, kind := .store, tape := true }] }
theorem witness_Tapes_close : tapeRuns (tapeSt { st := .normal }) p0 tf (fun _ => true) ∧ conv (tapeSt { st := .normal }) p0 ∧
    (tapeSt { st := .normal }).g.tape.closing = none ∧ (eff (tapeSt { st := .normal }) p0).tapeOut 0 = false ∧
    tapeRuns closingSt p0 tf (fun _ => true) ∧ conv closingSt p0 ∧ (eff closingSt p0).tapeOut 0 = true ∧ closingSt.g.tape.st ≠ .closed := by
  refine ⟨⟨?_, ?_, ?_, ?_, ?_⟩, ?_, ?_, ?_, ⟨?_, ?_, ?_, ?_, ?_⟩, ?_, ?_, ?_⟩
  case refine_6 => unfold conv; decide +kernel
  case refine_14 => unfold conv; decide +kernel
  all_goals decide +kernel
theorem witness_Tapes_unheld : (let u := segSt { st := .normal, top := 784, recs := [0] }
    let v := segSt { st := .normal, top := 100, b := 100, recs := [0, 40], filling := true }
    unheld u (u.spillToHalf u.g.tape.recs.length).bump ∧ unheld v (v.fillToHalf v.g.tape.recs.length).bump) := by unfold unheld; decide +kernel
theorem witness_Raster : st0.Runs p0 (st0.opsOk [(.v 3, 3), (.v 6, 2)]) ∧ st0.Runs p0 (st0.opsOk [(.v 10, 6)]) ∧ (st0.g.sVal 62).poi = false := by
  decide +kernel
/-- A texture of one texel with a gradient image, in an uncached page. -/
def texBytes : List Byte := leBytes 8 0 ++ leBytes 8 256 ++ leBytes 2 1 ++ leBytes 2 1 ++ [1, 0, 5, 0] ++ List.replicate 40 0
def texSt : State :=
  let s : State := { ma with mem := memWrite ma.mem (3 * 65536) (placeEntry 0 4 0x13F) }
  (s.setGridAt 0 { s.gridAt 0 with lrec := { (s.gridAt 0).lrec with scratch := 4096 } }).setTeamAt 0 { s.teamAt 0 with scr := memWrite [] 0 texBytes }
def xt : VF := vf (.v 0) (.v 8) (.const .zero) un .f32 0
theorem witness_Textures : texSt.Runs p0 (texSt.opsOk [(.v 0, 4), (.v 8, 2)]) ∧ texSt.layoutAt 0 = .ok texBytes ∧ (∃ t, readTex texBytes = (t, true) ∧ t.grad ≠ 0) ∧
    (match texSt.texAll xt (readTex texBytes).1 false false [0, 7] with
     | (u, os, fs, es, ws) => fs.isEmpty && es.isEmpty && ws.isEmpty &&
       ((u.setG (os.foldl (fun g o => g.modLane o.lane fun x => x.putFx u.g.wb (.v 0) o.rs o.fl o.poi) u.g)).scatter os).2) = true :=
  ⟨by decide +kernel, ok_of _ _ (by decide +kernel), ⟨_, Prod.ext rfl (by decide +kernel), by decide +kernel⟩, by decide +kernel⟩
theorem witness_Textures_unheld : (match texSt.texAll xt (readTex texBytes).1 false false [0, 7] with
    | (u, os, _, _, _) =>
      ((u.setG (os.foldl (fun g o => g.modLane o.lane fun x => x.putFx u.g.wb (.v 0) o.rs o.fl o.poi) u.g)).scatter os).1.met == texSt.met) = true := by
  decide +kernel
/-- The texels of a lane's sample read in their order, and the outcomes of some lanes. -/
def tapsRun (f : VF) (t : TexRec) (env : FpEnv) (l level : Nat) : List (Option (Nat × Nat)) → State → State × Option (List (List Fx))
  | [], s => (s, some [])
  | some i :: xs, s =>
    match s.fetchTexel f t l level (some i) with
    | (u, .got bs) => let y := tapsRun f t env l level xs u; (y.1, y.2.map (t.channels env bs :: ·))
    | (u, _) => (u, none)
  | none :: xs, s => let y := tapsRun f t env l level xs s; (y.1, y.2.map (List.replicate 4 .zero :: ·))
theorem tapsRead_of (f : VF) (t : TexRec) (env : FpEnv) (l level : Nat) (xs : List (Option (Nat × Nat))) (s : State) (T : List (List Fx))
    (h : (tapsRun f t env l level xs s).2 = some T) : tapsRead f t env l level xs s (tapsRun f t env l level xs s).1 T := by
  induction xs generalizing s T with
  | nil => simp_all [tapsRun, tapsRead]
  | cons x xs ih =>
    cases x with
    | none =>
      rw [tapsRun] at h ⊢
      rcases hy : (tapsRun f t env l level xs s).2 with _ | r
      · simp [hy] at h
      · simp only [hy, Option.map_some, Option.some.injEq] at h
        exact ⟨s, _, r, .inl ⟨rfl, rfl, rfl⟩, ih s r hy, h.symm⟩
    | some i =>
      rw [tapsRun] at h ⊢
      split at h
      · next u bs e =>
        rcases hy : (tapsRun f t env l level xs u).2 with _ | r
        · simp [hy] at h
        · simp only [hy, Option.map_some, Option.some.injEq] at h
          exact ⟨u, _, r, .inr ⟨i, bs, rfl, e, rfl⟩, ih u r hy, h.symm⟩
      · simp at h
def texRec : TexRec := (readTex texBytes).1
def texEnv : FpEnv := fpEnv 0 .lane
/-- A lane that samples the texel at the origin, and one with a poisoned operand. -/
theorem witness_Textures_lane : (let x := texSt.texLane xt false false texEnv 0
    let p := ((texRec.plan texEnv x).1.getD 0 (none, .one)).1.getD {}
    x.poi = false ∧ fpEnv (texSt.g.lane 0).fpl xt.rmo = texEnv ∧ (texRec.plan texEnv x).1.length = 1 ∧ (texRec.plan texEnv x).1.all (fun y => y.1.isSome) = true ∧
    (tapsRun xt texRec texEnv 0 p.level p.taps texSt).2.isSome = true ∧
    ((tapsRun xt texRec texEnv 0 p.level p.taps texSt).1.mapReds 0 (texScatter texRec texEnv x (texRec.plan texEnv x).1)).2.2.isEmpty = true ∧
    ((texSt.setG (texSt.g.modLane 0 fun y => y.putRegs 0 (.v 8) [{ poi := true }])).texLane xt false false texEnv 0).poi = true ∧
    ((texRec.plan texEnv ((texSt.setG (texSt.g.modLane 0 fun y => y.putRegs 0 (.v 8) [{ val := 0x7FC00000 }])).texLane xt false true texEnv 0)).1.any
      fun y => y.1.isNone) = true) := by decide +kernel
def lanesRun (f : VF) (t : TexRec) (lam adj : Bool) : List Nat → State → State × Option (List TexOut)
  | [], s => (s, some [])
  | l :: ls, s =>
    match s.texOne f t lam adj l with
    | (m, o, [], [], []) => let y := lanesRun f t lam adj ls m; (y.1, y.2.map (o :: ·))
    | (m, _) => (m, none)
theorem lanesTex_of (f : VF) (t : TexRec) (lam adj : Bool) (ls : List Nat) (s : State) (os : List TexOut)
    (h : (lanesRun f t lam adj ls s).2 = some os) : lanesTex f t lam adj ls s (lanesRun f t lam adj ls s).1 os := by
  induction ls generalizing s os with
  | nil => simp_all [lanesRun, lanesTex]
  | cons l ls ih =>
    rw [lanesRun] at h ⊢
    split at h
    · next m o e =>
      rcases hy : (lanesRun f t lam adj ls m).2 with _ | r
      · simp [hy] at h
      · simp only [hy, Option.map_some, Option.some.injEq] at h
        exact ⟨m, o, r, e, ih m r hy, h.symm⟩
    · simp at h
def texIn : State := (eff texSt p0).logRead .texture (digScr 0) texBytes
theorem witness_Textures_lanes : ∃ u os, lanesTex xt texRec false false (texSt.g.lanesOf (texSt.allowed p0)) texIn u os ∧ os ≠ [] ∧
    ((u.setG (os.foldl (fun g o => g.modLane o.lane fun x => x.putFx u.g.wb xt.d o.rs o.fl o.poi) u.g)).scatter os).2 = true ∧
    unheld texSt ((u.setG (os.foldl (fun g o => g.modLane o.lane fun x => x.putFx u.g.wb xt.d o.rs o.fl o.poi) u.g)).scatter os).1 := by
  refine ⟨_, (lanesRun xt texRec false false (texSt.g.lanesOf (texSt.allowed p0)) texIn).2.getD [], lanesTex_of _ _ _ _ _ _ _ ?_, ?_, ?_, ?_⟩
  · rw [Option.getD_of_ne_none]; decide +kernel
  · decide +kernel
  · decide +kernel
  · unfold unheld; decide +kernel
theorem witness_Textures_plan : (let t : TexRec := { w := 1, h := 1 }
    let x (n : Machine.Num) : TexLane := { x := { x := n }, y := { x := n } }
    t.bil = false ∧ (x (.fin false 0 0)).lam = none ∧ (x (.fin false 0 0)).x.x.isFin = true ∧ (x (.inf true)).x.x.isFin = false) := by decide +kernel
/-- State records at 0 and at 512, whose traversal awaits a hit's report, and a scene without a root at 256. -/
def scene : List Host.Cell := memWrite (memWrite [] (256 + 24) (leBytes 4 refNone)) 512 (leBytes 8 0 ++ List.replicate 16 0 ++ leBytes 4 1 ++
  leBytes 4 256 ++ leBytes 4 0 ++ leBytes 4 0x40000000 ++ leBytes 4 0 ++ [0, 0, 0, 2])
def rayG : Grp := { grp0 with iss := { grp0.iss with set := 0x80 }, s := [{ val := 256 }] }
def raySt : State := mach rayG { team0 with scr := scene }
def rf : VF := vf (.v 0) (.v 1) (.v 2) (.s 0) .b32 0
theorem witness_Traversal_runs : raySt.Runs p0 (raySt.opsOk [(.v 0, 1), (.v 1, 1), (.v 2, 8)]) ∧ (raySt.rd 0 .b64 (.s 0)).n < 2 ^ 34 ∧
    raySt.g.lanesOf (raySt.allowed p0) = [7] ∧ raySt.Runs p0 (raySt.opsOk [(.v 1, 15), (.v 1, 1), (.v 2, 3)]) := by decide +kernel
theorem witness_Traversal_trace : ∃ bs, allDone raySt raySt (traceLane rf) [7] (fun _ => 0) bs (fun _ => 0) :=
  ⟨fun _ => (match (raySt.rayAll [7] (traceLane rf)).2 with | [(_, .done _ b _ _)] => b | _ => []), by unfold allDone; exact ⟨Prod.ext rfl (by decide +kernel), by unfold unheld; decide +kernel⟩⟩
theorem witness_Traversal_resume : allDone raySt raySt (resumeLane rf) [7] (fun _ => 0) (fun _ => (readRay []).bytes) (fun _ => 0) := by
  unfold allDone
  exact ⟨Prod.ext (by decide +kernel) (by decide +kernel), by unfold unheld; decide +kernel⟩
theorem witness_Traversal_abort : allDone raySt raySt (abortLane rf) [7] (fun _ => 0) (fun _ => (readRay []).bytes) (fun _ => 0) := by
  unfold allDone
  exact ⟨Prod.ext (by decide +kernel) (by decide +kernel), by unfold unheld; decide +kernel⟩
theorem witness_Traversal_hit : allDone raySt raySt (hitLane rf) [7] (fun _ => 0) (fun _ => []) (fun _ => 0) := by
  unfold allDone
  exact ⟨Prod.ext (by decide +kernel) (by decide +kernel), by unfold unheld; decide +kernel⟩
theorem witness_Traversal_report : (let s := mach { rayG with lanes := List.replicate 8 { lane0 with v := [{}, { val := 512 }, { val := 0x3F800000 }] } } { team0 with scr := scene }
    let r := readRay (s.scrRead 0 512 128).data
    s.rd 7 .b32 (.v 1) = ⟨512, false⟩ ∧ (s.g.vReg 7 2).poi = false ∧ s.rayRange 7 512 128 = none ∧ s.rayPoison 7 512 128 = none ∧ r.status = 2 ∧
    r.first = true ∧ numLe (fw r.tmin).x (fw 0x3F800000).x = true ∧ numLt (fw 0x3F800000).x (fw r.tmax).x = true ∧ (fw r.tmax).x.isNan = false) := by
  decide +kernel
/-- A ray at the scene without a root, which ends with its first turn. -/
def ray0 : Ray := { scene := 256, node := refNone, slev := 0, stack := List.replicate 12 0, org := [0, 0, 0], dir := [0, 0, 0] }
theorem witness_Traversal_walk : ray0.scene % 32 = 0 ∧ raySt.rayRange 7 ray0.scene 32 = none ∧ raySt.rayPoison 7 ray0.scene 32 = none ∧ ray0.wf = true ∧
    (let b := (raySt.scrRead 0 ray0.scene 32).data
     let s := raySt.logRead .traverse (digScr ray0.scene) b
     rayWalk (readScene b) 7 0 s { ray0 with node := (readScene b).root } s ({ ray0 with node := (readScene b).root } : Ray).finish []) := by
  refine ⟨by decide, by decide +kernel, by decide +kernel, by decide +kernel, .inl ⟨?_, rfl, rfl, rfl, rfl, rfl⟩⟩
  decide +kernel
theorem witness_Traversal_stack : ray0.org.length = 3 ∧ ray0.dir.length = 3 ∧ ray0.stack.length = 12 ∧ ray0.slev < 2 ^ 48 ∧ (15 : Nat) < 16 ∧ ray0.sp < 12 ∧
    ({ ray0 with sp := 12 } : Ray).sp = 12 ∧ ray0.trail < 2 ^ 48 ∧
    (match (raySt.rayRun 7 0 ray0 true).2 with | .done a _ _ _ => a == 0 | _ => false) = true := by decide +kernel
theorem witness_Traversal_kept : (let r := readRay (raySt.scrRead 0 0 128).data
    raySt.rd 7 .b32 (.v 0) = ⟨0, false⟩ ∧ (raySt.g.vReg 7 2).poi = false ∧ raySt.rayRange 7 0 128 = none ∧ raySt.rayPoison 7 0 128 = none ∧ r.status < 2) := by
  decide +kernel
theorem witness_RadianceCache_query : st0.Runs p0 (st0.opsOk [(.v 0, 3), (.v 8, 8)]) := by decide +kernel
theorem witness_RadianceCache_sync : (barSt.rd 0 .n32 (.s 0)).poi = false ∧ ∃ b, (eff barSt p0).barName false (barSt.rd 0 .n32 (.s 0)).n = some b :=
  ⟨by decide +kernel, { team := 0, off := 4096, addr := 4096 }, by decide +kernel⟩
theorem witness_RadianceCache_point : (mach { grp0 with phase := .retired } { team0 with phase := .retired, syncs := 1, syncO := 1 }
    { grid0 with lrec := { grid0.lrec with flags := 1 }, nextTeam := 1, samples := [{}] }).syncReady 0 = true := by decide +kernel
theorem witness_RadianceCache_step : (let c : Ctx := { rcQueue := List.replicate 4096 {} }
    c.rcBusy = false ∧ c.rcFreeze = false ∧ 4096 ≤ c.rcQueue.length) := by decide +kernel
theorem witness_RadianceCache_publish : ((st0.setCtxAt 0 { rcPending := some 1, rcSnap := 0x10000 }).freeSlot 0).isSome = true ∧
    (mach { grp0 with phase := .retired } team0 { grid0 with phase := .done }).ctxBusy 0 = false ∧ st0.ctxBusy 0 = true := by decide +kernel
theorem witness_RadianceCache_bound : st0.g.rcDue = 0 ∧ barSt.gr.det = false ∧ barSt.Runs p0 (fun _ => true) := by decide +kernel
/-- Nothing that could lock a line. -/
theorem gather_none (s : State) (h : s.cores = []) (n : Nat) : s.gather n = s := by simp [State.gather, h, KMap.keys]
theorem gatherRange_none (s : State) (h : s.cores = []) (pa n : Nat) : s.gatherRange pa n = s := by
  unfold State.gatherRange
  induction linesOf pa n with
  | nil => rfl
  | cons l ls ih => simp [gather_none s h, ih]
theorem touchLlc_keeps (s : State) (pa cp : Nat) : (s.touchLlc pa cp).met = s.met ∧ (s.touchLlc pa cp).grids = s.grids := by
  unfold State.touchLlc
  dsimp only
  split
  · exact ⟨rfl, rfl⟩
  · split
    · split
      · exact ⟨rfl, rfl⟩
      · split <;> exact ⟨rfl, rfl⟩
    · exact ⟨rfl, rfl⟩
theorem touchRange_keeps (s : State) (pa n cp : Nat) : (s.touchRange pa n cp).met = s.met ∧ (s.touchRange pa n cp).grids = s.grids := by
  unfold State.touchRange
  induction linesOf pa n generalizing s with
  | nil => exact ⟨rfl, rfl⟩
  | cons l ls ih => simp [ih, touchLlc_keeps]
theorem hbmPoison_none (s : State) : s.hbmPoison [] false = s := rfl
theorem homeWrite_keeps (s : State) (h : s.cores = []) (hg : s.groups = []) (hp : s.pkg.peerLocks = []) (pa cp : Nat) (bs : List Byte) :
    (s.homeWrite pa cp bs []).met = s.met ∧ (s.homeWrite pa cp bs []).grids = s.grids := by
  have hm : s.meet pa bs.length true = s := by simp [State.meet, State.blocked, State.lineHeld, hg, hp]
  unfold State.homeWrite State.lockedWrite
  rw [hm, gatherRange_none s h]
  simp only [markedWords, List.zip_nil_right, List.filterMap_nil, hbmPoison_none]
  split <;> simp [touchRange_keeps, State.hbmWrite]
theorem settleAll_none (s : State) (h : s.grids = []) (ctx : Nat) : s.settleAll ctx = s := by simp [State.settleAll, h]
theorem saveCache_met_none (s : State) (h : s.cores = []) (hg : s.groups = []) (hp : s.pkg.peerLocks = []) (ctx : Nat) : (s.saveCache ctx).met = s.met := by
  unfold State.saveCache
  exact (homeWrite_keeps s h hg hp _ _ _).1
theorem witness_RadianceCache_image : ∃ s : State, s.ctxBusy 0 = false ∧ unheld s (s.saveCache 0) :=
  ⟨State.reset, by decide +kernel, saveCache_met_none _ rfl rfl rfl 0⟩
theorem publish_unheld (s : State) (h : s.cores = []) (hg : s.groups = []) (hp : s.pkg.peerLocks = []) (hd : s.grids = []) (pa ctx : Nat) (bs : List Byte)
    (c : Ctx) : unheld s (((s.homeWrite pa noCp bs []).setCtxAt ctx c).bump.settleAll ctx) := by
  have k := homeWrite_keeps s h hg hp pa noCp bs
  rw [settleAll_none _ (show (((s.homeWrite pa noCp bs []).setCtxAt ctx c).bump).grids = [] from k.2.trans hd)]
  exact k.1
theorem witness_RadianceCache_version : ∃ s : State, (s.ctxAt 0).rcPending = some 1 ∧ (s.freeSlot 0).isSome = true ∧
    ∀ pa c bs, unheld s (((s.homeWrite pa noCp bs []).setCtxAt 0 c).bump.settleAll 0) :=
  ⟨State.reset.setCtxAt 0 { rcPending := some 1, rcSnap := 0x10000 }, rfl, by decide +kernel, fun _ _ _ => publish_unheld _ rfl rfl rfl rfl _ _ _ _⟩
/-- A training query of one lane in a frozen cache, and in a DET grid whose context has no spill region. -/
def rq : VF := vf (.v 0) (.v 4) (.v 12) un .f32 1
def rcSt (c : Ctx) (flags : Byte) : State :=
  { st0 with ctxs := [(0, { c with root := 1 })], grids := [(0, { grid0 with lrec := { grid0.lrec with flags } })],
             groups := [(0, { grp0 with iss := { grp0.iss with set := 0x80 } })] }
def rcEnd (s : State) : State × Bool :=
  let u := (eff s p0).modG fun g => g.modLanes [7] fun l x =>
    x.putRegs s.g.wb rq.d ((rcQuery (s.c.weights s.rcVer) (s.g.words l rq.a 8)).map fun n => ⟨BitVec.ofNat 32 n, false⟩)
  [7].foldl (fun (x : State × Bool) l => ((x.1.enqueue l (s.g.words 7 rq.a 8 ++ s.g.words 7 rq.b 3)).1, x.2 && (x.1.enqueue l (s.g.words 7 rq.a 8 ++ s.g.words 7 rq.b 3)).2)) (u, true)
theorem witness_RadianceCache_train : (rcSt {} 0).Runs p0 ((rcSt {} 0).opsOk [(rq.d, 3), (rq.a, 8), (rq.b, 3)]) ∧ rq.m % 2 = 1 ∧ (rcSt {} 0).g.rcDue = 0 ∧
    (rcEnd (rcSt {} 0)).2 = true ∧ (rcEnd (rcSt {} 1)).2 = false ∧ unheld (rcSt {} 0) (rcEnd (rcSt {} 0)).1 ∧
    ((st0.g.words 7 rq.a 8 ++ st0.g.words 7 rq.b 3).all finite32) = true := by unfold unheld; decide +kernel
theorem witness_RadianceCache_sample : (List.replicate 11 (2 ^ 32 - 1)).length = 11 ∧ (∀ w ∈ List.replicate 11 (2 ^ 32 - 1), w < 2 ^ 32) ∧ 7 < st0.g.lanes.length ∧
    (rcSt { rcFreeze := true } 0).c.rcFreeze = true ∧ (rcSt {} 1).gr.det = true ∧ (rcSt {} 0).gr.det = false ∧
    8192 ≤ (rcSt { rcQueue := List.replicate 8192 {} } 0).rcDepth ∧ (rcSt {} 0).rcDepth = 0 ∧ (rcSt {} 1).rspOver 0 = false ∧
    ((rcSt {} 1).modGr fun g => { g with samples := [{}] }).rspOver 0 = true := by decide +kernel
theorem witness_RadianceCache_images : State.reset.pkg.inRecovery = false ∧ noPartials State.reset ∧ State.reset.ctxBusy 0 = false ∧
    State.reset.inSpillRegion (paLocal (State.reset.ctxAt 0).rcImg.toNat) = false ∧
    (∀ pa n, State.reset.blocked pa n true = false) ∧ st0.ctxBusy 0 = true := by
  refine ⟨by decide +kernel, by unfold noPartials; decide +kernel, by decide +kernel, by decide +kernel, fun pa n => ?_, by decide +kernel⟩
  simp [State.blocked, State.lineHeld, State.reset]
theorem witness_Waking_flag : ({ grp0 with flags := [1], fdone := [0] } : Grp).fdone.contains 0 = true := rfl
/-- Lanes at a wait for a phase that is over. -/
def waitG : Grp :=
  { grp0 with lanes := List.replicate 8 { lane0 with st := .waiting, wait := .bwait { off := 4096, addr := 4096 } 1 .grp 0 0, woken := some false } }
def waitSt : State := { barSt with groups := [(0, waitG)] }
theorem witness_Waking_resume : waitG.stopped = false ∧ waitG.waitSet ≠ [] ∧ (∀ l ∈ waitG.waitSet, (waitG.lane l).waitEnd = .over) ∧
    (waitSt.focusGrp 0).c.dbgLogOn = false := by decide +kernel
/-- Two lanes of one group that owe the count of two barrier words. -/
theorem witness_Waking_owed : (let x (r : W64) : Lane := { lane0 with st := .waiting, wait := .bwait { off := 4096, addr := 4096 } 1 .grp 0 r, woken := some false, owes := true }
    let s : State := { barSt with groups := [(0, { waitG with lanes := [x 3, x 4] ++ List.replicate 6 { lane0 with st := .exited } })] }
    let g := s.grpAt 0
    g.owed g.waitSet = [3, 4] ∧ (∀ l ∈ g.waitSet, (g.lane l).waitEnd = .over) ∧ g.stopped = false ∧ s.stopDue 0 = false ∧ waitSt.stopDue 0 = false ∧
    (waitG.owed waitG.waitSet).length ≤ 1) := by decide +kernel
/-- A handler without budget at a NOP of the mapped page. -/
def overSt : State :=
  let s := mapped (leBytes 8 0)
  s.setGrpAt 0 { s.grpAt 0 with handler := some { pc := 8, hdr := hdr1, reach := .inside, budget := 0 } }
def prepOf : Prep → State × Instr | .go s i => (s, i) | .spent s => (s, .nop ⟨7, false⟩ (vf un un un un .i32 0)) | .held => (overSt, .nop ⟨7, false⟩ (vf un un un un .i32 0))
theorem witness_Waking_overrun : (∃ h, (overSt.grpAt 0).handler = some h ∧ h.budget = 0) ∧ overSt.mayIssue 0 = true ∧
    (∃ u f, (overSt.focusGrp 0).prepare = .go u (.nop p0 f) ∧ u.g.iss.handler = true ∧ ∃ k, u.g.handler = some k ∧ k.budget = 0) := by
  refine ⟨⟨_, rfl, rfl⟩, by decide +kernel, (prepOf (overSt.focusGrp 0).prepare).1, vf un un un un .i32 0, ?_, by decide +kernel, ?_⟩
  · have h : (match (overSt.focusGrp 0).prepare with | .go _ i => decide (i = .nop p0 (vf un un un un .i32 0)) | _ => false) = true := by decide +kernel
    revert h
    cases (overSt.focusGrp 0).prepare <;> simp [prepOf]
  · have h : (prepOf (overSt.focusGrp 0).prepare).1.g.handler.any (·.budget == 0) = true := by decide +kernel
    revert h
    cases (prepOf (overSt.focusGrp 0).prepare).1.g.handler <;> simp
theorem witness_Waking_stall : (mach { grp0 with stall := .fault }).stallOver 0 = true ∧ (mach { grp0 with yielded := true, readyFor := 300 }).yieldOver 0 = true := by
  decide +kernel
theorem witness_Waking_turn : st0.mayIssue 0 = true ∧ grp0.handler = none ∧ (let g : Grp := { grp0 with lanes := List.replicate 8 { lane0 with rot := 256 } }
    (∃ l ∈ g.inState .running, 256 ≤ (g.lane l).rot) ∧ g.issuePc = some 8) := by
  refine ⟨by decide +kernel, rfl, ⟨0, by decide +kernel⟩, by decide +kernel⟩
theorem witness_Residency_group : groupOver (mach { grp0 with lanes := List.replicate 8 { lane0 with st := .exited } }) 0 := by
  refine ⟨rfl, rfl, rfl, rfl, rfl, rfl, by decide +kernel, by decide +kernel, rfl, fun k h => ?_⟩
  rcases h with h | h | h <;> exact (List.not_mem_nil h).elim
theorem witness_Residency_team : (let s := mach { grp0 with phase := .retired }
    let t := s.teamAt 0
    t.phase = .resident ∧ (s.gridAt t.grid).phase = .running ∧ t.landed = [] ∧ (∀ e ∈ s.groups, e.2.team = 0 → e.2.phase = .retired) ∧ t.held = [] ∧
    unheld s (s.retireTeam 0)) ∧
    (let s := mach { grp0 with phase := .retired } { team0 with held := [{}] } { grid0 with pools := [{ records := 1 }] }
     let u := s.flushCore 0
     u.coreClear 0 = true ∧ unheld s (u.retireTeam 0)) := by unfold unheld; decide +kernel
theorem witness_Residency_tail : runSt.pkg.inRecovery = false ∧ (∀ w ∈ ([.peer { pa := 0, n := 8, kind := .read } 3] : List Waiter), ∃ a o, w = .peer a o) ∧ (63 : Nat) < 64 := by
  refine ⟨rfl, ?_⟩; simp
/-- The bytes of a launch record that passes, with DONE at VA 0. -/
def recBytes : List Byte := List.replicate 80 0 ++ leBytes 4 1 ++ leBytes 4 0 ++ List.replicate 20 0 ++ leBytes 2 16 ++ leBytes 2 16 ++ leBytes 2 0 ++ [8, 0, 1, 1, 1, 0] ++ List.replicate 8 0
def takeSt : State :=
  let s : State := { ma with mem := memWrite ma.mem 0x100000 recBytes }
  s.modPkg fun p => { p with queues := [(63, { en := true, tail := 1, base := 0x100000 })] }
theorem graph_none (s : State) (ctx : Nat) (r : LaunchRec) (h : (r.graph == 0) = true) : s.readGraph ctx r = (s, [], [], true, none, false) := by
  simp only [State.readGraph, h, if_true]
/-- The record as the distributor reads it. -/
def takeRead : State × Bytes := takeSt.homeBytes ((takeSt.pkg.queues.get {} 63).slot (takeSt.pkg.queues.get {} 63).head) 128 noCp
theorem witness_Residency_take : (let q := takeSt.pkg.queues.get {} 63
    let c := takeSt.ctxAt q.ctx
    let r := parseLaunch takeRead.2.data
    q.en = true ∧ q.head ≠ q.tail ∧ c.ctxState = 0 ∧ (∀ x ∈ c.unitRecs, x.1 ≠ .dist) ∧ (∀ i, i < 128 → takeRead.2.poi.getD i false = false) ∧
    r.done.toNat % 8 = 0 ∧ (∃ tr, takeRead.1.translateUnit q.ctx .engWrite r.done = .ok tr) ∧ r.ok (takeRead.2.data.drop 120) takeSt.pkg = true ∧
    takeRead.1.readGraph q.ctx r = (takeRead.1, [], [], true, none, false) ∧
    unheld takeSt ((takeRead.1.modPkg fun p => { p with queues := p.queues.set 63 { q with head := q.head + 1 } }).distForget q.ctx)) :=
  ⟨by decide +kernel, by decide +kernel, by decide +kernel, by decide +kernel, by decide +kernel, by decide +kernel, ⟨_, isOk_eq (by decide +kernel)⟩,
    by decide +kernel, graph_none _ _ _ (by decide +kernel), by unfold unheld; decide +kernel⟩
def distWordOf : DistWord → W64 | .word w => w | _ => 0
theorem word_of {x : State × DistWord} (h : (match x.2 with | .word _ => true | _ => false) = true) : x = (x.1, .word (distWordOf x.2)) := by
  obtain ⟨s, d⟩ := x
  cases d <;> simp_all [distWordOf]
/-- A pending grid without dependences whose entry is the header at VA 0, and one that waits for the word at VA 8. -/
def startSt (dep0 : W64) : State :=
  let h : Header := { placeHeader with kind := .grid }
  ({ texSt with mem := memWrite texSt.mem (4 * 65536) (leBytes 8 (encodeHeader h).toNat ++ leBytes 8 (2 ^ 63)) } : State).setGridAt 0
    { lrec := { gw0 := 8, nteam := 1, dep0 } }
theorem witness_Residency_start : (let s := startSt 0
    let gr := s.gridAt 0
    let c := s.ctxAt gr.ctx
    gr.phase = .pending ∧ c.root.getLsbD 0 = true ∧ c.ctxState = 0 ∧ (∀ x ∈ c.unitRecs, x.1 ≠ .dist) ∧ gr.det = false ∧ gr.lrec.trapv = 0 ∧
    depSet s s 0 gr.lrec.dep0 ∧ startsAt (s.setGridAt 0 gr) ((s.setGridAt 0 gr).distWord 0 .fetch gr.lrec.entry).1 0 gr.lrec.entry .grid) := by
  refine ⟨by decide +kernel, by decide +kernel, by decide +kernel, by decide +kernel, by decide +kernel, by decide +kernel, .inl ⟨rfl, rfl⟩, .inl ⟨_, { placeHeader with kind := .grid }, word_of (by decide +kernel), by decide +kernel, rfl⟩⟩
theorem witness_Residency_depends : ∃ u, depSet (startSt 8) u 0 8 ∧ u.gridAt 0 = (startSt 8).gridAt 0 :=
  ⟨_, .inr ⟨by decide, _, _, word_of (by decide +kernel), by decide +kernel, rfl⟩, by decide +kernel⟩
theorem witness_Residency_start_unheld : (let s := startSt 0
    let x := ((s.setGridAt 0 (s.gridAt 0)).distWord 0 .fetch 0).1
    unheld s ((x.distForget 0).setGridAt 0 { s.gridAt 0 with phase := .running, startVersion := (x.ctxAt 0).rcVersion })) := by unfold unheld; decide +kernel
/-- A running grid with no team created yet. -/
def placeSt : State := { st0 with groups := [], teams := [] }
theorem witness_Residency_place : (let r := placeSt.nextTeams 0
    placeSt.nextSaved 0 = none ∧ placeSt.wantsPlace 0 = true ∧ (∀ k ∈ placeSt.grids.keys, k ≠ 0 → placeSt.gridBefore k 0 = true → placeSt.roomNow k = none) ∧
    r.2 = [1] ∧ (r.1.teamAt 1).phase = .pending ∧ (r.1.placeAll true r.2 ([1535].take r.2.length)).isSome = true ∧
    coreTakes r.1 1535 0 (r.1.gridAt (r.1.teamAt 1).grid).lrec) := by
  refine ⟨by decide +kernel, by decide +kernel, by decide +kernel, by decide +kernel, by decide +kernel, by decide +kernel, ?_⟩
  exact ⟨by decide, by decide +kernel, by decide +kernel, by decide +kernel, by decide +kernel⟩
theorem witness_Residency_withdraw : (let s := mach grp0 { team0 with preReq := true }
    (s.teamAt 0).preReq = true ∧ (s.ctxAt (s.gridAt (s.teamAt 0).grid).ctx).ctxState = 0) := by decide +kernel
/-- A grid whose one team has retired, and the same with a store of it out at a peer. -/
def doneSt : State := mach { grp0 with phase := .retired } { team0 with phase := .retired } { grid0 with nextTeam := 1 }
def busySt : State := doneSt.modPkg fun p => { p with peerOut := [{ id := 9, kind := .store }] }
theorem witness_Residency_done : gridOver doneSt 0 ∧ gridOver busySt 0 ∧
    (let u (s : State) : State := s.cores.keys.foldl (fun s k => s.flushCore k) s
     (u doneSt).gridBusy 0 = false ∧ (u busySt).gridBusy 0 = true ∧ unheld doneSt (u doneSt) ∧ unheld busySt (u busySt)) := by
  refine ⟨.inr ⟨rfl, by decide +kernel, rfl, rfl, by decide +kernel, by decide +kernel, by decide +kernel⟩,
    .inr ⟨rfl, by decide +kernel, rfl, rfl, by decide +kernel, by decide +kernel, by decide +kernel⟩, by decide +kernel, by decide +kernel, by unfold unheld; decide +kernel, by unfold unheld; decide +kernel⟩
/-- A save area with room for the largest team has room for any. -/
theorem saveRoom_fits (s : State) (ctx : Nat) (h : (s.ctxAt ctx).ctxNeed.toNat + 4096 ≤ (s.ctxAt ctx).ctxSaveSz.toNat) : (s.saveRoom ctx).2 = true := by
  unfold State.saveRoom
  have := Nat.mod_lt (Config.freeHalf (s.freeKey 0)).toNat (show 0 < 4096 by decide)
  dsimp only
  split
  · rfl
  · rw [if_pos (by omega)]
theorem witness_Contexts_evict : (let s := mach waitG { team0 with preReq := true }
    let u := s.flushCore 0
    s.setOf 0 = [0] ∧ s.canEvict 0 = true ∧ unheld s u ∧ u.coreClear 0 = true ∧ (u.saveRoom 0).2 = true) ∧
    (let s := mach waitG { team0 with phase := .saved }
     s.canRestore 0 = true ∧ s.outranked 0 = false ∧ s.nextSaved 0 = some 0 ∧ 0 ∈ s.setOf 0 ∧ (s.restoreCores 0 0).isSome = true) := by
  unfold unheld; decide +kernel
/-- What room in the save area leaves as it was. -/
theorem saveRoom_keeps (s : State) (ctx : Nat) : (s.saveRoom ctx).1.met = s.met ∧ (s.saveRoom ctx).1.cores = s.cores ∧ (s.saveRoom ctx).1.groups = s.groups ∧
    (s.saveRoom ctx).1.grids = s.grids ∧ (s.saveRoom ctx).1.pkg = s.pkg := by
  unfold State.saveRoom
  dsimp only
  split
  · exact ⟨rfl, rfl, rfl, rfl, rfl⟩
  · split <;> exact ⟨rfl, rfl, rfl, rfl, rfl⟩
theorem releaseSeg_met (s : State) (ctx : Nat) : (s.releaseSeg ctx).met = s.met := by
  unfold State.releaseSeg
  dsimp only
  split <;> rfl
theorem switch_unheld (s : State) (ctx : Nat) (h : s.cores = []) (hg : s.groups = []) (hp : s.pkg.peerLocks = []) (hd : s.grids = []) :
    unheld s ((((((s.saveRoom ctx).1.gridsIn ctx (· == .running)).foldl State.spillGrid (s.saveRoom ctx).1).saveSlots ctx).saveCache ctx).releaseSeg ctx) := by
  obtain ⟨k1, k2, k3, k4, k5⟩ := saveRoom_keeps s ctx
  have e : (s.saveRoom ctx).1.gridsIn ctx (· == .running) = [] := by simp [State.gridsIn, k4, hd]
  rw [e, List.foldl_nil]
  unfold unheld
  rw [releaseSeg_met, saveCache_met_none _ ?_ ?_ ?_]
  · exact k1
  · simp [State.saveSlots, State.setCtxAt, k2, h, KMap.update]
  · exact k3.trans hg
  · show (s.saveRoom ctx).1.pkg.peerLocks = []
    rw [k5, hp]
theorem witness_Contexts_switch : (st0.ctxAt 0).ctxState = 0 ∧ ∃ s : State, (s.ctxAt 0).ctxState = 1 ∧ (s.ctxAt 0).killing = false ∧ s.anyResident 0 = false ∧
    (s.saveRoom 0).2 = true ∧
    unheld s ((((((s.saveRoom 0).1.gridsIn 0 (· == .running)).foldl State.spillGrid (s.saveRoom 0).1).saveSlots 0).saveCache 0).releaseSeg 0) :=
  ⟨by decide +kernel, State.reset.setCtxAt 0 { ctxState := 1, ctxSaveSz := 4096 }, by decide +kernel, by decide +kernel, by decide +kernel,
    saveRoom_fits _ _ (by decide +kernel), switch_unheld _ _ rfl rfl rfl rfl⟩
theorem witness_Contexts_resume : ((st0.setCtxAt 0 { ctxState := 2 }).ctxAt 0).ctxState = 2 ∧ ∃ gr : Grid, KMap.find st0.grids 0 = some gr ∧ gr.phase = .running :=
  ⟨by decide +kernel, _, rfl, rfl⟩
theorem witness_Contexts_invalidate : (st0.setCtxAt 0 { root := 1, invReqs := [{}] }).invDone 0 = true ∧ (8#4).toNat ≤ 8 := by decide +kernel
/-- The mapped machine with a tape in memory of one record, which its group has still to transfer. -/
def heldTape (t : Tape) : State := (ma.setGridAt 0 { ma.gridAt 0 with lrec := { (ma.gridAt 0).lrec with tape := 1024, tseg := 65536 } }).setG { ma.g with tape := t }
def spillSt : State := heldTape { st := .normal, top := 48, recs := [0], held := some true }
def fillSt : State := heldTape { st := .normal, top := 96, b := 48, recs := [0, 48], held := some false }
def movedTo : Moved → State × Bool | .done s => (s, true) | .wait s => (s, false) | .over s => (s, false) | .held s => (s, false) | .noPlace s => (s, false)
theorem done_of {m : Moved} (h : (movedTo m).2 = true) : m = .done (movedTo m).1 := by cases m <;> simp_all [movedTo]
def freed (s : State) : State := (s.focusGrp 0).modTape fun t => { t with held := none }
theorem witness_Contexts_held : (∀ s ∈ [spillSt, fillSt], s.pkg.inRecovery = false ∧ s.groups.filter (fun e => e.2.tape.held.isSome) = [(0, s.grpAt 0)] ∧
      (s.grpAt 0).tape.heldBack = false ∧ (s.grpAt 0).phase ≠ .retired ∧ (s.teamAt 0).phase = .resident ∧ (s.gridAt 0).ctx = 0 ∧ (s.ctxAt 0).holds (.tape 0) = false) ∧
    (freed spillSt).spillOne false = .done (movedTo ((freed spillSt).spillOne false)).1 ∧ unheld spillSt (movedTo ((freed spillSt).spillOne false)).1 ∧
    (freed fillSt).fillOne false = .done (movedTo ((freed fillSt).fillOne false)).1 ∧ unheld fillSt (movedTo ((freed fillSt).fillOne false)).1 ∧
    (∀ e ∈ ma.groups, e.2.tape.held = none) :=
  ⟨by decide +kernel, done_of (by decide +kernel), by unfold unheld; decide +kernel, done_of (by decide +kernel), by unfold unheld; decide +kernel, by decide +kernel⟩
theorem witness_Contexts_transfers : (freed spillSt).tapeStuck = false ∧ (freed spillSt).g.tape.oldest = some (0, 48) ∧ 48 ≤ (freed spillSt).gr.lrec.tseg ∧
    ((freed spillSt).mapRun .tape ((freed spillSt).segBase + 0) 48).2.2 = [] ∧ (freed fillSt).g.tape.youngest = some 0 ∧
    (freed fillSt).g.tape.top - 0 ≤ (freed fillSt).gr.lrec.slice ∧
    (let x := (freed fillSt).mapRun .tape ((freed fillSt).segBase + 0) 48
     x.2.2 = [] ∧ (x.1.readSegment x.2.1).2.2 = []) := by decide +kernel
theorem witness_Contexts_driver : State.reset.pkg.inRecovery = false ∧ noPartials st0 ∧ st0.pkg.inRecovery = false ∧ (st0.ctxAt 0).ctxState = 0 ∧ st0.waitingRecs 0 = 0 := by
  unfold noPartials; decide +kernel
/-- A machine with debugging enabled. -/
def dbgSt (c : Ctx) (g : Grp := grp0) : State := (mach g).setCtxAt 0 { c with root := 1 }
theorem witness_Debugging_snapshot : (dbgSt { dbgLogOn := true, dbgLogSz := 64 }).snapDue 0 = true ∧ (dbgSt {}).pkg.lacks 7 = false := by decide +kernel
theorem witness_Debugging_arm : (let s := dbgSt { stopRet := 5 }
    s.dbgState 0 ≠ 2 ∧ s.dbgState 0 ≠ 3 ∧ (∀ e ∈ s.groups, s.hasName { ret := 5, part := 3, idx := 255 } e.1 = false) ∧
    ∃ e ∈ s.grids, e.2.ctx = 0 ∧ e.2.lrec.gid = 0 ∧ (e.2.phase = .pending ∨ e.2.phase = .running)) := by
  refine ⟨?_, ?_, ?_, (0, grid0), ?_⟩ <;> decide +kernel
theorem witness_Debugging_stop : (dbgSt { armed := some {} }).stopDue 0 = true ∧ (let c : Ctx := { stopGrp := some 0 }
    c.stopGrp = some 0 ∧ c.heldStops = [] ∧ c.replay = none) := by decide +kernel
theorem witness_Debugging_access : ∃ g, (dbgSt { stopGrp := some 0 } { grp0 with stopped := true }).dbgGroup 0 = some g ∧ g.dbgPending 0x00 63 = false ∧
    (g.dbgGet 0x00 7).isSome = true := ⟨_, rfl, by decide +kernel, by decide +kernel⟩
theorem witness_Debugging_sample : (let s := (dbgSt {}).setCtxAt 0 { dbgTrace := true, smplDue := [{ grp := 0, kind := 1 }] }
    (s.ctxAt 0).dbgTrace = true ∧ (s.ctxAt 0).smplDue.find? (fun y => y.grp == 0 && y.kind == (1#8).toNat) = some { grp := 0, kind := 1 }) := by decide +kernel
theorem witness_Debugging_off : (st0.modPkg fun p => { p with featLock := true }).pkg.lacks 7 = true ∧ st0.pkg.inRecovery = false ∧ (dbgSt {}).pkg.lacks 7 = false := by decide +kernel
def isPage : Except Flt Page → Bool | .ok _ => true | .error _ => false
theorem isPage_eq {e : Except Flt Page} (h : isPage e = true) : ∃ p, e = .ok p := by cases e <;> simp_all [isPage]
/-- A context with one segment of trace in a page that the unit may write, and in one that it may not. -/
def trcSt (bits : Nat) (c : Ctx) : State := (entrySt 3 4 bits).setCtxAt 0 { c with root := ma.c.root }
def segPte (s : State) : Option (W64 × Nat) := match s.walk 0 (s.ctxAt 0).segVA with | .ok p => some (p.pte, p.pa (s.ctxAt 0).segVA) | .error _ => none
theorem witness_Debugging_packet : (let c : Ctx := { trNseg := 1 }
    let s := trcSt 0x85F c
    noPartials s ∧ 64 + 16 ≤ 65536 ∧ (s.ctxAt 0).trOff = none ∧ ((s.ctxAt 0).trTail - (s.ctxAt 0).trHead).toNat < (s.ctxAt 0).trNseg ∧
    isPage (s.walk 0 (s.ctxAt 0).segVA) = true ∧ segPte s = some (0x4085F, 262144) ∧ (0x4085F#64).getLsbD 3 = true ∧ (0x4085F#64).getLsbD 6 = true ∧
    (0x4085F#64).getLsbD 11 = true ∧ s.isLocal 262144 = true ∧ s.blocked 262144 80 true = false ∧ s.inSpillRegion 262144 = false ∧
    segPte (trcSt 0x1F c) = some (0x4001F, 262144) ∧ ¬ (({ trTail := 1 } : Ctx).trTail - ({ trTail := 1 } : Ctx).trHead).toNat < ({ trTail := 1 } : Ctx).trNseg) := by
  unfold noPartials; decide +kernel
theorem witness_Debugging_capture : (let s (on : Bool) := trcSt 0x85F { trNseg := 1, dbgTrace := on }
    ((s true).ctxAt 0).dbgTrace = true ∧ ((s false).ctxAt 0).dbgTrace = false ∧ (s true).pkg.inRecovery = false ∧ (s true).pkg.lacks 7 = false ∧
    unheld (s true) ((s true).packet 0 2 false (List.replicate 64 0)) ∧ (((s true).packet 0 2 false (List.replicate 64 0)).ctxAt 0).dbgTrace = true ∧
    (((trcSt 0x1F { trNseg := 1, dbgTrace := true }).packet 0 2 false (List.replicate 64 0)).ctxAt 0).dbgTrace = false ∧
    timedCode 0 = false) := by unfold unheld; decide +kernel
/-- A machine at an LDS of its scratchpad, and a log of its group that holds no entry for it. -/
def loadSt : State :=
  let s := mapped (leBytes 8 0x4010044201004000)
  (s.setGridAt 0 { s.gridAt 0 with lrec := { (s.gridAt 0).lrec with scratch := 4096 } }).setTeamAt 0 { s.teamAt 0 with size := 4096 }
def reSnap (n : W64) : Snap := { retired := n, full := n == 0, grp := { loadSt.g with retired := n } }
def reSt : State := loadSt.setCtxAt 0 { loadSt.ctxAt 0 with dbgLogSz := 64, snaps := [reSnap 0, reSnap 1] }
theorem some_of {α : Type} {x : Option α} (h : x.isSome = true) : ∃ a, x = some a := Option.isSome_iff_exists.mp h
theorem witness_Debugging_rerun : (∃ a, reSt.loggedAt 0 (reSnap 0) 0 = some a) ∧ (∃ b, reSt.loggedAt 0 (reSnap 0) 1 = some b) ∧
    (match (reSt.replayView 0 { at' := reSnap 0 }).replayTurn exec with
     | some t => ! decide ((t.ctxAt 0).log.length ≤ 0)
     | none => false) = true ∧ (reSnap 1).retired.toNat ≤ (reSnap 1).grp.retired.toNat ∧ (reSnap 0).grp.retired.toNat < (reSnap 1).retired.toNat :=
  ⟨some_of (by decide +kernel), some_of (by decide +kernel), by decide +kernel, by decide +kernel, by decide +kernel⟩
theorem witness_Debugging_replay : (let s := st0.setCtxAt 0 { replay := some (reSnap 0), replayWritten := true }
    s.pkg.inRecovery = false ∧ s.pkg.lacks 7 = false ∧ (s.ctxAt 0).stopGrp = none ∧ (s.ctxAt 0).heldStops = [] ∧ (s.ctxAt 0).replay = some (reSnap 0)) := by
  decide +kernel
theorem witness_PackageEvents_windows : runSt.pkg.inWindow (2 ^ 30 - 1) 1 = true ∧ (∀ c ∈ runSt.cores, ∀ l ∈ c.2.l1, l.isU = false) ∧
    runSt.inSpillRegion (runSt.pkg.windowBase + (2 ^ 30 - 1)) = false ∧ runSt.pkg.bootState ≠ 3 := by decide +kernel
theorem flashSize_ge : 2048 ≤ Config.flashSize.toNat := by
  unfold Config.flashSize
  split
  · decide
  · omega
theorem witness_PackageEvents_mailbox : (let s := st0.modPkg fun p => { p with bootState := 3, mbxLen := 4 }
    s.pkg.bootState = 3 ∧ s.pkg.mbxBad = false) := by
  have := flashSize_ge
  refine ⟨by decide +kernel, ?_⟩
  show (false || (4 == 0) || decide (2048 < 4) || (0 % 2048 != 0) || decide (Config.flashSize.toNat < 0 + 4)) = false
  simp
  omega
theorem witness_PackageEvents_attest : (let s := st0.setCtxAt 0 { attBuf := 0x10000 }
    (s.ctxAt 0).attBusy = false ∧ s.isLocal (s.ctxAt 0).attBuf.toNat = true ∧ paLocal (s.ctxAt 0).attBuf.toNat + 8192 ≤ hbmSize) := by decide +kernel
theorem witness_PackageEvents_energy : st0.pkg.reservoir ≤ reservoirCap ∧ 40 ≤ 40 ∧ hbmSize / 8 - 1 < hbmSize / 8 := by decide +kernel
theorem witness_PackageEvents_host : noPartials runSt ∧ runSt.hostWaits = false ∧ runSt.blocked (runSt.pkg.windowPa (2 ^ 30 - 1)) 1 true = false ∧
    runSt.blocked (runSt.pkg.windowPa 0) 8 false = false ∧ runSt.pkg.inWindow 0 8 = true ∧ runSt.inSpillRegion (runSt.pkg.windowBase + (2 ^ 30 - 1)) = false := by
  unfold noPartials; decide +kernel
theorem witness_PackageEvents_report : (let s := st0.setCtxAt 0 { attBuf := 0x10000, attBusy := true }
    (s.ctxAt 0).attBusy = true ∧ noPartials s ∧ s.blocked 0x10000 8192 true = false) := by unfold noPartials; decide +kernel
theorem witness_PackageEvents_recovery : (st0.modPkg fun p => { p with bootState := 3 }).pkg.inRecovery = true ∧ driverWord (.kill 0) = true ∧
    (st0.modPkg fun p => { p with bootState := 3 }).hostWaits = false ∧ (0x100008 < 0x1000 ∨ 0x2000 ≤ 0x100008) := by decide +kernel
theorem witness_PackageEvents_registers : (0x1A8, 13, 39, false) ∈ plainRegs ∧ (0xC8, 0, 64, true) ∈ plainRegs ∧ runSt.pkg.lacks 7 = false ∧ runSt.hostWaits = false ∧
    (255 : Nat) < 256 ∧ 0x48 ∈ [0x20, 0x48, 0xE0, 0x110] ∧ 0x100008 % 8 = 0 ∧ (runSt.ctxAt 255).pmcRun = false ∧ runSt.hasResident 255 = false := by decide +kernel
theorem witness_PackageEvents_reservoir : st0.pkg.reservoir ≤ reservoirCap ∧ ∀ k, k < 16 → bankGet st0.accounts 0 k ≤ accountCap := by decide +kernel
theorem witness_PackageEvents_word : 4 * 1023 < st0.scrSize 0 ∧ (st0.teamAt 0).scrPoi.has 1023 = false ∧
    ((mach grp0 { team0 with scrPoi := [1023] }).teamAt 0).scrPoi.has 1023 = true := by decide +kernel
theorem witness_Fabric_home : st0.isLocal 0xFFFFFFFFF8 = true ∧ paLocal 0xFFFFFFFFF8 + 8 ≤ hbmSize ∧ st0.reclaimed 0xFFFFFFFFF8 = false ∧
    st0.inSpillRegion (paLocal 0xFFFFFFFFF8) = false := by decide +kernel
theorem witness_Fabric_lease : (let s := st0.setLease 7 { v := true, lender := true }
    (s.lease 7).v = true ∧ (s.lease 7).lender = true ∧ (s.lease 7).state = 0 ∧ s.pkg.lacks 5 = false) := by decide +kernel
theorem witness_Fabric_arrival : noPartials st0 ∧ st0.pkg.waiting = [] ∧ st0.blocked 0xFFFFFFFFF8 8 true = false ∧ st0.blocked 0xFFFFFFFFF8 8 false = false := by
  unfold noPartials; decide +kernel
/-- One request of each sort that a reply or a loss may meet. -/
def reqs : List PeerReq :=
  [{ id := 1 }, { id := 2, fill := some (0, 1) }, { id := 3, kind := .store, cut := true }, { id := 4, kind := .store, done := some 5 },
   { id := 5, kind := .rmw }, { id := 6, kind := .rmw, lane := some 3, cut := true }, { id := 7, cut := true }]
def reqSt : State := st0.modPkg fun p => { p with peerOut := reqs }
theorem witness_Fabric_reply : ∀ q ∈ reqs, reqSt.pkg.peerOut.find? (fun x => x.id == q.id && x.lost.isNone) = some q := by decide +kernel
theorem witness_Fabric_lost : (∀ q ∈ [reqs.getD 2 {}, reqs.getD 6 {}], reqSt.pkg.peerOut.find? (fun x => x.id == q.id && x.cut && x.lost.isNone) = some q) ∧
    (let v := (reqSt.modPkg fun p => { p with lostCnt := satUp p.lostCnt }).recordUnit 0 .fabric {} true
     ∀ x ∈ (v.ctxAt 0).unitRecs, x.1 ≠ .fabric) := by decide +kernel
/-- The home of a peer's word, whose line a tile has locked. -/
def lockedHome : State := mach { grp0 with stall := .tile [1] [0] true [] 0 }
theorem witness_Fabric_peer : st0.isLocal 0 = true ∧ st0.reclaimed 0 = false ∧ noPartials st0 ∧ st0.pkg.waiting = [] ∧ paLocal 0 + 8 ≤ hbmSize ∧
    st0.blocked 0 8 true = false ∧ st0.inSpillRegion 0 = false ∧ st0.hbmPoi 0 8 = false ∧ (st0.hbmPoison [0] true).hbmPoi 0 8 = true ∧
    noPartials lockedHome ∧ lockedHome.blocked 0 8 true = true ∧ lockedHome.lockBusy lockedHome.nextId 0 true lockedHome.order = true ∧
    st0.lockBusy st0.nextId 0 true st0.order = false ∧ st0.blocked 0 128 false = false ∧ paLocal 0 + 128 ≤ hbmSize := by unfold noPartials; decide +kernel
theorem witness_Fabric_values : (leBytes 8 1 ++ leBytes 8 2).length = 2 * 8 := by decide
theorem witness_DecodeEncode : ∃ w, (Instr.ld p0 ⟨.v 60, .a 7, .v 1, .pod, .sc, .none, .b128, .nal, 1024⟩).wellFormed = true ∧
    encode (.ld p0 ⟨.v 60, .a 7, .v 1, .pod, .sc, .none, .b128, .nal, 1024⟩) = some w := ⟨_, by decide +kernel, rfl⟩
/-- The mapped machine at its turn to issue a NOP. -/
def nopSt : State := { (State.reset.place (leBytes 8 0)) with turn := false }
/-- The machine at its turn, and as it reads the NOP. -/
def nopTurn : State := { nopSt with turn := true }
def fetchOf (s : State) : State := (s.passOver (s.readyGroups exec) 0).focusGrp 0
/-- The NOP stands in memory at VA 8 for the group in focus. -/
def readsNop (u : State) (iss : Issue) (after : State → Issue → State) : Prop :=
  ∃ t tr, u.translate u.foc.core u.foc.ctx .fetch 8 = (t, .ok tr) ∧ t.isLocal tr.pa = true ∧
    (t.touchLlc tr.pa (pteCp tr.pte)).hbmPoi (paLocal tr.pa) 8 = false ∧ BitVec.ofNat 64 (ofLe ((t.touchLlc tr.pa (pteCp tr.pte)).hbm (paLocal tr.pa) 8)) = 0 ∧
    admitted (after (t.touchLlc tr.pa (pteCp tr.pte)) iss) hdr1 0 true (.nop p0 (vf un un un un .i32 0))
theorem witness_StepRunsDecoded_lanes : nopSt.agenda = [] ∧ nopSt.service = none ∧ nopSt.turn = false ∧ nopSt.rerunDue = none ∧
    nopTurn.chooseGroup (nopTurn.readyGroups exec) = some 0 ∧
    (let u := fetchOf nopTurn
     u.g.handler = none ∧ u.g.issuePc = some 8 ∧ (u.g.inState .running).filter (fun j => (u.g.lane j).pc == 8) = List.range 8 ∧
     (∀ j ∈ List.range 8, (u.g.lane j).reach ≠ .patched) ∧ (u.g.lane 0).expects = .inside 0 hdr1 ∧
     readsNop u { pc := 8, bb := 0, hdr := hdr1, set := 0xFF } fun t i => issuing t i 8 0) := by
  refine ⟨rfl, by decide +kernel, rfl, by decide +kernel, by decide +kernel, by decide +kernel, by decide +kernel, by decide +kernel, by decide +kernel, by decide +kernel, ?_⟩
  exact ⟨((fetchOf nopTurn).translate 0 0 .fetch 8).1, okOr ((fetchOf nopTurn).translate 0 0 .fetch 8).2, Prod.ext rfl (isOk_eq (by decide +kernel)),
    by decide +kernel, by decide +kernel, by decide +kernel, by decide +kernel, by decide +kernel, by decide +kernel, by decide +kernel,
    by decide +kernel⟩
/-- The same machine, whose group handles a trap. -/
def nopHandler : State := nopTurn.setGrpAt 0 { nopTurn.grpAt 0 with handler := some { pc := 8, hdr := hdr1, reach := .inside } }
theorem witness_StepRunsDecoded_handler : nopHandler.chooseGroup (nopHandler.readyGroups exec) = some 0 ∧
    (let u := fetchOf nopHandler
     (∃ h, u.g.handler = some h ∧ expectOf h.pc h.bb h.hdr h.reach = some (.inside 0 hdr1)) ∧
     readsNop u { pc := 8, bb := 0, hdr := hdr1, set := 0, handler := true } State.setIss) := by
  refine ⟨by decide +kernel, ⟨{ pc := 8, hdr := hdr1, reach := .inside }, by decide +kernel, by decide +kernel⟩, ?_⟩
  exact ⟨((fetchOf nopHandler).translate 0 0 .fetch 8).1, okOr ((fetchOf nopHandler).translate 0 0 .fetch 8).2, Prod.ext rfl (isOk_eq (by decide +kernel)),
    by decide +kernel, by decide +kernel, by decide +kernel, by decide +kernel, by decide +kernel, by decide +kernel, by decide +kernel,
    by decide +kernel⟩
theorem witness_StepRunsDecoded_replay : (let s := reSt.setCtxAt 0 { reSt.ctxAt 0 with rerun := some { at' := reSnap 0 } }
    s.agenda = [] ∧ s.service = none ∧ s.rerunDue = some (0, { at' := reSnap 0 })) := by decide +kernel
theorem witness_StepRunsDecoded_event : (Instr.packageReset).parts.isNone = true := rfl
theorem witness_MemoryStaysCanonical : State.reset.MemOk ∧ ∃ t, step { State.reset with agenda := [.packageReset] } = .next t := ⟨rfl, _, rfl⟩

/-! ## Decoding: the words the spec prints beside an instruction (R246, R282, R301, R307, R341, R357, R390) -/

/-- An operand field that is not used. -/
abbrev no : Opnd := .v 0
/-- The fields of a V word of type t, by itself. -/
def vt (d a b c : Opnd) (ty : Ty) (md : BitVec 6 := 0) : VF := ⟨d, a, b, c, ty, .lane, false, .none, md⟩

theorem test_decode_R246 : decodeHeader 0xFC70002F04000009 = some ⟨7, 0, some 2, none, 2, .ord, 9⟩ ∧
    decodeWord 0x4010044201004000 = .ok (.lds p0 ⟨.v 4, .s 2, .v 1, .grp, .rlx, .none, .b32, .none, 0⟩) ∧
    decodeWord 0x2030060480067000 = .ok (.ffma p0 (vt (.v 6) (.v 4) (.k 0) (.v 6) .f32)) ∧
    decodeWord 0x4410064401014000 = .ok (.sts p0 ⟨.v 6, .s 4, .v 1, .grp, .rlx, .a, .b32, .none, 0⟩) ∧
    decodeWord 0x0810424200000080 = .ok (.addi p0 ⟨.s 2, .s 2, 128⟩) ∧
    decodeWord 0x08104343FFFFFFFF = .ok (.addi p0 ⟨.s 3, .s 3, -1⟩) ∧
    decodeWord 0x00204301FFFFFFF8 = .ok (.bru p0 ⟨.s 3, 1, -8⟩) ∧
    decodeHeader 0xFC0004FF00000000 = some ⟨0, 4, none, none, 0, .ord, 0⟩ ∧
    decodeWord 0x0070000000000000 = .ok (.exit p0 (vt no no no no .i32)) := by decide +kernel

theorem test_decode_R282 : decodeWord 0x0850910260000064 = .ok (.cmpi p0 ⟨.m 1, .v 2, 0x60000064⟩) ∧
    decodeWord 0x0090000000000021 = .ok (.trap p0 ⟨no, no, 0x21⟩) ∧ decodeWord 0x1400000000000004 = .ok (.gsplit p0 ⟨no, no, 4⟩) ∧
    decodeWord 0x0450070104921002 = .ok (.addc p0 (vt (.v 7) (.v 1) (.v 4) (.m 2) .n32 2)) ∧
    decodeWord 0x0450080205921000 = .ok (.addc p0 (vt (.v 8) (.v 2) (.v 5) (.m 2) .n32 0)) := by decide +kernel

theorem test_decode_R301 : decodeWord 0x2082930001007002 = .ok (.fcmp ⟨1, false⟩ (vt (.m 3) (.v 0) (.v 1) no .f32 2)) ∧
    decodeWord 0x2400030809008007 = .ok (.fcvt p0 (vt (.v 3) (.v 8) (.v 9) no .f16x2 7)) ∧
    decodeWord 0x2410020500000407 = .ok (.ftoi p0 ⟨.v 2, .v 5, no, no, .i32, .rz, false, .none, 7⟩) ∧
    decodeWord 0x242001B000007001 = .ok (.itof p0 (vt (.v 1) (.spec .lane) no no .f32 1)) ∧
    decodeWord 0x24300A020300A001 = .ok (.pack8 p0 (vt (.v 10) (.v 2) (.v 3) no .e4m3x4 1)) ∧
    decodeWord 0x24500C004600C002 = .ok (.qnt p0 (vt (.v 12) (.v 0) (.s 6) no .ai8 2)) := by decide +kernel

theorem test_decode_R307 : decodeWord 0x2850450200007001 = .ok (.redux p0 (vt (.s 5) (.v 2) no no .f32 1)) ∧
    decodeWord 0x2860070100001010 = .ok (.scan p0 (vt (.v 7) (.v 1) no no .n32 0x10)) ∧
    decodeWord 0x28200302A9A82000 = .ok (.shup p0 (vt (.v 3) (.v 2) (.const .one) (.const .zero) .b32)) ∧
    decodeWord 0x2870940000000001 = .ok (.elect p0 (vt (.m 4) no no no .i32 1)) ∧
    decodeWord 0x28804441B5000000 = .ok (.lget p0 (vt (.s 4) (.s 1) (.spec .pc) no .i32)) := by decide +kernel

theorem test_decode_R341 : decodeWord 0x4000049902644002 = .ok (.ld p0 ⟨.v 4, .a 1, .v 2, .pkg, .acq, .none, .b32, .none, 2⟩) ∧
    decodeWord 0x4400069801696000 = .ok (.st p0 ⟨.v 6, .a 0, .v 1, .pkg, .rel, .a, .b64, .none, 0⟩) ∧
    decodeWord 0x4C000398016C4010 = .ok (.atom p0 ⟨.v 3, .a 0, .v 1, .pkg, .ar, .none, .b32, .none, 16⟩) ∧
    decodeWord 0x4C50059801004071 = .ok (.red p0 ⟨.v 5, .a 0, .v 1, .grp, .rlx, .none, .b32, .none, 0x71⟩) ∧
    decodeWord 0x5000000000640000 = .ok (.fence p0 ⟨no, no, no, .pkg, .acq, .none, .b8, .none, 0⟩) ∧
    decodeWord 0x54204743A8200002 = .ok (.barrive p0 ⟨.s 7, .s 3, .const .zero, .core, .rlx, .none, .b8, .none, 2⟩) ∧
    decodeWord 0x54304843A8200000 = .ok (.bwait p0 ⟨.s 8, .s 3, .const .zero, .core, .rlx, .none, .b8, .none, 0⟩) ∧
    decodeWord 0x58104A4943000400 = .ok (.cpyt p0 ⟨.s 10, .s 9, .s 3, .grp, .rlx, .none, .b8, .none, 0x400⟩) ∧
    decodeWord 0x64000A4400000000 = .ok (.walloc p0 (vt (.v 10) (.s 4) no no .i32)) ∧
    decodeWord 0x4810109A46688000 = .ok (.tst p0 ⟨.v 16, .a 2, .s 6, .pkg, .rel, .none, .b128, .none, 0⟩) := by decide +kernel

theorem test_decode_R357_matrix : decodeWord 0x800000000000A001 = .ok (.mma p0 (vt (.v 0) no no no .e4m3x4 1)) ∧
    decodeWord 0x8010100000009005 = .ok (.mmasp p0 (vt (.v 16) no no no .bf16x2 5)) ∧
    decodeWord 0x800020000000C00A = .ok (.mma p0 (vt (.v 32) no no no .ai8 10)) ∧
    decodeWord 0x802000084500000C = .ok (.spush p0 (vt no (.v 8) (.s 5) no .i32 12)) ∧
    decodeWord 0x8030470000000001 = .ok (.mqstat p0 (vt (.s 7) no no no .i32 1)) ∧
    decodeWord 0x80400000A8000000 = .ok (.mdrop p0 (vt no no (.const .zero) no .i32)) := by decide +kernel

theorem test_decode_R357_transform : decodeWord 0x8420080400099000 = .ok (.xsparse p0 (vt (.v 8) (.v 4) no (.v 9) .bf16x2)) ∧
    decodeWord 0x84300A0300002000 = .ok (.xmatch p0 (vt (.v 10) (.v 3) no no .b32)) ∧
    decodeWord 0x8440040102051000 = .ok (.xsort p0 (vt (.v 4) (.v 1) (.v 2) (.v 5) .n32)) ∧
    decodeWord 0x8450141003002003 = .ok (.xperm p0 (vt (.v 20) (.v 16) (.v 3) no .b32 3)) ∧
    decodeWord 0x8460181000002000 = .ok (.xtrn p0 (vt (.v 24) (.v 16) no no .b32)) := by decide +kernel

theorem test_decode_R390_tape : decodeWord 0xA000000000000000 = .ok (.topen p0 (vt no no no no .i32)) ∧
    decodeWord 0xA010000400000009 = .ok (.trec p0 (vt no (.v 4) no no .i32 9)) ∧
    decodeWord 0xA020080046930001 = .ok (.tpop p0 (vt (.v 8) no (.s 6) (.m 3) .i32 1)) ∧
    decodeWord 0xA030000C00000003 = .ok (.tmark p0 (vt no (.v 12) no no .i32 3)) ∧
    decodeWord 0xA050450000000001 = .ok (.tstat p0 (vt (.s 5) no no no .i32 1)) := by decide +kernel

theorem test_decode_R390_render : decodeWord 0xA4000A5402947000 = .ok (.rcov p0 (vt (.v 10) (.s 20) (.v 2) (.m 4) .f32)) ∧
    decodeWord 0xA410104800007000 = .ok (.esmp p0 (vt (.v 16) (.s 8) no no .f32)) ∧
    decodeWord 0xA800140246007000 = .ok (.tex p0 (vt (.v 20) (.v 2) (.s 6) no .f32)) ∧
    decodeWord 0xA820180246147000 = .ok (.texadj p0 (vt (.v 24) (.v 2) (.s 6) (.v 20) .f32)) ∧
    decodeWord 0xAC00050408497000 = .ok (.trace p0 (vt (.v 5) (.v 4) (.v 8) (.s 9) .f32)) ∧
    decodeWord 0xAC10050409007001 = .ok (.tresume p0 (vt (.v 5) (.v 4) (.v 9) no .f32 1)) ∧
    decodeWord 0xAC302004001D7000 = .ok (.hitadj p0 (vt (.v 32) (.v 4) no (.v 29) .f32)) ∧
    decodeWord 0xB00028202C007001 = .ok (.rcq p0 (vt (.v 40) (.v 32) (.v 44) no .f32 1)) ∧
    decodeWord 0xB010004300000000 = .ok (.rcsync p0 (vt no (.s 3) no no .i32)) := by decide +kernel

theorem test_decode_programs : decodeHeader 0xFC3000FF060FFFFB = some ⟨3, 0, none, none, 3, .ord, -5⟩ ∧
    decodeWord 0x20000706A9007000 = .ok (.fadd p0 (vt (.v 7) (.v 6) (.const .one) no .f32)) ∧
    decodeWord 0x4400079A00004020 = .ok (.st p0 ⟨.v 7, .a 2, .v 0, .grp, .rlx, .none, .b32, .none, 32⟩) ∧
    decodeWord 0x0080000000000000 = .ok (.yield p0 (vt no no no no .i32)) ∧
    decodeWord 0x4000489AA8844040 = .ok (.ld p0 ⟨.s 8, .a 2, .const .zero, .pod, .acq, .none, .b32, .none, 64⟩) ∧
    decodeWord 0x00100000FFFFFFF7 = .ok (.bra p0 ⟨no, 0, -9⟩) ∧
    decodeWord 0x6414000AAB000000 = .ok (.wsend ⟨2, false⟩ (vt no (.v 10) (.const .two) no .i32)) ∧
    decodeWord 0x5C00009BA801004F = .ok (.stash p0 ⟨no, .a 3, .const .zero, .grp, .rlx, .a, .b8, .none, 0x4F⟩) ∧
    decodeWord 0x5C10479BA80100DF = .ok (.restore p0 ⟨.s 7, .a 3, .const .zero, .grp, .rlx, .a, .b8, .none, 0xDF⟩) ∧
    decodeWord 0x5830004D00002001 = .ok (.cpys p0 ⟨no, .s 13, no, .grp, .rlx, .none, .b16, .none, 1⟩) ∧
    decodeWord 0x1420004400000002 = .ok (.gang p0 (vt no (.s 4) no no .i32 2)) := by decide +kernel

/-- Words written out from R232 to R238: ATR a1, s2; MAND m1, m2, m3; MTSR of HEXIT and of PTMASK from s5; COLLAR.fadd.f32 [a1], [s3]. -/
theorem test_decode_written : decodeWord 0x0C00994200000000 = .ok (.atr p0 (vt (.a 1) (.s 2) no no .i32)) ∧
    decodeWord 0x1000919293000000 = .ok (.mand p0 (vt (.m 1) (.m 2) (.m 3) no .i32)) ∧
    decodeWord 0x181000450000010D = .ok (.hexitWrite p0 ⟨no, .s 5, 0x10D⟩) ∧ decodeWord 0x181000450000010A = .ok (.ptmaskWrite p0 ⟨no, .s 5, 0x10A⟩) ∧
    decodeWord 0x60004399A8000071 = .ok (.collar p0 ⟨.s 3, .a 1, .const .zero, .grp, .rlx, .none, .b8, .none, 0x71⟩) := by decide +kernel

/-- R232 to R240: a major or minor code that is not assigned, a nonzero reserved bit, a bad TYPE and a bad operand class are each refused. -/
theorem test_decode_refuses : decodeWord 0x1C00000000000000 = .error .illegalInstruction ∧ decodeWord 0x00D0000000000000 = .error .illegalInstruction ∧
    decodeWord 0xFC00000000000000 = .error .illegalInstruction ∧ decodeWord 0x0000000000000001 = .error .illegalInstruction ∧
    decodeWord 0x040005024700F000 = .error .illegalInstruction ∧ decodeWord 0x0400990247000000 = .error .illegalOperand ∧
    decodeWord 0x0400050247010100 = .error .illegalInstruction := by decide +kernel

/-! ## What is not well formed -/

theorem test_wellFormed_codes : (Instr.add p0 (vt (.v 1) (.v 2) (.v 3) no .f32)).codesOk = false ∧ (Instr.add p0 (vt (.v 1) (.v 2) (.v 3) no .i32)).wellFormed = true ∧
    (Instr.add p0 (vt (.v 1) (.v 2) (.v 3) no .f32)).wellFormed = false := by decide +kernel
theorem test_wellFormed_operands : (Instr.add p0 (vt (.a 1) (.v 2) (.v 3) no .i32)).codesOk = true ∧ (Instr.add p0 (vt (.a 1) (.v 2) (.v 3) no .i32)).operandsOk = false ∧
    (Instr.add p0 (vt (.a 1) (.v 2) (.v 3) no .i32)).wellFormed = false := by decide +kernel
theorem test_wellFormed_args : (Instr.switch 256).codesOk = true ∧ (Instr.switch 256).operandsOk = true ∧ (Instr.switch 256).wellFormed = false ∧
    (Instr.switch 255).wellFormed = true := by decide +kernel
theorem test_wellFormed_events : (Instr.flagClear 0 12).wellFormed = false ∧ (Instr.batchTimeout 0 63).wellFormed = false ∧ (Instr.uPartialApply 1536 0).wellFormed = false ∧
    (Instr.lqtailWrite 64 0).wellFormed = false ∧ (Instr.launchRecordTake 64).wellFormed = false ∧ (Instr.teamRestore 0 1536).wellFormed = false ∧
    (Instr.kill 256).wellFormed = false ∧ (Instr.fqheadWrite 256 0).wellFormed = false ∧ (Instr.writeBufferDrain 1536).wellFormed = false := by decide +kernel

/-! ## Worked results of the spec -/

/-- Eight lanes with the same v registers and FPL. -/
def vSt (fpl : W32) (r : List Nat) : State :=
  mach { grp0 with lanes := List.replicate 8 { lane0 with fpl, v := r.map fun n => ⟨BitVec.ofNat 32 n, false⟩ } }
/-- Register v i of a lane after a step, and the flags NV, DZ, OF, UF, NX of its FPL as a number. -/
def got (o : Out) (l i : Nat) : Nat × Nat :=
  match o with
  | .next t => (((t.grpAt 0).vReg l i).val.toNat, ((t.grpAt 0).lane l).fpl.toNat / 256)
  | _ => (0, 999)
/-- V-format fields of a conversion of v1 (and v2) to v3. -/
def cv (b : Opnd) (t : Ty) (m : BitVec 6) (r : Rmo := .lane) : VF := ⟨.v 3, .v 1, b, un, t, r, false, .none, m⟩

/-- The table of R301: 65,520.0 to FP16 under RNE and RZ; 2^−26 under RNE and RU. -/
theorem test_fcvt_R301 : (got (exec (.fcvt p0 (cv (.v 2) .f16x2 7)) (vSt 0 [0, 0x477FF000])) 0 3).1 % 65536 = 0x7BFF ∧
    (got (exec (.fcvt p0 (cv (.v 2) .f16x2 7)) (vSt 0 [0, 0x477FF000])) 0 3).2 = 0x14 ∧
    (got (exec (.fcvt p0 (cv (.v 2) .f16x2 7 .rz)) (vSt 0 [0, 0x477FF000])) 0 3).2 = 0x10 ∧
    got (exec (.fcvt p0 (cv (.v 2) .f16x2 7)) (vSt 0 [0, 0x32800000])) 0 3 = (0, 0x18) ∧
    got (exec (.fcvt p0 (cv (.v 2) .f16x2 7 .ru)) (vSt 0 [0, 0x32800000])) 0 3 = (1, 0x18) := by decide +kernel
/-- The table of R301: −2.5 to i32 under RNE, RZ and RD; −1.0 to n32; a NaN. -/
theorem test_ftoi_R301 : got (exec (.ftoi p0 (cv un .i32 7)) (vSt 0 [0, 0xC0200000])) 0 3 = (0xFFFFFFFE, 0x10) ∧
    got (exec (.ftoi p0 (cv un .i32 7 .rd)) (vSt 0 [0, 0xC0200000])) 0 3 = (0xFFFFFFFD, 0x10) ∧
    got (exec (.ftoi p0 (cv un .n32 7)) (vSt 0 [0, 0xBF800000])) 0 3 = (0, 1) ∧
    got (exec (.ftoi p0 (cv un .i32 7)) (vSt 0 [0, 0x7FC00000])) 0 3 = (0, 1) := by decide +kernel
/-- The table of R301: 500.0 and +Inf to E4M3. -/
theorem test_pack8_R301 : (got (exec (.pack8 p0 (cv (.v 2) .e4m3x4 0)) (vSt 0 [0, 0x43FA0000])) 0 3) = (0x7E, 0x14) ∧
    (got (exec (.pack8 p0 (cv (.v 2) .e4m3x4 0)) (vSt 0 [0, 0x7F800000])) 0 3) = (0x7E, 0x10) := by decide +kernel
/-- The table of R301: 63.3 and 64.0 with scale 0.5 and zero point 128. -/
theorem test_qnt_R301 : got (exec (.qnt p0 (cv (.v 2) .ai8 0)) (vSt 0 [0, 0x427D3333, 0x00803800])) 0 3 = (255, 0x10) ∧
    got (exec (.qnt p0 (cv (.v 2) .ai8 0)) (vSt 0 [0, 0x42800000, 0x00803800])) 0 3 = (255, 1) := by decide +kernel
/-- Word 1 of R267's example in lane 0: 0xFFFFFFFF + 1 is 0 with a carry into m2. -/
theorem test_addc_R267 : (match exec (.addc p0 (vt (.v 6) (.v 0) (.v 3) (.const .zero) .n32 2)) (vSt 0 [0xFFFFFFFF, 0, 0, 1]) with
    | .next t => some (((t.grpAt 0).vReg 0 6).val, ((t.grpAt 0).mBits 2).getLsbD 0) | _ => none) = some (0, true) := by decide +kernel

/-- The example of R305 and R306: six active lanes of eight. -/
def sumSt : State :=
  let f (n : Nat) : Lane := { lane0 with v := [{}, {}, ⟨BitVec.ofNat 32 n, false⟩] }
  mach { grp0 with lanes := [0x4B800000, 0x3F800000, 0x3F800000, 0x3F800000, 0xCB800000, 0x3F800000, 0x3F800000, 0x3F800000].map f, m := [{}, { bits := 0x3F }] }
theorem test_redux_R305 : (List.range 8).map (fun l => got (exec (.redux ⟨1, false⟩ (vt (.v 3) (.v 2) no no .f32 1)) sumSt) l 3) =
    List.replicate 6 (0x40400000, 0x10) ++ List.replicate 2 (0, 0) := by decide +kernel
theorem test_scan_R306 : (List.range 8).map (fun l => (got (exec (.scan ⟨1, false⟩ (vt (.v 4) (.v 2) no no .f32 1)) sumSt) l 4).1) =
    [0x4B800000, 0x4B800000, 0x4B800000, 0x4B800001, 0x40000000, 0x40400000, 0, 0] := by decide +kernel

/-! ## The first step after a word is placed -/

theorem test_first_movi : (match step (State.reset.withFetchWord 64 0x0800450000001234) with
    | .next t => some (((t.grpAt 0).sreg 5).val, ((t.grpAt 0).lane 0).pc) | _ => none) = some (0x1234, 16) := by decide +kernel
theorem test_first_add : (match step (State.reset.withFetchWord 64 0x0400050247000100) with
    | .next t => some (((t.grpAt 0).vReg 3 5).val, ((t.grpAt 0).lane 3).pc) | _ => none) = some (0, 16) := by decide +kernel

/-- R412: TRAP with code 0x21 enters the handler at TRAPV, with every active lane in the mask. -/
theorem test_trap_R412 : (match exec (.trap p0 ⟨no, no, 0x21⟩) st0 with
    | .next t => ((t.grpAt 0).handler.map fun h => (h.pc, h.tmask)) | _ => none) = some (0x1000, 0xFF) := by decide +kernel

end Sys2Proof.Tests
end

section
/-! PROOFS. The memory keeps its canonical form (O59): the words on registers, loads, barriers, copies and collectives as they issue. -/
set_option maxRecDepth 100000

namespace Sys2Proof.Machine

@[simp] theorem Did.Ok_ite (c : Prop) [Decidable c] (a b : Did) :
    (if c then a else b).Ok = if c then a.Ok else b.Ok := by
  split <;> rfl

@[simp] theorem did_State_flagWait (s : State) (m) (h : Memory.wf s.mem = true) : (s.flagWait m).Ok := by
  unfold State.flagWait
  split <;> simp [h]

@[simp] theorem did_State_fullWait (s : State) (m) (h : Memory.wf s.mem = true) : (s.fullWait m).Ok :=
  did_State_flagWait s _ h

theorem ok_regEvent (s t : State) (h : Memory.wf s.mem = true) (ht : Memory.wf t.mem = true) : OutOk (s.regEvent t) :=
  ok_next _ (by simp [h, ht])

theorem ok_intOp (s : State) (p f n fn) (h : Memory.wf s.mem = true) : OutOk (s.intOp p f n fn) := by
  unfold State.intOp
  split
  · exact ok_once _ _ _ _ _ h
  · exact ok_perLane _ _ _ _ h

theorem ok_mov (p f) (s : State) (h : Memory.wf s.mem = true) : OutOk (execMov p f s) := by
  unfold execMov
  split
  · exact ok_once _ _ _ _ _ h
  · split
    · exact ok_perform _ _ _ _ _ h fun m s h => by simp [h]
    · exact ok_intOp _ _ _ _ _ h

theorem ok_compareOp (s : State) (b p d srcs res) (h : Memory.wf s.mem = true) : OutOk (s.compareOp b p d srcs res) := by
  unfold State.compareOp
  split
  · exact ok_perform _ _ _ _ _ h fun m s h => by simp [h]
  · exact ok_once _ _ _ _ _ h
  · exact ok_perLane _ _ _ _ h

theorem ok_sel (p f) (s : State) (h : Memory.wf s.mem = true) : OutOk (execSel p f s) := by
  unfold execSel
  dsimp only
  split
  · exact ok_once _ _ _ _ _ h
  · exact ok_perLane _ _ _ _ h

theorem ok_flagClear (grp flag) (s : State) (h : Memory.wf s.mem = true) : OutOk (execFlagClear grp flag s) := by
  unfold execFlagClear
  dsimp only
  split <;> exact ok_next _ (by simp [h])

theorem ok_fcmp (p f) (s : State) (h : Memory.wf s.mem = true) : OutOk (execFcmp p f s) := by
  unfold execFcmp
  dsimp only
  split
  · exact ok_perform _ _ _ _ _ h fun m s h => by simp [h]
  · exact ok_perLane _ _ _ _ h

theorem ok_loadOp (s : State) (b p f k) (h : Memory.wf s.mem = true) : OutOk (s.loadOp b p f k) := by
  unfold State.loadOp
  refine ok_perform _ _ _ _ _ h fun m s h => ?_
  refine did_State_orWait _ _ _ _ ?_ (by simp [h])
  split
  rename_i e; have h1 := fst_ok e (by simp [h])
  split
  · exact h1
  · split
    · exact h1
    · rename_i e2; have h2 := ok_State_noteFlts e2 h1
      dsimp only
      rw [Did.Ok_done, mem_State_afterRead, mem_State_sampledIf]
      split <;> simp [h2]

theorem pending_ok (s : State) (f m) (d : Did) (h : Memory.wf s.mem = true) (hd : d.Ok) : ((s.pending f m).getD d).Ok := by
  unfold State.pending
  split
  · simp [h]
  · dsimp only
    split <;> simp [h, hd, State.takeReport]

theorem ok_barrive (p f) (s : State) (h : Memory.wf s.mem = true) : OutOk (execBarrive p f s) := by
  unfold execBarrive
  refine ok_perform _ _ _ _ _ h fun m s h => pending_ok _ _ _ _ h (did_State_withBar _ _ _ _ _ _ (fun s b h => ?_) h)
  dsimp only
  refine did_State_orWait _ _ _ _ ?_ (by simp [h])
  split
  · simp [h]
  · split
    · simp [h]
    · repeat' split
      all_goals simp [h]

theorem ok_bwait (p f) (s : State) (h : Memory.wf s.mem = true) : OutOk (execBwait p f s) := by
  unfold execBwait
  exact ok_perform _ _ _ _ _ h fun m s h => pending_ok _ _ _ _ h (did_State_withBar _ _ _ _ _ _ (fun s b h => by simp [h]) h)

theorem ok_btest (p f) (s : State) (h : Memory.wf s.mem = true) : OutOk (execBtest p f s) := by
  unfold execBtest
  refine ok_perform _ _ _ _ _ h fun m s h => ?_
  split
  · exact h
  · refine did_State_withBar _ _ _ _ _ _ (fun s b h => ?_) h
    dsimp only
    split <;> simp [h]

theorem ok_laneWaitResume (grp) (s : State) (h : Memory.wf s.mem = true) : OutOk (execLaneWaitResume grp s) := by
  unfold execLaneWaitResume
  split
  · exact ok_next _ h
  · extract_lets s1 ls ovl first
    have h1 : Memory.wf s1.mem = true := by simp [s1, h]
    clear_value s1
    split
    · exact ok_next _ (by simp [h1])
    · rename_i s2 taken _ _
      have h2 : Memory.wf s2.mem = true := by
        refine foldl_okS _ _ _ (fun s l h => ?_) h1
        split <;> simp [h]
      have h3 (l : List W64) : Memory.wf (l.foldl State.countWait s2).mem = true := foldl_okS _ _ _ (fun s r h => ok_State_countWait s r h) h2
      clear_value s2 taken first
      dsimp only
      split <;> exact ok_next _ (by simp [foldl_memS, h3, -List.contains_eq_mem])

theorem ok_copyOp (s : State) (p f k) (h : Memory.wf s.mem = true) : OutOk (s.copyOp p f k) := by
  unfold State.copyOp
  refine ok_perform _ _ _ _ _ h fun m s h => ?_
  split
  · simp [h]
  · exact did_State_copyChecks _ _ _ _ _ (fun s ls b h => by split; rename_i e; simp [fst_ok e (by simp [h])]) h

theorem ok_cpys (p f) (s : State) (h : Memory.wf s.mem = true) : OutOk (execCpys p f s) := by
  unfold execCpys
  exact ok_perform _ _ _ _ _ h fun m s h => did_State_copyChecks _ _ _ _ _ (fun s ls b h => by simp [h]) h

theorem ok_restore (p f) (s : State) (h : Memory.wf s.mem = true) : OutOk (execRestore p f s) := by
  unfold execRestore
  refine ok_performWide _ _ _ _ h fun m s h => ?_
  split
  · simp [h]
  · exact did_State_stashChecks _ _ _ _ _ (fun s v h => by split <;> simp [h]) h

theorem ok_collOp (s : State) (p f k) (h : Memory.wf s.mem = true) : OutOk (s.collOp p f k) := by
  unfold State.collOp
  refine ok_perform _ _ _ _ _ h fun m s h => ?_
  dsimp only
  split
  · exact h
  · split
    · exact h
    · refine did_State_withRun _ _ _ _ _ _ (fun s b h => ?_) h
      split <;> rename_i e <;> have h1 := fst_ok e (by simp [h])
      · simp [h1]
      · split
        · exact h1
        · refine did_State_withRun _ _ _ _ _ _ (fun s b h => ?_) h1
          split <;> rename_i e <;> have h2 := fst_ok e (by simp [h])
          · exact did_State_orWait _ _ _ _ (by simp [h2]) (by simp [h2])
          · simp [h2]

end Sys2Proof.Machine
end

section
/-! PROOFS. The memory keeps its canonical form (O59): stores, matrix words and tiles. -/
set_option maxRecDepth 100000

namespace Sys2Proof.Machine

theorem ok_storeOp (s : State) (b p f acc k) (h : Memory.wf s.mem = true) : OutOk (s.storeOp b p f acc k) := by
  unfold State.storeOp
  refine ok_perform _ _ _ _ _ h fun m s h => ?_
  dsimp only
  split
  · simp [h]
  · refine did_State_orWait _ _ _ _ ?_ (by split <;> simp [h])
    split
    · simp only [Did.Ok_stall]
      split <;> simp [h]
    · rename_i e
      have h1 := ok_State_noteFlts e (by split <;> simp [h])
      simp only [Did.Ok_done, mem_State_sampledIf]
      split
      · simp [h1]
      · refine ok_State_afterWrite _ _ _ ?_
        rw [mem_State_flagEnd]
        refine foldl_okS _ _ _ (fun s x h => ?_) (by simp [h1])
        split <;> simp [h]

theorem ok_mmaOp (s : State) (b p f) (h : Memory.wf s.mem = true) : OutOk (s.mmaOp b p f) := by
  unfold State.mmaOp
  refine ok_perform _ _ _ _ _ h fun m s h => ?_
  dsimp only
  split
  · exact h
  · split
    · exact foldl_okS _ _ _ (fun s k h => by simp [h]) h
    · split
      · split
        · exact foldl_okS _ _ _ (fun s k h => by simp [h]) h
        · simp [h]
      · exact h

theorem ok_mmaPop (grp) (s : State) (h : Memory.wf s.mem = true) : OutOk (execMmaPop grp s) := by
  unfold execMmaPop
  split
  · exact ok_next _ h
  · dsimp only
    split
    · exact ok_next _ h
    · exact ok_next _ (foldl_okS _ _ _ (fun s k h => by simp [h]) (by simp [h]))
    · exact ok_next _ (foldl_okS _ _ _ (fun s k h => by simp [h]) (by simp [h]))

theorem ok_tileLoad (s : State) (p f) (h : Memory.wf s.mem = true) : OutOk (s.tileLoad p f) := by
  unfold State.tileLoad
  refine ok_performWide _ _ _ _ h fun m s h => ?_
  dsimp only
  split
  · split <;> rename_i e <;> have h1 := fst_ok e (by simp [h])
    · simp [h1]
    · simp [h1]
  · refine did_State_orWait _ _ _ _ ?_ (by simp [h])
    split <;> rename_i e <;> have h1 := fst_ok e (by simp [h])
    · exact h1
    · simp [h1]
    · simp [h1]
    · split <;> simp [h1]
    · simp [h1]

theorem ok_tileStore (s : State) (p f) (h : Memory.wf s.mem = true) : OutOk (s.tileStore p f) := by
  unfold State.tileStore
  refine ok_performWide _ _ _ _ h fun m s h => ?_
  dsimp only
  split
  · simp [h]
  · split <;> rename_i e <;> have h1 := fst_ok e (by simp [h])
    · exact h1
    · simp [h1]
    · split
      · simp [h1]
      · refine did_State_orWait _ _ _ _ ?_ (by simp [h1])
        split <;> simp [foldl_memS, h1]

theorem ok_lockGot (s s0 : State) (h : Memory.wf s.mem = true) (h0 : Memory.wf s0.mem = true) : OutOk (s.lockGot s0) := by
  unfold State.lockGot
  split
  · split
    rename_i e
    have h1 := fst_ok e (by simp [h])
    dsimp only
    split
    · exact ok_next _ (by simp [h1])
    · split
      · rename_i e
        split
        · exact ok_next _ h0
        · refine ok_next _ ?_
          split at e
          · exact ok_tileLoad _ _ _ (by simp [h1]) _ e
          · exact ok_tileStore _ _ _ (by simp [h1]) _ e
          · cases e
            simp [h1]
      · split
        · exact ok_tileLoad _ _ _ (by simp [h1])
        · exact ok_tileStore _ _ _ (by simp [h1])
        · exact ok_next _ (by simp [h1])
  · exact ok_next _ h0

theorem ok_tileLockGrant (grp) (s : State) (h : Memory.wf s.mem = true) : OutOk (execTileLockGrant grp s) := by
  unfold execTileLockGrant
  dsimp only
  split
  · split
    · split
      · exact ok_next _ h
      · exact ok_lockGot _ _ (by simp [h]) h
    · split <;> exact ok_next _ (by simp [h])
  · exact ok_next _ h

end Sys2Proof.Machine
end

section
/-! PROOFS. The memory keeps its canonical form (O59): reductions, work records, launches, placement and completion. -/
set_option maxRecDepth 100000

namespace Sys2Proof.Machine

theorem ok_red (p f) (s : State) (h : Memory.wf s.mem = true) : OutOk (execRed p f s) := by
  unfold execRed
  refine ok_perform _ _ _ _ _ h fun m s h => ?_
  extract_lets poi
  split
  rename_i e
  have h1 := fst_ok e (by simp [h])
  extract_lets fl s1
  have h2 : Memory.wf s1.mem = true := by
    simp only [s1]
    split <;> simp [h1]
  clear_value s1
  split
  · simp [h1]
  · refine did_State_orWait _ _ _ _ ?_ h2
    split
    · exact h2
    · rename_i e
      have h3 := ok_State_noteFlts e h2
      split
      rename_i e
      have h4 := fst_ok e (by split <;> simp [h3])
      extract_lets r
      have h5 : Memory.wf r.1.mem = true := by
        refine foldl_okP _ _ (_, _) (fun a x h => ?_) h4
        split <;> simp [h]
      split <;> simp [h5]

theorem ok_anvilStage (team full) (s : State) (h : Memory.wf s.mem = true) : OutOk (execAnvilStage team full s) := by
  unfold execAnvilStage
  dsimp only
  split
  · exact ok_next _ h
  · split
    · exact ok_next _ h
    · split
      · exact ok_next _ (by simp [h])
      · exact ok_next _ (by split <;> simp [h])

theorem ok_epochClose (grid) (s : State) (h : Memory.wf s.mem = true) : OutOk (execEpochClose grid s) := by
  unfold execEpochClose
  dsimp only
  repeat' split
  · exact ok_next _ h
  · exact ok_next _ h
  · exact ok_next _ (by simp [h])
  · exact ok_next _ (by simp [foldl_memS, h])

theorem ok_batchTimeout (grid node) (s : State) (h : Memory.wf s.mem = true) : OutOk (execBatchTimeout grid node s) := by
  unfold execBatchTimeout
  dsimp only
  split <;> exact ok_next _ (by simp [h])

/-- A record is taken from its pool, which is no memory. -/
theorem mem_State_takeRecord {s t : State} {pool who i} {va : W64} (e : s.takeRecord pool who i = some (t, va)) : t.mem = s.mem := by
  unfold State.takeRecord at e
  dsimp only at e
  split at e <;> cases e
  rfl

theorem ok_walloc (p f) (s : State) (h : Memory.wf s.mem = true) : OutOk (execWalloc p f s) := by
  unfold execWalloc
  refine ok_perform _ _ _ _ _ h fun m s h => did_State_nodeOf _ _ _ _ (fun n => ?_) h
  extract_lets ls r s1 got s2 g
  have h1 : Memory.wf r.1.mem = true := by
    refine foldl_okP _ _ (s, false) (fun x l h => ?_) h
    split
    · exact h
    · split
      · exact h
      · rename_i e
        simpa [mem_State_takeRecord e] using h
  clear_value r
  have h2 : Memory.wf s2.mem = true := foldl_okS _ _ _ (fun s l h => by simp [h]) (by simp [s1, h1])
  split
  · exact h1
  · simp [h2]

theorem ok_wsend (p f) (s : State) (h : Memory.wf s.mem = true) : OutOk (execWsend p f s) := by
  unfold execWsend
  refine ok_perform _ _ _ _ _ h fun m s h => did_State_nodeOf _ _ _ _ (fun n => ?_) h
  dsimp only
  refine did_State_orWait _ _ _ _ ?_ (by simp [h])
  refine foldl_okP _ _ (_, _) (fun x l h => ?_) (by simp [h])
  split
  · exact h
  · split
    · exact h
    · simp [h]

theorem ok_launch (p f) (s : State) (h : Memory.wf s.mem = true) : OutOk (execLaunch p f s) := by
  unfold execLaunch
  refine ok_perform _ _ _ _ _ h fun m s h => ?_
  extract_lets a b put
  split
  · exact h
  · split
    · exact h
    · split
      · exact h
      · split
        · exact h
        · split
          · exact h
          · refine did_State_withRun _ _ _ _ _ _ (fun s bs h => ?_) h
            extract_lets q s1
            have hput (t : State) (v : Nat) (ht : Memory.wf t.mem = true) : (put t v).Ok := by
              simp only [put]
              split <;> simp [ht]
            have h1 : Memory.wf s1.mem = true := by simp [s1, h]
            clear_value put s1
            split
            · exact hput _ _ h
            · exact did_State_orWait _ _ _ _ (hput _ _ (by simp [h1])) h1

theorem ok_launchRecordTake (queue) (s : State) (h : Memory.wf s.mem = true) : OutOk (execLaunchRecordTake queue s) := by
  unfold execLaunchRecordTake
  split
  · exact ok_next _ h
  · extract_lets q ctx took go
    split
    rename_i e
    have h1 := fst_ok e (by simp [h])
    extract_lets b r refuse
    have hgo (t : State) (ht : Memory.wf t.mem = true) : OutOk (go t) := ok_next _ (by simp [h, ht])
    have htook (t : State) : (took t).mem = t.mem := by simp [took]
    have hrefuse (t : State) (ht : Memory.wf t.mem = true) : OutOk (refuse t) := hgo _ (by simp [htook, ht])
    clear_value go took refuse
    split
    · exact hgo _ (by simp [htook, h1])
    · split
      · exact hrefuse _ h1
      · split <;> rename_i e2 <;> have h2 := fst_ok e2 (by simp [h1])
        · exact hgo _ h2
        · exact hrefuse _ (by simp [h2])
        · exact hrefuse _ h2
        · exact hgo _ (by simp [htook, h2])

theorem ok_gridStart (grid) (s : State) (h : Memory.wf s.mem = true) : OutOk (execGridStart grid s) := by
  unfold execGridStart
  split
  · exact ok_next _ h
  · extract_lets gr r go
    have hgo (t : State) (ht : Memory.wf t.mem = true) : OutOk (go t) := ok_next _ (by simp [h, ht])
    clear_value go
    split
    rename_i e1
    have h1 := fst_ok e1 (by simp [h])
    split
    rename_i e2
    have h2 := fst_ok e2 (by simp [h1])
    extract_lets gr s1
    have h3 : Memory.wf s1.mem = true := by simp [s1, h2]
    clear_value s1
    split
    · exact hgo _ h3
    · split
      rename_i e
      have h4 := fst_ok e (by simp [h3])
      split
      rename_i e
      have h5 := fst_ok e (by split <;> simp [h4])
      split <;> exact hgo _ (by simp [h5])

theorem ok_teamPlacement (grid cores keep) (s : State) (h : Memory.wf s.mem = true) : OutOk (execTeamPlacement grid cores keep s) := by
  unfold execTeamPlacement
  dsimp only
  split
  · exact ok_next _ h
  · split
    · rename_i e
      split at e
      · exact absurd e (by simp)
      · exact ok_next _ (by rw [mem_State_tryPlace e]; exact h)
    · split
      · exact ok_next _ h
      · split
        · exact ok_next _ (by simp [h])
        · exact ok_next _ h

theorem ok_preEmptionWithdraw (team) (s : State) (h : Memory.wf s.mem = true) : OutOk (execPreEmptionWithdraw team s) := by
  unfold execPreEmptionWithdraw
  dsimp only
  split <;> exact ok_next _ (by simp [h])

theorem ok_gridCompletion (grid) (s : State) (h : Memory.wf s.mem = true) : OutOk (execGridCompletion grid s) := by
  unfold execGridCompletion
  have h1 : Memory.wf (s.cores.keys.foldl (fun s k => s.flushCore k) s).mem = true := foldl_okS _ _ _ (fun s k h => by simp [h]) h
  dsimp only
  split
  · split
    · exact ok_next _ h
    · split
      · exact ok_next _ h1
      · exact ok_next _ (by simp [h, h1])
  · exact ok_next _ h

end Sys2Proof.Machine
end

section
/-! PROOFS. The memory keeps its canonical form (O59): lane exchange, handler access, calls, radiance caches and the tape. -/
set_option maxRecDepth 100000

namespace Sys2Proof.Machine

theorem ok_exchange (s : State) (p f own src poi) (h : Memory.wf s.mem = true) : OutOk (s.exchange p f own src poi) := by
  unfold State.exchange
  exact ok_perform _ _ _ _ _ h fun m s h => by simp [h]

theorem ok_bcast (p f) (s : State) (h : Memory.wf s.mem = true) : OutOk (execBcast p f s) := by
  unfold execBcast
  dsimp only
  split
  · exact ok_once _ _ _ _ _ h
  · exact ok_exchange _ _ _ _ _ _ h

theorem ok_lget (p f) (s : State) (h : Memory.wf s.mem = true) : OutOk (execLget p f s) := by
  unfold execLget
  exact ok_perform _ _ _ _ _ h fun m s h => did_State_handlerLane _ _ _ _ (fun s l v h => by simp [h]) h

theorem ok_mfsr (p f) (s : State) (h : Memory.wf s.mem = true) : OutOk (execMfsr p f s) := by
  unfold execMfsr
  dsimp only
  split
  · refine ok_perform _ _ _ _ _ h fun m s h => ?_
    split <;> simp [h]
  · refine ok_perform _ _ _ _ _ h fun m s h => ?_
    split
    · split <;> simp [h]
    · simp [h]

theorem ok_mtsr (p f) (s : State) (h : Memory.wf s.mem = true) : OutOk (execMtsr p f s) := by
  unfold execMtsr
  dsimp only
  split
  · refine ok_perform _ _ _ _ _ h fun m s h => ?_
    split <;> simp [h]
  · exact ok_perform _ _ _ _ _ h fun m s h => did_State_writeTrapReg _ _ _ _ (fun s v h => by simp [h]) h

theorem ok_hexitWrite (p f) (s : State) (h : Memory.wf s.mem = true) : OutOk (execHexitWrite p f s) := by
  unfold execHexitWrite
  exact ok_perform _ _ _ _ _ h fun m s h => did_State_writeTrapReg _ _ _ _ (fun s v h => by simp [h]) h

theorem ok_ptmaskWrite (p f) (s : State) (h : Memory.wf s.mem = true) : OutOk (execPtmaskWrite p f s) := by
  unfold execPtmaskWrite
  refine ok_perform _ _ _ _ _ h fun m s h => did_State_writeTrapReg _ _ _ _ (fun s v h => ?_) h
  dsimp only
  split <;> simp [h]

theorem ok_rcq (p f) (s : State) (h : Memory.wf s.mem = true) : OutOk (execRcq p f s) := by
  unfold execRcq
  extract_lets train
  refine ok_perform _ _ _ _ _ h fun m s h => ?_
  split
  · trivial
  · extract_lets w ls bad fails ok g r1 r2
    have h1 : Memory.wf r1.1.mem = true := by
      refine foldl_okP _ _ (_, _) (fun x l h => ?_) (by simp [h])
      dsimp only
      split <;> simp [h]
    have h2 : Memory.wf r2.1.mem = true :=
      foldl_okS _ _ _ (fun s l h => foldl_okS _ _ _ (fun s j h => by simp [h]) h) h1
    split <;> simp [h2]

theorem ok_temperStep (ctx) (s : State) (h : Memory.wf s.mem = true) : OutOk (execTemperStep ctx s) := by
  unfold execTemperStep
  dsimp only
  split
  · exact ok_next _ (by simp [h])
  · split <;> exact ok_next _ (by simp [h])

theorem ok_versionPublish (ctx) (s : State) (h : Memory.wf s.mem = true) : OutOk (execVersionPublish ctx s) := by
  unfold execVersionPublish
  extract_lets c
  split
  · refine ok_next _ (ok_State_unmet _ _ h ?_)
    rw [mem_State_settleAll, mem_State_bump, mem_State_setCtxAt]
    exact ok_State_homeWrite _ _ _ _ _ h
  · exact ok_next _ h

theorem ok_brx (p f) (s : State) (h : Memory.wf s.mem = true) : OutOk (execBrx p f s) := by
  unfold execBrx
  refine ok_perform _ _ _ _ _ h fun m s h => ?_
  dsimp only
  split <;> simp [foldl_memS, h]

theorem ok_call (p f) (s : State) (h : Memory.wf s.mem = true) : OutOk (execCall p f s) := by
  unfold execCall
  refine ok_performWide _ _ _ _ h fun m s h => did_State_returnSite _ _ (fun s hd h => ?_) h
  split
  · exact h
  · split <;> rename_i e <;> have h1 := fst_ok e (by simp [h])
    · exact h1
    · split
      · split <;> simp [h1]
      · exact h1

theorem ok_callx (p f) (s : State) (h : Memory.wf s.mem = true) : OutOk (execCallx p f s) := by
  unfold execCallx
  refine ok_performWide _ _ _ _ h fun m s h => did_State_returnSite _ _ (fun s hd h => ?_) h
  dsimp only
  repeat' split
  all_goals simp [h]

theorem ok_ret (p f) (s : State) (h : Memory.wf s.mem = true) : OutOk (execRet p f s) := by
  unfold execRet
  refine ok_performWide _ _ _ _ h fun m s h => ?_
  split
  · exact h
  · split <;> rename_i e <;> have h1 := fst_ok e (by simp [h])
    · exact h1
    · dsimp only
      split
      · exact h1
      · split
        · exact h1
        · exact did_State_withRun _ _ _ _ _ _ (fun s b h => by simp [h]) h1

theorem ok_tapeOp (s : State) (p f c l states k) (h : Memory.wf s.mem = true) (hk : ∀ s m, Memory.wf s.mem = true → (k s m).Ok) :
    OutOk (s.tapeOp p f c l states k) := by
  unfold State.tapeOp
  split
  · refine ok_performWide _ _ _ _ h fun m s h => ?_
    simp [h, hk]
  · refine ok_perform _ _ _ _ _ h fun m s h => ?_
    simp [h, hk]

end Sys2Proof.Machine
end

section
/-! PROOFS. The memory keeps its canonical form (O59): contexts, errors, order, atomics, the fabric and the host. -/
set_option maxRecDepth 100000

namespace Sys2Proof.Machine

theorem ok_topen (p f) (s : State) (h : Memory.wf s.mem = true) : OutOk (execTopen p f s) := by
  unfold execTopen
  exact ok_tapeOp _ _ _ _ _ _ _ h fun s m h => by simp [h]

theorem ok_trec (p f) (s : State) (h : Memory.wf s.mem = true) : OutOk (execTrec p f s) := by
  unfold execTrec
  exact ok_tapeOp _ _ _ _ _ _ _ h fun s m h => by simp [h]

theorem ok_tmark (p f) (s : State) (h : Memory.wf s.mem = true) : OutOk (execTmark p f s) := by
  unfold execTmark
  exact ok_tapeOp _ _ _ _ _ _ _ h fun s m h => by simp [h]

theorem ok_tend (p f) (s : State) (h : Memory.wf s.mem = true) : OutOk (execTend p f s) := by
  unfold execTend
  refine ok_tapeOp _ _ _ _ _ _ _ h fun s m h => ?_
  split
  · simp [h]
  · split <;> rename_i e <;> have h1 := fst_ok e (by simp [h])
    · exact h1
    · split <;> simp [h1]

theorem ok_tstat (p f) (s : State) (h : Memory.wf s.mem = true) : OutOk (execTstat p f s) := by
  unfold execTstat
  exact ok_tapeOp _ _ _ _ _ _ _ h fun s m h => by simp [h]

theorem ok_tclose (p f) (s : State) (h : Memory.wf s.mem = true) : OutOk (execTclose p f s) := by
  unfold execTclose
  refine ok_tapeOp _ _ _ _ _ _ _ h fun s m h => ?_
  split
  · trivial
  · split
    rename_i e
    have h1 := fst_ok e (by simp [h])
    simp only [Did.Ok_done, mem_State_tapeEnded, mem_State_modTape]
    split <;> simp [h1]

theorem fillOne_ok {s : State} {b : Bool} {x : Moved} (e : s.fillOne b = x) (h : Memory.wf s.mem = true) : Memory.wf x.st.mem = true :=
  e ▸ ok_State_fillOne s b h

theorem ok_tpop (p f) (s : State) (h : Memory.wf s.mem = true) : OutOk (execTpop p f s) := by
  unfold execTpop
  refine ok_tapeOp _ _ _ _ _ _ _ h fun s m h => ?_
  dsimp only
  split
  · exact h
  · split
    · simp [h]
    · split <;> rename_i e <;> have h1 := fillOne_ok e (by simp [h])
      · exact did_State_popTop _ _ _ h1
      all_goals exact h1

theorem ok_teamRetirement (team) (s : State) (h : Memory.wf s.mem = true) : OutOk (execTeamRetirement team s) := by
  unfold execTeamRetirement
  split
  · exact ok_next _ h
  · extract_lets s1
    have h1 : Memory.wf s1.mem = true := by
      simp only [s1]
      split <;> simp [h]
    exact ok_next _ (ok_State_unmet _ _ h (by split <;> simp [h1]))

theorem ok_eviction (team) (s : State) (h : Memory.wf s.mem = true) : OutOk (execEviction team s) := by
  unfold execEviction
  split
  · exact ok_next _ h
  · extract_lets cores s1
    have h1 : Memory.wf s1.mem = true := foldl_okS _ _ _ (fun s k h => by simp [h]) h
    clear_value s1
    split
    · exact ok_next _ h
    · split
      · exact ok_next _ h1
      · split
        rename_i e
        have h2 := fst_ok e (by simp [h1])
        split
        · exact ok_next _ (by simp [h2])
        · exact ok_next _ (foldl_okS _ _ _ (fun s k h => by simp [h]) h2)

theorem ok_teamRestore (team core) (s : State) (h : Memory.wf s.mem = true) : OutOk (execTeamRestore team core s) := by
  unfold execTeamRestore
  dsimp only
  split
  · exact ok_next _ h
  · split
    · exact ok_next _ h
    · refine ok_next _ ?_
      rw [mem_State_settleResume]
      refine foldl_okS _ _ _ (fun s k h => ?_) h
      split
      · exact h
      · rename_i e
        exact foldl_okS _ _ _ (fun s k h => by simp [h]) (by rw [mem_State_dropValid, mem_State_seat _ _ _ e]; exact h)

theorem ok_switchComplete (ctx) (s : State) (h : Memory.wf s.mem = true) : OutOk (execSwitchComplete ctx s) := by
  unfold execSwitchComplete
  dsimp only
  split
  · exact ok_next _ h
  · split
    · exact ok_next _ (by simp [h])
    · refine ok_next _ (ok_State_unmet _ _ h ?_)
      simp only [mem_State_raise, mem_State_setCtxAt, mem_State_releaseSeg]
      refine ok_State_saveCache _ _ ?_
      rw [mem_State_saveSlots]
      exact foldl_okS _ _ _ (fun s k h => by simp [h]) (by simp [h])

@[simp] theorem mem_State_credit (s : State) (k n) : (s.credit k n).mem = s.mem := rfl

theorem ok_reservoirTick (static debits) (s : State) (h : Memory.wf s.mem = true) : OutOk (execReservoirTick static debits s) := by
  unfold execReservoirTick
  refine ok_next _ ?_
  rw [mem_State_modPkg, foldl_memS _ _ _ fun s x => mem_State_credit s _ _, foldl_memS _ _ _ fun s x => mem_State_credit s _ _, mem_State_modPkg]
  exact foldl_okS _ _ _ (fun s k h => h) h

theorem ok_softError (target) (s : State) (h : Memory.wf s.mem = true) : OutOk (execSoftError target s) := by
  unfold execSoftError
  split
  · exact ok_next _ (by simp [h])
  · exact ok_next _ (by simp [h])
  · split
    · exact ok_next _ h
    · exact ok_next _ (by simp [h])
  · dsimp only
    split <;> exact ok_next _ (by simp [h])
  · split <;> exact ok_next _ (by simp [h])
  · split
    · exact ok_next _ h
    · dsimp only
      split <;> exact ok_next _ (by simp [h])
  · exact ok_next _ (by simp [h])

theorem ok_fence (p f) (s : State) (h : Memory.wf s.mem = true) : OutOk (execFence p f s) := by
  unfold execFence
  exact ok_perform _ _ _ _ _ h fun m s h => did_State_orWait _ _ _ _ (by simp [h]) (by simp [h])

theorem ok_lineOp (s : State) (p f op) (h : Memory.wf s.mem = true) (ho : ∀ s pa cp, Memory.wf s.mem = true → Memory.wf (op s pa cp).mem = true) :
    OutOk (s.lineOp p f op) := by
  unfold State.lineOp
  refine ok_perform _ _ _ _ _ h fun m s h => foldl_okS _ _ _ (fun s y h => ?_) (by simp [h])
  split
  · exact ho _ _ _ h
  · exact h

theorem ok_rmwOp (s : State) (p f k op fn) (h : Memory.wf s.mem = true) : OutOk (s.rmwOp p f k op fn) := by
  unfold State.rmwOp
  refine ok_perform _ _ _ _ _ h fun m s h => ?_
  extract_lets s1
  have h1 : Memory.wf s1.mem = true := by simp [s1, h]
  clear_value s1
  refine did_State_orWait _ _ _ _ ?_ h1
  split
  rename_i e
  have h2 := fst_ok e (by simp [h1])
  split
  · exact h2
  · split
    · exact h2
    · rename_i e
      have h3 := ok_State_noteFlts e h2
      simp only [Did.Ok_done, mem_State_afterRead, mem_State_sampledIf]
      refine foldl_okS _ _ _ (fun s x h => ?_) (by simp [h3])
      split
      · split <;> simp [h]
      · split <;> split <;> simp [h]
      · simp [h]
      · exact h

theorem ok_remoteAccessArrival (acc) (s : State) (h : Memory.wf s.mem = true) : OutOk (execRemoteAccessArrival acc s) := by
  unfold execRemoteAccessArrival
  split
  rename_i e
  have h1 := fst_ok e (by simp [h])
  split
  · rename_i e
    split at e
    · cases e
    · exact ok_next _ (ok_State_peerTry _ _ _ e h1)
  · exact ok_next _ (by simp [h1])

theorem ok_lockReply (s : State) (q excl data poi) (h : Memory.wf s.mem = true) : OutOk (s.lockReply q excl data poi) := by
  unfold State.lockReply
  dsimp only
  split
  · split
    · exact ok_lockGot _ _ (by simp [h]) (by simp [h])
    · exact ok_next _ (by simp [h])
  · exact ok_next _ (by simp [h])

@[simp] theorem mem_State_learn (s : State) (q d) : (s.learn q d).mem = s.mem := by
  unfold State.learn
  dsimp only
  split
  · rfl
  · split <;> simp

@[simp] theorem ok_State_landFill (s : State) (q d poi) (h : Memory.wf s.mem = true) : Memory.wf (s.landFill q d poi).mem = true := by
  unfold State.landFill
  split
  · exact h
  · dsimp only
    split <;> simp [h]

@[simp] theorem ok_State_redReply (s : State) (q d poi) (h : Memory.wf s.mem = true) : Memory.wf (s.redReply q d poi).mem = true := by
  unfold State.redReply
  split <;> simp [h]

theorem ok_remoteReply (req data) (s : State) (h : Memory.wf s.mem = true) : OutOk (execRemoteReply req data s) := by
  unfold execRemoteReply
  split
  · exact ok_next _ h
  · dsimp only
    split
    · refine ok_next _ ?_
      rw [mem_State_putReply]
      split <;> simp [h]
    · exact ok_next _ (by simp [h])
    · refine ok_next _ ?_
      rw [mem_State_settleWrite]
      split <;> simp [h]
    · refine ok_next _ ?_
      split <;> simp [h]
    · exact ok_lockReply _ _ _ _ _ (by simp [h])
    · exact ok_next _ (by simp [h])

theorem ok_remoteRequestLost (req) (s : State) (h : Memory.wf s.mem = true) : OutOk (execRemoteRequestLost req s) := by
  unfold execRemoteRequestLost
  split
  · exact ok_next _ h
  · rename_i q _
    extract_lets s1 report
    have h1 : Memory.wf s1.mem = true := by simp [s1, h]
    have hr (t : State) (ht : Memory.wf t.mem = true) : OutOk (report t) := by
      simp only [report]
      have h2 : Memory.wf (t.recordUnit q.ctx .fabric q.frec true).mem = true := by simp [ht]
      repeat' split
      all_goals exact ok_next _ (by simp [h2])
    clear_value s1 report
    split
    · exact ok_next _ (by simp [h1])
    · exact ok_next _ (by simp [h1])
    · exact ok_lockReply _ _ _ _ _ (by simp [h1])
    · exact ok_next _ (by simp [h1])
    · exact hr _ h1
    · exact hr _ h1

theorem ok_leaseNotice (entry) (s : State) (h : Memory.wf s.mem = true) : OutOk (execLeaseNotice entry s) := by
  unfold execLeaseNotice
  dsimp only
  split
  · exact ok_next _ h
  · exact ok_next _ (foldl_okS _ _ _ (fun s k h => by simp [h]) (by simp [h]))

theorem ok_attestationReportDone (ctx) (s : State) (h : Memory.wf s.mem = true) : OutOk (execAttestationReportDone ctx s) := by
  unfold execAttestationReportDone
  extract_lets c
  split
  · exact ok_next _ h
  · refine ok_next _ (ok_State_unmet _ _ h ?_)
    rw [mem_State_raise, mem_State_setCtxAt]
    exact ok_State_homeWrite _ _ _ _ _ h

theorem ok_samplePacket (grp kind times) (s : State) (h : Memory.wf s.mem = true) : OutOk (execSamplePacket grp kind times s) := by
  unfold execSamplePacket
  extract_lets ctx c
  split
  · exact ok_next _ h
  · extract_lets s1
    have h1 : Memory.wf s1.mem = true := by simp [s1, h]
    split
    · exact ok_next _ h1
    · exact ok_next _ (ok_State_packet _ _ _ _ _ h1)

theorem ok_hostTurn (s : State) (a) (h : Memory.wf s.mem = true) : OutOk (s.hostTurn a) := by
  unfold State.hostTurn
  refine ok_next _ ?_
  split
  · simp [h]
  · cases e : s.hostTry a with
    | none => simp [h]
    | some t => exact ok_State_hostTry e h

theorem ok_rotationRule (grp) (s : State) (h : Memory.wf s.mem = true) : OutOk (execRotationRule grp s) := by
  unfold execRotationRule
  dsimp only
  split
  · exact ok_next _ h
  · split <;> exact ok_next _ (by simp [h])

end Sys2Proof.Machine
end

section
/-! PROOFS. The memory keeps its canonical form (O59): collectives, rays, textures and streams. -/
set_option maxRecDepth 100000

namespace Sys2Proof.Machine

/-! ### Collectives: the engine's reads and writes -/

theorem CollSt.ok_read (r : CollSt) (c va w n) (h : Memory.wf r.s.mem = true) : Memory.wf (r.read c va w n).1.s.mem = true := by
  unfold CollSt.read
  refine List.foldlRecOn (motive := fun x : CollSt × List (Nat × Bool) => Memory.wf x.1.s.mem = true) _ _ h fun x h i _ => ?_
  dsimp only
  split <;> rename_i e <;> have h1 := fst_ok e (by simp [h])
  · exact h1
  · simp [h1]

theorem CollSt.ok_put (r : CollSt) (c va bs poi) (h : Memory.wf r.s.mem = true) : Memory.wf (r.put c va bs poi).s.mem = true := by
  unfold CollSt.put
  split <;> simp [h]

theorem CollSt.ok_write (r : CollSt) (c va w vs) (h : Memory.wf r.s.mem = true) : Memory.wf (r.write c va w vs).s.mem = true :=
  List.foldlRecOn (motive := fun x : CollSt => Memory.wf x.s.mem = true) _ _ h fun r h _ _ => CollSt.ok_put r _ _ _ _ h

theorem CollSt.ok_status (r : CollSt) (c v) (h : Memory.wf r.s.mem = true) : Memory.wf (r.status c v).s.mem = true :=
  CollSt.ok_write _ _ _ _ _ h

theorem read_ok {r r' : CollSt} {c va w n x} (e : r.read c va w n = (r', x)) (h : Memory.wf r.s.mem = true) : Memory.wf r'.s.mem = true := by
  have := CollSt.ok_read r c va w n h
  rwa [e] at this

theorem CollSt.ok_run (r : CollSt) (c m peers) (h : Memory.wf r.s.mem = true) : Memory.wf (r.run c m peers).1.s.mem = true := by
  unfold CollSt.run
  extract_lets w sl peerNf
  split
  · split
    rename_i e
    have h1 := read_ok e h
    dsimp only
    split
    · exact h1
    · exact CollSt.ok_write _ _ _ _ _ h1
  · split
    · exact h
    · exact CollSt.ok_put _ _ _ _ _ h
  · split
    rename_i r' _ e
    have h1 := read_ok e h
    dsimp only
    split
    · exact h1
    · split
      · exact CollSt.ok_write _ _ _ _ _ h1
      · have h2 : Memory.wf (r'.read c m.live 4 sl.2).1.s.mem = true := CollSt.ok_read _ _ _ _ _ h1
        split <;> split
        · exact CollSt.ok_read _ _ _ _ _ h2
        · exact CollSt.ok_write _ _ _ _ _ (CollSt.ok_write _ _ _ _ _ (CollSt.ok_read _ _ _ _ _ h2))
        · exact h2
        · exact CollSt.ok_write _ _ _ _ _ h2

theorem ok_State_collWhole (s : State) (c peers) (h : Memory.wf s.mem = true) : Memory.wf (s.collWhole c peers).1.s.mem = true := by
  unfold State.collWhole
  split
  rename_i r b e
  have h1 : Memory.wf r.s.mem = true := read_ok e h
  extract_lets m bad mismatch
  have hm (r : CollSt) (h : Memory.wf r.s.mem = true) : Memory.wf (mismatch r).1.s.mem = true := CollSt.ok_status _ _ _ (by simp [h])
  clear_value mismatch
  split
  · exact h1
  · split
    · exact hm _ h1
    · split
      rename_i r2 ids e
      have h2 : Memory.wf r2.s.mem = true := read_ok e h1
      dsimp only
      split
      · exact h2
      · split
        · exact hm _ h2
        · split
          · exact h2
          · split
            · exact hm _ h2
            · have h3 := CollSt.ok_run r2 c m peers h2
              split
              · exact h3
              · exact CollSt.ok_status _ _ _ (by split <;> simp [h3])

theorem ok_collectiveCompletion (team coll peers) (s : State) (h : Memory.wf s.mem = true) : OutOk (execCollectiveCompletion team coll peers s) := by
  unfold execCollectiveCompletion
  split
  · exact ok_next _ h
  · extract_lets s1
    have h1 : Memory.wf s1.mem = true := by simp [s1, h]
    clear_value s1
    split
    · exact ok_next _ h1
    · split
      · split <;> exact ok_next _ (by simp [h1])
      · split
        rename_i r nf e
        have h2 : Memory.wf r.s.mem = true := by
          rw [show r = _ from congrArg Prod.fst e.symm]
          exact ok_State_collWhole _ _ _ h1
        dsimp only
        split
        · exact ok_next _ (ok_State_unmet _ _ h1 h2)
        · split
          · exact ok_next _ (by simp [h1])
          · exact ok_next _ (ok_State_unmet _ _ h1 (by split <;> simp [h2]))

/-! ### Rays, textures, streams -/

theorem ok_rayOp (s : State) (p f nb one chk) (h : Memory.wf s.mem = true) (ho : ∀ s l, Memory.wf s.mem = true → Memory.wf (one s l).1.mem = true) :
    OutOk (s.rayOp p f nb one chk) := by
  unfold State.rayOp
  refine ok_perform _ _ _ _ _ h fun m s h => ?_
  split
  · exact h
  · split
    · simp [h]
    · split
      rename_i e
      have h1 := fst_ok e (ok_State_rayAll _ _ _ ho h)
      split
      · exact h1
      · split
        · exact h1
        · rename_i e
          have h2 := ok_State_noteFlts e h1
          dsimp only
          rw [Did.Ok_done, mem_State_sampled, mem_State_flagEnd]
          refine foldl_okS _ _ _ (fun s x h => ?_) (by split <;> simp [h2])
          split <;> simp [h, State.wroteImage]

theorem ok_trace (p f) (s : State) (h : Memory.wf s.mem = true) : OutOk (execTrace p f s) := by
  unfold execTrace
  refine ok_rayOp _ _ _ _ _ _ h fun s l h => ok_State_rayLane _ _ _ _ _ _ (fun s a r h => ?_) h
  exact ok_State_rayRun _ _ _ _ _ h

theorem ok_tresume (p f) (s : State) (h : Memory.wf s.mem = true) : OutOk (execTresume p f s) := by
  unfold execTresume
  extract_lets hit
  refine ok_rayOp _ _ _ _ _ _ h fun s l h => ok_State_rayLane _ _ _ _ _ _ (fun s a r h => ?_) h
  dsimp only
  repeat' split
  all_goals simp [h]

theorem ok_tabort (p f) (s : State) (h : Memory.wf s.mem = true) : OutOk (execTabort p f s) := by
  unfold execTabort
  exact ok_rayOp _ _ _ _ _ _ h fun s l h => ok_State_rayLane _ _ _ _ _ _ (fun s a r h => h) h

theorem ok_hitadj (p f) (s : State) (h : Memory.wf s.mem = true) : OutOk (execHitadj p f s) := by
  unfold execHitadj
  refine ok_perform _ _ _ _ _ h fun m s h => ?_
  extract_lets ls cReg zeros one
  have ho (s : State) (l : Nat) (h : Memory.wf s.mem = true) : Memory.wf (one s l).1.mem = true := by
    refine ok_State_rayLane _ _ _ _ _ _ (fun s a r h => ?_) h
    split
    · exact h
    · refine ok_State_withScene _ _ _ _ (fun s sc h => ?_) h
      split <;> rename_i e <;> exact fst_ok e (by simp [h])
  clear_value one
  split
  rename_i e
  have h1 := fst_ok e (ok_State_rayAll _ _ _ ho h)
  split
  · exact h1
  · split
    · exact h1
    · rename_i e
      have h2 := ok_State_noteFlts e h1
      dsimp only
      simp [h2]

theorem ok_texOp (s : State) (p f lam adj) (h : Memory.wf s.mem = true) : OutOk (s.texOp p f lam adj) := by
  unfold State.texOp
  extract_lets n
  refine ok_perform _ _ _ _ _ h fun m s h => did_State_texRecord _ _ _ _ (fun s t h => ?_) h
  split
  · exact h
  · split
    rename_i e
    have h1 := fst_ok e (by simp [h])
    extract_lets recs
    split
    · exact h1
    · split
      · exact h1
      · split
        rename_i e
        have h2 := fst_ok e (by simp [h1])
        split
        rename_i e
        have h3 := fst_ok e (by simp [h2])
        extract_lets lost ok g
        split <;> rename_i e <;> have h4 := fst_ok e (by simp [h3])
        · simp [h4]
        · exact h4

theorem ok_streamOp (s : State) (p f k) (h : Memory.wf s.mem = true) (hk : ∀ s m o, Memory.wf s.mem = true → (k s m o).Ok) :
    OutOk (s.streamOp p f k) := by
  unfold State.streamOp
  refine ok_performWide _ _ _ _ h fun m s h => ?_
  simp [h, hk]

end Sys2Proof.Machine
end

section
/-! PROOFS. The memory keeps its canonical form (O59): the words and events that never write memory, or write it by one operation of the state. -/
set_option maxRecDepth 100000

namespace Sys2Proof.Machine

/-! ### Words done once for the group -/

theorem ok_arel (p f) (s : State) (h : Memory.wf s.mem = true) : OutOk (execArel p f s) := by
  unfold execArel
  exact ok_once _ _ _ _ _ h

theorem ok_ballot (p f) (s : State) (h : Memory.wf s.mem = true) : OutOk (execBallot p f s) := by
  unfold execBallot
  exact ok_once _ _ _ _ _ h

theorem ok_elect (p f) (s : State) (h : Memory.wf s.mem = true) : OutOk (execElect p f s) := by
  unfold execElect
  exact ok_once _ _ _ _ _ h

theorem ok_maskOp (s : State) (p f fn) (h : Memory.wf s.mem = true) : OutOk (s.maskOp p f fn) := by
  unfold State.maskOp
  exact ok_once _ _ _ _ _ h

theorem ok_mmov (p f) (s : State) (h : Memory.wf s.mem = true) : OutOk (execMmov p f s) := by
  unfold execMmov
  exact ok_once _ _ _ _ _ h

theorem ok_mact (p f) (s : State) (h : Memory.wf s.mem = true) : OutOk (execMact p f s) := by
  unfold execMact
  exact ok_once _ _ _ _ _ h

/-! ### Words done lane by lane -/

theorem ok_fpOp (s : State) (p f n fn) (h : Memory.wf s.mem = true) : OutOk (s.fpOp p f n fn) := by
  unfold State.fpOp
  exact ok_perLane _ _ _ _ h

theorem ok_fscale (p f) (s : State) (h : Memory.wf s.mem = true) : OutOk (execFscale p f s) := by
  unfold execFscale
  exact ok_perLane _ _ _ _ h

theorem ok_fdot2 (p f) (s : State) (h : Memory.wf s.mem = true) : OutOk (execFdot2 p f s) := by
  unfold execFdot2
  exact ok_perLane _ _ _ _ h

theorem ok_fclass (p f) (s : State) (h : Memory.wf s.mem = true) : OutOk (execFclass p f s) := by
  unfold execFclass
  exact ok_perLane _ _ _ _ h

theorem ok_rng (p f) (s : State) (h : Memory.wf s.mem = true) : OutOk (execRng p f s) := by
  unfold execRng
  exact ok_perLane _ _ _ _ h

theorem ok_esmp (p f) (s : State) (h : Memory.wf s.mem = true) : OutOk (execEsmp p f s) := by
  unfold execEsmp
  exact ok_perLane _ _ _ _ h

theorem ok_fcvt (p f) (s : State) (h : Memory.wf s.mem = true) : OutOk (execFcvt p f s) := by
  unfold execFcvt
  exact ok_perLane _ _ _ _ h

theorem ok_ftoi (p f) (s : State) (h : Memory.wf s.mem = true) : OutOk (execFtoi p f s) := by
  unfold execFtoi
  exact ok_perLane _ _ _ _ h

theorem ok_itof (p f) (s : State) (h : Memory.wf s.mem = true) : OutOk (execItof p f s) := by
  unfold execItof
  exact ok_perLane _ _ _ _ h

theorem ok_pack8 (p f) (s : State) (h : Memory.wf s.mem = true) : OutOk (execPack8 p f s) := by
  unfold execPack8
  exact ok_perLane _ _ _ _ h

theorem ok_unpk8 (p f) (s : State) (h : Memory.wf s.mem = true) : OutOk (execUnpk8 p f s) := by
  unfold execUnpk8
  exact ok_perLane _ _ _ _ h

theorem ok_xsparse (p f) (s : State) (h : Memory.wf s.mem = true) : OutOk (execXsparse p f s) := by
  unfold execXsparse
  exact ok_perLane _ _ _ _ h

/-! ### Words whose operation leaves memory as it is -/

theorem ok_carryOp (s : State) (p f fn) (h : Memory.wf s.mem = true) : OutOk (s.carryOp p f fn) := by
  unfold State.carryOp
  exact ok_perform _ _ _ _ _ h fun m s h => by simp [h]

theorem ok_atr (p f) (s : State) (h : Memory.wf s.mem = true) : OutOk (execAtr p f s) := by
  unfold execAtr
  exact ok_perform _ _ _ _ _ h fun m s h => by simp [h]

theorem ok_binit (p f) (s : State) (h : Memory.wf s.mem = true) : OutOk (execBinit p f s) := by
  unfold execBinit
  exact ok_perform _ _ _ _ _ h fun m s h => by simp [h]

theorem ok_gfuse (p f) (s : State) (h : Memory.wf s.mem = true) : OutOk (execGfuse p f s) := by
  unfold execGfuse
  exact ok_perform _ _ _ _ _ h fun m s h => by simp [h]

theorem ok_gang (p f) (s : State) (h : Memory.wf s.mem = true) : OutOk (execGang p f s) := by
  unfold execGang
  exact ok_perform _ _ _ _ _ h fun m s h => by simp [h]

theorem ok_mdrop (p f) (s : State) (h : Memory.wf s.mem = true) : OutOk (execMdrop p f s) := by
  unfold execMdrop
  exact ok_perform _ _ _ _ _ h fun m s h => by simp [h]

theorem ok_redux (p f) (s : State) (h : Memory.wf s.mem = true) : OutOk (execRedux p f s) := by
  unfold execRedux
  exact ok_perform _ _ _ _ _ h fun m s h => by simp [h]

theorem ok_scan (p f) (s : State) (h : Memory.wf s.mem = true) : OutOk (execScan p f s) := by
  unfold execScan
  exact ok_perform _ _ _ _ _ h fun m s h => by simp [h]

theorem ok_lput (p f) (s : State) (h : Memory.wf s.mem = true) : OutOk (execLput p f s) := by
  unfold execLput
  exact ok_perform _ _ _ _ _ h fun m s h => by simp [h]

theorem ok_zread (p f) (s : State) (h : Memory.wf s.mem = true) : OutOk (execZread p f s) := by
  unfold execZread
  exact ok_perform _ _ _ _ _ h fun m s h => by simp [h]

theorem ok_ecount (p f) (s : State) (h : Memory.wf s.mem = true) : OutOk (execEcount p f s) := by
  unfold execEcount
  exact ok_perform _ _ _ _ _ h fun m s h => by simp [h]

theorem ok_rcov (p f) (s : State) (h : Memory.wf s.mem = true) : OutOk (execRcov p f s) := by
  unfold execRcov
  exact ok_perform _ _ _ _ _ h fun m s h => by simp [h]

theorem ok_rcstat (p f) (s : State) (h : Memory.wf s.mem = true) : OutOk (execRcstat p f s) := by
  unfold execRcstat
  exact ok_perform _ _ _ _ _ h fun m s h => by simp [h]

theorem ok_nop (p f) (s : State) (h : Memory.wf s.mem = true) : OutOk (execNop p f s) := by
  unfold execNop
  exact ok_perform _ _ _ _ _ h fun m s h => by simp [h]

theorem ok_bra (p f) (s : State) (h : Memory.wf s.mem = true) : OutOk (execBra p f s) := by
  unfold execBra
  exact ok_perform _ _ _ _ _ h fun m s h => by simp [h]

theorem ok_bru (p f) (s : State) (h : Memory.wf s.mem = true) : OutOk (execBru p f s) := by
  unfold execBru
  exact ok_perform _ _ _ _ _ h fun m s h => by simp [h]

theorem ok_exit (p f) (s : State) (h : Memory.wf s.mem = true) : OutOk (execExit p f s) := by
  unfold execExit
  exact ok_perform _ _ _ _ _ h fun m s h => by simp [h]

theorem ok_yield (p f) (s : State) (h : Memory.wf s.mem = true) : OutOk (execYield p f s) := by
  unfold execYield
  exact ok_perform _ _ _ _ _ h fun m s h => by simp [h]

theorem ok_trap (p f) (s : State) (h : Memory.wf s.mem = true) : OutOk (execTrap p f s) := by
  unfold execTrap
  exact ok_perform _ _ _ _ _ h fun m s h => by simp [h]

theorem ok_tret (p f) (s : State) (h : Memory.wf s.mem = true) : OutOk (execTret p f s) := by
  unfold execTret
  exact ok_perform _ _ _ _ _ h fun m s h => by simp [h]

theorem ok_bkpt (p f) (s : State) (h : Memory.wf s.mem = true) : OutOk (execBkpt p f s) := by
  unfold execBkpt
  exact ok_perform _ _ _ _ _ h fun m s h => by simp [h]

theorem ok_waitf (p f) (s : State) (h : Memory.wf s.mem = true) : OutOk (execWaitf p f s) := by
  unfold execWaitf
  exact ok_perform _ _ _ _ _ h fun m s h => by simp [h]

theorem ok_qnt (p f) (s : State) (h : Memory.wf s.mem = true) : OutOk (execQnt p f s) := by
  unfold execQnt
  exact ok_perform _ _ _ _ _ h fun m s h => by simp [h]

theorem ok_deq (p f) (s : State) (h : Memory.wf s.mem = true) : OutOk (execDeq p f s) := by
  unfold execDeq
  exact ok_perform _ _ _ _ _ h fun m s h => by simp [h]

theorem ok_xmatch (p f) (s : State) (h : Memory.wf s.mem = true) : OutOk (execXmatch p f s) := by
  unfold execXmatch
  exact ok_perform _ _ _ _ _ h fun m s h => by simp [h]

theorem ok_xsort (p f) (s : State) (h : Memory.wf s.mem = true) : OutOk (execXsort p f s) := by
  unfold execXsort
  exact ok_perform _ _ _ _ _ h fun m s h => by simp [h]

theorem ok_xperm (p f) (s : State) (h : Memory.wf s.mem = true) : OutOk (execXperm p f s) := by
  unfold execXperm
  exact ok_perform _ _ _ _ _ h fun m s h => by simp [h]

theorem ok_xtrn (p f) (s : State) (h : Memory.wf s.mem = true) : OutOk (execXtrn p f s) := by
  unfold execXtrn
  exact ok_perform _ _ _ _ _ h fun m s h => by simp [h]

theorem ok_gsplit (p f) (s : State) (h : Memory.wf s.mem = true) : OutOk (execGsplit p f s) := by
  unfold execGsplit
  exact ok_performWide _ _ _ _ h fun m s h => by simp [h]

/-! ### Words whose operation splits into cases, each leaving memory as it is -/

theorem ok_aget (p f) (s : State) (h : Memory.wf s.mem = true) : OutOk (execAget p f s) := by
  unfold execAget
  refine ok_perform _ _ _ _ _ h fun m s h => ?_
  dsimp only
  repeat' split
  all_goals simp_all

theorem ok_bexpect (p f) (s : State) (h : Memory.wf s.mem = true) : OutOk (execBexpect p f s) := by
  unfold execBexpect
  refine ok_perform _ _ _ _ _ h fun m s h => ?_
  dsimp only
  simp_all

theorem ok_spush (p f) (s : State) (h : Memory.wf s.mem = true) : OutOk (execSpush p f s) := by
  unfold execSpush
  refine ok_perform _ _ _ _ _ h fun m s h => ?_
  dsimp only
  repeat' split
  all_goals simp_all

theorem ok_mqstat (p f) (s : State) (h : Memory.wf s.mem = true) : OutOk (execMqstat p f s) := by
  unfold execMqstat
  refine ok_perform _ _ _ _ _ h fun m s h => ?_
  dsimp only
  repeat' split
  all_goals simp_all

theorem ok_rflush (p f) (s : State) (h : Memory.wf s.mem = true) : OutOk (execRflush p f s) := by
  unfold execRflush
  refine ok_perform _ _ _ _ _ h fun m s h => ?_
  dsimp only
  repeat' split
  all_goals simp_all

theorem ok_rcsync (p f) (s : State) (h : Memory.wf s.mem = true) : OutOk (execRcsync p f s) := by
  unfold execRcsync
  refine ok_perform _ _ _ _ _ h fun m s h => ?_
  dsimp only
  repeat' split
  all_goals simp_all

theorem ok_stash (p f) (s : State) (h : Memory.wf s.mem = true) : OutOk (execStash p f s) := by
  unfold execStash
  refine ok_performWide _ _ _ _ h fun m s h => ?_
  dsimp only
  repeat' split
  all_goals simp_all

/-! ### Words done once or lane by lane, by their destination -/

theorem ok_lea (p f) (s : State) (h : Memory.wf s.mem = true) : OutOk (execLea p f s) := by
  unfold execLea
  split
  · exact ok_once _ _ _ _ _ h
  · exact ok_perLane _ _ _ _ h

theorem ok_clk (p f) (s : State) (h : Memory.wf s.mem = true) : OutOk (execClk p f s) := by
  unfold execClk
  split
  · exact ok_once _ _ _ _ _ h
  · exact ok_perLane _ _ _ _ h

theorem ok_immOp (s : State) (p f srcs fn) (h : Memory.wf s.mem = true) : OutOk (s.immOp p f srcs fn) := by
  unfold State.immOp
  split
  · exact ok_once _ _ _ _ _ h
  · exact ok_perLane _ _ _ _ h

theorem ok_maskCount (s : State) (p f fn) (h : Memory.wf s.mem = true) : OutOk (s.maskCount p f fn) := by
  unfold State.maskCount
  split
  · exact ok_once _ _ _ _ _ h
  · exact ok_perLane _ _ _ _ h

/-! ### Events with one outcome -/

theorem ok_streamBeatAccept (team push consumer n) (s : State) (h : Memory.wf s.mem = true) : OutOk (execStreamBeatAccept team push consumer n s) := by
  unfold execStreamBeatAccept
  exact ok_next _ (by simp [h])

theorem ok_engineWriteLanding (team cmd n) (s : State) (h : Memory.wf s.mem = true) : OutOk (execEngineWriteLanding team cmd n s) := by
  unfold execEngineWriteLanding
  exact ok_next _ (by simp [h])

theorem ok_uPartialApply (core line) (s : State) (h : Memory.wf s.mem = true) : OutOk (execUPartialApply core line s) := by
  unfold execUPartialApply
  exact ok_next _ (by simp [h])

theorem ok_writeBufferDrain (core) (s : State) (h : Memory.wf s.mem = true) : OutOk (execWriteBufferDrain core s) := by
  unfold execWriteBufferDrain
  exact ok_next _ (by simp [h])

theorem ok_tapeSpill (grp) (s : State) (h : Memory.wf s.mem = true) : OutOk (execTapeSpill grp s) := by
  unfold execTapeSpill
  exact ok_next _ (by simp [h])

theorem ok_tapeFill (grp) (s : State) (h : Memory.wf s.mem = true) : OutOk (execTapeFill grp s) := by
  unfold execTapeFill
  exact ok_next _ (by simp [h])

theorem ok_scrub (bad) (s : State) (h : Memory.wf s.mem = true) : OutOk (execScrub bad s) := by
  unfold execScrub
  exact ok_next _ (by simp [h])

theorem ok_invalidationComplete (ctx) (s : State) (h : Memory.wf s.mem = true) : OutOk (execInvalidationComplete ctx s) := by
  unfold execInvalidationComplete
  exact ok_next _ (by simp [h])

theorem ok_portStateChange (port up) (s : State) (h : Memory.wf s.mem = true) : OutOk (execPortStateChange port up s) := by
  unfold execPortStateChange
  exact ok_next _ (by simp [h])

theorem ok_leaseDeadline (entry) (s : State) (h : Memory.wf s.mem = true) : OutOk (execLeaseDeadline entry s) := by
  unfold execLeaseDeadline
  exact ok_next _ (by simp [h])

theorem ok_lenderReclaim (entry) (s : State) (h : Memory.wf s.mem = true) : OutOk (execLenderReclaim entry s) := by
  unfold execLenderReclaim
  exact ok_next _ (by simp [h])

theorem ok_packageReset (s : State) (h : Memory.wf s.mem = true) : OutOk (execPackageReset s) := by
  unfold execPackageReset
  exact ok_next _ (by simp [h])

theorem ok_mailboxWrite (s : State) (h : Memory.wf s.mem = true) : OutOk (execMailboxWrite s) := by
  unfold execMailboxWrite
  exact ok_next _ (by simp [h])

theorem ok_mailboxWriteDone (s : State) (h : Memory.wf s.mem = true) : OutOk (execMailboxWriteDone s) := by
  unfold execMailboxWriteDone
  exact ok_next _ (by simp [h])

theorem ok_mailboxCommit (s : State) (h : Memory.wf s.mem = true) : OutOk (execMailboxCommit s) := by
  unfold execMailboxCommit
  exact ok_next _ (by simp [h])

theorem ok_barSizeSelect (log) (s : State) (h : Memory.wf s.mem = true) : OutOk (execBarSizeSelect log s) := by
  unfold execBarSizeSelect
  exact ok_next _ (by simp [h])

/-! ### Events that do nothing unless due -/

theorem ok_fusion (grp) (s : State) (h : Memory.wf s.mem = true) : OutOk (execFusion grp s) := by
  unfold execFusion
  split <;> exact ok_next _ (by simp [h])

theorem ok_mmaComplete (grp) (s : State) (h : Memory.wf s.mem = true) : OutOk (execMmaComplete grp s) := by
  unfold execMmaComplete
  split <;> exact ok_next _ (by simp [h])

theorem ok_snapshot (grp) (s : State) (h : Memory.wf s.mem = true) : OutOk (execSnapshot grp s) := by
  unfold execSnapshot
  split <;> exact ok_next _ (by simp [h])

theorem ok_stopReached (grp) (s : State) (h : Memory.wf s.mem = true) : OutOk (execStopReached grp s) := by
  unfold execStopReached
  split <;> exact ok_next _ (by simp [h])

theorem ok_syncPoint (grid) (s : State) (h : Memory.wf s.mem = true) : OutOk (execSyncPoint grid s) := by
  unfold execSyncPoint
  split <;> exact ok_next _ (by simp [h])

theorem ok_groupRetirement (grp) (s : State) (h : Memory.wf s.mem = true) : OutOk (execGroupRetirement grp s) := by
  unfold execGroupRetirement
  split <;> exact ok_next _ (by simp [h])

theorem ok_groupStallWake (grp) (s : State) (h : Memory.wf s.mem = true) : OutOk (execGroupStallWake grp s) := by
  unfold execGroupStallWake
  split <;> exact ok_next _ (by simp [h])

theorem ok_starvationGuard (grp) (s : State) (h : Memory.wf s.mem = true) : OutOk (execStarvationGuard grp s) := by
  unfold execStarvationGuard
  split <;> exact ok_next _ (by simp [h])

theorem ok_yieldRelease (grp) (s : State) (h : Memory.wf s.mem = true) : OutOk (execYieldRelease grp s) := by
  unfold execYieldRelease
  split <;> exact ok_next _ (by simp [h])

end Sys2Proof.Machine
end

section
/-! PROOFS. The memory keeps its canonical form (O59): register events and the words over a shared operation. -/
set_option maxRecDepth 100000

namespace Sys2Proof.Machine

/-! ### Register events -/

theorem ok_arm (ctx launchIdx part) (s : State) (h : Memory.wf s.mem = true) : OutOk (execArm ctx launchIdx part s) := by
  unfold execArm
  exact ok_regEvent _ _ h (by simp [h])

theorem ok_disarm (ctx) (s : State) (h : Memory.wf s.mem = true) : OutOk (execDisarm ctx s) := by
  unfold execDisarm
  exact ok_regEvent _ _ h (by simp [h])

theorem ok_debugResume (ctx) (s : State) (h : Memory.wf s.mem = true) : OutOk (execDebugResume ctx s) := by
  unfold execDebugResume
  exact ok_regEvent _ _ h (by simp [h])

theorem ok_debugRead (ctx spec lane) (s : State) (h : Memory.wf s.mem = true) : OutOk (execDebugRead ctx spec lane s) := by
  unfold execDebugRead
  exact ok_regEvent _ _ h (by split <;> simp [h])

theorem ok_debugWrite (ctx spec lane) (s : State) (h : Memory.wf s.mem = true) : OutOk (execDebugWrite ctx spec lane s) := by
  unfold execDebugWrite
  exact ok_regEvent _ _ h (by split <;> simp [h])

theorem ok_debugForceWrite (ctx spec lane) (s : State) (h : Memory.wf s.mem = true) : OutOk (execDebugForceWrite ctx spec lane s) := by
  unfold execDebugForceWrite
  exact ok_regEvent _ _ h (by split <;> simp [h])

theorem ok_lqtailWrite (queue tail) (s : State) (h : Memory.wf s.mem = true) : OutOk (execLqtailWrite queue tail s) := by
  unfold execLqtailWrite
  exact ok_regEvent _ _ h (by split <;> simp [h])

theorem ok_cacheLoad (ctx) (s : State) (h : Memory.wf s.mem = true) : OutOk (execCacheLoad ctx s) := by
  unfold execCacheLoad
  exact ok_regEvent _ _ h (by split <;> simp [h])

theorem ok_cacheSave (ctx) (s : State) (h : Memory.wf s.mem = true) : OutOk (execCacheSave ctx s) := by
  unfold execCacheSave
  exact ok_regEvent _ _ h (by split <;> simp [h])

theorem ok_fqheadWrite (ctx head) (s : State) (h : Memory.wf s.mem = true) : OutOk (execFqheadWrite ctx head s) := by
  unfold execFqheadWrite
  exact ok_regEvent _ _ h (by simp [h])

theorem ok_fqctlRetry (ctx) (s : State) (h : Memory.wf s.mem = true) : OutOk (execFqctlRetry ctx s) := by
  unfold execFqctlRetry
  exact ok_regEvent _ _ h (by simp [h])

theorem ok_switch (ctx) (s : State) (h : Memory.wf s.mem = true) : OutOk (execSwitch ctx s) := by
  unfold execSwitch
  exact ok_regEvent _ _ h (by simp [h])

theorem ok_contextResume (ctx) (s : State) (h : Memory.wf s.mem = true) : OutOk (execContextResume ctx s) := by
  unfold execContextResume
  exact ok_regEvent _ _ h (by simp [h])

theorem ok_kill (ctx) (s : State) (h : Memory.wf s.mem = true) : OutOk (execKill ctx s) := by
  unfold execKill
  exact ok_regEvent _ _ h (by simp [h])

theorem ok_invalidationRequest (ctx count) (s : State) (h : Memory.wf s.mem = true) : OutOk (execInvalidationRequest ctx count s) := by
  unfold execInvalidationRequest
  exact ok_regEvent _ _ h (by simp [h])

theorem ok_llcctlUnpin (s : State) (h : Memory.wf s.mem = true) : OutOk (execLlcctlUnpin s) := by
  unfold execLlcctlUnpin
  exact ok_regEvent _ _ h (by simp [h])

theorem ok_pinwWrite (pinw) (s : State) (h : Memory.wf s.mem = true) : OutOk (execPinwWrite pinw s) := by
  unfold execPinwWrite
  exact ok_regEvent _ _ h (by simp [h])

theorem ok_leaseRevoke (entry) (s : State) (h : Memory.wf s.mem = true) : OutOk (execLeaseRevoke entry s) := by
  unfold execLeaseRevoke
  exact ok_regEvent _ _ h (by simp [h])

theorem ok_leaseAck (entry) (s : State) (h : Memory.wf s.mem = true) : OutOk (execLeaseAck entry s) := by
  unfold execLeaseAck
  exact ok_regEvent _ _ h (by simp [h])

theorem ok_featenWrite (value) (s : State) (h : Memory.wf s.mem = true) : OutOk (execFeatenWrite value s) := by
  unfold execFeatenWrite
  exact ok_regEvent _ _ h (by simp [h])

theorem ok_attcmdGo (ctx) (s : State) (h : Memory.wf s.mem = true) : OutOk (execAttcmdGo ctx s) := by
  unfold execAttcmdGo
  exact ok_regEvent _ _ h (by simp [h])

theorem ok_traceCaptureOn (ctx) (s : State) (h : Memory.wf s.mem = true) : OutOk (execTraceCaptureOn ctx s) := by
  unfold execTraceCaptureOn
  exact ok_regEvent _ _ h (by split <;> simp [h])

theorem ok_traceCaptureOff (ctx) (s : State) (h : Memory.wf s.mem = true) : OutOk (execTraceCaptureOff ctx s) := by
  unfold execTraceCaptureOff
  exact ok_regEvent _ _ h (by split <;> simp [h])

/-! ### Streams -/

theorem ok_State_streamWrite (s : State) (a bit w x) (h : Memory.wf s.mem = true) : Memory.wf (s.streamWrite a bit w x).mem = true :=
  foldl_okS _ _ _ (fun s y h => by simp [h]) (by simp [h])

theorem ok_xdec (p f) (s : State) (h : Memory.wf s.mem = true) : OutOk (execXdec p f s) := by
  unfold execXdec
  refine ok_streamOp _ _ _ _ h fun s m o h => ?_
  extract_lets js wordFlts fs
  split
  · exact h
  · rename_i e
    have h1 := ok_State_noteFlts e h
    split
    · exact h1
    · extract_lets g s2
      have h2 : Memory.wf s2.mem = true :=
        foldl_okS _ _ _ (fun s l h => foldl_okS _ _ _ (fun s j h => foldl_okS _ _ _ (fun s a h => by simp [h]) h) h) (by simp [h1])
      clear_value s2
      split <;> simp [h2]

theorem ok_xenc (p f) (s : State) (h : Memory.wf s.mem = true) : OutOk (execXenc p f s) := by
  unfold execXenc
  refine ok_streamOp _ _ _ _ h fun s m o h => ?_
  extract_lets t vs
  split
  extract_lets words
  split
  · exact h
  · split
    · exact h
    · split
      · split
        · exact h
        · rename_i e
          exact ok_State_noteFlts e h
      · split
        · rw [Did.Ok_done, mem_State_modG]
          exact ok_State_streamWrite _ _ _ _ _ h
        · exact ok_State_streamWrite _ _ _ _ _ h

theorem ok_cmp (p f) (s : State) (h : Memory.wf s.mem = true) : OutOk (execCmp p f s) := by
  unfold execCmp
  exact ok_compareOp _ _ _ _ _ _ h

theorem ok_cmpi (p f) (s : State) (h : Memory.wf s.mem = true) : OutOk (execCmpi p f s) := by
  unfold execCmpi
  exact ok_compareOp _ _ _ _ _ _ h

theorem ok_cinv (p f) (s : State) (h : Memory.wf s.mem = true) : OutOk (execCinv p f s) := by
  unfold execCinv
  exact ok_lineOp _ _ _ _ h fun s pa cp h => by simp [h]

theorem ok_cflu (p f) (s : State) (h : Memory.wf s.mem = true) : OutOk (execCflu p f s) := by
  unfold execCflu
  exact ok_lineOp _ _ _ _ h fun s pa cp h => by simp [h]

theorem ok_pref (p f) (s : State) (h : Memory.wf s.mem = true) : OutOk (execPref p f s) := by
  unfold execPref
  exact ok_lineOp _ _ _ _ h fun s pa cp h => by simp [h]

theorem ok_atom (p f) (s : State) (h : Memory.wf s.mem = true) : OutOk (execAtom p f s) := by
  unfold execAtom
  exact ok_rmwOp _ _ _ _ _ _ h

theorem ok_cas (p f) (s : State) (h : Memory.wf s.mem = true) : OutOk (execCas p f s) := by
  unfold execCas
  exact ok_rmwOp _ _ _ _ _ _ h

end Sys2Proof.Machine
end

section
/-! PROOFS. The memory keeps its canonical form (O59): every word and event, and a step. -/
set_option maxRecDepth 100000

namespace Sys2Proof.Machine

/-- Every word and event but the two that run another one (R407, R415). -/
def runsItself : Instr → Bool
  | .handlerOverrun _ => false
  | .arbitrationAgeGrant _ => false
  | _ => true

/-- Every word and event keeps the memory's form, but for the two that run another one. -/
theorem ok_exec_of_runsItself : ∀ (i : Instr) (s : State), Memory.wf s.mem = true → runsItself i = true → OutOk (exec i s)
  | .nop p f, s, h, _ => ok_nop p f s h
  | .bra p f, s, h, _ => ok_bra p f s h
  | .bru p f, s, h, _ => ok_bru p f s h
  | .brx p f, s, h, _ => ok_brx p f s h
  | .call p f, s, h, _ => ok_call p f s h
  | .callx p f, s, h, _ => ok_callx p f s h
  | .ret p f, s, h, _ => ok_ret p f s h
  | .exit p f, s, h, _ => ok_exit p f s h
  | .yield p f, s, h, _ => ok_yield p f s h
  | .trap p f, s, h, _ => ok_trap p f s h
  | .tret p f, s, h, _ => ok_tret p f s h
  | .bkpt p f, s, h, _ => ok_bkpt p f s h
  | .waitf p f, s, h, _ => ok_waitf p f s h
  | .add p f, s, h, _ => show OutOk (execAdd p f s) from ok_intOp s p f _ _ h
  | .sub p f, s, h, _ => show OutOk (execSub p f s) from ok_intOp s p f _ _ h
  | .mul p f, s, h, _ => show OutOk (execMul p f s) from ok_intOp s p f _ _ h
  | .mulh p f, s, h, _ => show OutOk (execMulh p f s) from ok_intOp s p f _ _ h
  | .mad p f, s, h, _ => show OutOk (execMad p f s) from ok_intOp s p f _ _ h
  | .addc p f, s, h, _ => show OutOk (execAddc p f s) from ok_carryOp s p f _ h
  | .subb p f, s, h, _ => show OutOk (execSubb p f s) from ok_carryOp s p f _ h
  | .and p f, s, h, _ => show OutOk (execAnd p f s) from ok_intOp s p f _ _ h
  | .or p f, s, h, _ => show OutOk (execOr p f s) from ok_intOp s p f _ _ h
  | .xor p f, s, h, _ => show OutOk (execXor p f s) from ok_intOp s p f _ _ h
  | .andn p f, s, h, _ => show OutOk (execAndn p f s) from ok_intOp s p f _ _ h
  | .shl p f, s, h, _ => show OutOk (execShl p f s) from ok_intOp s p f _ _ h
  | .shr p f, s, h, _ => show OutOk (execShr p f s) from ok_intOp s p f _ _ h
  | .sra p f, s, h, _ => show OutOk (execSra p f s) from ok_intOp s p f _ _ h
  | .rot p f, s, h, _ => show OutOk (execRot p f s) from ok_intOp s p f _ _ h
  | .min p f, s, h, _ => show OutOk (execMin p f s) from ok_intOp s p f _ _ h
  | .max p f, s, h, _ => show OutOk (execMax p f s) from ok_intOp s p f _ _ h
  | .absd p f, s, h, _ => show OutOk (execAbsd p f s) from ok_intOp s p f _ _ h
  | .cmp p f, s, h, _ => ok_cmp p f s h
  | .sel p f, s, h, _ => ok_sel p f s h
  | .popc p f, s, h, _ => show OutOk (execPopc p f s) from ok_intOp s p f _ _ h
  | .clz p f, s, h, _ => show OutOk (execClz p f s) from ok_intOp s p f _ _ h
  | .brev p f, s, h, _ => show OutOk (execBrev p f s) from ok_intOp s p f _ _ h
  | .bfe p f, s, h, _ => show OutOk (execBfe p f s) from ok_intOp s p f _ _ h
  | .bfi p f, s, h, _ => show OutOk (execBfi p f s) from ok_intOp s p f _ _ h
  | .mov p f, s, h, _ => ok_mov p f s h
  | .div p f, s, h, _ => show OutOk (execDiv p f s) from ok_intOp s p f _ _ h
  | .movi p f, s, h, _ => show OutOk (execMovi p f s) from ok_immOp s p f _ _ h
  | .addi p f, s, h, _ => show OutOk (execAddi p f s) from ok_immOp s p f _ _ h
  | .andi p f, s, h, _ => show OutOk (execAndi p f s) from ok_immOp s p f _ _ h
  | .ori p f, s, h, _ => show OutOk (execOri p f s) from ok_immOp s p f _ _ h
  | .xori p f, s, h, _ => show OutOk (execXori p f s) from ok_immOp s p f _ _ h
  | .cmpi p f, s, h, _ => ok_cmpi p f s h
  | .atr p f, s, h, _ => ok_atr p f s h
  | .arel p f, s, h, _ => ok_arel p f s h
  | .lea p f, s, h, _ => ok_lea p f s h
  | .aget p f, s, h, _ => ok_aget p f s h
  | .mand p f, s, h, _ => show OutOk (execMand p f s) from ok_maskOp s p f _ h
  | .mor p f, s, h, _ => show OutOk (execMor p f s) from ok_maskOp s p f _ h
  | .mxor p f, s, h, _ => show OutOk (execMxor p f s) from ok_maskOp s p f _ h
  | .mandn p f, s, h, _ => show OutOk (execMandn p f s) from ok_maskOp s p f _ h
  | .mmov p f, s, h, _ => ok_mmov p f s h
  | .mpopc p f, s, h, _ => show OutOk (execMpopc p f s) from ok_maskCount s p f _ h
  | .mfirst p f, s, h, _ => show OutOk (execMfirst p f s) from ok_maskCount s p f _ h
  | .mact p f, s, h, _ => ok_mact p f s h
  | .gsplit p f, s, h, _ => ok_gsplit p f s h
  | .gfuse p f, s, h, _ => ok_gfuse p f s h
  | .gang p f, s, h, _ => ok_gang p f s h
  | .mfsr p f, s, h, _ => ok_mfsr p f s h
  | .mtsr p f, s, h, _ => ok_mtsr p f s h
  | .hexitWrite p f, s, h, _ => ok_hexitWrite p f s h
  | .ptmaskWrite p f, s, h, _ => ok_ptmaskWrite p f s h
  | .clk p f, s, h, _ => ok_clk p f s h
  | .zread p f, s, h, _ => ok_zread p f s h
  | .rng p f, s, h, _ => ok_rng p f s h
  | .ecount p f, s, h, _ => ok_ecount p f s h
  | .fadd p f, s, h, _ => show OutOk (execFadd p f s) from ok_fpOp s p f _ _ h
  | .fsub p f, s, h, _ => show OutOk (execFsub p f s) from ok_fpOp s p f _ _ h
  | .fmul p f, s, h, _ => show OutOk (execFmul p f s) from ok_fpOp s p f _ _ h
  | .ffma p f, s, h, _ => show OutOk (execFfma p f s) from ok_fpOp s p f _ _ h
  | .fmin p f, s, h, _ => show OutOk (execFmin p f s) from ok_fpOp s p f _ _ h
  | .fmax p f, s, h, _ => show OutOk (execFmax p f s) from ok_fpOp s p f _ _ h
  | .fminm p f, s, h, _ => show OutOk (execFminm p f s) from ok_fpOp s p f _ _ h
  | .fmaxm p f, s, h, _ => show OutOk (execFmaxm p f s) from ok_fpOp s p f _ _ h
  | .fcmp p f, s, h, _ => ok_fcmp p f s h
  | .fclass p f, s, h, _ => ok_fclass p f s h
  | .fdiv p f, s, h, _ => show OutOk (execFdiv p f s) from ok_fpOp s p f _ _ h
  | .fsqrt p f, s, h, _ => show OutOk (execFsqrt p f s) from ok_fpOp s p f _ _ h
  | .frcp p f, s, h, _ => show OutOk (execFrcp p f s) from ok_fpOp s p f _ _ h
  | .frsq p f, s, h, _ => show OutOk (execFrsq p f s) from ok_fpOp s p f _ _ h
  | .fexp2 p f, s, h, _ => show OutOk (execFexp2 p f s) from ok_fpOp s p f _ _ h
  | .flog2 p f, s, h, _ => show OutOk (execFlog2 p f s) from ok_fpOp s p f _ _ h
  | .fsin p f, s, h, _ => show OutOk (execFsin p f s) from ok_fpOp s p f _ _ h
  | .fcos p f, s, h, _ => show OutOk (execFcos p f s) from ok_fpOp s p f _ _ h
  | .frint p f, s, h, _ => show OutOk (execFrint p f s) from ok_fpOp s p f _ _ h
  | .fscale p f, s, h, _ => ok_fscale p f s h
  | .fgetexp p f, s, h, _ => show OutOk (execFgetexp p f s) from ok_fpOp s p f _ _ h
  | .fdot2 p f, s, h, _ => ok_fdot2 p f s h
  | .fcvt p f, s, h, _ => ok_fcvt p f s h
  | .ftoi p f, s, h, _ => ok_ftoi p f s h
  | .itof p f, s, h, _ => ok_itof p f s h
  | .pack8 p f, s, h, _ => ok_pack8 p f s h
  | .unpk8 p f, s, h, _ => ok_unpk8 p f s h
  | .qnt p f, s, h, _ => ok_qnt p f s h
  | .deq p f, s, h, _ => ok_deq p f s h
  | .bcast p f, s, h, _ => ok_bcast p f s h
  | .shfl p f, s, h, _ => show OutOk (execShfl p f s) from ok_exchange s p f _ _ _ h
  | .shup p f, s, h, _ => show OutOk (execShup p f s) from ok_exchange s p f _ _ _ h
  | .shdn p f, s, h, _ => show OutOk (execShdn p f s) from ok_exchange s p f _ _ _ h
  | .ballot p f, s, h, _ => ok_ballot p f s h
  | .redux p f, s, h, _ => ok_redux p f s h
  | .scan p f, s, h, _ => ok_scan p f s h
  | .elect p f, s, h, _ => ok_elect p f s h
  | .lget p f, s, h, _ => ok_lget p f s h
  | .lput p f, s, h, _ => ok_lput p f s h
  | .ld p f, s, h, _ => show OutOk (execLd p f s) from ok_loadOp s _ p f _ h
  | .lds p f, s, h, _ => show OutOk (execLds p f s) from ok_loadOp s _ p f _ h
  | .ldk p f, s, h, _ => show OutOk (execLdk p f s) from ok_loadOp s _ p f _ h
  | .st p f, s, h, _ => show OutOk (execSt p f s) from ok_storeOp s _ p f _ _ h
  | .sts p f, s, h, _ => show OutOk (execSts p f s) from ok_storeOp s _ p f _ _ h
  | .stk p f, s, h, _ => show OutOk (execStk p f s) from ok_storeOp s _ p f _ _ h
  | .zst p f, s, h, _ => show OutOk (execZst p f s) from ok_storeOp s _ p f _ _ h
  | .tld p f, s, h, _ => show OutOk (execTld p f s) from ok_tileLoad s p f h
  | .tst p f, s, h, _ => show OutOk (execTst p f s) from ok_tileStore s p f h
  | .tlds p f, s, h, _ => show OutOk (execTlds p f s) from ok_tileLoad s p f h
  | .tsts p f, s, h, _ => show OutOk (execTsts p f s) from ok_tileStore s p f h
  | .tileLockGrant grp, s, h, _ => ok_tileLockGrant grp s h
  | .atom p f, s, h, _ => ok_atom p f s h
  | .cas p f, s, h, _ => ok_cas p f s h
  | .casgt p f, s, h, _ => show OutOk (execCasgt p f s) from ok_rmwOp s p f _ _ _ h
  | .casv p f, s, h, _ => show OutOk (execCasv p f s) from ok_rmwOp s p f _ _ _ h
  | .caspt p f, s, h, _ => show OutOk (execCaspt p f s) from ok_rmwOp s p f _ _ _ h
  | .red p f, s, h, _ => ok_red p f s h
  | .rflush p f, s, h, _ => ok_rflush p f s h
  | .fence p f, s, h, _ => ok_fence p f s h
  | .cinv p f, s, h, _ => ok_cinv p f s h
  | .cflu p f, s, h, _ => ok_cflu p f s h
  | .pref p f, s, h, _ => ok_pref p f s h
  | .binit p f, s, h, _ => ok_binit p f s h
  | .bexpect p f, s, h, _ => ok_bexpect p f s h
  | .barrive p f, s, h, _ => ok_barrive p f s h
  | .bwait p f, s, h, _ => ok_bwait p f s h
  | .btest p f, s, h, _ => ok_btest p f s h
  | .cpy p f, s, h, _ => show OutOk (execCpy p f s) from ok_copyOp s p f _ h
  | .cpyt p f, s, h, _ => show OutOk (execCpyt p f s) from ok_copyOp s p f _ h
  | .cpyc p f, s, h, _ => show OutOk (execCpyc p f s) from ok_copyOp s p f _ h
  | .cpys p f, s, h, _ => ok_cpys p f s h
  | .engineWriteLanding team cmd n, s, h, _ => ok_engineWriteLanding team cmd n s h
  | .flagClear grp flag, s, h, _ => ok_flagClear grp flag s h
  | .streamBeatAccept team push consumer n, s, h, _ => ok_streamBeatAccept team push consumer n s h
  | .stash p f, s, h, _ => ok_stash p f s h
  | .restore p f, s, h, _ => ok_restore p f s h
  | .collar p f, s, h, _ => show OutOk (execCollar p f s) from ok_collOp s p f _ h
  | .collrs p f, s, h, _ => show OutOk (execCollrs p f s) from ok_collOp s p f _ h
  | .collag p f, s, h, _ => show OutOk (execCollag p f s) from ok_collOp s p f _ h
  | .collupd p f, s, h, _ => show OutOk (execCollupd p f s) from ok_collOp s p f _ h
  | .collcmt p f, s, h, _ => show OutOk (execCollcmt p f s) from ok_collOp s p f _ h
  | .collectiveCompletion team coll peers, s, h, _ => ok_collectiveCompletion team coll peers s h
  | .walloc p f, s, h, _ => ok_walloc p f s h
  | .wsend p f, s, h, _ => ok_wsend p f s h
  | .launch p f, s, h, _ => ok_launch p f s h
  | .mma p f, s, h, _ => show OutOk (execMma p f s) from ok_mmaOp s _ p f h
  | .mmasp p f, s, h, _ => show OutOk (execMmasp p f s) from ok_mmaOp s _ p f h
  | .mmaPop grp, s, h, _ => ok_mmaPop grp s h
  | .mmaComplete grp, s, h, _ => ok_mmaComplete grp s h
  | .spush p f, s, h, _ => ok_spush p f s h
  | .mqstat p f, s, h, _ => ok_mqstat p f s h
  | .mdrop p f, s, h, _ => ok_mdrop p f s h
  | .xdec p f, s, h, _ => ok_xdec p f s h
  | .xenc p f, s, h, _ => ok_xenc p f s h
  | .xsparse p f, s, h, _ => ok_xsparse p f s h
  | .xmatch p f, s, h, _ => ok_xmatch p f s h
  | .xsort p f, s, h, _ => ok_xsort p f s h
  | .xperm p f, s, h, _ => ok_xperm p f s h
  | .xtrn p f, s, h, _ => ok_xtrn p f s h
  | .topen p f, s, h, _ => ok_topen p f s h
  | .trec p f, s, h, _ => ok_trec p f s h
  | .tpop p f, s, h, _ => ok_tpop p f s h
  | .tmark p f, s, h, _ => ok_tmark p f s h
  | .tend p f, s, h, _ => ok_tend p f s h
  | .tstat p f, s, h, _ => ok_tstat p f s h
  | .tclose p f, s, h, _ => ok_tclose p f s h
  | .tapeSpill grp, s, h, _ => ok_tapeSpill grp s h
  | .tapeFill grp, s, h, _ => ok_tapeFill grp s h
  | .rcov p f, s, h, _ => ok_rcov p f s h
  | .esmp p f, s, h, _ => ok_esmp p f s h
  | .tex p f, s, h, _ => show OutOk (execTex p f s) from ok_texOp s p f _ _ h
  | .texl p f, s, h, _ => show OutOk (execTexl p f s) from ok_texOp s p f _ _ h
  | .texadj p f, s, h, _ => show OutOk (execTexadj p f s) from ok_texOp s p f _ _ h
  | .trace p f, s, h, _ => ok_trace p f s h
  | .tresume p f, s, h, _ => ok_tresume p f s h
  | .tabort p f, s, h, _ => ok_tabort p f s h
  | .hitadj p f, s, h, _ => ok_hitadj p f s h
  | .rcq p f, s, h, _ => ok_rcq p f s h
  | .rcsync p f, s, h, _ => ok_rcsync p f s h
  | .rcstat p f, s, h, _ => ok_rcstat p f s h
  | .syncPoint grid, s, h, _ => ok_syncPoint grid s h
  | .temperStep ctx, s, h, _ => ok_temperStep ctx s h
  | .versionPublish ctx, s, h, _ => ok_versionPublish ctx s h
  | .laneWaitResume grp, s, h, _ => ok_laneWaitResume grp s h
  | .groupStallWake grp, s, h, _ => ok_groupStallWake grp s h
  | .fusion grp, s, h, _ => ok_fusion grp s h
  | .yieldRelease grp, s, h, _ => ok_yieldRelease grp s h
  | .groupRetirement grp, s, h, _ => ok_groupRetirement grp s h
  | .teamRetirement team, s, h, _ => ok_teamRetirement team s h
  | .anvilStage team full, s, h, _ => ok_anvilStage team full s h
  | .epochClose grid, s, h, _ => ok_epochClose grid s h
  | .uPartialApply core line, s, h, _ => ok_uPartialApply core line s h
  | .lqtailWrite queue tail, s, h, _ => ok_lqtailWrite queue tail s h
  | .launchRecordTake queue, s, h, _ => ok_launchRecordTake queue s h
  | .gridStart grid, s, h, _ => ok_gridStart grid s h
  | .teamPlacement grid cores keep, s, h, _ => ok_teamPlacement grid cores keep s h
  | .eviction team, s, h, _ => ok_eviction team s h
  | .teamRestore team core, s, h, _ => ok_teamRestore team core s h
  | .gridCompletion grid, s, h, _ => ok_gridCompletion grid s h
  | .invalidationRequest ctx count, s, h, _ => ok_invalidationRequest ctx count s h
  | .invalidationComplete ctx, s, h, _ => ok_invalidationComplete ctx s h
  | .fqheadWrite ctx head, s, h, _ => ok_fqheadWrite ctx head s h
  | .fqctlRetry ctx, s, h, _ => ok_fqctlRetry ctx s h
  | .cacheLoad ctx, s, h, _ => ok_cacheLoad ctx s h
  | .cacheSave ctx, s, h, _ => ok_cacheSave ctx s h
  | .switch ctx, s, h, _ => ok_switch ctx s h
  | .switchComplete ctx, s, h, _ => ok_switchComplete ctx s h
  | .contextResume ctx, s, h, _ => ok_contextResume ctx s h
  | .kill ctx, s, h, _ => ok_kill ctx s h
  | .snapshot grp, s, h, _ => ok_snapshot grp s h
  | .arm ctx launchIdx part, s, h, _ => ok_arm ctx launchIdx part s h
  | .stopReached grp, s, h, _ => ok_stopReached grp s h
  | .disarm ctx, s, h, _ => ok_disarm ctx s h
  | .debugResume ctx, s, h, _ => ok_debugResume ctx s h
  | .debugRead ctx spec lane, s, h, _ => ok_debugRead ctx spec lane s h
  | .debugWrite ctx spec lane, s, h, _ => ok_debugWrite ctx spec lane s h
  | .traceCaptureOn ctx, s, h, _ => ok_traceCaptureOn ctx s h
  | .traceCaptureOff ctx, s, h, _ => ok_traceCaptureOff ctx s h
  | .samplePacket grp kind times, s, h, _ => ok_samplePacket grp kind times s h
  | .hostWrite off data, s, h, _ => show OutOk (execHostWrite off data s) from ok_hostTurn s _ h
  | .hostRead win off n, s, h, _ => show OutOk (execHostRead win off n s) from ok_hostTurn s _ h
  | .remoteAccessArrival acc, s, h, _ => ok_remoteAccessArrival acc s h
  | .remoteReply req data, s, h, _ => ok_remoteReply req data s h
  | .remoteRequestLost req, s, h, _ => ok_remoteRequestLost req s h
  | .featenWrite value, s, h, _ => ok_featenWrite value s h
  | .packageReset, s, h, _ => ok_packageReset s h
  | .mailboxWrite, s, h, _ => ok_mailboxWrite s h
  | .mailboxWriteDone, s, h, _ => ok_mailboxWriteDone s h
  | .mailboxCommit, s, h, _ => ok_mailboxCommit s h
  | .attcmdGo ctx, s, h, _ => ok_attcmdGo ctx s h
  | .attestationReportDone ctx, s, h, _ => ok_attestationReportDone ctx s h
  | .registerWrite off value, s, h, _ => show OutOk (execRegisterWrite off value s) from ok_hostTurn s _ h
  | .writeBufferDrain core, s, h, _ => ok_writeBufferDrain core s h
  | .leaseRevoke entry, s, h, _ => ok_leaseRevoke entry s h
  | .leaseNotice entry, s, h, _ => ok_leaseNotice entry s h
  | .leaseAck entry, s, h, _ => ok_leaseAck entry s h
  | .leaseDeadline entry, s, h, _ => ok_leaseDeadline entry s h
  | .lenderReclaim entry, s, h, _ => ok_lenderReclaim entry s h
  | .portStateChange port up, s, h, _ => ok_portStateChange port up s h
  | .barSizeSelect log, s, h, _ => ok_barSizeSelect log s h
  | .starvationGuard grp, s, h, _ => ok_starvationGuard grp s h
  | .rotationRule grp, s, h, _ => ok_rotationRule grp s h
  | .llcctlUnpin, s, h, _ => ok_llcctlUnpin s h
  | .pinwWrite pinw, s, h, _ => ok_pinwWrite pinw s h
  | .softError target, s, h, _ => ok_softError target s h
  | .scrub bad, s, h, _ => ok_scrub bad s h
  | .reservoirTick static debits, s, h, _ => ok_reservoirTick static debits s h
  | .debugForceWrite ctx spec lane, s, h, _ => ok_debugForceWrite ctx spec lane s h
  | .preEmptionWithdraw team, s, h, _ => ok_preEmptionWithdraw team s h
  | .batchTimeout grid node, s, h, _ => ok_batchTimeout grid node s h
  | .handlerOverrun _, _, _, hi => absurd hi Bool.false_ne_true
  | .arbitrationAgeGrant _, _, _, hi => absurd hi Bool.false_ne_true

/-! ### The preparation of an issue -/

/-- The state that a preparation leaves keeps the memory's form. -/
def Prep.Ok : Prep → Prop
  | .go s _ => Memory.wf s.mem = true
  | .spent s => Memory.wf s.mem = true
  | .held => True

theorem prep_reject (s : State) (f) (h : Memory.wf s.mem = true) : (s.reject f).Ok := by
  unfold State.reject
  split
  · exact ok_State_doubleTrap s h
  · dsimp only
    split <;> simp [Prep.Ok, h]

theorem prep_fetchWord (s : State) (i va) (h : Memory.wf s.mem = true) : (s.fetchWord i va).Ok := by
  unfold State.fetchWord
  split <;> rename_i e <;> have h1 := fst_ok e (by simp [h])
  · simp [Prep.Ok, h1]
  · simp [Prep.Ok, h1]
  · extract_lets s1 s2
    have h2 : Memory.wf s2.mem = true := by
      simp only [s2]
      split <;> simp [s1, h1]
    clear_value s2
    split
    · exact h2
    · exact prep_reject _ _ h2

theorem prep_enter (s : State) (i wants) (h : Memory.wf s.mem = true) : (s.enter i wants).Ok := by
  unfold State.enter
  split <;> rename_i e <;> have h1 := fst_ok e (by simp [h])
  · simp [Prep.Ok, h1]
  · simp [Prep.Ok, h1]
  · extract_lets bad s1
    have h2 : Memory.wf s1.mem = true := by simp [s1, h1]
    clear_value s1
    split
    · simp [Prep.Ok, h1]
    · split
      · simp [Prep.Ok, h1]
      · split
        · trivial
        · split
          · split
            · simp [Prep.Ok, h2]
            · trivial
          · split <;> rename_i e <;> have h3 := fst_ok e (by simp [h2])
            · simp [Prep.Ok, h3]
            · simp [Prep.Ok, h3]
            · exact prep_fetchWord _ _ _ (by split <;> simp [h3])

theorem mem_State_settlePatched (s : State) (set ls) : (s.settlePatched set ls).1.mem = s.mem := by
  induction ls generalizing s with
  | nil => rfl
  | cons l ls ih =>
    unfold State.settlePatched
    dsimp only
    split
    · exact ih s
    · split <;> rename_i e <;> have h1 := congrArg (fun x => x.1.mem) e <;> rw [mem_State_fetch] at h1
      · rw [ih]
        split <;> simp [h1]
      · exact h1.symm

theorem prep_issueAt (s : State) (pc ls) (h : Memory.wf s.mem = true) : (s.issueAt pc ls).Ok := by
  unfold State.issueAt
  extract_lets x inside i
  split
  · exact prep_fetchWord _ _ _ h
  · split
    · simp [Prep.Ok, h]
    · exact prep_enter _ _ _ h

theorem prep_prepLanes (s : State) (h : Memory.wf s.mem = true) : s.prepLanes.Ok := by
  unfold State.prepLanes
  split
  · trivial
  · extract_lets ls set x i patched
    split
    · exact prep_issueAt _ _ _ h
    · split <;> rename_i e <;> have h1 := fst_ok e (by simp [h])
      · simp [Prep.Ok, h1]
      · simp [Prep.Ok, h1]
      · split <;> rename_i e <;> have h2 := fst_ok e (by rw [mem_State_settlePatched]; exact h1)
        · exact prep_issueAt _ _ _ h2
        · simp [Prep.Ok, h2]
        · simp [Prep.Ok, h2]
        · exact h2

theorem prep_prepHandler (s : State) (x) (h : Memory.wf s.mem = true) : (s.prepHandler x).Ok := by
  unfold State.prepHandler
  split
  · exact prep_fetchWord _ _ _ h
  · exact prep_enter _ _ _ h
  · exact ok_State_doubleTrap s h

theorem prep_prepare (s : State) (h : Memory.wf s.mem = true) : s.prepare.Ok := by
  unfold State.prepare
  split
  · exact prep_prepHandler _ _ h
  · exact prep_prepLanes _ h

/-! ### The two events that run another word or event -/

theorem handlerRun_cases (i : Instr) (s : State) : (runsItself i = true ∧ handlerRun i s = exec i s) ∨ handlerRun i s = .next s.doubleTrap := by
  unfold handlerRun
  split
  case h_60 => exact .inr rfl
  all_goals exact .inl ⟨rfl, rfl⟩

theorem ok_handlerRun (i : Instr) (s : State) (h : Memory.wf s.mem = true) : OutOk (handlerRun i s) := by
  obtain ⟨hi, e⟩ | e := handlerRun_cases i s
  · rw [e]
    exact ok_exec_of_runsItself i s h hi
  · rw [e]
    exact ok_next _ (ok_State_doubleTrap s h)

theorem packetRun_cases (i : Instr) (s : State) : (runsItself i = true ∧ packetRun i s = exec i s) ∨ packetRun i s = .next s := by
  unfold packetRun
  split
  case h_14 => exact .inr rfl
  all_goals exact .inl ⟨rfl, rfl⟩

theorem ok_packetRun (i : Instr) (s : State) (h : Memory.wf s.mem = true) : OutOk (packetRun i s) := by
  obtain ⟨hi, e⟩ | e := packetRun_cases i s
  · rw [e]
    exact ok_exec_of_runsItself i s h hi
  · rw [e]
    exact ok_next _ h

theorem ok_handlerOverrun (grp) (s : State) (h : Memory.wf s.mem = true) : OutOk (execHandlerOverrun grp s) := by
  unfold execHandlerOverrun
  dsimp only
  split
  · have hp := prep_prepare (s.focusGrp grp) (by simp [h])
    split <;> rename_i e
    · exact ok_handlerRun _ _ (by rw [e] at hp; exact hp)
    · exact ok_next _ (by rw [e] at hp; exact hp)
    · exact ok_next _ h
  · exact ok_next _ h

theorem ok_arbitrationAgeGrant (point) (s : State) (h : Memory.wf s.mem = true) : OutOk (execArbitrationAgeGrant point s) := by
  unfold execArbitrationAgeGrant
  split
  · exact ok_next _ h
  · exact ok_packetRun _ _ (by simp [h])

theorem eq_of_not_runsItself {i : Instr} (hi : runsItself i = false) :
    (∃ grp, i = .handlerOverrun grp) ∨ ∃ point, i = .arbitrationAgeGrant point := by
  unfold runsItself at hi
  split at hi
  · exact .inl ⟨_, rfl⟩
  · exact .inr ⟨_, rfl⟩
  · cases hi

/-- Every word and event keeps the memory's form. -/
theorem ok_exec (i : Instr) (s : State) (h : Memory.wf s.mem = true) : OutOk (exec i s) := by
  cases hi : runsItself i with
  | true => exact ok_exec_of_runsItself i s h hi
  | false =>
    obtain ⟨grp, rfl⟩ | ⟨point, rfl⟩ := eq_of_not_runsItself hi
    · exact ok_handlerOverrun grp s h
    · exact ok_arbitrationAgeGrant point s h

/-! ### What the machine does of itself -/

/-- The state that a plan ends in, or starts its word or event in, keeps the memory's form. -/
def Plan.Ok : Plan → Prop
  | .event _ s => Memory.wf s.mem = true
  | .issue _ s => Memory.wf s.mem = true
  | .spent s => Memory.wf s.mem = true

theorem plan_planEvent (s : State) (x) (h : Memory.wf s.mem = true) (e : s.planEvent = some x) : x.Ok := by
  unfold State.planEvent at e
  obtain ⟨i, -, rfl⟩ := Option.map_eq_some_iff.mp e
  show Memory.wf _ = true
  split <;> simp [h]

theorem plan_planIssue (s : State) (run x) (h : Memory.wf s.mem = true) (e : s.planIssue run = some x) : x.Ok := by
  unfold State.planIssue at e
  dsimp only at e
  split at e
  · cases e
  · rename_i k _
    have hp := prep_prepare ((s.passOver (s.readyGroups run) k).focusGrp k) (by simp [h])
    split at e <;> rename_i e'
    · cases e
      rw [e'] at hp
      exact hp
    · cases e
      rw [e'] at hp
      exact hp
    · cases e

theorem plan_orElse {a b : Option Plan} {x : Plan} (ha : ∀ y, a = some y → y.Ok) (hb : ∀ y, b = some y → y.Ok) (hx : x.Ok) :
    ((a.orElse fun _ => b).getD x).Ok := by
  cases a with
  | some y => exact ha y rfl
  | none =>
    cases b with
    | some y => exact hb y rfl
    | none => exact hx

theorem plan_planTurn (s : State) (run) (h : Memory.wf s.mem = true) : (s.planTurn run).Ok := by
  unfold State.planTurn
  extract_lets s1
  have h1 : Memory.wf s1.mem = true := h
  clear_value s1
  split
  · refine plan_orElse ?_ ?_ ?_
    · exact fun y => plan_planEvent s1 y h1
    · exact fun y => plan_planIssue s1 run y h1
    · exact h1
  · refine plan_orElse ?_ ?_ ?_
    · exact fun y => plan_planIssue s1 run y h1
    · exact fun y => plan_planEvent s1 y h1
    · exact h1

theorem plan_plan (s : State) (run) (h : Memory.wf s.mem = true) : (s.plan run).Ok := by
  unfold State.plan
  split
  · rename_i e
    exact ok_State_service e h
  · unfold State.rerunStep
    simp [Plan.Ok, h]
  · exact plan_planTurn s run h

/-- A step keeps the memory's form: the head of the agenda, or what the plan says. -/
theorem ok_step (s : State) (h : Memory.wf s.mem = true) : OutOk (step s) := by
  unfold step
  split
  · split
    · exact fun t e => by cases e
    · exact ok_exec _ _ h
  · have hp := plan_plan s exec h
    split <;> rename_i e <;> rw [e] at hp
    · exact ok_exec _ _ hp
    · exact ok_exec _ _ hp
    · exact ok_next _ hp

/-- Settles O59: each word and event is followed through its shared operation, and a step is one of them or a preparation. -/
theorem memoryStaysCanonical : Obligations.MemoryStaysCanonical := by
  unfold Obligations.MemoryStaysCanonical
  exact fun s t h e => ok_step s h t e

end Sys2Proof.Machine
end

section
/-! PROOFS. What reset leaves (O60). -/
set_option maxRecDepth 100000

namespace Sys2Proof.Machine

open Sys2Proof.Claims


theorem beq_ne_true_of_lt {a k : Nat} (h : k < a) : ¬(a == k) = true := by
  rw [beq_iff_eq]
  omega

theorem not_range_of_le {a lo hi : Nat} (h : hi ≤ a) : ¬(decide (lo ≤ a) && decide (a < hi)) = true := by
  rw [Bool.and_eq_true, decide_eq_true_eq, decide_eq_true_eq]
  omega

theorem not_range_of_lt {a lo hi : Nat} (h : a < lo) : ¬(decide (lo ≤ a) && decide (a < hi)) = true := by
  rw [Bool.and_eq_true, decide_eq_true_eq, decide_eq_true_eq]
  omega

theorem range_of_le_of_lt {a lo hi : Nat} (h : lo ≤ a) (h' : a < hi) : (decide (lo ≤ a) && decide (a < hi)) = true := by
  rw [Bool.and_eq_true, decide_eq_true_eq, decide_eq_true_eq]
  exact ⟨h, h'⟩

/-- A context's block of window A. -/
theorem State.regRead_ctx (s : State) (ctx off : Nat) (hr : s.pkg.inRecovery = false) (hc : ctx < 256) (ho : off < 4096) :
    s.regRead (0x100000 + 4096 * ctx + off) = s.ctxReg ctx off := by
  have h1 : (0x100000 + 4096 * ctx + off - 0x100000) / 4096 = ctx := by omega
  have h2 : (0x100000 + 4096 * ctx + off) % 4096 = off := by omega
  have hl : 0x100000 ≤ 0x100000 + 4096 * ctx + off := by omega
  have hu : 0x100000 + 4096 * ctx + off < 0x200000 := by omega
  generalize 0x100000 + 4096 * ctx + off = a at h1 h2 hl hu ⊢
  have hb (k : Nat) (hk : k < 0x100000) : ¬(a == k) = true := beq_ne_true_of_lt (by omega)
  have hr' (lo hi : Nat) (hk : hi ≤ 0x100000) : ¬(decide (lo ≤ a) && decide (a < hi)) = true := not_range_of_le (by omega)
  unfold State.regRead
  dsimp only
  rw [if_neg (hb _ (by decide)), if_neg (hr' _ _ (by decide)), hr, if_neg Bool.false_ne_true, if_neg (hb _ (by decide)), if_neg (hb _ (by decide)),
    if_neg (hb _ (by decide)), if_neg (hb _ (by decide)), if_neg (hb _ (by decide)), if_neg (hb _ (by decide)), if_neg (hb _ (by decide)),
    if_neg (hr' _ _ (by decide)), if_neg (hr' _ _ (by decide)), if_neg (hr' _ _ (by decide)), if_neg (hb _ (by decide)), if_neg (hb _ (by decide)),
    if_neg (hb _ (by decide)), if_neg (hr' _ _ (by decide)), if_neg (hr' _ _ (by decide)), if_pos (range_of_le_of_lt hl hu), h1, h2]


/-- A launch queue's block. -/
theorem State.regRead_queue (s : State) (q off : Nat) (hr : s.pkg.inRecovery = false) (hq : q < 64) (ho : off < 32) :
    s.regRead (0x800 + 32 * q + off) = s.pkg.queueReg q off := by
  have h1 : (0x800 + 32 * q + off - 0x800) / 32 = q := by omega
  have h2 : (0x800 + 32 * q + off) % 32 = off := by omega
  have hl : 0x800 ≤ 0x800 + 32 * q + off := by omega
  have hu : 0x800 + 32 * q + off < 0x1000 := by omega
  generalize 0x800 + 32 * q + off = a at h1 h2 hl hu ⊢
  have hb (k : Nat) (hk : k < 0x800) : ¬(a == k) = true := beq_ne_true_of_lt (by omega)
  unfold State.regRead
  dsimp only
  rw [if_neg (hb _ (by decide)), if_neg (not_range_of_lt hu), hr, if_neg Bool.false_ne_true, if_neg (hb _ (by decide)), if_neg (hb _ (by decide)),
    if_neg (hb _ (by decide)), if_neg (hb _ (by decide)), if_neg (hb _ (by decide)), if_neg (hb _ (by decide)), if_neg (hb _ (by decide)),
    if_pos (range_of_le_of_lt hl hu), h1, h2]

/-- The routing table. -/
theorem State.regRead_routing (s : State) (i : Nat) (hr : s.pkg.inRecovery = false) (hi : i < 1024) :
    s.regRead (0x2000 + 8 * i) = s.pkg.routing.get 0 i := by
  have h1 : (0x2000 + 8 * i - 0x2000) / 8 = i := by omega
  have hl : 0x2000 ≤ 0x2000 + 8 * i := by omega
  have hu : 0x2000 + 8 * i < 0x4000 := by omega
  generalize 0x2000 + 8 * i = a at h1 hl hu ⊢
  have hb (k : Nat) (hk : k < 0x2000) : ¬(a == k) = true := beq_ne_true_of_lt (by omega)
  have hr' (lo hi : Nat) (hk : hi ≤ 0x2000) : ¬(decide (lo ≤ a) && decide (a < hi)) = true := not_range_of_le (by omega)
  unfold State.regRead
  dsimp only
  rw [if_neg (hb _ (by decide)), if_neg (hr' _ _ (by decide)), hr, if_neg Bool.false_ne_true, if_neg (hb _ (by decide)), if_neg (hb _ (by decide)),
    if_neg (hb _ (by decide)), if_neg (hb _ (by decide)), if_neg (hb _ (by decide)), if_neg (hb _ (by decide)), if_neg (hb _ (by decide)),
    if_neg (hr' _ _ (by decide)), if_pos (range_of_le_of_lt hl hu), h1]

theorem inRecovery_reset : State.reset.pkg.inRecovery = false := rfl

/-- Contexts do not differ after reset, nor do queues. -/
theorem ctxReg_reset_eq (ctx off : Nat) : State.reset.ctxReg ctx off = State.reset.ctxReg 0 off := rfl
theorem queueReg_reset_eq (q off : Nat) : State.reset.pkg.queueReg q off = State.reset.pkg.queueReg 0 off := rfl

theorem ctxReg_reset : ∀ r ∈ contextReset, State.reset.ctxReg 0 r.1 = r.2 := by decide
theorem queueReg_reset : ∀ r ∈ queueReset, State.reset.pkg.queueReg 0 r.1 = r.2 := by decide
theorem packageReg_reset : ∀ r ∈ packageReset, State.reset.regRead r.1 = r.2 := by decide

theorem contextReset_lt : ∀ r ∈ contextReset, r.1 < 4096 := by decide
theorem queueReset_lt : ∀ r ∈ queueReset, r.1 < 32 := by decide

/-- Settles O60: a block of window A reads its context's, queue's or package's registers, and each of those is its reset value. -/
theorem resetState : Obligations.ResetState := by
  unfold Obligations.ResetState
  refine ⟨fun ctx r hc hr => ?_, fun q r hq hr => ?_, packageReg_reset, fun i hi => ?_, rfl, rfl, rfl, rfl, rfl, rfl, rfl, rfl, rfl⟩
  · rw [State.regRead_ctx _ _ _ inRecovery_reset hc (contextReset_lt r hr), ctxReg_reset_eq]
    exact ctxReg_reset r hr
  · rw [State.regRead_queue _ _ _ inRecovery_reset hq (queueReset_lt r hr), queueReg_reset_eq]
    exact queueReg_reset r hr
  · rw [State.regRead_routing _ _ inRecovery_reset hi]
    rfl

end Sys2Proof.Machine
end

section
/-! PROOFS. Loads (O31). -/
set_option maxRecDepth 100000

namespace Sys2Proof.Machine

open Sys2Proof.Claims


/-! ### Faults of an access: their records and their lanes -/

theorem State.recMask_nil (s : State) : s.recMask [] = [] := by
  unfold State.recMask
  split <;> rfl

/-- Without a fault nothing is recorded. -/
theorem State.noteFlts_nil (s : State) (acc : Acc) (width : Nat) : s.noteFlts acc width [] = some (s, none, 0) := by
  unfold State.noteFlts
  rw [State.recMask_nil]
  rfl

theorem waitsOf_eq_nil {fs : List (Mask × Nat × Fate)} (h : ∀ x ∈ fs, ∀ id, x.2.2 ≠ .wait id) : waitsOf fs = [] := by
  rw [waitsOf, List.filterMap_eq_nil_iff]
  intro x hx
  split
  · rename_i id e
    exact absurd e (h x hx id)
  · rfl

theorem fltsOf_eq_nil {fs : List (Mask × Nat × Fate)} (h : ∀ x ∈ fs, ∀ y, x.2.2 ≠ .flt y) : fltsOf fs = [] := by
  rw [fltsOf, List.filterMap_eq_nil_iff]
  intro x hx
  split
  · rename_i y e
    exact absurd e (h x hx y)
  · rfl

theorem State.failsOf_eq_nil (s : State) {fs : List (Mask × Nat × Fate)} (h : ∀ x ∈ fs, ∀ f, x.2.2 ≠ .fail f) : s.failsOf fs = [] := by
  rw [State.failsOf, List.flatMap_eq_nil_iff]
  intro x hx
  split
  · rename_i f e
    exact absurd e (h x hx f)
  · rfl

theorem ne_wait_of_allRead {fs : List (Mask × Nat × Fate)} (h : allRead fs) : ∀ x ∈ fs, ∀ id, x.2.2 ≠ .wait id := fun x hx id e => by
  obtain ⟨_, h⟩ | ⟨_, h⟩ := h x hx <;> rw [h] at e <;> cases e
theorem ne_flt_of_allRead {fs : List (Mask × Nat × Fate)} (h : allRead fs) : ∀ x ∈ fs, ∀ y, x.2.2 ≠ .flt y := fun x hx y e => by
  obtain ⟨_, h⟩ | ⟨_, h⟩ := h x hx <;> rw [h] at e <;> cases e
theorem ne_fail_of_allRead {fs : List (Mask × Nat × Fate)} (h : allRead fs) : ∀ x ∈ fs, ∀ f, x.2.2 ≠ .fail f := fun x hx f e => by
  obtain ⟨_, h⟩ | ⟨_, h⟩ := h x hx <;> rw [h] at e <;> cases e

theorem State.orWait_of_drained (s : State) {need : Bool} {scope : Scope} (d : Did) (h : drained need s scope) : s.orWait need scope d = d := by
  unfold State.orWait
  cases need with
  | false => rfl
  | true => rw [h rfl]; rfl

/-! ### Loads that complete -/

/-- What a load's effect does once its reads are known. -/
def State.loadEffect (s : State) (f : MF) (fs : List (Mask × Nat × Fate)) : Did :=
  if !(waitsOf fs).isEmpty then .stall s (.remote (waitsOf fs))
  else
    match s.noteFlts .load f.width.code (fltsOf fs) with
    | none => .stall s .fault
    | some (v, seq, n) =>
      let x := (v.guardTouch .load f.width.code (guardsOf fs)).modG (deliverFates f fs)
      let r := if (fltsOf fs).isEmpty then (x, []) else x.origin f.d (dataRegs f) (faultLanes fs) seq n
      .done ((r.1.sampledIf f.a .load).afterRead f.ord f.scope) (r.1.failsOf fs ++ r.2)

/-- A load's operation in an issue that no earlier write of the core holds up. -/
def State.loadDid (s : State) (f : MF) (kspace : Bool) (act : Mask) : Did :=
  let b := s.beforeRead f.ord f.scope
  b.orWait (isSc f.ord) f.scope <|
    (b.fates (accessOf f .load kspace) f.width.code (fun _ _ => none) true (b.shares act f.d.isS)).1.loadEffect f
      (b.fates (accessOf f .load kspace) f.width.code (fun _ _ => none) true (b.shares act f.d.isS)).2

theorem State.loadOp_eq (s : State) (h : Bool) (p : Pred) (f : MF) (kspace : Bool) :
    s.loadOp h p f kspace = s.perform h p (s.opsOk [(f.d, dataRegs f), (f.a, 1), (f.b, 1)]) fun s act => s.loadDid f kspace act := rfl

/-- The reads of a load whose earlier writes have performed come at once. -/
theorem State.loadDid_of_drained {s u : State} {f : MF} {kspace : Bool} {act : Mask} {fs : List (Mask × Nat × Fate)}
    (hd : drained (f.ord == .sc) (s.beforeRead f.ord f.scope) f.scope)
    (e : (s.beforeRead f.ord f.scope).fates (accessOf f .load kspace) f.width.code (fun _ _ => none) true
      ((s.beforeRead f.ord f.scope).shares act f.d.isS) = (u, fs)) : s.loadDid f kspace act = u.loadEffect f fs := by
  unfold State.loadDid
  dsimp only
  rw [e]
  exact State.orWait_of_drained _ _ hd

/-- What a load that reads every byte leaves. -/
theorem State.loadEffect_of_allRead (u : State) (f : MF) {fs : List (Mask × Nat × Fate)} (h : allRead fs) :
    u.loadEffect f fs =
      .done ((((u.guardTouch .load f.width.code (guardsOf fs)).modG (deliverFates f fs)).sampledIf f.a .load).afterRead f.ord f.scope) [] := by
  unfold State.loadEffect
  rw [waitsOf_eq_nil (ne_wait_of_allRead h), fltsOf_eq_nil (ne_flt_of_allRead h), State.noteFlts_nil]
  simp [State.failsOf_eq_nil _ (ne_fail_of_allRead h)]

theorem exec_load {i : Instr} {p : Pred} {f : MF} {kspace : Bool} (h : loadRow i = some (p, f, kspace)) (s : State) :
    ∃ hb, exec i s = s.loadOp hb p f kspace := by
  unfold loadRow at h
  split at h <;> cases h
  · exact ⟨_, rfl⟩
  · exact ⟨_, rfl⟩
  · exact ⟨_, rfl⟩

theorem loadCompletes_of_row {i : Instr} {p : Pred} {f : MF} {kspace : Bool} (h : loadRow i = some (p, f, kspace)) (s : State) :
    loadCompletes i p f kspace s := by
  intro u fs hr hd e ha t ht
  obtain ⟨hb, he⟩ := exec_load h s
  rw [he, State.loadOp_eq]
  refine State.perform_done s hb p _ _ hr t ?_ ht
  rw [State.loadDid_of_drained hd e]
  exact State.loadEffect_of_allRead u f ha

theorem handlerLoadCompletes_ld (p : Pred) (f : MF) (s : State) : handlerLoadCompletes p f s := by
  intro u fs hr hs hc b hd e ha t ht
  have he : exec (.ld p f) s = s.loadOp true p f false := by rw [← hs]; rfl
  rw [he, State.loadOp_eq]
  refine State.perform_runsH s p _ _ hr ?_ t ?_ ht
  · rw [dataRegs, if_pos hs]
    exact hc
  · have hd' : s.atHandler.loadDid f false 0#64 = u.loadEffect f fs := State.loadDid_of_drained hd (by rw [hs]; exact e)
    rw [hd']
    exact State.loadEffect_of_allRead u f ha

/-! ### Loads that meet faults -/

theorem bitMask_ne_zero {l : Nat} (h : l < 64) : bitMask l ≠ 0#64 := by
  unfold bitMask
  intro e
  have := congrArg BitVec.toNat e
  rw [BitVec.toNat_ofNat, Nat.mod_eq_of_lt (Nat.pow_lt_pow_right (by decide) h)] at this
  exact absurd this (by positivity)

/-- Each lane that an access is performed for names a mask with a lane in it. -/
theorem State.shares_mask_ne_zero (s : State) {act : Mask} (once : Bool) (ha : act ≠ 0#64) : ∀ x ∈ s.shares act once, x.1 ≠ 0#64 := by
  unfold State.shares
  intro x hx
  split at hx
  · rw [List.mem_singleton] at hx
    rw [hx]
    exact ha
  · obtain ⟨l, hl, rfl⟩ := List.mem_map.mp hx
    exact bitMask_ne_zero (BitVec.lt_of_getLsbD (List.mem_filter.mp hl).2)

/-- A fault names the lanes that its access is performed for. -/
def Fate.Names (m : Mask) (x : Fate) : Prop := ∀ y, x = .flt y → y.mask = m

theorem State.names_memFate (s : State) (m : Mask) (l va bs w) : (s.memFate m l va bs w).Names m := by
  cases w <;> intro y e <;> cases e
  rfl

theorem State.names_remoteLoad (s : State) (x : Access) (m : Mask) (l width va pa cp) : (s.remoteLoad x m l width va pa cp).2.Names m := by
  unfold State.remoteLoad
  dsimp only
  split
  · intro y e; cases e
  · split
    · split
      · exact State.names_memFate s m l va _ _
      · intro y e; cases e; rfl
    · split <;> intro y e <;> cases e

theorem State.names_loadAt (s : State) (x : Access) (m : Mask) (l width p) : (s.loadAt x m l width p).2.Names m := by
  cases p with
  | guard off => intro y e; cases e
  | scr t off =>
    unfold State.loadAt
    dsimp only
    split <;> intro y e <;> cases e
    rfl
  | mem va pa cp =>
    unfold State.loadAt
    dsimp only
    split
    · exact State.names_memFate _ m l va _ _
    · exact State.names_remoteLoad s x m l width va pa cp

theorem State.names_loadLogged (s : State) (x : Access) (m : Mask) (l width p) : (s.loadLogged x m l width p).2.Names m := by
  unfold State.loadLogged
  split
  · intro y e; cases e
  · exact State.names_loadAt s x m l width p

/-- Every fault of an access names a lane. -/
theorem State.fates_mask_ne_zero (s : State) (x : Access) (width : Nat) (poi) (read : Bool) (xs : List (Mask × Nat)) (hx : ∀ y ∈ xs, y.1 ≠ 0#64) :
    ∀ z ∈ (s.fates x width poi read xs).2, ∀ y, z.2.2 = .flt y → y.mask ≠ 0#64 := by
  unfold State.fates
  refine List.foldlRecOn (motive := fun a : State × List (Mask × Nat × Fate) => ∀ z ∈ a.2, ∀ y, z.2.2 = .flt y → y.mask ≠ 0#64) _ _
    (fun z hz => absurd hz List.not_mem_nil) fun a ha m hm z hz y e => ?_
  rcases List.mem_append.mp hz with hz | hz
  · exact ha z hz y e
  · rw [List.mem_singleton] at hz
    subst hz
    dsimp only at e
    split at e
    · cases e
    · cases e
      exact hx m hm
    · split at e
      · rw [State.names_loadLogged _ _ _ _ _ _ y e]
        exact hx m hm
      · split at e <;> cases e

theorem foldl_or_ne_zero {l : List LaneFlt} {y : LaneFlt} (hy : y ∈ l) (hm : y.mask ≠ 0#64) : l.foldl (fun m y => m ||| y.mask) 0#64 ≠ 0#64 := by
  have key : ∀ (l : List LaneFlt) (a : Mask) (i : Nat), (l.foldl (fun m y => m ||| y.mask) a).getLsbD i = (a.getLsbD i || l.any fun y => y.mask.getLsbD i) := by
    intro l
    induction l with
    | nil => simp
    | cons x l ih => intro a i; rw [List.foldl_cons, ih]; simp [Bool.or_assoc]
  obtain ⟨i, hi⟩ : ∃ i, y.mask.getLsbD i = true := by
    by_contra hn
    exact hm (BitVec.eq_of_getLsbD_eq fun i _ => by simpa using (not_exists.mp hn i))
  intro h0
  have := key l 0#64 i
  rw [h0, List.any_eq_true.mpr ⟨y, hy, hi⟩] at this
  simp at this

/-- A load that meets faults poisons a lane. -/
theorem faultLanes_ne_zero {fs : List (Mask × Nat × Fate)} (hm : ∀ z ∈ fs, ∀ y, z.2.2 = .flt y → y.mask ≠ 0#64) (hn : fltsOf fs ≠ []) :
    faultLanes fs ≠ 0#64 := by
  obtain ⟨y, hy⟩ := List.exists_mem_of_ne_nil _ hn
  refine foldl_or_ne_zero hy ?_
  obtain ⟨z, hz, e⟩ := List.mem_filterMap.mp hy
  split at e
  · rename_i e'
    cases e
    exact hm z hz _ e'
  · cases e

/-- Faulting lanes of an issue of lanes that name a lane: they take poison under a new entry, or none is free (R37, R418). -/
theorem State.origin_some {x : State} {d : Opnd} {k : Nat} {m : Mask} {seq : Option W32} {n : Nat} (hm : m ≠ 0#64) (hf : x.ptFree.isSome = true) :
    x.origin d k m seq n = (((x.poisonDest d k m).logIn .load 0 (leBytes 8 m.toNat) [true]).ptMake d k m seq, []) := by
  have hn : x.ptFree.isNone = false := by rw [Option.isNone_eq_false_iff]; exact hf
  simp [State.origin, hm, hn]

theorem State.origin_none {x : State} {d : Opnd} {k : Nat} {m : Mask} {seq : Option W32} {n : Nat} (hm : m ≠ 0#64) (hf : x.ptFree = none) :
    x.origin d k m seq n = (x, failAll x.g m { cause := 0x0007, info := (seq.getD 0).toNat + 2 ^ 32 * (n % 65536) }) := by
  simp [State.origin, hm, hf, cTableFull]

theorem loadFaultsHold_of_rows : loadFaultsHold := by
  intro i p f kspace s u fs hi hr b hd e ho hn
  obtain ⟨hb, he⟩ := exec_load hi s
  have hm : faultLanes fs ≠ 0#64 := by
    refine faultLanes_ne_zero (fun z hz => ?_) hn
    have hz' : z ∈ (b.fates (accessOf f .load kspace) f.width.code (fun _ _ => none) true (b.shares (s.allowed p) f.d.isS)).2 := by rw [e]; exact hz
    exact State.fates_mask_ne_zero _ _ _ _ _ _ (State.shares_mask_ne_zero _ _ hr.2.1) z hz'
  have hw : waitsOf fs = [] := waitsOf_eq_nil fun x hx => (ho x hx).2
  have hfl : ∀ v : State, v.failsOf fs = [] := fun v => State.failsOf_eq_nil v fun x hx => (ho x hx).1
  have hE : (fltsOf fs).isEmpty = false := by rw [List.isEmpty_eq_false_iff]; exact hn
  rw [he, State.loadOp_eq, State.perform_runs s hb p _ _ hr, State.loadDid_of_drained hd e]
  refine ⟨fun h0 => ?_, fun v seq n h0 => ?_⟩
  · simp only [State.loadEffect, hw, h0]
    rfl
  · intro x m
    have hl : u.loadEffect f fs = .done (((x.origin f.d (dataRegs f) m seq n).1.sampledIf f.a .load).afterRead f.ord f.scope)
        (x.origin f.d (dataRegs f) m seq n).2 := by
      simp only [State.loadEffect, hw, h0, hE, hfl]
      rfl
    rw [hl]
    refine ⟨?_, ?_⟩
    · intro hf y t ht
      rw [State.origin_some hm hf]
      exact State.conclude_done s t ht
    · intro hf t ht
      rw [State.origin_none hm hf]
      exact State.conclude_fails s t _ ht

/-! ### Poisoned destinations and their entries -/

theorem bankGet_foldl_put {α : Type} (d : α) (n b : Nat) (f : Nat → α) (v : List α) (j : Nat) :
    bankGet ((List.range n).foldl (fun v j => bankPut d v (b + j) (f j)) v) d j = if b ≤ j ∧ j < b + n then f (j - b) else bankGet v d j := by
  induction n with
  | zero => simp
  | succ n ih =>
    rw [List.range_succ, List.foldl_append]
    simp only [List.foldl_cons, List.foldl_nil, bankGet_put]
    by_cases h : b + n = j
    · subst h
      simp
    · rw [if_neg h, ih]
      by_cases h' : b ≤ j ∧ j < b + n
      · rw [if_pos h', if_pos (by omega)]
      · rw [if_neg h', if_neg (by omega)]

theorem Grp.mem_lanesOf (g : Grp) (m : Mask) (l : Nat) : l ∈ g.lanesOf m ↔ l < g.gw ∧ m.getLsbD l = true := by
  simp [Grp.lanesOf, Grp.laneIdx]

/-- Registers put to a v destination from its first on. -/
theorem Lane.putRegs_v (x : Lane) (wb : Nat) (i : Fin 64) (rs : List Reg) (j : Nat) (hj : j < rs.length) :
    bankGet (x.putRegs wb (.v i) rs).v {} (wb + (i.val + j)) = rs.getD j {} := by
  have h : wb + i.val ≤ wb + (i.val + j) ∧ wb + (i.val + j) < wb + i.val + rs.length := by omega
  rw [Lane.putRegs, bankGet_foldl_put _ _ _ (fun j => rs.getD j {}), if_pos h]
  congr 1
  omega

theorem Lane.putRegs_k (x : Lane) (wb : Nat) (i : Fin 8) (rs : List Reg) (j : Nat) (hj : j < rs.length) :
    bankGet (x.putRegs wb (.k i) rs).k {} (i.val + j) = rs.getD j {} := by
  have h : i.val ≤ i.val + j ∧ i.val + j < i.val + rs.length := by omega
  rw [Lane.putRegs, bankGet_foldl_put _ _ _ (fun j => rs.getD j {}), if_pos h]
  congr 1
  omega

theorem tab_length {α : Type} (n : Nat) (f : Nat → α) : (tab n f).length = n := by
  simp [tab]

theorem tab_getD {α : Type} {n j : Nat} (f : Nat → α) (d : α) (h : j < n) : (tab n f).getD j d = f j := by
  simp [tab, h]

theorem State.poisonDest_of_laneDest (s : State) {d : Opnd} (k : Nat) (m : Mask) (h : laneDest d = true) :
    s.poisonDest d k m = s.setG (s.g.modLanes (s.g.lanesOf m) fun l x => x.putRegs s.g.wb d (tab k (s.poisonReg l))) := by
  cases d with
  | v i => rfl
  | k i => rfl
  | _ => cases h

/-- A lane of the mask takes k poisoned registers, and no other lane changes. -/
theorem State.lane_poisonDest (s : State) {d : Opnd} (k : Nat) (m : Mask) (h : laneDest d = true) (l : Nat) :
    (s.poisonDest d k m).g.lane l =
      if l < s.g.gw ∧ m.getLsbD l = true then (s.g.lane l).putRegs s.g.wb d (tab k (s.poisonReg l)) else s.g.lane l := by
  rw [State.poisonDest_of_laneDest s k m h, State.g_setG, Grp.lane_modLanes _ _ _ (Grp.lanesOf_nodup _ _)]
  simp only [Grp.mem_lanesOf]

theorem State.wb_poisonDest (s : State) {d : Opnd} (k : Nat) (m : Mask) (h : laneDest d = true) : (s.poisonDest d k m).g.wb = s.g.wb := by
  rw [State.poisonDest_of_laneDest s k m h, State.g_setG, Grp.modLanes_wb]

/-- The lowest free entry number has none below it free. -/
theorem State.ptFree_spec {s : State} {e : Nat} (h : s.ptFree = some e) : e < 8 ∧ s.ptEntry e = none ∧ ∀ j, j < e → s.ptEntry j ≠ none := by
  unfold State.ptFree at h
  obtain ⟨he, a, b, hl, hb⟩ := List.find?_eq_some_iff_append.mp h
  have hm : e ∈ List.range 8 := List.mem_of_find?_eq_some h
  refine ⟨List.mem_range.mp hm, by simpa using he, fun j hj hn => ?_⟩
  have hj8 : j ∈ List.range 8 := List.mem_range.mpr (hj.trans (List.mem_range.mp hm))
  have hsort : (a ++ e :: b).Pairwise (· < ·) := hl ▸ List.pairwise_lt_range
  rw [hl] at hj8
  rcases List.mem_append.mp hj8 with h1 | h1
  · simpa [hn] using hb j h1
  · rcases List.mem_cons.mp h1 with h2 | h2
    · omega
    · have := (List.pairwise_cons.mp (List.pairwise_append.mp hsort).2.1).1 j h2
      omega

theorem State.ptEntry_setPtab (s : State) (t : List (Option PtEntry)) (j : Nat) : (s.setPtab t).ptEntry j = bankGet t none j := by
  unfold State.ptEntry State.ptab
  rw [State.g_setPtab]
  simp [State.setPtab, State.modT, State.t, State.setT, State.setTeamAt, State.teamAt, KMap.get_set]

/-- The entry that an origin instruction makes (R418). -/
def State.newEntry (s : State) (d : Opnd) (k : Nat) (m : Mask) (seq : Option W32) : PtEntry :=
  { isV := d.isV, reg := d.byte.toNat, n := k, mask := m <<< s.g.base, seq := seq.getD 0xFFFFFFFF#32, pc := s.g.iss.pc, bb := s.g.iss.bb }

theorem State.ptMake_eq {s : State} {e : Nat} (d : Opnd) (k : Nat) (m : Mask) (seq : Option W32) (he : s.ptFree = some e) :
    s.ptMake d k m seq = s.setPtab (bankPut none s.ptab e (some (s.newEntry d k m seq))) := by
  unfold State.ptMake
  rw [he]
  rfl

theorem poisonEntriesHold_all : poisonEntriesHold := by
  intro s d k m seq
  refine ⟨fun l hl hm j hj => ⟨fun i hd => ?_, fun i hd => ?_⟩, fun h l hm => ?_, fun i hd hh => ?_, fun e he => ?_⟩
  · subst hd
    rw [Grp.vReg, State.wb_poisonDest s k m rfl, State.lane_poisonDest s k m rfl, if_pos ⟨hl, hm⟩, Lane.putRegs_v _ _ _ _ _ (by rwa [tab_length]),
      tab_getD _ _ hj]
    rfl
  · subst hd
    rw [Grp.kReg, State.lane_poisonDest s k m rfl, if_pos ⟨hl, hm⟩, Lane.putRegs_k _ _ _ _ _ (by rwa [tab_length]), tab_getD _ _ hj]
    rfl
  · rw [State.lane_poisonDest s k m h, if_neg]
    rw [hm]
    exact fun h => absurd h.2 Bool.false_ne_true
  · subst hd
    simp [State.poisonDest, Grp.putS, Grp.sVal, hh, Grp.setSreg, Grp.sreg, bankGet_put]
  · obtain ⟨h8, -, hlow⟩ := State.ptFree_spec he
    rw [State.ptMake_eq d k m seq he]
    refine ⟨h8, hlow, fun j hj => ?_, ?_⟩
    · rw [State.ptEntry_setPtab, bankGet_put, if_neg (Ne.symm hj)]
      rfl
    · rw [State.ptEntry_setPtab, bankGet_put, if_pos rfl]
      rfl

/-- Settles O31: the effect of a load is its reads and what becomes of their faults; a fault always names a lane, so that one is poisoned. -/
theorem loads : Obligations.Loads := by
  unfold Obligations.Loads
  exact ⟨fun p f s => ⟨loadCompletes_of_row rfl s, loadCompletes_of_row rfl s, loadCompletes_of_row rfl s, handlerLoadCompletes_ld p f s⟩,
    loadFaultsHold_of_rows, poisonEntriesHold_all⟩

end Sys2Proof.Machine
end

section
/-! PROOFS. Stores to the scratchpad (O33): refuted. -/
set_option maxRecDepth 100000

namespace Sys2Proof.Machine

open Sys2Proof.Claims


/-! ### An issue set that names no lane of its group

The statements on stores range over every state. `accessLanes` lists the lanes of the group alone, but an access with uniform data is
performed once for any set that is not empty (`State.shares`), for lane 0 where the group has none of its lanes. -/

/-- A resident group of eight lanes whose issue set names lane 8 alone. It holds a translation register for a page of its own HBM, and
4 KiB of scratchpad. -/
def strayIssue : State :=
  { ctxs := [(0, { root := 1 })]
    cores := [(0, {})]
    grids := [(0, { phase := .running, lrec := { gw0 := 8, nteam := 1, trapv := 0x1000, scratch := 4096 } })]
    teams := [(0, { phase := .resident, groups := [0], size := 4096 })]
    groups := [(0, { gw := 8, lanes := List.replicate 8 {}, spillLen := 4096, iss := { pc := 8, set := 0x100 },
                     s := [⟨0xAB, false⟩], a := [{ valid := true, pbase := 0x5000, limit := 0x1000, attr := 0x10 }] })] }
/-- The predicate that every lane passes. -/
def anyLane : Pred := ⟨0, false⟩
/-- A store of four bytes of s0, at offset 0. -/
def storeOfS0 (a : Opnd) : MF := ⟨.s 0, a, .const .zero, .grp, .rlx, .none, .b32, .none, 0⟩

theorem strayIssue_accessLanes (a : Opnd) : accessLanes strayIssue anyLane (storeOfS0 a).d = [] := rfl

theorem strayIssue_runs (chk : Nat → Bool) : strayIssue.Runs anyLane chk := by
  have hl : strayIssue.g.lanesOf (strayIssue.allowed anyLane) = [] := rfl
  refine ⟨rfl, by decide, by decide, fun l h => ?_⟩
  rw [hl] at h
  cases h

/-- The byte that the STS of s0 leaves at offset 0. -/
theorem strayIssue_sts : (match exec (.sts anyLane (storeOfS0 (.const .zero))) strayIssue with
    | .next t => memGet (t.teamAt 0).scr 0 | _ => 0) = 0xAB := by decide +kernel

/-- Refutes O33: with an issue set that names lane 8 of eight lanes, no lane is active, yet an STS of an s register writes its bytes. -/
theorem not_scratchpadAccess : ¬ Obligations.ScratchpadAccess := by
  unfold Obligations.ScratchpadAccess
  intro h
  obtain ⟨t, ht, -, -, -, hframe, -⟩ := h.1 anyLane (storeOfS0 (.const .zero)) strayIssue nofun rfl (strayIssue_runs _) (by decide)
    (fun l hl => absurd hl List.not_mem_nil) (by decide)
  have h0 := hframe 0 fun l hl => absurd hl List.not_mem_nil
  have h1 := strayIssue_sts
  rw [ht] at h1
  exact absurd (h0.symm.trans h1) (by decide)

end Sys2Proof.Machine
end

section
/-! PROOFS. Stores (O32): refuted. -/
set_option maxRecDepth 100000

namespace Sys2Proof.Machine

open Sys2Proof.Claims

/-- The access of the ST of s0, and what its checks find: one place in memory, with the set of the issue for its lanes. -/
def strayIssueFates : State × List (Mask × Nat × Fate) :=
  (eff strayIssue anyLane).fates (accessOf (storeOfS0 (.a 0)) .store false) Width.b32.code (dataPoison (storeOfS0 (.a 0))) false
    ((eff strayIssue anyLane).shares (strayIssue.allowed anyLane) true)

theorem strayIssueFates_eq : strayIssueFates.2 = [(0x100#64, 0, .at' (.mem 0 0x5000 0))] := by decide +kernel

theorem strayIssueFates_placed : allPlaced strayIssueFates.2 := by
  rw [strayIssueFates_eq]
  intro x hx
  rw [List.mem_singleton.mp hx]
  exact .inl ⟨_, rfl⟩

/-- The ST of s0 puts one entry into the write buffer of the core. -/
theorem strayIssue_st : (match exec (.st anyLane (storeOfS0 (.a 0))) strayIssue with
    | .next t => (t.coreAt 0).wbuf.length | _ => 0) = 1 := by decide +kernel

/-- Refutes O32: with an issue set that names lane 8 of eight lanes, no lane is active, yet an ST of an s register puts its bytes into the
write buffer. -/
theorem not_stores : ¬ Obligations.Stores := by
  unfold Obligations.Stores
  intro h
  obtain ⟨-, -, -, -, hframe, -, -⟩ := h
  obtain ⟨t, pas, ht, -, -, -, hbuf, -⟩ := hframe anyLane (storeOfS0 (.a 0)) strayIssue strayIssueFates.1 strayIssueFates.2 rfl rfl
    (by unfold noPartials; decide) (by decide) (strayIssue_runs _) rfl strayIssueFates_placed (by decide +kernel)
  have h0 := congrArg List.length hbuf
  have h1 := strayIssue_st
  rw [ht] at h1
  rw [strayIssue_accessLanes, List.length_map] at h0
  exact Nat.zero_ne_one (h0.symm.trans h1)

end Sys2Proof.Machine
end

section
/-! PROOFS. A home that no partial changes, as an access of a package's own units, its host or a peer finds it. -/
set_option maxRecDepth 100000

namespace Sys2Proof.Machine

open Sys2Proof.Claims


/-! ### A home that no core's partials change -/

theorem KMap.mem_of_find {α : Type} {m : KMap α} {k : Nat} {x : α} (h : KMap.find m k = some x) : (k, x) ∈ m := by
  induction m with
  | nil => cases h
  | cons e t ih =>
    obtain ⟨a, y⟩ := e
    by_cases ha : a = k
    · simp only [KMap.find, ha, if_true] at h
      cases h
      rw [ha]
      exact List.mem_cons_self
    · simp only [KMap.find, ha, if_false] at h
      exact List.mem_cons_of_mem _ (ih h)

/-- What a map gives for a key is an entry of it, or the default. -/
theorem KMap.get_eq_or_mem {α : Type} (m : KMap α) (d : α) (k : Nat) : KMap.get m d k = d ∨ (k, KMap.get m d k) ∈ m := by
  cases h : KMap.find m k with
  | none => exact .inl (by simp [KMap.get, h])
  | some x => exact .inr (by simpa [KMap.get, h] using KMap.mem_of_find h)

theorem State.l1_of_noPartials {s : State} (h : noPartials s) (k : Nat) : ∀ l ∈ (s.coreAt k).l1, l.isU = false := by
  rcases KMap.get_eq_or_mem s.cores CoreSt.empty k with e | e
  · rw [State.coreAt, e]
    exact fun l hl => absurd hl List.not_mem_nil
  · exact h _ e

theorem State.sendU_of_noPartials {s : State} (h : noPartials s) (k n : Nat) : s.sendU k n = s := by
  unfold State.sendU
  split
  · rename_i l hl
    rw [State.l1_of_noPartials h k l (List.mem_of_find?_eq_some hl)]
    rfl
  · rfl

theorem foldl_eq_self {σ α : Type} (f : σ → α → σ) (l : List α) (s : σ) (h : ∀ x ∈ l, f s x = s) : l.foldl f s = s := by
  induction l with
  | nil => rfl
  | cons x l ih =>
    rw [List.foldl_cons, h x List.mem_cons_self]
    exact ih fun y hy => h y (List.mem_cons_of_mem _ hy)

theorem State.gather_of_noPartials {s : State} (h : noPartials s) (n : Nat) : s.gather n = s :=
  foldl_eq_self _ _ _ fun k _ => State.sendU_of_noPartials h k n
theorem State.gatherRange_of_noPartials {s : State} (h : noPartials s) (pa n : Nat) : s.gatherRange pa n = s :=
  foldl_eq_self _ _ _ fun l _ => State.gather_of_noPartials h l
theorem State.gatherRing_of_noPartials {s : State} (h : noPartials s) (ctx : Nat) : s.gatherRing ctx = s :=
  State.gatherRange_of_noPartials h _ _

theorem State.meet_of_not_blocked {s : State} {pa n : Nat} {write : Bool} (h : s.blocked pa n write = false) : s.meet pa n write = s := by
  unfold State.meet
  rw [h]
  rfl

/-- A lock that keeps no write out keeps no read out. -/
theorem State.not_blocked_read {s : State} {pa n : Nat} (h : s.blocked pa n true = false) : s.blocked pa n false = false := by
  unfold State.blocked at h ⊢
  rw [Bool.and_eq_false_iff] at h ⊢
  refine h.imp_right fun h => ?_
  rw [List.any_eq_false] at h ⊢
  intro l hl hr
  refine h l hl ?_
  unfold State.lineHeld at hr ⊢
  rw [Bool.or_eq_true] at hr ⊢
  refine hr.imp (fun hr => ?_) (fun hr => ?_)
  · obtain ⟨e, he, hr⟩ := List.any_eq_true.mp hr
    refine List.any_eq_true.mpr ⟨e, he, ?_⟩
    split at hr
    · simp_all
    · cases hr
  · obtain ⟨e, he, hr⟩ := List.any_eq_true.mp hr
    exact List.any_eq_true.mpr ⟨e, he, by simp_all⟩

/-! ### What an access does to the LLC is all that it does to the package -/

/-- The second state is the first with another LLC. -/
def State.OtherLlc (s t : State) : Prop :=
  ∃ (llc pinned : NSet) (fall : W32), t = s.modPkg fun p => { p with llc, pinned, pinFall := fall }

theorem State.OtherLlc.refl (s : State) : s.OtherLlc s := ⟨_, _, _, rfl⟩
theorem State.OtherLlc.trans {s t u : State} (h : s.OtherLlc t) (h' : t.OtherLlc u) : s.OtherLlc u := by
  obtain ⟨_, _, _, rfl⟩ := h
  obtain ⟨a, b, c, rfl⟩ := h'
  exact ⟨a, b, c, rfl⟩

theorem State.otherLlc_touchLlc (s : State) (pa cp : Nat) : s.OtherLlc (s.touchLlc pa cp) := by
  unfold State.touchLlc
  dsimp only
  split
  · exact .refl s
  · split
    · split
      · exact .refl s
      · split
        · exact ⟨_, _, _, rfl⟩
        · exact ⟨_, _, _, rfl⟩
    · exact ⟨_, _, _, rfl⟩

theorem State.otherLlc_touchRange (s : State) (pa n cp : Nat) : s.OtherLlc (s.touchRange pa n cp) :=
  List.foldlRecOn (motive := s.OtherLlc) _ _ (.refl s) fun t h _ _ => h.trans (t.otherLlc_touchLlc _ _)

/-- A read at home that no lock keeps out finds the bytes as they stand, with the marks of their words. -/
theorem State.homeBytes_clear {s : State} (hp : noPartials s) {pa n : Nat} (hb : s.blocked pa n false = false) (cp : Nat) :
    ∃ t, s.OtherLlc t ∧ s.homeBytes pa n cp = (t, ⟨s.hbm (paLocal pa) n, tab n fun i => s.memPoi.has ((paLocal pa + i) / 8)⟩) := by
  unfold State.homeBytes State.lockedRead
  rw [State.meet_of_not_blocked hb, State.gatherRange_of_noPartials hp]
  have h := s.otherLlc_touchRange pa n cp
  obtain ⟨a, b, c, e⟩ := h
  refine ⟨s.touchRange pa n cp, ⟨a, b, c, e⟩, ?_⟩
  dsimp only
  rw [e]
  rfl

theorem State.hbmPoison_eq (s : State) (ws : List Nat) : ∃ m, s.hbmPoison ws false = { s with memPoi := m } := by
  refine List.foldlRecOn (motive := fun t : State => ∃ m, t = { s with memPoi := m }) _ _ ⟨_, rfl⟩ fun t h w _ => ?_
  obtain ⟨m, rfl⟩ := h
  dsimp only
  split
  · exact ⟨_, rfl⟩
  · exact ⟨_, rfl⟩

/-- A write at home that no lock keeps out and no spill region discards writes its bytes; what else changes is the LLC, and marks of
poison. -/
theorem State.homeWrite_clear {s : State} (hp : noPartials s) {pa : Nat} {bs : List Byte} (hb : s.blocked pa bs.length true = false)
    (hs : s.inSpillRegion (paLocal pa) = false) (cp : Nat) (poi : List Bool) :
    ∃ t m, s.OtherLlc t ∧ s.homeWrite pa cp bs poi = { t with mem := memWrite s.mem (paLocal pa) bs, memPoi := m } := by
  have h := s.otherLlc_touchRange pa bs.length cp
  unfold State.homeWrite State.lockedWrite
  rw [State.meet_of_not_blocked hb, State.gatherRange_of_noPartials hp]
  generalize s.touchRange pa bs.length cp = t at h
  obtain ⟨m, hm⟩ := (t.hbmWrite (paLocal pa) bs).hbmPoison_eq (markedWords (paLocal pa) bs.length poi)
  have ht : t.inSpillRegion (paLocal pa) = false ∧ t.mem = s.mem := by
    obtain ⟨_, _, _, rfl⟩ := h
    exact ⟨hs, rfl⟩
  refine ⟨t, m, h, ?_⟩
  dsimp only
  rw [ht.1, if_neg Bool.false_ne_true, hm, State.hbmWrite, ht.2]

end Sys2Proof.Machine
end

section
/-! PROOFS. A peer's access at the home of its bytes. -/
set_option maxRecDepth 100000

namespace Sys2Proof.Machine

open Sys2Proof.Claims


/-! ### A peer's access -/

theorem NSet.has_iff {m : NSet} {w : Nat} : m.has w = true ↔ w ∈ m := by simp [NSet.has]

/-- Bytes of local memory hold a poisoned word where one of them lies in it (R71). -/
theorem State.hbmPoi_eq_bad (s : State) (a : Nat) {n : Nat} (hn : 0 < n) (bs : List Byte) :
    s.hbmPoi a n = Bytes.bad ⟨bs, tab n fun i => s.memPoi.has ((a + i) / 8)⟩ := by
  rw [Bool.eq_iff_iff]
  simp only [State.hbmPoi, Bytes.bad, tab, List.any_eq_true, List.mem_map, List.mem_range, id, decide_eq_true_eq, Bool.and_eq_true]
  constructor
  · rintro ⟨w, hw, h1, h2⟩
    refine ⟨true, ⟨8 * w - a, by omega, ?_⟩, rfl⟩
    rw [NSet.has_iff]
    have : (a + (8 * w - a)) / 8 = w := by omega
    rwa [this]
  · rintro ⟨_, ⟨i, hi, h⟩, rfl⟩
    exact ⟨_, NSet.has_iff.mp h, by omega, by omega⟩

theorem leBytes_length (n x : Nat) : (leBytes n x).length = n := by
  induction n generalizing x with
  | zero => rfl
  | succ n ih => simp [leBytes, ih]

/-- An access of a peer that nobody waits before is tried at once. -/
theorem execRemoteAccessArrival_of_tried {s t : State} {acc : PeerAccess} (hw : s.pkg.waiting = [])
    (h : State.peerTry { s with order := s.order + 1 } acc s.order = some t) : exec (.remoteAccessArrival acc) s = .next t := by
  change (show Out from match (if peerBehind acc s.pkg.waiting then none else State.peerTry { s with order := s.order + 1 } acc s.order) with
    | some t => .next t
    | none => _) = _
  have hb : peerBehind acc s.pkg.waiting = false := by simp [hw, peerBehind]
  rw [hb, if_neg Bool.false_ne_true, h]

/-- One that is kept out waits, and does nothing else. -/
theorem execRemoteAccessArrival_of_held {s : State} {acc : PeerAccess} (hw : s.pkg.waiting = [])
    (h : State.peerTry { s with order := s.order + 1 } acc s.order = none) :
    ∃ t, exec (.remoteAccessArrival acc) s = .next t ∧ t.mem = s.mem ∧ t.pkg.waiting = [.peer acc s.order] := by
  refine ⟨State.modPkg { s with order := s.order + 1 } fun p => { p with waiting := p.waiting ++ [.peer acc s.order] }, ?_, rfl, ?_⟩
  · change (show Out from match (if peerBehind acc s.pkg.waiting then none else State.peerTry { s with order := s.order + 1 } acc s.order) with
      | some t => .next t
      | none => _) = _
    rw [h, ite_self]
  · change s.pkg.waiting ++ _ = _
    rw [hw]
    exact List.nil_append _

/-- An access has a home: its bytes are local, and no lease of them has been taken back. -/
theorem State.peerVoid_eq_false {s : State} {acc : PeerAccess} (hl : s.isLocal acc.pa = true) (hr : s.reclaimed acc.pa = false)
    (hn : paLocal acc.pa + peerLen acc ≤ hbmSize) : s.peerVoid acc = false := by
  simp [State.peerVoid, hl, hr, Nat.not_lt.mpr hn]

theorem State.peerTry_of_held {s : State} {acc : PeerAccess} {o : Nat} (hv : s.peerVoid acc = false) (hh : s.peerHeld acc o = true) :
    s.peerTry acc o = none := by
  simp [State.peerTry, hv, hh]

theorem State.peerTry_of_performed {s : State} {acc : PeerAccess} {o : Nat} (hv : s.peerVoid acc = false) (hh : s.peerHeld acc o = false)
    (hm : (s.peerPerform acc).met = s.met) : s.peerTry acc o = some (s.peerPerform acc) := by
  simp only [State.peerTry, hv, hh, Bool.false_eq_true, if_false, hm, decide_true, Bool.true_or, if_true]
  rw [← hm]

/-- A peer that is no tile holds no lock, so its access is held as any access is. -/
theorem State.peerOwns_of_no_tile (s : State) {acc : PeerAccess} (h : acc.who = 0) (line : Nat) : s.peerOwns acc line = false := by
  simp [State.peerOwns, h]

/-- One that is let in performs at once. -/
theorem execRemoteAccessArrival_of_free {s : State} {acc : PeerAccess} (hw : s.pkg.waiting = []) (hl : s.isLocal acc.pa = true)
    (hr : s.reclaimed acc.pa = false) (hn : paLocal acc.pa + peerLen acc ≤ hbmSize) (hh : s.peerHeld acc s.order = false)
    (hm : (State.peerPerform { s with order := s.order + 1 } acc).met = s.met) :
    exec (.remoteAccessArrival acc) s = .next (State.peerPerform { s with order := s.order + 1 } acc) :=
  execRemoteAccessArrival_of_tried hw
    (State.peerTry_of_performed (s := { s with order := s.order + 1 }) (State.peerVoid_eq_false (s := { s with order := s.order + 1 }) hl hr hn) hh hm)

/-- An access other than a lock, of no tile, is held where a lock keeps its bytes. -/
theorem State.peerHeld_eq_blocked {s : State} {acc : PeerAccess} (hl : s.isLocal acc.pa = true) (hw : acc.who = 0) (h1 : acc.kind ≠ .unlock)
    (h2 : ∀ x, acc.kind ≠ .lock x) (o : Nat) : s.peerHeld acc o = s.blocked acc.pa (peerLen acc) (peerWrites acc.kind) := by
  unfold State.peerHeld
  split
  · contradiction
  · exact absurd ‹_› (h2 _)
  · simp [State.peerOwns_of_no_tile s hw, State.blocked, hl]

/-! ### What a peer's access does at home -/

theorem State.peerPerform_read {s : State} (hp : noPartials s) {pa n : Nat} (hb : s.blocked pa n false = false) (who : Nat) :
    ∃ t, s.peerPerform { pa, n, kind := .read, who } = t ∧ t.met = s.met ∧ t.mem = s.mem ∧
      t.pkg.peerData = (s.hbm (paLocal pa) n, s.poiMarks (paLocal pa) n) := by
  obtain ⟨t, ⟨llc, pinned, fall, rfl⟩, e⟩ := State.homeBytes_clear hp hb noCp
  unfold State.peerPerform
  dsimp only
  rw [e]
  exact ⟨_, rfl, rfl, rfl, rfl⟩

theorem State.peerPerform_write {s : State} (hp : noPartials s) {pa n : Nat} {data : List Byte} {poi : List Bool}
    (hb : s.blocked pa data.length true = false) (hs : s.inSpillRegion (paLocal pa) = false) :
    ∃ t, s.peerPerform { pa, n, kind := .write data poi } = t ∧ t.met = s.met ∧ t.mem = memWrite s.mem (paLocal pa) data := by
  obtain ⟨t, m, ⟨llc, pinned, fall, rfl⟩, e⟩ := State.homeWrite_clear hp hb hs noCp poi
  unfold State.peerPerform
  dsimp only
  rw [State.peerOwns_of_no_tile s rfl, if_neg Bool.false_ne_true, e]
  exact ⟨_, rfl, rfl, rfl⟩

/-- A read-modify-write that meets a poisoned word changes nothing, and tells the word (R71, R319). -/
theorem State.peerRmw_bad {s : State} (hp : noPartials s) {acc : PeerAccess} (hn : 0 < acc.n) (hb : s.blocked acc.pa acc.n true = false)
    (hbad : s.hbmPoi (paLocal acc.pa) acc.n = true) (new : Nat → Option Nat) :
    ∃ t, s.peerRmw acc new = t ∧ t.met = s.met ∧ t.mem = s.mem ∧ t.pkg.peerData = ([], s.poiMarks (paLocal acc.pa) acc.n) := by
  obtain ⟨t, ⟨llc, pinned, fall, rfl⟩, e⟩ := State.homeBytes_clear hp (State.not_blocked_read hb) noCp
  rw [State.hbmPoi_eq_bad s _ hn (s.hbm (paLocal acc.pa) acc.n)] at hbad
  unfold State.peerRmw
  rw [e]
  dsimp only
  rw [if_pos hbad]
  exact ⟨_, rfl, rfl, rfl, rfl⟩

/-- One that meets none gives the old bytes, and writes the new value, if there is one. -/
theorem State.peerRmw_clear {s : State} (hp : noPartials s) {acc : PeerAccess} (hn : 0 < acc.n) (hb : s.blocked acc.pa acc.n true = false)
    (hs : s.inSpillRegion (paLocal acc.pa) = false) (hbad : s.hbmPoi (paLocal acc.pa) acc.n = false) (new : Nat → Option Nat) :
    ∃ t, s.peerRmw acc new = t ∧ t.met = s.met ∧ t.pkg.peerData = (s.hbm (paLocal acc.pa) acc.n, []) ∧
      t.mem = match new (ofLe (s.hbm (paLocal acc.pa) acc.n)) with
        | some v => memWrite s.mem (paLocal acc.pa) (leBytes acc.n v)
        | none => s.mem := by
  obtain ⟨t, ⟨llc, pinned, fall, rfl⟩, e⟩ := State.homeBytes_clear hp (State.not_blocked_read hb) noCp
  rw [State.hbmPoi_eq_bad s _ hn (s.hbm (paLocal acc.pa) acc.n)] at hbad
  unfold State.peerRmw
  rw [e]
  dsimp only
  rw [if_neg (Bool.eq_false_iff.mp hbad)]
  cases new (ofLe (s.hbm (paLocal acc.pa) acc.n)) with
  | none => exact ⟨_, rfl, rfl, rfl, rfl⟩
  | some v =>
    generalize hu : (s.modPkg fun p => { p with llc, pinned, pinFall := fall }) = u
    have hup : noPartials u := by rw [← hu]; exact hp
    have hub : u.blocked acc.pa (leBytes acc.n v).length true = false := by rw [leBytes_length, ← hu]; exact hb
    have hus : u.inSpillRegion (paLocal acc.pa) = false := by rw [← hu]; exact hs
    obtain ⟨t, m, ⟨llc', pinned', fall', rfl⟩, e'⟩ := State.homeWrite_clear hup hub hus noCp []
    dsimp only
    rw [e', ← hu]
    exact ⟨_, rfl, rfl, rfl, rfl⟩

theorem State.peerPerform_lock {s : State} (hp : noPartials s) {pa n who : Nat} (excl : Bool)
    (hb : s.blocked (128 * (pa / 128)) 128 false = false) :
    ∃ t, s.peerPerform { pa, n, kind := .lock excl, who } = t ∧ t.met = s.met ∧ t.mem = s.mem ∧
      t.pkg.peerLocks = s.pkg.peerLocks ++ [(pa / 128, excl, who)] ∧
      t.pkg.peerData = (s.hbm (paLocal (128 * (pa / 128))) 128, s.poiMarks (paLocal (128 * (pa / 128))) 128) := by
  obtain ⟨t, ⟨llc, pinned, fall, rfl⟩, e⟩ := State.homeBytes_clear hp hb noCp
  unfold State.peerPerform
  dsimp only
  rw [e]
  exact ⟨_, rfl, rfl, rfl, rfl, rfl⟩

end Sys2Proof.Machine
end

section
/-! PROOFS. Peers' reads, writes, atomics and locks. -/
set_option maxRecDepth 100000

namespace Sys2Proof.Machine

open Sys2Proof.Claims


/-! ### The words of a peer's CAS (R321) -/

theorem ofLe_lt (bs : List Byte) : ofLe bs < 256 ^ bs.length := by
  induction bs with
  | nil => exact Nat.one_pos
  | cons b bs ih =>
    have hb : b.toNat < 256 := b.isLt
    simp only [ofLe, List.foldr_cons, List.length_cons, Nat.pow_succ] at ih ⊢
    omega

theorem leBytes_ofLe (bs : List Byte) : leBytes bs.length (ofLe bs) = bs := by
  induction bs with
  | nil => rfl
  | cons b bs ih =>
    have hb : b.toNat < 256 := b.isLt
    have hd : (b.toNat + 256 * ofLe bs) / 256 = ofLe bs := by omega
    have hm : BitVec.ofNat 8 (b.toNat + 256 * ofLe bs) = b := by
      apply BitVec.eq_of_toNat_eq
      rw [BitVec.toNat_ofNat]
      omega
    change BitVec.ofNat 8 (b.toNat + 256 * ofLe bs) :: leBytes bs.length ((b.toNat + 256 * ofLe bs) / 256) = _
    rw [hm, hd, ih]

/-- The register that holds four bytes gives them back. -/
theorem leBytes_word {bs : List Byte} (h : bs.length = 4) : leBytes 4 (BitVec.ofNat 32 (ofLe bs)).toNat = bs := by
  have hlt := ofLe_lt bs
  rw [h] at hlt
  rw [BitVec.toNat_ofNat, Nat.mod_eq_of_lt (b := 2 ^ 32) hlt]
  simpa only [h] using leBytes_ofLe bs

theorem peerCas_cas {n : Nat} (hn : n = 4 ∨ n = 8) {data : List Byte} (hd : data.length = 2 * n) (old : Nat) :
    peerCas .cas n data old = if old = ofLe (data.take n) then some (ofLe (data.drop n)) else none := by
  have w (i : Nat) (hi : 4 * i + 4 ≤ data.length) :
      leBytes 4 (BitVec.ofNat 32 (ofLe ((data.drop (4 * i)).take 4))).toNat = (data.drop (4 * i)).take 4 := leBytes_word (by simp; omega)
  rcases hn with rfl | rfl
  · have w0 := w 0 (by omega)
    have w1 := w 1 (by omega)
    simp only [peerCas, casNew, wordsVal, hd, tab]
    simp only [Nat.reduceMul, Nat.reduceDiv, List.range_succ, List.range_zero, List.nil_append, List.cons_append, List.map_cons, List.map_nil,
      List.take_succ_cons, List.take_zero, List.drop_succ_cons, List.drop_zero, List.flatMap_cons, List.flatMap_nil, List.append_nil] at w0 w1 ⊢
    rw [w0, w1, List.take_of_length_le (l := data.drop 4) (by simp [hd])]
  · have w0 := w 0 (by omega)
    have w1 := w 1 (by omega)
    have w2 := w 2 (by omega)
    have w3 := w 3 (by omega)
    simp only [peerCas, casNew, wordsVal, hd, tab]
    simp only [Nat.reduceMul, Nat.reduceDiv, List.range_succ, List.range_zero, List.nil_append, List.cons_append, List.map_cons, List.map_nil,
      List.take_succ_cons, List.take_zero, List.drop_succ_cons, List.drop_zero, List.flatMap_cons, List.flatMap_nil, List.append_nil] at w0 w1 w2 w3 ⊢
    rw [w0, w1, w2, w3, ← List.take_add, ← show (data.drop 8).drop 4 = data.drop 12 by simp, ← List.take_add,
      List.take_of_length_le (l := data.drop 8) (by simp [hd])]

/-! ### Peers' accesses (O55) -/

/-- What the statement says of a word that a peer reads, modifies and writes. -/
theorem rmw_arrives {s : State} {pa n : Nat} {kind : PeerKind} {new : Nat → Option Nat} (hl : s.isLocal pa = true)
    (hr : s.reclaimed pa = false) (hp : noPartials s) (hw : s.pkg.waiting = []) (hn : n = 4 ∨ n = 8) (ha : paLocal pa + n ≤ hbmSize)
    (hb : s.blocked pa n true = false) (hs : s.inSpillRegion (paLocal pa) = false)
    (hlen : peerLen { pa, n, kind } = n) (hwr : peerWrites kind = true) (h1 : kind ≠ .unlock) (h2 : ∀ x, kind ≠ .lock x)
    (hk : ∀ u : State, u.peerPerform { pa, n, kind } = u.peerRmw { pa, n, kind } new) :
    (s.hbmPoi (paLocal pa) n = true → ∃ t, exec (.remoteAccessArrival { pa, n, kind }) s = .next t ∧ t.mem = s.mem ∧
      t.pkg.peerData = ([], s.poiMarks (paLocal pa) n)) ∧
    (s.hbmPoi (paLocal pa) n = false → ∃ t, exec (.remoteAccessArrival { pa, n, kind }) s = .next t ∧
      t.pkg.peerData = (s.hbm (paLocal pa) n, []) ∧ (new (ofLe (s.hbm (paLocal pa) n)) = none → t.mem = s.mem) ∧
      ∀ v, new (ofLe (s.hbm (paLocal pa) n)) = some v → (∀ i, i < n → memGet t.mem (paLocal pa + i) = (leBytes n v).getD i 0) ∧
        ∀ b, (b < paLocal pa ∨ paLocal pa + n ≤ b) → memGet t.mem b = memGet s.mem b) := by
  have hpos : 0 < n := by omega
  have hh : s.peerHeld { pa, n, kind } s.order = false := by
    rw [State.peerHeld_eq_blocked (acc := { pa, n, kind }) hl rfl h1 h2, hlen, hwr]
    exact hb
  have run := execRemoteAccessArrival_of_free (acc := { pa, n, kind }) hw hl hr (by rw [hlen]; exact ha) hh
  constructor
  · intro hbad
    obtain ⟨t, e, hm, hmem, hd⟩ := State.peerRmw_bad (s := { s with order := s.order + 1 }) (acc := { pa, n, kind }) hp hpos hb hbad new
    rw [hk, e] at run
    exact ⟨t, run hm, hmem, hd⟩
  · intro hbad
    obtain ⟨t, e, hm, hd, hmem⟩ :=
      State.peerRmw_clear (s := { s with order := s.order + 1 }) (acc := { pa, n, kind }) hp hpos hb hs hbad new
    rw [hk, e] at run
    refine ⟨t, run hm, hd, fun h => ?_, fun v h => ⟨fun i hi => ?_, fun b hb => ?_⟩⟩
    · exact hmem.trans (by rw [show new (ofLe (State.hbm { s with order := s.order + 1 } (paLocal pa) n)) = none from h])
    · rw [hmem, show new (ofLe (State.hbm { s with order := s.order + 1 } (paLocal pa) n)) = some v from h]
      exact memGet_memWrite _ _ _ _ (by rwa [leBytes_length])
    · rw [hmem, show new (ofLe (State.hbm { s with order := s.order + 1 } (paLocal pa) n)) = some v from h]
      exact memGet_memWrite_other _ _ _ _ (by rwa [leBytes_length])

theorem peerAccessesHold_holds : peerAccessesHold := by
  intro s pa n hl hr hp hw
  refine ⟨?_, ?_, ?_, fun data old hn hd => peerCas_cas hn hd old, ?_, ?_⟩
  · intro kind hn ha hk hb
    have hlen : peerLen { pa, n, kind } = n ∧ peerWrites kind = (kind != .read) ∧ kind ≠ .unlock ∧ ∀ x, kind ≠ .lock x := by
      obtain rfl | ⟨op, ty, m, d, rfl⟩ | ⟨k, d, rfl⟩ := hk
      · exact ⟨rfl, rfl, nofun, nofun⟩
      · exact ⟨rfl, rfl, nofun, nofun⟩
      · exact ⟨rfl, rfl, nofun, nofun⟩
    obtain ⟨hlen, hwr, h1, h2⟩ := hlen
    have hh : s.peerHeld { pa, n, kind } s.order = true := by
      rw [State.peerHeld_eq_blocked (acc := { pa, n, kind }) hl rfl h1 h2, hlen, hwr]
      exact hb
    exact execRemoteAccessArrival_of_held hw (State.peerTry_of_held (s := { s with order := s.order + 1 })
      (State.peerVoid_eq_false (s := { s with order := s.order + 1 }) hl hr (by rw [hlen]; exact ha)) hh)
  · intro op ty mode data hn ha hb hs
    exact rmw_arrives (kind := .rmw op ty mode data)
      (new := fun old => some (atomNew (peerEnv mode) op.toNat ((Ty.ofCode ty.toNat).getD .i32) old (ofLe data)).1) hl hr hp hw hn ha hb hs rfl rfl nofun nofun fun _ => rfl
  · intro k data hn ha hb hs
    exact rmw_arrives (kind := .cas k data) (new := peerCas k n data) hl hr hp hw hn ha hb hs rfl rfl nofun nofun fun _ => rfl
  · intro excl who ha
    refine ⟨fun hh => ?_, fun hh hb => ?_⟩
    · exact execRemoteAccessArrival_of_held hw (State.peerTry_of_held (s := { s with order := s.order + 1 })
        (State.peerVoid_eq_false (s := { s with order := s.order + 1 }) hl hr ha) hh)
    · obtain ⟨t, e, hm, hmem, hlocks, hd⟩ :=
        State.peerPerform_lock (s := { s with order := s.order + 1 }) (n := n) (who := who) hp excl hb
      have run := execRemoteAccessArrival_of_free (acc := { pa, n, kind := .lock excl, who }) hw hl hr ha hh
      rw [e] at run
      exact ⟨t, run hm, hmem, hlocks, hd⟩
  · intro who
    refine ⟨_, execRemoteAccessArrival_of_tried hw (State.peerTry_of_performed (s := { s with order := s.order + 1 }) rfl rfl rfl), rfl, rfl⟩

end Sys2Proof.Machine
end

section
/-! PROOFS. What records, messages and partials at home leave unchanged. -/
set_option maxRecDepth 100000

namespace Sys2Proof.Machine

open Sys2Proof.Claims


/-! ### What changes no core, grid, team, group or lock -/

/-- From the first state to the second no core, grid, team, group, focus, lock or lease changes, no access meets a lock, and a context
keeps its STATE and its radiance cache. -/
structure State.Calm (s t : State) : Prop where
  met : t.met = s.met
  cores : t.cores = s.cores
  grids : t.grids = s.grids
  teams : t.teams = s.teams
  groups : t.groups = s.groups
  foc : t.foc = s.foc
  locks : t.pkg.peerLocks = s.pkg.peerLocks
  chip : t.pkg.chipId = s.pkg.chipId
  leases : t.pkg.leases = s.pkg.leases
  cache : ∀ k, (t.ctxAt k).ctxState = (s.ctxAt k).ctxState ∧ (t.ctxAt k).rcParams = (s.ctxAt k).rcParams ∧
    (t.ctxAt k).rcSteps = (s.ctxAt k).rcSteps ∧ (t.ctxAt k).rcVersion = (s.ctxAt k).rcVersion

theorem State.Calm.refl (s : State) : s.Calm s := ⟨rfl, rfl, rfl, rfl, rfl, rfl, rfl, rfl, rfl, fun _ => ⟨rfl, rfl, rfl, rfl⟩⟩

theorem State.Calm.trans {s t u : State} (h : s.Calm t) (h' : t.Calm u) : s.Calm u where
  met := h'.met.trans h.met
  cores := h'.cores.trans h.cores
  grids := h'.grids.trans h.grids
  teams := h'.teams.trans h.teams
  groups := h'.groups.trans h.groups
  foc := h'.foc.trans h.foc
  locks := h'.locks.trans h.locks
  chip := h'.chip.trans h.chip
  leases := h'.leases.trans h.leases
  cache k := by
    obtain ⟨a, b, c, d⟩ := h.cache k
    obtain ⟨a', b', c', d'⟩ := h'.cache k
    exact ⟨a'.trans a, b'.trans b, c'.trans c, d'.trans d⟩

/-- Fields of a context that are neither its STATE nor its radiance cache. -/
theorem State.Calm.setCtxAt (s : State) (k : Nat) {c : Ctx} (h : c.ctxState = (s.ctxAt k).ctxState ∧ c.rcParams = (s.ctxAt k).rcParams ∧
    c.rcSteps = (s.ctxAt k).rcSteps ∧ c.rcVersion = (s.ctxAt k).rcVersion) : s.Calm (s.setCtxAt k c) where
  met := rfl
  cores := rfl
  grids := rfl
  teams := rfl
  groups := rfl
  foc := rfl
  locks := rfl
  chip := rfl
  leases := rfl
  cache j := by
    rw [State.ctxAt_setCtxAt]
    split
    · rename_i e
      exact e ▸ h
    · exact ⟨rfl, rfl, rfl, rfl⟩

theorem State.calm_raise (s : State) (v : Nat) : s.Calm (s.raise v) := by
  unfold State.raise State.modPkg
  dsimp only
  split <;> exact ⟨rfl, rfl, rfl, rfl, rfl, rfl, rfl, rfl, rfl, fun _ => ⟨rfl, rfl, rfl, rfl⟩⟩

theorem State.calm_raiseIf (s : State) (p : Prop) [Decidable p] (v : Nat) : s.Calm (if p then s.raise v else s) := by
  split
  · exact s.calm_raise v
  · exact .refl s

theorem State.calm_hbmWrite (s : State) (a : Nat) (bs : List Byte) : s.Calm (s.hbmWrite a bs) :=
  ⟨rfl, rfl, rfl, rfl, rfl, rfl, rfl, rfl, rfl, fun _ => ⟨rfl, rfl, rfl, rfl⟩⟩

theorem State.ctxAt_hbmWrite (s : State) (a : Nat) (bs : List Byte) (k : Nat) : (s.hbmWrite a bs).ctxAt k = s.ctxAt k := rfl

theorem State.OtherLlc.calm {s t : State} (h : s.OtherLlc t) : s.Calm t := by
  obtain ⟨_, _, _, rfl⟩ := h
  exact ⟨rfl, rfl, rfl, rfl, rfl, rfl, rfl, rfl, rfl, fun _ => ⟨rfl, rfl, rfl, rfl⟩⟩

theorem State.calm_ringPut (s : State) (ctx : Nat) (r : FRec) (ie : Bool) : s.Calm (s.ringPut ctx r ie) := by
  unfold State.ringPut
  dsimp only
  refine .trans ?_ (State.calm_raiseIf _ _ _)
  refine .trans ?_ (State.calm_raiseIf _ _ _)
  refine (s.calm_hbmWrite _ _).trans (.setCtxAt _ _ ?_)
  rw [State.ctxAt_hbmWrite]
  exact ⟨rfl, rfl, rfl, rfl⟩

theorem State.calm_count (s : State) (ctx code n : Nat) : s.Calm (s.count ctx code n) := by
  unfold State.count
  split
  · refine .setCtxAt _ _ ?_
    unfold Ctx.count
    split <;> exact ⟨rfl, rfl, rfl, rfl⟩
  · exact .refl s

theorem State.calm_takeSeq (s : State) (ctx : Nat) : s.Calm (s.takeSeq ctx).1 := .setCtxAt _ _ ⟨rfl, rfl, rfl, rfl⟩

theorem State.calm_unitRec (s : State) (ctx : Nat) (u : UnitId) (r : FRec) (ie : Bool) : s.Calm (s.unitRec ctx u r ie) := by
  have hc : s.Calm (if u == .dist || u == .fabric then s else s.count ctx 8 1) := by
    split
    · exact .refl s
    · exact s.calm_count ctx 8 1
  unfold State.unitRec
  generalize (if u == .dist || u == .fabric then s else s.count ctx 8 1) = x at hc
  have hx := hc.trans (x.calm_takeSeq ctx)
  dsimp only
  split
  · refine (hx.trans (.setCtxAt _ _ ?_)).trans (State.calm_raiseIf _ _ _)
    exact ⟨rfl, rfl, rfl, rfl⟩
  · exact hx.trans (State.calm_ringPut _ _ _ _)

theorem State.calm_redFlags (s : State) (ctx : Nat) (t : Ty) (r : FpR) : s.Calm (s.redFlags ctx t r) := .setCtxAt _ _ ⟨rfl, rfl, rfl, rfl⟩

theorem State.calm_applyWord (s : State) (ctx : Nat) (rm : Rm) (gid team : W32) (gw pa cp op : Nat) (t : Ty) (v : Nat) :
    s.Calm (s.applyWord ctx rm gid team gw pa cp op t v) := by
  have h := (s.otherLlc_touchLlc pa cp).calm
  unfold State.applyWord
  dsimp only
  split
  · exact h.trans (State.calm_unitRec _ _ _ _ _)
  · exact (h.trans (State.calm_hbmWrite _ _ _)).trans (State.calm_redFlags _ _ _ _)

/-- Locks keep out what they kept out before. -/
theorem State.Calm.blocked {s t : State} (h : s.Calm t) (pa n : Nat) (w : Bool) : t.blocked pa n w = s.blocked pa n w := by
  simp only [State.blocked, State.lineHeld, State.isLocal, h.groups, h.locks, h.chip]

theorem State.Calm.noPartials {s t : State} (h : s.Calm t) (hp : noPartials s) : Claims.noPartials t := by
  unfold Claims.noPartials
  rw [h.cores]
  exact hp

end Sys2Proof.Machine
end

section
/-! PROOFS. Replies, losses, ports and leases (O55). -/
set_option maxRecDepth 100000

namespace Sys2Proof.Machine

open Sys2Proof.Claims


/-! ### A record leaves the leases as they are, a message the ports -/

theorem State.raise_portUp (s : State) (v : Nat) : (s.raise v).pkg.portUp = s.pkg.portUp := by
  unfold State.raise State.modPkg
  dsimp only
  split <;> rfl

theorem State.sendLine_leases (s : State) (l : L1Line) : (s.sendLine l).pkg.leases = s.pkg.leases := by
  refine List.foldlRecOn (motive := fun t : State => t.pkg.leases = s.pkg.leases) _ _ ?_ fun _ h _ _ => ?_
  · unfold State.meet
    split <;> rfl
  · refine (State.calm_applyWord _ _ _ _ _ _ _ _ _ _ _).leases.trans (Eq.trans ?_ h)
    unfold State.meetUnit
    split <;> rfl

theorem State.sendU_leases (s : State) (k n : Nat) : (s.sendU k n).pkg.leases = s.pkg.leases := by
  unfold State.sendU
  split
  · split
    · rw [State.sendLine_leases]
      rfl
    · rfl
  · rfl

theorem State.gatherRing_leases (s : State) (ctx : Nat) : (s.gatherRing ctx).pkg.leases = s.pkg.leases :=
  List.foldlRecOn (motive := fun t : State => t.pkg.leases = s.pkg.leases) _ _ rfl fun _ h _ _ =>
    List.foldlRecOn (motive := fun u : State => u.pkg.leases = s.pkg.leases) _ _ h fun u h' _ _ => (u.sendU_leases _ _).trans h'

theorem State.recordUnit_leases (s : State) (ctx : Nat) (u : UnitId) (r : FRec) (ie : Bool) :
    (s.recordUnit ctx u r ie).pkg.leases = s.pkg.leases := (State.calm_unitRec _ _ _ _ _).leases.trans (s.gatherRing_leases ctx)

theorem State.foldl_recordUnit_leases (s : State) (cs : List (Nat × Ctx)) (u : UnitId) (r : FRec) (ie : Bool) :
    (cs.foldl (fun s e => s.recordUnit e.1 u r ie) s).pkg.leases = s.pkg.leases :=
  List.foldlRecOn (motive := fun t : State => t.pkg.leases = s.pkg.leases) _ _ rfl fun _ h _ _ => (State.recordUnit_leases _ _ _ _ _).trans h

/-! ### Leases and ports -/

theorem State.lease_setLease (s : State) (j : Nat) (l : Lease) : (s.setLease j l).lease j = l := by
  rw [State.lease, State.setLease, State.modPkg, KMap.get_set, if_pos rfl]

theorem State.regEvent_eq {s t : State} (hr : s.pkg.inRecovery = false) (hm : t.met = s.met) : s.regEvent t = .next t := by
  rw [State.regEvent, hr, State.unmet, if_pos hm]
  rfl

theorem leaseRevoke_notices {s : State} {j : Fin 8} (hv : (s.lease j.val).v = true) (h5 : s.pkg.lacks 5 = false) (hr : s.pkg.inRecovery = false)
    (hl : (s.lease j.val).lender = true) (h0 : (s.lease j.val).state = 0) :
    ∃ t, exec (.leaseRevoke j) s = .next t ∧ (t.lease j.val).state = 1 ∧ t.mem = s.mem := by
  have e : s.leaseRevoke j.val = (s.setLease j.val { s.lease j.val with state := 1 }).modPkg fun p => { p with leaseSent := p.leaseSent ++ [(j.val, true)] } := by
    simp [State.leaseRevoke, h5, hv, hl, h0]
  refine ⟨s.leaseRevoke j.val, State.regEvent_eq hr (by rw [e]; rfl), ?_, by rw [e]; rfl⟩
  rw [e]
  exact congrArg Lease.state (State.lease_setLease s j.val _)

theorem leaseAck_revokes {s : State} {j : Fin 8} (hv : (s.lease j.val).v = true) (h5 : s.pkg.lacks 5 = false) (hr : s.pkg.inRecovery = false)
    (hl : (s.lease j.val).lender = false) (h1 : (s.lease j.val).state = 1) :
    ∃ t, exec (.leaseAck j) s = .next t ∧ (t.lease j.val).state = 2 ∧ t.mem = s.mem := by
  have e : s.leaseAck j.val = (s.setLease j.val { s.lease j.val with state := 2 }).modPkg fun p => { p with leaseSent := p.leaseSent ++ [(j.val, false)] } := by
    simp [State.leaseAck, h5, hv, hl, h1]
  refine ⟨s.leaseAck j.val, State.regEvent_eq hr (by rw [e]; rfl), ?_, by rw [e]; rfl⟩
  rw [e]
  exact congrArg Lease.state (State.lease_setLease s j.val _)

theorem leaseNotice_notices {s : State} {j : Fin 8} (hv : (s.lease j.val).v = true) (hl : (s.lease j.val).lender = false)
    (h0 : (s.lease j.val).state = 0) : ∃ t, exec (.leaseNotice j) s = .next t ∧ (t.lease j.val).state = 1 := by
  have hn : ¬((!(s.lease j.val).v || (s.lease j.val).lender || decide ((s.lease j.val).state ≠ 0)) = true) := by simp [hv, hl, h0]
  refine ⟨_, if_neg hn, ?_⟩
  rw [State.lease, State.foldl_recordUnit_leases]
  exact congrArg Lease.state (State.lease_setLease s j.val _)

theorem setPort_portUp (s : State) (port : Fin 16) (up : Bool) : (s.setPort port.val up).pkg.portUp.getLsbD port.val = up ∧
    ∀ i, i ≠ port.val → (s.setPort port.val up).pkg.portUp.getLsbD i = s.pkg.portUp.getLsbD i := by
  have bit (i : Nat) : (BitVec.ofNat 16 (2 ^ port.val)).getLsbD i = decide (i = port.val) := by
    rw [BitVec.getLsbD_ofNat, Nat.testBit_two_pow, ← Bool.decide_and]
    exact decide_eq_decide.mpr ⟨fun h => h.2.symm, fun h => ⟨h ▸ port.isLt, h.symm⟩⟩
  unfold State.setPort
  split
  · rename_i h
    exact ⟨by simpa using h, fun _ _ => rfl⟩
  · rename_i h
    dsimp only
    rw [State.raise_portUp]
    refine ⟨?_, fun i hi => ?_⟩
    · rw [State.modPkg, BitVec.getLsbD_xor, bit, decide_eq_true rfl]
      cases up <;> simp_all
    · rw [State.modPkg, BitVec.getLsbD_xor, bit, decide_eq_false hi, Bool.xor_false]

/-! ### Replies and losses -/

/-- A reply tells its core what memory holds (R83), as the statement says it. -/
theorem State.learn_eq (s : State) (q : PeerReq) (d : List Byte) : s.learn q d =
    if q.cmd.isSome || q.dist || q.tape then s
    else if q.kind = .load ∧ q.pa % 128 + q.n ≤ 128 then s.seen (s.teamAt (s.grpAt q.grp).team).core q.pa d
    else s.dropRange (s.teamAt (s.grpAt q.grp).team).core q.pa q.n := by
  simp [State.learn]

theorem execRemoteReply_load {s : State} {q : PeerReq} (data : List Byte) (poi : List Bool) (hk : q.kind = .load)
    (hq : s.pkg.peerOut.find? (fun x => x.id == q.id && x.lost.isNone) = some q) :
    exec (.remoteReply q.id (data, poi)) s =
      .next ((if q.fill.isSome then (s.dropReq q).landFill q (tab q.n fun i => data.getD i 0) poi
        else (s.dropReq q).learn q (tab q.n fun i => data.getD i 0)).putReply q (some (tab q.n fun i => data.getD i 0)) poi) := by
  change execRemoteReply q.id (data, poi) s = _
  unfold execRemoteReply
  rw [hq]
  dsimp only
  rw [hk]

theorem execRemoteReply_store {s : State} {q : PeerReq} (data : List Byte) (poi : List Bool) (hk : q.kind = .store)
    (hq : s.pkg.peerOut.find? (fun x => x.id == q.id && x.lost.isNone) = some q) :
    exec (.remoteReply q.id (data, poi)) s =
      .next (q.done.elim ((s.dropReq q).settleWrite q) ((s.dropReq q).settleWrite q).queueVector) := by
  change execRemoteReply q.id (data, poi) s = _
  unfold execRemoteReply
  rw [hq]
  dsimp only
  rw [hk]
  cases q.done <;> rfl

theorem execRemoteReply_rmw {s : State} {q : PeerReq} (data : List Byte) (poi : List Bool) (hk : q.kind = .rmw)
    (hq : s.pkg.peerOut.find? (fun x => x.id == q.id && x.lost.isNone) = some q) :
    exec (.remoteReply q.id (data, poi)) s =
      .next ((if q.lane.isSome then
          ((s.dropReq q).learn q (tab q.n fun i => data.getD i 0)).putReply q (some (tab q.n fun i => data.getD i 0)) poi
        else (s.dropReq q).redReply q (tab q.n fun i => data.getD i 0) poi).settleWrite q) := by
  change execRemoteReply q.id (data, poi) s = _
  unfold execRemoteReply
  rw [hq]
  dsimp only
  rw [hk]

theorem lostCnt_eq (x : W32) : (if x == 0xFFFFFFFF#32 then x else x + 1) = satUp x := by
  simp [satUp]

theorem execRemoteRequestLost_load {s : State} {q : PeerReq} (hk : q.kind = .load)
    (hq : s.pkg.peerOut.find? (fun x => x.id == q.id && x.cut && x.lost.isNone) = some q) :
    exec (.remoteRequestLost q.id) s =
      .next (((s.modPkg fun p => { p with lostCnt := satUp p.lostCnt }).dropReq q).putReply q none []) := by
  change execRemoteRequestLost q.id s = _
  unfold execRemoteRequestLost
  rw [hq]
  dsimp only
  rw [hk]
  simp only [lostCnt_eq]

/-- A lost write or reduction whose record is written at once is complete (R45, R456). -/
theorem execRemoteRequestLost_recorded {s : State} {q : PeerReq} (hk : q.kind = .store ∨ q.kind = .rmw) (hl : q.lane = none)
    (hq : s.pkg.peerOut.find? (fun x => x.id == q.id && x.cut && x.lost.isNone) = some q)
    (hv : ∀ x ∈ (((s.modPkg fun p => { p with lostCnt := satUp p.lostCnt }).recordUnit q.ctx .fabric q.frec true).ctxAt q.ctx).unitRecs, x.1 ≠ .fabric) :
    exec (.remoteRequestLost q.id) s =
      .next ((((s.modPkg fun p => { p with lostCnt := satUp p.lostCnt }).recordUnit q.ctx .fabric q.frec true).dropReq q).settleWrite q) := by
  have hn (seq : W32) : (((s.modPkg fun p => { p with lostCnt := satUp p.lostCnt }).recordUnit q.ctx .fabric q.frec true).ctxAt q.ctx).unitRecs.any
      (fun x => x.1 == .fabric && x.2.seq == seq) = false := by
    rw [List.any_eq_false]
    intro x hx
    simp [hv x hx]
  change execRemoteRequestLost q.id s = _
  unfold execRemoteRequestLost
  rw [hq]
  simp only [lostCnt_eq, hl, Option.isSome_none, Bool.false_eq_true, if_false]
  rcases hk with hk | hk <;> simp only [hk, hn, Bool.false_eq_true, if_false]

/-! ### UALink (O55) -/

theorem fabricEventsHold_holds : fabricEventsHold := by
  intro s
  refine ⟨fun pa n hl hr hp hw => ⟨fun hn hb => ?_, fun data poi hn hb hs => ?_⟩, fun q data poi hq => ?_, fun q hq => ?_,
    fun port up => ⟨_, rfl, setPort_portUp s port up⟩, fun j hv => ⟨fun h5 hr hl h0 => leaseRevoke_notices hv h5 hr hl h0,
      fun hl h0 => leaseNotice_notices hv hl h0, fun h5 hr hl h1 => leaseAck_revokes hv h5 hr hl h1, fun hl h1 => ?_, fun hl h1 => ?_⟩⟩
  · have hh : s.peerHeld { pa, n, kind := .read } s.order = false := (State.peerHeld_eq_blocked (acc := { pa, n, kind := .read }) hl rfl nofun nofun _).trans hb
    obtain ⟨t, e, hm, hmem, hd⟩ := State.peerPerform_read (s := { s with order := s.order + 1 }) hp hb 0
    have run := execRemoteAccessArrival_of_free (acc := { pa, n, kind := .read }) hw hl hr hn hh
    rw [e] at run
    exact ⟨t, run hm, hmem, hd⟩
  · have hh : s.peerHeld { pa, n, kind := .write data poi } s.order = false := 
      (State.peerHeld_eq_blocked (acc := { pa, n, kind := .write data poi }) hl rfl nofun nofun _).trans hb
    obtain ⟨t, e, hm, hmem⟩ := State.peerPerform_write (s := { s with order := s.order + 1 }) (n := n) (poi := poi) hp hb hs
    have run := execRemoteAccessArrival_of_free (acc := { pa, n, kind := .write data poi }) hw hl hr hn hh
    rw [e] at run
    refine ⟨t, run hm, fun i hi => ?_, fun a ha => ?_⟩
    · rw [hmem]
      exact memGet_memWrite _ _ _ _ hi
    · rw [hmem]
      exact memGet_memWrite_other _ _ _ _ ha
  · intro u bytes core known
    have hknown : u.learn q bytes = known := State.learn_eq u q bytes
    refine ⟨fun hk hf => ?_, fun core pri hk hf => ?_, fun hk hd => ?_, fun queue hk hd => ?_, fun hk hl => ⟨fun hb => ?_, fun w hb => ?_⟩,
      fun hk hl => ?_⟩
    · rw [execRemoteReply_load data poi hk hq, hf, ← hknown]
      rfl
    · rw [execRemoteReply_load data poi hk hq, hf, Option.isSome_some, if_pos rfl, State.landFill, hf]
    · rw [execRemoteReply_store data poi hk hq, hd]
      rfl
    · rw [execRemoteReply_store data poi hk hq, hd]
      rfl
    · rw [execRemoteReply_rmw data poi hk hq, hl, State.redReply, hb]
      rfl
    · rw [execRemoteReply_rmw data poi hk hq, hl, State.redReply, hb]
      rfl
    · rw [execRemoteReply_rmw data poi hk hq, Option.isSome_iff_ne_none.mpr hl, if_pos rfl, ← hknown]
  · intro u
    exact ⟨fun hk => execRemoteRequestLost_load hk hq, fun hk hl hv => execRemoteRequestLost_recorded hk hl hq hv⟩
  · exact congrArg _ (if_pos (by simp [hv, hl, h1]))
  · exact congrArg _ (if_pos (by simp [hv, hl, h1]))

/-- Settles O55: what arrives at a home runs as one operation of its bytes, and what comes back reaches what waits for it. -/
theorem fabric : Obligations.Fabric := ⟨fabricEventsHold_holds, peerAccessesHold_holds⟩

end Sys2Proof.Machine
end

section
/-! PROOFS. Records that drain, and what waits for a lost write (O52). -/
set_option maxRecDepth 100000

namespace Sys2Proof.Machine

open Sys2Proof.Claims


/-! ### Entries of a map after a write of one -/

theorem KMap.mem_set {α : Type} {m : KMap α} {k : Nat} {x : α} {e : Nat × α} (h : e ∈ KMap.set m k x) : e = (k, x) ∨ e ∈ m := by
  induction m with
  | nil => exact .inl (List.mem_singleton.mp h)
  | cons a t ih =>
    obtain ⟨a, y⟩ := a
    unfold KMap.set at h
    split at h
    · exact (List.mem_cons.mp h).imp_right (List.mem_cons_of_mem _)
    · split at h
      · exact List.mem_cons.mp h
      · rcases List.mem_cons.mp h with rfl | h
        · exact .inr List.mem_cons_self
        · exact (ih h).imp_right (List.mem_cons_of_mem _)

theorem KMap.mem_set_self {α : Type} (m : KMap α) (k : Nat) (x : α) : (k, x) ∈ KMap.set m k x := by
  apply KMap.mem_of_find
  rw [KMap.find_set, if_pos rfl]

/-- An entry stays, or it was the one that the write replaced. -/
theorem KMap.mem_set_or_find {α : Type} {m : KMap α} {k : Nat} (x : α) {e : Nat × α} (h : e ∈ m) :
    e ∈ KMap.set m k x ∨ e.1 = k ∧ KMap.find m k = some e.2 := by
  induction m with
  | nil => cases h
  | cons a t ih =>
    obtain ⟨a, y⟩ := a
    unfold KMap.set KMap.find
    by_cases ha : a = k
    · rw [if_pos ha, if_pos ha]
      rcases List.mem_cons.mp h with rfl | h
      · exact .inr ⟨ha, rfl⟩
      · exact .inl (List.mem_cons_of_mem _ h)
    · rw [if_neg ha, if_neg ha]
      split
      · exact .inl (List.mem_cons_of_mem _ h)
      · rcases List.mem_cons.mp h with rfl | h
        · exact .inl List.mem_cons_self
        · exact (ih h).imp_left (List.mem_cons_of_mem _)

/-- Whether some entry has a property does not change where the entry written has it as the one that it replaces had. -/
theorem KMap.any_set {α : Type} (m : KMap α) (d : α) (k : Nat) (x : α) (p : α → Bool) (hx : p x = p (KMap.get m d k)) (hd : p d = false) :
    (KMap.set m k x).any (fun e => p e.2) = m.any fun e => p e.2 := by
  rw [Bool.eq_iff_iff, List.any_eq_true, List.any_eq_true]
  constructor
  · rintro ⟨e, he, hp⟩
    rcases KMap.mem_set he with rfl | he
    · rcases KMap.get_eq_or_mem m d k with hg | hg
      · rw [hx, hg, hd] at hp
        cases hp
      · exact ⟨_, hg, hx ▸ hp⟩
    · exact ⟨e, he, hp⟩
  · rintro ⟨e, he, hp⟩
    rcases KMap.mem_set_or_find (k := k) x he with he | ⟨rfl, hf⟩
    · exact ⟨e, he, hp⟩
    · refine ⟨_, KMap.mem_set_self m e.1 x, ?_⟩
      rw [hx, KMap.get, hf]
      exact hp

/-! ### What no access and no grid sees -/

/-- From the first state to the second no access meets a lock, no partial comes, no grid changes, no team changes its phase or its grid, and
a context keeps its STATE and its radiance cache. -/
structure State.Quiet (s t : State) : Prop where
  met : t.met = s.met
  partials : noPartials s → noPartials t
  grids : t.grids = s.grids
  teams : ∀ p : TeamPhase → Nat → Bool, p Team.blank.phase Team.blank.grid = false →
    t.teams.any (fun e => p e.2.phase e.2.grid) = s.teams.any fun e => p e.2.phase e.2.grid
  cache : ∀ k, (t.ctxAt k).ctxState = (s.ctxAt k).ctxState ∧ (t.ctxAt k).rcParams = (s.ctxAt k).rcParams ∧
    (t.ctxAt k).rcSteps = (s.ctxAt k).rcSteps ∧ (t.ctxAt k).rcVersion = (s.ctxAt k).rcVersion

theorem State.Calm.quiet {s t : State} (h : s.Calm t) : s.Quiet t := ⟨h.met, h.noPartials, h.grids, fun _ _ => by rw [h.teams], h.cache⟩

theorem State.Quiet.refl (s : State) : s.Quiet s := (State.Calm.refl s).quiet

theorem State.Quiet.trans {s t u : State} (h : s.Quiet t) (h' : t.Quiet u) : s.Quiet u where
  met := h'.met.trans h.met
  partials hp := h'.partials (h.partials hp)
  grids := h'.grids.trans h.grids
  teams p hp := (h'.teams p hp).trans (h.teams p hp)
  cache k := by
    obtain ⟨a, b, c, d⟩ := h.cache k
    obtain ⟨a', b', c', d'⟩ := h'.cache k
    exact ⟨a'.trans a, b'.trans b, c'.trans c, d'.trans d⟩

theorem State.quiet_setGrpAt (s : State) (k : Nat) (g : Grp) : s.Quiet (s.setGrpAt k g) :=
  ⟨rfl, id, rfl, fun _ _ => rfl, fun _ => ⟨rfl, rfl, rfl, rfl⟩⟩

theorem State.quiet_setTeamAt (s : State) (k : Nat) {x : Team} (hp : x.phase = (s.teamAt k).phase) (hg : x.grid = (s.teamAt k).grid) :
    s.Quiet (s.setTeamAt k x) :=
  ⟨rfl, id, rfl, fun p h => KMap.any_set _ Team.blank k x (fun t => p t.phase t.grid) (by rw [hp, hg]; rfl) h, fun _ => ⟨rfl, rfl, rfl, rfl⟩⟩

theorem noPartials_setCoreAt {s : State} (h : noPartials s) (k : Nat) {c : CoreSt} (hc : c.l1 = (s.coreAt k).l1) : noPartials (s.setCoreAt k c) := by
  intro e he
  rcases KMap.mem_set he with rfl | he
  · rw [hc]
    exact State.l1_of_noPartials h k
  · exact h e he

theorem State.quiet_setCoreAt (s : State) (k : Nat) {c : CoreSt} (hc : c.l1 = (s.coreAt k).l1) : s.Quiet (s.setCoreAt k c) :=
  ⟨rfl, fun h => noPartials_setCoreAt h k hc, rfl, fun _ _ => rfl, fun _ => ⟨rfl, rfl, rfl, rfl⟩⟩

theorem State.quiet_peerOut (s : State) (qs : List PeerReq) : s.Quiet (s.modPkg fun p => { p with peerOut := qs }) :=
  ⟨rfl, id, rfl, fun _ _ => rfl, fun _ => ⟨rfl, rfl, rfl, rfl⟩⟩

theorem State.quiet_flagLanded (s : State) (grp : Nat) (tag : Nat × Nat) : s.Quiet (s.flagLanded grp tag) := by
  unfold State.flagLanded
  split
  · exact .refl s
  · exact s.quiet_setGrpAt _ _

theorem State.quiet_tapeEnded (s : State) (grp : Nat) : s.Quiet (s.tapeEnded grp) := by
  unfold State.tapeEnded
  dsimp only
  split
  · split
    · exact .refl s
    · exact (s.quiet_setGrpAt _ _).trans (State.quiet_flagLanded _ _ _)
  · exact .refl s

theorem State.quiet_dropReq (s : State) (q : PeerReq) : s.Quiet (s.dropReq q) := by
  unfold State.dropReq
  dsimp only
  split
  · exact (s.quiet_peerOut _).trans (State.quiet_tapeEnded _ _)
  · exact s.quiet_peerOut _

theorem State.quiet_settleWrite (s : State) (q : PeerReq) : s.Quiet (s.settleWrite q) := by
  have hf : s.Quiet (match q.flag with | some f => s.flagLanded q.grp f | none => s) := by
    split
    · exact s.quiet_flagLanded _ _
    · exact .refl s
  unfold State.settleWrite
  dsimp only
  split
  · refine hf.trans (State.quiet_setTeamAt _ _ ?_ ?_) <;> rfl
  · exact hf

theorem State.quiet_settleLost (s : State) (ctx : Nat) (seq : W32) : s.Quiet (s.settleLost ctx seq) := by
  unfold State.settleLost
  split
  · exact (s.quiet_dropReq _).trans (State.quiet_settleWrite _ _)
  · exact .refl s

/-! ### Records that drain (R45) -/

theorem State.quiet_ringWrite {s : State} (hp : noPartials s) (ctx : Nat) (r : FRec) (ie : Bool) : s.Quiet (s.ringWrite ctx r ie) := by
  rw [State.ringWrite, State.gatherRing_of_noPartials hp]
  exact (s.calm_ringPut _ _ _).quiet

theorem State.quiet_drainRecs {s : State} (hp : noPartials s) (ctx n : Nat) : s.Quiet (s.drainRecs ctx n) := by
  induction n generalizing s with
  | zero => exact .refl s
  | succ n ih =>
    have next {t u : State} (ht : s.Quiet t) (hu : noPartials t → t.Quiet u) : s.Quiet (u.drainRecs ctx n) :=
      (ht.trans (hu (ht.partials hp))).trans (ih ((hu (ht.partials hp)).partials (ht.partials hp)))
    unfold State.drainRecs
    dsimp only
    split
    · exact .refl s
    · split
      · split
        · exact .refl s
        · refine next ?_ fun ht => State.quiet_ringWrite ht _ _ _
          refine (State.Calm.setCtxAt _ _ ?_).quiet
          exact ⟨rfl, rfl, rfl, rfl⟩
      · split
        · exact .refl s
        · refine next ?_ fun ht => State.quiet_ringWrite ht _ _ _
          refine State.quiet_setCoreAt _ _ ?_
          rfl
        · refine next ?_ fun ht => (State.quiet_ringWrite ht _ _ _).trans (State.quiet_settleLost _ _ _)
          refine (State.Calm.setCtxAt _ _ ?_).quiet
          exact ⟨rfl, rfl, rfl, rfl⟩

theorem State.quiet_drainAll {s : State} (hp : noPartials s) (ctx : Nat) : s.Quiet (s.drainAll ctx) := State.quiet_drainRecs hp ctx _

theorem State.drainAll_of_none {s : State} {ctx : Nat} (h : s.waitingRecs ctx = 0) : s.drainAll ctx = s := by
  rw [State.drainAll, h]
  rfl

end Sys2Proof.Machine
end

section
/-! PROOFS. The end of a context's grids (O52). -/
set_option maxRecDepth 100000

namespace Sys2Proof.Machine

open Sys2Proof.Claims


/-! ### The end of a grid (R423) with no partial on its way -/

/-- From the first state to the second no access meets a lock, no partial comes, and no grid changes. -/
structure State.Still (s t : State) : Prop where
  met : t.met = s.met
  partials : noPartials s → noPartials t
  grids : t.grids = s.grids

theorem State.Quiet.still {s t : State} (h : s.Quiet t) : s.Still t := ⟨h.met, h.partials, h.grids⟩
theorem State.Still.refl (s : State) : s.Still s := ⟨rfl, id, rfl⟩
theorem State.Still.trans {s t u : State} (h : s.Still t) (h' : t.Still u) : s.Still u :=
  ⟨h'.met.trans h.met, fun hp => h'.partials (h.partials hp), h'.grids.trans h.grids⟩

theorem State.calm_applyPartial {s : State} (hp : noPartials s) (gr : Grid) {p : Partial}
    (hb : s.blocked p.pa (redBytes p.ty) true = false) : s.Calm (s.applyPartial gr p) := by
  rw [State.applyPartial, State.meet_of_not_blocked hb, State.gather_of_noPartials hp]
  exact State.calm_applyWord _ _ _ _ _ _ _ _ _ _ _

theorem State.still_abandonEpoch {s : State} (hp : noPartials s) (k : Nat) : s.Still (s.abandonEpoch k) := by
  suffices h : ∀ (gr : Grid) (ps : List Partial),
      s.Calm ((ps.takeWhile fun p => !s.blocked p.pa (redBytes p.ty) true).foldl (fun s p => s.applyPartial gr p) s) from
    (h (s.gridAt k) _).quiet.still.trans ⟨rfl, id, rfl⟩
  intro gr ps
  refine List.foldlRecOn (motive := s.Calm) _ _ (.refl s) fun t ht p hm => ?_
  have hb := List.mem_takeWhile_imp hm
  exact ht.trans (State.calm_applyPartial (ht.noPartials hp) gr (by simpa [ht.blocked] using hb))

theorem State.still_unlockLines (s : State) (ls : List Nat) : s.Still (s.unlockLines ls) :=
  List.foldlRecOn (motive := s.Still) _ _ (.refl s) fun _ h _ _ => h.trans ⟨rfl, id, rfl⟩

theorem State.still_leaveScr (s : State) (t : Team) (ctx : Nat) : s.Still (s.leaveScr t ctx) := by
  refine (s.quiet_setCoreAt _ ?_).still
  rfl

theorem State.still_setCtxAt (s : State) (k : Nat) (c : Ctx) : s.Still (s.setCtxAt k c) := ⟨rfl, id, rfl⟩

/-- What the end of a grid does to its other grids and to it, and that it ends. -/
theorem State.endGrid_ends {s : State} (hp : noPartials s) {k : Nat} (h1 : (s.gridAt k).phase ≠ .ended) (h2 : (s.gridAt k).phase ≠ .done)
    (cause info : Nat) : ∃ (u : State) (gr : Grid), s.Still u ∧ gr.phase = .ended ∧ gr.cause = BitVec.ofNat 16 cause ∧
      s.endGrid k cause info = u.setGridAt k gr := by
  have hn : ¬((s.gridAt k).phase == .ended || (s.gridAt k).phase == .done) = true := by simp [h1, h2]
  unfold State.endGrid
  dsimp only
  rw [if_neg hn]
  refine ⟨_, _, ?_, ?_, ?_, rfl⟩
  · have room (u : State) (es : List (Nat × Team)) (ctx : Nat) : u.Still (es.foldl (fun s e =>
        if e.2.size ≠ 0 then (s.unreserve (e.2.core / 96) e.2.reserved).leaveScr e.2 ctx else s.unreserve (e.2.core / 96) e.2.reserved) u) := by
      refine List.foldlRecOn (motive := u.Still) _ _ (.refl u) fun v h e _ => ?_
      have hu : v.Still (v.unreserve (e.2.core / 96) e.2.reserved) := ⟨rfl, id, rfl⟩
      split
      · exact (h.trans hu).trans (State.still_leaveScr _ _ _)
      · exact h.trans hu
    refine .trans ?_ (State.still_setCtxAt _ _ _)
    refine .trans ?_ (room _ _ _)
    exact ((State.still_abandonEpoch hp k).trans (State.still_unlockLines _ _)).trans ⟨rfl, id, rfl⟩
  · rfl
  · rfl

/-- A grid has ended with a cause. -/
def State.EndedBy (s : State) (k cause : Nat) : Prop := (s.gridAt k).phase = .ended ∧ (s.gridAt k).cause = BitVec.ofNat 16 cause
/-- A grid has still to end. -/
def State.Live (s : State) (k : Nat) : Prop := (s.gridAt k).phase = .pending ∨ (s.gridAt k).phase = .running

theorem State.Still.gridAt {s t : State} (h : s.Still t) (k : Nat) : t.gridAt k = s.gridAt k := by
  rw [State.gridAt, State.gridAt, h.grids]

/-- One grid after another ends: each that was still to end has the cause. -/
theorem State.foldl_endGrid {s : State} (hp : noPartials s) (ks : List Nat) (cause info : Nat) :
    let t := ks.foldl (fun s k => s.endGrid k cause info) s
    t.met = s.met ∧ noPartials t ∧ ∀ k, (s.EndedBy k cause ∨ k ∈ ks ∧ s.Live k) → t.EndedBy k cause := by
  induction ks generalizing s with
  | nil => exact ⟨rfl, hp, fun k h => h.elim id fun h => absurd h.1 List.not_mem_nil⟩
  | cons j ks ih =>
    have step : (s.endGrid j cause info).met = s.met ∧ noPartials (s.endGrid j cause info) ∧
        ∀ k, (s.EndedBy k cause ∨ k ∈ j :: ks ∧ s.Live k) →
          (s.endGrid j cause info).EndedBy k cause ∨ k ∈ ks ∧ (s.endGrid j cause info).Live k := by
      by_cases hj : (s.gridAt j).phase = .ended ∨ (s.gridAt j).phase = .done
      · have e : s.endGrid j cause info = s := by
          unfold State.endGrid
          dsimp only
          rw [if_pos (by simpa using hj)]
        rw [e]
        refine ⟨rfl, hp, fun k h => h.imp_right fun ⟨hk, hl⟩ => ⟨(List.mem_cons.mp hk).resolve_left ?_, hl⟩⟩
        rintro rfl
        rcases hl with hl | hl <;> rw [hl] at hj <;> simp at hj
      · rw [not_or] at hj
        obtain ⟨u, gr, hu, hph, hc, e⟩ := State.endGrid_ends hp hj.1 hj.2 cause info
        rw [e]
        refine ⟨hu.met, hu.partials hp, fun k h => ?_⟩
        by_cases hk : k = j
        · subst hk
          exact .inl (by rw [State.EndedBy, State.gridAt_setGridAt_self]; exact ⟨hph, hc⟩)
        · have hg : (u.setGridAt j gr).gridAt k = s.gridAt k := by rw [State.gridAt_setGridAt, if_neg (Ne.symm hk), hu.gridAt]
          unfold State.EndedBy State.Live at h ⊢
          rw [hg]
          exact h.imp_right fun ⟨hm, hl⟩ => ⟨(List.mem_cons.mp hm).resolve_left hk, hl⟩
    obtain ⟨hm, hq, hk⟩ := step
    obtain ⟨hm', hq', hk'⟩ := ih hq
    exact ⟨hm'.trans hm, hq', fun k h => hk' k (hk k h)⟩

theorem State.still_endKill (s : State) (ctx : Nat) : s.Still (s.endKill ctx) := by
  unfold State.endKill
  dsimp only
  split
  · exact ⟨rfl, id, rfl⟩
  · exact .refl s

/-- KILL (R431): every grid of the context that had not ended has ended with its cause. -/
theorem kill_ends {s : State} {ctx : Nat} (hr : s.pkg.inRecovery = false) (hp : noPartials s) : ∃ t, exec (.kill ctx) s = .next t ∧
    ∀ k gr, KMap.find s.grids k = some gr → gr.ctx = ctx → (gr.phase = .pending ∨ gr.phase = .running) →
      (t.gridAt k).phase = .ended ∧ (t.gridAt k).cause = 0x0105 := by
  obtain ⟨hm, hq, hk⟩ := State.foldl_endGrid hp (s.gridsIn ctx fun p => p == .pending || p == .running) cKilled 0
  have hrest : (List.foldl (fun s k => s.endGrid k cKilled 0) s (s.gridsIn ctx fun p => p == .pending || p == .running)).Still (s.kill ctx) := by
    refine .trans (.trans ?_ (State.quiet_drainAll ?_ ctx).still) (State.still_endKill _ ctx)
    · exact ⟨rfl, id, rfl⟩
    · exact hq
  refine ⟨s.kill ctx, State.regEvent_eq hr (hrest.met.trans hm), fun k gr hf hc hph => ?_⟩
  rw [hrest.gridAt]
  have hg : s.gridAt k = gr := by rw [State.gridAt, KMap.get, hf]; rfl
  refine hk k (.inr ⟨?_, by rwa [State.Live, hg]⟩)
  refine List.mem_map.mpr ⟨(k, gr), List.mem_filter.mpr ⟨KMap.mem_of_find hf, ?_⟩, rfl⟩
  simpa [hc] using hph

end Sys2Proof.Machine
end

section
/-! PROOFS. A context that resumes (O52). -/
set_option maxRecDepth 100000

namespace Sys2Proof.Machine

open Sys2Proof.Claims


/-! ### A context that resumes (R430) -/

/-- A map made of a function of its keys, the default left out, gives the function's values. -/
theorem KMap.get_filter_map {α : Type} [DecidableEq α] (d : α) (f : Nat → α) (ks : List Nat) (i : Nat) :
    KMap.get ((ks.map fun i => (i, f i)).filter fun e => e.2 != d) d i = if i ∈ ks then f i else d := by
  induction ks with
  | nil => rfl
  | cons k ks ih =>
    rw [List.map_cons, List.filter_cons]
    by_cases hd : f k = d
    · have hb : ((f k) != d) = false := by simp [hd]
      rw [hb, if_neg Bool.false_ne_true, ih]
      by_cases hk : i = k
      · rw [hk, hd, if_pos List.mem_cons_self, ite_self]
      · simp [hk]
    · have hb : ((f k) != d) = true := by simp [hd]
      rw [hb, if_pos rfl]
      unfold KMap.get at ih ⊢
      unfold KMap.find
      by_cases hk : k = i
      · rw [if_pos hk, hk, if_pos List.mem_cons_self]
        rfl
      · rw [if_neg hk, ih]
        simp [Ne.symm hk]

/-- What the image gives the cache, where no partial of a core is to be gathered first. -/
theorem State.readImage_of_noPartials {s : State} (hp : noPartials s) (ctx : Nat) :
    ∃ ps steps, (∀ i, i < paramCount → KMap.get ps {} i =
        ({ master := wordOf s (paLocal (s.ctxAt ctx).rcImg.toNat + 12 * i), m := wordOf s (paLocal (s.ctxAt ctx).rcImg.toNat + 12 * i + 4),
           v := wordOf s (paLocal (s.ctxAt ctx).rcImg.toNat + 12 * i + 8) } : Param)) ∧
      steps = (wordOf s (paLocal (s.ctxAt ctx).rcImg.toNat + 12 * paramCount)).toNat ∧
      s.readImage ctx = s.setCtxAt ctx { s.ctxAt ctx with rcParams := ps, rcSteps := steps } := by
  have hv : s.homeView (s.ctxAt ctx).rcImg.toNat imageBytes = s := State.gatherRange_of_noPartials hp _ _
  unfold State.readImage
  dsimp only
  rw [hv]
  generalize paramCount = n
  refine ⟨_, _, fun i hi => ?_, rfl, rfl⟩
  rw [KMap.get_filter_map, if_pos (List.mem_range.mpr hi)]
  rfl

theorem State.mem_settleResume (s : State) (ctx : Nat) : (s.settleResume ctx).mem = s.mem := by
  unfold State.settleResume
  dsimp only
  split <;> rfl

theorem State.met_settleResume (s : State) (ctx : Nat) : (s.settleResume ctx).met = s.met := by
  unfold State.settleResume
  dsimp only
  split <;> rfl

/-- A restored context runs once none of its teams is saved; its cache is as it was. -/
theorem State.ctxAt_settleResume {s : State} {ctx : Nat} (h : (s.ctxAt ctx).ctxState = 3) :
    let c := (s.settleResume ctx).ctxAt ctx
    c.ctxState = (if s.teams.any fun e => e.2.phase == .saved && (s.gridAt e.2.grid).ctx == ctx then 3 else 0) ∧
    c.rcParams = (s.ctxAt ctx).rcParams ∧ c.rcSteps = (s.ctxAt ctx).rcSteps ∧ c.rcVersion = (s.ctxAt ctx).rcVersion := by
  have hall : (s.teams.all fun e => e.2.phase != .saved || (s.gridAt e.2.grid).ctx != ctx) =
      !(s.teams.any fun e => e.2.phase == .saved && (s.gridAt e.2.grid).ctx == ctx) := by
    rw [List.not_any_eq_all_not]
    congr 1
    funext e
    rw [Bool.not_and]
    rfl
  unfold State.settleResume
  generalize (s.teams.any fun e => e.2.phase == .saved && (s.gridAt e.2.grid).ctx == ctx) = b at hall ⊢
  dsimp only
  rw [hall]
  cases b with
  | true => rw [if_neg (by simp), if_pos rfl]; exact ⟨h, rfl, rfl, rfl⟩
  | false => rw [if_pos (by simp [h]), State.ctxAt_setCtxAt_self]; exact ⟨rfl, rfl, rfl, rfl⟩

theorem State.waitingRecs_congr {s t : State} {ctx : Nat} (hc : t.cores = s.cores) (hs : (t.ctxAt ctx).savedSlots = (s.ctxAt ctx).savedSlots)
    (hu : (t.ctxAt ctx).unitRecs = (s.ctxAt ctx).unitRecs) : t.waitingRecs ctx = s.waitingRecs ctx := by
  unfold State.waitingRecs
  dsimp only
  rw [hc, hs, hu]

theorem contextResume_restores {s : State} {ctx : Nat} (hr : s.pkg.inRecovery = false) (h2 : (s.ctxAt ctx).ctxState = 2) (hp : noPartials s) :
    ∃ t, exec (.contextResume ctx) s = .next t ∧ (s.waitingRecs ctx = 0 → t.mem = s.mem) ∧
      (t.ctxAt ctx).ctxState = (if s.teams.any fun e => e.2.phase == .saved && (s.gridAt e.2.grid).ctx == ctx then 3 else 0) ∧
      (∀ i, i < paramCount → KMap.get (t.ctxAt ctx).rcParams {} i =
        ({ master := wordOf s (paLocal (s.ctxAt ctx).rcImg.toNat + 12 * i), m := wordOf s (paLocal (s.ctxAt ctx).rcImg.toNat + 12 * i + 4),
           v := wordOf s (paLocal (s.ctxAt ctx).rcImg.toNat + 12 * i + 8) } : Param)) ∧
      (t.ctxAt ctx).rcSteps = (wordOf s (paLocal (s.ctxAt ctx).rcImg.toNat + 12 * paramCount)).toNat ∧
      (t.ctxAt ctx).rcVersion = (s.ctxAt ctx).rcVersion := by
  obtain ⟨ps, steps, hps, hsteps, e⟩ := State.readImage_of_noPartials hp ctx
  generalize hu : (s.readImage ctx).setCtxAt ctx { (s.readImage ctx).ctxAt ctx with ctxState := 3 } = u
  have hu' : u = (s.setCtxAt ctx { s.ctxAt ctx with rcParams := ps, rcSteps := steps }).setCtxAt ctx
      { s.ctxAt ctx with rcParams := ps, rcSteps := steps, ctxState := 3 } := by rw [← hu, e, State.ctxAt_setCtxAt_self]
  have hc : u.ctxAt ctx = { s.ctxAt ctx with rcParams := ps, rcSteps := steps, ctxState := 3 } := by rw [hu', State.ctxAt_setCtxAt_self]
  have hs : s.Still u := by rw [hu']; exact ⟨rfl, id, rfl⟩
  have hq := State.quiet_drainAll (hs.partials hp) ctx
  generalize hv : u.drainAll ctx = v at hq
  obtain ⟨hst, hpar, hstep, hver⟩ := hq.cache ctx
  rw [hc] at hst hpar hstep hver
  have ht : s.resumeCtx ctx = v.settleResume ctx := by
    unfold State.resumeCtx
    rw [if_neg (not_not.mpr h2), ← hv, ← hu]
  obtain ⟨hst', hpar', hstep', hver'⟩ := State.ctxAt_settleResume (ctx := ctx) hst
  have hteams : (v.teams.any fun e => e.2.phase == .saved && (v.gridAt e.2.grid).ctx == ctx) =
      s.teams.any fun e => e.2.phase == .saved && (s.gridAt e.2.grid).ctx == ctx := by
    simp only [(hs.trans hq.still).gridAt]
    refine (hq.teams (fun ph g => ph == .saved && (s.gridAt g).ctx == ctx) rfl).trans ?_
    rw [hu']
    rfl
  refine ⟨s.resumeCtx ctx, State.regEvent_eq hr ?_, fun hw => ?_, ?_, fun i hi => ?_, ?_, ?_⟩
  · rw [ht, State.met_settleResume]
    exact hq.met.trans hs.met
  · have hw' : u.waitingRecs ctx = 0 := by
      rw [State.waitingRecs_congr (s := s) (by rw [hu']; rfl) (by rw [hc]) (by rw [hc])]
      exact hw
    rw [ht, State.mem_settleResume, ← hv, State.drainAll_of_none hw', hu']
    rfl
  · rw [ht, hst', hteams]
  · rw [ht, hpar', hpar]
    exact hps i hi
  · rw [ht, hstep', hstep]
    exact hsteps
  · rw [ht, hver', hver]

end Sys2Proof.Machine
end

section
/-! PROOFS. The other events of a context (O52). -/
set_option maxRecDepth 100000

namespace Sys2Proof.Machine

open Sys2Proof.Claims


/-! ### Switches, invalidations and written registers -/

theorem KMap.find_update {α : Type} (m : KMap α) (f : Nat → α → α) (k : Nat) :
    KMap.find (KMap.update m f) k = (KMap.find m k).map (f k) := by
  induction m with
  | nil => rfl
  | cons e t ih =>
    obtain ⟨a, x⟩ := e
    unfold KMap.update at ih ⊢
    rw [List.map_cons]
    unfold KMap.find
    by_cases h : a = k
    · rw [if_pos h, if_pos h, h]
      rfl
    · rw [if_neg h, if_neg h, ih]

/-- SWITCH (R428, R429): each resident team of the context is asked to leave. -/
theorem switch_asks {s : State} {ctx : Nat} (hr : s.pkg.inRecovery = false) (h0 : (s.ctxAt ctx).ctxState = 0) :
    ∃ t, exec (.switch ctx) s = .next t ∧ (t.ctxAt ctx).ctxState = 1 ∧ t.mem = s.mem ∧
      ∀ k x, KMap.find s.teams k = some x → x.phase = .resident → (s.gridAt x.grid).ctx = ctx → (t.teamAt k).preReq = true := by
  have e : s.switchOut ctx = { s.setCtxAt ctx { s.ctxAt ctx with ctxState := 1, ctxNeed := 0 } with
      teams := s.teams.update fun _ t => if t.phase == .resident && (s.gridAt t.grid).ctx == ctx then { t with preReq := true } else t } := by
    unfold State.switchOut
    rw [if_neg (not_not.mpr h0)]
    rfl
  refine ⟨s.switchOut ctx, State.regEvent_eq hr (by rw [e]; rfl), ?_, by rw [e]; rfl, fun k x hf hph hc => ?_⟩
  · rw [e]
    exact congrArg Ctx.ctxState (State.ctxAt_setCtxAt_self s ctx _)
  · rw [e, State.teamAt, KMap.get, KMap.find_update, hf]
    change (if x.phase == .resident && (s.gridAt x.grid).ctx == ctx then { x with preReq := true } else x).preReq = true
    rw [if_pos (by simp [hph, hc])]

/-- SWITCH_COMPLETE (R429). -/
theorem switchComplete_saves {s u : State} {ctx : Nat} (h1 : (s.ctxAt ctx).ctxState = 1) (hk : (s.ctxAt ctx).killing = false)
    (hn : s.anyResident ctx = false) (hu : s.saveRoom ctx = (u, true)) (v : State)
    (hv : v = ((((u.gridsIn ctx (· == .running)).foldl State.spillGrid u).saveSlots ctx).saveCache ctx).releaseSeg ctx) (hm : unheld s v) :
    exec (.switchComplete ctx) s = .next ((v.setCtxAt ctx { v.ctxAt ctx with ctxState := 2, trGap := true }).raise ctx) := by
  have hg : ¬(decide ((s.ctxAt ctx).ctxState ≠ 1) || (s.ctxAt ctx).killing || s.anyResident ctx) = true := by simp [h1, hk, hn]
  change execSwitchComplete ctx s = _
  unfold execSwitchComplete
  dsimp only
  rw [if_neg hg, hu]
  dsimp only
  rw [← hv, if_neg (by simp)]
  refine congrArg _ (if_pos ?_)
  exact (State.calm_raise _ _).met.trans hm

/-- INVALIDATION_REQUEST (R25): no TLB keeps an entry of the request's range. -/
theorem invalidationRequest_drops {s : State} (ctx : Nat) (hr : s.pkg.inRecovery = false) (n : W32) :
    ∃ t, exec (.invalidationRequest ctx n) s = .next t ∧
      (t.ctxAt ctx).invReqs = (s.ctxAt ctx).invReqs ++ [{ page := (s.ctxAt ctx).invVA, count := n }] ∧
      (∀ co ∈ t.cores, ∀ e ∈ co.2.tlb, e.ctx = ctx → e.hit { page := (s.ctxAt ctx).invVA, count := n } = false) ∧
      ∀ cl ∈ t.pkg.ctlb, ∀ e ∈ cl.2, e.ctx = ctx → e.hit { page := (s.ctxAt ctx).invVA, count := n } = false := by
  have gone (r : InvReq) (es : List TlbEntry) (e : TlbEntry) (he : e ∈ es.filter fun e => !(e.ctx == ctx && e.hit r)) (hc : e.ctx = ctx) :
      e.hit r = false := by
    have := (List.mem_filter.mp he).2
    simpa [hc] using this
  refine ⟨s.invalidate ctx n, State.regEvent_eq hr rfl, ?_, fun co hco e he => ?_, fun cl hcl e he => ?_⟩
  · exact congrArg Ctx.invReqs (State.ctxAt_setCtxAt_self s ctx _)
  · obtain ⟨co', _, rfl⟩ := List.mem_map.mp hco
    exact gone _ _ e he
  · obtain ⟨cl', _, rfl⟩ := List.mem_map.mp hcl
    exact gone _ _ e he

/-- FQHEAD_WRITE (R45) where no access meets a lock. -/
theorem fqheadWrite_of_met {s : State} {ctx : Nat} {h : W32} (hr : s.pkg.inRecovery = false)
    (hm : ((s.setCtxAt ctx { s.ctxAt ctx with fqHead := h }).drainAll ctx).met = s.met) :
    exec (.fqheadWrite ctx h) s = .next ((s.setCtxAt ctx { s.ctxAt ctx with fqHead := h }).drainAll ctx) := State.regEvent_eq hr hm

theorem fqheadWrite_frees {s : State} (ctx : Nat) (hr : s.pkg.inRecovery = false) (h : W32) :
    (s.waitingRecs ctx = 0 → exec (.fqheadWrite ctx h) s = .next (s.setCtxAt ctx { s.ctxAt ctx with fqHead := h })) ∧
    (noPartials s → exec (.fqheadWrite ctx h) s = .next ((s.setCtxAt ctx { s.ctxAt ctx with fqHead := h }).drainAll ctx)) := by
  constructor
  · intro hw
    have hw' : (s.setCtxAt ctx { s.ctxAt ctx with fqHead := h }).waitingRecs ctx = 0 := by
      refine (State.waitingRecs_congr ?_ ?_ ?_).trans hw
      · rfl
      · rw [State.ctxAt_setCtxAt_self]
      · rw [State.ctxAt_setCtxAt_self]
    rw [fqheadWrite_of_met hr (by rw [State.drainAll_of_none hw']; rfl), State.drainAll_of_none hw']
  · intro hp
    exact fqheadWrite_of_met hr (State.quiet_drainAll (s := s.setCtxAt ctx { s.ctxAt ctx with fqHead := h }) hp ctx).met

theorem pinwWrite_sets (n : BitVec 4) {s : State} (hr : s.pkg.inRecovery = false) :
    ∃ t, exec (.pinwWrite n) s = .next t ∧ t.mem = s.mem ∧ t.pkg.pinw = if n.toNat ≤ 8 then n.toNat else s.pkg.pinw := by
  by_cases h : 8 < n.toNat
  · have e : s.setPinw n.toNat = s := if_pos h
    exact ⟨s.setPinw n.toNat, State.regEvent_eq hr (by rw [e]), by rw [e], by rw [e, if_neg (by omega)]⟩
  · have e : s.setPinw n.toNat = s.modPkg fun p =>
        { p with pinw := n.toNat, pinned := if n.toNat < p.pinw then keepPinned n.toNat p.pinned else p.pinned } := if_neg h
    exact ⟨s.setPinw n.toNat, State.regEvent_eq hr (by rw [e]; rfl), by rw [e]; rfl, by rw [e, if_pos (by omega)]; rfl⟩

theorem contextEventsHold_holds : contextEventsHold := by
  refine ⟨fun ctx s hr => ⟨switch_asks hr, fun h1 hk hn u hu hm => ?_, contextResume_restores hr, kill_ends hr,
    invalidationRequest_drops ctx hr, fun hd => congrArg _ (if_pos hd), fqheadWrite_frees ctx hr⟩, fun s hr => ?_, fun n s hr => pinwWrite_sets n hr⟩
  · exact switchComplete_saves h1 hk hn hu _ rfl hm
  · exact ⟨_, State.regEvent_eq hr rfl, rfl, rfl⟩

end Sys2Proof.Machine
end

section
/-! PROOFS. Held transfers of a tape (O52). -/
set_option maxRecDepth 100000

namespace Sys2Proof.Machine

open Sys2Proof.Claims


/-! ### What an engine's writes leave of the groups -/

/-- The focus, and each group's tape and lanes, are as they were. -/
structure State.SameTapes (s t : State) : Prop where
  foc : t.foc = s.foc
  grp : ∀ k, (t.grpAt k).tape = (s.grpAt k).tape ∧ (t.grpAt k).lanes = (s.grpAt k).lanes

theorem State.SameTapes.refl (s : State) : s.SameTapes s := ⟨rfl, fun _ => ⟨rfl, rfl⟩⟩
theorem State.SameTapes.trans {s t u : State} (h : s.SameTapes t) (h' : t.SameTapes u) : s.SameTapes u :=
  ⟨h'.foc.trans h.foc, fun k => ⟨(h'.grp k).1.trans (h.grp k).1, (h'.grp k).2.trans (h.grp k).2⟩⟩
theorem State.SameTapes.of_groups {s t : State} (hf : t.foc = s.foc) (hg : t.groups = s.groups) : s.SameTapes t :=
  ⟨hf, fun k => by rw [State.grpAt, State.grpAt, hg]; exact ⟨rfl, rfl⟩⟩
theorem State.Calm.sameTapes {s t : State} (h : s.Calm t) : s.SameTapes t := .of_groups h.foc h.groups

theorem State.SameTapes.foldl {α : Type} {f : State → α → State} (hf : ∀ (s : State) (a : α), s.SameTapes (f s a)) (s : State) (l : List α) :
    s.SameTapes (l.foldl f s) :=
  List.foldlRecOn (motive := s.SameTapes) _ _ (.refl s) fun t h a _ => h.trans (hf t a)

theorem State.sameTapes_setCoreAt (s : State) (k : Nat) (c : CoreSt) : s.SameTapes (s.setCoreAt k c) := .of_groups rfl rfl
theorem State.sameTapes_send (s : State) (q : PeerReq) : s.SameTapes (s.send q).1 := .of_groups rfl rfl

theorem State.sameTapes_meet (s : State) (pa n : Nat) (w : Bool) : s.SameTapes (s.meet pa n w) := by
  unfold State.meet
  split
  · exact .of_groups rfl rfl
  · exact .refl s

theorem State.sameTapes_sendLine (s : State) (l : L1Line) : s.SameTapes (s.sendLine l) := by
  refine (s.sameTapes_meet _ _ _).trans (.foldl (fun t w => ?_) _ _)
  refine .trans ?_ (State.calm_applyWord _ _ _ _ _ _ _ _ _ _ _).sameTapes
  unfold State.meetUnit
  split
  · exact .of_groups rfl rfl
  · exact .refl t

theorem State.sameTapes_sendU (s : State) (k n : Nat) : s.SameTapes (s.sendU k n) := by
  unfold State.sendU
  split
  · split
    · exact (s.sameTapes_setCoreAt _ _).trans (State.sameTapes_sendLine _ _)
    · exact .refl s
  · exact .refl s

theorem State.sameTapes_gatherRange (s : State) (pa n : Nat) : s.SameTapes (s.gatherRange pa n) :=
  .foldl (fun _ _ => .foldl (fun _ _ => State.sameTapes_sendU _ _ _) _ _) _ _

theorem State.sameTapes_homeWrite (s : State) (pa cp : Nat) (bs : List Byte) (poi : List Bool) : s.SameTapes (s.homeWrite pa cp bs poi) := by
  have hg := (s.sameTapes_meet pa bs.length true).trans (State.sameTapes_gatherRange _ pa bs.length)
  unfold State.homeWrite
  generalize (s.meet pa bs.length true).gatherRange pa bs.length = t at hg
  refine hg.trans ?_
  unfold State.lockedWrite
  have ht := (t.otherLlc_touchRange pa bs.length cp).calm.sameTapes
  dsimp only
  split
  · exact ht
  · obtain ⟨m, hm⟩ := ((t.touchRange pa bs.length cp).hbmWrite (paLocal pa) bs).hbmPoison_eq (markedWords (paLocal pa) bs.length poi)
    rw [hm]
    exact (ht.trans (State.calm_hbmWrite _ (paLocal pa) bs).sameTapes).trans (.of_groups rfl rfl)

theorem State.sameTapes_flagLanded (s : State) (grp : Nat) (tag : Nat × Nat) : s.SameTapes (s.flagLanded grp tag) := by
  unfold State.flagLanded
  split
  · exact .refl s
  · refine ⟨rfl, fun k => ?_⟩
    rw [State.grpAt_setGrpAt]
    split
    · rename_i e
      exact e ▸ ⟨rfl, rfl⟩
    · exact ⟨rfl, rfl⟩

theorem State.sameTapes_dropFills (s : State) (core : Nat) (p : Nat → Bool) : s.SameTapes (s.dropFills core p) := by
  unfold State.dropFills
  split
  · exact .of_groups rfl rfl
  · exact .refl s

theorem State.sameTapes_dropRange (s : State) (core pa n : Nat) : s.SameTapes (s.dropRange core pa n) :=
  (s.sameTapes_setCoreAt _ _).trans (State.sameTapes_dropFills _ _ _)

theorem State.sameTapes_performStore (s : State) (core : Option Nat) (e : WbEntry) : s.SameTapes (s.performStore core e) := by
  unfold State.performStore
  dsimp only
  split
  · split
    · exact (s.sameTapes_homeWrite _ _ _ _).trans (State.sameTapes_flagLanded _ _ _)
    · exact s.sameTapes_homeWrite _ _ _ _
  · split
    · exact (s.sameTapes_dropFills _ _).trans (State.sameTapes_send _ _)
    · exact s.sameTapes_send _

theorem State.sameTapes_drain (s : State) (core : Nat) : s.SameTapes (s.drain core) := by
  refine .foldl (fun t _ => ?_) _ _
  unfold State.drainOne
  dsimp only
  split
  · exact .refl t
  · split
    · exact .refl t
    · exact (t.sameTapes_setCoreAt _ _).trans (State.sameTapes_performStore _ _ _)

theorem State.sameTapes_drainRange (s : State) (core pa n : Nat) : s.SameTapes (s.drainRange core pa n) := by
  refine .foldl (fun t l => ?_) _ _
  unfold State.drainLine
  dsimp only
  split
  · split
    · exact (t.sameTapes_drain core).trans (.of_groups rfl rfl)
    · exact t.sameTapes_drain core
  · exact .refl t

theorem State.sameTapes_writeParts (s : State) (acc : Acc) (mask : Mask) (ps : List Part) (b : Bytes) (tape : Bool) :
    s.SameTapes (s.writeParts acc mask ps b tape) := by
  refine List.foldlRecOn (motive := fun x : State × Bytes => s.SameTapes x.1) _ _ (.refl s) fun x h p _ => ?_
  dsimp only
  split
  · exact h.trans (((State.sameTapes_drainRange _ _ _ _).trans (State.sameTapes_dropRange _ _ _ _)).trans (State.sameTapes_homeWrite _ _ _ _ _))
  · exact h.trans (((State.sameTapes_drainRange _ _ _ _).trans (State.sameTapes_dropRange _ _ _ _)).trans (State.sameTapes_performStore _ _ _))

theorem State.SameTapes.g {s t : State} (h : s.SameTapes t) : t.g.tape = s.g.tape ∧ t.g.lanes = s.g.lanes := by
  rw [State.g, h.foc]
  exact h.grp _

/-! ### What a tape's slice holds (R169) leaves the groups and memory -/

/-- The focus, the groups and memory are as they were. -/
structure State.SameGroups (s t : State) : Prop where
  foc : t.foc = s.foc
  groups : t.groups = s.groups
  mem : t.mem = s.mem

theorem State.SameGroups.refl (s : State) : s.SameGroups s := ⟨rfl, rfl, rfl⟩
theorem State.SameGroups.trans {s t u : State} (h : s.SameGroups t) (h' : t.SameGroups u) : s.SameGroups u :=
  ⟨h'.foc.trans h.foc, h'.groups.trans h.groups, h'.mem.trans h.mem⟩
theorem State.SameGroups.g {s t : State} (h : s.SameGroups t) : t.g = s.g := by
  rw [State.g, h.foc, State.grpAt, h.groups]
  rfl

theorem State.sameGroups_tapePut (s : State) (t : Nat) (bs : List Byte) : s.SameGroups (s.tapePut t bs) :=
  List.foldlRecOn (motive := fun x : State × List Byte => s.SameGroups x.1) _ _ (.refl s) fun _ h _ _ => h.trans ⟨rfl, rfl, rfl⟩

theorem State.sameGroups_tapePoison (s : State) (t n : Nat) : s.SameGroups (s.tapePoison t n) :=
  List.foldlRecOn (motive := s.SameGroups) _ _ (.refl s) fun _ h _ _ => h.trans ⟨rfl, rfl, rfl⟩

/-- The slice once n bytes that a fill has read stand in it, with the poison of their words (R71, R174). -/
def State.sliceFilled (s : State) (t n : Nat) (b : Bytes) : State :=
  (List.range (n / 8)).foldl (fun s i => if ((b.poi.drop (8 * i)).take 8).any id then s.tapePoison (t + 8 * i) 8 else s) (s.tapePut t b.data)

theorem State.sameGroups_sliceFilled (s : State) (t n : Nat) (b : Bytes) : s.SameGroups (s.sliceFilled t n b) := by
  refine List.foldlRecOn (motive := s.SameGroups) _ _ (s.sameGroups_tapePut t b.data) fun x h i _ => ?_
  split
  · exact h.trans (State.sameGroups_tapePoison _ _ _)
  · exact h

/-! ### Held transfers (R34, R174) -/

theorem spillOne_moves {fore : Bool} {s u : State} {ps : List Part} {t e : Nat} (hst : s.tapeStuck = false) (ho : s.g.tape.oldest = some (t, e))
    (he : e ≤ s.gr.lrec.tseg) (hm : s.mapRun .tape (s.segBase + BitVec.ofNat 64 t) (e - t) = (u, ps, [])) :
    ∃ v, s.spillOne fore = .done v ∧ v.g.tape = { u.g.tape with b := e } ∧ v.g.lanes = u.g.lanes := by
  have h := (u.sameTapes_writeParts .tape u.g.tape.opMask ps (u.tapeGet t (e - t)) true).g
  refine ⟨(u.writeParts .tape u.g.tape.opMask ps (u.tapeGet t (e - t)) true).modTape fun x => { x with b := e }, ?_, ?_, ?_⟩
  · unfold State.spillOne
    rw [if_neg (Bool.eq_false_iff.mp hst), ho]
    dsimp only
    rw [if_neg (Nat.not_lt.mpr he), hm]
  · rw [State.modTape, State.g_modG]
    dsimp only
    rw [h.1]
  · rw [State.modTape, State.g_modG]
    exact h.2

theorem fillOne_moves {fore : Bool} {s u v : State} {ps : List Part} {b : Bytes} {t : Nat} (hst : s.tapeStuck = false)
    (hy : s.g.tape.youngest = some t) (hl : s.g.tape.top - t ≤ s.gr.lrec.slice)
    (hm : s.mapRun .tape (s.segBase + BitVec.ofNat 64 t) (s.g.tape.b - t) = (u, ps, [])) (hr : u.readSegment ps = (v, b, [])) :
    ∃ w, s.fillOne fore = .done w ∧ w.g.tape = { v.g.tape with b := t, fetched := [] } ∧ w.g.lanes = v.g.lanes ∧ w.mem = v.mem := by
  have hx := v.sameGroups_sliceFilled t (s.g.tape.b - t) b
  refine ⟨(v.sliceFilled t (s.g.tape.b - t) b).modTape fun x => { x with b := t, fetched := [] }, ?_, ?_, ?_, hx.mem⟩
  · unfold State.fillOne
    rw [if_neg (Bool.eq_false_iff.mp hst), hy]
    dsimp only
    rw [if_neg (Nat.not_lt.mpr hl), hm]
    dsimp only
    rw [hr]
    rfl
  · rw [State.modTape, State.g_modG, hx.g]
  · rw [State.modTape, State.g_modG, hx.g]

/-- A RETRY of a context with nothing held does nothing. -/
theorem fqctlRetry_of_none {ctx : Nat} {s : State} (hr : s.pkg.inRecovery = false) (h : ∀ e ∈ s.groups, e.2.tape.held = none) :
    exec (.fqctlRetry ctx) s = .next s.bump := by
  have e : s.retryHeld ctx = s.bump := by
    unfold State.retryHeld
    have hn : (s.groups.filterMap fun e =>
        if e.2.tape.held.isSome && e.2.phase != .retired && (s.teamAt e.2.team).phase == .resident && (s.gridAt (s.teamAt e.2.team).grid).ctx == ctx then
          some e.1
        else none) = [] := List.filterMap_eq_nil_iff.mpr fun e he => by simp [h e he]
    dsimp only
    rw [hn]
    rfl
  refine (State.regEvent_eq hr ?_).trans (congrArg _ e)
  rw [e]
  rfl

/-- A transfer of a group alone that has performed leaves what it made (R34). -/
theorem retryTape_performs {k : Nat} {spill : Bool} {s w : State} (hh : (s.grpAt k).tape.held = some spill) (hb : (s.grpAt k).tape.heldBack = false)
    (hp : (s.grpAt k).phase ≠ .retired) (ht : (s.teamAt (s.grpAt k).team).phase = .resident)
    (hc : (s.ctxAt (s.gridAt (s.teamAt (s.grpAt k).team).grid).ctx).holds (.tape k) = false)
    (hw : (if spill then ((s.focusGrp k).modTape fun t => { t with held := none }).spillOne false
      else ((s.focusGrp k).modTape fun t => { t with held := none }).fillOne false) = .done w) : s.retryTape k = w := by
  have hg : ¬((s.focusGrp k).c.holds (.tape k) || (s.focusGrp k).t.phase != .resident || (s.focusGrp k).g.phase == .retired) = true := by
    change ¬((s.ctxAt (s.gridAt (s.teamAt (s.grpAt k).team).grid).ctx).holds (.tape k) || (s.teamAt (s.grpAt k).team).phase != .resident
      || (s.grpAt k).phase == .retired) = true
    simp [hc, ht, hp]
  have hheld : (s.focusGrp k).g.tape.held = some spill := hh
  have hback : (s.focusGrp k).g.tape.heldBack = false := hb
  unfold State.retryTape
  dsimp only
  rw [hheld]
  dsimp only
  rw [if_neg hg, hw, hback]
  rfl

theorem retriesHold_holds : retriesHold := by
  refine ⟨fun ctx s hr => ⟨fqctlRetry_of_none hr, ?_⟩, fun fore s u ps t e => spillOne_moves, fun fore s u v ps b t => fillOne_moves⟩
  intro k spill w g hone hh hb hp ht hc hhold v hw hm
  have hks : (s.groups.filterMap fun e =>
      if e.2.tape.held.isSome && e.2.phase != .retired && (s.teamAt e.2.team).phase == .resident && (s.gridAt (s.teamAt e.2.team).grid).ctx == ctx then
        some e.1
      else none) = [k] := by
    have hone' := congrArg (List.filterMap fun e : Nat × Grp =>
      if e.2.tape.held.isSome && e.2.phase != .retired && (s.teamAt e.2.team).phase == .resident && (s.gridAt (s.teamAt e.2.team).grid).ctx == ctx then
        some e.1
      else none) hone
    rw [List.filterMap_filter] at hone'
    refine (List.filterMap_congr fun e _ => ?_).trans (hone'.trans ?_)
    · by_cases h : e.2.tape.held.isSome = true
      · rw [if_pos h]
      · rw [if_neg h]
        simp [Bool.not_eq_true _ ▸ h]
    · simp [g, hh, hp, ht, hc]
  have e : s.retryHeld ctx = w.bump := by
    unfold State.retryHeld
    dsimp only
    rw [hks, List.foldl_cons, List.foldl_nil, retryTape_performs hh hb hp ht (by rw [hc]; exact hhold) hw]
  refine (State.regEvent_eq hr ?_).trans (congrArg _ e)
  rw [e]
  exact hm

end Sys2Proof.Machine
end

section
/-! PROOFS. Teams that leave and come back (O52). -/
set_option maxRecDepth 100000

namespace Sys2Proof.Machine

open Sys2Proof.Claims


/-! ### A team saved (R426) -/

/-- A team that leaves its core: what it holds stays, its allocation and its reservation go. -/
def Team.left (t : Team) : Team :=
  { t with phase := if t.phase == .resident then .saved else t.phase, size := 0, reserved := 0, preReq := false }

theorem Team.left_left (t : Team) : t.left.left = t.left := by
  have h : (t.left.phase == TeamPhase.resident) = false := by
    change ((if t.phase == .resident then TeamPhase.saved else t.phase) == .resident) = false
    split
    · rfl
    · rename_i h
      exact Bool.eq_false_iff.mpr h
  rw [Team.left, h]
  rfl

/-- The registers of a group, its flags, its handler and its tape: all that a save keeps (R426). -/
def Grp.SameRegs (g h : Grp) : Prop :=
  h.lanes = g.lanes ∧ h.s = g.s ∧ h.m = g.m ∧ h.a = g.a ∧ h.z = g.z ∧ h.handler = g.handler ∧ h.flags = g.flags ∧ h.tape = g.tape

theorem Grp.SameRegs.refl (g : Grp) : g.SameRegs g := ⟨rfl, rfl, rfl, rfl, rfl, rfl, rfl, rfl⟩
theorem Grp.SameRegs.trans {a b c : Grp} (h : a.SameRegs b) (h' : b.SameRegs c) : a.SameRegs c := by
  obtain ⟨h1, h2, h3, h4, h5, h6, h7, h8⟩ := h
  obtain ⟨k1, k2, k3, k4, k5, k6, k7, k8⟩ := h'
  exact ⟨k1.trans h1, k2.trans h2, k3.trans h3, k4.trans h4, k5.trans h5, k6.trans h6, k7.trans h7, k8.trans h8⟩

/-- The waits of a group saved: its replies and perhaps its stall go, and nothing else of any group. -/
theorem State.grpAt_saveWait (s : State) (k : Nat) :
    ∃ w, ∀ j, (s.saveWait k).grpAt j = if k = j then { s.grpAt k with replies := [], stall := w } else s.grpAt j := by
  have twice (w : Stall) (j : Nat) : ((s.setGrpAt k { s.grpAt k with replies := [] }).setGrpAt k { s.grpAt k with replies := [], stall := w }).grpAt j =
      if k = j then { s.grpAt k with replies := [], stall := w } else s.grpAt j := by
    rw [State.grpAt_setGrpAt, State.grpAt_setGrpAt]
    split <;> rfl
  unfold State.saveWait
  dsimp only
  split
  · exact ⟨.none, twice _⟩
  · exact ⟨.none, twice _⟩
  · exact ⟨.none, twice _⟩
  · exact ⟨(s.grpAt k).stall, fun j => State.grpAt_setGrpAt _ _ _ _⟩

theorem State.saveWait_frame (s : State) (k : Nat) : (s.saveWait k).teams = s.teams ∧ (s.saveWait k).mem = s.mem := by
  unfold State.saveWait
  dsimp only
  split <;> exact ⟨rfl, rfl⟩

theorem State.mem_groups_saveWait {s : State} {e : Nat × Grp} (h : e ∈ s.groups) {k : Nat} (hk : e.1 ≠ k) : e ∈ (s.saveWait k).groups := by
  have stays {m : KMap Grp} (x : Grp) (hm : e ∈ m) : e ∈ KMap.set m k x := (KMap.mem_set_or_find (k := k) x hm).resolve_right fun h => hk h.1
  unfold State.saveWait
  dsimp only
  split
  · exact stays _ (stays _ h)
  · exact stays _ (stays _ h)
  · exact stays _ (stays _ h)
  · exact stays _ h

/-- Each group of the first state is as it was in the second but for its replies and its stall, teams and memory are as they were, and a
group without replies, or gone from the list, has none. -/
structure State.Waited (s t : State) : Prop where
  teams : t.teams = s.teams
  mem : t.mem = s.mem
  regs : ∀ j, (s.grpAt j).SameRegs (t.grpAt j)
  quiet : ∀ j, (s.grpAt j).replies = [] → (t.grpAt j).replies = []
  listed : ∀ e ∈ s.groups, e ∈ t.groups ∨ (t.grpAt e.1).replies = []

theorem State.Waited.refl (s : State) : s.Waited s := ⟨rfl, rfl, fun _ => .refl _, fun _ h => h, fun _ h => .inl h⟩

theorem State.Waited.trans {s t u : State} (h : s.Waited t) (h' : t.Waited u) : s.Waited u where
  teams := h'.teams.trans h.teams
  mem := h'.mem.trans h.mem
  regs j := (h.regs j).trans (h'.regs j)
  quiet j hj := h'.quiet j (h.quiet j hj)
  listed e he := (h.listed e he).elim (h'.listed e) fun hr => .inr (h'.quiet _ hr)

theorem State.replies_saveWait (s : State) (k : Nat) : ((s.saveWait k).grpAt k).replies = [] := by
  obtain ⟨w, hw⟩ := s.grpAt_saveWait k
  rw [hw, if_pos rfl]

theorem State.waited_saveWait (s : State) (k : Nat) : s.Waited (s.saveWait k) := by
  obtain ⟨w, hw⟩ := s.grpAt_saveWait k
  obtain ⟨ht, hm⟩ := s.saveWait_frame k
  refine ⟨ht, hm, fun j => ?_, fun j hj => ?_, fun e he => ?_⟩
  · rw [hw]
    split
    · rename_i h
      exact h ▸ Grp.SameRegs.refl _
    · exact .refl _
  · rw [hw]
    split
    · rfl
    · exact hj
  · by_cases h : e.1 = k
    · exact .inr (h ▸ s.replies_saveWait k)
    · exact .inl (State.mem_groups_saveWait he h)

theorem State.waited_saveWaits (s : State) (l : List (Nat × Grp)) :
    s.Waited (l.foldl (fun s e => s.saveWait e.1) s) ∧ ∀ e ∈ l, ((l.foldl (fun s e => s.saveWait e.1) s).grpAt e.1).replies = [] := by
  induction l generalizing s with
  | nil => exact ⟨.refl s, fun e he => absurd he List.not_mem_nil⟩
  | cons x l ih =>
    obtain ⟨hw, hr⟩ := ih (s.saveWait x.1)
    refine ⟨(s.waited_saveWait x.1).trans hw, fun e he => ?_⟩
    rcases List.mem_cons.mp he with rfl | he
    · exact hw.quiet _ (s.replies_saveWait _)
    · exact hr e he

/-- One team saved: what it gives back changes no team and no group, then the team leaves, and its groups' waits are saved. -/
theorem State.saveTeam_eq (s : State) (k : Nat) : ∃ x : State, x.teams = s.teams ∧ x.groups = s.groups ∧ x.mem = s.mem ∧
    s.saveTeam k = (s.groups.filter fun e => e.2.team == k && e.2.phase == .running).foldl (fun s e => s.saveWait e.1) (x.setTeamAt k (s.teamAt k).left) := by
  unfold State.saveTeam
  dsimp only
  split
  · split
    · refine ⟨_, ?_, ?_, ?_, rfl⟩ <;> rfl
    · refine ⟨_, ?_, ?_, ?_, rfl⟩ <;> rfl
  · split
    · refine ⟨_, ?_, ?_, ?_, rfl⟩ <;> rfl
    · refine ⟨_, ?_, ?_, ?_, rfl⟩ <;> rfl

/-- A team's save leaves memory and every register of every group, no reply of its own groups, and the team alone changed. -/
theorem State.saveTeam_saves (s : State) (k : Nat) : (s.saveTeam k).mem = s.mem ∧
    (∀ j, (s.saveTeam k).teamAt j = if k = j then (s.teamAt k).left else s.teamAt j) ∧
    (∀ j, (s.grpAt j).SameRegs ((s.saveTeam k).grpAt j)) ∧
    (∀ j, (s.grpAt j).replies = [] → ((s.saveTeam k).grpAt j).replies = []) ∧
    (∀ e ∈ s.groups, e ∈ (s.saveTeam k).groups ∨ ((s.saveTeam k).grpAt e.1).replies = []) ∧
    ∀ e ∈ s.groups, e.2.team = k → e.2.phase = .running → ((s.saveTeam k).grpAt e.1).replies = [] := by
  obtain ⟨x, ht, hg, hm, e⟩ := s.saveTeam_eq k
  obtain ⟨hw, hr⟩ := State.waited_saveWaits (x.setTeamAt k (s.teamAt k).left) (s.groups.filter fun e => e.2.team == k && e.2.phase == .running)
  rw [← e] at hw hr
  have hgrp (j : Nat) : (x.setTeamAt k (s.teamAt k).left).grpAt j = s.grpAt j := by
    rw [State.grpAt_setTeamAt, State.grpAt, hg]
    rfl
  refine ⟨hw.mem.trans hm, fun j => ?_, fun j => hgrp j ▸ hw.regs j, fun j h => hw.quiet j (by rwa [hgrp]), fun e he => hw.listed e (hg ▸ he),
    fun e he h1 h2 => hr e (List.mem_filter.mpr ⟨he, by simp [h1, h2]⟩)⟩
  have hj : (s.saveTeam k).teamAt j = (x.setTeamAt k (s.teamAt k).left).teamAt j := by rw [State.teamAt, hw.teams]; rfl
  rw [hj, State.teamAt_setTeamAt]
  split
  · rfl
  · rw [State.teamAt, ht]
    rfl

/-- A set saved, team by team. -/
theorem State.saveTeams_save (s : State) (ks : List Nat) : let t := ks.foldl (fun s k => s.saveTeam k) s
    t.mem = s.mem ∧ (∀ j, t.teamAt j = if j ∈ ks then (s.teamAt j).left else s.teamAt j) ∧ (∀ j, (s.grpAt j).SameRegs (t.grpAt j)) ∧
    (∀ j, (s.grpAt j).replies = [] → (t.grpAt j).replies = []) ∧
    ∀ e ∈ s.groups, e.2.team ∈ ks → e.2.phase = .running → (t.grpAt e.1).replies = [] := by
  induction ks generalizing s with
  | nil => exact ⟨rfl, fun j => (if_neg List.not_mem_nil).symm, fun j => .refl _, fun j h => h, fun e _ h => absurd h List.not_mem_nil⟩
  | cons k ks ih =>
    obtain ⟨hm, ht, hr, hq, hl, hk⟩ := s.saveTeam_saves k
    obtain ⟨hm', ht', hr', hq', hk'⟩ := ih (s.saveTeam k)
    refine ⟨hm'.trans hm, fun j => ?_, fun j => (hr j).trans (hr' j), fun j h => hq' j (hq j h), fun e he h1 h2 => ?_⟩
    · rw [List.foldl_cons, ht', ht]
      by_cases hj : k = j
      · subst hj
        rw [if_pos rfl, if_pos List.mem_cons_self, Team.left_left, ite_self]
      · rw [if_neg hj]
        simp [Ne.symm hj]
    · rcases List.mem_cons.mp h1 with h1 | h1
      · exact hq' _ (hk e he h1 h2)
      · rcases hl e he with he' | he'
        · exact hk' e he' h1 h2
        · exact hq' _ he'

/-! ### Teams that leave and come back (R425 to R427) -/

theorem eviction_saves {team : Nat} {s u v : State} {cores : List Nat} (hcores : cores = (s.setOf team).map fun k => (s.teamAt k).core)
    (hu : u = cores.foldl (fun s c => s.flushCore c) s) (he : s.canEvict team = true) (hm : unheld s u) (hc : ∀ c ∈ cores, u.coreClear c = true)
    (hv : u.saveRoom (s.gridAt (s.teamAt team).grid).ctx = (v, true)) :
    exec (.eviction team) s = .next ((v.setOf team).foldl (fun s k => s.saveTeam k) v) := by
  have hall : ¬(!cores.all u.coreClear) = true := by simpa using hc
  change execEviction team s = _
  unfold execEviction
  rw [he]
  dsimp only
  rw [← hcores, ← hu, if_neg (by simp), if_neg (not_not.mpr hm), if_neg hall, hv]
  rfl

theorem teamRestore_seats {team core : Nat} {s : State} {ks : List (Nat × Nat)} (hr : s.canRestore team = true)
    (ho : s.outranked (s.teamAt team).grid = false) (hn : ∃ k ∈ s.setOf team, s.nextSaved (s.teamAt team).grid = some k)
    (hk : s.restoreCores team core = some ks) :
    exec (.teamRestore team core) s = .next ((ks.foldl (fun s x =>
      match s.seat x.1 x.2 with
      | none => s
      | some s => (s.teamAt x.1).groups.foldl State.retryTape (s.dropValid x.2 fun _ => true)) s).settleResume (s.gridAt (s.teamAt team).grid).ctx) := by
  obtain ⟨k, hk1, hk2⟩ := hn
  have hg : ¬(!s.canRestore team || s.outranked (s.teamAt team).grid || !(s.nextSaved (s.teamAt team).grid).any (s.setOf team).contains) = true := by
    simp [hr, ho, hk2, hk1]
  change execTeamRestore team core s = _
  unfold execTeamRestore
  dsimp only
  rw [if_neg hg, hk] <;> rfl

theorem teamsLeaveHold_holds : teamsLeaveHold := by
  refine ⟨fun team s v he hm hc hv => ?_, fun team core s ks => teamRestore_seats⟩
  obtain ⟨hmem, ht, hr, _, hq⟩ := v.saveTeams_save (v.setOf team)
  refine ⟨_, eviction_saves rfl rfl he hm hc hv, hmem, fun k hk hph => ?_, fun k hk => ?_, hr, hq⟩
  · rw [ht, if_pos hk, Team.left, hph]
    exact ⟨rfl, rfl, rfl, rfl, rfl, rfl, rfl⟩
  · rw [ht, if_neg hk]

/-- Settles O52: what leaves is saved with every register, what is held is tried again, and the events of a context act at once where no
access meets a lock. -/
theorem contexts : Obligations.Contexts := ⟨teamsLeaveHold_holds, retriesHold_holds, contextEventsHold_holds⟩

end Sys2Proof.Machine
end

section
/-! PROOFS. Fences and cache control words (O38). -/

namespace Sys2Proof.Machine

open Sys2Proof.Claims

/-! ### A word that waits -/

/-- A release that is not complete holds its group (R86). -/
theorem State.orWait_of_not_drained (s : State) {need : Bool} {scope : Scope} (d : Did) (h : ¬drained need s scope) :
    s.orWait need scope d = .stall s .release := by
  obtain ⟨hn, hr⟩ := Classical.not_imp.mp h
  unfold State.orWait
  rw [hn, Bool.eq_false_iff.mpr hr]
  rfl

/-- An issue whose effect waits: its lanes stay at the word, and what the effect did so far stays done (R114). -/
theorem State.perform_stall (s : State) (h : Bool) (p : Pred) (chk : Nat → Bool) (op : State → Mask → Did) (hr : s.Runs p chk) {u : State}
    {st : Stall} (e : op (eff s p) (s.allowed p) = .stall u st) : s.perform h p chk op = stalled s u st := by
  rw [State.perform_runs s h p chk op hr, e]
  rfl

/-! ### Fences (R81, R86, R324) -/

/-- What a fence does: its release, and once that is complete its acquire. -/
def State.fenceDid (s : State) (f : MF) : Did :=
  let u := s.beforeWrite f.ord f.scope
  u.orWait (isRel f.ord) f.scope (.done (if isAcq f.ord then u.acquire f.scope else u) [])

theorem exec_fence (p : Pred) (f : MF) (s : State) :
    exec (.fence p f) s = s.perform true p (fun _ => true) fun s _ => s.fenceDid f := rfl

theorem State.fenceDid_of_drained {s : State} {f : MF} (h : drained (isRel f.ord) (s.beforeWrite f.ord f.scope) f.scope) :
    s.fenceDid f = .done (if isAcq f.ord then (s.beforeWrite f.ord f.scope).acquire f.scope else s.beforeWrite f.ord f.scope) [] :=
  State.orWait_of_drained _ _ h

theorem State.fenceDid_of_not_drained {s : State} {f : MF} (h : ¬drained (isRel f.ord) (s.beforeWrite f.ord f.scope) f.scope) :
    s.fenceDid f = .stall (s.beforeWrite f.ord f.scope) .release :=
  State.orWait_of_not_drained _ _ h

/-! ### Words on lines (R325) -/

/-- `op` at each place that the accesses of the lanes come to; one that fails a check comes to none. -/
def State.atPlaces (s : State) (op : State → Nat → Nat → State) (fs : List (Mask × Nat × Fate)) : State :=
  fs.foldl (fun s y => match y.2.2 with | .at' (.mem _ pa cp) => op s pa cp | _ => s) s

/-- What a word on lines does in some lanes. -/
def State.lineDid (s : State) (f : MF) (op : State → Nat → Nat → State) (act : Mask) : Did :=
  let r := s.fates { accessOf f .load false with hint := .none } 0 (fun _ _ => none) false (s.shares act false)
  .done (r.1.atPlaces op r.2) []

theorem State.lineOp_eq (s : State) (p : Pred) (f : MF) (op : State → Nat → Nat → State) :
    s.lineOp p f op = s.perform false p (s.opsOk [(f.a, 1), (f.b, 1)]) fun s act => s.lineDid f op act := rfl

theorem State.lineOp_runs {s : State} {p : Pred} {f : MF} (op : State → Nat → Nat → State) {u : State} {fs : List (Mask × Nat × Fate)}
    (hr : s.Runs p (s.opsOk [(f.a, 1), (f.b, 1)]))
    (e : (eff s p).fates { accessOf f .load false with hint := .none } 0 (fun _ _ => none) false ((eff s p).shares (s.allowed p) false) = (u, fs))
    (hm : unheld s (u.atPlaces op fs)) : s.lineOp p f op = retired (u.atPlaces op fs) := by
  rw [State.lineOp_eq]
  refine State.perform_done s false p _ _ hr _ ?_ hm
  unfold State.lineDid
  rw [e]

/-- Settles O38: a fence releases, waits and acquires; each word on lines acts on the lines that its lanes' checks let it come to. -/
theorem fencesAndLines : Obligations.FencesAndLines := by
  intro p f s
  dsimp only
  rw [exec_fence]
  refine ⟨fun hr hm => ⟨fun hd => ?_, fun hd => ?_⟩, fun hr hm hd => ?_, fun u fs hr e => ⟨fun hm => ?_, fun hm => ?_, fun hm => ?_⟩⟩
  · exact State.perform_done s true p _ (fun s _ => s.fenceDid f) hr _ (State.fenceDid_of_drained hd) hm
  · exact State.perform_stall s true p _ (fun s _ => s.fenceDid f) hr (State.fenceDid_of_not_drained hd)
  · exact State.perform_runsH s p _ (fun s _ => s.fenceDid f) hr rfl _ (State.fenceDid_of_drained hd) hm
  · exact State.lineOp_runs (fun s pa _ => s.dropValid s.foc.core (· == pa / 128)) hr e hm
  · exact State.lineOp_runs (fun s pa _ => s.sendU s.foc.core (pa / 128)) hr e hm
  · exact State.lineOp_runs (fun s pa cp => s.prefetch f.hint pa cp) hr e hm

end Sys2Proof.Machine
end

section
/-! PROOFS. Stores of the write buffer, and the grant by age (O34). -/

namespace Sys2Proof.Machine

open Sys2Proof.Claims

/-! ### The oldest buffered store (R61, R62, R91) -/

theorem State.coreAt_flagLanded (s : State) (grp : Nat) (tag : Nat × Nat) (k : Nat) : (s.flagLanded grp tag).coreAt k = s.coreAt k := by
  unfold State.flagLanded
  split <;> rfl

/-- A store that no lock, no partial and no spill region stands in the way of writes its bytes at their local home, and leaves the cores. -/
theorem State.performStore_clear {s : State} (hp : noPartials s) (core : Option Nat) {e : WbEntry} (hl : s.isLocal e.pa = true)
    (hb : s.blocked e.pa e.data.length true = false) (hr : s.inSpillRegion (paLocal e.pa) = false) :
    (s.performStore core e).mem = memWrite s.mem (paLocal e.pa) e.data ∧ ∀ k, (s.performStore core e).coreAt k = s.coreAt k := by
  obtain ⟨t, m, ht, hw⟩ := State.homeWrite_clear hp hb hr e.cp e.poi
  have hc (k : Nat) : ({ t with mem := memWrite s.mem (paLocal e.pa) e.data, memPoi := m } : State).coreAt k = s.coreAt k :=
    congrArg (fun cs => KMap.get cs _ k) ht.calm.cores
  unfold State.performStore
  rw [if_pos hl, hw]
  dsimp only
  split
  · exact ⟨mem_State_flagLanded _ _ _, fun k => (State.coreAt_flagLanded _ _ _ k).trans (hc k)⟩
  · exact ⟨rfl, hc⟩

theorem State.drainOne_of_blocked {s : State} {core : Nat} {e : WbEntry} {rest : List WbEntry} (hw : (s.coreAt core).wbuf = e :: rest)
    (hb : s.blocked e.pa e.data.length true = true) : s.drainOne core = s := by
  unfold State.drainOne
  dsimp only
  rw [hw]
  exact if_pos hb

theorem State.drainOne_of_not_blocked {s : State} {core : Nat} {e : WbEntry} {rest : List WbEntry} (hw : (s.coreAt core).wbuf = e :: rest)
    (hb : s.blocked e.pa e.data.length true = false) :
    s.drainOne core = (s.setCoreAt core { s.coreAt core with wbuf := rest }).performStore (some core) e := by
  unfold State.drainOne
  dsimp only
  rw [hw]
  exact if_neg (by rw [hb]; exact Bool.false_ne_true)

theorem oldestStorePerformsHold_holds : oldestStorePerformsHold := by
  intro core s e rest hw hl
  refine ⟨fun hb => congrArg _ (State.drainOne_of_blocked hw hb), fun hb hr hp => ?_⟩
  obtain ⟨hm, hc⟩ := State.performStore_clear (s := s.setCoreAt core { s.coreAt core with wbuf := rest }) (noPartials_setCoreAt hp core rfl)
    (some core) hl hb hr
  rw [← State.drainOne_of_not_blocked hw hb] at hm hc
  refine ⟨_, rfl, ?_, fun a ha => ?_, fun i hi => ?_⟩
  · rw [hc, State.coreAt_setCoreAt_self]
  · rw [hm]
    exact memGet_memWrite_other _ _ _ _ ha
  · rw [hm]
    exact memGet_memWrite _ _ _ _ hi

/-! ### What is never refused -/

/-- An outcome that is a next state. -/
def Proceeds (o : Out) : Prop := ∃ t, o = .next t

theorem proceeds_next (s : State) : Proceeds (.next s) := ⟨s, rfl⟩

theorem proceeds_ite {c : Prop} [Decidable c] {a b : Out} (ha : Proceeds a) (hb : Proceeds b) : Proceeds (if c then a else b) := by
  split <;> assumption

theorem State.proceeds_conclude (s : State) (early : List (Nat × Fail)) (d : Did) : Proceeds (s.conclude early d) := by
  cases d with
  | hold => exact proceeds_next _
  | stall u st => exact proceeds_next _
  | fatal u c i => exact proceeds_next _
  | done u fails => exact proceeds_ite (proceeds_next _) (proceeds_ite (proceeds_next _) (proceeds_next _))

theorem State.proceeds_performHandler (s : State) (h : Bool) (p : Pred) (chk : Nat → Bool) (op : State → Mask → Did) :
    Proceeds (s.performHandler h p chk op) := by
  unfold State.performHandler
  refine proceeds_ite (proceeds_next _) ?_
  split
  · exact proceeds_next _
  · exact proceeds_next _
  · exact proceeds_next _
  · exact proceeds_ite (proceeds_next _) (proceeds_ite (proceeds_next _) (proceeds_next _))

/-- A word at its issue always leaves a next state. -/
theorem State.proceeds_perform (s : State) (h : Bool) (p : Pred) (chk : Nat → Bool) (op : State → Mask → Did) :
    Proceeds (s.perform h p chk op) :=
  proceeds_ite (s.proceeds_performHandler h p chk op) (proceeds_ite (proceeds_next _) (s.proceeds_conclude _ _))

theorem State.proceeds_performWide (s : State) (p : Pred) (chk : Nat → Bool) (op : State → Mask → Did) : Proceeds (s.performWide p chk op) :=
  proceeds_ite (s.proceeds_conclude _ _) (s.proceeds_perform false p chk op)

/-! ### The events that move packets (R407) -/

theorem State.proceeds_lockGot (s s0 : State) : Proceeds (s.lockGot s0) := by
  unfold State.lockGot
  split
  · refine proceeds_ite (proceeds_next _) ?_
    extract_lets r
    have hr : Proceeds r := by
      unfold r
      split
      · exact State.proceeds_performWide _ _ _ _
      · exact State.proceeds_performWide _ _ _ _
      · exact proceeds_next _
    obtain ⟨t, e⟩ := hr
    rw [e]
    exact proceeds_next _
  · exact proceeds_next _

theorem proceeds_tileLockGrant (grp : Nat) (s : State) : Proceeds (execTileLockGrant grp s) := by
  unfold execTileLockGrant
  dsimp only
  split
  · exact proceeds_ite (proceeds_ite (proceeds_next _) (State.proceeds_lockGot _ _)) (proceeds_ite (proceeds_next _) (proceeds_next _))
  · exact proceeds_next _

theorem proceeds_epochClose (grid : Nat) (s : State) : Proceeds (execEpochClose grid s) :=
  proceeds_ite (proceeds_next _) (proceeds_ite (proceeds_next _) (proceeds_ite (proceeds_next _) (proceeds_next _)))

theorem proceeds_anvilStage (team : Nat) (full : Bool) (s : State) : Proceeds (execAnvilStage team full s) := by
  unfold execAnvilStage
  dsimp only
  split
  · exact proceeds_next _
  · exact proceeds_ite (proceeds_next _) (proceeds_ite (proceeds_next _) (proceeds_next _))

theorem proceeds_collectiveCompletion (team coll : Nat) (peers : List PeerPart) (s : State) : Proceeds (execCollectiveCompletion team coll peers s) := by
  unfold execCollectiveCompletion
  split
  · exact proceeds_next _
  · refine proceeds_ite (proceeds_next _) ?_
    split
    · exact proceeds_ite (proceeds_next _) (proceeds_next _)
    · exact proceeds_ite (proceeds_next _) (proceeds_ite (proceeds_next _) (proceeds_next _))

theorem proceeds_temperStep (ctx : Nat) (s : State) : Proceeds (execTemperStep ctx s) :=
  proceeds_ite (proceeds_next _) (proceeds_ite (proceeds_next _) (proceeds_next _))

theorem proceeds_samplePacket (grp : Nat) (kind : Byte) (times : List Half) (s : State) : Proceeds (execSamplePacket grp kind times s) := by
  unfold execSamplePacket
  dsimp only
  split
  · exact proceeds_next _
  · exact proceeds_ite (proceeds_next _) (proceeds_next _)

theorem proceeds_packetRun (e : Instr) (s : State) : Proceeds (packetRun e s) := by
  unfold packetRun
  split
  · exact proceeds_ite (proceeds_next _) (proceeds_next _)
  · exact proceeds_next _
  · exact proceeds_next _
  · exact proceeds_tileLockGrant _ s
  · exact proceeds_next _
  · exact proceeds_next _
  · exact proceeds_collectiveCompletion _ _ _ s
  · exact proceeds_next _
  · exact proceeds_next _
  · exact proceeds_anvilStage _ _ s
  · exact proceeds_epochClose _ s
  · exact proceeds_temperStep _ s
  · exact proceeds_samplePacket _ _ _ s
  · exact proceeds_next _

/-- The grant of a packet performs the event that moves it. -/
theorem packetRun_of_traffic {s : State} {e : Instr} {x : Nat × Nat} (h : s.traffic e = some x) (t : State) : packetRun e t = exec e t := by
  unfold State.traffic at h
  dsimp only at h
  split at h
  case h_14 => cases h
  all_goals rfl

/-! ### The grant by age (R407) -/

/-- Of the packet chosen so far and the next one, the one whose class has waited longer; within a class, the older. -/
def State.elder (s : State) (old : List Nat) (r : Option (Nat × Instr)) (x : Nat × Instr) : Option (Nat × Instr) :=
  match r with
  | none => some x
  | some y => if bankGet old 0 y.1 < bankGet old 0 x.1 || x.1 == y.1 && s.packetAge x.2 < s.packetAge y.2 then some x else some y

theorem State.agePacket_eq (s : State) (point : Nat) :
    s.agePacket point = (s.packetsAt s.autoEvents point).foldl (s.elder (s.pkg.waits.get [] point)) none := rfl

theorem State.elder_some (s : State) (old : List Nat) (y x : Nat × Instr) : ∃ z, s.elder old (some y) x = some z ∧ (z = y ∨ z = x) ∧
    bankGet old 0 y.1 ≤ bankGet old 0 z.1 ∧ bankGet old 0 x.1 ≤ bankGet old 0 z.1 := by
  unfold State.elder
  dsimp only
  split
  · rename_i h
    refine ⟨x, rfl, .inr rfl, ?_, le_rfl⟩
    rcases Bool.or_eq_true_iff.mp h with h | h
    · exact (of_decide_eq_true h).le
    · rw [beq_iff_eq.mp (Bool.and_eq_true_iff.mp h).1]
  · rename_i h
    refine ⟨y, rfl, .inl rfl, le_rfl, not_lt.mp fun hlt => h ?_⟩
    rw [decide_eq_true hlt, Bool.true_or]

/-- The packet chosen of a list is one of it, and no class in it has waited longer. -/
theorem State.foldl_elder (s : State) (old : List Nat) (xs : List (Nat × Instr)) (y : Nat × Instr) :
    ∃ z, xs.foldl (s.elder old) (some y) = some z ∧ z ∈ y :: xs ∧ ∀ x ∈ y :: xs, bankGet old 0 x.1 ≤ bankGet old 0 z.1 := by
  induction xs generalizing y with
  | nil => exact ⟨y, rfl, List.mem_singleton_self y, fun x hx => by rw [List.mem_singleton.mp hx]⟩
  | cons a xs ih =>
    obtain ⟨b, hb, hab, hyb, hxb⟩ := s.elder_some old y a
    obtain ⟨z, hz, hm, hmax⟩ := ih b
    have hbz := hmax b List.mem_cons_self
    refine ⟨z, by rw [List.foldl_cons, hb, hz], ?_, fun x hx => ?_⟩
    · rcases List.mem_cons.mp hm with rfl | hm
      · rcases hab with rfl | rfl <;> simp
      · simp [hm]
    · rcases List.mem_cons.mp hx with rfl | hx
      · exact hyb.trans hbz
      · rcases List.mem_cons.mp hx with rfl | hx
        · exact hxb.trans hbz
        · exact hmax x (List.mem_cons_of_mem _ hx)

theorem State.agePacket_of_none {s : State} {point : Nat} (h : s.packetsAt s.autoEvents point = []) : s.agePacket point = none := by
  rw [State.agePacket_eq, h]
  rfl

theorem State.agePacket_of_some {s : State} {point : Nat} (h : s.packetsAt s.autoEvents point ≠ []) :
    ∃ z ∈ s.packetsAt s.autoEvents point, s.agePacket point = some z ∧
      ∀ x ∈ s.packetsAt s.autoEvents point, bankGet (s.pkg.waits.get [] point) 0 x.1 ≤ bankGet (s.pkg.waits.get [] point) 0 z.1 := by
  obtain ⟨y, xs, e⟩ := List.exists_cons_of_ne_nil h
  obtain ⟨z, hz, hm, hmax⟩ := s.foldl_elder (s.pkg.waits.get [] point) xs y
  rw [State.agePacket_eq, e]
  exact ⟨z, hm, hz, hmax⟩

/-- A packet that waits at a point is moved by its event. -/
theorem State.traffic_of_mem_packetsAt {s : State} {es : List Instr} {point : Nat} {x : Nat × Instr} (h : x ∈ s.packetsAt es point) :
    s.traffic x.2 = some (point, x.1) := by
  obtain ⟨e, -, h⟩ := List.mem_filterMap.mp h
  obtain ⟨y, hy, h⟩ := Option.bind_eq_some_iff.mp h
  split at h
  · rename_i hp
    cases h
    rw [hy, ← beq_iff_eq.mp hp]
  · cases h

theorem exec_arbitrationAgeGrant_of_none {s : State} {point : Nat} (h : s.agePacket point = none) :
    exec (.arbitrationAgeGrant point) s = .next s := by
  change execArbitrationAgeGrant point s = _
  unfold execArbitrationAgeGrant
  rw [h]

theorem exec_arbitrationAgeGrant_of_some {s : State} {point : Nat} {x : Nat × Instr} (h : s.agePacket point = some x) :
    exec (.arbitrationAgeGrant point) s = packetRun x.2 (s.granted s.autoEvents point x.1) := by
  change execArbitrationAgeGrant point s = _
  unfold execArbitrationAgeGrant
  rw [h]

theorem ageGrantHold_holds : ageGrantHold := by
  intro point s
  refine ⟨fun h => exec_arbitrationAgeGrant_of_none (State.agePacket_of_none h), fun h => ?_⟩
  obtain ⟨x, hx, e, hmax⟩ := State.agePacket_of_some h
  have hrun := exec_arbitrationAgeGrant_of_some e
  obtain ⟨t, ht⟩ := proceeds_packetRun x.2 (s.granted s.autoEvents point x.1)
  exact ⟨x.1, x.2, t, hx, hmax, hrun.trans (packetRun_of_traffic (State.traffic_of_mem_packetsAt hx) _), hrun.trans ht⟩

/-- Settles O34: the oldest store writes its bytes where nothing stands in its way, and a grant by age takes a packet of the class that has
waited longest. -/
theorem bufferedStorePerforms : Obligations.BufferedStorePerforms := ⟨oldestStorePerformsHold_holds, ageGrantHold_holds⟩

end Sys2Proof.Machine
end

section
/-! PROOFS. Calls and returns (O21). -/

namespace Sys2Proof.Machine

open Sys2Proof.Claims

/-! ### The target of a B word (R235) -/

theorem BF.target_eq_targetOf (f : BF) (s : State) : BF.target f s.g.iss.pc = targetOf f s := by
  unfold BF.target targetOf
  rw [BitVec.ofInt_mul]
  rfl

/-! ### A fetch leaves every operand as it was -/

/-- The focus, the groups, the teams and the grids are as they were. -/
structure State.SameGrids (s t : State) : Prop where
  foc : t.foc = s.foc
  groups : t.groups = s.groups
  teams : t.teams = s.teams
  grids : t.grids = s.grids

theorem State.SameGrids.refl (s : State) : s.SameGrids s := ⟨rfl, rfl, rfl, rfl⟩
theorem State.SameGrids.trans {s t u : State} (h : s.SameGrids t) (h' : t.SameGrids u) : s.SameGrids u :=
  ⟨h'.foc.trans h.foc, h'.groups.trans h.groups, h'.teams.trans h.teams, h'.grids.trans h.grids⟩
theorem State.Calm.sameGrids {s t : State} (h : s.Calm t) : s.SameGrids t := ⟨h.foc, h.groups, h.teams, h.grids⟩

theorem State.SameGrids.g {s t : State} (h : s.SameGrids t) : t.g = s.g := by
  rw [State.g, h.foc, State.grpAt, h.groups]
  rfl
theorem State.SameGrids.t {s t : State} (h : s.SameGrids t) : t.t = s.t := by
  rw [State.t, h.foc, State.teamAt, h.teams]
  rfl
theorem State.SameGrids.gr {s t : State} (h : s.SameGrids t) : t.gr = s.gr := by
  rw [State.gr, h.foc, State.gridAt, h.grids]
  rfl

theorem State.SameGrids.special {s t : State} (h : s.SameGrids t) (l : Nat) (x : Special) : t.special l x = s.special l x := by
  cases x <;> simp only [State.special, h.g, h.t, h.gr]

theorem State.SameGrids.rd {s t : State} (h : s.SameGrids t) (l : Nat) (ty : Ty) (o : Opnd) : t.rd l ty o = s.rd l ty o := by
  cases o <;> simp only [State.rd, h.g, h.special]

theorem State.sameGrids_translate (s : State) (core ctx : Nat) (acc : Acc) (va : W64) : s.SameGrids (s.translate core ctx acc va).1 := by
  unfold State.translate
  split
  · exact .refl s
  · split
    · exact .refl s
    · split
      · exact ⟨rfl, rfl, rfl, rfl⟩
      · split
        · exact .refl s
        · exact ⟨rfl, rfl, rfl, rfl⟩

theorem State.sameGrids_sendLoad (s : State) (pa n : Nat) (acc : Acc) (width : Nat) (mask : Mask) (va : W64) (fill : Option (Nat × Nat)) :
    s.SameGrids (s.sendLoad pa n acc width mask va fill).1 := by
  unfold State.sendLoad
  split
  · exact .refl s
  · exact ⟨rfl, rfl, rfl, rfl⟩

theorem State.sameGrids_fetch (s : State) (va : W64) (set : Mask) : s.SameGrids (s.fetch va set).1 := by
  have ht := s.sameGrids_translate s.foc.core s.foc.ctx .fetch va
  unfold State.fetch
  split
  · rename_i e
    rwa [e] at ht
  · rename_i t u e
    rw [e] at ht
    split
    · have hl := ht.trans (t.otherLlc_touchLlc u.pa (pteCp u.pte)).calm.sameGrids
      dsimp only
      split
      · exact hl
      · exact hl
    · split
      · split
        · exact ht
        · exact ht
      · exact ht.trans (t.sameGrids_sendLoad _ _ _ _ _ _ _)

theorem State.sameGrids_target (s : State) (va : W64) : s.SameGrids (s.target va).1 := by
  have hf := s.sameGrids_fetch va 0
  unfold State.target
  split
  · exact .refl s
  · split
    · rename_i e
      rw [e] at hf
      split
      · exact hf
      · exact hf
    · rename_i e
      rwa [e] at hf
    · rename_i e
      rwa [e] at hf

/-! ### A group at its next word -/

@[simp] theorem Grp.advance_iss (g : Grp) : g.advance.iss = g.iss := Grp.modLanes_iss _ _ _

theorem failAll_advance (g : Grp) (m : Mask) (f : Fail) : failAll g.advance m f = failAll g m f := by
  rw [failAll, Grp.lanesOf_advance, failAll]

theorem Grp.advance_frames (g : Grp) : g.advance.frames = g.frames := by
  obtain ⟨x, h⟩ := g.modLanes_eq (g.lanesOf g.iss.set) fun _ x => { x with pc := g.iss.pc + 8 }
  rw [Grp.advance, h]

/-! ### The frame of a call (R50, R52) -/

theorem Frame.length_header (f : Frame) : f.header.length = 16 := by
  simp [Frame.header, leBytes_length]

theorem Grp.length_pushed (g : Grp) (n : Nat) : (g.pushed n).length = n * g.gw := by
  simp [Grp.pushed, Grp.laneIdx, List.length_flatMap]

theorem length_flatMap_leBytes (ws : List Reg) : (ws.flatMap fun r => leBytes 4 r.val.toNat).length = 4 * ws.length := by
  simp [List.length_flatMap, leBytes_length, Nat.mul_comm]

/-- The frame of a call of slide n (R50, R52): where the window does not fit, LIVE of the registers that it slides past are spilled. -/
def Grp.callFrame (g : Grp) (n live : Nat) : Frame :=
  let fits : Bool := g.wb + n + g.win ≤ g.budget
  let S := if fits then 0 else min live n
  { off := g.spTop, ret := g.iss.pc + 8, spilled := !fits, s := S, n, wb := g.wb, poi := (g.pushed S).map (·.poi) }

/-- The bytes that a call pushes for its frame. -/
def Grp.frameBytes (g : Grp) (fr : Frame) : List Byte := fr.header ++ (g.pushed fr.s).flatMap fun r => leBytes 4 r.val.toNat

theorem Grp.length_frameBytes (g : Grp) (fr : Frame) : (g.frameBytes fr).length = 16 + 4 * fr.s * g.gw := by
  rw [Grp.frameBytes, List.length_append, Frame.length_header, length_flatMap_leBytes, Grp.length_pushed, Nat.mul_assoc]

/-- The window of a group after a call of slide n: slid where it fits, and else moved down past the n registers. -/
def Grp.callWindow (g : Grp) (fits : Bool) (n win : Nat) : Grp := if fits then { g with wb := g.wb + n } else g.moveWindow n 0 (win - n)

/-- The window slid or moved, the frame `fr` on its stack, and the lanes at the target. -/
def State.pushFrame (s : State) (act : Mask) (fr : Frame) (fits : Bool) (win len : Nat) (t : W64) : State :=
  let g := s.g.callWindow fits fr.n win
  ((s.setG { g with frames := fr :: g.frames, spTop := g.spTop + len }).renameCall fr.n).jump act t

theorem Grp.callFrame_s (g : Grp) (n live : Nat) : (g.callFrame n live).s = if g.wb + n + g.win ≤ g.budget then 0 else min live n := by
  unfold Grp.callFrame
  by_cases hf : g.wb + n + g.win ≤ g.budget <;> simp [hf]

theorem called_eq (act : Mask) (n live : Nat) (t : W64) (u v : State) (ps : List Part) : called act n live t u v ps =
    (v.writeParts .spill act ps ⟨u.g.frameBytes (u.g.callFrame n live), []⟩).pushFrame act (u.g.callFrame n live)
      (decide (u.g.wb + n + u.g.win ≤ u.g.budget)) u.g.win (u.g.frameBytes (u.g.callFrame n live)).length t := rfl

theorem Grp.callWindow_not (g : Grp) (fits : Bool) (n win : Nat) :
    (if !fits then g.moveWindow n 0 (win - n) else { g with wb := g.wb + n }) = g.callWindow fits n win := by
  cases fits <;> rfl

theorem State.enterCall_passes {act : Mask} {n live : Nat} {u v : State} {ps : List Part} (t : W64) (h : callPasses act n live u v ps) :
    u.enterCall act n live true t = .done (called act n live t u v ps) [] := by
  obtain ⟨hc, hn, hp, hl, hm⟩ := h
  rw [← Grp.callFrame_s, ← Grp.length_frameBytes] at hl hm
  rw [← Grp.callFrame_s] at hp
  rw [called_eq]
  unfold State.enterCall
  extract_lets g w spilled S ws fr bytes
  have hS : S = (u.g.callFrame n live).s := by
    rw [Grp.callFrame_s]
    by_cases hf : u.g.wb + n + u.g.win ≤ u.g.budget <;> simp [S, spilled, g, w, hf]
  have hfr : fr = u.g.callFrame n live := by
    change Frame.mk g.spTop (g.iss.pc + 8) spilled S n g.wb ((g.pushed S).map (·.poi)) = _
    rw [hS]
    rfl
  have hb : bytes = u.g.frameBytes (u.g.callFrame n live) := by
    change fr.header ++ (g.pushed S).flatMap (fun r => leBytes 4 r.val.toNat) = _
    rw [hfr, hS]
    rfl
  clear_value S fr bytes
  subst hS hfr hb
  rw [hc, if_neg (by decide), if_neg (Nat.not_lt.mpr hn), if_neg (by decide), hp]
  dsimp only [g]
  rw [if_neg (Nat.not_lt.mpr hl), hm]
  dsimp only [spilled]
  rw [Grp.callWindow_not]
  rfl

/-! ### CALL and CALLX (R50, R254) -/

theorem State.returnSite_word {s u : State} {word : W64} {h : Header} (k : State → Option Header → Did)
    (e : s.fetch (s.g.iss.pc + 8) s.g.iss.set = (u, .word word)) (hd : decodeHeader word = some h) (hk : h.kind = .ord) :
    s.returnSite k = k u (some h) := by
  unfold State.returnSite
  dsimp only
  rw [e]
  dsimp only
  rw [hd]
  dsimp only
  rw [hk]
  rfl

/-- What CALL does in its active lanes. -/
def State.callDid (s : State) (f : BF) (act : Mask) : Did :=
  s.returnSite fun s h =>
    if act == 0 then .done s (failAll s.g s.g.iss.set .opndLate)
    else match s.target (BF.target f s.g.iss.pc) with
    | (s, .wait id) => .stall s (.reply [id])
    | (s, k) =>
      match h with
      | some h => if k.ok then s.enterCall act f.n.toNat h.live.val true (BF.target f s.g.iss.pc) else .done s (failAll s.g act .illHdr)
      | none => .done s (failAll s.g act .illHdr)

theorem exec_call (p : Pred) (f : BF) (s : State) :
    exec (.call p f) s = s.performWide p (fun _ => true) fun s act => s.callDid f act := rfl

theorem State.callDid_passes {s u v w : State} {f : BF} {act : Mask} {word : W64} {h : Header} {k : Target} {ps : List Part}
    (e : s.fetch (s.g.iss.pc + 8) s.g.iss.set = (u, .word word)) (hd : decodeHeader word = some h) (hk : h.kind = .ord) (ha : act ≠ 0#64)
    (et : u.target (targetOf f s) = (v, k)) (hok : k.ok = true) (hc : callPasses act f.n.toNat h.live.val v w ps) :
    s.callDid f act = .done (called act f.n.toNat h.live.val (targetOf f s) v w ps) [] := by
  have hu : u.g = s.g := by
    have h := (s.sameGrids_fetch (s.g.iss.pc + 8) s.g.iss.set).g
    rwa [e] at h
  have hv : v.g = s.g := by
    have h := (u.sameGrids_target (targetOf f s)).g
    rw [et] at h
    exact h.trans hu
  unfold State.callDid
  rw [State.returnSite_word _ e hd hk, if_neg (by simpa using ha), hu, BF.target_eq_targetOf, et]
  dsimp only
  split
  · rename_i hw
    cases hw
    cases hok
  · rename_i hw
    cases hw
    rw [if_pos hok, hv, BF.target_eq_targetOf]
    exact State.enterCall_passes _ hc

/-- What CALLX does in its active lanes. -/
def State.callxDid (s : State) (f : BF) (act : Mask) : Did :=
  s.returnSite fun s h =>
    if act == 0 then .done s (failAll s.g s.g.iss.set .opndLate)
    else
    let ls := s.g.lanesOf act
    let bad := ls.filter fun l => (s.rdTarget l f.c).poi
    if !bad.isEmpty then .done s (ls.map fun l => (l, if bad.contains l then Fail.poison f.c else Fail.kept))
    else
      let r := s.lookAll (ls.map fun l => (l, BitVec.ofNat 64 (s.rdTarget l f.c).n))
      let wrong := r.2.1.filter fun x => !x.2.2.ok
      if !r.2.2.isEmpty then .stall r.1 (.reply r.2.2)
      else
        match h with
        | none => .done r.1 (failAll r.1.g act .illHdr)
        | some h =>
          if !wrong.isEmpty then .done r.1 (r.2.1.map fun x => (x.1, if x.2.2.ok then Fail.kept else Fail.illHdr))
          else
            match r.2.1 with
            | [] => .done r.1 []
            | (_, t, _) :: more => r.1.enterCall act f.n.toNat h.live.val (more.all fun x => x.2.1 == t) t

theorem exec_callx (p : Pred) (f : BF) (s : State) :
    exec (.callx p f) s = s.performWide p (s.opsOk [(f.c, 2)]) fun s act => s.callxDid f act := rfl

theorem State.callxDid_passes {s u v w : State} {f : BF} {act : Mask} {word : W64} {h : Header} {t : W64}
    {xs : List (Nat × W64 × Target)} {ps : List Part}
    (e : s.fetch (s.g.iss.pc + 8) s.g.iss.set = (u, .word word)) (hd : decodeHeader word = some h) (hk : h.kind = .ord) (ha : act ≠ 0#64)
    (hr : ∀ l ∈ s.g.lanesOf act, s.rd l .b64 f.c = ⟨t.toNat, false⟩) (el : u.lookAll ((s.g.lanesOf act).map fun l => (l, t)) = (v, xs, []))
    (hx : ∀ x ∈ xs, x.2.1 = t ∧ x.2.2.ok = true) (hn : xs ≠ []) (hc : callPasses act f.n.toNat h.live.val v w ps) :
    s.callxDid f act = .done (called act f.n.toNat h.live.val t v w ps) [] := by
  have hs : s.SameGrids u := by
    have h := s.sameGrids_fetch (s.g.iss.pc + 8) s.g.iss.set
    rwa [e] at h
  have hrd : ∀ l ∈ s.g.lanesOf act, u.rdTarget l f.c = ⟨t.toNat, false⟩ := fun l hl => (hs.rd l _ _).trans (hr l hl)
  have hbad : ((s.g.lanesOf act).filter fun l => (u.rdTarget l f.c).poi) = [] :=
    List.filter_eq_nil_iff.mpr fun l hl => by simp [hrd l hl]
  have hts : ((s.g.lanesOf act).map fun l => (l, BitVec.ofNat 64 (u.rdTarget l f.c).n)) = (s.g.lanesOf act).map fun l => (l, t) :=
    List.map_congr_left fun l hl => by simp [hrd l hl]
  have hwrong : (xs.filter fun x => !x.2.2.ok) = [] := List.filter_eq_nil_iff.mpr fun x hx' => by simp [(hx x hx').2]
  unfold State.callxDid
  rw [State.returnSite_word _ e hd hk, if_neg (by simpa using ha), hs.g]
  dsimp only
  rw [hbad, hts, el]
  dsimp only
  rw [hwrong]
  obtain ⟨⟨l, t', k⟩, more, rfl⟩ := List.exists_cons_of_ne_nil hn
  obtain rfl : t' = t := (hx _ List.mem_cons_self).1
  have hsame : (more.all fun x => x.2.1 == t') = true :=
    List.all_eq_true.mpr fun x hx' => beq_iff_eq.mpr (hx x (List.mem_cons_of_mem _ hx')).1
  dsimp only [List.isEmpty_nil]
  rw [if_neg (by decide), if_neg (by decide), if_neg (by decide), hsame]
  exact State.enterCall_passes _ hc

theorem targetOf_eff (f : BF) (s : State) (p : Pred) : targetOf f (eff s p) = targetOf f s := by
  rw [targetOf, State.atIssue_g, Grp.advance_iss, targetOf]

theorem callsHold_holds : callsHold := by
  intro p f s u v w word h ps e hd hk
  have e' : (eff s p).fetch ((eff s p).g.iss.pc + 8) (eff s p).g.iss.set = (u, .word word) := by
    rwa [State.atIssue_g, Grp.advance_iss]
  refine ⟨fun k hr et hok hc hm => ?_, fun t xs hr => ?_⟩
  · have ha := hr.2.1
    rw [exec_call, State.performWide_runs s p _ _ hr]
    rw [← targetOf_eff f s p] at et hm ⊢
    rw [State.callDid_passes e' hd hk ha et hok hc]
    exact State.conclude_done s _ hm
  · intro ls hrd el hx hn hc hm
    have hl : (eff s p).g.lanesOf (s.allowed p) = ls := by rw [State.atIssue_g, Grp.lanesOf_advance]
    rw [exec_callx, State.performWide_runs s p _ _ hr,
      State.callxDid_passes e' hd hk hr.2.1 (fun l h => by rw [State.rd_atIssue]; exact hrd l (hl ▸ h)) (hl ▸ el) hx hn hc]
    exact State.conclude_done s _ hm

/-! ### RET (R51, R255) -/

/-- The frame `fr` popped in a group whose spilled words are the bytes `bs`: the window back at its place, the registers filled, the frames
below left, and the lanes at its return address. -/
def State.popFrame (s : State) (act : Mask) (fr : Frame) (rest : List Frame) (gw : Nat) (bs : List Byte) : State :=
  let s := s.renameRet fr.n
  let g := if fr.spilled then s.g.moveWindow 0 fr.n (s.g.win - fr.n) else { s.g with wb := fr.wb }
  let word (j : Nat) : Reg := ⟨BitVec.ofNat 32 (ofLe ((bs.drop (4 * j)).take 4)), fr.poi.getD j false⟩
  let g := g.modLanes g.laneIdx fun l x => x.putRegs g.wb (.v 0) (tab fr.s fun i => word (i * gw + l))
  (s.setG { g with frames := rest, spTop := fr.off }).jump act fr.ret

/-- What RET does in its active lanes. -/
def State.retDid (s : State) (act : Mask) : Did :=
  match s.g.frames with
  | [] => .done s (failAll s.g s.g.iss.set .opndLate)
  | fr :: rest =>
    match s.target fr.ret with
    | (s, .wait id) => .stall s (.reply [id])
    | (s, k) =>
      if !k.ok && act != 0 then .done s (failAll s.g act .illHdr)
      else if !s.g.converged act then .done s (failAll s.g s.g.iss.set .opndLate)
      else s.withRun .fill act (s.spillBase + BitVec.ofNat 64 (fr.off + 16)) (4 * (fr.s * s.g.gw)) fun t bs =>
        .done (t.popFrame act fr rest s.g.gw bs) []

theorem exec_ret (p : Pred) (f : VF) (s : State) : exec (.ret p f) s = s.performWide p (fun _ => true) fun s act => s.retDid act := rfl

theorem State.withRun_clean {s v : State} {acc : Acc} {mask : Mask} {va : W64} {n : Nat} {ps : List Part} (k : State → List Byte → Did)
    (e : s.mapRun acc va n = (v, ps, [])) (hw : (v.readParts acc 7 mask ps).2.waits = []) (hb : (v.readParts acc 7 mask ps).2.got.bad = false) :
    s.withRun acc mask va n k = k (v.readParts acc 7 mask ps).1 (v.readParts acc 7 mask ps).2.got.data := by
  unfold State.withRun
  rw [e]
  dsimp only
  rw [hw, hb]
  rfl

theorem State.retDid_empty {s : State} (act : Mask) (h : s.g.frames = []) : s.retDid act = .done s (failAll s.g s.g.iss.set .opndLate) := by
  unfold State.retDid
  rw [h]

theorem State.retDid_pops {s u v : State} {act : Mask} {fr : Frame} {rest : List Frame} {k : Target} {ps : List Part} (hf : s.g.frames = fr :: rest)
    (et : s.target fr.ret = (u, k)) (hok : k.ok = true) (hc : u.g.converged act = true)
    (em : u.mapRun .fill (u.spillBase + BitVec.ofNat 64 (fr.off + 16)) (4 * (fr.s * u.g.gw)) = (v, ps, []))
    (hw : (v.readParts .fill 7 act ps).2.waits = []) (hb : (v.readParts .fill 7 act ps).2.got.bad = false) :
    s.retDid act =
      .done ((v.readParts .fill 7 act ps).1.popFrame act fr rest u.g.gw (v.readParts .fill 7 act ps).2.got.data) [] := by
  unfold State.retDid
  rw [hf]
  dsimp only
  rw [et]
  split
  · rename_i e
    cases e
    cases hok
  · rename_i e
    cases e
    rw [hok, hc, if_neg (by simp), if_neg (by simp)]
    exact State.withRun_clean _ em hw hb

theorem returnsHold_holds : returnsHold := by
  intro p f s hr
  rw [exec_ret, State.performWide_runs s p _ _ hr]
  refine ⟨fun h => ?_, fun fr rest u v k ps r hf et hok hc em er hw hb hm => ?_⟩
  · rw [State.retDid_empty _ (by rw [State.atIssue_g, Grp.advance_frames, h]), State.atIssue_g, Grp.advance_iss, failAll_advance]
    exact State.conclude_fails s _ _ (State.atIssue_met s _)
  · subst er
    rw [State.retDid_pops (by rw [State.atIssue_g, Grp.advance_frames, hf]) et hok hc em hw hb]
    exact State.conclude_done s _ hm

/-- Settles O21: a call whose checks pass leaves its frame, its window and its lanes as R50 says, and RET pops the frame it finds. -/
theorem callsAndReturns : Obligations.CallsAndReturns := ⟨callsHold_holds, returnsHold_holds⟩

end Sys2Proof.Machine
end

section
/-! PROOFS. Partials on their way home leave every grid, team and group as it was. -/
set_option maxRecDepth 100000

namespace Sys2Proof.Machine

theorem State.SameGrids.foldl {α : Type} {f : State → α → State} (hf : ∀ (s : State) (a : α), s.SameGrids (f s a)) (s : State) (l : List α) :
    s.SameGrids (l.foldl f s) := by
  induction l generalizing s with
  | nil => exact .refl s
  | cons a l ih => exact (hf s a).trans (ih _)

theorem State.sameGrids_meet (s : State) (pa n : Nat) (w : Bool) : s.SameGrids (s.meet pa n w) := by
  unfold State.meet
  split <;> exact ⟨rfl, rfl, rfl, rfl⟩

theorem State.sameGrids_meetUnit (s : State) (ctx : Nat) (gid : W32) : s.SameGrids (s.meetUnit ctx gid) := by
  unfold State.meetUnit
  split <;> exact ⟨rfl, rfl, rfl, rfl⟩

theorem State.sameGrids_sendLine (s : State) (l : L1Line) : s.SameGrids (s.sendLine l) :=
  (s.sameGrids_meet _ _ _).trans
    (.foldl (fun t _ => (t.sameGrids_meetUnit _ _).trans (State.calm_applyWord _ _ _ _ _ _ _ _ _ _ _).sameGrids) _ _)

theorem State.sameGrids_sendU (s : State) (k n : Nat) : s.SameGrids (s.sendU k n) := by
  unfold State.sendU
  split
  · split
    · exact (State.SameGrids.trans (t := s.setCoreAt k _) ⟨rfl, rfl, rfl, rfl⟩ (State.sameGrids_sendLine _ _))
    · exact .refl s
  · exact .refl s

theorem State.sameGrids_gather (s : State) (n : Nat) : s.SameGrids (s.gather n) := .foldl (fun _ _ => State.sameGrids_sendU _ _ _) _ _
theorem State.sameGrids_gatherRange (s : State) (pa n : Nat) : s.SameGrids (s.gatherRange pa n) :=
  .foldl (fun _ _ => State.sameGrids_gather _ _) _ _

end Sys2Proof.Machine
end

section
/-! PROOFS. Tiles (O35). -/
set_option maxRecDepth 100000

namespace Sys2Proof.Machine

open Sys2Proof.Claims

/-! ### The image and the operands of a tile at its issue -/

theorem Grp.imageReg_advance (g : Grp) (d w : Nat) : g.advance.imageReg d w = g.imageReg d w := by
  have hw : g.advance.wb = g.wb := Grp.modLanes_wb _ _ _
  have hg : g.advance.gw = g.gw := Grp.modLanes_gw _ _ _
  simp only [Grp.imageReg, Grp.vReg, Grp.advance_lane, hw, hg]

theorem Grp.imageBytes_advance (g : Grp) (d n : Nat) : g.advance.imageBytes d n = g.imageBytes d n := by
  simp only [Grp.imageBytes, Grp.imageReg_advance]

theorem Grp.sVal_advance (g : Grp) (i : Nat) : g.advance.sVal i = g.sVal i := by
  simp [Grp.sVal, Grp.advance, Grp.modLanes_iss, Grp.sreg]

theorem Grp.areg_advance (g : Grp) (i : Nat) : g.advance.areg i = g.areg i := by simp [Grp.areg, Grp.advance]

theorem Grp.modLanes_stall (g : Grp) (ls : List Nat) (f : Nat → Lane → Lane) : (g.modLanes ls f).stall = g.stall := by
  obtain ⟨x, h⟩ := g.modLanes_eq ls f
  rw [h]

theorem Grp.stall_advance (g : Grp) : g.advance.stall = g.stall := Grp.modLanes_stall _ _ _

/-! ### What a tile word does in an issue that runs -/

/-- The bytes of a tile delivered to its image. -/
def State.tileDeliver (s : State) (f : MF) (bs : List Byte) : Did := .done ((s.modG fun g => g.putTile f.d bs).afterRead f.ord f.scope) []

/-- A tile load that holds every lock of its lines. -/
def State.tileLoadHeld (s : State) (f : MF) (t : TileShape) (got : List Nat) (rows : List (Nat × Nat)) (act : Mask) : Did :=
  let vs := (List.range t.nr).map fun k => (s.g.areg f.a.aIdx).baseva + BitVec.ofInt 64 (t.row k)
  match s.tileRead act t.rb (vs.zip rows) with
  | (s, bs, []) => (((s.unlockLines got).logRows t.rb bs (fun k => (vs.getD k 0).toNat) t.nr).sampled .tileLoad).tileDeliver f bs
  | (s, _, fs) => (s.unlockLines got).tilePoison f act t.size fs

/-- A tile load whose checks have been made. -/
def State.tileLoadLooked (f : MF) (t : TileShape) (act : Mask) : State × TileLook → Did
  | (s, .fail x all) => .done s (failAll s.g (if all then s.g.iss.set else act) x)
  | (s, .flts fs) => s.tilePoison f act t.size fs
  | (s, .guard off) => (s.guardTouch .tileLoad 4 [(act, off)]).tileDeliver f (List.replicate t.size 0)
  | (s, .scr offs) =>
    match offs.find? fun o => (s.scrRead s.foc.team o t.rb).bad with
    | some o => s.tilePoison f act t.size [{ mask := act, flt := ⟨kEcc, scrPoiAux (s.scrBadWord s.foc.team o t.rb)⟩ }]
    | none =>
      let bs := offs.flatMap fun o => (s.scrRead s.foc.team o t.rb).data
      (s.logRows t.rb bs (fun i => digScr (offs.getD i 0)) t.nr).tileDeliver f bs
  | (s, .mem rows) => s.tileLock false rows

/-- A tile load's operation. -/
def State.tileLoadDid (s : State) (f : MF) (act : Mask) : Did :=
  let t := tileShape (s.g.sVal f.b.sIdx).n f.imm.toInt
  match s.g.stall with
  | .tile [] got _ rows _ => s.tileLoadHeld f t got rows act
  | _ =>
    let b := s.beforeRead f.ord f.scope
    b.orWait (isSc f.ord) f.scope (State.tileLoadLooked f t act (b.tileLook f .tileLoad act))

theorem State.tileLoad_eq (s : State) (p : Pred) (f : MF) :
    s.tileLoad p f = s.performWide p (s.opsOk [(f.a, 1)]) fun s act => s.tileLoadDid f act := by
  unfold State.tileLoad State.tileLoadDid State.tileLoadHeld State.tileLoadLooked
  rfl

/-- What a tile store leaves once its bytes have been put by `go`, its flag raised before them. -/
def State.tileStored (s : State) (f : MF) (go : State → Option (Nat × Nat) → State) : State :=
  let x := s.flagStart (s.sfNow f.sf)
  ((go x.1 x.2).flagEnd x.2).afterWrite f.ord f.scope

/-- The bytes of a tile written to its rows of the scratchpad. -/
def State.tileScrWrite (s : State) (t : TileShape) (image : List Byte) (offs : List Nat) : State :=
  (offs.zip (List.range t.nr)).foldl (fun s o => s.scrWrite s.foc.team o.1 ((image.drop (o.2 * t.rb)).take t.rb))
    (s.digestRows t.rb image (fun i => digScr (offs.getD i 0)) t.nr)

/-- A tile store whose checks have been made. -/
def State.tileStoreLooked (f : MF) (t : TileShape) (image : List Byte) (act : Mask) : State × TileLook → Did
  | (s, .fail x all) => .done s (failAll s.g (if all then s.g.iss.set else act) x)
  | (s, .flts fs) => s.tileTrap f .tileStore act fs
  | (s, l) =>
    if s.flagFull (s.sfNow f.sf) then s.fullWait (s.sfNow f.sf)
    else
      let s := s.beforeWrite f.ord f.scope
      s.orWait (isRel f.ord) f.scope <|
      match l with
      | .guard off => .done ((s.guardTouch .tileStore 4 [(act, off)]).tileStored f fun s _ => s) []
      | .scr offs => .done (s.tileStored f fun s _ => s.tileScrWrite t image offs) []
      | .mem rows => s.tileLock true rows
      | _ => .done s []

/-- A tile store's operation. -/
def State.tileStoreDid (s : State) (f : MF) (act : Mask) : Did :=
  let t := tileShape (s.g.sVal f.b.sIdx).n f.imm.toInt
  let image := s.g.imageBytes f.d.vIdx t.size
  match s.g.stall with
  | .tile [] got _ rows _ =>
    .done (s.tileStored f fun s tag =>
      ((s.tileWrite act (fun k => (s.g.areg f.a.aIdx).baseva + BitVec.ofInt 64 (t.row k)) t.rb rows image tag).unlockLines got).sampled .tileStore) []
  | _ => State.tileStoreLooked f t image act (s.tileLook f .tileStore act)

theorem State.tileStore_eq (s : State) (p : Pred) (f : MF) :
    s.tileStore p f = s.performWide p (s.opsOk [(f.a, 1)]) fun s act => s.tileStoreDid f act := by
  unfold State.tileStore State.tileStoreDid State.tileStoreLooked
  rfl

/-! ### The words of tiles (R314 to R316) -/

theorem Grp.flagUp_areg (g : Grp) (i j : Nat) : (g.flagUp i).areg j = g.areg j := rfl

/-- A flag that counts an operation leaves the address registers. -/
theorem State.areg_flagStart (s : State) (fl : Option Nat) (i : Nat) : (s.flagStart fl).1.g.areg i = s.g.areg i := by
  unfold State.flagStart
  split
  · rfl
  · dsimp only
    rw [State.modG, State.g_setG]
    rfl

/-- What a tile answers that asks for the locks of its lines (R90). -/
theorem State.conclude_tileLock (s u : State) (excl : Bool) (rows : List (W64 × Nat × Nat)) :
    let v := (rowLines (rows.map (·.2))).foldl (fun s l => s.drainLine s.foc.core (128 * l)) u
    s.conclude [] (u.tileLock excl rows) =
      stalled s v.freshOrder.1 (.tile (rowLines (rows.map (·.2))) [] excl (rows.map (·.2)) v.order) := rfl

theorem State.tileLoadDid_held {s : State} {got : List Nat} {excl : Bool} {rows : List (Nat × Nat)} {since : Nat}
    (h : s.g.stall = .tile [] got excl rows since) (f : MF) (act : Mask) :
    s.tileLoadDid f act = s.tileLoadHeld f (tileShape (s.g.sVal f.b.sIdx).n f.imm.toInt) got rows act := by
  unfold State.tileLoadDid
  rw [h]

/-- A tile load without locks that the core's earlier writes do not hold up makes its checks. -/
theorem State.tileLoadDid_free {s : State} (h : s.g.stall = .none) {f : MF} (hd : drained (f.ord == .sc) (s.beforeRead f.ord f.scope) f.scope)
    (act : Mask) : s.tileLoadDid f act =
      State.tileLoadLooked f (tileShape (s.g.sVal f.b.sIdx).n f.imm.toInt) act ((s.beforeRead f.ord f.scope).tileLook f .tileLoad act) := by
  unfold State.tileLoadDid
  rw [h]
  exact State.orWait_of_drained _ _ hd

theorem State.tileStoreDid_held {s : State} {got : List Nat} {excl : Bool} {rows : List (Nat × Nat)} {since : Nat}
    (h : s.g.stall = .tile [] got excl rows since) (f : MF) (act : Mask) :
    let t := tileShape (s.g.sVal f.b.sIdx).n f.imm.toInt
    s.tileStoreDid f act = .done (s.tileStored f fun u tag =>
      ((u.tileWrite act (fun k => (s.g.areg f.a.aIdx).baseva + BitVec.ofInt 64 (t.row k)) t.rb rows (s.g.imageBytes f.d.vIdx t.size) tag).unlockLines
        got).sampled .tileStore) [] := by
  unfold State.tileStoreDid State.tileStored
  rw [h]
  dsimp only
  rw [State.areg_flagStart]

theorem State.tileStoreDid_free {s : State} (h : s.g.stall = .none) (f : MF) (act : Mask) :
    let t := tileShape (s.g.sVal f.b.sIdx).n f.imm.toInt
    s.tileStoreDid f act = State.tileStoreLooked f t (s.g.imageBytes f.d.vIdx t.size) act (s.tileLook f .tileStore act) := by
  unfold State.tileStoreDid
  rw [h]

theorem exec_tld_runs {s : State} {p : Pred} {f : MF} (hr : s.Runs p (s.opsOk [(f.a, 1)])) :
    exec (.tld p f) s = s.conclude [] ((eff s p).tileLoadDid f (s.allowed p)) :=
  (State.tileLoad_eq s p f).trans (State.performWide_runs s p _ _ hr)

theorem exec_tst_runs {s : State} {p : Pred} {f : MF} (hr : s.Runs p (s.opsOk [(f.a, 1)])) :
    exec (.tst p f) s = s.conclude [] ((eff s p).tileStoreDid f (s.allowed p)) :=
  (State.tileStore_eq s p f).trans (State.performWide_runs s p _ _ hr)

theorem tileWordsHold_holds : tileWordsHold := by
  intro p f s u hr t image va loads stores asks
  have hg : (eff s p).g = s.g.advance := State.atIssue_g s _
  have ht : tileShape ((eff s p).g.sVal f.b.sIdx).n f.imm.toInt = t := by rw [hg, Grp.sVal_advance]
  have hi : (eff s p).g.imageBytes f.d.vIdx t.size = image := by rw [hg, Grp.imageBytes_advance]
  have ha : (eff s p).g.areg f.a.aIdx = s.g.areg f.a.aIdx := by rw [hg, Grp.areg_advance]
  have hload : ∀ (w : State) (bs : List Byte), (eff s p).tileLoadDid f (s.allowed p) = w.tileDeliver f bs → loads w bs := by
    intro w bs e hv
    have : exec (.tld p f) s = retired ((w.modG fun g => g.putTile f.d bs).afterRead f.ord f.scope) := by
      rw [exec_tld_runs hr, e]
      exact State.conclude_done s _ hv
    exact ⟨this, this⟩
  have hstore : ∀ (w : State) (go : State → Option (Nat × Nat) → State),
      (eff s p).tileStoreDid f (s.allowed p) = .done (w.tileStored f go) [] → stores w go := by
    intro w go e hv
    have : exec (.tst p f) s = retired (w.tileStored f go) := by
      rw [exec_tst_runs hr, e]
      exact State.conclude_done s _ hv
    exact ⟨this, this⟩
  refine ⟨fun h0 => ?_, fun got excl rows since h0 => ?_⟩
  · have h1 : (eff s p).g.stall = .none := by rw [hg, Grp.stall_advance, h0]
    refine ⟨fun hd => ⟨fun offs e hb => ?_, fun rows e => ?_⟩, fun hf hd => ⟨fun offs e => ?_, fun rows e => ?_⟩⟩
    · refine hload _ _ ?_
      rw [State.tileLoadDid_free h1 hd, ht, e]
      have hn : (offs.find? fun o => (u.scrRead u.foc.team o t.rb).bad) = none := by
        rw [List.find?_eq_none]
        intro o ho
        rw [hb o ho]
        exact Bool.false_ne_true
      simp only [State.tileLoadLooked, hn]
    · rw [exec_tld_runs hr, State.tileLoadDid_free h1 hd, ht, e]
      exact State.conclude_tileLock s u false rows
    · refine hstore (u.beforeWrite f.ord f.scope) (fun v _ => v.tileScrWrite t image offs) ?_
      rw [State.tileStoreDid_free h1, ht, hi, e]
      simp only [State.tileStoreLooked, hf, Bool.false_eq_true, if_false]
      rw [State.orWait_of_drained _ _ hd]
    · rw [exec_tst_runs hr, State.tileStoreDid_free h1, ht, hi, e]
      simp only [State.tileStoreLooked, hf, Bool.false_eq_true, if_false]
      rw [State.orWait_of_drained _ _ hd]
      exact State.conclude_tileLock s _ true rows
  · have h1 : (eff s p).g.stall = .tile [] got excl rows since := by rw [hg, Grp.stall_advance, h0]
    refine ⟨fun bs e => ?_, ?_⟩
    · refine hload _ _ ?_
      rw [State.tileLoadDid_held h1, ht]
      unfold State.tileLoadHeld
      rw [ha]
      dsimp only
      rw [e]
    · refine hstore (eff s p) (fun v tag => ((v.tileWrite (s.allowed p) va t.rb rows image tag).unlockLines got).sampled .tileStore) ?_
      rw [State.tileStoreDid_held h1, ht, hi, ha]

/-! ### The grant of a lock (R90, R94) -/

/-- The state in which a tile holds the line that it waited for, as far as its next lock. -/
def State.lockTaken (s : State) (left got : List Nat) (excl : Bool) (rows : List (Nat × Nat)) : State :=
  s.freshOrder.1.modG fun g => { g with stall := .tile left got excl rows s.order }

theorem State.lockGot_asks {s : State} {l : Nat} {left got : List Nat} {excl : Bool} {rows : List (Nat × Nat)} {since : Nat}
    (h : s.g.stall = .tile (l :: left) got excl rows since) (hl : left ≠ []) (s0 : State) :
    s.lockGot s0 = .next (s.lockTaken left (got ++ [l]) excl rows) := by
  unfold State.lockGot
  rw [h]
  cases left with
  | nil => exact absurd rfl hl
  | cons a b => rfl

/-- With its last lock a tile performs, or leaves the lock as it was where it must wait. -/
theorem State.lockGot_performs {s v t : State} {l : Nat} {got : List Nat} {excl : Bool} {rows : List (Nat × Nat)} {since : Nat}
    (h : s.g.stall = .tile [l] got excl rows since) (hv : v = s.lockTaken [] (got ++ [l]) excl rows) {i : Instr}
    (hi : ∃ p f, i = .tld p f ∨ i = .tst p f) (hd : Sys2Proof.decodeWord v.g.iss.word = .ok i) (he : exec i v = .next t) (s0 : State) :
    s.lockGot s0 = .next (match t.g.stall with | .tile [] _ _ _ _ => s0 | _ => t) := by
  subst hv
  have hx : s.lockGot s0 = match exec i (s.lockTaken [] (got ++ [l]) excl rows) with
      | .next s' => .next (match s'.g.stall with | .tile [] _ _ _ _ => s0 | _ => s')
      | x => x := by
    unfold State.lockGot
    rw [h]
    dsimp only
    obtain ⟨p, f, rfl | rfl⟩ := hi <;> (rw [State.lockTaken] at hd; erw [hd]; rfl)
  rw [hx, he]

theorem tileLocksHold_holds : tileLocksHold := by
  intro k l left got excl rows since s hs s1 u v
  have h1 : s1.g.stall = .tile (l :: left) got excl rows since := hs
  have hu : u.g.stall = .tile (l :: left) got excl rows since := by rw [(s1.sameGrids_gather l).g, h1]
  refine ⟨fun hl => ?_, fun hl => ?_⟩
  · have hl1 : s1.isLocal (128 * l) = true := hl
    have he : exec (.tileLockGrant k) s = if s1.lockBusy k l excl since || u.met ≠ s1.met then .next s else u.lockGot s := by
      show execTileLockGrant k s = _
      unfold execTileLockGrant
      dsimp only
      rw [h1]
      exact if_pos hl1
    refine ⟨fun hb => ?_, fun hb hm => ?_⟩
    · rw [he, if_pos (by simpa using hb)]
    · rw [he, if_neg (by simp [hb, hm])]
      refine ⟨fun hn => State.lockGot_asks hu hn s, fun hn i t hi hd hx => ?_⟩
      subst hn
      rw [State.lockGot_performs hu rfl hi hd hx]
      refine ⟨fun ⟨b, c, d, e, ht⟩ => by rw [ht], fun ht => ?_⟩
      split
      · rename_i e
        exact absurd e (ht _ _ _ _)
      · rfl
  · have hl1 : s1.isLocal (128 * l) = false := hl
    show execTileLockGrant k s = _
    unfold execTileLockGrant
    dsimp only
    rw [h1]
    dsimp only
    rw [hl1, if_neg Bool.false_ne_true]
    split <;> rfl

/-- Settles O35: a tile word whose checks pass reads, writes or asks for its locks, and each grant goes to the line that comes next. -/
theorem tiles : Obligations.Tiles := ⟨tileWordsHold_holds, tileLocksHold_holds⟩

end Sys2Proof.Machine
end

section
/-! PROOFS. Atomics (O36). -/
set_option maxRecDepth 100000

namespace Sys2Proof.Machine

open Sys2Proof.Claims

/-! ### Bytes and the numbers they hold -/

theorem ofLe_append (as bs : List Byte) : ofLe (as ++ bs) = ofLe as + 256 ^ as.length * ofLe bs := by
  induction as with
  | nil => simp [ofLe]
  | cons a t ih =>
    have hc : ∀ (b : Byte) (l : List Byte), ofLe (b :: l) = b.toNat + 256 * ofLe l := fun _ _ => rfl
    rw [List.cons_append, hc, hc, ih, List.length_cons, pow_succ]
    ring

/-- n bytes of a number hold it modulo 256^n. -/
theorem ofLe_leBytes (n x : Nat) : ofLe (leBytes n x) = x % 256 ^ n := by
  induction n generalizing x with
  | zero => simp [leBytes, ofLe, Nat.mod_one]
  | succ n ih =>
    have hs : ofLe (leBytes (n + 1) x) = (BitVec.ofNat 8 x).toNat + 256 * ofLe (leBytes n (x / 256)) := rfl
    have hm : x % 256 ^ (n + 1) = x % 256 + 256 * (x / 256 % 256 ^ n) := by rw [pow_succ', Nat.mod_mul]
    rw [hs, ih, BitVec.toNat_ofNat, hm]

theorem ofLe_leBytes_of_lt {n x : Nat} (h : x < 2 ^ (8 * n)) : ofLe (leBytes n x) = x := by
  rw [ofLe_leBytes, Nat.mod_eq_of_lt]
  rwa [show (256 : Nat) = 2 ^ 8 by decide, ← pow_mul]

theorem wordsVal_nil : wordsVal [] = 0 := rfl

/-- Words hold the low word and then the rest. -/
theorem wordsVal_cons (r : Reg) (rs : List Reg) : wordsVal (r :: rs) = r.val.toNat + 2 ^ 32 * wordsVal rs := by
  simp only [wordsVal, List.flatMap_cons]
  rw [ofLe_append, leBytes_length, ofLe_leBytes_of_lt r.val.isLt, show (256 : Nat) ^ 4 = 2 ^ 32 by decide]

theorem wordsVal_single (a : Reg) : wordsVal [a] = a.val.toNat := by rw [wordsVal_cons, wordsVal_nil]; rfl
theorem wordsVal_pair (a b : Reg) : wordsVal [a, b] = b.val.toNat * 2 ^ 32 + a.val.toNat := by
  rw [wordsVal_cons, wordsVal_single, Nat.mul_comm, Nat.add_comm]

/-- The high word of a pair of words. -/
theorem wordsVal_pair_div (a b : Reg) : wordsVal [a, b] / 2 ^ 32 = b.val.toNat := by
  rw [wordsVal_cons, wordsVal_single, Nat.add_mul_div_left _ _ (by decide), Nat.div_eq_of_lt a.val.isLt, Nat.zero_add]

/-! ### What an atomic leaves of its issue -/

/-- The focus and the issue in progress are as they were. -/
structure State.SameIssue (s t : State) : Prop where
  foc : t.foc = s.foc
  iss : t.g.iss = s.g.iss

theorem State.SameIssue.refl (s : State) : s.SameIssue s := ⟨rfl, rfl⟩
theorem State.SameIssue.trans {s t u : State} (h : s.SameIssue t) (h' : t.SameIssue u) : s.SameIssue u :=
  ⟨h'.foc.trans h.foc, h'.iss.trans h.iss⟩
theorem State.SameGrids.sameIssue {s t : State} (h : s.SameGrids t) : s.SameIssue t := ⟨h.foc, by rw [h.g]⟩

theorem State.SameIssue.foldl {α : Type} {f : State → α → State} (hf : ∀ (s : State) (a : α), s.SameIssue (f s a)) (s : State) (l : List α) :
    s.SameIssue (l.foldl f s) :=
  List.foldlRecOn (motive := s.SameIssue) _ _ (.refl s) fun t h a _ => h.trans (hf t a)

theorem State.sameIssue_modG (s : State) {f : Grp → Grp} (h : (f s.g).iss = s.g.iss) : s.SameIssue (s.modG f) :=
  ⟨rfl, by rw [State.g_modG, h]⟩

theorem State.sameIssue_logBlock (s : State) (kind : LogKind) (a : Nat) (bs : List Byte) (poi : Bool) : s.SameIssue (s.logBlock kind a bs poi) := by
  unfold State.logBlock
  dsimp only
  split
  · exact .refl s
  · exact State.SameIssue.trans (t := s.logEntry kind a bs [poi]) ⟨rfl, rfl⟩ (State.sameIssue_modG _ rfl)

theorem State.sameIssue_logRead (s : State) (kind : LogKind) (a : Nat) (bs : List Byte) (poi : Bool) : s.SameIssue (s.logRead kind a bs poi) := by
  unfold State.logRead
  split
  · exact .refl s
  · exact .foldl (fun _ _ => State.sameIssue_logBlock _ _ _ _ _) _ _

theorem State.sameIssue_wrote (s : State) (a : Nat) (bs : List Byte) : s.SameIssue (s.wrote a bs) := by
  unfold State.wrote
  split
  · rename_i h
    refine State.SameIssue.trans (t := s.digest a bs) ?_ (State.sameIssue_modG _ rfl)
    unfold State.digest
    rw [if_pos h]
    exact State.sameIssue_modG _ rfl
  · exact .refl s

theorem State.sameGrids_lockedWrite (s : State) (pa cp : Nat) (bs : List Byte) (poi : List Bool) : s.SameGrids (s.lockedWrite pa cp bs poi) := by
  have ht := (s.otherLlc_touchRange pa bs.length cp).calm.sameGrids
  unfold State.lockedWrite
  dsimp only
  split
  · exact ht
  · obtain ⟨m, hm⟩ := ((s.touchRange pa bs.length cp).hbmWrite (paLocal pa) bs).hbmPoison_eq (markedWords (paLocal pa) bs.length poi)
    rw [hm]
    exact (ht.trans (State.calm_hbmWrite _ (paLocal pa) bs).sameGrids).trans ⟨rfl, rfl, rfl, rfl⟩

theorem State.sameGrids_homeWrite (s : State) (pa cp : Nat) (bs : List Byte) (poi : List Bool) : s.SameGrids (s.homeWrite pa cp bs poi) :=
  ((s.sameGrids_meet _ _ _).trans (State.sameGrids_gatherRange _ _ _)).trans (State.sameGrids_lockedWrite _ _ _ _ _)

theorem State.sameIssue_atomAt (s : State) (n : Nat) (fn : Nat → Option Nat × W32) (y : Spot) : s.SameIssue (s.atomAt n fn y).1 := by
  cases y with
  | guard off => exact .refl s
  | scr t off =>
    unfold State.atomAt
    dsimp only
    split
    · exact ⟨rfl, rfl⟩
    · exact .refl s
  | mem va pa cp =>
    unfold State.atomAt
    dsimp only
    split
    · exact (s.sameGrids_homeWrite _ _ _ _).sameIssue
    · exact .refl s

/-- The flags that an atomic raises at its place are those of the old value found there. -/
theorem State.atomAt_flags (s : State) (n : Nat) (fn : Nat → Option Nat × W32) {y : Spot} (h : ∀ off, y ≠ .guard off) :
    (s.atomAt n fn y).2.2 = (fn (s.atomAt n fn y).2.1).2 := by
  cases y with
  | guard off => exact absurd rfl (h off)
  | scr t off => rfl
  | mem va pa cp => rfl

/-! ### One lane's atomic -/

/-- What an atomic word does for a lane of `s0` whose access has come to a fate. -/
def State.rmwStep (f : MF) (k : Nat) (fn : FpEnv → List Reg → Nat → Option Nat × W32) (s0 s : State) (x : Mask × Nat × Fate) : State :=
  let n := f.width.bytes
  let l := x.2.1
  match x.2.2 with
  | .at' y =>
    let fo := fn (fpEnv (s0.g.lane l).fpl .lane) (s0.dWords l f.d k)
    let r := s.atomAt n fo y
    let a := s.digAddr false y
    let t := r.1.logRead .atomic a (leBytes n r.2.1)
    let r := (match (fo r.2.1).1 with | some v => t.wrote a (leBytes n v) | none => t, r.2)
    let g := r.1.g.deliver f.d x.1 (leBytes n r.2.1)
    r.1.setG (if s.g.iss.handler then g else g.modLane l fun z => z.raise r.2.2)
  | .got bs =>
    let fo := fn (fpEnv (s0.g.lane l).fpl .lane) (s0.dWords l f.d k) (ofLe bs)
    let va := match s0.look { acc := .atomic, a := f.a, b := f.b, n } none l with | (_, .ok y) => s0.digAddr false y | _ => 0
    let s := s.logRead .atomic va bs
    let s := match fo.1 with | some v => s.wrote va (leBytes n v) | none => s
    let g := s.g.deliver f.d x.1 bs
    s.setG (if s.g.iss.handler then g else g.modLane l fun z => z.raise fo.2)
  | .guard _ => s.setG (s.g.deliver f.d x.1 (List.replicate n 0))
  | _ => s

/-- An atomic's operation in an issue. -/
def State.rmwDid (s : State) (f : MF) (k op : Nat) (fn : FpEnv → List Reg → Nat → Option Nat × W32) (act : Mask) : Did :=
  let v := (s.beforeWrite f.ord f.scope).beforeRead f.ord f.scope
  v.orWait (isRel f.ord) f.scope <|
  let (s, fs) := v.atomFates { acc := .atomic, a := f.a, b := f.b, n := f.width.bytes } op k f.d (v.shares act f.d.isS)
  if !(waitsOf fs).isEmpty then .stall s (.reply (waitsOf fs))
  else
    match s.noteFlts .atomic f.width.code (fltsOf fs) with
    | none => .stall s .fault
    | some (s, seq, c) =>
      let w := s.guardTouch .atomic f.width.code (guardsOf fs)
      let t := fs.foldl (State.rmwStep f k fn w) w
      .done ((t.sampledIf f.a .atomic).afterRead f.ord f.scope) (t.failsOf fs ++ t.fltFails (fltsOf fs) (.trans seq c))

theorem State.rmwOp_eq (s : State) (p : Pred) (f : MF) (k op : Nat) (fn : FpEnv → List Reg → Nat → Option Nat × W32) :
    s.rmwOp p f k op fn =
      s.perform f.d.isS p (s.opsOk [(f.d, if f.d.isS then 1 else k), (f.a, 1), (f.b, 1)]) fun s act => s.rmwDid f k op fn act := by
  unfold State.rmwOp State.rmwDid State.rmwStep
  rfl

/-- A fate of a lane's atomic that lets it perform: a place at home, a touch of a guard granule, or what a remote home has sent back. -/
def Fate.Atomic (n : Nat) (x : Fate) : Prop :=
  (∃ y, x = .at' y ∧ ∀ off, y ≠ .guard off) ∨ (∃ off, x = .guard off) ∨ ∃ old, old < 2 ^ (8 * n) ∧ x = .got (leBytes n old)

theorem rmwStep_eq_atomStep (f : MF) (k : Nat) (fn : FpEnv → List Reg → Nat → Option Nat × W32) (u v : State) (x : Mask × Nat × Fate)
    (h : x.2.2.Atomic f.width.bytes) : State.rmwStep f k fn u v x = atomStep f k fn u v x := by
  obtain ⟨m, l, x⟩ := x
  obtain ⟨y, rfl, hy⟩ | ⟨off, rfl⟩ | ⟨old, ho, rfl⟩ := h
  · unfold State.rmwStep atomStep
    dsimp only
    rw [State.atomAt_flags v f.width.bytes _ hy]
    generalize hr : v.atomAt f.width.bytes (fn (fpEnv (u.g.lane l).fpl .lane) (u.dWords l f.d k)) y = r
    have h1 : v.SameIssue r.1 := hr ▸ State.sameIssue_atomAt _ _ _ _
    have h2 := h1.trans (State.sameIssue_logRead r.1 .atomic (v.digAddr false y) (leBytes f.width.bytes r.2.1) false)
    cases (fn (fpEnv (u.g.lane l).fpl .lane) (u.dWords l f.d k) r.2.1).1 with
    | none =>
      dsimp only
      rw [h2.iss]
    | some z =>
      dsimp only
      rw [(h2.trans (State.sameIssue_wrote _ _ _)).iss]
  · rfl
  · unfold State.rmwStep atomStep
    dsimp only
    rw [ofLe_leBytes_of_lt ho] <;> rfl

/-! ### The words (R317 to R321) -/

theorem State.rmwDid_of_allAtomic {s u : State} {f : MF} {k op : Nat} (fn : FpEnv → List Reg → Nat → Option Nat × W32) {act : Mask}
    {fs : List (Mask × Nat × Fate)} :
    let v := (s.beforeWrite f.ord f.scope).beforeRead f.ord f.scope
    drained (isRel f.ord) v f.scope →
    v.atomFates { acc := .atomic, a := f.a, b := f.b, n := f.width.bytes } op k f.d (v.shares act f.d.isS) = (u, fs) →
    allAtomic f.width.bytes fs →
    let w := u.guardTouch .atomic f.width.code (guardsOf fs)
    s.rmwDid f k op fn act = .done (((fs.foldl (atomStep f k fn w) w).sampledIf f.a .atomic).afterRead f.ord f.scope) [] := by
  intro v hd e ha w
  have hw : ∀ x ∈ fs, ∀ id, x.2.2 ≠ .wait id := fun x hx id e => by
    obtain ⟨y, h, _⟩ | ⟨off, h⟩ | ⟨old, _, h⟩ := ha x hx <;> rw [h] at e <;> cases e
  have hf : ∀ x ∈ fs, ∀ y, x.2.2 ≠ .flt y := fun x hx y e => by
    obtain ⟨y, h, _⟩ | ⟨off, h⟩ | ⟨old, _, h⟩ := ha x hx <;> rw [h] at e <;> cases e
  have hx : ∀ x ∈ fs, ∀ y, x.2.2 ≠ .fail y := fun x hx y e => by
    obtain ⟨y, h, _⟩ | ⟨off, h⟩ | ⟨old, _, h⟩ := ha x hx <;> rw [h] at e <;> cases e
  have hs : fs.foldl (State.rmwStep f k fn w) w = fs.foldl (atomStep f k fn w) w :=
    List.foldl_ext _ _ _ fun v x hx => rmwStep_eq_atomStep f k fn w v x (ha x hx)
  unfold State.rmwDid
  dsimp only
  rw [e, State.orWait_of_drained _ _ hd]
  dsimp only
  rw [waitsOf_eq_nil hw, fltsOf_eq_nil hf, State.noteFlts_nil]
  dsimp only
  rw [hs, State.failsOf_eq_nil _ hx]
  rfl

theorem exec_atomRow {i : Instr} {p : Pred} {f : MF} {k op : Nat} {fn : FpEnv → List Reg → Nat → Option Nat × W32}
    (h : atomRow i = some (p, f, k, op, fn)) (s : State) : exec i s = s.rmwOp p f k op fn := by
  unfold atomRow at h
  split at h
  · cases h; rfl
  · cases h; rfl
  · cases h; rfl
  · cases h; rfl
  · cases h; rfl
  · cases h

theorem atomicsHold_holds : atomicsHold := by
  refine ⟨?_, ?_⟩
  · intro i p f k op fn s u fs hi hr v hd e ha w t ht
    rw [exec_atomRow hi, State.rmwOp_eq]
    exact State.perform_done s _ p _ _ hr t (State.rmwDid_of_allAtomic fn hd e ha) ht
  · intro i p f k op fn s u fs hi hr hs hc v hd e ha w t ht
    rw [exec_atomRow hi, State.rmwOp_eq, hs, if_pos rfl]
    exact State.perform_runsH s p _ _ hr hc t (State.rmwDid_of_allAtomic fn hd (by rw [hs]; exact e) ha) ht

/-! ### The new values (R136, R318, R321) -/

theorem isInt_of_isI {t : Ty} : t.isI = true → t.isInt = true := by cases t <;> decide

/-- The lower of two values, the first where they are level, is the second where that is strictly lower. -/
theorem ite_le_eq_ite_lt {α β : Type} [LinearOrder α] (a b : α) (x y : β) : (if a ≤ b then x else y) = if b < a then y else x := by
  simp only [← not_lt, ite_not]

/-- The signed order of two encodings of w bits. -/
theorem slt_iff_sgn_lt {w a b : Nat} (hw : 0 < w) : (BitVec.ofNat w a).slt (BitVec.ofNat w b) = true ↔ sgn w a < sgn w b := by
  rw [sgn_toInt w a hw, sgn_toInt w b hw, BitVec.slt_eq_decide, decide_eq_true_iff]

theorem atomNew_values (env : FpEnv) (t : Ty) (old d : Nat) :
    let w := if t.is64 then 64 else 32
    let x := BitVec.ofNat w old
    let y := BitVec.ofNat w d
    let num (r : FpR) : Nat × W32 := (r.bits, r.fl)
    old < 2 ^ w → d < 2 ^ w →
    atomNew env 0 t old d = ((x + y).toNat, 0) ∧
    atomNew env 1 t old d = num (fadd (Ty.fmt t) env (opnd (Ty.fmt t) env old) (opnd (Ty.fmt t) env d)) ∧
    (t.isI = true → atomNew env 2 t old d = (if y.slt x then d else old, 0) ∧ atomNew env 3 t old d = (if x.slt y then d else old, 0)) ∧
    (t.isInt = true → t.isI = false →
      atomNew env 2 t old d = (if d < old then d else old, 0) ∧ atomNew env 3 t old d = (if old < d then d else old, 0)) ∧
    (t.isInt = false →
      atomNew env 2 t old d = num (minMaxNumber (Ty.fmt t) env false (opnd (Ty.fmt t) env old) (opnd (Ty.fmt t) env d)) ∧
      atomNew env 3 t old d = num (minMaxNumber (Ty.fmt t) env true (opnd (Ty.fmt t) env old) (opnd (Ty.fmt t) env d))) ∧
    atomNew env 4 t old d = ((x &&& y).toNat, 0) ∧ atomNew env 5 t old d = ((x ||| y).toNat, 0) ∧ atomNew env 6 t old d = ((x ^^^ y).toNat, 0) := by
  intro w x y num ho hd
  have hw : 0 < w := by
    show 0 < if t.is64 then 64 else 32
    split <;> decide
  have hx : x.toNat = old := (BitVec.toNat_ofNat _ _).trans (Nat.mod_eq_of_lt ho)
  have hy : y.toNat = d := (BitVec.toNat_ofNat _ _).trans (Nat.mod_eq_of_lt hd)
  refine ⟨?_, rfl, fun hi => ?_, fun hn hi => ?_, fun hn => ?_, ?_, ?_, ?_⟩
  · rw [BitVec.toNat_add, hx, hy]
    rfl
  · simp only [atomNew, combine, isInt_of_isI hi, hi, if_true, ite_le_eq_ite_lt, x, y, slt_iff_sgn_lt hw]
    exact ⟨rfl, rfl⟩
  · simp only [atomNew, combine, hn, hi, if_true, Bool.false_eq_true, if_false, ite_le_eq_ite_lt]
    exact ⟨trivial, trivial⟩
  · simp only [atomNew, combine, hn, Bool.false_eq_true, if_false]
    exact ⟨rfl, rfl⟩
  · rw [BitVec.toNat_and, hx, hy]
    rfl
  · rw [BitVec.toNat_or, hx, hy]
    rfl
  · rw [BitVec.toNat_xor, hx, hy]
    rfl

theorem atomicValuesHold_holds : atomicValuesHold := by
  refine ⟨atomNew_values, fun env t old d a b c e => ⟨rfl, ?_, ?_, ?_, ?_, fun ho => ?_, fun ho => ?_⟩⟩
  · show (if d ≤ old then 0 else old + 1, 0) = _
    by_cases h : old < d
    · rw [if_pos h, if_neg (Nat.not_le.mpr h)]
    · rw [if_neg h, if_pos (Nat.not_lt.mp h)]
  · show (if (decide (old = 0) || decide (d < old)) = true then d else old - 1, 0) = _
    by_cases h : 0 < old ∧ old ≤ d
    · rw [if_pos h, if_neg (by simp; omega)]
    · rw [if_neg h, if_pos (by simp; omega)]
  · simp only [casvNew, List.drop_succ_cons, List.drop_zero, List.take_succ_cons, List.take_zero, wordsVal_single, BitVec.toNat_add]
    rfl
  · simp only [casgtNew, wordsVal_pair_div, Bool.false_eq_true, if_false, Nat.cast_lt]
    rw [wordsVal_pair]
  · simp only [casgtNew, wordsVal_pair_div, if_true, ← slt_iff_sgn_lt (show 0 < 32 by decide), BitVec.ofNat_toNat, BitVec.setWidth_eq]
    rw [wordsVal_pair]
  · have hm : (e.val.toNat * 2 ^ 32 + c.val.toNat) % 2 ^ 48 = e.val.toNat % 2 ^ 16 * 2 ^ 32 + c.val.toNat := by
      have := c.val.isLt
      omega
    simp only [casptNew, List.drop_succ_cons, List.drop_zero, List.take_succ_cons, List.take_zero, wordsVal_pair, hm, Nat.add_assoc]

/-- Settles O36: every lane's fate is a place, a guard granule or a reply, and each then acts as its row says; the new values follow the
cases of their operations. -/
theorem atomicWords : Obligations.AtomicWords := ⟨atomicsHold_holds, atomicValuesHold_holds⟩

end Sys2Proof.Machine
end

section
/-! PROOFS. Copies and streams (O40). -/
set_option maxRecDepth 100000

namespace Sys2Proof.Machine

open Sys2Proof.Claims

/-! ### What the checks of a command leave alone -/

theorem State.met_translate (s : State) (core ctx : Nat) (acc : Acc) (va : W64) : (s.translate core ctx acc va).1.met = s.met := by
  unfold State.translate
  split
  · rfl
  · split
    · rfl
    · split
      · rfl
      · split <;> rfl

theorem State.met_boxPages (s : State) (acc : Acc) (act : Mask) (l : Layout) : (s.boxPages acc act l).1.met = s.met := by
  refine List.foldlRecOn (motive := fun x : State × List (LaneFlt × Acc) => x.1.met = s.met) _ _ rfl fun x hx a _ => ?_
  have ht := x.1.met_translate x.1.foc.core x.1.foc.ctx acc (BitVec.ofNat 64 a)
  dsimp only
  split <;> (rename_i e; rw [e] at ht; exact ht.trans hx)

theorem State.met_flagStart (s : State) (fl : Option Nat) : (s.flagStart fl).1.met = s.met := by
  unfold State.flagStart
  split <;> rfl

theorem State.onePerPage_nil {α : Type} (s : State) (va : α → W64) : s.onePerPage va [] = [] := rfl

/-! ### Checks that pass (R119) -/

/-- The barrier that a command whose checks pass names. -/
theorem barrier_of_barOf {s : State} {f : MF} {bar : Option BarName} (h : barOf s f bar) :
    (if f.bn then s.barName f.bk (s.rd 0 .n32 f.b).n else none) = bar ∧ (f.bn && bar.isNone) = false := by
  unfold barOf at h
  cases hb : f.bn with
  | false =>
    rw [hb, if_neg Bool.false_ne_true] at h
    exact ⟨h.symm, rfl⟩
  | true =>
    rw [hb, if_pos rfl] at h
    exact ⟨h.1, by cases hbar : bar with | none => exact absurd hbar h.2 | some b => rfl⟩

theorem find_poison_of_clean {s : State} {os : List Opnd} (h : clean s os) : (os.find? fun o => (s.rd 0 .b64 o).poi) = none := by
  rw [List.find?_eq_none]
  intro o ho
  rw [h o ho]
  exact Bool.false_ne_true

/-- A copy of memory whose checks pass goes on with its two layouts and its barrier. -/
theorem State.copyChecks_passes {s u : State} {f : MF} {act : Mask} {kind : CmdKind} {src dst : Layout} {bar : Option BarName}
    (h : copyPasses s u f act kind src dst bar) (k : State → List Layout → Option BarName → Did) :
    s.copyChecks f act (some kind) k = k u [src, dst] bar ∧ u.met = s.met := by
  obtain ⟨hc, ⟨bs, ha, hl⟩, ⟨ds, hd, hm⟩, hsh, hb, hsa, hda, hsf, hdf, v, e, e'⟩ := h
  obtain ⟨hbar, hnone⟩ := barrier_of_barOf hb
  refine ⟨?_, ?_⟩
  · unfold State.copyChecks
    simp only [Option.isSome_some, if_true]
    rw [find_poison_of_clean hc]
    simp only [List.mapM_cons, List.mapM_nil, ha, hd, bind, Except.bind, pure, Except.pure, List.map_cons, List.map_nil, hl, hm, hbar, hnone]
    simp [hsh, hsa, hda, hsf, hdf, e, e', State.onePerPage_nil]
  · have h1 := s.met_boxPages .engRead act src
    have h2 := v.met_boxPages .engWrite act dst
    rw [e] at h1
    rw [e'] at h2
    exact h2.trans h1

/-- A push whose checks pass goes on with its layout and its barrier. -/
theorem State.copyChecks_push {s u : State} {f : MF} {act : Mask} {src : Layout} {bar : Option BarName} {ts : List Nat}
    (h : pushPasses s u f act src bar ts) (k : State → List Layout → Option BarName → Did) :
    s.copyChecks f act none k = k u [src] bar ∧ u.met = s.met := by
  obtain ⟨hc, ⟨bs, ha, hl⟩, hsh, hb, hst, hco, _, hsa, hsf, e⟩ := h
  obtain ⟨hbar, hnone⟩ := barrier_of_barOf hb
  refine ⟨?_, ?_⟩
  · unfold State.copyChecks
    simp only [Option.isSome_none, Bool.false_eq_true, if_false]
    rw [List.singleton_append, find_poison_of_clean hc]
    simp only [List.mapM_cons, List.mapM_nil, ha, bind, Except.bind, pure, Except.pure, List.map_cons, List.map_nil, hl, hbar, hnone]
    simp [hsh, hst, hco, hsa, hsf, e, State.onePerPage_nil]
  · have h1 := s.met_boxPages .engRead act src
    rw [e] at h1
    exact h1

/-! ### The words (R329) -/

/-- A copy's operation. -/
def State.copyDid (s : State) (f : MF) (kind : CmdKind) (act : Mask) : Did :=
  if s.flagFull (s.sfNow f.sf) then s.fullWait (s.sfNow f.sf)
  else
    s.copyChecks f act (some kind) fun s ls bar =>
      .done ((s.flagStart (s.sfNow f.sf)).1.startCmd
        { kind, src := ls.headD {}, dst := ls.getD 1 {}, total := (ls.getD 1 {}).count, bar, flag := (s.flagStart (s.sfNow f.sf)).2, mask := act }) []

theorem exec_copyRow {i : Instr} {p : Pred} {f : MF} {kind : CmdKind} (h : copyRow i = some (p, f, kind)) (s : State) :
    exec i s = s.perform false p (fun _ => true) fun s act => s.copyDid f kind act := by
  unfold copyRow at h
  split at h
  · cases h; rfl
  · cases h; rfl
  · cases h; rfl
  · cases h

theorem copy_starts {i : Instr} {p : Pred} {f : MF} {kind : CmdKind} {src dst : Layout} {bar : Option BarName} {s u : State}
    (hi : copyRow i = some (p, f, kind)) (hr : s.Runs p fun _ => true) (hf : (eff s p).flagFull ((eff s p).sfNow f.sf) = false)
    (h : copyPasses (eff s p) u f (s.allowed p) kind src dst bar) :
    let v := u.flagStart (u.sfNow f.sf)
    exec i s = retired (v.1.startCmd { kind, src, dst, total := dst.count, bar, flag := v.2, mask := s.allowed p }) := by
  intro v
  rw [exec_copyRow hi]
  refine State.perform_done s false p _ _ hr _ ?_ ?_
  · rw [State.copyDid, hf, if_neg Bool.false_ne_true]
    exact (State.copyChecks_passes h _).1
  · calc v.1.met = u.met := State.met_flagStart _ _
      _ = (eff s p).met := (State.copyChecks_passes h fun s _ _ => .done s []).2
      _ = s.met := State.atIssue_met _ _

theorem push_starts {p : Pred} {f : MF} {src : Layout} {bar : Option BarName} {ts : List Nat} {s u : State} (hr : s.Runs p fun _ => true)
    (h : pushPasses (eff s p) u f (s.allowed p) src bar ts) :
    exec (.cpys p f) s = retired (u.freshId.1.modT fun t =>
      { t with pushes := t.pushes ++ [{ id := u.nextId, grp := u.foc.grp, port := f.width.code, box := some src, beats := src.bytes / 32,
                                        taken := ts.map fun t => (t, 0), bar, mask := s.allowed p, pc := u.g.iss.pc, retired := u.g.retired }] }) := by
  show execCpys p f s = _
  refine State.perform_done s false p _ _ hr _ ?_ ?_
  · rw [(State.copyChecks_push h _).1]
    have hc : u.freshId.1.consumers (f.i % 256) = some ts := h.2.2.2.2.2.2.1
    dsimp only
    rw [hc]
    rfl
  · exact ((State.copyChecks_push h fun s _ _ => .done s []).2).trans (State.atIssue_met _ _)

/-! ### Landings (R96, R97, R123) -/

/-- The bytes of an element land at a place in scratchpad, or in local memory where its page is mapped. -/
theorem State.engWrite_lands {v w : State} {acc : Acc} {x : Place} {bs : List Byte} {poi : List Bool}
    (h : (∃ tm off, x = .scr tm off ∧ w = (v.scrWrite tm off bs).scrPoisonBytes tm off poi) ∨
      ∃ a t, x = .va a ∧ v.translateUnit v.foc.ctx acc a = .ok t ∧ v.isLocal t.pa = true ∧
        w = v.engineWrite v.foc.core t.pa (pteCp t.pte) bs (marksOf t.pa poi))
    (u : UnitId) (grp : Nat) (mask : Mask) (pc retired : W64) (tag : Option (Nat × Nat)) (bar : Option BarName) :
    v.engWrite acc u grp mask pc retired tag bar x bs poi = (w, true) := by
  obtain ⟨tm, off, rfl, rfl⟩ | ⟨a, t, rfl, ht, hl, rfl⟩ := h
  · rfl
  · unfold State.engWrite
    dsimp only
    rw [ht]
    dsimp only
    rw [if_pos hl]

/-- The element has landed, if `done` says so: the flag of a NaN is raised (R162), and the barrier of its command counts its bytes. -/
def State.landCounted (w : State) (done : Bool) (c : Cmd) (n : Nat) (nf : Bool) : State :=
  let w := if nf then w.raiseIn c.grp c.mask fNF else w
  if done then (match c.bar with | some b => w.barLand b n | none => w) else w

/-- A command with its next element landed: it goes on, or ends with its last and clears its flag. -/
def State.landNext (w : State) (cmd : Nat) (c : Cmd) : State × Bool :=
  if c.total ≤ c.landed + 1 then
    let w := w.modT fun t => { t with cmds := t.cmds.filter fun e => e.id != cmd }
    ((match c.flag with | some f => w.flagLanded c.grp f | none => w).bump, true)
  else ((w.modT fun t => { t with cmds := t.cmds.map fun e => if e.id == cmd then { c with landed := c.landed + 1 } else e }).bump, true)

/-- The state in which an element lands whose barrier counts it: its core's writes are on their way home (R97). -/
def State.landFlushed (r : State) (c : Cmd) : State := if c.bar.isSome then r.flushCore r.foc.core else r

/-- The bytes of a command's next element land. -/
def State.landWrite (r : State) (team cmd : Nat) (c : Cmd) (x : Place) (n : Nat) (bs : List Byte) (poi : List Bool) (nf : Bool) : State × Bool :=
  let v := r.landFlushed c
  if c.bar.isSome && !v.coreClear v.foc.core then (v, false)
  else
    let y := v.engWrite (landAcc c) (.engine team c.kind.chan) c.grp c.mask c.pc c.retired c.flag c.bar x bs poi
    (y.1.landCounted y.2 c n nf).landNext cmd c

/-- The next element of a command of the team in focus. -/
def State.landFound (u : State) (team cmd : Nat) (c : Cmd) : State × Bool :=
  let x := u.landPlace c c.landed
  if c.total ≤ c.landed || u.t.phase == .saved || u.c.holds (.engine team c.kind.chan) || u.landBlocked c x.1 x.2 then (u, false)
  else
    match u.landBytes c c.landed with
    | (r, none) => (r, false)
    | (r, some (bs, poi, nf)) => r.landWrite team cmd c x.1 x.2 bs poi nf

theorem State.landOne_of_find {s : State} {team cmd : Nat} {c : Cmd} (h : (s.focusTeam team).t.cmds.find? (fun c => c.id == cmd) = some c) :
    s.landOne team cmd = (s.focusTeam team).landFound team cmd c := by
  unfold State.landOne
  dsimp only
  rw [h]
  rfl

/-- An element lands that nothing holds back. -/
theorem State.landFound_lands {u r w : State} {team cmd n : Nat} {x : Place} {c : Cmd} {bs : List Byte} {poi : List Bool} {nf : Bool}
    (hl : c.landed < c.total) (hp : u.t.phase ≠ .saved) (hh : u.c.holds (.engine team c.kind.chan) = false)
    (hx : u.landPlace c c.landed = (x, n)) (hb : u.landBlocked c x n = false) (hr : u.landBytes c c.landed = (r, some (bs, poi, nf)))
    (hv : c.bar.isSome = true → (r.landFlushed c).coreClear (r.landFlushed c).foc.core = true)
    (hw : (r.landFlushed c).engWrite (landAcc c) (.engine team c.kind.chan) c.grp c.mask c.pc c.retired c.flag c.bar x bs poi = (w, true)) :
    u.landFound team cmd c = (w.landCounted true c n nf).landNext cmd c := by
  have hguard : (decide (c.total ≤ c.landed) || u.t.phase == .saved || u.c.holds (.engine team c.kind.chan) || u.landBlocked c x n) = false := by
    simp [hl, hp, hh, hb]
  have hclear : (c.bar.isSome && !(r.landFlushed c).coreClear (r.landFlushed c).foc.core) = false := by
    cases hbar : c.bar.isSome with
    | false => rfl
    | true => rw [hv hbar]; rfl
  unfold State.landFound
  dsimp only
  rw [hx, hguard, if_neg Bool.false_ne_true, hr]
  dsimp only
  unfold State.landWrite
  dsimp only
  rw [hclear, if_neg Bool.false_ne_true, hw]

theorem State.landNext_of_lt (w : State) (cmd : Nat) {c : Cmd} (h : c.landed + 1 < c.total) : w.landNext cmd c =
    ((w.modT fun t => { t with cmds := t.cmds.map fun e => if e.id == cmd then { c with landed := c.landed + 1 } else e }).bump, true) :=
  if_neg (Nat.not_le.mpr h)

theorem State.landNext_of_last (w : State) (cmd : Nat) {c : Cmd} (h : c.landed + 1 = c.total) : w.landNext cmd c =
    ((match c.flag with
      | some f => (w.modT fun t => { t with cmds := t.cmds.filter fun e => e.id != cmd }).flagLanded c.grp f
      | none => w.modT fun t => { t with cmds := t.cmds.filter fun e => e.id != cmd }).bump, true) :=
  if_pos (Nat.le_of_eq h.symm)

theorem State.met_landNext (w : State) (cmd : Nat) (c : Cmd) : (w.landNext cmd c).1.met = w.met := by
  unfold State.landNext
  split
  · dsimp only
    split
    · exact (State.quiet_flagLanded _ _ _).met
    · rfl
  · rfl

/-- Of n + 1 elements one lands, and then n from the state that it leaves. -/
theorem exec_engineWriteLanding {s x : State} {team cmd : Nat} (h : s.landOne team cmd = (x, true)) (hm : x.met = s.met) :
    exec (.engineWriteLanding team cmd 1) s = .next x ∧
      ∀ k, exec (.engineWriteLanding team cmd (k + 1)) s = exec (.engineWriteLanding team cmd k) x := by
  have hs (k : Nat) : s.landMany team cmd (k + 1) = x.landMany team cmd k := by
    rw [State.landMany, h]
    simp [hm]
  exact ⟨congrArg _ (hs 0), fun k => congrArg _ (hs k)⟩

theorem copiesHold_holds : copiesHold := by
  refine ⟨fun i p f kind src dst bar s u hi hr hf h => copy_starts hi hr hf h, fun p f src bar ts s u hr h => push_starts hr h, ?_⟩
  intro team cmd n x c s u r w bs poi nf hu hc hl hp hh hx hb hr v hv hw w1 w2 hm lands
  subst hu
  have hone : s.landOne team cmd = w2.landNext cmd c := by
    rw [State.landOne_of_find hc, State.landFound_lands hl hp hh hx hb hr hv (State.engWrite_lands hw _ _ _ _ _ _ _)]
    rfl
  have hmet : (w2.landNext cmd c).1.met = s.met := (State.met_landNext _ _ _).trans hm
  refine ⟨fun h => ?_, fun h => ?_⟩
  · rw [State.landNext_of_lt w2 cmd h] at hone hmet
    exact exec_engineWriteLanding hone hmet
  · rw [State.landNext_of_last w2 cmd h] at hone hmet
    exact exec_engineWriteLanding hone hmet

/-! ### Beats (R125, R128) -/

/-- One element of a beat read from a push's box, after those read before it. -/
def beatElem (u : Push) (b : Layout) (j : Nat) (x : Option (State × List Byte × Option (Flt × W64))) : Option (State × List Byte × Option (Flt × W64)) :=
  match x with
  | none => none
  | some (s, bs, some e) => some (s, bs, some e)
  | some (s, bs, none) =>
    let pl := s.placeOf b.space (b.addr (b.coords j)) b.eb
    match s.engRead .engRead u.fetched b.eb (some u.id) pl with
    | (_, .wait _) => none
    | (s, .got d _ none) => some (s, bs ++ d, none)
    | (s, .got _ _ (some f)) => some (s, bs, some (f, match pl with | .va a => a | _ => 0))

/-- Elements that read without a fault leave their bytes. -/
theorem foldl_beatElem {u : Push} {b : Layout} {n j : Nat} {s t : State} {bs : List Byte} (h : boxReads u b n j s t bs) (acc : List Byte) :
    (List.range n).foldl (fun x i => beatElem u b (j + i) x) (some (s, acc, none)) = some (t, acc ++ bs, none) := by
  induction n generalizing j s bs acc with
  | zero =>
    obtain ⟨rfl, rfl⟩ := h
    simp
  | succ n ih =>
    obtain ⟨v, d, poi, rest, e, hr, rfl⟩ := h
    have h0 : beatElem u b (j + 0) (some (s, acc, none)) = some (v, acc ++ d, none) := by
      unfold beatElem
      dsimp only
      rw [Nat.add_zero, e]
    have hi := ih hr (acc ++ d)
    rw [List.range_succ_eq_map, List.foldl_cons, h0, List.foldl_map, ← List.append_assoc, ← hi]
    simp only [Nat.succ_eq_add_one, Nat.add_assoc, Nat.add_comm 1]

/-- A beat of a box whose elements read without a fault. -/
theorem State.readBeat_reads {v w : State} {team : Nat} {u : Push} {b : Layout} {bs : List Byte} (hb : u.box = some b)
    (h : boxReads u b (32 / b.eb) (u.bytes.length / b.eb) v w bs) : v.readBeat team u = some (w, { u with bytes := u.bytes ++ bs }) := by
  have hf := foldl_beatElem h []
  unfold State.readBeat
  rw [hb]
  dsimp only
  show (match (List.range (32 / b.eb)).foldl (fun x i => beatElem u b (u.bytes.length / b.eb + i) x) (some (v, [], none)) with
    | none => none
    | some (s, bs, none) => _
    | some (s, _, some (f, va)) => _) = _
  rw [hf]
  rfl

/-- A push that has met no word that it could not read is put back as it stands, or is gone with its last beat. -/
theorem State.putPush_eq_pushKept (s : State) (team : Nat) {u u' : Push} (hs : u'.stop = false) (hi : u'.id = u.id) (hb : u'.bar = u.bar)
    (hn : u'.beats = u.beats) : s.putPush team u' u.common = pushKept s team u u' := by
  have ha : u'.avail = u.beats := by rw [Push.avail, hs, ← hn]; rfl
  cases hbar : u.bar with
  | none => simp only [State.putPush, pushKept, ha, hi, hb, hbar]
  | some b => simp only [State.putPush, pushKept, ha, hi, hb, hbar]

/-- The push that a team's list names has consumers with beats to take, and its core's writes are done where its barrier counts. -/
theorem acceptBeat_open {u : Push} {consumer k : Nat} {v : State} {core : Nat} (hs : u.stop = false) (hc : consumer ∈ u.taken.map (·.1)) (hk : k < u.beats)
    (hv : u.bar.isSome = true → v.coreClear core = true) :
    (!u.taken.any (·.1 == consumer) || decide (u.avail ≤ k) || u.bar.isSome && !v.coreClear core) = false := by
  have ha : u.avail = u.beats := by rw [Push.avail, hs]; rfl
  have ht : u.taken.any (·.1 == consumer) = true := by
    obtain ⟨x, hx, rfl⟩ := List.mem_map.mp hc
    exact List.any_eq_true.mpr ⟨x, hx, by simp⟩
  have hb : (u.bar.isSome && !v.coreClear core) = false := by
    cases hbar : u.bar.isSome with
    | false => rfl
    | true => rw [hv hbar]; rfl
  simp [ht, ha, hb, hk]

/-- A port takes a beat of the push that is in it, or of the oldest where none is. -/
theorem acceptBeat_port {q : Port} {team push : Nat} {older : Bool} {cap : Nat}
    (h : q.cur = some (team, push) ∨ q.cur = none ∧ older = false) (hq : q.bytes.length + 32 ≤ cap) :
    (q.cur.isSome && !(q.cur == some (team, push)) || (!(q.cur == some (team, push)) && older) || decide (cap < q.bytes.length + 32)) = false := by
  obtain h | ⟨h, ho⟩ := h
  · simp [h, hq]
  · simp [h, ho, hq]

theorem tookBy_bytes (u : Push) (consumer n : Nat) : (tookBy u consumer n).bytes = u.bytes := rfl
theorem tookBy_port (u : Push) (consumer n : Nat) : (tookBy u consumer n).port = u.port := rfl
theorem tookBy_stop (u : Push) (consumer n : Nat) : (tookBy u consumer n).stop = u.stop := rfl
theorem tookBy_avail {u : Push} (h : u.stop = false) (consumer n : Nat) : (tookBy u consumer n).avail = u.beats := by
  rw [Push.avail, tookBy_stop, h]
  rfl

/-- What a consumer's port and a push become once the bytes that the push has read are known. -/
def State.beatAccepted (s : State) (t : Team) (team push consumer k : Nat) (q : Port) (u : Push) : State × Bool :=
  let stopped := u.stop && !(t.pushes.any fun v => v.id == push && v.stop)
  let got := 32 * k < u.bytes.length
  let k' := if got then k + 1 else k
  let u' := tookBy u consumer k'
  let c := s.teamAt consumer
  let pt : Port := { q with bytes := if got then q.bytes ++ (u'.bytes.drop (32 * k)).take 32 else q.bytes,
                            cur := if u'.avail ≤ k' then none else some (team, push) }
  let s := s.setTeamAt consumer { c with ports := bankPut {} c.ports u'.port pt }
  ((if u'.stop then s.breakPorts team u' (fun x => stopped || x == consumer) else s).putPush team u' u.common, true)

/-- A port takes the next beat of a push that has met no word it could not read. -/
theorem State.beatAccepted_eq (s : State) (t : Team) (team push consumer : Nat) (q : Port) {k : Nat} {u : Push} (hs : u.stop = false)
    (hg : 32 * k < u.bytes.length) :
    let c := s.teamAt consumer
    let pt : Port := { q with bytes := q.bytes ++ (u.bytes.drop (32 * k)).take 32, cur := if u.beats ≤ k + 1 then none else some (team, push) }
    s.beatAccepted t team push consumer k q u =
      (pushKept (s.setTeamAt consumer { c with ports := bankPut {} c.ports u.port pt }) team u (tookBy u consumer (k + 1)), true) := by
  simp only [State.beatAccepted, hg, if_true, tookBy_stop, tookBy_bytes, tookBy_port, tookBy_avail hs, hs, Bool.false_eq_true, if_false]
  rw [State.putPush_eq_pushKept _ team (u := u) (u' := tookBy u consumer (k + 1)) hs rfl rfl rfl]

theorem State.acceptBeat_takes {s w : State} {team push consumer : Nat} {u : Push} {bs : List Byte}
    (hf : (s.teamAt team).pushes.find? (fun u => u.id == push) = some u) (hs : u.stop = false) (hc : consumer ∈ u.taken.map (·.1)) :
    let t := s.teamAt team
    let v := if u.bar.isSome then s.flushCore t.core else s
    let k := u.takenBy consumer
    let q := bankGet (s.teamAt consumer).ports ({} : Port) u.port
    k < u.beats → (u.bar.isSome = true → v.coreClear t.core = true) →
    (v.c.holds (.engine team (1 + u.port)) = false ∨ u.box = none) →
    (32 * k < u.bytes.length ∧ w = v ∧ bs = [] ∨
      ∃ b, u.bytes.length = 32 * k ∧ t.phase = .resident ∧ u.box = some b ∧ boxReads u b (32 / b.eb) (32 * k / b.eb) v w bs ∧ bs.length = 32) →
    (s.teamAt consumer).phase = .resident →
    (q.cur = some (team, push) ∨ q.cur = none ∧ t.olderPush u consumer = false) → q.bytes.length + 32 ≤ portCap u.port →
    let all := u.bytes ++ bs
    let c := w.teamAt consumer
    let pt : Port := { q with bytes := q.bytes ++ (all.drop (32 * k)).take 32, cur := if u.beats ≤ k + 1 then none else some (team, push) }
    s.acceptBeat team push consumer =
      (pushKept (w.setTeamAt consumer { c with ports := bankPut {} c.ports u.port pt }) team u (tookBy { u with bytes := all } consumer (k + 1)), true) := by
  intro t v k q hk hv hh hr hp hq hcap all c pt
  have hopen := acceptBeat_open hs hc hk hv
  have hport := acceptBeat_port hq hcap
  have hready : (v.c.holds (.engine team (1 + u.port)) && u.box.isSome || t.phase != .resident && decide (u.bytes.length ≤ 32 * k)) = false := by
    have h1 : (v.c.holds (.engine team (1 + u.port)) && u.box.isSome) = false := by
      obtain h | h := hh <;> simp [h]
    obtain ⟨h2, _⟩ | ⟨b, _, h2, _⟩ := hr
    · simp [h1, h2]
    · simp [h1, h2]
  have hread : (if u.bytes.length ≤ 32 * k then v.readBeat team u else some (v, u)) = some (w, { u with bytes := all }) := by
    obtain ⟨h1, rfl, rfl⟩ | ⟨b, h1, _, h2, h3, _⟩ := hr
    · rw [if_neg (by omega)]
      simp [all]
    · rw [if_pos (by omega)]
      exact State.readBeat_reads h2 (h1 ▸ h3)
  have hgot : 32 * k < all.length := by
    obtain ⟨h1, _, rfl⟩ | ⟨b, h1, _, _, _, h2⟩ := hr
    · simpa [all] using h1
    · simp only [all, List.length_append]
      omega
  have hres : ((s.teamAt consumer).phase == .retired) = false := by rw [hp]; rfl
  have hres' : ((s.teamAt consumer).phase != .resident) = false := by rw [hp]; rfl
  have hall : s.acceptBeat team push consumer = w.beatAccepted t team push consumer k q { u with bytes := all } := by
    unfold State.acceptBeat
    dsimp only
    rw [hf]
    dsimp only
    rw [hopen, if_neg Bool.false_ne_true, hres, if_neg Bool.false_ne_true, hready, if_neg Bool.false_ne_true, hres', Bool.false_or, hport,
      if_neg Bool.false_ne_true, hread]
    rfl
  rw [hall]
  exact State.beatAccepted_eq w t team push consumer q hs hgot

/-- A consumer that has retired takes every beat of a push at once. -/
theorem State.acceptBeat_retired {s : State} {team push consumer : Nat} {u : Push}
    (hf : (s.teamAt team).pushes.find? (fun u => u.id == push) = some u) (hs : u.stop = false) (hc : consumer ∈ u.taken.map (·.1))
    (hk : u.takenBy consumer < u.beats) (hp : (s.teamAt consumer).phase = .retired) :
    let v := if u.bar.isSome then s.flushCore (s.teamAt team).core else s
    (u.bar.isSome = true → v.coreClear (s.teamAt team).core = true) →
    s.acceptBeat team push consumer = (pushKept v team u (tookBy u consumer u.beats), true) := by
  intro v hv
  have hopen := acceptBeat_open hs hc hk hv
  have hres : ((s.teamAt consumer).phase == .retired) = true := by rw [hp]; rfl
  rw [← State.putPush_eq_pushKept v team (u := u) (u' := tookBy u consumer u.beats) hs rfl rfl rfl]
  unfold State.acceptBeat
  dsimp only
  rw [hf]
  dsimp only
  rw [hopen, if_neg Bool.false_ne_true, hres, if_pos rfl]
  rfl

/-- Of n + 1 beats one is taken, and then n from the state that it leaves. -/
theorem State.acceptBeats_succ {s x : State} {team push consumer : Nat} (h : s.acceptBeat team push consumer = (x, true)) (hm : x.met = s.met)
    (n : Nat) : s.acceptBeats team push consumer (n + 1) = x.acceptBeats team push consumer n := by
  rw [State.acceptBeats, h]
  simp [hm]

theorem streamBeatsHold_holds : streamBeatsHold := by
  refine ⟨?_, ?_⟩
  · intro team push consumer s w u bs hf hs hc t v k q hk hv hh hr hp hq hcap all c pt x hm
    have hone : (s.focusTeam team).acceptBeat team push consumer = (x, true) :=
      State.acceptBeat_takes (s := s.focusTeam team) hf hs hc hk hv hh hr hp hq hcap
    have hsucc := State.acceptBeats_succ hone hm
    exact ⟨congrArg _ (hsucc 0), fun hx n => congrArg _ ((hsucc n).trans (by rw [hx]))⟩
  · intro team push consumer s u hf hs hc hk hp v x hv hm
    have hone : (s.focusTeam team).acceptBeat team push consumer = (x, true) :=
      State.acceptBeat_retired (s := s.focusTeam team) hf hs hc hk hp hv
    exact congrArg _ (State.acceptBeats_succ hone hm 0)

/-- Settles O40: a copy or push whose checks pass is handed over, its next element lands where nothing holds it back, and a port takes the
next beat that has room. -/
theorem copyCommands : Obligations.CopyCommands := ⟨copiesHold_holds, streamBeatsHold_holds⟩

end Sys2Proof.Machine
end

section
/-! PROOFS. The words that no handler may issue (R414), as a handler past its budget meets them (R415). -/
set_option maxRecDepth 100000

namespace Sys2Proof.Machine

/-! ### The runners of an issue, for a word that a handler may not issue -/

section
variable {s : State} (hs : s.g.iss.handler = true)
include hs

theorem State.perform_inHandler (p : Pred) (chk : Nat → Bool) (op : State → Mask → Did) : s.perform false p chk op = .next s.doubleTrap := by
  simp [State.perform, hs, State.performHandler]

theorem State.performWide_inHandler (p : Pred) (chk : Nat → Bool) (op : State → Mask → Did) : s.performWide p chk op = .next s.doubleTrap := by
  simp [State.performWide, hs, State.perform_inHandler hs]

theorem State.perLane_inHandler (p : Pred) (chk : Nat → Bool) (op : State → Nat → Lane → Lane) : s.perLane p chk op = .next s.doubleTrap :=
  State.perform_inHandler hs p chk _

theorem State.once_inHandler (p : Pred) (chk : Nat → Bool) (op : State → Mask → Grp → Grp) : s.once false p chk op = .next s.doubleTrap :=
  State.perform_inHandler hs p chk _

theorem State.tapeOp_inHandler (p : Pred) (f : VF) (conv last : Bool) (states : TapeSt → Bool) (k : State → Mask → Did) :
    s.tapeOp p f conv last states k = .next s.doubleTrap := by
  unfold State.tapeOp
  cases conv with
  | false => rw [if_neg Bool.false_ne_true]; exact State.perform_inHandler hs p _ _
  | true => rw [if_pos rfl]; exact State.performWide_inHandler hs p _ _

/-! ### The operations that several words share -/

theorem State.exchange_inHandler (p : Pred) (f : VF) (own : List Opnd) (src : State → Nat → Option Nat) (ixPoi : State → Nat → Bool) :
    s.exchange p f own src ixPoi = .next s.doubleTrap := by
  unfold State.exchange
  exact State.perform_inHandler hs p _ _
theorem State.fpOp_inHandler (p : Pred) (f : VF) (n : Nat) (fn : Fmt → FpEnv → List Num → FpR) : s.fpOp p f n fn = .next s.doubleTrap := by
  unfold State.fpOp
  exact State.perLane_inHandler hs p _ _
theorem State.loadOp_inHandler (p : Pred) (f : MF) (k : Bool) : s.loadOp false p f k = .next s.doubleTrap := by
  unfold State.loadOp
  exact State.perform_inHandler hs p _ _
theorem State.storeOp_inHandler (p : Pred) (f : MF) (acc : Acc) (k : Bool) : s.storeOp false p f acc k = .next s.doubleTrap := by
  unfold State.storeOp
  exact State.perform_inHandler hs p _ _
theorem State.lineOp_inHandler (p : Pred) (f : MF) (op : State → Nat → Nat → State) : s.lineOp p f op = .next s.doubleTrap := by
  unfold State.lineOp
  exact State.perform_inHandler hs p _ _
theorem State.copyOp_inHandler (p : Pred) (f : MF) (k : CmdKind) : s.copyOp p f k = .next s.doubleTrap := by
  unfold State.copyOp
  exact State.perform_inHandler hs p _ _
theorem State.collOp_inHandler (p : Pred) (f : MF) (k : CollKind) : s.collOp p f k = .next s.doubleTrap := by
  unfold State.collOp
  exact State.perform_inHandler hs p _ _
theorem State.mmaOp_inHandler (b : Bool) (p : Pred) (f : VF) : s.mmaOp b p f = .next s.doubleTrap := by
  unfold State.mmaOp
  exact State.perform_inHandler hs p _ _
theorem State.texOp_inHandler (p : Pred) (f : VF) (lam adj : Bool) : s.texOp p f lam adj = .next s.doubleTrap := by
  unfold State.texOp
  exact State.perform_inHandler hs p _ _
theorem State.rayOp_inHandler (p : Pred) (f : VF) (nb : Nat) (one : State → Nat → State × RayLane) (chk : Bool) :
    s.rayOp p f nb one chk = .next s.doubleTrap := by
  unfold State.rayOp
  exact State.perform_inHandler hs p _ _
theorem State.streamOp_inHandler (p : Pred) (f : VF) (k : State → Mask → StreamOps → Did) : s.streamOp p f k = .next s.doubleTrap := by
  unfold State.streamOp
  exact State.performWide_inHandler hs p _ _
theorem State.tileLoad_inHandler (p : Pred) (f : MF) : s.tileLoad p f = .next s.doubleTrap := by
  rw [State.tileLoad_eq]
  exact State.performWide_inHandler hs p _ _
theorem State.tileStore_inHandler (p : Pred) (f : MF) : s.tileStore p f = .next s.doubleTrap := by
  rw [State.tileStore_eq]
  exact State.performWide_inHandler hs p _ _

/-! ### Words whose form goes by their destination -/

theorem execLea_inHandler (p : Pred) (f : MF) : execLea p f s = .next s.doubleTrap := by
  unfold execLea
  dsimp only
  split
  · exact State.once_inHandler hs p _ _
  · exact State.perLane_inHandler hs p _ _

theorem execClk_inHandler (p : Pred) (f : VF) : execClk p f s = .next s.doubleTrap := by
  unfold execClk
  split
  · exact State.once_inHandler hs p _ _
  · exact State.perLane_inHandler hs p _ _

theorem execFcmp_inHandler (p : Pred) (f : VF) : execFcmp p f s = .next s.doubleTrap := by
  unfold execFcmp
  dsimp only
  split
  · exact State.perform_inHandler hs p _ _
  · exact State.perLane_inHandler hs p _ _

theorem execRed_inHandler (p : Pred) (f : MF) : execRed p f s = .next s.doubleTrap := by
  unfold execRed
  exact State.perform_inHandler hs p _ _

theorem execRflush_inHandler (p : Pred) (f : MF) : execRflush p f s = .next s.doubleTrap := by
  unfold execRflush
  exact State.perform_inHandler hs p _ _

theorem execSpush_inHandler (p : Pred) (f : VF) : execSpush p f s = .next s.doubleTrap := by
  unfold execSpush
  exact State.perform_inHandler hs p _ _

theorem execXperm_inHandler (p : Pred) (f : VF) : execXperm p f s = .next s.doubleTrap := by
  unfold execXperm
  exact State.perform_inHandler hs p _ _

theorem execRcq_inHandler (p : Pred) (f : VF) : execRcq p f s = .next s.doubleTrap := by
  unfold execRcq
  exact State.perform_inHandler hs p _ _

theorem execTrace_inHandler (p : Pred) (f : VF) : execTrace p f s = .next s.doubleTrap := by
  unfold execTrace
  exact State.rayOp_inHandler hs p f 8 _ true

theorem execTresume_inHandler (p : Pred) (f : VF) : execTresume p f s = .next s.doubleTrap := by
  unfold execTresume
  exact State.rayOp_inHandler hs p f _ _ false

theorem execTabort_inHandler (p : Pred) (f : VF) : execTabort p f s = .next s.doubleTrap := by
  unfold execTabort
  exact State.rayOp_inHandler hs p f 0 _ false

theorem execBcast_inHandler (p : Pred) (f : VF) : execBcast p f s = .next s.doubleTrap := by
  unfold execBcast
  dsimp only
  split
  · exact State.once_inHandler hs p _ _
  · exact State.exchange_inHandler hs p _ _ _ _

/-! ### Every word -/

/-- A word that issues in a handler does what it does in every issue: one that no handler may issue is a Double Trap there. -/
theorem handlerRun_eq_exec {i : Instr} (hi : i.parts ≠ none) : handlerRun i s = exec i s := by
  cases i with
  | brx | exit | yield | trap | bkpt | waitf | atr | aget | gfuse | gang | zread | ecount | qnt | deq | redux | scan | binit | bexpect
  | barrive | bwait | btest | cpys | walloc | wsend | launch | mqstat | mdrop | xmatch | xsort | xtrn | rcov | hitadj | rcsync
  | rcstat => unfold exec; exact (State.perform_inHandler hs _ _ _).symm
  | call | callx | ret | gsplit | stash | restore => unfold exec; exact (State.performWide_inHandler hs _ _ _).symm
  | rng | fclass | fscale | fdot2 | fcvt | ftoi | itof | pack8 | unpk8 | xsparse | esmp => unfold exec; exact (State.perLane_inHandler hs _ _ _).symm
  | arel | ballot | elect => unfold exec; exact (State.once_inHandler hs _ _ _).symm
  | topen | trec | tpop | tmark | tend | tstat | tclose => unfold exec; exact (State.tapeOp_inHandler hs _ _ _ _ _ _).symm
  | fadd | fsub | fmul | ffma | fmin | fmax | fminm | fmaxm | fdiv | fsqrt | frcp | frsq | fexp2 | flog2 | fsin | fcos | frint | fgetexp =>
    unfold exec; exact (State.fpOp_inHandler hs _ _ _ _).symm
  | shfl | shup | shdn => unfold exec; exact (State.exchange_inHandler hs _ _ _ _ _).symm
  | lds | ldk => unfold exec; exact (State.loadOp_inHandler hs _ _ _).symm
  | sts | stk | zst => unfold exec; exact (State.storeOp_inHandler hs _ _ _ _).symm
  | cinv | cflu | pref => unfold exec; exact (State.lineOp_inHandler hs _ _ _).symm
  | cpy | cpyt | cpyc => unfold exec; exact (State.copyOp_inHandler hs _ _ _).symm
  | collar | collrs | collag | collupd | collcmt => unfold exec; exact (State.collOp_inHandler hs _ _ _).symm
  | mma | mmasp => unfold exec; exact (State.mmaOp_inHandler hs _ _ _).symm
  | tex | texl | texadj => unfold exec; exact (State.texOp_inHandler hs _ _ _ _).symm
  | xdec | xenc => unfold exec; exact (State.streamOp_inHandler hs _ _ _).symm
  | tld | tlds => unfold exec; exact (State.tileLoad_inHandler hs _ _).symm
  | tst | tsts => unfold exec; exact (State.tileStore_inHandler hs _ _).symm
  | red => unfold exec; exact (execRed_inHandler hs _ _).symm
  | rflush => unfold exec; exact (execRflush_inHandler hs _ _).symm
  | spush => unfold exec; exact (execSpush_inHandler hs _ _).symm
  | xperm => unfold exec; exact (execXperm_inHandler hs _ _).symm
  | rcq => unfold exec; exact (execRcq_inHandler hs _ _).symm
  | trace => unfold exec; exact (execTrace_inHandler hs _ _).symm
  | tresume => unfold exec; exact (execTresume_inHandler hs _ _).symm
  | tabort => unfold exec; exact (execTabort_inHandler hs _ _).symm
  | lea => unfold exec; exact (execLea_inHandler hs _ _).symm
  | clk => unfold exec; exact (execClk_inHandler hs _ _).symm
  | fcmp => unfold exec; exact (execFcmp_inHandler hs _ _).symm
  | bcast => unfold exec; exact (execBcast_inHandler hs _ _).symm
  | nop | bra | bru | tret | mfsr | mtsr | hexitWrite | ptmaskWrite | lget | lput | add | sub | mul | mulh | mad | addc | subb | and | or | xor | andn
  | shl | shr | sra | rot | min | max | absd | cmp | sel | popc | clz | brev | bfe | bfi | mov | div | movi | addi | andi | ori | xori | cmpi | mand
  | mor | mxor | mandn | mmov | mpopc | mfirst | mact | ld | st | atom | cas | casgt | casv | caspt | fence => rfl
  | _ => exact absurd rfl hi

end

end Sys2Proof.Machine
end

section
/-! PROOFS. What lets a group go on (O50). -/
set_option maxRecDepth 100000

namespace Sys2Proof.Machine

/-! ### The end of a lane wait (R188): what the returns of its lanes keep -/

/-- Two states of a lane with the same PC, registers, state and wait. -/
def Lane.SameStand (x y : Lane) : Prop := y.pc = x.pc ∧ y.v = x.v ∧ y.st = x.st ∧ y.wait = x.wait

theorem Lane.SameStand.refl (x : Lane) : x.SameStand x := ⟨rfl, rfl, rfl, rfl⟩
theorem Lane.SameStand.trans {x y z : Lane} (h : x.SameStand y) (h' : y.SameStand z) : x.SameStand z :=
  ⟨h'.1.trans h.1, h'.2.1.trans h.2.1, h'.2.2.1.trans h.2.2.1, h'.2.2.2.trans h.2.2.2⟩

/-- `t` comes from `s` as `n` issues of the group in focus retire with the returns of its lanes: no lane has moved yet, and without a log
no memory has changed. -/
structure State.Returned (s t : State) (n : Nat) : Prop where
  foc : t.foc = s.foc
  retired : t.g.retired = s.g.retired + BitVec.ofNat 64 n
  handler : t.g.handler = s.g.handler
  lane : ∀ l, (s.g.lane l).SameStand (t.g.lane l)
  log : s.c.dbgLogOn = false → t.mem = s.mem ∧ t.c.dbgLogOn = false

theorem State.Returned.refl (s : State) : s.Returned s 0 := ⟨rfl, (BitVec.add_zero _).symm, rfl, fun _ => .refl _, fun h => ⟨rfl, h⟩⟩

theorem State.Returned.trans {s t u : State} {n m : Nat} (h : s.Returned t n) (h' : t.Returned u m) : s.Returned u (n + m) where
  foc := h'.foc.trans h.foc
  retired := by rw [h'.retired, h.retired, BitVec.ofNat_add, BitVec.add_assoc]
  handler := h'.handler.trans h.handler
  lane l := (h.lane l).trans (h'.lane l)
  log hl := ⟨(h'.log (h.log hl).2).1.trans (h.log hl).1, (h'.log (h.log hl).2).2⟩

/-- A change of the group alone. -/
theorem State.returned_modG (s : State) {f : Grp → Grp} {n : Nat} (hr : (f s.g).retired = s.g.retired + BitVec.ofNat 64 n)
    (hh : (f s.g).handler = s.g.handler) (hl : ∀ l, (s.g.lane l).SameStand ((f s.g).lane l)) : s.Returned (s.modG f) n where
  foc := rfl
  retired := by rw [State.g_modG, hr]
  handler := by rw [State.g_modG, hh]
  lane l := by rw [State.g_modG]; exact hl l
  log h := ⟨rfl, h⟩

/-- A change that leaves the groups. -/
theorem State.Returned.of_groups {s t : State} (hf : t.foc = s.foc) (hg : t.groups = s.groups)
    (hl : s.c.dbgLogOn = false → t.mem = s.mem ∧ t.c.dbgLogOn = false) : s.Returned t 0 := by
  have hgr : t.g = s.g := by rw [State.g, hf, State.grpAt, hg]; rfl
  exact ⟨hf, by rw [hgr]; exact (BitVec.add_zero _).symm, by rw [hgr], fun l => by rw [hgr]; exact .refl _, hl⟩

theorem State.Returned.foldl {α : Type} {f : State → α → State} {n : Nat} (hf : ∀ (s : State) (a : α), s.Returned (f s a) n) (s : State)
    (l : List α) : s.Returned (l.foldl f s) (n * l.length) := by
  induction l generalizing s with
  | nil => exact .refl s
  | cons a l ih =>
    rw [List.length_cons, Nat.mul_succ, Nat.add_comm]
    exact (hf s a).trans (ih (f s a))

theorem Grp.sameStand_modLanes (g : Grp) {ls : List Nat} {f : Nat → Lane → Lane} (hn : ls.Nodup) (hf : ∀ l (x : Lane), x.SameStand (f l x)) (l : Nat) :
    (g.lane l).SameStand ((g.modLanes ls f).lane l) := by
  rw [Grp.lane_modLanes g ls f hn]
  split
  · exact hf _ _
  · exact .refl _

theorem State.returned_acquire (s : State) (sc : Scope) : s.Returned (s.acquire sc) 0 := by
  unfold State.acquire State.dropValid State.dropFills
  dsimp only
  split
  · split
    · exact .of_groups rfl rfl fun h => ⟨rfl, h⟩
    · exact .of_groups rfl rfl fun h => ⟨rfl, h⟩
  · exact .refl s

theorem State.returned_collNfAt (s : State) (b : BarName) (phase : W32) : s.Returned (s.collNfAt b phase) 0 := by
  refine State.returned_modG s ?_ (Grp.modLanes_handler _ _ _) fun l => ?_
  · exact (Grp.modLanes_retired _ _ _).trans (BitVec.add_zero _).symm
  · exact Grp.sameStand_modLanes s.g (f := fun _ x => x.raise fNF) (Grp.lanesOf_nodup _ _) (fun _ _ => ⟨rfl, rfl, rfl, rfl⟩) l

theorem State.returned_bindAt (s : State) (b : BarName) (phase : W32) : s.Returned (s.bindAt b phase) 0 := by
  unfold State.bindAt
  split
  · split
    · exact State.returned_modG s (BitVec.add_zero _).symm rfl fun _ => .refl _
    · exact .refl s
  · exact .refl s

theorem State.returned_logIn (s : State) (k : LogKind) (a : Nat) (d : List Byte) (p : List Bool) : s.Returned (s.logIn k a d p) 0 := by
  unfold State.logIn
  split
  case isTrue h => exact .of_groups rfl rfl fun hl => absurd (hl.symm.trans h) Bool.false_ne_true
  case isFalse => exact .refl s

theorem State.returned_logState (s : State) : s.Returned s.logState 0 := by
  unfold State.logState
  split
  case isTrue h => exact .of_groups rfl rfl fun hl => absurd (hl.symm.trans h) Bool.false_ne_true
  case isFalse => exact .refl s

theorem Ctx.count_dbgLogOn (c : Ctx) (code n : Nat) : (c.count code n).dbgLogOn = c.dbgLogOn := by
  unfold Ctx.count
  split <;> rfl

theorem State.returned_count (s : State) (code n : Nat) : s.Returned (s.count s.foc.ctx code n) 0 := by
  unfold State.count
  split
  · refine .of_groups rfl rfl fun h => ⟨rfl, ?_⟩
    exact (congrArg Ctx.dbgLogOn (State.ctxAt_setCtxAt_self s _ _)).trans ((Ctx.count_dbgLogOn _ _ _).trans h)
  · exact .refl s

/-- An owed issue counts once. -/
theorem State.returned_countWait (s : State) (r : W64) : s.Returned (s.countWait r) 1 := by
  have h : s.Returned (s.modG fun g => { g.modLanes (g.laneIdx.filter fun l => (g.lane l).owes && (waitObj (g.lane l).wait).map (·.2.2) == some r)
      fun _ x => { x with owes := false } with retired := g.retired + 1 }) 1 :=
    State.returned_modG s rfl (Grp.modLanes_handler _ _ _)
      fun l => Grp.sameStand_modLanes s.g (f := fun _ x => { x with owes := false }) (List.nodup_range.filter _) (fun _ _ => ⟨rfl, rfl, rfl, rfl⟩) l
  exact (h.trans (State.returned_count _ 1 1)).trans (State.returned_logState _)

/-! ### LANE_WAIT_RESUME (R188) -/

/-- What a lane brings with it as its wait returns (R97, R154, R207, R388). -/
def State.waitReturn (s : State) (l : Nat) : State :=
  match (s.g.lane l).wait with
  | .bwait b ph sc _ _ => ((s.acquire (waitScope s.gr.det s.foc.team b sc)).collNfAt b ph).bindAt b ph
  | .arriveL _ _ d res _ _ => let v : W64 := if res.getD false then 1 else 0; (s.setG (s.g.setSreg d.val ⟨v, false⟩)).logIn .arrive l (leBytes 8 v.toNat)
  | _ => s

theorem State.returned_waitReturn (s : State) (l : Nat) : s.Returned (s.waitReturn l) 0 := by
  unfold State.waitReturn
  split
  · exact ((State.returned_acquire s _).trans (State.returned_collNfAt _ _ _)).trans (State.returned_bindAt _ _ _)
  · exact (State.returned_modG s (f := fun g => g.setSreg _ _) (BitVec.add_zero _).symm rfl fun _ => .refl _).trans (State.returned_logIn _ _ _ _ _)
  · exact .refl s

/-- Resumed lanes run again where they stand. -/
def Grp.runAgain (g : Grp) (ls : List Nat) : Grp :=
  g.modLanes ls fun _ x => { x with st := .running, wait := .none, rot := 0, woken := none, owes := false }

theorem Grp.nodup_waitSet (g : Grp) : g.waitSet.Nodup := by
  have h : ∀ p st, ((g.inState st).filter p).Nodup := fun p st => (List.nodup_range.filter _).filter p
  unfold Grp.waitSet
  dsimp only
  split
  · exact List.nodup_nil
  · split
    · exact List.nodup_nil
    · exact h _ _

theorem State.canResume_of_over {s : State} {grp : Nat} (hs : (s.grpAt grp).stopped = false) (hd : s.stopDue grp = false)
    (hw : (s.grpAt grp).waitSet ≠ []) (ho : ∀ l ∈ (s.grpAt grp).waitSet, ((s.grpAt grp).lane l).waitEnd = .over) : s.canResume grp = true := by
  have hall : (s.grpAt grp).waitSet.all (fun l => ((s.grpAt grp).lane l).waitEnd != .on) = true :=
    List.all_eq_true.2 fun l hl => by rw [ho l hl]; rfl
  simp only [State.canResume, hs, hd, hall, List.isEmpty_eq_false_iff.2 hw, Bool.not_false, Bool.and_true]

/-- No lane of the waiting set has met an overrun. -/
theorem State.overrun_waitSet_nil {s : State} {grp : Nat} (ho : ∀ l ∈ (s.grpAt grp).waitSet, ((s.grpAt grp).lane l).waitEnd = .over) :
    (s.grpAt grp).waitSet.filter (fun l => ((s.grpAt grp).lane l).waitEnd == .overrun) = [] :=
  List.filter_eq_nil_iff.2 fun l hl => by rw [ho l hl]; decide

/-- The group that the lanes return in is the one in focus. -/
theorem State.Returned.grpAt {s t : State} {grp n : Nat} (h : (s.focusGrp grp).Returned t n) : t.grpAt grp = t.g := by
  rw [State.g, h.foc]
  rfl

section
variable {s : State} {grp : Nat} (hc : s.canResume grp = true) (ho : ∀ l ∈ (s.grpAt grp).waitSet, ((s.grpAt grp).lane l).waitEnd = .over)
include hc ho

/-- Of several issues that retire with the lanes, the first is counted alone. -/
theorem execLaneWaitResume_counts {r r' : W64} {rs : List W64} (he : (s.grpAt grp).owed (s.grpAt grp).waitSet = r :: r' :: rs) :
    execLaneWaitResume grp s = .next ((s.focusGrp grp).countWait r).bump := by
  have hv : (s.focusGrp grp).g = s.grpAt grp := rfl
  have hf : (s.grpAt grp).waitSet.filter (fun _ => true) = (s.grpAt grp).waitSet := List.filter_true _
  simp only [execLaneWaitResume, hc, hv, State.overrun_waitSet_nil ho, List.contains_nil, Bool.not_true, Bool.not_false, Bool.false_eq_true,
    if_false, hf, he]

/-- With at most one, the lanes return and run again. -/
theorem execLaneWaitResume_resumes (he : ((s.grpAt grp).owed (s.grpAt grp).waitSet).length ≤ 1) :
    execLaneWaitResume grp s = .next ((((s.grpAt grp).owed (s.grpAt grp).waitSet).foldl State.countWait
      ((s.grpAt grp).waitSet.foldl State.waitReturn (s.focusGrp grp))).modG fun g => g.runAgain (s.grpAt grp).waitSet) := by
  have hv : (s.focusGrp grp).g = s.grpAt grp := rfl
  have hf : (s.grpAt grp).waitSet.filter (fun _ => true) = (s.grpAt grp).waitSet := List.filter_true _
  simp only [execLaneWaitResume, hc, hv, State.overrun_waitSet_nil ho, List.contains_nil, Bool.not_true, Bool.not_false, Bool.false_eq_true,
    if_false, hf]
  match h : (s.grpAt grp).owed (s.grpAt grp).waitSet with
  | [] => rfl
  | [r] => rfl
  | r :: r' :: rs => rw [h] at he; exact absurd he (by simp)

/-- One count, and the lanes still wait. -/
theorem execLaneWaitResume_one_of_many {r r' : W64} {rs : List W64} (he : (s.grpAt grp).owed (s.grpAt grp).waitSet = r :: r' :: rs) :
    ∃ t, execLaneWaitResume grp s = .next t ∧ (t.grpAt grp).retired = (s.grpAt grp).retired + 1 ∧
      ∀ l, ((t.grpAt grp).lane l).st = ((s.grpAt grp).lane l).st ∧ ((t.grpAt grp).lane l).wait = ((s.grpAt grp).lane l).wait := by
  have h : (s.focusGrp grp).Returned ((s.focusGrp grp).countWait r).bump 1 :=
    State.Returned.trans (m := 0) (State.returned_countWait _ r) (.of_groups rfl rfl fun h => ⟨rfl, h⟩)
  refine ⟨_, execLaneWaitResume_counts hc ho he, ?_, fun l => ?_⟩
  · rw [h.grpAt, h.retired]; rfl
  · obtain ⟨_, _, hst, hw⟩ := h.lane l
    rw [h.grpAt]
    exact ⟨hst, hw⟩

/-- The lanes run again where they stand, and the issue that they owe has counted. -/
theorem execLaneWaitResume_all (he : ((s.grpAt grp).owed (s.grpAt grp).waitSet).length ≤ 1) :
    ∃ t, execLaneWaitResume grp s = .next t ∧
      (t.grpAt grp).retired = (s.grpAt grp).retired + BitVec.ofNat 64 ((s.grpAt grp).owed (s.grpAt grp).waitSet).length ∧
      ((s.focusGrp grp).c.dbgLogOn = false → t.mem = s.mem) ∧ (t.grpAt grp).handler = (s.grpAt grp).handler ∧
      ∀ l, ((t.grpAt grp).lane l).pc = ((s.grpAt grp).lane l).pc ∧ ((t.grpAt grp).lane l).v = ((s.grpAt grp).lane l).v ∧
        (l ∈ (s.grpAt grp).waitSet → ((t.grpAt grp).lane l).st = .running ∧ ((t.grpAt grp).lane l).wait = .none) ∧
        (l ∉ (s.grpAt grp).waitSet → ((t.grpAt grp).lane l).st = ((s.grpAt grp).lane l).st) := by
  have h := (State.Returned.foldl State.returned_waitReturn (s.focusGrp grp) (s.grpAt grp).waitSet).trans
    (State.Returned.foldl State.returned_countWait _ ((s.grpAt grp).owed (s.grpAt grp).waitSet))
  rw [Nat.zero_mul, Nat.one_mul, Nat.zero_add] at h
  refine ⟨_, execLaneWaitResume_resumes hc ho he, ?_⟩
  generalize ((s.grpAt grp).owed (s.grpAt grp).waitSet).foldl State.countWait ((s.grpAt grp).waitSet.foldl State.waitReturn (s.focusGrp grp)) = u at h
  have hg : (u.modG fun g => g.runAgain (s.grpAt grp).waitSet).grpAt grp = u.g.runAgain (s.grpAt grp).waitSet := by
    refine Eq.trans ?_ (State.g_modG u fun g => g.runAgain (s.grpAt grp).waitSet)
    rw [State.g, show (u.modG fun g => g.runAgain (s.grpAt grp).waitSet).foc = u.foc from rfl, h.foc]
    rfl
  rw [hg]
  refine ⟨(Grp.modLanes_retired _ _ _).trans h.retired, fun hl => (h.log hl).1, (Grp.modLanes_handler _ _ _).trans h.handler, fun l => ?_⟩
  obtain ⟨hpc, hv, hst, _⟩ := h.lane l
  rw [Grp.runAgain, Grp.lane_modLanes _ _ _ (Grp.nodup_waitSet _)]
  by_cases hl : l ∈ (s.grpAt grp).waitSet
  · rw [if_pos hl]
    exact ⟨hpc, hv, fun _ => ⟨rfl, rfl⟩, fun hn => absurd hl hn⟩
  · rw [if_neg hl]
    exact ⟨hpc, hv, fun hn => absurd hn hl, fun _ => hst⟩

end

/-! ### The other events -/

theorem execRotationRule_of_waited {s : State} {grp : Nat} {pc : W64} (hm : s.mayIssue grp = true) (hh : (s.grpAt grp).handler = none)
    (hw : ∃ l ∈ (s.grpAt grp).inState .running, 256 ≤ ((s.grpAt grp).lane l).rot) (hp : (s.grpAt grp).issuePc = some pc) :
    let g := s.grpAt grp
    let x := g.lane ((g.lanesAt pc).headD 0)
    execRotationRule grp s = .next (s.setGrpAt grp { g with iss := { pc, bb := x.bb, hdr := x.hdr, set := maskOf (g.lanesAt pc) } }) := by
  intro g x
  obtain ⟨l, hl, h256⟩ := hw
  have ht : (((s.grpAt grp).inState .running).filter fun l => 256 ≤ ((s.grpAt grp).lane l).rot).isEmpty = false :=
    List.isEmpty_eq_false_iff.2 (List.ne_nil_of_mem (List.mem_filter.2 ⟨hl, decide_eq_true h256⟩))
  simp only [execRotationRule, hm, hh, ht, hp, Option.isSome_none, Bool.not_true, Bool.or_false, Bool.false_eq_true, if_false, g, x]

theorem execStarvationGuard_of_mayIssue {s : State} {grp : Nat} (hm : s.mayIssue grp = true) (hh : (s.grpAt grp).handler = none) :
    ∃ t, execStarvationGuard grp s = .next t ∧ (t.grpAt grp).issueClass = 1 ∧ ∀ k, k ≠ grp → t.grpAt k = s.grpAt k := by
  refine ⟨_, if_pos hm, ?_, fun k hk => ?_⟩
  · rw [State.grpAt_setGrpAt_self]
    simp only [Grp.issueClass, hh, Option.isSome_none, Bool.false_eq_true, if_false, if_pos (Nat.le_max_left 256 (s.grpAt grp).readyFor)]
  · rw [State.grpAt_setGrpAt, if_neg (Ne.symm hk)]

/-- A handler without budget issues its next instruction as any handler does (R415). -/
theorem execHandlerOverrun_of_go {s u : State} {grp : Nat} {h : Handler} {i : Instr} (hh : (s.grpAt grp).handler = some h) (hb : h.budget = 0)
    (hm : s.mayIssue grp = true) (hp : (s.focusGrp grp).prepare = .go u i) : execHandlerOverrun grp s = handlerRun i u := by
  simp only [execHandlerOverrun, hh, hb, hm, hp, Option.any_some, beq_self_eq_true, Bool.and_self, if_true]

/-- Settles O50: each event by its own condition; a wait's end by what the returns of its lanes keep, and a handler's overrun because a
handler's issue and any other take a word alike. -/
theorem waking : Obligations.Waking := by
  intro grp s g
  refine ⟨fun i hi => if_pos hi, fun hs hd hw ho => ?_, fun h => if_pos h, fun pc hm hh hw hp => execRotationRule_of_waited hm hh hw hp,
    execStarvationGuard_of_mayIssue, fun h => if_pos h, fun h u i hh hb hm hi hp hu => ?_⟩
  · have hc := State.canResume_of_over hs hd hw ho
    exact ⟨fun r r' rs he => execLaneWaitResume_one_of_many hc ho he, execLaneWaitResume_all hc ho⟩
  · exact (execHandlerOverrun_of_go hh hb hm hp).trans (handlerRun_eq_exec hu hi)

end Sys2Proof.Machine
end

section
/-! PROOFS. Grids, teams and groups come and go (O51): the retirement of groups and teams. -/
set_option maxRecDepth 100000

namespace Sys2Proof.Machine
open Sys2Proof.Claims

theorem State.unmet_eq {s t : State} (h : t.met = s.met) : s.unmet t = t := if_pos h

/-! ### Groups (R197) -/

theorem State.foc_gangRetired (s : State) (idx : Nat) : (s.gangRetired idx).foc = s.foc :=
  List.foldlRecOn (motive := fun t : State => t.foc = s.foc) _ _ rfl fun _ h _ _ => h

theorem State.cmdsOut_of_owns {s : State} {grp : Nat}
    (h : ∀ k, (k ∈ (s.teamAt (s.grpAt grp).team).cmds.map (·.grp) ∨ k ∈ (s.teamAt (s.grpAt grp).team).pushes.map (·.grp) ∨
      k ∈ (s.teamAt (s.grpAt grp).team).colls.map (·.grp)) → (s.grpAt grp).owns (s.grpAt k) = false) : s.cmdsOut grp = false := by
  have hc := List.any_eq_false.2 fun (c : Cmd) hc => Bool.not_eq_true _ ▸ h c.grp (.inl (List.mem_map_of_mem hc))
  have hp := List.any_eq_false.2 fun (u : Push) hu => Bool.not_eq_true _ ▸ h u.grp (.inr (.inl (List.mem_map_of_mem hu)))
  have hl := List.any_eq_false.2 fun (c : Coll) hc => Bool.not_eq_true _ ▸ h c.grp (.inr (.inr (List.mem_map_of_mem hc)))
  simp only [State.cmdsOut, hc, hp, hl, Bool.or_self]

theorem State.canRetire_of_groupOver {s : State} {grp : Nat} (h : groupOver s grp) : s.canRetire grp = true := by
  obtain ⟨hph, ht, hh, hst, hsp, hm, hl, hf, hd, hc⟩ := h
  have hx : (s.grpAt grp).laneIdx.all (fun l => ((s.grpAt grp).lane l).st == .exited) = true :=
    List.all_eq_true.2 fun l hl' => beq_iff_eq.2 (hl l (List.mem_range.1 hl'))
  have hz : (s.grpAt grp).flagsClear = true := List.all_eq_true.2 fun n hn => beq_iff_eq.2 (hf n hn)
  simp only [State.canRetire, hph, ht, hh, hst, hsp, hm, hx, hz, hd, State.cmdsOut_of_owns hc, beq_self_eq_true, Option.isNone_none,
    List.isEmpty_nil, Bool.not_false, Bool.and_self]

theorem groupsRetire : groupsRetireHold := by
  intro grp s h g u v
  have hu : u = (s.focusGrp grp).setGrpAt grp { g with phase := .retired } := rfl
  refine ⟨?_, ?_, ?_, fun k hk => ?_⟩
  · show execGroupRetirement grp s = _
    have hg : u.g = { g with phase := .retired } := State.grpAt_setGrpAt_self _ _ _
    have hv : v = if u.g.parent.isNone then u.gangRetired u.g.idx else u := by
      rw [hg]
      show (if g.parent = none then _ else _) = if g.parent.isNone then _ else _
      simp only [Option.isNone_iff_eq_none]
    have hf : v.foc.team = g.team := by
      rw [show v = if g.parent = none then u.gangRetired g.idx else u from rfl, apply_ite State.foc, State.foc_gangRetired, ite_self]
      rfl
    rw [execGroupRetirement, State.canRetire_of_groupOver h, ← hf, hv]
    rfl
  · rw [hu, State.grpAt_setGrpAt_self]
  · rw [hu, State.grpAt_setGrpAt_self]
  · rw [hu, State.grpAt_setGrpAt, if_neg (Ne.symm hk)]
    rfl

end Sys2Proof.Machine
end

section
/-! PROOFS. The retirement of teams (R197, R401), for O51. -/
set_option maxRecDepth 100000

namespace Sys2Proof.Machine
open Sys2Proof.Claims

/-! ### What a retirement does but the drains -/

/-- A retiring team after its last flushes, its tapes discarded (R139, R178). -/
def State.teamFlushed (s : State) (team : Nat) : State :=
  let s := (s.runFlushes team).countSyncs team
  let s := s.flushCover team (s.teamAt team).flushed fun _ => true
  (s.teamAt team).groups.foldl (fun s k => s.dropTape k {}) s

/-- Such a team retired, its records given back and its room released (R32, R401). -/
def State.teamReleased (s : State) (team : Nat) : State :=
  let t := s.teamAt team
  let s := s.setGridAt t.grid ((s.gridAt t.grid).giveBack t.held)
  let s := s.unreserve (t.core / 96) t.reserved
  let s := s.setTeamAt team { t with phase := .retired, held := [], ports := [], preReq := false, reserved := 0 }
  s.releaseSet team

/-! ### Room released -/

/-- Teams whose room alone may have changed. -/
structure State.SameTeams (s t : State) : Prop where
  groups : t.groups = s.groups
  team : ∀ k, ∃ size, t.teamAt k = { s.teamAt k with size }

theorem State.SameTeams.refl (s : State) : s.SameTeams s := ⟨rfl, fun _ => ⟨_, rfl⟩⟩
theorem State.SameTeams.trans {s t u : State} (h : s.SameTeams t) (h' : t.SameTeams u) : s.SameTeams u where
  groups := h'.groups.trans h.groups
  team k := by
    obtain ⟨z, hz⟩ := h'.team k
    obtain ⟨y, hy⟩ := h.team k
    exact ⟨z, by rw [hz, hy]⟩

theorem State.sameTeams_leaveScr (s : State) (t : Team) (ctx : Nat) : s.SameTeams (s.leaveScr t ctx) := ⟨rfl, fun _ => ⟨_, rfl⟩⟩

theorem State.sameTeams_setSize (s : State) (k size : Nat) : s.SameTeams (s.setTeamAt k { s.teamAt k with size }) where
  groups := rfl
  team j := by
    rw [State.teamAt_setTeamAt]
    split
    · rename_i h
      exact ⟨size, by rw [h]⟩
    · exact ⟨_, rfl⟩

theorem State.sameTeams_releaseSet (s : State) (team : Nat) : s.SameTeams (s.releaseSet team) := by
  unfold State.releaseSet
  dsimp only
  split
  · refine List.foldlRecOn (motive := s.SameTeams) _ _ (.refl s) fun u h k _ => h.trans ?_
    split
    · exact .refl u
    · exact (State.sameTeams_leaveScr u _ _).trans (State.sameTeams_setSize (u.leaveScr (u.teamAt k) _) k 0)
  · exact .refl s

theorem State.teamReleased_team (s : State) (team : Nat) : ∃ size, (s.teamReleased team).teamAt team =
    { s.teamAt team with phase := .retired, held := [], ports := [], preReq := false, reserved := 0, size } := by
  let t := s.teamAt team
  let u := ((s.setGridAt t.grid ((s.gridAt t.grid).giveBack t.held)).unreserve (t.core / 96) t.reserved).setTeamAt team
    { t with phase := .retired, held := [], ports := [], preReq := false, reserved := 0 }
  obtain ⟨z, h⟩ := (State.sameTeams_releaseSet u team).team team
  rw [State.teamAt_setTeamAt_self] at h
  exact ⟨z, h⟩

theorem State.grpAt_teamReleased (s : State) (team k : Nat) : (s.teamReleased team).grpAt k = s.grpAt k := by
  unfold State.teamReleased
  dsimp only
  rw [State.grpAt, (State.sameTeams_releaseSet _ team).groups]
  rfl

/-! ### Tapes discarded -/

theorem State.grpAt_dropTape (s : State) (grp k : Nat) (left : Tape) : (s.dropTape grp left).grpAt k =
    if grp = k then { s.grpAt grp with tape := { left with closing := (s.grpAt grp).tape.closing } } else s.grpAt k := by
  rw [← State.grpAt_setGrpAt]
  unfold State.dropTape
  dsimp only
  split <;> rfl

theorem State.dropTapes_closed (s : State) {ks : List Nat} {k : Nat} (hk : k ∈ ks) :
    ((ks.foldl (fun s k => s.dropTape k {}) s).grpAt k).tape.st = .closed := by
  induction ks using List.reverseRecOn with
  | nil => cases hk
  | append_singleton ks j ih =>
    rw [List.foldl_append, List.foldl_cons, List.foldl_nil, State.grpAt_dropTape]
    split
    · rfl
    · rename_i hj
      exact ih ((List.mem_append.1 hk).resolve_right fun h => hj (List.mem_singleton.1 h).symm)

theorem State.teams_dropTapes (s : State) (ks : List Nat) : (ks.foldl (fun s k => s.dropTape k {}) s).teams = s.teams := by
  refine List.foldlRecOn (motive := fun t : State => t.teams = s.teams) _ _ rfl fun u h k _ => ?_
  rw [← h]
  unfold State.dropTape
  dsimp only
  split <;> rfl

theorem State.teamFlushed_closed (s : State) {team k : Nat} (hk : k ∈ ((s.teamFlushed team).teamAt team).groups) :
    ((s.teamFlushed team).grpAt k).tape.st = .closed := by
  unfold State.teamFlushed at hk ⊢
  dsimp only at hk ⊢
  rw [State.teamAt, State.teams_dropTapes] at hk
  exact State.dropTapes_closed _ hk

/-! ### TEAM_RETIREMENT -/

theorem State.teamReleased_gone (s : State) (team : Nat) : ((s.teamReleased team).teamAt team).phase = .retired ∧
    ((s.teamReleased team).teamAt team).held = [] ∧ ((s.teamReleased team).teamAt team).reserved = 0 := by
  obtain ⟨z, hz⟩ := s.teamReleased_team team
  rw [hz]
  exact ⟨rfl, rfl, rfl⟩

theorem State.grid_teamReleased (s : State) (team : Nat) : ((s.teamReleased team).teamAt team).grid = (s.teamAt team).grid := by
  obtain ⟨z, hz⟩ := s.teamReleased_team team
  rw [hz]

/-- A retirement drains the nodes of the team's grid last. -/
theorem State.retireTeam_eq (s : State) (team : Nat) {v : State} (hv : v = (s.teamFlushed team).teamReleased team) :
    s.retireTeam team = v.drainNodes (v.teamAt team).grid (v.gridAt (v.teamAt team).grid).nodes.length := by
  subst hv
  rw [State.grid_teamReleased]
  rfl

theorem State.groups_teamReleased (s : State) (team : Nat) : ((s.teamReleased team).teamAt team).groups = (s.teamAt team).groups := by
  obtain ⟨z, hz⟩ := s.teamReleased_team team
  rw [hz]

theorem State.teamReleased_closed (s : State) {team k : Nat} (hk : k ∈ (((s.teamFlushed team).teamReleased team).teamAt team).groups) :
    (((s.teamFlushed team).teamReleased team).grpAt k).tape.st = .closed := by
  rw [State.groups_teamReleased] at hk
  rw [State.grpAt_teamReleased]
  exact s.teamFlushed_closed hk

theorem State.canRetireTeam_of {s : State} {team : Nat} (hp : (s.teamAt team).phase = .resident)
    (hg : (s.gridAt (s.teamAt team).grid).phase = .running) (hl : (s.teamAt team).landed = [])
    (hr : ∀ e ∈ s.groups, e.2.team = team → e.2.phase = .retired) : s.canRetireTeam team = true := by
  have ha : s.groups.all (fun e => e.2.team != team || e.2.phase == .retired) = true := List.all_eq_true.2 fun e he => by
    by_cases ht : e.2.team = team
    · rw [hr e he ht]; exact Bool.or_true _
    · rw [bne_iff_ne.2 ht]; exact Bool.true_or _
  simp only [State.canRetireTeam, hp, hg, hl, ha, beq_self_eq_true, List.isEmpty_nil, Bool.and_self]

theorem teamsRetire : teamsRetireHold := by
  intro team s t u hp hg hl hr hready hm
  have hu : (if (s.teamAt team).held.isEmpty then s else s.flushCore (s.teamAt team).core) = u := by
    simp only [List.isEmpty_iff]
    rfl
  have hrd : u.retireReady team = true := by
    rw [State.retireReady, Bool.or_eq_true, List.isEmpty_iff]
    exact hready
  refine ⟨?_, (u.teamFlushed team).teamReleased team, ?_⟩
  · show execTeamRetirement team s = _
    simp only [execTeamRetirement, State.canRetireTeam_of hp hg hl hr, Bool.not_true, Bool.false_eq_true, if_false, hu, if_pos hrd, State.unmet_eq hm]
  · obtain ⟨hph, hheld, hres⟩ := State.teamReleased_gone (u.teamFlushed team) team
    exact ⟨State.retireTeam_eq u team rfl, hph, hheld, hres, fun k hk => u.teamReleased_closed hk⟩

end Sys2Proof.Machine
end

section
/-! PROOFS. Queues and their records, the start and the end of a grid (R396, R397, R424), for O51. -/
set_option maxRecDepth 100000

namespace Sys2Proof.Machine
open Sys2Proof.Claims

/-! ### Queues (R394, R397) -/

theorem State.hostWaits_eq_false {s : State} (h : ∀ w ∈ s.pkg.waiting, ∃ a o, w = .peer a o) : s.hostWaits = false :=
  List.any_eq_false.2 fun w hw => by
    obtain ⟨a, o, rfl⟩ := h w hw
    exact Bool.false_ne_true

theorem tailsSet : tailsSetHold := by
  intro queue tail s hr hq hw
  show execLqtailWrite queue tail s = _
  rw [execLqtailWrite, State.hostWaits_eq_false hw, if_neg Bool.false_ne_true, State.setTail, if_neg (Nat.not_le.2 hq)]
  exact State.regEvent_eq hr rfl

theorem Ctx.holds_eq_false {c : Ctx} {u : UnitId} (h : ∀ x ∈ c.unitRecs, x.1 ≠ u) : c.holds u = false :=
  List.any_eq_false.2 fun x hx => Bool.not_eq_true _ ▸ beq_eq_false_iff_ne.2 (h x hx)

theorem State.homeBytes_bad_eq_false {s : State} {pa n cp : Nat} (h : ∀ i, i < n → (s.homeBytes pa n cp).2.poi.getD i false = false) :
    (s.homeBytes pa n cp).2.bad = false := by
  refine List.any_eq_false.2 fun x hx => ?_
  obtain ⟨i, hi, rfl⟩ := List.mem_iff_getElem.1 hx
  have hn : i < n := by
    have := hi
    rwa [show (s.homeBytes pa n cp).2.poi.length = n from tab_length _ _] at this
  rw [← List.getD_eq_getElem _ false hi, h i hn]
  exact Bool.false_ne_true

theorem State.doneFault_eq_none {s : State} {ctx : Nat} {r : LaunchRec} {t : Trans} (ha : r.done.toNat % 8 = 0)
    (ht : s.translateUnit ctx .engWrite r.done = .ok t) : s.doneFault ctx r = none := by
  simp only [State.doneFault, ha, ht, ne_eq, not_true_eq_false, if_false]

theorem recordsTaken : recordsTakenHold := by
  intro queue s v ns ps
  dsimp only
  generalize hq : s.pkg.queues.get {} queue = q
  intro hen hh hc hu hp
  have hbad := State.homeBytes_bad_eq_false hp
  generalize hb : s.homeBytes (q.slot q.head) 128 noCp = b at hbad ⊢
  generalize hr : parseLaunch b.2.data = r
  rintro hd ⟨tr, htr⟩ hok hgr hw
  have hcan : s.canTake queue = true := by
    simp only [State.canTake, hq, hen, bne_iff_ne.2 hh, Ctx.holds_eq_false hu, hc, Bool.not_false, Bool.and_self, beq_self_eq_true]
  show execLaunchRecordTake queue s = _
  simp only [execLaunchRecordTake, hcan, hq, hb, hr, State.doneFault_eq_none hd htr, hbad, hok, hgr, Bool.not_true, Bool.false_eq_true, if_false,
    Bool.or_self]
  exact congrArg Host.Outcome.next (State.unmet_eq hw)

/-! ### The start of a grid (R228, R388, R396) -/

theorem State.stepsDue_eq_false {s : State} {grid : Nat}
    (h : (s.gridAt grid).det = true → (s.ctxAt (s.gridAt grid).ctx).rcBusy = false ∧ (s.ctxAt (s.gridAt grid).ctx).rcPending = none ∧
      ((s.ctxAt (s.gridAt grid).ctx).rcFreeze = true ∨ (s.ctxAt (s.gridAt grid).ctx).rcQueue.length < 4096) ∧
      ∀ e ∈ s.grids, e.2.ctx = (s.gridAt grid).ctx → e.2.order < (s.gridAt grid).order → e.2.phase ≠ .running) : s.stepsDue grid = false := by
  cases hd : (s.gridAt grid).det with
  | false => simp only [State.stepsDue, hd, Bool.false_and]
  | true =>
    obtain ⟨hb, hp, hq, he⟩ := h hd
    have hearly : s.earlierRuns grid = false := List.any_eq_false.2 fun e h => by
      simp only [Bool.and_eq_true, beq_iff_eq, decide_eq_true_eq, not_and, and_imp]
      exact he e h
    have hroom : (!(s.ctxAt (s.gridAt grid).ctx).rcFreeze && 4096 ≤ (s.ctxAt (s.gridAt grid).ctx).rcQueue.length) = false := by
      rcases hq with hf | hl
      · rw [hf]; rfl
      · rw [decide_eq_false (Nat.not_le.2 hl), Bool.and_false]
    simp only [State.stepsDue, hb, hp, hearly, hroom, Option.isSome_none, Bool.or_self, Bool.and_false]

theorem State.depWord_of_depSet {s u : State} {grid : Nat} {va : W64} (bad : Bool) (h : depSet s u (s.gridAt grid).ctx va) :
    s.depWord grid va bad = (u, true, bad) := by
  rcases h with ⟨rfl, rfl⟩ | ⟨hv, v, w, hw, h63, rfl⟩
  · rfl
  · simp only [State.depWord, beq_eq_false_iff_ne.2 hv, Bool.false_eq_true, if_false, hw, h63]
    rfl

theorem State.headerFits_of_startsAt {s u : State} {ctx : Nat} {va : W64} {k : HKind} (h : startsAt s u ctx va k) :
    s.headerFits ctx va k = (u, some true) := by
  rcases h with ⟨w, h, hw, hd, hk⟩ | ⟨f, hf⟩
  · simp only [State.headerFits, hw, hd, hk, beq_self_eq_true]
  · simp only [State.headerFits, hf]

theorem gridsStart : gridsStartHold := by
  intro grid s u v w x
  dsimp only
  generalize hg : s.gridAt grid = gr
  intro hp hroot hc hu hdet h0 hug h1 he ht hm
  have hcan : s.canStart grid = true := by
    have hsteps := s.stepsDue_eq_false (grid := grid) (by rw [hg]; exact hdet)
    simp only [State.canStart, hg, hp, hroot, hc, Ctx.holds_eq_false hu, hsteps, beq_self_eq_true, Bool.not_false, Bool.and_self]
  have hd0 : s.depWord grid gr.lrec.dep0 gr.dep0Bad = (u, true, gr.dep0Bad) := State.depWord_of_depSet _ (by rw [hg]; exact h0)
  have hd1 : u.depWord grid gr.lrec.dep1 gr.dep1Bad = (v, true, gr.dep1Bad) := State.depWord_of_depSet _ (by rw [hug]; exact h1)
  have htr : (if gr.lrec.trapv == 0 then (w, some true) else w.headerFits gr.ctx gr.lrec.trapv .trap) = (x, some true) := by
    rcases ht with ⟨hz, rfl⟩ | ⟨hz, hs⟩
    · rw [if_pos (beq_iff_eq.2 hz)]
    · rw [if_neg (mt beq_iff_eq.1 hz), State.headerFits_of_startsAt hs]
  show execGridStart grid s = _
  simp only [execGridStart, hcan, hg, hd0, hd1, State.headerFits_of_startsAt he, htr, Bool.not_true, Bool.false_eq_true, if_false, Bool.or_self]
  exact congrArg Host.Outcome.next (State.unmet_eq hm)

/-! ### The end of a grid (R104, R396, R423) -/

theorem State.gridDone_of {s : State} {grid : Nat} (h : gridOver s grid) : ((s.gridAt grid).phase == .ended || s.gridDone grid) = true := by
  rcases h with h | ⟨hp, hc, hf, hs, hn, ht, hy⟩
  · rw [h]; rfl
  · have hr : (s.teamsOf grid).all (fun t => t.2.phase == .retired) = true := List.all_eq_true.2 fun e he => by
      rw [(ht e he).1]; rfl
    have hq : (s.teamsOf grid).all (fun t => t.2.flushBars.isEmpty && t.2.cmds.isEmpty && t.2.colls.isEmpty && t.2.pushes.isEmpty) = true :=
      List.all_eq_true.2 fun e he => by
        obtain ⟨_, h1, h2, h3, h4⟩ := ht e he
        rw [h1, h2, h3, h4]; rfl
    have hd : (s.gridAt grid).nodes.all (fun n => n.drained && n.gathered.isEmpty) = true := List.all_eq_true.2 fun n hn' => by
      obtain ⟨h1, h2⟩ := hn n hn'
      rw [h1, h2]; rfl
    simp only [State.gridDone, hp, hc, hf, hs, hr, hq, hd, hy, beq_self_eq_true, List.isEmpty_nil, Bool.and_self, Bool.or_true]

/-- The end of a kill changes a context alone (R431). -/
theorem State.endKill_eq (s : State) (ctx : Nat) : ∃ m, s.endKill ctx = { s with ctxs := m } := by
  unfold State.endKill
  dsimp only
  split
  · exact ⟨_, rfl⟩
  · exact ⟨s.ctxs, rfl⟩

/-- The last step of a completion, once its word is written. -/
theorem State.completed {s w : State} (grid ctx : Nat) (hw : w.met = s.met) :
    ∃ t, Host.Outcome.next (s.unmet ((w.setGridAt grid { w.gridAt grid with phase := .done }).endKill ctx)) = (.next t : Out) ∧
      (t.gridAt grid).phase = .done ∧ t.mem = w.mem := by
  obtain ⟨m, hk⟩ := (w.setGridAt grid { w.gridAt grid with phase := .done }).endKill_eq ctx
  rw [hk, State.unmet_eq (by exact hw)]
  exact ⟨_, rfl, congrArg Grid.phase (State.gridAt_setGridAt_self w grid _), rfl⟩

theorem gridsComplete : gridsCompleteHold := by
  intro grid s h
  have hd := State.gridDone_of h
  dsimp only
  generalize hu : s.cores.keys.foldl (fun s k => s.flushCore k) s = u
  intro hm
  have hm' : ¬ u.met ≠ s.met := not_not.2 hm
  refine ⟨fun hb => ?_, fun hb => ?_⟩
  · show execGridCompletion grid s = _
    simp only [execGridCompletion, hd, hu, hb, if_true, if_neg hm']
  · intro hw
    show ∃ t, execGridCompletion grid s = .next t ∧ _
    simp only [execGridCompletion, hd, hu, hb, if_true, if_neg hm', Bool.false_eq_true, if_false]
    exact State.completed grid _ hw

/-! ### Requests (R424) -/

theorem withdrawals : withdrawalsHold := fun team s hp hc => if_pos (by rw [hp, hc]; rfl)

end Sys2Proof.Machine
end

section
/-! PROOFS. Placement (R32, R183, R399), and O51 from its parts. -/
set_option maxRecDepth 100000

namespace Sys2Proof.Machine
open Sys2Proof.Claims

/-! ### A team placed on its core -/

theorem State.coreFits_of_takes {s : State} {core base : Nat} {r : LaunchRec} (h : coreTakes s core base r) : s.coreFits core r false = true := by
  obtain ⟨hc, hr, hq, hp, he⟩ := h
  have hport : (!r.flag 1 || s.portsFree core) = true := by
    cases hf : r.flag 1 with
    | false => rfl
    | true => rw [hp hf]; rfl
  simp only [State.coreFits, hc, hr, hq, he, hport, decide_true, Option.isSome_some, Bool.and_self, Bool.or_true]

theorem State.dropValid_keeps (s : State) (core : Nat) (p : Nat → Bool) :
    (s.dropValid core p).mem = s.mem ∧ (s.dropValid core p).teams = s.teams ∧ (s.dropValid core p).grids = s.grids := by
  unfold State.dropValid State.dropFills
  dsimp only
  split <;> exact ⟨rfl, rfl, rfl⟩

/-- A new team on its core: its room there, its energy and its place in the order of placement. -/
def Team.seated (t : Team) (core base size energy order : Nat) : Team :=
  { t with core, base, size, reserved := energy, order, phase := .resident, preReq := false, letGo := false }

theorem State.seat_of_takes {s : State} {k core base : Nat} (hp : (s.teamAt k).phase = .pending)
    (h : coreTakes s core base (s.gridAt (s.teamAt k).grid).lrec) :
    ∃ u energy order, s.seat k core = some u ∧ u.mem = s.mem ∧ u.grids = s.grids ∧
      u.teamAt k = (s.teamAt k).seated core base (s.gridAt (s.teamAt k).grid).lrec.allocSize energy order := by
  have hf := State.coreFits_of_takes h
  have hr : ((s.teamAt k).phase == .retired) = false := by rw [hp]; rfl
  obtain ⟨-, hroom, -⟩ := h
  unfold State.seat
  dsimp only
  simp only [hr, hf, hroom, Bool.not_true, Bool.false_eq_true, if_false, Option.getD_some]
  exact ⟨_, _, _, rfl, rfl, rfl, State.teamAt_setTeamAt_self _ _ _⟩

/-- The groups of a team placed, one new handle each. -/
theorem State.foldl_freshGrps (s : State) (mk : State → Nat → Grp) (n : Nat) :
    let x := (List.range n).foldl (fun (x : State × List Nat) i => (x.1.freshId.1.setGrpAt x.1.freshId.2 (mk x.1.freshId.1 i), x.2 ++ [x.1.freshId.2])) (s, [])
    x.1.mem = s.mem ∧ x.1.teams = s.teams ∧ x.2.length = n := by
  induction n with
  | zero => exact ⟨rfl, rfl, rfl⟩
  | succ n ih =>
    obtain ⟨hm, ht, hl⟩ := ih
    simp only [List.range_succ, List.foldl_append, List.foldl_cons, List.foldl_nil, List.length_append, List.length_singleton]
    exact ⟨hm, ht, congrArg (· + 1) hl⟩

theorem State.placeTeam_of_takes {s : State} {k core base : Nat} (keep : Bool) (hp : (s.teamAt k).phase = .pending)
    (h : coreTakes s core base (s.gridAt (s.teamAt k).grid).lrec) :
    ∃ t, s.placeTeam k core keep = some t ∧ (t.teamAt k).phase = .resident ∧ (t.teamAt k).core = core ∧ (t.teamAt k).base = base ∧
      (t.teamAt k).size = (s.gridAt (s.teamAt k).grid).lrec.allocSize ∧
      (t.teamAt k).groups.length = (s.gridAt (s.teamAt k).grid).lrec.ngroups ∧ t.mem = s.mem := by
  obtain ⟨u, energy, order, hs, hm, hg, ht⟩ := State.seat_of_takes hp h
  obtain ⟨hdm, hdt, hdg⟩ := State.dropValid_keeps u core fun _ => true
  unfold State.placeTeam
  rw [hs]
  dsimp only
  generalize u.dropValid core (fun _ => true) = d at hdm hdt hdg ⊢
  generalize hx : (s.teamAt k).seated core base (s.gridAt (s.teamAt k).grid).lrec.allocSize energy order = x at ht
  have hteam (v : State) (hv : v.teams = u.teams) : v.teamAt k = x := by rw [← ht, State.teamAt, hv]; rfl
  have hgr : d.gridAt x.grid = s.gridAt (s.teamAt k).grid := by
    rw [State.gridAt, hdg, hg, ← hx]
    rfl
  rw [hteam d hdt, hgr]
  obtain ⟨hfm, hft, hfl⟩ := State.foldl_freshGrps d
    (fun v i => freshGrp (s.gridAt (s.teamAt k).grid) x k i (v.startBound (s.gridAt (s.teamAt k).grid) x)) (s.gridAt (s.teamAt k).grid).lrec.ngroups
  refine ⟨_, rfl, ?_⟩
  rw [State.teamAt_setTeamAt_self, hteam _ (hft.trans hdt)]
  subst hx
  exact ⟨rfl, rfl, rfl, rfl, hfl, hfm.trans (hdm.trans hm)⟩

theorem State.mem_nextTeams (s : State) (grid : Nat) : (s.nextTeams grid).1.mem = s.mem := by
  unfold State.nextTeams
  dsimp only
  split
  · rfl
  · exact List.foldlRecOn (motive := fun x : State × List Nat => x.1.mem = s.mem) _ _ rfl fun _ h _ _ => h

/-! ### TEAM_PLACEMENT -/

theorem execTeamPlacement_of_placed {s t : State} {grid : Nat} {cores : List Nat} {keep : Bool} (hn : s.nextSaved grid = none)
    (hw : s.wantsPlace grid = true) (ho : ∀ k ∈ s.grids.keys, k ≠ grid → s.gridBefore k grid = true → s.roomNow k = none)
    (hc : ∀ c ∈ cores, c / 96 = cores.headD 0 / 96) (hne : (s.nextTeams grid).2 ≠ [])
    (ht : (s.nextTeams grid).1.placeAll keep (s.nextTeams grid).2 (cores.take (s.nextTeams grid).2.length) = some t) :
    execTeamPlacement grid cores keep s = .next t := by
  have hr : s.outranked grid = false := List.any_eq_false.2 fun k hk => by
    simp only [Bool.and_eq_true, bne_iff_ne, ne_eq, not_and, and_imp]
    intro h1 h2
    rw [ho k hk h1 h2]
    exact Bool.false_ne_true
  have hl : oneCluster cores = true := List.all_eq_true.2 fun c h => beq_iff_eq.2 (hc c h)
  have hp : s.tryPlace grid cores keep = some t := by
    simp only [State.tryPlace, List.isEmpty_eq_false_iff.2 hne, hl, Bool.not_true, Bool.or_self, Bool.false_eq_true, if_false, ht]
  simp only [execTeamPlacement, hn, hw, hr, hp, Option.isSome_none, Bool.not_true, Bool.and_false, Bool.or_self, Bool.false_eq_true, if_false]

theorem teamsPlaced : teamsPlacedHold := by
  intro grid cores keep s r hn hw ho hc
  refine ⟨fun t hne ht => execTeamPlacement_of_placed hn hw ho hc hne ht, ?_⟩
  intro k core rest base hr hcs hp l htk
  obtain ⟨t, ht, hphase, hcore, hbase, hsize, hlen, hmem⟩ := State.placeTeam_of_takes keep hp htk
  have hall : r.1.placeAll keep r.2 (cores.take r.2.length) = some t := by
    rw [hr, hcs]
    show (match r.1.placeTeam k core keep with | some s => s.placeAll keep [] [] | none => none) = some t
    rw [ht]
    rfl
  have hne : r.2 ≠ [] := by rw [hr]; exact List.cons_ne_nil _ _
  exact ⟨t, execTeamPlacement_of_placed hn hw ho hc hne hall, hphase, hcore, hbase, hsize, hlen, hmem.trans (s.mem_nextTeams grid)⟩

/-! ### The obligation -/

/-- Settles O51: each event's enabling condition follows from what its rule asks, and its effect is then the rule's. -/
theorem residency : Obligations.Residency :=
  ⟨groupsRetire, teamsRetire, tailsSet, recordsTaken, gridsStart, teamsPlaced, withdrawals, gridsComplete⟩

end Sys2Proof.Machine
end

section
/-! PROOFS. A host read of no bytes (R103, R447), and what it means for O54. -/
set_option maxRecDepth 100000

namespace Sys2Proof.Machine
open Sys2Proof.Claims

/-- An access of the host that no other waits before and no lock keeps out performs in its turn (R103). -/
theorem State.hostTurn_performs {s : State} {a : HostAccess} (hw : s.hostWaits = false) (hm : (s.hostPerform a).met = s.met) :
    s.hostTurn a = .next (s.hostPerform a) := by
  rw [State.hostTurn, hw, if_neg Bool.false_ne_true, State.hostTry, if_pos hm]
  rfl

/-- A read of window B that asks for no bytes finds none, and so none that is poisoned, wherever in a word it stands. -/
theorem execHostRead_nothing {s : State} {off : Nat} (hin : s.pkg.inWindow off 0 = true) (hp : noPartials s) (hw : s.hostWaits = false)
    (hb : s.blocked (s.pkg.windowPa off) 0 false = false) : ∃ t, execHostRead .b off 0 s = .next t ∧ t.hostOut = ([], false) := by
  obtain ⟨t, ⟨llc, pinned, fall, rfl⟩, hh⟩ := State.homeBytes_clear hp hb noCp
  have ht : s.hostPerform (.read .b off 0) =
      { s.modPkg fun p => { p with llc, pinned, pinFall := fall } with hostOut := ([], false) } := by
    simp only [State.hostPerform, State.windowRead, hin, Bool.not_true, Bool.false_eq_true, if_false, hh]
    rfl
  have hm : (s.hostPerform (.read .b off 0)).met = s.met := by rw [ht]; rfl
  exact ⟨_, State.hostTurn_performs hw hm, by rw [ht]⟩

/-- A package whose host may read window B, with the first word of its memory poisoned. -/
def poisonedWord : State := { State.reset with memPoi := [0], pkg := { State.reset.pkg with bootState := 2 } }

/-- Byte 4 stands in the middle of the poisoned word, which counts for the model's check of a range even where the range is empty. -/
theorem poisonedWord_hbmPoi : poisonedWord.hbmPoi (poisonedWord.pkg.windowBase + 4) 0 = true := by decide

/-- Refutes O54: a host read of 0 bytes at offset 4 of a poisoned word returns no bytes and no error, where the statement asks for the error
of a poisoned word: its test of a range takes an empty range inside a word to touch that word. -/
theorem not_packageEvents : ¬ Obligations.PackageEvents := by
  intro ⟨h, _, _⟩
  obtain ⟨_, _, _, _, _, _, _, hread, _⟩ := h poisonedWord
  have hin : poisonedWord.pkg.inWindow 4 0 = true := by decide
  have hp : noPartials poisonedWord := fun _ hc => absurd hc List.not_mem_nil
  have hw : poisonedWord.hostWaits = false := rfl
  have hb : poisonedWord.blocked (poisonedWord.pkg.windowPa 4) 0 false = false := by decide
  obtain ⟨t, ht, _, hout⟩ := hread 4 0 hin hp hw hb
  obtain ⟨u, hu, hnone⟩ := execHostRead_nothing hin hp hw hb
  have htu : t = u := Host.Outcome.next.inj (ht.symm.trans hu)
  rw [poisonedWord_hbmPoi, if_pos rfl, htu, hnone] at hout
  exact Bool.false_ne_true (congrArg Prod.snd hout)

end Sys2Proof.Machine
end

section
/-! PROOFS. Barrier words (O39). -/

namespace Sys2Proof.Machine

open Sys2Proof.Claims

/-! ### What an issue and a release leave of the issue -/

theorem Grp.advance_retired (g : Grp) : g.advance.retired = g.retired := Grp.modLanes_retired _ _ _
theorem Grp.advance_wb (g : Grp) : g.advance.wb = g.wb := Grp.modLanes_wb _ _ _

theorem State.atIssue_det (s : State) (m : Mask) : (s.atIssue m).gr.det = s.gr.det :=
  congrArg (·.flag 0) ((s.setG s.g.advance).ptIssued_gr m)

/-- The focus, the grids, and the issue and retired count of each group are as they were. -/
structure State.SameCounts (s t : State) : Prop where
  foc : t.foc = s.foc
  grids : t.grids = s.grids
  grp : ∀ k, (t.grpAt k).iss = (s.grpAt k).iss ∧ (t.grpAt k).retired = (s.grpAt k).retired

theorem State.SameCounts.refl (s : State) : s.SameCounts s := ⟨rfl, rfl, fun _ => ⟨rfl, rfl⟩⟩
theorem State.SameCounts.trans {s t u : State} (h : s.SameCounts t) (h' : t.SameCounts u) : s.SameCounts u :=
  ⟨h'.foc.trans h.foc, h'.grids.trans h.grids, fun k => ⟨(h'.grp k).1.trans (h.grp k).1, (h'.grp k).2.trans (h.grp k).2⟩⟩
theorem State.SameGrids.sameCounts {s t : State} (h : s.SameGrids t) : s.SameCounts t :=
  ⟨h.foc, h.grids, fun k => by rw [State.grpAt, State.grpAt, h.groups]; exact ⟨rfl, rfl⟩⟩

theorem State.SameCounts.foldl {α : Type} {f : State → α → State} (hf : ∀ (s : State) (a : α), s.SameCounts (f s a)) (s : State) (l : List α) :
    s.SameCounts (l.foldl f s) :=
  List.foldlRecOn (motive := s.SameCounts) _ _ (.refl s) fun t h a _ => h.trans (hf t a)

theorem State.SameCounts.iss {s t : State} (h : s.SameCounts t) : t.g.iss = s.g.iss := by
  rw [State.g, h.foc]
  exact (h.grp _).1
theorem State.SameCounts.retired {s t : State} (h : s.SameCounts t) : t.g.retired = s.g.retired := by
  rw [State.g, h.foc]
  exact (h.grp _).2
theorem State.SameCounts.gr {s t : State} (h : s.SameCounts t) : t.gr = s.gr := by
  rw [State.gr, h.foc, State.gridAt, h.grids]
  rfl

theorem State.sameCounts_flagLanded (s : State) (grp : Nat) (tag : Nat × Nat) : s.SameCounts (s.flagLanded grp tag) := by
  unfold State.flagLanded
  split
  · exact .refl s
  · refine ⟨rfl, rfl, fun k => ?_⟩
    rw [State.grpAt_setGrpAt]
    split
    · rename_i e
      exact e ▸ ⟨rfl, rfl⟩
    · exact ⟨rfl, rfl⟩

theorem State.sameGrids_dropFills (s : State) (core : Nat) (p : Nat → Bool) : s.SameGrids (s.dropFills core p) := by
  unfold State.dropFills
  split
  · exact ⟨rfl, rfl, rfl, rfl⟩
  · exact .refl s

theorem State.sameGrids_send (s : State) (q : PeerReq) : s.SameGrids (s.send q).1 := ⟨rfl, rfl, rfl, rfl⟩
theorem State.sameGrids_setCoreAt (s : State) (k : Nat) (c : CoreSt) : s.SameGrids (s.setCoreAt k c) := ⟨rfl, rfl, rfl, rfl⟩

theorem State.sameCounts_performStore (s : State) (core : Option Nat) (e : WbEntry) : s.SameCounts (s.performStore core e) := by
  have hw := (s.sameGrids_homeWrite e.pa e.cp e.data e.poi).sameCounts
  unfold State.performStore
  dsimp only
  split
  · split
    · exact hw.trans (State.sameCounts_flagLanded _ _ _)
    · exact hw
  · split
    · exact ((s.sameGrids_dropFills _ _).trans (State.sameGrids_send _ _)).sameCounts
    · exact (s.sameGrids_send _).sameCounts

theorem State.sameCounts_drainOne (s : State) (core : Nat) : s.SameCounts (s.drainOne core) := by
  cases hw : (s.coreAt core).wbuf with
  | nil => rw [State.drainOne, hw]; exact .refl s
  | cons e rest =>
    cases hb : s.blocked e.pa e.data.length true with
    | true => rw [State.drainOne_of_blocked hw hb]; exact .refl s
    | false =>
      rw [State.drainOne_of_not_blocked hw hb]
      exact (s.sameGrids_setCoreAt _ _).sameCounts.trans (State.sameCounts_performStore _ _ _)

/-- A release performs what its core has buffered, and the issue goes on as it was (R86). -/
theorem State.sameCounts_release (s : State) (scope : Scope) : s.SameCounts (s.release scope) := by
  unfold State.release
  split
  · exact (State.SameCounts.foldl (fun t _ => t.sameCounts_drainOne _) _ _).trans
      (State.SameGrids.foldl (fun t _ => t.sameGrids_sendU _ _) _ _).sameCounts
  · exact .refl s

/-! ### Objects (R109, R111, R113) -/

/-- The test of an object that is complete, that has overrun its bytes, and that still waits (R111). -/
theorem barrierTestHold_holds : barrierTestHold := by
  intro o
  refine ⟨fun ha hb => ?_, fun ha hb => ?_, fun h => ?_⟩
  · simp [BarObj.test, ha, hb]
  · simp [BarObj.test, ha, hb, hb.ne']
  · have hc : ¬(o.arrl = o.expl ∧ o.landb = o.expb) := by omega
    have ho : ¬(o.arrl = o.expl ∧ o.expb < o.landb) := by omega
    simp [BarObj.test, hc, ho]

/-- An object that has not overrun ends a wait only by its phase (R113, R114). -/
theorem BarObj.ends_of_not_ov {o : BarObj} (h : o.ov = false) (p : W32) : o.ends p = if o.phase = p.toNat then none else some false := by
  simp [BarObj.ends, h, ite_not]

theorem State.barPut_met (s : State) (b : BarName) (o : BarObj) : (s.barPut b o).met = s.met := rfl

theorem State.barUpdate_met (s : State) (b : BarName) (o : BarObj) : (s.barUpdate b o).met = s.met := by
  unfold State.barUpdate
  dsimp only
  split
  · rfl
  · split <;> rfl

/-! ### The checks of a barrier word (R326, R422) -/

/-- Operands that name an object pass the checks of a word. -/
theorem State.withBar_of_names {s : State} {f : MF} {os : List Opnd} {b : BarName} (hn : names s f os b) (act : Mask) {ov : Bool}
    (ho : ov = true → (s.barGet b).ov = false) (k : State → BarName → Did) : s.withBar f act os ov k = k s b := by
  obtain ⟨hc, hb⟩ := hn
  have hp : s.barPoison os = none := find_poison_of_clean hc
  have ha : s.barName (MF.kspace f) (s.barAddr f) = some b := hb
  have hv : ¬(ov && (s.barGet b).ov) = true := by
    cases ov with
    | false => exact Bool.false_ne_true
    | true => rw [ho rfl]; exact Bool.false_ne_true
  unfold State.withBar
  rw [hp, ha]
  exact if_neg hv

theorem State.pending_of_noReports {s : State} (h : noReports s) (f : MF) (act : Mask) : s.pending f act = none := by
  obtain ⟨hg, ho⟩ := h
  simp only [State.pending, hg, ho, List.find?_nil]

theorem noReports_eff {s : State} (h : noReports s) (p : Pred) : noReports (eff s p) := by
  obtain ⟨x, e⟩ := s.g.modLanes_eq (s.g.lanesOf s.g.iss.set) fun _ x => { x with pc := s.g.iss.pc + 8 }
  unfold noReports
  rw [State.atIssue_g, Grp.advance, e]
  exact h

/-! ### BINIT, BEXPECT and BWAIT (R110 to R114) -/

theorem binit_sets {s : State} {p : Pred} {f : MF} {b : BarName} (hr : s.Runs p fun _ => true) (hn : names (eff s p) f [f.a, f.b, f.d] b)
    (h1 : 1 ≤ (s.rd 0 .b64 f.d).n) (h2 : (s.rd 0 .b64 f.d).n ≤ 65535) :
    exec (.binit p f) s = retired ((eff s p).barPut b { expl := (s.rd 0 .b64 f.d).n }) := by
  show execBinit p f s = _
  refine State.perform_done s false p _ _ hr _ ?_ (State.atIssue_met s _)
  have hin : ¬(decide ((s.rd 0 .b64 f.d).n < 1) || decide (65535 < (s.rd 0 .b64 f.d).n)) = true := by
    simp only [Bool.or_eq_true, decide_eq_true_eq]
    omega
  rw [State.withBar_of_names hn _ fun h => absurd h Bool.false_ne_true, State.rd_atIssue]
  exact if_neg hin

theorem bexpect_adds {s : State} {p : Pred} {f : MF} {b : BarName} (hr : s.Runs p fun _ => true)
    (hn : names (eff s p) f [f.a, f.b, f.d] b) (hov : ((eff s p).barGet b).ov = false)
    (hfit : ((eff s p).barGet b).expb + (s.rd 0 .n32 f.d).n < 2 ^ 32) :
    exec (.bexpect p f) s = retired ((eff s p).barUpdate b (((eff s p).barGet b).expect (s.rd 0 .n32 f.d).n)) := by
  show execBexpect p f s = _
  refine State.perform_done s false p _ _ hr _ ?_ ((State.barUpdate_met _ _ _).trans (State.atIssue_met s _))
  rw [State.withBar_of_names hn _ fun _ => hov, State.rd_atIssue]
  exact if_neg (by omega)

theorem bwait_waits {s : State} {p : Pred} {f : MF} {b : BarName} (hr : s.Runs p fun _ => true)
    (hn : names (eff s p) f [f.a, f.b, f.d] b) (hov : ((eff s p).barGet b).ov = false) (hq : noReports s) :
    let ph : W32 := BitVec.ofNat 32 ((s.rd 0 .n32 f.d).n % 2 ^ 31)
    exec (.bwait p f) s = lanesOut s p fun _ x =>
      { x with st := .waiting, wait := .bwait b ph f.scope s.g.iss.word s.g.retired
               woken := if ((eff s p).barGet b).phase = ph.toNat then none else some false, owes := false } := by
  show execBwait p f s = _
  refine State.perform_done s false p _ _ hr _ ?_ (State.atIssue_met s _)
  rw [State.pending_of_noReports (noReports_eff hq p), Option.getD_none, State.withBar_of_names hn _ fun _ => hov]
  simp only [State.rd_atIssue, BarObj.ends_of_not_ov hov, State.atIssue_g, Grp.advance_iss, Grp.advance_retired]

/-! ### BARRIVE (R111, R154) -/

/-- What BARRIVE does to the object that it names. -/
def State.arriveDid (s : State) (f : MF) (act : Mask) (b : BarName) : Did :=
  let o := s.barGet b
  let c := (s.g.lanesOf act).length
  let u := s.release f.scope
  u.orWait true f.scope <|
    if o.expl < o.arrl + c then (u.barUpdate b (o.arrive c)).overrunAt act b
    else if !f.arriveL then .done (u.barUpdate b (o.arrive c)) []
    else
      match f.d with
      | .s i =>
        if u.gr.det then
          .done ((u.modG fun g => g.modLanes (g.lanesOf act) fun _ x =>
            { x with st := .waiting, wait := .arriveL b (BitVec.ofNat 32 o.phase) i none u.g.iss.word u.g.retired,
                     woken := none, owes := false }).barUpdate b (o.arrive c)) []
        else
          .done (((u.setG (u.g.putS i.val ⟨if o.arrl + c = o.expl then 1 else 0, false⟩)).barUpdate b (o.arrive c)).logIn .arrive 0
            (leBytes 8 (if o.arrl + c = o.expl then 1 else 0))) []
      | _ => .done u []

theorem exec_barrive (p : Pred) (f : MF) (s : State) :
    exec (.barrive p f) s = s.perform false p (fun _ => true) fun s act =>
      (s.pending f act).getD <| s.withBar f act [f.a, f.b] true fun s b => s.arriveDid f act b := rfl

/-- A BARRIVE whose checks pass retires with what it does to its object. -/
theorem barrive_does {s t : State} {p : Pred} {f : MF} {b : BarName} (hr : s.Runs p fun _ => true) (hn : names (eff s p) f [f.a, f.b] b)
    (hov : ((eff s p).barGet b).ov = false) (hq : noReports s) (hd : (eff s p).arriveDid f (s.allowed p) b = .done t [])
    (hm : t.met = s.met) : exec (.barrive p f) s = retired t := by
  rw [exec_barrive]
  refine State.perform_done s false p _ _ hr _ ?_ hm
  rw [State.pending_of_noReports (noReports_eff hq p), Option.getD_none, State.withBar_of_names hn _ fun _ => hov, hd]

section
variable {s : State} {f : MF} {act : Mask} {b : BarName} (hrel : (s.release f.scope).released f.scope = true)
  (hfit : (s.barGet b).arrl + (s.g.lanesOf act).length ≤ (s.barGet b).expl)
include hrel hfit

theorem State.arriveDid_plain (hl : f.arriveL = false) :
    s.arriveDid f act b = .done ((s.release f.scope).barUpdate b ((s.barGet b).arrive (s.g.lanesOf act).length)) [] := by
  unfold State.arriveDid
  rw [State.orWait_of_drained _ _ fun _ => hrel, if_neg (by omega), hl]
  rfl

/-- Outside a DET grid .l learns at once whether its arrival completes the count (R154). -/
theorem State.arriveDid_tells {i : Fin 64} (hl : f.arriveL = true) (hd : f.d = .s i) (hdet : s.gr.det = false) :
    s.arriveDid f act b = .done ((((s.release f.scope).modG fun g =>
        g.putS i.val ⟨if (s.barGet b).arrl + (s.g.lanesOf act).length = (s.barGet b).expl then 1 else 0, false⟩).barUpdate b
          ((s.barGet b).arrive (s.g.lanesOf act).length)).logIn .arrive 0
          (leBytes 8 (if (s.barGet b).arrl + (s.g.lanesOf act).length = (s.barGet b).expl then 1 else 0))) [] := by
  unfold State.arriveDid
  rw [State.orWait_of_drained _ _ fun _ => hrel, if_neg (by omega), hl, hd, (s.sameCounts_release f.scope).gr, hdet]
  rfl

/-- In a DET grid the lanes of .l wait for the phase in which they arrive (R154). -/
theorem State.arriveDid_waits {i : Fin 64} (hl : f.arriveL = true) (hd : f.d = .s i) (hdet : s.gr.det = true) :
    s.arriveDid f act b = .done (((s.release f.scope).modG fun g => g.modLanes (g.lanesOf act) fun _ x =>
        { x with st := .waiting, wait := .arriveL b (BitVec.ofNat 32 (s.barGet b).phase) i none s.g.iss.word s.g.retired,
                 woken := none, owes := false }).barUpdate b ((s.barGet b).arrive (s.g.lanesOf act).length)) [] := by
  have hs := s.sameCounts_release f.scope
  unfold State.arriveDid
  rw [State.orWait_of_drained _ _ fun _ => hrel, if_neg (by omega), hl, hd, hs.gr, hdet, hs.iss, hs.retired]
  rfl

end

/-! ### BTEST (R153, R327) -/

/-- What BTEST writes, once it has logged it: word 0 of its object, by the class of its destination. -/
def State.testDid (s : State) (d : Opnd) (act : Mask) (v : Nat) : Did :=
  match d with
  | .z i => .done (s.setG (s.g.setZreg i.val (BitVec.ofNat 64 v))) []
  | .s i => .done (s.setG (s.g.putS i.val ⟨v, false⟩)) []
  | d => .done (s.setG (s.g.modLanes (s.g.lanesOf act) fun _ x => x.putRegs s.g.wb d [⟨BitVec.ofNat 32 v, false⟩])) []

theorem exec_btest (p : Pred) (f : MF) (s : State) :
    exec (.btest p f) s = s.perform false p (s.opsOk [(f.d, 1)]) fun s act =>
      if f.d.isZ != s.gr.det then .done s (failAll s.g act .opndLate)
      else s.withBar f act [f.a, f.b] true fun s b =>
        let v := (s.barGet b).phase + if (s.barGet b).ov then 2 ^ 31 else 0
        (s.logIn .btest b.addr.toNat (leBytes 4 v)).testDid f.d act v := rfl

/-- A BTEST whose checks pass reads the phase of an object that has not overrun. -/
theorem btest_reads {s t : State} {p : Pred} {f : MF} {b : BarName} (hr : s.Runs p (s.opsOk [(f.d, 1)])) (hn : names (eff s p) f [f.a, f.b] b)
    (hov : ((eff s p).barGet b).ov = false) (hz : f.d.isZ = s.gr.det)
    (hd : ((eff s p).logIn .btest b.addr.toNat (leBytes 4 ((eff s p).barGet b).phase)).testDid f.d (s.allowed p) ((eff s p).barGet b).phase = .done t [])
    (hm : t.met = s.met) : exec (.btest p f) s = retired t := by
  have hc : ¬(f.d.isZ != (eff s p).gr.det) = true := by rw [State.atIssue_det, hz, bne_self_eq_false]; exact Bool.false_ne_true
  rw [exec_btest]
  refine State.perform_done s false p _ _ hr _ ?_ hm
  rw [if_neg hc, State.withBar_of_names hn _ fun _ => hov]
  dsimp only
  rw [hov, if_neg Bool.false_ne_true, Nat.add_zero, hd]

theorem State.logIn_wb (s : State) (k : LogKind) (a : Nat) (d : List Byte) (p : List Bool) : (s.logIn k a d p).g.wb = s.g.wb := by
  unfold State.logIn
  split <;> rfl

theorem State.testDid_lanes (s : State) {d : Opnd} (h : laneDest d = true) (act : Mask) (v : Nat) :
    s.testDid d act v = .done (s.modG fun g => g.modLanes (g.lanesOf act) fun _ x => x.putRegs s.g.wb d [⟨BitVec.ofNat 32 v, false⟩]) [] := by
  unfold laneDest at h
  split at h
  · rfl
  · rfl
  · exact absurd h Bool.false_ne_true

theorem isZ_of_laneDest {d : Opnd} (h : laneDest d = true) : d.isZ = false := by
  unfold laneDest at h
  split at h
  · rfl
  · rfl
  · exact absurd h Bool.false_ne_true

/-! ### The obligation -/

theorem barriersHold_holds : barriersHold := by
  intro p f s b o
  have hc : (eff s p).g.lanesOf (s.allowed p) = s.g.lanesOf (s.allowed p) := by rw [State.atIssue_g, Grp.lanesOf_advance]
  refine ⟨fun hr => ⟨fun hn => ⟨fun h1 h2 => binit_sets hr hn h1 h2, fun hov hfit => bexpect_adds hr hn hov hfit,
    fun hov hq => bwait_waits hr hn hov hq⟩, ?_⟩, ?_⟩
  · intro hn hov hq c u arrived hfit hrel hm
    have hfit' : o.arrl + ((eff s p).g.lanesOf (s.allowed p)).length ≤ o.expl := by rw [hc]; exact hfit
    refine ⟨fun hl => ?_, fun k hl hd hdet => ?_, fun k hl hd hdet => ?_⟩
    · refine barrive_does hr hn hov hq ((State.arriveDid_plain hrel hfit' hl).trans ?_) ((State.barUpdate_met _ _ _).trans hm)
      rw [hc]
    · refine barrive_does hr hn hov hq ((State.arriveDid_tells hrel hfit' hl hd ((s.atIssue_det _).trans hdet)).trans ?_)
        ((State.logIn_met _ _ _ _ _).trans ((State.barUpdate_met _ _ _).trans hm))
      rw [hc]
    · refine barrive_does hr hn hov hq ((State.arriveDid_waits hrel hfit' hl hd ((s.atIssue_det _).trans hdet)).trans ?_)
        ((State.barUpdate_met _ _ _).trans hm)
      rw [hc, State.atIssue_g, Grp.advance_iss, Grp.advance_retired]
  · intro hr hn hov u
    have hm : u.met = s.met := (State.logIn_met _ _ _ _ _).trans (State.atIssue_met s _)
    refine ⟨fun k hd hdet => ?_, fun k hd hdet => ?_, fun hd hdet => ?_⟩
    · exact btest_reads hr hn hov (by rw [hd, hdet]; rfl) (by rw [hd]; rfl) hm
    · exact btest_reads hr hn hov (by rw [hd, hdet]; rfl) (by rw [hd]; rfl) hm
    · refine btest_reads hr hn hov ((isZ_of_laneDest hd).trans hdet.symm) ((State.testDid_lanes u hd _ _).trans ?_) hm
      rw [State.logIn_wb, State.atIssue_g, Grp.advance_wb]

/-- Settles O39: operands that name an object pass each word's checks, and a release leaves the issue as it was; the test after an update
goes by its three cases. -/
theorem barrierWords : Obligations.BarrierWords := ⟨barriersHold_holds, barrierTestHold_holds⟩

end Sys2Proof.Machine
end

section
/-! PROOFS. Counts, time and draws (O10). -/

namespace Sys2Proof.Machine

open Sys2Proof.Claims

/-! ### What the start of an issue leaves of the package and its accounts -/

theorem State.ptIssued_pkg (s : State) (m : Mask) : (s.ptIssued m).pkg = s.pkg := by
  unfold State.ptIssued
  split <;> rfl

theorem State.ptIssued_debited (s : State) (m : Mask) : (s.ptIssued m).debited = s.debited := by
  unfold State.ptIssued
  split <;> rfl

theorem State.atIssue_pkg (s : State) (m : Mask) : (s.atIssue m).pkg = s.pkg := State.ptIssued_pkg _ m

theorem State.atIssue_idx (s : State) (m : Mask) : (s.atIssue m).g.idx = s.g.idx := by
  rw [State.atIssue_g, Grp.advance, Grp.modLanes_idx]

/-- The energy of an issue goes to the cluster of its core. -/
theorem State.atIssue_debited (s : State) (m : Mask) : (s.atIssue m).debited =
    bankPut 0 s.debited (s.foc.core / 96) (bankGet s.debited 0 (s.foc.core / 96) + issueEnergy s.g.iss.word (s.g.lanesOf m).length) := by
  simp only [State.atIssue, State.debitAt, State.ptIssued_debited, State.ptIssued_foc, State.ptIssued_g, State.setG_debited, State.setG_foc,
    State.g_setG, Grp.advance_iss, Grp.lanesOf_advance]

/-! ### An issue that retires debits nothing more -/

theorem State.count_debited (s : State) (ctx code n : Nat) : (s.count ctx code n).debited = s.debited := by
  unfold State.count
  split <;> rfl

theorem State.logState_debited (s : State) : s.logState.debited = s.debited := by
  unfold State.logState
  split <;> rfl

theorem State.owe_debited (s : State) (fails : List (Nat × Fail)) : (s.owe fails).debited = s.debited := by
  unfold State.owe
  split <;> rfl

theorem State.finish_nil_debited (s : State) (counted : Bool) : (s.finish counted []).debited = s.debited := by
  cases counted with
  | false => rfl
  | true => exact (State.logState_debited _).trans (State.count_debited _ _ _ _)

theorem State.retire_debited (s : State) : s.retire.debited = s.debited :=
  (State.finish_nil_debited _ _).trans (s.owe_debited [])

/-! ### The two datapaths, as the statements name them -/

theorem State.perLane_eq_lanesOut {s : State} {p : Pred} {chk : Nat → Bool} (op : State → Nat → Lane → Lane) (hr : s.Runs p chk) :
    s.perLane p chk op = lanesOut s p (op (eff s p)) := s.perLane_runs p chk op hr

theorem State.once_eq_groupOut {s : State} {p : Pred} {chk : Nat → Bool} (h : Bool) (op : State → Mask → Grp → Grp) (hr : s.Runs p chk) :
    s.once h p chk op = groupOut s p (op (eff s p) (s.allowed p)) := s.once_runs h p chk op hr

theorem isS_of_laneDest {d : Opnd} (h : laneDest d = true) : d.isS = false := by
  cases d with
  | s _ => exact absurd h Bool.false_ne_true
  | _ => rfl

theorem ne_s_of_laneDest {d : Opnd} (h : laneDest d = true) (k : Fin 64) : d ≠ .s k := by
  rintro rfl
  exact Bool.false_ne_true h

/-- An effect that enters the log of its context as its last act retires. -/
theorem State.perform_logIn {s t : State} {p : Pred} {chk : Nat → Bool} {op : State → Mask → Did} {k : LogKind} {a : Nat} {d : List Byte}
    (hr : s.Runs p chk) (hop : op (eff s p) (s.allowed p) = .done (t.logIn k a d) []) (hm : t.met = s.met) :
    s.perform false p chk op = retired (t.logIn k a d) :=
  State.perform_done s false p chk op hr _ hop ((State.logIn_met _ _ _ _ _).trans hm)

/-! ### CLK (R279) -/

theorem exec_clk_lanes {s : State} {p : Pred} {f : VF} (hd : laneDest f.d = true) :
    exec (.clk p f) s = s.perLane p (s.opsOk [(f.d, 2)]) fun s _ x => x.putVec s.g.wb f.d true ⟨s.g.retired.toNat, false⟩ := by
  show execClk p f s = _
  unfold execClk
  split
  · rename_i he
    exact absurd he (ne_s_of_laneDest hd _)
  · rfl

theorem clk_group {s : State} {p : Pred} {f : VF} {k : Fin 64} (hd : f.d = .s k) (hr : s.Runs p fun _ => true) :
    exec (.clk p f) s = groupOut s p fun g => g.putS k ⟨s.g.retired.toNat, false⟩ := by
  show execClk p f s = _
  unfold execClk
  rw [hd]
  refine (State.once_eq_groupOut false _ hr).trans ?_
  simp only [groupOut, State.modG, State.atIssue_g, Grp.advance_retired]

theorem clk_lanes {s : State} {p : Pred} {f : VF} (hd : laneDest f.d = true) (hr : s.Runs p (s.opsOk [(f.d, 2)])) :
    exec (.clk p f) s = lanesOut s p fun _ x => x.putVec s.g.wb f.d true ⟨s.g.retired.toNat, false⟩ := by
  rw [exec_clk_lanes hd, State.perLane_eq_lanesOut _ hr, State.atIssue_g, Grp.advance_wb, Grp.advance_retired]

/-! ### RNG (R155, R281) -/

theorem State.draw_atIssue (s : State) (m : Mask) (l : Nat) (x : Lane) : (s.atIssue m).draw l x = s.draw l x := by
  have hgr : (s.atIssue m).gr.lrec = s.gr.lrec := (s.setG s.g.advance).ptIssued_gr m
  have ht : (s.atIssue m).t.id = s.t.id := (s.setG s.g.advance).ptIssued_t m
  rw [State.draw, hgr, ht, State.special_atIssue, State.draw]

theorem rng_draws {s : State} {p : Pred} {f : VF} (hr : s.Runs p (s.opsOk [(f.d, 1)])) :
    exec (.rng p f) s = lanesOut s p fun l x =>
      { x with ctr := x.ctr + 1 }.putVec s.g.wb f.d false ⟨if f.ty = Ty.f32 then unitFp32 (s.draw l x) else s.draw l x, false⟩ := by
  show execRng p f s = _
  rw [execRng, State.perLane_eq_lanesOut _ hr]
  simp only [State.draw_atIssue, State.atIssue_g, Grp.advance_wb, beq_iff_eq]

/-- A product modulo 2^64 of a word folded onto itself, as R155 mixes. -/
theorem toNat_foldMul (x c : W64) (k : Nat) : ((x ^^^ (x >>> k)) * c).toNat = (x.toNat ^^^ x.toNat / 2 ^ k) * c.toNat % 2 ^ 64 := by
  rw [BitVec.toNat_mul, BitVec.toNat_xor, BitVec.toNat_ushiftRight, Nat.shiftRight_eq_div_pow]

theorem toNat_drawId (team tlane : Nat) :
    (BitVec.ofNat 64 team * 1024 + BitVec.ofNat 64 tlane).toNat = (team * 1024 + tlane) % 2 ^ 64 := by
  simp [BitVec.toNat_add, BitVec.toNat_mul]

theorem toNat_ofNat_mul (n : Nat) (c : W64) : (BitVec.ofNat 64 n * c).toNat = n * c.toNat % 2 ^ 64 := by
  rw [BitVec.toNat_mul, BitVec.toNat_ofNat, Nat.mod_mul_mod]

theorem drawFunctionHold_holds : drawFunctionHold := by
  intro key team tlane ctr hkey
  dsimp only
  rw [BitVec.toNat_setWidth, BitVec.toNat_xor, BitVec.toNat_ushiftRight, Nat.shiftRight_eq_div_pow, toNat_foldMul, toNat_foldMul,
    BitVec.toNat_xor, BitVec.toNat_xor, BitVec.toNat_mul, toNat_drawId, toNat_ofNat_mul, BitVec.toNat_ofNat, Nat.mod_eq_of_lt hkey]
  rfl

/-! ### ECOUNT (R282) and what an issue debits (R461) -/

theorem ecount_reads {s : State} {p : Pred} {f : VF} (hr : s.Runs p fun _ => true) :
    let v := bankGet (eff s p).debited 0 (s.foc.core / 96) / 100
    exec (.ecount p f) s = retired (((eff s p).modG fun g => g.setZreg f.d.zIdx (BitVec.ofNat 64 v)).logIn .ecount 0 (leBytes 8 v)) := by
  intro v
  show execEcount p f s = _
  refine State.perform_logIn hr ?_ ?_
  · dsimp only
    rw [State.atIssue_foc]
    rfl
  · exact State.atIssue_met s _

theorem issueEnergy_int {w : W64} {d : Opnd} (n : Nat) (hm : w.extractLsb' 58 6 = 1#6)
    (hd : Opnd.ofByte (w.extractLsb' 40 8) = some d) (hs : d.isS = false) : issueEnergy w n = 100 * n := by
  have hc : codeAt w 58 6 = 1 := congrArg BitVec.toNat hm
  have ho : (opndAt w 40).1 = d := by rw [opndAt, hd]
  simp [issueEnergy, hc, ho, hs]

theorem State.intOp_lanes {s : State} {p : Pred} {f : VF} {n : Nat} {fn : Nat → Nat → Nat → Nat} (hd : laneDest f.d = true) :
    s.intOp p f n fn = s.perLane p (s.opsOk (withRegs f.ty.regs (f.d :: [f.a, f.b, f.c].take n)))
      fun s l x => x.putVec s.g.wb f.d f.ty.is64 (s.val3 l f.ty ([f.a, f.b, f.c].take n) fn) := by
  unfold State.intOp
  split
  · rename_i he
    exact absurd he (ne_s_of_laneDest hd _)
  · rfl

theorem add_debits {s : State} {p : Pred} {f : VF} (hd : laneDest f.d = true)
    (hr : s.Runs p (s.opsOk (withRegs f.ty.regs [f.d, f.a, f.b]))) (hm : s.g.iss.word.extractLsb' 58 6 = 1#6)
    (ho : Opnd.ofByte (s.g.iss.word.extractLsb' 40 8) = some f.d) :
    ∃ t, exec (.add p f) s = .next t ∧ t.debited = bankPut 0 s.debited (s.foc.core / 96)
      (bankGet s.debited 0 (s.foc.core / 96) + 100 * (s.g.lanesOf (s.allowed p)).length) := by
  refine ⟨_, (State.intOp_lanes hd).trans (State.perLane_eq_lanesOut _ hr), ?_⟩
  rw [State.retire_debited, State.modG_debited, State.atIssue_debited, issueEnergy_int _ hm ho (isS_of_laneDest hd)]

/-! ### ZREAD (R280) -/

theorem State.timeNow_lt (s : State) : s.timeNow < 2 ^ 64 := by
  unfold State.timeNow
  omega

theorem State.time_lt_timeNow {s : State} (h : s.pkg.time < 2 ^ 64 - 1) : s.pkg.time < s.timeNow := by
  unfold State.timeNow
  omega

theorem zread_time {s : State} {p : Pred} {f : IF} (hr : s.Runs p fun _ => true) (hi : f.imm = 0) :
    exec (.zread p f) s =
      retired ((((eff s p).modPkg fun k => { k with time := (eff s p).timeNow }).modG fun g =>
        g.setZreg f.d.zIdx (BitVec.ofNat 64 (eff s p).timeNow)).logIn .zread 0 (leBytes 8 (eff s p).timeNow)) := by
  show execZread p f s = _
  refine State.perform_logIn hr ?_ ?_
  · dsimp only
    rw [hi]
    rfl
  · exact State.atIssue_met s _

theorem zread_placement {s : State} {p : Pred} {f : IF} (hr : s.Runs p fun _ => true) (hi : f.imm ≠ 0) :
    let v := placementWord s.foc.core (s.g.idx % 4)
    exec (.zread p f) s = retired (((eff s p).modG fun g => g.setZreg f.d.zIdx (BitVec.ofNat 64 v)).logIn .zread 1 (leBytes 8 v)) := by
  intro v
  show execZread p f s = _
  refine State.perform_logIn hr ?_ ?_
  · rw [if_neg (by simpa using hi)]
    dsimp only
    rw [State.atIssue_foc, State.atIssue_idx]
    rfl
  · exact State.atIssue_met s _

/-! ### The numbers that cores report (R280) -/

theorem bankGet_of_lt {α : Type} {l : List α} (d : α) {i : Nat} (h : i < l.length) : bankGet l d i = l[i] :=
  (List.getElem_eq_getD d).symm

/-- Whatever the picks, each number of the list is drawn once. -/
theorem drawOrder_perm (pick : Nat → Nat) (n : Nat) (xs : List Nat) (h : xs.length = n) : (drawOrder pick n xs).Perm xs := by
  induction n generalizing xs with
  | zero => rw [List.length_eq_zero_iff.mp h]; rfl
  | succ n ih =>
    have hlt : pick n % max 1 xs.length < xs.length := by
      rw [h, Nat.max_eq_right (Nat.le_add_left 1 n)]
      exact Nat.mod_lt _ n.succ_pos
    have hx : bankGet xs 0 (pick n % max 1 xs.length) ∈ xs := by
      rw [bankGet_of_lt 0 hlt]
      exact List.getElem_mem hlt
    rw [drawOrder]
    exact ((ih _ (by rw [List.length_erase_of_mem hx, h]; rfl)).cons _).trans (List.perm_cons_erase hx).symm

/-- The numbers 0 to n - 1 in an order that some picks give: each is below n, and no two places hold the same. -/
theorem drawOrder_range_lt (pick : Nat → Nat) {n i : Nat} (hi : i < n) : bankGet (drawOrder pick n (List.range n)) 0 i < n := by
  have hp := drawOrder_perm pick n (List.range n) List.length_range
  have hl : i < (drawOrder pick n (List.range n)).length := by rwa [hp.length_eq, List.length_range]
  rw [bankGet_of_lt 0 hl]
  exact List.mem_range.mp (hp.mem_iff.mp (List.getElem_mem hl))

theorem drawOrder_range_inj (pick : Nat → Nat) {n i j : Nat} (hi : i < n) (hj : j < n)
    (h : bankGet (drawOrder pick n (List.range n)) 0 i = bankGet (drawOrder pick n (List.range n)) 0 j) : i = j := by
  have hp := drawOrder_perm pick n (List.range n) List.length_range
  have hl : (drawOrder pick n (List.range n)).length = n := by rw [hp.length_eq, List.length_range]
  rw [bankGet_of_lt 0 (hl.symm ▸ hi), bankGet_of_lt 0 (hl.symm ▸ hj)] at h
  exact (hp.nodup_iff.mpr List.nodup_range).getElem_inj_iff.mp h

/-- Two clusters of a die take its two numbers, whichever comes first. -/
theorem clusterNumber_inj (c : Nat → Nat) {a b : Nat} (h : a / 2 * 2 + (a + c (a / 2)) % 2 = b / 2 * 2 + (b + c (b / 2)) % 2) : a = b := by
  have hdie : a / 2 = b / 2 := by omega
  rw [hdie] at h
  omega

theorem coreNumber_inj {a b : Nat} (h : coreNumber a = coreNumber b) : a = b := by
  obtain ⟨hclu, hcore⟩ := Prod.mk.inj h
  have hk : a / 96 = b / 96 := clusterNumber_inj (fun j => if (Config.placement (1536 + j)).getLsbD 0 then 1 else 0) hclu
  rw [hk] at hcore
  have hi : a % 96 = b % 96 := drawOrder_range_inj _ (Nat.mod_lt _ (by decide)) (Nat.mod_lt _ (by decide)) hcore
  omega

theorem coreNumber_fst_lt {a : Nat} (h : a < 384) : (coreNumber a).1 < 4 := by
  simp only [coreNumber]
  omega

theorem coreNumber_snd_lt (a : Nat) : (coreNumber a).2 < 96 := drawOrder_range_lt _ (Nat.mod_lt _ (by decide))

/-! ### The obligation -/

theorem countsAndTimesHold_holds : countsAndTimesHold := by
  refine ⟨fun p f s => ⟨fun k hd hr => clk_group hd hr, clk_lanes, rng_draws, ecount_reads, add_debits⟩, fun p f s hr => ⟨fun hi => ?_,
    zread_placement hr, fun a b ha _ hab => ⟨fun h => hab (coreNumber_inj h), coreNumber_fst_lt ha, coreNumber_snd_lt a⟩⟩⟩
  refine ⟨(eff s p).timeNow, State.timeNow_lt _, fun h => ?_, zread_time hr hi⟩
  rw [← State.atIssue_pkg s (s.allowed p)] at h ⊢
  exact State.time_lt_timeNow h

/-- Settles O10: CLK, RNG, ECOUNT and ZREAD by what their effects read where an issue has begun, the draw by the residues of its products,
and the core numbers because the orders they come from are permutations. -/
theorem countsAndDraws : Obligations.CountsAndDraws := ⟨countsAndTimesHold_holds, drawFunctionHold_holds⟩

end Sys2Proof.Machine
end

section
/-! PROOFS. STASH and RESTORE (O41): refuted. -/

namespace Sys2Proof.Machine

open Sys2Proof.Claims

/-! ### A STASH that a context samples (R445)

A STASH is a global memory instruction, so a core whose context takes samples counts it, and STASH ends by `State.sampled`. The state that
the statement gives has the command of the STASH and its flags, and leaves the count as it was. -/

/-- A resident group of eight lanes that issues under a context whose capture is on and which samples one in 64 instructions. Its core's
TLB maps the page at VA 0 to a frame of its own HBM for STASH. -/
def sampledIssue : State :=
  { ctxs := [(0, { root := 1, dbgSmpl := 1, dbgTrace := true })]
    cores := [(0, { tlb := [{ pte := 0x50408 }] })]
    grids := [(0, { phase := .running, lrec := { gw0 := 8, nteam := 1, trapv := 0x1000, scratch := 4096 } })]
    teams := [(0, { phase := .resident, groups := [0], size := 4096 })]
    groups := [(0, { gw := 8, lanes := List.replicate 8 {}, spillLen := 4096, iss := { pc := 8, set := 0xFF },
                     a := [{ valid := true, limit := 0x1000 }] })] }
/-- STASH of v0 to v7 of eight lanes, as one block at a0. -/
def stashOfV0 : MF := ⟨.v 0, .a 0, .const .zero, .grp, .rlx, .none, .b8, .none, 7⟩

/-- The instructions that core 0 has counted for context 0 since the last that it sampled, in the state that an outcome leaves. -/
def sampleCount : Out → Nat
  | .next t => (t.coreAt 0).smpl.get 0 0
  | _ => 0

theorem sampledIssue_runs : sampledIssue.Runs anyLane (sampledIssue.opsOk [(stashOfV0.a, 1)]) := by decide +kernel

theorem sampledIssue_passes : stashPasses (eff sampledIssue anyLane) stashOfV0 (sampledIssue.allowed anyLane) true 0 := by
  refine ⟨?_, ?_, ?_, ?_, ?_, ?_⟩ <;> decide +kernel

/-- The STASH finds its page, and its core counts it. -/
theorem sampledIssue_blocks : ((eff sampledIssue anyLane).blockFlts .stash (sampledIssue.allowed anyLane) 0
    (MF.blocks stashOfV0 sampledIssue.g.gw) (blockBytes (MF.coarse stashOfV0))).2 = [] := by decide +kernel

theorem sampledIssue_stash : sampleCount (exec (.stash anyLane stashOfV0) sampledIssue) = 1 := by decide +kernel

/-- Refutes O41: under a context that takes samples a STASH is counted for its core (R445), which the statement leaves out. -/
theorem not_stashAndRestore : ¬ Obligations.StashAndRestore := by
  unfold Obligations.StashAndRestore
  intro h
  obtain ⟨hstash, -, -⟩ := h anyLane stashOfV0 sampledIssue _ 0 sampledIssue_runs rfl
  have hout := hstash sampledIssue_passes (Prod.ext rfl sampledIssue_blocks)
  exact absurd (sampledIssue_stash.symm.trans (congrArg sampleCount hout)) (by decide +kernel)

end Sys2Proof.Machine
end

section
/-! PROOFS. The tape (O46). -/

namespace Sys2Proof.Machine

open Sys2Proof.Claims

/-! ### What an issue leaves of a tape -/

theorem Grp.advance_tape (g : Grp) : g.advance.tape = g.tape := by
  obtain ⟨x, h⟩ := g.modLanes_eq (g.lanesOf g.iss.set) fun _ x => { x with pc := g.iss.pc + 8 }
  rw [Grp.advance, h]

theorem Grp.advance_parent (g : Grp) : g.advance.parent = g.parent := by
  obtain ⟨x, h⟩ := g.modLanes_eq (g.lanesOf g.iss.set) fun _ x => { x with pc := g.iss.pc + 8 }
  rw [Grp.advance, h]

theorem State.atIssue_tape (s : State) (m : Mask) : (s.atIssue m).g.tape = s.g.tape := by rw [State.atIssue_g, Grp.advance_tape]

theorem State.atIssue_lrec (s : State) (m : Mask) : (s.atIssue m).gr.lrec = s.gr.lrec := (s.setG s.g.advance).ptIssued_gr m

/-! ### The checks of a tape word (R360) -/

/-- What a tape word does in its active lanes: its checks, and then its effect k. -/
def State.tapeDid (s : State) (f : VF) (conv last : Bool) (sts : TapeSt → Bool) (k : State → Mask → Did) (act : Mask) : Did :=
  if s.flagFull (s.sfNow f.sf) then s.fullWait (s.sfNow f.sf)
  else if s.g.parent.isSome || s.gr.lrec.tape = 0 then .done s (failAll s.g act .opndLate)
  else if conv && !s.g.converged act then .done s (failAll s.g s.g.iss.set .opndLate)
  else if last && s.g.iss.pc.toNat ≠ s.g.iss.bb.toNat + 8 * blockLen s.g.iss.hdr then .done s (failAll s.g act { cause := cIllInstr })
  else if !sts s.g.tape.st then .done s (failAll s.g act .opndLate)
  else k s act

theorem State.tapeOp_eq (s : State) (p : Pred) (f : VF) (conv last : Bool) (sts : TapeSt → Bool) (k : State → Mask → Did) :
    s.tapeOp p f conv last sts k =
      (if conv then s.performWide p (fun _ => true) else s.perform false p (fun _ => true)) fun s act => s.tapeDid f conv last sts k act := rfl

/-- TMARK stands at the last word of its block (R363), where `last` asks for it. -/
def State.atLast (s : State) (last : Bool) : Prop := last = true → s.g.iss.pc.toNat = s.g.iss.bb.toNat + 8 * blockLen s.g.iss.hdr

section
variable {s : State} {p : Pred} {f : VF} {c last : Bool} {sts : TapeSt → Bool} {k : State → Mask → Did}

theorem State.tapeDid_passes (h : tapeRuns s p f sts) (hc : c = true → conv s p) (hl : s.atLast last) :
    (eff s p).tapeDid f c last sts k (s.allowed p) = k (eff s p) (s.allowed p) := by
  obtain ⟨-, hf, hp, ht, hs⟩ := h
  have hpar : (eff s p).g.parent = none := by rw [State.atIssue_g, Grp.advance_parent, hp]
  have hconv : (c && !(eff s p).g.converged (s.allowed p)) = false := by
    cases c with
    | false => rfl
    | true => rw [hc rfl]; rfl
  have hlast : ¬(last && decide ((eff s p).g.iss.pc.toNat ≠ (eff s p).g.iss.bb.toNat + 8 * blockLen (eff s p).g.iss.hdr)) = true := by
    rw [State.atIssue_g, Grp.advance_iss]
    simpa [State.atLast] using hl
  rw [State.tapeDid, hf, if_neg Bool.false_ne_true, hpar, State.atIssue_lrec, if_neg (by simpa using ht), hconv, if_neg Bool.false_ne_true,
    if_neg hlast, State.atIssue_tape, hs]
  rfl

/-- A tape word whose checks pass comes to its effect. -/
theorem State.tapeOp_runs (h : tapeRuns s p f sts) (hc : c = true → conv s p) (hl : s.atLast last) :
    s.tapeOp p f c last sts k = s.conclude [] (k (eff s p) (s.allowed p)) := by
  rw [← State.tapeDid_passes (k := k) h hc hl, State.tapeOp_eq]
  cases c with
  | false =>
    rw [if_neg Bool.false_ne_true]
    exact State.perform_runs s false p _ _ h.1
  | true =>
    rw [if_pos rfl]
    exact State.performWide_runs s p _ _ h.1

theorem State.tapeOp_retires {t : State} (h : tapeRuns s p f sts) (hc : c = true → conv s p) (hl : s.atLast last)
    (hk : k (eff s p) (s.allowed p) = .done t []) (hm : t.met = (eff s p).met) : s.tapeOp p f c last sts k = retired t := by
  rw [State.tapeOp_runs h hc hl, hk]
  exact State.conclude_done s t (hm.trans (State.atIssue_met s _))

theorem State.met_flagEnd (s : State) (tag : Option (Nat × Nat)) : (s.flagEnd tag).met = s.met := by
  cases tag with
  | none => rfl
  | some t => exact (s.quiet_flagLanded _ t).met

/-- A tape word whose effect is a change of the tape that completes at once (R175). -/
theorem State.tapeOp_completes {u : State} {h : Tape → Tape} (hr : tapeRuns s p f sts) (hc : c = true → conv s p) (hl : s.atLast last)
    (hk : k (eff s p) (s.allowed p) = u.tapeDone f h) (hm : u.met = (eff s p).met) : s.tapeOp p f c last sts k = Claims.tapeOut f u h :=
  State.tapeOp_retires hr hc hl hk ((State.met_flagEnd _ _).trans ((State.met_flagStart u _).trans hm))

end

/-! ### A tape changed twice -/

theorem KMap.set_set {α : Type} (m : KMap α) (k : Nat) (x y : α) : KMap.set (KMap.set m k x) k y = KMap.set m k y := by
  induction m with
  | nil => simp [KMap.set]
  | cons e t ih =>
    obtain ⟨a, z⟩ := e
    by_cases h1 : a = k
    · simp [KMap.set, h1]
    · by_cases h2 : k < a
      · simp [KMap.set, h1, h2]
      · simp [KMap.set, h1, h2, ih]

theorem State.g_modTape (s : State) (h : Tape → Tape) : (s.modTape h).g = { s.g with tape := h s.g.tape } := State.g_modG _ _

theorem State.modTape_congr {s : State} {h h' : Tape → Tape} (e : h s.g.tape = h' s.g.tape) : s.modTape h = s.modTape h' :=
  congrArg (fun t : Tape => s.setG { s.g with tape := t }) e

theorem State.modTape_modTape (s : State) (h h' : Tape → Tape) : (s.modTape h).modTape h' = s.modTape fun t => h' (h t) := by
  show (s.modTape h).setG { (s.modTape h).g with tape := h' (s.modTape h).g.tape } = _
  rw [State.g_modTape]
  exact congrArg (fun m : KMap Grp => { s with groups := m }) (KMap.set_set _ _ _ _)

/-! ### TCLOSE (R175, R361) -/

/-- The end of a TCLOSE whose flag waits under `tag`. -/
def State.tapeClose (s : State) (tag : Option (Nat × Nat)) : State :=
  let s := if s.g.tape.st == .closed then s else s.dropTape s.foc.grp { seq := s.g.tape.seq }
  (s.modTape fun t => { t with closing := tag }).tapeEnded s.foc.grp

theorem State.tapeEnded_of_none {s : State} {grp : Nat} (h : (s.grpAt grp).tape.closing = none) : s.tapeEnded grp = s := by
  unfold State.tapeEnded
  dsimp only
  rw [h]

theorem State.tapeEnded_of_some {s : State} {t : Nat × Nat} (h : s.g.tape.closing = some t) (ho : s.tapeOut s.foc.grp = false) :
    s.tapeEnded s.foc.grp = (s.modTape fun x => { x with closing := none }).flagLanded s.foc.grp t := by
  have h' : (s.grpAt s.foc.grp).tape.closing = some t := h
  unfold State.tapeEnded
  dsimp only
  rw [h']
  exact if_neg (Bool.eq_false_iff.mp ho)

/-- A TCLOSE that is noted in the tape ends where no transfer of the tape is out. -/
theorem State.tapeEnded_modTape {s : State} (ho : s.tapeOut s.foc.grp = false) (h : Tape → Tape) :
    (s.modTape h).tapeEnded s.foc.grp = (s.modTape fun t => { h t with closing := none }).flagEnd (h s.g.tape).closing := by
  have hg : (s.modTape h).g.tape = h s.g.tape := by rw [State.g_modTape]
  cases e : (h s.g.tape).closing with
  | none =>
    exact (State.tapeEnded_of_none ((congrArg Tape.closing hg).trans e)).trans
      (State.modTape_congr (h' := fun t => { h t with closing := none }) (by rw [← e]))
  | some t =>
    refine (State.tapeEnded_of_some (s := s.modTape h) ((congrArg Tape.closing hg).trans e) ho).trans ?_
    rw [State.modTape_modTape]
    rfl

/-- A tape is dropped with its TCLOSE kept. -/
theorem State.dropTape_at_home {s : State} (ho : s.tapeOut s.foc.grp = false) (left : Tape) :
    s.dropTape s.foc.grp left = s.modTape fun t => { left with closing := t.closing } :=
  if_neg (Bool.eq_false_iff.mp ho)

theorem State.tapeClose_at_home {s : State} (ho : s.tapeOut s.foc.grp = false) (hn : s.g.tape.closing = none) (tag : Option (Nat × Nat)) :
    s.tapeClose tag = (s.modTape fun t => if t.st == .closed then t else { seq := t.seq }).flagEnd tag := by
  unfold State.tapeClose
  dsimp only
  by_cases hs : (s.g.tape.st == .closed) = true
  · rw [if_pos hs, State.tapeEnded_modTape ho]
    congr 1
    refine State.modTape_congr ?_
    rw [if_pos hs, ← hn]
  · rw [if_neg hs, State.dropTape_at_home ho, State.modTape_modTape]
    refine (State.tapeEnded_modTape ho _).trans ?_
    congr 1
    refine State.modTape_congr ?_
    rw [if_neg hs]

/-- What a peer still sends for the tape of a group is dropped (R361). -/
def Pkg.tapeDropped (p : Pkg) (grp : Nat) : Pkg :=
  { p with peerOut := p.peerOut.map fun q => if q.tape = true ∧ q.grp = grp ∧ q.kind = .load then { q with kind := .pref } else q }

theorem Pkg.tapeDropped_eq (p : Pkg) (grp : Nat) : p.tapeDropped grp =
    { p with peerOut := p.peerOut.map fun q => if q.tape && q.grp == grp && q.kind == .load then { q with kind := .pref } else q } := by
  simp only [Pkg.tapeDropped, Bool.and_eq_true, beq_iff_eq, and_assoc]

theorem Pkg.any_tapeDropped (p : Pkg) (grp : Nat) :
    ((p.tapeDropped grp).peerOut.any fun q => q.tape && q.grp == grp) = p.peerOut.any fun q => q.tape && q.grp == grp := by
  rw [Pkg.tapeDropped, List.any_map]
  congr 1
  funext q
  dsimp only [Function.comp]
  split <;> rfl

theorem State.dropTape_away {s : State} (ho : s.tapeOut s.foc.grp = true) (left : Tape) :
    s.dropTape s.foc.grp left = (s.modPkg fun p => p.tapeDropped s.foc.grp).modTape fun t => { left with closing := t.closing } := by
  simp only [Pkg.tapeDropped_eq]
  exact if_pos ho

theorem State.tapeEnded_away {s : State} {grp : Nat} (ho : s.tapeOut grp = true) : s.tapeEnded grp = s := by
  unfold State.tapeEnded
  dsimp only
  split
  · exact if_pos ho
  · rfl

theorem State.tapeClose_away {s : State} (ho : s.tapeOut s.foc.grp = true) (hs : s.g.tape.st ≠ .closed) (tag : Option (Nat × Nat)) :
    s.tapeClose tag = (s.modPkg fun p => p.tapeDropped s.foc.grp).modTape fun t => { seq := t.seq, closing := tag } := by
  unfold State.tapeClose
  rw [if_neg (by simpa using hs)]
  dsimp only
  rw [State.dropTape_away ho, State.modTape_modTape]
  exact State.tapeEnded_away ((Pkg.any_tapeDropped _ _).trans ho)

/-- What TCLOSE does where no earlier one still waits. -/
def State.closeDid (s : State) (f : VF) : Did :=
  if s.g.tape.closing.isSome then .hold
  else .done ((s.flagStart (s.sfNow f.sf)).1.tapeClose (s.flagStart (s.sfNow f.sf)).2) []

theorem exec_tclose (p : Pred) (f : VF) (s : State) : exec (.tclose p f) s = s.tapeOp p f true false (fun _ => true) fun s _ => s.closeDid f := rfl

theorem State.closeDid_of_none {s : State} {f : VF} (h : s.g.tape.closing = none) :
    s.closeDid f = .done ((s.flagStart (s.sfNow f.sf)).1.tapeClose (s.flagStart (s.sfNow f.sf)).2) [] := by
  rw [State.closeDid, h]
  rfl

/-! ### What the start of a flag leaves (R98) -/

theorem State.tape_flagStart (s : State) (fl : Option Nat) : (s.flagStart fl).1.g.tape = s.g.tape := by
  unfold State.flagStart
  split
  · rfl
  · dsimp only
    rw [State.g_modG]
    rfl

theorem State.foc_flagStart (s : State) (fl : Option Nat) : (s.flagStart fl).1.foc = s.foc := by
  unfold State.flagStart
  split <;> rfl

theorem State.gr_flagStart (s : State) (fl : Option Nat) : (s.flagStart fl).1.gr = s.gr := by
  unfold State.flagStart
  split <;> rfl

theorem State.tapeOut_flagStart (s : State) (fl : Option Nat) (grp : Nat) : (s.flagStart fl).1.tapeOut grp = s.tapeOut grp := by
  unfold State.flagStart
  split <;> rfl

theorem foc_flagged (s : State) (p : Pred) (fl : Option Nat) : ((eff s p).flagStart fl).1.foc = s.foc :=
  (State.foc_flagStart _ _).trans (State.atIssue_foc _ _)

theorem tape_flagged (s : State) (p : Pred) (fl : Option Nat) : ((eff s p).flagStart fl).1.g.tape = s.g.tape :=
  (State.tape_flagStart _ _).trans (State.atIssue_tape _ _)

/-! ### Records pushed (R170 to R174) -/

theorem State.recordWords_modTape (s : State) (h : Tape → Tape) (a : Opnd) (n : Nat) (act : Mask) :
    (s.modTape h).recordWords a n act = s.recordWords a n act := by
  simp only [State.recordWords, State.g_modTape]
  rfl

theorem State.gr_tapePut (s : State) (t : Nat) (bs : List Byte) : (s.tapePut t bs).gr = s.gr :=
  List.foldlRecOn (motive := fun x : State × List Byte => x.1.gr = s.gr) _ _ rfl fun _ h _ _ => h

theorem State.met_tapePut (s : State) (t : Nat) (bs : List Byte) : (s.tapePut t bs).met = s.met :=
  List.foldlRecOn (motive := fun x : State × List Byte => x.1.met = s.met) _ _ rfl fun _ h _ _ => h

theorem State.gr_tapePoison (s : State) (t n : Nat) : (s.tapePoison t n).gr = s.gr :=
  List.foldlRecOn (motive := fun x : State => x.gr = s.gr) _ _ rfl fun _ h _ _ => h

theorem State.met_tapePoison (s : State) (t n : Nat) : (s.tapePoison t n).met = s.met :=
  List.foldlRecOn (motive := fun x : State => x.met = s.met) _ _ rfl fun _ h _ _ => h

/-- A record's bytes in the slice from t on, with the words at the offsets `poi` poisoned. -/
def State.recordPut (s : State) (t : Nat) (bs : List Byte) (poi : List Nat) : State :=
  poi.foldl (fun s o => s.tapePoison (t + o) 4) (s.tapePut t bs)

theorem State.gr_recordPut (s : State) (t : Nat) (bs : List Byte) (poi : List Nat) : (s.recordPut t bs poi).gr = s.gr :=
  List.foldlRecOn (motive := fun x : State => x.gr = s.gr) _ _ (s.gr_tapePut t bs) fun x h _ _ => (x.gr_tapePoison _ _).trans h

theorem State.met_recordPut (s : State) (t : Nat) (bs : List Byte) (poi : List Nat) : (s.recordPut t bs poi).met = s.met :=
  List.foldlRecOn (motive := fun x : State => x.met = s.met) _ _ (s.met_tapePut t bs) fun x h _ _ => (x.met_tapePoison _ _).trans h

theorem State.makeRoom_fits {s : State} {size : Nat} (h : s.g.tape.occ + size ≤ s.gr.lrec.slice) (n : Nat) : s.makeRoom size (n + 1) = .done s :=
  if_pos h

/-- A record that finds room at once is pushed. -/
theorem State.push_fits {u v : State} {f : VF} {act : Mask} {kind n : Nat} {mark : Option (W64 × W32)} {st : TapeSt}
    (h : pushed u v f act kind n mark st) : u.push f.sf act kind n f.a mark st = .done v [] := by
  obtain ⟨hroom, rfl⟩ := h
  unfold State.push
  dsimp only
  rw [State.recordWords_modTape, State.g_modTape, State.makeRoom_fits (by rw [State.g_modTape]; exact hroom)]
  dsimp only
  rw [State.tape_flagStart, State.g_modTape]
  rw [show ∀ (w : State) (t : Nat) (bs : List Byte) (poi : List Nat), (poi.foldl (fun s o => s.tapePoison (t + o) 4) (w.tapePut t bs)).gr = w.gr
    from State.gr_recordPut, State.gr_flagStart]
  rfl

theorem State.met_pushed {u v : State} {f : VF} {act : Mask} {kind n : Nat} {mark : Option (W64 × W32)} {st : TapeSt}
    (h : pushed u v f act kind n mark st) : v.met = u.met := by
  obtain ⟨-, rfl⟩ := h
  exact (State.met_flagEnd _ _).trans ((State.met_recordPut _ _ _ _).trans (State.met_flagStart _ _))

/-! ### TREC (R362) -/

/-- What TREC does in its active lanes. -/
def State.recDid (s : State) (f : VF) (act : Mask) : Did :=
  let n := f.m % 8 + 1
  let half := f.m / 8 % 2 == 1
  if s.g.tape.st == .span then s.tapeDone f id
  else if half && (s.recordWords f.a n act).any (·.poi) then .done s (failAll s.g act (.poison f.a))
  else s.push f.sf act (if half then 2 else 0) n f.a none s.g.tape.st

theorem exec_trec (p : Pred) (f : VF) (s : State) : exec (.trec p f) s = s.tapeOp p f false false (· != .closed) fun s act => s.recDid f act := rfl

theorem State.recDid_pushes {u v : State} {f : VF} {act : Mask} (hs : u.g.tape.st ≠ .span)
    (hp : (f.m / 8 % 2 == 1) = true → ∀ r ∈ u.recordWords f.a (f.m % 8 + 1) act, r.poi = false)
    (h : pushed u v f act (if f.m / 8 % 2 == 1 then 2 else 0) (f.m % 8 + 1) none u.g.tape.st) : u.recDid f act = .done v [] := by
  have hpoi : ((f.m / 8 % 2 == 1) && (u.recordWords f.a (f.m % 8 + 1) act).any (·.poi)) = false := by
    cases hb : f.m / 8 % 2 == 1 with
    | false => rfl
    | true => exact List.any_eq_false.mpr fun r hr => Bool.eq_false_iff.mp (hp hb r hr)
  unfold State.recDid
  dsimp only
  rw [if_neg (by simpa using hs), hpoi, if_neg Bool.false_ne_true]
  exact State.push_fits h

/-! ### TEND (R365) -/

theorem State.met_fetch (s : State) (va : W64) (set : Mask) : (s.fetch va set).1.met = s.met := by
  have ht := s.met_translate s.foc.core s.foc.ctx .fetch va
  unfold State.fetch
  split
  · rename_i e
    rwa [e] at ht
  · rename_i t u e
    rw [e] at ht
    split
    · have hl := (t.otherLlc_touchLlc u.pa (pteCp u.pte)).calm.met.trans ht
      dsimp only
      split
      · exact hl
      · exact hl
    · split
      · split
        · exact ht
        · exact ht
      · dsimp only
        unfold State.sendLoad
        split
        · exact ht
        · exact ht

theorem State.met_target (s : State) (va : W64) : (s.target va).1.met = s.met := by
  have hf := s.met_fetch va 0
  unfold State.target
  split
  · rfl
  · split
    · rename_i e
      rw [e] at hf
      split
      · exact hf
      · exact hf
    · rename_i e
      rwa [e] at hf
    · rename_i e
      rwa [e] at hf

/-- What TEND does in its active lanes. -/
def State.endDid (s : State) (f : VF) (act : Mask) : Did :=
  if s.g.tape.st == .span then s.tapeDone f fun t => { t with st := .normal }
  else
    match s.target s.g.tape.ret with
    | (s, .wait id) => .stall s (.reply [id])
    | (s, k) => if k.ok then (s.jump act s.g.tape.ret).tapeDone f fun t => { t with st := .normal } else .done s (failAll s.g act .illHdr)

theorem exec_tend (p : Pred) (f : VF) (s : State) :
    exec (.tend p f) s = s.tapeOp p f true false (fun st => st == .span || st == .recompute) fun s act => s.endDid f act := rfl

theorem State.endDid_enters {s v : State} {f : VF} {act : Mask} {k : Target} (hs : s.g.tape.st = .recompute)
    (e : s.target s.g.tape.ret = (v, k)) (hk : k.ok = true) :
    s.endDid f act = (v.jump act s.g.tape.ret).tapeDone f fun t => { t with st := .normal } := by
  have hv : v.g = s.g := by
    have h := (s.sameGrids_target s.g.tape.ret).g
    rwa [e] at h
  unfold State.endDid
  rw [if_neg (by rw [hs]; decide), e]
  split
  · rename_i hw
    cases hw
    cases hk
  · rename_i hw
    cases hw
    rw [if_pos hk, hv]

/-! ### TPOP (R364) -/

theorem Grp.lanesOf_modLanes (g : Grp) (ls : List Nat) (f : Nat → Lane → Lane) (m : Mask) : (g.modLanes ls f).lanesOf m = g.lanesOf m := by
  simp [Grp.lanesOf, Grp.laneIdx]

/-- The record of header h, which is the top one and ends at the tape's top, popped. -/
def State.popped (s : State) (f : VF) (act : Mask) (h : RecHdr) : State :=
  let t := s.g.tape.top - h.size
  let live := h.mask &&& s.g.alive
  let vals (l : Nat) : List Reg := tab h.wpl (s.popValue h t (h.lanes.idxOf l))
  ((popLogged (s.tapeGet (s.g.tape.top - 16) 16).data (s.g.lanesOf live) vals
      (s.modG fun g => g.modLanes (g.lanesOf live) fun l x => x.putRegs g.wb f.d (vals l))).modG fun g =>
    (g.putM f.c.mIdx (BitVec.allOnes 64) (if h.kind = 1 then live else 0) 0).putS f.b.sIdx
      ⟨if h.kind = 1 then ofLe ((s.tapeGet (t + h.pad) 16).data.take 8) else 0, false⟩).modTape fun x =>
    { x with filling := x.fillsOn s.gr.lrec.slice t, top := t, recs := x.recs.dropLast, opMask := act, opPc := s.g.iss.pc, opRet := s.g.retired
             ret := if h.kind = 1 then s.g.iss.bb else x.ret, st := if h.kind = 1 then .recompute else x.st }

theorem met_popLogged (hdr : List Byte) (ls : List Nat) (vals : Nat → List Reg) (s : State) : (popLogged hdr ls vals s).met = s.met := by
  refine (State.foldl_met _ _ _ fun t l => ?_).trans (State.logIn_met _ _ _ _ _)
  exact State.foldl_met _ _ _ fun t r => State.logReg_met t _ _ _

theorem State.met_popped (s : State) (f : VF) (act : Mask) (h : RecHdr) : (s.popped f act h).met = s.met := met_popLogged _ _ _ _

/-- The top record is popped whose values are all clean. -/
theorem State.popTop_pops {s : State} {f : VF} {act : Mask} {h : RecHdr} (hh : recHdr (s.tapeGet (s.g.tape.top - 16) 16) = some h)
    (hw : if h.kind = 1 then h.wpl ≤ f.m % 8 + 1 else h.wpl = f.m % 8 + 1)
    (hp : ∀ l ∈ s.g.lanesOf (h.mask &&& s.g.alive), ∀ r ∈ tab h.wpl (s.popValue h (s.g.tape.top - h.size) (h.lanes.idxOf l)), r.poi = false) :
    s.popTop f act = .done (s.popped f act h) [] := by
  have hfit : ¬(if h.kind = 1 then f.m % 8 + 1 < h.wpl else h.wpl ≠ f.m % 8 + 1) := by
    by_cases hk : h.kind = 1
    · rw [if_pos hk] at hw ⊢
      exact Nat.not_lt.mpr hw
    · rw [if_neg hk] at hw ⊢
      exact not_not_intro hw
  have hbad : ((s.g.lanesOf (h.mask &&& s.g.alive)).filter fun l =>
      (tab h.wpl (s.popValue h (s.g.tape.top - h.size) (h.lanes.idxOf l))).any (·.poi)) = [] :=
    List.filter_eq_nil_iff.mpr fun l hl => by simpa using hp l hl
  unfold State.popTop
  dsimp only
  rw [hh]
  dsimp only
  rw [if_neg hfit, hbad]
  have hfree : ¬(maskOf [] != 0 && s.ptFree.isNone) = true := Bool.false_ne_true
  rw [if_neg hfree, if_pos (show (maskOf [] == 0) = true from rfl), State.g_modG, Grp.lanesOf_modLanes]
  simp only [apply_ite Prod.fst, apply_ite Prod.snd]
  rfl

/-- What TPOP does in its active lanes: a record that is not resident is filled first. -/
def State.popDid (s : State) (f : VF) (act : Mask) : Did :=
  if s.g.tape.top = 0 then .done s (failAll s.g s.g.iss.set { cause := cTapeUnder })
  else if s.g.tape.b < s.g.tape.top then s.popTop f act
  else
    match (s.modTape fun t => { t with opMask := act, opPc := s.g.iss.pc, opRet := s.g.retired }).fillOne true with
    | .done s => s.popTop f act
    | .noPlace s => .stall s .fault
    | .held s => .stall s .tape
    | .wait s => .stall s .fill
    | .over s => .fatal s cMachine 0

theorem exec_tpop (p : Pred) (f : VF) (s : State) :
    exec (.tpop p f) s = s.tapeOp p f true false (· == .normal) fun s act => s.popDid f act := rfl

theorem State.popDid_resident {s : State} {f : VF} {act : Mask} (h : s.g.tape.b < s.g.tape.top) : s.popDid f act = s.popTop f act := by
  rw [State.popDid, if_neg (Nat.ne_zero_of_lt h), if_pos h]

/-! ### The words -/

theorem exec_topen (p : Pred) (f : VF) (s : State) : exec (.topen p f) s =
    s.tapeOp p f true false (· == .closed) fun s _ => s.tapeDone f fun t => { st := .normal, closing := t.closing } := rfl

theorem exec_tmark (p : Pred) (f : VF) (s : State) : exec (.tmark p f) s =
    s.tapeOp p f true true (· == .normal) fun s act => s.push f.sf act 1 (f.m % 16) f.a (some (s.g.iss.pc + 8, s.g.tape.seq + 1)) .span := rfl

theorem exec_tstat (p : Pred) (f : VF) (s : State) : exec (.tstat p f) s =
    s.tapeOp p f false false (fun _ => true) fun s _ => .done (s.setG (s.g.putS f.d.sIdx ⟨s.g.tape.status s.gr.det (f.m % 4), false⟩)) [] := rfl

section
variable {s : State} {p : Pred} {f : VF}

theorem topen_opens (h : tapeRuns s p f (· == .closed)) (hc : conv s p) :
    exec (.topen p f) s = tapeOut f (eff s p) fun t => { st := .normal, closing := t.closing } :=
  (exec_topen p f s).trans (State.tapeOp_completes h (fun _ => hc) nofun rfl rfl)

theorem tclose_closes (h : tapeRuns s p f fun _ => true) (hc : conv s p) (hn : s.g.tape.closing = none) (ho : (eff s p).tapeOut s.foc.grp = false) :
    exec (.tclose p f) s = tapeOut f (eff s p) fun t => if t.st == .closed then t else { seq := t.seq } := by
  rw [exec_tclose]
  refine State.tapeOp_retires h (fun _ => hc) nofun ((State.closeDid_of_none ?_).trans ?_) ?_
  · rw [State.atIssue_tape, hn]
  · rw [State.tapeClose_at_home (by rw [foc_flagged, State.tapeOut_flagStart, ho]) (by rw [tape_flagged, hn])]
  · exact (State.met_flagEnd _ _).trans (State.met_flagStart _ _)

theorem tclose_waits (h : tapeRuns s p f fun _ => true) (hc : conv s p) (hn : s.g.tape.closing = none) (ho : (eff s p).tapeOut s.foc.grp = true)
    (hs : s.g.tape.st ≠ .closed) :
    let v := (eff s p).flagStart ((eff s p).sfNow f.sf)
    exec (.tclose p f) s = retired ((v.1.modPkg fun p => p.tapeDropped s.foc.grp).modTape fun t => { seq := t.seq, closing := v.2 }) := by
  intro v
  rw [exec_tclose]
  refine State.tapeOp_retires h (fun _ => hc) nofun ((State.closeDid_of_none ?_).trans ?_) ?_
  · rw [State.atIssue_tape, hn]
  · rw [State.tapeClose_away (by rw [foc_flagged, State.tapeOut_flagStart, ho]) (by rwa [tape_flagged]), foc_flagged]
  · exact State.met_flagStart _ _

theorem trec_suppressed (h : tapeRuns s p f (· != .closed)) (hs : s.g.tape.st = .span) : exec (.trec p f) s = tapeOut f (eff s p) id := by
  rw [exec_trec]
  refine State.tapeOp_completes h nofun nofun ?_ rfl
  rw [State.recDid, State.atIssue_tape, hs]
  rfl

theorem trec_pushes {v : State} (h : tapeRuns s p f (· != .closed)) (hs : s.g.tape.st ≠ .span)
    (hp : (f.m / 8 % 2 == 1) = true → ∀ r ∈ (eff s p).recordWords f.a (f.m % 8 + 1) (s.allowed p), r.poi = false)
    (hv : pushed (eff s p) v f (s.allowed p) (if f.m / 8 % 2 == 1 then 2 else 0) (f.m % 8 + 1) none s.g.tape.st) :
    exec (.trec p f) s = retired v := by
  rw [exec_trec]
  rw [← State.atIssue_tape s (s.allowed p)] at hs hv
  exact State.tapeOp_retires h nofun nofun (State.recDid_pushes hs hp hv) (State.met_pushed hv)

theorem tmark_pushes {v : State} (h : tapeRuns s p f (· == .normal)) (hc : conv s p)
    (hl : s.g.iss.pc.toNat = s.g.iss.bb.toNat + 8 * blockLen s.g.iss.hdr)
    (hv : pushed (eff s p) v f (s.allowed p) 1 (f.m % 16) (some (s.g.iss.pc + 8, s.g.tape.seq + 1)) .span) : exec (.tmark p f) s = retired v := by
  rw [exec_tmark]
  refine State.tapeOp_retires h (fun _ => hc) (fun _ => hl) ?_ (State.met_pushed hv)
  rw [State.atIssue_tape, State.atIssue_g, Grp.advance_iss]
  exact State.push_fits hv

theorem tpop_pops {h : RecHdr} (hr : tapeRuns s p f (· == .normal)) (hc : conv s p) (hb : s.g.tape.b < s.g.tape.top)
    (hh : recHdr ((eff s p).tapeGet (s.g.tape.top - 16) 16) = some h)
    (hw : if h.kind = 1 then h.wpl ≤ f.m % 8 + 1 else h.wpl = f.m % 8 + 1)
    (hp : ∀ l ∈ (eff s p).g.lanesOf (h.mask &&& (eff s p).g.alive),
      ∀ r ∈ tab h.wpl ((eff s p).popValue h (s.g.tape.top - h.size) (h.lanes.idxOf l)), r.poi = false) :
    exec (.tpop p f) s = retired ((eff s p).popped f (s.allowed p) h) := by
  rw [← State.atIssue_tape s (s.allowed p)] at hb hh hp
  rw [exec_tpop]
  exact State.tapeOp_retires hr (fun _ => hc) nofun ((State.popDid_resident hb).trans (State.popTop_pops hh hw hp)) (State.met_popped _ _ _ _)

theorem tend_span (h : tapeRuns s p f fun st => st == .span || st == .recompute) (hc : conv s p) (hs : s.g.tape.st = .span) :
    exec (.tend p f) s = tapeOut f (eff s p) fun t => { t with st := .normal } := by
  rw [exec_tend]
  refine State.tapeOp_completes h (fun _ => hc) nofun ?_ rfl
  rw [State.endDid, State.atIssue_tape, hs]
  rfl

theorem tend_recompute {v : State} {k : Target} (h : tapeRuns s p f fun st => st == .span || st == .recompute) (hc : conv s p)
    (hs : s.g.tape.st = .recompute) (e : (eff s p).target s.g.tape.ret = (v, k)) (hk : k.ok = true) :
    exec (.tend p f) s = tapeOut f (v.jump (s.allowed p) s.g.tape.ret) fun t => { t with st := .normal } := by
  have hm := (eff s p).met_target s.g.tape.ret
  rw [e] at hm
  rw [exec_tend]
  rw [← State.atIssue_tape s (s.allowed p)] at hs e ⊢
  exact State.tapeOp_completes h (fun _ => hc) nofun (State.endDid_enters hs e hk) hm

theorem tstat_reads (h : tapeRuns s p f fun _ => true) :
    exec (.tstat p f) s = groupOut s p fun g => g.putS f.d.sIdx ⟨s.g.tape.status s.gr.det (f.m % 4), false⟩ := by
  rw [exec_tstat, ← State.atIssue_tape s (s.allowed p), ← State.atIssue_det s (s.allowed p)]
  exact State.tapeOp_retires h nofun nofun rfl rfl

end

/-! ### Transfers in the background (R174) -/

theorem tapeSpill_spills {s : State} {grp : Nat} (hd : (s.focusGrp grp).spillDue = true)
    (hm : unheld s ((s.focusGrp grp).spillToHalf (s.focusGrp grp).g.tape.recs.length).bump) :
    exec (.tapeSpill grp) s = .next ((s.focusGrp grp).spillToHalf (s.focusGrp grp).g.tape.recs.length).bump :=
  congrArg Host.Outcome.next ((if_pos hd).trans (State.unmet_eq hm))

theorem tapeFill_fills {s : State} {grp : Nat} (hd : (s.focusGrp grp).fillDue = true)
    (hm : unheld s ((s.focusGrp grp).fillToHalf (s.focusGrp grp).g.tape.recs.length).bump) :
    exec (.tapeFill grp) s = .next ((s.focusGrp grp).fillToHalf (s.focusGrp grp).g.tape.recs.length).bump :=
  congrArg Host.Outcome.next ((if_pos hd).trans (State.unmet_eq hm))

/-- Settles O46: a tape word whose checks pass comes to its effect, which is a change of the tape that completes at once, a record pushed where
it finds room, or the top record popped; a transfer that is due goes on to the half. -/
theorem tapes : Obligations.Tapes := by
  refine ⟨fun p f s => ⟨topen_opens, fun h hc hn => ⟨tclose_closes h hc hn, tclose_waits h hc hn⟩,
    fun h => ⟨trec_suppressed h, fun hs hp v => trec_pushes h hs hp⟩, fun h hc hl v => tmark_pushes h hc hl, fun hr hc hb h hh hw hp => ?_,
    fun h hc => ⟨tend_span h hc, fun hs v k => tend_recompute h hc hs⟩, tstat_reads⟩, fun grp s => ⟨tapeSpill_spills, tapeFill_fills⟩⟩
  refine (tpop_pops hr hc hb hh hw hp).trans ?_
  simp only [State.popped, State.atIssue_lrec, State.atIssue_g, Grp.advance_tape, Grp.advance_iss, Grp.advance_retired]

end Sys2Proof.Machine
end

section
/-! PROOFS. NOP and branches (O20). -/

namespace Sys2Proof.Machine

open Sys2Proof.Claims

/-! ### NOP (R252) -/

theorem exec_nop (p : Pred) (f : VF) (s : State) : exec (.nop p f) s = s.perform true p (fun _ => true) fun s _ => .done s [] := rfl

theorem nop_retires {s : State} {p : Pred} (f : VF) (h : s.Runs p fun _ => true) : exec (.nop p f) s = retired (eff s p) := by
  rw [exec_nop]
  exact State.perform_done s true p _ _ h (eff s p) rfl (State.atIssue_met s _)

theorem nop_handler {s : State} {p : Pred} (f : VF) (h : s.RunsH p) : exec (.nop p f) s = s.handlerEnd s.atHandler := by
  rw [exec_nop]
  exact State.perform_runsH s p _ _ h rfl s.atHandler rfl rfl

/-! ### A branch to one target (R187, R240 step 2, R253, R410) -/

theorem State.branchTo_ok {s u : State} {act : Mask} {t : W64} {k : Target} (ht : s.target t = (u, k)) (hk : k.ok = true) :
    s.branchTo act t = .done (u.jump act t) [] := by
  unfold State.branchTo
  rw [ht]
  split
  · rename_i e
    cases e
    cases hk
  · rename_i e
    cases e
    rw [if_pos hk]

theorem State.branchTo_bad {s u : State} {act : Mask} {t : W64} (ht : s.target t = (u, .bad)) :
    s.branchTo act t = .done u (failActive u.g act .illHdr) := by
  unfold State.branchTo
  rw [ht]
  rfl

theorem State.jump_lanes {s : State} (h : s.g.iss.handler = false) (act : Mask) (t : W64) : s.jump act t = moved s act t :=
  congrArg s.setG (if_neg (by rw [h]; decide))

theorem State.jump_handler {s : State} (h : s.g.iss.handler = true) (act : Mask) (t : W64) : s.jump act t = movedH s t :=
  congrArg s.setG (if_pos h)

@[simp] theorem State.jump_met (s : State) (act : Mask) (t : W64) : (s.jump act t).met = s.met := State.modG_met _ _

theorem failActive_lanes {g : Grp} (h : g.iss.handler = false) (act : Mask) (f : Fail) : failActive g act f = failAll g act f := by
  unfold failActive
  rw [h]
  rfl

theorem State.target_g {s u : State} {va : W64} {k : Target} (h : s.target va = (u, k)) : u.g = s.g := by
  have hg := (s.sameGrids_target va).g
  rwa [h] at hg

theorem State.target_met {s u : State} {va : W64} {k : Target} (h : s.target va = (u, k)) : u.met = s.met := by
  have hm := s.met_target va
  rwa [h] at hm

theorem State.atIssue_iss (s : State) (m : Mask) : (s.atIssue m).g.iss = s.g.iss := by rw [State.atIssue_g, Grp.advance_iss]

/-- A word whose effect in lanes is a branch to t takes it, or traps there. -/
theorem takesBranch_of_branchTo {i : Instr} {s : State} {p : Pred} {t : W64} (hh : s.g.iss.handler = false)
    (he : exec i s = s.conclude [] ((eff s p).branchTo (s.allowed p) t)) : takesBranch i p t s := by
  have hi {u : State} {k : Target} (ht : (eff s p).target t = (u, k)) : u.g.iss.handler = false := by
    rw [State.target_g ht, State.atIssue_iss, hh]
  have hm {u : State} {k : Target} (ht : (eff s p).target t = (u, k)) : u.met = s.met := (State.target_met ht).trans (State.atIssue_met s _)
  refine ⟨fun u k ht hk => ?_, fun u ht => ?_⟩
  · rw [he, State.branchTo_ok ht hk, ← State.jump_lanes (hi ht)]
    exact State.conclude_done s _ ((State.jump_met _ _ _).trans (hm ht))
  · rw [he, State.branchTo_bad ht, failActive_lanes (hi ht)]
    exact State.conclude_fails s u _ (hm ht)

/-- The same for a handler's word, whose handler stands at the target then. -/
theorem branch_handler {s u : State} {p : Pred} {op : State → Mask → Did} {t : W64} {k : Target} (h : s.RunsH p)
    (ho : op s.atHandler 0#64 = s.atHandler.branchTo 0#64 t) (ht : s.atHandler.target t = (u, k)) (hk : k.ok = true) :
    s.perform true p (fun _ => true) op = s.handlerEnd (movedH u t) := by
  have hi : u.g.iss.handler = true := by rw [State.target_g ht, State.atHandler_g, h.1]
  have hm : u.met = s.atHandler.met := State.target_met ht
  rw [← State.jump_handler hi 0#64]
  exact State.perform_runsH s p _ _ h rfl _ (ho.trans (State.branchTo_ok ht hk)) ((State.jump_met _ _ _).trans hm)

/-! ### BRA and BRU (R253) -/

theorem exec_bra (p : Pred) (f : BF) (s : State) :
    exec (.bra p f) s = s.perform true p (fun _ => true) fun s act => s.branchTo act (targetOf f s) := by
  simp only [← BF.target_eq_targetOf]
  rfl

/-- The test of BRU. -/
def bruGoes (f : BF) (v : Val) : Bool := if f.n = 0 then v.n == 0 else v.n != 0

theorem bruGoes_eq (f : BF) (v : Val) : ((v.n == 0) == (f.n == 0#8)) = bruGoes f v := by
  unfold bruGoes
  by_cases h : f.n = 0
  · simp [h]
  · rw [if_neg h, show (f.n == 0#8) = false from beq_eq_false_iff_ne.mpr h, beq_false]
    rfl

/-- What BRU does in its active lanes. -/
def State.bruDid (s : State) (f : BF) (act : Mask) : Did :=
  if (s.g.sVal f.c.sIdx).poi then .done s (failActive s.g act (.poison f.c))
  else if bruGoes f (s.g.sVal f.c.sIdx) then s.branchTo act (targetOf f s)
  else .done s []

theorem exec_bru (p : Pred) (f : BF) (s : State) : exec (.bru p f) s = s.perform true p (fun _ => true) fun s act => s.bruDid f act := by
  simp only [State.bruDid, ← BF.target_eq_targetOf, ← bruGoes_eq]
  rfl

section
variable {s : State} {f : BF} (act : Mask)

theorem State.bruDid_goes (hp : (s.g.sVal f.c.sIdx).poi = false) (hg : bruGoes f (s.g.sVal f.c.sIdx) = true) :
    s.bruDid f act = s.branchTo act (targetOf f s) := by
  rw [State.bruDid, hp, hg]
  rfl

theorem State.bruDid_passes (hp : (s.g.sVal f.c.sIdx).poi = false) (hg : bruGoes f (s.g.sVal f.c.sIdx) = false) :
    s.bruDid f act = .done s [] := by
  rw [State.bruDid, hp, hg]
  rfl

theorem State.bruDid_poisoned (hp : (s.g.sVal f.c.sIdx).poi = true) : s.bruDid f act = .done s (failActive s.g act (.poison f.c)) := by
  rw [State.bruDid, hp]
  rfl

end

theorem State.sVal_atIssue (s : State) (m : Mask) (i : Nat) : (s.atIssue m).g.sVal i = s.g.sVal i := by rw [State.atIssue_g, Grp.sVal_advance]
theorem State.sVal_atHandler (s : State) (i : Nat) : s.atHandler.g.sVal i = s.g.sVal i := by rw [State.atHandler_g]; rfl
theorem targetOf_atHandler (f : BF) (s : State) : targetOf f s.atHandler = targetOf f s := by rw [targetOf, State.atHandler_g]; rfl

theorem bra_takes {s : State} {p : Pred} (f : BF) (h : s.Runs p fun _ => true) : takesBranch (.bra p f) p (targetOf f s) s :=
  takesBranch_of_branchTo h.1 (by rw [exec_bra, State.perform_runs s true p _ _ h, targetOf_eff])

section
variable {s : State} {p : Pred} {f : BF}

theorem bru_runs (h : s.Runs p fun _ => true) : exec (.bru p f) s = s.conclude [] ((eff s p).bruDid f (s.allowed p)) := by
  rw [exec_bru, State.perform_runs s true p _ _ h]

theorem bru_takes (h : s.Runs p fun _ => true) (hp : (s.g.sVal f.c.sIdx).poi = false) (hg : bruGoes f (s.g.sVal f.c.sIdx) = true) :
    takesBranch (.bru p f) p (targetOf f s) s := by
  rw [← State.sVal_atIssue s (s.allowed p)] at hp hg
  exact takesBranch_of_branchTo h.1 (by rw [bru_runs h, State.bruDid_goes _ hp hg, targetOf_eff])

theorem bru_falls (h : s.Runs p fun _ => true) (hp : (s.g.sVal f.c.sIdx).poi = false) (hg : bruGoes f (s.g.sVal f.c.sIdx) = false) :
    exec (.bru p f) s = retired (eff s p) := by
  rw [← State.sVal_atIssue s (s.allowed p)] at hp hg
  rw [bru_runs h, State.bruDid_passes _ hp hg]
  exact State.conclude_done s _ (State.atIssue_met s _)

theorem bru_poisoned (h : s.Runs p fun _ => true) (hp : (s.g.sVal f.c.sIdx).poi = true) :
    exec (.bru p f) s = trapped (eff s p) (failAll s.g (s.allowed p) (.poison f.c)) := by
  rw [← State.sVal_atIssue s (s.allowed p)] at hp
  rw [bru_runs h, State.bruDid_poisoned _ hp, failActive_lanes (by rw [State.atIssue_iss, h.1]), State.atIssue_g, failAll_advance]
  exact State.conclude_fails s _ _ (State.atIssue_met s _)

variable {u : State} {k : Target}

theorem bra_handler (h : s.RunsH p) (ht : s.atHandler.target (targetOf f s) = (u, k)) (hk : k.ok = true) :
    exec (.bra p f) s = s.handlerEnd (movedH u (targetOf f s)) :=
  (exec_bra p f s).trans (branch_handler h (congrArg _ (targetOf_atHandler f s)) ht hk)

theorem bru_handler_takes (h : s.RunsH p) (ht : s.atHandler.target (targetOf f s) = (u, k)) (hk : k.ok = true)
    (hp : (s.g.sVal f.c.sIdx).poi = false) (hg : bruGoes f (s.g.sVal f.c.sIdx) = true) :
    exec (.bru p f) s = s.handlerEnd (movedH u (targetOf f s)) := by
  rw [← State.sVal_atHandler] at hp hg
  exact (exec_bru p f s).trans (branch_handler h ((State.bruDid_goes _ hp hg).trans (congrArg _ (targetOf_atHandler f s))) ht hk)

theorem bru_handler_falls (h : s.RunsH p) (hp : (s.g.sVal f.c.sIdx).poi = false) (hg : bruGoes f (s.g.sVal f.c.sIdx) = false) :
    exec (.bru p f) s = s.handlerEnd s.atHandler := by
  rw [← State.sVal_atHandler] at hp hg
  exact (exec_bru p f s).trans (State.perform_runsH s p _ _ h rfl _ (State.bruDid_passes _ hp hg) rfl)

end

theorem uniformBranchesHold_holds : uniformBranchesHold :=
  ⟨fun _ f _ => ⟨nop_retires f, nop_handler f⟩,
    fun _ f _ => ⟨fun h => ⟨bra_takes f h, bru_takes h, bru_falls h, bru_poisoned h⟩,
      fun h _ _ ht hk => ⟨bra_handler h ht hk, bru_handler_takes h ht hk, bru_handler_falls h⟩⟩⟩

/-! ### BRX (R253) -/

theorem State.lookAll_met (s : State) (ts : List (Nat × W64)) : (s.lookAll ts).1.met = s.met := by
  unfold State.lookAll
  refine List.foldlRecOn (motive := fun a : State × List (Nat × W64 × Target) × List Nat => a.1.met = s.met) ts _ rfl fun a ha t _ => ?_
  have ht := a.1.met_target t.2
  split
  · rename_i e
    rw [e] at ht
    exact ht.trans ha
  · rename_i e
    rw [e] at ht
    exact ht.trans ha

/-- What BRX does in its active lanes. -/
def State.brxDid (s : State) (f : BF) (act : Mask) : Did :=
  let ls := s.g.lanesOf act
  let bad := (ls.filter fun l => (s.rd l .b64 f.c).poi).map fun l => (l, Fail.poison f.c)
  let r := s.lookAll ((ls.filter fun l => !(s.rd l .b64 f.c).poi).map fun l => (l, BitVec.ofNat 64 (s.rd l .b64 f.c).n))
  if !r.2.2.isEmpty then .stall r.1 (.reply r.2.2)
  else
    .done ((r.2.1.filter fun x => x.2.2.ok).foldl (fun s x => s.jump (bitMask x.1) x.2.1) r.1)
      (bad ++ (r.2.1.filter fun x => !x.2.2.ok).map fun x => (x.1, Fail.illHdr))

theorem exec_brx (p : Pred) (f : BF) (s : State) :
    exec (.brx p f) s = s.perform false p (s.opsOk [(f.c, 2)]) fun s act => s.brxDid f act := rfl

theorem laneBranchesHold_holds : laneBranchesHold := by
  intro p f s u xs h ls poi el t fails
  have hd : (eff s p).brxDid f (s.allowed p) = .done t fails := by
    unfold State.brxDid
    simp only [State.rd_atIssue, State.atIssue_g, Grp.lanesOf_advance]
    rw [el]
    rfl
  have hu : u.met = s.met := by
    have hm := State.lookAll_met (eff s p) ((ls.filter fun l => !poi l).map fun l => (l, BitVec.ofNat 64 (s.rd l .b64 f.c).n))
    rw [el] at hm
    exact hm.trans (State.atIssue_met s _)
  have ht : t.met = s.met := (State.foldl_met _ _ u fun s x => State.jump_met s _ _).trans hu
  have hx : exec (.brx p f) s = trapped t fails := by
    rw [exec_brx, State.perform_runs s false p _ _ h, hd]
    exact State.conclude_fails s t fails ht
  refine ⟨hx, fun hn => ?_⟩
  rw [hx, hn]
  rfl

/-- Settles O20: a branch is the shared transfer to a target, in lanes or in a handler; BRX makes it lane by lane. -/
theorem branches : Obligations.Branches := ⟨uniformBranchesHold_holds, laneBranchesHold_holds⟩

end Sys2Proof.Machine
end

section
/-! PROOFS. EXIT, YIELD, WAITF and BKPT (O22). -/

namespace Sys2Proof.Machine

open Sys2Proof.Claims

/-! ### EXIT and YIELD (R256, R257) -/

/-- The lanes of a mask exited, and out of the poison table (R256, R419). -/
def State.exitLanes (s : State) (act : Mask) : State :=
  (s.ptClear (fun _ => true) act).modG fun g => g.modLanes (g.lanesOf act) fun _ x => { x with st := .exited, wait := .none }

theorem exec_exit (p : Pred) (f : VF) (s : State) :
    exec (.exit p f) s = s.perform false p (fun _ => true) fun s act => .done (s.exitLanes act) [] := rfl

theorem exec_yield (p : Pred) (f : VF) (s : State) :
    exec (.yield p f) s = s.once false p (fun _ => true) fun _ _ g => { g with yielded := true, yieldAge := 0 } := rfl

theorem exit_exits {s : State} {p : Pred} (f : VF) (h : s.Runs p fun _ => true) :
    exec (.exit p f) s = retired ((eff s p).exitLanes (s.allowed p)) := by
  rw [exec_exit]
  exact State.perform_done s false p _ _ h ((eff s p).exitLanes (s.allowed p)) rfl (State.atIssue_met s _)

theorem yield_passes {s : State} {p : Pred} (f : VF) (h : s.Runs p fun _ => true) :
    exec (.yield p f) s = groupOut s p fun g => { g with yielded := true, yieldAge := 0 } := by
  rw [exec_yield]
  exact State.once_eq_groupOut false _ h

/-! ### WAITF (R259) -/

theorem Grp.advance_flag (g : Grp) (i : Nat) : g.advance.flag i = g.flag i := by rw [Grp.flag, Grp.advance, Grp.modLanes_flags, Grp.flag]

theorem Grp.flagsOff_setWidth (g : Grp) (m : W32) : g.flagsOff (m.setWidth 12) = true ↔ ∀ i, i < 12 → m.getLsbD i = true → g.flag i = 0 := by
  simp only [Grp.flagsOff, List.all_eq_true, List.mem_range, BitVec.getLsbD_setWidth, Bool.or_eq_true, Bool.not_eq_true', beq_iff_eq]
  refine forall_congr' fun i => forall_congr' fun hi => ?_
  rw [decide_eq_true hi, Bool.true_and, ← Bool.not_eq_true, ← imp_iff_not_or]

/-- What WAITF does at its issue. -/
def State.waitfDid (s : State) (m : BitVec 12) : Did := if s.g.flagsOff m then .done s [] else s.flagWait m

theorem exec_waitf (p : Pred) (f : IF) (s : State) :
    exec (.waitf p f) s = s.perform false p (fun _ => true) fun s _ => s.waitfDid (f.imm.setWidth 12) := rfl

theorem waitf_runs {s : State} {p : Pred} (f : IF) (h : s.Runs p fun _ => true) :
    exec (.waitf p f) s = s.conclude [] ((eff s p).waitfDid (f.imm.setWidth 12)) := by
  rw [exec_waitf, State.perform_runs s false p _ _ h]

section
variable {s : State} {p : Pred} {f : IF}

theorem waitf_clear (h : s.Runs p fun _ => true) (hf : ∀ i, i < 12 → f.imm.getLsbD i = true → s.g.flag i = 0) :
    exec (.waitf p f) s = retired (eff s p) := by
  have ho : (eff s p).g.flagsOff (f.imm.setWidth 12) = true := (Grp.flagsOff_setWidth _ _).mpr fun i hi hb => by
    rw [State.atIssue_g, Grp.advance_flag, hf i hi hb]
  rw [waitf_runs f h, State.waitfDid, if_pos ho]
  exact State.conclude_done s _ (State.atIssue_met s _)

theorem waitf_waits (h : s.Runs p fun _ => true) (hf : ∃ i, i < 12 ∧ f.imm.getLsbD i = true ∧ s.g.flag i ≠ 0)
    (hs : (eff s p).flagStuck (f.imm.setWidth 12) = false) : exec (.waitf p f) s = .next s := by
  obtain ⟨i, hi, hb, hn⟩ := hf
  have ho : ¬(eff s p).g.flagsOff (f.imm.setWidth 12) = true := fun h => hn (by
    rw [← Grp.advance_flag, ← State.atIssue_g s (s.allowed p)]
    exact (Grp.flagsOff_setWidth _ _).mp h i hi hb)
  rw [waitf_runs f h, State.waitfDid, if_neg ho, State.flagWait, hs]
  rfl

end

theorem exitYieldWaitHold_holds : exitYieldWaitHold :=
  ⟨fun _ f _ h => ⟨exit_exits f h, yield_passes f h⟩, fun _ _ _ h => ⟨waitf_clear h, waitf_waits h⟩⟩

/-! ### BKPT (R258, R439) -/

theorem State.ptIssued_ctxs (s : State) (m : Mask) : (s.ptIssued m).ctxs = s.ctxs := by
  unfold State.ptIssued
  split <;> rfl

theorem State.atIssue_c (s : State) (m : Mask) : (s.atIssue m).c = s.c := by
  rw [State.c, State.atIssue_foc, State.ctxAt, State.atIssue, State.debitAt_ctxs, State.ptIssued_ctxs]
  rfl

/-- A group that moves to its next word changes its lanes alone. -/
theorem Grp.advance_eq (g : Grp) : ∃ x, g.advance = { g with lanes := x } := g.modLanes_eq _ _

theorem Grp.advance_stepOver (g : Grp) : g.advance.stepOver = g.stepOver := by
  obtain ⟨x, h⟩ := g.advance_eq
  rw [h]

/-- What BKPT does at its issue. -/
def State.bkptDid (s : State) (f : IF) : Did :=
  if s.c.dbgBken && s.g.stepOver != some (s.g.iss.pc, s.g.retired) then .stall (s.stopGroup s.foc.grp (some f.imm)) .none
  else .done (s.modG fun g => { g with stepOver := none }) []

theorem exec_bkpt (p : Pred) (f : IF) (s : State) : exec (.bkpt p f) s = s.perform false p (fun _ => true) fun s _ => s.bkptDid f := rfl

theorem bkpt_runs {s : State} {p : Pred} (f : IF) (h : s.Runs p fun _ => true) : exec (.bkpt p f) s = s.conclude [] ((eff s p).bkptDid f) := by
  rw [exec_bkpt, State.perform_runs s false p _ _ h]

theorem State.bkptDid_atIssue (s : State) (f : IF) (m : Mask) : (s.atIssue m).bkptDid f =
    if s.c.dbgBken && s.g.stepOver != some (s.g.iss.pc, s.g.retired) then .stall ((s.atIssue m).stopGroup s.foc.grp (some f.imm)) .none
    else .done ((s.atIssue m).modG fun g => { g with stepOver := none }) [] := by
  rw [State.bkptDid, State.atIssue_c, State.atIssue_g, Grp.advance_stepOver, Grp.advance_iss, Grp.advance_retired, State.atIssue_foc]

theorem breakpointsHold_holds : breakpointsHold := by
  intro p f s h here
  rw [bkpt_runs f h, State.bkptDid_atIssue]
  refine ⟨fun hn => ?_, fun hb hn => ?_⟩
  · have hc : ¬(s.c.dbgBken && s.g.stepOver != here) = true := by
      obtain hb | hs := hn
      · rw [hb, Bool.false_and]
        exact Bool.false_ne_true
      · rw [hs, bne_self_eq_false, Bool.and_false]
        exact Bool.false_ne_true
    rw [if_neg hc]
    exact State.conclude_done s _ (State.atIssue_met s _)
  · rw [if_pos (by rw [hb, Bool.true_and]; exact bne_iff_ne.mpr hn)]
    rfl

/-- Settles O22: each word runs in its lanes as its effect says; a breakpoint stops the group unless it was stopped there before. -/
theorem laneControl : Obligations.LaneControl := ⟨exitYieldWaitHold_holds, breakpointsHold_holds⟩

end Sys2Proof.Machine
end

section
/-! PROOFS. Splits, fusions and gangs (O30). -/

namespace Sys2Proof.Machine

open Sys2Proof.Claims

/-! ### An issue that counts, and in which nothing fails (R152, R189) -/

/-- The group in focus as such an issue leaves it. -/
def Grp.issued (g : Grp) : Grp :=
  { g.countRot with retired := g.countRot.retired + 1, stall := .none, afterStall := false, replies := [], readyFor := 0 }

theorem State.logState_groups (s : State) : s.logState.groups = s.groups := by
  unfold State.logState
  split <;> rfl

theorem State.logState_foc (s : State) : s.logState.foc = s.foc := by
  unfold State.logState
  split <;> rfl

theorem Grp.keepPc_nil (g : Grp) : g.keepPc (keptLanes []) = g := by
  rw [show keptLanes [] = 0#64 from rfl, Grp.keepPc, Grp.lanesOf_zero]
  rfl

theorem State.retire_eq {s : State} (h : s.g.counts [] = true) :
    s.retire = (((s.setG s.g.issued).bump.count s.foc.ctx 1 1)).logState := by
  have ho : s.owe [] = s := by
    unfold State.owe
    rw [h, Bool.not_true, Bool.and_false, Bool.false_and]
    rfl
  rw [State.retire, State.endIssue, ho, h, State.finish, Grp.keepPc_nil]
  rfl

theorem State.retire_foc {s : State} (h : s.g.counts [] = true) : s.retire.foc = s.foc := by
  rw [State.retire_eq h, State.logState_foc, (State.calm_count _ _ _ _).foc]
  rfl

theorem State.retire_groups {s : State} (h : s.g.counts [] = true) : s.retire.groups = s.groups.set s.foc.grp s.g.issued := by
  rw [State.retire_eq h, State.logState_groups, (State.calm_count _ _ _ _).groups]
  rfl

theorem State.grpAt_retire {s : State} (h : s.g.counts [] = true) (k : Nat) :
    s.retire.grpAt k = if s.foc.grp = k then s.g.issued else s.grpAt k := by
  rw [State.grpAt, State.retire_groups h, KMap.get_set]
  rfl

theorem State.g_retire {s : State} (h : s.g.counts [] = true) : s.retire.g = s.g.issued := by
  rw [State.g, State.grpAt_retire h, State.retire_foc h, if_pos rfl]

theorem Grp.countRot_eq (g : Grp) : ∃ x, g.countRot = { g with lanes := x } := g.modLanes_eq _ _

theorem Grp.issued_shape (g : Grp) : g.issued.phase = g.phase ∧ g.issued.parts = g.parts ∧ g.issued.retired = g.retired + 1 := by
  obtain ⟨x, h⟩ := g.countRot_eq
  rw [Grp.issued, h]
  exact ⟨rfl, rfl, rfl⟩

/-! ### An issue whose lanes run counts (R152) -/

theorem Grp.barWaits_running {g : Grp} (h : ∀ l ∈ g.lanesOf g.iss.set, (g.lane l).st = .running) : g.barWaits = 0#64 := by
  have hn : ∀ q : Nat → Bool, ((g.lanesOf g.iss.set).filter fun l => (g.lane l).st == .waiting && q l) = [] := fun q =>
    List.filter_eq_nil_iff.mpr fun l hl => by rw [h l hl]; exact Bool.false_ne_true
  exact congrArg maskOf (hn _)

theorem Grp.counts_running {g : Grp} (h : ∀ l ∈ g.lanesOf g.iss.set, (g.lane l).st = .running) (hs : g.iss.set ≠ 0#64) : g.counts [] = true :=
  g.counts_nil (by rwa [Grp.barWaits_running h, BitVec.not_zero, BitVec.and_allOnes])

theorem State.Runs.set_ne {s : State} {p : Pred} {chk : Nat → Bool} (h : s.Runs p chk) : s.g.iss.set ≠ 0#64 := fun h0 =>
  h.2.1 (by rw [State.allowed, h0, BitVec.zero_and])

theorem Grp.running_advance {g : Grp} (h : ∀ l ∈ g.lanesOf g.iss.set, (g.lane l).st = .running) :
    ∀ l ∈ g.advance.lanesOf g.advance.iss.set, (g.advance.lane l).st = .running := by
  intro l hl
  rw [Grp.lanesOf_advance, Grp.advance_iss] at hl
  rw [Grp.advance_lane]
  exact h l hl

/-! ### GSPLIT (R192, R193, R274) -/

/-- A group split into n parts (R193). -/
def State.split (s : State) (n : Nat) : State :=
  let ids := tab n fun i => s.nextId + i
  ({ s with nextId := s.nextId + n, groups := ids.foldl (fun gs id => gs.set id (s.g.partOf s.foc.grp n (id - s.nextId))) s.groups } : State).setG
    { s.g with phase := .split, parts := ids, guard := none, overruns := [] }

/-- What GSPLIT into n parts does in its active lanes. -/
def State.gsplitDid (s : State) (n : Nat) (act : Mask) : Did :=
  if !s.g.flagsClear then s.flagWait (BitVec.allOnes 12)
  else if s.g.alive &&& ~~~act != 0 || s.g.gw / n < 8 || s.gr.lrec.split < s.g.factor * n || !s.g.frames.isEmpty || !s.g.gang.isEmpty then
    .done s (failAll s.g s.g.iss.set .opndLate)
  else .done (s.split n) []

theorem exec_gsplit (p : Pred) (f : IF) (s : State) :
    exec (.gsplit p f) s = s.performWide p (fun _ => true) fun s act => s.gsplitDid f.imm.toNat act := rfl

theorem State.gsplitDid_splits {s : State} {n : Nat} {act : Mask} (hf : s.g.flagsClear = true) (ha : s.g.alive &&& ~~~act = 0) (hw : 8 ≤ s.g.gw / n)
    (hs : s.g.factor * n ≤ s.gr.lrec.split) (hr : s.g.frames = []) (hg : s.g.gang = []) : s.gsplitDid n act = .done (s.split n) [] := by
  have hc : ¬(s.g.alive &&& ~~~act != 0 || decide (s.g.gw / n < 8) || decide (s.gr.lrec.split < s.g.factor * n) || !s.g.frames.isEmpty ||
      !s.g.gang.isEmpty) = true := by
    simp [ha, hr, hg, hw, hs]
  rw [State.gsplitDid, hf, if_neg (by decide), if_neg hc]

theorem Grp.alive_advance (g : Grp) : g.advance.alive = g.alive := by
  have hi : g.advance.laneIdx = g.laneIdx := congrArg List.range (Grp.modLanes_gw _ _ _)
  simp only [Grp.alive, hi, Grp.advance_lane]

theorem State.atIssue_nextId (s : State) (m : Mask) : (s.atIssue m).nextId = s.nextId := by
  unfold State.atIssue State.ptIssued
  split <;> rfl

theorem State.split_g (s : State) (n : Nat) :
    (s.split n).g = { s.g with phase := .split, parts := tab n fun i => s.nextId + i, guard := none, overruns := [] } := State.g_setG _ _

theorem State.split_foc (s : State) (n : Nat) : (s.split n).foc = s.foc := rfl

/-- Entries that stand at consecutive keys. -/
theorem KMap.get_foldl_set {α : Type} (m : KMap α) (d : α) (f : Nat → α) (b n q : Nat) (h : q < n) :
    KMap.get ((tab n fun i => b + i).foldl (fun m k => KMap.set m k (f k)) m) d (b + q) = f (b + q) := by
  induction n with
  | zero => exact absurd h (Nat.not_lt_zero _)
  | succ n ih =>
    rw [tab, List.range_succ, List.map_append, List.foldl_append]
    show KMap.get (KMap.set _ (b + n) (f (b + n))) d (b + q) = _
    rw [KMap.get_set]
    split
    · rename_i e
      rw [e]
    · exact ih (by omega)

/-- The group at a part's handle after a split. -/
theorem State.split_part {s : State} {n q : Nat} (hq : q < n) (hk : s.foc.grp < s.nextId) :
    (s.split n).grpAt (s.nextId + q) = s.g.partOf s.foc.grp n q := by
  unfold State.split State.setG
  rw [State.grpAt_setGrpAt, if_neg (by show ¬s.foc.grp = s.nextId + q; omega)]
  exact (KMap.get_foldl_set s.groups Grp.blank (fun id => s.g.partOf s.foc.grp n (id - s.nextId)) s.nextId n q hq).trans
    (by rw [Nat.add_sub_cancel_left])

theorem Grp.partOf_lane {g : Grp} {k n q l : Nat} (hl : l < g.gw / n) :
    (g.partOf k n q).lane l = { g.lane (q * (g.gw / n) + l) with rot := 0 } :=
  tab_getD (fun l => ({ g.lane (q * (g.gw / n) + l) with rot := 0 } : Lane)) _ hl

/-- A part is made of the group at its next word as it would be of the group at its issue, but for the lanes' PCs. -/
theorem Grp.partOf_advance (g : Grp) (k n q : Nat) : ∃ ls, g.advance.partOf k n q = { g.partOf k n q with lanes := ls } := by
  obtain ⟨x, h⟩ := g.advance_eq
  rw [h]
  exact ⟨_, rfl⟩

theorem Grp.partOf_advance_lane {g : Grp} {k n q l : Nat} (hl : l < g.gw / n) :
    ((g.advance.partOf k n q).lane l).v = (g.lane (q * (g.gw / n) + l)).v ∧
      ((g.advance.partOf k n q).lane l).fpl = (g.lane (q * (g.gw / n) + l)).fpl := by
  have hw : g.advance.gw = g.gw := Grp.modLanes_gw _ _ _
  rw [Grp.partOf_lane (by rwa [hw]), hw, Grp.advance_lane]
  exact ⟨rfl, rfl⟩

theorem getLsbD_widthMask {w l : Nat} (hl : l < w) (h64 : l < 64) : (widthMask w).getLsbD l = true := by
  rw [widthMask, BitVec.getLsbD_ofNat, Nat.testBit_two_pow_sub_one, decide_eq_true hl, decide_eq_true h64]
  rfl

theorem Grp.partOf_mBits {g : Grp} {k n q i l : Nat} (h0 : 0 < i) (h8 : i < 8) (hl : l < g.gw / n) (h64 : q * (g.gw / n) + l < 64) :
    ((g.partOf k n q).mBits i).getLsbD l = (g.mBits i).getLsbD (q * (g.gw / n) + l) := by
  have hb : bankGet (g.partOf k n q).m ({} : MReg) i =
      { bits := ((bankGet g.m {} i).bits >>> (q * (g.gw / n))) &&& widthMask (g.gw / n),
        poi := ((bankGet g.m {} i).poi >>> (q * (g.gw / n))) &&& widthMask (g.gw / n) } := tab_getD _ _ h8
  rw [Grp.mBits, if_neg (Nat.ne_of_gt h0), hb, Grp.mBits, if_neg (Nat.ne_of_gt h0), BitVec.getLsbD_and, BitVec.getLsbD_ushiftRight,
    getLsbD_widthMask hl (by omega), Bool.and_true]

section
variable {s : State} {p : Pred} {f : IF} (hr : s.Runs p fun _ => true)
include hr

theorem gsplit_splits (hf : s.g.flagsClear = true) (ha : s.g.alive &&& ~~~(s.allowed p) = 0) (hw : 8 ≤ s.g.gw / f.imm.toNat)
    (hs : s.g.factor * f.imm.toNat ≤ s.gr.lrec.split) (hfr : s.g.frames = []) (hga : s.g.gang = []) :
    exec (.gsplit p f) s = .next ((eff s p).split f.imm.toNat).retire := by
  obtain ⟨ls, hadv⟩ := s.g.advance_eq
  have hg : (eff s p).g = { s.g with lanes := ls } := (State.atIssue_g s _).trans hadv
  have hal : (eff s p).g.alive = s.g.alive := by rw [State.atIssue_g, Grp.alive_advance]
  have hd : (eff s p).gsplitDid f.imm.toNat (s.allowed p) = .done ((eff s p).split f.imm.toNat) [] :=
    State.gsplitDid_splits (by rwa [hg]) (by rwa [hal]) (by rwa [hg]) (by rwa [hg, State.atIssue_lrec]) (by rwa [hg]) (by rwa [hg])
  rw [exec_gsplit, State.performWide_runs s p _ _ hr, hd]
  exact State.conclude_done s _ (State.atIssue_met s _)

theorem split_counts (hrun : running s) (n : Nat) : ((eff s p).split n).g.counts [] = true := by
  rw [State.split_g, State.atIssue_g]
  exact Grp.counts_running (g := s.g.advance) (Grp.running_advance hrun) (by rw [Grp.advance_iss]; exact hr.set_ne)

/-- A split that retires leaves its parts as it made them. -/
theorem split_retire_part (hrun : running s) (hk : s.foc.grp < s.nextId) {n q : Nat} (hq : q < n) :
    ((eff s p).split n).retire.grpAt (s.nextId + q) = s.g.advance.partOf s.foc.grp n q := by
  have hn : (eff s p).foc.grp < (eff s p).nextId := by rwa [State.atIssue_foc, State.atIssue_nextId]
  have hpart := State.split_part hq hn
  rw [State.atIssue_nextId, State.atIssue_foc, State.atIssue_g] at hpart
  rw [State.grpAt_retire (split_counts hr hrun n), if_neg, hpart]
  rw [State.split_foc, State.atIssue_foc]
  omega

end

theorem splitHold_holds : splitHold := by
  intro p f s q hr hrun hq _ hk hf ha hw hs hfr hga
  have hc := split_counts hr hrun f.imm.toNat
  obtain ⟨hph, hpa, hre⟩ := Grp.issued_shape ((eff s p).split f.imm.toNat).g
  refine ⟨_, gsplit_splits hr hf ha hw hs hfr hga, ?_, ?_, ?_, ?_⟩
  · rw [State.g_retire hc, hph, State.split_g]
  · rw [State.g_retire hc, hre, State.split_g, State.atIssue_g, Grp.advance_retired]
  · rw [State.g_retire hc, hpa, State.split_g, State.atIssue_nextId]
  · intro x w
    have hx : x = s.g.advance.partOf s.foc.grp f.imm.toNat q := split_retire_part hr hrun hk hq
    obtain ⟨ls, hls⟩ := s.g.partOf_advance s.foc.grp f.imm.toNat q
    rw [hx, hls]
    refine ⟨rfl, rfl, rfl, rfl, rfl, rfl, rfl, rfl, rfl, rfl, rfl, rfl, fun l hl => ?_, fun i l h0 h8 hl h64 => ?_⟩
    · rw [← hls]
      exact Grp.partOf_advance_lane hl
    · exact Grp.partOf_mBits (k := s.foc.grp) h0 h8 hl h64

/-! ### GFUSE and GANG (R194, R196, R275, R276) -/

/-- What GFUSE does in its active lanes. -/
def State.gfuseDid (s : State) (act : Mask) : Did :=
  if s.g.parent.isNone || !s.g.frames.isEmpty then .done s (failAll s.g act .opndLate)
  else .done (s.modG fun g => g.modLanes (g.lanesOf act) fun _ x => { x with st := .waiting, wait := .gfuse }) []

theorem exec_gfuse (p : Pred) (f : VF) (s : State) : exec (.gfuse p f) s = s.perform false p (fun _ => true) fun s act => s.gfuseDid act := rfl

/-- The members that the register of a GANG spells (R276). -/
def Grp.gangList (g : Grp) (f : VF) : List Nat := tab f.m fun i => bitsAt (g.sVal f.a.sIdx).n (8 * i) 8

/-- What GANG does in its active lanes. -/
def State.gangDid (s : State) (f : VF) (act : Mask) : Did :=
  if f.m = 0 then .done (s.modG fun g => { g with gang := [] }) []
  else if (s.g.sVal f.a.sIdx).poi then .done s (failAll s.g act (.poison f.a))
  else if s.gr.lrec.gw0 = 8 || s.gr.lrec.gw0 = 16 || s.g.parent.isSome || (s.g.gangList f).any (fun i => s.gr.lrec.ngroups ≤ i)
      || (s.g.gangList f).eraseDups.length ≠ f.m || !(s.g.gangList f).contains s.g.idx then
    .done s (failAll s.g act .opndLate)
  else .done (s.modG fun g => { g with gang := s.g.gangList f }) []

theorem exec_gang (p : Pred) (f : VF) (s : State) : exec (.gang p f) s = s.perform false p (fun _ => true) fun s act => s.gangDid f act := rfl

theorem eraseDups_of_nodup {α : Type} [BEq α] [LawfulBEq α] {l : List α} (h : l.Nodup) : l.eraseDups = l := by
  induction l with
  | nil => exact List.eraseDups_nil
  | cons a l ih =>
    obtain ⟨ha, hl⟩ := List.nodup_cons.mp h
    have hf : (l.filter fun b => !b == a) = l := List.filter_eq_self.mpr fun b hb => by
      simpa using fun e : b = a => ha (e ▸ hb)
    rw [List.eraseDups_cons, hf, ih hl]

theorem State.gangDid_sets {s : State} {f : VF} (act : Mask) (hm : f.m ≠ 0) (hv : (s.g.sVal f.a.sIdx).poi = false) (h8 : s.gr.lrec.gw0 ≠ 8)
    (h16 : s.gr.lrec.gw0 ≠ 16) (hp : s.g.parent = none) (hn : ∀ i ∈ s.g.gangList f, i < s.gr.lrec.ngroups) (hd : (s.g.gangList f).Nodup)
    (hi : s.g.idx ∈ s.g.gangList f) : s.gangDid f act = .done (s.modG fun g => { g with gang := s.g.gangList f }) [] := by
  have hlen : (s.g.gangList f).eraseDups.length = f.m := by rw [eraseDups_of_nodup hd, Grp.gangList, tab_length]
  have hany : ((s.g.gangList f).any fun i => decide (s.gr.lrec.ngroups ≤ i)) = false :=
    List.any_eq_false.mpr fun i h => by simpa using hn i h
  rw [State.gangDid, if_neg hm, hv, if_neg Bool.false_ne_true, if_neg]
  simp [h8, h16, hp, hany, hlen, hi]

section
variable {s : State} {p : Pred} {f : VF} (h : s.Runs p fun _ => true)
include h

theorem gfuse_waits (hp : s.g.parent.isSome = true) (hf : s.g.frames = []) :
    exec (.gfuse p f) s = lanesOut s p fun _ x => { x with st := .waiting, wait := .gfuse } := by
  have hc : ¬((eff s p).g.parent.isNone || !(eff s p).g.frames.isEmpty) = true := by
    rw [State.atIssue_g, Grp.advance_parent, Grp.advance_frames, hf]
    simpa using Option.isSome_iff_ne_none.mp hp
  rw [exec_gfuse, State.perform_runs s false p _ _ h, State.gfuseDid, if_neg hc]
  exact State.conclude_done s _ (State.atIssue_met s _)

theorem gfuse_traps (hp : s.g.parent.isNone = true ∨ s.g.frames ≠ []) :
    exec (.gfuse p f) s = trapped (eff s p) (failAll s.g (s.allowed p) .opndLate) := by
  have hc : ((eff s p).g.parent.isNone || !(eff s p).g.frames.isEmpty) = true := by
    rw [State.atIssue_g, Grp.advance_parent, Grp.advance_frames]
    simpa using hp
  rw [exec_gfuse, State.perform_runs s false p _ _ h, State.gfuseDid, if_pos hc, State.atIssue_g, failAll_advance]
  exact State.conclude_fails s _ _ (State.atIssue_met s _)

theorem gang_clears (hm : f.m = 0) : exec (.gang p f) s = groupOut s p fun g => { g with gang := [] } := by
  rw [exec_gang, State.perform_runs s false p _ _ h, State.gangDid, if_pos hm]
  exact State.conclude_done s _ (State.atIssue_met s _)

theorem gang_sets (hm : f.m ≠ 0) (hv : (s.g.sVal f.a.sIdx).poi = false) (h8 : s.gr.lrec.gw0 ≠ 8)
    (h16 : s.gr.lrec.gw0 ≠ 16) (hp : s.g.parent = none) (hn : ∀ i ∈ s.g.gangList f, i < s.gr.lrec.ngroups) (hd : (s.g.gangList f).Nodup)
    (hi : s.g.idx ∈ s.g.gangList f) : exec (.gang p f) s = groupOut s p fun g => { g with gang := s.g.gangList f } := by
  have hg : (eff s p).g.gangList f = s.g.gangList f := by rw [Grp.gangList, State.atIssue_g, Grp.sVal_advance, Grp.gangList]
  rw [exec_gang, State.perform_runs s false p _ _ h, State.gangDid_sets _ hm, hg]
  · exact State.conclude_done s _ (State.atIssue_met s _)
  · rw [State.atIssue_g, Grp.sVal_advance, hv]
  · rwa [State.atIssue_lrec]
  · rwa [State.atIssue_lrec]
  · rw [State.atIssue_g, Grp.advance_parent, hp]
  · rwa [hg, State.atIssue_lrec]
  · rwa [hg]
  · rwa [hg, State.atIssue_idx]

end

/-! ### FUSION (R195) -/

theorem State.logIn_groups (s : State) (k : LogKind) (a : Nat) (d : List Byte) (p : List Bool) : (s.logIn k a d p).groups = s.groups := by
  unfold State.logIn
  split <;> rfl

theorem State.logWords_groups (s : State) (i : Nat) (rs : List Reg) : (s.logWords i rs).groups = s.groups :=
  List.foldlRecOn (motive := fun t : State => t.groups = s.groups) _ _ rfl fun _ h _ _ => (State.logIn_groups _ _ _ _ _).trans h

theorem State.logFuse_groups (s : State) : s.logFuse.groups = s.groups :=
  (State.logWords_groups _ _ _).trans
    (List.foldlRecOn (motive := fun t : State => t.groups = s.groups) _ _ rfl fun _ h _ _ => (State.logWords_groups _ _ _).trans h)

/-- The groups after a fusion of k: the fused group in its place, and its parts retired. -/
def fusedGroups (s : State) (k : Nat) (crossed : Bool) : KMap Grp :=
  (s.groups.set k { (s.grpAt k).fusedOf ((s.grpAt k).parts.map s.grpAt) with crossed }).update fun j q =>
    if (s.grpAt k).parts.contains j then { q with phase := .retired, fused := q.phase != GrpPhase.retired } else q

theorem execFusion_groups {s : State} {k : Nat} (h : s.fusionReady k = true) :
    ∃ t crossed, exec (.fusion k) s = .next t ∧ t.groups = fusedGroups s k crossed :=
  ⟨_, _, if_pos h, State.logFuse_groups _⟩

theorem KMap.find_isSome_of_mem_keys {α : Type} {m : KMap α} {k : Nat} (h : k ∈ m.keys) : (KMap.find m k).isSome = true := by
  induction m with
  | nil => cases h
  | cons e t ih =>
    obtain ⟨a, x⟩ := e
    unfold KMap.find
    by_cases e : a = k
    · rw [if_pos e]
      rfl
    · rw [if_neg e]
      exact ih ((List.mem_cons.mp h).resolve_left (Ne.symm e))

theorem fusedGroups_self {s : State} {k : Nat} {crossed : Bool} (d : Grp) (h : k ∉ (s.grpAt k).parts) :
    (fusedGroups s k crossed).get d k = { (s.grpAt k).fusedOf ((s.grpAt k).parts.map s.grpAt) with crossed } := by
  rw [KMap.get, fusedGroups, KMap.find_update, KMap.find_set, if_pos rfl, Option.map_some, Option.getD_some, if_neg (by simpa using h)]

theorem fusedGroups_part {s : State} {k j : Nat} {crossed : Bool} (d : Grp) (hj : j ∈ (s.grpAt k).parts) (hk : j ∈ s.groups.keys) :
    ((fusedGroups s k crossed).get d j).phase = .retired := by
  have hs : ∀ x : Grp, (KMap.find (s.groups.set k x) j).isSome = true := fun x => by
    rw [KMap.find_set]
    split
    · rfl
    · exact KMap.find_isSome_of_mem_keys hk
  obtain ⟨x, hx⟩ := Option.isSome_iff_exists.mp (hs _)
  rw [KMap.get, fusedGroups, KMap.find_update, hx, Option.map_some, Option.getD_some, if_pos (by simpa using hj)]

theorem fusion_joins {s : State} {k : Nat} (h : s.fusionReady k = true) :
    ∃ t, exec (.fusion k) s = .next t ∧
      (k ∉ (s.grpAt k).parts → { t.grpAt k with image := [], logSeen := [], crossed := false } =
        { (s.grpAt k).fusedOf ((s.grpAt k).parts.map s.grpAt) with image := [], logSeen := [], crossed := false }) ∧
      ∀ j ∈ (s.grpAt k).parts, j ∈ s.groups.keys → (t.grpAt j).phase = .retired := by
  obtain ⟨t, crossed, he, hg⟩ := execFusion_groups h
  refine ⟨t, he, fun hk => ?_, fun j hj hm => ?_⟩
  · rw [State.grpAt, hg, fusedGroups_self _ hk]
  · rw [State.grpAt, hg, fusedGroups_part _ hj hm]

theorem fuseAndGangHold_holds : fuseAndGangHold :=
  ⟨fun _ _ _ h => ⟨gfuse_waits h, gfuse_traps h, gang_clears h, gang_sets h⟩, fun _ _ h => fusion_joins h⟩

/-- Settles O30: a split puts its parts at new handles, each with its slice of the group; a fusion puts the fused group in the group's
place and retires the parts. -/
theorem groupShape : Obligations.GroupShape := ⟨splitHold_holds, fuseAndGangHold_holds⟩

end Sys2Proof.Machine
end

section
/-! PROOFS. A step runs the decoded instruction (O58). -/

namespace Sys2Proof.Machine

open Sys2Proof.Claims

/-! ### A step is what is due first (O58) -/

/-- What a word decodes to is built by its row of the opcode map, with no code and no operand refused. -/
theorem parse_of_decodeWord {w : W64} {i : Instr} (h : decodeWord w = .ok i) :
    ∃ b, buildAt (codeAt w 58 6) (codeAt w 52 6) = some b ∧ b.parse w = some (i, false) ∧ i.codesOk = true ∧ i.operandsOk = true := by
  unfold decodeWord at h
  split at h
  · cases h
  · rename_i b hb
    split at h
    · cases h
    · rename_i j reserved hp
      split at h
      · cases h
      · rename_i hc
        split at h
        · cases h
        · rename_i ho
          cases h
          obtain ⟨rfl, ho⟩ := Bool.or_eq_false_iff.mp (Bool.eq_false_iff.mpr ho)
          exact ⟨b, hb, hp, by simpa using hc, by simpa using ho⟩

/-- A word that decodes, whose flag its header sets and whose registers lie in the window, passes steps 3 to 6 of R240. -/
theorem State.judge_of_admitted {s : State} {hdr w : W64} {last : Bool} {i : Instr} (h : admitted s hdr w last i) : s.judge hdr w last = .ok i := by
  obtain ⟨hf, hd, hs, hl, hg⟩ := h
  obtain ⟨b, hb, hp, hc, ho⟩ := parse_of_decodeWord hd
  have hlast : (isCall i && !last) = false := by
    cases hi : isCall i with
    | false => rfl
    | true => rw [hl hi]; rfl
  have hsf : (sfFlag hdr (sfOf i)).isNone = false := by rw [← Option.not_isSome, hs]; rfl
  unfold State.judge
  rw [hf, hb]
  dsimp only
  rw [hp]
  dsimp only
  rw [hc, hsf, hlast, ho, hg]
  rfl

theorem State.fetch_local {s t0 : State} {va w : W64} {set : Mask} {tr : Trans}
    (ht : s.translate s.foc.core s.foc.ctx .fetch va = (t0, .ok tr)) (hl : t0.isLocal tr.pa = true)
    (hp : (t0.touchLlc tr.pa (pteCp tr.pte)).hbmPoi (paLocal tr.pa) 8 = false)
    (hw : BitVec.ofNat 64 (ofLe ((t0.touchLlc tr.pa (pteCp tr.pte)).hbm (paLocal tr.pa) 8)) = w) :
    s.fetch va set = (t0.touchLlc tr.pa (pteCp tr.pte), .word w) := by
  unfold State.fetch
  rw [ht]
  dsimp only
  rw [if_pos hl, hp, if_neg Bool.false_ne_true, hw]

/-- A word fetched for an issue in lanes goes on to its meaning where R240 admits it. -/
theorem State.fetchWord_lanes {s t : State} {i : Issue} {va w : W64} {ins : Instr} (hh : i.handler = false) (hf : s.fetch va i.set = (t, .word w))
    (ha : admitted (issuing t i va w) i.hdr w (va.toNat == i.bb.toNat + 8 * blockLen i.hdr) ins) :
    s.fetchWord i va = .go (issuing t i va w) ins := by
  unfold State.fetchWord
  rw [hf]
  dsimp only
  rw [hh, if_neg Bool.false_ne_true]
  have e : ((t.setIss { i with pc := va, word := w, handler := false }).modG fun g => g.modLanes (g.lanesOf i.set) fun _ x => { x with pc := va }) =
      issuing t i va w := by
    rw [← hh]
    rfl
  rw [e, State.judge_of_admitted ha]

/-- The same for a handler, whose lanes stay where they are. -/
theorem State.fetchWord_handler {s t : State} {i : Issue} {va w : W64} {ins : Instr} (hh : i.handler = true) (hf : s.fetch va i.set = (t, .word w))
    (ha : admitted (t.setIss { i with pc := va, word := w }) i.hdr w (va.toNat == i.bb.toNat + 8 * blockLen i.hdr) ins) :
    s.fetchWord i va = .go (t.setIss { i with pc := va, word := w }) ins := by
  unfold State.fetchWord
  rw [hf]
  dsimp only
  rw [hh, if_pos rfl, ← hh, State.judge_of_admitted ha]

/-- Lanes that none has set come to the word of their block, if the lowest of them stands inside one. -/
theorem State.prepare_inside {s : State} {pc bb hdr : W64} {ls : List Nat} {l : Nat} (hh : s.g.handler = none) (hi : s.g.issuePc = some pc)
    (hs : s.g.lanesAt pc = ls) (hl : ls.head? = some l) (hp : ∀ j ∈ ls, (s.g.lane j).reach ≠ .patched)
    (he : (s.g.lane l).expects = .inside bb hdr) :
    s.prepare = s.fetchWord { pc, bb, hdr, set := maskOf (ls.filter fun j => (s.g.lane j).isInside), handler := false } pc := by
  have hn : (ls.filter fun j => (s.g.lane j).reach == .patched) = [] :=
    List.filter_eq_nil_iff.mpr fun j hj => by simpa using hp j hj
  unfold State.prepare
  rw [hh]
  dsimp only
  unfold State.prepLanes
  rw [hi]
  dsimp only
  rw [hs, hn]
  simp only [List.isEmpty_nil, Bool.true_or, if_true]
  unfold State.issueAt
  rw [List.headD_eq_head?_getD, hl]
  dsimp only [Option.getD_some]
  rw [he]

theorem State.prepare_handler_inside {s : State} {h : Handler} {bb hdr : W64} (hh : s.g.handler = some h)
    (he : expectOf h.pc h.bb h.hdr h.reach = some (.inside bb hdr)) :
    s.prepare = s.fetchWord { pc := h.pc, bb, hdr, set := 0, handler := true } h.pc := by
  unfold State.prepare
  rw [hh]
  dsimp only
  unfold State.prepHandler
  rw [he]

theorem step_event {s : State} {e : Instr} {rest : List Instr} (ha : s.agenda = e :: rest) (he : e.parts = none) :
    step s = exec e { s with agenda := rest } := by
  unfold step
  rw [ha]
  dsimp only
  rw [he]
  rfl

/-- A replay that runs on writes its own context, and the model's free counter moves on. -/
theorem step_replay {s : State} {k : Nat} {r : Rerun} (ha : s.agenda = []) (hs : s.service = none) (hr : s.rerunDue = some (k, r)) :
    step s = .next (s.setCtxAt k (s.rerunCtx exec k r)).bump := by
  unfold step
  rw [ha]
  dsimp only
  unfold State.plan
  rw [hs, hr]
  rfl

/-- The machine with the turn passed on (log entry 2). -/
def State.turned (s : State) : State := { s with turn := !s.turn }

theorem State.planTurn_eq (s : State) (run : Instr → State → Out) : s.planTurn run =
    if s.turn then (s.turned.planEvent.orElse fun _ => s.turned.planIssue run).getD (.spent s.turned)
    else ((s.turned.planIssue run).orElse fun _ => s.turned.planEvent).getD (.spent s.turned) := rfl

/-- At an issue's turn the chosen group's word is the step. -/
theorem step_issue {s u : State} {k : Nat} {i : Instr} (ha : s.agenda = []) (hs : s.service = none) (hr : s.rerunDue = none)
    (ht : s.turn = false ∨ s.turned.planEvent = none)
    (hc : s.turned.chooseGroup (s.turned.readyGroups exec) = some k)
    (hp : ((s.turned.passOver (s.turned.readyGroups exec) k).focusGrp k).prepare = .go u i) :
    step s = exec i u := by
  have hi : s.turned.planIssue exec = some (.issue i u) := by
    unfold State.planIssue
    dsimp only
    rw [hc]
    dsimp only
    rw [hp]
  have ht' : s.planTurn exec = .issue i u := by
    rw [State.planTurn_eq, hi]
    split
    case isFalse => rfl
    case isTrue h =>
      obtain h' | h' := ht
      · exact absurd (h'.symm.trans h) Bool.false_ne_true
      · rw [h']
        rfl
  unfold step
  rw [ha]
  dsimp only
  unfold State.plan
  rw [hs, hr]
  dsimp only
  rw [ht']

/-- Settles O58: the agenda's head, a replay, or at an issue's turn the word that the chosen group's preparation comes to. -/
theorem stepRunsDecoded : Obligations.StepRunsDecoded := by
  refine fun s => ⟨fun e rest => step_event, fun ha hs k r hr => ⟨_, step_replay ha hs hr, rfl, rfl, rfl, rfl, rfl, rfl, fun j hj => ?_⟩,
    fun ha hs hr => fun ht k t0 tr w i hc => ⟨fun pc ls l bb hdr hh hi hls hl hp he htr hloc hpoi hw hadm => ?_,
      fun h bb hdr hh he htr hloc hpoi hw hadm => ?_⟩⟩
  · exact (State.ctxAt_setCtxAt s k j _).trans (if_neg (Ne.symm hj))
  · exact step_issue ha hs hr ht hc ((State.prepare_inside hh hi hls hl hp he).trans
      (State.fetchWord_lanes rfl (State.fetch_local htr hloc hpoi hw) hadm))
  · exact step_issue ha hs hr ht hc ((State.prepare_handler_inside hh he).trans
      (State.fetchWord_handler rfl (State.fetch_local htr hloc hpoi hw) hadm))

end Sys2Proof.Machine
end

section
/-! PROOFS. The frame of the register words (O19): refuted. -/

namespace Sys2Proof.Machine

open Sys2Proof.Claims

/-! ### A MOV from a z register to a v register

Only a MOV between z registers reads one (R55): a MOV of z0 to v1 fails step 7 of R240 in every active lane. The statement takes its
operand check from `Grp.opOk`, which no z operand fails, and so asks for the frame of an issue that traps. -/

/-- A resident group of eight running lanes that issues at VA 8, under a grid with a handler. -/
def plainIssue : State :=
  { ctxs := [(0, { root := 1 })]
    cores := [(0, {})]
    grids := [(0, { phase := .running, lrec := { gw0 := 8, nteam := 1, trapv := 0x1000 } })]
    teams := [(0, { phase := .resident, groups := [0] })]
    groups := [(0, { gw := 8, lanes := List.replicate 8 {}, iss := { pc := 8, set := 0xFF } })] }
/-- MOV v1, z0. -/
def movOfZ0 : VF := ⟨.v 1, .z 0, .v 0, .v 0, .b32, .lane, false, .none, 0⟩

/-- The state of lane 0 of the group in focus, in the state that an outcome leaves. -/
def lane0State : Out → Option LaneSt
  | .next t => some (t.g.lane 0).st
  | _ => none

theorem plainIssue_runs : plainIssue.Runs anyLane (plainIssue.opsOk [(.v 1, 1), (.z 0, 1)]) := by decide +kernel

theorem plainIssue_mov : lane0State (exec (.mov anyLane movOfZ0) plainIssue) = some .trapped := by decide +kernel

/-- Refutes O19: MOV of a z register to a v register is a row of `intRow` whose operands pass, but it traps its lanes, and so their state
changes. -/
theorem not_registerWordFrame : ¬ Obligations.RegisterWordFrame := by
  unfold Obligations.RegisterWordFrame
  intro h
  obtain ⟨t, ht⟩ : ∃ t, exec (.mov anyLane movOfZ0) plainIssue = .next t := ⟨_, rfl⟩
  obtain ⟨-, -, -, -, -, -, -, hlane, -⟩ := h (.mov anyLane movOfZ0) anyLane (.v 1) 1 [(.z 0, 1)] plainIssue t rfl rfl plainIssue_runs ht
  obtain ⟨-, -, -, hst, -⟩ := hlane 0
  have htrap := plainIssue_mov
  rw [ht] at htrap
  exact absurd (hst.symm.trans (Option.some.inj htrap)) (by decide +kernel)

end Sys2Proof.Machine
end

section
/-! PROOFS. FP words never clear a flag (O14). -/

namespace Sys2Proof.Machine

open Sys2Proof.Claims

/-! ### The end of an issue in which nothing fails, counted or not (R152, R189) -/

/-- The group in focus as such an issue leaves it. -/
def Grp.ended (g : Grp) (counted : Bool) : Grp :=
  { g.countRot with retired := if counted then g.countRot.retired + 1 else g.countRot.retired, stall := .none, afterStall := false, replies := [],
                    readyFor := 0 }

theorem State.finish_nil_eq (s : State) (counted : Bool) : s.finish counted [] =
    if counted then (((s.setG (s.g.ended counted)).bump).count s.foc.ctx 1 1).logState else (s.setG (s.g.ended counted)).bump := by
  rw [State.finish, Grp.keepPc_nil]
  rfl

theorem State.finish_nil_foc (s : State) (counted : Bool) : (s.finish counted []).foc = s.foc := by
  rw [State.finish_nil_eq]
  cases counted with
  | false => rfl
  | true => exact (State.logState_foc _).trans (State.calm_count _ _ _ _).foc

theorem State.finish_nil_groups (s : State) (counted : Bool) :
    (s.finish counted []).groups = s.groups.set s.foc.grp (s.g.ended counted) := by
  rw [State.finish_nil_eq]
  cases counted with
  | false => rfl
  | true => exact (State.logState_groups _).trans (State.calm_count _ _ _ _).groups

theorem State.grpAt_finish_nil (s : State) (counted : Bool) (k : Nat) :
    (s.finish counted []).grpAt k = if s.foc.grp = k then s.g.ended counted else s.grpAt k := by
  rw [State.grpAt, State.finish_nil_groups, KMap.get_set]
  rfl

theorem State.g_finish_nil (s : State) (counted : Bool) : (s.finish counted []).g = s.g.ended counted := by
  rw [State.g, State.finish_nil_foc, State.grpAt_finish_nil, if_pos rfl]

/-! ### The flags of a lane (R206) -/

/-- Updates of lanes that keep the FPL of each. -/
theorem Grp.fpl_modLanes (g : Grp) {ls : List Nat} {f : Nat → Lane → Lane} (hn : ls.Nodup) (hf : ∀ l (x : Lane), (f l x).fpl = x.fpl) (l : Nat) :
    ((g.modLanes ls f).lane l).fpl = (g.lane l).fpl := by
  rw [Grp.lane_modLanes g ls f hn]
  split
  · exact hf _ _
  · rfl

theorem Grp.fpl_ended (g : Grp) (counted : Bool) (l : Nat) : ((g.ended counted).lane l).fpl = (g.lane l).fpl := by
  refine Grp.fpl_modLanes g (f := fun l x => if x.st == .running then { x with rot := if g.iss.set.getLsbD l then 0 else x.rot + 1 } else x)
    List.nodup_range (fun l x => ?_) l
  split <;> rfl

theorem State.fpl_owe (s : State) (fails : List (Nat × Fail)) (l : Nat) : ((s.owe fails).g.lane l).fpl = (s.g.lane l).fpl := by
  unfold State.owe
  split
  · rw [State.g_modG]
    exact Grp.fpl_modLanes s.g (f := fun _ x => { x with owes := true }) (Grp.lanesOf_nodup _ _) (fun _ _ => rfl) l
  · rfl

/-- An issue that retires leaves the FPL of each lane as its effect did. -/
theorem State.fpl_retire (s : State) (l : Nat) : (s.retire.g.lane l).fpl = (s.g.lane l).fpl := by
  rw [State.retire, State.endIssue, State.g_finish_nil, Grp.fpl_ended, State.fpl_owe]

theorem Grp.fpl_advance (g : Grp) (l : Nat) : (g.advance.lane l).fpl = (g.lane l).fpl := by rw [Grp.advance_lane]

/-- The FPL of each lane after an issue that acts on its active lanes. -/
theorem fpl_lanesOut {s t : State} {p : Pred} {act : Nat → Lane → Lane} (h : lanesOut s p act = .next t) (l : Nat) :
    (t.g.lane l).fpl = if l ∈ s.g.lanesOf (s.allowed p) then (act l (s.g.advance.lane l)).fpl else (s.g.lane l).fpl := by
  rw [← Host.Outcome.next.inj h, State.fpl_retire, State.g_modG, State.atIssue_g, Grp.lane_modLanes _ _ _ (Grp.lanesOf_nodup _ _),
    Grp.lanesOf_advance]
  split
  · rfl
  · exact Grp.fpl_advance _ _

theorem Lane.fpl_putRegs (x : Lane) (wb : Nat) (o : Opnd) (rs : List Reg) : (x.putRegs wb o rs).fpl = x.fpl := by cases o <;> rfl

theorem Lane.fpl_putVec (x : Lane) (wb : Nat) (o : Opnd) (is64 : Bool) (v : Val) : (x.putVec wb o is64 v).fpl = x.fpl :=
  List.foldlRecOn (motive := fun y : Lane => y.fpl = x.fpl) _ _ (x.fpl_putRegs wb o _) fun _ h _ _ => h

theorem Lane.fpl_putFp (x : Lane) (wb : Nat) (d : Opnd) (is64 : Bool) (r : FpR) (poi : Bool) :
    (x.putFp wb d is64 r poi).fpl = x.fpl ||| if poi then 0 else r.fl := by
  rw [Lane.putFp, Lane.raise_fpl, Lane.fpl_putVec]

theorem or_and_self_left (a b : W32) : (a ||| b) &&& a = a := by grind

/-! ### The obligation -/

theorem exec_fpRow {i : Instr} {p : Pred} {f : VF} {n : Nat} {fn : Fmt → FpEnv → List Num → FpR} (h : fpRow i = some (p, f, n, fn)) (s : State) :
    exec i s = s.fpOp p f n fn := by
  unfold fpRow at h
  split at h <;> cases h <;> rfl

/-- Settles O14: the FPL of an active lane gains the flags of its result, and no other effect of the issue touches an FPL. -/
theorem flagsOnlySet : Obligations.FlagsOnlySet := by
  unfold Obligations.FlagsOnlySet
  intro i p f n fn s t l hrow hr ht
  have hout : lanesOut s p _ = .next t := (State.perLane_eq_lanesOut _ hr).symm.trans ((exec_fpRow hrow s).symm.trans ht)
  rw [fpl_lanesOut hout l]
  refine ⟨?_, fun hl => if_neg hl⟩
  split
  · rw [Lane.fpl_putFp, Grp.fpl_advance, or_and_self_left]
  · exact BitVec.and_self

end Sys2Proof.Machine
end

section
/-! PROOFS. REDUX and SCAN (O18). -/

namespace Sys2Proof.Machine

open Sys2Proof.Claims

/-! ### The levels of the tree (R219) -/

theorem pairUp_length (env : FpEnv) (op : Nat) (t : Ty) (n : Nat) (xs : List FpR) (h : xs.length = 2 * n) : (pairUp env op t xs).length = n := by
  induction n generalizing xs with
  | zero => rw [List.length_eq_zero_iff.mp h]; rfl
  | succ n ih =>
    match xs, h with
    | a :: b :: r, h => exact congrArg (· + 1) (ih r (by simp at h; omega))

theorem pairUp_getD (env : FpEnv) (op : Nat) (t : Ty) (i : Nat) (xs : List FpR) (h : 2 * i + 1 < xs.length) :
    (pairUp env op t xs).getD i {} = combine env op t (xs.getD (2 * i) {}).bits (xs.getD (2 * i + 1) {}).bits := by
  induction i generalizing xs with
  | zero =>
    match xs, h with
    | a :: b :: r, _ => rfl
  | succ i ih =>
    match xs, h with
    | a :: b :: r, h => exact ih r (by simp at h; omega)

theorem treeLevels_ne_nil (env : FpEnv) (op : Nat) (t : Ty) (n : Nat) (xs : List FpR) : treeLevels env op t n xs ≠ [] := by
  cases n <;> exact List.cons_ne_nil _ _

theorem treeLevels_getLastD_succ (env : FpEnv) (op : Nat) (t : Ty) (n : Nat) (xs : List FpR) :
    (treeLevels env op t (n + 1) xs).getLastD [] = (treeLevels env op t n (pairUp env op t xs)).getLastD [] := by
  rw [treeLevels, List.getLastD_cons, List.getLastD_eq_getLast?, List.getLastD_eq_getLast?,
    List.getLast?_eq_some_getLast (treeLevels_ne_nil env op t n _)]
  rfl

/-- Where the leaves of the levels are the nodes of level a, the root is the node of the level as far up as there are levels. -/
theorem treeLevels_root {s : State} {f : VF} {act : Mask} (n a : Nat) (xs : List FpR) (hl : xs.length = 2 ^ n)
    (hx : ∀ i, i < 2 ^ n → (xs.getD i {}).bits = node s f act a i) :
    (((treeLevels (s.foldEnv f act) (foldCode f) f.ty n xs).getLastD []).headD {}).bits = node s f act (a + n) 0 := by
  induction n generalizing a xs with
  | zero =>
    rw [Nat.add_zero, ← hx 0 Nat.one_pos]
    match xs with
    | [] => rfl
    | _ :: _ => rfl
  | succ n ih =>
    rw [Nat.pow_succ'] at hl hx
    rw [treeLevels_getLastD_succ, ih (a + 1) _ (pairUp_length _ _ _ _ _ hl) fun i hi => ?_, Nat.add_right_comm, Nat.add_assoc]
    rw [pairUp_getD _ _ _ _ _ (by omega), hx _ (by omega), hx _ (by omega)]
    rfl

/-- The root of the tree over a group whose width is a power of two. -/
theorem State.foldTree_root {s : State} {f : VF} {act : Mask} {k : Nat} (hw : s.g.gw = 2 ^ k) :
    (((s.foldTree f act).getLastD []).headD {}).bits = node s f act (Nat.log2 s.g.gw) 0 := by
  rw [State.foldTree, hw, Nat.log2_two_pow]
  refine (treeLevels_root k 0 _ (tab_length _ _) fun i hi => ?_).trans (by rw [Nat.zero_add])
  rw [tab_getD _ _ hi]
  rfl

/-! ### The tree where the effect acts is the tree at issue -/

theorem State.foldFpl_atIssue (s : State) (m act : Mask) : (s.atIssue m).foldFpl act = s.foldFpl act := by
  simp only [State.foldFpl, State.atIssue_g, Grp.lanesOf_advance, Grp.fpl_advance]

theorem State.foldEnv_atIssue (s : State) (m : Mask) (f : VF) (act : Mask) : (s.atIssue m).foldEnv f act = s.foldEnv f act := by
  rw [State.foldEnv, State.foldFpl_atIssue, State.foldEnv]

theorem State.leaf_atIssue (s : State) (m : Mask) (f : VF) (act : Mask) (i : Nat) : (s.atIssue m).leaf f act i = s.leaf f act i := by
  simp only [State.leaf, State.rd_atIssue, State.foldFpl_atIssue]

theorem State.foldTree_atIssue (s : State) (m : Mask) (f : VF) (act : Mask) : (s.atIssue m).foldTree f act = s.foldTree f act := by
  have hw : (s.atIssue m).g.gw = s.g.gw := by rw [State.atIssue_g, Grp.advance, Grp.modLanes_gw]
  simp only [State.foldTree, State.foldEnv_atIssue, State.leaf_atIssue, hw]

theorem State.lanesOf_atIssue (s : State) (m act : Mask) : (s.atIssue m).g.lanesOf act = s.g.lanesOf act := by
  rw [State.atIssue_g, Grp.lanesOf_advance]

theorem State.atIssue_wb (s : State) (m : Mask) : (s.atIssue m).g.wb = s.g.wb := by rw [State.atIssue_g, Grp.advance_wb]

/-! ### REDUX (R305) -/

theorem exists_of_laneDest {d : Opnd} (h : laneDest d = true) : (∃ r, d = .v r) ∨ ∃ r, d = .k r := by
  cases d with
  | v r => exact .inl ⟨r, rfl⟩
  | k r => exact .inr ⟨r, rfl⟩
  | _ => exact absurd h Bool.false_ne_true

/-- The value that REDUX delivers, and the flags that it raises. -/
def State.reduxVal (s : State) (f : VF) (act : Mask) : Val :=
  ⟨(((s.foldTree f act).getLastD []).headD {}).bits, (s.g.lanesOf act).any fun l => (s.rd l f.ty f.a).poi⟩
def State.reduxFlags (s : State) (f : VF) (act : Mask) : W32 := if (s.reduxVal f act).poi then 0 else flagsOf (s.foldTree f act)

theorem State.reduxVal_atIssue (s : State) (m : Mask) (f : VF) (act : Mask) : (s.atIssue m).reduxVal f act = s.reduxVal f act := by
  simp only [State.reduxVal, State.foldTree_atIssue, State.lanesOf_atIssue, State.rd_atIssue]
theorem State.reduxFlags_atIssue (s : State) (m : Mask) (f : VF) (act : Mask) : (s.atIssue m).reduxFlags f act = s.reduxFlags f act := by
  simp only [State.reduxFlags, State.reduxVal_atIssue, State.foldTree_atIssue]

theorem execRedux_lanes {s : State} {p : Pred} {f : VF} (hd : laneDest f.d = true) :
    execRedux p f s = s.once false p (s.opsOk (withRegs f.ty.regs [f.d, f.a])) fun s act g =>
      g.modLanes (g.lanesOf act) fun _ x => (x.putVec s.g.wb f.d f.ty.is64 (s.reduxVal f act)).raise (s.reduxFlags f act) := by
  obtain ⟨r, h⟩ | ⟨r, h⟩ := exists_of_laneDest hd <;> rw [execRedux, h] <;> rfl

theorem execRedux_once {s : State} {p : Pred} {f : VF} {k : Fin 64} (h : f.d = .s k) :
    execRedux p f s = s.once false p (s.opsOk (withRegs f.ty.regs [f.a])) fun s act g =>
      (g.modLanes (g.lanesOf act) fun _ x => x.raise (s.reduxFlags f act)).putS k
        ⟨sExtend f.ty (s.reduxVal f act).n, (s.reduxVal f act).poi⟩ := by
  rw [execRedux, h]
  rfl

theorem redux_lanes {s : State} {p : Pred} {f : VF} (hd : laneDest f.d = true) (hr : s.Runs p (s.opsOk (withRegs f.ty.regs [f.d, f.a]))) :
    exec (.redux p f) s = lanesOut s p fun _ x =>
      (x.putVec s.g.wb f.d f.ty.is64 (s.reduxVal f (s.allowed p))).raise (s.reduxFlags f (s.allowed p)) := by
  refine (execRedux_lanes hd).trans ((State.once_eq_groupOut false _ hr).trans ?_)
  rw [State.reduxVal_atIssue, State.reduxFlags_atIssue, State.atIssue_wb]
  rfl

theorem redux_once {s : State} {p : Pred} {f : VF} {k : Fin 64} (hd : f.d = .s k) (hr : s.Runs p (s.opsOk (withRegs f.ty.regs [f.a]))) :
    exec (.redux p f) s = groupOut s p fun g =>
      (g.modLanes (s.g.lanesOf (s.allowed p)) fun _ x => x.raise (s.reduxFlags f (s.allowed p))).putS k
        ⟨sExtend f.ty (s.reduxVal f (s.allowed p)).n, (s.reduxVal f (s.allowed p)).poi⟩ := by
  refine (execRedux_once hd).trans ((State.once_eq_groupOut false _ hr).trans ?_)
  simp only [State.reduxVal_atIssue, State.reduxFlags_atIssue, groupOut, State.modG, State.lanesOf_atIssue]

/-! ### SCAN (R220, R306) -/

/-- How many leaves a lane's scan covers, its value, its poison, and the flags that SCAN raises. -/
def scanCovers (f : VF) (l : Nat) : Nat := if f.m / 16 = 1 then l else l + 1
def State.scanRes (s : State) (f : VF) (act : Mask) (l : Nat) : FpR :=
  if scanCovers f l = 0 then ⟨redIdentity (foldCode f) f.ty, 0⟩
  else combineNodes (s.foldEnv f act) (foldCode f) f.ty (prefixNodes (s.foldTree f act) (scanCovers f l))
def State.scanPoi (s : State) (f : VF) (act : Mask) (l : Nat) : Bool :=
  (s.g.lanesOf act).any fun j => j < scanCovers f l && (s.rd j f.ty f.a).poi
def State.scanFlags (s : State) (f : VF) (act : Mask) : W32 :=
  (s.g.lanesOf act).foldl (fun a l => a ||| (s.scanRes f act l).fl) (flagsOf (s.foldTree f act))

theorem State.scanRes_atIssue (s : State) (m : Mask) (f : VF) (act : Mask) (l : Nat) : (s.atIssue m).scanRes f act l = s.scanRes f act l := by
  simp only [State.scanRes, State.foldTree_atIssue, State.foldEnv_atIssue]
theorem State.scanPoi_atIssue (s : State) (m : Mask) (f : VF) (act : Mask) (l : Nat) : (s.atIssue m).scanPoi f act l = s.scanPoi f act l := by
  simp only [State.scanPoi, State.lanesOf_atIssue, State.rd_atIssue]
theorem State.scanFlags_atIssue (s : State) (m : Mask) (f : VF) (act : Mask) : (s.atIssue m).scanFlags f act = s.scanFlags f act := by
  simp only [State.scanFlags, State.lanesOf_atIssue, State.scanRes_atIssue, State.foldTree_atIssue]

theorem execScan_eq (p : Pred) (f : VF) (s : State) :
    execScan p f s = s.once false p (s.opsOk (withRegs f.ty.regs [f.d, f.a])) fun s act g =>
      g.modLanes (g.lanesOf act) fun l x =>
        (x.putVec s.g.wb f.d f.ty.is64 ⟨(s.scanRes f act l).bits, s.scanPoi f act l⟩).raise (if s.scanPoi f act l then 0 else s.scanFlags f act) := by
  unfold execScan State.scanFlags State.scanPoi State.scanRes scanCovers
  simp only [beq_iff_eq]
  rfl

theorem scan_lanes {s : State} {p : Pred} {f : VF} (hr : s.Runs p (s.opsOk (withRegs f.ty.regs [f.d, f.a]))) :
    exec (.scan p f) s = lanesOut s p fun l x =>
      (x.putVec s.g.wb f.d f.ty.is64 ⟨(s.scanRes f (s.allowed p) l).bits, s.scanPoi f (s.allowed p) l⟩).raise
        (if s.scanPoi f (s.allowed p) l then 0 else s.scanFlags f (s.allowed p)) := by
  refine (execScan_eq p f s).trans ((State.once_eq_groupOut false _ hr).trans ?_)
  simp only [State.scanRes_atIssue, State.scanPoi_atIssue, State.scanFlags_atIssue, State.atIssue_wb]
  rfl

/-- Settles O18: the last of the levels that the model pairs up holds the root of the tree of R219, by induction on the levels; the words
then do what the statement says with the tree of the state at issue. -/
theorem laneTrees : Obligations.LaneTrees := by
  rintro p f s ⟨k, -, -, hw⟩
  have hroot := State.foldTree_root (f := f) (act := s.allowed p) hw
  dsimp only
  rw [← hroot]
  exact ⟨⟨redux_lanes, fun k => redux_once⟩, scan_lanes⟩

end Sys2Proof.Machine
end

section
/-! PROOFS. The sums of the matrix engine (O44). -/

namespace Sys2Proof.Machine

open Sys2Proof.Claims

/-! ### The slab of a native format (R222) -/

theorem parity_eq_zero (k : Nat) : (k % 2 == 0) = ((k % 2 == 1) == false) := by
  rcases Nat.mod_two_eq_zero_or_one k with h | h <;> rw [h] <;> rfl

theorem parity_eq_one (k : Nat) : (k % 2 == 1) = ((k % 2 == 1) == true) := by
  rcases Nat.mod_two_eq_zero_or_one k with h | h <;> rw [h] <;> rfl

/-- Up to eight more k are one more pair of sums. -/
theorem nativeElem_succ (t : Ty) (env : FpEnv) (row : List (Nat × Nat)) (col : Nat → Nat) (ev od : Nat × W32) {j n : Nat} (h0 : 0 < n) (h8 : n ≤ 8) :
    let x := nativeElem t env row col (8 * j) ev od
    let quad (odd : Bool) : Num × W32 := quadSum (accFmt t) env ((row.filter fun e => e.1 / 8 == j && (e.1 % 2 == 1) == odd).map fun e =>
      (opnd (Ty.fmt t) env e.2, opnd (Ty.fmt t) env (col e.1)))
    nativeElem t env row col (8 * j + n) ev od =
      (chainAdd (accFmt t) env x.1 (quad false), chainAdd (accFmt t) env x.2 (quad true)) := by
  have hn : (8 * j + n + 7) / 8 = j + 1 := by omega
  have hj : (8 * j + 7) / 8 = j := by omega
  simp only [nativeElem, hn, hj, List.range_succ, List.foldl_append, List.foldl_cons, List.foldl_nil, parity_eq_zero, ← parity_eq_one]

/-! ### The exact sum of finite products (R211) -/

/-- The value of a finite term. -/
def termValue (x : Bool × Nat × Int) : ℚ := (if x.1 then -1 else 1) * x.2.1 * (2 : ℚ) ^ x.2.2

theorem atExp_value (neg : Bool) (m : Nat) {e e0 : Int} (h : e0 ≤ e) : (atExp neg m e e0 : ℚ) * (2 : ℚ) ^ e0 = termValue (neg, m, e) := by
  have hp : (2 : ℚ) ^ (e - e0).toNat * (2 : ℚ) ^ e0 = (2 : ℚ) ^ e := by
    rw [← zpow_natCast, Int.toNat_of_nonneg (by omega), ← zpow_add₀ two_ne_zero, Int.sub_add_cancel]
  cases neg with
  | false => simp [atExp, termValue, mul_assoc, hp]
  | true => simp [atExp, termValue, mul_assoc, hp]

/-- A running minimum is at most where it starts and every value that it has met. -/
theorem foldl_min_le {α : Type} (f : α → Int) (xs : List α) (a : Int) :
    xs.foldl (fun a x => if f x < a then f x else a) a ≤ a ∧ ∀ x ∈ xs, xs.foldl (fun a x => if f x < a then f x else a) a ≤ f x := by
  induction xs generalizing a with
  | nil => exact ⟨le_rfl, fun _ h => absurd h List.not_mem_nil⟩
  | cons y ys ih =>
    obtain ⟨ha, hs⟩ := ih (if f y < a then f y else a)
    rw [List.foldl_cons]
    refine ⟨ha.trans (by split <;> omega), fun x hx => ?_⟩
    rcases List.mem_cons.mp hx with rfl | hx
    · exact ha.trans (by split <;> omega)
    · exact hs x hx

theorem foldl_atExp_value (e0 : Int) (xs : List (Bool × Nat × Int)) (h : ∀ x ∈ xs, e0 ≤ x.2.2) (a : Int) :
    (xs.foldl (fun a x => a + atExp x.1 x.2.1 x.2.2 e0) a : Int) * (2 : ℚ) ^ e0 = a * (2 : ℚ) ^ e0 + (xs.map termValue).sum := by
  induction xs generalizing a with
  | nil => simp
  | cons x xs ih =>
    obtain ⟨hx, hxs⟩ := List.forall_mem_cons.mp h
    rw [List.foldl_cons, ih hxs, Int.cast_add, add_mul, atExp_value _ _ hx, List.map_cons, List.sum_cons, add_assoc]

theorem exactSum_value (xs : List (Bool × Nat × Int)) : ((exactSum xs).1 : ℚ) * (2 : ℚ) ^ (exactSum xs).2 = (xs.map termValue).sum := by
  refine (foldl_atExp_value _ xs (fun x hx => (foldl_min_le (fun x => x.2.2) xs _).2 x hx) 0).trans ?_
  rw [Int.cast_zero, zero_mul, zero_add]

/-- A pair of finite numbers, and its product as a term. -/
def finitePair (p : Num × Num) : Prop := (∃ n m e, p.1 = .fin n m e) ∧ ∃ n m e, p.2 = .fin n m e
def productOf : Num × Num → Bool × Nat × Int
  | (.fin n m e, .fin n' m' e') => (n != n', m * m', e + e')
  | _ => (false, 0, 0)

theorem finitePair.prodTerm {p : Num × Num} (h : finitePair p) : prodTerm p.1 p.2 = .fin (productOf p) := by
  obtain ⟨⟨n, m, e, h1⟩, n', m', e', h2⟩ := h
  obtain ⟨a, b⟩ := p
  cases h1
  cases h2
  rfl

theorem finitePair.not_nan {p : Num × Num} (h : finitePair p) : p.1.isNan = false ∧ p.2.isNan = false := by
  obtain ⟨⟨_, _, _, h1⟩, _, _, _, h2⟩ := h
  rw [h1, h2]
  exact ⟨rfl, rfl⟩

theorem finitePair.value {p : Num × Num} (h : finitePair p) : termValue (productOf p) = (exactOf p.1).2 * (exactOf p.2).2 := by
  obtain ⟨⟨n, m, e, h1⟩, n', m', e', h2⟩ := h
  obtain ⟨a, b⟩ := p
  cases h1
  cases h2
  simp only [termValue, productOf, exactOf, zpow_add₀ (two_ne_zero (α := ℚ)), Nat.cast_mul]
  cases n <;> cases n' <;> simp <;> ring

theorem termsOf_finite {ps : List (Num × Num)} (h : ∀ p ∈ ps, finitePair p) : termsOf ps [] = (ps.map productOf).map .fin := by
  rw [termsOf, List.filter_eq_self.mpr fun p hp => by rw [(h p hp).not_nan.1, (h p hp).not_nan.2]; rfl, List.map_map]
  exact (List.append_nil _).trans (List.map_congr_left fun p hp => (h p hp).prodTerm)

theorem not_contains_map_fin (ts : List (Bool × Nat × Int)) {x : Term} (hx : ∀ t, x ≠ .fin t) : (ts.map Term.fin).contains x = false := by
  simp only [List.contains_eq_mem, List.mem_map, decide_eq_false_iff_not]
  rintro ⟨t, -, h⟩
  exact hx t h.symm

theorem sumInvalid_map_fin (ts : List (Bool × Nat × Int)) : sumInvalid (ts.map .fin) = false := by
  rw [sumInvalid, not_contains_map_fin ts (x := .bad) nofun, not_contains_map_fin ts (x := .inf true) nofun]
  rfl

/-- The finite terms of a sum that has no others, by any function that picks them. -/
theorem filterMap_map_fin (pick : Term → Option (Bool × Nat × Int)) (ts : List (Bool × Nat × Int)) (h : ∀ t, pick (.fin t) = some t) :
    (ts.map Term.fin).filterMap pick = ts := by
  rw [List.filterMap_map, show pick ∘ Term.fin = some from funext h, List.filterMap_some]

theorem quadSum_finite (f : Fmt) (env : FpEnv) {ps : List (Num × Num)} (h : ∀ p ∈ ps, finitePair p) : ∃ n m e, quadSum f env ps = (.fin n m e, 0) ∧
    (exactOf (.fin n m e)).2 = (ps.map fun p => (exactOf p.1).2 * (exactOf p.2).2).sum := by
  have hnan : (ps.flatMap fun p => [p.1, p.2]).any Num.isNan = false := by
    rw [List.any_eq_false]
    intro x hx
    obtain ⟨p, hp, hm⟩ := List.mem_flatMap.mp hx
    obtain ⟨h1, h2⟩ := (h p hp).not_nan
    simp at hm
    rcases hm with rfl | rfl <;> simp [h1, h2]
  have hts := termsOf_finite h
  have hsum : ((ps.map productOf).map termValue).sum = (ps.map fun p => (exactOf p.1).2 * (exactOf p.2).2).sum := by
    rw [List.map_map]
    exact congrArg List.sum (List.map_congr_left fun p hp => (h p hp).value)
  have hval := (exactSum_value (ps.map productOf)).trans hsum
  unfold quadSum
  dsimp only
  rw [hts, sumInvalid_map_fin, hnan, not_contains_map_fin _ (x := .inf true) nofun, not_contains_map_fin _ (x := .inf false) nofun,
    filterMap_map_fin _ _ fun _ => rfl, if_neg Bool.false_ne_true,
    if_neg Bool.false_ne_true, if_neg Bool.false_ne_true, if_neg Bool.false_ne_true]
  split
  · rename_i h0
    rw [beq_iff_eq] at h0
    rw [h0, Int.cast_zero, zero_mul] at hval
    refine ⟨_, _, _, rfl, hval ▸ ?_⟩
    simp [exactOf]
  · refine ⟨_, _, _, rfl, hval ▸ ?_⟩
    simp only [exactOf]
    congr 1
    by_cases hneg : (exactSum (ps.map productOf)).1 < 0
    · have ha : ((exactSum (ps.map productOf)).1.natAbs : ℤ) = -(exactSum (ps.map productOf)).1 := by omega
      rw [if_pos (by simpa using hneg), ← Int.cast_natCast, ha]
      push_cast
      ring
    · have ha : ((exactSum (ps.map productOf)).1.natAbs : ℤ) = (exactSum (ps.map productOf)).1 := by omega
      rw [if_neg (by simpa using hneg), ← Int.cast_natCast, ha, one_mul]

theorem nativeSumsHold_holds : nativeSumsHold :=
  ⟨fun _ _ _ _ _ _ => rfl, fun t env row col ev od _ _ h0 h8 => nativeElem_succ t env row col ev od h0 h8, fun f env _ h => quadSum_finite f env h⟩

/-! ### The parts of asymmetric groups (R224) -/

/-- The parts of a slab, from the place lo and the k consumed so far: the open group first, where there is one. -/
def partsFrom (size rowBytes : Nat) : Option OpenI → List Nat → Nat → List Byte → Nat → List (Nat × Nat × Bool × Bool × List Byte)
  | _, [], _, _, _ => []
  | some o, n :: ns, lo, sc, k => (lo, n, o.odd, o.done + n == size, o.scale) :: partsFrom size rowBytes none ns (lo + n) sc (k + n)
  | none, n :: ns, lo, sc, k =>
    (lo, n, k / size % 2 == 1, n == size, sc.take rowBytes) :: partsFrom size rowBytes none ns (lo + n) (sc.drop rowBytes) (k + n)

/-- One part of the slab put behind those found so far, as the model finds them in turn. -/
def partStep (size rowBytes : Nat) (x : List (Nat × Nat × Bool × Bool × List Byte) × Nat × Option OpenI × List Byte × Nat) (n : Nat) :
    List (Nat × Nat × Bool × Bool × List Byte) × Nat × Option OpenI × List Byte × Nat :=
  let (out, lo, op, sc, k) := x
  match op with
  | some o => (out ++ [(lo, n, o.odd, o.done + n == size, o.scale)], lo + n, none, sc, k + n)
  | none => (out ++ [(lo, n, k / size % 2 == 1, n == size, sc.take rowBytes)], lo + n, none, sc.drop rowBytes, k + n)

theorem foldl_partStep (size rowBytes : Nat) (ns : List Nat) (out : List (Nat × Nat × Bool × Bool × List Byte)) (lo : Nat) (op : Option OpenI)
    (sc : List Byte) (k : Nat) :
    (ns.foldl (partStep size rowBytes) (out, lo, op, sc, k)).1 = out ++ partsFrom size rowBytes op ns lo sc k := by
  induction ns generalizing out lo op sc k with
  | nil => rw [partsFrom, List.append_nil]; rfl
  | cons n ns ih =>
    cases op with
    | none => exact (ih _ _ _ _ _).trans (List.append_assoc _ _ _)
    | some o => exact (ih _ _ _ _ _).trans (List.append_assoc _ _ _)

theorem aiParts_eq (size : Nat) (op : Option OpenI) (lens : List Nat) (rowBytes : Nat) (sc : List Byte) (first : Nat) :
    aiParts size op lens rowBytes sc first = partsFrom size rowBytes op lens 0 sc first :=
  foldl_partStep size rowBytes lens [] 0 op sc first

/-- A part that begins a group. -/
theorem partsFrom_none_getD (size rowBytes : Nat) (lens : List Nat) (lo : Nat) (sc : List Byte) (k i : Nat) (h : i < lens.length) :
    (partsFrom size rowBytes none lens lo sc k).getD i default = (lo + (lens.take i).sum, lens.getD i 0, (k + (lens.take i).sum) / size % 2 == 1,
      lens.getD i 0 == size, (sc.drop (rowBytes * i)).take rowBytes) := by
  induction lens generalizing lo sc k i with
  | nil => exact absurd h (Nat.not_lt_zero i)
  | cons n ns ih =>
    cases i with
    | zero => rfl
    | succ i =>
      refine (ih _ _ _ _ (Nat.lt_of_succ_lt_succ h)).trans ?_
      rw [List.take_succ_cons, List.sum_cons, List.getD_cons_succ, List.drop_drop, Nat.mul_succ, Nat.add_comm rowBytes, Nat.add_assoc, Nat.add_assoc]

theorem partsFrom_some_getD (size rowBytes : Nat) (o : OpenI) (lens : List Nat) (lo : Nat) (sc : List Byte) (k i : Nat) (h : i < lens.length) :
    (partsFrom size rowBytes (some o) lens lo sc k).getD i default = (lo + (lens.take i).sum, lens.getD i 0,
      if i = 0 then (o.odd, o.done + lens.getD i 0 == size, o.scale)
      else ((k + (lens.take i).sum) / size % 2 == 1, lens.getD i 0 == size, (sc.drop (rowBytes * (i - 1))).take rowBytes)) := by
  cases lens with
  | nil => exact absurd h (Nat.not_lt_zero i)
  | cons n ns =>
    cases i with
    | zero => rfl
    | succ i =>
      refine (partsFrom_none_getD size rowBytes ns _ _ _ _ (Nat.lt_of_succ_lt_succ h)).trans ?_
      rw [List.take_succ_cons, List.sum_cons, List.getD_cons_succ, if_neg (Nat.succ_ne_zero i), Nat.add_sub_cancel, Nat.add_assoc, Nat.add_assoc]

/-! ### A part's sum, scaled into its chain (R224) -/

theorem scaleTerm_fin (env : FpEnv) (n n' : Bool) (m m' : Nat) (e e' i : Int) :
    scaleTerm env (.fin n m e) (.fin n' m' e') i = resultFin fp32 env ((n != n') != decide (i < 0)) (m * m' * i.natAbs) (e + e') := rfl

theorem asymmetricSumsHold_holds : asymmetricSumsHold := by
  refine ⟨fun size op lens rowBytes sc first i hi => ?_, fun env row col r c rows ps lo n odd closes sc x => ?_, scaleTerm_fin⟩
  · rw [aiParts_eq]
    cases op with
    | none =>
      rw [partsFrom_none_getD _ _ _ _ _ _ _ hi, Nat.zero_add]
      exact ⟨rfl, rfl, nofun, fun _ => rfl⟩
    | some o =>
      rw [partsFrom_some_getD _ _ _ _ _ _ _ _ hi, Nat.zero_add]
      refine ⟨rfl, rfl, fun _ h0 ho => ?_, fun h => ?_⟩
      · rw [if_pos h0, Option.some.inj ho]
      · rw [if_neg (h.resolve_right nofun)]
        rfl
  · simp only [aiElem, List.foldl_append, List.foldl_cons, List.foldl_nil]
    cases closes <;> cases odd <;> exact ⟨rfl, rfl, rfl⟩

end Sys2Proof.Machine
end

section
/-! PROOFS. What MMA_COMPLETE delivers (O44). -/

namespace Sys2Proof.Machine

open Sys2Proof.Claims

/-! ### A product that a group has pending, element by element (R342, R343) -/

/-- The logical k of the slab; the group of k that goes on in it, and how many k came before it since .z (R224). -/
def MmaPend.slab (m : MmaPend) : Nat := slabK m.sparse m.f.ty
def MmaPend.openOf (m : MmaPend) (g : Grp) : Option OpenI := if VF.z m.f then none else g.openI
def MmaPend.begun (m : MmaPend) (g : Grp) : Nat := if VF.z m.f then 0 else g.mmaK
/-- The lengths of the parts of groups in the slab of an asymmetric format, and the parts. -/
def MmaPend.lens (m : MmaPend) (g : Grp) : List Nat :=
  segments (VF.group m.f) (m.slab + 1) (match m.openOf g with | some o => o.size - o.done | none => VF.group m.f) m.slab
def MmaPend.parts (m : MmaPend) (g : Grp) : List (Nat × Nat × Bool × Bool × List Byte) :=
  aiParts (VF.group m.f) (m.openOf g) (m.lens g) (4 * (16 + g.gw / 2)) m.scale (m.begun g)

/-- The chains that an element starts from. -/
def MmaPend.startEven (m : MmaPend) (l e : Nat) : Nat × W32 :=
  let c := opnd (accFmt m.f.ty) (cellEnv m l) e
  let bits := match unpack (accFmt m.f.ty) e, c with
    | .fin neg _ _, .fin _ 0 _ => (accFmt m.f.ty).signed neg 0
    | .nan .., _ => (accFmt m.f.ty).nanBits
    | _, _ => e
  if !VF.z m.f then (e, 0) else if VF.c' m.f then (bits, nvOf [c]) else (0, 0)
def MmaPend.startOdd (m : MmaPend) (o : Nat) : Nat × W32 := (if VF.z m.f then 0 else o, 0)

/-- What an element starts from, by the registers of its fragment. -/
def MmaPend.start (m : MmaPend) (l ei oi : Nat) : Chains :=
  (m.startEven l (m.old (m.f.ty == .f64) l ei).n, m.startOdd (m.old (m.f.ty == .f64) l oi).n)

/-- The rows and columns of operands that meet in an element. -/
def MmaPend.row (m : MmaPend) (r : Nat) : List (Nat × Nat) := keptRow m.sparse m.f.ty m.a m.mta r
def MmaPend.col (m : MmaPend) (c k : Nat) : Nat := matElem (matBits m.f.ty) m.b (c * m.slab + k)
/-- What an asymmetric element has gathered when the slab begins. -/
def MmaPend.gathered (m : MmaPend) (g : Grp) (r c : Nat) (x : Chains) : AiElem :=
  { ev := x.1, od := x.2, sum := match m.openOf g with | some q => q.sums.getD (r * (g.gw / 2) + c) 0 | none => 0 }
/-- The chains continued over the slab, with the sum of a group that stays open. -/
def MmaPend.continued (m : MmaPend) (g : Grp) (l r c : Nat) (x : Chains) : Chains × Int :=
  if m.f.ty.isAi then
    let y := aiElem (cellEnv m l) (m.row r) (m.col c) r c 16 (m.parts g) (m.gathered g r c x)
    ((y.ev, y.od), y.sum)
  else (nativeElem m.f.ty (cellEnv m l) (m.row r) (m.col c) m.slab x.1 x.2, 0)
/-- The odd chain added into the even one under .e. -/
def MmaPend.joined (m : MmaPend) (l : Nat) (x : Chains) : Chains :=
  if VF.e m.f then
    (chainAdd (accFmt m.f.ty) (cellEnv m l) (x.1.1, x.1.2 ||| x.2.2) (unpack (accFmt m.f.ty) x.2.1, 0), (0, 0))
  else x

/-- The element at a row and a column: its lane and chains, or none where it is poisoned; and its open sum. -/
def MmaPend.cell (m : MmaPend) (g : Grp) (r c : Nat) : Option (Nat × Chains) × Int :=
  let (l, ei, oi) := fragPlace (m.f.ty == .f64) (g.gw / 2) r c
  let y := m.continued g l r c (m.start l ei oi)
  (if poisonedStart m l ei oi then none else some (l, m.joined l y.1), y.2)

/-- A v register of a lane written. -/
def Grp.putV (g : Grp) (l j : Nat) (r : Reg) : Grp := g.modLane l fun y => y.putRegs g.wb (.v (Fin.ofNat 64 j)) [r]
/-- A value put at register i of the fragment in lane l, but for the registers that the product has lost. -/
def MmaPend.putAt (m : MmaPend) (l : Nat) (g : Grp) (i : Nat) (v : Val) : Grp :=
  ((v.regs (m.f.ty == .f64)).zip [0, 1]).foldl (fun g r =>
    let j := m.f.d.vIdx + i + r.2
    if m.cancel.contains (j, l) then g else g.putV l j r.1) g
/-- An element delivered into the fragment of a group whose operand B has n columns. -/
def MmaPend.putCell (m : MmaPend) (n : Nat) (g : Grp) (x : (Nat × Nat) × Option (Nat × Chains) × Int) : Grp :=
  let (l, ei, oi) := fragPlace (m.f.ty == .f64) n x.1.1 x.1.2
  match x.2.1 with
  | some (k, ev, od) => (m.putAt l (m.putAt l g ei ⟨ev.1, false⟩) oi ⟨od.1, false⟩).modLane k fun y => y.raise (ev.2 ||| od.2)
  | none => m.putAt l (m.putAt l g ei ⟨(m.old (m.f.ty == .f64) l ei).n, true⟩) oi ⟨(m.old (m.f.ty == .f64) l oi).n, true⟩

/-- The places of the elements, in their order. -/
def cellsOf (n : Nat) : List (Nat × Nat) := (List.range 16).flatMap fun r => (List.range n).map fun c => (r, c)
/-- The group with every element delivered. -/
def MmaPend.deliver (m : MmaPend) (g : Grp) : Grp :=
  ((cellsOf (g.gw / 2)).map fun x => (x, m.cell g x.1 x.2)).foldl (m.putCell (g.gw / 2)) g

/-- A group whose product is delivered: none is pending, and what is open of a group of k, and how many k came since .z, as given. -/
def Grp.mmaDone (g : Grp) (op : Option OpenI) (k : Nat) : Grp := { g with mmaPend := none, openI := op, mmaK := k }

theorem Grp.mmaDone_congr {g g' : Grp} {op : Option OpenI} {k : Nat} (h : g = g') :
    ({ g with mmaPend := none, openI := op, mmaK := k } : Grp) = g'.mmaDone op k := congrArg (·.mmaDone op k) h

/-- The state in which the product of a group is delivered. -/
def State.mmaDone (s : State) (grp : Nat) (m : MmaPend) (op : Option OpenI) : State :=
  (((s.focusGrp grp).setG ((m.deliver (s.grpAt grp)).mmaDone op (m.begun (s.grpAt grp) + m.slab))).debitAt ((s.focusGrp grp).foc.core / 96)
    (macEnergy m.f.ty ((s.grpAt grp).gw / 2))).bump

/-- MMA_COMPLETE of a group with a product pending. -/
theorem execMmaComplete_eq {s : State} {grp : Nat} {m : MmaPend} (h : (s.grpAt grp).mmaPend = some m) :
    ∃ op, exec (.mmaComplete grp) s = .next (s.mmaDone grp m op) := by
  show ∃ op, execMmaComplete grp s = _
  unfold execMmaComplete
  rw [h]
  refine ⟨_, congrArg (fun g => Host.Outcome.next (((State.setG (s.focusGrp grp) g).debitAt _ _).bump)) (Grp.mmaDone_congr (g' := m.deliver (s.grpAt grp)) ?_)⟩
  unfold MmaPend.deliver
  refine congr (congrFun (congrArg List.foldl ?_) _) (congrFun (congrArg List.map ?_) _)
  · rfl
  · funext x
    refine congrArg (Prod.mk x) ?_
    unfold MmaPend.cell MmaPend.continued MmaPend.joined
    cases m.f.ty.isAi <;> cases VF.e m.f <;> rfl

/-! ### What the delivery of an element leaves alone -/

theorem Grp.lane_putV (g : Grp) (l j l' : Nat) (r : Reg) :
    (g.putV l j r).lane l' = if l = l' then { g.lane l with v := bankPut {} (g.lane l).v (g.wb + j % 64) r } else g.lane l' :=
  Grp.lane_setLane _ _ _ _

theorem Grp.vReg_putV (g : Grp) {j : Nat} (hj : j < 64) (l l' j' : Nat) (r : Reg) :
    (g.putV l j r).vReg l' j' = if l = l' ∧ j = j' then r else g.vReg l' j' := by
  rw [Grp.vReg, Grp.lane_putV, Nat.mod_eq_of_lt hj]
  show bankGet (if l = l' then _ else _ : Lane).v {} (g.wb + j') = _
  by_cases hl : l = l'
  · subst hl
    rw [if_pos rfl, bankGet_put]
    by_cases h : j = j'
    · rw [if_pos (by rw [h]), if_pos ⟨rfl, h⟩]
    · rw [if_neg (by omega), if_neg (fun x => h x.2)]
      rfl
  · rw [if_neg hl, if_neg (fun x => hl x.1)]
    rfl

/-- From g to h nothing of the group changes but registers of the fragment, and flags that are raised. -/
structure FragFrame (m : MmaPend) (g h : Grp) : Prop where
  grp : ∃ x, h = { g with lanes := x }
  lane : ∀ l, (h.lane l).pc = (g.lane l).pc ∧ (h.lane l).k = (g.lane l).k
  regs : ∀ l j, (j < g.wb + m.f.d.vIdx ∨ g.wb + m.f.d.vIdx + fragRegs m.f.ty ≤ j) → bankGet (h.lane l).v {} j = bankGet (g.lane l).v {} j
  flags : ∀ l, (h.lane l).fpl &&& (g.lane l).fpl = (g.lane l).fpl

theorem FragFrame.refl (m : MmaPend) (g : Grp) : FragFrame m g g := ⟨⟨_, rfl⟩, fun _ => ⟨rfl, rfl⟩, fun _ _ _ => rfl, fun _ => BitVec.and_self⟩

theorem FragFrame.wb {m : MmaPend} {g h : Grp} (e : FragFrame m g h) : h.wb = g.wb := by
  obtain ⟨_, rfl⟩ := e.grp
  rfl

theorem and_eq_right_trans {a b c : W32} (h : b &&& a = a) (h' : c &&& b = b) : c &&& a = a := by
  rw [← h, ← BitVec.and_assoc, h']

theorem FragFrame.trans {m : MmaPend} {g h i : Grp} (e : FragFrame m g h) (e' : FragFrame m h i) : FragFrame m g i where
  grp := by
    obtain ⟨_, rfl⟩ := e.grp
    obtain ⟨y, rfl⟩ := e'.grp
    exact ⟨y, rfl⟩
  lane l := ⟨(e'.lane l).1.trans (e.lane l).1, (e'.lane l).2.trans (e.lane l).2⟩
  regs l j hj := (e'.regs l j (by rwa [e.wb])).trans (e.regs l j hj)
  flags l := and_eq_right_trans (e.flags l) (e'.flags l)

theorem FragFrame.putV {m : MmaPend} (g : Grp) {j : Nat} (hj : m.f.d.vIdx ≤ j ∧ j < m.f.d.vIdx + fragRegs m.f.ty)
    (hd : m.f.d.vIdx + fragRegs m.f.ty ≤ 64) (l : Nat) (r : Reg) : FragFrame m g (g.putV l j r) where
  grp := ⟨_, rfl⟩
  lane k := by
    rw [Grp.lane_putV]
    split
    · rename_i e
      exact e ▸ ⟨rfl, rfl⟩
    · exact ⟨rfl, rfl⟩
  regs k i hi := by
    rw [Grp.lane_putV]
    split
    · rename_i e
      rw [bankGet_put, if_neg (by omega), e]
    · rfl
  flags k := by
    rw [Grp.lane_putV]
    split
    · rename_i e
      exact e ▸ BitVec.and_self
    · exact BitVec.and_self

theorem FragFrame.raise (m : MmaPend) (g : Grp) (l : Nat) (fl : W32) : FragFrame m g (g.modLane l fun y => y.raise fl) where
  grp := ⟨_, rfl⟩
  lane k := by
    rw [Grp.modLane, Grp.lane_setLane]
    split
    · rename_i e
      exact e ▸ ⟨rfl, rfl⟩
    · exact ⟨rfl, rfl⟩
  regs k i _ := by
    rw [Grp.modLane, Grp.lane_setLane]
    split
    · rename_i e
      exact e ▸ rfl
    · rfl
  flags k := by
    rw [Grp.modLane, Grp.lane_setLane]
    split
    · rename_i e
      exact e ▸ or_and_self_left _ _
    · exact BitVec.and_self

/-- The registers of an element of the fragment. -/
def MmaPend.width (m : MmaPend) : Nat := if m.f.ty == .f64 then 2 else 1

/-- The registers of a value, counted from 0. -/
theorem regs_zip_lt {v : Val} {w : Bool} {r : Reg × Nat} (h : r ∈ (v.regs w).zip [0, 1]) : r.2 < if w then 2 else 1 := by
  cases w with
  | false =>
    rw [List.mem_singleton.mp h]
    exact Nat.one_pos
  | true =>
    rcases List.mem_cons.mp h with rfl | h
    · exact Nat.two_pos
    · rw [List.mem_singleton.mp h]
      exact Nat.one_lt_two

theorem FragFrame.putAt {m : MmaPend} (g : Grp) {i : Nat} (hi : i + m.width ≤ fragRegs m.f.ty) (hd : m.f.d.vIdx + fragRegs m.f.ty ≤ 64)
    (l : Nat) (v : Val) : FragFrame m g (m.putAt l g i v) := by
  refine List.foldlRecOn (motive := FragFrame m g) _ _ (.refl m g) fun h e r hr => ?_
  have hr2 : r.2 < m.width := regs_zip_lt hr
  dsimp only
  split
  · exact e
  · exact e.trans (.putV h (by omega) hd l r.1)

/-! ### The places of the elements (R342) -/

/-- The place of an element, by the registers that it takes. -/
theorem fragPlace_eq (m : MmaPend) (n r c : Nat) : fragPlace (m.f.ty == .f64) n r c =
    (r % 2 * n + c, m.width * (r / 2), 8 * m.width + m.width * (r / 2)) := by
  unfold fragPlace MmaPend.width
  cases m.f.ty == Ty.f64 <;> simp

theorem MmaPend.fragRegs_eq (m : MmaPend) : fragRegs m.f.ty = 16 * m.width := by
  unfold fragRegs MmaPend.width
  cases m.f.ty == Ty.f64 <;> rfl

theorem MmaPend.width_pos (m : MmaPend) : 0 < m.width := by
  unfold MmaPend.width
  split <;> decide

/-- Two values of the fragment that share no register. -/
def MmaPend.apart (m : MmaPend) (l i l' i' : Nat) : Prop := l = l' → i + m.width ≤ i' ∨ i' + m.width ≤ i

theorem mul_add_width_le {w a b : Nat} (h : a < b) : w * a + w ≤ w * b := by
  rw [← Nat.mul_succ]
  exact Nat.mul_le_mul_left w h

/-- The even values of two elements, their odd values, and an even and an odd value share no register. -/
theorem MmaPend.apart_of_ne (m : MmaPend) {n r c r' c' : Nat} (hc : c < n) (hc' : c' < n) (h : (r, c) ≠ (r', c')) (a : Nat) :
    m.apart (r % 2 * n + c) (a + m.width * (r / 2)) (r' % 2 * n + c') (a + m.width * (r' / 2)) := by
  intro hl
  have hr : r / 2 ≠ r' / 2 := by
    intro hr
    rcases Nat.mod_two_eq_zero_or_one r with h1 | h1 <;> rcases Nat.mod_two_eq_zero_or_one r' with h2 | h2 <;> rw [h1, h2] at hl <;>
      exact h (Prod.ext (show r = r' by omega) (show c = c' by omega))
  rcases Nat.lt_or_gt_of_ne hr with hr | hr
  · have := mul_add_width_le (w := m.width) hr
    omega
  · have := mul_add_width_le (w := m.width) hr
    omega

theorem MmaPend.apart_even_odd (m : MmaPend) {r : Nat} (hr : r < 16) (r' l l' : Nat) :
    m.apart l (m.width * (r / 2)) l' (8 * m.width + m.width * (r' / 2)) := by
  intro _
  have := mul_add_width_le (w := m.width) (show r / 2 < 8 by omega)
  omega

theorem MmaPend.apart_odd_even (m : MmaPend) {r : Nat} (hr : r < 16) (r' l l' : Nat) :
    m.apart l' (8 * m.width + m.width * (r' / 2)) l (m.width * (r / 2)) := fun h => (m.apart_even_odd hr r' l l' h.symm).symm

/-! ### The values that an element leaves -/

/-- What stands at a register of a group's lane (see `holdsAt`). -/
def Grp.holds (g : Grp) (l i : Nat) (w : Bool) (v : Val) : Prop :=
  g.vReg l i = (Val.regs v w).getD 0 {} ∧ (w = true → g.vReg l (i + 1) = (Val.regs v w).getD 1 {})

section
variable {m : MmaPend} (hc : m.cancel = [])
include hc

/-- Values of 32 bits take one register, and values of 64 bits two. -/
theorem MmaPend.putAt_eq (g : Grp) (l i : Nat) (v : Val) : m.putAt l g i v =
    if m.f.ty == .f64 then (g.putV l (m.f.d.vIdx + i) ((v.regs true).getD 0 {})).putV l (m.f.d.vIdx + i + 1) ((v.regs true).getD 1 {})
    else g.putV l (m.f.d.vIdx + i) ((v.regs false).getD 0 {}) := by
  unfold MmaPend.putAt
  rw [hc]
  cases m.f.ty == Ty.f64 <;> rfl

variable (hd : m.f.d.vIdx + fragRegs m.f.ty ≤ 64)
include hd

theorem MmaPend.holds_putAt {i : Nat} (hi : i + m.width ≤ fragRegs m.f.ty) (g : Grp) (l : Nat) (v : Val) :
    (m.putAt l g i v).holds l (m.f.d.vIdx + i) (m.f.ty == .f64) v := by
  rw [MmaPend.putAt_eq hc]
  unfold MmaPend.width at hi
  cases hw : m.f.ty == Ty.f64 with
  | false =>
    rw [hw, if_neg Bool.false_ne_true] at hi
    exact ⟨(Grp.vReg_putV _ (by omega) _ _ _ _).trans (if_pos ⟨rfl, rfl⟩), nofun⟩
  | true =>
    rw [hw, if_pos rfl] at hi
    refine ⟨?_, fun _ => (Grp.vReg_putV _ (by omega) _ _ _ _).trans (if_pos ⟨rfl, rfl⟩)⟩
    refine (Grp.vReg_putV _ (by omega) _ _ _ _).trans ((if_neg (by omega)).trans ?_)
    exact (Grp.vReg_putV _ (by omega) _ _ _ _).trans (if_pos ⟨rfl, rfl⟩)

theorem MmaPend.vReg_putAt_of_ne {i : Nat} (hi : i + m.width ≤ fragRegs m.f.ty) (g : Grp) {l l' j : Nat} (v : Val)
    (h : l = l' → j < m.f.d.vIdx + i ∨ m.f.d.vIdx + i + m.width ≤ j) : (m.putAt l g i v).vReg l' j = g.vReg l' j := by
  rw [MmaPend.putAt_eq hc]
  unfold MmaPend.width at hi h
  cases hw : m.f.ty == Ty.f64 with
  | false =>
    rw [hw, if_neg Bool.false_ne_true] at hi h
    exact (Grp.vReg_putV _ (by omega) _ _ _ _).trans (if_neg (by omega))
  | true =>
    rw [hw, if_pos rfl] at hi h
    refine (Grp.vReg_putV _ (by omega) _ _ _ _).trans ((if_neg (by omega)).trans ?_)
    exact (Grp.vReg_putV _ (by omega) _ _ _ _).trans (if_neg (by omega))

theorem MmaPend.holds_putAt_of_apart {i : Nat} (hi : i + m.width ≤ fragRegs m.f.ty) {g : Grp} {l l' i' : Nat} (v : Val) {v' : Val} (ha : m.apart l i l' i')
    (h : g.holds l' (m.f.d.vIdx + i') (m.f.ty == .f64) v') : (m.putAt l g i v).holds l' (m.f.d.vIdx + i') (m.f.ty == .f64) v' := by
  have hw := m.width_pos
  unfold MmaPend.apart at ha
  refine ⟨(MmaPend.vReg_putAt_of_ne hc hd hi g v (by omega)).trans h.1, fun hf => ?_⟩
  have h2 : m.width = 2 := if_pos hf
  exact (MmaPend.vReg_putAt_of_ne hc hd hi g v (by omega)).trans (h.2 hf)

end

/-! ### An element delivered -/

/-- The values that an element leaves at its even and its odd place, and the flags that it raises. -/
def MmaPend.evenVal (m : MmaPend) (l i : Nat) : Option (Nat × Chains) → Val
  | some (_, ev, _) => ⟨ev.1, false⟩
  | none => ⟨(m.old (m.f.ty == .f64) l i).n, true⟩
def MmaPend.oddVal (m : MmaPend) (l i : Nat) : Option (Nat × Chains) → Val
  | some (_, _, od) => ⟨od.1, false⟩
  | none => ⟨(m.old (m.f.ty == .f64) l i).n, true⟩
def Grp.raiseCell (g : Grp) : Option (Nat × Chains) → Grp
  | some (k, ev, od) => g.modLane k fun y => y.raise (ev.2 ||| od.2)
  | none => g

/-- The lane of an element, and its even and odd registers. -/
def cellLane (n : Nat) (x : Nat × Nat) : Nat := x.1 % 2 * n + x.2
def MmaPend.evenAt (m : MmaPend) (x : Nat × Nat) : Nat := m.width * (x.1 / 2)
def MmaPend.oddAt (m : MmaPend) (x : Nat × Nat) : Nat := 8 * m.width + m.width * (x.1 / 2)

theorem MmaPend.putCell_eq (m : MmaPend) (n : Nat) (g : Grp) (x : Nat × Nat) (y : Option (Nat × Chains) × Int) :
    m.putCell n g (x, y) = (m.putAt (cellLane n x) (m.putAt (cellLane n x) g (m.evenAt x) (m.evenVal (cellLane n x) (m.evenAt x) y.1)) (m.oddAt x)
      (m.oddVal (cellLane n x) (m.oddAt x) y.1)).raiseCell y.1 := by
  obtain ⟨cell, sum⟩ := y
  unfold MmaPend.putCell
  rw [fragPlace_eq]
  cases cell <;> rfl

theorem MmaPend.evenAt_le (m : MmaPend) {x : Nat × Nat} (hx : x.1 < 16) : m.evenAt x + m.width ≤ fragRegs m.f.ty := by
  have := mul_add_width_le (w := m.width) (show x.1 / 2 < 8 by omega)
  rw [m.fragRegs_eq, MmaPend.evenAt]
  omega

theorem MmaPend.oddAt_le (m : MmaPend) {x : Nat × Nat} (hx : x.1 < 16) : m.oddAt x + m.width ≤ fragRegs m.f.ty := by
  have := mul_add_width_le (w := m.width) (show x.1 / 2 < 8 by omega)
  rw [m.fragRegs_eq, MmaPend.oddAt]
  omega

theorem FragFrame.raiseCell (m : MmaPend) (g : Grp) (o : Option (Nat × Chains)) : FragFrame m g (g.raiseCell o) := by
  cases o with
  | none => exact .refl m g
  | some y => exact .raise m g y.1 _

theorem FragFrame.putCell {m : MmaPend} (hd : m.f.d.vIdx + fragRegs m.f.ty ≤ 64) (n : Nat) (g : Grp) {x : Nat × Nat} (hx : x.1 < 16)
    (y : Option (Nat × Chains) × Int) : FragFrame m g (m.putCell n g (x, y)) := by
  rw [MmaPend.putCell_eq]
  exact ((FragFrame.putAt _ (m.evenAt_le hx) hd _ _).trans (.putAt _ (m.oddAt_le hx) hd _ _)).trans (.raiseCell m _ _)

theorem Grp.holds_raiseCell {g : Grp} {o : Option (Nat × Chains)} {l i : Nat} {w : Bool} {v : Val} (h : g.holds l i w v) :
    (g.raiseCell o).holds l i w v := by
  have hv : ∀ j, (g.raiseCell o).vReg l j = g.vReg l j := by
    cases o with
    | none => exact fun _ => rfl
    | some y =>
      intro j
      rw [Grp.raiseCell, Grp.vReg, Grp.modLane, Grp.lane_setLane]
      split
      · rename_i e
        exact e ▸ rfl
      · rfl
  unfold Grp.holds
  rw [hv, hv]
  exact h

/-- The values of an element stand in its lane. -/
def MmaPend.stands (m : MmaPend) (n : Nat) (x : Nat × Nat) (o : Option (Nat × Chains)) (g : Grp) : Prop :=
  g.holds (cellLane n x) (m.f.d.vIdx + m.evenAt x) (m.f.ty == .f64) (m.evenVal (cellLane n x) (m.evenAt x) o) ∧
  g.holds (cellLane n x) (m.f.d.vIdx + m.oddAt x) (m.f.ty == .f64) (m.oddVal (cellLane n x) (m.oddAt x) o)

section
variable {m : MmaPend} (hc : m.cancel = []) (hd : m.f.d.vIdx + fragRegs m.f.ty ≤ 64) {n : Nat} {x : Nat × Nat} (hx : x.1 < 16)
include hc hd hx

theorem MmaPend.stands_putCell (g : Grp) (y : Option (Nat × Chains) × Int) : m.stands n x y.1 (m.putCell n g (x, y)) := by
  rw [MmaPend.putCell_eq]
  exact ⟨Grp.holds_raiseCell (MmaPend.holds_putAt_of_apart hc hd (m.oddAt_le hx) _ (m.apart_odd_even hx x.1 _ _)
    (MmaPend.holds_putAt hc hd (m.evenAt_le hx) _ _ _)), Grp.holds_raiseCell (MmaPend.holds_putAt hc hd (m.oddAt_le hx) _ _ _)⟩

theorem MmaPend.stands_putCell_of_ne (hxn : x.2 < n) {z : Nat × Nat} (hz : z.1 < 16) (hzn : z.2 < n) (hne : z ≠ x) {o : Option (Nat × Chains)} {g : Grp}
    (y : Option (Nat × Chains) × Int) (h : m.stands n x o g) : m.stands n x o (m.putCell n g (z, y)) := by
  rw [MmaPend.putCell_eq]
  obtain ⟨he, ho⟩ := h
  have hee : m.apart (cellLane n z) (m.evenAt z) (cellLane n x) (m.evenAt x) := by
    have h0 := m.apart_of_ne hzn hxn hne 0
    rwa [Nat.zero_add, Nat.zero_add] at h0
  have hoo : m.apart (cellLane n z) (m.oddAt z) (cellLane n x) (m.oddAt x) := m.apart_of_ne hzn hxn hne (8 * m.width)
  exact ⟨Grp.holds_raiseCell (MmaPend.holds_putAt_of_apart hc hd (m.oddAt_le hz) _ (m.apart_odd_even hx z.1 _ _)
      (MmaPend.holds_putAt_of_apart hc hd (m.evenAt_le hz) _ hee he)),
    Grp.holds_raiseCell (MmaPend.holds_putAt_of_apart hc hd (m.oddAt_le hz) _ hoo
      (MmaPend.holds_putAt_of_apart hc hd (m.evenAt_le hz) _ (m.apart_even_odd hz x.1 _ _) ho))⟩

end

/-- The flags of an element are raised in its lane. -/
def raisedIn (o : Option (Nat × Chains)) (g : Grp) : Prop :=
  ∀ k y, o = some (k, y) → (g.lane k).fpl &&& (y.1.2 ||| y.2.2) = y.1.2 ||| y.2.2

theorem raisedIn_putCell (m : MmaPend) (n : Nat) (g : Grp) (x : Nat × Nat) (y : Option (Nat × Chains) × Int) :
    raisedIn y.1 (m.putCell n g (x, y)) := by
  intro k z hz
  rw [MmaPend.putCell_eq, hz, Grp.raiseCell, Grp.modLane, Grp.lane_setLane, if_pos rfl, Lane.raise_fpl, BitVec.or_comm]
  exact or_and_self_left _ _

theorem FragFrame.raisedIn {m : MmaPend} {g h : Grp} (e : FragFrame m g h) {o : Option (Nat × Chains)} (hr : raisedIn o g) : raisedIn o h :=
  fun k y ho => and_eq_right_trans (hr k y ho) (e.flags k)

/-! ### The fragment delivered -/

theorem mem_cellsOf {n : Nat} {x : Nat × Nat} : x ∈ cellsOf n ↔ x.1 < 16 ∧ x.2 < n := by
  obtain ⟨r, c⟩ := x
  simp [cellsOf]

theorem MmaPend.deliver_eq (m : MmaPend) (g : Grp) :
    m.deliver g = (cellsOf (g.gw / 2)).foldl (fun h x => m.putCell (g.gw / 2) h (x, m.cell g x.1 x.2)) g := List.foldl_map

theorem FragFrame.deliver {m : MmaPend} (hd : m.f.d.vIdx + fragRegs m.f.ty ≤ 64) (g : Grp) : FragFrame m g (m.deliver g) := by
  rw [MmaPend.deliver_eq]
  exact List.foldlRecOn (motive := FragFrame m g) _ _ (.refl m g) fun h e x hx => e.trans (.putCell hd _ h (mem_cellsOf.mp hx).1 _)

/-- What a step over one element of a list establishes, and no step over another undoes, holds at the end. -/
theorem foldl_establishes {α β : Type} [DecidableEq α] {P : β → Prop} {f : β → α → β} {xs : List α} {x : α} (hx : x ∈ xs) (hset : ∀ b, P (f b x))
    (hkeep : ∀ y ∈ xs, y ≠ x → ∀ b, P b → P (f b y)) (b : β) : P (xs.foldl f b) := by
  induction xs generalizing b with
  | nil => exact absurd hx List.not_mem_nil
  | cons y ys ih =>
    obtain ⟨-, hys⟩ := List.forall_mem_cons.mp hkeep
    by_cases h : x ∈ ys
    · exact ih h hys _
    · obtain rfl := (List.mem_cons.mp hx).resolve_right h
      rw [List.foldl_cons]
      exact List.foldlRecOn (motive := P) _ _ (hset b) fun c hc z hz => hys z hz (fun e => h (e ▸ hz)) c hc

/-- The elements delivered in their order, whatever they are: each leaves its values and its flags. -/
theorem MmaPend.foldl_putCell {m : MmaPend} (hc : m.cancel = []) (hd : m.f.d.vIdx + fragRegs m.f.ty ≤ 64) (n : Nat)
    (cell : Nat × Nat → Option (Nat × Chains) × Int) {x : Nat × Nat} (hx : x.1 < 16) (hn : x.2 < n) (g : Grp) :
    let h := (cellsOf n).foldl (fun h x => m.putCell n h (x, cell x)) g
    m.stands n x (cell x).1 h ∧ raisedIn (cell x).1 h := by
  refine foldl_establishes (P := fun h => m.stands n x (cell x).1 h ∧ raisedIn (cell x).1 h) (mem_cellsOf.mpr ⟨hx, hn⟩) (fun h => ?_)
    (fun z hz hne h hh => ?_) g
  · exact ⟨MmaPend.stands_putCell hc hd hx h (cell x), raisedIn_putCell m n h x (cell x)⟩
  · obtain ⟨hz1, hz2⟩ := mem_cellsOf.mp hz
    exact ⟨MmaPend.stands_putCell_of_ne hc hd hx hn hz1 hz2 hne (cell z) hh.1, (FragFrame.putCell hd n h hz1 (cell z)).raisedIn hh.2⟩

theorem MmaPend.deliver_cell {m : MmaPend} (hc : m.cancel = []) (hd : m.f.d.vIdx + fragRegs m.f.ty ≤ 64) (g : Grp) {x : Nat × Nat}
    (hx : x.1 < 16) (hn : x.2 < g.gw / 2) :
    m.stands (g.gw / 2) x (m.cell g x.1 x.2).1 (m.deliver g) ∧ raisedIn (m.cell g x.1 x.2).1 (m.deliver g) := by
  rw [MmaPend.deliver_eq]
  exact MmaPend.foldl_putCell hc hd _ (fun x => m.cell g x.1 x.2) hx hn g

/-! ### MMA_COMPLETE (R343, R345) -/

section
variable (s : State) (grp : Nat) (m : MmaPend) (op : Option OpenI)

theorem State.grpAt_mmaDone (k : Nat) : (s.mmaDone grp m op).grpAt k =
    if grp = k then (m.deliver (s.grpAt grp)).mmaDone op (m.begun (s.grpAt grp) + m.slab) else s.grpAt k :=
  State.grpAt_setGrpAt (s.focusGrp grp) grp k _

theorem State.grpAt_mmaDone_self : (s.mmaDone grp m op).grpAt grp = (m.deliver (s.grpAt grp)).mmaDone op (m.begun (s.grpAt grp) + m.slab) := by
  rw [State.grpAt_mmaDone, if_pos rfl]

theorem State.mmaDone_debited : bankGet (s.mmaDone grp m op).debited 0 ((s.focusGrp grp).foc.core / 96) =
    bankGet s.debited 0 ((s.focusGrp grp).foc.core / 96) + macEnergy m.f.ty ((s.grpAt grp).gw / 2) :=
  (bankGet_put _ _ _ _ _).trans (if_pos rfl)

end

/-- MMA_COMPLETE changes nothing but its group, and of that nothing but the fragment, the flags and the product. -/
theorem mmaComplete_frame {grp : Nat} {m : MmaPend} {s : State} (h : (s.grpAt grp).mmaPend = some m) (hd : m.f.d.vIdx + fragRegs m.f.ty ≤ 64) :
    ∃ t, exec (.mmaComplete grp) s = .next t ∧ t.mem = s.mem ∧ (t.grpAt grp).mmaPend = none ∧ (∀ k, k ≠ grp → t.grpAt k = s.grpAt k) ∧
      ∀ l, ((t.grpAt grp).lane l).pc = ((s.grpAt grp).lane l).pc ∧ ((t.grpAt grp).lane l).k = ((s.grpAt grp).lane l).k ∧
        ∀ j, (j < (s.grpAt grp).wb + m.f.d.vIdx ∨ (s.grpAt grp).wb + m.f.d.vIdx + fragRegs m.f.ty ≤ j) →
          bankGet ((t.grpAt grp).lane l).v {} j = bankGet ((s.grpAt grp).lane l).v {} j := by
  obtain ⟨op, he⟩ := execMmaComplete_eq h
  have hf := FragFrame.deliver hd (s.grpAt grp)
  refine ⟨_, he, rfl, ?_, fun k hk => ?_, fun l => ?_⟩
  · rw [State.grpAt_mmaDone_self]
    rfl
  · rw [State.grpAt_mmaDone, if_neg (Ne.symm hk)]
  · rw [State.grpAt_mmaDone_self]
    exact ⟨(hf.lane l).1, (hf.lane l).2, hf.regs l⟩

/-! ### The chains of an element (R222, R338, R343) -/

theorem opnd_eq_inf {f : Fmt} {env : FpEnv} {e : Nat} {neg : Bool} (h : opnd f env e = .inf neg) : unpack f e = .inf neg := by
  unfold opnd at h
  split at h
  · split at h <;> cases h
  · exact h

/-- A number of C that is not zero as DAZ reads it stands as it is. -/
theorem opnd_eq_fin {f : Fmt} {env : FpEnv} {e k : Nat} {neg : Bool} {ex : Int} (h : opnd f env e = .fin neg k ex) : ∃ k', unpack f e = .fin neg k' ex := by
  unfold opnd at h
  split at h
  · rename_i hu
    split at h <;> cases h <;> exact ⟨_, hu⟩
  · exact ⟨k, h⟩

theorem MmaPend.startEven_of_not_z {m : MmaPend} (l e : Nat) (hz : VF.z m.f = false) : m.startEven l e = (e, 0) := by
  rw [MmaPend.startEven, hz]
  rfl

theorem MmaPend.startEven_of_z {m : MmaPend} (l e : Nat) (hz : VF.z m.f = true) (hc : VF.c' m.f = false) : m.startEven l e = (0, 0) := by
  rw [MmaPend.startEven, hz, hc]
  rfl

theorem MmaPend.startEven_of_inf {m : MmaPend} {l e : Nat} (hz : VF.z m.f = true) (hc : VF.c' m.f = true) {neg : Bool}
    (h : opnd (accFmt m.f.ty) (cellEnv m l) e = .inf neg) : m.startEven l e = (e, 0) := by
  rw [MmaPend.startEven, hz, hc, h, opnd_eq_inf h]
  rfl

theorem MmaPend.startEven_of_fin {m : MmaPend} {l e : Nat} (hz : VF.z m.f = true) (hc : VF.c' m.f = true) {neg : Bool} {k : Nat} {ex : Int}
    (h : opnd (accFmt m.f.ty) (cellEnv m l) e = .fin neg k ex) (hk : k ≠ 0) : m.startEven l e = (e, 0) := by
  obtain ⟨k', hu⟩ := opnd_eq_fin h
  obtain ⟨k, rfl⟩ := Nat.exists_eq_succ_of_ne_zero hk
  rw [MmaPend.startEven, hz, hc, h, hu]
  rfl

theorem MmaPend.startsFrom_start (m : MmaPend) (l ei oi : Nat) : startsFrom m l ei oi (m.start l ei oi) := by
  refine ⟨fun hz => ?_, fun hz => ?_, fun hz hc => MmaPend.startEven_of_z l _ hz hc, fun hz hc _ h => MmaPend.startEven_of_inf hz hc h,
    fun hz hc _ _ _ h hk => MmaPend.startEven_of_fin hz hc h hk⟩
  · rw [MmaPend.start, MmaPend.startEven_of_not_z l _ hz, MmaPend.startOdd, hz]
    rfl
  · rw [MmaPend.start, MmaPend.startOdd, hz]
    rfl

/-- What the model delivers of the chains is what R222 says. -/
theorem MmaPend.joined_eq (m : MmaPend) (l : Nat) (x : Chains) : m.joined l x = endsAs m l x := by
  unfold MmaPend.joined endsAs
  split
  · simp [chainAdd]
  · rfl

theorem MmaPend.cell_of_poisoned {m : MmaPend} {g : Grp} {r c l ei oi : Nat} (hp : fragPlace (m.f.ty == .f64) (g.gw / 2) r c = (l, ei, oi))
    (h : poisonedStart m l ei oi = true) : (m.cell g r c).1 = none := by
  rw [MmaPend.cell, hp]
  exact if_pos h

theorem MmaPend.cell_of_not_poisoned {m : MmaPend} {g : Grp} {r c l ei oi : Nat} (hp : fragPlace (m.f.ty == .f64) (g.gw / 2) r c = (l, ei, oi))
    (h : poisonedStart m l ei oi = false) : (m.cell g r c).1 = some (l, endsAs m l (m.continued g l r c (m.start l ei oi)).1) := by
  rw [MmaPend.cell, hp, ← MmaPend.joined_eq]
  exact if_neg (by rw [h]; exact Bool.false_ne_true)

theorem MmaPend.continued_native {m : MmaPend} (h : m.f.ty.isAi = false) (g : Grp) (l r c : Nat) (x : Chains) :
    (m.continued g l r c x).1 = nativeElem m.f.ty (cellEnv m l) (m.row r) (m.col c) m.slab x.1 x.2 := by
  rw [MmaPend.continued, h]
  rfl

theorem MmaPend.continued_ai {m : MmaPend} (h : m.f.ty.isAi = true) (g : Grp) (l r c : Nat) (x : Chains) :
    (m.continued g l r c x).1 = ((aiElem (cellEnv m l) (m.row r) (m.col c) r c 16 (m.parts g) (m.gathered g r c x)).ev,
      (aiElem (cellEnv m l) (m.row r) (m.col c) r c 16 (m.parts g) (m.gathered g r c x)).od) := by
  rw [MmaPend.continued, h]
  rfl

theorem holdsAt_mmaDone {s : State} {grp : Nat} {m : MmaPend} (op : Option OpenI) {l i : Nat} {w : Bool} {v : Val}
    (h : (m.deliver (s.grpAt grp)).holds l i w v) : holdsAt (s.mmaDone grp m op) grp l i w v := by
  rw [holdsAt, State.grpAt_mmaDone_self]
  exact h

/-- What an element's values and flags are where its lane and registers are l, ei and oi. -/
theorem MmaPend.deliver_place {m : MmaPend} (hc : m.cancel = []) (hd : m.f.d.vIdx + fragRegs m.f.ty ≤ 64) (g : Grp) {r c l ei oi : Nat}
    (hr : r < 16) (hn : c < g.gw / 2) (hp : fragPlace (m.f.ty == .f64) (g.gw / 2) r c = (l, ei, oi)) :
    (m.deliver g).holds l (m.f.d.vIdx + ei) (m.f.ty == .f64) (m.evenVal l ei (m.cell g r c).1) ∧
    (m.deliver g).holds l (m.f.d.vIdx + oi) (m.f.ty == .f64) (m.oddVal l oi (m.cell g r c).1) ∧ raisedIn (m.cell g r c).1 (m.deliver g) := by
  obtain ⟨⟨he, ho⟩, hf⟩ := MmaPend.deliver_cell hc hd g (x := (r, c)) hr hn
  rw [fragPlace_eq] at hp
  cases hp
  exact ⟨he, ho, hf⟩

theorem productsHold_holds : productsHold := by
  intro grp m s hm hd hc g n kb w op lens parts _ _ _
  obtain ⟨o, he⟩ := execMmaComplete_eq hm
  have hk : ((s.mmaDone grp m o).grpAt grp).mmaK = (if VF.z m.f then 0 else g.mmaK) + kb := by
    rw [State.grpAt_mmaDone_self]
    rfl
  refine ⟨_, he, hk, State.mmaDone_debited s grp m o, ?_⟩
  intro r c hr hcn l ei oi hp row col put
  obtain ⟨heven, hodd, hf⟩ := MmaPend.deliver_place hc hd g hr hcn hp
  refine ⟨fun h => ?_, fun h => ⟨m.start l ei oi, (m.continued g l r c (m.start l ei oi)).1, m.startsFrom_start l ei oi,
    fun hai => MmaPend.continued_native hai _ _ _ _ _, fun hai => MmaPend.continued_ai hai _ _ _ _ _, ?_, ?_⟩⟩
  · rw [MmaPend.cell_of_poisoned hp h] at heven hodd
    exact ⟨holdsAt_mmaDone o heven, holdsAt_mmaDone o hodd⟩
  · rw [MmaPend.cell_of_not_poisoned hp h] at heven hodd
    exact ⟨holdsAt_mmaDone o heven, holdsAt_mmaDone o hodd⟩
  · rw [State.grpAt_mmaDone_self]
    exact hf l _ (MmaPend.cell_of_not_poisoned hp h)

end Sys2Proof.Machine
end

section
/-! PROOFS. The latch of a gang (O44). -/

namespace Sys2Proof.Machine

open Sys2Proof.Claims

/-! ### No trap changes the width of a group -/

/-- Every group is as wide as it was. -/
def State.SameWidths (s t : State) : Prop := ∀ k, (t.grpAt k).gw = (s.grpAt k).gw

theorem State.SameWidths.refl (s : State) : s.SameWidths s := fun _ => rfl
theorem State.SameWidths.trans {s t u : State} (h : s.SameWidths t) (h' : t.SameWidths u) : s.SameWidths u := fun k => (h' k).trans (h k)
theorem State.SameWidths.of_groups {s t : State} (h : t.groups = s.groups) : s.SameWidths t := fun k => by rw [State.grpAt, h]; rfl
theorem State.SameWidths.foldl {α : Type} {f : State → α → State} (hf : ∀ (s : State) (a : α), s.SameWidths (f s a)) (s : State) (l : List α) :
    s.SameWidths (l.foldl f s) := List.foldlRecOn (motive := s.SameWidths) _ _ (.refl s) fun t h a _ => h.trans (hf t a)

theorem State.sameWidths_setGrpAt (s : State) (k : Nat) {g : Grp} (h : g.gw = (s.grpAt k).gw) : s.SameWidths (s.setGrpAt k g) := by
  intro j
  rw [State.grpAt_setGrpAt]
  split
  · rename_i e
    rw [h, e]
  · rfl

theorem State.sameWidths_setG (s : State) {g : Grp} (h : g.gw = s.g.gw) : s.SameWidths (s.setG g) := s.sameWidths_setGrpAt _ h

theorem KMap.get_update {α : Type} (m : KMap α) (d : α) (f : Nat → α → α) (k : Nat) :
    (KMap.update m f).get d k = ((KMap.find m k).map (f k)).getD d := by rw [KMap.get, KMap.find_update]

theorem State.sameWidths_update {s t : State} {f : Nat → Grp → Grp} (ht : t.groups = s.groups.update f) (hf : ∀ k g, (f k g).gw = g.gw) :
    s.SameWidths t := by
  intro k
  rw [State.grpAt, State.grpAt, ht, KMap.get_update, KMap.get]
  cases KMap.find s.groups k with
  | none => rfl
  | some g => exact hf k g

theorem State.sameWidths_updated (s : State) (teams : KMap Team) {f : Nat → Grp → Grp} (hf : ∀ k g, (f k g).gw = g.gw) :
    s.SameWidths { s with teams, groups := s.groups.update f } := State.sameWidths_update rfl hf

theorem State.applyPartial_groups (s : State) (gr : Grid) (p : Partial) : (s.applyPartial gr p).groups = s.groups :=
  (State.calm_applyWord _ _ _ _ _ _ _ _ _ _ _).groups.trans (((s.sameGrids_meet _ _ _).trans (State.sameGrids_gather _ _)).groups)

theorem State.abandonEpoch_groups (s : State) (k : Nat) : (s.abandonEpoch k).groups = s.groups :=
  List.foldlRecOn (motive := fun t : State => t.groups = s.groups) _ _ rfl fun t h _ _ => (t.applyPartial_groups _ _).trans h

theorem State.unlockLines_groups (s : State) (ls : List Nat) : (s.unlockLines ls).groups = s.groups :=
  List.foldlRecOn (motive := fun t : State => t.groups = s.groups) _ _ rfl fun _ h _ _ => h

theorem State.sameWidths_endGrid (s : State) (k cause info : Nat) : s.SameWidths (s.endGrid k cause info) := by
  unfold State.endGrid
  dsimp only
  split
  · exact .refl s
  · refine .trans ?_ (.of_groups rfl)
    refine .trans ?_ (.foldl (fun u e => ?_) _ _)
    · refine .trans (.of_groups ((State.unlockLines_groups _ _).trans (s.abandonEpoch_groups k))) (State.sameWidths_updated _ _ fun j g => ?_)
      split <;> rfl
    · split <;> exact .of_groups rfl

theorem State.sameWidths_trapEntry (s : State) (T : Mask) (f : Fail) (pc word ret : W64) : s.SameWidths (s.trapEntry T f pc word ret) := by
  have hg : s.SameWidths (s.setG (s.g.modLanes (s.g.lanesOf T) fun _ x => { x with st := .trapped })) :=
    s.sameWidths_setG (Grp.modLanes_gw _ _ _)
  unfold State.trapEntry
  dsimp only
  split
  · exact hg.trans (State.sameWidths_endGrid _ _ _ _)
  · refine hg.trans (State.sameWidths_setG _ ?_)
    rw [State.g_setG]

theorem State.sameWidths_trapMember (s : State) (k : Nat) (f : Fail) : s.SameWidths (s.trapMember k f) :=
  State.SameWidths.trans (t := (s.focusGrp k).setG { (s.focusGrp k).g with stall := .none, readyFor := 0 })
    (State.sameWidths_setGrpAt (s.focusGrp k) k rfl) (State.sameWidths_trapEntry (State.bump _) _ _ _ _ _)

/-- Members trapped at their latch leave the focus, and the width of the group in focus. -/
theorem State.trapMembers_gw (s : State) (f : Fail) (ks : List Nat) :
    (ks.foldl (fun x k => x.trapMember k f) s).foc = s.foc ∧ (ks.foldl (fun x k => x.trapMember k f) s).g.gw = s.g.gw := by
  have hf : (ks.foldl (fun x k => x.trapMember k f) s).foc = s.foc :=
    List.foldlRecOn (motive := fun t : State => t.foc = s.foc) _ _ rfl fun _ h _ _ => h
  refine ⟨hf, ?_⟩
  rw [State.g, hf]
  exact State.SameWidths.foldl (fun t k => t.sameWidths_trapMember k f) s ks _

theorem failAll_congr {g h : Grp} (e : h.gw = g.gw) (m : Mask) (f : Fail) : failAll h m f = failAll g m f := by
  simp only [failAll, Grp.lanesOf, Grp.laneIdx, e]

/-! ### The checks of an arrival (R338, R339) -/

theorem mmaFits_passes {u : State} {act : Mask} {f : VF} (h : mmaFits u act f) :
    ¬(!u.gr.streams || u.g.laneIdx.any (fun l => !act.getLsbD l) || u.g.gang.isEmpty || decide (f.d.vIdx % 8 ≠ 0) ||
      decide (u.g.win < f.d.vIdx + fragRegs f.ty)) = true := by
  obtain ⟨hs, hl, hg, h8, hw⟩ := h
  simpa [hs, hg, h8, hw] using hl

theorem whole_iff (u : State) : ((mates u).length + 1 == u.g.gang.length && (arrived u).length == (mates u).length) = true ↔
    (mates u).length + 1 = u.g.gang.length ∧ arrived u = mates u := by
  rw [Bool.and_eq_true, beq_iff_eq, beq_iff_eq, arrived, List.length_filter_eq_length_iff, List.filter_eq_self]

/-- The first broken port of those that a gang pops, as its latch opens. -/
theorem State.brokenPort_eq_none {u : State} {sparse : Bool} {f : VF} {ms : List Nat}
    (h : ∀ n, ¬(n ∈ u.gangPorts sparse f ms ∧ (bankGet u.t.ports ({} : Port) n).broken = true)) : u.brokenPort sparse f ms [] = none := by
  rw [State.brokenPort, List.find?_eq_none]
  intro n hn hb
  exact h n ⟨hn, by simpa using hb⟩

theorem State.brokenPort_eq_some {u : State} {sparse : Bool} {f : VF} {ms : List Nat} {n : Nat}
    (h : n ∈ u.gangPorts sparse f ms ∧ (bankGet u.t.ports ({} : Port) n).broken = true)
    (hmin : ∀ m, m < n → ¬(m ∈ u.gangPorts sparse f ms ∧ (bankGet u.t.ports ({} : Port) m).broken = true)) :
    u.brokenPort sparse f ms [] = some n := by
  obtain ⟨hn, hb⟩ := h
  unfold State.gangPorts at hn hmin
  unfold State.brokenPort State.gangPorts
  obtain ⟨hr, hp⟩ := List.mem_filter.mp hn
  rw [List.find?_filter, List.find?_range_eq_some]
  refine ⟨by simpa [hb] using hp, hr, fun m hm => ?_⟩
  have hlt : m < 4 := hm.trans (List.mem_range.mp hr)
  have := hmin m hm
  simpa [hlt, or_iff_not_imp_left] using this

/-! ### The words (R338 to R340) -/

section
variable {s : State} {p : Pred} {f : VF} (hr : s.Runs p fun _ => true) (hf : mmaFits (eff s p) (s.allowed p) f) (ha : agree (eff s p))
include hr hf ha

/-- An arrival whose gang agrees, and whose checks pass. -/
theorem State.mmaOp_latch (sparse : Bool) : s.mmaOp sparse p f = s.conclude [] (
    if (mates (eff s p)).length + 1 == (eff s p).g.gang.length && (arrived (eff s p)).length == (mates (eff s p)).length then
      match (eff s p).brokenPort sparse f ((eff s p).gangOf (eff s p).g.gang) [] with
      | some i => .done ((arrived (eff s p)).foldl (fun s k => s.trapMember k (.brokenPort i)) (eff s p)) (failAll (eff s p).g (s.allowed p) (.brokenPort i))
      | none => .stall { eff s p with
          order := (eff s p).order + 1
          groups := (eff s p).groups.update fun k y => if (arrived (eff s p)).contains k then { y with stall := .port (eff s p).order [] } else y }
            (.port (eff s p).order [])
    else .stall (eff s p) (.latch (eff s p).g.iss.word)) := by
  rw [State.mmaOp, State.perform_runs _ _ _ _ _ hr]
  refine congrArg (s.conclude []) ((if_neg (mmaFits_passes hf)).trans ((if_neg ?_).trans ?_))
  · rw [List.any_eq_true]
    rintro ⟨k, hk, hd⟩
    obtain ⟨hg, hw⟩ := ha k hk
    simp only [hg, bne_self_eq_false, Bool.false_or] at hd
    split at hd
    · rename_i w hst
      simp [hw w hst] at hd
    · exact Bool.false_ne_true hd
  · rfl

/-- The gang is not whole: the group waits at the latch. -/
theorem State.mmaOp_waits (sparse : Bool) (hw : ¬((mates (eff s p)).length + 1 = (eff s p).g.gang.length ∧ arrived (eff s p) = mates (eff s p))) :
    s.mmaOp sparse p f = stalled s (eff s p) (.latch (eff s p).g.iss.word) := by
  rw [State.mmaOp_latch hr hf ha, if_neg ((whole_iff _).not.mpr hw)]
  rfl

variable (hw : (mates (eff s p)).length + 1 = (eff s p).g.gang.length ∧ arrived (eff s p) = mates (eff s p))
include hw

/-- The last arrival opens the latch: every member waits at the ports. -/
theorem State.mmaOp_opens {sparse : Bool} (hb : ∀ n, ¬(n ∈ (eff s p).gangPorts sparse f ((eff s p).gangOf (eff s p).g.gang) ∧
      (bankGet (eff s p).t.ports ({} : Port) n).broken = true)) :
    s.mmaOp sparse p f = stalled s { eff s p with
      order := (eff s p).order + 1
      groups := (eff s p).groups.update fun k y => if (mates (eff s p)).contains k then { y with stall := .port (eff s p).order [] } else y }
        (.port (eff s p).order []) := by
  rw [State.mmaOp_latch hr hf ha, if_pos ((whole_iff _).mpr hw), State.brokenPort_eq_none hb, hw.2]
  rfl

/-- The last arrival finds a broken port: every lane of the gang traps. -/
theorem State.mmaOp_traps {sparse : Bool} {n : Nat}
    (hn : n ∈ (eff s p).gangPorts sparse f ((eff s p).gangOf (eff s p).g.gang) ∧ (bankGet (eff s p).t.ports ({} : Port) n).broken = true)
    (hmin : ∀ m, m < n → ¬(m ∈ (eff s p).gangPorts sparse f ((eff s p).gangOf (eff s p).g.gang) ∧
      (bankGet (eff s p).t.ports ({} : Port) m).broken = true))
    (hu : unheld s ((mates (eff s p)).foldl (fun x k => x.trapMember k (.brokenPort n)) (eff s p))) :
    s.mmaOp sparse p f = trapped ((mates (eff s p)).foldl (fun x k => x.trapMember k (.brokenPort n)) (eff s p))
      (failAll ((mates (eff s p)).foldl (fun x k => x.trapMember k (.brokenPort n)) (eff s p)).g (s.allowed p) (.brokenPort n)) := by
  rw [State.mmaOp_latch hr hf ha, if_pos ((whole_iff _).mpr hw), State.brokenPort_eq_some hn hmin, hw.2,
    failAll_congr (State.trapMembers_gw (eff s p) (.brokenPort n) (mates (eff s p))).2]
  exact State.conclude_fails _ _ _ hu

end

/-- The word of either kind. -/
theorem exec_mmaOp (sparse : Bool) (p : Pred) (f : VF) (s : State) :
    exec (if sparse then .mmasp p f else .mma p f) s = s.mmaOp sparse p f := by
  cases sparse with
  | false => rfl
  | true => rfl

end Sys2Proof.Machine
end

section
/-! PROOFS. The pop of a gang's operands (O44). -/

namespace Sys2Proof.Machine

open Sys2Proof.Claims

/-- A state with the memory of another and the ports of its teams. -/
structure State.SamePorts (s t : State) : Prop where
  mem : t.mem = s.mem
  ports : ∀ k, (t.teamAt k).ports = (s.teamAt k).ports

theorem State.SamePorts.refl (s : State) : s.SamePorts s := ⟨rfl, fun _ => rfl⟩
theorem State.SamePorts.trans {s t u : State} (h : s.SamePorts t) (h' : t.SamePorts u) : s.SamePorts u :=
  ⟨h'.mem.trans h.mem, fun k => (h'.ports k).trans (h.ports k)⟩
theorem State.SamePorts.of_teams {s t : State} (hm : t.mem = s.mem) (ht : t.teams = s.teams) : s.SamePorts t :=
  ⟨hm, fun k => by rw [State.teamAt, ht]; rfl⟩

theorem State.samePorts_ptIssued (s : State) (m : Mask) : s.SamePorts (s.ptIssued m) := by
  refine ⟨mem_State_ptIssued s m, fun k => ?_⟩
  unfold State.ptIssued
  split
  · refine (congrArg Team.ports (State.teamAt_setTeamAt s _ k _)).trans ?_
    split
    · rename_i h
      rw [← h]
      rfl
    · rfl
  · rfl

theorem State.logState_teams (s : State) : s.logState.teams = s.teams := by
  unfold State.logState
  split <;> rfl

theorem State.samePorts_finish_nil (s : State) (counted : Bool) : s.SamePorts (s.finish counted []) := by
  rw [State.finish_nil_eq]
  cases counted with
  | false => exact .of_teams rfl rfl
  | true =>
    exact .of_teams ((mem_State_logState _).trans (mem_State_count _ _ _ _)) ((State.logState_teams _).trans (State.calm_count _ _ _ _).teams)

theorem State.grpAt_ptIssued (s : State) (m : Mask) (k : Nat) : (s.ptIssued m).grpAt k = s.grpAt k := by
  unfold State.ptIssued
  split <;> rfl

/-! ### One member (R341) -/

theorem Grp.mmaPend_ended (g : Grp) (counted : Bool) : (g.ended counted).mmaPend = g.mmaPend := by
  obtain ⟨x, hx⟩ := g.countRot_eq
  rw [Grp.ended, hx]

/-- A member's MMA retires, and leaves the product to deliver. -/
def State.popMember (s : State) (k : Nat) (m : MmaPend) : State :=
  (((s.focusGrp k).ptIssued (s.focusGrp k).g.iss.set).modG fun g => { g.advance with mmaPend := some m }).finish true []

theorem State.samePorts_popMember (s : State) (k : Nat) (m : MmaPend) : s.SamePorts (s.popMember k m) :=
  have hf : s.SamePorts (s.focusGrp k) := .of_teams rfl rfl
  have hi : s.SamePorts ((s.focusGrp k).ptIssued (s.focusGrp k).g.iss.set) := hf.trans (State.samePorts_ptIssued _ _)
  have hg : s.SamePorts (((s.focusGrp k).ptIssued (s.focusGrp k).g.iss.set).modG fun g => { g.advance with mmaPend := some m }) :=
    hi.trans (.of_teams rfl rfl)
  hg.trans (State.samePorts_finish_nil _ true)

theorem State.mmaPend_popMember (s : State) (k : Nat) (m : MmaPend) (j : Nat) :
    ((s.popMember k m).grpAt j).mmaPend = if k = j then some m else (s.grpAt j).mmaPend := by
  have hf : ((s.focusGrp k).ptIssued (s.focusGrp k).g.iss.set).foc.grp = k := congrArg Focus.grp (State.ptIssued_foc _ _)
  rw [State.popMember, State.grpAt_finish_nil]
  show (if _ = j then _ else _ : Grp).mmaPend = _
  rw [State.modG, State.setG, State.setGrpAt_foc, hf]
  split
  · rw [State.g, State.setGrpAt_foc, hf, State.grpAt_setGrpAt_self, Grp.mmaPend_ended]
  · rw [State.grpAt_setGrpAt, if_neg ‹_›, State.grpAt_ptIssued]
    rfl

/-! ### The ports (R340) -/

theorem State.takePort_foc (s : State) (i n : Nat) : (s.takePort i n).1.foc = s.foc := rfl
theorem State.takePort_groups (s : State) (i n : Nat) : (s.takePort i n).1.groups = s.groups := rfl

theorem State.takePort_bytes (s : State) (i n j : Nat) : (bankGet (s.takePort i n).1.t.ports ({} : Port) j).bytes =
    (bankGet s.t.ports ({} : Port) j).bytes.drop (if i = j then n else 0) := by
  rw [State.takePort, State.t_modT, bankGet_put]
  split
  · rename_i h
    rw [h]
  · rfl

/-- The four ports once a gang has taken its entries. -/
def State.takePorts (s : State) (n : Nat → Nat) : State := ((((s.takePort 0 (n 0)).1.takePort 1 (n 1)).1.takePort 2 (n 2)).1.takePort 3 (n 3)).1

theorem State.takePorts_bytes (s : State) (n : Nat → Nat) {i : Nat} (hi : i < 4) :
    (bankGet (s.takePorts n).t.ports ({} : Port) i).bytes = (bankGet s.t.ports ({} : Port) i).bytes.drop (n i) := by
  simp only [State.takePorts, State.takePort_bytes, List.drop_drop]
  interval_cases i <;> simp

/-- The pop of a gang whose operands stand: its members take them one by one. -/
theorem exec_mmaPop_eq {grp : Nat} {sparse : Bool} {f : VF} {ms : List Nat} {s : State} (hc : s.canPop grp = some (sparse, f, ms))
    (hp : (s.focusGrp grp).popState sparse f ms = .pop) :
    let g := s.grpAt (ms.headD 0)
    let sizes := entrySizes sparse f ms.length (g.gw / 2) (State.scaleEntries g sparse f)
    ∃ pend : State → Nat → MmaPend, exec (.mmaPop grp) s =
      .next ((List.range ms.length).foldl (fun s j => s.popMember (ms.getD j 0) (pend s j)) ((s.focusGrp grp).takePorts fun i => sizes.getD i 0)) := by
  rw [show exec (.mmaPop grp) s = execMmaPop grp s from rfl, execMmaPop, hc]
  dsimp only
  rw [hp]
  exact ⟨_, rfl⟩

theorem mmaPop_hold {grp : Nat} {sparse : Bool} {f : VF} {ms : List Nat} {s : State} (hc : s.canPop grp = some (sparse, f, ms))
    (hp : (s.focusGrp grp).popState sparse f ms = .pop) :
    let g := s.grpAt (ms.headD 0)
    let sizes := entrySizes sparse f ms.length (g.gw / 2) (State.scaleEntries g sparse f)
    ∃ t, exec (.mmaPop grp) s = .next t ∧ t.mem = s.mem ∧ (∀ k ∈ ms, (t.grpAt k).mmaPend ≠ none) ∧
      ∀ i, i < 4 → (bankGet (t.teamAt (s.grpAt grp).team).ports ({} : Port) i).bytes =
        (bankGet (s.teamAt (s.grpAt grp).team).ports ({} : Port) i).bytes.drop (sizes.getD i 0) := by
  intro g sizes
  obtain ⟨pend, he⟩ := exec_mmaPop_eq hc hp
  obtain ⟨hm, ht⟩ : ((s.focusGrp grp).takePorts fun i => sizes.getD i 0).SamePorts ((List.range ms.length).foldl
      (fun s j => s.popMember (ms.getD j 0) (pend s j)) ((s.focusGrp grp).takePorts fun i => sizes.getD i 0)) :=
    List.foldlRecOn (motive := State.SamePorts _) _ _ (.refl _) fun u h _ _ => h.trans (u.samePorts_popMember _ _)
  refine ⟨_, he, hm, fun k hk => ?_, fun i hi => ?_⟩
  · obtain ⟨j, hj, rfl⟩ := List.getElem_of_mem hk
    refine foldl_establishes (P := fun t : State => (t.grpAt ms[j]).mmaPend ≠ none) (List.mem_range.mpr hj) (fun t => ?_) (fun y _ _ t h => ?_) _
    · rw [State.mmaPend_popMember, List.getD_eq_getElem _ _ hj, if_pos rfl]
      exact Option.some_ne_none _
    · rw [State.mmaPend_popMember]
      split
      · exact Option.some_ne_none _
      · exact h
  · rw [ht]
    exact State.takePorts_bytes (s.focusGrp grp) (fun i => sizes.getD i 0) hi

end Sys2Proof.Machine
end

section
/-! PROOFS. The matrix words (O44). -/

namespace Sys2Proof.Machine

open Sys2Proof.Claims

/-! ### What an issue leaves of the grid and of the ports -/

theorem State.atIssue_streams (s : State) (m : Mask) : (s.atIssue m).gr.streams = s.gr.streams :=
  congrArg (·.flag 1) (s.atIssue_lrec m)

theorem State.atIssue_ports (s : State) (m : Mask) : (s.atIssue m).t.ports = s.t.ports := by
  rw [State.t, State.atIssue_foc]
  exact (State.samePorts_ptIssued (s.setG s.g.advance) m).ports s.foc.team

/-! ### SPUSH (R346) -/

theorem exec_spush {p : Pred} {f : VF} {s : State} {ts : List Nat} : let u := eff s p
    let n := f.m / 4 + 1
    let src := (List.range n).flatMap fun j => u.g.laneIdx.map fun l => u.g.vReg l (f.a.vIdx + j)
    s.Runs p (fun _ => true) → u.gr.streams = true → u.g.idx < u.gr.lrec.p → u.g.converged (s.allowed p) = true → f.a.vIdx + n ≤ u.g.win →
    (∀ r ∈ src, r.poi = false) → (s.rd 0 .n32 f.b).poi = false → u.consumers ((s.rd 0 .n32 f.b).n % 256) = some ts →
    exec (.spush p f) s = retired (u.freshId.1.modT fun t =>
      { t with pushes := t.pushes ++ [{ id := u.nextId, grp := s.foc.grp, port := f.m % 4, bytes := src.flatMap (fun r => leBytes 4 r.val.toNat),
                                        beats := n * u.g.gw / 8, taken := ts.map fun t => (t, 0), mask := s.allowed p, pc := s.g.iss.pc,
                                        retired := s.g.retired }] }) := by
  intro u n src hr hs hp hc hw hv hb ht
  show execSpush p f s = _
  unfold execSpush
  refine State.perform_done s false p _ _ hr _ ?_ (State.atIssue_met s (s.allowed p))
  have hu : u.g.iss.pc = s.g.iss.pc := congrArg (·.pc) (State.atIssue_iss s _)
  have hq : u.g.retired = s.g.retired := (congrArg Grp.retired (State.atIssue_g s _)).trans (Grp.advance_retired _)
  have hsrc : ¬src.any (·.poi) = true := by simpa only [List.any_eq_true, not_exists, not_and, Bool.not_eq_true] using hv
  rw [State.rd_atIssue]
  refine (if_neg (by simpa using ⟨⟨hs, hp⟩, hc⟩)).trans ((if_neg (Nat.not_lt.mpr hw)).trans ((if_neg hsrc).trans ((if_neg (by simp [hb])).trans ?_)))
  rw [ht, ← hu, ← hq, ← State.atIssue_foc s (s.allowed p)]
  rfl

/-! ### MQSTAT (R347) -/

section
variable {s : State} {p : Pred} {f : VF} (hs : s.gr.streams = true) (hr : s.Runs p (s.opsOk [(f.d, 1)]))
include hs hr

/-- The word reads the port into the log and writes what it read to its destination. -/
theorem exec_mqstat (hz : f.d.isZ = s.gr.det) {w : State → State} (hw : ∀ t : State, (w t).met = t.met) :
    let q := bankGet s.t.ports ({} : Port) f.m
    let v := q.bytes.length + if q.broken then 2 ^ 31 else 0
    let u := (eff s p).logIn .mqstat f.m (leBytes 4 v)
    ((match f.d with
      | .z i => .done (u.setG (u.g.setZreg i.val (BitVec.ofNat 64 v))) []
      | .s i => .done (u.setG (u.g.putS i.val ⟨v, false⟩)) []
      | d => .done (u.setG (u.g.modLanes (u.g.lanesOf (s.allowed p)) fun _ x => x.putRegs u.g.wb d [⟨BitVec.ofNat 32 v, false⟩])) [] : Did) =
        .done (w u) []) → exec (.mqstat p f) s = retired (w u) := by
  intro q v u h
  show execMqstat p f s = _
  unfold execMqstat
  refine State.perform_done s false p _ _ hr _ ?_ ((hw _).trans ((State.logIn_met _ _ _ _ _).trans (State.atIssue_met s _)))
  refine (if_neg (by simp [State.atIssue_det, State.atIssue_streams, hz, hs])).trans ?_
  rw [State.atIssue_ports]
  exact h

theorem exec_mqstat_z {k : Fin 4} (hd : f.d = .z k) (hdet : s.gr.det = true) :
    let q := bankGet s.t.ports ({} : Port) f.m
    let v := q.bytes.length + if q.broken then 2 ^ 31 else 0
    exec (.mqstat p f) s = retired (((eff s p).logIn .mqstat f.m (leBytes 4 v)).modG fun g => g.setZreg k (BitVec.ofNat 64 v)) := by
  intro q v
  refine exec_mqstat hs hr (by rw [hd, hdet]; rfl) (w := fun t => t.modG fun g => g.setZreg k (BitVec.ofNat 64 v)) (fun _ => rfl) ?_
  rw [hd]
  rfl

theorem exec_mqstat_s {k : Fin 64} (hd : f.d = .s k) (hdet : s.gr.det = false) :
    let q := bankGet s.t.ports ({} : Port) f.m
    let v := q.bytes.length + if q.broken then 2 ^ 31 else 0
    exec (.mqstat p f) s = retired (((eff s p).logIn .mqstat f.m (leBytes 4 v)).modG fun g => g.putS k ⟨v, false⟩) := by
  intro q v
  refine exec_mqstat hs hr (by rw [hd, hdet]; rfl) (w := fun t => t.modG fun g => g.putS k ⟨v, false⟩) (fun _ => rfl) ?_
  rw [hd]
  rfl

theorem exec_mqstat_lanes (hd : laneDest f.d = true) (hdet : s.gr.det = false) :
    let q := bankGet s.t.ports ({} : Port) f.m
    let v := q.bytes.length + if q.broken then 2 ^ 31 else 0
    exec (.mqstat p f) s = retired (((eff s p).logIn .mqstat f.m (leBytes 4 v)).modG fun g =>
      g.modLanes (g.lanesOf (s.allowed p)) fun _ x => x.putRegs s.g.wb f.d [⟨BitVec.ofNat 32 v, false⟩]) := by
  intro q v
  refine exec_mqstat hs hr (by rw [isZ_of_laneDest hd, hdet])
    (w := fun t => t.modG fun g => g.modLanes (g.lanesOf (s.allowed p)) fun _ x => x.putRegs s.g.wb f.d [⟨BitVec.ofNat 32 v, false⟩]) (fun _ => rfl) ?_
  rw [State.logIn_wb, State.atIssue_wb]
  revert hd
  cases f.d with
  | v _ => exact fun _ => rfl
  | k _ => exact fun _ => rfl
  | _ => exact fun h => absurd h Bool.false_ne_true

end

/-! ### MDROP (R348) -/

theorem exec_mdrop {p : Pred} {f : VF} {s : State} (hs : s.gr.streams = true) (hr : s.Runs p fun _ => true) (hb : (s.rd 0 .b64 f.b).poi = false) :
    let q := bankGet s.t.ports ({} : Port) f.m
    let bytes := if (s.rd 0 .b64 f.b).n = 0 then [] else q.bytes.drop (32 * (s.rd 0 .b64 f.b).n)
    exec (.mdrop p f) s = retired ((eff s p).modT fun t =>
      { t with ports := bankPut {} t.ports f.m { q with bytes, broken := q.broken && !bytes.isEmpty } }) := by
  intro q bytes
  show execMdrop p f s = _
  unfold execMdrop
  refine State.perform_done s false p _ _ hr _ ?_ (State.atIssue_met s (s.allowed p))
  rw [State.rd_atIssue, State.atIssue_ports]
  exact (if_neg (by simp [State.atIssue_streams, hs])).trans (if_neg (by simp [hb]))

/-! ### The words together -/

theorem matrixWordsHold_holds : matrixWordsHold := by
  refine ⟨fun p f s hr hf ha => ⟨fun hw => ⟨State.mmaOp_waits hr hf ha false hw, State.mmaOp_waits hr hf ha true hw⟩, fun hw sparse => ?_⟩,
    fun grp sparse f ms s hc hp => mmaPop_hold hc hp, fun grp m s h hd => mmaComplete_frame h hd, fun p f s ts => exec_spush,
    fun p f s hs => ⟨fun hr => ⟨fun k => exec_mqstat_z hs hr, fun k => exec_mqstat_s hs hr, exec_mqstat_lanes hs hr⟩, exec_mdrop hs⟩⟩
  dsimp only
  rw [exec_mmaOp]
  exact ⟨State.mmaOp_opens hr hf ha hw, fun n hn hmin hu => State.mmaOp_traps hr hf ha hw hn hmin hu⟩

/-- Settles O44: the words clause by clause, and the elements of a product by the chains that the delivery folds. -/
theorem matrix : Obligations.Matrix := ⟨matrixWordsHold_holds, productsHold_holds, nativeSumsHold_holds, asymmetricSumsHold_holds⟩

end Sys2Proof.Machine
end

section
/-! PROOFS. Decoding and encoding agree (O57): each field is spelled by its bits alone, so a row of the opcode map makes an instruction
of a word exactly where the word has that instruction's parts. -/

namespace Sys2Proof

open Laws.Encoding (spells Statement)

/-! ### The codes of a field -/

/-- A field of k bits spells a value exactly where it holds that value's code. -/
def CodesAgree {α : Type} (k : Nat) (ofCode : Nat → Option α) (code : α → Nat) : Prop :=
  ∀ (c : BitVec k) (x : α), ofCode c.toNat = some x ↔ c = BitVec.ofNat k (code x)

theorem codesAgree_of {α : Type} {k : Nat} {ofCode : Nat → Option α} {code : α → Nat}
    (hcode : ∀ x, ofCode (BitVec.ofNat k (code x)).toNat = some x)
    (hval : ∀ c : BitVec k, ∀ x ∈ ofCode c.toNat, c = BitVec.ofNat k (code x)) : CodesAgree k ofCode code :=
  fun c x => ⟨hval c x, fun h => h ▸ hcode x⟩

theorem CodesAgree.codeAt_iff {α : Type} {k : Nat} {ofCode : Nat → Option α} {code : α → Nat}
    (h : CodesAgree k ofCode code) (w : W64) (lo : Nat) (x : α) : ofCode (codeAt w lo k) = some x ↔ w.extractLsb' lo k = BitVec.ofNat k (code x) := h _ x

theorem Ty.codes : CodesAgree 4 Ty.ofCode Ty.code := codesAgree_of (by rintro ⟨⟩ <;> rfl) (by decide)
theorem Rmo.codes : CodesAgree 3 Rmo.ofCode Rmo.code := codesAgree_of (by rintro ⟨⟩ <;> rfl) (by decide)
theorem Sf.codes : CodesAgree 2 Sf.ofCode Sf.code := codesAgree_of (by rintro ⟨⟩ <;> rfl) (by decide)
theorem Scope.codes : CodesAgree 3 Scope.ofCode Scope.code := codesAgree_of (by rintro ⟨⟩ <;> rfl) (by decide)
theorem Ord.codes : CodesAgree 3 Ord.ofCode Ord.code := codesAgree_of (by rintro ⟨⟩ <;> rfl) (by decide)
theorem Width.codes : CodesAgree 3 Width.ofCode Width.code := codesAgree_of (by rintro ⟨⟩ <;> rfl) (by decide)
theorem Hint.codes : CodesAgree 2 Hint.ofCode Hint.code := codesAgree_of (by rintro ⟨⟩ <;> rfl) (by decide)
theorem HKind.codes : CodesAgree 2 (fun n => some (HKind.ofCode n)) HKind.code := codesAgree_of (by rintro ⟨⟩ <;> rfl) (by decide)
theorem flag_codes : CodesAgree 4 flagOfCode flagCode := codesAgree_of (by decide) (by decide)

/-- The operand of a specifier byte has that byte. -/
theorem Opnd.byte_of_ofByte : ∀ b : Byte, ∀ o ∈ Opnd.ofByte b, b = o.byte := by decide

theorem Opnd.ofByte_byte (o : Opnd) : Opnd.ofByte o.byte = some o := by
  cases o with
  | v i | s i | k i | y i | m i | a i | z i => revert i; decide
  | const c => cases c <;> rfl
  | spec x => cases x <;> rfl

theorem Opnd.ofByte_eq_some_iff (b : Byte) (o : Opnd) : Opnd.ofByte b = some o ↔ b = o.byte :=
  ⟨Opnd.byte_of_ofByte b o, fun h => h ▸ o.ofByte_byte⟩

/-! ### The bits of a field -/

theorem opndAt_eq_iff (w : W64) (lo : Nat) (o : Opnd) : (opndAt w lo).1 = o ∧ (opndAt w lo).2 = false ↔ w.extractLsb' lo 8 = o.byte := by
  rw [← Opnd.ofByte_eq_some_iff, opndAt]
  cases h : Opnd.ofByte (w.extractLsb' lo 8) <;> simp

/-- Some bits of a word spell two fields where each field has its own bits. -/
theorem extract_eq_append_iff {k m n : Nat} (w : BitVec k) (lo : Nat) (a : BitVec m) (b : BitVec n) :
    w.extractLsb' lo (m + n) = a ++ b ↔ w.extractLsb' (lo + n) m = a ∧ w.extractLsb' lo n = b := by
  rw [← BitVec.extractLsb'_append_extractLsb'_eq_extractLsb' rfl]
  constructor
  · intro h
    have hl := congrArg (BitVec.extractLsb' n m) h
    have hr := congrArg (BitVec.extractLsb' 0 n) h
    rw [BitVec.extractLsb'_append_eq_left, BitVec.extractLsb'_append_eq_left] at hl
    rw [BitVec.extractLsb'_append_eq_right, BitVec.extractLsb'_append_eq_right] at hr
    exact ⟨hl, hr⟩
  · rintro ⟨rfl, rfl⟩
    rfl

theorem extract_bit_eq_iff (w : W64) (i : Nat) (b : Bool) : w.extractLsb' i 1 = BitVec.ofBool b ↔ w.getLsbD i = b := by
  have h : w.extractLsb' i 1 = BitVec.ofBool (w.getLsbD i) := by
    ext j hj
    obtain rfl : j = 0 := by omega
    simp
  rw [h, BitVec.ofBool_eq_iff_eq]

theorem codeAt_eq_iff (w : W64) (lo k n : Nat) (h : n < 2 ^ k) : codeAt w lo k = n ↔ w.extractLsb' lo k = BitVec.ofNat k n := by
  rw [codeAt, ← BitVec.toNat_inj, BitVec.toNat_ofNat, Nat.mod_eq_of_lt h]

/-! ### The four formats (R231 to R235) -/

theorem predAt_eq_iff (w : W64) (p : Pred) : predAt w = p ↔ w.extractLsb' 48 4 = p.bits := by
  obtain ⟨m, neg⟩ := p
  have hm := codeAt_eq_iff w 49 3 m.val m.isLt
  show _ ↔ w.extractLsb' 48 (3 + 1) = BitVec.ofNat 3 m.val ++ BitVec.ofBool neg
  rw [extract_eq_append_iff, extract_bit_eq_iff, ← hm]
  simp [predAt, Fin.ext_iff]

theorem vfAt_eq_iff (w : W64) (f : VF) : vfAt w = some f ∧ vfReserved w = false ↔ w.extractLsb' 0 48 = f.bits := by
  obtain ⟨d, a, b, c, ty, rmo, sat, sf, mod⟩ := f
  show _ ↔ w.extractLsb' 0 (8 + 8 + 8 + 8 + 4 + 3 + 1 + 2 + 6) = d.byte ++ a.byte ++ b.byte ++ c.byte ++ BitVec.ofNat 4 ty.code
    ++ BitVec.ofNat 3 rmo.code ++ BitVec.ofBool sat ++ BitVec.ofNat 2 sf.code ++ mod
  simp only [extract_eq_append_iff]
  simp only [extract_bit_eq_iff, ← opndAt_eq_iff, ← Ty.codes.codeAt_iff, ← Rmo.codes.codeAt_iff, ← Sf.codes.codeAt_iff, Nat.reduceAdd]
  unfold vfAt vfReserved
  split
  · simp only [*, Option.some.injEq, VF.mk.injEq, Bool.or_eq_false_iff]
    tauto
  · next hcode =>
    refine ⟨fun h => (nomatch h.1), ?_⟩
    rintro ⟨⟨⟨⟨⟨-, hty⟩, hrmo⟩, -⟩, hsf⟩, -⟩
    exact (hcode _ _ _ hty hrmo hsf).elim

theorem ifAt_eq_iff (w : W64) (f : IF) : ifAt w = f ∧ ifReserved w = false ↔ w.extractLsb' 0 48 = f.bits := by
  obtain ⟨d, a, imm⟩ := f
  show _ ↔ w.extractLsb' 0 (8 + 8 + 32) = d.byte ++ a.byte ++ imm
  simp only [extract_eq_append_iff]
  simp only [← opndAt_eq_iff, Nat.reduceAdd]
  simp only [ifAt, ifReserved, IF.mk.injEq, Bool.or_eq_false_iff]
  tauto

theorem mfAt_eq_iff (w : W64) (f : MF) : mfAt w = some f ∧ mfReserved w = false ↔ w.extractLsb' 0 48 = f.bits := by
  obtain ⟨d, a, b, scope, ord, sf, width, hint, imm⟩ := f
  show _ ↔ w.extractLsb' 0 (8 + 8 + 8 + 3 + 3 + 2 + 3 + 2 + 11) = d.byte ++ a.byte ++ b.byte ++ BitVec.ofNat 3 scope.code
    ++ BitVec.ofNat 3 ord.code ++ BitVec.ofNat 2 sf.code ++ BitVec.ofNat 3 width.code ++ BitVec.ofNat 2 hint.code ++ imm
  simp only [extract_eq_append_iff]
  simp only [← opndAt_eq_iff, ← Scope.codes.codeAt_iff, ← Ord.codes.codeAt_iff, ← Sf.codes.codeAt_iff,
    ← Width.codes.codeAt_iff, ← Hint.codes.codeAt_iff, Nat.reduceAdd]
  unfold mfAt mfReserved
  split
  · simp only [*, Option.some.injEq, MF.mk.injEq, Bool.or_eq_false_iff]
    tauto
  · next hcode =>
    refine ⟨fun h => (nomatch h.1), ?_⟩
    rintro ⟨⟨⟨⟨⟨⟨-, hscope⟩, hord⟩, hsf⟩, hwidth⟩, hhint⟩, -⟩
    exact (hcode _ _ _ _ _ hscope hord hsf hwidth hhint).elim

theorem bfAt_eq_iff (w : W64) (f : BF) : bfAt w = f ∧ bfReserved w = false ↔ w.extractLsb' 0 48 = f.bits := by
  obtain ⟨c, n, ofs⟩ := f
  show _ ↔ w.extractLsb' 0 (8 + 8 + 32) = c.byte ++ n ++ ofs
  simp only [extract_eq_append_iff]
  simp only [← opndAt_eq_iff, Nat.reduceAdd]
  simp only [bfAt, bfReserved, BF.mk.injEq]
  tauto

/-! ### The parts of a word -/

/-- The parts that a word holds. -/
def partsAt (w : W64) : Parts := ⟨w.extractLsb' 58 6, w.extractLsb' 52 6, predAt w, w.extractLsb' 0 48⟩

theorem partsAt_eq_iff (w : W64) (q : Parts) : partsAt w = q ↔ w = q.word := by
  obtain ⟨major, sub, pred, body⟩ := q
  have h : w = w.extractLsb' 0 (6 + 6 + 4 + 48) := BitVec.extractLsb'_eq_self.symm
  conv_rhs => rw [h]
  show _ ↔ w.extractLsb' 0 (6 + 6 + 4 + 48) = major ++ sub ++ pred.bits ++ body
  simp only [extract_eq_append_iff]
  simp only [← predAt_eq_iff, Nat.reduceAdd, partsAt, Parts.mk.injEq, and_assoc]

/-- A row of the opcode map makes an instruction of a word, with no specifier reserved, where it spells it from the word's parts. -/
theorem Build.parse_eq_iff (b : Build) (w : W64) (i : Instr) : b.parse w = some (i, false) ↔ spells b (partsAt w) i := by
  cases b with
  | v mk =>
    simp only [Build.parse, Option.map_eq_some_iff, Prod.mk.injEq, spells, partsAt, ← vfAt_eq_iff]
    exact ⟨fun ⟨f, hf, hi, hr⟩ => ⟨_, f, hi, rfl, hf, hr⟩, fun ⟨_, f, hi, hp, hf, hr⟩ => ⟨f, hf, hp ▸ hi, hr⟩⟩
  | i mk =>
    simp only [Build.parse, Option.some.injEq, Prod.mk.injEq, spells, partsAt, ← ifAt_eq_iff]
    exact ⟨fun ⟨hi, hr⟩ => ⟨_, _, hi, rfl, rfl, hr⟩, fun ⟨_, _, hi, hp, hf, hr⟩ => ⟨hf ▸ hp ▸ hi, hr⟩⟩
  | m mk =>
    simp only [Build.parse, Option.map_eq_some_iff, Prod.mk.injEq, spells, partsAt, ← mfAt_eq_iff]
    exact ⟨fun ⟨f, hf, hi, hr⟩ => ⟨_, f, hi, rfl, hf, hr⟩, fun ⟨_, f, hi, hp, hf, hr⟩ => ⟨f, hf, hp ▸ hi, hr⟩⟩
  | b mk =>
    simp only [Build.parse, Option.some.injEq, Prod.mk.injEq, spells, partsAt, ← bfAt_eq_iff]
    exact ⟨fun ⟨hi, hr⟩ => ⟨_, _, hi, rfl, rfl, hr⟩, fun ⟨_, _, hi, hp, hf, hr⟩ => ⟨hf ▸ hp ▸ hi, hr⟩⟩

/-! ### The opcode map (R239) -/

/-- Every instruction that a row of the opcode map makes has its word at a major and sub-opcode, and is no event. -/
def Build.Makes (b : Build) (major sub : BitVec 6) : Prop :=
  match b with
  | .v mk => ∀ p f, (mk p f).parts = some ⟨major, sub, p, f.bits⟩ ∧ (mk p f).argsOk = true
  | .i mk => ∀ p f, (mk p f).parts = some ⟨major, sub, p, f.bits⟩ ∧ (mk p f).argsOk = true
  | .m mk => ∀ p f, (mk p f).parts = some ⟨major, sub, p, f.bits⟩ ∧ (mk p f).argsOk = true
  | .b mk => ∀ p f, (mk p f).parts = some ⟨major, sub, p, f.bits⟩ ∧ (mk p f).argsOk = true

theorem Build.Makes.parts_eq {b : Build} {q : Parts} {i : Instr} (hm : b.Makes q.major q.sub) (hs : spells b q i) :
    i.parts = some q ∧ i.argsOk = true := by
  obtain ⟨major, sub, pred, body⟩ := q
  cases b with
  | v mk | i mk | m mk | b mk =>
    obtain ⟨p, f, rfl, rfl, rfl⟩ := hs
    exact hm _ f

theorem mtsrOf_makes : (Build.i mtsrOf).Makes (BitVec.ofNat 6 0x06) (BitVec.ofNat 6 0x01) := by
  intro p f
  unfold mtsrOf
  split
  · exact ⟨rfl, rfl⟩
  · split <;> exact ⟨rfl, rfl⟩

theorem opcodeMap_makes : ∀ r ∈ opcodeMap, ∀ x ∈ r.2.zipIdx, x.1.Makes (BitVec.ofNat 6 r.1) (BitVec.ofNat 6 x.2) := by
  simp only [opcodeMap, List.forall_mem_cons, List.zipIdx_cons, List.zipIdx_nil, Nat.reduceAdd, mtsrOf_makes, List.not_mem_nil,
    false_imp_iff, implies_true, and_true, true_and]
  and_intros <;> exact fun _ _ => ⟨rfl, rfl⟩

theorem buildAt_makes {major sub : BitVec 6} {b : Build} (h : buildAt major.toNat sub.toNat = some b) : b.Makes major sub := by
  obtain ⟨row, hrow, hb⟩ := Option.bind_eq_some_iff.mp h
  obtain ⟨before, after, hmap, -⟩ := List.lookup_eq_some_iff.mp hrow
  have hmem : (major.toNat, row) ∈ opcodeMap := by simp [hmap]
  have hm := opcodeMap_makes _ hmem _ (List.mk_mem_zipIdx_iff_getElem?.mpr hb)
  rwa [BitVec.ofNat_toNat, BitVec.ofNat_toNat, BitVec.setWidth_eq, BitVec.setWidth_eq] at hm

section
open Laws.Encoding

/-- R239: the opcode map names every well-formed word where its encoding stands. -/
theorem spells_of_wellFormed : ∀ i : Instr, Statement i :=
  Instr.rec
    nop bra bru brx call callx ret exit yield trap tret bkpt waitf add sub mul mulh mad addc subb and or xor andn shl shr sra rot min max absd cmp sel
    popc clz brev bfe bfi mov div movi addi andi ori xori cmpi atr arel lea aget mand mor mxor mandn mmov mpopc mfirst mact gsplit gfuse gang mfsr mtsr
    hexitWrite ptmaskWrite clk zread rng ecount fadd fsub fmul ffma fmin fmax fminm fmaxm fcmp fclass fdiv fsqrt frcp frsq fexp2 flog2 fsin fcos frint
    fscale fgetexp fdot2 fcvt ftoi itof pack8 unpk8 qnt deq bcast shfl shup shdn ballot redux scan elect lget lput ld lds ldk st sts stk zst tld tst
    tlds tsts tileLockGrant atom cas casgt casv caspt red rflush fence cinv cflu pref binit bexpect barrive bwait btest cpy cpyt cpyc cpys
    engineWriteLanding flagClear streamBeatAccept stash restore collar collrs collag collupd collcmt collectiveCompletion walloc wsend launch mma mmasp
    mmaPop mmaComplete spush mqstat mdrop xdec xenc xsparse xmatch xsort xperm xtrn topen trec tpop tmark tend tstat tclose tapeSpill tapeFill rcov
    esmp tex texl texadj trace tresume tabort hitadj rcq rcsync rcstat syncPoint temperStep versionPublish laneWaitResume groupStallWake fusion
    yieldRelease groupRetirement teamRetirement anvilStage epochClose uPartialApply lqtailWrite launchRecordTake gridStart teamPlacement eviction
    teamRestore gridCompletion invalidationRequest invalidationComplete fqheadWrite fqctlRetry cacheLoad cacheSave switch switchComplete contextResume
    kill snapshot arm stopReached disarm debugResume debugRead debugWrite traceCaptureOn traceCaptureOff samplePacket hostWrite hostRead
    remoteAccessArrival remoteReply remoteRequestLost featenWrite packageReset mailboxWrite mailboxWriteDone mailboxCommit attcmdGo
    attestationReportDone registerWrite writeBufferDrain leaseRevoke leaseNotice leaseAck leaseDeadline lenderReclaim portStateChange barSizeSelect
    arbitrationAgeGrant starvationGuard rotationRule handlerOverrun llcctlUnpin pinwWrite softError scrub reservoirTick debugForceWrite
    preEmptionWithdraw batchTimeout

end

/-! ### Words -/

theorem decodeWord_word {q : Parts} {i : Instr} {b : Build} (hb : buildAt q.major.toNat q.sub.toNat = some b) (hs : spells b q i)
    (hw : i.wellFormed = true) : decodeWord q.word = .ok i := by
  have hq : partsAt q.word = q := (partsAt_eq_iff _ _).mpr rfl
  have hp : b.parse q.word = some (i, false) := (b.parse_eq_iff _ _).mpr (hq.symm ▸ hs)
  have hm : codeAt q.word 58 6 = q.major.toNat := congrArg (BitVec.toNat ∘ Parts.major) hq
  have hsub : codeAt q.word 52 6 = q.sub.toNat := congrArg (BitVec.toNat ∘ Parts.sub) hq
  obtain ⟨⟨hc, ho⟩, -⟩ : (i.codesOk = true ∧ i.operandsOk = true) ∧ i.argsOk = true := by simpa [Instr.wellFormed] using hw
  rw [decodeWord, hm, hsub, hb]
  dsimp only
  rw [hp]
  simp [hc, ho]

/-- R231 to R239: the word of a well-formed instruction decodes to it. -/
theorem decodeWord_encode {i : Instr} {w : W64} (hw : i.wellFormed = true) (he : encode i = some w) : decodeWord w = .ok i := by
  obtain ⟨q, hq, rfl⟩ := Option.map_eq_some_iff.mp he
  obtain ⟨b, hb, hs⟩ := spells_of_wellFormed i hw q hq
  exact decodeWord_word hb hs hw

/-- R231 to R239: a word that decodes is the word of a well-formed instruction. -/
theorem encode_decodeWord {w : W64} {i : Instr} (h : decodeWord w = .ok i) : i.wellFormed = true ∧ encode i = some w := by
  obtain ⟨b, hb, hp, hc, ho⟩ := Machine.parse_of_decodeWord h
  obtain ⟨hparts, ha⟩ := (buildAt_makes hb).parts_eq (q := partsAt w) ((b.parse_eq_iff w i).mp hp)
  have hw : w = (partsAt w).word := (partsAt_eq_iff w _).mp rfl
  exact ⟨by simp [Instr.wellFormed, hc, ho, ha], by rw [encode, hparts, Option.map_some, ← hw]⟩

/-! ### Bytes (R225) -/

theorem wordOfBytes_bytes (w : W64) : wordOfBytes (Machine.tab 8 fun j => w.extractLsb' (8 * j) 8) = w := by
  have hbytes : (Machine.tab 8 fun j => w.extractLsb' (8 * j) 8) = Machine.leBytes 8 w.toNat := by
    simp [Machine.tab, List.range_succ, Machine.leBytes, BitVec.extractLsb', Nat.shiftRight_eq_div_pow, Nat.div_div_eq_div_mul]
  rw [hbytes]
  calc BitVec.ofNat 64 (Machine.ofLe (Machine.leBytes 8 w.toNat))
    _ = BitVec.ofNat 64 w.toNat := by rw [Machine.ofLe_leBytes_of_lt (n := 8) w.isLt]
    _ = w := by simp

theorem decode_bytes {w : W64} {i : Instr} (h : decodeWord w = .ok i) (bs : List Byte) :
    decode ((Machine.tab 8 fun j => w.extractLsb' (8 * j) 8) ++ bs) = .ok (i, bs) := by
  have hlen : (Machine.tab 8 fun j => w.extractLsb' (8 * j) 8).length = 8 := by simp [Machine.tab]
  rw [decode, if_neg (by simp [hlen]), List.take_left' hlen, wordOfBytes_bytes, h, List.drop_left' hlen]

/-! ### Block headers (R227, R228) -/

theorem decodeHeader_eq_some_iff (w : W64) (h : Header) : decodeHeader w = some h ↔ w = encodeHeader h := by
  obtain ⟨len, wait, setA, setB, live, kind, pfx⟩ := h
  have hw : w = w.extractLsb' 0 (6 + 6 + 12 + 4 + 4 + 7 + 2 + 3 + 20) := BitVec.extractLsb'_eq_self.symm
  conv_rhs => rw [hw]
  show _ ↔ w.extractLsb' 0 (6 + 6 + 12 + 4 + 4 + 7 + 2 + 3 + 20) = 63#6 ++ len ++ wait ++ BitVec.ofNat 4 (flagCode setA)
    ++ BitVec.ofNat 4 (flagCode setB) ++ BitVec.ofNat 7 live.val ++ BitVec.ofNat 2 kind.code ++ 0#3 ++ pfx
  simp only [extract_eq_append_iff]
  simp only [← flag_codes.codeAt_iff, ← HKind.codes.codeAt_iff, ← codeAt_eq_iff w 25 7 live.val (by omega), ← codeAt_eq_iff w 58 6 63 (by omega),
    ← codeAt_eq_iff w 20 3 0 (by omega), Nat.reduceAdd, Option.some.injEq]
  unfold decodeHeader
  split
  next hbad =>
    refine ⟨nofun, ?_⟩
    rintro ⟨⟨⟨hop, -⟩, hzero⟩, -⟩
    simp [hop, hzero] at hbad
  next hgood =>
    obtain ⟨hop, hzero⟩ : codeAt w 58 6 = 63 ∧ codeAt w 20 3 = 0 := by simpa using hgood
    split
    next hA hB =>
      split
      next hlive =>
        simp only [hop, hzero, hA, hB, Option.some.injEq, Header.mk.injEq, Fin.ext_iff]
        tauto
      next hlive =>
        refine ⟨nofun, ?_⟩
        rintro ⟨⟨⟨⟨-, hl⟩, -⟩, -⟩, -⟩
        exact (hlive (hl ▸ live.isLt)).elim
    next hcode =>
      refine ⟨nofun, ?_⟩
      rintro ⟨⟨⟨⟨⟨⟨-, hA⟩, hB⟩, -⟩, -⟩, -⟩, -⟩
      exact (hcode _ _ hA hB).elim

/-- Settles O57: a row of the opcode map makes an instruction of a word exactly where the word has its parts, and each format and header
is its fields side by side. -/
theorem decodeEncode : Obligations.DecodeEncode :=
  ⟨fun _ _ hw he => decodeWord_encode hw he, fun _ _ h => encode_decodeWord h, fun _ _ bs hw he => decode_bytes (decodeWord_encode hw he) bs,
    fun h => (decodeHeader_eq_some_iff _ h).mpr rfl, fun w h hd => ((decodeHeader_eq_some_iff w h).mp hd).symm⟩

/-- Settles O56: each word that decodes is the encoding of its well-formed instruction, and the refused one holds the reserved code of SF. -/
theorem decodeKnownWords : Obligations.DecodeKnownWords :=
  ⟨decodeWord_encode rfl rfl, decodeWord_encode rfl rfl, decodeWord_encode rfl rfl, decodeWord_encode rfl rfl, decodeWord_encode rfl rfl,
    decodeWord_encode rfl rfl, decodeWord_encode rfl rfl, decodeWord_encode rfl rfl, rfl, decodeWord_encode rfl rfl⟩

end Sys2Proof
end

section
/-! PROOFS. What ends a grid with the Double Trap cause (O27): the words that no handler may issue, a trap of a handler's word, and the
failures before its meaning (R228, R240, R410, R414). -/

namespace Sys2Proof.Machine

open Sys2Proof.Claims

/-- A handler issues no word of this form under this predicate: `h` where it may issue the form, with PRED 0 and PN 0 alone (R414). -/
abbrev Refused (h : Bool) (p : Pred) : Prop := h = false ∨ p.neg = true ∨ p.m.val ≠ 0

/-! ### The runners of an issue, for a word that a handler may not issue -/

section
variable {s : State} (hs : s.g.iss.handler = true) {p : Pred}
include hs

theorem State.perform_refused {h : Bool} (hr : Refused h p) (chk : Nat → Bool) (op : State → Mask → Did) :
    s.perform h p chk op = .next s.doubleTrap := by
  rcases hr with hh | hn | hm
  · simp [State.perform, hs, State.performHandler, hh]
  · simp [State.perform, hs, State.performHandler, hn]
  · simp [State.perform, hs, State.performHandler, hm]

theorem State.once_refused {h : Bool} (hr : Refused h p) (chk : Nat → Bool) (op : State → Mask → Grp → Grp) :
    s.once h p chk op = .next s.doubleTrap :=
  State.perform_refused hs hr chk _

/-- The failure of step 7 of R240 in a handler. -/
theorem State.perform_checkFails {chk : Nat → Bool} (hc : chk 0 = false) (op : State → Mask → Did) :
    s.perform true p chk op = .next s.doubleTrap := by
  simp [State.perform, hs, State.performHandler, hc]

/-- A trap of a handler's word. -/
theorem State.perform_traps (hn : p.neg = false) (hm : p.m.val = 0) {chk : Nat → Bool} (hc : chk 0 = true) {op : State → Mask → Did} {u : State}
    {x : Nat × Fail} {xs : List (Nat × Fail)} (ho : op s.atHandler 0 = .done u (x :: xs)) (hu : u.met = s.met) :
    s.perform true p chk op = .next u.doubleTrap := by
  have hop : op s.atHandler 0#64 = .done u (x :: xs) := ho
  simp [State.perform, hs, State.performHandler, hn, hm, hc, hop, hu, State.finishHandler]

/-! ### The operations that several words share, by their destination -/

section
variable {f : VF} (hr : Refused f.d.isS p)
include hr

theorem State.intOp_refused (n : Nat) (fn : Nat → Nat → Nat → Nat) : s.intOp p f n fn = .next s.doubleTrap := by
  unfold State.intOp
  split
  next hd => rw [hd] at hr; exact State.once_refused hs hr _ _
  next => exact State.perLane_inHandler hs p _ _

theorem State.maskCount_refused (fn : Nat → Nat) : s.maskCount p f fn = .next s.doubleTrap := by
  unfold State.maskCount
  dsimp only
  split
  next hd => rw [hd] at hr; exact State.once_refused hs hr _ _
  next => exact State.perLane_inHandler hs p _ _

theorem execSel_refused : execSel p f s = .next s.doubleTrap := by
  unfold execSel
  dsimp only
  split
  next hd => rw [hd] at hr; exact State.once_refused hs hr _ _
  next => exact State.perLane_inHandler hs p _ _

end

theorem State.compareOp_refused {d : Opnd} (hr : Refused d.isS p) (srcs : List (Opnd × Nat)) (res : State → Nat → Val) :
    s.compareOp true p d srcs res = .next s.doubleTrap := by
  unfold State.compareOp
  split
  · exact State.perform_inHandler hs p _ _
  · exact State.once_refused hs hr _ _
  · exact State.perLane_inHandler hs p _ _

theorem State.immOp_refused {f : IF} (hr : Refused f.d.isS p) (srcs : List Opnd) (fn : Nat → Nat → Nat → Nat) :
    s.immOp p f srcs fn = .next s.doubleTrap := by
  unfold State.immOp
  split
  next hd => rw [hd] at hr; exact State.once_refused hs hr _ _
  next => exact State.perLane_inHandler hs p _ _

theorem State.rmwOp_refused {f : MF} (hr : Refused f.d.isS p) (k op : Nat)
    (fn : FpEnv → List Reg → Nat → Option Nat × W32) :
    s.rmwOp p f k op fn = .next s.doubleTrap := by
  unfold State.rmwOp
  exact State.perform_refused hs hr _ _

theorem State.loadOp_refused {f : MF} {h : Bool} (hr : Refused h p) (k : Bool) : s.loadOp h p f k = .next s.doubleTrap := by
  unfold State.loadOp
  exact State.perform_refused hs hr _ _

theorem State.storeOp_refused {f : MF} {h : Bool} (hr : Refused h p) (acc : Acc) (k : Bool) :
    s.storeOp h p f acc k = .next s.doubleTrap := by
  unfold State.storeOp
  exact State.perform_refused hs hr _ _

theorem State.carryOp_inHandler (p : Pred) (f : VF) (fn : Nat → Nat → Nat → Nat → Nat × Bool) : s.carryOp p f fn = .next s.doubleTrap := by
  unfold State.carryOp
  exact State.perform_inHandler hs p _ _

theorem State.maskOp_refused {f : VF} (hr : p.neg = true ∨ p.m.val ≠ 0) (fn : Mask → Mask → Mask) : s.maskOp p f fn = .next s.doubleTrap :=
  State.once_refused hs (.inr hr) _ _

/-! ### Words whose form goes by their operands -/

/-- MOV of a z register to a z register is the scalar unit's, and to any other it fails at step 7. -/
theorem execMov_refused {f : VF} (hr : Refused (f.d.isS || f.d.isZ) p) : execMov p f s = .next s.doubleTrap := by
  unfold execMov
  split
  next hd => rw [hd] at hr; exact State.once_refused hs hr _ _
  next =>
    split
    · exact State.perform_checkFails hs rfl _
    · refine State.intOp_refused hs (hr.imp_left fun h => ?_) _ _
      exact (Bool.or_eq_false_iff.mp h).1

omit hs in
/-- A system register that a handler's MFSR and MTSR may not name is one of each lane. -/
theorem srPerLane_of_refused {n : Nat} (h : (n ≠ 0 && n ≠ 0x10) = false) : srPerLane n = true := by
  rw [srPerLane, Bool.or_eq_true, beq_iff_eq, beq_iff_eq]
  simpa [Classical.or_iff_not_imp_left] using h

theorem execMfsr_refused {f : IF} (hr : Refused (f.imm.toNat ≠ 0 && f.imm.toNat ≠ 0x10) p) :
    execMfsr p f s = .next s.doubleTrap := by
  unfold execMfsr
  dsimp only
  split
  · exact State.perform_inHandler hs p _ _
  next hn =>
    exact State.perform_refused hs (hr.imp_left fun h => absurd (srPerLane_of_refused h) hn) _ _

theorem execMtsr_refused {f : IF} (hr : Refused (f.imm.toNat ≠ 0 && f.imm.toNat ≠ 0x10) p) :
    execMtsr p f s = .next s.doubleTrap := by
  unfold execMtsr
  dsimp only
  split
  · exact State.perform_inHandler hs p _ _
  next hn =>
    exact State.perform_refused hs (hr.imp_left fun h => absurd (srPerLane_of_refused h) hn) _ _

/-! ### Every word -/

/-- R414: a word that is not a handler's, or one under a predicate, is a Double Trap. -/
theorem handlerRun_refused {i : Instr} {q : Parts} (hq : i.parts = some q) (hr : Refused (handlerWord i) q.pred) :
    handlerRun i s = .next s.doubleTrap := by
  cases i with
  | add p f | sub p f | mul p f | mulh p f | mad p f | and p f | or p f | xor p f | andn p f | shl p f | shr p f | sra p f | rot p f | min p f
  | max p f | absd p f | popc p f | clz p f | brev p f | bfe p f | bfi p f | div p f =>
    cases hq; rw [handlerRun]; exact State.intOp_refused hs hr _ _
  | movi p f | addi p f | andi p f | ori p f | xori p f => cases hq; rw [handlerRun]; exact State.immOp_refused hs hr _ _
  | atom p f => cases hq; rw [handlerRun, execAtom]; exact State.rmwOp_refused hs hr _ _ _
  | cas p f => cases hq; rw [handlerRun, execCas]; exact State.rmwOp_refused hs hr _ _ _
  | casgt p f | casv p f | caspt p f => cases hq; rw [handlerRun]; exact State.rmwOp_refused hs hr _ _ _
  | mpopc p f | mfirst p f => cases hq; rw [handlerRun]; exact State.maskCount_refused hs hr _
  | cmp p f | cmpi p f => cases hq; rw [handlerRun]; exact State.compareOp_refused hs hr _ _
  | sel => cases hq; exact execSel_refused hs hr
  | mov => cases hq; exact execMov_refused hs hr
  | mfsr => cases hq; exact execMfsr_refused hs hr
  | mtsr => cases hq; exact execMtsr_refused hs hr
  | mand p f | mor p f | mxor p f | mandn p f =>
    cases hq
    have hp : p.neg = true ∨ p.m.val ≠ 0 := hr.resolve_left nofun
    rw [handlerRun]
    exact State.maskOp_refused hs hp _
  | mmov p f | mact p f => cases hq; rw [handlerRun]; exact State.once_refused hs hr _ _
  | nop p f | bra p f | bru p f | tret p f | hexitWrite p f | ptmaskWrite p f | lget p f | lput p f | fence p f =>
    cases hq; rw [handlerRun]; exact State.perform_refused hs hr _ _
  | ld => cases hq; exact State.loadOp_refused hs hr _
  | st => cases hq; exact State.storeOp_refused hs hr _ _
  | addc | subb => cases hq; exact State.carryOp_inHandler hs _ _ _
  | _ => rfl

end

/-! ### The words of a handler -/

theorem handlerWordsHold_holds : handlerWordsHold := by
  refine ⟨fun i q s hq hs hr => ?_, fun s u p chk op x xs hs hn hm hc ho hu => State.perform_traps hs hn hm hc ho hu,
    fun s p chk op hs hc => State.perform_checkFails hs hc op⟩
  rw [← handlerRun_eq_exec hs (hq ▸ Option.some_ne_none q)]
  exact handlerRun_refused hs hq hr

/-! ### The checks before the meaning of a handler's word -/

theorem State.setIss_g (s : State) (i : Issue) : (s.setIss i).g = { s.g with iss := i } := State.g_modG _ _

theorem State.doubleTrap_eq (s : State) : s.doubleTrap = s.fatal 0x0100 0 := rfl

theorem State.preTrap_handler {s : State} (hs : s.g.iss.handler = true) (f : Fail) : s.preTrap f = s.doubleTrap := if_pos hs

theorem State.reject_handler {s : State} (hs : s.g.iss.handler = true) (f : Fail) : s.reject f = .spent s.doubleTrap := if_pos hs

/-- The issue of a handler's word, with the word still to be fetched. -/
def handlerIssue (h : Handler) : Issue := { pc := h.pc, bb := h.bb, hdr := h.hdr, set := 0, handler := true }

/-- R226, R228: at TRAPV and at the target of a branch, and at the end of its block, a handler comes to a header. -/
theorem State.prepare_handler_header {s : State} {h : Handler} {k : HKind} (hh : s.g.handler = some h)
    (hr : h.reach = .header k ∨ h.reach = .inside ∧ inBlock h.pc h.bb h.hdr = false ∧ k = .ord) :
    s.prepare = s.enter (handlerIssue h) [(0, some k)] := by
  have he : expectOf h.pc h.bb h.hdr h.reach = some (.header (some k)) := by
    rcases hr with hr | ⟨hr, hb, rfl⟩
    · rw [hr]; rfl
    · simp [hr, expectOf, hb]
  simp only [State.prepare, hh, State.prepHandler, he]
  rfl

/-- R230: inside its block a handler goes on with the word at its PC. -/
theorem State.prepare_handler_word {s : State} {h : Handler} (hh : s.g.handler = some h) (hr : h.reach = .inside)
    (hb : inBlock h.pc h.bb h.hdr = true) : s.prepare = s.fetchWord (handlerIssue h) h.pc :=
  State.prepare_handler_inside hh (by simp [hr, expectOf, hb])

/-- R410: a fetch that fails for a handler writes its record and ends the grid. -/
theorem State.fetchFault_handler {u : State} {i : Issue} {va : W64} {f : Flt} (hi : i.handler = true)
    (hroom : (u.setIss { i with pc := va, word := 0 }).recordRoom ≠ 0) :
    u.fetchFault i va f =
      (let v := u.setIss { i with pc := va, word := 0 }
       (v.recordAt v.foc.ctx v.foc.core (v.grpRec f.kind .fetch 7 u.handlerMask va f.aux)).1.doubleTrap) := by
  unfold State.fetchFault
  dsimp only
  rw [if_neg hroom, if_pos hi, if_pos hi]

theorem State.fetchWord_fault {s u : State} {i : Issue} {va : W64} {f : Flt} (hf : s.fetch va i.set = (u, .flt f)) :
    s.fetchWord i va = .spent (u.fetchFault i va f) := by
  simp only [State.fetchWord, hf]

theorem State.enter_fault {s u : State} {i : Issue} {wants : List (Nat × Option HKind)} {f : Flt} (hf : s.fetch i.pc i.set = (u, .flt f)) :
    s.enter i wants = .spent (u.fetchFault i i.pc f) := by
  simp only [State.enter, hf]

/-- R240: a handler's word that steps 4 to 6 reject ends the grid. -/
theorem State.fetchWord_rejected {s u : State} {i : Issue} {va w : W64} {f : Fail} (hi : i.handler = true) (hf : s.fetch va i.set = (u, .word w))
    (hj : (u.setIss { i with pc := va, word := w }).judge i.hdr w (va.toNat == i.bb.toNat + 8 * blockLen i.hdr) = .error f) :
    s.fetchWord i va = .spent (u.setIss { i with pc := va, word := w }).doubleTrap := by
  unfold State.fetchWord
  rw [hf]
  dsimp only
  rw [if_pos hi, hj]
  exact State.reject_handler (by rw [State.setIss_g]; exact hi) f

/-- R228: a handler that finds no header of the KIND it wants ends the grid: at TRAPV, where that is not KIND 00, as Illegal Header. -/
theorem State.enter_wrongKind {s u : State} {i : Issue} {w : W64} {k : HKind} (hi : i.handler = true) (hset : i.set = 0)
    (hf : s.fetch i.pc i.set = (u, .word w)) (hw : ∀ x, decodeHeader w = some x → x.kind ≠ k) :
    s.enter i [(0, some k)] = .spent ((u.setIss { i with word := w }).fatal (if k = .ord then 0x0100 else 0x0003) 0) := by
  unfold State.enter
  rw [hf]
  dsimp -zeta only
  extract_lets bad
  have hbad : bad = [(0, some k)] := by
    refine List.filter_cons_of_pos ?_
    split
    · next x hd => simpa using fun hk => hw x hd hk.symm
    · rfl
  rw [hbad]
  by_cases hk : k = .ord
  · subst hk
    rw [if_neg (by decide), if_pos (by rfl), if_pos rfl, State.preTrap_handler (by rw [State.setIss_g]; exact hi), State.doubleTrap_eq]
    simp [hset]
  · rw [if_pos (by simpa using hk), if_neg hk]
    rfl

theorem handlerChecksHold_holds : handlerChecksHold := by
  intro s h hh i
  refine ⟨?_, ?_, fun u w k hr hf hw => ?_⟩
  · intro u f hr hf v hroom
    have hend := State.fetchFault_handler (i := handlerIssue h) (f := f) rfl hroom
    have henter : ∀ wants, s.enter (handlerIssue h) wants = .spent (u.fetchFault (handlerIssue h) h.pc f) := fun wants => State.enter_fault hf
    cases hreach : h.reach with
    | patched => exact absurd hreach hr
    | header k => rw [State.prepare_handler_header hh (.inl hreach), henter, hend, State.doubleTrap_eq]; rfl
    | inside =>
      cases hb : inBlock h.pc h.bb h.hdr with
      | false => rw [State.prepare_handler_header hh (.inr ⟨hreach, hb, rfl⟩), henter, hend, State.doubleTrap_eq]; rfl
      | true => rw [State.prepare_handler_word hh hreach hb, State.fetchWord_fault (i := handlerIssue h) hf, hend, State.doubleTrap_eq]; rfl
  · intro u w f hr hb hf v hj
    rw [State.prepare_handler_word hh hr hb, State.fetchWord_rejected (i := handlerIssue h) rfl hf hj, State.doubleTrap_eq]
    rfl
  · rw [State.prepare_handler_header hh hr, State.enter_wrongKind (i := handlerIssue h) rfl rfl hf hw]
    rfl

/-- Settles O27: a handler's runner refuses every other word and predicate, and each check before its meaning ends the grid. -/
theorem doubleTraps : Obligations.DoubleTraps := ⟨handlerWordsHold_holds, handlerChecksHold_holds⟩

end Sys2Proof.Machine
end

section
/-! PROOFS. Shifts and bit fields (O2). -/

namespace Sys2Proof.Machine

open Sys2Proof.Claims

/-! ### The two runners, as the statements name them -/

theorem State.once_eq_handlerOut {s : State} {p : Pred} {chk : Nat → Bool} (op : State → Mask → Grp → Grp) (hr : s.RunsH p) (hc : chk 0 = true) :
    s.once true p chk op = handlerOut s (op s.atHandler 0#64) := s.once_runsH p chk op hr hc

/-! ### INT words on the two datapaths (R247, R248, R260) -/

theorem State.intOp_scalar {s : State} {p : Pred} {f : VF} {k : Fin 64} (n : Nat) (fn : Nat → Nat → Nat → Nat) (hd : f.d = .s k) :
    s.intOp p f n fn = s.once true p (s.opsOk (withRegs f.ty.regs (srcsOf f n))) fun s _ g =>
      g.putS k ⟨sExtend f.ty (s.val3 0 f.ty (srcsOf f n) fn).n, (s.val3 0 f.ty (srcsOf f n) fn).poi⟩ := by
  unfold State.intOp
  rw [hd]
  rfl

/-- A word that is performed as an INT word of n sources with the value fn is one. -/
theorem intWord_of_intOp {i : Instr} {p : Pred} {f : VF} {n : Nat} {fn : Nat → Nat → Nat → Nat} {s : State} (he : exec i s = s.intOp p f n fn) :
    intWord i p f n fn s := by
  refine ⟨fun hd hr => ?_, fun k hd => ⟨fun hr => ?_, fun hr hc => ?_⟩⟩
  · rw [he, State.intOp_lanes hd]
    refine (State.perLane_eq_lanesOut _ hr).trans ?_
    simp only [State.val3_atIssue, State.atIssue_wb]
    rfl
  · rw [he, State.intOp_scalar n fn hd, State.once_eq_groupOut true _ hr, State.val3_atIssue]
  · rw [he, State.intOp_scalar n fn hd, State.once_eq_handlerOut _ hr hc, State.val3_atHandler]

/-! ### Shifts as shifts of the bits (R263) -/

section
variable {w a n : Nat} (ha : a < 2 ^ w)

theorem wrap_lt (w : Nat) (z : Int) : wrap w z < 2 ^ w := by
  rw [wrap_ofInt]
  exact BitVec.isLt _

include ha

theorem toNat_ofNat_of_lt : (BitVec.ofNat w a).toNat = a := by rw [BitVec.toNat_ofNat, Nat.mod_eq_of_lt ha]

theorem shiftLeft_eq : shiftLeft w a n = (BitVec.ofNat w a <<< n).toNat := by
  rw [BitVec.toNat_shiftLeft, toNat_ofNat_of_lt ha, Nat.shiftLeft_eq, shiftLeft]
  split
  · rename_i h
    exact (Nat.mod_eq_zero_of_dvd (Dvd.dvd.mul_left (Nat.pow_dvd_pow 2 h) a)).symm
  · rfl

theorem shiftRight_eq : shiftRight w a n = (BitVec.ofNat w a >>> n).toNat := by
  rw [BitVec.toNat_ushiftRight, toNat_ofNat_of_lt ha, Nat.shiftRight_eq_div_pow, shiftRight]
  split
  · rename_i h
    exact (Nat.div_eq_of_lt (ha.trans_le (Nat.pow_le_pow_right Nat.two_pos h))).symm
  · rfl

theorem rotateLeft_eq (hw : 0 < w) : rotateLeft w a n = ((BitVec.ofNat w a).rotateLeft n).toNat := by
  have hk : n % w ≤ w := (Nat.mod_lt n hw).le
  have hlow : a / 2 ^ (w - n % w) < 2 ^ (n % w) := by
    rw [Nat.div_lt_iff_lt_mul (Nat.two_pow_pos _), ← pow_add, Nat.add_sub_cancel' hk]
    exact ha
  rw [BitVec.toNat_rotateLeft, toNat_ofNat_of_lt ha, rotateLeft, ← Nat.shiftLeft_eq, Nat.shiftLeft_add_eq_or_of_lt hlow, Nat.or_mod_two_pow,
    Nat.shiftRight_eq_div_pow, Nat.mod_eq_of_lt (hlow.trans_le (Nat.pow_le_pow_right Nat.two_pos hk))]

end

/-- An arithmetic shift past the width leaves copies of the sign. -/
theorem sshiftRight_of_le {w n : Nat} (x : BitVec w) (h : w ≤ n) : x.sshiftRight n = if x.toInt < 0 then BitVec.allOnes w else 0#w := by
  refine BitVec.eq_of_getLsbD_eq fun i hi => ?_
  rw [BitVec.getLsbD_sshiftRight, if_neg (by omega), BitVec.msb_eq_toInt]
  split <;> simp_all

theorem shiftArith_eq {w : Nat} (hw : 0 < w) (a n : Nat) : shiftArith w a n = ((BitVec.ofNat w a).sshiftRight n).toNat := by
  rw [shiftArith, sgn_toInt w a hw]
  split
  · rename_i h
    rw [sshiftRight_of_le _ h]
    split
    · exact BitVec.toNat_allOnes.symm
    · rfl
  · rw [wrap_ofInt, ← Int.shiftRight_eq_div_pow]
    rfl

/-! ### BFE and BFI bit by bit (R263) -/

theorem testBit_bitsAt (x lo w i : Nat) : (bitsAt x lo w).testBit i = (decide (i < w) && x.testBit (lo + i)) := by
  rw [bitsAt, Nat.testBit_mod_two_pow, Nat.testBit_div_two_pow, Nat.add_comm]

/-- The value that BFE reads its field in: below w the bits of a, from w on the sign for .i types. -/
theorem testBit_extended {w a j : Nat} (hw : w ≤ 512) (ha : a < 2 ^ w) (hj : j < 512) (sg : Bool) :
    (if sg && a.testBit (w - 1) then a + (2 ^ 512 - 2 ^ w) else a).testBit j = if j < w then a.testBit j else sg && a.testBit (w - 1) := by
  have hpow : 2 ^ 512 - 2 ^ w = 2 ^ w * (2 ^ (512 - w) - 1) := by
    rw [Nat.mul_sub_one, ← pow_add, Nat.add_sub_cancel' hw]
  cases hs : sg && a.testBit (w - 1) with
  | true =>
    rw [if_pos rfl, Nat.add_comm, hpow, Nat.testBit_two_pow_mul_add _ ha]
    split
    · rfl
    · rw [Nat.testBit_two_pow_sub_one]
      exact decide_eq_true (by omega)
  | false =>
    rw [if_neg Bool.false_ne_true]
    split
    · rfl
    · exact Nat.testBit_lt_two_pow (ha.trans_le (Nat.pow_le_pow_right Nat.two_pos (by omega)))

theorem testBit_bitField {w a pos len i : Nat} {sg : Bool} (hw : w ≤ 512) (ha : a < 2 ^ w) (hi : pos + i < 512) :
    (bitField w a pos len sg).testBit i = (decide (i < len) && if pos + i < w then a.testBit (pos + i) else sg && a.testBit (w - 1)) := by
  rw [bitField, testBit_bitsAt, testBit_extended hw ha hi]

theorem bitField_lt (w a pos len : Nat) (sg : Bool) : bitField w a pos len sg < 2 ^ len := Nat.mod_lt _ (Nat.two_pow_pos _)

/-- A field of len bits read with its sign, as its sign extension. -/
theorem wrap_sgn {len : Nat} (w x : Nat) (h : 0 < len) : wrap w (sgn len x) = ((BitVec.ofNat len x).signExtend w).toNat := by
  rw [wrap_ofInt, sgn_toInt len x h]
  rfl

theorem testBit_wrap_sgn {w len i : Nat} (x : Nat) (h : 0 < len) (hi : i < w) :
    (wrap w (sgn len x)).testBit i = if i < len then x.testBit i else x.testBit (len - 1) := by
  rw [wrap_sgn w x h, BitVec.testBit_toNat, BitVec.getLsbD_signExtend, BitVec.msb_eq_getLsbD_last, BitVec.getLsbD_ofNat, BitVec.getLsbD_ofNat]
  by_cases hl : i < len <;> simp [hi, hl, Nat.sub_lt h Nat.one_pos]

section
variable {w a b : Nat} (hw : w ≤ 64) (ha : a < 2 ^ w)
include hw ha

theorem testBit_extractField (sg : Bool) {i : Nat} (hi : i < w) :
    let pos := b % 256
    let len := min (b / 256 % 256) w
    let bit (j : Nat) : Bool := if j < w then a.testBit j else sg && a.testBit (w - 1)
    (extractField w a b sg).testBit i = (len ≠ 0 && (if i < len then bit (pos + i) else sg && bit (pos + (len - 1)))) := by
  intro pos len bit
  have hpos : pos < 256 := Nat.mod_lt _ (by decide)
  have hlen : len ≤ w := Nat.min_le_right _ _
  have hfield : ∀ j, j < w → (bitField w a pos len sg).testBit j = (decide (j < len) && bit (pos + j)) := fun j hj =>
    testBit_bitField (by omega) ha (by omega)
  show (if len = 0 then 0 else if sg then wrap w (sgn len (bitField w a pos len sg)) else bitField w a pos len sg).testBit i = _
  by_cases h0 : len = 0
  · simp [h0]
  rw [if_neg h0]
  cases sg with
  | true =>
    rw [if_pos rfl, testBit_wrap_sgn _ (by omega) hi, hfield i hi, hfield (len - 1) (by omega)]
    by_cases hl : i < len <;> simp [h0, hl]
    omega
  | false =>
    rw [if_neg Bool.false_ne_true, hfield i hi]
    by_cases hl : i < len <;> simp [h0, hl]

end

theorem extractField_lt (w a b : Nat) (sg : Bool) : extractField w a b sg < 2 ^ w := by
  unfold extractField
  dsimp only
  split
  · exact Nat.two_pow_pos _
  · split
    · exact wrap_lt _ _
    · exact (bitField_lt _ _ _ _ _).trans_le (Nat.pow_le_pow_right Nat.two_pos (Nat.min_le_right _ _))

/-- The bits that BFI replaces. -/
theorem testBit_fieldMask (w pos len i : Nat) :
    ((2 ^ len - 1) * 2 ^ pos % 2 ^ w).testBit i = (decide (i < w) && decide (pos ≤ i) && decide (i - pos < len)) := by
  rw [Nat.testBit_mod_two_pow, Nat.mul_comm, Nat.testBit_two_pow_mul, Nat.testBit_two_pow_sub_one, Bool.and_assoc]

theorem testBit_insertField {w a i : Nat} (b c : Nat) (hi : i < w) :
    let pos := b % 256
    let len := min (b / 256 % 256) w
    (insertField w a b c).testBit i = (if pos ≤ i ∧ i < pos + len then c.testBit (i - pos) else a.testBit i) := by
  intro pos len
  have hm : (2 ^ len - 1) * 2 ^ pos % 2 ^ w < 2 ^ w := Nat.mod_lt _ (Nat.two_pow_pos _)
  show ((a &&& (2 ^ w - 1 - (2 ^ len - 1) * 2 ^ pos % 2 ^ w)) ||| (c * 2 ^ pos % 2 ^ w &&& (2 ^ len - 1) * 2 ^ pos % 2 ^ w)).testBit i = _
  rw [Nat.sub_sub, Nat.add_comm 1, Nat.testBit_or, Nat.testBit_and, Nat.testBit_and, Nat.testBit_two_pow_sub_succ hm, testBit_fieldMask,
    Nat.testBit_mod_two_pow, Nat.mul_comm c, Nat.testBit_two_pow_mul]
  by_cases h : pos ≤ i ∧ i < pos + len
  · have hlt : i - pos < len := by omega
    simp [hi, h, hlt]
  · have hout : ¬ (pos ≤ i ∧ i - pos < len) := by omega
    rw [if_neg h, Bool.and_assoc (decide (i < w)), ← Bool.decide_and, decide_eq_false hout]
    simp [hi]

theorem insertField_lt (w a b c : Nat) : insertField w a b c < 2 ^ w :=
  Nat.or_lt_two_pow (Nat.and_lt_two_pow _ (by omega)) (Nat.and_lt_two_pow _ (Nat.mod_lt _ (Nat.two_pow_pos _)))

/-! ### The obligation -/

/-- Settles O2: the words by their shared runner; the shifts as `BitVec` shifts, and the fields by their bits. -/
theorem shiftsAndBitFields : Obligations.ShiftsAndBitFields := by
  refine ⟨fun p f s => ⟨intWord_of_intOp rfl, intWord_of_intOp rfl, intWord_of_intOp rfl, intWord_of_intOp rfl, intWord_of_intOp rfl,
    intWord_of_intOp rfl⟩, fun w a n hw ha => ?_, fun w a b c sg i hw ha _ hi => ?_⟩
  · have h0 : 0 < w := by omega
    exact ⟨shiftLeft_eq ha, shiftRight_eq ha, shiftArith_eq h0 a n, rotateLeft_eq ha h0⟩
  · exact ⟨testBit_extractField (by omega) ha sg hi, testBit_insertField b c hi, extractField_lt w a b sg, insertField_lt w a b c⟩

end Sys2Proof.Machine
end

section
/-! PROOFS. INT words (O1): refuted. -/

namespace Sys2Proof.Machine

open Sys2Proof.Claims

/-- An issue that changes its active lanes alone and retires leaves lane 0 of `plainIssue` Running. -/
theorem plainIssue_lanesOut : lane0State (lanesOut plainIssue anyLane fun l x => x.putVec plainIssue.g.wb movOfZ0.d movOfZ0.ty.is64
    (plainIssue.val3 l movOfZ0.ty (srcsOf movOfZ0 1) fun a _ _ => a)) = some .running := by decide +kernel

/-- Refutes O1: MOV of a z register to a v register is a row of `intRow` whose operands pass, but it traps its lanes and writes nothing. -/
theorem not_intWords : ¬ Obligations.IntWords := by
  unfold Obligations.IntWords
  intro h
  have hmov := (h.1 (.mov anyLane movOfZ0) anyLane movOfZ0 1 (fun a _ _ => a) plainIssue rfl).1 rfl plainIssue_runs
  have htrap := plainIssue_mov
  rw [hmov, plainIssue_lanesOut] at htrap
  exact absurd htrap (by decide)

end Sys2Proof.Machine
end

section
/-! PROOFS. Division (O3). -/

namespace Sys2Proof.Machine

open Sys2Proof.Claims

theorem wrap_natCast {w n : Nat} (h : n < 2 ^ w) : wrap w n = n := by
  rw [wrap_ofInt, BitVec.ofInt_natCast, toNat_ofNat_of_lt h]

theorem ofInt_tdiv {w : Nat} (x y : BitVec w) : BitVec.ofInt w (x.toInt.tdiv y.toInt) = x.sdiv y :=
  BitVec.eq_of_toInt_eq (by rw [BitVec.toInt_ofInt, BitVec.toInt_sdiv])

theorem ofInt_tmod {w : Nat} (x y : BitVec w) : BitVec.ofInt w (x.toInt.tmod y.toInt) = x.srem y := by
  rw [← BitVec.toInt_srem, BitVec.ofInt_toInt]

theorem ty_w_pos (t : Ty) : 0 < t.w := by
  unfold Ty.w
  split <;> decide

section
variable {t : Ty} {a b : Nat}

theorem divide_zero (rem : Bool) : divide t rem a 0 = if rem then a else 2 ^ t.w - 1 := if_pos rfl

theorem divide_unsigned (ht : t.isI = false) (hb : b ≠ 0) (ha : a < 2 ^ t.w) (rem : Bool) :
    divide t rem a b = if rem then a % b else a / b := by
  simp only [divide, if_neg hb, intOf, ht, Bool.false_eq_true, if_false]
  cases rem with
  | true => exact wrap_natCast ((Nat.mod_le a b).trans_lt ha)
  | false => exact wrap_natCast ((Nat.div_le_self a b).trans_lt ha)

theorem divide_signed (ht : t.isI = true) (hb : b ≠ 0) (rem : Bool) :
    divide t rem a b = (if rem then (BitVec.ofNat t.w a).srem (BitVec.ofNat t.w b) else (BitVec.ofNat t.w a).sdiv (BitVec.ofNat t.w b)).toNat := by
  simp only [divide, if_neg hb, intOf, ht, if_true, sgn_toInt _ _ (ty_w_pos t), wrap_ofInt]
  cases rem with
  | true => exact congrArg BitVec.toNat (ofInt_tmod _ _)
  | false => exact congrArg BitVec.toNat (ofInt_tdiv _ _)

/-- The quotient that no signed value of w bits holds comes back as the dividend. -/
theorem divide_overflow (ht : t.isI = true) :
    divide t false (2 ^ (t.w - 1)) (2 ^ t.w - 1) = 2 ^ (t.w - 1) ∧ divide t true (2 ^ (t.w - 1)) (2 ^ t.w - 1) = 0 := by
  cases t with
  | i32 => decide
  | i64 => decide
  | _ => cases ht

end

/-- Settles O3: the word by the shared runner, which raises no flag, and the quotient and remainder as those of `BitVec`. -/
theorem division : Obligations.Division := by
  refine ⟨fun p f s => intWord_of_intOp rfl, Lane.fpl_putVec, fun t a b _ ha _ => ⟨?_, fun hb ht => ?_, fun hb ht => ?_, ?_⟩⟩
  · rintro rfl
    exact ⟨divide_zero false, divide_zero true⟩
  · exact ⟨divide_unsigned ht hb ha false, divide_unsigned ht hb ha true⟩
  · exact ⟨divide_signed ht hb false, divide_signed ht hb true⟩
  · rintro ht rfl rfl
    exact divide_overflow ht

end Sys2Proof.Machine
end

section
/-! PROOFS. ADDC and SUBB (O4). -/

namespace Sys2Proof.Machine

open Sys2Proof.Claims

theorem addCarry_eq (w a b c : Nat) : addCarry w a b c =
    ((((a : Int) + b + c) % (2 ^ w : Nat)).toNat, decide ((2 ^ w : Nat) ≤ (a : Int) + b + c ∨ (a : Int) + b + c < 0)) := by
  refine Prod.ext (Int.toNat_natCast _).symm (decide_eq_decide.mpr ?_)
  omega

theorem subBorrow_eq {w a : Nat} (ha : a < 2 ^ w) (b c : Nat) : subBorrow w a b c =
    ((((a : Int) - b - c) % (2 ^ w : Nat)).toNat, decide ((2 ^ w : Nat) ≤ (a : Int) - b - c ∨ (a : Int) - b - c < 0)) := by
  refine Prod.ext rfl (decide_eq_decide.mpr ?_)
  omega

/-- What ADDC and SUBB make of a group, where `t` is the exact sum or difference in a lane (R262). -/
def State.carryAct (s : State) (p : Pred) (f : VF) (t : Nat → Int) (g : Grp) : Grp :=
  let poi (l : Nat) : Bool := (s.rd l f.ty f.a).poi || (s.rd l f.ty f.b).poi || (s.carryIn l f.c).poi
  (g.modLanes (g.lanesOf (s.allowed p)) fun l x =>
    x.putVec s.g.wb f.d f.ty.is64 ⟨(t l % (2 ^ f.ty.w : Nat)).toNat, poi l⟩).putMLanes (f.m % 8) (s.allowed p) fun l =>
      ⟨if (2 ^ f.ty.w : Nat) ≤ t l ∨ t l < 0 then 1 else 0, poi l⟩

theorem State.carryOp_runs {s : State} {p : Pred} {f : VF} {fn : Nat → Nat → Nat → Nat → Nat × Bool}
    (hr : s.Runs p (s.opsOk (withRegs f.ty.regs [f.d, f.a, f.b]))) (t : Nat → Int)
    (ht : ∀ l, fn f.ty.w (s.rd l f.ty f.a).n (s.rd l f.ty f.b).n (s.carryIn l f.c).n =
      ((t l % (2 ^ f.ty.w : Nat)).toNat, decide ((2 ^ f.ty.w : Nat) ≤ t l ∨ t l < 0))) :
    s.carryOp p f fn = groupOut s p (s.carryAct p f t) := by
  refine (State.perform_done s false p _ _ hr _ rfl ?_).trans ?_
  · exact State.atIssue_met s _
  simp only [State.rd_atIssue, State.carryIn_atIssue, State.atIssue_wb, ht, decide_eq_true_eq]
  rfl

/-- Settles O4: the two words by one effect, with the exact sum and the exact difference. -/
theorem carryWords : Obligations.CarryWords := by
  intro p f s hr
  exact ⟨State.carryOp_runs hr _ fun l => addCarry_eq _ _ _ _, State.carryOp_runs hr _ fun l => subBorrow_eq (s.rd_lt l f.ty f.a) _ _⟩

end Sys2Proof.Machine
end

section
/-! PROOFS. Comparisons and selections (O5). -/

namespace Sys2Proof.Machine

open Sys2Proof.Claims

/-! ### Comparisons (R264, R268) -/

theorem cmpHolds_eq_condHolds {w a b : Nat} (hw : 0 < w) (ha : a < 2 ^ w) (hb : b < 2 ^ w) (c : Nat) :
    cmpHolds w c a b = condHolds w (BitVec.ofNat w a) (BitVec.ofNat w b) c := by
  have hna := toNat_ofNat_of_lt ha
  have hnb := toNat_ofNat_of_lt hb
  have heq : (a == b) = (BitVec.ofNat w a == BitVec.ofNat w b) := by
    rw [Bool.eq_iff_iff, beq_iff_eq, beq_iff_eq, ← BitVec.toNat_inj, hna, hnb]
  unfold cmpHolds condHolds
  split
  case h_1 => exact heq
  case h_2 => exact congrArg not heq
  all_goals simp only [BitVec.slt, BitVec.sle, BitVec.ult, BitVec.ule, sgn_toInt _ _ hw, hna, hnb]

section
variable (s : State) (p : Pred) (srcs : List (Opnd × Nat)) (res : State → Nat → Val)

theorem State.compareOp_mask (k : Fin 8) : s.compareOp true p (.m k) srcs res =
    s.once false p (s.opsOk srcs) fun s act g => g.putMLanes k act (res s) := rfl

theorem State.compareOp_scalar (k : Fin 64) : s.compareOp true p (.s k) srcs res =
    s.once true p (s.opsOk srcs) fun s _ g => g.putS k (res s 0) := rfl

theorem State.compareOp_lanes {d : Opnd} (hd : laneDest d = true) : s.compareOp true p d srcs res =
    s.perLane p (s.opsOk ((d, 1) :: srcs)) fun s l x => x.putVec s.g.wb d false (res s l) := by
  obtain ⟨r, rfl⟩ | ⟨r, rfl⟩ := exists_of_laneDest hd <;> rfl

end

/-- A word whose comparison `res` reads in the state of its effect what it read at issue. -/
theorem comparesTo_of_compareOp {i : Instr} {p : Pred} {d : Opnd} {srcs : List (Opnd × Nat)} {res : State → Nat → Val} {s : State}
    (he : exec i s = s.compareOp true p d srcs res) (hi : ∀ m, res (s.atIssue m) = res s) (hh : res s.atHandler = res s) :
    comparesTo i p d srcs (res s) s := by
  refine ⟨fun k hd hr => ?_, fun hd hr => ?_, fun k hd => ⟨fun hr => ?_, fun hr hc => ?_⟩⟩
  · rw [he, hd, State.compareOp_mask, State.once_eq_groupOut false _ hr, hi]
  · rw [he, State.compareOp_lanes _ _ _ _ hd, State.perLane_eq_lanesOut _ hr, hi, State.atIssue_wb]
  · rw [he, hd, State.compareOp_scalar, State.once_eq_groupOut true _ hr, hi]
  · rw [he, hd, State.compareOp_scalar, State.once_eq_handlerOut _ hr hc, hh]

/-- What CMP gives in a lane. -/
def State.cmpVal (s : State) (f : VF) (l : Nat) : Val := s.val3 l f.ty [f.a, f.b] fun a b _ => if cmpHolds f.ty.w f.m a b then 1 else 0

theorem State.cmpVal_eq (s : State) (f : VF) (l : Nat) : s.cmpVal f l =
    ⟨if condHolds f.ty.w (BitVec.ofNat _ (s.rd l f.ty f.a).n) (BitVec.ofNat _ (s.rd l f.ty f.b).n) f.m then 1 else 0,
      (s.rd l f.ty f.a).poi || (s.rd l f.ty f.b).poi⟩ := by
  rw [← cmpHolds_eq_condHolds (ty_w_pos f.ty) (s.rd_lt l f.ty f.a) (s.rd_lt l f.ty f.b)]
  exact congrArg (Val.mk _) (Bool.or_false _)

/-- The immediate of CMPI as its low 28 bits, extended by their sign. -/
theorem sgn28_eq_signExtend (imm : W32) (w : Nat) : wrap w (sgn 28 (imm.toNat % 2 ^ 28)) = ((imm.extractLsb' 0 28).signExtend w).toNat := by
  have h : BitVec.ofNat 28 (imm.toNat % 2 ^ 28) = imm.extractLsb' 0 28 := BitVec.eq_of_toNat_eq (by simp)
  rw [wrap_sgn w _ (by decide), h]

/-- What CMPI gives in a lane. -/
def State.cmpiVal (s : State) (f : IF) (t : Ty) (l : Nat) : Val :=
  s.val3 l t [f.a] fun a _ _ => if cmpHolds t.w (f.imm.toNat / 2 ^ 28) a (wrap t.w (sgn 28 (f.imm.toNat % 2 ^ 28))) then 1 else 0

theorem State.cmpiVal_eq (s : State) (f : IF) (t : Ty) (l : Nat) : s.cmpiVal f t l =
    ⟨if condHolds t.w (BitVec.ofNat _ (s.rd l t f.a).n) ((f.imm.extractLsb' 0 28).signExtend t.w) (f.imm.extractLsb' 28 4).toNat then 1 else 0,
      (s.rd l t f.a).poi⟩ := by
  have hcode : f.imm.toNat / 2 ^ 28 = (f.imm.extractLsb' 28 4).toNat := by
    rw [BitVec.extractLsb'_toNat, Nat.shiftRight_eq_div_pow, Nat.mod_eq_of_lt]
    omega
  have himm : BitVec.ofNat t.w (wrap t.w (sgn 28 (f.imm.toNat % 2 ^ 28))) = (f.imm.extractLsb' 0 28).signExtend t.w := by
    rw [sgn28_eq_signExtend, BitVec.ofNat_toNat, BitVec.setWidth_eq]
  rw [← himm, ← hcode, ← cmpHolds_eq_condHolds (ty_w_pos t) (s.rd_lt l t f.a) (wrap_lt _ _)]
  simp [State.cmpiVal, State.val3]

theorem comparisonsHold_holds : comparisonsHold := by
  refine ⟨fun p f s => ?_, fun p f s => ?_⟩
  · have h := comparesTo_of_compareOp (i := .cmp p f) (s := s) (res := fun s => s.cmpVal f) rfl
      (fun m => funext fun l => s.val3_atIssue m l _ _ _) (funext fun l => s.val3_atHandler l _ _ _)
    rwa [funext (s.cmpVal_eq f)] at h
  · intro t
    have h := comparesTo_of_compareOp (i := .cmpi p f) (s := s) (res := fun s => s.cmpiVal f t) rfl
      (fun m => funext fun l => s.val3_atIssue m l _ _ _) (funext fun l => s.val3_atHandler l _ _ _)
    rwa [funext (s.cmpiVal_eq f t)] at h

/-! ### Selections (R265) -/

/-- What the selector of SEL reads in a lane. -/
def State.selector (s : State) (l : Nat) (c : Opnd) : Val :=
  match c with
  | .m _ => s.carryIn l c
  | o => s.rd l .b64 o

/-- What SEL gives in a lane. -/
def State.selected (s : State) (f : VF) (l : Nat) : Val :=
  ⟨if (s.selector l f.c).n != 0 then (s.rd l f.ty f.a).n else (s.rd l f.ty f.b).n,
    (s.rd l f.ty f.a).poi || (s.rd l f.ty f.b).poi || (s.selector l f.c).poi⟩

theorem State.selector_atIssue (s : State) (m : Mask) (l : Nat) (c : Opnd) : (s.atIssue m).selector l c = s.selector l c := by
  cases c <;> simp only [State.selector, State.carryIn_atIssue, State.rd_atIssue]

theorem State.selector_atHandler (s : State) (l : Nat) (c : Opnd) : s.atHandler.selector l c = s.selector l c := by
  cases c <;> simp only [State.selector, State.carryIn_atHandler, State.rd_atHandler]

theorem State.selected_atIssue (s : State) (m : Mask) (f : VF) (l : Nat) : (s.atIssue m).selected f l = s.selected f l := by
  simp only [State.selected, State.selector_atIssue, State.rd_atIssue]

theorem State.selected_atHandler (s : State) (f : VF) (l : Nat) : s.atHandler.selected f l = s.selected f l := by
  simp only [State.selected, State.selector_atHandler, State.rd_atHandler]

section
variable {s : State} {p : Pred} {f : VF}

theorem exec_sel_lanes (hd : laneDest f.d = true) : exec (.sel p f) s =
    s.perLane p (s.opsOk (withRegs f.ty.regs [f.d, f.a, f.b])) fun s l x => x.putVec s.g.wb f.d f.ty.is64 (s.selected f l) := by
  show execSel p f s = _
  unfold execSel
  obtain ⟨r, h⟩ | ⟨r, h⟩ := exists_of_laneDest hd <;> rw [h] <;> rfl

theorem exec_sel_scalar {k : Fin 64} (hd : f.d = .s k) : exec (.sel p f) s =
    s.once true p (fun _ => true) fun s _ g => g.putS k ⟨sExtend f.ty (s.selected f 0).n, (s.selected f 0).poi⟩ := by
  show execSel p f s = _
  unfold execSel
  rw [hd]
  rfl

theorem sel_lanes (hd : laneDest f.d = true) (hr : s.Runs p (s.opsOk (withRegs f.ty.regs [f.d, f.a, f.b]))) :
    exec (.sel p f) s = lanesOut s p fun l x => x.putVec s.g.wb f.d f.ty.is64 (s.selected f l) := by
  rw [exec_sel_lanes hd, State.perLane_eq_lanesOut _ hr]
  simp only [State.selected_atIssue, State.atIssue_wb]

theorem sel_group {k : Fin 64} (hd : f.d = .s k) (hr : s.Runs p fun _ => true) :
    exec (.sel p f) s = groupOut s p fun g => g.putS k ⟨sExtend f.ty (s.selected f 0).n, (s.selected f 0).poi⟩ := by
  rw [exec_sel_scalar hd, State.once_eq_groupOut true _ hr, State.selected_atIssue]

theorem sel_handler {k : Fin 64} (hd : f.d = .s k) (hr : s.RunsH p) :
    exec (.sel p f) s = handlerOut s fun g => g.putS k ⟨sExtend f.ty (s.selected f 0).n, (s.selected f 0).poi⟩ := by
  rw [exec_sel_scalar hd, State.once_eq_handlerOut _ hr rfl, State.selected_atHandler]

end

theorem selectionsHold_holds : selectionsHold := by
  intro p f s sel v
  have hsel : ∀ l, sel l = s.selector l f.c := by
    intro l
    simp only [sel]
    cases f.c <;> rfl
  have hv : v = s.selected f := by
    funext l
    simp only [v, State.selected, hsel, bne_iff_ne, ne_eq, ite_not]
  rw [hv]
  exact ⟨sel_lanes, fun k hd => ⟨sel_group hd, sel_handler hd⟩⟩

/-- Settles O5: the conditions as comparisons of `BitVec`, and what a word reads where its effect acts as what it read at issue. -/
theorem comparisonsAndSelections : Obligations.ComparisonsAndSelections := ⟨comparisonsHold_holds, selectionsHold_holds⟩

end Sys2Proof.Machine
end

section
/-! PROOFS. Immediate words (O6). -/

namespace Sys2Proof.Machine

open Sys2Proof.Claims

theorem IF.ext_eq (f : IF) (w : Nat) : IF.ext f w = (f.imm.signExtend w).toNat := wrap_ofInt w _

section
variable {p : Pred} {f : IF} {useA : Bool} {fn : (w : Nat) → BitVec w → BitVec w → BitVec w} {gn : Nat → Nat → Nat → Nat} {s : State}

/-- What an IMM word gives in a lane under a type. -/
def State.immVal (s : State) (f : IF) (useA : Bool) (fn : (w : Nat) → BitVec w → BitVec w → BitVec w) (t : Ty) (l : Nat) : Val :=
  let a : Val := if useA then s.rd l t f.a else {}
  ⟨(fn t.w (BitVec.ofNat t.w a.n) (f.imm.signExtend t.w)).toNat, a.poi⟩

/-- A function of A and the immediate that is `fn` on values of the width. -/
abbrev immMeans (f : IF) (gn : Nat → Nat → Nat → Nat) (fn : (w : Nat) → BitVec w → BitVec w → BitVec w) : Prop :=
  ∀ w x, x < 2 ^ w → gn w x (IF.ext f w) = (fn w (BitVec.ofNat w x) (f.imm.signExtend w)).toNat

theorem State.val3_imm (hg : immMeans f gn fn) (t : Ty) (l : Nat) :
    s.val3 l t (if useA then [f.a] else []) (fun a _ _ => gn t.w a (IF.ext f t.w)) = s.immVal f useA fn t l := by
  cases useA with
  | true => simp [State.val3, State.immVal, hg _ _ (s.rd_lt l t f.a)]
  | false => simp [State.val3, State.immVal, hg _ _ (Nat.two_pow_pos _)]

variable (hg : immMeans f gn fn)
include hg

theorem immOp_lanes (hd : laneDest f.d = true) (hr : s.Runs p (s.opsOk (withRegs 1 (f.d :: if useA then [f.a] else [])))) :
    s.immOp p f (if useA then [f.a] else []) gn = lanesOut s p fun l x => x.putVec s.g.wb f.d false (s.immVal f useA fn .i32 l) := by
  have hop : s.immOp p f (if useA then [f.a] else []) gn = s.perLane p (s.opsOk (withRegs 1 (f.d :: if useA then [f.a] else []))) fun s l x =>
      x.putVec s.g.wb f.d false (s.val3 l .i32 (if useA then [f.a] else []) fun a _ _ => gn 32 a (IF.ext f 32)) := by
    unfold State.immOp
    obtain ⟨r, h⟩ | ⟨r, h⟩ := exists_of_laneDest hd <;> rw [h]
  rw [hop, State.perLane_eq_lanesOut _ hr]
  simp only [State.val3_atIssue, State.atIssue_wb, ← State.val3_imm hg]
  rfl

theorem immOp_group {k : Fin 64} (hd : f.d = .s k) (hr : s.Runs p (s.opsOk (withRegs 1 (if useA then [f.a] else [])))) :
    s.immOp p f (if useA then [f.a] else []) gn = groupOut s p fun g => g.putS k (s.immVal f useA fn .i64 0) := by
  unfold State.immOp
  rw [hd]
  refine (State.once_eq_groupOut true _ hr).trans ?_
  rw [State.val3_atIssue, ← State.val3_imm hg]
  rfl

theorem immOp_handler {k : Fin 64} (hd : f.d = .s k) (hr : s.RunsH p) (hc : s.opsOk (withRegs 1 (if useA then [f.a] else [])) 0 = true) :
    s.immOp p f (if useA then [f.a] else []) gn = handlerOut s fun g => g.putS k (s.immVal f useA fn .i64 0) := by
  unfold State.immOp
  rw [hd]
  refine (State.once_eq_handlerOut _ hr hc).trans ?_
  rw [State.val3_atHandler, ← State.val3_imm hg]
  rfl

end

/-- The IMM words but CMPI by their shared runner. -/
theorem exec_immRow {i : Instr} {p : Pred} {f : IF} {useA : Bool} {fn : (w : Nat) → BitVec w → BitVec w → BitVec w}
    (h : immRow i = some (p, f, useA, fn)) :
    ∃ gn, immMeans f gn fn ∧ ∀ s, exec i s = s.immOp p f (if useA then [f.a] else []) gn := by
  unfold immRow at h
  split at h <;> cases h
  · exact ⟨fun _ _ i => i, fun w x _ => IF.ext_eq f w, fun s => rfl⟩
  · refine ⟨fun w a i => (a + i) % 2 ^ w, fun w x hx => ?_, fun s => rfl⟩
    rw [IF.ext_eq, BitVec.toNat_add, toNat_ofNat_of_lt hx]
  · refine ⟨fun _ a i => a &&& i, fun w x hx => ?_, fun s => rfl⟩
    rw [IF.ext_eq, BitVec.toNat_and, toNat_ofNat_of_lt hx]
  · refine ⟨fun _ a i => a ||| i, fun w x hx => ?_, fun s => rfl⟩
    rw [IF.ext_eq, BitVec.toNat_or, toNat_ofNat_of_lt hx]
  · refine ⟨fun _ a i => a ^^^ i, fun w x hx => ?_, fun s => rfl⟩
    rw [IF.ext_eq, BitVec.toNat_xor, toNat_ofNat_of_lt hx]

/-- Settles O6: each word by its shared runner, and its value as `BitVec` arithmetic at the width of its datapath. -/
theorem immediates : Obligations.Immediates := by
  intro i p f useA fn s h
  obtain ⟨gn, hg, he⟩ := exec_immRow h
  rw [he s]
  refine ⟨immOp_lanes hg, fun k hd => ⟨immOp_group hg hd, immOp_handler hg hd⟩⟩

end Sys2Proof.Machine
end

section
/-! PROOFS. MASK words (O7). -/

namespace Sys2Proof.Machine

open Sys2Proof.Claims

/-! ### Masks bit by bit -/

theorem getLsbD_bitMask (j l : Nat) : (bitMask j).getLsbD l = (decide (l < 64) && decide (l = j)) := by
  rw [bitMask, BitVec.getLsbD_ofNat, Nat.testBit_two_pow]
  simp only [eq_comm]

theorem getLsbD_foldl_bitMask (ls : List Nat) (m : Mask) (l : Nat) :
    (ls.foldl (fun m l => m ||| bitMask l) m).getLsbD l = (m.getLsbD l || decide (l < 64) && decide (l ∈ ls)) := by
  induction ls generalizing m with
  | nil => simp
  | cons j ls ih =>
    rw [List.foldl_cons, ih, BitVec.getLsbD_or, getLsbD_bitMask, Bool.or_assoc, ← Bool.and_or_distrib_left]
    simp only [List.mem_cons, Bool.decide_or]

theorem getLsbD_maskOf (ls : List Nat) (l : Nat) : (maskOf ls).getLsbD l = (decide (l < 64) && decide (l ∈ ls)) := by
  rw [maskOf, getLsbD_foldl_bitMask]
  simp

/-- The bitwise form of two masks is the mask with its bits. -/
theorem bitwise_eq {fn : Bool → Bool → Bool} {x y z : Mask} (h : ∀ l, l < 64 → z.getLsbD l = fn (x.getLsbD l) (y.getLsbD l)) :
    bitwise fn x y = z := by
  refine BitVec.eq_of_getLsbD_eq fun l hl => ?_
  rw [bitwise, getLsbD_maskOf, h l hl]
  simp [hl]

theorem bitwise_and : bitwise (fun a b => a && b) = fun x y => x &&& y := funext₂ fun _ _ => bitwise_eq fun _ _ => BitVec.getLsbD_and
theorem bitwise_or : bitwise (fun a b => a || b) = fun x y => x ||| y := funext₂ fun _ _ => bitwise_eq fun _ _ => BitVec.getLsbD_or
theorem bitwise_xor : bitwise (fun a b => a != b) = fun x y => x ^^^ y := funext₂ fun _ _ => bitwise_eq fun _ _ => BitVec.getLsbD_xor
theorem bitwise_andn : bitwise (fun a b => a && !b) = fun x y => x &&& ~~~y := by
  refine funext₂ fun _ _ => bitwise_eq fun l hl => ?_
  rw [BitVec.getLsbD_and, BitVec.getLsbD_not, decide_eq_true hl, Bool.true_and]

theorem popCount_toNat (x : Mask) : popCount 64 x.toNat = (List.range 64).countP x.getLsbD := List.countP_eq_length_filter.symm
theorem firstBit_toNat (x : Mask) : firstBit x.toNat = ((List.range 64).find? x.getLsbD).getD 64 := rfl

/-! ### What a source mask reads where the effect acts -/

theorem Grp.maskSrc_advance (g : Grp) (o : Opnd) : g.advance.maskSrc o = g.maskSrc o := by
  obtain ⟨x, h⟩ := g.advance_eq
  rw [h]
  rfl

theorem State.maskSrc_atIssue (s : State) (m : Mask) (o : Opnd) : (s.atIssue m).g.maskSrc o = s.g.maskSrc o := by
  rw [State.atIssue_g, Grp.maskSrc_advance]

theorem State.maskSrc_atHandler (s : State) (o : Opnd) : s.atHandler.g.maskSrc o = s.g.maskSrc o := by
  rw [State.atHandler_g]
  rfl

/-! ### Words that a group performs once (R248) -/

section
variable {i : Instr} {p : Pred} {s : State} {op act : Mask → Grp → Grp}

theorem performsOnce_of_once (he : exec i s = s.once true p (fun _ => true) fun _ => op)
    (hi : op (s.allowed p) (eff s p).g = act (s.allowed p) (eff s p).g) (hh : op 0#64 s.atHandler.g = act 0#64 s.atHandler.g) :
    performsOnce i p act s := by
  refine ⟨fun hr => ?_, fun hr => ?_⟩
  · rw [he, State.once_eq_groupOut true _ hr, groupOut, State.modG, hi]
    rfl
  · rw [he, State.once_eq_handlerOut _ hr rfl, handlerOut, State.modG, hh]
    rfl

end

/-- The bitwise MASK words by their shared runner. -/
theorem exec_maskRow {i : Instr} {p : Pred} {f : VF} {fn : Bool → Bool → Bool} (h : maskRow i = some (p, f, fn)) (s : State) :
    exec i s = s.maskOp p f (bitwise fn) := by
  unfold maskRow at h
  split at h <;> cases h
  · rw [bitwise_and]
    rfl
  · rw [bitwise_or]
    rfl
  · rw [bitwise_xor]
    rfl
  · rw [bitwise_andn]
    rfl

section
variable {p : Pred} {f : VF} {s : State} {fn : Nat → Nat}

theorem maskRow_once {i : Instr} {fn : Bool → Bool → Bool} (h : maskRow i = some (p, f, fn)) :
    performsOnce i p (fun _ g =>
      g.putMask f.d (bitwise fn (s.g.maskSrc f.a).1 (s.g.maskSrc f.b).1) ((s.g.maskSrc f.a).2 ||| (s.g.maskSrc f.b).2)) s := by
  refine performsOnce_of_once (exec_maskRow h s) ?_ ?_
  · simp only [State.maskSrc_atIssue]
  · simp only [State.maskSrc_atHandler]

theorem mmov_once : performsOnce (.mmov p f) p (fun _ g => g.putMask f.d (s.g.maskSrc f.a).1 (s.g.maskSrc f.a).2) s :=
  performsOnce_of_once (op := fun _ g => g.putMask f.d (g.maskSrc f.a).1 (g.maskSrc f.a).2) rfl
    (by simp only [State.maskSrc_atIssue]) (by simp only [State.maskSrc_atHandler])

theorem mact_once : performsOnce (.mact p f) p (fun act g => g.putMask f.d act 0) s :=
  performsOnce_of_once (op := fun act g => g.putMask f.d act 0) rfl rfl rfl

/-- A count of a mask: the number that fn gives of its bits. -/
def Grp.maskVal (g : Grp) (a : Opnd) (fn : Nat → Nat) : Val := ⟨fn (g.maskSrc a).1.toNat, (g.maskSrc a).2 != 0⟩

theorem maskCount_once {i : Instr} {k : Fin 64} (he : exec i s = s.maskCount p f fn) (hd : f.d = .s k) :
    performsOnce i p (fun _ g => g.putS k (s.g.maskVal f.a fn)) s := by
  refine performsOnce_of_once (op := fun _ g => g.putS k (g.maskVal f.a fn)) ?_ ?_ ?_
  · rw [he, State.maskCount, hd]
    rfl
  · simp only [Grp.maskVal, State.maskSrc_atIssue]
  · simp only [Grp.maskVal, State.maskSrc_atHandler]

theorem maskCount_lanes (hd : laneDest f.d = true) (hr : s.Runs p (s.opsOk [(f.d, 1)])) :
    s.maskCount p f fn = lanesOut s p fun _ x => x.putVec s.g.wb f.d false (s.g.maskVal f.a fn) := by
  have hop : s.maskCount p f fn = s.perLane p (s.opsOk [(f.d, 1)]) fun s _ x => x.putVec s.g.wb f.d false (s.g.maskVal f.a fn) := by
    unfold State.maskCount
    obtain ⟨r, h⟩ | ⟨r, h⟩ := exists_of_laneDest hd <;> rw [h] <;> rfl
  rw [hop, State.perLane_eq_lanesOut _ hr]
  simp only [Grp.maskVal, State.maskSrc_atIssue, State.atIssue_wb]

end

/-- Settles O7: each word once by its shared runner, with the source masks as they stood at issue. -/
theorem maskWords : Obligations.MaskWords := by
  refine ⟨fun i p f fn s => maskRow_once, fun p f s => ⟨mmov_once, mact_once⟩, fun p f s => ?_⟩
  intro x poi ones first
  have hones : ones = s.g.maskVal f.a (popCount 64) := congrArg (Val.mk · poi) (popCount_toNat x).symm
  have hfirst : first = s.g.maskVal f.a firstBit := congrArg (Val.mk · poi) (firstBit_toNat x).symm
  rw [hones, hfirst]
  exact ⟨fun k hd => ⟨maskCount_once rfl hd, maskCount_once rfl hd⟩, fun hd hr => ⟨maskCount_lanes hd hr, maskCount_lanes hd hr⟩⟩

end Sys2Proof.Machine
end

section
/-! PROOFS. Translation-register words (O8). -/

namespace Sys2Proof.Machine

open Sys2Proof.Claims

/-! ### ATR and AREL (R269, R270) -/

theorem failAll_atIssue (s : State) (m act : Mask) (f : Fail) : failAll (s.atIssue m).g act f = failAll s.g act f := by
  rw [State.atIssue_g, failAll_advance]

section
variable {s : State} {p : Pred}

/-- An effect that fails in every active lane, with nothing else done. -/
theorem State.conclude_trapped (f : Fail) :
    s.conclude [] (.done (eff s p) (failAll (eff s p).g (s.allowed p) f)) = trapped (eff s p) (failAll s.g (s.allowed p) f) := by
  rw [State.conclude_fails s _ _ (State.atIssue_met s _), failAll_atIssue]

/-- An effect that changes the group alone. -/
theorem State.conclude_modG (act : Grp → Grp) : s.conclude [] (.done ((eff s p).modG act) []) = groupOut s p act :=
  State.conclude_done s _ (State.atIssue_met s _)

theorem atr_fills (f : VF) (hr : s.Runs p fun _ => true) : exec (.atr p f) s =
    if (s.g.sVal f.a.sIdx).poi then trapped (eff s p) (failAll s.g (s.allowed p) (.poison f.a))
    else retired ((eff s p).modG fun g => g.setAreg f.d.aIdx ((eff s p).atr s.foc.ctx (BitVec.ofNat 64 (s.g.sVal f.a.sIdx).n))) := by
  show execAtr p f s = _
  refine (State.perform_runs s false p _ _ hr).trans ?_
  dsimp only
  rw [State.sVal_atIssue]
  split
  · exact State.conclude_trapped _
  · rw [State.atIssue_foc]
    exact State.conclude_done s _ (State.atIssue_met s _)

theorem arel_clears (f : VF) (hr : s.Runs p fun _ => true) :
    exec (.arel p f) s = groupOut s p fun g => g.setAreg f.d.aIdx { g.areg f.d.aIdx with valid := false } := by
  show execArel p f s = _
  unfold execArel
  exact State.once_eq_groupOut false _ hr

/-! ### AGET (R153, R272) -/

/-- The value that AGET reads goes into a z or an s register. -/
def Grp.putField (g : Grp) (d : Opnd) (v : Nat) : Grp := if d.isZ then g.setZreg d.zIdx (BitVec.ofNat 64 v) else g.putS d.sIdx ⟨v, false⟩

theorem Grp.putField_other (g : Grp) {d : Opnd} (hd : d.isZ = false) (v : Nat) : g.putField d v = g.putS d.sIdx ⟨v, false⟩ :=
  if_neg (by rw [hd]; decide)

theorem isZ_eq_false {d : Opnd} (h : ∀ i, d ≠ .z i) : d.isZ = false := by
  cases d with
  | z i => exact absurd rfl (h i)
  | _ => rfl

theorem State.refresh_met (s : State) (i : Nat) : (s.refresh i).met = s.met := by
  unfold State.refresh
  dsimp only
  split <;> rfl

theorem aget_reads (f : VF) (hr : s.Runs p fun _ => true) : exec (.aget p f) s =
    if f.d.isZ = (s.gr.det && (f.m == 1 || f.m == 2 || f.m == 4)) then
      retired (((eff s p).refresh f.a.aIdx).modG fun g => g.putField f.d ((((eff s p).refresh f.a.aIdx).g.areg f.a.aIdx).field f.m))
    else trapped (eff s p) (failAll s.g (s.allowed p) .illOpnd) := by
  show execAget p f s = _
  refine (State.perform_runs s false p _ _ hr).trans ?_
  dsimp only
  rw [State.atIssue_det]
  by_cases h : f.d.isZ = (s.gr.det && (f.m == 1 || f.m == 2 || f.m == 4))
  · rw [if_neg (by simp [h]), if_pos h]
    have hmet : ((eff s p).refresh f.a.aIdx).met = s.met := (State.refresh_met _ _).trans (State.atIssue_met s _)
    split
    · next i hz =>
      rw [hz]
      exact State.conclude_done s _ hmet
    · next hz =>
      simp only [Grp.putField_other _ (isZ_eq_false hz)]
      exact State.conclude_done s _ hmet
  · rw [if_pos (by simpa using h), if_neg h]
    exact State.conclude_trapped _

end

/-! ### LEA (R271) -/

/-- The address that LEA gives in a lane. -/
def State.leaVal (s : State) (f : MF) (l : Nat) : Val :=
  ⟨((s.g.areg f.a.aIdx).baseva + BitVec.ofNat 64 (s.rd l .n32 f.b).n + BitVec.ofInt 64 (f.imm.toInt * f.width.bytes)).toNat,
    (s.rd l .n32 f.b).poi⟩

theorem State.leaVal_eq (s : State) (f : MF) (l : Nat) :
    (⟨wrap 64 ((s.g.areg f.a.aIdx).baseva.toNat + s.laneOff l f), (s.rd l .n32 f.b).poi⟩ : Val) = s.leaVal f l := by
  rw [wrap_ofInt, State.laneOff, BitVec.ofInt_add, BitVec.ofInt_add, BitVec.ofInt_natCast, BitVec.ofInt_natCast, BitVec.ofNat_toNat,
    BitVec.setWidth_eq, ← BitVec.add_assoc]
  rfl

theorem State.leaVal_atIssue (s : State) (m : Mask) (f : MF) (l : Nat) : (s.atIssue m).leaVal f l = s.leaVal f l := by
  simp only [State.leaVal, State.rd_atIssue, State.atIssue_g, Grp.areg_advance]

section
variable {s : State} {p : Pred} {f : MF}

theorem lea_lanes (hd : laneDest f.d = true) (hr : s.Runs p (s.opsOk [(f.d, 2), (f.a, 1), (f.b, 1)])) :
    exec (.lea p f) s = lanesOut s p fun l x => x.putVec s.g.wb f.d true (s.leaVal f l) := by
  have hop : exec (.lea p f) s = s.perLane p (s.opsOk [(f.d, 2), (f.a, 1), (f.b, 1)]) fun s l x => x.putVec s.g.wb f.d true (s.leaVal f l) := by
    show execLea p f s = _
    unfold execLea
    simp only [State.leaVal_eq]
    obtain ⟨r, h⟩ | ⟨r, h⟩ := exists_of_laneDest hd <;> rw [h]
  rw [hop, State.perLane_eq_lanesOut _ hr]
  simp only [State.leaVal_atIssue, State.atIssue_wb]

theorem lea_group {k : Fin 64} (hd : f.d = .s k) (hr : s.Runs p (s.opsOk [(f.a, 1), (f.b, 1)])) :
    exec (.lea p f) s = groupOut s p fun g => g.putS k (s.leaVal f 0) := by
  show execLea p f s = _
  unfold execLea
  simp only [State.leaVal_eq]
  rw [hd]
  refine (State.once_eq_groupOut false _ hr).trans ?_
  rw [State.leaVal_atIssue]

end

/-- Settles O8: each word by its runner, with its operands as they stood at issue. -/
theorem translationWords : Obligations.TranslationWords :=
  ⟨fun _ f _ hr => ⟨atr_fills f hr, arel_clears f hr, aget_reads f hr⟩, fun _ _ _ => ⟨lea_lanes, fun _ => lea_group⟩⟩

end Sys2Proof.Machine
end

section
/-! PROOFS. System registers (O9). -/

namespace Sys2Proof.Machine

open Sys2Proof.Claims

theorem State.atHandler_iss (s : State) : s.atHandler.g.iss = s.g.iss := by rw [State.atHandler_g]
theorem State.atHandler_ptsel (s : State) : s.atHandler.g.ptsel = s.g.ptsel := by rw [State.atHandler_g]
theorem State.atHandler_handler (s : State) : s.atHandler.g.handler = s.g.handler.map fun h => { h with pc := s.g.iss.pc + 8 } := by
  rw [State.atHandler_g]

/-! ### MFSR (R277, R278, R412) -/

section
variable {s : State} {p : Pred} {f : IF}

theorem srPerLane_iff (n : Nat) : srPerLane n = true ↔ n = 0 ∨ n = 0x10 := by simp [srPerLane]

/-- A read of FPL waits for the flags that a RESTORE has still to deliver (R207). -/
theorem not_held_of_nfClear {n : Nat} {s : State} (hp : n = 0 → s.nfPending = false) : (decide (n = 0) && s.nfPending) = false := by
  by_cases h : n = 0 <;> simp [h, hp]

theorem mfsr_lane (hn : f.imm.toNat = 0 ∨ f.imm.toNat = 0x10) (hr : s.Runs p (s.opsOk [(f.d, 1)]))
    (hp : f.imm.toNat = 0 → (eff s p).nfPending = false) :
    exec (.mfsr p f) s = lanesOut s p fun _ x => x.putVec s.g.wb f.d false ⟨if f.imm.toNat = 0 then x.fpl.toNat else x.ctr.toNat, false⟩ := by
  show execMfsr p f s = _
  unfold execMfsr
  rw [if_pos ((srPerLane_iff _).mpr hn)]
  rw [State.perform_runs s false p _ _ hr, not_held_of_nfClear hp, if_neg Bool.false_ne_true, State.atIssue_wb]
  exact State.conclude_done s _ (State.atIssue_met s _)

/-- What MFSR of a register of the trap state does. -/
def State.trapStateDid (s : State) (act : Mask) (f : IF) : Did :=
  match s.g.iss.handler, s.g.handler with
  | true, some h => s.readGroupReg act f.d (s.trapReg h f.imm.toNat)
  | _, _ => .done s (failAll s.g act .illOpnd)

theorem State.trapStateDid_handler {s : State} {h : Handler} (act : Mask) (f : IF) (hi : s.g.iss.handler = true) (hh : s.g.handler = some h) :
    s.trapStateDid act f = s.readGroupReg act f.d (s.trapReg h f.imm.toNat) := by rw [State.trapStateDid, hi, hh]

theorem State.trapStateDid_lanes {s : State} (act : Mask) (f : IF) (hi : s.g.iss.handler = false) :
    s.trapStateDid act f = .done s (failAll s.g act .illOpnd) := by rw [State.trapStateDid, hi]

/-- MFSR of any register but FPL and the draw counter. -/
theorem exec_mfsr_once (h0 : f.imm.toNat ≠ 0) (h1 : f.imm.toNat ≠ 0x10) : exec (.mfsr p f) s =
    s.perform true p (s.opsOk [(f.d, 1)]) fun s act =>
      if 0x100 ≤ f.imm.toNat then s.trapStateDid act f else s.readGroupReg act f.d (s.grpReg f.imm.toNat) :=
  if_neg fun h => by cases (srPerLane_iff _).mp h <;> contradiction

theorem State.readGroupReg_scalar (s : State) (act : Mask) (k : Fin 64) (v : Nat) :
    s.readGroupReg act (.s k) v = .done (s.modG fun g => g.putS k ⟨v, false⟩) [] := rfl

theorem State.readGroupReg_lanes {d : Opnd} (hd : laneDest d = true) (hh : s.g.iss.handler = false) (act : Mask) (v : Nat) :
    s.readGroupReg act d v = .done (s.modG fun g => g.modLanes (g.lanesOf act) fun _ x => x.putVec s.g.wb d false ⟨v, false⟩) [] := by
  unfold State.readGroupReg
  obtain ⟨r, rfl⟩ | ⟨r, rfl⟩ := exists_of_laneDest hd <;> exact if_neg (by rw [hh]; decide)

/-- The operand check of a word whose only operand is an s register finds nothing. -/
theorem State.Runs.opsOk_scalar (hr : s.Runs p fun _ => true) (k : Fin 64) : s.Runs p (s.opsOk [(.s k, 1)]) :=
  ⟨hr.1, hr.2.1, hr.2.2.1, fun _ _ => rfl⟩

section
variable (h0 : f.imm.toNat ≠ 0) (h1 : f.imm.toNat ≠ 0x10) (hlt : f.imm.toNat < 0x100)
include h0 h1 hlt

theorem mfsr_lanes (hd : laneDest f.d = true) (hr : s.Runs p (s.opsOk [(f.d, 1)])) :
    exec (.mfsr p f) s = lanesOut s p fun _ x => x.putVec s.g.wb f.d false ⟨(eff s p).grpReg f.imm.toNat, false⟩ := by
  rw [exec_mfsr_once h0 h1, State.perform_runs s true p _ _ hr, if_neg (Nat.not_le.mpr hlt),
    State.readGroupReg_lanes hd (by rw [State.atIssue_iss]; exact hr.1), State.conclude_modG, State.atIssue_wb]
  rfl

theorem mfsr_group {k : Fin 64} (hd : f.d = .s k) (hr : s.Runs p fun _ => true) :
    exec (.mfsr p f) s = groupOut s p fun g => g.putS k ⟨(eff s p).grpReg f.imm.toNat, false⟩ := by
  rw [exec_mfsr_once h0 h1, hd, State.perform_runs s true p _ _ (hr.opsOk_scalar k), if_neg (Nat.not_le.mpr hlt), State.readGroupReg_scalar,
    State.conclude_modG]

theorem mfsr_handler {k : Fin 64} (hd : f.d = .s k) (hr : s.RunsH p) :
    exec (.mfsr p f) s = handlerOut s fun g => g.putS k ⟨s.atHandler.grpReg f.imm.toNat, false⟩ := by
  rw [exec_mfsr_once h0 h1, hd]
  exact State.perform_runsH s p _ _ hr rfl _ ((if_neg (Nat.not_le.mpr hlt)).trans (State.readGroupReg_scalar _ _ _ _)) rfl

end

/-- No register of the trap state shows the PC of the handler. -/
theorem State.trapReg_pc (s : State) (h : Handler) (pc : W64) (n : Nat) : s.trapReg { h with pc := pc } n = s.trapReg h n := by
  unfold State.trapReg
  dsimp only

section
variable (hle : 0x100 ≤ f.imm.toNat)
include hle

theorem mfsr_trapState {k : Fin 64} {h : Handler} (hd : f.d = .s k) (hr : s.RunsH p) (hh : s.g.handler = some h) :
    exec (.mfsr p f) s = handlerOut s fun g => g.putS k ⟨s.atHandler.trapReg h f.imm.toNat, false⟩ := by
  rw [exec_mfsr_once (by omega) (by omega), hd]
  refine State.perform_runsH s p _ _ hr rfl _ ((if_pos hle).trans ?_) rfl
  rw [State.trapStateDid_handler _ _ (by rw [State.atHandler_iss, hr.1]) (by rw [State.atHandler_handler, hh]; rfl), hd, State.trapReg_pc,
    State.readGroupReg_scalar]

theorem mfsr_traps (hr : s.Runs p (s.opsOk [(f.d, 1)])) : exec (.mfsr p f) s = trapped (eff s p) (failAll s.g (s.allowed p) .illOpnd) := by
  rw [exec_mfsr_once (by omega) (by omega), State.perform_runs s true p _ _ hr, if_pos hle,
    State.trapStateDid_lanes _ _ (by rw [State.atIssue_iss, hr.1])]
  exact State.conclude_trapped _

end
end

theorem systemReadsHold_holds : systemReadsHold := fun _ _ _ =>
  ⟨mfsr_lane, fun h0 h1 hlt => ⟨mfsr_lanes h0 h1 hlt, fun _ hd => ⟨mfsr_group h0 h1 hlt hd, mfsr_handler h0 h1 hlt hd⟩⟩,
    fun hle => ⟨fun _ _ => mfsr_trapState hle, mfsr_traps hle⟩⟩

/-! ### MTSR (R206, R277, R278) -/

section
variable {s : State} {p : Pred} {f : IF}

/-- What MTSR of FPL or of the draw counter writes in a lane. -/
def Lane.putSr (x : Lane) (n : Nat) (v : W32) : Lane := if n = 0 then { x with fpl := v &&& 0x3F1F#32 } else { x with ctr := v }

theorem mtsr_lane (hn : f.imm.toNat = 0 ∨ f.imm.toNat = 0x10) (hr : s.Runs p (s.opsOk [(f.a, 1)]))
    (hp : f.imm.toNat = 0 → (eff s p).nfPending = false) :
    exec (.mtsr p f) s = trapped
      ((eff s p).modG fun g => g.modLanes ((g.lanesOf (s.allowed p)).filter fun l => !(s.rd l .n32 f.a).poi) fun l x =>
        x.putSr f.imm.toNat (BitVec.ofNat 32 (s.rd l .n32 f.a).n))
      (((s.g.lanesOf (s.allowed p)).filter fun l => (s.rd l .n32 f.a).poi).map fun l => (l, Fail.poison f.a)) := by
  show execMtsr p f s = _
  unfold execMtsr
  rw [if_pos ((srPerLane_iff _).mpr hn), State.perform_runs s false p _ _ hr, not_held_of_nfClear hp, if_neg Bool.false_ne_true]
  simp only [State.rd_atIssue]
  have hls : (eff s p).g.lanesOf (s.allowed p) = s.g.lanesOf (s.allowed p) := by rw [State.atIssue_g, Grp.lanesOf_advance]
  rw [← hls]
  exact State.conclude_fails s _ _ (State.atIssue_met s _)

theorem State.writeTrapReg_lanes (hh : s.g.iss.handler = false) (act : Mask) (a : Opnd) (k : State → Nat → Did) :
    s.writeTrapReg act a k = .done s (failAll s.g act .illOpnd) := if_pos (by rw [hh]; rfl)

theorem State.writeTrapReg_atHandler {a : Opnd} (hr : s.RunsH p) (hp : (s.rd 0 .b64 a).poi = false) (act : Mask) (k : State → Nat → Did) :
    s.atHandler.writeTrapReg act a k = k s.atHandler (s.rd 0 .b64 a).n := by
  simp only [State.writeTrapReg, State.rd_atHandler, State.atHandler_iss, hr.1, hp, Bool.not_true, Bool.false_eq_true, if_false]

/-- MTSR of PTSEL. -/
theorem exec_mtsr_ptsel (hn : f.imm.toNat = 0x108) : exec (.mtsr p f) s =
    s.perform true p (fun _ => true) fun s act => s.writeTrapReg act f.a fun s v => .done (s.modG fun g => { g with ptsel := v % 8 }) [] :=
  if_neg (by rw [hn]; decide)

theorem ptsel_handler (hn : f.imm.toNat = 0x108) (hr : s.RunsH p) (hp : (s.rd 0 .b64 f.a).poi = false) :
    exec (.mtsr p f) s = handlerOut s fun g => { g with ptsel := (s.rd 0 .b64 f.a).n % 8 } := by
  rw [exec_mtsr_ptsel hn]
  exact State.perform_runsH s p _ _ hr rfl _ (State.writeTrapReg_atHandler hr hp _ _) rfl

theorem ptsel_traps (hn : f.imm.toNat = 0x108) (hr : s.Runs p fun _ => true) :
    exec (.mtsr p f) s = trapped (eff s p) (failAll s.g (s.allowed p) .illOpnd) := by
  rw [exec_mtsr_ptsel hn, State.perform_runs s true p _ _ hr, State.writeTrapReg_lanes (by rw [State.atIssue_iss]; exact hr.1)]
  exact State.conclude_trapped _

end

theorem systemWritesHold_holds : systemWritesHold := by
  intro p f s n poi
  refine ⟨fun hn hr hp => ⟨mtsr_lane hn hr hp, fun hclean => (mtsr_lane hn hr hp).trans ?_⟩, fun hn => ⟨ptsel_handler hn, ptsel_traps hn⟩⟩
  rw [List.filter_eq_nil_iff.mpr fun l hl => by rw [show (s.rd l .n32 f.a).poi = false from hclean l hl]; decide]
  rfl

/-! ### HEXIT and PTMASK (R412, R419) -/

/-- A handler's instruction that ends its grid: with the Handler Overrun cause where its budget is spent (R415). -/
theorem State.perform_fatalH {s u : State} {p : Pred} {chk : Nat → Bool} {op : State → Mask → Did} {c i : Nat} (hr : s.RunsH p)
    (hc : chk 0 = true) (ho : op s.atHandler 0#64 = .fatal u c i) :
    s.perform true p chk op = .next (if s.budgetOver then s.fatal 0x0101 0 else u.fatal c i) := by
  obtain ⟨hh, hneg, hm⟩ := hr
  by_cases hb : s.g.handler.any (·.budget == 0) = true <;>
    simp [State.perform, State.performHandler, hh, hneg, hm, hc, ho, State.budgetOver, cHandlerOver, hb]

theorem State.ptab_atHandler (s : State) : s.atHandler.ptab = s.ptab := by
  rw [State.ptab, State.atHandler_g]
  rfl

theorem State.ptEntry_atHandler (s : State) (j : Nat) : s.atHandler.ptEntry j = s.ptEntry j := by
  rw [State.ptEntry, State.ptab_atHandler, State.ptEntry]

section
variable {s : State} {p : Pred} {f : IF} (hr : s.RunsH p) (hp : (s.rd 0 .b64 f.a).poi = false)
include hr hp

theorem hexit_ends : exec (.hexitWrite p f) s =
    .next (if s.budgetOver then s.fatal 0x0101 0 else s.atHandler.fatal 0x0106 (s.rd 0 .b64 f.a).n) := by
  show execHexitWrite p f s = _
  unfold execHexitWrite
  exact State.perform_fatalH (u := s.atHandler) hr rfl (State.writeTrapReg_atHandler hr hp _ _)

theorem ptmask_free (he : s.ptEntry s.g.ptsel = none) : exec (.ptmaskWrite p f) s = s.handlerEnd s.atHandler := by
  show execPtmaskWrite p f s = _
  unfold execPtmaskWrite
  refine State.perform_runsH s p _ _ hr rfl _ ((State.writeTrapReg_atHandler hr hp _ _).trans ?_) rfl
  dsimp only
  rw [State.atHandler_ptsel, State.ptEntry_atHandler, he]

theorem ptmask_clears {e : PtEntry} (he : s.ptEntry s.g.ptsel = some e) :
    let m := e.mask &&& ~~~((~~~(BitVec.ofNat 64 (s.rd 0 .b64 f.a).n) &&& widthMask s.g.gw) <<< s.g.base)
    exec (.ptmaskWrite p f) s =
      s.handlerEnd (s.atHandler.setPtab (bankPut none s.ptab s.g.ptsel (if m = 0 then none else some { e with mask := m }))) := by
  intro m
  show execPtmaskWrite p f s = _
  unfold execPtmaskWrite
  refine State.perform_runsH s p _ _ hr rfl _ ((State.writeTrapReg_atHandler hr hp _ _).trans ?_) rfl
  dsimp only
  rw [State.atHandler_ptsel, State.ptEntry_atHandler, he]
  simp only [State.ptab_atHandler, State.atHandler_g, beq_iff_eq]
  rfl

end

theorem handlerRegisterWritesHold_holds : handlerRegisterWritesHold := fun _ _ _ hr hp =>
  ⟨hexit_ends hr hp, ptmask_free hr hp, fun _ => ptmask_clears hr hp⟩

/-- Settles O9: reads and writes by what their effects find, at issue in lanes and at the next word in a handler. -/
theorem systemRegisters : Obligations.SystemRegisters := ⟨systemReadsHold_holds, systemWritesHold_holds, handlerRegisterWritesHold_holds⟩

end Sys2Proof.Machine
end

section
/-! PROOFS. TRAP (O23): refuted. -/

namespace Sys2Proof.Machine

open Sys2Proof.Claims

/-- The handler of the group in focus, in the state that an outcome leaves. -/
def handlerOf : Out → Option Handler
  | .next t => t.g.handler
  | _ => none

/-- A TRAP with code 0. -/
def trapZero : IF := ⟨.const .zero, .const .zero, 0⟩

theorem strayIssue_trap : handlerOf (exec (.trap anyLane trapZero) strayIssue) = none := by decide +kernel

/-- Refutes O23: with an issue set that names lane 8 of eight lanes, no lane is active, and a TRAP enters no handler. -/
theorem not_softwareTrap : ¬ Obligations.SoftwareTrap := by
  unfold Obligations.SoftwareTrap
  intro h
  obtain ⟨t, ht, hhandler, -⟩ := h anyLane trapZero strayIssue (strayIssue_runs _) (by decide)
  have hnone := strayIssue_trap
  rw [ht] at hnone
  exact Option.some_ne_none _ (hhandler.symm.trans hnone)

end Sys2Proof.Machine
end

section
/-! PROOFS. TRET (O29). -/

namespace Sys2Proof.Machine

open Sys2Proof.Claims

/-! ### What the return from a handler makes of a lane (R416) -/

/-- A Trapped lane of TMASK runs again. -/
def Handler.wake (h : Handler) (l : Nat) (x : Lane) : Lane :=
  if h.tmask.getLsbD l && x.st == .trapped then { x with st := .running, rot := 0 } else x
/-- A lane whose PC or block base the handler wrote loses the y entries that the handler did not write after that. -/
def Handler.release (h : Handler) (l : Nat) (x : Lane) : Lane :=
  if h.patched.getLsbD l then
    { h.wake l x with reach := .patched
                      y0 := if h.y0set.getLsbD l then (h.wake l x).y0 else { (h.wake l x).y0 with valid := false }
                      y1 := if h.y1set.getLsbD l then (h.wake l x).y1 else { (h.wake l x).y1 with valid := false } }
  else h.wake l x

section
variable (h : Handler) (l : Nat) (x : Lane)

theorem Handler.wake_st : (h.wake l x).st = if h.tmask.getLsbD l = true ∧ x.st = .trapped then .running else x.st := by
  unfold Handler.wake
  simp only [Bool.and_eq_true, beq_iff_eq]
  split <;> rfl
theorem Handler.wake_keeps : (h.wake l x).pc = x.pc ∧ (h.wake l x).bb = x.bb ∧ (h.wake l x).v = x.v ∧
    (h.wake l x).y0 = x.y0 ∧ (h.wake l x).y1 = x.y1 := by
  unfold Handler.wake
  split <;> exact ⟨rfl, rfl, rfl, rfl, rfl⟩
theorem Handler.release_keeps : (h.release l x).pc = x.pc ∧ (h.release l x).bb = x.bb ∧ (h.release l x).v = x.v ∧
    (h.release l x).st = (h.wake l x).st := by
  obtain ⟨hpc, hbb, hv, -⟩ := h.wake_keeps l x
  unfold Handler.release
  split <;> exact ⟨hpc, hbb, hv, rfl⟩
/-- An entry of y stays valid where the handler left the lane alone or wrote the entry. -/
theorem Handler.release_y : (h.release l x).y0.valid = (x.y0.valid && (!h.patched.getLsbD l || h.y0set.getLsbD l)) ∧
    (h.release l x).y1.valid = (x.y1.valid && (!h.patched.getLsbD l || h.y1set.getLsbD l)) := by
  obtain ⟨-, -, -, hy0, hy1⟩ := h.wake_keeps l x
  unfold Handler.release
  rw [hy0, hy1]
  cases h.patched.getLsbD l with
  | false => simp [hy0, hy1]
  | true => cases h.y0set.getLsbD l <;> cases h.y1set.getLsbD l <;> simp

end

section
variable {s : State} {h : Handler} (hh : s.g.handler = some h)
include hh

theorem State.g_trapReturn : s.trapReturn.g = { s.g.modLanes s.g.laneIdx h.release with handler := none } := by
  unfold State.trapReturn
  rw [hh]
  exact State.g_setG _ _

theorem State.lane_trapReturn {l : Nat} (hl : l < s.g.gw) : s.trapReturn.g.lane l = h.release l (s.g.lane l) := by
  rw [State.g_trapReturn hh]
  exact (Grp.lane_modLanes s.g _ _ List.nodup_range l).trans (if_pos (List.mem_range.mpr hl))

end

theorem State.retired_trapReturn (s : State) : s.trapReturn.g.retired = s.g.retired := by
  cases hh : s.g.handler with
  | none => rw [State.trapReturn, hh]
  | some h => rw [State.g_trapReturn hh, Grp.modLanes_retired]

theorem State.met_trapReturn (s : State) : s.trapReturn.met = s.met := by
  unfold State.trapReturn
  split <;> rfl

/-! ### TRET (R258) -/

section
variable {s : State} {p : Pred} (f : VF)

theorem exec_tret : exec (.tret p f) s = s.perform true p (fun _ => true) fun s act =>
    if s.g.iss.handler then .done s.trapReturn [] else .done s (failAll s.g act { cause := cIllInstr }) := rfl

theorem tret_handler (hr : s.RunsH p) : exec (.tret p f) s = s.handlerEnd s.atHandler.trapReturn := by
  rw [exec_tret]
  refine State.perform_runsH s p _ _ hr rfl _ (if_pos ?_) ?_
  · rw [State.atHandler_g]
    exact hr.1
  · exact State.met_trapReturn _

theorem tret_traps (hr : s.Runs p fun _ => true) : exec (.tret p f) s = trapped (eff s p) (failAll s.g (s.allowed p) { cause := 0x0001 }) := by
  rw [exec_tret, State.perform_runs s true p _ _ hr, if_neg (by rw [State.atIssue_iss, hr.1]; decide)]
  exact State.conclude_trapped _

end

/-- The group in focus after an instruction of a handler that retires. -/
def Grp.handlerRetired (g : Grp) : Grp :=
  { g with handler := g.handler.map fun h => { h with budget := h.budget - 1 }, stall := .none, afterStall := false, replies := [] }

theorem Grp.lane_handlerRetired (g : Grp) (l : Nat) : g.handlerRetired.lane l = g.lane l := rfl

theorem State.g_retireH (s : State) : s.retireH.g = s.g.handlerRetired := State.g_modG s Grp.handlerRetired

theorem State.handlerEnd_over {s : State} (hb : s.budgetOver = true) (t : State) : s.handlerEnd t = .next (s.fatal 0x0101 0) :=
  congrArg _ (if_pos hb)
theorem State.handlerEnd_within {s : State} (hb : s.budgetOver = false) (t : State) : s.handlerEnd t = .next t.retireH :=
  congrArg _ (if_neg (by rw [hb]; decide))

/-- Settles O29: in a handler the runner ends with the return, which changes each lane of the group once; elsewhere the lanes trap. -/
theorem trapReturn : Obligations.TrapReturn := by
  refine fun p f s => ⟨fun hr hb => (tret_handler f hr).trans (State.handlerEnd_over hb _), fun h hr hb hh =>
    ⟨_, (tret_handler f hr).trans (State.handlerEnd_within hb _), ?_⟩, tret_traps f⟩
  obtain ⟨h', hh', hrel⟩ : ∃ h', s.atHandler.g.handler = some h' ∧ h'.release = h.release := by
    rw [State.atHandler_g, hh]
    exact ⟨_, rfl, rfl⟩
  refine ⟨?_, mem_State_trapReturn _, ?_, fun l hl => ?_⟩
  · rw [State.g_retireH, State.g_trapReturn hh']
    rfl
  · rw [State.g_retireH, Grp.handlerRetired, State.retired_trapReturn, State.atHandler_g]
  · have hlane : s.atHandler.trapReturn.retireH.g.lane l = h.release l (s.g.lane l) := by
      rw [State.g_retireH, Grp.lane_handlerRetired, State.lane_trapReturn hh' (by rwa [State.atHandler_g]), hrel, State.atHandler_g]
      rfl
    obtain ⟨hpc, hbb, hv, hst⟩ := h.release_keeps l (s.g.lane l)
    obtain ⟨hy0, hy1⟩ := h.release_y l (s.g.lane l)
    rw [hlane]
    exact ⟨hpc, hbb, hv, hst.trans (h.wake_st l _), hy0, hy1⟩

end Sys2Proof.Machine
end

section
/-! PROOFS. FP words (O12). -/

namespace Sys2Proof.Machine

open Sys2Proof.Claims

/-- A word performed lane by lane whose effect reads where it acts what it read at issue. -/
theorem State.perLane_reads {s : State} {p : Pred} {chk : Nat → Bool} (op : State → Nat → Lane → Lane) (ho : op (eff s p) = op s)
    (hr : s.Runs p chk) : s.perLane p chk op = lanesOut s p (op s) := by
  rw [State.perLane_eq_lanesOut op hr, ho]

/-- An FP word of n sources by the operation on its elements. -/
theorem State.fpOp_lanesOut {s : State} {p : Pred} {f : VF} {n : Nat} (fn : Fmt → FpEnv → List Num → FpR)
    (hr : s.Runs p (s.opsOk (withRegs f.ty.regs (f.d :: srcsOf f n)))) :
    s.fpOp p f n fn = lanesOut s p fun l x =>
      let env := fpEnv x.fpl f.rmo
      let vs := (srcsOf f n).map fun o => s.rd l f.ty o
      let el (e : Nat) : FpR := satInf (Ty.fmt f.ty) f.sat (fn (Ty.fmt f.ty) env (vs.map fun v => opnd (Ty.fmt f.ty) env ((elems f.ty v.n).getD e 0)))
      x.putFp s.g.wb f.d f.ty.is64 (joinRes f.ty (tab (elemCount f.ty) el)) (vs.any (·.poi)) := by
  unfold State.fpOp
  exact State.perLane_reads _ (by simp only [State.rd_atIssue, State.atIssue_wb]) hr

/-- Settles O12: each word by its runner, with its operands as they stood at issue. -/
theorem floatWords : Obligations.FloatWords := by
  refine ⟨fun i p f n fn s hrow hr => (exec_fpRow hrow s).trans (State.fpOp_lanesOut fn hr), fun p f s hr => ?_, fun p f s hr => ?_⟩
  · show execFscale p f s = _
    unfold execFscale
    exact State.perLane_reads _ (by simp only [State.rd_atIssue, State.atIssue_wb]) hr
  · show execFdot2 p f s = _
    unfold execFdot2
    exact State.perLane_reads _ (by simp only [State.rd_atIssue, State.atIssue_wb]) hr

end Sys2Proof.Machine
end

section
/-! PROOFS. FCMP and FCLASS (O13). -/

namespace Sys2Proof.Machine

open Sys2Proof.Claims

/-! ### Comparisons as the order of the extended reals (R290) -/

theorem exactOf_fin {e e0 : Int} (neg : Bool) (m : Nat) (h : e0 ≤ e) :
    exactOf (.fin neg m e) = (0, (atExp neg m e e0 : ℚ) * (2 : ℚ) ^ e0) := by
  have hpow : (2 : ℚ) ^ e = 2 ^ (e - e0).toNat * 2 ^ e0 := by
    rw [← zpow_natCast, ← zpow_add₀ two_ne_zero, Int.toNat_of_nonneg (by omega), Int.sub_add_cancel]
  rw [exactOf, atExp, hpow]
  cases neg <;> simp [mul_assoc]

/-- Two finite numbers compare as their multiples of the lower power of two. -/
theorem numLt_fin (n n' : Bool) (m m' : Nat) (e e' : Int) : numLt (.fin n m e) (.fin n' m' e') = below (.fin n m e) (.fin n' m' e') := by
  obtain ⟨e0, he0⟩ : ∃ e0, e0 = if e ≤ e' then e else e' := ⟨_, rfl⟩
  have hpos : (0 : ℚ) < 2 ^ e0 := by positivity
  rw [numLt, ← he0, below, exactOf_fin n m (e0 := e0) (by omega), exactOf_fin n' m' (e0 := e0) (by omega)]
  simp [mul_lt_mul_iff_left₀ hpos]

theorem numLt_eq_below {a b : Num} (ha : a.isNan = false) (hb : b.isNan = false) : numLt a b = below a b := by
  match a, b with
  | .fin .., .fin .. => exact numLt_fin _ _ _ _ _ _
  | .inf n, .inf n' => cases n <;> cases n' <;> decide
  | .inf n, .fin .. => cases n <;> simp [numLt, below, exactOf]
  | .fin .., .inf n => cases n <;> simp [numLt, below, exactOf]

theorem below_iff (a b : Num) : below a b = true ↔ toLex (exactOf a) < toLex (exactOf b) := by
  rw [Prod.Lex.toLex_lt_toLex, below]
  simp

theorem not_below (a b : Num) : (!below b a) = (below a b || decide (exactOf a = exactOf b)) := by
  rw [Bool.eq_iff_iff, Bool.not_eq_true', ← Bool.not_eq_true, below_iff, not_lt, le_iff_lt_or_eq, ← below_iff, Bool.or_eq_true,
    decide_eq_true_eq, toLex_inj]

theorem not_below_not_below (a b : Num) : (!below a b && !below b a) = decide (exactOf a = exactOf b) := by
  rw [Bool.eq_iff_iff, Bool.and_eq_true, Bool.not_eq_true', Bool.not_eq_true', ← Bool.not_eq_true, ← Bool.not_eq_true, below_iff, below_iff,
    not_lt, not_lt, decide_eq_true_eq, ← toLex_inj]
  exact ⟨fun h => le_antisymm h.2 h.1, fun h => ⟨h.ge, h.le⟩⟩

theorem nvOf_pair (a b : Num) : nvOf [a, b] = if a.isSig || b.isSig then fNV else 0 := by simp [nvOf]

theorem isSig_eq_false {a : Num} (h : a.isNan = false) : a.isSig = false := by
  cases a with
  | nan => cases h
  | _ => rfl

/-- When an FCMP raises NV. -/
theorem fcmp_snd (c : Nat) (a b : Num) : (fcmp c a b).2 = if fcmpNv c a b then fNV else 0 := by
  unfold fcmp fcmpNv
  dsimp only
  rw [nvOf_pair]
  by_cases hc : 2 ≤ c ∧ c ≤ 5
  · rw [if_pos hc]
    cases ha : a.isNan <;> cases hb : b.isNan <;> simp [hc, isSig_eq_false, ha, hb]
  · rw [if_neg hc, if_neg]
    simp only [Bool.and_eq_true, decide_eq_true_eq]
    exact fun h => hc h.1

/-- The conditions of R290: those of the model by < alone, which the order of the extended reals makes the ones of the table. -/
theorem fcmp_fst (c : Nat) (a b : Num) : (fcmp c a b).1 = fcmpTrue c a b := by
  unfold fcmp fcmpTrue
  dsimp only
  cases hn : a.isNan || b.isNan with
  | true =>
    have hq : numEq a b = false := by
      cases ha : a.isNan <;> simp_all [numEq]
    rw [hq]
    split <;> rfl
  | false =>
    obtain ⟨ha, hb⟩ := Bool.or_eq_false_iff.mp hn
    have hq : numEq a b = decide (exactOf a = exactOf b) := by
      rw [numEq, ha, hb, numLt_eq_below ha hb, numLt_eq_below hb ha, ← not_below_not_below]
      rfl
    have hs : decide (exactOf a = exactOf b) = decide (exactOf b = exactOf a) := by simp only [eq_comm]
    rw [numLt_eq_below ha hb, numLt_eq_below hb ha, hq]
    split <;> simp [not_below, hs]

/-! ### FCMP in a lane -/

theorem bitsAt_low {w n : Nat} (h : n < 2 ^ w) : bitsAt n 0 w = n := by rw [bitsAt, pow_zero, Nat.div_one, Nat.mod_eq_of_lt h]

/-- Element e of a value, by its place in the bits. -/
theorem elems_getD {t : Ty} {n e : Nat} (hn : n < 2 ^ t.w) (he : e < elemCount t) :
    (elems t n).getD e 0 = bitsAt n (if t.is16x2 then 16 * e else 0) (if t.is16x2 then 16 else t.w) := by
  unfold elemCount at he
  unfold elems
  cases ht : t.is16x2 with
  | true =>
    rw [ht, if_pos rfl] at he
    obtain rfl | rfl : e = 0 ∨ e = 1 := by omega
    · exact (congrArg (· % 65536) (Nat.div_one n)).symm
    · rfl
  | false =>
    rw [ht, if_neg Bool.false_ne_true] at he
    obtain rfl : e = 0 := by omega
    exact (bitsAt_low hn).symm

theorem State.fcmp_elem (s : State) (f : VF) (l : Nat) {e : Nat} (he : e < elemCount f.ty) :
    fcmp f.m (opnd (Ty.fmt f.ty) (fpEnv (s.g.lane l).fpl f.rmo) ((elems f.ty (s.rd l f.ty f.a).n).getD e 0))
        (opnd (Ty.fmt f.ty) (fpEnv (s.g.lane l).fpl f.rmo) ((elems f.ty (s.rd l f.ty f.b).n).getD e 0)) =
      (fcmpBit s f l e, if fcmpNv f.m (fcmpArgs s f l e).1 (fcmpArgs s f l e).2 then fNV else 0) := by
  rw [elems_getD (s.rd_lt l f.ty f.a) he, elems_getD (s.rd_lt l f.ty f.b) he]
  exact Prod.ext (fcmp_fst _ _ _) (fcmp_snd _ _ _)

/-- A flag that some elements raise. -/
theorem foldl_or_flag {α : Type} (xs : List α) (q : α → Bool) (fl x : W32) :
    xs.foldl (fun y a => y ||| if q a then fl else 0) x = x ||| if xs.any q then fl else 0 := by
  induction xs generalizing x with
  | nil => simp
  | cons a xs ih =>
    rw [List.foldl_cons, ih, List.any_cons, BitVec.or_assoc]
    cases q a <;> cases xs.any q <;> simp

/-- The poison of an FCMP in a lane. -/
def State.fcmpPoi (s : State) (f : VF) (l : Nat) : Bool := (s.rd l f.ty f.a).poi || (s.rd l f.ty f.b).poi

theorem State.fcmpLane_eq (s : State) (f : VF) (l : Nat) :
    s.fcmpLane f l = (tab (elemCount f.ty) (fcmpBit s f l),
      if (List.range (elemCount f.ty)).any fun e => fcmpNv f.m (fcmpArgs s f l e).1 (fcmpArgs s f l e).2 then fNV else 0, s.fcmpPoi f l) := by
  unfold State.fcmpLane
  dsimp only
  rw [tab, List.map_congr_left fun e he => s.fcmp_elem f l (List.mem_range.mp he), List.map_map, List.foldl_map, foldl_or_flag]
  exact Prod.ext rfl (Prod.ext BitVec.zero_or rfl)

theorem State.fcmpLane_atIssue (s : State) (m : Mask) (f : VF) (l : Nat) : (s.atIssue m).fcmpLane f l = s.fcmpLane f l := by
  simp only [State.fcmpLane, State.rd_atIssue, State.atIssue_g, Grp.fpl_advance]

theorem State.fcmpLane_flags (s : State) (f : VF) (l : Nat) :
    (if (s.fcmpLane f l).2.2 then 0 else (s.fcmpLane f l).2.1) = fcmpFlags s f l (s.fcmpPoi f l) := by
  rw [State.fcmpLane_eq]
  rfl

theorem elemCount_pos (t : Ty) : 0 < elemCount t := by
  unfold elemCount
  split <;> decide

theorem State.fcmpLane_bit (s : State) (f : VF) (l : Nat) {e : Nat} (he : e < elemCount f.ty) :
    (s.fcmpLane f l).1.getD e false = fcmpBit s f l e := by
  rw [State.fcmpLane_eq, tab_getD _ _ he]

/-- What FCMP writes into a v or k register. -/
def State.fcmpWord (s : State) (f : VF) (l : Nat) : Nat :=
  if f.ty.is16x2 then (if fcmpBit s f l 0 then 0xFFFF else 0) + (if fcmpBit s f l 1 then 0xFFFF0000 else 0)
  else if fcmpBit s f l 0 then 1 else 0

/-- What FCMP does in a lane with a v or k destination. -/
def State.fcmpPut (s : State) (f : VF) (l : Nat) (x : Lane) : Lane :=
  let r := s.fcmpLane f l
  let bit (e one : Nat) : Nat := if r.1.getD e false then one else 0
  let v := if f.ty.is16x2 then bit 0 0xFFFF + bit 1 0xFFFF0000 else bit 0 1
  x.putFp s.g.wb f.d false ⟨v, r.2.1⟩ r.2.2

theorem State.fcmpPut_eq (s : State) (f : VF) (l : Nat) (x : Lane) :
    s.fcmpPut f l x = (x.putVec s.g.wb f.d false ⟨s.fcmpWord f l, s.fcmpPoi f l⟩).raise (fcmpFlags s f l (s.fcmpPoi f l)) := by
  rw [← State.fcmpLane_flags]
  unfold State.fcmpPut State.fcmpWord
  dsimp only
  rw [s.fcmpLane_bit f l (elemCount_pos _)]
  cases h : f.ty.is16x2 with
  | true =>
    rw [s.fcmpLane_bit f l (e := 1) (by rw [elemCount, if_pos h]; decide)]
    rfl
  | false => rfl

theorem State.fcmpPut_atIssue (s : State) (m : Mask) (f : VF) : (s.atIssue m).fcmpPut f = s.fcmpPut f := by
  funext l x
  simp only [State.fcmpPut, State.fcmpLane_atIssue, State.atIssue_wb]

/-- What FCMP does in a group with an m destination. -/
def State.fcmpMask (s : State) (f : VF) (k : Nat) (act : Mask) (g : Grp) : Grp :=
  (g.modLanes (g.lanesOf act) fun l x => let r := s.fcmpLane f l; x.raise (if r.2.2 then 0 else r.2.1)).putMLanes k act fun l =>
    let r := s.fcmpLane f l
    ⟨if r.1.getD 0 false then 1 else 0, r.2.2⟩

theorem State.fcmpMask_eq (s : State) (f : VF) (k : Nat) (act : Mask) (g : Grp) :
    s.fcmpMask f k act g =
      (g.modLanes (g.lanesOf act) fun l x => x.raise (fcmpFlags s f l (s.fcmpPoi f l))).putMLanes k act fun l =>
        ⟨if fcmpBit s f l 0 then 1 else 0, s.fcmpPoi f l⟩ := by
  simp only [State.fcmpMask, State.fcmpLane_flags, s.fcmpLane_bit f _ (elemCount_pos _)]
  rfl

theorem State.fcmpMask_atIssue (s : State) (m : Mask) (f : VF) : (s.atIssue m).fcmpMask f = s.fcmpMask f := by
  funext k act g
  simp only [State.fcmpMask, State.fcmpLane_atIssue]

section
variable {s : State} {p : Pred} {f : VF}

theorem exec_fcmp_mask {k : Fin 8} (hd : f.d = .m k) : exec (.fcmp p f) s =
    s.once false p (s.opsOk (withRegs f.ty.regs [f.a, f.b])) fun s act g => s.fcmpMask f k act g := by
  show execFcmp p f s = _
  unfold execFcmp
  rw [hd]
  rfl

theorem exec_fcmp_lanes (hd : laneDest f.d = true) : exec (.fcmp p f) s =
    s.perLane p (s.opsOk ((f.d, 1) :: withRegs f.ty.regs [f.a, f.b])) fun s => s.fcmpPut f := by
  show execFcmp p f s = _
  unfold execFcmp State.fcmpPut
  obtain ⟨r, h⟩ | ⟨r, h⟩ := exists_of_laneDest hd <;> rw [h]

theorem fcmp_mask {k : Fin 8} (hd : f.d = .m k) (hr : s.Runs p (s.opsOk (withRegs f.ty.regs [f.a, f.b]))) :
    exec (.fcmp p f) s = groupOut s p fun g =>
      (g.modLanes (g.lanesOf (s.allowed p)) fun l x => x.raise (fcmpFlags s f l (s.fcmpPoi f l))).putMLanes k (s.allowed p)
        fun l => ⟨if fcmpBit s f l 0 then 1 else 0, s.fcmpPoi f l⟩ := by
  rw [exec_fcmp_mask hd, State.once_eq_groupOut false _ hr, State.fcmpMask_atIssue]
  exact congrArg _ (funext fun g => s.fcmpMask_eq f k _ g)

theorem fcmp_lanes (hd : laneDest f.d = true) (hr : s.Runs p (s.opsOk ((f.d, 1) :: withRegs f.ty.regs [f.a, f.b]))) :
    exec (.fcmp p f) s = lanesOut s p fun l x =>
      (x.putVec s.g.wb f.d false ⟨s.fcmpWord f l, s.fcmpPoi f l⟩).raise (fcmpFlags s f l (s.fcmpPoi f l)) := by
  rw [exec_fcmp_lanes hd, State.perLane_reads _ (s.fcmpPut_atIssue _ f) hr]
  exact congrArg _ (funext₂ fun l x => s.fcmpPut_eq f l x)

end

/-! ### FCLASS (R291) -/

theorem bitsAt_zero_lt (x w : Nat) : bitsAt x 0 w < 2 ^ w := Nat.mod_lt _ (Nat.two_pow_pos _)

/-- The top bit of a value of w bits. -/
theorem testBit_top {w x : Nat} (hw : 0 < w) (hx : x < 2 ^ w) : x.testBit (w - 1) = decide (2 ^ (w - 1) ≤ x) := by
  obtain ⟨n, rfl⟩ : ∃ n, w = n + 1 := ⟨w - 1, by omega⟩
  rw [Nat.add_sub_cancel]
  by_cases h : 2 ^ n ≤ x
  · rw [decide_eq_true h, Nat.testBit_of_two_pow_le_and_two_pow_add_one_gt h hx]
  · rw [decide_eq_false h, Nat.testBit_lt_two_pow (Nat.not_le.mp h)]

/-- The class of an encoding of a format with infinities, field by field. -/
theorem fclass_eq {m : Fmt} (hm : m.noInf = false) (hf : 0 < m.fb) (x : Nat) : fclass m x = 2 ^ classBit m x := by
  have hneg : (x / 2 ^ (m.eb + m.fb) % 2 == 1) = x.testBit (m.eb + m.fb) := by
    rw [Nat.testBit_eq_decide_div_mod_eq, beq_eq_decide]
  have hexp : x / 2 ^ m.fb % 2 ^ m.eb = bitsAt x m.fb m.eb := rfl
  have hfrac : x % 2 ^ m.fb = bitsAt x 0 m.fb := by rw [bitsAt, pow_zero, Nat.div_one]
  have hlt := bitsAt_zero_lt x m.fb
  unfold fclass classBit unpack
  dsimp only
  rw [hneg, hm, testBit_top hf hlt, hfrac, hexp]
  generalize bitsAt x 0 m.fb = fr at *
  generalize x.testBit (m.eb + m.fb) = neg
  generalize bitsAt x m.fb m.eb = e
  generalize 2 ^ m.eb - 1 = top
  by_cases htop : e = top
  · by_cases hz : fr = 0
    · simp [htop, hz]
    · by_cases hs : fr < 2 ^ (m.fb - 1) <;> simp [htop, hz, hs]
  · by_cases he : e = 0
    · subst he
      by_cases hz : fr = 0 <;> cases neg <;> simp [htop, hz, hlt]
    · cases neg <;> simp [htop, he]

/-- Each element of a value. -/
theorem joinElems_map (t : Ty) {n : Nat} (hn : n < 2 ^ t.w) (fn : Nat → Nat) :
    joinElems t ((elems t n).map fn) =
      if t.is16x2 then fn (bitsAt n 0 (if t.is16x2 then 16 else t.w)) + 65536 * fn (bitsAt n 16 (if t.is16x2 then 16 else t.w))
      else fn (bitsAt n 0 (if t.is16x2 then 16 else t.w)) := by
  unfold joinElems elems
  cases t.is16x2 with
  | true =>
    have h0 : bitsAt n 0 16 = n % 65536 := congrArg (· % 65536) (Nat.div_one n)
    simp only [if_true, h0]
    rfl
  | false =>
    simp only [Bool.false_eq_true, if_false, bitsAt_low hn]
    rfl

theorem fclass_lanes {s : State} {p : Pred} {f : VF} (hr : s.Runs p (s.opsOk [(f.d, 1), (f.a, f.ty.regs)])) :
    exec (.fclass p f) s = lanesOut s p fun l x =>
      x.putVec s.g.wb f.d false ⟨joinElems f.ty ((elems f.ty (s.rd l f.ty f.a).n).map (fclass (Ty.fmt f.ty))), (s.rd l f.ty f.a).poi⟩ := by
  show execFclass p f s = _
  unfold execFclass
  exact State.perLane_reads _ (by simp only [State.rd_atIssue, State.atIssue_wb]) hr

/-- Settles O13: a comparison is one of places in the order of the extended reals, and the class of an encoding follows its fields. -/
theorem floatTests : Obligations.FloatTests := by
  intro p f s ht poi
  refine ⟨fun k => fcmp_mask, fcmp_lanes, fun _ hr => (fclass_lanes hr).trans (congrArg _ (funext₂ fun l x => ?_))⟩
  have hclass : fclass (Ty.fmt f.ty) = fun b => 2 ^ classBit (Ty.fmt f.ty) b := by
    funext b
    rcases ht with h | h | h | h <;> rw [h] <;> exact fclass_eq rfl (by decide) b
  rw [joinElems_map _ (s.rd_lt l f.ty f.a), hclass]

end Sys2Proof.Machine
end

section
/-! PROOFS. Conversions (O15). -/

namespace Sys2Proof.Machine

open Sys2Proof.Claims

/-- Settles O15: each word by its runner, and its source elements as a list of results. -/
theorem conversions : Obligations.Conversions := by
  refine fun p f s => ⟨fun hr => ?_, fun hr => ?_, fun hr => ?_⟩
  · show execFcvt p f s = _
    unfold execFcvt
    refine (State.perLane_reads _ (by simp only [State.rd_atIssue, State.atIssue_wb]) hr).trans ?_
    simp only [cvtSources, apply_ite (List.map _), List.map_cons, List.map_nil]
  · show execFtoi p f s = _
    unfold execFtoi
    exact State.perLane_reads _ (by simp only [State.rd_atIssue, State.atIssue_wb]) hr
  · show execItof p f s = _
    unfold execItof
    refine (State.perLane_reads _ (by simp only [State.rd_atIssue, State.atIssue_wb]) hr).trans ?_
    simp only [apply_ite (List.map _), List.map_cons, List.map_nil, apply_ite (List.cons _)]

end Sys2Proof.Machine
end

section
/-! PROOFS. Packed conversions (O16). -/

namespace Sys2Proof.Machine

open Sys2Proof.Claims

/-- A word that acts in the active lanes that `fails` leaves out, and traps the others. -/
theorem State.perform_passing {s : State} {p : Pred} {chk : Nat → Bool} (fails : State → Mask → List (Nat × Fail))
    (op : State → Nat → Lane → Lane) (ho : op (eff s p) = op s) (hr : s.Runs p chk) :
    s.perform false p chk (fun s act =>
      .done (s.setG (s.g.modLanes ((s.g.lanesOf act).filter fun l => (fails s act).all fun x => x.1 != l) (op s))) (fails s act)) =
    trapped ((eff s p).modG fun g =>
      g.modLanes ((g.lanesOf (s.allowed p)).filter fun l => (fails (eff s p) (s.allowed p)).all fun x => x.1 != l) (op s))
      (fails (eff s p) (s.allowed p)) := by
  rw [State.perform_runs s false p _ _ hr, State.modG, ← ho]
  exact State.conclude_fails s _ _ (State.atIssue_met s _)

/-- Settles O16: PACK8 and UNPK8 lane by lane; QNT and DEQ in the lanes whose scale word is not refused. -/
theorem packedConversions : Obligations.PackedConversions := by
  refine fun p f s => ⟨fun hr => ⟨?_, ?_, ?_⟩, fun hr => ?_⟩
  · show execPack8 p f s = _
    unfold execPack8
    exact State.perLane_reads _ (by simp only [State.rd_atIssue, State.atIssue_wb]) hr
  · show execQnt p f s = _
    unfold execQnt
    exact State.perform_passing (fun s act => s.scaleFails f act [f.d, f.a, f.b]) _ (by simp only [State.rd_atIssue, State.atIssue_wb]) hr
  · show execDeq p f s = _
    unfold execDeq
    exact State.perform_passing (fun s act => s.scaleFails f act [f.a, f.b]) _ (by simp only [State.rd_atIssue, State.atIssue_wb]) hr
  · show execUnpk8 p f s = _
    unfold execUnpk8
    exact State.perLane_reads _ (by simp only [State.rd_atIssue, State.atIssue_wb]) hr

end Sys2Proof.Machine
end

section
/-! PROOFS. LGET and LPUT (O11). -/

namespace Sys2Proof.Machine

open Sys2Proof.Claims

/-! ### What LGET reads and LPUT writes of a lane (R307, the table) -/

theorem laneTarget_cases {m : Nat} {b : Opnd} (h : laneTarget m b = true) :
    (m = 0 ∧ ((∃ i, b = .v i) ∨ (∃ i, b = .k i) ∨ (∃ i, b = .y i) ∨ b = .spec .pc)) ∨ m = 1 ∨ m = 2 ∨ m = 3 := by
  unfold laneTarget at h
  split at h
  case h_8 => cases h
  all_goals simp

theorem Grp.yReg_fin (g : Grp) (l : Nat) (i : Fin 2) : g.yReg l i.val = if i = 0 then (g.lane l).y0 else (g.lane l).y1 := by
  match i with
  | 0 => rfl
  | 1 => rfl

/-- What LGET reads of a register, a y entry or %pc. -/
theorem Grp.laneGet_value (g : Grp) (l : Nat) {f : VF} (hm : f.m = 0) (ht : laneTarget 0 f.b = true) : g.laneGet l f = laneReads g l 0 f.b := by
  unfold Grp.laneGet
  rw [hm]
  obtain ⟨-, ⟨i, hb⟩ | ⟨i, hb⟩ | ⟨i, hb⟩ | hb⟩ | h | h | h := laneTarget_cases ht
  · simp [hb, Grp.laneReg, Grp.laneY, Grp.vReg, laneReads]
  · simp [hb, Grp.laneReg, Grp.laneY, Grp.kReg, laneReads]
  · simp [hb, Grp.laneReg, Grp.laneY, Grp.yReg_fin, laneReads]
  · rw [hb]
    rfl
  all_goals cases h

/-- What LGET reads of the state of a register and of its lane. -/
theorem Grp.laneGet_st (g : Grp) (l : Nat) {f : VF} (hm : f.m = 4) : g.laneGet l f = laneReads g l 4 f.b := by
  unfold Grp.laneGet
  rw [hm]
  cases hb : f.b with
  | v i => rfl
  | k i => rfl
  | y i => simp only [Grp.laneReg, Grp.laneY, Grp.yReg_fin, laneReads, Option.any]
  | _ => simp [Grp.laneReg, Grp.laneY, laneReads]

theorem Grp.laneGet_eq (g : Grp) (l : Nat) {f : VF} (ht : laneTarget f.m f.b = true ∨ f.m = 4) :
    g.laneGet l f = laneReads g l f.m f.b := by
  obtain ht | hm := ht
  · obtain ⟨hm, -⟩ | hm | hm | hm := laneTarget_cases ht
    · rw [hm] at ht ⊢
      exact g.laneGet_value l hm ht
    all_goals
      unfold Grp.laneGet
      rw [hm]
      rfl
  · rw [hm]
    exact g.laneGet_st l hm

/-- A handler that has written the PC or the block base of a lane (R416). -/
def Handler.patchLane (l : Nat) (h : Handler) : Handler :=
  { h with patched := h.patched ||| bitMask l, y0set := h.y0set &&& ~~~(bitMask l), y1set := h.y1set &&& ~~~(bitMask l) }
/-- A handler that has written entry i of y of a lane (R416). -/
def Handler.setLaneY (l i : Nat) (h : Handler) : Handler :=
  if h.patched.getLsbD l then (if i = 0 then { h with y0set := h.y0set ||| bitMask l } else { h with y1set := h.y1set ||| bitMask l }) else h

/-- What becomes of a handler's budget and PC under an update that keeps both. -/
abbrev Handler.KeepsRun (u : Handler → Handler) : Prop := ∀ h, (u h).budget = h.budget ∧ (u h).pc = h.pc

theorem Handler.keepsRun_setLaneY (l i : Nat) : Handler.KeepsRun (Handler.setLaneY l i) := by
  intro h
  unfold Handler.setLaneY
  split
  · split <;> exact ⟨rfl, rfl⟩
  · exact ⟨rfl, rfl⟩

theorem low_word (v : Nat) : (BitVec.ofNat 64 v).setWidth 32 = BitVec.ofNat 32 v := BitVec.eq_of_toNat_eq (by simp)

/-- LPUT of a lane changes that lane as the table says, and of the handler what it keeps of the lanes that it has written. -/
theorem Grp.lanePut_eq (g : Grp) (l : Nat) {f : VF} (v : Nat) (ht : laneTarget f.m f.b = true) :
    ∃ u : Handler → Handler, Handler.KeepsRun u ∧
      g.lanePut l f v = { g.modLane l (laneWrites g f.m f.b (BitVec.ofNat 64 v)) with handler := g.handler.map u } := by
  have hid : Handler.KeepsRun id := fun _ => ⟨rfl, rfl⟩
  have hpatch : Handler.KeepsRun (Handler.patchLane l) := fun _ => ⟨rfl, rfl⟩
  unfold Grp.lanePut laneWrites
  rw [low_word]
  obtain ⟨hm, ⟨i, hb⟩ | ⟨i, hb⟩ | ⟨i, hb⟩ | hb⟩ | hm | hm | hm := laneTarget_cases ht
  · refine ⟨id, hid, ?_⟩
    rw [hm, hb, Option.map_id]
    rfl
  · refine ⟨id, hid, ?_⟩
    rw [hm, hb, Option.map_id]
    rfl
  · refine ⟨Handler.setLaneY l i.val, Handler.keepsRun_setLaneY l i.val, ?_⟩
    rw [hm, hb]
    match i with
    | 0 => rfl
    | 1 => rfl
  · refine ⟨Handler.patchLane l, hpatch, ?_⟩
    rw [hm, hb]
    rfl
  · refine ⟨id, hid, ?_⟩
    rw [hm, Option.map_id]
    rfl
  · refine ⟨Handler.patchLane l, hpatch, ?_⟩
    rw [hm]
    rfl
  · refine ⟨id, hid, ?_⟩
    rw [hm, Option.map_id]
    rfl

/-! ### The lane that a handler's word names -/

section
variable {s : State} {p : Pred} {f : VF}

/-- What R307 asks of the index and the target. -/
abbrev State.reaches (s : State) (f : VF) : Prop := (s.rd 0 .n32 f.a).n < s.g.gw ∧ ∀ i, f.b = .v i → i.val < s.g.win

theorem State.reaches_iff : s.reaches f ↔ (decide (s.g.gw ≤ (s.rd 0 .n32 f.a).n) || !s.g.winOk 1 f.b) = false := by
  rw [Bool.or_eq_false_iff, decide_eq_false_iff_not, not_le, Bool.not_eq_false', State.reaches]
  refine and_congr_right fun _ => ?_
  cases f.b <;> simp [Grp.winOk]

theorem State.handlerLane_eq (hr : s.RunsH p) (act : Mask) (k : State → Nat → Val → Did) :
    s.atHandler.handlerLane act f k =
      if decide (s.g.gw ≤ (s.rd 0 .n32 f.a).n) || !s.g.winOk 1 f.b then
        .done s.atHandler [(0, .opndLate)]
      else k s.atHandler (s.rd 0 .n32 f.a).n (s.rd 0 .n32 f.a) := by
  unfold State.handlerLane
  rw [State.rd_atHandler, State.atHandler_iss, hr.1, State.atHandler_g]
  rfl

theorem State.handlerLane_reaches (hr : s.RunsH p) (hw : s.reaches f) (act : Mask) (k : State → Nat → Val → Did) :
    s.atHandler.handlerLane act f k = k s.atHandler (s.rd 0 .n32 f.a).n (s.rd 0 .n32 f.a) := by
  rw [State.handlerLane_eq hr, State.reaches_iff.mp hw]
  rfl

theorem State.handlerLane_misses (hr : s.RunsH p) (hw : ¬s.reaches f) (act : Mask) (k : State → Nat → Val → Did) :
    s.atHandler.handlerLane act f k = .done s.atHandler [(0, .opndLate)] := by
  rw [State.reaches_iff, Bool.not_eq_false] at hw
  rw [State.handlerLane_eq hr, hw]
  rfl

theorem State.handlerLane_lanes (hr : s.g.iss.handler = false) (act : Mask) (k : State → Nat → Val → Did) :
    s.handlerLane act f k = .done s (failAll s.g act { cause := 0x0001 }) := if_pos (by rw [hr]; rfl)

/-- A word of lane access that a lane issues. -/
theorem handlerLane_traps {chk : Nat → Bool} (k : State → Nat → Val → Did) (hr : s.Runs p chk) :
    s.perform true p chk (fun s act => s.handlerLane act f k) = trapped (eff s p) (failAll s.g (s.allowed p) { cause := 0x0001 }) := by
  rw [State.perform_runs s true p _ _ hr, State.handlerLane_lanes (by rw [State.atIssue_iss, hr.1])]
  exact State.conclude_trapped _

theorem handlerLane_doubleTrap {k : State → Nat → Val → Did} (hr : s.RunsH p) (hw : ¬s.reaches f) :
    s.perform true p (fun _ => true) (fun s act => s.handlerLane act f k) = .next (s.atHandler.fatal 0x0100 0) :=
  State.perform_traps hr.1 hr.2.1 hr.2.2 rfl (State.handlerLane_misses hr hw _ _) rfl

theorem State.laneReads_atHandler (s : State) (l m : Nat) (b : Opnd) : laneReads s.atHandler.g l m b = laneReads s.g l m b := by
  rw [State.atHandler_g]
  rfl

theorem lget_reads (hr : s.RunsH p) (hw : s.reaches f) (ht : laneTarget f.m f.b = true ∨ f.m = 4) :
    exec (.lget p f) s = handlerOut s fun g =>
      g.putS f.d.sIdx ⟨laneReads s.g (s.rd 0 .n32 f.a).n f.m f.b, (s.rd 0 .n32 f.a).poi⟩ := by
  show execLget p f s = _
  unfold execLget
  refine State.perform_runsH s p _ _ hr rfl _ ((State.handlerLane_reaches hr hw _ _).trans ?_) rfl
  rw [Grp.laneGet_eq _ _ ht, State.laneReads_atHandler]
  rfl

/-! ### LPUT -/

/-- What LPUT does once its lane is known. -/
def State.lputDid (s : State) (f : VF) (l : Nat) : Did :=
  if (s.rd 0 .b64 f.c).poi then .done s [(0, .poison f.c)]
  else if (s.g.lane l).st == .exited then .done s []
  else .done (s.setG (s.g.lanePut l f (s.rd 0 .b64 f.c).n)) []

theorem exec_lput : exec (.lput p f) s =
    s.perform true p (fun _ => true) fun s act => s.handlerLane act f fun s l _ => s.lputDid f l := rfl

theorem State.lane_atHandler (s : State) (l : Nat) : s.atHandler.g.lane l = s.g.lane l := by
  rw [State.atHandler_g]
  rfl

theorem lputDid_poisoned (hc : (s.rd 0 .b64 f.c).poi = true) (l : Nat) : s.atHandler.lputDid f l = .done s.atHandler [(0, .poison f.c)] := by
  unfold State.lputDid
  rw [State.rd_atHandler, hc]
  rfl

/-- An LPUT whose C is not poisoned writes its lane, unless that has exited. -/
theorem lputDid_writes (hc : (s.rd 0 .b64 f.c).poi = false) (l : Nat) : s.atHandler.lputDid f l =
    .done (if (s.g.lane l).st = .exited then s.atHandler else s.atHandler.modG fun g => g.lanePut l f (s.rd 0 .b64 f.c).n) [] := by
  unfold State.lputDid
  rw [State.rd_atHandler, hc, State.lane_atHandler, if_neg Bool.false_ne_true]
  simp only [beq_iff_eq]
  split <;> rfl

section
variable (hr : s.RunsH p) (hw : s.reaches f)
include hr hw

theorem lput_poisoned (hc : (s.rd 0 .b64 f.c).poi = true) : exec (.lput p f) s = .next (s.atHandler.fatal 0x0100 0) := by
  rw [exec_lput]
  exact State.perform_traps hr.1 hr.2.1 hr.2.2 rfl ((State.handlerLane_reaches hr hw _ _).trans (lputDid_poisoned hc _)) rfl

theorem lput_ends (hc : (s.rd 0 .b64 f.c).poi = false) : exec (.lput p f) s =
    s.handlerEnd (if (s.g.lane (s.rd 0 .n32 f.a).n).st = .exited then s.atHandler
      else s.atHandler.modG fun g => g.lanePut (s.rd 0 .n32 f.a).n f (s.rd 0 .b64 f.c).n) := by
  rw [exec_lput]
  refine State.perform_runsH s p _ _ hr rfl _ ((State.handlerLane_reaches hr hw _ _).trans (lputDid_writes hc _)) ?_
  split <;> rfl

theorem lput_exited (hc : (s.rd 0 .b64 f.c).poi = false) (hx : (s.g.lane (s.rd 0 .n32 f.a).n).st = .exited) :
    exec (.lput p f) s = s.handlerEnd s.atHandler := by
  rw [lput_ends hr hw hc, if_pos hx]

theorem lput_writes (hc : (s.rd 0 .b64 f.c).poi = false) (hx : (s.g.lane (s.rd 0 .n32 f.a).n).st ≠ .exited) :
    exec (.lput p f) s = s.handlerEnd (s.atHandler.modG fun g => g.lanePut (s.rd 0 .n32 f.a).n f (s.rd 0 .b64 f.c).n) := by
  rw [lput_ends hr hw hc, if_neg hx]

end
end

/-! ### What an LPUT that retires leaves -/

theorem Grp.lane_modLane (g : Grp) (l j : Nat) (u : Lane → Lane) : (g.modLane l u).lane j = if l = j then u (g.lane l) else g.lane j :=
  g.lane_setLane l j _

/-- The group in focus after an LPUT that retires: as at issue, but for the lane and the handler. -/
theorem State.g_lput (s : State) (l : Nat) {f : VF} (v : Nat) (ht : laneTarget f.m f.b = true) :
    ∃ u : Handler → Handler, Handler.KeepsRun u ∧ (s.atHandler.modG fun g => g.lanePut l f v).retireH.g =
      Grp.handlerRetired { s.g.modLane l (laneWrites s.g f.m f.b (BitVec.ofNat 64 v)) with
        handler := (s.g.handler.map fun h => { h with pc := s.g.iss.pc + 8 }).map u } := by
  obtain ⟨u, hu, hput⟩ := Grp.lanePut_eq s.atHandler.g l v ht
  refine ⟨u, hu, ?_⟩
  rw [State.g_retireH, State.g_modG, hput, State.atHandler_g]
  rfl

/-- Settles O11: in a handler the runner comes to the lane that passes R307's checks, and LPUT changes that lane and the handler alone. -/
theorem laneAccess : Obligations.LaneAccess := by
  intro p f s l c within
  refine ⟨lget_reads, fun hr hw ht hc => ⟨lput_exited hr hw hc, fun hx hb => ?_, fun h hx hb hh => ?_⟩,
    fun hr hw => ⟨handlerLane_doubleTrap hr hw, handlerLane_doubleTrap hr hw⟩, fun hr hw _ hc => lput_poisoned hr hw hc,
    fun hr => ⟨handlerLane_traps _ hr, handlerLane_traps _ hr⟩⟩
  · exact (lput_writes hr hw hc hx).trans (State.handlerEnd_over hb _)
  · obtain ⟨u, hu, hg⟩ := s.g_lput l c.n ht
    refine ⟨_, (lput_writes hr hw hc hx).trans (State.handlerEnd_within hb _), ?_⟩
    rw [hg, hh]
    refine ⟨?_, fun j hj => ?_, rfl, rfl, rfl, rfl, _, rfl, congrArg (· - 1) (hu _).1, (hu _).2⟩
    · exact (Grp.lane_modLane _ _ _ _).trans (if_pos rfl)
    · exact (Grp.lane_modLane _ _ _ _).trans (if_neg hj.symm)

end Sys2Proof.Machine
end

section
/-! PROOFS. Lane moves and votes (O17): refuted. -/

namespace Sys2Proof.Machine

open Sys2Proof.Claims

/-! ### A SHUP that takes C in no lane

A register group that an operand names lies in the window whether or not a lane comes to read it (R49), and the model checks C of an
exchange so (`Grp.winOk`). The statement asks of C only in the lanes that take it: a SHUP by 0, in which none does, may name any C. -/

/-- SHUP v3, v2 by 0, with v63 for C, which lies past the window of sixteen registers of `plainIssue`. -/
def shupPastWindow : VF := ⟨.v 3, .v 2, .const .zero, .v 63, .b32, .lane, false, .none, 0⟩

/-- The lane that each lane of this SHUP reads: itself, so that none takes C. -/
theorem shupPastWindow_row : ∃ src, moveRow plainIssue (.shup anyLane shupPastWindow) = some (anyLane, shupPastWindow, [], src) ∧
    ∀ l, src l = some l :=
  ⟨_, rfl, fun l => if_pos (Nat.zero_le l)⟩

theorem plainIssue_passes : plainIssue.Runs anyLane fun l => plainIssue.g.opOk l 1 (.v 3) && plainIssue.opsOk (withRegs 1 []) l &&
    plainIssue.g.opOk l 1 (.v 2) := by decide +kernel

theorem plainIssue_shup : lane0State (exec (.shup anyLane shupPastWindow) plainIssue) = some .trapped := by decide +kernel

theorem plainIssue_moved : lane0State (lanesOut plainIssue anyLane fun l x => x.putVec plainIssue.g.wb (.v 3) false
    ⟨(plainIssue.rd l .b32 (.v 2)).n, (plainIssue.rd l .b32 (.v 2)).poi || (plainIssue.rd l .n32 (.const .zero)).poi⟩) = some .running := by
  decide +kernel

/-- Refutes O17: SHUP by 0 with C past the window passes the checks that the statement asks for, but it traps its lanes and writes nothing. -/
theorem not_laneMovesAndVotes : ¬ Obligations.LaneMovesAndVotes := by
  rintro ⟨⟨hmove, -⟩, -⟩
  obtain ⟨src, hrow, hsrc⟩ := shupPastWindow_row
  have hout := hmove _ _ _ _ _ _ hrow rfl (by simp only [hsrc]; exact plainIssue_passes)
  simp only [hsrc] at hout
  have htrap := plainIssue_shup
  rw [hout] at htrap
  exact absurd (plainIssue_moved.symm.trans htrap) (by decide)

end Sys2Proof.Machine
end

section
/-! PROOFS. Traps: their entry, the lanes that trap, grids without a handler, and the handler's budget (O24 to O26, O28). -/

namespace Sys2Proof.Machine

open Sys2Proof.Claims

/-! ### Taking a trap (R409, R411, R412) -/

/-- A group with some lanes Trapped. -/
def Grp.trapping (g : Grp) (T : Mask) : Grp := g.modLanes (g.lanesOf T) fun _ x => { x with st := .trapped }

theorem Grp.trapping_lane (g : Grp) (T : Mask) (l : Nat) :
    (g.trapping T).lane l = if l ∈ g.lanesOf T then { g.lane l with st := .trapped } else g.lane l :=
  Grp.lane_modLanes g _ _ (Grp.lanesOf_nodup _ _) l

/-- The handler that a trap starts. -/
def State.trapHandler (s : State) (T : Mask) (f : Fail) (tpc tword tret : W64) : Handler :=
  { pc := s.gr.lrec.trapv, cause := f.cause, impr := f.impr, tmask := T, tpc, tword,
    tinfo := BitVec.ofNat 64 ((s.setG (s.g.trapping T)).trapInfo T f), tretired := tret }

theorem State.trapEntry_handled {s : State} (h : s.gr.lrec.trapv ≠ 0) (T : Mask) (f : Fail) (tpc tword tret : W64) :
    s.trapEntry T f tpc tword tret =
      (s.setG (s.g.trapping T)).setG { s.g.trapping T with ptsel := 0, handler := some (s.trapHandler T f tpc tword tret) } :=
  if_neg fun e => h (eq_of_beq e)

theorem State.trapEntry_unhandled {s : State} (h : s.gr.lrec.trapv = 0) (T : Mask) (f : Fail) (tpc tword tret : W64) :
    s.trapEntry T f tpc tword tret =
      (s.setG (s.g.trapping T)).endGrid s.foc.grid f.cause ((s.setG (s.g.trapping T)).trapInfo T f) :=
  if_pos (beq_iff_eq.mpr h)

/-- The group in focus as a trap leaves it. -/
theorem State.g_trapEntry {s : State} (h : s.gr.lrec.trapv ≠ 0) (T : Mask) (f : Fail) (tpc tword tret : W64) :
    (s.trapEntry T f tpc tword tret).g = { s.g.trapping T with ptsel := 0, handler := some (s.trapHandler T f tpc tword tret) } := by
  rw [State.trapEntry_handled h, State.g_setG]

/-- Settles O24: the trap entry sets the state of the lanes T, and puts the handler into the group. -/
theorem trapEntry : Obligations.TrapEntry := by
  unfold Obligations.TrapEntry
  intro s T fl tpc tword tret h
  have hg := State.g_trapEntry h T fl tpc tword tret
  have hlane (l : Nat) : (s.trapEntry T fl tpc tword tret).g.lane l = (s.g.trapping T).lane l := by rw [hg]; rfl
  simp only [hlane, Grp.trapping_lane]
  obtain ⟨ls, hls⟩ : ∃ x, s.g.trapping T = { s.g with lanes := x } := s.g.modLanes_eq _ _
  refine ⟨⟨_, by rw [hg], rfl, rfl, rfl, rfl, rfl, rfl, rfl, rfl⟩, fun l hl => by rw [if_pos hl], fun l => ?_, ?_⟩
  · split
    · exact ⟨rfl, rfl, rfl, rfl, fun hl => absurd ‹_› hl⟩
    · exact ⟨rfl, rfl, rfl, rfl, fun _ => rfl⟩
  · rw [hg, hls, State.trapEntry_handled h]
    refine ⟨rfl, rfl, rfl, rfl, rfl, rfl, rfl, rfl, fun k hk => ?_⟩
    simp only [State.setG, State.grpAt_setGrpAt, if_neg (Ne.symm hk)]
    exact if_neg (Ne.symm hk)

/-! ### The lanes that trap (R409) -/

/-- A sort begins with the element that comes before every other. -/
theorem head_sortBy {α : Type} {le : α → α → Bool} {m : α} (l : List α) (hm : m ∈ l)
    (hle : ∀ x ∈ l, x = m ∨ le m x = true ∧ le x m = false) : (sortBy le l).head? = some m := by
  suffices h : ∀ (l acc : List α), (∀ x ∈ l, x = m ∨ le m x = true ∧ le x m = false) →
      (acc.head? = some m ∨ m ∈ l ∧ ∀ a ∈ acc.head?, le a m = false) →
      (l.foldl (fun acc x => insertBy le x acc) acc).head? = some m from h l [] hle (.inr ⟨hm, nofun⟩)
  intro l
  induction l with
  | nil => exact fun acc _ h => h.resolve_right fun h => absurd h.1 List.not_mem_nil
  | cons x xs ih =>
    intro acc hle h
    refine ih _ (fun y hy => hle y (List.mem_cons_of_mem _ hy)) ?_
    have hx := hle x List.mem_cons_self
    cases acc with
    | nil => grind [insertBy]
    | cons a t => grind [insertBy]

/-- The failure of the lowest lane that fails with a cause is the one whose lane comes first. -/
theorem lowestFail_eq {fails : List (Nat × Fail)} {l0 : Nat} {f0 : Fail} (hm : (l0, f0) ∈ fails) (hn : (fails.map (·.1)).Nodup)
    (hle : ∀ x ∈ fails, l0 ≤ x.1 ∧ x.2.cause ≠ 0) : lowestFail fails = some f0 := by
  have hf : fails.filter (fun f => f.2.cause ≠ 0) = fails := List.filter_eq_self.mpr fun x hx => decide_eq_true (hle x hx).2
  unfold lowestFail
  rw [hf, head_sortBy fails hm fun x hx => ?_]
  · rfl
  · by_cases he : x.1 = l0
    · exact .inl (List.inj_on_of_nodup_map hn hx hm he)
    · exact .inr ⟨decide_eq_true (hle x hx).1, decide_eq_false fun h => he (Nat.le_antisymm h (hle x hx).1)⟩

/-- Where no failing lane is past its word, they all keep their PC. -/
theorem keptLanes_eq {fails : List (Nat × Fail)} (h : ∀ x ∈ fails, x.2.skip = false) : keptLanes fails = failMask fails := by
  unfold keptLanes
  rw [List.filter_eq_self.mpr fun x hx => by rw [h x hx]; rfl]

theorem getLsbD_failMask (fails : List (Nat × Fail)) (l : Nat) :
    (failMask fails).getLsbD l = (decide (l < 64) && decide (l ∈ fails.map (·.1))) := getLsbD_maskOf _ l

/-- The group in focus as the end of an issue leaves it before its trap. -/
def Grp.failed (g : Grp) (counted : Bool) (fails : List (Nat × Fail)) : Grp :=
  (g.keepPc (keptLanes fails)).ended counted
/-- The state in which the trap of an issue is taken. -/
def State.beforeTrap (s : State) (counted : Bool) (fails : List (Nat × Fail)) : State :=
  let u := (s.setG (s.g.failed counted fails)).bump
  if counted then (u.count s.foc.ctx 1 1).logState else u

theorem State.finish_traps (s : State) (counted : Bool) {fails : List (Nat × Fail)} {f : Fail} (h : lowestFail fails = some f) :
    s.finish counted fails = (s.beforeTrap counted fails).trapEntry (failMask (fails.filter fun x => x.2.cause == f.cause)) f
      (s.beforeTrap counted fails).g.iss.pc (s.beforeTrap counted fails).g.iss.word s.g.retired := by
  unfold State.finish
  rw [h]
  rfl

theorem State.logState_grids (s : State) : s.logState.grids = s.grids := by
  unfold State.logState
  split <;> rfl

theorem State.beforeTrap_sameGrids (s : State) (counted : Bool) (fails : List (Nat × Fail)) :
    (s.setG (s.g.failed counted fails)).SameGrids (s.beforeTrap counted fails) := by
  cases counted with
  | false => exact ⟨rfl, rfl, rfl, rfl⟩
  | true =>
    refine State.SameGrids.trans (t := ((s.setG (s.g.failed true fails)).bump).count s.foc.ctx 1 1) ?_
      ⟨State.logState_foc _, State.logState_groups _, State.logState_teams _, State.logState_grids _⟩
    exact State.SameGrids.trans (t := (s.setG (s.g.failed true fails)).bump) ⟨rfl, rfl, rfl, rfl⟩ (State.calm_count _ _ _ _).sameGrids

theorem State.beforeTrap_g (s : State) (counted : Bool) (fails : List (Nat × Fail)) :
    (s.beforeTrap counted fails).g = s.g.failed counted fails :=
  (s.beforeTrap_sameGrids counted fails).g.trans (State.g_setG _ _)

theorem State.beforeTrap_gr (s : State) (counted : Bool) (fails : List (Nat × Fail)) : (s.beforeTrap counted fails).gr = s.gr :=
  (s.beforeTrap_sameGrids counted fails).gr

theorem Grp.failed_iss (g : Grp) (counted : Bool) (fails : List (Nat × Fail)) : (g.failed counted fails).iss = g.iss :=
  (Grp.modLanes_iss _ _ _).trans (Grp.modLanes_iss _ _ _)

theorem Grp.failed_gw (g : Grp) (counted : Bool) (fails : List (Nat × Fail)) : (g.failed counted fails).gw = g.gw :=
  (Grp.modLanes_gw _ _ _).trans (Grp.modLanes_gw _ _ _)

/-- A failing lane stands at the word of the issue, any other where it stood; no lane has another state. -/
theorem Grp.failed_lane (g : Grp) (counted : Bool) (fails : List (Nat × Fail)) (l : Nat) :
    ((g.failed counted fails).lane l).pc = (if l ∈ g.lanesOf (keptLanes fails) then g.iss.pc else (g.lane l).pc) ∧
      ((g.failed counted fails).lane l).st = (g.lane l).st := by
  have hk : (g.keepPc (keptLanes fails)).lane l = if l ∈ g.lanesOf (keptLanes fails) then { g.lane l with pc := g.iss.pc } else g.lane l :=
    Grp.lane_modLanes g _ _ (Grp.lanesOf_nodup _ _) l
  have hr : ((g.failed counted fails).lane l).pc = ((g.keepPc (keptLanes fails)).lane l).pc ∧
      ((g.failed counted fails).lane l).st = ((g.keepPc (keptLanes fails)).lane l).st := by
    show ((g.keepPc (keptLanes fails)).countRot.lane l).pc = _ ∧ ((g.keepPc (keptLanes fails)).countRot.lane l).st = _
    rw [Grp.countRot, Grp.lane_modLanes _ _ _ (show (Grp.laneIdx _).Nodup from List.nodup_range)]
    split
    · split <;> exact ⟨rfl, rfl⟩
    · exact ⟨rfl, rfl⟩
  rw [hr.1, hr.2, hk]
  split <;> exact ⟨rfl, rfl⟩

/-- Settles O25: the cause is that of the head of the failures sorted by lane, the word that of the issue, and the trap entry changes the
state of the lanes that fail with that cause. -/
theorem trapLanes : Obligations.TrapLanes := by
  unfold Obligations.TrapLanes
  intro s counted fails l0 f0 hv hm hn hfs
  have hlow : lowestFail fails = some f0 := lowestFail_eq hm hn fun x hx => by
    obtain ⟨h1, -, -, h2, -⟩ := hfs x hx
    exact ⟨h1, h2⟩
  have hkept : keptLanes fails = failMask fails := keptLanes_eq fun x hx => (hfs x hx).2.2.2.2
  have hv' : (s.beforeTrap counted fails).gr.lrec.trapv ≠ 0 := by rwa [State.beforeTrap_gr]
  have hmem (fs : List (Nat × Fail)) (hsub : ∀ x ∈ fs, x ∈ fails) (l : Nat) : l ∈ s.g.lanesOf (failMask fs) ↔ l ∈ fs.map (·.1) := by
    rw [Grp.mem_lanesOf, getLsbD_failMask, Bool.and_eq_true, decide_eq_true_iff, decide_eq_true_iff]
    refine ⟨fun h => h.2.2, fun h => ?_⟩
    obtain ⟨x, hx, rfl⟩ := List.mem_map.mp h
    obtain ⟨-, hgw, h64, -, -⟩ := hfs x (hsub x hx)
    exact ⟨hgw, h64, h⟩
  rw [State.finish_traps s counted hlow]
  generalize hT : failMask (fails.filter fun x => x.2.cause == f0.cause) = T
  have hg := State.g_trapEntry hv' T f0 (s.beforeTrap counted fails).g.iss.pc (s.beforeTrap counted fails).g.iss.word s.g.retired
  have hlanes : (s.beforeTrap counted fails).g.lanesOf T = s.g.lanesOf T := by
    rw [State.beforeTrap_g, Grp.lanesOf, Grp.laneIdx, Grp.failed_gw]
    rfl
  have hlane (l : Nat) : ((s.beforeTrap counted fails).trapEntry T f0 (s.beforeTrap counted fails).g.iss.pc
      (s.beforeTrap counted fails).g.iss.word s.g.retired).g.lane l =
      if l ∈ s.g.lanesOf T then { (s.g.failed counted fails).lane l with st := .trapped } else (s.g.failed counted fails).lane l := by
    rw [hg, ← hlanes, ← State.beforeTrap_g]
    exact Grp.trapping_lane _ _ _
  have hpc (l : Nat) : ((s.g.failed counted fails).lane l).pc = if l ∈ fails.map (·.1) then s.g.iss.pc else (s.g.lane l).pc := by
    rw [((s.g.failed_lane counted fails l).1), hkept]
    simp only [hmem fails (fun _ h => h) l]
  have hst (l : Nat) : ((s.g.failed counted fails).lane l).st = (s.g.lane l).st := (s.g.failed_lane counted fails l).2
  have hTl (l : Nat) : l ∈ s.g.lanesOf T ↔ ∃ x ∈ fails, x.1 = l ∧ x.2.cause = f0.cause := by
    rw [← hT, hmem _ (fun x hx => (List.mem_filter.mp hx).1), List.mem_map]
    simp only [List.mem_filter, beq_iff_eq]
    exact ⟨fun ⟨x, ⟨h1, h2⟩, h3⟩ => ⟨x, h1, h3, h2⟩, fun ⟨x, h1, h3, h2⟩ => ⟨x, ⟨h1, h2⟩, h3⟩⟩
  refine ⟨⟨_, by rw [hg], rfl, ?_, ?_, rfl⟩, fun x hx => ?_, fun l hl => ?_⟩
  · rw [State.trapHandler, State.beforeTrap_g, Grp.failed_iss]
  · rw [State.trapHandler, State.beforeTrap_g, Grp.failed_iss]
  · have hx1 : x.1 ∈ fails.map (·.1) := List.mem_map_of_mem hx
    have hc : x.1 ∈ s.g.lanesOf T ↔ x.2.cause = f0.cause := by
      rw [hTl]
      refine ⟨fun ⟨y, hy, he, h⟩ => ?_, fun h => ⟨x, hx, rfl, h⟩⟩
      rwa [List.inj_on_of_nodup_map hn hy hx he] at h
    rw [hlane]
    by_cases h : x.2.cause = f0.cause
    · rw [if_pos (hc.mpr h), if_pos h]
      exact ⟨(hpc _).trans (if_pos hx1), rfl⟩
    · rw [if_neg (mt hc.mp h), if_neg h]
      exact ⟨(hpc _).trans (if_pos hx1), hst _⟩
  · rw [hlane, if_neg fun h => ?_]
    · exact ⟨(hpc l).trans (if_neg hl), hst l⟩
    · obtain ⟨x, hx, rfl, -⟩ := (hTl l).mp h
      exact hl (List.mem_map_of_mem hx)

/-! ### A trap without a handler (R409, R423) -/

theorem State.sameGrids_abandonEpoch (s : State) (k : Nat) : s.SameGrids (s.abandonEpoch k) :=
  (State.SameGrids.foldl (fun t _ => ((t.sameGrids_meet _ _ _).trans (State.sameGrids_gather _ _)).trans
    (State.calm_applyWord _ _ _ _ _ _ _ _ _ _ _).sameGrids) _ _).trans ⟨rfl, rfl, rfl, rfl⟩

theorem State.sameGrids_unlockLines (s : State) (ls : List Nat) : s.SameGrids (s.unlockLines ls) :=
  .foldl (fun t _ => t.sameGrids_send _) _ _

/-- The end of a grid that has still to end leaves the other grids, and puts its cause into the grid. -/
theorem State.endGrid_grids {s : State} {k : Nat} (h1 : (s.gridAt k).phase ≠ .ended) (h2 : (s.gridAt k).phase ≠ .done) (cause info : Nat) :
    ∃ (u : State) (gr : Grid), u.grids = s.grids ∧ gr.phase = .ended ∧ gr.cause = BitVec.ofNat 16 cause ∧
      s.endGrid k cause info = u.setGridAt k gr := by
  have hn : ¬((s.gridAt k).phase == .ended || (s.gridAt k).phase == .done) = true := by simp [h1, h2]
  unfold State.endGrid
  dsimp only
  rw [if_neg hn]
  refine ⟨_, _, ?_, rfl, rfl, rfl⟩
  show State.grids (List.foldl _ _ _) = _
  refine List.foldlRecOn (motive := fun t : State => t.grids = s.grids) _ _
    ((s.sameGrids_abandonEpoch k).trans (State.sameGrids_unlockLines _ _)).grids fun t h e _ => ?_
  split <;> exact h

/-- A group of a grid that has ended issues nothing. -/
theorem State.mayIssue_ended {s : State} {k : Nat} (h : (s.gridAt (s.teamAt (s.grpAt k).team).grid).phase = .ended) : s.mayIssue k = false := by
  unfold State.mayIssue
  simp [h]

/-- Settles O26: the trap entry without a handler is the end of the grid. -/
theorem trapWithoutHandler : Obligations.TrapWithoutHandler := by
  unfold Obligations.TrapWithoutHandler
  intro s T fl tpc tword tret hv h1 h2
  rw [State.trapEntry_unhandled hv]
  obtain ⟨u, gr, hu, hph, hc, e⟩ := State.endGrid_grids (s := s.setG (s.g.trapping T)) (k := s.foc.grid) h1 h2 fl.cause
    ((s.setG (s.g.trapping T)).trapInfo T fl)
  rw [e]
  have hself : (u.setGridAt s.foc.grid gr).gridAt s.foc.grid = gr := State.gridAt_setGridAt_self _ _ _
  refine ⟨by rw [hself, hph], by rw [hself, hc], fun k hk => ?_, fun k hk => State.mayIssue_ended ?_⟩
  · rw [State.gridAt_setGridAt, if_neg (Ne.symm hk), State.gridAt, hu]
    rfl
  · rw [hk, hself, hph]

/-! ### The handler's budget (R415) -/

theorem State.canEvict_handler {s : State} {grp team : Nat} {g : Grp} (hm : (grp, g) ∈ s.groups) (hp : g.phase = .running)
    (hh : g.handler.isSome = true) (ht : g.team ∈ s.setOf team) : s.canEvict team = false := by
  have hr : g ∈ s.running g.team := List.mem_map.mpr ⟨(grp, g), List.mem_filter.mpr ⟨hm, by simp [hp]⟩, rfl⟩
  have hb : g.blocked = false := by
    unfold Grp.blocked
    rw [Option.isNone_eq_false_iff.mpr hh, Bool.false_and]
  have ha : s.allBlocked team = false := by
    unfold State.allBlocked
    exact List.all_eq_false.mpr ⟨_, ht, by rw [List.all_eq_false.mpr ⟨g, hr, by rw [hb]; decide⟩]; decide⟩
  unfold State.canEvict
  simp [ha]

theorem Grp.issueClass_handler {g : Grp} (h : g.handler.isSome = true) : g.issueClass = 0 := if_pos h
theorem Grp.issueClass_pos {g : Grp} (h : g.handler = none) : 0 < g.issueClass := by
  unfold Grp.issueClass
  rw [h]
  split
  · contradiction
  · split <;> decide

theorem State.better_handler {s : State} {a b : Nat} (ha : (s.grpAt a).handler.isSome = true) (hb : (s.grpAt b).handler = none) :
    s.better a b = a ∧ s.better b a = a := by
  have hlt : (s.grpAt a).issueClass < (s.grpAt b).issueClass := by
    rw [Grp.issueClass_handler ha]
    exact Grp.issueClass_pos hb
  constructor <;> unfold State.better
  · exact if_pos hlt
  · exact (if_neg (Nat.lt_asymm hlt)).trans (if_pos hlt)

/-- Settles O28: the end of a handler's instruction, its run at a budget of 0, and what running handlers keep from eviction and choice. -/
theorem handlerBudget : Obligations.HandlerBudget := by
  unfold Obligations.HandlerBudget
  refine ⟨fun s h hh => ?_, fun s u p chk op h h1 h2 h3 hc hh hb ho hm => ?_, fun _ _ _ _ => State.canEvict_handler, fun _ _ _ => State.better_handler⟩
  · rw [State.g_retireH, Grp.handlerRetired, hh]
    exact ⟨_, rfl, rfl, rfl, rfl⟩
  · have hover : s.budgetOver = true := by
      rw [State.budgetOver, hh]
      exact beq_iff_eq.mpr hb
    rw [State.perform_runsH s p chk op ⟨h1, h2, h3⟩ hc u ho hm, State.handlerEnd, if_pos hover]

end Sys2Proof.Machine
end

section
/-! PROOFS. Transform words (O45): refuted. -/

namespace Sys2Proof.Machine

open Sys2Proof.Claims

/-! ### An XMATCH leaves the y registers

A result of the transform pipe does not shift y (R349), and `execXmatch` writes its pair of registers alone. The statement writes it as a
result of the vector datapath, which shifts y once for each word (R53). -/

/-- XMATCH v2, v0. -/
def matchOfV0 : VF := ⟨.v 2, .v 0, .v 0, .v 0, .b32, .lane, false, .none, 0⟩

/-- Whether y0 of lane 0 of the group in focus is valid, in the state that an outcome leaves. -/
def lane0Y0 : Out → Option Bool
  | .next t => some (t.g.lane 0).y0.valid
  | _ => none

theorem plainIssue_runsMatch : plainIssue.Runs anyLane (plainIssue.opsOk [(matchOfV0.d, 2), (matchOfV0.a, 1)]) := by decide +kernel

theorem plainIssue_xmatch : lane0Y0 (exec (.xmatch anyLane matchOfV0) plainIssue) = some false := by decide +kernel

theorem plainIssue_putVec : lane0Y0 (lanesOut plainIssue anyLane fun l x => x.putVec plainIssue.g.wb matchOfV0.d true
    ⟨(maskOf ((plainIssue.g.lanesOf (plainIssue.allowed anyLane)).filter fun j =>
        (plainIssue.g.regAt j matchOfV0.a 0).val == (plainIssue.g.regAt l matchOfV0.a 0).val)).toNat,
      (plainIssue.g.lanesOf (plainIssue.allowed anyLane)).any fun j => (plainIssue.g.regAt j matchOfV0.a 0).poi⟩) = some true := by
  decide +kernel

/-- Refutes O45: XMATCH of eight running lanes leaves y0 of lane 0 invalid, where the statement has it shifted. -/
theorem not_transforms : ¬ Obligations.Transforms := by
  unfold Obligations.Transforms
  intro h
  obtain ⟨-, -, hmatch, -⟩ := h anyLane matchOfV0 plainIssue
  have hy := plainIssue_xmatch
  rw [hmatch plainIssue_runsMatch] at hy
  exact absurd (plainIssue_putVec.symm.trans hy) (by decide)

end Sys2Proof.Machine
end

section
/-! PROOFS. Traversal (O48): refuted. -/

namespace Sys2Proof.Machine

open Sys2Proof.Claims

/-! ### A TABORT in no lane raises no flag

The set-flag of a traversal word counts an operation only where some lane did not fail (`State.rayOp`), and of no lanes at all none is
left. The statement on TRACE asks for a lane; that on TABORT does not, and raises the flag for an operation of no lanes. -/

/-- `strayIssue` in a block whose header names flag 0 for set-flag A. -/
def strayInBlock : State := strayIssue.setIss { strayIssue.g.iss with hdr := encodeHeader placeHeader }
/-- TABORT.sfa v1, v0. -/
def abortOfV0 : VF := ⟨.v 1, .v 0, .v 0, .v 0, .b32, .lane, false, .a, 0⟩

/-- The next identity of an operation, in the state that an outcome leaves. -/
def freshOf : Out → Option Nat
  | .next t => some t.nextId
  | _ => none

theorem strayInBlock_runs : strayInBlock.Runs anyLane (strayInBlock.opsOk [(abortOfV0.d, 1), (abortOfV0.a, 1)]) := by decide +kernel

theorem strayInBlock_flag : (eff strayInBlock anyLane).flagFull ((eff strayInBlock anyLane).sfNow abortOfV0.sf) = false := by decide +kernel

theorem strayInBlock_lanes : strayInBlock.g.lanesOf (strayInBlock.allowed anyLane) = [] := by decide +kernel

theorem strayInBlock_done : allDone (eff strayInBlock anyLane) (eff strayInBlock anyLane) (abortLane abortOfV0) [] (fun _ => 0) (fun _ => [])
    fun _ => 0 := ⟨rfl, rfl⟩

theorem strayInBlock_tabort : freshOf (exec (.tabort anyLane abortOfV0) strayInBlock) = some 0 := by decide +kernel

theorem strayInBlock_rayOut : freshOf (rayOut abortOfV0 (eff strayInBlock anyLane) [] (fun _ => 0) (fun _ => []) fun _ => 0) = some 1 := by
  decide +kernel

/-- Refutes O48: with an issue set that names lane 8 of eight lanes, no lane aborts a traversal, and TABORT gives no operation of its
set-flag an identity, where the statement takes the next one. -/
theorem not_traversal : ¬ Obligations.Traversal := by
  rintro ⟨hwords, -⟩
  obtain ⟨-, -, -, habort, -⟩ := hwords anyLane abortOfV0 strayInBlock (eff strayInBlock anyLane) (fun _ => 0) (fun _ => []) fun _ => 0
  simp only [strayInBlock_lanes] at habort
  have hid := strayInBlock_tabort
  rw [habort strayInBlock_runs strayInBlock_flag strayInBlock_done] at hid
  exact absurd (strayInBlock_rayOut.symm.trans hid) (by decide)

end Sys2Proof.Machine
end

section
/-! PROOFS. The radiance cache (O49): refuted. -/

namespace Sys2Proof.Machine

open Sys2Proof.Claims

/-! ### A sample without room is not kept

Where the spill region has no room for a sample of a DET grid, `State.enqueue` leaves the grid without it (the grid is about to end with
its cause). The statement answers the state that holds the sample. -/

/-- `plainIssue` under a DET grid, whose context has no spill region. -/
def detIssue : State := plainIssue.modGr fun g => { g with lrec := { g.lrec with flags := 1 } }
/-- Eleven words of zeros. -/
def zeroSample : List Nat := List.replicate 11 0

theorem detIssue_det : detIssue.gr.det = true := by decide +kernel

theorem detIssue_trains : detIssue.c.rcFreeze = false := by decide +kernel

theorem detIssue_enqueue : (detIssue.enqueue 0 zeroSample).1.gr.samples.length = 0 ∧ (detIssue.enqueue 0 zeroSample).2 = false := by
  decide +kernel

/-- Refutes O49: a DET grid without a spill region drops its first sample, where the statement has it appended to the grid's samples. -/
theorem not_radianceCache : ¬ Obligations.RadianceCache := by
  rintro ⟨-, -, hsamples, -⟩
  obtain ⟨q, -, -, -, -, -, -, -, -, -, -, hdet, -⟩ := hsamples detIssue 0 zeroSample rfl (by decide) (by decide +kernel)
  obtain ⟨hnone, hfull⟩ := detIssue_enqueue
  rw [hdet detIssue_trains detIssue_det] at hnone hfull
  split at hfull
  · next hover =>
    simp only [if_pos hover] at hnone
    rw [State.gr_modGr] at hnone
    simp at hnone
  · cases hfull

end Sys2Proof.Machine
end

section
/-! PROOFS. Collectives (O42). -/

namespace Sys2Proof.Machine

open Sys2Proof.Claims

/-! ### The words at their issue (R332, R333) -/

/-- A run of memory that is read whole goes on with its bytes. -/
theorem State.withRun_of_readsRun {s t : State} {acc : Acc} {act : Mask} {va : W64} {n : Nat} {bs : List Byte}
    (h : readsRun s t acc act va n bs) (k : State → List Byte → Did) : s.withRun acc act va n k = k t bs := by
  obtain ⟨u, ps, r, he, rfl, hw, hb, rfl, rfl⟩ := h
  exact State.withRun_clean k he hw hb

theorem exec_collRow {i : Instr} {p : Pred} {f : MF} {kind : CollKind} (h : collRow i = some (p, f, kind)) (s : State) :
    exec i s = s.collOp p f kind := by
  unfold collRow at h
  split at h <;> cases h <;> rfl

theorem collectiveWordsHold_holds : collectiveWordsHold := by
  intro i p f kind s u v w x b m ps bar hi hr hc act desc ha hb hv hbar c hm hx y hd hu
  rw [exec_collRow hi]
  refine State.perform_done s false p _ _ hr _ ?_ hu
  have hdesc : ((eff s p).g.areg f.a.aIdx).baseva + BitVec.ofNat 64 (((eff s p).rd 0 .n32 f.b).n % 2 ^ 32) = desc := by
    rw [State.rd_atIssue, State.atIssue_g, Grp.areg_advance, Nat.mod_eq_of_lt (show (s.rd 0 .n32 f.b).n < 2 ^ 32 from s.rd_lt 0 .n32 f.b)]
  dsimp only
  rw [find_poison_of_clean hc]
  dsimp only
  rw [hdesc, if_neg (by rw [ha]; decide), State.withRun_of_readsRun hb, hv]
  dsimp only
  rw [hbar]
  dsimp only
  rw [State.withRun_of_readsRun hm, hx]
  exact State.orWait_of_drained _ _ hd

/-! ### The collective that is next (R334, R335, R459, R460) -/

theorem State.barLand_met (s : State) (b : BarName) (n : Nat) : (s.barLand b n).met = s.met := by
  unfold State.barLand
  split
  · rfl
  · exact State.barUpdate_met _ _ _

theorem State.collCount_met (s : State) (c : Coll) (nf : Bool) : (s.collCount c nf).met = s.met := by
  unfold State.collCount
  refine (State.barLand_met _ _ _).trans ?_
  split <;> rfl

theorem CollSt.put_wait (r : CollSt) (c : Coll) (va : W64) (bs : List Byte) (poi : Bool) : (r.put c va bs poi).wait = r.wait := by
  unfold CollSt.put
  split <;> rfl

theorem CollSt.status_wait (r : CollSt) (c : Coll) (v : Nat) : (r.status c v).wait = r.wait :=
  List.foldlRecOn (motive := fun q : CollSt => q.wait = r.wait) _ _ rfl fun q h _ _ => (q.put_wait c _ _ _).trans h

section
variable {s : State} {team : Nat} {c : Coll} (hn : s.nextColl = some (team, c)) (peers : List PeerPart)
include hn

/-- A collective that has run counts its bytes once its writes have performed. -/
theorem collectiveCompletion_ran {nf : Bool} (hran : c.ran = some nf) :
    exec (.collectiveCompletion team c.id peers) s =
      if (s.focusTeam team).collOut team c.id then .next (s.focusTeam team)
      else .next (((s.focusTeam team).collCount c nf).dropColl team c.id).bump := by
  show execCollectiveCompletion team c.id peers s = _
  unfold execCollectiveCompletion
  rw [hn]
  simp only [hran, bne_self_eq_false, Bool.or_self, Bool.false_eq_true, if_false]

/-- One that cannot run as yet keeps what its accesses left. -/
theorem collectiveCompletion_waits {q : CollSt} {nf : Bool} (hran : c.ran = none) (hq : (s.focusTeam team).collWhole c peers = (q, nf))
    (hw : q.wait = true) (hm : unheld s q.s) : exec (.collectiveCompletion team c.id peers) s = .next q.s := by
  show execCollectiveCompletion team c.id peers s = _
  unfold execCollectiveCompletion
  rw [hn]
  simp only [hran, hq, hw, bne_self_eq_false, Bool.or_self, Bool.false_eq_true, if_false, if_true]
  exact congrArg _ (State.unmet_eq hm)

/-- One that runs without a record counts its bytes, or waits for its writes to perform. -/
theorem collectiveCompletion_runs {q : CollSt} {nf : Bool} (hran : c.ran = none) (hq : (s.focusTeam team).collWhole c peers = (q, nf))
    (hw : q.wait = false) (hm : unheld s q.s) (hrecs : q.recs = []) :
    exec (.collectiveCompletion team c.id peers) s =
      .next (if q.s.collOut team c.id then q.s.setColl team { c with ran := some nf } else ((q.s.collCount c nf).dropColl team c.id).bump) := by
  show execCollectiveCompletion team c.id peers s = _
  unfold execCollectiveCompletion
  rw [hn]
  simp only [hran, hq, hw, hrecs, bne_self_eq_false, Bool.or_self, Bool.false_eq_true, if_false, List.drop_nil, List.length_nil, Nat.not_lt_zero]
  refine congrArg _ (State.unmet_eq ?_)
  split
  · exact hm
  · exact (State.collCount_met _ _ _).trans hm

theorem collectiveCompletion_settles {q : CollSt} {nf : Bool} (hran : c.ran = none) (hq : (s.focusTeam team).collWhole c peers = (q, nf))
    (hw : q.wait = false) (hm : unheld s q.s) (hrecs : q.recs = []) :
    (q.s.collOut team c.id = false → exec (.collectiveCompletion team c.id peers) s = .next ((q.s.collCount c nf).dropColl team c.id).bump) ∧
    (q.s.collOut team c.id = true → exec (.collectiveCompletion team c.id peers) s = .next (q.s.setColl team { c with ran := some nf })) := by
  rw [collectiveCompletion_runs hn peers hran hq hw hm hrecs]
  exact ⟨fun h => by rw [h]; rfl, fun h => by rw [h]; rfl⟩

end

/-! ### What the engine makes of a record and of the ranks' shares -/

section
variable {s : State} {c : Coll} {r : CollSt} {b : List (Nat × Bool)} (peers : List PeerPart)

/-- A bad record: STATUS 2 alone, and the step's bit. -/
theorem State.collWhole_bad (hr : CollSt.read { s } c c.comm 1 64 = (r, b)) (hw : r.wait = false)
    (hb : (readComm c.comm (b.map fun x => BitVec.ofNat 8 x.1)).bad = true) :
    s.collWhole c peers = (CollSt.status { r with s := r.s.setStepBit c } c 2, false) := by
  unfold State.collWhole
  rw [hr]
  simp only [hw, hb, Bool.true_or, Bool.false_eq_true, if_false, if_true]

variable (hr : CollSt.read { s } c c.comm 1 64 = (r, b)) (hw : r.wait = false) (hp : ∀ x ∈ b, x.2 = false)
  {m : Comm} (hm : m = readComm c.comm (b.map fun x => BitVec.ofNat 8 x.1)) (hb : m.bad = false)
  (hu : c.kind = .update → 4 * (sliceOf c.count m.nrank m.myrank).2 ≤ m.shard) {z : CollSt} {ids : List (Nat × Bool)}
  (hz : r.read c m.ranks 1 (2 * m.nrank) = (z, ids)) (hzw : z.wait = false) (hids : ∀ x ∈ ids, x.2 = false)
include hr hw hp hm hb hu hz hzw hids

/-- A good record: what is left to decide once RANKS is read. -/
theorem State.collWhole_good : s.collWhole c peers =
    if !sharesIn m (rankChips m ids) peers then ({ z with wait := true }, false)
    else if peers.any (fun x => !c.agrees x) then (CollSt.status { z with s := z.s.setStepBit c } c 2, false)
    else
      let q := z.run c m peers
      if q.1.wait then (q.1, false) else (CollSt.status (if q.2.1 then { q.1 with s := q.1.s.setStepBit c } else q.1) c q.2.2, q.2.1) := by
  have hpoi : b.any (·.2) = false := List.any_eq_false.mpr fun x hx => by rw [hp x hx]; decide
  have hids' : ids.any (·.2) = false := List.any_eq_false.mpr fun x hx => by rw [hids x hx]; decide
  have hshard : (c.kind == .update && decide (m.shard < 4 * (sliceOf c.count m.nrank m.myrank).2)) = false := by
    rw [Bool.and_eq_false_iff, beq_eq_false_iff_ne, decide_eq_false_iff_not, ← imp_iff_not_or]
    exact fun h => Nat.not_lt.mpr (hu h)
  unfold State.collWhole
  rw [hr]
  simp only [hw, ← hm, hb, hpoi, hshard, hz, hzw, hids', Bool.or_self, Bool.false_eq_true, if_false]

theorem State.collWhole_short (hs : sharesIn m (rankChips m ids) peers = false) : s.collWhole c peers = ({ z with wait := true }, false) := by
  rw [State.collWhole_good peers hr hw hp hm hb hu hz hzw hids, hs]
  rfl

theorem State.collWhole_mismatch (hs : sharesIn m (rankChips m ids) peers = true)
    (hx : ∃ x ∈ peers, x.agree = false ∨ ∃ y ∈ x.trailers, y.step ≠ c.step) :
    s.collWhole c peers = (CollSt.status { z with s := z.s.setStepBit c } c 2, false) := by
  have hany : peers.any (fun x => !c.agrees x) = true := by
    obtain ⟨x, hm, h⟩ := hx
    refine List.any_eq_true.mpr ⟨x, hm, ?_⟩
    rw [Bool.not_eq_true', Coll.agrees, Bool.and_eq_false_iff]
    exact h.imp_right fun ⟨y, hy, hne⟩ => List.all_eq_false.mpr ⟨y, hy, by rwa [beq_iff_eq]⟩
  rw [State.collWhole_good peers hr hw hp hm hb hu hz hzw hids, hs, hany]
  rfl

theorem State.collWhole_runs (hs : sharesIn m (rankChips m ids) peers = true)
    (hx : ∀ x ∈ peers, x.agree = true ∧ ∀ y ∈ x.trailers, y.step = c.step) {w : CollSt} {nf : Bool} {st : Nat}
    (hrun : z.run c m peers = (w, nf, st)) (hww : w.wait = false) :
    s.collWhole c peers = (CollSt.status (if nf then { w with s := w.s.setStepBit c } else w) c st, nf) := by
  have hany : peers.any (fun x => !c.agrees x) = false := by
    refine List.any_eq_false.mpr fun x hm => ?_
    obtain ⟨ha, ht⟩ := hx x hm
    rw [Coll.agrees, ha, List.all_eq_true.mpr fun y hy => beq_iff_eq.mpr (ht y hy)]
    decide
  rw [State.collWhole_good peers hr hw hp hm hb hu hz hzw hids, hs, hany, hrun]
  simp only [hww, Bool.not_true, Bool.false_eq_true, if_false]

end

theorem collectiveRunsHold_holds : collectiveRunsHold := by
  intro team c peers s hn _ u settles
  have hset {q : CollSt} {nf : Bool} (hran : c.ran = none) (hq : u.collWhole c peers = (q, nf)) (hw : q.wait = false) : settles q nf :=
    fun hm hrecs => collectiveCompletion_settles hn peers hran hq hw hm hrecs
  refine ⟨fun nf hran => ?_, fun r b hran hr hw => ?_⟩
  · rw [collectiveCompletion_ran hn peers hran]
    exact ⟨fun h => if_neg (by rw [h]; decide), fun h => if_pos h⟩
  intro m
  refine ⟨fun hb => ?_, fun z ids hp hb hu hz hzw hids => ⟨fun hs hm => ?_, fun hs => ⟨fun hx w nf st hrun hww => ?_, fun hx => ?_⟩⟩⟩
  · exact hset hran (State.collWhole_bad peers hr hw hb) ((CollSt.status_wait _ _ _).trans hw)
  · exact collectiveCompletion_waits (q := { z with wait := true }) hn peers hran (State.collWhole_short peers hr hw hp rfl hb hu hz hzw hids hs) rfl hm
  · refine hset hran (State.collWhole_runs peers hr hw hp rfl hb hu hz hzw hids hs hx hrun hww) ((CollSt.status_wait _ _ _).trans ?_)
    split <;> exact hww
  · exact hset hran (State.collWhole_mismatch peers hr hw hp rfl hb hu hz hzw hids hs hx) ((CollSt.status_wait _ _ _).trans hzw)

/-- Settles O42: the checks of a collective word one after another, and the engine's run by the record and the shares that it finds. -/
theorem collectives : Obligations.Collectives := ⟨collectiveWordsHold_holds, collectiveRunsHold_holds⟩

end Sys2Proof.Machine
end

section
/-! PROOFS. Coverage, edges and textures (O47). -/

namespace Sys2Proof.Machine

open Sys2Proof.Claims

/-! ### Coverage and edges (R368, R369) -/

theorem Grp.vReg_advance (g : Grp) (l j : Nat) : g.advance.vReg l j = g.vReg l j := by
  rw [Grp.vReg, Grp.advance_lane, Grp.advance_wb, Grp.vReg]

theorem rcov_covers {s : State} {p : Pred} {f : VF} (hr : s.Runs p (s.opsOk [(f.d, 3), (f.b, 2)])) :
    let sv (i : Nat) : Val := s.g.sVal (f.a.sIdx + i)
    let c (env : FpEnv) : List Fx := ((List.range 6).flatMap fun i => [(sv i).n % 2 ^ 32, (sv i).n / 2 ^ 32]).map (Fx.op env)
    let xr (l j : Nat) : Reg := s.g.vReg l (f.b.vIdx + j)
    let poi (l : Nat) : Bool := (List.range 6).any (fun i => (sv i).poi) || (xr l 0).poi || (xr l 1).poi
    let res (l : Nat) : Bool × List Fx :=
      let env := fpEnv (s.g.lane l).fpl f.rmo
      rcovLane env (c env) (.op env (xr l 0).val.toNat) (.op env (xr l 1).val.toNat)
    exec (.rcov p f) s = groupOut s p fun g =>
      (g.modLanes (g.lanesOf (s.allowed p)) fun l x => x.putFx s.g.wb f.d (res l).2 0 (poi l)).putM f.c.mIdx (s.allowed p)
        (maskOf ((s.g.lanesOf (s.allowed p)).filter fun l => (res l).1)) (maskOf ((s.g.lanesOf (s.allowed p)).filter poi)) := by
  intro sv c xr poi res
  show execRcov p f s = _
  unfold execRcov
  refine (State.perform_done s false p _ _ hr (_) rfl ?_).trans ?_
  · exact State.atIssue_met s _
  simp only [groupOut, State.modG, State.atIssue_g, Grp.advance_wb, Grp.sVal_advance, Grp.vReg_advance, Grp.fpl_advance, Grp.lanesOf_advance]
  rfl

theorem esmp_samples {s : State} {p : Pred} {f : VF} (hr : s.Runs p (s.opsOk [(f.d, 6)])) (h0 : (s.g.sVal f.a.sIdx).poi = false)
    (h1 : (s.g.sVal (f.a.sIdx + 1)).poi = false) :
    exec (.esmp p f) s = lanesOut s p fun l x =>
      let env := fpEnv x.fpl f.rmo
      let w (j hi : Nat) : Fx := .op env ((s.g.sVal (f.a.sIdx + j)).n / 2 ^ (32 * hi) % 2 ^ 32)
      { x with ctr := x.ctr + 1 }.putFx s.g.wb f.d (esmpLane env (w 0 0) (w 0 1) (w 1 0) (w 1 1) (s.draw l x)) 0 false := by
  show execEsmp p f s = _
  rw [execEsmp, State.perLane_eq_lanesOut _ hr]
  simp only [State.sVal_atIssue, State.draw_atIssue, State.atIssue_wb, Nat.add_zero, h0, h1, Bool.or_self, Bool.false_eq_true, if_false]

/-! ### Texels fetched (R372) -/

/-- The channels of a texel that is fetched without a fault, as a lane keeps them; the fold of `State.fetchTaps` goes on with them. -/
def State.fetchTap (f : VF) (t : TexRec) (env : FpEnv) (l level : Nat) (z : State × List (List Fx) × List LaneFlt × List Nat)
    (tap : Option (Nat × Nat)) : State × List (List Fx) × List LaneFlt × List Nat :=
  match z.1.fetchTexel f t l level tap with
  | (s, .got bs) => (s, z.2.1 ++ [if tap.isSome then t.channels env bs else List.replicate 4 .zero], z.2.2.1, z.2.2.2)
  | (s, .flt e) => (s, z.2.1 ++ [List.replicate 4 .zero], z.2.2.1 ++ [e], z.2.2.2)
  | (s, .wait id) => (s, z.2.1, z.2.2.1, z.2.2.2 ++ [id])
  | (s, _) => (s, z.2.1, z.2.2.1, z.2.2.2)

/-- The same for a level. -/
def State.fetchLevel (f : VF) (t : TexRec) (env : FpEnv) (l : Nat) (x : State × Taps × List LaneFlt × List Nat) (y : Option Samp × Fx) :
    State × Taps × List LaneFlt × List Nat :=
  match y.1 with
  | none => (x.1, x.2.1 ++ [[]], x.2.2.1, x.2.2.2)
  | some p =>
    let r := p.taps.foldl (State.fetchTap f t env l p.level) (x.1, [], x.2.2.1, x.2.2.2)
    (r.1, x.2.1 ++ [r.2.1], r.2.2.1, r.2.2.2)

theorem State.fetchTaps_eq (s : State) (f : VF) (t : TexRec) (env : FpEnv) (l : Nat) (ls : List (Option Samp × Fx)) :
    s.fetchTaps f t env l ls = ls.foldl (State.fetchLevel f t env l) (s, [], [], []) := rfl

theorem State.fetchTap_of_tapRead {f : VF} {t : TexRec} {env : FpEnv} {l level : Nat} {tap : Option (Nat × Nat)} {s u : State} {v : List Fx}
    (h : tapRead f t env l level tap s u v) (T : List (List Fx)) :
    State.fetchTap f t env l level (s, T, [], []) tap = (u, T ++ [v], [], []) := by
  unfold State.fetchTap
  rcases h with ⟨rfl, rfl, rfl⟩ | ⟨i, bs, rfl, he, rfl⟩
  · rfl
  · dsimp only
    rw [he]
    rfl

theorem State.fetchTap_of_tapsRead {f : VF} {t : TexRec} {env : FpEnv} {l level : Nat} {taps : List (Option (Nat × Nat))} {s u : State}
    {T : List (List Fx)} (h : tapsRead f t env l level taps s u T) (T0 : List (List Fx)) :
    taps.foldl (State.fetchTap f t env l level) (s, T0, [], []) = (u, T0 ++ T, [], []) := by
  induction taps generalizing s T T0 with
  | nil =>
    obtain ⟨rfl, rfl⟩ := h
    rw [List.append_nil]
    rfl
  | cons x xs ih =>
    obtain ⟨m, v, T', hx, hxs, rfl⟩ := h
    rw [List.foldl_cons, State.fetchTap_of_tapRead hx, ih hxs, List.append_assoc]
    rfl

theorem State.fetchLevel_of_levelsRead {f : VF} {t : TexRec} {env : FpEnv} {l : Nat} {ls : List (Option Samp × Fx)} {s u : State} {T : Taps}
    (h : levelsRead f t env l ls s u T) (T0 : Taps) : ls.foldl (State.fetchLevel f t env l) (s, T0, [], []) = (u, T0 ++ T, [], []) := by
  induction ls generalizing s T T0 with
  | nil =>
    obtain ⟨rfl, rfl⟩ := h
    rw [List.append_nil]
    rfl
  | cons x xs ih =>
    obtain ⟨m, v, T', hx, hxs, rfl⟩ := h
    have hstep : State.fetchLevel f t env l (s, T0, [], []) x = (m, T0 ++ [v], [], []) := by
      unfold State.fetchLevel
      cases hp : x.1 with
      | none =>
        rw [hp] at hx
        obtain ⟨rfl, rfl⟩ := hx
        rfl
      | some p =>
        rw [hp] at hx
        dsimp only at hx ⊢
        rw [State.fetchTap_of_tapsRead hx]
        rfl
    rw [List.foldl_cons, hstep, ih hxs, List.append_assoc]
    rfl

/-- Every texel of a lane fetched without a fault. -/
theorem State.fetchTaps_of_levelsRead {f : VF} {t : TexRec} {env : FpEnv} {l : Nat} {ls : List (Option Samp × Fx)} {s u : State} {T : Taps}
    (h : levelsRead f t env l ls s u T) : s.fetchTaps f t env l ls = (u, T, [], []) := by
  rw [State.fetchTaps_eq, State.fetchLevel_of_levelsRead h []]
  rfl

/-! ### A lane of a texture word (R371 to R374) -/

section
variable {f : VF} {t : TexRec} {lam adj : Bool} {l : Nat} {s u : State} {T : Taps}

theorem State.texOne_poisoned (hp : (s.texLane f lam adj (fpEnv (s.g.lane l).fpl f.rmo) l).poi = true) :
    s.texOne f t lam adj l = (s, { lane := l, rs := List.replicate (if adj then (if lam then 3 else 2) else 4) .nan, poi := true }, [], [], []) :=
  if_pos hp

theorem State.texOne_filtered (hp : (s.texLane f lam adj (fpEnv (s.g.lane l).fpl f.rmo) l).poi = false) (ha : adj = false) :
    let env := fpEnv (s.g.lane l).fpl f.rmo
    let plan := t.plan env (s.texLane f lam adj env l)
    levelsRead f t env l plan.1 s u T →
    s.texOne f t lam adj l = (u, { lane := l, rs := texResult env plan.1 T, fl := plan.2 }, [], [], []) := by
  intro env plan h
  subst ha
  unfold State.texOne
  dsimp only
  rw [hp, if_neg Bool.false_ne_true, Bool.false_and, if_neg Bool.false_ne_true, State.fetchTaps_of_levelsRead h]
  rfl

theorem State.texOne_unplaced (hp : (s.texLane f lam adj (fpEnv (s.g.lane l).fpl f.rmo) l).poi = false) (ha : adj = true) :
    let env := fpEnv (s.g.lane l).fpl f.rmo
    let plan := t.plan env (s.texLane f lam adj env l)
    (∃ y ∈ plan.1, y.1 = none) →
    s.texOne f t lam adj l = (s, { lane := l, rs := List.replicate (if adj then (if lam then 3 else 2) else 4) .nan, fl := plan.2 }, [], [], []) := by
  intro env plan ⟨y, hy, hn⟩
  subst ha
  have hany : plan.1.any (fun z => z.1.isNone) = true := List.any_eq_true.mpr ⟨y, hy, by rw [hn]; rfl⟩
  unfold State.texOne
  dsimp only
  rw [hp, if_neg Bool.false_ne_true, Bool.true_and, if_pos hany]

theorem State.texOne_adjoint (hp : (s.texLane f lam adj (fpEnv (s.g.lane l).fpl f.rmo) l).poi = false) (ha : adj = true) :
    let env := fpEnv (s.g.lane l).fpl f.rmo
    let x := s.texLane f lam adj env l
    let plan := t.plan env x
    (∀ y ∈ plan.1, y.1 ≠ none) → levelsRead f t env l plan.1 s u T →
    ∀ v rs, u.mapReds l (texScatter t env x plan.1) = (v, rs, []) →
    s.texOne f t lam adj l = (v, { lane := l, rs := texDerivs t env x plan.1 T, fl := plan.2 ||| flagsIn ((texScatter t env x plan.1).map (·.2)),
                                   reds := rs }, [], [], []) := by
  intro env x plan hall h v rs hm
  subst ha
  have hany : plan.1.any (fun z => z.1.isNone) = false :=
    List.any_eq_false.mpr fun y hy hn => hall y hy (Option.isNone_iff_eq_none.mp hn)
  unfold State.texOne
  dsimp only
  rw [hp, if_neg Bool.false_ne_true, Bool.true_and, if_neg (by rw [hany]; decide), State.fetchTaps_of_levelsRead h]
  dsimp only
  rw [hm]
  rfl

end

/-! ### A nearest sample (R371, R373) -/

section
variable {t : TexRec} {env : FpEnv} {x : TexLane} (hb : t.bil = false) (hl : x.lam = none)
include hl

theorem TexRec.plan_unlevelled : t.plan env x = ([((t.sample env 0 x.x x.y).1, .one)], 0 ||| (t.sample env 0 x.x x.y).2) := by
  unfold TexRec.plan
  rw [hl]
  rfl

theorem TexRec.plan_infinite (h : x.x.x.isFin = false ∨ x.y.x.isFin = false) :
    ∃ fl, t.plan env x = ([(none, .one)], fl) ∧ fl &&& fNV = fNV ∧ ∀ T, texResult env [(none, .one)] T = List.replicate 4 .nan := by
  have hs : t.sample env 0 x.x x.y = (none, fNV ||| nvOf [x.x.x, x.y.x]) := if_pos (by simpa using h)
  refine ⟨_, by rw [TexRec.plan_unlevelled hl, hs], ?_, fun T => rfl⟩
  show (0#32 ||| (fNV ||| _)) &&& fNV = fNV
  rw [BitVec.zero_or]
  exact BitVec.eq_of_getLsbD_eq fun i _ => by simpa using Or.inl

include hb in
theorem TexRec.plan_nearest (hx : x.x.x.isFin = true) (hy : x.y.x.isFin = true) (hw : 1 ≤ t.w) (hh : 1 ≤ t.h) :
    ∃ p, t.plan env x = ([(some p, .one)], 0) ∧ p.level = 0 ∧ p.taps = [t.at' 0 (floorNum (mulNat x.x.x t.w)) (floorNum (mulNat x.y.x t.h))] ∧
      p.fr = none ∧ ∀ T : List Fx, T.length = 4 → texResult env [(some p, .one)] [[T]] = T.map (fxDeliver env) := by
  have hlw : t.lw 0 = t.w := by rw [TexRec.lw, Nat.pow_zero, Nat.div_one, Nat.max_eq_right hw]
  have hlh : t.lh 0 = t.h := by rw [TexRec.lh, Nat.pow_zero, Nat.div_one, Nat.max_eq_right hh]
  have hs : t.sample env 0 x.x x.y =
      (some { level := 0, taps := [t.at' 0 (floorNum (mulNat x.x.x t.w)) (floorNum (mulNat x.y.x t.h))], ws := [.one] }, 0) := by
    unfold TexRec.sample
    rw [hx, hy, hb, hlw, hlh]
    rfl
  refine ⟨_, by rw [TexRec.plan_unlevelled hl, hs]; exact congrArg _ BitVec.zero_or, rfl, rfl, rfl, fun T hT => ?_⟩
  obtain ⟨a, b, c, d, rfl⟩ := List.length_eq_four.mp hT
  rfl

end

theorem wrapTexel_clamp {n : Nat} (hn : 1 ≤ n) (i : Int) : wrapTexel 1 n i = some (if i < 0 then 0 else if i < n then i.toNat else n - 1) := by
  show some (min (max i 0) ((n : Int) - 1)).toNat = _
  congr 1
  split_ifs <;> omega

theorem wrapTexel_mirror {n k r : Nat} (hr : r < n) :
    wrapTexel 2 n (2 * n * k + r) = some r ∧ wrapTexel 2 n (2 * n * k + n + r) = some (n - 1 - r) := by
  have hmod (j : Nat) (hj : j < 2 * n) : ((2 * n * k + j : Int) % (2 * n : Nat)).toNat = j := by
    rw [Nat.cast_mul, Nat.cast_ofNat, Int.add_comm, Int.add_mul_emod_self_left, Int.emod_eq_of_lt (by omega) (by omega), Int.toNat_natCast]
  constructor
  · show some (if ((2 * n * k + r : Int) % (2 * n : Nat)).toNat < n then _ else _) = _
    rw [hmod r (by omega), if_pos hr]
  · show some (if ((2 * n * k + n + r : Int) % (2 * n : Nat)).toNat < n then _ else _) = _
    rw [add_assoc, ← Nat.cast_add, hmod (n + r) (by omega), if_neg (by omega)]
    exact congrArg some (by omega)

theorem texLanesHold_holds : texLanesHold := by
  refine ⟨fun f t lam adj l s u T => ⟨State.texOne_poisoned, State.texOne_filtered, State.texOne_unplaced, State.texOne_adjoint⟩,
    fun t env x hb hl => ⟨fun hx hy => TexRec.plan_nearest hb hl hx hy, TexRec.plan_infinite hl⟩,
    fun n i hn => ⟨rfl, wrapTexel_clamp hn i, fun k r => wrapTexel_mirror, ?_⟩⟩
  unfold wrapTexel
  simp only [Bool.and_eq_true, decide_eq_true_iff]

/-! ### What a texture word leaves of its issue -/

theorem State.sameCounts_modG (s : State) {f : Grp → Grp} (hi : (f s.g).iss = s.g.iss) (hr : (f s.g).retired = s.g.retired) :
    s.SameCounts (s.modG f) := by
  refine ⟨rfl, rfl, fun k => ?_⟩
  rw [show (s.modG f).grpAt k = if s.foc.grp = k then f s.g else s.grpAt k from State.grpAt_setGrpAt _ _ _ _]
  split
  · next e => exact e ▸ ⟨hi, hr⟩
  · exact ⟨rfl, rfl⟩

theorem State.sameCounts_logBlock (s : State) (kind : LogKind) (a : Nat) (bs : List Byte) (poi : Bool) : s.SameCounts (s.logBlock kind a bs poi) := by
  unfold State.logBlock
  dsimp only
  split
  · exact .refl s
  · exact State.SameCounts.trans (t := s.logEntry kind a bs [poi]) ⟨rfl, rfl, fun _ => ⟨rfl, rfl⟩⟩ (State.sameCounts_modG _ rfl rfl)

theorem State.sameCounts_logRead (s : State) (kind : LogKind) (a : Nat) (bs : List Byte) (poi : Bool) : s.SameCounts (s.logRead kind a bs poi) := by
  unfold State.logRead
  split
  · exact .refl s
  · exact .foldl (fun _ _ => State.sameCounts_logBlock _ _ _ _ _) _ _

theorem State.sameWidths_logBlock (s : State) (kind : LogKind) (a : Nat) (bs : List Byte) (poi : Bool) : s.SameWidths (s.logBlock kind a bs poi) := by
  unfold State.logBlock
  dsimp only
  split
  · exact .refl s
  · exact State.SameWidths.trans (t := s.logEntry kind a bs [poi]) (.of_groups rfl) (State.sameWidths_setG _ rfl)

theorem State.sameWidths_logRead (s : State) (kind : LogKind) (a : Nat) (bs : List Byte) (poi : Bool) : s.SameWidths (s.logRead kind a bs poi) := by
  unfold State.logRead
  split
  · exact .refl s
  · exact .foldl (fun _ _ => State.sameWidths_logBlock _ _ _ _ _) _ _

theorem State.sameGrids_allocLine (s : State) (core : Nat) (l : L1Line) : s.SameGrids (s.allocLine core l) := by
  unfold State.allocLine
  dsimp only
  split
  · next old _ =>
    split
    · split
      · exact ((s.sameGrids_setCoreAt _ _).trans (State.sameGrids_sendLine _ old)).trans (State.sameGrids_setCoreAt _ _ _)
      · exact (s.sameGrids_setCoreAt _ _).trans (State.sameGrids_setCoreAt _ _ _)
    · exact s.sameGrids_setCoreAt _ _
  · exact s.sameGrids_setCoreAt _ _

theorem State.sameGrids_l1Load (s : State) (pa n cp : Nat) : s.SameGrids (s.l1Load pa n cp).1 := by
  unfold State.l1Load
  dsimp only
  split
  · exact .refl s
  · split
    · exact s.sameGrids_sendU _ _
    · split
      · exact s.sameGrids_setCoreAt _ _
      · exact .refl s

theorem State.sameGrids_fillLine (s : State) (core ln pri : Nat) (data : List Byte) (poi : List Bool) :
    s.SameGrids (s.fillLine core ln pri data poi) := by
  unfold State.fillLine
  dsimp only
  split
  · exact .refl s
  · exact (s.sameGrids_setCoreAt _ _).trans (State.sameGrids_allocLine _ _ _)

theorem State.sameGrids_cachedRead (s : State) (pa n cp : Nat) (h : Hint) : s.SameGrids (s.cachedRead pa n cp h).1 := by
  have hl := s.sameGrids_l1Load pa n cp
  unfold State.cachedRead
  split
  · next e => rwa [e] at hl
  · next u e =>
    rw [e] at hl
    have hu : s.SameGrids ((((u.meet pa n false).count u.foc.ctx 5 1).gather (pa / 128)).touchLlc pa cp) :=
      (((hl.trans (State.sameGrids_meet _ _ _ _)).trans (State.calm_count _ _ _ _).sameGrids).trans (State.sameGrids_gather _ _)).trans
        (State.otherLlc_touchLlc _ _ _).calm.sameGrids
    dsimp only
    split
    · exact hu.trans (State.sameGrids_fillLine _ _ _ _ _ _)
    · exact hu

theorem State.sameCounts_drainLine (s : State) (core pa : Nat) : s.SameCounts (s.drainLine core pa) := by
  have hd : s.SameCounts (s.drain core) := .foldl (fun t _ => t.sameCounts_drainOne _) _ _
  unfold State.drainLine
  dsimp only
  split
  · split
    · exact hd.trans ⟨rfl, rfl, fun _ => ⟨rfl, rfl⟩⟩
    · exact hd
  · exact .refl s

theorem State.sameCounts_remoteLoad (s : State) (x : Access) (mask : Mask) (l width : Nat) (va : W64) (pa cp : Nat) :
    s.SameCounts (s.remoteLoad x mask l width va pa cp).1 := by
  have hl := s.sameGrids_l1Load pa x.n cp
  unfold State.remoteLoad
  dsimp only
  split
  · exact .refl s
  · split
    · split <;> exact .refl s
    · split
      · next e =>
        rw [e] at hl
        exact hl.sameCounts
      · next e =>
        rw [e] at hl
        exact (hl.sameCounts.trans (State.sameCounts_drainLine _ _ _)).trans (State.sameGrids_sendLoad _ _ _ _ _ _ _ _).sameCounts

theorem State.sameCounts_loadAt (s : State) (x : Access) (mask : Mask) (l width : Nat) (p : Spot) : s.SameCounts (s.loadAt x mask l width p).1 := by
  cases p with
  | guard off => exact .refl s
  | scr t off =>
    unfold State.loadAt
    dsimp only
    split <;> exact .refl s
  | mem va pa cp =>
    unfold State.loadAt
    dsimp only
    split
    · exact (s.sameGrids_cachedRead _ _ _ _).sameCounts
    · exact s.sameCounts_remoteLoad _ _ _ _ _ _ _

theorem State.sameCounts_loadLogged (s : State) (x : Access) (mask : Mask) (l width : Nat) (p : Spot) :
    s.SameCounts (s.loadLogged x mask l width p).1 := by
  have hl := s.sameCounts_loadAt x mask l width p
  unfold State.loadLogged
  split
  · next e =>
    rw [e] at hl
    exact hl.trans (State.sameCounts_logRead _ _ _ _ _)
  · exact hl

theorem State.sameCounts_fetchTexel (s : State) (f : VF) (t : TexRec) (l level : Nat) (tap : Option (Nat × Nat)) :
    s.SameCounts (s.fetchTexel f t l level tap).1 := by
  cases tap with
  | none => exact .refl s
  | some i =>
    have ht := s.sameGrids_translate s.foc.core s.foc.ctx .texture (t.base + t.texel t.eb level i)
    unfold State.fetchTexel
    dsimp only
    split
    · next e =>
      rw [e] at ht
      exact ht.sameCounts
    · next e =>
      rw [e] at ht
      exact ht.sameCounts.trans (State.sameCounts_loadLogged _ _ _ _ _ _)

theorem State.sameCounts_fetchTap (f : VF) (t : TexRec) (env : FpEnv) (l level : Nat) (z : State × List (List Fx) × List LaneFlt × List Nat)
    (tap : Option (Nat × Nat)) : z.1.SameCounts (State.fetchTap f t env l level z tap).1 := by
  have hf := z.1.sameCounts_fetchTexel f t l level tap
  unfold State.fetchTap
  split <;> (next e => rwa [e] at hf)

theorem State.sameCounts_fetchTaps (s : State) (f : VF) (t : TexRec) (env : FpEnv) (l : Nat) (ls : List (Option Samp × Fx)) :
    s.SameCounts (s.fetchTaps f t env l ls).1 := by
  rw [State.fetchTaps_eq]
  refine List.foldlRecOn (motive := fun x : State × Taps × List LaneFlt × List Nat => s.SameCounts x.1) _ _ (.refl s) fun x hx y _ => ?_
  unfold State.fetchLevel
  split
  · exact hx
  · exact List.foldlRecOn (motive := fun z : State × List (List Fx) × List LaneFlt × List Nat => s.SameCounts z.1) _ _ hx
      fun z hz tap _ => hz.trans (State.sameCounts_fetchTap _ _ _ _ _ _ _)

theorem State.sameCounts_mapReds (s : State) (l : Nat) (cs : List (W64 × Fx)) : s.SameCounts (s.mapReds l cs).1 := by
  refine List.foldlRecOn (motive := fun x : State × List (W64 × Nat × Nat × Fx) × List LaneFlt => s.SameCounts x.1) _ _ (.refl s) fun x hx c _ => ?_
  have ht := x.1.sameGrids_translate x.1.foc.core x.1.foc.ctx .reduction c.1
  split <;> (next e => rw [e] at ht; exact hx.trans ht.sameCounts)

theorem State.sameCounts_texOne (s : State) (f : VF) (t : TexRec) (lam adj : Bool) (l : Nat) : s.SameCounts (s.texOne f t lam adj l).1 := by
  unfold State.texOne
  dsimp only
  split
  · exact .refl s
  · split
    · exact .refl s
    · split
      · exact s.sameCounts_fetchTaps _ _ _ _ _
      · exact (s.sameCounts_fetchTaps _ _ _ _ _).trans (State.sameCounts_mapReds _ _ _)

/-! ### The texture words (R370 to R374) -/

theorem State.sameCounts_of_lanesTex {f : VF} {t : TexRec} {lam adj : Bool} {ls : List Nat} {s u : State} {os : List TexOut}
    (h : lanesTex f t lam adj ls s u os) : s.SameCounts u := by
  induction ls generalizing s os with
  | nil =>
    obtain ⟨rfl, -⟩ := h
    exact .refl _
  | cons l ls ih =>
    obtain ⟨m, o, os', ho, hs, -⟩ := h
    have h1 := s.sameCounts_texOne f t lam adj l
    rw [ho] at h1
    exact h1.trans (ih hs)

/-- One lane after another, each with its outcome alone. -/
theorem State.texAll_of_lanesTex {f : VF} {t : TexRec} {lam adj : Bool} {ls : List Nat} {s u : State} {os : List TexOut}
    (h : lanesTex f t lam adj ls s u os) : s.texAll f t lam adj ls = (u, os, [], [], []) := by
  suffices hacc : ∀ os0 : List TexOut, ls.foldl (fun (x : State × List TexOut × List LaneFlt × List LaneFlt × List Nat) l =>
      let r := x.1.texOne f t lam adj l
      (r.1, x.2.1 ++ [r.2.1], x.2.2.1 ++ r.2.2.1, x.2.2.2.1 ++ r.2.2.2.1, x.2.2.2.2 ++ r.2.2.2.2)) (s, os0, [], [], []) =
        (u, os0 ++ os, [], [], []) from hacc []
  induction ls generalizing s os with
  | nil =>
    obtain ⟨rfl, rfl⟩ := h
    exact fun os0 => by rw [List.append_nil]; rfl
  | cons l ls ih =>
    obtain ⟨m, o, os', ho, hs, rfl⟩ := h
    intro os0
    rw [List.foldl_cons]
    dsimp only
    rw [ho]
    exact (ih hs (os0 ++ [o])).trans (by rw [List.append_assoc]; rfl)

theorem State.sampled_met (s : State) (k : Acc) : (s.sampled k).met = s.met := by
  unfold State.sampled
  dsimp only
  split
  · rfl
  · split <;> rfl

section
variable {f : VF} {t : TexRec} {lam adj : Bool} {s u v : State} {os : List TexOut} {p : Pred} {bs : List Byte}

/-- What is left of a texture word once every texel is fetched and every contribution mapped. -/
theorem State.texOp_done (hr : s.Runs p (s.opsOk ([(f.d, if adj then (if lam then 3 else 2) else 4), (f.a, if lam then 3 else 2)] ++
      if adj then [(f.c, 4)] else []))) (hb : (s.rd 0 .n32 f.b).poi = false) (hlay : (eff s p).layoutAt (s.rd 0 .n32 f.b).n = .ok bs)
    (ht : readTex bs = (t, true)) (hg : adj = true → t.grad ≠ 0)
    (hl : lanesTex f t lam adj (s.g.lanesOf (s.allowed p)) ((eff s p).logRead .texture (digScr (s.rd 0 .n32 f.b).n) bs) u os)
    (hs : (u.setG (os.foldl (fun g o => g.modLane o.lane fun x => x.putFx u.g.wb f.d o.rs o.fl o.poi) u.g)).scatter os = (v, true))
    (hm : unheld s v) : s.texOp p f lam adj = retired (v.sampled .texture) := by
  have hgrad : (adj && t.grad == 0) = false := by
    rw [Bool.and_eq_false_iff, beq_eq_false_iff_ne, ← Bool.not_eq_true, ← imp_iff_not_or]
    exact hg
  have hlanes : ((eff s p).logRead .texture (digScr (s.rd 0 .n32 f.b).n) bs).g.lanesOf (s.allowed p) = s.g.lanesOf (s.allowed p) := by
    rw [← State.lanesOf_atIssue s (s.allowed p), Grp.lanesOf, Grp.lanesOf, Grp.laneIdx, Grp.laneIdx, State.g,
      State.sameWidths_logRead, (State.sameCounts_logRead _ _ _ _ _).foc]
    rfl
  have hiss : u.g.iss.handler = false := by
    rw [(State.sameCounts_of_lanesTex hl).iss, (State.sameCounts_logRead _ _ _ _ _).iss, State.atIssue_iss]
    exact hr.1
  unfold State.texOp
  refine State.perform_done s false p _ _ hr _ ?_ ((State.sampled_met v .texture).trans hm)
  unfold State.texRecord
  dsimp only
  rw [State.rd_atIssue, hb, hlay]
  simp only [Bool.false_eq_true, if_false, ht, if_true, hgrad, hlanes, State.texAll_of_lanesTex hl]
  have hbit (l : Nat) : (0 : Mask).getLsbD l = false := BitVec.getLsbD_zero
  have hno : (0 : Mask) &&& ~~~(0 : Mask) = 0 := rfl
  have hlost : failMask [] ||| (0 : Mask) = 0 := rfl
  have horig (d : Opnd) (k : Nat) : u.origin d k (0 : Mask) none 0 = (u, []) := if_pos (by rw [hiss]; rfl)
  have hwrite : u.writeRecs [] = (u, none, 0) := rfl
  have hgroup : groupFlts [] = [] := rfl
  have hfail (g : Grp) (x : Fail) : failAll g (0 : Mask) x = [] := by
    rw [failAll, show g.lanesOf (0 : Mask) = [] from g.lanesOf_zero]
    rfl
  simp only [List.append_nil, hgroup, List.map_nil, List.isEmpty_nil, Bool.not_true, Bool.false_eq_true, if_false, List.length_nil,
    Nat.not_lt_zero, hwrite, List.foldl_nil, hno, horig, hlost, hbit, Bool.not_false, List.filter_true, hs, hfail]

end

theorem rasterWordsHold_holds : rasterWordsHold := by
  refine ⟨fun p f s => rcov_covers, fun p f s => esmp_samples, fun i p f lam adj s u v bs t os hi hr hb hlay ht hg hl hs hm => ?_⟩
  have hexec : exec i s = s.texOp p f lam adj := by
    rcases hi with ⟨rfl, rfl, rfl⟩ | ⟨rfl, rfl, rfl⟩ | ⟨rfl, rfl, rfl⟩ <;> rfl
  rw [hexec]
  exact State.texOp_done hr hb hlay ht hg hl hs hm

/-- Settles O47: RCOV and ESMP at their issue, and a texture word by the outcomes of its lanes, each by what its texels fetched. -/
theorem rasterAndTextures : Obligations.RasterAndTextures := ⟨rasterWordsHold_holds, texLanesHold_holds⟩

end Sys2Proof.Machine
end

section
/-! PROOFS. Work-graph words and launches (O43). -/

namespace Sys2Proof.Machine

open Sys2Proof.Claims

/-! ### What sending a record leaves of the operands -/

/-- The registers and the name of a group are as they were. -/
structure Grp.SameReads (g h : Grp) : Prop where
  lane : ∀ l, (h.lane l).v = (g.lane l).v ∧ (h.lane l).k = (g.lane l).k ∧ (h.lane l).y0 = (g.lane l).y0 ∧ (h.lane l).y1 = (g.lane l).y1
  wb : h.wb = g.wb
  s : h.s = g.s
  m : h.m = g.m
  z : h.z = g.z
  hbank : h.hbank = g.hbank
  iss : h.iss = g.iss
  idx : h.idx = g.idx
  base : h.base = g.base
  gw : h.gw = g.gw

theorem Grp.SameReads.refl (g : Grp) : g.SameReads g := ⟨fun _ => ⟨rfl, rfl, rfl, rfl⟩, rfl, rfl, rfl, rfl, rfl, rfl, rfl, rfl, rfl⟩
theorem Grp.SameReads.trans {a b c : Grp} (h : a.SameReads b) (h' : b.SameReads c) : a.SameReads c where
  lane l :=
    let ⟨v, k, y0, y1⟩ := h.lane l
    let ⟨v', k', y0', y1'⟩ := h'.lane l
    ⟨v'.trans v, k'.trans k, y0'.trans y0, y1'.trans y1⟩
  wb := h'.wb.trans h.wb
  s := h'.s.trans h.s
  m := h'.m.trans h.m
  z := h'.z.trans h.z
  hbank := h'.hbank.trans h.hbank
  iss := h'.iss.trans h.iss
  idx := h'.idx.trans h.idx
  base := h'.base.trans h.base
  gw := h'.gw.trans h.gw

/-- What operands read is as it was: the focus, the registers of every group, the id of the team in focus and the launch records of grids. -/
structure State.SameReads (s t : State) : Prop where
  foc : t.foc = s.foc
  grp : ∀ k, (s.grpAt k).SameReads (t.grpAt k)
  team : t.t.id = s.t.id
  grid : ∀ k, (t.gridAt k).lrec = (s.gridAt k).lrec

theorem State.SameReads.refl (s : State) : s.SameReads s := ⟨rfl, fun _ => .refl _, rfl, fun _ => rfl⟩
theorem State.SameReads.trans {s t u : State} (h : s.SameReads t) (h' : t.SameReads u) : s.SameReads u :=
  ⟨h'.foc.trans h.foc, fun k => (h.grp k).trans (h'.grp k), h'.team.trans h.team, fun k => (h'.grid k).trans (h.grid k)⟩
theorem State.SameGrids.sameReads {s t : State} (h : s.SameGrids t) : s.SameReads t :=
  ⟨h.foc, fun k => by rw [State.grpAt, State.grpAt, h.groups]; exact .refl _, by rw [h.t],
    fun k => by rw [State.gridAt, State.gridAt, h.grids]⟩

theorem State.SameReads.special {s t : State} (h : s.SameReads t) (l : Nat) (x : Special) : t.special l x = s.special l x := by
  have hg := h.grp s.foc.grp
  have hgr : t.gr.lrec = s.gr.lrec := by rw [State.gr, h.foc, h.grid, State.gr]
  cases x <;> simp only [State.special, State.g, h.foc, hg.idx, hg.base, hg.gw, hg.iss, h.team, hgr]
  case role => rfl

theorem State.SameReads.rd {s t : State} (h : s.SameReads t) (l : Nat) (ty : Ty) (o : Opnd) : t.rd l ty o = s.rd l ty o := by
  have hg : s.g.SameReads t.g := by
    rw [State.g, State.g, h.foc]
    exact h.grp _
  obtain ⟨hv, hk, hy0, hy1⟩ := hg.lane l
  cases o <;>
    simp only [State.rd, Grp.vReg, Grp.kReg, Grp.yReg, Grp.sVal, Grp.sreg, Grp.mBits, Grp.mPoi, Grp.zreg, hv, hk, hy0, hy1, hg.wb, hg.s, hg.m,
      hg.z, hg.hbank, hg.iss, h.special]

theorem State.SameReads.setGridAt {s u : State} (h : s.SameReads u) (k : Nat) {gr : Grid} (hgr : gr.lrec = (s.gridAt k).lrec) :
    s.SameReads (u.setGridAt k gr) := by
  refine ⟨h.foc, h.grp, h.team, fun j => ?_⟩
  rw [State.gridAt_setGridAt]
  split
  · next e => rw [hgr, e]
  · exact h.grid j

theorem State.sameReads_setG (s : State) {g : Grp} (h : s.g.SameReads g) : s.SameReads (s.setG g) := by
  refine ⟨rfl, fun j => ?_, rfl, fun _ => rfl⟩
  rw [State.setG, State.grpAt_setGrpAt]
  split
  · next e => exact e ▸ h
  · exact .refl _

theorem State.sameGrids_setCtxAt (s : State) (k : Nat) (c : Ctx) : s.SameGrids (s.setCtxAt k c) := ⟨rfl, rfl, rfl, rfl⟩

theorem State.sameReads_updated (s : State) {ft : Nat → Team → Team} {fg : Nat → Grp → Grp} (ht : ∀ k t, (ft k t).id = t.id)
    (hg : ∀ k g, Grp.SameReads g (fg k g)) : s.SameReads { s with teams := s.teams.update ft, groups := s.groups.update fg } := by
  refine ⟨rfl, fun k => ?_, ?_, fun _ => rfl⟩
  · rw [State.grpAt, State.grpAt, KMap.get_update, KMap.get]
    cases KMap.find s.groups k with
    | none => exact .refl _
    | some g => exact hg k g
  · rw [State.t, State.t, State.teamAt, State.teamAt, KMap.get_update, KMap.get]
    cases KMap.find s.teams s.foc.team with
    | none => rfl
    | some t => exact ht _ t

/-- The end of a grid changes no register, and no name of a group or a team. -/
theorem State.sameReads_endGrid (s : State) (k cause info : Nat) : s.SameReads (s.endGrid k cause info) := by
  unfold State.endGrid
  dsimp only
  split
  · exact .refl s
  · refine .setGridAt ?_ k rfl
    refine .trans ?_ (State.SameGrids.sameReads (State.sameGrids_setCtxAt _ _ _))
    refine .trans ?_ (State.SameGrids.sameReads (.foldl (fun t e => ?_) _ _))
    · exact ((s.sameGrids_abandonEpoch k).trans (State.sameGrids_unlockLines _ _)).sameReads.trans
        (State.sameReads_updated _ (fun _ t => by split <;> rfl)
          fun _ g => by split <;> exact ⟨fun _ => ⟨rfl, rfl, rfl, rfl⟩, rfl, rfl, rfl, rfl, rfl, rfl, rfl, rfl, rfl⟩)
    · split <;> exact ⟨rfl, rfl, rfl, rfl⟩

/-! ### Records and batches (R401 to R404) -/

/-- No record of the team in focus is held by a lane of it. -/
def State.HoldsNone (s : State) : Prop := ∀ h ∈ s.t.held, h.owner = none

theorem State.sendable_none {s : State} (h : s.HoldsNone) (n : Node) (who : Nat × Nat) (va : Nat) : s.sendable n who va = none := by
  refine List.find?_eq_none.mpr fun x hx => ?_
  rw [h x hx]
  simp

/-- The id of the next team of a node (R404). -/
def Grid.batchId (gr : Grid) (i : Nat) : Nat := gr.lrec.nteam.toNat + (gr.node i).batches * gr.nodes.length + i
/-- The node team of a batch (R404). -/
def Grid.batchTeam (gr : Grid) (grid i : Nat) (rs : List Gathered) : Team :=
  { grid, id := BitVec.ofNat 32 (gr.batchId i), node := some (i, (gr.node i).batches), batch := rs.map (·.va),
    held := rs.map fun r => { pool := r.pool, index := r.index }, epochO := (gr.node i).epochO, syncO := (gr.node i).syncO }

section
variable {s : State} {grid : Nat} (i : Nat) (rs : List Gathered) (hp : (s.gridAt grid).phase = .running)
include hp

theorem State.launchBatch_over (h : 2 ^ 32 ≤ (s.gridAt grid).batchId i) : s.launchBatch grid i rs = s.endGrid grid 0x0104 0 :=
  (if_neg (by rw [hp]; decide)).trans (if_pos h)

theorem State.launchBatch_launches (h : (s.gridAt grid).batchId i < 2 ^ 32) : s.launchBatch grid i rs =
    (s.freshId.1.setTeamAt s.nextId ((s.gridAt grid).batchTeam grid i rs)).setGridAt grid
      ((s.gridAt grid).setNode i { (s.gridAt grid).node i with batches := ((s.gridAt grid).node i).batches + 1 }) :=
  (if_neg (by rw [hp]; decide)).trans (if_neg (Nat.not_le.mpr h))

end

/-- A batch that launches leaves what operands read, unless its team takes the place of the one in focus. -/
theorem State.launchBatch_reads (s : State) (grid i : Nat) (rs : List Gathered) :
    s.SameReads (s.launchBatch grid i rs) ∨ (s.launchBatch grid i rs).HoldsNone := by
  by_cases hp : (s.gridAt grid).phase = .running
  · by_cases hid : (s.gridAt grid).batchId i < 2 ^ 32
    · rw [State.launchBatch_launches i rs hp hid]
      have hteam (x : Team) (y : Grid) : ((s.freshId.1.setTeamAt s.nextId x).setGridAt grid y).t = if s.nextId = s.foc.team then x else s.t :=
        State.teamAt_setTeamAt _ _ _ _
      by_cases hk : s.nextId = s.foc.team
      · refine .inr fun h hh => ?_
        rw [hteam, if_pos hk] at hh
        obtain ⟨r, -, rfl⟩ := List.mem_map.mp hh
        rfl
      · have hs (x : Team) : s.SameReads (s.freshId.1.setTeamAt s.nextId x) :=
          ⟨rfl, fun _ => .refl _, congrArg Team.id ((hteam x (s.gridAt grid)).trans (if_neg hk)), fun _ => rfl⟩
        exact .inl ((hs _).setGridAt grid rfl)
    · rw [State.launchBatch_over i rs hp (Nat.le_of_not_lt hid)]
      exact .inl (s.sameReads_endGrid _ _ _)
  · unfold State.launchBatch
    rw [if_pos (bne_iff_ne.mpr hp)]
    exact .inl (.refl s)

theorem State.closeBatch_reads (s : State) (grid i : Nat) : s.SameReads (s.closeBatch grid i) ∨ (s.closeBatch grid i).HoldsNone := by
  have h0 : s.SameReads (s.setGridAt grid ((s.gridAt grid).setNode i { (s.gridAt grid).node i with gathered := [] })) :=
    (State.SameReads.refl s).setGridAt grid rfl
  exact (State.launchBatch_reads _ grid i ((s.gridAt grid).node i).gathered).imp_left h0.trans

theorem State.sameReads_modT (s : State) {f : Team → Team} (h : (f s.t).id = s.t.id) : s.SameReads (s.modT f) :=
  ⟨rfl, fun _ => .refl _, by rw [State.t_modT, h], fun _ => rfl⟩

theorem State.sameReads_modLane (s : State) (l : Nat) {x : Lane} (hv : x.v = (s.g.lane l).v) (hk : x.k = (s.g.lane l).k)
    (h0 : x.y0 = (s.g.lane l).y0) (h1 : x.y1 = (s.g.lane l).y1) : s.SameReads (s.setG (s.g.setLane l x)) := by
  refine s.sameReads_setG ⟨fun j => ?_, rfl, rfl, rfl, rfl, rfl, rfl, rfl, rfl, rfl⟩
  rw [Grp.lane_setLane]
  split
  · next e => exact e ▸ ⟨hv, hk, h0, h1⟩
  · exact ⟨rfl, rfl, rfl, rfl⟩

/-- A record that is sent leaves what operands read, unless a team that it launches takes the place of the one in focus. -/
theorem State.sendRecord_reads (s : State) (i l : Nat) (h : Held) : s.SameReads (s.sendRecord i l h) ∨ (s.sendRecord i l h).HoldsNone := by
  have hsent (r : Gathered) (x : Lane) (hx : x = { s.g.lane l with wsends := x.wsends }) :
      s.SameReads (((s.modT fun t => { t with held := t.held.erase h }).setG (s.g.setLane l x)).modGr fun g =>
        g.setNode i { g.node i with gathered := (g.node i).gathered ++ [r] }) := by
    have h1 : s.SameReads (s.modT fun t => { t with held := t.held.erase h }) := s.sameReads_modT rfl
    have h2 := h1.trans (State.sameReads_modLane (s.modT fun t => { t with held := t.held.erase h }) l (x := x) (by rw [hx]; rfl) (by rw [hx]; rfl)
      (by rw [hx]; rfl) (by rw [hx]; rfl))
    exact h2.setGridAt _ (h2.grid _)
  unfold State.sendRecord
  dsimp only
  split
  · exact (State.closeBatch_reads _ _ _).imp_left (hsent _ _ rfl).trans
  · exact .inl (hsent _ _ rfl)

/-! ### WSEND (R336, R401) -/

/-- What WSEND does for one lane, with the operand that the lane had as the release began. -/
def State.wsendLane (f : VF) (n : Node) (i : Nat) (act : State) (x : State × List (Nat × Fail)) (l : Nat) : State × List (Nat × Fail) :=
  let v := act.rd l .b64 f.a
  if v.poi then (x.1, x.2 ++ [(l, .poison f.a)])
  else
    match (if n.prod.getLsbD x.1.t.origin then x.1.sendable n (x.1.g.holder f.a.isS l) v.n else none) with
    | none => (x.1, x.2 ++ [(l, Fail.opndLate)])
    | some h => (x.1.sendRecord i l h, x.2)

/-- A lane may send: its operand is not poisoned, the node takes records of its team, and it holds the one that it names. -/
def State.MaySend (s : State) (f : VF) (n : Node) (l : Nat) : Prop :=
  (s.rd l .b64 f.a).poi = false ∧ n.prod.getLsbD s.t.origin = true ∧ (s.sendable n (s.g.holder f.a.isS l) (s.rd l .b64 f.a).n).isSome = true

/-- Lanes that may all send, one after another, send. -/
theorem State.foldl_wsendLane {f : VF} {n : Node} {i : Nat} {s x : State} (ls : List Nat) (hx : s.SameReads x ∨ x.HoldsNone)
    (h : ∀ m l, ls[m]? = some l → ((ls.take m).foldl (sends n i f) x).MaySend f n l) :
    ls.foldl (State.wsendLane f n i s) (x, []) = (ls.foldl (sends n i f) x, []) := by
  induction ls generalizing x with
  | nil => rfl
  | cons l ls ih =>
    obtain ⟨hpoi, hprod, hsend⟩ : x.MaySend f n l := h 0 l rfl
    obtain ⟨r, hr⟩ := Option.isSome_iff_exists.mp hsend
    have hs : s.SameReads x := hx.resolve_right fun hn => by
      rw [State.sendable_none hn] at hr
      cases hr
    have hstep : sends n i f x l = x.sendRecord i l r := by
      unfold sends
      rw [hr]
    have hlane : State.wsendLane f n i s (x, []) l = (x.sendRecord i l r, []) := by
      unfold State.wsendLane
      dsimp only
      rw [← hs.rd, hpoi, hprod, if_neg Bool.false_ne_true, if_pos rfl, hr]
    rw [List.foldl_cons, List.foldl_cons, hlane, hstep]
    exact ih ((State.sendRecord_reads x i l r).imp_left hs.trans) fun m l' hl' => by
      have := h (m + 1) l' hl'
      rwa [List.take_succ_cons, List.foldl_cons, hstep] at this

theorem State.atIssue_gr (s : State) (m : Mask) : (s.atIssue m).gr = s.gr := by
  show ((s.setG s.g.advance).ptIssued m).gr = _
  unfold State.ptIssued
  split <;> rfl

/-- A node that an operand names, with the checks of R336 passed. -/
theorem State.nodeOf_passes {s : State} {act : Mask} {o : Opnd} (k : Node → Did) (hp : (s.rd 0 .b64 o).poi = false)
    (hk : (s.rd 0 .b64 o).n < s.gr.nodes.length) : s.nodeOf act o k = k (s.gr.node (s.rd 0 .b64 o).n) := by
  unfold State.nodeOf
  dsimp only
  rw [hp, if_neg Bool.false_ne_true, if_neg (Nat.not_le.mpr hk)]

theorem wsend_sends {p : Pred} {f : VF} {s : State} : let k := (s.rd 0 .b64 f.b).n
    s.Runs p (s.opsOk [(f.a, if f.a.isS then 1 else 2)]) → (s.rd 0 .b64 f.b).poi = false → k < s.gr.nodes.length →
    let ls := if f.a.isS then (s.g.lanesOf (s.allowed p)).take 1 else s.g.lanesOf (s.allowed p)
    let n := s.gr.node k
    let u (m : Nat) : State := (ls.take m).foldl (sends n k f) ((eff s p).release .pkg)
    (∀ m l, ls[m]? = some l → (u m).MaySend f n l) →
    drained true (u 0) .pkg → unheld s (u ls.length) → exec (.wsend p f) s = retired (u ls.length) := by
  intro k hr hp hk ls n u hsend hd hm
  show execWsend p f s = _
  unfold execWsend
  refine State.perform_done s false p _ _ hr _ ?_ hm
  rw [State.nodeOf_passes _ (by rwa [State.rd_atIssue]) (by rwa [State.rd_atIssue, State.atIssue_gr])]
  dsimp only
  rw [State.rd_atIssue, State.atIssue_gr, State.lanesOf_atIssue]
  have hfold := State.foldl_wsendLane (i := k) ls (.inl (.refl ((eff s p).release .pkg))) hsend
  have hall : u ls.length = ls.foldl (sends n k f) ((eff s p).release .pkg) := by
    show (ls.take ls.length).foldl _ _ = _
    rw [List.take_length]
  rw [hall]
  refine (State.orWait_of_drained _ _ hd).trans ?_
  show Did.done (ls.foldl (State.wsendLane f n k ((eff s p).release .pkg)) ((eff s p).release .pkg, [])).1
    (if f.a.isS then (ls.foldl (State.wsendLane f n k ((eff s p).release .pkg)) ((eff s p).release .pkg, [])).2.flatMap fun y =>
        failAll ((eff s p).release .pkg).g (s.allowed p) y.2
      else (ls.foldl (State.wsendLane f n k ((eff s p).release .pkg)) ((eff s p).release .pkg, [])).2) = _
  rw [hfold]
  cases f.a.isS <;> rfl

/-! ### WALLOC (R336, R401) -/

theorem takes_met (pool : Nat) (isS : Bool) (x : State × Bool) (l : Nat) : (takes pool isS x l).1.met = x.1.met := by
  unfold takes
  split
  · rfl
  · cases h : x.1.takeRecord pool (x.1.g.holder isS l) l with
    | none => rfl
    | some r =>
      obtain ⟨t, va⟩ := r
      show t.met = _
      unfold State.takeRecord at h
      dsimp only at h
      split at h
      · cases h
      · cases h; rfl

theorem foldl_takes_met (pool : Nat) (isS : Bool) (ls : List Nat) (x : State × Bool) : (ls.foldl (takes pool isS) x).1.met = x.1.met :=
  List.foldlRecOn (motive := fun y : State × Bool => y.1.met = x.1.met) _ _ rfl fun y hy l _ => (takes_met pool isS y l).trans hy

theorem State.sameGrids_acquire (s : State) (sc : Scope) : s.SameGrids (s.acquire sc) := by
  unfold State.acquire State.dropValid
  split
  · exact (s.sameGrids_setCoreAt _ _).trans (State.sameGrids_dropFills _ _ _)
  · exact .refl s

theorem State.met_acquire (s : State) (sc : Scope) : (s.acquire sc).met = s.met := by
  unfold State.acquire State.dropValid State.dropFills
  dsimp only
  split
  · split <;> rfl
  · rfl

/-- What WALLOC does in its active lanes with the node that it names. -/
def State.wallocDid (f : VF) (ls : List Nat) (r : State × Bool) : Did :=
  if r.2 then .stall r.1 .walloc
  else
    let s := r.1.acquire .pkg
    let got (l : Nat) : W64 := ((s.g.wallocGot.find? fun y => y.1 == l).map (·.2)).getD 0
    let s := ls.foldl (fun s l => s.logIn .walloc l (leBytes 8 (got l).toNat)) s
    let g := { s.g with wallocGot := [] }
    .done (s.setG (match f.d with
      | .s i => g.putS i.val ⟨(got (ls.headD 0)).toNat, false⟩
      | d => g.modLanes ls fun l x => x.putRegs g.wb d [⟨(got l).setWidth 32, false⟩, ⟨(got l >>> 32).setWidth 32, false⟩])) []

section
variable {p : Pred} {f : VF} {s u : State} (hr : s.Runs p (s.opsOk [(f.d, if f.d.isS then 1 else 2)])) (hp : (s.rd 0 .b64 f.a).poi = false)
  (hk : (s.rd 0 .b64 f.a).n < s.gr.nodes.length)
include hp hk

theorem walloc_op : let ls := if f.d.isS then (s.g.lanesOf (s.allowed p)).take 1 else s.g.lanesOf (s.allowed p)
    ((eff s p).nodeOf (s.allowed p) f.a fun n =>
      State.wallocDid f (if f.d.isS then ((eff s p).g.lanesOf (s.allowed p)).take 1 else (eff s p).g.lanesOf (s.allowed p))
        ((if f.d.isS then ((eff s p).g.lanesOf (s.allowed p)).take 1 else (eff s p).g.lanesOf (s.allowed p)).foldl (takes n.pool f.d.isS) (eff s p, false))) =
      State.wallocDid f ls (ls.foldl (takes (s.gr.node (s.rd 0 .b64 f.a).n).pool f.d.isS) (eff s p, false)) := by
  intro ls
  rw [State.nodeOf_passes _ (by rwa [State.rd_atIssue]) (by rwa [State.rd_atIssue, State.atIssue_gr]), State.rd_atIssue, State.atIssue_gr,
    State.lanesOf_atIssue]

include hr

theorem walloc_gives : let ls := if f.d.isS then (s.g.lanesOf (s.allowed p)).take 1 else s.g.lanesOf (s.allowed p)
    ls.foldl (takes (s.gr.node (s.rd 0 .b64 f.a).n).pool f.d.isS) (eff s p, false) = (u, false) →
    let va (l : Nat) : W64 := ((u.g.wallocGot.find? fun y => y.1 == l).map (·.2)).getD 0
    let w := ls.foldl (fun s l => s.logIn .walloc l (leBytes 8 (va l).toNat)) (u.acquire .pkg)
    (∀ j, f.d = .s j → exec (.walloc p f) s = retired (w.modG fun g => { g with wallocGot := [] }.putS j ⟨(va (ls.headD 0)).toNat, false⟩)) ∧
    (f.d.isS = false → exec (.walloc p f) s =
      retired (w.modG fun g => { g with wallocGot := [] }.modLanes ls fun l x =>
        x.putRegs g.wb f.d [⟨(va l).setWidth 32, false⟩, ⟨(va l >>> 32).setWidth 32, false⟩])) := by
  intro ls e va w
  have hgot : (u.acquire .pkg).g.wallocGot = u.g.wallocGot := by rw [(u.sameGrids_acquire .pkg).g]
  have hmet : w.met = s.met := by
    have h1 := foldl_takes_met (s.gr.node (s.rd 0 .b64 f.a).n).pool f.d.isS ls (eff s p, false)
    rw [e] at h1
    exact (State.foldl_met _ _ _ fun t l => t.logIn_met _ _ _ _).trans ((u.met_acquire .pkg).trans (h1.trans (s.atIssue_met _)))
  have hop (t : State) (ho : State.wallocDid f ls (u, false) = .done t []) (hm : t.met = s.met) : exec (.walloc p f) s = retired t := by
    show execWalloc p f s = _
    unfold execWalloc
    refine State.perform_done s false p _ _ hr t ?_ hm
    refine (walloc_op hp hk).trans ?_
    rw [e, ho]
  have hdid : State.wallocDid f ls (u, false) = .done (w.setG (match f.d with
      | .s i => { w.g with wallocGot := [] }.putS i.val ⟨(va (ls.headD 0)).toNat, false⟩
      | d => { w.g with wallocGot := [] }.modLanes ls fun l x =>
          x.putRegs w.g.wb d [⟨(va l).setWidth 32, false⟩, ⟨(va l >>> 32).setWidth 32, false⟩])) [] := by
    unfold State.wallocDid
    simp only [hgot, Bool.false_eq_true, if_false]
    rfl
  refine ⟨fun j hj => hop _ (hdid.trans ?_) hmet, fun hs => hop _ (hdid.trans ?_) hmet⟩
  · rw [hj]
    rfl
  · cases hd : f.d with
    | s i => rw [hd] at hs; cases hs
    | _ => rfl

theorem walloc_stalls : let ls := if f.d.isS then (s.g.lanesOf (s.allowed p)).take 1 else s.g.lanesOf (s.allowed p)
    ls.foldl (takes (s.gr.node (s.rd 0 .b64 f.a).n).pool f.d.isS) (eff s p, false) = (u, true) →
    exec (.walloc p f) s = stalled s u .walloc := by
  intro ls e
  show execWalloc p f s = _
  unfold execWalloc
  refine State.perform_stall s false p _ _ hr ((walloc_op hp hk).trans ?_)
  rw [e]
  rfl

end

/-! ### LAUNCH (R336, R398) -/

/-- What LAUNCH answers with its value. -/
def State.launchPut (f : VF) (s : State) (v : Nat) : Did :=
  let s := s.logIn .launch 0 (leBytes 8 v)
  match f.d with
  | .z i => .done (s.setG (s.g.setZreg i.val (BitVec.ofNat 64 v))) []
  | .s i => .done (s.setG (s.g.putS i.val ⟨v, false⟩)) []
  | _ => .done s []

theorem State.launchPut_eq (f : VF) (s : State) (v : Nat) : State.launchPut f s v = .done (putScalar (s.logIn .launch 0 (leBytes 8 v)) f.d v) [] := by
  unfold State.launchPut putScalar
  cases f.d <;> rfl

theorem putScalar_met (s : State) (d : Opnd) (v : Nat) : (putScalar s d v).met = s.met := by
  unfold putScalar
  cases d <;> rfl

/-- What LAUNCH does with a record that it has read. -/
def State.launchDid (f : VF) (k : Nat) (s : State) (bs : List Byte) : Did :=
  let q := s.pkg.queues.get {} k
  if !q.en || q.ctx ≠ s.foc.ctx || (q.tail - q.head).toNat = 2 ^ q.logn then State.launchPut f s 1
  else
    let s := s.release .pod
    s.orWait true .pod
      (State.launchPut f ((s.engineWrite s.foc.core (q.slot q.tail) 0 bs []).modPkg fun p => { p with queues := p.queues.set k { q with tail := q.tail + 1 } }) 0)

section
variable {p : Pred} {f : VF} {s u : State} {bs : List Byte} (hr : s.Runs p (fun _ => true)) (hd : f.d.isZ = s.gr.det)
  (hc : clean (eff s p) [f.a, f.b]) (hk : (s.rd 0 .b64 f.b).n < 64) (ha : (s.rd 0 .b64 f.a).n % 128 = 0)
  (hb : readsRun (eff s p) u .engRead (s.allowed p) (BitVec.ofNat 64 (s.rd 0 .b64 f.a).n) 128 bs)
include hr hd hc hk ha hb

/-- A LAUNCH whose operands pass retires as the queue that it names decides. -/
theorem launch_answers {t : State} {v : Nat} (ht : State.launchDid f (s.rd 0 .b64 f.b).n u bs = State.launchPut f t v) (hm : unheld s t) :
    exec (.launch p f) s = retired (putScalar (t.logIn .launch 0 (leBytes 8 v)) f.d v) := by
  show execLaunch p f s = _
  unfold execLaunch
  refine State.perform_done s false p _ _ hr _ ?_ ((putScalar_met _ _ _).trans ((t.logIn_met _ _ _ _).trans hm))
  have hdet : (f.d.isZ != (eff s p).gr.det) = false := by rw [State.atIssue_det, hd, bne_self_eq_false]
  have hpa : (s.rd 0 .b64 f.a).poi = false := by
    rw [← State.rd_atIssue s (s.allowed p)]
    exact hc _ (by simp)
  have hpb : (s.rd 0 .b64 f.b).poi = false := by
    rw [← State.rd_atIssue s (s.allowed p)]
    exact hc _ (by simp)
  dsimp only
  rw [hdet, State.rd_atIssue, State.rd_atIssue, hpa, hpb]
  simp only [Bool.false_eq_true, if_false]
  rw [if_neg (Nat.not_le.mpr hk), if_neg (by rw [ha]; decide), State.withRun_of_readsRun hb]
  exact ht.trans (State.launchPut_eq f t v)

theorem launch_refused (hq : let q := u.pkg.queues.get {} (s.rd 0 .b64 f.b).n
      q.en = false ∨ q.ctx ≠ u.foc.ctx ∨ (q.tail - q.head).toNat = 2 ^ q.logn) (hm : unheld s u) :
    exec (.launch p f) s = retired (putScalar (u.logIn .launch 0 (leBytes 8 1)) f.d 1) := by
  refine launch_answers hr hd hc hk ha hb (if_pos ?_) hm
  simpa [or_assoc] using hq

theorem launch_appends : let k := (s.rd 0 .b64 f.b).n
    let q := u.pkg.queues.get {} k
    q.en = true → q.ctx = u.foc.ctx → (q.tail - q.head).toNat ≠ 2 ^ q.logn →
      let x := u.release .pod
      let v := (x.engineWrite x.foc.core (q.slot q.tail) 0 bs []).modPkg fun p => { p with queues := p.queues.set k { q with tail := q.tail + 1 } }
      drained true x .pod → unheld s v → exec (.launch p f) s = retired (putScalar (v.logIn .launch 0 (leBytes 8 0)) f.d 0) := by
  intro k q hen hctx hfull x v hdr hm
  refine launch_answers hr hd hc hk ha hb ((if_neg fun h => ?_).trans (State.orWait_of_drained _ _ hdr)) hm
  simp only [Bool.or_eq_true, Bool.not_eq_true', decide_eq_true_iff] at h
  rcases h with (h | h) | h
  · exact Bool.false_ne_true (h.symm.trans hen)
  · exact h hctx
  · exact hfull h

end

/-! ### BATCH_TIMEOUT (R402, R404) -/

theorem Grid.node_setNode (gr : Grid) (i j : Nat) (n : Node) : (gr.setNode i n).node j = if i = j then n else gr.node j := bankGet_put _ _ _ _ _

theorem length_bankPut {α : Type} (d : α) {l : List α} {i : Nat} (x : α) (h : i < l.length) : (bankPut d l i x).length = l.length := by
  induction l generalizing i with
  | nil => exact absurd h (Nat.not_lt_zero _)
  | cons a t ih =>
    cases i with
    | zero => rfl
    | succ i => exact congrArg Nat.succ (ih (Nat.lt_of_succ_lt_succ h))

/-- The state in which the open batch of a node launches, that batch taken out. -/
def State.emptied (s : State) (grid i : Nat) : State := s.setGridAt grid ((s.gridAt grid).setNode i { (s.gridAt grid).node i with gathered := [] })

theorem State.closeBatch_eq (s : State) (grid i : Nat) :
    s.closeBatch grid i = (s.emptied grid i).launchBatch grid i ((s.gridAt grid).node i).gathered := rfl

theorem State.gridAt_emptied (s : State) (grid i : Nat) :
    (s.emptied grid i).gridAt grid = (s.gridAt grid).setNode i { (s.gridAt grid).node i with gathered := [] } := State.gridAt_setGridAt_self _ _ _

section
variable {grid node : Nat} {s : State} (hp : (s.gridAt grid).phase = .running) (hn : node < (s.gridAt grid).nodes.length)
include hp

theorem batchTimeout_closes (hn : node < (s.gridAt grid).nodes.length) (hd : (s.gridAt grid).det = false)
    (ht : ((s.gridAt grid).node node).timeout ≠ 0) (hg : ((s.gridAt grid).node node).gathered ≠ []) :
    exec (.batchTimeout grid node) s = .next (s.closeBatch grid node) := by
  show execBatchTimeout grid node s = _
  unfold execBatchTimeout
  exact if_neg (by simpa [hd, hp, hn, hg] using ht)

theorem State.phase_emptied : ((s.emptied grid node).gridAt grid).phase = .running := by
  rw [State.gridAt_emptied]
  exact hp

omit hp in
include hn in
theorem State.batchId_emptied : ((s.emptied grid node).gridAt grid).batchId node = (s.gridAt grid).batchId node := by
  rw [State.gridAt_emptied, Grid.batchId, Grid.node_setNode, if_pos rfl, show (Grid.setNode _ _ _).nodes.length = (s.gridAt grid).nodes.length from length_bankPut _ _ hn]
  rfl

include hn

/-- A node team whose id is past 32 bits ends its grid (R404). -/
theorem State.closeBatch_over (hid : 2 ^ 32 ≤ (s.gridAt grid).batchId node) :
    ((s.closeBatch grid node).gridAt grid).phase = .ended ∧ ((s.closeBatch grid node).gridAt grid).cause = 0x0104 := by
  have hph := State.phase_emptied (node := node) hp
  obtain ⟨u, gr, -, h1, h2, e⟩ := State.endGrid_grids (s := s.emptied grid node) (k := grid) (by rw [hph]; decide) (by rw [hph]; decide) 0x0104 0
  rw [State.closeBatch_eq, State.launchBatch_over _ _ hph (by rwa [State.batchId_emptied hn]), e, State.gridAt_setGridAt_self]
  exact ⟨h1, h2⟩

/-- The open batch of a node launches as the node's next team (R402, R404). -/
theorem State.closeBatch_launches (hid : (s.gridAt grid).batchId node < 2 ^ 32) :
    let t := s.closeBatch grid node
    let n := (s.gridAt grid).node node
    t.mem = s.mem ∧ t.groups = s.groups ∧ ((t.gridAt grid).node node).gathered = [] ∧ (∀ k, k ≠ s.nextId → t.teamAt k = s.teamAt k) ∧
      (∀ j, j ≠ node → (t.gridAt grid).node j = (s.gridAt grid).node j) ∧ ((t.gridAt grid).node node).batches = n.batches + 1 ∧
      t.teamAt s.nextId = (s.gridAt grid).batchTeam grid node n.gathered := by
  have hteam (k : Nat) (x : Team) (y : Grid) : (((s.emptied grid node).freshId.1.setTeamAt s.nextId x).setGridAt grid y).teamAt k =
      if s.nextId = k then x else s.teamAt k := State.teamAt_setTeamAt _ _ _ _
  have hn' := hn
  dsimp only
  rw [State.closeBatch_eq, State.launchBatch_launches _ _ (State.phase_emptied hp) (by rwa [State.batchId_emptied hn])]
  refine ⟨rfl, rfl, ?_, fun k hk => ?_, fun j hj => ?_, ?_, ?_⟩
  · rw [State.gridAt_setGridAt_self, Grid.node_setNode, if_pos rfl, State.gridAt_emptied, Grid.node_setNode, if_pos rfl]
  · exact (hteam k _ _).trans (if_neg hk.symm)
  · rw [State.gridAt_setGridAt_self, Grid.node_setNode, if_neg hj.symm, State.gridAt_emptied, Grid.node_setNode, if_neg hj.symm]
  · rw [State.gridAt_setGridAt_self, Grid.node_setNode, if_pos rfl, State.gridAt_emptied, Grid.node_setNode, if_pos rfl]
  · refine (hteam _ _ _).trans ((if_pos rfl).trans ?_)
    unfold Grid.batchTeam
    rw [State.batchId_emptied hn, State.gridAt_emptied, Grid.node_setNode, if_pos rfl]

end

/-- Settles O43: WALLOC by the fold that takes its records, WSEND by the operands that its sends leave, LAUNCH by what it reads, and the
close of a batch. -/
theorem workGraph : Obligations.WorkGraph := by
  unfold Obligations.WorkGraph
  refine ⟨fun p f s u => ?_, fun p f s => wsend_sends, fun p f s u bs => ?_, fun grid node s => ?_⟩
  · intro k hr hp hk ls pool
    exact ⟨walloc_gives hr hp hk, walloc_stalls hr hp hk⟩
  · intro a k hr hd hc hk ha hb q
    exact ⟨launch_refused hr hd hc hk ha hb, launch_appends hr hd hc hk ha hb⟩
  · intro gr n id hd hp hn ht hg
    exact ⟨_, batchTimeout_closes hp hn hd ht hg, State.closeBatch_over hp hn, State.closeBatch_launches hp hn⟩

end Sys2Proof.Machine
end

section
/-! PROOFS. Debugging and tracing (O53). -/

namespace Sys2Proof.Machine

open Sys2Proof.Claims

/-! ### Packets of the trace unit (R15, R442, R443) -/

theorem State.pte_of_noPartials {s : State} (hp : noPartials s) (frame idx : Nat) : s.pte frame idx =
    if s.hbmPoi (paLocal (frame * 65536 + 8 * idx)) 8 then .error ⟨kEcc, BitVec.ofNat 64 (frame * 65536 + 8 * idx)⟩
    else .ok (BitVec.ofNat 64 (ofLe (s.hbm (paLocal (frame * 65536 + 8 * idx)) 8))) := by
  unfold State.pte State.homeView
  dsimp only
  rw [State.gatherRange_of_noPartials hp]

theorem State.pte_readTime {s : State} (hp : noPartials s) (frame idx : Nat) : s.readTime.pte frame idx = s.pte frame idx := by
  rw [State.pte_of_noPartials hp, State.pte_of_noPartials (s := s.readTime) hp]
  rfl

theorem State.walkFrom_readTime {s : State} (hp : noPartials s) (va n frame : Nat) : s.readTime.walkFrom va n frame = s.walkFrom va n frame := by
  induction n generalizing frame with
  | zero => rfl
  | succ n ih =>
    unfold State.walkFrom
    rw [State.pte_readTime hp]
    cases s.pte frame (va / 2 ^ (16 + 13 * n) % 8192) with
    | error f => rfl
    | ok e =>
      dsimp only
      rw [ih]
      rfl

/-- A read of the true time leaves every walk as it was, where no partial is to be gathered on its way. -/
theorem State.walk_readTime {s : State} (hp : noPartials s) (ctx : Nat) (va : W64) : s.readTime.walk ctx va = s.walk ctx va := by
  unfold State.walk
  dsimp only
  rw [State.walkFrom_readTime hp]
  rfl

theorem State.physCheck_readTime (s : State) (pa : Nat) : s.readTime.physCheck pa = s.physCheck pa := rfl
theorem State.ctxAt_readTime (s : State) (ctx : Nat) : s.readTime.ctxAt ctx = s.ctxAt ctx := rfl

/-- A store without a flag that no tile holds up changes no context. -/
theorem State.performStore_ctxAt {s : State} (hp : noPartials s) (core : Option Nat) {e : WbEntry} (hf : e.flag = none) (hl : s.isLocal e.pa = true)
    (hb : s.blocked e.pa e.data.length true = false) (hr : s.inSpillRegion (paLocal e.pa) = false) (k : Nat) :
    (s.performStore core e).ctxAt k = s.ctxAt k := by
  obtain ⟨t, m, ⟨_, _, _, rfl⟩, hw⟩ := State.homeWrite_clear hp hb hr e.cp e.poi
  unfold State.performStore
  rw [if_pos hl, hw, hf]
  rfl

/-- The store of the trace unit at a VA in a page (R442). -/
def traceEntry (ctx : Nat) (pg : Page) (va : W64) (bs : List Byte) : WbEntry :=
  { pa := pg.pa va, data := bs, ctx, cp := pteCp pg.pte, frec := { kind := kUnrouted, access := Acc.store.code, va, aux := BitVec.ofNat 64 (pg.pa va) } }

theorem State.traceWrite_stores {s : State} {ctx off : Nat} {pg : Page} {va : W64} (hva : (s.ctxAt ctx).segVA + BitVec.ofNat 64 off = va)
    (hw : s.walk ctx va = .ok pg) (hm : (pg.pte.getLsbD 3 && pg.pte.getLsbD 6 && pg.pte.getLsbD 11) = true) (hl : s.isLocal (pg.pa va) = true)
    (hh : paLocal (pg.pa va) < hbmSize) (bs : List Byte) : s.traceWrite ctx off bs = some (s.performStore none (traceEntry ctx pg va bs)) := by
  have hphys : s.physCheck (pg.pa va) = .ok () := by rw [State.physCheck, hl, if_pos rfl, if_pos hh]
  unfold State.traceWrite
  dsimp only
  rw [hva, hw]
  dsimp only
  rw [hm, hphys]
  rfl

/-- The bytes of a packet. -/
def packetBytes (time kind : Nat) (gap : Bool) (payload : List Byte) : List Byte :=
  leBytes 2 kind ++ leBytes 2 (if gap then 1 else 0) ++ leBytes 2 payload.length ++ leBytes 2 0 ++ leBytes 8 time ++ payload

theorem packetBytes_length (time kind : Nat) (gap : Bool) (payload : List Byte) : (packetBytes time kind gap payload).length = 16 + payload.length := by
  simp only [packetBytes, List.length_append, leBytes_length]

/-- The state after a packet that ends at a place of its segment, which is released when it is full. -/
def State.packetEnd (t : State) (ctx n : Nat) : State :=
  let u := (t.setCtxAt ctx { t.ctxAt ctx with trOff := some n }).bump
  if n = 65536 then u.releaseSeg ctx else u

theorem State.mem_releaseSeg (s : State) (ctx : Nat) : (s.releaseSeg ctx).mem = s.mem := by
  unfold State.releaseSeg
  dsimp only
  split <;> rfl

theorem State.ctxAt_releaseSeg (s : State) (ctx : Nat) : (s.releaseSeg ctx).ctxAt ctx =
    if (s.ctxAt ctx).trOff.isSome then { s.ctxAt ctx with trOff := none, trTail := (s.ctxAt ctx).trTail + 1 } else s.ctxAt ctx := by
  unfold State.releaseSeg
  dsimp only
  split
  · exact State.ctxAt_setCtxAt_self _ _ _
  · rfl

theorem State.mem_packetEnd (t : State) (ctx n : Nat) : (t.packetEnd ctx n).mem = t.mem := by
  unfold State.packetEnd
  dsimp only
  split
  · exact State.mem_releaseSeg _ _
  · rfl

theorem State.ctxAt_packetEnd (t : State) (ctx n : Nat) : (t.packetEnd ctx n).ctxAt ctx =
    if n = 65536 then { t.ctxAt ctx with trOff := none, trTail := (t.ctxAt ctx).trTail + 1 } else { t.ctxAt ctx with trOff := some n } := by
  have hput : ((t.setCtxAt ctx { t.ctxAt ctx with trOff := some n }).bump).ctxAt ctx = { t.ctxAt ctx with trOff := some n } :=
    State.ctxAt_setCtxAt_self _ _ _
  unfold State.packetEnd
  dsimp only
  split
  · rw [State.ctxAt_releaseSeg, hput]
    rfl
  · exact hput

section
variable {s : State} {ctx o : Nat} {payload : List Byte} (kind : Nat) (gap : Bool)

/-- No segment holds the packet and none may start: it is dropped. -/
theorem State.packet_drops (ho : (s.ctxAt ctx).trOff = none) (hr : ¬((s.ctxAt ctx).trTail - (s.ctxAt ctx).trHead).toNat < (s.ctxAt ctx).trNseg) :
    s.packet ctx kind gap payload = s.readTime.setCtxAt ctx { s.ctxAt ctx with trDrop := satUp (s.ctxAt ctx).trDrop } := by
  have hpad : s.readTime.padSeg ctx (16 + payload.length) = some s.readTime := by
    unfold State.padSeg
    rw [State.ctxAt_readTime, ho]
  have hat : (s.ctxAt ctx).packetAt = none := by
    unfold Ctx.packetAt
    rw [ho]
    exact if_neg hr
  unfold State.packet
  dsimp only
  rw [hpad]
  dsimp only
  rw [State.ctxAt_readTime, hat]
  simp only [satUp, beq_iff_eq]

variable (ho : (s.ctxAt ctx).trOff = some o ∨
    (s.ctxAt ctx).trOff = none ∧ o = 0 ∧ ((s.ctxAt ctx).trTail - (s.ctxAt ctx).trHead).toNat < (s.ctxAt ctx).trNseg)
  (hn : o + (16 + payload.length) ≤ 65536)
include ho hn

/-- A packet with its place in a segment: it is written there, or meets a fault. -/
theorem State.packet_placed : s.packet ctx kind gap payload =
    match s.readTime.traceWrite ctx o (packetBytes s.timeNow kind gap payload) with
    | none => s.readTime.traceFault ctx
    | some t => t.packetEnd ctx (o + (16 + payload.length)) := by
  have hpad : s.readTime.padSeg ctx (16 + payload.length) = some s.readTime := by
    unfold State.padSeg
    rw [State.ctxAt_readTime]
    rcases ho with ho | ⟨ho, -, -⟩
    · rw [ho]
      exact if_pos hn
    · rw [ho]
  have hat : (s.ctxAt ctx).packetAt = some o := by
    unfold Ctx.packetAt
    rcases ho with ho | ⟨ho, rfl, hr⟩
    · rw [ho]
    · rw [ho]
      exact if_pos hr
  unfold State.packet
  dsimp only
  rw [hpad]
  dsimp only
  rw [State.ctxAt_readTime, hat]
  rfl

variable (hp : noPartials s) {pg : Page} (hw : s.walk ctx ((s.ctxAt ctx).segVA + BitVec.ofNat 64 o) = .ok pg)
include hp hw

/-- A page without W, PROF and PIN, or a physical address that fails its check: the capture ends with FAULT. -/
theorem State.packet_faults (h : (pg.pte.getLsbD 3 && pg.pte.getLsbD 6 && pg.pte.getLsbD 11) = false ∨
    ∃ f, s.physCheck (pg.pa ((s.ctxAt ctx).segVA + BitVec.ofNat 64 o)) = .error f) :
    s.packet ctx kind gap payload = s.readTime.traceFault ctx := by
  have hnone : s.readTime.traceWrite ctx o (packetBytes s.timeNow kind gap payload) = none := by
    unfold State.traceWrite
    dsimp only
    rw [State.ctxAt_readTime, State.walk_readTime hp, hw]
    dsimp only
    rcases h with h | ⟨f, h⟩
    · rw [h]
      rfl
    · rw [State.physCheck_readTime, h]
      split <;> rfl
  rw [State.packet_placed kind gap ho hn, hnone]

variable (hm : (pg.pte.getLsbD 3 && pg.pte.getLsbD 6 && pg.pte.getLsbD 11) = true)
  (hl : s.isLocal (pg.pa ((s.ctxAt ctx).segVA + BitVec.ofNat 64 o)) = true)
  (hh : paLocal (pg.pa ((s.ctxAt ctx).segVA + BitVec.ofNat 64 o)) < hbmSize)
  (hb : s.blocked (pg.pa ((s.ctxAt ctx).segVA + BitVec.ofNat 64 o)) (16 + payload.length) true = false)
  (hs : s.inSpillRegion (paLocal (pg.pa ((s.ctxAt ctx).segVA + BitVec.ofNat 64 o))) = false)
include hm hl hh hb hs

/-- A packet that is written: its bytes in memory, and the place of the next one. -/
theorem State.packet_writes :
    (s.packet ctx kind gap payload).mem =
        memWrite s.mem (paLocal (pg.pa ((s.ctxAt ctx).segVA + BitVec.ofNat 64 o))) (packetBytes s.timeNow kind gap payload) ∧
      (s.packet ctx kind gap payload).ctxAt ctx = if o + (16 + payload.length) = 65536
        then { s.ctxAt ctx with trOff := none, trTail := (s.ctxAt ctx).trTail + 1 } else { s.ctxAt ctx with trOff := some (o + (16 + payload.length)) } := by
  have he := State.traceWrite_stores (s := s.readTime) (ctx := ctx) (off := o) (va := (s.ctxAt ctx).segVA + BitVec.ofNat 64 o) rfl
    ((State.walk_readTime hp _ _).trans hw) hm hl hh (packetBytes s.timeNow kind gap payload)
  let e := traceEntry ctx pg ((s.ctxAt ctx).segVA + BitVec.ofNat 64 o) (packetBytes s.timeNow kind gap payload)
  have hb' : s.readTime.blocked (pg.pa ((s.ctxAt ctx).segVA + BitVec.ofNat 64 o)) (packetBytes s.timeNow kind gap payload).length true = false := by
    rw [packetBytes_length]
    exact hb
  have hmem := (State.performStore_clear (s := s.readTime) hp none (e := e) hl hb' hs).1
  have hctx := State.performStore_ctxAt (s := s.readTime) hp none (e := e) rfl hl hb' hs ctx
  rw [State.packet_placed kind gap ho hn, he]
  dsimp only
  rw [State.mem_packetEnd, State.ctxAt_packetEnd, hctx]
  exact ⟨hmem, rfl⟩

end

theorem packetsHold_holds : packetsHold := by
  intro s ctx kind gap payload _ hp c n t bytes room
  refine ⟨fun ho hr => ?_, fun o pg ho hn => ?_⟩
  · have e : t = _ := State.packet_drops kind gap ho hr
    rw [e]
    exact ⟨rfl, State.ctxAt_setCtxAt_self _ _ _⟩
  intro va hw pa mayWrite
  refine ⟨fun h => ?_, fun hm hl hh hb hs => ?_⟩
  · have e : t = _ := State.packet_faults kind gap ho hn hp hw h
    rw [e]
    exact ⟨rfl, State.ctxAt_setCtxAt_self _ _ _⟩
  · obtain ⟨hmem, hctx⟩ := State.packet_writes kind gap ho hn hp hw hm hl hh hb hs
    have hlen := packetBytes_length s.timeNow kind gap payload
    refine ⟨fun i hi => ?_, fun a ha => ?_, hctx⟩
    · rw [hmem]
      exact memGet_memWrite _ _ _ _ (by rw [hlen]; exact hi)
    · rw [hmem]
      exact memGet_memWrite_other _ _ _ _ (by rw [hlen]; exact ha)

/-! ### The rerun of a replay (R437, R438, R446) -/

/-- Entries of other kinds or addresses than the log's next ones, or more of them, are not what the log has. -/
theorem asLogged_eq_false {es left : List LogEnt} (h : ¬(es.length ≤ left.length ∧ ∀ i, i < es.length →
    (es.getD i default).kind = (left.getD i default).kind ∧ (es.getD i default).addr = (left.getD i default).addr)) : asLogged es left = false := by
  by_contra hc
  rw [Bool.not_eq_false, asLogged, Bool.and_eq_true, decide_eq_true_eq, List.all_eq_true] at hc
  obtain ⟨hlen, hall⟩ := hc
  refine h ⟨hlen, fun i hi => ?_⟩
  have hi' : i < left.length := hi.trans_le hlen
  have := hall (es[i], left[i]) (List.mem_iff_getElem.mpr ⟨i, by rw [List.length_zip]; omega, List.getElem_zip⟩)
  rw [Bool.and_eq_true, beq_iff_eq, beq_iff_eq] at this
  rw [List.getD_eq_getElem _ _ hi, List.getD_eq_getElem _ _ hi']
  exact this

section
variable {s : State} {run : Instr → State → Out} {ctx : Nat} {r : Rerun}

/-- The replay has come to the start of the next interval. -/
theorem State.rerunCtx_ends {y : Snap} (hy : r.stop = some y) (hn : y.retired.toNat ≤ r.at'.grp.retired.toNat) :
    s.rerunCtx run ctx r = (s.ctxAt ctx).rerunEnd 0 (y.grp.digest == r.at'.grp.digest) := by
  have hdue : (r.stop.any fun y => decide (y.retired.toNat ≤ r.at'.grp.retired.toNat)) = true := by
    rw [hy]
    exact decide_eq_true hn
  unfold State.rerunCtx
  dsimp only
  rw [if_pos hdue, hy]
  rfl

/-- An instruction of the replay asks for an entry that the log does not have next. -/
theorem State.rerunCtx_diverges {a b : Grp} {t : State} (hs : ∀ y, r.stop = some y → r.at'.grp.retired.toNat < y.retired.toNat)
    (ha : s.loggedAt ctx r.at' r.at'.grp.retired = some a) (hb : s.loggedAt ctx r.at' (r.at'.grp.retired + 1) = some b)
    (ht : (s.replayView ctx r).replayTurn run = some t) (hl : asLogged (t.ctxAt ctx).log r.left = false) :
    s.rerunCtx run ctx r = (s.ctxAt ctx).rerunEnd 6 false := by
  have hdue : (r.stop.any fun y => decide (y.retired.toNat ≤ r.at'.grp.retired.toNat)) = false := by
    cases h : r.stop with
    | none => rfl
    | some y => exact decide_eq_false (Nat.not_le.mpr (hs y h))
  unfold State.rerunCtx
  dsimp only
  rw [hdue, ha, hb, ht]
  dsimp only
  rw [hl]
  rfl

end

/-! ### RESUME (R438, R439) -/

theorem Ctx.heldStops_nil {c : Ctx} (h : c.heldStops = []) : { c with heldStops := [] } = c := by rw [← h]

/-- The context after the RESUME of its replay. -/
theorem State.ctxAt_endReplay (s : State) (ctx : Nat) (x : Snap) : (s.endReplay ctx x).ctxAt ctx =
    let c := s.ctxAt ctx
    let d : Ctx := { c with replay := none, replayWritten := false, dbgState := 0 }
    if c.replayWritten then { d with rerun := some { at' := x, left := c.entriesFrom x, stop := c.endSnap x }, dbgDigok := false }
    else { d with dbgDigok := (c.endSnap x).isSome } := State.ctxAt_setCtxAt_self _ _ _

theorem State.heldStops_endReplay (s : State) (ctx : Nat) (x : Snap) : ((s.endReplay ctx x).ctxAt ctx).heldStops = (s.ctxAt ctx).heldStops := by
  rw [State.ctxAt_endReplay]
  dsimp only
  split <;> rfl

theorem State.hasStop_endReplay {s : State} {ctx : Nat} (x : Snap) (hg : (s.ctxAt ctx).stopGrp = none) :
    ((s.endReplay ctx x).ctxAt ctx).hasStop = false := by
  have h : ((s.endReplay ctx x).ctxAt ctx).stopGrp = none ∧ ((s.endReplay ctx x).ctxAt ctx).replay = none := by
    rw [State.ctxAt_endReplay]
    dsimp only
    split <;> exact ⟨hg, rfl⟩
  rw [Ctx.hasStop, h.1, h.2]
  rfl

/-- RESUME of a replay, with no stop held: the replay ends, and nothing else is reported. -/
theorem State.debugResume_endsReplay {s : State} {ctx : Nat} {x : Snap} (hL : s.pkg.lacks 7 = false) (hg : (s.ctxAt ctx).stopGrp = none)
    (hh : (s.ctxAt ctx).heldStops = []) (hx : (s.ctxAt ctx).replay = some x) :
    s.debugResume ctx = (s.endReplay ctx x).setCtxAt ctx ((s.endReplay ctx x).ctxAt ctx) := by
  have hh' := (s.heldStops_endReplay ctx x).trans hh
  unfold State.debugResume
  dsimp only
  rw [hL, hg, hx]
  dsimp only
  rw [if_neg Bool.false_ne_true, State.hasStop_endReplay x hg, if_neg Bool.false_ne_true, hh']
  exact congrArg ((s.endReplay ctx x).setCtxAt ctx) (Ctx.heldStops_nil hh')

theorem replaysHold_holds : replaysHold := by
  refine ⟨fun ctx s x hr hL => ?_, fun s run ctx r => ⟨fun y hy hn => ?_, fun a b t hs ha hb ht hes => ?_⟩⟩
  · intro c hg hh hx d
    have e := State.debugResume_endsReplay hL hg hh hx
    refine ⟨s.debugResume ctx, State.regEvent_eq hr (by rw [e]; rfl), by rw [e]; rfl, by rw [e]; rfl, ?_⟩
    rw [e, State.ctxAt_setCtxAt_self]
    exact s.ctxAt_endReplay ctx x
  · exact State.rerunCtx_ends hy hn
  · exact State.rerunCtx_diverges hs ha hb ht (asLogged_eq_false hes)

/-! ### Capture (R443, R444) -/

/-- The counters are read: memory and groups are as they were, and so are the counters that do not count time. -/
structure State.Counted (s w : State) (ctx : Nat) : Prop where
  mem : w.mem = s.mem
  groups : w.groups = s.groups
  met : w.met = s.met
  dbgTrace : (w.ctxAt ctx).dbgTrace = (s.ctxAt ctx).dbgTrace
  trGap : (w.ctxAt ctx).trGap = (s.ctxAt ctx).trGap
  pmcAt : ∀ j, j < 8 → timedCode (bankGet (s.ctxAt ctx).pmcSel 0 j) = false → (w.ctxAt ctx).pmcAt j = (s.ctxAt ctx).pmcAt j

theorem State.counted_pmcNow (s : State) (ctx : Nat) : s.Counted (s.pmcNow ctx) ctx := by
  unfold State.pmcNow
  dsimp only
  split
  · exact ⟨rfl, rfl, rfl, rfl, rfl, fun _ _ _ => rfl⟩
  have hput (c : Ctx) : ((s.setCtxAt ctx c).bump).ctxAt ctx = c := State.ctxAt_setCtxAt_self _ _ _
  refine ⟨rfl, rfl, rfl, ?_, ?_, fun j hj ht => ?_⟩ <;> rw [hput]
  rw [Ctx.pmcAt, bankGet, tab_getD _ _ hj, if_neg (by rw [ht]; exact Bool.false_ne_true)]
  exact BitVec.add_zero _

section
variable {s : State} {ctx : Nat}

theorem State.traceOn_of_on (h : (s.ctxAt ctx).dbgTrace = true) : s.traceOn ctx = s := if_pos h

theorem State.traceOff_of_off (h : (s.ctxAt ctx).dbgTrace = false) : s.traceOff ctx = s := by
  unfold State.traceOff
  dsimp only
  rw [h]
  rfl

/-- The state in which capture going on writes its packet. -/
def State.captureOn (s : State) (ctx : Nat) : State := (s.setCtxAt ctx { s.ctxAt ctx with dbgTrace := true, trGap := false }).pmcNow ctx

theorem State.traceOn_of_off (h : (s.ctxAt ctx).dbgTrace = false) :
    s.traceOn ctx = (s.captureOn ctx).packet ctx 1 false ((s.captureOn ctx).ctxAt ctx).pmcBytes :=
  if_neg (by rw [h]; exact Bool.false_ne_true)

/-- The state after the last packet of a capture. -/
def State.lastPacket (s : State) (ctx : Nat) : State := (s.pmcNow ctx).packet ctx 2 ((s.pmcNow ctx).ctxAt ctx).trGap ((s.pmcNow ctx).ctxAt ctx).pmcBytes
/-- The segment released and the capture over. -/
def State.captureOver (x : State) (ctx : Nat) : State := (x.releaseSeg ctx).setCtxAt ctx { (x.releaseSeg ctx).ctxAt ctx with dbgTrace := false }

theorem State.traceOff_of_on (h : (s.ctxAt ctx).dbgTrace = true) :
    s.traceOff ctx = if ((s.lastPacket ctx).ctxAt ctx).dbgTrace then (s.lastPacket ctx).captureOver ctx else s.lastPacket ctx := by
  have e : s.traceOff ctx = if !((s.lastPacket ctx).ctxAt ctx).dbgTrace then s.lastPacket ctx else (s.lastPacket ctx).captureOver ctx := by
    unfold State.traceOff
    dsimp only
    rw [h]
    rfl
  rw [e]
  cases ((s.lastPacket ctx).ctxAt ctx).dbgTrace <;> rfl

theorem State.met_captureOver (x : State) : (x.captureOver ctx).met = x.met := by
  unfold State.captureOver State.releaseSeg
  dsimp only
  split <;> rfl

theorem State.mem_captureOver (x : State) : (x.captureOver ctx).mem = x.mem := x.mem_releaseSeg ctx

theorem State.ctxAt_captureOver (x : State) : (x.captureOver ctx).ctxAt ctx =
    let d := x.ctxAt ctx
    { d with dbgTrace := false, trOff := none, trTail := if d.trOff.isSome then d.trTail + 1 else d.trTail } := by
  unfold State.captureOver
  rw [State.ctxAt_setCtxAt_self, State.ctxAt_releaseSeg]
  split
  · next h => dsimp only; rw [if_pos h]
  · next h =>
    dsimp only
    rw [if_neg h, ← Option.not_isSome_iff_eq_none.mp h]

variable (hr : s.pkg.inRecovery = false) (hL : s.pkg.lacks 7 = false)
include hr hL

theorem traceCaptureOn_eq (hm : (s.traceOn ctx).met = s.met) : exec (.traceCaptureOn ctx) s = .next (s.traceOn ctx) := by
  change s.regEvent (if s.pkg.lacks 7 then s else s.traceOn ctx) = _
  rw [hL]
  exact State.regEvent_eq hr hm

theorem traceCaptureOff_eq (hm : (s.traceOff ctx).met = s.met) : exec (.traceCaptureOff ctx) s = .next (s.traceOff ctx) := by
  change s.regEvent (if s.pkg.lacks 7 then s else s.traceOff ctx) = _
  rw [hL]
  exact State.regEvent_eq hr hm

end

theorem capturesHold_holds : capturesHold := by
  intro ctx s hr hL c counters counted
  refine ⟨fun h => ?_, fun h => ⟨?_, s.captureOn ctx, ?_⟩, fun h => ⟨s.pmcNow ctx, ?_⟩⟩
  · have e := State.traceOn_of_on h
    exact (traceCaptureOn_eq hr hL (by rw [e])).trans (by rw [e])
  · have e := State.traceOff_of_off h
    exact (traceCaptureOff_eq hr hL (by rw [e])).trans (by rw [e])
  · obtain ⟨hmem, hgroups, -, htrace, hgap, hpmc⟩ := State.counted_pmcNow (s.setCtxAt ctx { c with dbgTrace := true, trGap := false }) ctx
    rw [State.ctxAt_setCtxAt_self] at htrace hgap hpmc
    refine ⟨⟨hmem, hgroups, hpmc⟩, htrace, hgap, fun hu => ?_⟩
    have e := State.traceOn_of_off h
    exact (traceCaptureOn_eq hr hL (by rw [e]; exact hu)).trans (by rw [e]; rfl)
  · obtain ⟨hmem, hgroups, -, htrace, hgap, hpmc⟩ := State.counted_pmcNow s ctx
    refine ⟨⟨hmem, hgroups, hpmc⟩, htrace.trans h, ?_⟩
    have hx : (s.pmcNow ctx).packet ctx 2 c.trGap (counters (s.pmcNow ctx)) = s.lastPacket ctx := by
      unfold State.lastPacket
      rw [hgap]
      rfl
    rw [hx]
    intro x d hu
    have e := State.traceOff_of_on h
    refine ⟨fun hd => ?_, fun hd => ⟨(s.lastPacket ctx).captureOver ctx, ?_, State.mem_captureOver _, State.ctxAt_captureOver _⟩⟩
    · have e' := e.trans (if_neg (by rw [Bool.not_eq_true]; exact hd))
      exact (traceCaptureOff_eq hr hL (by rw [e']; exact hu)).trans (by rw [e'])
    · have e' := e.trans (if_pos hd)
      exact (traceCaptureOff_eq hr hL (by rw [e', State.met_captureOver]; exact hu)).trans (by rw [e'])

/-! ### A packet leaves every group as it was -/

theorem State.sameGrids_performStore (s : State) (core : Option Nat) {e : WbEntry} (hf : e.flag = none) : s.SameGrids (s.performStore core e) := by
  unfold State.performStore
  rw [hf]
  dsimp only
  split
  · exact s.sameGrids_homeWrite _ _ _ _
  · split
    · exact (s.sameGrids_dropFills _ _).trans (State.sameGrids_send _ _)
    · exact s.sameGrids_send _

theorem State.sameGrids_traceWrite {s t : State} {ctx off : Nat} {bs : List Byte} (h : s.traceWrite ctx off bs = some t) : s.SameGrids t := by
  unfold State.traceWrite at h
  dsimp only at h
  split at h
  · cases h
  split at h
  · cases h
  split at h <;> cases h
  exact s.sameGrids_performStore none rfl

theorem State.sameGrids_releaseSeg (s : State) (ctx : Nat) : s.SameGrids (s.releaseSeg ctx) := by
  unfold State.releaseSeg
  dsimp only
  split
  · exact s.sameGrids_setCtxAt _ _
  · exact .refl s

theorem State.sameGrids_padSeg {s t : State} {ctx n : Nat} (h : s.padSeg ctx n = some t) : s.SameGrids t := by
  unfold State.padSeg at h
  split at h
  · split at h
    · cases h
      exact .refl s
    · rw [Option.map_eq_some_iff] at h
      obtain ⟨u, hu, rfl⟩ := h
      exact (State.sameGrids_traceWrite hu).trans (u.sameGrids_releaseSeg ctx)
  · cases h
    exact .refl s

theorem State.sameGrids_packetEnd (t : State) (ctx n : Nat) : t.SameGrids (t.packetEnd ctx n) := by
  have hput : t.SameGrids (t.setCtxAt ctx { t.ctxAt ctx with trOff := some n }).bump := ⟨rfl, rfl, rfl, rfl⟩
  unfold State.packetEnd
  dsimp only
  split
  · exact hput.trans (State.sameGrids_releaseSeg _ ctx)
  · exact hput

theorem State.sameGrids_packet (s : State) (ctx kind : Nat) (gap : Bool) (payload : List Byte) : s.SameGrids (s.packet ctx kind gap payload) := by
  have hr : s.SameGrids s.readTime := ⟨rfl, rfl, rfl, rfl⟩
  have hf : s.SameGrids (s.traceFault ctx) := s.sameGrids_setCtxAt _ _
  unfold State.packet
  dsimp only
  cases hp : s.readTime.padSeg ctx (16 + payload.length) with
  | none => exact hf
  | some t =>
    have ht := hr.trans (State.sameGrids_padSeg hp)
    dsimp only
    split
    · exact ht.trans (t.sameGrids_setCtxAt _ _)
    next o _ =>
    split
    · exact ht.trans (t.sameGrids_setCtxAt _ _)
    next u hu =>
    exact (ht.trans (State.sameGrids_traceWrite hu)).trans (u.sameGrids_packetEnd ctx _)

theorem State.sameGrids_stopPacket (s : State) (ctx grp : Nat) (code : W32) : s.SameGrids (s.stopPacket ctx grp code) := by
  unfold State.stopPacket
  dsimp only
  split
  · exact s.sameGrids_packet _ _ _ _
  · exact .refl s

theorem State.sameGrids_report (s : State) (ctx grp : Nat) (bk : Option W32) : s.SameGrids (s.report ctx grp bk) := by
  unfold State.report
  exact (s.sameGrids_setCtxAt _ _).trans (State.sameGrids_stopPacket _ _ _ _)

/-- A group that meets a stop condition is stopped, whether the stop is reported or waits. -/
theorem State.grpAt_stopGroup (s : State) (grp : Nat) (bk : Option W32) : (s.stopGroup grp bk).grpAt grp = { s.grpAt grp with stopped := true } := by
  have hput := s.grpAt_setGrpAt_self grp { s.grpAt grp with stopped := true }
  unfold State.stopGroup
  dsimp only
  split
  · exact hput
  · rw [State.grpAt, (State.sameGrids_report _ _ _ _).groups]
    exact hput

theorem State.mayIssue_stopped {s : State} {grp : Nat} (h : (s.grpAt grp).stopped = true) : s.mayIssue grp = false := by
  unfold State.mayIssue
  dsimp only
  rw [h]
  simp

/-! ### Snapshots (R434) -/

/-- A group whose snapshot has been logged. -/
def Grp.snapshotted (g : Grp) (fresh : Bool) : Grp :=
  if fresh then { g with snapped := some g.retired, crossed := false, digest := 0, logSeen := [], image := [] } else { g with snapped := some g.retired }

/-- The group with its snapshot logged, before the log is written. -/
def State.snapshotted (s : State) : State :=
  (s.modC fun c => { c with snaps := c.snaps ++ [s.snapOf s.ptab true] }).modG fun g => g.snapshotted (s.g.newInterval s.c.dbgIntv)

theorem State.grpAt_logWrite (s : State) (n k : Nat) : (s.logWrite n).grpAt k = s.grpAt k := rfl

theorem snapshot_logs {s : State} {grp : Nat} (h : s.snapDue grp = true) :
    exec (.snapshot grp) s = .next ((s.focusGrp grp).snapshotted.logWrite (snapBytes (s.focusGrp grp).snapshotted.g)) :=
  if_neg (by rw [h]; exact Bool.false_ne_true)

theorem State.grpAt_snapshotted (s : State) (grp : Nat) :
    (s.focusGrp grp).snapshotted.grpAt grp = (s.grpAt grp).snapshotted ((s.grpAt grp).newInterval (s.focusGrp grp).c.dbgIntv) :=
  State.g_modG (State.modC (s.focusGrp grp) _) _

/-! ### The register writes of the debugger -/

/-- In recovery, or where it would change nothing, a register write changes nothing. -/
theorem State.regEvent_still {s t : State} (h : s.pkg.inRecovery = true ∨ t = s) : s.regEvent t = .next s := by
  unfold State.regEvent
  rcases h with h | rfl
  · rw [h]
    rfl
  · rw [State.unmet, if_pos rfl, ite_self]

theorem debugEvents_still {s : State} (h : s.pkg.lacks 7 = true ∨ s.pkg.inRecovery = true) (ctx : Nat) (i : Byte) (part : BitVec 2) (spec : Byte) (l : BitVec 6) :
    exec (.arm ctx i part) s = .next s ∧ exec (.disarm ctx) s = .next s ∧ exec (.debugRead ctx spec l) s = .next s ∧
    exec (.debugWrite ctx spec l) s = .next s ∧ exec (.debugForceWrite ctx spec l) s = .next s ∧ exec (.traceCaptureOn ctx) s = .next s ∧
    exec (.traceCaptureOff ctx) s = .next s := by
  have still {t : State} (ht : s.pkg.lacks 7 = true → t = s) : s.regEvent t = .next s := State.regEvent_still (h.symm.imp_right ht)
  refine ⟨still fun hL => ?_, still fun hL => if_pos hL, still fun hL => if_pos hL, still fun hL => if_pos hL, still fun hL => if_pos hL,
    still fun hL => if_pos hL, still fun hL => if_pos hL⟩
  exact if_pos (by rw [hL]; rfl)

/-- The target that the registers of a stop name (R432, R438). -/
def State.stopTarget (s : State) (ctx : Nat) (i : Byte) (part : BitVec 2) : StopName :=
  { gid := (s.ctxAt ctx).stopGid, team := (s.ctxAt ctx).stopTeam, idx := i.toNat, part := part.toNat, ret := (s.ctxAt ctx).stopRet }

/-- The stopped group of a context goes on (R439). -/
def State.goneOn (s : State) (ctx k : Nat) : State :=
  (s.setGrpAt k { s.grpAt k with
    stopped := false, stepOver := if (s.ctxAt ctx).dbgBk then some ((s.grpAt k).iss.pc, (s.grpAt k).retired) else none }).setCtxAt ctx
      { s.ctxAt ctx with stopGrp := none, dbgState := 0 }

theorem State.grpAt_goneOn (s : State) (ctx k : Nat) : (s.goneOn ctx k).grpAt k = { s.grpAt k with
    stopped := false, stepOver := if (s.ctxAt ctx).dbgBk then some ((s.grpAt k).iss.pc, (s.grpAt k).retired) else none } :=
  State.grpAt_setGrpAt_self _ _ _

theorem stopReached_stops {s : State} {grp : Nat} (h : s.stopDue grp = true) :
    ∃ t, exec (.stopReached grp) s = .next t ∧ (t.grpAt grp).stopped = true ∧ t.mayIssue grp = false := by
  refine ⟨_, if_neg (by rw [h]; exact Bool.false_ne_true), ?_, State.mayIssue_stopped ?_⟩ <;> rw [State.grpAt_stopGroup]

/-! ### Access to the stopped group (R440, R441) -/

theorem State.met_setDbgGroup (s : State) (ctx : Nat) (g : Grp) : (s.setDbgGroup ctx g).met = s.met := by
  unfold State.setDbgGroup
  dsimp only
  split <;> rfl

/-- The state in which a read of the debugger finds its value: a result still to come has come. -/
def State.dbgWaited (s : State) (ctx : Nat) (spec : Byte) (lane : Nat) : State :=
  match s.dbgGroup ctx, (s.ctxAt ctx).stopGrp with
  | some g, some k => if g.dbgPending spec lane then (match execMmaComplete k s with | .next t => t | _ => s) else s
  | _, _ => s

theorem State.dbgRead_eq (s : State) (ctx : Nat) (spec : Byte) (lane : Nat) : s.dbgRead ctx spec lane =
    let t := s.dbgWaited ctx spec lane
    match (t.dbgGroup ctx).bind fun g => g.dbgGet spec (if (Opnd.ofByte spec).any Opnd.isS then 0 else lane) with
    | some (x, poi) => t.setCtxAt ctx { t.ctxAt ctx with dbgData := x, dbgAccPoison := poi, dbgAccStatus := 0 }
    | none => t.dbgStatus ctx 2 := rfl

theorem State.dbgWaited_of_free {s : State} {ctx lane : Nat} {spec : Byte} {g : Grp} (hg : s.dbgGroup ctx = some g)
    (hp : g.dbgPending spec lane = false) : s.dbgWaited ctx spec lane = s := by
  unfold State.dbgWaited
  rw [hg]
  cases (s.ctxAt ctx).stopGrp with
  | none => rfl
  | some k => exact if_neg (by rw [hp]; exact Bool.false_ne_true)

section
variable {s : State} {ctx : Nat} (hr : s.pkg.inRecovery = false) (hL : s.pkg.lacks 7 = false)
include hr hL

/-- No group answers to the name yet, and its grid can still place it: the stop is armed. -/
theorem arm_arms (i : Byte) (part : BitVec 2) (h2 : s.dbgState ctx ≠ 2) (h3 : s.dbgState ctx ≠ 3)
    (hn : ∀ e ∈ s.groups, s.hasName (s.stopTarget ctx i part) e.1 = false)
    (hg : ∃ e ∈ s.grids, e.2.ctx = ctx ∧ e.2.lrec.gid = (s.ctxAt ctx).stopGid ∧ (e.2.phase = .pending ∨ e.2.phase = .running)) :
    exec (.arm ctx i part) s = .next (s.setCtxAt ctx { s.ctxAt ctx with armed := some (s.stopTarget ctx i part), dbgState := 0, stopGrp := none }) := by
  have hno : (s.pkg.lacks 7 || s.dbgState ctx == 2 || s.dbgState ctx == 3) = false := by
    rw [hL, beq_eq_false_iff_ne.mpr h2, beq_eq_false_iff_ne.mpr h3]
    rfl
  have hmine : (s.groups.keys.filter fun k => s.hasName (s.stopTarget ctx i part) k && (s.gridAt (s.teamAt (s.grpAt k).team).grid).ctx == ctx) = [] := by
    refine List.filter_eq_nil_iff.mpr fun k hk => ?_
    obtain ⟨e, he, rfl⟩ := List.mem_map.mp hk
    rw [hn e he]
    exact Bool.false_ne_true
  have hplace : (s.grids.any fun e => e.2.ctx == ctx && e.2.lrec.gid == (s.stopTarget ctx i part).gid && (e.2.phase == .pending || e.2.phase == .running)) = true := by
    obtain ⟨e, he, hc, hgid, hph⟩ := hg
    refine List.any_eq_true.mpr ⟨e, he, ?_⟩
    rw [beq_iff_eq.mpr hc, beq_iff_eq.mpr (show e.2.lrec.gid = (s.stopTarget ctx i part).gid from hgid)]
    rcases hph with hph | hph <;> rw [hph] <;> rfl
  have e : s.arm ctx i part = s.setCtxAt ctx { s.ctxAt ctx with armed := some (s.stopTarget ctx i part), dbgState := 0, stopGrp := none } := by
    unfold State.arm
    dsimp only
    rw [hno, if_neg Bool.false_ne_true]
    unfold State.stopTarget at hmine hplace
    rw [hmine]
    dsimp only [List.find?_nil]
    rw [hplace]
    rfl
  exact (State.regEvent_eq hr (by rw [e]; rfl)).trans (by rw [e])

theorem disarm_cancels : exec (.disarm ctx) s = .next (s.setCtxAt ctx { s.ctxAt ctx with armed := none, dbgState := 0 }) := by
  have e : s.disarm ctx = s.setCtxAt ctx { s.ctxAt ctx with armed := none, dbgState := 0 } := if_neg (by rw [hL]; exact Bool.false_ne_true)
  exact (State.regEvent_eq hr (by rw [e]; rfl)).trans (by rw [e])

/-- RESUME of a group, with no stop held and no replay. -/
theorem debugResume_resumes {k : Nat} (hk : (s.ctxAt ctx).stopGrp = some k) (hh : (s.ctxAt ctx).heldStops = []) (hx : (s.ctxAt ctx).replay = none) :
    exec (.debugResume ctx) s = .next ((s.goneOn ctx k).setCtxAt ctx { s.ctxAt ctx with stopGrp := none, dbgState := 0 }) := by
  have e : s.debugResume ctx = (s.goneOn ctx k).setCtxAt ctx { s.ctxAt ctx with stopGrp := none, dbgState := 0 } := by
    have hc : (s.goneOn ctx k).ctxAt ctx = { s.ctxAt ctx with stopGrp := none, dbgState := 0 } := State.ctxAt_setCtxAt_self _ _ _
    have hstop : ((s.goneOn ctx k).ctxAt ctx).hasStop = false := by
      rw [hc, Ctx.hasStop, hx]
      rfl
    have hheld : ((s.goneOn ctx k).ctxAt ctx).heldStops = [] := by
      rw [hc]
      exact hh
    unfold State.goneOn at *
    unfold State.debugResume
    dsimp only at *
    rw [hL, hk]
    dsimp only
    rw [if_neg Bool.false_ne_true, hstop, if_neg Bool.false_ne_true, hheld, List.filter_nil]
    exact congrArg (State.setCtxAt _ ctx) ((Ctx.heldStops_nil hheld).trans hc)
  exact (State.regEvent_eq hr (by rw [e]; rfl)).trans (by rw [e])

section
variable {spec : Byte} {l : BitVec 6} {g : Grp} (hg : s.dbgGroup ctx = some g) (hp : g.dbgPending spec l.toNat = false) {x : W64} {poi : Bool}
  (hx : g.dbgGet spec (if (Opnd.ofByte spec).any Opnd.isS then 0 else l.toNat) = some (x, poi))
include hg hp hx

theorem debugRead_reads : exec (.debugRead ctx spec l) s = .next (s.setCtxAt ctx { s.ctxAt ctx with dbgData := x, dbgAccPoison := poi, dbgAccStatus := 0 }) := by
  have e : (if s.pkg.lacks 7 then s else s.dbgRead ctx spec l.toNat) =
      s.setCtxAt ctx { s.ctxAt ctx with dbgData := x, dbgAccPoison := poi, dbgAccStatus := 0 } := by
    rw [hL, if_neg Bool.false_ne_true, State.dbgRead_eq, State.dbgWaited_of_free hg hp]
    dsimp only
    rw [hg, Option.bind_some, hx]
  exact (State.regEvent_eq hr (by rw [e]; rfl)).trans (by rw [e])

/-- A write that finds its result still to come, without FORCE, is BUSY. -/
theorem debugWrite_busy (hl : s.dbgLate ctx spec l.toNat = true) : exec (.debugWrite ctx spec l) s = .next (s.dbgStatus ctx 1).bump := by
  have e : (if s.pkg.lacks 7 then s else s.dbgWrite ctx spec l.toNat false) = (s.dbgStatus ctx 1).bump := by
    rw [hL, if_neg Bool.false_ne_true, State.dbgWrite, hg]
    dsimp only
    rw [hx, hp, hl]
    rfl
  exact (State.regEvent_eq hr (by rw [e]; rfl)).trans (by rw [e])

omit hr hL in
/-- A write whose result is not still to come, or that is forced, stands. -/
theorem State.dbgWrite_writes {force : Bool} (hl : (s.dbgLate ctx spec l.toNat && !force) = false) :
    s.dbgWrite ctx spec l.toNat force = (s.setDbgGroup ctx (g.dbgSet spec l.toNat (s.ctxAt ctx).dbgData)).dbgStatus ctx 0 := by
  rw [State.dbgWrite, hg]
  dsimp only
  rw [hx, hp, hl]
  rfl

theorem debugWrite_writes (hl : s.dbgLate ctx spec l.toNat = false) :
    exec (.debugWrite ctx spec l) s = .next ((s.setDbgGroup ctx (g.dbgSet spec l.toNat (s.ctxAt ctx).dbgData)).dbgStatus ctx 0) := by
  have e : (if s.pkg.lacks 7 then s else s.dbgWrite ctx spec l.toNat false) = _ :=
    (if_neg (by rw [hL]; exact Bool.false_ne_true)).trans (State.dbgWrite_writes hg hp hx (by rw [hl]; rfl))
  exact (State.regEvent_eq hr (by rw [e]; exact s.met_setDbgGroup _ _)).trans (by rw [e])

theorem debugForceWrite_writes :
    exec (.debugForceWrite ctx spec l) s = .next ((s.setDbgGroup ctx (g.dbgSet spec l.toNat (s.ctxAt ctx).dbgData)).dbgStatus ctx 0) := by
  have e : (if s.pkg.lacks 7 then s else s.dbgWrite ctx spec l.toNat true) = _ :=
    (if_neg (by rw [hL]; exact Bool.false_ne_true)).trans (State.dbgWrite_writes hg hp hx (Bool.and_false _))
  exact (State.regEvent_eq hr (by rw [e]; exact s.met_setDbgGroup _ _)).trans (by rw [e])

end

end

theorem debugEventsHold_holds : debugEventsHold := by
  refine ⟨fun ctx s i part spec l h => debugEvents_still h ctx i part spec l, fun ctx s hL hr => ?_⟩
  intro c
  refine ⟨fun grp h => ?_, fun i part h2 h3 hn hg => ?_, fun grp h => stopReached_stops h, disarm_cancels hr hL, fun k hk hh hx => ?_,
    fun spec l g x poi hg hp hx => ⟨debugRead_reads hr hL hg hp hx, debugWrite_busy hr hL hg hp hx, debugWrite_writes hr hL hg hp hx,
      debugForceWrite_writes hr hL hg hp hx⟩, fun grp kind times x => ?_⟩
  · refine ⟨_, snapshot_logs h, ?_⟩
    rw [State.grpAt_logWrite, State.grpAt_snapshotted, Grp.snapshotted]
    split <;> exact ⟨rfl, rfl, rfl, rfl, rfl⟩
  · refine ⟨_, arm_arms hr hL i part h2 h3 hn hg, ?_⟩
    rw [State.ctxAt_setCtxAt_self]
    rfl
  · refine ⟨_, debugResume_resumes hr hL hk hh hx, ?_⟩
    rw [State.grpAt_setCtxAt, State.grpAt_goneOn, State.ctxAt_setCtxAt_self]
    exact ⟨rfl, rfl, rfl⟩
  · intro k d hd hf
    change execSamplePacket grp kind times s = _
    unfold execSamplePacket
    dsimp only
    rw [hf]
    dsimp only
    rw [hd]
    rfl

/-- Settles O53: each register write of the debugger as its event leaves the state, the ends of a replay, and a packet by the place it gets, of which
capture writes its first and its last. -/
theorem debugging : Obligations.Debugging := ⟨debugEventsHold_holds, replaysHold_holds, packetsHold_holds, capturesHold_holds⟩

end Sys2Proof.Machine
end
